-- ==== Sys2Proof/Word.lean ====
section
/-! DEFINITION. The machine's words and their plainest arithmetic (R6, R10). -/

namespace Sys2Proof

/-- A scalar register, address or CSR value: 64 bits. -/
abbrev W64 := BitVec 64

/-- One instruction slot of a bundle: 32 bits (R41). -/
abbrev W32 := BitVec 32

/-- One byte of memory. -/
abbrev Byte := BitVec 8

/-- A vector register: 4,096 bits (R17). -/
abbrev VWord := BitVec 4096

/-- A lane mask: 128 bits (R18). -/
abbrev MWord := BitVec 128

end Sys2Proof
end

