-- ==== Sys2Proof/Syntax.lean ====
section
/-! DEFINITION. The instructions and machine steps of the Praesh K4: one constructor for each row of
spec/opcode_table.json.  A C-slot constructor carries its word's header (stall count and literal, R42, R43);
an A-slot constructor carries the fields of R51 to R54; the last group are the steps of the machine that
have no encoding (spec/95_what_each_step_holds.md). -/

namespace Sys2Proof

/-- A scalar register field (R13); the field values 29 to 31 name nothing. -/
inductive SReg where
  | s (n : BitVec 4)
  | d (n : BitVec 3)
  | zr
  | ix
  | ci
  | fd
  | ck
  deriving DecidableEq, Repr

/-- A vector register v0 to v15 (R51). -/
abbrev VReg := BitVec 4

/-- A mask register m0 to m3 (R51). -/
abbrev MReg := BitVec 2

/-- A tile-table entry t0 to t63 (R50). -/
abbrev TileNo := BitVec 6

/-- An accumulator c0 to c3. -/
abbrev AccNo := BitVec 2

/-- The scopes of R9, narrowest first; sc codes 0 to 4 of R50. -/
inductive Scope where
  | core
  | quad
  | die
  | pkg
  | pod
  deriving DecidableEq, Repr

/-- The common fields of word 0 (R42): the stall count, and the literal K of a lone bundle (L = 1). -/
structure Hdr where
  st : BitVec 3
  lit : Option (BitVec 32)
  deriving DecidableEq, Repr

/-- The fields sz, ord, sc and dsp of LD, LDS and ST (R50). -/
structure MemMod where
  sz : BitVec 2
  ord : BitVec 2
  sc : Scope
  dsp : BitVec 5
  deriving DecidableEq, Repr

/-- The fields ord, sc and dsp of the full/empty forms (R50, R173). -/
structure FeMod where
  ord : BitVec 2
  sc : Scope
  dsp : BitVec 5
  deriving DecidableEq, Repr

/-- The second operand of a scalar integer opcode (R52): a register with its .w bit, or a 10-bit immediate. -/
inductive Opnd2 where
  | reg (rb : SReg) (w : Bool)
  | imm (i : BitVec 10)
  deriving DecidableEq, Repr

/-- The modifier of IUN (R52, R62): .w, or the I = 1 fallback whose ten immediate bits are ignored. -/
inductive UOpnd where
  | std (w : Bool)
  | imm (ignored : BitVec 10)
  deriving DecidableEq, Repr

/-- The rounding fields N and RM of the scalar floating opcodes (R53). -/
structure FRnd where
  n : Bool
  rm : BitVec 2
  deriving DecidableEq, Repr

/-- The element types of R54. -/
inductive VTy where
  | f32
  | bf16
  | f16
  | i32
  | n32
  | i16
  | i8
  | n8
  deriving DecidableEq, Repr

/-- The mask and type of a vector opcode (R54). -/
structure VMod where
  msk : MReg
  ty : VTy
  deriving DecidableEq, Repr

/-- The rb operand of a vector opcode (R54, R189): a vector register, or (S = 1) a scalar to broadcast. -/
inductive VSrc where
  | v (n : VReg)
  | sc (r : SReg)
  deriving DecidableEq, Repr

/-- The VCVT target codes of R60. -/
inductive CvtCode where
  | f32
  | bf16
  | f16
  | i32
  | n32
  | i16
  | i8
  | n8
  | e4m3
  | e5m2
  | e2m3
  | e3m2
  | e2m1
  | i4
  | ds8
  deriving DecidableEq, Repr

/-- The element sizes of VGTH and VSCT (R208). -/
inductive GSize where
  | byte
  | half
  | word
  deriving DecidableEq, Repr

/-- The destination types of VLDM (R210). -/
inductive MxDest where
  | f32
  | bf16
  | f16
  deriving DecidableEq, Repr

/-- The OCP MX element formats (R92, R210, R241). -/
inductive MxElem where
  | e4m3
  | e5m2
  | e2m3
  | e3m2
  | e2m1
  | int8
  deriving DecidableEq, Repr

/-- What the firmware sets on the cores and in the control block of a partition it forms (R23, R248, R366, R377). -/
structure FwConf where
  sfb : BitVec 64
  sfs : BitVec 64
  ptroot : BitVec 64
  wentry : BitVec 64
  tvec : BitVec 64
  /-- The bytes of the revision store (R308); the traveller area's first address and bytes (R330); the save area's first address,
  and the messages that its message section has room for (R391). -/
  revBytes : Nat
  travBase : Nat
  travBytes : Nat
  saveBase : Nat
  msgRoom : Nat
  ctbase : BitVec 64
  ctcnt : BitVec 64
  hfqbase : BitVec 64
  hfqsz : BitVec 64
  dlbase : BitVec 64
  dlsz : BitVec 64
  clbase : BitVec 64
  clsz : BitVec 64
  /-- Permitted physical ranges (R297), device partitions that receive travellers (R360), ranges closed to the host (R363). -/
  ranges : List (Nat × Nat)
  pods : List (Nat × Nat)
  closed : List (Nat × Nat)
  deriving DecidableEq, Repr

/-- The instructions: C-slot rows, A-slot rows, and the steps that no word encodes.  What a step acts on stands in an
Ev, which the machine holds beside it. -/
inductive Instr where
  /-- CNOP (R129). C-slot no operation; changes no state except PC and the stall count. -/
  | cnop (h : Hdr)
  /-- LI (R153). Loads a sign-extended immediate, a lone literal or an EXT-extended 64-bit literal into rd. -/
  | li (h : Hdr) (rd : SReg) (imm : BitVec 12)
  /-- LIH (R153). Places the immediate in bits [63:32] above the low half of ra. -/
  | lih (h : Hdr) (rd : SReg) (ra : SReg) (imm : BitVec 12)
  /-- ADDI (R153). Adds a sign-extended immediate, lone literal or extended literal to ra, modulo 2^64. -/
  | addi (h : Hdr) (rd : SReg) (ra : SReg) (imm : BitVec 12)
  /-- BR (R130). Unconditional forward branch to PC + 8 + off*8. -/
  | br (h : Hdr) (off : BitVec 14)
  /-- BC_EQZ (R130). Waits for ra and branches forward when it is zero. -/
  | bcEqz (h : Hdr) (ra : SReg) (off : BitVec 14)
  /-- BC_NEZ (R130). Waits for ra and branches forward when it is non-zero. -/
  | bcNez (h : Hdr) (ra : SReg) (off : BitVec 14)
  /-- BC_LTZ (R130). Waits for ra and branches forward when it is negative. -/
  | bcLtz (h : Hdr) (ra : SReg) (off : BitVec 14)
  /-- BC_GEZ (R130). Waits for ra and branches forward when it is zero or positive. -/
  | bcGez (h : Hdr) (ra : SReg) (off : BitVec 14)
  /-- BC_GTZ (R130). Waits for ra and branches forward when it is positive. -/
  | bcGtz (h : Hdr) (ra : SReg) (off : BitVec 14)
  /-- BC_LEZ (R130). Waits for ra and branches forward when it is zero or negative. -/
  | bcLez (h : Hdr) (ra : SReg) (off : BitVec 14)
  /-- BC_FULL (R130). Branches forward when ra's presence bit is set, without waiting. -/
  | bcFull (h : Hdr) (ra : SReg) (off : BitVec 14)
  /-- BC_EMPTY (R130). Branches forward when ra's presence bit is clear, without waiting. -/
  | bcEmpty (h : Hdr) (ra : SReg) (off : BitVec 14)
  /-- CALL (R131). Pushes PC + 8 on the return stack, spilling if full, and jumps by off or a lone K. -/
  | call (h : Hdr) (off : BitVec 14)
  /-- CALLX (R131). Pushes PC + 8 and jumps to the address in ra. -/
  | callx (h : Hdr) (ra : SReg)
  /-- RET (R131). Pops the return stack, refilling from cfp when empty, and jumps there. -/
  | ret (h : Hdr)
  /-- BRX (R132). Jumps forward to the address in ra; a backward or misaligned target faults. -/
  | brx (h : Hdr) (ra : SReg)
  /-- CREATE (R133). Reads a family descriptor, allocates the family on its place or applies the fallback, and returns its id. -/
  | create (h : Hdr) (rd : SReg) (ra : SReg) (rb : SReg)
  /-- CREATE_REV (R133). Creates a revision-isolated task with a new revision id. -/
  | createRev (h : Hdr) (rd : SReg) (ra : SReg) (rb : SReg)
  /-- CREATE_DET (R134). Creates a detached family that decrements a tagged join counter when it ends. -/
  | createDet (h : Hdr) (rd : SReg) (ra : SReg) (rb : SReg) (rev : Bool)
  /-- SYNC (R136). Checks a family id and waits for the family to be done, then merges, writes shareds, flags and status. -/
  | sync (h : Hdr) (rd : SReg) (ra : SReg)
  /-- BREAK (R137). Records the issuing member as a breaking candidate and kills higher members if it wins. -/
  | breakFam (h : Hdr) (ra : SReg)
  /-- END (R138). Syncs own families, sends unwritten shareds, ORs flags into the family and frees or passes the slot. -/
  | endThread (h : Hdr)
  /-- KILL (R139). Kills a family and all families created by its members. -/
  | kill (h : Hdr) (ra : SReg)
  /-- FSTAT_STATUS (R140). Returns the family's status without waiting. -/
  | fstatStatus (h : Hdr) (rd : SReg) (ra : SReg)
  /-- FSTAT_BVAL (R140). Returns the family's break value. -/
  | fstatBval (h : Hdr) (rd : SReg) (ra : SReg)
  /-- FSTAT_BIDX (R140). Returns the winning breaker's index. -/
  | fstatBidx (h : Hdr) (rd : SReg) (ra : SReg)
  /-- FSTAT_REPLAY (R140). Returns the family's replay count. -/
  | fstatReplay (h : Hdr) (rd : SReg) (ra : SReg)
  /-- YIELD (R141). Ends the slice after its families end and submits the continuation record at ra. -/
  | yieldSlice (h : Hdr) (ra : SReg)
  /-- TRAVEL (R142). Packs the thread and moves it to the home die or device of an address. -/
  | travel (h : Hdr) (ra : SReg)
  /-- BAR (R145). Counts one arrival at a barrier instance and waits for the phase to close. -/
  | bar (h : Hdr) (sc : Scope) (id : BitVec 3)
  /-- BARCFG (R145). Sets the COUNT of a barrier instance. -/
  | barcfg (h : Hdr) (ra : SReg) (sc : Scope) (id : BitVec 3)
  /-- LD (R172). Loads a zero-extended byte, half, word or dword with optional acquire ordering. -/
  | ld (h : Hdr) (rd : SReg) (ra : SReg) (m : MemMod)
  /-- LDS (R172). Loads a sign-extended byte, half or word. -/
  | lds (h : Hdr) (rd : SReg) (ra : SReg) (m : MemMod)
  /-- ST (R172). Posts a store of rd to memory with optional release ordering. -/
  | st (h : Hdr) (rd : SReg) (ra : SReg) (m : MemMod)
  /-- LDF (R173). Waits until a tagged word is full and reads it, leaving it full. -/
  | ldf (h : Hdr) (rd : SReg) (ra : SReg) (m : FeMod)
  /-- LDFE (R173). Waits until a tagged word is full, reads it and sets it empty. -/
  | ldfe (h : Hdr) (rd : SReg) (ra : SReg) (m : FeMod)
  /-- STEF (R173). Waits until a tagged word is empty, writes it and sets it full. -/
  | stef (h : Hdr) (rd : SReg) (ra : SReg) (m : FeMod)
  /-- STF (R173). Writes a tagged word and sets it full without waiting. -/
  | stf (h : Hdr) (rd : SReg) (ra : SReg) (m : FeMod)
  /-- FECLR (R176). Sets a word's full/empty tag empty. -/
  | feclr (h : Hdr) (ra : SReg)
  /-- FEGET (R176). Returns 1 if a word's tag is full, 0 if empty. -/
  | feget (h : Hdr) (rd : SReg) (ra : SReg)
  /-- FESET (R176). Sets a word's tag full as a release. -/
  | feset (h : Hdr) (ra : SReg)
  /-- AMO_ADD (R177). Atomically adds rb to the word or dword at its home and returns the old value. -/
  | amoAdd (h : Hdr) (rd : SReg) (ra : SReg) (rb : SReg) (w : Bool) (od : BitVec 2)
  /-- AMO_AND (R177). Atomic AND at the home, returning the old value. -/
  | amoAnd (h : Hdr) (rd : SReg) (ra : SReg) (rb : SReg) (w : Bool) (od : BitVec 2)
  /-- AMO_OR (R177). Atomic OR at the home, returning the old value. -/
  | amoOr (h : Hdr) (rd : SReg) (ra : SReg) (rb : SReg) (w : Bool) (od : BitVec 2)
  /-- AMO_XOR (R177). Atomic XOR at the home, returning the old value. -/
  | amoXor (h : Hdr) (rd : SReg) (ra : SReg) (rb : SReg) (w : Bool) (od : BitVec 2)
  /-- AMO_SMIN (R177). Atomic signed minimum at the home. -/
  | amoSmin (h : Hdr) (rd : SReg) (ra : SReg) (rb : SReg) (w : Bool) (od : BitVec 2)
  /-- AMO_SMAX (R177). Atomic signed maximum at the home. -/
  | amoSmax (h : Hdr) (rd : SReg) (ra : SReg) (rb : SReg) (w : Bool) (od : BitVec 2)
  /-- AMO_NMIN (R177). Atomic unsigned minimum at the home. -/
  | amoNmin (h : Hdr) (rd : SReg) (ra : SReg) (rb : SReg) (w : Bool) (od : BitVec 2)
  /-- AMO_NMAX (R177). Atomic unsigned maximum at the home. -/
  | amoNmax (h : Hdr) (rd : SReg) (ra : SReg) (rb : SReg) (w : Bool) (od : BitVec 2)
  /-- AMO_SWAP (R177). Atomic swap at the home. -/
  | amoSwap (h : Hdr) (rd : SReg) (ra : SReg) (rb : SReg) (w : Bool) (od : BitVec 2)
  /-- AMO_FADD (R178). Atomic f32 add under RNE at the home, setting no flag. -/
  | amoFadd (h : Hdr) (rd : SReg) (ra : SReg) (rb : SReg) (w : Bool) (od : BitVec 2)
  /-- CAS (R179). Compares the word with rd and writes rb if equal, atomically at the home, returning the old value. -/
  | cas (h : Hdr) (rd : SReg) (ra : SReg) (rb : SReg) (w : Bool) (od : BitVec 2)
  /-- FENCE (R180). Holds the thread until its earlier accesses are ordered as ord, scope and lb require. -/
  | fence (h : Hdr) (lb : Bool) (sc : Scope) (od : BitVec 2)
  /-- CMO_CLEAN (R181). Writes dirty lines of a range to the next level, keeping them valid. -/
  | cmoClean (h : Hdr) (ra : SReg) (rb : SReg) (l2 : Bool)
  /-- CMO_INVAL (R181). Drops lines of a range, discarding dirty data. -/
  | cmoInval (h : Hdr) (ra : SReg) (rb : SReg) (l2 : Bool)
  /-- CMO_FLUSH (R181). Cleans then drops lines of a range. -/
  | cmoFlush (h : Hdr) (ra : SReg) (rb : SReg) (l2 : Bool)
  /-- MOVB (R182). Restartable byte copy from ra to rd, updating the registers as committed progress. -/
  | movb (h : Hdr) (rd : SReg) (ra : SReg) (rb : SReg)
  /-- SETB (R182). Restartable byte fill of rb bytes at rd with ra[7:0]. -/
  | setb (h : Hdr) (rd : SReg) (ra : SReg) (rb : SReg)
  /-- BCFG (R184). Changes the mode of the masked SRAM banks after the tile check, cleaning and zero-filling as needed. -/
  | bcfg (h : Hdr) (ra : SReg) (rb : SReg)
  /-- TRAP (R146). Raises software cause 0xA0 + imm5 precisely. -/
  | trap (h : Hdr) (imm : BitVec 5)
  /-- VLD (R207). Loads 128 contiguous 32-bit lanes into a vector register under a mask. -/
  | vld (h : Hdr) (vd : VReg) (ra : SReg) (msk : MReg)
  /-- VLD_STR (R207). Loads lanes at a byte stride. -/
  | vldStr (h : Hdr) (vd : VReg) (ra : SReg) (rb : SReg) (msk : MReg)
  /-- VLDT (R207). Loads a 32 x 32 block transposed into eight vector registers. -/
  | vldt (h : Hdr) (vd : VReg) (ra : SReg) (msk : MReg)
  /-- VST (R207). Stores 128 contiguous lanes under a mask. -/
  | vst (h : Hdr) (vd : VReg) (ra : SReg) (msk : MReg)
  /-- VST_STR (R207). Stores lanes at a byte stride. -/
  | vstStr (h : Hdr) (vd : VReg) (ra : SReg) (rb : SReg) (msk : MReg)
  /-- VSTT (R207). Stores eight registers as a transposed 32 x 32 block. -/
  | vstt (h : Hdr) (vd : VReg) (ra : SReg) (msk : MReg)
  /-- VGTH (R208). Gathers a byte, half or word per active lane from ra plus a lane offset. -/
  | vgth (h : Hdr) (vd : VReg) (ra : SReg) (vi : VReg) (msk : MReg) (sz : GSize)
  /-- VSCT (R208). Scatters a byte, half or word per active lane. -/
  | vsct (h : Hdr) (vd : VReg) (ra : SReg) (vi : VReg) (msk : MReg) (sz : GSize)
  /-- VLDX (R209). Expands a row of tagged blocks into elements of a vector type. -/
  | vldx (h : Hdr) (vd : VReg) (ra : SReg) (rb : SReg) (msk : MReg) (ty : VTy)
  /-- VLDM (R210). Expands OCP MX blocks with their scales into f32, bf16 or f16 elements. -/
  | vldm (h : Hdr) (vd : VReg) (ra : SReg) (rb : SReg) (msk : MReg) (dest : MxDest) (el : MxElem)
  /-- TDEF (R214). Defines or undefines an EMPTY tile's base and size. -/
  | tdef (h : Hdr) (t : TileNo) (ra : SReg) (rb : SReg)
  /-- TARM (R215). Arms an EMPTY tile to count the expected bytes, moving it to FILLING. -/
  | tarm (h : Hdr) (t : TileNo) (ra : SReg)
  /-- TREL (R216). Releases a tile to EMPTY once its registered readers have finished. -/
  | trel (h : Hdr) (t : TileNo)
  /-- TWAIT (R217). Waits until a tile is READY and acts as its acquire. -/
  | twait (h : Hdr) (t : TileNo)
  /-- TSTAT (R218). Returns a snapshot of a tile-table entry. -/
  | tstat (h : Hdr) (t : TileNo) (rb : SReg)
  /-- CPY_G2T (R239). Queues a copy of memory bytes into a tile. -/
  | cpyG2t (h : Hdr) (t : TileNo) (ra : SReg) (rb : SReg)
  /-- CPY_T2G (R239). Queues a copy-out of a READY tile's bytes to memory. -/
  | cpyT2g (h : Hdr) (t : TileNo) (ra : SReg) (rb : SReg) (sc : Scope)
  /-- CPY_MC (R239). Queues a multicast of memory bytes into the tiles of masked cores of the supergroup. -/
  | cpyMc (h : Hdr) (t : TileNo) (ra : SReg) (rb : SReg)
  /-- CPY_GX (R240). Queues a gather of rows named by an index list into a tile. -/
  | cpyGx (h : Hdr) (t : TileNo) (ra : SReg) (rb : SReg)
  /-- CPY_X (R241). Queues an import of OCP MX data into tagged bf16 or e4m3 blocks. -/
  | cpyX (h : Hdr) (t : TileNo) (ra : SReg) (rb : SReg)
  /-- CPYC (R243). Reads a command block and queues its copy with optional arm and matrix follow-on. -/
  | cpyc (h : Hdr) (t : TileNo) (ra : SReg)
  /-- MLS (R223). Queues a load of a weight block from a tile into the shadow plane. -/
  | mls (h : Hdr) (t : TileNo)
  /-- MSWP (R224). Queues a swap of the shadow plane into the active plane. -/
  | mswp (h : Hdr)
  /-- MMA (R225). Queues a dense matrix pass of an activation tile into an accumulator. -/
  | mma (h : Hdr) (t : TileNo) (sw : Bool) (c : AccNo)
  /-- MMASP (R228). Queues a sparse pass that skips pairs with a zero operand. -/
  | mmasp (h : Hdr) (t : TileNo) (sw : Bool) (c : AccNo)
  /-- MMAG (R230). Reads a group table and queues one pass per group of rows. -/
  | mmag (h : Hdr) (t : TileNo) (ra : SReg) (sw : Bool) (c : AccNo)
  /-- MDRN (R232). Drains an accumulator into an EMPTY tile in an output format and clears it. -/
  | mdrn (h : Hdr) (t : TileNo) (ra : SReg) (sat : Bool) (code : BitVec 3) (c : AccNo)
  /-- MZERO_INT (R231). Queues a clear of an accumulator in int mode. -/
  | mzeroInt (h : Hdr) (c : AccNo)
  /-- MZERO_FP (R231). Queues a clear of an accumulator in fp mode. -/
  | mzeroFp (h : Hdr) (c : AccNo)
  /-- MSTAT (R233). Returns an accumulator's status once earlier instructions naming it complete. -/
  | mstat (h : Hdr) (rb : SReg) (c : AccNo)
  /-- MXSW (R234). Pairs with the mirror core's MXSW and exchanges a tile's bytes. -/
  | mxsw (h : Hdr) (t : TileNo)
  /-- RGN_DEF (R245). Reads and checks a region descriptor and adds a revision region to the partition's table. -/
  | rgnDef (h : Hdr) (rd : SReg) (ra : SReg)
  /-- RGN_REL (R245). Releases a region not held by a live revision's snapshot. -/
  | rgnRel (h : Hdr) (ra : SReg)
  /-- CSRR (R247). Reads a CSR. -/
  | csrr (h : Hdr) (rd : SReg) (csr : BitVec 12)
  /-- CSRW (R247). Writes a CSR and returns its old value. -/
  | csrw (h : Hdr) (rd : SReg) (ra : SReg) (csr : BitVec 12)
  /-- CSRS (R247). Sets bits of a CSR and returns its old value. -/
  | csrs (h : Hdr) (rd : SReg) (ra : SReg) (csr : BitVec 12)
  /-- ERET (R250). Ends a walker miss or returns from system trap handling to epc. -/
  | eret (h : Hdr)
  /-- HALT (R251). Stops the thread, keeping its state, until the management controller clears the halt. -/
  | halt (h : Hdr)
  /-- ICI (R252). Cleans L1 lines of a range and invalidates the instruction buffer for it. -/
  | ici (h : Hdr) (ra : SReg) (rb : SReg)
  /-- TLBW (R253). Writes one entry into the core's TLBs. -/
  | tlbw (h : Hdr) (ra : SReg) (rb : SReg)
  /-- TLBI (R254). Invalidates TLB entries on this core or every core of the partition. -/
  | tlbi (h : Hdr) (ra : SReg) (rb : SReg)
  /-- MBOX (R255). Completes a miss-mailbox entry with an outcome and claims the oldest unclaimed record. -/
  | mbox (h : Hdr) (rd : SReg) (ra : SReg)
  /-- MRES_RESUME (R256). Resumes a halted copy queue with its queued commands. -/
  | mresResume (h : Hdr) (ra : SReg)
  /-- MRES_DISCARD (R256). Discards every queued copy command and resumes the queue. -/
  | mresDiscard (h : Hdr) (ra : SReg)
  /-- MRES_MATRIX_RESET (R256). Resets the matrix engine, emptying queue, planes and spall buffer and invalidating c0-c3. -/
  | mresMatrixReset (h : Hdr) (ra : SReg)
  /-- EXT (R58). Records its literal as the pending extension for the next bundle. -/
  | ext (h : Hdr)
  /-- NOP (R129). A-slot no operation. -/
  | nop
  /-- ADD (R154). Integer add, wrapping. -/
  | add (rd : SReg) (ra : SReg) (o : Opnd2)
  /-- SUB (R154). Integer subtract, wrapping. -/
  | sub (rd : SReg) (ra : SReg) (o : Opnd2)
  /-- AND (R154). Bitwise AND. -/
  | and (rd : SReg) (ra : SReg) (o : Opnd2)
  /-- OR (R154). Bitwise OR. -/
  | or (rd : SReg) (ra : SReg) (o : Opnd2)
  /-- XOR (R154). Bitwise XOR. -/
  | xor (rd : SReg) (ra : SReg) (o : Opnd2)
  /-- ANDN (R154). a AND NOT b. -/
  | andn (rd : SReg) (ra : SReg) (o : Opnd2)
  /-- SHL (R154). Shift left with zero fill. -/
  | shl (rd : SReg) (ra : SReg) (o : Opnd2)
  /-- SHR (R154). Logical shift right. -/
  | shr (rd : SReg) (ra : SReg) (o : Opnd2)
  /-- SAR (R154). Arithmetic shift right. -/
  | sar (rd : SReg) (ra : SReg) (o : Opnd2)
  /-- ROL (R154). Rotate left within the operating width. -/
  | rol (rd : SReg) (ra : SReg) (o : Opnd2)
  /-- MIN (R154). Signed minimum. -/
  | min (rd : SReg) (ra : SReg) (o : Opnd2)
  /-- MAX (R154). Signed maximum. -/
  | max (rd : SReg) (ra : SReg) (o : Opnd2)
  /-- MINN (R154). Unsigned minimum. -/
  | minn (rd : SReg) (ra : SReg) (o : Opnd2)
  /-- MAXN (R154). Unsigned maximum. -/
  | maxn (rd : SReg) (ra : SReg) (o : Opnd2)
  /-- SHADD1 (R154). (a << 1) + b. -/
  | shadd1 (rd : SReg) (ra : SReg) (o : Opnd2)
  /-- SHADD2 (R154). (a << 2) + b. -/
  | shadd2 (rd : SReg) (ra : SReg) (o : Opnd2)
  /-- SHADD3 (R154). (a << 3) + b. -/
  | shadd3 (rd : SReg) (ra : SReg) (o : Opnd2)
  /-- MOV (R154). Copies b or an immediate into rd. -/
  | mov (rd : SReg) (o : Opnd2)
  /-- CMP_EQ (R155). Writes 1 if a equals b, else 0. -/
  | cmpEq (rd : SReg) (ra : SReg) (o : Opnd2)
  /-- CMP_NE (R155). Writes 1 if a differs from b. -/
  | cmpNe (rd : SReg) (ra : SReg) (o : Opnd2)
  /-- CMP_LT (R155). Signed less-than. -/
  | cmpLt (rd : SReg) (ra : SReg) (o : Opnd2)
  /-- CMP_LTN (R155). Unsigned less-than. -/
  | cmpLtn (rd : SReg) (ra : SReg) (o : Opnd2)
  /-- CMP_LE (R155). Signed less-or-equal. -/
  | cmpLe (rd : SReg) (ra : SReg) (o : Opnd2)
  /-- CMP_LEN (R155). Unsigned less-or-equal. -/
  | cmpLen (rd : SReg) (ra : SReg) (o : Opnd2)
  /-- CMP_GT (R155). Signed greater-than. -/
  | cmpGt (rd : SReg) (ra : SReg) (o : Opnd2)
  /-- CMP_GTN (R155). Unsigned greater-than. -/
  | cmpGtn (rd : SReg) (ra : SReg) (o : Opnd2)
  /-- MUL (R156). Low half of the product. -/
  | mul (rd : SReg) (ra : SReg) (o : Opnd2)
  /-- MULHS (R156). High half of the signed product. -/
  | mulhs (rd : SReg) (ra : SReg) (o : Opnd2)
  /-- MULHN (R156). High half of the unsigned product. -/
  | mulhn (rd : SReg) (ra : SReg) (o : Opnd2)
  /-- MULHSN (R156). High half of signed a times unsigned b. -/
  | mulhsn (rd : SReg) (ra : SReg) (o : Opnd2)
  /-- DIVS (R157). Signed quotient truncated toward zero. -/
  | divs (rd : SReg) (ra : SReg) (o : Opnd2)
  /-- DIVN (R157). Unsigned quotient. -/
  | divn (rd : SReg) (ra : SReg) (o : Opnd2)
  /-- REMS (R157). Signed remainder. -/
  | rems (rd : SReg) (ra : SReg) (o : Opnd2)
  /-- REMN (R157). Unsigned remainder. -/
  | remn (rd : SReg) (ra : SReg) (o : Opnd2)
  /-- CLZ (R158). Counts leading zero bits. -/
  | clz (rd : SReg) (ra : SReg) (u : UOpnd)
  /-- CTZ (R158). Counts trailing zero bits. -/
  | ctz (rd : SReg) (ra : SReg) (u : UOpnd)
  /-- POPC (R158). Counts one bits. -/
  | popc (rd : SReg) (ra : SReg) (u : UOpnd)
  /-- NOT (R158). Bitwise complement. -/
  | not (rd : SReg) (ra : SReg) (u : UOpnd)
  /-- NEG (R158). Negation, wrapping. -/
  | neg (rd : SReg) (ra : SReg) (u : UOpnd)
  /-- BSWAP (R158). Reverses byte order within the width. -/
  | bswap (rd : SReg) (ra : SReg) (u : UOpnd)
  /-- SEXB (R158). Sign-extends a[7:0]. -/
  | sexb (rd : SReg) (ra : SReg) (u : UOpnd)
  /-- SEXH (R158). Sign-extends a[15:0]. -/
  | sexh (rd : SReg) (ra : SReg) (u : UOpnd)
  /-- SEXW (R158). Sign-extends a[31:0]. -/
  | sexw (rd : SReg) (ra : SReg) (u : UOpnd)
  /-- ZEXB (R158). Zero-extends a[7:0]. -/
  | zexb (rd : SReg) (ra : SReg) (u : UOpnd)
  /-- ZEXH (R158). Zero-extends a[15:0]. -/
  | zexh (rd : SReg) (ra : SReg) (u : UOpnd)
  /-- ZEXW (R158). Zero-extends a[31:0]. -/
  | zexw (rd : SReg) (ra : SReg) (u : UOpnd)
  /-- BFX (R159). Extracts a bit field, sign- or zero-extended. -/
  | bfx (rd : SReg) (ra : SReg) (sgn : Bool) (len1 : BitVec 6) (pos : BitVec 6)
  /-- BFI (R159). Inserts ra's low bits into a field of rd. -/
  | bfi (rd : SReg) (ra : SReg) (len1 : BitVec 6) (pos : BitVec 6)
  /-- SEL (R160). Selects ra if rc is non-zero, else rb. -/
  | sel (rd : SReg) (ra : SReg) (rb : SReg) (rc : SReg)
  /-- FADD (R161). f32 add, rounded. -/
  | fadd (rd : SReg) (ra : SReg) (rb : SReg) (rm : FRnd)
  /-- FSUB (R161). f32 subtract, rounded. -/
  | fsub (rd : SReg) (ra : SReg) (rb : SReg) (rm : FRnd)
  /-- FMUL (R161). f32 multiply, rounded. -/
  | fmul (rd : SReg) (ra : SReg) (rb : SReg) (rm : FRnd)
  /-- FDIV (R161). f32 divide, rounded. -/
  | fdiv (rd : SReg) (ra : SReg) (rb : SReg) (rm : FRnd)
  /-- FMIN (R162). f32 minimumNumber. -/
  | fmin (rd : SReg) (ra : SReg) (rb : SReg) (rm : FRnd)
  /-- FMAX (R162). f32 maximumNumber. -/
  | fmax (rd : SReg) (ra : SReg) (rb : SReg) (rm : FRnd)
  /-- FSQRT (R161). f32 square root, rounded. -/
  | fsqrt (rd : SReg) (ra : SReg) (rm : FRnd)
  /-- FABS (R161). Clears the sign bit. -/
  | fabs (rd : SReg) (ra : SReg) (rm : FRnd)
  /-- FNEG (R161). Inverts the sign bit. -/
  | fneg (rd : SReg) (ra : SReg) (rm : FRnd)
  /-- FCPSGN (R161). Takes a's magnitude with b's sign. -/
  | fcpsgn (rd : SReg) (ra : SReg) (rb : SReg) (rm : FRnd)
  /-- FFMA (R163). Fused a*b + c, rounded once. -/
  | ffma (rd : SReg) (ra : SReg) (rb : SReg) (rc : SReg) (rm : FRnd)
  /-- FNMA (R163). Fused -(a*b) + c, rounded once. -/
  | fnma (rd : SReg) (ra : SReg) (rb : SReg) (rc : SReg) (rm : FRnd)
  /-- FCMP_EQ (R164). f32 ordered equality. -/
  | fcmpEq (rd : SReg) (ra : SReg) (rb : SReg)
  /-- FCMP_LT (R164). f32 ordered less-than. -/
  | fcmpLt (rd : SReg) (ra : SReg) (rb : SReg)
  /-- FCMP_LE (R164). f32 ordered less-or-equal. -/
  | fcmpLe (rd : SReg) (ra : SReg) (rb : SReg)
  /-- FCMP_UN (R164). f32 unordered test. -/
  | fcmpUn (rd : SReg) (ra : SReg) (rb : SReg)
  /-- I2F (R165). Signed integer to f32. -/
  | i2f (rd : SReg) (ra : SReg) (w : Bool) (rm : FRnd)
  /-- N2F (R165). Unsigned integer to f32. -/
  | n2f (rd : SReg) (ra : SReg) (w : Bool) (rm : FRnd)
  /-- F2I (R165). f32 to signed integer, saturating. -/
  | f2i (rd : SReg) (ra : SReg) (w : Bool) (rm : FRnd)
  /-- F2N (R165). f32 to unsigned integer, saturating. -/
  | f2n (rd : SReg) (ra : SReg) (w : Bool) (rm : FRnd)
  /-- F2BF (R165). f32 to bf16, rounded. -/
  | f2bf (rd : SReg) (ra : SReg) (rm : FRnd)
  /-- BF2F (R165). bf16 to f32, exact. -/
  | bf2f (rd : SReg) (ra : SReg) (rm : FRnd)
  /-- F2H (R165). f32 to f16, rounded. -/
  | f2h (rd : SReg) (ra : SReg) (rm : FRnd)
  /-- H2F (R165). f16 to f32, exact. -/
  | h2f (rd : SReg) (ra : SReg) (rm : FRnd)
  /-- FCLS (R166). Writes a one-hot class mask of an f32. -/
  | fcls (rd : SReg) (ra : SReg) (rm : FRnd)
  /-- VADD (R191). Element add. -/
  | vadd (vd : VReg) (va : VReg) (b : VSrc) (m : VMod)
  /-- VSUB (R191). Element subtract. -/
  | vsub (vd : VReg) (va : VReg) (b : VSrc) (m : VMod)
  /-- VMUL (R191). Element multiply. -/
  | vmul (vd : VReg) (va : VReg) (b : VSrc) (m : VMod)
  /-- VDIV (R191). Element divide. -/
  | vdiv (vd : VReg) (va : VReg) (b : VSrc) (m : VMod)
  /-- VMIN (R191). Element minimum. -/
  | vmin (vd : VReg) (va : VReg) (b : VSrc) (m : VMod)
  /-- VMAX (R191). Element maximum. -/
  | vmax (vd : VReg) (va : VReg) (b : VSrc) (m : VMod)
  /-- VAND (R191). Element bitwise AND. -/
  | vand (vd : VReg) (va : VReg) (b : VSrc) (m : VMod)
  /-- VOR (R191). Element bitwise OR. -/
  | vor (vd : VReg) (va : VReg) (b : VSrc) (m : VMod)
  /-- VXOR (R191). Element bitwise XOR. -/
  | vxor (vd : VReg) (va : VReg) (b : VSrc) (m : VMod)
  /-- VSHL (R191). Element shift left. -/
  | vshl (vd : VReg) (va : VReg) (b : VSrc) (m : VMod)
  /-- VSHR (R191). Element logical shift right. -/
  | vshr (vd : VReg) (va : VReg) (b : VSrc) (m : VMod)
  /-- VSAR (R191). Element arithmetic shift right. -/
  | vsar (vd : VReg) (va : VReg) (b : VSrc) (m : VMod)
  /-- VADDS (R191). Element saturating add. -/
  | vadds (vd : VReg) (va : VReg) (b : VSrc) (m : VMod)
  /-- VSUBS (R191). Element saturating subtract. -/
  | vsubs (vd : VReg) (va : VReg) (b : VSrc) (m : VMod)
  /-- VABSD (R191). Element absolute difference. -/
  | vabsd (vd : VReg) (va : VReg) (b : VSrc) (m : VMod)
  /-- VFMA (R192). Element a*b + c. -/
  | vfma (vd : VReg) (va : VReg) (b : VSrc) (vc : VReg) (m : VMod)
  /-- VFNMA (R192). Element -(a*b) + c. -/
  | vfnma (vd : VReg) (va : VReg) (b : VSrc) (vc : VReg) (m : VMod)
  /-- VDOT4 (R193). Four-way 8-bit dot product accumulated into 32-bit lanes. -/
  | vdot4 (vd : VReg) (va : VReg) (b : VSrc) (vc : VReg) (m : VMod)
  /-- VABS (R194). Element absolute value. -/
  | vabs (vd : VReg) (va : VReg) (sb : Bool) (m : VMod)
  /-- VNEG (R194). Element negation. -/
  | vneg (vd : VReg) (va : VReg) (sb : Bool) (m : VMod)
  /-- VSQRT (R194). Element square root. -/
  | vsqrt (vd : VReg) (va : VReg) (sb : Bool) (m : VMod)
  /-- VRCP (R195). Element reciprocal. -/
  | vrcp (vd : VReg) (va : VReg) (sb : Bool) (m : VMod)
  /-- VRSQ (R195). Element reciprocal square root. -/
  | vrsq (vd : VReg) (va : VReg) (sb : Bool) (m : VMod)
  /-- VEX2 (R195). Element power of two. -/
  | vex2 (vd : VReg) (va : VReg) (sb : Bool) (m : VMod)
  /-- VLG2 (R195). Element base-2 logarithm. -/
  | vlg2 (vd : VReg) (va : VReg) (sb : Bool) (m : VMod)
  /-- VMOV (R194). Element copy. -/
  | vmov (vd : VReg) (va : VReg) (sb : Bool) (m : VMod)
  /-- VNOT (R194). Element bitwise complement. -/
  | vnot (vd : VReg) (va : VReg) (sb : Bool) (m : VMod)
  /-- VCLZ (R194). Element leading-zero count. -/
  | vclz (vd : VReg) (va : VReg) (sb : Bool) (m : VMod)
  /-- VPOPC (R194). Element population count. -/
  | vpopc (vd : VReg) (va : VReg) (sb : Bool) (m : VMod)
  /-- VRELU (R194). Element max(a, 0). -/
  | vrelu (vd : VReg) (va : VReg) (sb : Bool) (m : VMod)
  /-- VCMP_EQ (R196). Writes mask bits where every element of a lane is equal. -/
  | vcmpEq (md : MReg) (va : VReg) (b : VSrc) (m : VMod)
  /-- VCMP_NE (R196). Lane-wise not-equal into a mask. -/
  | vcmpNe (md : MReg) (va : VReg) (b : VSrc) (m : VMod)
  /-- VCMP_LT (R196). Lane-wise less-than into a mask. -/
  | vcmpLt (md : MReg) (va : VReg) (b : VSrc) (m : VMod)
  /-- VCMP_LE (R196). Lane-wise less-or-equal into a mask. -/
  | vcmpLe (md : MReg) (va : VReg) (b : VSrc) (m : VMod)
  /-- VCMP_GT (R196). Lane-wise greater-than into a mask. -/
  | vcmpGt (md : MReg) (va : VReg) (b : VSrc) (m : VMod)
  /-- VCMP_GE (R196). Lane-wise greater-or-equal into a mask. -/
  | vcmpGe (md : MReg) (va : VReg) (b : VSrc) (m : VMod)
  /-- VCMP_UN (R196). Lane-wise unordered into a mask. -/
  | vcmpUn (md : MReg) (va : VReg) (b : VSrc) (m : VMod)
  /-- VCMP_ORD (R196). Lane-wise ordered into a mask. -/
  | vcmpOrd (md : MReg) (va : VReg) (b : VSrc) (m : VMod)
  /-- VSEL (R197). Selects elements of ra or rb by a mask. -/
  | vsel (vd : VReg) (va : VReg) (b : VSrc) (mk : MReg) (m : VMod)
  /-- VCVT (R198). Converts elements to a target format, zero-filling the rest. -/
  | vcvt (vd : VReg) (va : VReg) (tc : CvtCode) (sb : Bool) (m : VMod)
  /-- VRED_SUM (R199). Pairwise-tree sum of active elements into a scalar. -/
  | vredSum (rd : SReg) (va : VReg) (sb : Bool) (m : VMod)
  /-- VRED_MIN (R199). Minimum of active elements. -/
  | vredMin (rd : SReg) (va : VReg) (sb : Bool) (m : VMod)
  /-- VRED_MAX (R199). Maximum of active elements. -/
  | vredMax (rd : SReg) (va : VReg) (sb : Bool) (m : VMod)
  /-- VRED_AND (R199). AND of active elements. -/
  | vredAnd (rd : SReg) (va : VReg) (sb : Bool) (m : VMod)
  /-- VRED_OR (R199). OR of active elements. -/
  | vredOr (rd : SReg) (va : VReg) (sb : Bool) (m : VMod)
  /-- VRED_XOR (R199). XOR of active elements. -/
  | vredXor (rd : SReg) (va : VReg) (sb : Bool) (m : VMod)
  /-- VSCAN_SUM (R199). Ascending prefix sums of active elements. -/
  | vscanSum (vd : VReg) (va : VReg) (sb : Bool) (m : VMod)
  /-- VSCAN_MAX (R199). Ascending prefix maxima of active elements. -/
  | vscanMax (vd : VReg) (va : VReg) (sb : Bool) (m : VMod)
  /-- VPERM (R200). Permutes table elements by indices. -/
  | vperm (vd : VReg) (va : VReg) (b : VSrc) (m : VMod)
  /-- VBCST (R200). Broadcasts a scalar to every active element. -/
  | vbcst (vd : VReg) (rs : SReg) (m : VMod)
  /-- VIOTA (R200). Writes each active element's number. -/
  | viota (vd : VReg) (m : VMod)
  /-- VEXT (R200). Extracts one element into a scalar. -/
  | vext (rd : SReg) (va : VReg) (rl : SReg) (ty : VTy)
  /-- VINS (R200). Inserts a scalar into one element. -/
  | vins (vd : VReg) (rs : SReg) (rl : SReg) (ty : VTy)
  /-- MALU_AND (R201). Mask AND. -/
  | maluAnd (md : MReg) (ma : MReg) (mb : MReg)
  /-- MALU_OR (R201). Mask OR. -/
  | maluOr (md : MReg) (ma : MReg) (mb : MReg)
  /-- MALU_XOR (R201). Mask XOR. -/
  | maluXor (md : MReg) (ma : MReg) (mb : MReg)
  /-- MALU_ANDN (R201). Mask AND NOT. -/
  | maluAndn (md : MReg) (ma : MReg) (mb : MReg)
  /-- MALU_NOT (R201). Mask complement. -/
  | maluNot (md : MReg) (ma : MReg)
  /-- MALU_SET (R201). Sets a mask to all ones. -/
  | maluSet (md : MReg)
  /-- MALU_CLR (R201). Clears a mask. -/
  | maluClr (md : MReg)
  /-- MPOP_COUNT (R201). Counts the one bits of a mask. -/
  | mpopCount (rd : SReg) (ma : MReg)
  /-- MPOP_FIRST (R201). Returns the lowest set bit of a mask, or 128. -/
  | mpopFirst (rd : SReg) (ma : MReg)
  /-- FIXED_LATENCY_WRITEBACK (R46). A fixed-latency result lands in its register and sets its presence. -/
  | fixedLatencyWriteback
  /-- STALL_COUNT_EXPIRY (R46). A bundle's stall count runs out and the thread may be ready again. -/
  | stallCountExpiry
  /-- REGISTER_WRITE_MESSAGE (R36). A shared value arrives at the successor's dependent or link buffer. -/
  | registerWriteMessage
  /-- LOAD_RESPONSE (R14). A long-latency result arrives and sets its destination's presence. -/
  | loadResponse
  /-- STORE_ACK (R286). A store's acknowledgement reaches the issuing thread. -/
  | storeAck
  /-- ERROR_RESPONSE (R169). A BUSERR or UNCORR response arrives, marking the destination failed or pending delivery. -/
  | errorResponse
  /-- HOME_REQUEST (R355). A request reaches its home and is performed in the location's coherence order. -/
  | homeRequest
  /-- REVSTORE_HOLD_RELEASE (R308). A write held for a free version takes one freed by a merge. -/
  | revstoreHoldRelease
  /-- FE_WAITER_SERVED (R174). A waiting full/empty request is performed at the home after an enabling change. -/
  | feWaiterServed
  /-- WAITLIMIT_EXPIRY (R175). A full/empty wait passes wlim and is withdrawn with WAITLIMIT. -/
  | waitlimitExpiry
  /-- FIFO_WAIT_SERVED (R185). A held push or pop is performed when enough bytes are free or queued. -/
  | fifoWaitServed
  /-- BANK_WAKE_DONE (R184). A waking bank finishes zero-filling and clears its waking flag. -/
  | bankWakeDone
  /-- MEMBER_START (R257). A member becomes ready in its slot after allocation or after its predecessor's END. -/
  | memberStart
  /-- INLINE_MEMBER_ENTRY (R120). The inline driver starts the next member in the creating slot. -/
  | inlineMemberEntry
  /-- INLINE_RESTORE (R120). The driver restores the frame, writes final shareds and flags, and resumes the creator. -/
  | inlineRestore
  /-- DELEGATION_REQUEST (R258). A delegation request arrives and the target makes the all-or-nothing attempt. -/
  | delegationRequest
  /-- DELEGATION_ANSWER (R259). The acceptance or refusal reaches the creator, which resumes or runs inline. -/
  | delegationAnswer
  /-- SYNC_COMPLETE (R136). A waiting SYNC finds the family done, merges, and writes shareds, flags and status. -/
  | syncComplete
  /-- KILL_MESSAGE (R139). A kill message reaches a remote core and purges the family's members there. -/
  | killMessage
  /-- DET_JOIN_DECREMENT (R134). A detached family's end decrements its join counter, setting it full at zero. -/
  | detJoinDecrement
  /-- BARRIER_ARRIVAL (R145). An arrival reaches a barrier instance and is counted toward the phase. -/
  | barrierArrival
  /-- BARRIER_RELEASE (R145). A closed phase's waiters are released after the scope's delay. -/
  | barrierRelease
  /-- TRAVELLER_ARRIVAL (R276). A travelling thread arrives, acquires and is placed in a slot or queued. -/
  | travellerArrival
  /-- CONTINUATION_HEAD_PLACE (R331). The queue head is placed when a slot or entry frees on its place. -/
  | continuationHeadPlace
  /-- SPILL_OVERFLOW_MOVE (R332). The overflow engine moves spill-ring records into the hardware queue or writes them out. -/
  | spillOverflowMove
  /-- DOORBELL (R321). A doorbell write tells the dispatcher that a ring has new records. -/
  | doorbell
  /-- TAIL_LINE_WRITE (R321). A device write to a ring's tail line sets TAIL and is reported to the dispatcher. -/
  | tailLineWrite
  /-- RING_RESET (R321). A write to a ring's BASE or SIZE resets HEAD, TAIL and any error stop. -/
  | ringReset
  /-- SLICE_RECORD_COPY (R322). The dispatcher copies a slice record, numbers it and checks or refuses it. -/
  | sliceRecordCopy
  /-- SLICE_DISPATCH (R326). The dispatcher creates the root family of the ready slice with the earliest deadline that fits. -/
  | sliceDispatch
  /-- COMPLETION_SIGNAL (R323). A slice's end decrements its completion object and writes status at PEND 0. -/
  | completionSignal
  /-- CANCEL (R329). A cancel removes or kills the slice with matching ring, index and TAG. -/
  | cancel
  /-- PURGE_COMPLETE (R380). The purge of a dead owner completes and its revision id is freed. -/
  | purgeComplete
  /-- TASK_REPLAY (R385). A purged task is re-created from its create record when resources allow. -/
  | taskReplay
  /-- MLS_START (R223). A queued MLS starts loading the shadow plane once it is empty. -/
  | mlsStart
  /-- PLANE_FULL (R223). 40 cycles after start the shadow plane is full and the MLS deregisters. -/
  | planeFull
  /-- PLANE_SWAP (R224). A swap moves the full shadow plane to the active plane. -/
  | planeSwap
  /-- PASS_START (R219). A queued pass starts when the array is free and its swap is done. -/
  | passStart
  /-- SPALL_CARRY_RESUME (R227). A carry held in stall mode takes an entry freed by a drain. -/
  | spallCarryResume
  /-- PASS_COMPLETE (R294). A pass completes and deregisters from its activation tile. -/
  | passComplete
  /-- MZERO_START (R231). A queued MZERO clears its accumulator and sets its mode. -/
  | mzeroStart
  /-- DRAIN_COMPLETE (R232). A drain finishes, its tile becomes READY and the accumulator's spall entries free. -/
  | drainComplete
  /-- MXSW_PAIR (R234). Two mirror MXSWs pair and the exchange begins. -/
  | mxswPair
  /-- MXSW_COMPLETE (R234). The exchange completes and both tiles return to READY. -/
  | mxswComplete
  /-- TILE_BYTES_ARRIVE (R212). Engine bytes land in a tile and are counted in ARRIVED. -/
  | tileBytesArrive
  /-- TILE_RELEASE_EFFECT (R213). A deferred TREL or T2G takes effect once earlier readers deregister. -/
  | tileReleaseEffect
  /-- COPY_COMMAND_START (R235). The copy engine starts the head command's reads. -/
  | copyCommandStart
  /-- COPY_OUT_COMPLETE (R239). A copy-out's last write is acknowledged and the tile returns to EMPTY. -/
  | copyOutComplete
  /-- MERGE_BLOCK (R348). A home slice merges one block of a join's write set under its region's merge type. -/
  | mergeBlock
  /-- PGREPLY (R315). A host page reply completes a mailbox entry or a spill stall as retry or fault. -/
  | pgreply
  /-- MIGD (R316). A migd write makes every waiter parked on the page retry. -/
  | migd
  /-- HFQHEAD_WRITE (R366). The host advances HFQHEAD, letting pending page requests post. -/
  | hfqheadWrite
  /-- FINJ_WRITE (R249). A finj write arms a fault injection for a slot. -/
  | finjWrite
  /-- FINJ_INJECT (R249). The armed count is reached and the fault falls on the target bundle. -/
  | finjInject
  /-- LINK_FLIT_REPLAY (R357). A bad or missing link flit is replayed from the sender's buffer. -/
  | linkFlitReplay
  /-- LINK_ACK_TIMEOUT (R357). A link gives no acknowledgement for 10 us. -/
  | linkAckTimeout
  /-- LINK_FAILURE (R359). A failed link fails its in-flight requests with HWERR_LINK. -/
  | linkFailure
  /-- HOST_BAR2_ACCESS (R363). A host access through BAR2 is performed at the home slice or refused. -/
  | hostBar2Access
  /-- PARTITION_FORM (R365). A PSG write with VALID forms a partition on free supergroups. -/
  | partitionForm
  /-- PARTITION_DISSOLVE (R365). A PSG write clearing VALID dissolves a stopped or switched-out partition. -/
  | partitionDissolve
  /-- GSCTL_STOP (R388). The plumb tree stops every core of the partition. -/
  | gsctlStop
  /-- GSCTL_GO (R389). Resumes a stopped partition. -/
  | gsctlGo
  /-- GSCTL_END (R389). Ends every slice of a stopped partition with GANGSTOP. -/
  | gsctlEnd
  /-- GSCTL_SWITCH_IN (R393). Restores a switched-out partition, re-injects saved messages and sends go. -/
  | gsctlSwitchIn
  /-- GANG_SWITCH (R390). At tsc >= SWTIME the partition stops, drains, saves and is switched out. -/
  | gangSwitch
  /-- MESSAGE_SAVE (R392). A message for a stopping or switched-out partition is written to its message section. -/
  | messageSave
  /-- CORE_CONTROL_WRITE (R367). A core-control write resumes halted slots or the walker. -/
  | coreControlWrite
  /-- REGISTER_WRITE (R365). A write to a control or status register with no behaviour of its own. -/
  | registerWrite
  /-- ATTESTATION_REQUEST (R373). A nonce in the mailbox produces a dual-signed attestation report. -/
  | attestationRequest
  /-- IMAGE_LOAD (R370). In recovery, an image written by the host is verified and started. -/
  | imageLoad
  /-- DEVICE_RESET (R370). Power-on or reset runs the boot ROM's image verification. -/
  | deviceReset
  /-- TRAINING_COMPLETE (R372). HBM training and die test end and the reduced dispatcher stops dispatching. -/
  | trainingComplete
  /-- FULL_SERVICE_ENTRY (R370). With no slice running on supergroup 0 of die 0 the device moves to full service. -/
  | fullServiceEntry
  /-- REDUCED_SLICE_TIMEOUT (R372). A reduced-service slice still running 100 ms after training is ended. -/
  | reducedSliceTimeout
  /-- CLOCK_STEP (R374). Every 1 ms at a thermal or power limit the die clock steps by 100 MHz. -/
  | clockStep
  /-- THERMAL_STOP (R374). A die at 115 C gang-stops its partitions and the device reports failed. -/
  | thermalStop
  /-- SLICE_RETIRE (R305). An L2 slice passing its error threshold retires and its buckets move. -/
  | sliceRetire
  /-- CORE_RESET (R40). Core reset puts the core state into its reset values. -/
  | coreReset
  /-- STEWARD_START (R38). The Choalone firmware starts steward code in a program slot at system privilege, at the entry it names, with the stated start state. -/
  | stewardStart
  /-- LINK_TRAINING (R357). A Zoune link completes training, at 8 lanes or at 4 lanes with half rate, and becomes usable. -/
  | linkTraining
  deriving DecidableEq, Repr

/-- A step that no word encodes, with what it acts on: cores by cid, families, slices, requests and engine commands by
their serial numbers. -/
inductive Ev where
  | fixedLatencyWriteback (cid : Nat) (slot : Nat) (n : Nat)
  | stallCountExpiry (cid : Nat) (slot : Nat) (n : Nat)
  | registerWriteMessage (fam : Nat) (member : Nat) (j : Nat) (v : BitVec 64) (cid : Nat) (uid : Nat) (tok : Nat) (dst : Nat)
  | loadResponse (tok : Nat)
  | storeAck (tok : Nat)
  | errorResponse (tok : Nat)
  | homeRequest (tok : Nat)
  | revstoreHoldRelease (part : Nat)
  | feWaiterServed (pa : Nat) (at_ : Nat)
  | waitlimitExpiry (tok : Nat)
  | fifoWaitServed (cid : Nat) (bank : Nat)
  | bankWakeDone (cid : Nat) (bank : Nat)
  | memberStart (cid : Nat) (slot : Nat) (fam : Nat) (member : Nat)
  | inlineMemberEntry (cid : Nat) (slot : Nat)
  | inlineRestore (cid : Nat) (slot : Nat)
  | delegationRequest (fam : Nat)
  | delegationAnswer (fam : Nat) (accepted : Bool)
  | syncComplete (cid : Nat) (slot : Nat) (fam : Nat)
  | killMessage (cid : Nat) (fam : Nat)
  | detJoinDecrement (fam : Nat)
  | barrierArrival (cid : Nat) (slot : Nat) (uid : Nat) (sc : Scope) (id : BitVec 3)
  | barrierRelease (bar : Nat) (phase : Nat)
  | travellerArrival (tok : Nat)
  | continuationHeadPlace (sg : Nat)
  | spillOverflowMove (sg : Nat)
  | doorbell (part : Nat) (ring : Nat)
  | tailLineWrite (part : Nat) (ring : Nat) (v : BitVec 64)
  | ringReset (part : Nat) (ring : Nat) (size : Bool) (v : BitVec 64)
  | sliceRecordCopy (part : Nat) (ring : Nat)
  | sliceDispatch (part : Nat)
  | completionSignal (slice : Nat)
  | cancel (part : Nat) (v : BitVec 64)
  | purgeComplete (tok : Nat)
  | taskReplay (fam : Nat)
  | mlsStart (cid : Nat)
  | planeFull (cid : Nat)
  | planeSwap (cid : Nat)
  | passStart (cid : Nat)
  | spallCarryResume (cid : Nat)
  | passComplete (cid : Nat)
  | mzeroStart (cid : Nat)
  | drainComplete (cid : Nat)
  | mxswPair (cid : Nat) (tile : Nat)
  | mxswComplete (cid : Nat) (tile : Nat)
  | tileBytesArrive (cid : Nat) (tok : Nat)
  | tileReleaseEffect (cid : Nat) (tile : Nat)
  | copyCommandStart (cid : Nat)
  | copyOutComplete (cid : Nat) (tok : Nat)
  | mergeBlock (tok : Nat)
  | pgreply (part : Nat) (v : BitVec 64)
  | migd (part : Nat) (v : BitVec 64)
  | hfqheadWrite (part : Nat) (v : BitVec 64)
  | finjWrite (cid : Nat) (v : BitVec 64)
  | finjInject (cid : Nat) (slot : Nat) (addr : Nat) (atomic : Bool)
  | linkFlitReplay (port : Nat) (again : Bool)
  | linkAckTimeout (port : Nat)
  | linkFailure (port : Nat)
  | hostBar2Access (write : Bool) (addr : Nat) (n : Nat) (v : BitVec 64)
  /-- A host read of a word of the control window (R364), an access through the host's other window. -/
  | controlRead (off : Nat)
  | partitionForm (part : Nat) (v : BitVec 64) (fw : FwConf)
  | partitionDissolve (part : Nat) (v : BitVec 64)
  | gsctlStop (part : Nat)
  | gsctlGo (part : Nat)
  | gsctlEnd (part : Nat)
  | gsctlSwitchIn (part : Nat)
  | gangSwitch (part : Nat)
  | messageSave (part : Nat) (tok : Nat)
  | coreControlWrite (cid : Nat) (v : BitVec 64)
  | registerWrite (fw : Bool) (off : Nat) (v : BitVec 64)
  | attestationRequest (nonce : BitVec 256)
  | imageLoad (image : Nat) (svn : Nat)
  | deviceReset
  | trainingComplete (bad : List Nat)
  | fullServiceEntry
  | reducedSliceTimeout
  | clockStep (die : Nat) (up : Bool)
  | thermalStop (die : Nat)
  | sliceRetire (die : Nat) (slice : Nat)
  | coreReset (cid : Nat)
  | stewardStart (cid : Nat) (slot : Nat) (pc : BitVec 64)
  | linkTraining (port : Nat) (half : Bool)
  deriving DecidableEq, Repr

/-- The row of the table that a step is. -/
def Ev.instr : Ev → Instr
  | .fixedLatencyWriteback _ _ _ => .fixedLatencyWriteback
  | .stallCountExpiry _ _ _ => .stallCountExpiry
  | .registerWriteMessage _ _ _ _ _ _ _ _ => .registerWriteMessage
  | .loadResponse _ => .loadResponse
  | .storeAck _ => .storeAck
  | .errorResponse _ => .errorResponse
  | .homeRequest _ => .homeRequest
  | .revstoreHoldRelease _ => .revstoreHoldRelease
  | .feWaiterServed _ _ => .feWaiterServed
  | .waitlimitExpiry _ => .waitlimitExpiry
  | .fifoWaitServed _ _ => .fifoWaitServed
  | .bankWakeDone _ _ => .bankWakeDone
  | .memberStart _ _ _ _ => .memberStart
  | .inlineMemberEntry _ _ => .inlineMemberEntry
  | .inlineRestore _ _ => .inlineRestore
  | .delegationRequest _ => .delegationRequest
  | .delegationAnswer _ _ => .delegationAnswer
  | .syncComplete _ _ _ => .syncComplete
  | .killMessage _ _ => .killMessage
  | .detJoinDecrement _ => .detJoinDecrement
  | .barrierArrival _ _ _ _ _ => .barrierArrival
  | .barrierRelease _ _ => .barrierRelease
  | .travellerArrival _ => .travellerArrival
  | .continuationHeadPlace _ => .continuationHeadPlace
  | .spillOverflowMove _ => .spillOverflowMove
  | .doorbell _ _ => .doorbell
  | .tailLineWrite _ _ _ => .tailLineWrite
  | .ringReset _ _ _ _ => .ringReset
  | .sliceRecordCopy _ _ => .sliceRecordCopy
  | .sliceDispatch _ => .sliceDispatch
  | .completionSignal _ => .completionSignal
  | .cancel _ _ => .cancel
  | .purgeComplete _ => .purgeComplete
  | .taskReplay _ => .taskReplay
  | .mlsStart _ => .mlsStart
  | .planeFull _ => .planeFull
  | .planeSwap _ => .planeSwap
  | .passStart _ => .passStart
  | .spallCarryResume _ => .spallCarryResume
  | .passComplete _ => .passComplete
  | .mzeroStart _ => .mzeroStart
  | .drainComplete _ => .drainComplete
  | .mxswPair _ _ => .mxswPair
  | .mxswComplete _ _ => .mxswComplete
  | .tileBytesArrive _ _ => .tileBytesArrive
  | .tileReleaseEffect _ _ => .tileReleaseEffect
  | .copyCommandStart _ => .copyCommandStart
  | .copyOutComplete _ _ => .copyOutComplete
  | .mergeBlock _ => .mergeBlock
  | .pgreply _ _ => .pgreply
  | .migd _ _ => .migd
  | .hfqheadWrite _ _ => .hfqheadWrite
  | .finjWrite _ _ => .finjWrite
  | .finjInject _ _ _ _ => .finjInject
  | .linkFlitReplay _ _ => .linkFlitReplay
  | .linkAckTimeout _ => .linkAckTimeout
  | .linkFailure _ => .linkFailure
  | .hostBar2Access _ _ _ _ => .hostBar2Access
  | .controlRead _ => .hostBar2Access
  | .partitionForm _ _ _ => .partitionForm
  | .partitionDissolve _ _ => .partitionDissolve
  | .gsctlStop _ => .gsctlStop
  | .gsctlGo _ => .gsctlGo
  | .gsctlEnd _ => .gsctlEnd
  | .gsctlSwitchIn _ => .gsctlSwitchIn
  | .gangSwitch _ => .gangSwitch
  | .messageSave _ _ => .messageSave
  | .coreControlWrite _ _ => .coreControlWrite
  | .registerWrite _ _ _ => .registerWrite
  | .attestationRequest _ => .attestationRequest
  | .imageLoad _ _ => .imageLoad
  | .deviceReset => .deviceReset
  | .trainingComplete _ => .trainingComplete
  | .fullServiceEntry => .fullServiceEntry
  | .reducedSliceTimeout => .reducedSliceTimeout
  | .clockStep _ _ => .clockStep
  | .thermalStop _ => .thermalStop
  | .sliceRetire _ _ => .sliceRetire
  | .coreReset _ => .coreReset
  | .stewardStart _ _ _ => .stewardStart
  | .linkTraining _ _ => .linkTraining

end Sys2Proof
end

