-- ==== Sys2Proof/WellFormed.lean ====
section
/-! DEFINITION. Which terms of Instr stand for an encoding that is an instruction (R22, R43, R55, R57, R182, R232). -/

namespace Sys2Proof

/-- A field that a lone bundle's literal replaces must be zero (R43). -/
def loneZero {n : Nat} (h : Hdr) (f : BitVec n) : Bool := h.lit.isNone || f == 0#n

/-- rb of a CPY form with a third operand names one of s0 to s14 (R57). -/
def thirdReg : SReg → Bool
  | .s n => n != 15#4
  | _ => false

/-- The CSR numbers that R21, R248, R316, R332, R346 and R377 assign. -/
def csrAssigned (n : Nat) : Bool :=
  [0x001, 0x002, 0x003, 0x004, 0x010, 0x011, 0x012, 0x013, 0x020, 0x021, 0x030, 0x031, 0x040, 0x100, 0x101, 0x102, 0x103,
   0x110, 0x111, 0x112, 0x113, 0x120, 0x121, 0x122, 0x130, 0x131, 0x132, 0x133, 0x140, 0x141, 0x142, 0x143, 0x144].contains n

/-- The check on an instruction's fields that its types do not make; true of every instruction that a word encodes. -/
def Instr.wf : Instr → Bool
  | .li h _ imm => loneZero h imm
  | .lih h _ _ imm => loneZero h imm
  | .addi h _ _ imm => loneZero h imm
  | .call h off => loneZero h off
  | .ld h _ _ m => loneZero h m.dsp
  | .lds h _ _ m => loneZero h m.dsp
  | .st h _ _ m => loneZero h m.dsp
  | .ldf h _ _ m => loneZero h m.dsp
  | .ldfe h _ _ m => loneZero h m.dsp
  | .stef h _ _ m => loneZero h m.dsp
  | .stf h _ _ m => loneZero h m.dsp
  | .cpyMc _ _ _ rb => thirdReg rb
  | .cpyGx _ _ _ rb => thirdReg rb
  | .cpyX _ _ _ rb => thirdReg rb
  | .mdrn _ _ ra _ code _ => code == 6#3 || ra == .s 0#4
  | .csrr _ _ n => csrAssigned n.toNat
  | .csrw _ _ _ n => csrAssigned n.toNat
  | .csrs _ _ _ n => csrAssigned n.toNat
  | .ext h => h.lit.isSome
  | _ => true

/-- A bundle's two instructions together (R182): MOVB and SETB stand alone and name different written registers. -/
def wfPair : Instr → Instr → Bool
  | .movb _ rd ra rb, a => a == .nop && rd != ra && rd != rb && ra != rb
  | .setb _ rd _ rb, a => a == .nop && rd != rb
  | _, _ => true

end Sys2Proof
end

