-- ==== Sys2Proof/Decode.lean ====
section
/-! DEFINITION. From the bytes of a bundle to its two instructions (R41 to R62), total on any words, each refusal
under the name of its cause; and the encoder, written from the same tables. -/

namespace Sys2Proof

/-- Why a word is no instruction (R61).  The C-slot refusals that rank below PRIV carry the word, from which the
step tells whether PRIV or a slot's own ILLOP_C comes first (R45). -/
inductive DecErr where
  | illopC
  | illopA
  | rsvfldC (w : Nat)
  | rsvfldA
  | rsvregC (w : Nat)
  | rsvregA
  deriving DecidableEq, Repr

/-- Bits [lo + n - 1 : lo] of a word, as a number. -/
def fld (w lo n : Nat) : Nat := w / 2 ^ lo % 2 ^ n

/-- A scalar register field (R13). -/
def SReg.ofCode (n : Nat) : Option SReg :=
  if n < 16 then some (.s (BitVec.ofNat 4 n))
  else if n < 24 then some (.d (BitVec.ofNat 3 (n - 16)))
  else if n = 24 then some .zr
  else if n = 25 then some .ix
  else if n = 26 then some .ci
  else if n = 27 then some .fd
  else if n = 28 then some .ck
  else none

/-- The field value of a scalar register (R13). -/
def SReg.code : SReg → Nat
  | .s n => n.toNat
  | .d n => 16 + n.toNat
  | .zr => 24
  | .ix => 25
  | .ci => 26
  | .fd => 27
  | .ck => 28

/-- The sc codes of R50; 5 to 7 are reserved. -/
def Scope.ofCode (n : Nat) : Option Scope :=
  if n = 0 then some .core else if n = 1 then some .quad else if n = 2 then some .die
  else if n = 3 then some .pkg else if n = 4 then some .pod else none

def Scope.code : Scope → Nat
  | .core => 0
  | .quad => 1
  | .die => 2
  | .pkg => 3
  | .pod => 4

/-- The element type codes of R54. -/
def VTy.ofCode (n : Nat) : VTy :=
  if n = 0 then .f32 else if n = 1 then .bf16 else if n = 2 then .f16 else if n = 3 then .i32
  else if n = 4 then .n32 else if n = 5 then .i16 else if n = 6 then .i8 else .n8

def VTy.code : VTy → Nat
  | .f32 => 0
  | .bf16 => 1
  | .f16 => 2
  | .i32 => 3
  | .n32 => 4
  | .i16 => 5
  | .i8 => 6
  | .n8 => 7

/-- The VCVT target codes of R60; 15 to 31 are not listed. -/
def CvtCode.ofCode (n : Nat) : Option CvtCode :=
  if n = 0 then some .f32 else if n = 1 then some .bf16 else if n = 2 then some .f16
  else if n = 3 then some .i32 else if n = 4 then some .n32 else if n = 5 then some .i16
  else if n = 6 then some .i8 else if n = 7 then some .n8 else if n = 8 then some .e4m3
  else if n = 9 then some .e5m2 else if n = 10 then some .e2m3 else if n = 11 then some .e3m2
  else if n = 12 then some .e2m1 else if n = 13 then some .i4 else if n = 14 then some .ds8 else none

def CvtCode.code : CvtCode → Nat
  | .f32 => 0
  | .bf16 => 1
  | .f16 => 2
  | .i32 => 3
  | .n32 => 4
  | .i16 => 5
  | .i8 => 6
  | .n8 => 7
  | .e4m3 => 8
  | .e5m2 => 9
  | .e2m3 => 10
  | .e3m2 => 11
  | .e2m1 => 12
  | .i4 => 13
  | .ds8 => 14

/-- The sizes of R208; 3 is not listed. -/
def GSize.ofCode (n : Nat) : Option GSize :=
  if n = 0 then some .byte else if n = 1 then some .half else if n = 2 then some .word else none

def GSize.code : GSize → Nat
  | .byte => 0
  | .half => 1
  | .word => 2

/-- The destination codes of VLDM (R210); 3 is not listed. -/
def MxDest.ofCode (n : Nat) : Option MxDest :=
  if n = 0 then some .f32 else if n = 1 then some .bf16 else if n = 2 then some .f16 else none

def MxDest.code : MxDest → Nat
  | .f32 => 0
  | .bf16 => 1
  | .f16 => 2

/-- The element codes of VLDM and CPY.X (R210, R241); 6 and 7 are not listed. -/
def MxElem.ofCode (n : Nat) : Option MxElem :=
  if n = 0 then some .e4m3 else if n = 1 then some .e5m2 else if n = 2 then some .e2m3
  else if n = 3 then some .e3m2 else if n = 4 then some .e2m1 else if n = 5 then some .int8 else none

def MxElem.code : MxElem → Nat
  | .e4m3 => 0
  | .e5m2 => 1
  | .e2m3 => 2
  | .e3m2 => 3
  | .e2m1 => 4
  | .int8 => 5

/-- A named value of an fn field or sub-field: ILLOP_C outside the list (R55). -/
def namedC {α : Type} (o : Option α) : Except DecErr α :=
  match o with
  | some a => .ok a
  | none => .error .illopC

/-- A reserved field or value: RSVFLD_C (R50, R61). -/
def zeroC (w : Nat) (bad : Bool) : Except DecErr Unit :=
  if bad then .error (.rsvfldC w) else .ok ()

/-- A scope field: reserved values raise RSVFLD_C (R50, R56). -/
def scopeC (w n : Nat) : Except DecErr Scope :=
  match Scope.ofCode n with
  | some a => .ok a
  | none => .error (.rsvfldC w)

/-- A scalar register field of a C-slot instruction (R13). -/
def regC (w n : Nat) : Except DecErr SReg :=
  match SReg.ofCode n with
  | some a => .ok a
  | none => .error (.rsvregC w)

/-- A vector register field of a C-slot instruction (R50): masks and reserved values are refused. -/
def vecC (w n : Nat) : Except DecErr VReg :=
  if n < 16 then .ok (BitVec.ofNat 4 n) else .error (.rsvregC w)

def zeroA (bad : Bool) : Except DecErr Unit :=
  if bad then .error .rsvfldA else .ok ()

def regA (n : Nat) : Except DecErr SReg :=
  match SReg.ofCode n with
  | some a => .ok a
  | none => .error .rsvregA

def vecA (n : Nat) : Except DecErr VReg :=
  if n < 16 then .ok (BitVec.ofNat 4 n) else .error .rsvregA

/-- A mask field: 16 to 19 name m0 to m3 (R51). -/
def maskA (n : Nat) : Except DecErr MReg :=
  if 16 ≤ n ∧ n < 20 then .ok (BitVec.ofNat 2 (n - 16)) else .error .rsvregA

/-- Rewrites a C-slot refusal of a register field that an earlier reserved field would mask. -/
def hdrOf (w k : Nat) : Hdr :=
  { st := BitVec.ofNat 3 (fld w 28 3)
    lit := if fld w 31 1 = 1 then some (BitVec.ofNat 32 k) else none }

/-- CR format (R49): the fields rd, ra, rb that an instruction uses; the others must be zero. -/
def crRda (w : Nat) (used0 usedA usedB : Bool) : Except DecErr Unit :=
  zeroC w ((!used0 && fld w 17 5 != 0) || (!usedA && fld w 12 5 != 0) || (!usedB && fld w 7 5 != 0))

/-- An instruction of CR form with rd, ra and rb. -/
def decRdRaRb (w : Nat) (mk : SReg → SReg → SReg → Instr) : Except DecErr Instr := do
  let rd ← regC w (fld w 17 5)
  let ra ← regC w (fld w 12 5)
  let rb ← regC w (fld w 7 5)
  return mk rd ra rb

def decRdRa (w : Nat) (mk : SReg → SReg → Instr) : Except DecErr Instr := do
  let rd ← regC w (fld w 17 5)
  let ra ← regC w (fld w 12 5)
  return mk rd ra

def decRaRb (w : Nat) (mk : SReg → SReg → Instr) : Except DecErr Instr := do
  let ra ← regC w (fld w 12 5)
  let rb ← regC w (fld w 7 5)
  return mk ra rb

def decRa (w : Nat) (mk : SReg → Instr) : Except DecErr Instr := do
  let ra ← regC w (fld w 12 5)
  return mk ra

/-- BC (R130): the eight conditions of R50. -/
def decBc (w : Nat) (h : Hdr) : Except DecErr Instr := do
  let ra ← regC w (fld w 17 5)
  let off := BitVec.ofNat 14 (fld w 0 14)
  match fld w 14 3 with
  | 0 => return .bcEqz h ra off
  | 1 => return .bcNez h ra off
  | 2 => return .bcLtz h ra off
  | 3 => return .bcGez h ra off
  | 4 => return .bcGtz h ra off
  | 5 => return .bcLez h ra off
  | 6 => return .bcFull h ra off
  | _ => return .bcEmpty h ra off

/-- LD, LDS and ST (R172): in a lone bundle dsp must be zero (R43). -/
def decMem (w : Nat) (h : Hdr) (mk : Hdr → SReg → SReg → MemMod → Instr) : Except DecErr Instr := do
  let sc ← scopeC w (fld w 5 3)
  zeroC w (h.lit.isSome && fld w 0 5 != 0)
  let rd ← regC w (fld w 17 5)
  let ra ← regC w (fld w 12 5)
  return mk h rd ra { sz := BitVec.ofNat 2 (fld w 10 2), ord := BitVec.ofNat 2 (fld w 8 2), sc := sc, dsp := BitVec.ofNat 5 (fld w 0 5) }

/-- The COP 0x17 forms (R173): sz names the form. -/
def decFe (w : Nat) (h : Hdr) : Except DecErr Instr := do
  let sc ← scopeC w (fld w 5 3)
  zeroC w (h.lit.isSome && fld w 0 5 != 0)
  let rd ← regC w (fld w 17 5)
  let ra ← regC w (fld w 12 5)
  let m : FeMod := { ord := BitVec.ofNat 2 (fld w 8 2), sc := sc, dsp := BitVec.ofNat 5 (fld w 0 5) }
  match fld w 10 2 with
  | 0 => return .ldf h rd ra m
  | 1 => return .ldfe h rd ra m
  | 2 => return .stef h rd ra m
  | _ => return .stf h rd ra m

/-- AMO (R56, R177). -/
def decAmo (w : Nat) (h : Hdr) : Except DecErr Instr := do
  let mk ← namedC (match fld w 3 4 with
    | 0 => some (Instr.amoAdd h)
    | 1 => some (Instr.amoAnd h)
    | 2 => some (Instr.amoOr h)
    | 3 => some (Instr.amoXor h)
    | 4 => some (Instr.amoSmin h)
    | 5 => some (Instr.amoSmax h)
    | 6 => some (Instr.amoNmin h)
    | 7 => some (Instr.amoNmax h)
    | 8 => some (Instr.amoSwap h)
    | 9 => some (Instr.amoFadd h)
    | _ => none)
  decRdRaRb w (fun rd ra rb => mk rd ra rb (fld w 2 1 == 1) (BitVec.ofNat 2 (fld w 0 2)))

/-- A vector memory form with no rb, or with a scalar rb (R207). -/
def decVls (w : Nat) (h : Hdr) (one : Hdr → VReg → SReg → MReg → Instr)
    (str : Hdr → VReg → SReg → SReg → MReg → Instr) (tr : Hdr → VReg → SReg → MReg → Instr) : Except DecErr Instr := do
  let msk := BitVec.ofNat 2 (fld w 5 2)
  if fld w 0 5 = 1 then
    let vd ← vecC w (fld w 17 5)
    let ra ← regC w (fld w 12 5)
    let rb ← regC w (fld w 7 5)
    return str h vd ra rb msk
  else if fld w 0 5 ≤ 2 then
    zeroC w (fld w 7 5 != 0)
    let vd ← vecC w (fld w 17 5)
    let ra ← regC w (fld w 12 5)
    return (if fld w 0 5 = 0 then one else tr) h vd ra msk
  else .error .illopC

/-- VGTH and VSCT (R208). -/
def decGs (w : Nat) (h : Hdr) (mk : Hdr → VReg → SReg → VReg → MReg → GSize → Instr) : Except DecErr Instr := do
  let sz ← namedC (GSize.ofCode (fld w 0 2))
  zeroC w (fld w 2 3 != 0)
  let vd ← vecC w (fld w 17 5)
  let ra ← regC w (fld w 12 5)
  let vi ← vecC w (fld w 7 5)
  return mk h vd ra vi (BitVec.ofNat 2 (fld w 5 2)) sz

/-- The CX fields (R49): t, and the registers ra and rb where the instruction uses them. -/
def cxT (w : Nat) : TileNo := BitVec.ofNat 6 (fld w 16 6)

def cxA (w : Nat) : Except DecErr SReg := regC w (fld w 11 5)

def cxB (w : Nat) : Except DecErr SReg := regC w (fld w 6 5)

/-- The third operand of a CPY form stands in the register after rb, which must be one of s0 to s14 (R57). -/
def cpyThird (w : Nat) : Except DecErr Unit :=
  if fld w 6 5 ≤ 14 then .ok () else .error (.rsvregC w)

/-- CPY (R239 to R241). -/
def decCpy (w : Nat) (h : Hdr) : Except DecErr Instr := do
  let t := cxT w
  match fld w 0 3 with
  | 0 => do
    zeroC w (fld w 3 3 != 0)
    return .cpyG2t h t (← cxA w) (← cxB w)
  | 1 => do
    let sc ← scopeC w (fld w 3 3)
    return .cpyT2g h t (← cxA w) (← cxB w) sc
  | 2 => do
    zeroC w (fld w 3 3 != 0)
    let ra ← cxA w
    let rb ← cxB w
    cpyThird w
    return .cpyMc h t ra rb
  | 3 => do
    zeroC w (fld w 3 3 != 0)
    let ra ← cxA w
    let rb ← cxB w
    cpyThird w
    return .cpyGx h t ra rb
  | 4 => do
    zeroC w (fld w 3 3 != 0)
    let ra ← cxA w
    let rb ← cxB w
    cpyThird w
    return .cpyX h t ra rb
  | _ => .error .illopC

/-- MDRN (R232): codes 8 to 15 are not listed, and ra is used with code 6 only. -/
def decMdrn (w : Nat) (h : Hdr) : Except DecErr Instr := do
  if 8 ≤ fld w 2 4 then .error .illopC
  else do
    zeroC w (fld w 7 4 != 0 || (fld w 2 4 != 6 && fld w 11 5 != 0))
    let ra ← cxA w
    return .mdrn h (cxT w) ra (fld w 6 1 == 1) (BitVec.ofNat 3 (fld w 2 4)) (BitVec.ofNat 2 (fld w 0 2))

/-- The CSRs that only system code may access (R22). -/
def csrSystem (n : Nat) : Bool := n == 0x040 || decide (0x100 ≤ n)

/-- The CSRs that no instruction writes (R21, R248, R332, R346). -/
def csrReadOnly (n : Nat) : Bool :=
  [0x021, 0x030, 0x031, 0x111, 0x122, 0x133, 0x140, 0x141, 0x142, 0x143, 0x144].contains n

/-- CSRR, CSRW and CSRS (R247): an unassigned number is ILLOP_C. -/
def decCsr (w : Nat) (h : Hdr) : Except DecErr Instr := do
  let n := BitVec.ofNat 12 (fld w 0 12)
  if !csrAssigned (fld w 0 12) then .error .illopC
  else match fld w 22 6 with
    | 0x39 => do
      zeroC w (fld w 12 5 != 0)
      let rd ← regC w (fld w 17 5)
      return .csrr h rd n
    | 0x3A => decRdRa w (fun rd ra => .csrw h rd ra n)
    | _ => decRdRa w (fun rd ra => .csrs h rd ra n)

/-- SYS (R250 to R256). -/
def decSys (w : Nat) (h : Hdr) : Except DecErr Instr := do
  match fld w 0 7 with
  | 0 => do
    crRda w false false false
    return .eret h
  | 1 => do
    crRda w false false false
    return .halt h
  | 2 => do
    crRda w false true true
    decRaRb w (.ici h)
  | 3 => do
    crRda w false true true
    decRaRb w (.tlbw h)
  | 4 => do
    crRda w false true true
    decRaRb w (.tlbi h)
  | 5 => do
    crRda w true true false
    decRdRa w (.mbox h)
  | 6 => do
    crRda w false true false
    decRa w (.mresResume h)
  | _ => .error .illopC

/-- A form whose fn field must be 0 (R55). -/
def fn0 (w : Nat) : Except DecErr Unit := zeroC w (fld w 0 7 != 0)

/-- The C-slot map of R55.  The number w is word 0 and k is word 1. -/
def decodeC (w k : Nat) : Except DecErr Instr := do
  let h := hdrOf w k
  let lone := h.lit.isSome
  match fld w 22 6 with
  | 0x00 => do
    fn0 w
    crRda w false false false
    return .cnop h
  | 0x01 => do
    zeroC w (fld w 12 5 != 0 || (lone && fld w 0 12 != 0))
    let rd ← regC w (fld w 17 5)
    return .li h rd (BitVec.ofNat 12 (fld w 0 12))
  | 0x02 => do
    zeroC w (lone && fld w 0 12 != 0)
    decRdRa w (fun rd ra => .lih h rd ra (BitVec.ofNat 12 (fld w 0 12)))
  | 0x03 => do
    zeroC w (lone && fld w 0 12 != 0)
    decRdRa w (fun rd ra => .addi h rd ra (BitVec.ofNat 12 (fld w 0 12)))
  | 0x04 => do
    zeroC w (fld w 17 5 != 0 || fld w 14 3 != 0)
    return .br h (BitVec.ofNat 14 (fld w 0 14))
  | 0x05 => do
    decBc w h
  | 0x06 => do
    zeroC w (fld w 17 5 != 0 || fld w 14 3 != 0 || (lone && fld w 0 14 != 0))
    return .call h (BitVec.ofNat 14 (fld w 0 14))
  | 0x07 => do
    fn0 w
    crRda w false true false
    decRa w (.callx h)
  | 0x08 => do
    fn0 w
    crRda w false false false
    return .ret h
  | 0x09 => do
    fn0 w
    crRda w false true false
    decRa w (.brx h)
  | 0x0A => do
    zeroC w (fld w 2 5 != 0)
    match fld w 0 2 with
    | 0 => decRdRaRb w (.create h)
    | 1 => decRdRaRb w (.createRev h)
    | 2 => decRdRaRb w (fun rd ra rb => .createDet h rd ra rb false)
    | _ => decRdRaRb w (fun rd ra rb => .createDet h rd ra rb true)
  | 0x0B => do
    fn0 w
    crRda w true true false
    decRdRa w (.sync h)
  | 0x0C => do
    fn0 w
    crRda w false true false
    decRa w (.breakFam h)
  | 0x0D => do
    fn0 w
    crRda w false false false
    return .endThread h
  | 0x0E => do
    fn0 w
    crRda w false true false
    decRa w (.kill h)
  | 0x0F => do
    let mk ← namedC (match fld w 0 7 with
      | 0 => some (Instr.fstatStatus h)
      | 1 => some (Instr.fstatBval h)
      | 2 => some (Instr.fstatBidx h)
      | 3 => some (Instr.fstatReplay h)
      | _ => none)
    crRda w true true false
    decRdRa w mk
  | 0x10 => do
    fn0 w
    crRda w false true false
    decRa w (.yieldSlice h)
  | 0x11 => do
    fn0 w
    crRda w false true false
    decRa w (.travel h)
  | 0x12 => do
    crRda w false false false
    zeroC w (fld w 6 1 != 0)
    let sc ← scopeC w (fld w 3 3)
    return .bar h sc (BitVec.ofNat 3 (fld w 0 3))
  | 0x13 => do
    crRda w false true false
    zeroC w (fld w 6 1 != 0)
    let sc ← scopeC w (fld w 3 3)
    decRa w (fun ra => .barcfg h ra sc (BitVec.ofNat 3 (fld w 0 3)))
  | 0x14 => do
    decMem w h .ld
  | 0x15 => do
    decMem w h .lds
  | 0x16 => do
    decMem w h .st
  | 0x17 => do
    decFe w h
  | 0x18 => do
    match fld w 0 7 with
    | 0 => do
      crRda w false true false
      decRa w (.feclr h)
    | 1 => do
      crRda w true true false
      decRdRa w (.feget h)
    | 2 => do
      crRda w false true false
      decRa w (.feset h)
    | _ => .error .illopC
  | 0x19 => do
    decAmo w h
  | 0x1A => do
    zeroC w (fld w 3 4 != 0)
    decRdRaRb w (fun rd ra rb => .cas h rd ra rb (fld w 2 1 == 1) (BitVec.ofNat 2 (fld w 0 2)))
  | 0x1B => do
    crRda w false false false
    zeroC w (fld w 6 1 != 0)
    let sc ← scopeC w (fld w 2 3)
    return .fence h (fld w 5 1 == 1) sc (BitVec.ofNat 2 (fld w 0 2))
  | 0x1C => do
    let mk ← namedC (match fld w 0 2 with
      | 0 => some (Instr.cmoClean h)
      | 1 => some (Instr.cmoInval h)
      | 2 => some (Instr.cmoFlush h)
      | _ => none)
    zeroC w (fld w 3 4 != 0)
    crRda w false true true
    decRaRb w (fun ra rb => mk ra rb (fld w 2 1 == 1))
  | 0x1D => do
    match fld w 0 7 with
    | 0 => decRdRaRb w (.movb h)
    | 1 => decRdRaRb w (.setb h)
    | _ => .error .illopC
  | 0x1E => do
    fn0 w
    crRda w false true true
    decRaRb w (.bcfg h)
  | 0x1F => do
    crRda w false false false
    zeroC w (fld w 5 2 != 0)
    return .trap h (BitVec.ofNat 5 (fld w 0 5))
  | 0x20 => do
    decVls w h .vld .vldStr .vldt
  | 0x21 => do
    decVls w h .vst .vstStr .vstt
  | 0x22 => do
    decGs w h .vgth
  | 0x23 => do
    decGs w h .vsct
  | 0x24 => do
    zeroC w (fld w 3 2 != 0)
    let vd ← vecC w (fld w 17 5)
    let ra ← regC w (fld w 12 5)
    let rb ← regC w (fld w 7 5)
    return .vldx h vd ra rb (BitVec.ofNat 2 (fld w 5 2)) (VTy.ofCode (fld w 0 3))
  | 0x25 => do
    let el ← namedC (MxElem.ofCode (fld w 0 3))
    let dest ← namedC (MxDest.ofCode (fld w 3 2))
    let vd ← vecC w (fld w 17 5)
    let ra ← regC w (fld w 12 5)
    let rb ← regC w (fld w 7 5)
    return .vldm h vd ra rb (BitVec.ofNat 2 (fld w 5 2)) dest el
  | 0x28 => do
    zeroC w (fld w 0 6 != 0)
    let ra ← cxA w
    let rb ← cxB w
    return .tdef h (cxT w) ra rb
  | 0x29 => do
    zeroC w (fld w 6 5 != 0 || fld w 0 6 != 0)
    let ra ← cxA w
    return .tarm h (cxT w) ra
  | 0x2A => do
    zeroC w (fld w 11 5 != 0 || fld w 6 5 != 0 || fld w 0 6 != 0)
    return .trel h (cxT w)
  | 0x2B => do
    zeroC w (fld w 11 5 != 0 || fld w 6 5 != 0 || fld w 0 6 != 0)
    return .twait h (cxT w)
  | 0x2C => do
    zeroC w (fld w 11 5 != 0 || fld w 0 6 != 0)
    let rb ← cxB w
    return .tstat h (cxT w) rb
  | 0x2D => do
    decCpy w h
  | 0x2E => do
    zeroC w (fld w 6 5 != 0 || fld w 0 6 != 0)
    let ra ← cxA w
    return .cpyc h (cxT w) ra
  | 0x2F => do
    zeroC w (fld w 11 5 != 0 || fld w 6 5 != 0 || fld w 0 6 != 0)
    return .mls h (cxT w)
  | 0x30 => do
    zeroC w (fld w 16 6 != 0 || fld w 11 5 != 0 || fld w 6 5 != 0 || fld w 0 6 != 0)
    return .mswp h
  | 0x31 => do
    zeroC w (fld w 11 5 != 0 || fld w 6 5 != 0 || fld w 3 3 != 0)
    return .mma h (cxT w) (fld w 2 1 == 1) (BitVec.ofNat 2 (fld w 0 2))
  | 0x32 => do
    zeroC w (fld w 11 5 != 0 || fld w 6 5 != 0 || fld w 3 3 != 0)
    return .mmasp h (cxT w) (fld w 2 1 == 1) (BitVec.ofNat 2 (fld w 0 2))
  | 0x33 => do
    zeroC w (fld w 6 5 != 0 || fld w 3 3 != 0)
    let ra ← cxA w
    return .mmag h (cxT w) ra (fld w 2 1 == 1) (BitVec.ofNat 2 (fld w 0 2))
  | 0x34 => do
    decMdrn w h
  | 0x35 => do
    zeroC w (fld w 16 6 != 0 || fld w 11 5 != 0 || fld w 6 5 != 0 || fld w 3 3 != 0)
    if fld w 2 1 = 1 then return .mzeroFp h (BitVec.ofNat 2 (fld w 0 2))
    else return .mzeroInt h (BitVec.ofNat 2 (fld w 0 2))
  | 0x36 => do
    zeroC w (fld w 16 6 != 0 || fld w 11 5 != 0 || fld w 2 4 != 0)
    let rb ← cxB w
    return .mstat h rb (BitVec.ofNat 2 (fld w 0 2))
  | 0x37 => do
    zeroC w (fld w 11 5 != 0 || fld w 6 5 != 0 || fld w 0 6 != 0)
    return .mxsw h (cxT w)
  | 0x38 => do
    match fld w 0 7 with
    | 0 => do
      crRda w true true false
      decRdRa w (.rgnDef h)
    | 1 => do
      crRda w false true false
      decRa w (.rgnRel h)
    | _ => .error .illopC
  | 0x39 => do
    decCsr w h
  | 0x3A => do
    decCsr w h
  | 0x3B => do
    decCsr w h
  | 0x3C => do
    decSys w h
  | 0x3D => do
    if lone then do
      zeroC w (fld w 0 22 != 0)
      return .ext h
    else .error .illopC
  | _ => .error .illopC

/-- The second operand of IALU, ICMP, IMUL and IDIV (R52). -/
def opnd2 (w : Nat) : Except DecErr Opnd2 :=
  if fld w 5 1 = 1 then .ok (.imm (BitVec.ofNat 10 (fld w 11 5 * 32 + fld w 0 5)))
  else do
    zeroA (fld w 1 4 != 0)
    let rb ← regA (fld w 11 5)
    return .reg rb (fld w 0 1 == 1)

/-- A three-operand integer form: reserved bits rank before registers (R45). -/
def decInt (w : Nat) (mk : SReg → SReg → Opnd2 → Instr) : Except DecErr Instr := do
  zeroA (fld w 5 1 = 0 && fld w 1 4 != 0)
  let rd ← regA (fld w 21 5)
  let ra ← regA (fld w 16 5)
  let o ← opnd2 w
  return mk rd ra o

/-- MOV: the ra field must be zero (R154). -/
def decMov (w : Nat) : Except DecErr Instr := do
  zeroA (fld w 16 5 != 0 || (fld w 5 1 = 0 && fld w 1 4 != 0))
  let rd ← regA (fld w 21 5)
  let o ← opnd2 w
  return .mov rd o

/-- IUN (R158): with I = 1 the rb field and md[4:0] are ignored (R62). -/
def decIun (w : Nat) (mk : SReg → SReg → UOpnd → Instr) : Except DecErr Instr := do
  zeroA (fld w 5 1 = 0 && (fld w 1 4 != 0 || fld w 11 5 != 0))
  let rd ← regA (fld w 21 5)
  let ra ← regA (fld w 16 5)
  if fld w 5 1 = 1 then return mk rd ra (.imm (BitVec.ofNat 10 (fld w 11 5 * 32 + fld w 0 5)))
  else return mk rd ra (.std (fld w 0 1 == 1))

def frnd (w : Nat) : FRnd := { n := fld w 2 1 == 1, rm := BitVec.ofNat 2 (fld w 0 2) }

/-- FALU with two operands (R161). -/
def decF2 (w : Nat) (mk : SReg → SReg → SReg → FRnd → Instr) : Except DecErr Instr := do
  zeroA (fld w 3 3 != 0)
  let rd ← regA (fld w 21 5)
  let ra ← regA (fld w 16 5)
  let rb ← regA (fld w 11 5)
  return mk rd ra rb (frnd w)

/-- FALU and FCVT with one operand: rb must be zero. -/
def decF1 (w : Nat) (mk : SReg → SReg → FRnd → Instr) : Except DecErr Instr := do
  zeroA (fld w 3 3 != 0 || fld w 11 5 != 0)
  let rd ← regA (fld w 21 5)
  let ra ← regA (fld w 16 5)
  return mk rd ra (frnd w)

/-- The conversions that have .w in md[3] (R53, R165). -/
def decFw (w : Nat) (mk : SReg → SReg → Bool → FRnd → Instr) : Except DecErr Instr := do
  zeroA (fld w 4 2 != 0 || fld w 11 5 != 0)
  let rd ← regA (fld w 21 5)
  let ra ← regA (fld w 16 5)
  return mk rd ra (fld w 3 1 == 1) (frnd w)

def decF3 (w : Nat) (mk : SReg → SReg → SReg → SReg → FRnd → Instr) : Except DecErr Instr := do
  zeroA (fld w 3 3 != 0)
  let rd ← regA (fld w 21 5)
  let ra ← regA (fld w 16 5)
  let rb ← regA (fld w 11 5)
  let rc ← regA (fld w 6 5)
  return mk rd ra rb rc (frnd w)

def decFcmp (w : Nat) (mk : SReg → SReg → SReg → Instr) : Except DecErr Instr := do
  zeroA (fld w 0 6 != 0)
  let rd ← regA (fld w 21 5)
  let ra ← regA (fld w 16 5)
  let rb ← regA (fld w 11 5)
  return mk rd ra rb

def vmod (w : Nat) : VMod := { msk := BitVec.ofNat 2 (fld w 3 2), ty := VTy.ofCode (fld w 0 3) }

/-- rb of a vector opcode: a vector register, or a scalar when S = 1 (R54). -/
def vsrc (w : Nat) : Except DecErr VSrc :=
  if fld w 5 1 = 1 then do
    let r ← regA (fld w 11 5)
    return .sc r
  else do
    let r ← vecA (fld w 11 5)
    return .v r

def decV2 (w : Nat) (mk : VReg → VReg → VSrc → VMod → Instr) : Except DecErr Instr := do
  let vd ← vecA (fld w 21 5)
  let va ← vecA (fld w 16 5)
  let b ← vsrc w
  return mk vd va b (vmod w)

def decV3 (w : Nat) (mk : VReg → VReg → VSrc → VReg → VMod → Instr) : Except DecErr Instr := do
  let vd ← vecA (fld w 21 5)
  let va ← vecA (fld w 16 5)
  let b ← vsrc w
  let vc ← vecA (fld w 6 5)
  return mk vd va b vc (vmod w)

/-- VUN and VSCAN: rb must be zero (R59); S = 1 is the fallback of R62. -/
def decV1 (w : Nat) (mk : VReg → VReg → Bool → VMod → Instr) : Except DecErr Instr := do
  zeroA (fld w 11 5 != 0)
  let vd ← vecA (fld w 21 5)
  let va ← vecA (fld w 16 5)
  return mk vd va (fld w 5 1 == 1) (vmod w)

def decVred (w : Nat) (mk : SReg → VReg → Bool → VMod → Instr) : Except DecErr Instr := do
  zeroA (fld w 11 5 != 0)
  let rd ← regA (fld w 21 5)
  let va ← vecA (fld w 16 5)
  return mk rd va (fld w 5 1 == 1) (vmod w)

def decVcmp (w : Nat) (mk : MReg → VReg → VSrc → VMod → Instr) : Except DecErr Instr := do
  let md ← maskA (fld w 21 5)
  let va ← vecA (fld w 16 5)
  let b ← vsrc w
  return mk md va b (vmod w)

def decMalu3 (w : Nat) (mk : MReg → MReg → MReg → Instr) : Except DecErr Instr := do
  zeroA (fld w 0 6 != 0)
  let md ← maskA (fld w 21 5)
  let ma ← maskA (fld w 16 5)
  let mb ← maskA (fld w 11 5)
  return mk md ma mb

/-- MALU (R201): NOT leaves rb unused, SET and CLR leave ra and rb unused. -/
def decMalu (w : Nat) : Except DecErr Instr :=
  match fld w 6 5 with
  | 0 => decMalu3 w .maluAnd
  | 1 => decMalu3 w .maluOr
  | 2 => decMalu3 w .maluXor
  | 3 => decMalu3 w .maluAndn
  | 4 => do
    zeroA (fld w 0 6 != 0 || fld w 11 5 != 0)
    let md ← maskA (fld w 21 5)
    let ma ← maskA (fld w 16 5)
    return .maluNot md ma
  | 5 => do
    zeroA (fld w 0 6 != 0 || fld w 11 5 != 0 || fld w 16 5 != 0)
    let md ← maskA (fld w 21 5)
    return .maluSet md
  | 6 => do
    zeroA (fld w 0 6 != 0 || fld w 11 5 != 0 || fld w 16 5 != 0)
    let md ← maskA (fld w 21 5)
    return .maluClr md
  | _ => .error .illopA

def decMpop (w : Nat) (mk : SReg → MReg → Instr) : Except DecErr Instr := do
  zeroA (fld w 0 6 != 0 || fld w 11 5 != 0)
  let rd ← regA (fld w 21 5)
  let ma ← maskA (fld w 16 5)
  return mk rd ma

/-- IALU (R154). -/
def decIalu (w : Nat) : Except DecErr Instr :=
  match fld w 6 5 with
  | 0 => decInt w .add
  | 1 => decInt w .sub
  | 2 => decInt w .and
  | 3 => decInt w .or
  | 4 => decInt w .xor
  | 5 => decInt w .andn
  | 6 => decInt w .shl
  | 7 => decInt w .shr
  | 8 => decInt w .sar
  | 9 => decInt w .rol
  | 10 => decInt w .min
  | 11 => decInt w .max
  | 12 => decInt w .minn
  | 13 => decInt w .maxn
  | 14 => decInt w .shadd1
  | 15 => decInt w .shadd2
  | 16 => decInt w .shadd3
  | 17 => (decMov w)
  | _ => .error .illopA

/-- ICMP (R155). -/
def decIcmp (w : Nat) : Except DecErr Instr :=
  match fld w 6 5 with
  | 0 => decInt w .cmpEq
  | 1 => decInt w .cmpNe
  | 2 => decInt w .cmpLt
  | 3 => decInt w .cmpLtn
  | 4 => decInt w .cmpLe
  | 5 => decInt w .cmpLen
  | 6 => decInt w .cmpGt
  | 7 => decInt w .cmpGtn
  | _ => .error .illopA

/-- IMUL (R156). -/
def decImul (w : Nat) : Except DecErr Instr :=
  match fld w 6 5 with
  | 0 => decInt w .mul
  | 1 => decInt w .mulhs
  | 2 => decInt w .mulhn
  | 3 => decInt w .mulhsn
  | _ => .error .illopA

/-- IDIV (R157). -/
def decIdiv (w : Nat) : Except DecErr Instr :=
  match fld w 6 5 with
  | 0 => decInt w .divs
  | 1 => decInt w .divn
  | 2 => decInt w .rems
  | 3 => decInt w .remn
  | _ => .error .illopA

/-- IUN (R158). -/
def decIunOp (w : Nat) : Except DecErr Instr :=
  match fld w 6 5 with
  | 0 => decIun w .clz
  | 1 => decIun w .ctz
  | 2 => decIun w .popc
  | 3 => decIun w .not
  | 4 => decIun w .neg
  | 5 => decIun w .bswap
  | 6 => decIun w .sexb
  | 7 => decIun w .sexh
  | 8 => decIun w .sexw
  | 9 => decIun w .zexb
  | 10 => decIun w .zexh
  | 11 => decIun w .zexw
  | _ => .error .illopA

/-- FALU (R161). -/
def decFalu (w : Nat) : Except DecErr Instr :=
  match fld w 6 5 with
  | 0 => decF2 w .fadd
  | 1 => decF2 w .fsub
  | 2 => decF2 w .fmul
  | 3 => decF2 w .fdiv
  | 4 => decF2 w .fmin
  | 5 => decF2 w .fmax
  | 6 => (decF1 w .fsqrt)
  | 7 => (decF1 w .fabs)
  | 8 => (decF1 w .fneg)
  | 9 => decF2 w .fcpsgn
  | _ => .error .illopA

/-- FCMP (R164). -/
def decFcmpOp (w : Nat) : Except DecErr Instr :=
  match fld w 6 5 with
  | 0 => decFcmp w .fcmpEq
  | 1 => decFcmp w .fcmpLt
  | 2 => decFcmp w .fcmpLe
  | 3 => decFcmp w .fcmpUn
  | _ => .error .illopA

/-- FCVT (R165). -/
def decFcvt (w : Nat) : Except DecErr Instr :=
  match fld w 6 5 with
  | 0 => (decFw w .i2f)
  | 1 => (decFw w .n2f)
  | 2 => (decFw w .f2i)
  | 3 => (decFw w .f2n)
  | 4 => decF1 w .f2bf
  | 5 => decF1 w .bf2f
  | 6 => decF1 w .f2h
  | 7 => decF1 w .h2f
  | 8 => decF1 w .fcls
  | _ => .error .illopA

/-- VALU (R191). -/
def decValu (w : Nat) : Except DecErr Instr :=
  match fld w 6 5 with
  | 0 => decV2 w .vadd
  | 1 => decV2 w .vsub
  | 2 => decV2 w .vmul
  | 3 => decV2 w .vdiv
  | 4 => decV2 w .vmin
  | 5 => decV2 w .vmax
  | 6 => decV2 w .vand
  | 7 => decV2 w .vor
  | 8 => decV2 w .vxor
  | 9 => decV2 w .vshl
  | 10 => decV2 w .vshr
  | 11 => decV2 w .vsar
  | 12 => decV2 w .vadds
  | 13 => decV2 w .vsubs
  | 14 => decV2 w .vabsd
  | _ => .error .illopA

/-- VUN (R194). -/
def decVun (w : Nat) : Except DecErr Instr :=
  match fld w 6 5 with
  | 0 => decV1 w .vabs
  | 1 => decV1 w .vneg
  | 2 => decV1 w .vsqrt
  | 3 => decV1 w .vrcp
  | 4 => decV1 w .vrsq
  | 5 => decV1 w .vex2
  | 6 => decV1 w .vlg2
  | 7 => decV1 w .vmov
  | 8 => decV1 w .vnot
  | 9 => decV1 w .vclz
  | 10 => decV1 w .vpopc
  | 11 => decV1 w .vrelu
  | _ => .error .illopA

/-- VCMP (R196). -/
def decVcmpOp (w : Nat) : Except DecErr Instr :=
  match fld w 6 5 with
  | 0 => decVcmp w .vcmpEq
  | 1 => decVcmp w .vcmpNe
  | 2 => decVcmp w .vcmpLt
  | 3 => decVcmp w .vcmpLe
  | 4 => decVcmp w .vcmpGt
  | 5 => decVcmp w .vcmpGe
  | 6 => decVcmp w .vcmpUn
  | 7 => decVcmp w .vcmpOrd
  | _ => .error .illopA

/-- VRED (R199). -/
def decVredOp (w : Nat) : Except DecErr Instr :=
  match fld w 6 5 with
  | 0 => decVred w .vredSum
  | 1 => decVred w .vredMin
  | 2 => decVred w .vredMax
  | 3 => decVred w .vredAnd
  | 4 => decVred w .vredOr
  | 5 => decVred w .vredXor
  | _ => .error .illopA

/-- VSCAN (R199). -/
def decVscan (w : Nat) : Except DecErr Instr :=
  match fld w 6 5 with
  | 0 => decV1 w .vscanSum
  | 1 => decV1 w .vscanMax
  | _ => .error .illopA

/-- MPOP (R201). -/
def decMpopOp (w : Nat) : Except DecErr Instr :=
  match fld w 6 5 with
  | 0 => decMpop w .mpopCount
  | 1 => decMpop w .mpopFirst
  | _ => .error .illopA

/-- The A-slot map of R59; w is word 1. -/
def decodeA (w : Nat) : Except DecErr Instr :=
  match fld w 26 6 with
  | 0x00 => do
    zeroA (fld w 0 26 != 0)
    return .nop
  | 0x01 => decIalu w
  | 0x02 => decIcmp w
  | 0x03 => decImul w
  | 0x04 => decIdiv w
  | 0x05 => decIunOp w
  | 0x06 => do
    zeroA (fld w 8 3 != 0)
    let rd ← regA (fld w 21 5)
    let ra ← regA (fld w 16 5)
    return .bfx rd ra (fld w 7 1 == 1) (BitVec.ofNat 6 (fld w 6 1 * 32 + fld w 11 5)) (BitVec.ofNat 6 (fld w 0 6))
  | 0x07 => do
    zeroA (fld w 7 4 != 0)
    let rd ← regA (fld w 21 5)
    let ra ← regA (fld w 16 5)
    return .bfi rd ra (BitVec.ofNat 6 (fld w 6 1 * 32 + fld w 11 5)) (BitVec.ofNat 6 (fld w 0 6))
  | 0x08 => do
    zeroA (fld w 0 6 != 0)
    let rd ← regA (fld w 21 5)
    let ra ← regA (fld w 16 5)
    let rb ← regA (fld w 11 5)
    let rc ← regA (fld w 6 5)
    return .sel rd ra rb rc
  | 0x09 => decFalu w
  | 0x0A => decF3 w .ffma
  | 0x0B => decF3 w .fnma
  | 0x0C => decFcmpOp w
  | 0x0D => decFcvt w
  | 0x10 => decValu w
  | 0x11 => decV3 w .vfma
  | 0x12 => decV3 w .vfnma
  | 0x13 => decVun w
  | 0x14 => decVcmpOp w
  | 0x15 => do
    let vd ← vecA (fld w 21 5)
    let va ← vecA (fld w 16 5)
    let b ← vsrc w
    let mk ← maskA (fld w 6 5)
    return .vsel vd va b mk (vmod w)
  | 0x16 =>
    match CvtCode.ofCode (fld w 6 5) with
    | none => .error .illopA
    | some tc => do
      zeroA (fld w 11 5 != 0)
      let vd ← vecA (fld w 21 5)
      let va ← vecA (fld w 16 5)
      return .vcvt vd va tc (fld w 5 1 == 1) (vmod w)
  | 0x17 => decVredOp w
  | 0x18 => decVscan w
  | 0x19 => do
    zeroA (fld w 6 5 != 0)
    decV2 w .vperm
  | 0x1A => do
    zeroA (fld w 11 5 != 0 || fld w 6 5 != 0 || fld w 5 1 != 0)
    let vd ← vecA (fld w 21 5)
    let rs ← regA (fld w 16 5)
    return .vbcst vd rs (vmod w)
  | 0x1B => do
    zeroA (fld w 16 5 != 0 || fld w 11 5 != 0 || fld w 6 5 != 0 || fld w 5 1 != 0)
    let vd ← vecA (fld w 21 5)
    return .viota vd (vmod w)
  | 0x1C => do
    zeroA (fld w 6 5 != 0 || fld w 3 3 != 0)
    let rd ← regA (fld w 21 5)
    let va ← vecA (fld w 16 5)
    let rl ← regA (fld w 11 5)
    return .vext rd va rl (VTy.ofCode (fld w 0 3))
  | 0x1D => do
    zeroA (fld w 6 5 != 0 || fld w 3 3 != 0)
    let vd ← vecA (fld w 21 5)
    let rs ← regA (fld w 16 5)
    let rl ← regA (fld w 11 5)
    return .vins vd rs rl (VTy.ofCode (fld w 0 3))
  | 0x1E => decV3 w .vdot4
  | 0x1F => decMalu w
  | 0x20 => decMpopOp w
  | _ => .error .illopA

/-- MOVB and SETB allow no other A-slot instruction, and their written operands must differ (R182). -/
def moveClash (c : Instr) (a : Except DecErr Instr) : Bool :=
  let other := match a with
    | .ok .nop => false
    | _ => true
  match c with
  | .movb _ rd ra rb => other || rd == ra || rd == rb || ra == rb
  | .setb _ rd _ rb => other || rd == rb
  | _ => false

/-- As moveClash, of a MOVB or SETB word whose register fields do not decode: ILLOP_C comes before RSVREG_C (R45, R182). -/
def moveWordClash (w : Nat) (a : Except DecErr Instr) : Bool :=
  let other := match a with
    | .ok .nop => false
    | _ => true
  fld w 22 6 == 0x1D && (
    (fld w 0 7 == 0 && (other || fld w 17 5 == fld w 12 5 || fld w 17 5 == fld w 7 5 || fld w 12 5 == fld w 7 5)) ||
    (fld w 0 7 == 1 && (other || fld w 17 5 == fld w 7 5)))

/-- What a bundle's two words decode to: the C-slot's instruction or refusal, and the A-slot's.  A lone bundle has no
A-slot instruction (R43); the model runs NOP there. -/
structure Bundle where
  c : Except DecErr Instr
  a : Except DecErr Instr

/-- The two words of a bundle (R41, R44). -/
def decodeWords (w0 w1 : Nat) : Bundle :=
  let a : Except DecErr Instr := if fld w0 31 1 = 1 then .ok .nop else decodeA w1
  match decodeC w0 w1 with
  | .ok c => { c := if moveClash c a then .error .illopC else .ok c, a := a }
  | .error e => { c := .error (if moveWordClash w0 a then .illopC else e), a := a }

/-- The little-endian number that a list of bytes holds, lowest address first (R6). -/
def leNat : List Byte → Nat
  | [] => 0
  | b :: bs => b.toNat + 256 * leNat bs

/-- The eight bytes at a bundle's address, lowest first (R41). -/
def decodeBundle (bs : List Byte) : Bundle := decodeWords (leNat (bs.take 4)) (leNat ((bs.drop 4).take 4))

/-- The first n bytes of a number, least significant first (R6). -/
def leBytes : Nat → Nat → List Byte
  | 0, _ => []
  | n + 1, v => BitVec.ofNat 8 v :: leBytes n (v / 256)

/-- Whether a 32-bit word of the opcode table stands in the C-slot or in the A-slot.  The table numbers a row's bits in
the row's own word and the two maps overlap (DEDUCED, log entry 9): a word whose top four bits are zero is read as word 0 of a
bundle where that reading is an instruction, any other word (but EXT's, which has its L bit) as word 1 beside CNOP. -/
def tableInCSlot (w : Nat) : Bool :=
  match decodeC w 0 with
  | .ok _ => fld w 28 4 == 0 || fld w 22 10 == 0x23D
  | .error _ => false

/-- The eight bytes of the bundle in which a table word stands. -/
def tableBytes (_nbits w : Nat) : List Byte :=
  if tableInCSlot w then leBytes 4 w ++ leBytes 4 (w / 2 ^ 32) else leBytes 4 0 ++ leBytes 4 w

/-- The instruction this decoder reads from a table row's word. -/
def decodeTableWord (nbits w : Nat) : Option Instr :=
  let b := decodeBundle (tableBytes nbits w)
  match (if tableInCSlot w then b.c else b.a) with
  | .ok i => some i
  | .error _ => none

/-! The encoder, from the same tables. -/

/-- The C-slot word: opcode and fields under the header of R42. -/
def cWord (cop : Nat) (h : Hdr) (fields : Nat) : Nat :=
  (if h.lit.isSome then 2 ^ 31 else 0) + h.st.toNat * 2 ^ 28 + cop * 2 ^ 22 + fields

def crWord (cop : Nat) (h : Hdr) (rd ra rb fn : Nat) : Nat := cWord cop h (rd * 2 ^ 17 + ra * 2 ^ 12 + rb * 2 ^ 7 + fn)

def ciWord (cop : Nat) (h : Hdr) (rd ra imm : Nat) : Nat := cWord cop h (rd * 2 ^ 17 + ra * 2 ^ 12 + imm)

def cbWord (cop : Nat) (h : Hdr) (ra cc off : Nat) : Nat := cWord cop h (ra * 2 ^ 17 + cc * 2 ^ 14 + off)

def cmWord (cop : Nat) (h : Hdr) (rd ra sz ord sc dsp : Nat) : Nat :=
  cWord cop h (rd * 2 ^ 17 + ra * 2 ^ 12 + sz * 2 ^ 10 + ord * 2 ^ 8 + sc * 2 ^ 5 + dsp)

def cvWord (cop : Nat) (h : Hdr) (vd ra rb msk fn : Nat) : Nat :=
  cWord cop h (vd * 2 ^ 17 + ra * 2 ^ 12 + rb * 2 ^ 7 + msk * 2 ^ 5 + fn)

def cxWord (cop : Nat) (h : Hdr) (t ra rb fn : Nat) : Nat := cWord cop h (t * 2 ^ 16 + ra * 2 ^ 11 + rb * 2 ^ 6 + fn)

def aWord (aop rd ra rb rc md : Nat) : Nat := aop * 2 ^ 26 + rd * 2 ^ 21 + ra * 2 ^ 16 + rb * 2 ^ 11 + rc * 2 ^ 6 + md

def bit (b : Bool) : Nat := if b then 1 else 0

def Opnd2.rb : Opnd2 → Nat
  | .reg r _ => r.code
  | .imm i => i.toNat / 32

def Opnd2.md : Opnd2 → Nat
  | .reg _ w => bit w
  | .imm i => 32 + i.toNat % 32

def UOpnd.rb : UOpnd → Nat
  | .std _ => 0
  | .imm i => i.toNat / 32

def UOpnd.md : UOpnd → Nat
  | .std w => bit w
  | .imm i => 32 + i.toNat % 32

def FRnd.md (r : FRnd) : Nat := bit r.n * 4 + r.rm.toNat

def VMod.md (m : VMod) : Nat := m.msk.toNat * 8 + m.ty.code

def VSrc.rb : VSrc → Nat
  | .v n => n.toNat
  | .sc r => r.code

def VSrc.s : VSrc → Nat
  | .v _ => 0
  | .sc _ => 32

/-- The instruction's own word: word 0 for a C-slot instruction, word 1 for an A-slot one; none for a step that no
word encodes.  The literal of a lone bundle is word 1 beside it (encodeBundle). -/
def encode : Instr → Option Nat
  | .cnop h  => some (crWord 0 h 0 0 0 0)
  | .li h rd imm => some (ciWord 1 h rd.code 0 imm.toNat)
  | .lih h rd ra imm => some (ciWord 2 h rd.code ra.code imm.toNat)
  | .addi h rd ra imm => some (ciWord 3 h rd.code ra.code imm.toNat)
  | .br h off => some (cbWord 4 h 0 0 off.toNat)
  | .bcEqz h ra off => some (cbWord 5 h ra.code 0 off.toNat)
  | .bcNez h ra off => some (cbWord 5 h ra.code 1 off.toNat)
  | .bcLtz h ra off => some (cbWord 5 h ra.code 2 off.toNat)
  | .bcGez h ra off => some (cbWord 5 h ra.code 3 off.toNat)
  | .bcGtz h ra off => some (cbWord 5 h ra.code 4 off.toNat)
  | .bcLez h ra off => some (cbWord 5 h ra.code 5 off.toNat)
  | .bcFull h ra off => some (cbWord 5 h ra.code 6 off.toNat)
  | .bcEmpty h ra off => some (cbWord 5 h ra.code 7 off.toNat)
  | .call h off => some (cbWord 6 h 0 0 off.toNat)
  | .callx h ra => some (crWord 7 h 0 ra.code 0 0)
  | .ret h  => some (crWord 8 h 0 0 0 0)
  | .brx h ra => some (crWord 9 h 0 ra.code 0 0)
  | .create h rd ra rb => some (crWord 10 h rd.code ra.code rb.code 0)
  | .createRev h rd ra rb => some (crWord 10 h rd.code ra.code rb.code 1)
  | .createDet h rd ra rb rev => some (crWord 10 h rd.code ra.code rb.code (2 + bit rev))
  | .sync h rd ra => some (crWord 11 h rd.code ra.code 0 0)
  | .breakFam h ra => some (crWord 12 h 0 ra.code 0 0)
  | .endThread h  => some (crWord 13 h 0 0 0 0)
  | .kill h ra => some (crWord 14 h 0 ra.code 0 0)
  | .fstatStatus h rd ra => some (crWord 15 h rd.code ra.code 0 0)
  | .fstatBval h rd ra => some (crWord 15 h rd.code ra.code 0 1)
  | .fstatBidx h rd ra => some (crWord 15 h rd.code ra.code 0 2)
  | .fstatReplay h rd ra => some (crWord 15 h rd.code ra.code 0 3)
  | .yieldSlice h ra => some (crWord 16 h 0 ra.code 0 0)
  | .travel h ra => some (crWord 17 h 0 ra.code 0 0)
  | .bar h sc id => some (crWord 18 h 0 0 0 (sc.code * 8 + id.toNat))
  | .barcfg h ra sc id => some (crWord 19 h 0 ra.code 0 (sc.code * 8 + id.toNat))
  | .ld h rd ra m => some (cmWord 20 h rd.code ra.code m.sz.toNat m.ord.toNat m.sc.code m.dsp.toNat)
  | .lds h rd ra m => some (cmWord 21 h rd.code ra.code m.sz.toNat m.ord.toNat m.sc.code m.dsp.toNat)
  | .st h rd ra m => some (cmWord 22 h rd.code ra.code m.sz.toNat m.ord.toNat m.sc.code m.dsp.toNat)
  | .ldf h rd ra m => some (cmWord 23 h rd.code ra.code 0 m.ord.toNat m.sc.code m.dsp.toNat)
  | .ldfe h rd ra m => some (cmWord 23 h rd.code ra.code 1 m.ord.toNat m.sc.code m.dsp.toNat)
  | .stef h rd ra m => some (cmWord 23 h rd.code ra.code 2 m.ord.toNat m.sc.code m.dsp.toNat)
  | .stf h rd ra m => some (cmWord 23 h rd.code ra.code 3 m.ord.toNat m.sc.code m.dsp.toNat)
  | .feclr h ra => some (crWord 24 h 0 ra.code 0 0)
  | .feget h rd ra => some (crWord 24 h rd.code ra.code 0 1)
  | .feset h ra => some (crWord 24 h 0 ra.code 0 2)
  | .amoAdd h rd ra rb w od => some (crWord 25 h rd.code ra.code rb.code (0 * 8 + bit w * 4 + od.toNat))
  | .amoAnd h rd ra rb w od => some (crWord 25 h rd.code ra.code rb.code (1 * 8 + bit w * 4 + od.toNat))
  | .amoOr h rd ra rb w od => some (crWord 25 h rd.code ra.code rb.code (2 * 8 + bit w * 4 + od.toNat))
  | .amoXor h rd ra rb w od => some (crWord 25 h rd.code ra.code rb.code (3 * 8 + bit w * 4 + od.toNat))
  | .amoSmin h rd ra rb w od => some (crWord 25 h rd.code ra.code rb.code (4 * 8 + bit w * 4 + od.toNat))
  | .amoSmax h rd ra rb w od => some (crWord 25 h rd.code ra.code rb.code (5 * 8 + bit w * 4 + od.toNat))
  | .amoNmin h rd ra rb w od => some (crWord 25 h rd.code ra.code rb.code (6 * 8 + bit w * 4 + od.toNat))
  | .amoNmax h rd ra rb w od => some (crWord 25 h rd.code ra.code rb.code (7 * 8 + bit w * 4 + od.toNat))
  | .amoSwap h rd ra rb w od => some (crWord 25 h rd.code ra.code rb.code (8 * 8 + bit w * 4 + od.toNat))
  | .amoFadd h rd ra rb w od => some (crWord 25 h rd.code ra.code rb.code (9 * 8 + bit w * 4 + od.toNat))
  | .cas h rd ra rb w od => some (crWord 26 h rd.code ra.code rb.code (bit w * 4 + od.toNat))
  | .fence h lb sc od => some (crWord 27 h 0 0 0 (bit lb * 32 + sc.code * 4 + od.toNat))
  | .cmoClean h ra rb l2 => some (crWord 28 h 0 ra.code rb.code (bit l2 * 4 + 0))
  | .cmoInval h ra rb l2 => some (crWord 28 h 0 ra.code rb.code (bit l2 * 4 + 1))
  | .cmoFlush h ra rb l2 => some (crWord 28 h 0 ra.code rb.code (bit l2 * 4 + 2))
  | .movb h rd ra rb => some (crWord 29 h rd.code ra.code rb.code 0)
  | .setb h rd ra rb => some (crWord 29 h rd.code ra.code rb.code 1)
  | .bcfg h ra rb => some (crWord 30 h 0 ra.code rb.code 0)
  | .trap h imm => some (crWord 31 h 0 0 0 imm.toNat)
  | .vld h vd ra msk => some (cvWord 32 h vd.toNat ra.code 0 msk.toNat 0)
  | .vldStr h vd ra rb msk => some (cvWord 32 h vd.toNat ra.code rb.code msk.toNat 1)
  | .vldt h vd ra msk => some (cvWord 32 h vd.toNat ra.code 0 msk.toNat 2)
  | .vst h vd ra msk => some (cvWord 33 h vd.toNat ra.code 0 msk.toNat 0)
  | .vstStr h vd ra rb msk => some (cvWord 33 h vd.toNat ra.code rb.code msk.toNat 1)
  | .vstt h vd ra msk => some (cvWord 33 h vd.toNat ra.code 0 msk.toNat 2)
  | .vgth h vd ra vi msk sz => some (cvWord 34 h vd.toNat ra.code vi.toNat msk.toNat sz.code)
  | .vsct h vd ra vi msk sz => some (cvWord 35 h vd.toNat ra.code vi.toNat msk.toNat sz.code)
  | .vldx h vd ra rb msk ty => some (cvWord 36 h vd.toNat ra.code rb.code msk.toNat ty.code)
  | .vldm h vd ra rb msk dest el => some (cvWord 37 h vd.toNat ra.code rb.code msk.toNat (dest.code * 8 + el.code))
  | .tdef h t ra rb  => some (cxWord 40 h t.toNat ra.code rb.code 0)
  | .tarm h t ra  => some (cxWord 41 h t.toNat ra.code 0 0)
  | .trel h t   => some (cxWord 42 h t.toNat 0 0 0)
  | .twait h t   => some (cxWord 43 h t.toNat 0 0 0)
  | .tstat h t rb  => some (cxWord 44 h t.toNat 0 rb.code 0)
  | .cpyG2t h t ra rb  => some (cxWord 45 h t.toNat ra.code rb.code 0)
  | .cpyT2g h t ra rb sc => some (cxWord 45 h t.toNat ra.code rb.code (sc.code * 8 + 1))
  | .cpyMc h t ra rb  => some (cxWord 45 h t.toNat ra.code rb.code 2)
  | .cpyGx h t ra rb  => some (cxWord 45 h t.toNat ra.code rb.code 3)
  | .cpyX h t ra rb  => some (cxWord 45 h t.toNat ra.code rb.code 4)
  | .cpyc h t ra  => some (cxWord 46 h t.toNat ra.code 0 0)
  | .mls h t   => some (cxWord 47 h t.toNat 0 0 0)
  | .mswp h   => some (cxWord 48 h 0 0 0 0)
  | .mma h t  sw c => some (cxWord 49 h t.toNat 0 0 (bit sw * 4 + c.toNat))
  | .mmasp h t  sw c => some (cxWord 50 h t.toNat 0 0 (bit sw * 4 + c.toNat))
  | .mmag h t ra sw c => some (cxWord 51 h t.toNat ra.code 0 (bit sw * 4 + c.toNat))
  | .mdrn h t ra sat code c => some (cxWord 52 h t.toNat ra.code (bit sat) (code.toNat * 4 + c.toNat))
  | .mzeroInt h  c => some (cxWord 53 h 0 0 0 c.toNat)
  | .mzeroFp h  c => some (cxWord 53 h 0 0 0 (4 + c.toNat))
  | .mstat h rb c => some (cxWord 54 h 0 0 rb.code c.toNat)
  | .mxsw h t   => some (cxWord 55 h t.toNat 0 0 0)
  | .rgnDef h rd ra => some (crWord 56 h rd.code ra.code 0 0)
  | .rgnRel h ra => some (crWord 56 h 0 ra.code 0 1)
  | .csrr h rd csr => some (ciWord 57 h rd.code 0 csr.toNat)
  | .csrw h rd ra csr => some (ciWord 58 h rd.code ra.code csr.toNat)
  | .csrs h rd ra csr => some (ciWord 59 h rd.code ra.code csr.toNat)
  | .eret h  => some (crWord 60 h 0 0 0 0)
  | .halt h  => some (crWord 60 h 0 0 0 1)
  | .ici h ra rb => some (crWord 60 h 0 ra.code rb.code 2)
  | .tlbw h ra rb => some (crWord 60 h 0 ra.code rb.code 3)
  | .tlbi h ra rb => some (crWord 60 h 0 ra.code rb.code 4)
  | .mbox h rd ra => some (crWord 60 h rd.code ra.code 0 5)
  | .mresResume h ra => some (crWord 60 h 0 ra.code 0 6)
  | .mresDiscard h ra => some (crWord 60 h 0 ra.code 0 6)
  | .mresMatrixReset h ra => some (crWord 60 h 0 ra.code 0 6)
  | .ext h => some (cWord 61 h 0)
  | .nop  => some (0)
  | .add rd ra o => some (aWord 1 rd.code ra.code o.rb 0 o.md)
  | .sub rd ra o => some (aWord 1 rd.code ra.code o.rb 1 o.md)
  | .and rd ra o => some (aWord 1 rd.code ra.code o.rb 2 o.md)
  | .or rd ra o => some (aWord 1 rd.code ra.code o.rb 3 o.md)
  | .xor rd ra o => some (aWord 1 rd.code ra.code o.rb 4 o.md)
  | .andn rd ra o => some (aWord 1 rd.code ra.code o.rb 5 o.md)
  | .shl rd ra o => some (aWord 1 rd.code ra.code o.rb 6 o.md)
  | .shr rd ra o => some (aWord 1 rd.code ra.code o.rb 7 o.md)
  | .sar rd ra o => some (aWord 1 rd.code ra.code o.rb 8 o.md)
  | .rol rd ra o => some (aWord 1 rd.code ra.code o.rb 9 o.md)
  | .min rd ra o => some (aWord 1 rd.code ra.code o.rb 10 o.md)
  | .max rd ra o => some (aWord 1 rd.code ra.code o.rb 11 o.md)
  | .minn rd ra o => some (aWord 1 rd.code ra.code o.rb 12 o.md)
  | .maxn rd ra o => some (aWord 1 rd.code ra.code o.rb 13 o.md)
  | .shadd1 rd ra o => some (aWord 1 rd.code ra.code o.rb 14 o.md)
  | .shadd2 rd ra o => some (aWord 1 rd.code ra.code o.rb 15 o.md)
  | .shadd3 rd ra o => some (aWord 1 rd.code ra.code o.rb 16 o.md)
  | .cmpEq rd ra o => some (aWord 2 rd.code ra.code o.rb 0 o.md)
  | .cmpNe rd ra o => some (aWord 2 rd.code ra.code o.rb 1 o.md)
  | .cmpLt rd ra o => some (aWord 2 rd.code ra.code o.rb 2 o.md)
  | .cmpLtn rd ra o => some (aWord 2 rd.code ra.code o.rb 3 o.md)
  | .cmpLe rd ra o => some (aWord 2 rd.code ra.code o.rb 4 o.md)
  | .cmpLen rd ra o => some (aWord 2 rd.code ra.code o.rb 5 o.md)
  | .cmpGt rd ra o => some (aWord 2 rd.code ra.code o.rb 6 o.md)
  | .cmpGtn rd ra o => some (aWord 2 rd.code ra.code o.rb 7 o.md)
  | .mul rd ra o => some (aWord 3 rd.code ra.code o.rb 0 o.md)
  | .mulhs rd ra o => some (aWord 3 rd.code ra.code o.rb 1 o.md)
  | .mulhn rd ra o => some (aWord 3 rd.code ra.code o.rb 2 o.md)
  | .mulhsn rd ra o => some (aWord 3 rd.code ra.code o.rb 3 o.md)
  | .divs rd ra o => some (aWord 4 rd.code ra.code o.rb 0 o.md)
  | .divn rd ra o => some (aWord 4 rd.code ra.code o.rb 1 o.md)
  | .rems rd ra o => some (aWord 4 rd.code ra.code o.rb 2 o.md)
  | .remn rd ra o => some (aWord 4 rd.code ra.code o.rb 3 o.md)
  | .mov rd o => some (aWord 1 rd.code 0 o.rb 17 o.md)
  | .clz rd ra u => some (aWord 5 rd.code ra.code u.rb 0 u.md)
  | .ctz rd ra u => some (aWord 5 rd.code ra.code u.rb 1 u.md)
  | .popc rd ra u => some (aWord 5 rd.code ra.code u.rb 2 u.md)
  | .not rd ra u => some (aWord 5 rd.code ra.code u.rb 3 u.md)
  | .neg rd ra u => some (aWord 5 rd.code ra.code u.rb 4 u.md)
  | .bswap rd ra u => some (aWord 5 rd.code ra.code u.rb 5 u.md)
  | .sexb rd ra u => some (aWord 5 rd.code ra.code u.rb 6 u.md)
  | .sexh rd ra u => some (aWord 5 rd.code ra.code u.rb 7 u.md)
  | .sexw rd ra u => some (aWord 5 rd.code ra.code u.rb 8 u.md)
  | .zexb rd ra u => some (aWord 5 rd.code ra.code u.rb 9 u.md)
  | .zexh rd ra u => some (aWord 5 rd.code ra.code u.rb 10 u.md)
  | .zexw rd ra u => some (aWord 5 rd.code ra.code u.rb 11 u.md)
  | .bfx rd ra sgn len1 pos => some (aWord 6 rd.code ra.code (len1.toNat % 32) (bit sgn * 2 + len1.toNat / 32) pos.toNat)
  | .bfi rd ra len1 pos => some (aWord 7 rd.code ra.code (len1.toNat % 32) (len1.toNat / 32) pos.toNat)
  | .sel rd ra rb rc => some (aWord 8 rd.code ra.code rb.code rc.code 0)
  | .fadd rd ra rb rm => some (aWord 9 rd.code ra.code rb.code 0 rm.md)
  | .fsub rd ra rb rm => some (aWord 9 rd.code ra.code rb.code 1 rm.md)
  | .fmul rd ra rb rm => some (aWord 9 rd.code ra.code rb.code 2 rm.md)
  | .fdiv rd ra rb rm => some (aWord 9 rd.code ra.code rb.code 3 rm.md)
  | .fmin rd ra rb rm => some (aWord 9 rd.code ra.code rb.code 4 rm.md)
  | .fmax rd ra rb rm => some (aWord 9 rd.code ra.code rb.code 5 rm.md)
  | .fsqrt rd ra rm => some (aWord 9 rd.code ra.code 0 6 rm.md)
  | .fabs rd ra rm => some (aWord 9 rd.code ra.code 0 7 rm.md)
  | .fneg rd ra rm => some (aWord 9 rd.code ra.code 0 8 rm.md)
  | .fcpsgn rd ra rb rm => some (aWord 9 rd.code ra.code rb.code 9 rm.md)
  | .ffma rd ra rb rc rm => some (aWord 10 rd.code ra.code rb.code rc.code rm.md)
  | .fnma rd ra rb rc rm => some (aWord 11 rd.code ra.code rb.code rc.code rm.md)
  | .fcmpEq rd ra rb => some (aWord 12 rd.code ra.code rb.code 0 0)
  | .fcmpLt rd ra rb => some (aWord 12 rd.code ra.code rb.code 1 0)
  | .fcmpLe rd ra rb => some (aWord 12 rd.code ra.code rb.code 2 0)
  | .fcmpUn rd ra rb => some (aWord 12 rd.code ra.code rb.code 3 0)
  | .i2f rd ra w rm => some (aWord 13 rd.code ra.code 0 0 (bit w * 8 + rm.md))
  | .n2f rd ra w rm => some (aWord 13 rd.code ra.code 0 1 (bit w * 8 + rm.md))
  | .f2i rd ra w rm => some (aWord 13 rd.code ra.code 0 2 (bit w * 8 + rm.md))
  | .f2n rd ra w rm => some (aWord 13 rd.code ra.code 0 3 (bit w * 8 + rm.md))
  | .f2bf rd ra rm => some (aWord 13 rd.code ra.code 0 4 rm.md)
  | .bf2f rd ra rm => some (aWord 13 rd.code ra.code 0 5 rm.md)
  | .f2h rd ra rm => some (aWord 13 rd.code ra.code 0 6 rm.md)
  | .h2f rd ra rm => some (aWord 13 rd.code ra.code 0 7 rm.md)
  | .fcls rd ra rm => some (aWord 13 rd.code ra.code 0 8 rm.md)
  | .vadd vd va b m => some (aWord 16 vd.toNat va.toNat b.rb 0 (b.s + m.md))
  | .vsub vd va b m => some (aWord 16 vd.toNat va.toNat b.rb 1 (b.s + m.md))
  | .vmul vd va b m => some (aWord 16 vd.toNat va.toNat b.rb 2 (b.s + m.md))
  | .vdiv vd va b m => some (aWord 16 vd.toNat va.toNat b.rb 3 (b.s + m.md))
  | .vmin vd va b m => some (aWord 16 vd.toNat va.toNat b.rb 4 (b.s + m.md))
  | .vmax vd va b m => some (aWord 16 vd.toNat va.toNat b.rb 5 (b.s + m.md))
  | .vand vd va b m => some (aWord 16 vd.toNat va.toNat b.rb 6 (b.s + m.md))
  | .vor vd va b m => some (aWord 16 vd.toNat va.toNat b.rb 7 (b.s + m.md))
  | .vxor vd va b m => some (aWord 16 vd.toNat va.toNat b.rb 8 (b.s + m.md))
  | .vshl vd va b m => some (aWord 16 vd.toNat va.toNat b.rb 9 (b.s + m.md))
  | .vshr vd va b m => some (aWord 16 vd.toNat va.toNat b.rb 10 (b.s + m.md))
  | .vsar vd va b m => some (aWord 16 vd.toNat va.toNat b.rb 11 (b.s + m.md))
  | .vadds vd va b m => some (aWord 16 vd.toNat va.toNat b.rb 12 (b.s + m.md))
  | .vsubs vd va b m => some (aWord 16 vd.toNat va.toNat b.rb 13 (b.s + m.md))
  | .vabsd vd va b m => some (aWord 16 vd.toNat va.toNat b.rb 14 (b.s + m.md))
  | .vfma vd va b vc m => some (aWord 17 vd.toNat va.toNat b.rb vc.toNat (b.s + m.md))
  | .vfnma vd va b vc m => some (aWord 18 vd.toNat va.toNat b.rb vc.toNat (b.s + m.md))
  | .vdot4 vd va b vc m => some (aWord 30 vd.toNat va.toNat b.rb vc.toNat (b.s + m.md))
  | .vabs vd va sb m => some (aWord 19 vd.toNat va.toNat 0 0 (bit sb * 32 + m.md))
  | .vneg vd va sb m => some (aWord 19 vd.toNat va.toNat 0 1 (bit sb * 32 + m.md))
  | .vsqrt vd va sb m => some (aWord 19 vd.toNat va.toNat 0 2 (bit sb * 32 + m.md))
  | .vrcp vd va sb m => some (aWord 19 vd.toNat va.toNat 0 3 (bit sb * 32 + m.md))
  | .vrsq vd va sb m => some (aWord 19 vd.toNat va.toNat 0 4 (bit sb * 32 + m.md))
  | .vex2 vd va sb m => some (aWord 19 vd.toNat va.toNat 0 5 (bit sb * 32 + m.md))
  | .vlg2 vd va sb m => some (aWord 19 vd.toNat va.toNat 0 6 (bit sb * 32 + m.md))
  | .vmov vd va sb m => some (aWord 19 vd.toNat va.toNat 0 7 (bit sb * 32 + m.md))
  | .vnot vd va sb m => some (aWord 19 vd.toNat va.toNat 0 8 (bit sb * 32 + m.md))
  | .vclz vd va sb m => some (aWord 19 vd.toNat va.toNat 0 9 (bit sb * 32 + m.md))
  | .vpopc vd va sb m => some (aWord 19 vd.toNat va.toNat 0 10 (bit sb * 32 + m.md))
  | .vrelu vd va sb m => some (aWord 19 vd.toNat va.toNat 0 11 (bit sb * 32 + m.md))
  | .vcmpEq md va b m => some (aWord 20 (16 + md.toNat) va.toNat b.rb 0 (b.s + m.md))
  | .vcmpNe md va b m => some (aWord 20 (16 + md.toNat) va.toNat b.rb 1 (b.s + m.md))
  | .vcmpLt md va b m => some (aWord 20 (16 + md.toNat) va.toNat b.rb 2 (b.s + m.md))
  | .vcmpLe md va b m => some (aWord 20 (16 + md.toNat) va.toNat b.rb 3 (b.s + m.md))
  | .vcmpGt md va b m => some (aWord 20 (16 + md.toNat) va.toNat b.rb 4 (b.s + m.md))
  | .vcmpGe md va b m => some (aWord 20 (16 + md.toNat) va.toNat b.rb 5 (b.s + m.md))
  | .vcmpUn md va b m => some (aWord 20 (16 + md.toNat) va.toNat b.rb 6 (b.s + m.md))
  | .vcmpOrd md va b m => some (aWord 20 (16 + md.toNat) va.toNat b.rb 7 (b.s + m.md))
  | .vsel vd va b mk m => some (aWord 21 vd.toNat va.toNat b.rb (16 + mk.toNat) (b.s + m.md))
  | .vcvt vd va tc sb m => some (aWord 22 vd.toNat va.toNat 0 tc.code (bit sb * 32 + m.md))
  | .vredSum rd va sb m => some (aWord 23 rd.code va.toNat 0 0 (bit sb * 32 + m.md))
  | .vredMin rd va sb m => some (aWord 23 rd.code va.toNat 0 1 (bit sb * 32 + m.md))
  | .vredMax rd va sb m => some (aWord 23 rd.code va.toNat 0 2 (bit sb * 32 + m.md))
  | .vredAnd rd va sb m => some (aWord 23 rd.code va.toNat 0 3 (bit sb * 32 + m.md))
  | .vredOr rd va sb m => some (aWord 23 rd.code va.toNat 0 4 (bit sb * 32 + m.md))
  | .vredXor rd va sb m => some (aWord 23 rd.code va.toNat 0 5 (bit sb * 32 + m.md))
  | .vscanSum vd va sb m => some (aWord 24 vd.toNat va.toNat 0 0 (bit sb * 32 + m.md))
  | .vscanMax vd va sb m => some (aWord 24 vd.toNat va.toNat 0 1 (bit sb * 32 + m.md))
  | .vperm vd va b m => some (aWord 25 vd.toNat va.toNat b.rb 0 (b.s + m.md))
  | .vbcst vd rs m => some (aWord 26 vd.toNat rs.code 0 0 m.md)
  | .viota vd m => some (aWord 27 vd.toNat 0 0 0 m.md)
  | .vext rd va rl ty => some (aWord 28 rd.code va.toNat rl.code 0 ty.code)
  | .vins vd rs rl ty => some (aWord 29 vd.toNat rs.code rl.code 0 ty.code)
  | .maluAnd md ma mb => some (aWord 31 (16 + md.toNat) (16 + ma.toNat) (16 + mb.toNat) 0 0)
  | .maluOr md ma mb => some (aWord 31 (16 + md.toNat) (16 + ma.toNat) (16 + mb.toNat) 1 0)
  | .maluXor md ma mb => some (aWord 31 (16 + md.toNat) (16 + ma.toNat) (16 + mb.toNat) 2 0)
  | .maluAndn md ma mb => some (aWord 31 (16 + md.toNat) (16 + ma.toNat) (16 + mb.toNat) 3 0)
  | .maluNot md ma => some (aWord 31 (16 + md.toNat) (16 + ma.toNat) 0 4 0)
  | .maluSet md => some (aWord 31 (16 + md.toNat) 0 0 5 0)
  | .maluClr md => some (aWord 31 (16 + md.toNat) 0 0 6 0)
  | .mpopCount rd ma => some (aWord 32 rd.code (16 + ma.toNat) 0 0 0)
  | .mpopFirst rd ma => some (aWord 32 rd.code (16 + ma.toNat) 0 1 0)
  | _ => none

/-- The header of a C-slot instruction; none for any other constructor. -/
def hdr? : Instr → Option Hdr
  | .cnop h => some h
  | .li h _ _ => some h
  | .lih h _ _ _ => some h
  | .addi h _ _ _ => some h
  | .br h _ => some h
  | .bcEqz h _ _ => some h
  | .bcNez h _ _ => some h
  | .bcLtz h _ _ => some h
  | .bcGez h _ _ => some h
  | .bcGtz h _ _ => some h
  | .bcLez h _ _ => some h
  | .bcFull h _ _ => some h
  | .bcEmpty h _ _ => some h
  | .call h _ => some h
  | .callx h _ => some h
  | .ret h => some h
  | .brx h _ => some h
  | .create h _ _ _ => some h
  | .createRev h _ _ _ => some h
  | .createDet h _ _ _ _ => some h
  | .sync h _ _ => some h
  | .breakFam h _ => some h
  | .endThread h => some h
  | .kill h _ => some h
  | .fstatStatus h _ _ => some h
  | .fstatBval h _ _ => some h
  | .fstatBidx h _ _ => some h
  | .fstatReplay h _ _ => some h
  | .yieldSlice h _ => some h
  | .travel h _ => some h
  | .bar h _ _ => some h
  | .barcfg h _ _ _ => some h
  | .ld h _ _ _ => some h
  | .lds h _ _ _ => some h
  | .st h _ _ _ => some h
  | .ldf h _ _ _ => some h
  | .ldfe h _ _ _ => some h
  | .stef h _ _ _ => some h
  | .stf h _ _ _ => some h
  | .feclr h _ => some h
  | .feget h _ _ => some h
  | .feset h _ => some h
  | .amoAdd h _ _ _ _ _ => some h
  | .amoAnd h _ _ _ _ _ => some h
  | .amoOr h _ _ _ _ _ => some h
  | .amoXor h _ _ _ _ _ => some h
  | .amoSmin h _ _ _ _ _ => some h
  | .amoSmax h _ _ _ _ _ => some h
  | .amoNmin h _ _ _ _ _ => some h
  | .amoNmax h _ _ _ _ _ => some h
  | .amoSwap h _ _ _ _ _ => some h
  | .amoFadd h _ _ _ _ _ => some h
  | .cas h _ _ _ _ _ => some h
  | .fence h _ _ _ => some h
  | .cmoClean h _ _ _ => some h
  | .cmoInval h _ _ _ => some h
  | .cmoFlush h _ _ _ => some h
  | .movb h _ _ _ => some h
  | .setb h _ _ _ => some h
  | .bcfg h _ _ => some h
  | .trap h _ => some h
  | .vld h _ _ _ => some h
  | .vldStr h _ _ _ _ => some h
  | .vldt h _ _ _ => some h
  | .vst h _ _ _ => some h
  | .vstStr h _ _ _ _ => some h
  | .vstt h _ _ _ => some h
  | .vgth h _ _ _ _ _ => some h
  | .vsct h _ _ _ _ _ => some h
  | .vldx h _ _ _ _ _ => some h
  | .vldm h _ _ _ _ _ _ => some h
  | .tdef h _ _ _ => some h
  | .tarm h _ _ => some h
  | .trel h _ => some h
  | .twait h _ => some h
  | .tstat h _ _ => some h
  | .cpyG2t h _ _ _ => some h
  | .cpyT2g h _ _ _ _ => some h
  | .cpyMc h _ _ _ => some h
  | .cpyGx h _ _ _ => some h
  | .cpyX h _ _ _ => some h
  | .cpyc h _ _ => some h
  | .mls h _ => some h
  | .mswp h => some h
  | .mma h _ _ _ => some h
  | .mmasp h _ _ _ => some h
  | .mmag h _ _ _ _ => some h
  | .mdrn h _ _ _ _ _ => some h
  | .mzeroInt h _ => some h
  | .mzeroFp h _ => some h
  | .mstat h _ _ => some h
  | .mxsw h _ => some h
  | .rgnDef h _ _ => some h
  | .rgnRel h _ => some h
  | .csrr h _ _ => some h
  | .csrw h _ _ _ => some h
  | .csrs h _ _ _ => some h
  | .eret h => some h
  | .halt h => some h
  | .ici h _ _ => some h
  | .tlbw h _ _ => some h
  | .tlbi h _ _ => some h
  | .mbox h _ _ => some h
  | .mresResume h _ => some h
  | .mresDiscard h _ => some h
  | .mresMatrixReset h _ => some h
  | .ext h => some h
  | _ => none

/-- The two words of a bundle of well-formed instructions: a lone C-slot instruction has its literal in word 1 (R43). -/
def encodeBundle (c a : Instr) : Option (Nat × Nat) :=
  match encode c, encode a, hdr? c with
  | some w0, some w1, some h =>
    match h.lit with
    | some k => some (w0, k.toNat)
    | none => some (w0, w1)
  | _, _, _ => none

end Sys2Proof
end

