-- ==== Sys2Proof/Config.lean ====
section
/-! DEFINITION. What the manual fixes for the part, and the values it leaves open: an opaque constant has no body, so a
statement that holds of the model holds whatever its value is. -/

namespace Sys2Proof.Config

/-- Cores of the device (R2). -/
def cores : Nat := 1280

/-- Bytes of device memory (R2, R297). -/
def memBytes : Nat := 0x00B2D05E0000

/-- Bytes of device memory homed on one die (R297). -/
def dieBytes : Nat := 0x002CB4178000

/-- First physical address of the scratchpad banks (R297). -/
def scratchBase : Nat := 0x800000000000

/-- First virtual address of the mesh window (R301). -/
def meshBase : Nat := 0x00FF000000000000

/-- The latency taken for a REMOTE page, 'about 2,400' cycles (R310; DESIGN CHOICE, log entry 5). -/
def remoteLatency : Nat := 2400

/-- Contents of a scalar register at a member's start, which R37 leaves unspecified (DESIGN CHOICE, log entry 3). -/
opaque freeReg : Nat → W64

/-- Contents of a vector register at a member's start, which R37 leaves unspecified (DESIGN CHOICE, log entry 3). -/
opaque freeVec : Nat → VWord

/-- The code of the NaN that NaN operands of different codes, given in the order of their K, give an FP-mode cell in a cycle, which
R66 and R84 leave open; the same operands give the same code (R85; DESIGN CHOICE, log entry 17). -/
opaque arrayNan : List Nat → BitVec 32

/-- The entry that a TLBW replaces in a full TLB, which R253 leaves to the hardware (DESIGN CHOICE, log entry 7). -/
opaque tlbVictim : Nat → Nat

/-- The set of the 8-way L2 TLB that an entry of a page number and size code falls in, which R312 leaves open (DESIGN CHOICE, log entry 7). -/
opaque tlbSet : Nat → Nat → Nat

/-- Whether the home slice has the directory entry of a block number cached at a cycle, which R308 leaves open (DESIGN CHOICE, log
entry 40). -/
opaque dirCached : Nat → Nat → Bool

/-- The port that the hash of R358 selects for a physical address (DESIGN CHOICE, log entry 7). -/
opaque linkHash : Nat → Nat

/-- Whether both signatures of a firmware image verify (R370; DESIGN CHOICE, log entry 8). -/
opaque imageValid : Nat → Bool

/-- The failure code that the mailbox holds after an image has failed, which R370 does not number (DESIGN CHOICE, log entry 8). -/
opaque failureCode : Nat → Nat

/-- The fused minimum security version (R370; DESIGN CHOICE, log entry 8). -/
opaque fusedMinSvn : Nat

/-- What a word of the control window reads whose content the manual does not give: of the identity, the mailbox and the MSI-X table as
yet unwritten, and of a register that is only written (R364, R365; DESIGN CHOICE, log entry 29). -/
opaque hostWord : Nat → W64

/-- The SHA-384 measurements of R373, by what is measured (DESIGN CHOICE, log entry 8). -/
opaque measure : Nat → BitVec 384

/-- The identity public keys of R373 (DESIGN CHOICE, log entry 8). -/
opaque identityKeys : BitVec 256 × BitVec 256

/-- The Ed25519 and ML-DSA-65 signatures of a report's text (R373; DESIGN CHOICE, log entry 8). -/
opaque signReport : Nat → Nat × Nat

end Sys2Proof.Config
end

