-- ==== Sys2Proof/Machine/Num.lean ====
section
/-! DEFINITION. Number formats, rounding and flags (R63 to R74): exact dyadic values, one rounding function for every
floating format, integer destinations and ds8.  A code is a natural number of the format's width. -/

namespace Sys2Proof.Machine

/-- Flags as bits [7:0] of fst hold them (R20): NV 0, DZ 1, OF 2, UF 3, NX 4, IDZ 5, W 6, SAT 7. -/
abbrev Flags := BitVec 8

def fNone : Flags := 0x00#8
def fNV : Flags := 0x01#8
def fDZ : Flags := 0x02#8
def fOF : Flags := 0x04#8
def fUF : Flags := 0x08#8
def fNX : Flags := 0x10#8
def fIDZ : Flags := 0x20#8
def fW : Flags := 0x40#8
def fSAT : Flags := 0x80#8

/-- The rounding modes of R68, in the code of fmode and RM. -/
inductive RMode where
  | rne
  | rtz
  | rdn
  | rup
  deriving DecidableEq, Repr

def RMode.ofBits (b : BitVec 2) : RMode :=
  if b = 0#2 then .rne else if b = 1#2 then .rtz else if b = 2#2 then .rdn else .rup

/-- The floating formats of R64. -/
inductive FF where
  | f32
  | bf16
  | f16
  | e4m3
  | e5m2
  | e2m3
  | e3m2
  | e2m1
  deriving DecidableEq, Repr

/-- Mantissa bits (R64). -/
def FF.mb : FF → Nat
  | .f32 => 23
  | .bf16 => 7
  | .f16 => 10
  | .e4m3 => 3
  | .e5m2 => 2
  | .e2m3 => 3
  | .e3m2 => 2
  | .e2m1 => 1

/-- Exponent bits (R64). -/
def FF.eb : FF → Nat
  | .f32 => 8
  | .bf16 => 8
  | .f16 => 5
  | .e4m3 => 4
  | .e5m2 => 5
  | .e2m3 => 2
  | .e3m2 => 3
  | .e2m1 => 2

def FF.bias : FF → Nat
  | .f32 => 127
  | .bf16 => 127
  | .f16 => 15
  | .e4m3 => 7
  | .e5m2 => 15
  | .e2m3 => 1
  | .e3m2 => 3
  | .e2m1 => 1

/-- Width of a code. -/
def FF.width (f : FF) : Nat := 1 + f.eb + f.mb

/-- Whether the all-ones exponent holds infinities and NaNs (R65). -/
def FF.hasInf : FF → Bool
  | .f32 | .bf16 | .f16 | .e5m2 => true
  | _ => false

def FF.hasNan : FF → Bool
  | .e2m3 | .e3m2 | .e2m1 => false
  | _ => true

/-- The magnitude code of the largest finite value (R64). -/
def FF.maxCode (f : FF) : Nat :=
  if f.hasInf then (2 ^ f.eb - 1) * 2 ^ f.mb - 1
  else if f = .e4m3 then 0x7E else 2 ^ (f.eb + f.mb) - 1

/-- A dyadic magnitude m · 2^e, with a mark that the exact value lies strictly between it and (m + 1) · 2^e. -/
structure Dy where
  neg : Bool
  m : Nat
  e : Int
  st : Bool
  deriving DecidableEq, Repr

/-- The value a code stands for (R64, R65). -/
inductive FV where
  | nan
  | inf (neg : Bool)
  | fin (neg : Bool) (m : Nat) (e : Int)
  deriving DecidableEq, Repr

/-- Number of significant bits. -/
def bitLen (n : Nat) : Nat := if n = 0 then 0 else n.log2 + 1

/-- The value of a code (R64, R65). -/
def FF.val (f : FF) (c : Nat) : FV :=
  let neg := c / 2 ^ (f.eb + f.mb) % 2 == 1
  let E := c / 2 ^ f.mb % 2 ^ f.eb
  let M := c % 2 ^ f.mb
  if f.hasInf && E == 2 ^ f.eb - 1 then (if M = 0 then .inf neg else .nan)
  else if f == .e4m3 && E == 15 && M == 7 then .nan
  else if E = 0 then .fin neg M (1 - (f.bias : Int) - f.mb)
  else .fin neg (M + 2 ^ f.mb) ((E : Int) - f.bias - f.mb)

/-- The result of rounding a magnitude to an integer multiple of 2^q: the multiple and whether it is inexact. -/
def roundQ (mode : RMode) (d : Dy) (q : Int) : Nat × Bool :=
  if q ≤ d.e then
    let n := d.m * 2 ^ (d.e - q).toNat
    let up := d.st && ((mode == .rdn && d.neg) || (mode == .rup && !d.neg))
    (if up then n + 1 else n, d.st)
  else
    let sh := (q - d.e).toNat
    let n := d.m / 2 ^ sh
    let r := d.m % 2 ^ sh
    let half := 2 ^ (sh - 1)
    let inexact := r != 0 || d.st
    let up := match mode with
      | .rne => decide (half < r) || (r == half && (d.st || n % 2 == 1))
      | .rtz => false
      | .rdn => d.neg && inexact
      | .rup => !d.neg && inexact
    (if up then n + 1 else n, inexact)

/-- The sign bit of a format, placed. -/
def FF.sign (f : FF) (neg : Bool) : Nat := if neg then 2 ^ (f.eb + f.mb) else 0

def FF.infCode (f : FF) (neg : Bool) : Nat := f.sign neg + (2 ^ f.eb - 1) * 2 ^ f.mb

/-- The default NaN of R66; e4m3 has one NaN magnitude. -/
def FF.defNan (f : FF) : Nat :=
  if f = .e4m3 then 0x7F else (2 ^ f.eb - 1) * 2 ^ f.mb + 2 ^ (f.mb - 1)

/-- The code of n · 2^q, which the caller has rounded to a quantum of the format (n below 2^(mb+1) + 1). -/
def FF.codeOf (f : FF) (neg : Bool) (n : Nat) (q : Int) : Nat :=
  if n < 2 ^ f.mb then f.sign neg + n
  else
    let (n, q) := if n = 2 ^ (f.mb + 1) then (n / 2, q + 1) else (n, q)
    f.sign neg + (q + f.mb + f.bias).toNat * 2 ^ f.mb + (n - 2 ^ f.mb)

/-- round(v, fmt, mode) of R69 for a finite exact value: the code and the flags. -/
def FF.round (f : FF) (mode : RMode) (d : Dy) : Nat × Flags :=
  if d.m = 0 && !d.st then (f.sign d.neg, fNone)
  else
    let emin : Int := 1 - (f.bias : Int)
    let q : Int := max (d.e + bitLen d.m - (f.mb + 1)) (emin - f.mb)
    let (n, inexact) := roundQ mode d q
    let tiny := decide (d.e + bitLen d.m ≤ emin)
    let code := f.codeOf false n q
    if f.maxCode < code then
      if f.hasInf then
        let toInf := match mode with
          | .rne => true
          | .rtz => false
          | .rdn => d.neg
          | .rup => !d.neg
        (if toInf then f.infCode d.neg else f.sign d.neg + f.maxCode, fOF ||| fNX)
      else (f.sign d.neg + f.maxCode, fSAT ||| fNX)
    else
      (f.sign d.neg + code, (if inexact then fNX else fNone) ||| (if inexact && tiny then fUF else fNone))

/-- The quiet bit of a NaN code; e4m3 has none to set. -/
def FF.quiet (f : FF) (c : Nat) : Nat :=
  if f = .e4m3 then c else if c / 2 ^ (f.mb - 1) % 2 = 1 then c else c + 2 ^ (f.mb - 1)

def FF.isNan (f : FF) (c : Nat) : Bool := f.val c == .nan

/-- Signalling: a NaN whose top mantissa bit is clear (R65).  e4m3's one NaN counts as quiet. -/
def FF.isSnan (f : FF) (c : Nat) : Bool := f.isNan c && f != .e4m3 && c / 2 ^ (f.mb - 1) % 2 == 0

/-- Widening a NaN to f32 by the payload rule of R69. -/
def FF.nanToF32 (f : FF) (c : Nat) : Nat :=
  let s := if c / 2 ^ (f.eb + f.mb) % 2 = 1 then 2 ^ 31 else 0
  if f = .e4m3 then s + 0x7FC00000 else s + 0x7F800000 + (c % 2 ^ f.mb) * 2 ^ (23 - f.mb)

/-- Narrowing an f32 NaN by the payload rule of R69. -/
def FF.nanOfF32 (f : FF) (c : Nat) : Nat :=
  let neg := c / 2 ^ 31 % 2 == 1
  if f = .e4m3 then f.sign neg + 0x7F
  else
    let p := c % 2 ^ 23 / 2 ^ (23 - f.mb)
    f.infCode neg + (if p = 0 then 2 ^ (f.mb - 1) else p)

/-- Conversion of a code between floating formats, NaN and infinity by R69. -/
def convF (src dst : FF) (mode : RMode) (c : Nat) : Nat × Flags :=
  match src.val c with
  | .nan =>
    if dst.hasNan then (dst.nanOfF32 (src.nanToF32 c), fNone) else (0, fNV)
  | .inf neg =>
    if dst.hasInf then (dst.infCode neg, fNone) else (dst.sign neg + dst.maxCode, fSAT)
  | .fin neg m e => dst.round mode { neg := neg, m := m, e := e, st := false }

/-- Rounding a finite value to an integer in [lo, hi], saturating (R69). -/
def roundInt (mode : RMode) (lo hi : Int) (d : Dy) : Int × Flags :=
  let (n, inexact) := roundQ mode d 0
  let v : Int := if d.neg then -(n : Int) else n
  let nx := if inexact then fNX else fNone
  if v < lo then (lo, fSAT ||| nx) else if hi < v then (hi, fSAT ||| nx) else (v, nx)

/-- A floating code to an integer in [lo, hi]: NaN gives 0 with NV, infinity saturates with SAT alone (R69, R165). -/
def convInt (src : FF) (mode : RMode) (lo hi : Int) (c : Nat) : Int × Flags :=
  match src.val c with
  | .nan => (0, fNV)
  | .inf neg => (if neg then lo else hi, fSAT)
  | .fin neg m e =>
    -- a magnitude of 2^70 and above is outside every integer range: the exponent is cut there
    if 70 < e then (if m = 0 then (0, fNone) else (if neg then lo else hi, fSAT))
    else roundInt mode lo hi { neg := neg, m := m, e := e, st := false }

/-- An integer as an exact value. -/
def Dy.ofInt (v : Int) : Dy := { neg := decide (v < 0), m := v.natAbs, e := 0, st := false }

/-! Arithmetic on one floating type (R66, R67, R161 to R163). -/

/-- The result for an operation with NaN operands: the first NaN, quietened; NV when one signals (R66). -/
def nanOf (f : FF) (ops : List Nat) : Option (Nat × Flags) :=
  match ops.find? f.isNan with
  | some c => some (f.quiet c, if ops.any f.isSnan then fNV else fNone)
  | none => none

/-- The sum of two signed dyadic values, exact, as a signed mantissa and an exponent. -/
def addDy (a b : Int × Int) : Int × Int :=
  let e := min a.2 b.2
  (a.1 * 2 ^ (a.2 - e).toNat + b.1 * 2 ^ (b.2 - e).toNat, e)

def signed (neg : Bool) (m : Nat) : Int := if neg then -(m : Int) else m

/-- Rounds an exact signed sum; an exact zero takes the sign zs. -/
def roundSum (f : FF) (mode : RMode) (v : Int × Int) (zs : Bool) : Nat × Flags :=
  if v.1 = 0 then (f.sign zs, fNone)
  else f.round mode { neg := decide (v.1 < 0), m := v.1.natAbs, e := v.2, st := false }

/-- The sign of an exact zero sum of two values (R161): the common sign, else − under RDN only. -/
def zeroSign (mode : RMode) (an bn : Bool) : Bool := if an = bn then an else mode == .rdn

/-- a + b rounded (R161). -/
def fAdd (f : FF) (mode : RMode) (a b : Nat) : Nat × Flags :=
  match nanOf f [a, b] with
  | some r => r
  | none =>
    match f.val a, f.val b with
    | .inf an, .inf bn => if an = bn then (f.infCode an, fNone) else (f.defNan, fNV)
    | .inf an, _ => (f.infCode an, fNone)
    | _, .inf bn => (f.infCode bn, fNone)
    | .fin an am ae, .fin bn bm be =>
      roundSum f mode (addDy (signed an am, ae) (signed bn bm, be)) (zeroSign mode an bn)
    | _, _ => (f.defNan, fNV)

/-- A code with its sign bit inverted. -/
def FF.negate (f : FF) (c : Nat) : Nat :=
  if c / 2 ^ (f.eb + f.mb) % 2 = 1 then c - 2 ^ (f.eb + f.mb) else c + 2 ^ (f.eb + f.mb)

def FF.absCode (f : FF) (c : Nat) : Nat := c % 2 ^ (f.eb + f.mb)

/-- a − b rounded; a NaN operand passes unchanged in sign (R66, R161). -/
def fSub (f : FF) (mode : RMode) (a b : Nat) : Nat × Flags :=
  match nanOf f [a, b] with
  | some r => r
  | none => fAdd f mode a (f.negate b)

/-- a × b rounded (R161). -/
def fMul (f : FF) (mode : RMode) (a b : Nat) : Nat × Flags :=
  match nanOf f [a, b] with
  | some r => r
  | none =>
    match f.val a, f.val b with
    | .inf an, .inf bn => (f.infCode (an != bn), fNone)
    | .inf an, .fin bn bm _ => if bm = 0 then (f.defNan, fNV) else (f.infCode (an != bn), fNone)
    | .fin an am _, .inf bn => if am = 0 then (f.defNan, fNV) else (f.infCode (an != bn), fNone)
    | .fin an am ae, .fin bn bm be => f.round mode { neg := an != bn, m := am * bm, e := ae + be, st := false }
    | _, _ => (f.defNan, fNV)

/-- An exact quotient of two magnitudes to 80 bits and a sticky mark. -/
def divDy (neg : Bool) (am : Nat) (ae : Int) (bm : Nat) (be : Int) : Dy :=
  let n := am * 2 ^ 80
  { neg := neg, m := n / bm, e := ae - be - 80, st := n % bm != 0 }

/-- a / b rounded (R161). -/
def fDiv (f : FF) (mode : RMode) (a b : Nat) : Nat × Flags :=
  match nanOf f [a, b] with
  | some r => r
  | none =>
    match f.val a, f.val b with
    | .inf _, .inf _ => (f.defNan, fNV)
    | .inf an, .fin bn _ _ => (f.infCode (an != bn), fNone)
    | .fin an _ _, .inf bn => (f.sign (an != bn), fNone)
    | .fin an am ae, .fin bn bm be =>
      if bm = 0 then (if am = 0 then (f.defNan, fNV) else (f.infCode (an != bn), fDZ))
      else f.round mode (divDy (an != bn) am ae bm be)
    | _, _ => (f.defNan, fNV)

/-- Integer square root by binary digits, n digits from the top. -/
def isqrtGo (x : Nat) : Nat → Nat → Nat
  | 0, r => r
  | n + 1, r => if (r + 2 ^ n) * (r + 2 ^ n) ≤ x then isqrtGo x n (r + 2 ^ n) else isqrtGo x n r

def isqrt (x : Nat) : Nat := isqrtGo x (bitLen x / 2 + 1) 0

/-- The square root of m · 2^e, with 40 extra digits and a sticky mark. -/
def sqrtDy (m : Nat) (e : Int) : Dy :=
  let (m, e) := if e % 2 = 0 then (m, e) else (2 * m, e - 1)
  let x := m * 2 ^ 80
  let r := isqrt x
  { neg := false, m := r, e := (e - 80) / 2, st := r * r != x }

/-- √a rounded (R161). -/
def fSqrt (f : FF) (mode : RMode) (a : Nat) : Nat × Flags :=
  match nanOf f [a] with
  | some r => r
  | none =>
    match f.val a with
    | .fin neg m e =>
      if m = 0 then (f.sign neg, fNone)
      else if neg then (f.defNan, fNV) else f.round mode (sqrtDy m e)
    | .inf neg => if neg then (f.defNan, fNV) else (f.infCode false, fNone)
    | .nan => (f.defNan, fNV)

/-- The order of two non-NaN codes, −0 below +0: a key that compares as the values do (R162). -/
def FF.key (f : FF) (c : Nat) : Int :=
  if c / 2 ^ (f.eb + f.mb) % 2 = 1 then -(f.absCode c : Int) - 1 else f.absCode c

/-- minimumNumber and maximumNumber of R162. -/
def fMinMax (f : FF) (isMax : Bool) (a b : Nat) : Nat × Flags :=
  let fl := if f.isSnan a || f.isSnan b then fNV else fNone
  if f.isNan a && f.isNan b then (f.quiet a, fl)
  else if f.isNan a then (b, fl)
  else if f.isNan b then (a, fl)
  else if isMax then (if f.key a < f.key b then b else a, fl)
  else (if f.key b < f.key a then b else a, fl)

/-- a × b + c (or −(a × b) + c) rounded once (R163). -/
def fMa (f : FF) (mode : RMode) (negProd : Bool) (a b c : Nat) : Nat × Flags :=
  let prodInvalid := match f.val a, f.val b with
    | .inf _, .fin _ bm _ => bm == 0
    | .fin _ am _, .inf _ => am == 0
    | _, _ => false
  match nanOf f [a, b, c] with
  | some (r, fl) => (r, if prodInvalid then fl ||| fNV else fl)
  | none =>
    if prodInvalid then (f.defNan, fNV)
    else
      let sgn : Bool → Bool → Bool := fun x y => (x != y) != negProd
      match f.val a, f.val b, f.val c with
      | .inf an, .inf bn, .inf cn => if sgn an bn = cn then (f.infCode cn, fNone) else (f.defNan, fNV)
      | .inf an, .fin bn _ _, .inf cn => if sgn an bn = cn then (f.infCode cn, fNone) else (f.defNan, fNV)
      | .fin an _ _, .inf bn, .inf cn => if sgn an bn = cn then (f.infCode cn, fNone) else (f.defNan, fNV)
      | .inf an, .inf bn, _ => (f.infCode (sgn an bn), fNone)
      | .inf an, .fin bn _ _, _ => (f.infCode (sgn an bn), fNone)
      | .fin an _ _, .inf bn, _ => (f.infCode (sgn an bn), fNone)
      | _, _, .inf cn => (f.infCode cn, fNone)
      | .fin an am ae, .fin bn bm be, .fin cn cm ce =>
        let pn := sgn an bn
        roundSum f mode (addDy (signed pn (am * bm), ae + be) (signed cn cm, ce)) (zeroSign mode pn cn)
      | _, _, _ => (f.defNan, fNV)

/-- The relations of FCMP and VCMP (R164, R196). -/
inductive Rel where
  | eq
  | ne
  | lt
  | le
  | gt
  | ge
  | un
  | ord
  deriving DecidableEq, Repr

/-- An order key in which −0 and +0 are equal. -/
def FF.cmpKey (f : FF) (c : Nat) : Int :=
  if c / 2 ^ (f.eb + f.mb) % 2 = 1 then -(f.absCode c : Int) else f.absCode c

/-- Floating comparison: the truth value, and NV as R164 and R196 set it. -/
def fCmp (f : FF) (r : Rel) (a b : Nat) : Bool × Flags :=
  let un := f.isNan a || f.isNan b
  let sn := f.isSnan a || f.isSnan b
  let x := f.cmpKey a
  let y := f.cmpKey b
  let quietRel := if sn then fNV else fNone
  let loudRel := if un then fNV else fNone
  match r with
  | .eq => (!un && x == y, quietRel)
  | .ne => (un || x != y, quietRel)
  | .un => (un, quietRel)
  | .ord => (!un, quietRel)
  | .lt => (!un && decide (x < y), loudRel)
  | .le => (!un && decide (x ≤ y), loudRel)
  | .gt => (!un && decide (y < x), loudRel)
  | .ge => (!un && decide (y ≤ x), loudRel)

/-- The class mask of FCLS (R166). -/
def fClass (f : FF) (c : Nat) : Nat :=
  match f.val c with
  | .nan => if f.isSnan c then 0x100 else 0x200
  | .inf neg => if neg then 0x01 else 0x80
  | .fin neg m _ =>
    if m = 0 then (if neg then 0x08 else 0x10)
    else if m < 2 ^ f.mb then (if neg then 0x04 else 0x20)
    else (if neg then 0x02 else 0x40)

/-! The functions of VUN that round an exact mathematical result (R194, R195). -/

def fRcp (f : FF) (mode : RMode) (a : Nat) : Nat × Flags :=
  match nanOf f [a] with
  | some r => r
  | none =>
    match f.val a with
    | .fin neg m e => if m = 0 then (f.infCode neg, fDZ) else f.round mode (divDy neg 1 0 m e)
    | .inf neg => (f.sign neg, fNone)
    | .nan => (f.defNan, fNV)

/-- 1/√(m · 2^e) to 80 digits: floor(√(2^160 / m)) with a sticky mark. -/
def rsqDy (m : Nat) (e : Int) : Dy :=
  let (m, e) := if e % 2 = 0 then (m, e) else (2 * m, e - 1)
  let x := 2 ^ 200 / m
  let r := isqrt x
  { neg := false, m := r, e := -(e / 2) - 100, st := r * r * m != 2 ^ 200 }

def fRsq (f : FF) (mode : RMode) (a : Nat) : Nat × Flags :=
  match nanOf f [a] with
  | some r => r
  | none =>
    match f.val a with
    | .fin neg m e =>
      if m = 0 then (f.infCode neg, fDZ)
      else if neg then (f.defNan, fNV) else f.round mode (rsqDy m e)
    | .inf neg => if neg then (f.defNan, fNV) else (0, fNone)
    | .nan => (f.defNan, fNV)

/-- The product of 2^(2^−i) over the binary digits of a fraction, from the top, in 256-bit fixed point; c is the current
root of two. -/
def exp2Go (frac : Nat) : Nat → Nat → Nat → Nat
  | 0, _, acc => acc
  | n + 1, c, acc =>
    let c := isqrt (c * 2 ^ 256)
    exp2Go frac n c (if frac / 2 ^ n % 2 = 1 then acc * c / 2 ^ 256 else acc)

/-- 2^a for a finite non-integer a = ±m · 2^e; the result is irrational, so the sticky mark is set (DEDUCED, log entry 13). -/
def exp2Dy (neg : Bool) (m : Nat) (e : Int) : Dy :=
  if e + bitLen m ≤ -60 then
    if neg then { neg := false, m := 2 ^ 60 - 1, e := -60, st := true } else { neg := false, m := 2 ^ 60, e := -60, st := true }
  else
    let k := (-e).toNat
    let v := signed neg m
    let n := v / (2 ^ k : Nat)
    let frac := (v % (2 ^ k : Nat)).toNat
    { neg := false, m := exp2Go frac k (2 ^ 257) (2 ^ 256) / 2 ^ 64, e := n - 192, st := true }

def fEx2 (f : FF) (mode : RMode) (a : Nat) : Nat × Flags :=
  match nanOf f [a] with
  | some r => r
  | none =>
    match f.val a with
    | .inf neg => if neg then (0, fNone) else (f.infCode false, fNone)
    | .nan => (f.defNan, fNV)
    | .fin neg m e =>
      if m = 0 then f.round mode { neg := false, m := 1, e := 0, st := false }
      else if 12 ≤ e + bitLen m then
        -- |a| is at least 2^11: beyond every format's range on either side
        f.round mode { neg := false, m := 1, e := if neg then -2000 else 2000, st := true }
      else if 0 ≤ e then f.round mode { neg := false, m := 1, e := signed neg (m * 2 ^ e.toNat), st := false }
      else if m % 2 ^ (-e).toNat = 0 then
        f.round mode { neg := false, m := 1, e := signed neg (m / 2 ^ (-e).toNat), st := false }
      else f.round mode (exp2Dy neg m e)

/-- Binary digits of log2 x by repeated squaring; x is in [1, 2) in 256-bit fixed point. -/
def log2Go : Nat → Nat → Nat → Nat
  | 0, _, acc => acc
  | n + 1, x, acc =>
    let y := x * x / 2 ^ 256
    if 2 ^ 257 ≤ y then log2Go n (y / 2) (2 * acc + 1) else log2Go n y (2 * acc)

/-- log2 of m · 2^e, m not a power of two; irrational, so the sticky mark is set (DEDUCED, log entry 13). -/
def log2Dy (m : Nat) (e : Int) : Dy :=
  let k : Int := e + bitLen m - 1
  let frac := log2Go 128 (m * 2 ^ (257 - bitLen m)) 0
  let v : Int := k * 2 ^ 128 + frac
  if 0 ≤ v then { neg := false, m := v.toNat, e := -128, st := true }
  else { neg := true, m := (-v).toNat - 1, e := -128, st := true }

def fLg2 (f : FF) (mode : RMode) (a : Nat) : Nat × Flags :=
  match nanOf f [a] with
  | some r => r
  | none =>
    match f.val a with
    | .inf neg => if neg then (f.defNan, fNV) else (f.infCode false, fNone)
    | .nan => (f.defNan, fNV)
    | .fin neg m e =>
      if m = 0 then (f.infCode true, fDZ)
      else if neg then (f.defNan, fNV)
      else if m = 2 ^ (bitLen m - 1) then
        let k : Int := e + bitLen m - 1
        roundSum f mode (k, 0) false
      else f.round mode (log2Dy m e)

/-! ds8 (R71 to R74). -/

/-- A term of a ds8 code: its signed value, and whether it is a reserved one (absent with sign set). -/
def ds8Term (s e : Nat) : Int := if e = 7 then 0 else if s = 1 then -(2 ^ e : Nat) else (2 ^ e : Nat)

/-- A reserved ds8 code (R72). -/
def ds8Reserved (c : Nat) : Bool :=
  (c / 16 % 8 == 7 && c / 128 % 2 == 1) || (c % 8 == 7 && c / 8 % 2 == 1)

/-- The value of a ds8 code (R71). -/
def ds8Val (c : Nat) : Int := ds8Term (c / 128 % 2) (c / 16 % 8) + ds8Term (c / 8 % 2) (c % 8)

/-- The two-term codes with E1 > E2, smaller largest exponent first, then ±128 (R73). -/
def ds8Pairs : List Nat :=
  ((List.range 7).flatMap fun e1 => (List.range e1).flatMap fun e2 =>
    [(0, 0), (0, 1), (1, 0), (1, 1)].map fun (s : Nat × Nat) => s.1 * 128 + e1 * 16 + s.2 * 8 + e2) ++ [0x66, 0xEE]

/-- The canonical code of a ds8 value (R73); none for an integer that is no ds8 value. -/
def ds8Canon (v : Int) : Option Nat :=
  if v = 0 then some 0x77
  else
    match (List.range 7).find? fun e => v.natAbs == 2 ^ e with
    | some e => some ((if v < 0 then 128 else 0) + e * 16 + 7)
    | none => ds8Pairs.find? fun c => ds8Val c == v

/-- Number of non-zero terms of a ds8 magnitude. -/
def ds8Terms (v : Nat) : Nat :=
  if v = 0 then 0 else if ((List.range 7).find? fun e => v == 2 ^ e).isSome then 1 else 2

/-- The ds8 magnitudes, ascending. -/
def ds8Mags : List Nat := (List.range 129).filter fun v => (ds8Canon v).isSome

/-- The ds8 code of a magnitude with a sign; zero has no sign. -/
def ds8Code (neg : Bool) (v : Nat) : Nat := (ds8Canon (signed neg v)).getD 0x77

/-- Narrowing a finite value to ds8 (R74).  A result beyond ±128 saturates: from 129 every one is, and below 129 one that rounds
away from 128. -/
def ds8Round (mode : RMode) (d : Dy) : Nat × Flags :=
  let (fl, inexact) := roundQ .rtz { d with neg := false } 0
  if 128 < fl then (ds8Code d.neg 128, fSAT ||| fNX)
  else
    let lo := (ds8Mags.filter fun v => decide (v ≤ fl)).getLastD 0
    if lo = fl && !inexact then (ds8Code d.neg lo, fNone)
    else
      let hi := (ds8Mags.find? fun v => decide (lo < v)).getD 129
      -- twice the value against lo + hi: the floor and sticky of 2v decide
      let (fl2, inex2) := roundQ .rtz { d with neg := false, e := d.e + 1 } 0
      let away := match mode with
        | .rne =>
          if fl2 < lo + hi then false
          else if lo + hi < fl2 || inex2 then true
          else decide (ds8Terms hi < ds8Terms lo)
        | .rtz => false
        | .rdn => d.neg
        | .rup => !d.neg
      if away && hi = 129 then (ds8Code d.neg 128, fSAT ||| fNX)
      else (ds8Code d.neg (if away then hi else lo), fNX)

/-- A floating code to ds8: NaN gives the reserved code 0xF7 with NV, infinity ±128 with SAT (R69, R72). -/
def convDs8 (src : FF) (mode : RMode) (c : Nat) : Nat × Flags :=
  match src.val c with
  | .nan => (0xF7, fNV)
  | .inf neg => (ds8Code neg 128, fSAT)
  | .fin neg m e =>
    if 70 < e then (if m = 0 then (0x77, fNone) else (ds8Code neg 128, fSAT ||| fNX))
    else ds8Round mode { neg := neg, m := m, e := e, st := false }

/-- The exact binary logarithm rounded up, of a positive dyadic value m · 2^e. -/
def ceilLog2 (m : Nat) (e : Int) : Int := if m = 2 ^ (bitLen m - 1) then e + bitLen m - 1 else e + bitLen m

end Sys2Proof.Machine
end

