-- ==== Sys2Proof/Machine/State.lean ====
section
/-! DEFINITION. The state of the whole device as plain data: threads, cores, families, slices, partitions, memory and
the management controller (R12 to R40 and the chapters on memories, scheduling, engines, fabric and traps), with the
model's own clock, agenda and inputs. -/

namespace Sys2Proof.Machine

/-- A cause with the address recorded for it (R375). -/
structure Fail where
  cause : Nat
  addr : Nat
  deriving DecidableEq, Repr

/-- An asynchronous fault held for a thread, and the cycle from which it is held (R220, R295). -/
structure HeldFault where
  fail : Fail
  at_ : Nat
  deriving DecidableEq, Repr

/-! Threads. -/

/-- A scalar register with its presence bit, its pending mark and its failed mark (R14, R169). -/
structure SCell where
  val : W64
  pres : Bool
  pend : Bool
  fail : Option Fail
  deriving DecidableEq, Repr

/-- A vector register with its presence bit, its pending mark and its failed mark (R14, R17). -/
structure VCell where
  val : VWord
  pres : Bool
  pend : Bool
  fail : Option Fail
  deriving DecidableEq, Repr

/-- The registers of a thread: s0 to s15, d0 to d7, v0 to v15 and the masks; place 0 of m holds m0's ones (R13, R17,
R18). -/
structure Regs where
  s : Vector SCell 16
  d : Vector SCell 8
  v : Vector VCell 16
  m : Vector MWord 4
  deriving DecidableEq, Repr

/-- The destination of a fixed-latency result. -/
inductive FDest where
  | s (n : BitVec 4)
  | v (n : BitVec 4)
  | m (n : BitVec 2)
  deriving DecidableEq, Repr

/-- A fixed-latency result in flight: the bits of mask are written with val at cycle land (R46, R47).  ep is the
number of the issuing bundle. -/
structure Flight where
  n : Nat
  dst : FDest
  val : VWord
  mask : VWord
  land : Nat
  ep : Nat
  deriving DecidableEq, Repr

/-- The thread's CSRs (R21, R248). -/
structure Csrs where
  fst : W64
  fmode : W64
  wlim : W64
  chk : W64
  ifp : W64
  ifl : W64
  cfp : W64
  cfl : W64
  estat : W64
  epc : W64
  eaddr : W64
  deriving DecidableEq, Repr

/-- What a thread that is not at a held bundle waits for (R336). -/
inductive Wait where
  | delegation
  | inlineDriver
  | halted
  | translation
  | spill
  | stopped
  deriving DecidableEq, Repr

/-- How a thread is held: by nothing; by the bundle at its PC, under way as request or event tok; by that bundle, whose
result v has arrived and which now commits; by that bundle, whose cause has arrived; or by a wait (R336). -/
inductive Hold where
  | none
  | busy (tok : Nat)
  | done (v : W64)
  | fail (f : Fail)
  | wait (w : Wait)
  deriving DecidableEq, Repr

/-- A thread (R13 to R23, R33, R37). -/
structure Thread where
  /-- The model's serial number of the thread. -/
  uid : Nat
  /-- System privilege (R39). -/
  sys : Bool
  /-- The family by its serial number; none for the walker and steward code. -/
  fam : Option Nat
  /-- The member number k (R114). -/
  member : Nat
  /-- The slice by its serial number. -/
  slice : Option Nat
  ix : W64
  fd : W64
  /-- The layout G, S, L, V (R34). -/
  g : Nat
  sh : Nat
  l : Nat
  vn : Nat
  regs : Regs
  pc : W64
  /-- The hardware return stack, newest first, and the count of spilled addresses (R19). -/
  rstack : List W64
  depth : Nat
  csr : Csrs
  /-- The pending extension (R58), and that of a bundle that a system-level trap has ended, which stays pending for it until the
  handler's ERET (DEDUCED, log entry 63). -/
  kext : Option (BitVec 32)
  kextKept : Option (BitVec 32)
  /-- The stall count outstanding, or a trap's wait for results in flight, by the cycle in which it ends (R46, R48). -/
  stall : Option Nat
  flights : List Flight
  /-- Which shareds have been sent (R36). -/
  sent : BitVec 8
  /-- Which dependents hold a value of another core that has not been read yet (R36 rule 5). -/
  acqs : BitVec 8
  /-- Families created and not yet synced, oldest first (R135). -/
  kids : List Nat
  /-- The most recent inline or zero-member family (R136). -/
  lastInline : Option Nat
  /-- Asynchronous faults held for the thread, oldest first (R220), and the flags of completed imports (R241). -/
  held : List HeldFault
  impFlags : Flags
  /-- Store errors that wait for the thread's next bundle (R169). -/
  errs : List Fail
  /-- Causes of failed destinations that a later write has covered; END raises them (R169). -/
  lost : List Fail
  hold : Hold
  /-- When the held bundle issued, its two words, and the results and flags of its A-slot, which count once it commits
  (R44). -/
  issuedAt : Nat
  latch : W64
  /-- The progress of a held bundle that acts in parts (R181, R183, R245, R252). -/
  prog : List Nat
  aside : List Flight
  asideFlags : Flags
  /-- The trap of its A-slot, which is taken once the C-slot has met no fault (R45). -/
  asideTrap : Option Fail
  /-- Bundles issued. -/
  issues : Nat
  /-- The end of an acquire's L1 invalidation (R171). -/
  acqUntil : Nat
  /-- The thread runs as a member of an inline family (R120). -/
  inl : Bool
  deriving DecidableEq, Repr

/-- A creator that waits below an inline run: its thread, the frame, the run's family, the CREATE's PC and destination,
and the next member (R120). -/
structure InlineRun where
  slot : Nat
  creator : Thread
  fam : Nat
  frame : Nat
  createPc : W64
  rd : SReg
  next : Nat
  /-- Which of the creator's s-registers, and of its vector registers, the frame holds as present. -/
  saved : BitVec 16
  savedV : BitVec 16
  deriving DecidableEq, Repr

/-! Families, tasks and slices. -/

/-- A place with its cores resolved (R115). -/
structure Place where
  cores : List Nat
  cyclic : Bool
  fallback : BitVec 2
  dcores : List Nat
  deriving DecidableEq, Repr

/-- A family's descriptor as CREATE has read it (R112). -/
structure Desc where
  start : Int
  limit : Int
  step : Int
  ind : Bool
  body : W64
  block : Nat
  hsrc : Nat
  gsrc : Nat
  v : Nat
  l : Nat
  s : Nat
  g : Nat
  deriving DecidableEq, Repr

/-- A core's share of a family: its slots; the members not yet started, which are the left members next, next + stride and
so on; those started and not ended; and the counts of members started and ended (R25). -/
structure Share where
  cid : Nat
  slots : List Nat
  next : Nat
  stride : Nat
  left : Nat
  live : List Nat
  started : Nat
  ended : Nat
  deriving DecidableEq, Repr

/-- A value of the chain: dependent d_j of member number member, or shared h_j that it has sent (R36). -/
structure Link where
  member : Nat
  j : Nat
  val : W64
  /-- The sender stands on another core (R36 rule 4). -/
  far : Bool
  deriving DecidableEq, Repr

/-- Where a family stands (R25, R119, R385); ending: all members have ended and the notice of it is pending. -/
inductive FamState where
  | running
  | ending
  | delegating
  | queued
  | replayWait
  | purging
  | done
  deriving DecidableEq, Repr

/-- How a family runs: allocated, inline in its creator's slot, with no member, or as a slice's root. -/
inductive FamKind where
  | alloc
  | inlined
  | empty
  | root
  deriving DecidableEq, Repr

/-- How a family ended early: killed (R124) or died of a cause (R380). -/
inductive FamEnd where
  | none
  | killed
  | died (cause : Nat)
  deriving DecidableEq, Repr

/-- The start values of fmode, wlim and chk (R21). -/
structure StartCsrs where
  fmode : W64
  wlim : W64
  chk : W64
  deriving DecidableEq, Repr

/-- A family: its table entry, descriptor, counts, chain, break, flags, parent and create record (R25, R122 to R124,
R384, R385). -/
structure Family where
  /-- The model's serial number of the family. -/
  uid : Nat
  id : W64
  cid : Nat
  ent : Nat
  kind : FamKind
  st : FamState
  desc : Desc
  place : Place
  n : Nat
  det : Bool
  rev : Option Nat
  /-- The revision in which its members run: its own, or its creator's (R33). -/
  inRev : Option Nat
  /-- The nearest enclosing task by its family (R33). -/
  task : Option Nat
  part : Nat
  slice : Option Nat
  parentFam : Option Nat
  parentUid : Nat
  parentCid : Nat
  parentSlot : Nat
  globals : List W64
  init : List W64
  start : StartCsrs
  shares : List Share
  links : List Link
  /-- The shareds sent so far (R36 rule 2). -/
  outs : List Link
  /-- The winning breaker's member number and the break value (R123). -/
  brk : Option (Nat × W64)
  flags : Flags
  ended : FamEnd
  replay : Nat
  /-- The side-effect bit of a task (R384). -/
  side : Bool
  synced : Bool
  /-- When it became done. -/
  doneAt : Nat
  /-- Its delegation place accepted it (R119, R385). -/
  away : Bool
  /-- The join counter of a detached family: its virtual and physical address (R134). -/
  ctr : Option (Nat × Nat)
  deriving DecidableEq, Repr

/-- The states of a slice (R325); readiness is read from the completion table. -/
inductive SliceState where
  | waiting
  | running
  | ended
  deriving DecidableEq, Repr

/-- A slice (R320 to R329). -/
structure Slice where
  uid : Nat
  part : Nat
  sub : Nat
  ring : Nat
  index : Nat
  words : List W64
  st : SliceState
  /-- Bundles counted against the budget, and the cores and cycles of the latest (R327). -/
  issued : Nat
  recent : List (Nat × Nat)
  root : Option Nat
  status : Nat
  cause : Nat
  /-- The slice has been signalled (R323). -/
  signalled : Bool
  /-- The thread whose YIELD is being performed, by its serial number (R141). -/
  yielding : Option Nat
  deriving DecidableEq, Repr

/-- A purge under way: an owner, its cause and what its notice holds (R380, R381). -/
structure Purge where
  tok : Nat
  fam : Option Nat
  slice : Option Nat
  cause : Nat
  replay : Bool
  cid : Nat
  slot : Nat
  pc : Nat
  addr : Nat
  time : Nat
  deriving DecidableEq, Repr

/-! Requests in flight. -/

/-- Names a thread where it stood when a request left it. -/
structure Who where
  cid : Nat
  slot : Nat
  uid : Nat
  deriving DecidableEq, Repr

/-- The read-modify-write operations of R56. -/
inductive AmoOp where
  | add
  | and
  | or
  | xor
  | smin
  | smax
  | nmin
  | nmax
  | swap
  | fadd
  deriving DecidableEq, Repr

/-- The full/empty and tag operations (R173, R176). -/
inductive FeOp where
  | ldf
  | ldfe
  | stef
  | stf
  | clr
  | get
  | set
  deriving DecidableEq, Repr

/-- One unit of a vector access: an address pair, its bytes, the register and bit that it fills or drains from, and as for
a request whether it uses the local alias and L1, and its page's CACHE field. -/
structure VUnit where
  va : Nat
  pa : Nat
  n : Nat
  reg : BitVec 4
  lo : Nat
  own : Bool
  l1 : Bool
  cache : Nat
  deriving DecidableEq, Repr

/-- How the bytes of a vector load become register bits (R207 to R210). -/
inductive VForm where
  | plain
  /-- A row of tagged blocks, with their bytes and their pages' CHK; element k comes first. -/
  | tagged (ty : VTy) (mode : RMode) (k : Nat) (blks : List (List Byte × Bool))
  | mx (dest : MxDest) (el : MxElem)
  deriving DecidableEq, Repr

/-- What a request asks of its home. -/
inductive ReqKind where
  | load (signExt : Bool)
  | store (v : W64)
  | amo (op : AmoOp) (b : W64)
  | cas (e : W64) (b : W64)
  | fe (op : FeOp) (v : W64)
  | push (bytes : List Byte)
  | pop
  | vload (units : List VUnit) (form : VForm) (mask : MWord)
  | vstore (units : List (VUnit × Nat))
  /-- A result that is already known and arrives later. -/
  | value (v : W64)
  deriving DecidableEq, Repr

/-- Where a response goes. -/
inductive RDest where
  | none
  | s (r : BitVec 4)
  | v (first : BitVec 4) (count : Nat)
  /-- A store of an inline frame: its error is for whatever stands in the slot (R120). -/
  | slot
  deriving DecidableEq, Repr

/-- How far a request has come. -/
inductive ReqState where
  | sent
  | waiting
  | performed
  | answered (at_ : Nat)
  deriving DecidableEq, Repr

/-- A request from issue to answer (R352, R354).  lvl is the revision whose version it reads or writes (R273). -/
structure Req where
  tok : Nat
  who : Who
  /-- The partition of its thread. -/
  part : Nat
  kind : ReqKind
  va : Nat
  pa : Nat
  n : Nat
  lvl : Option Nat
  dst : RDest
  /-- The thread is held until the answer arrives. -/
  holds : Bool
  /-- Its release and acquire sides, and whether their scope is quad or wider (R171). -/
  rel : Bool
  acq : Bool
  wide : Bool
  /-- Their scope is pod (R275). -/
  pod : Bool
  /-- A fence of both aliases: it waits for every earlier access of its thread (R180). -/
  all : Bool
  /-- The cycle from which a release has cleaned its core's lines (R171), or in which what a vector store has performed so far is
  acknowledged (R286). -/
  from_ : Nat
  /-- Through the local alias; through L1; the page's CACHE field. -/
  own : Bool
  l1 : Bool
  cache : Nat
  /-- The access code of the causes it may raise (R168). -/
  acc : Nat
  homes : List Nat
  lat : Nat
  st : ReqState
  err : Option Fail
  res : W64
  vres : List (BitVec 4 × VWord × VWord)
  flags : Flags
  issued : Nat
  /-- The last cycle in which a full/empty wait may end, where it has a limit (R175). -/
  limit : Option Nat
  /-- A release has cleaned what its core's lines held dirty when it came to be performed (R171). -/
  swept : Bool
  /-- The lanes of a vector instruction, in order; the homes whose slots it has, each with the cycle in which its answer arrives, once
  it is performed there; the largest latency among those; what has been read; and the lowest lane that failed, with its cause (R356). -/
  lanes : List VUnit
  parts : List (Nat × Option Nat)
  lam : Nat
  got : List (VUnit × List Byte)
  bad : Option (Nat × Fail)
  /-- The addresses of another device that it names, and the ports over which they are reached (R358, R359). -/
  via : List (Nat × Nat)
  deriving DecidableEq, Repr

/-! Cores. -/

/-- The states of a tile-table entry (R29). -/
inductive TileSt where
  | empty
  | filling
  | ready
  | draining
  deriving DecidableEq, Repr

/-- A tile-table entry (R29), its BASE and SIZE in bytes, with its registered readers; the TREL that waits for the readers
numbered below rel, and the copy-out that waits for those below out (R213). -/
structure Tile where
  st : TileSt
  pois : Bool
  err : Bool
  arrived : Nat
  expected : Nat
  size : Nat
  base : Nat
  readers : List Nat
  rel : Option Nat
  out : Option Nat
  deriving DecidableEq, Repr

/-- An accumulator tile (R27): 1,024 residues in int mode, f32 codes in fp mode, an empty list being all zeros; the
recorded scales of rows and columns (R89). -/
structure Acc where
  fp : Bool
  pois : Bool
  inv : Bool
  flags : Flags
  vals : List Int
  sa : List (Option Nat)
  sw : List (Option Nat)
  deriving DecidableEq, Repr

/-- A spall entry (R28), by its number (R342). -/
structure Spall where
  ent : Nat
  acc : Nat
  row : Nat
  col : Nat
  cnt : Int
  deriving DecidableEq, Repr

/-- An element of a tagged block as the array takes it: its FMT, code and SCALE, or a data-class error (R80). -/
structure Elem where
  ok : Bool
  fmt : Nat
  code : Nat
  scale : Nat
  deriving DecidableEq, Repr

/-- The format classes of R221. -/
inductive Cls where
  | b8
  | ds8
  | b6
  | b4
  | bf16
  | f16
  deriving DecidableEq, Repr

/-- A weight plane: its class, Kp and 32 columns of elements (R28, R223). -/
structure Plane where
  cls : Cls
  kp : Nat
  cols : List (List Elem)
  deriving DecidableEq, Repr

/-- The shadow plane's states (R28). -/
inductive Shadow where
  | empty
  | loading (p : Plane) (tile : Nat) (reader : Nat)
  | full (p : Plane)
  deriving DecidableEq, Repr

/-- What a matrix-queue entry does (R219). -/
inductive MOp where
  | mls (t : Nat)
  | swap
  /-- A pass over rows [r0, r0 + nr) of tile t into accumulator c; last deregisters the reader. -/
  | pass (sparse : Bool) (sw : Bool) (c : Nat) (t : Nat) (r0 : Nat) (nr : Nat) (last : Bool)
  | zero (fp : Bool) (c : Nat)
  deriving DecidableEq, Repr

/-- A matrix-queue entry: the passes of one instruction in order, its issuer and its reader number (R219, R230); a
follow-on waits for its tile at the head (R243).  It starts no earlier than cycle from_. -/
structure MCmd where
  tok : Nat
  who : Who
  ops : List MOp
  follow : Bool
  from_ : Nat
  deriving DecidableEq, Repr

/-- A carry to post: the cycle counted from the pass's start, the cell and its sign (R86, R338). -/
structure Carry where
  at_ : Nat
  row : Nat
  col : Nat
  up : Bool
  deriving DecidableEq, Repr

/-- What a pass leaves in a cell: the cycle, from its start, in which the cell is added to, and its value, flags and
poison. -/
structure PassCell where
  i : Nat
  at_ : Nat
  v : Int
  fl : Flags
  pois : Bool
  deriving DecidableEq, Repr

/-- A pass under way (R294, R338): the cycle of its die's count in which it started, its length, the cycles it has stalled, its cells,
the cycles in which it meets a differing scale, its scales, and the carries it has still to post, in order; where and with what cause
it was abandoned. -/
structure Pass where
  tok : Nat
  who : Who
  c : Nat
  t : Nat
  last : Bool
  start : Nat
  len : Nat
  slip : Nat
  cells : List PassCell
  off : List Nat
  sa : List (Option Nat)
  sw : List (Option Nat)
  carries : List Carry
  stop : Option (Nat × Nat)
  deriving DecidableEq, Repr

/-- A carry that its pass had still to post when it completed (R294, R338): its accumulator and issuer; its at_ is a cycle of the
die's count. -/
structure Late where
  acc : Nat
  who : Who
  carry : Carry
  deriving DecidableEq, Repr

/-- A drain under way (R232). -/
structure Drain where
  tok : Nat
  who : Who
  c : Nat
  t : Nat
  code : Nat
  sat : Bool
  scale : Nat
  mode : RMode
  deriving DecidableEq, Repr

/-- An MXSW that has issued: its tile, its issuer and hold, and whether its exchange has begun (R234). -/
structure Mxsw where
  tile : Nat
  who : Who
  tok : Nat
  begun : Bool
  deriving DecidableEq, Repr

/-- A copy command (R235 to R243).  block holds the eight dwords of a CPYC; sys, fam and tag are the privilege, the family and
the owner tag of its thread (R379). -/
structure CopyCmd where
  tok : Nat
  who : Who
  tile : Nat
  form : Nat
  addr : Nat
  opnd : W64
  third : W64
  scope : Nat
  block : Option (List W64)
  blockAddr : Nat
  /-- The owner's revision at issue (R236). -/
  lvlFam : Option Nat
  sys : Bool
  fam : Option Nat
  tag : Nat
  /-- From when on the engine has the command, and whether it has armed its tile (R243). -/
  from_ : Nat
  armed : Bool
  /-- Base and size of the regions of a discarded revision, of which it writes nothing any more (R273, R280, R380). -/
  gone : List (Nat × Nat)
  deriving DecidableEq, Repr

/-- A receiver of a transfer: its core, the cycles that its units land later, its next unit; or one that failed. -/
structure Recv where
  cid : Nat
  lag : Nat
  next : Nat
  failed : Bool
  deriving DecidableEq, Repr

/-- A unit of a transfer: the cycle in which it lands, its tile offset, its address at the memory side and what the access
there needs, its bytes, and whether a data-class error is among them. -/
structure XUnit where
  due : Nat
  off : Nat
  va : Nat
  pa : Nat
  lvl : Option Nat
  cache : Nat
  bytes : List Byte
  pois : Bool
  /-- The port over which it crosses to or from another device (R358, R359). -/
  port : Option Nat := none
  deriving DecidableEq, Repr

/-- How far a command has been read: the bytes of its index list or scales, those of an import's source with the landing of
their pieces, and the pieces read; cycle t0, in which piece number u0 is read; the landing and number of the last unit (R235). -/
structure CopyProg where
  list : List Byte
  src : List Byte
  marks : List XUnit
  k : Nat
  t0 : Nat
  u0 : Nat
  land : Nat
  u : Option Nat
  deriving DecidableEq, Repr

/-- A transfer that has started (R235, R343): its units, whether all are known or a page is waited for, the fault it will meet
behind them and when; ended says that all has landed and its follow-on waits (R243). -/
structure Xfer where
  tok : Nat
  cmd : CopyCmd
  recvs : List Recv
  units : List XUnit
  whole : Bool
  prog : CopyProg
  landed : Nat
  flags : Flags
  fail : Option Fail
  failAt : Nat
  ended : Bool
  /-- It waits for a bank of a switched-out partition (R392). -/
  away : Bool
  deriving DecidableEq, Repr

/-- An L1 line: its physical line number, bytes, valid and dirty marks, way and age (R302); an uncorrectable error in it
(R300). -/
structure L1Line where
  line : Nat
  data : BitVec 256
  valid : BitVec 32
  dirty : BitVec 32
  way : Nat
  age : Nat
  bad : Bool
  deriving DecidableEq, Repr

/-- A TLB entry: VPN, size code and word 1 (R253, R312). -/
structure TlbEntry where
  vpn : Nat
  sz : Nat
  w1 : W64
  deriving DecidableEq, Repr

/-- The states of a mailbox entry (R255, R314 to R316). -/
inductive MissSt where
  | unclaimed
  | claimed
  | suspended
  | parked
  | unposted
  deriving DecidableEq, Repr

/-- A thread that waits for a page: its slot and serial number, and its access's code and address. -/
structure PageWait where
  slot : Nat
  uid : Nat
  acc : Nat
  va : Nat
  deriving DecidableEq, Repr

/-- A miss-mailbox entry (R255), with its waiters and the address at which the copy engine waits. -/
structure Miss where
  ent : Nat
  vpn : Nat
  acc : Nat
  st : MissSt
  ce : Bool
  stale : Bool
  /-- Addresses that TLBI has named since the entry was claimed (R317). -/
  inval : List Nat
  waiters : List PageWait
  ceVa : Nat
  seq : Nat
  deriving DecidableEq, Repr

/-- A line of the instruction buffer (R252, DESIGN CHOICE, log entry 10). -/
structure IbLine where
  line : Nat
  /-- The size code of the page through which it was fetched. -/
  sz : Nat
  bytes : List Byte
  deriving DecidableEq, Repr

/-- Registers of the core's two files held by a family's share, an inline run or a traveller (R26). -/
structure RegUse where
  fam : Nat
  uid : Nat
  sc : Nat
  vec : Nat
  deriving DecidableEq, Repr

/-- A FIFO bank's queue, oldest byte first (R185). -/
structure Fifo where
  bank : Nat
  bytes : List Byte
  deriving DecidableEq, Repr

/-- The engine error record (R345). -/
structure EngErr where
  d0 : W64
  d1 : W64
  d2 : W64
  d3 : W64
  deriving DecidableEq, Repr

/-- A core (R24 to R31, R40). -/
structure Core where
  cid : Nat
  /-- Program slots 0 to 15 and the walker's slot 16. -/
  slots : Vector (Option Thread) 17
  runs : List InlineRun
  /-- The family table: the family of each entry, and the entries' generations (R25). -/
  ents : Vector (Option Nat) 8
  gens : Vector (BitVec 32) 8
  /-- Inline and zero-member families created (R16). -/
  inlCount : BitVec 32
  regUse : List RegUse
  acc : Vector Acc 4
  spall : List Spall
  active : Option Plane
  shadow : Shadow
  mq : List MCmd
  /-- Loads issued and swaps issued so far (R223). -/
  loads : Nat
  swaps : Nat
  pass : Option Pass
  /-- Carries of completed passes, in order; and the cycle of the die's count in which the array stands still for carries, with how many
  of them are among the first eight of their cycle (R342). -/
  late : List Late
  stallAt : Option (Nat × Nat)
  /-- The groups of an MMAG that has started which are still to run (R230). -/
  groups : Option MCmd
  drain : Option Drain
  mxsw : List Mxsw
  tiles : Vector Tile 64
  cq : List CopyCmd
  cqHalted : Bool
  /-- The command whose failure halted the queue: what stands behind it waits (R347). -/
  haltTok : Nat
  /-- The head command waits for a translation (R238). -/
  cqWait : Bool
  /-- The head command may start (R235). -/
  cqFree : Nat
  xfers : List Xfer
  eq : EngErr
  bankMode : Vector (BitVec 2) 32
  waking : BitVec 32
  fifos : List Fifo
  l1 : List L1Line
  tlb1 : List TlbEntry
  tlb2 : List TlbEntry
  mbox : List Miss
  /-- Entries whose page request a gang switch discarded, and the host has still to answer (R317). -/
  lost : List Nat
  ibuf : List IbLine
  mctl : W64
  finj : W64
  /-- The target's bundles issued since finj was armed (R249). -/
  finjCnt : Nat
  sfb : W64
  sfs : W64
  wentry : W64
  ptroot : W64
  tvec : W64
  /-- The program slot that issued last, and the walker's last issue (R337). -/
  rot : Nat
  walkerAt : Option Nat
  /-- Die cycles counted when the core left reset (R16). -/
  ck0 : Nat
  stopck : W64
  msent : W64
  mrecv : W64
  /-- Messages to and from other cores so far (R388). -/
  sentCnt : Nat
  recvCnt : Nat
  /-- Soft errors corrected in its SRAM so far (R300). -/
  errCnt : Nat
  deriving DecidableEq, Repr

/-! Barriers, partitions, the device. -/

/-- A barrier instance (R144, R145): its scope, unit (core, quad, or partition and die) and number; the arrivals of the
open phase and the waiters of each closed phase not yet released. -/
structure Barrier where
  sc : Nat
  unit : Nat
  id : Nat
  count : Nat
  arrived : Nat
  waiters : List Who
  phase : Nat
  closed : List (Nat × List Who)
  deriving DecidableEq, Repr

/-- A region of the partition's table (R244, R245). -/
structure Region where
  num : Nat
  base : Nat
  size : Nat
  ro : Bool
  elem : Nat
  merge : Nat
  deriving DecidableEq, Repr

/-- A version of a 64-byte block (R308). -/
structure Version where
  rev : Nat
  va : Nat
  blk : Nat
  data : BitVec 512
  deriving DecidableEq, Repr

/-- A live revision (R245, R273, R309): its task, parent revision, snapshot, and the ancestor, held as the memory and the
versions that stood at its CREATE. -/
structure Rev where
  id : Nat
  fam : Nat
  parent : Option Nat
  snap : List Region
  mem0 : List Host.Cell
  vers0 : List Version
  deriving DecidableEq, Repr

/-- A join under way (R349): the blocks still to merge, ascending. -/
structure Join where
  tok : Nat
  fam : Nat
  rev : Nat
  into : Option Nat
  blocks : List Version
  who : Who
  begun : Bool
  /-- The first join that its SYNC has listed with it; and its place among those that are ready to merge, once its own descendants, and
  those before it of its SYNC, are joined (R136, R349). -/
  sync : Nat
  ready : Option Nat
  deriving DecidableEq, Repr

/-- A submission ring (R321, R365). -/
structure Ring where
  base : W64
  size : W64
  head : BitVec 32
  tail : BitVec 32
  stopped : Bool
  /-- A write of BASE or SIZE has placed the ring in memory; until then it has no tail line (R321; DESIGN CHOICE, log entry 59). -/
  placed : Bool
  deriving DecidableEq, Repr

/-- A continuation record (R330): eight dwords, with the packed thread of a traveller. -/
structure ContRec where
  /-- The supergroup whose queue it enters. -/
  sg : Nat
  words : List W64
  fam : Nat
  traveller : Option Thread
  deriving DecidableEq, Repr

/-- A supergroup's continuation queue and spill ring (R330 to R334). -/
structure ContQ where
  sg : Nat
  recs : List ContRec
  spill : List ContRec
  /-- The ring's head record number (R332). -/
  head : Nat
  cqsb : W64
  cqsn : W64
  stalled : Bool
  /-- The page request of the stall has been posted (R366). -/
  posted : Bool
  deriving DecidableEq, Repr

/-- Where a partition stands, in the codes of GSST (R389). -/
inductive GsSt where
  | running
  | stopping
  | stopped
  | saving
  | out
  | restoring
  deriving DecidableEq, Repr

/-- A partition and its control block (R319, R365, R366, R389). -/
structure Part where
  num : Nat
  valid : Bool
  sgs : BitVec 20
  fatal : Bool
  gsst : GsSt
  /-- GSCTL end has been applied since the last stop (R365). -/
  gsEnded : Bool
  swtime : W64
  rings : Vector Ring 8
  ctbase : W64
  ctcnt : W64
  hfqbase : W64
  hfqsz : W64
  hfqtail : W64
  hfqhead : W64
  dlbase : W64
  dlsz : W64
  dlcnt : W64
  clbase : W64
  clsz : W64
  clcnt : W64
  clovf : W64
  cqsq : W64
  /-- The next submission number (R322). -/
  nextSub : Nat
  regions : List Region
  revs : List Rev
  versions : List Version
  revCap : Nat
  /-- Writes held for a free version, oldest first (R308). -/
  heldWrites : List Nat
  joins : List Join
  /-- Permitted physical ranges, as first and last address; none recorded means all (R297, DESIGN CHOICE, log entry 12). -/
  ranges : List (Nat × Nat)
  /-- Its revision store and save area, closed to the host (R363). -/
  closed : List (Nat × Nat)
  /-- The partition that receives travellers on each device, by device id (R360). -/
  pods : List (Nat × Nat)
  /-- The traveller area's first address, and the context frames it has room for (R330). -/
  travBase : Nat
  travRoom : Nat
  /-- The save area's first address, and the messages that its message section has room for (R391, R392). -/
  saveBase : Nat
  msgRoom : Nat
  /-- The save area's cores, queues and barriers, whose layout is the hardware's own (log entry 34); the message section, and the
  messages that it has had no room for, in order of arrival (R391, R392). -/
  saved : List Core
  savedQ : List ContQ
  savedBars : List Barrier
  msgs : List Ev
  pent : List Ev
  /-- Cancels and page replies held for switch-in (R392). -/
  heldIn : List Ev
  /-- Travellers that wait in the dispatcher's arrival buffer (R333). -/
  arrivals : List ContRec
  /-- The dispatcher may decide again (R326). -/
  dispAt : Nat
  deriving DecidableEq, Repr

/-- A travelling thread, and the address that it travels to (R142, R276). -/
structure Traveller where
  tok : Nat
  pa : Nat
  thread : Thread
  part : Nat
  die : Nat
  dev : Nat
  /-- The port over which it leaves for another device (R358, R359). -/
  port : Option Nat := none
  deriving DecidableEq, Repr

/-- An L2 line (R304): its filled sectors, the write mask of the bytes written since the line was allocated, the bytes that HBM
still holds under dirty ones, and its age. -/
structure L2Line where
  line : Nat
  sectors : BitVec 4
  wmask : BitVec 256
  under : List Host.Cell
  age : Nat
  deriving DecidableEq, Repr

/-- A Zoune port (R357). -/
structure Port where
  up : Bool
  half : Bool
  failed : Bool
  replays : Nat
  deriving DecidableEq, Repr

/-- A route-table entry: usable ports and hop count (R358). -/
structure Route where
  dev : Nat
  mask : BitVec 12
  hops : Nat
  deriving DecidableEq, Repr

/-- An event record posted to the management controller. -/
structure EventRec where
  what : String
  a : Nat
  b : Nat
  time : Nat
  deriving DecidableEq, Repr

/-- A violation-log entry (R387). -/
structure Violation where
  d0 : W64
  d1 : W64
  d2 : W64
  d3 : W64
  deriving DecidableEq, Repr

/-- An attestation report (R373). -/
structure Report where
  rom : BitVec 384
  image : BitVec 384
  config : BitVec 384
  svn : Nat
  dev : Nat
  nonce : BitVec 256
  keys : BitVec 256 × BitVec 256
  sigs : Nat × Nat
  deriving DecidableEq, Repr

/-- The states of R369. -/
inductive Service where
  | rom
  | reduced
  | full
  | recovery
  | failed
  deriving DecidableEq, Repr

/-- The device and its management controller (R297, R357 to R374). -/
structure Device where
  service : Service
  svn : Nat
  devid : Nat
  degr : Nat
  bar2 : W64
  mailbox : List Report
  mailErr : Nat
  /-- The image in flash: its number and security version; the number of the image that runs. -/
  flash : Nat × Nat
  image : Nat
  /-- HBM training and die test have ended; when they did. -/
  trained : Option Nat
  /-- Requests that the host posted and the device answered with Unsupported Request (R386). -/
  unsupported : Nat
  /-- The size of BAR2's window in bytes (R363). -/
  bar2Size : Nat
  /-- The value of the last completed host read, through BAR2 or of the control window. -/
  hostRead : Nat
  msix : List Nat
  /-- The MSI-X table and pending-bit array as last written: offset and value (R364). -/
  msixTable : List (Nat × W64)
  ports : Vector Port 12
  routes : List Route
  /-- The violation log's entries by their place, and COUNT (R387). -/
  viols : List Violation
  violCount : Nat
  events : List EventRec
  mhz : Vector Nat 4
  retired : List (Nat × Nat)
  /-- The slice that owns a moved bucket: die, bucket, slice (R298, R305). -/
  owners : List (Nat × Nat × Nat)
  /-- The corrected errors that retire a slice when a count of one interval passes them, and the interval in ns, as the firmware has set
  them; the counts, slice k of die d as 32·d + k, each with the number of its interval (R305, DESIGN CHOICE, log entry 87). -/
  errLimit : Option Nat
  errSpan : Nat
  sliceErrs : List (Nat × Nat × Nat)
  /-- Corrected errors of each die's HBM (R306). -/
  hbmErrs : Vector Nat 4
  /-- The firmware area, closed to the host (R363). -/
  closed : List (Nat × Nat)
  deriving DecidableEq, Repr

/-! The model's own state. -/

/-- What became of the bundle's instruction that ran last. -/
inductive IssueRes where
  | idle
  | notReady
  | held
  | trapped (stage : Nat)
  | committed
  deriving DecidableEq, Repr

/-- The issuing slot, and what its bundle has done so far. -/
structure Cur where
  cid : Nat
  slot : Nat
  res : IssueRes
  aFlags : Flags
  aDest : Option SReg
  /-- The bundle's access goes to a REMOTE page (R249 KIND 2), and the address of its first access. -/
  remote : Bool
  addr : Option Nat
  /-- The memory-port requests of the accesses that the bundle has made at once: an address at the home, whether it is written, and
  the cycles until the answer (R354). -/
  met : List (Nat × Bool × Nat)
  /-- The cause of its trap, with the address. -/
  trap : Option Fail
  deriving DecidableEq, Repr

/-- A step of the machine that is due. -/
structure Due where
  at_ : Nat
  what : Ev
  deriving DecidableEq, Repr

/-- The whole machine. -/
structure State where
  /-- Cycles at 1.2 GHz since device reset, and each die's own cycles (R7, R374). -/
  now : Nat
  dieCyc : Vector Nat 4
  cores : List Core
  mem : List Host.Cell
  /-- The words whose full/empty tag is full, ascending (R170). -/
  tags : List Nat
  /-- The units of ECC with an uncorrectable error, by their first address (R300, R306; DESIGN CHOICE, log entry 31). -/
  bad : List Nat
  l2 : List L2Line
  fams : List Family
  slices : List Slice
  purges : List Purge
  reqs : List Req
  bars : List Barrier
  parts : List Part
  contq : List ContQ
  travs : List Traveller
  dev : Device
  /-- What is due, in order; host and firmware inputs not yet taken; cores still to issue in this cycle. -/
  agenda : List Due
  inputs : List Ev
  turn : List Nat
  /-- The cycle whose turn has been formed, and the cores whose turn has passed in it without an issue. -/
  turnAt : Nat
  idle : List Nat
  cur : Cur
  /-- What the step of the machine under way acts on. -/
  evt : Ev
  /-- The model's counters: the next serial number, and the next free value. -/
  ctr : Nat
  freeCtr : Nat
  deriving DecidableEq, Repr

/-- The machine never stops: every stop that the manual describes is a state of it.  No step raises this; it is safe. -/
inductive Fault where
  /-- Raised by no meaning; safe. -/
  | none
  deriving DecidableEq, Repr

/-- Why a step has no meaning. -/
inductive Refusal where
  /-- Raised by an arm of exec whose instruction has no meaning yet; safe. -/
  | notModelled (mnemonic : String)
  deriving DecidableEq, Repr

/-! Reset values. -/

def SCell.zero : SCell := { val := 0#64, pres := false, pend := false, fail := none }

def VCell.zero : VCell := { val := 0#4096, pres := false, pend := false, fail := none }

/-- Registers with nothing present, every mask all ones (R37). -/
def Regs.start : Regs :=
  { s := Vector.replicate 16 SCell.zero, d := Vector.replicate 8 SCell.zero, v := Vector.replicate 16 VCell.zero,
    m := Vector.replicate 4 (BitVec.allOnes 128) }

def Csrs.zero : Csrs :=
  { fst := 0#64, fmode := 0#64, wlim := 0#64, chk := 0#64, ifp := 0#64, ifl := 0#64, cfp := 0#64, cfl := 0#64,
    estat := 0#64, epc := 0#64, eaddr := 0#64 }

/-- A user thread of no family with an empty window and every control item at its start value (R37). -/
def Thread.blank : Thread :=
  { uid := 0, sys := false, fam := none, member := 0, slice := none, ix := 0#64, fd := 0#64, g := 0, sh := 0, l := 0,
    vn := 0, regs := Regs.start, pc := 0#64, rstack := [], depth := 0, csr := Csrs.zero, kext := none, kextKept := none, stall := none,
    flights := [], sent := 0#8, acqs := 0#8, kids := [], lastInline := none, held := [], impFlags := fNone, errs := [], lost := [],
    hold := .none, issuedAt := 0, latch := 0#64, prog := [], aside := [], asideFlags := fNone, asideTrap := none,
    issues := 0, acqUntil := 0, inl := false }

/-- A tile-table entry at reset (R29, R40). -/
def Tile.zero : Tile :=
  { st := .empty, pois := false, err := false, arrived := 0, expected := 0, size := 0, base := 0, readers := [],
    rel := none, out := none }

/-- An accumulator at reset: zero, int mode (R40). -/
def Acc.zero : Acc :=
  { fp := false, pois := false, inv := false, flags := fNone, vals := [], sa := [], sw := [] }

/-- The bank modes at reset: 0 to 11 scratch, 12 to 31 cache (R31). -/
def bankReset : Vector (BitVec 2) 32 := Vector.ofFn fun i => if i.val < 12 then 2#2 else 1#2

/-- A core after core reset, its counter started at die cycle ck0 (R40). -/
def Core.fresh (cid ck0 : Nat) : Core :=
  { cid := cid, slots := Vector.replicate 17 none, runs := [], ents := Vector.replicate 8 none,
    gens := Vector.replicate 8 0#32, inlCount := 0#32, regUse := [], acc := Vector.replicate 4 Acc.zero, spall := [],
    active := none, shadow := .empty, mq := [], loads := 0, swaps := 0, pass := none, late := [],
    stallAt := none, groups := none, drain := none, mxsw := [],
    tiles := Vector.replicate 64 Tile.zero, cq := [], cqHalted := false, haltTok := 0, cqWait := false, cqFree := 0, xfers := [],
    eq := { d0 := 0#64, d1 := 0#64, d2 := 0#64, d3 := 0#64 }, bankMode := bankReset, waking := 0#32, fifos := [],
    l1 := [], tlb1 := [], tlb2 := [], mbox := [], lost := [], ibuf := [], mctl := 0#64, finj := 0#64, finjCnt := 0, sfb := 0#64,
    sfs := 0#64, wentry := 0#64, ptroot := 0#64, tvec := 0#64, rot := 15, walkerAt := none, ck0 := ck0,
    stopck := 0#64, msent := 0#64, mrecv := 0#64, sentCnt := 0, recvCnt := 0, errCnt := 0 }

def Ring.zero : Ring := { base := 0#64, size := 0#64, head := 0#32, tail := 0#32, stopped := false, placed := false }

/-- A partition's control block at reset: not valid, every word 0 (R365, R366, R389). -/
def Part.fresh (num : Nat) : Part :=
  { num := num, valid := false, sgs := 0#20, fatal := false, gsst := .running, gsEnded := false, swtime := 0#64,
    rings := Vector.replicate 8 Ring.zero, ctbase := 0#64, ctcnt := 0#64, hfqbase := 0#64, hfqsz := 0#64,
    hfqtail := 0#64, hfqhead := 0#64, dlbase := 0#64, dlsz := 0#64, dlcnt := 0#64, clbase := 0#64, clsz := 0#64,
    clcnt := 0#64, clovf := 0#64, cqsq := 0#64, nextSub := 0, regions := [], revs := [], versions := [], revCap := 0,
    heldWrites := [], joins := [], ranges := [], closed := [], pods := [], travBase := 0, travRoom := 0,
    saveBase := 0, msgRoom := 0, saved := [], savedQ := [], savedBars := [], msgs := [], pent := [], heldIn := [], arrivals := [], dispAt := 0 }

/-- A supergroup's queue at reset (R332). -/
def ContQ.fresh (sg : Nat) : ContQ :=
  { sg := sg, recs := [], spill := [], head := 0, cqsb := 0#64, cqsn := 0#64, stalled := false, posted := false }

/-- The device at reset: in ROM, every word 0 (R369), ports untrained, no route.  The clock is the reduced one (DESIGN CHOICE, log
entry 4). -/
def Device.fresh : Device :=
  { service := .rom, svn := 0, devid := 0, degr := 0, bar2 := 0#64, mailbox := [], mailErr := 0, flash := (0, 0), image := 0,
    trained := none, unsupported := 0, bar2Size := 2 ^ 36, hostRead := 0, msix := [], msixTable := [],
    ports := Vector.replicate 12 { up := false, half := false, failed := false, replays := 0 }, routes := [],
    viols := [], violCount := 0, events := [], mhz := Vector.replicate 4 600, retired := [], owners := [],
    errLimit := none, errSpan := 0, sliceErrs := [], hbmErrs := Vector.replicate 4 0, closed := [] }

def Cur.idle : Cur :=
  { cid := 0, slot := 0, res := .idle, aFlags := fNone, aDest := none, remote := false, addr := none, met := [], trap := none }

/-- The machine right after device reset: the boot ROM is about to run (R370). -/
def State.reset : State :=
  { now := 0, dieCyc := Vector.replicate 4 0, cores := [], mem := [], tags := [], bad := [], l2 := [], fams := [], slices := [],
    purges := [], reqs := [], bars := [], parts := [], contq := [], travs := [], dev := Device.fresh,
    agenda := [{ at_ := 0, what := .deviceReset }],
    inputs := [], turn := [], turnAt := 0, idle := [], cur := Cur.idle, evt := .deviceReset, ctr := 0, freeCtr := 0 }

end Sys2Proof.Machine
end

