-- ==== Sys2Proof/Machine/Ops.lean ====
section
/-! DEFINITION. The named operations of the machine: bytes and tags of memory, access to cores, threads and families,
the agenda, registers and their windows, taking a trap (R376, R377, R380) and committing a bundle (R41, R44, R46). -/

namespace Sys2Proof.Machine

/-! Bytes and tags of memory. -/

/-- The byte at a physical address; an unlisted byte reads 0 (DESIGN CHOICE, log entry 2). -/
def Memory.get : List Host.Cell → Nat → Byte
  | [], _ => 0#8
  | (k, b) :: rest, a => if k = a then b else if a < k then 0#8 else Memory.get rest a

/-- Writes one byte, keeping the list's form: addresses rising, no byte 0 listed. -/
def Memory.put : List Host.Cell → Nat → Byte → List Host.Cell
  | [], a, b => if b = 0#8 then [] else [(a, b)]
  | (k, c) :: rest, a, b =>
    if a < k then (if b = 0#8 then (k, c) :: rest else (a, b) :: (k, c) :: rest)
    else if a = k then (if b = 0#8 then rest else (a, b) :: rest)
    else (k, c) :: Memory.put rest a b

/-- The canonical form: addresses strictly above lo, rising, and no entry equal to what an unlisted address reads. -/
def Memory.wfFrom : Option Nat → List Host.Cell → Bool
  | _, [] => true
  | lo, (k, b) :: rest =>
    (match lo with
     | some l => decide (l < k)
     | none => true) && b != 0#8 && Memory.wfFrom (some k) rest

/-- The memory list is in canonical form. -/
def Memory.wf (m : List Host.Cell) : Bool := Memory.wfFrom none m

/-- n bytes from an address, lowest first. -/
def Memory.bytes (m : List Host.Cell) (a : Nat) : Nat → List Byte
  | 0 => []
  | n + 1 => Memory.get m a :: Memory.bytes m (a + 1) n

/-- Writes a list of bytes from an address up. -/
def Memory.putAll (m : List Host.Cell) (a : Nat) : List Byte → List Host.Cell
  | [] => m
  | b :: bs => Memory.putAll (Memory.put m a b) (a + 1) bs

/-- The little-endian number of a list of bytes (R6). -/
def leVal : List Byte → Nat
  | [] => 0
  | b :: bs => b.toNat + 256 * leVal bs

/-- The n low bytes of a number, least significant first (R6). -/
def toLe : Nat → Nat → List Byte
  | 0, _ => []
  | n + 1, v => BitVec.ofNat 8 v :: toLe n (v / 256)

/-- The n-byte number at an address (R6). -/
def Memory.val (m : List Host.Cell) (a n : Nat) : Nat := leVal (Memory.bytes m a n)

/-- Whether a word's tag is full (R170). -/
def Tags.full (t : List Nat) (w : Nat) : Bool := t.contains w

/-- Sets a word's tag full, keeping the list rising. -/
def Tags.set : List Nat → Nat → List Nat
  | [], w => [w]
  | k :: rest, w => if w < k then w :: k :: rest else if w = k then k :: rest else k :: Tags.set rest w

/-- Sets a word's tag empty. -/
def Tags.clear (t : List Nat) (w : Nat) : List Nat := t.filter (· != w)

def Tags.put (t : List Nat) (w : Nat) (full : Bool) : List Nat := if full then Tags.set t w else Tags.clear t w

/-! Cores and threads. -/

/-- The die of a core (R3). -/
def dieOf (cid : Nat) : Nat := cid / 320

/-- The supergroup of a core, 0 to 19 over the device (R3, R365). -/
def sgOf (cid : Nat) : Nat := cid / 64

def groupOf (cid : Nat) : Nat := cid / 16

def quadOf (cid : Nat) : Nat := cid / 4

/-- A core; one not listed stands as core reset left it (R40). -/
def State.core (s : State) (cid : Nat) : Core := (s.cores.find? fun c => c.cid == cid).getD (Core.fresh cid 0)

/-- Puts a core into the list, which rises by cid. -/
def putCore : List Core → Core → List Core
  | [], c => [c]
  | x :: rest, c => if c.cid < x.cid then c :: x :: rest else if c.cid = x.cid then c :: rest else x :: putCore rest c

def State.setCore (s : State) (c : Core) : State := { s with cores := putCore s.cores c }

def State.updCore (s : State) (cid : Nat) (f : Core → Core) : State := s.setCore { f (s.core cid) with cid := cid }

/-- The thread in a slot; slots are 0 to 16. -/
def Core.thread (c : Core) (slot : Nat) : Option Thread := if h : slot < 17 then c.slots[slot] else none

def Core.setThread (c : Core) (slot : Nat) (t : Option Thread) : Core :=
  if h : slot < 17 then { c with slots := c.slots.set slot t } else c

def State.thread (s : State) (cid slot : Nat) : Option Thread := (s.core cid).thread slot

def State.setThread (s : State) (cid slot : Nat) (t : Option Thread) : State :=
  s.updCore cid fun c => c.setThread slot t

def State.updThread (s : State) (cid slot : Nat) (f : Thread → Thread) : State :=
  match s.thread cid slot with
  | some t => s.setThread cid slot (some (f t))
  | none => s

/-- The thread a request left, if it still stands in its slot or waits there below an inline run. -/
def State.whoThread (s : State) (w : Who) : Option Thread :=
  match s.thread w.cid w.slot with
  | some t =>
    if t.uid = w.uid then some t
    else ((s.core w.cid).runs.find? fun r => r.slot == w.slot && r.creator.uid == w.uid).map (·.creator)
  | none => ((s.core w.cid).runs.find? fun r => r.slot == w.slot && r.creator.uid == w.uid).map (·.creator)

def State.updWho (s : State) (w : Who) (f : Thread → Thread) : State :=
  s.updCore w.cid fun c =>
    match c.thread w.slot with
    | some t =>
      if t.uid = w.uid then c.setThread w.slot (some (f t))
      else { c with runs := c.runs.map fun r =>
              if r.slot == w.slot && r.creator.uid == w.uid then { r with creator := f r.creator } else r }
    | none => { c with runs := c.runs.map fun r =>
                  if r.slot == w.slot && r.creator.uid == w.uid then { r with creator := f r.creator } else r }

/-- Changes the thread of a serial number wherever it stands: in a slot, below an inline run, travelling, or in a queue's record. -/
def State.updUid (s : State) (uid : Nat) (f : Thread → Thread) : State :=
  let g (t : Thread) : Thread := if t.uid = uid then f t else t
  let rec' (r : ContRec) : ContRec := { r with traveller := r.traveller.map g }
  { s with
    cores := s.cores.map fun c =>
      { c with slots := c.slots.map fun o => o.map g, runs := c.runs.map fun r => { r with creator := g r.creator } }
    travs := s.travs.map fun v => { v with thread := g v.thread }
    contq := s.contq.map fun q => { q with recs := q.recs.map rec', spill := q.spill.map rec' }
    parts := s.parts.map fun p => { p with arrivals := p.arrivals.map rec' } }

/-- Changes the thread that a command left, which may have travelled since (R20, R142). -/
def State.updThere (s : State) (w : Who) (f : Thread → Thread) : State :=
  if (s.whoThread w).isSome then s.updWho w f else s.updUid w.uid f

/-- A thread of a serial number stands on a core. -/
def State.alive (s : State) (uid : Nat) : Bool :=
  s.cores.any fun c => c.slots.toList.any (fun o => o.any fun t => t.uid == uid) || c.runs.any fun r => r.creator.uid == uid

/-- The issuing thread. -/
def State.me (s : State) : Thread := (s.thread s.cur.cid s.cur.slot).getD Thread.blank

def State.updMe (s : State) (f : Thread → Thread) : State := s.updThread s.cur.cid s.cur.slot f

def State.myCore (s : State) : Core := s.core s.cur.cid

def State.updMyCore (s : State) (f : Core → Core) : State := s.updCore s.cur.cid f

def State.meWho (s : State) : Who := { cid := s.cur.cid, slot := s.cur.slot, uid := s.me.uid }

def State.fam (s : State) (uid : Nat) : Option Family := s.fams.find? fun f => f.uid == uid

def State.updFam (s : State) (uid : Nat) (f : Family → Family) : State :=
  { s with fams := s.fams.map fun x => if x.uid == uid then f x else x }

def State.slice (s : State) (uid : Nat) : Option Slice := s.slices.find? fun x => x.uid == uid

def State.updSlice (s : State) (uid : Nat) (f : Slice → Slice) : State :=
  { s with slices := s.slices.map fun x => if x.uid == uid then f x else x }

/-- A partition's record; one not listed stands as at reset. -/
def State.part (s : State) (n : Nat) : Part := (s.parts.find? fun p => p.num == n).getD (Part.fresh n)

def putPart : List Part → Part → List Part
  | [], p => [p]
  | x :: rest, p => if p.num < x.num then p :: x :: rest else if p.num = x.num then p :: rest else x :: putPart rest p

def State.updPart (s : State) (n : Nat) (f : Part → Part) : State :=
  { s with parts := putPart s.parts { f (s.part n) with num := n } }

/-- Whether a partition occupies its supergroups (R319): it is valid and not switched out. -/
def Part.occupies (p : Part) : Bool := p.valid && p.gsst != .out

def Part.hasSg (p : Part) (sg : Nat) : Bool := p.sgs.getLsbD sg

/-- The partition that occupies a core's supergroup (R319). -/
def State.partOf (s : State) (cid : Nat) : Option Part := s.parts.find? fun p => p.occupies && p.hasSg (sgOf cid)

def State.contQ (s : State) (sg : Nat) : ContQ := (s.contq.find? fun q => q.sg == sg).getD (ContQ.fresh sg)

def putContQ : List ContQ → ContQ → List ContQ
  | [], q => [q]
  | x :: rest, q => if q.sg < x.sg then q :: x :: rest else if q.sg = x.sg then q :: rest else x :: putContQ rest q

def State.updContQ (s : State) (sg : Nat) (f : ContQ → ContQ) : State :=
  { s with contq := putContQ s.contq { f (s.contQ sg) with sg := sg } }

def State.req (s : State) (tok : Nat) : Option Req := s.reqs.find? fun r => r.tok == tok

def State.updReq (s : State) (tok : Nat) (f : Req → Req) : State :=
  { s with reqs := s.reqs.map fun r => if r.tok == tok then f r else r }

def State.updDev (s : State) (f : Device → Device) : State := { s with dev := f s.dev }

/-- A new serial number. -/
def State.fresh (s : State) : Nat × State := (s.ctr, { s with ctr := s.ctr + 1 })

/-! The agenda. -/

/-- Inserts a due step behind every step due no later. -/
def insDue (d : Due) : List Due → List Due
  | [] => [d]
  | x :: rest => if d.at_ < x.at_ then d :: x :: rest else x :: insDue d rest

/-- The step i is due at cycle at_. -/
def State.atCycle (s : State) (at_ : Nat) (i : Ev) : State :=
  { s with agenda := insDue { at_ := at_, what := i } s.agenda }

/-- The device cycle in which a die has the n-th of its own cycles after device cycle t: at f MHz, cycle m of the device is
one of the die's where (m + 1)·f / 1200 passes a whole number (R374). -/
def State.dieAfter (s : State) (die t n : Nat) : Nat :=
  let f := if h : die < 4 then s.dev.mhz[die] else 1200
  if f = 0 then t + n else max t ((((t + 1) * f / 1200 + n) * 1200 + f - 1) / f - 1)

/-- Device cycles from now to the n-th cycle of a die's clock (R374). -/
def State.ticks (s : State) (die n : Nat) : Nat := s.dieAfter die s.now n - s.now

/-- The step i is due n cycles of core cid later. -/
def State.after (s : State) (cid n : Nat) (i : Ev) : State := s.atCycle (s.now + s.ticks (dieOf cid) n) i

/-- A core's cycles so far, of its die's clock. -/
def State.dieNow (s : State) (cid : Nat) : Nat := if h : dieOf cid < 4 then s.dieCyc[dieOf cid] else 0

/-- The device cycle in which a core's die counts its n-th cycle; now, where it has counted it. -/
def State.atDie (s : State) (cid n : Nat) : Nat :=
  if n ≤ s.dieNow cid then s.now else s.dieAfter (dieOf cid) s.now (n - s.dieNow cid)

/-- The step i is the next. -/
def State.urgent (s : State) (i : Ev) : State := { s with agenda := { at_ := s.now, what := i } :: s.agenda }

/-- What a core's threads wait for has come behind its turn, in which it issued nothing: it has another (R299). -/
def State.again (s : State) (cid : Nat) : State :=
  if s.idle.contains cid then { s with turn := s.turn ++ [cid], idle := s.idle.erase cid } else s

/-- Drops due steps. -/
def State.dropDue (s : State) (p : Ev → Bool) : State := { s with agenda := s.agenda.filter fun d => !p d.what }

/-- Device time in ns since reset (R7, R21): 12 cycles take 10 ns. -/
def State.tsc (s : State) : Nat := s.now * 10 / 12

/-- A core's cycle counter (R16). -/
def State.ck (s : State) (cid : Nat) : W64 :=
  let d := dieOf cid
  BitVec.ofNat 64 ((if h : d < 4 then s.dieCyc[d] else 0) - (s.core cid).ck0)

/-- A core has sent, or received, n fabric messages (R388). -/
def State.sentMsgs (s : State) (cid n : Nat) : State :=
  if n = 0 then s else s.updCore cid fun c => { c with sentCnt := c.sentCnt + n }

def State.gotMsgs (s : State) (cid n : Nat) : State :=
  if n = 0 then s else s.updCore cid fun c => { c with recvCnt := c.recvCnt + n }

/-- Posts an event record to the management controller. -/
def State.event (s : State) (what : String) (a b : Nat) : State :=
  s.updDev fun d => { d with events := d.events ++ [{ what := what, a := a, b := b, time := s.tsc }] }

/-- Appends a violation-log entry; the log has 2,047 places, and a new entry overwrites the oldest (R387). -/
def State.violation (s : State) (src acc part cid slot addr tag : Nat) : State :=
  s.updDev fun d =>
    let e : Violation :=
      { d0 := BitVec.ofNat 64 addr
        d1 := BitVec.ofNat 64 (src * 2 ^ 61 + acc * 2 ^ 32 + part * 2 ^ 27 + cid * 2 ^ 16 + slot)
        d2 := BitVec.ofNat 64 s.tsc, d3 := BitVec.ofNat 64 tag }
    { d with
      violCount := d.violCount + 1
      viols := if d.violCount < 2047 then d.viols ++ [e] else d.viols.set (d.violCount % 2047) e }

/-! Families, owners and slices. -/

/-- A family and every family created within it, to any depth.  A family stands in the list behind its parent. -/
def State.famsWithin (s : State) (roots : Family → Bool) : List Nat :=
  s.fams.foldl (fun acc f =>
    if roots f || (match f.parentFam with
                   | some p => acc.contains p
                   | none => false) then acc ++ [f.uid] else acc) []

/-- The owner of a thread: the nearest enclosing task, else its slice (R33). -/
def State.taskOf (s : State) (t : Thread) : Option Family :=
  match t.fam with
  | some f => (s.fam f).bind fun x => x.task.bind s.fam
  | none => none

/-- The owner tag of R379: a slice's TAG, or a task's partition and revision id. -/
def State.ownerTag (s : State) (t : Thread) : Nat :=
  match s.taskOf t with
  | some f => 2 ^ 32 + f.part * 2 ^ 8 + f.rev.getD 0
  | none =>
    match t.slice.bind s.slice with
    | some sl => (sl.words.getD 6 0#64).toNat % 2 ^ 32
    | none => 0

/-- The parts of a slice record (R320). -/
def Slice.word (sl : Slice) (i : Nat) : Nat := (sl.words.getD i 0#64).toNat

def Slice.budget (sl : Slice) : Nat := sl.word 3 % 2 ^ 48

def Slice.tag (sl : Slice) : Nat := sl.word 6 % 2 ^ 32

/-! Traps. -/

/-- Whether a cause is of the replay class (R378). -/
def replayClass (cause : Nat) : Bool := (decide (0x30 ≤ cause) && decide (cause ≤ 0x33)) || cause == 0x4C || cause == 0x4E

/-- The cycles from a death to its completed purge, within the 400 of R380 (DESIGN CHOICE, log entry 6). -/
def purgeDelay : Nat := 20

/-- Every member of the family has ended, whether or not its creator has had the notice (R25, R138; DEDUCED, log entry 61). -/
def FamState.over : FamState → Bool
  | .ending => true
  | .done => true
  | _ => false

/-- Stops every thread of the families named: none issues any further bundle, and no further member starts (R380 step 2). -/
def State.stopThreads (s : State) (fams : List Nat) : State :=
  let stop : Thread → Thread := fun t =>
    match t.fam with
    | some f => if fams.contains f then { t with hold := .wait .stopped } else t
    | none => t
  { s with
    cores := s.cores.map fun c =>
      { c with
        slots := c.slots.map fun o => o.map stop
        runs := c.runs.map fun r => { r with creator := stop r.creator } }
    fams := s.fams.map fun f => if fams.contains f.uid && !f.st.over then { f with st := .purging } else f }

/-- Records the death of a task or a slice, or the start of a task's replay, stops its threads and starts the purge
(R380, R385). -/
def State.startPurge (s : State) (task : Option Family) (slice : Option Nat) (cause : Nat) (cid slot pc addr : Nat) :
    State :=
  let (tok, s) := s.fresh
  match task with
  | some f =>
    if f.ended != .none || f.st == .purging || f.synced then
      -- the first death or kill decides, and a later cause is discarded (R380, R383)
      s.stopThreads (s.famsWithin fun x => x.uid == f.uid)
    else
      let replay := replayClass cause && !f.side && decide (f.replay < 3) && !f.st.over
      let s := s.updFam f.uid fun x => { x with st := .purging, ended := if replay then .none else .died cause }
      let s := s.stopThreads (s.famsWithin fun x => x.uid == f.uid)
      let s := { s with purges := s.purges ++
        [({ tok := tok, fam := some f.uid, slice := slice, cause := cause, replay := replay, cid := cid, slot := slot,
            pc := pc, addr := addr, time := s.tsc } : Purge)] }
      s.after cid purgeDelay (.purgeComplete tok)
  | none =>
    match slice.bind s.slice with
    | some sl =>
      if sl.st == .ended || s.purges.any fun p => p.fam.isNone && p.slice == some sl.uid then
        s.stopThreads (s.famsWithin fun x => x.slice == some sl.uid)
      else
        let s := s.stopThreads (s.famsWithin fun x => x.slice == some sl.uid)
        let s := { s with purges := s.purges ++
          [({ tok := tok, fam := none, slice := some sl.uid, cause := cause, replay := false, cid := cid, slot := slot,
              pc := pc, addr := addr, time := s.tsc } : Purge)] }
        s.after cid purgeDelay (.purgeComplete tok)
    | none => s

/-- estat at a cause: the level to return to is system (R377). -/
def estatOf (cause : Nat) : W64 := BitVec.ofNat 64 (0x100 + cause)

/-- When the last of a thread's results in flight lands, where one has not landed yet. -/
def Thread.landsAt (t : Thread) (now : Nat) : Option Nat :=
  match (t.flights.map (·.land)).max? with
  | some l => if now < l then some l else none
  | none => none

/-- The thread of a system-level trap in a program slot at cycle now: it enters tvec once its results in flight have landed, or
halts on a nested cause (R48, R377).  An extension pending for its bundle is kept for the return to it (R58; DEDUCED, log entry
63). -/
def Thread.trapSteward (t : Thread) (now : Nat) (tvec : W64) (cause addr : Nat) : Thread :=
  if t.csr.estat.extractLsb' 0 8 != 0#8 then { t with hold := .wait .halted, stall := none }
  else
    { t with
      csr := { t.csr with estat := estatOf cause, epc := t.pc, eaddr := BitVec.ofNat 64 addr }
      kext := none, kextKept := t.kext, pc := tvec, stall := t.landsAt now, hold := .none }

/-- The walker's thread after a cause: its registers written, the slot halted at the faulting bundle (R377). -/
def Thread.trapWalker (t : Thread) (cause addr : Nat) : Thread :=
  { t with
    csr := { t.csr with estat := estatOf cause, epc := t.pc, eaddr := BitVec.ofNat 64 addr }
    hold := .wait .halted, stall := none }

/-- Taking a trap at the issuing slot's bundle: the walker halts, steward code enters its handler, and at user level the
thread's owner dies or is replayed (R376, R377, R380). -/
def State.takeTrap (s : State) (stage cause addr : Nat) : State :=
  let t := s.me
  let s := { s with cur := { s.cur with res := .trapped stage, trap := some { cause := cause, addr := addr } } }
  if s.cur.slot = 16 then
    (s.updMe fun t => t.trapWalker cause addr).event "walker halted" s.cur.cid cause
  else if t.sys then
    let nested := t.csr.estat.extractLsb' 0 8 != 0#8
    let s' := s.updMe fun t => t.trapSteward s.now s.myCore.tvec cause addr
    if nested then s'.event "nested cause" s.cur.cid cause
    else
      match t.landsAt s.now with
      | some l => s'.atCycle l (.stallCountExpiry s.cur.cid s.cur.slot l)
      | none => s'
  else
    let s := s.updMe fun t => { t with hold := .wait .stopped, stall := none }
    -- a spent budget ends the slice, whatever task the thread is in (R325, R328)
    s.startPurge (if cause = 0x47 then none else s.taskOf t) t.slice cause s.cur.cid s.cur.slot t.pc.toNat addr

/-- The address recorded with a cause that an access meets: its own for a memory cause, 0 for any other (R375). -/
def memAddr (cause va : Nat) : Nat := if 0x20 ≤ cause && cause < 0x40 then va else 0

/-! The three early ends of a bundle: a trap, not ready, held. -/

/-- Abandons the bundle and delivers the cause (R10). -/
def raise {α : Type} (s : State) (stage cause addr : Nat) : Except State α := .error (s.takeTrap stage cause addr)

/-- The bundle does not issue in this cycle (R14). -/
def notReady {α : Type} (s : State) : Except State α := .error { s with cur := { s.cur with res := .notReady } }

/-- The bundle has issued and holds its thread; it commits when request tok ends the hold (R336). -/
def holdOn {α : Type} (s : State) (tok : Nat) : Except State α :=
  .error ({ s with cur := { s.cur with res := .held } }.updMe fun t =>
    { t with hold := .busy tok, issuedAt := match t.hold with
        | .done _ => t.issuedAt
        | _ => s.now })

/-- The state a meaning ends in. -/
def run (r : Except State State) : State :=
  match r with
  | .ok s => s
  | .error s => s

/-! Registers and their windows. -/

/-- The scalar window's size G + S + L (R15). -/
def Thread.window (t : Thread) : Nat := t.g + t.sh + t.l

/-- Whether a scalar field names a register outside the thread's window (R15). -/
def Thread.outside (t : Thread) : SReg → Bool
  | .s n => decide (t.window ≤ n.toNat)
  | .d n => decide (t.sh ≤ n.toNat)
  | _ => false

/-- Whether a scalar field names a register that a program may not write: d, ix, ci, fd, ck, a global (R15). -/
def Thread.readOnly (t : Thread) : SReg → Bool
  | .s n => decide (n.toNat < t.g)
  | .zr => false
  | _ => true

/-- The register cells that a scalar field names, where it has any. -/
def Thread.cell (t : Thread) : SReg → Option SCell
  | .s n => some (t.regs.s.get n.toFin)
  | .d n => some (t.regs.d.get n.toFin)
  | _ => none

/-- The value a scalar field reads (R13, R16). -/
def State.regVal (s : State) (r : SReg) : W64 :=
  let t := s.me
  match r with
  | .s n => (t.regs.s.get n.toFin).val
  | .d n => (t.regs.d.get n.toFin).val
  | .zr => 0#64
  | .ix => t.ix
  | .ci => BitVec.ofNat 64 s.cur.cid
  | .fd => t.fd
  | .ck => s.ck s.cur.cid

def State.vecVal (s : State) (n : VReg) : VWord := (s.me.regs.v.get n.toFin).val

/-- A mask's value; m0 reads all ones (R18). -/
def State.maskVal (s : State) (n : MReg) : MWord := if n = 0#2 then BitVec.allOnes 128 else s.me.regs.m.get n.toFin

/-- Places a cell in a scalar register of the thread. -/
def Thread.setS (t : Thread) (n : BitVec 4) (c : SCell) : Thread :=
  { t with regs := { t.regs with s := t.regs.s.set n.toFin c } }

def Thread.setD (t : Thread) (n : BitVec 3) (c : SCell) : Thread :=
  { t with regs := { t.regs with d := t.regs.d.set n.toFin c } }

def Thread.setV (t : Thread) (n : BitVec 4) (c : VCell) : Thread :=
  { t with regs := { t.regs with v := t.regs.v.set n.toFin c } }

/-- Writes a mask; writes to m0 are discarded (R18). -/
def Thread.setM (t : Thread) (n : BitVec 2) (v : MWord) : Thread :=
  if n = 0#2 then t else { t with regs := { t.regs with m := t.regs.m.set n.toFin v } }

/-- A register written: its value and presence (R14). -/
def SCell.full (v : W64) : SCell := { val := v, pres := true, pend := false, fail := none }

def VCell.full (v : VWord) : VCell := { val := v, pres := true, pend := false, fail := none }

/-- A destination that awaits a long-latency result: presence clear, pending (R14). -/
def SCell.await (c : SCell) : SCell := { c with pres := false, pend := true, fail := none }

def VCell.await (c : VCell) : VCell := { c with pres := false, pend := true, fail := none }

/-- The registers that an instruction reads and writes, and its fixed-latency writes with their latencies. -/
structure Uses where
  sr : List SReg
  sw : List SReg
  vr : List VReg
  vw : List VReg
  mr : List MReg
  mw : List MReg
  pw : List (FDest × Nat)

/-- No registers. -/
def Uses.none : Uses := { sr := [], sw := [], vr := [], vw := [], mr := [], mw := [], pw := [] }

/-- The fixed-latency write of a scalar field; one to zr is discarded (R148). -/
def SReg.dest (r : SReg) (lat : Nat) : List (FDest × Nat) :=
  match r with
  | .s n => [(.s n, lat)]
  | _ => []

/-- The fixed-latency write of a mask; one to m0 is discarded (R18). -/
def maskDest (n : MReg) (lat : Nat) : List (FDest × Nat) := if n = 0#2 then [] else [(.m n, lat)]

/-- The slots of a bundle. -/
inductive Slot where
  | c
  | a
  deriving DecidableEq, Repr

/-- The stage of a slot's decode faults, and that of its execution faults, in the order of R45. -/
def Slot.decode : Slot → Nat
  | .c => 2
  | .a => 3

def Slot.exec : Slot → Nat
  | .c => 6
  | .a => 7

/-- RSVREG_C and RSVREG_A (R378). -/
def Slot.rsvreg : Slot → Nat
  | .c => 0x04
  | .a => 0x05

/-- Whether a flight writes a register field. -/
def FDest.isS : FDest → SReg → Bool
  | .s n, .s k => n == k
  | _, _ => false

/-- The flights that a bundle's reads and writes can meet: those of earlier bundles (R47). -/
def Thread.olderFlights (t : Thread) : List Flight := t.flights.filter fun f => f.ep != t.issues

/-- A fixed-latency write of latency lat meets an older flight to the same register that lands later (R47). -/
def Thread.overtakes (t : Thread) (now lat : Nat) (d : FDest) : Bool :=
  t.olderFlights.any fun f => f.dst == d && decide (now + lat < f.land)

/-- A field names a dependent whose value another core sent and which has not been read yet (R36 rule 5). -/
def Thread.unacquired (t : Thread) : SReg → Bool
  | .d n => t.acqs.getLsbD n.toNat
  | _ => false

/-- The invalidation of an acquire at quad scope or wider: the core's clean lines go (R171); bytes still dirty stay. -/
def State.acqInval (s : State) (cid : Nat) : State :=
  s.updCore cid fun c =>
    { c with l1 := (c.l1.filter fun l => l.dirty != 0#32).map fun l => { l with valid := l.dirty } }

/-- An acquire of a thread at quad scope or wider: the invalidation, which takes 4 cycles (R171). -/
def State.acquire (s : State) (w : Who) : State :=
  (s.acqInval w.cid).updWho w fun t => { t with acqUntil := max t.acqUntil (s.now + s.ticks (dieOf w.cid) 4) }

/-- The first read of dependents that another core sent is an acquire (R36 rule 5): it is made, and the bundle is run again. -/
def State.firstReads (s : State) (rs : List SReg) : State :=
  let s1 := (s.acquire s.meWho).updMe fun t => rs.foldl (fun t r =>
    match r with
    | .d n => { t with acqs := t.acqs &&& ~~~(1#8 <<< n.toNat) }
    | _ => t) t
  { s1 with cur := { s1.cur with res := .notReady } }

/-- The checks that every instruction makes on its registers: the window and ROWRITE at decode, readiness, failed
destinations, and with chk the reads of results in flight and the writes that would land before an older one (R14, R15, R36,
R45, R47, R169). -/
def gate (sl : Slot) (u : Uses) (s : State) : Except State Unit :=
  let t := s.me
  if u.sr.any t.outside || u.sw.any t.outside || u.vr.any (fun n => decide (t.vn ≤ n.toNat)) ||
      u.vw.any (fun n => decide (t.vn ≤ n.toNat)) then raise s sl.decode sl.rsvreg 0
  else if u.sw.any t.readOnly then raise s sl.decode 0x06 0
  else
    let scells := u.sr.filterMap t.cell
    let vcells := u.vr.map fun n => t.regs.v.get n.toFin
    let early := t.csr.chk.getLsbD 0 &&
      (t.olderFlights.any (fun f => u.sr.any f.dst.isS || u.vr.any (fun n => f.dst == .v n) || u.mr.any (fun n => f.dst == .m n)) ||
        u.pw.any fun p => t.overtakes s.now (s.ticks (dieOf s.cur.cid) p.2) p.1)
    -- a failed destination ends its read with the cause held for it
    match (scells.filterMap (·.fail) ++ vcells.filterMap (·.fail)).head? with
    | some f => if early then raise s 5 0x0A 0 else raise s sl.exec f.cause f.addr
    | none =>
      if scells.any (fun c => !c.pres) || vcells.any (fun c => !c.pres) ||
          (u.sw.filterMap t.cell).any (·.pend) ||
          (u.vw.map fun n => t.regs.v.get n.toFin).any (·.pend) then notReady s
      else if early then raise s 5 0x0A 0
      else if u.sr.any t.unacquired then .error (s.firstReads u.sr)
      else .ok ()

/-! Results. -/

/-- Records a fixed-latency result of the issuing bundle, due lat cycles later, and checks it against older flights
(R46, R47). -/
def produce (s : State) (dst : FDest) (val mask : VWord) (lat : Nat) : Except State State :=
  let t := s.me
  let lat' := s.ticks (dieOf s.cur.cid) lat
  if t.csr.chk.getLsbD 0 && t.overtakes s.now lat' dst then raise s 5 0x0A 0
  else
    let (n, s) := s.fresh
    let s := s.updMe fun t =>
      { t with flights := t.flights ++
          [{ n := n, dst := dst, val := val, mask := mask, land := s.now + lat', ep := t.issues }] }
    .ok (s.atCycle (s.now + lat') (.fixedLatencyWriteback s.cur.cid s.cur.slot n))

/-- A fixed-latency scalar result; a write to zr is discarded (R148). -/
def produceS (s : State) (rd : SReg) (v : W64) (lat : Nat) : Except State State :=
  match rd with
  | .s n => produce s (.s n) (v.zeroExtend 4096) (BitVec.allOnes 4096) lat
  | _ => .ok s

/-- A fixed-latency mask result; a write to m0 is discarded (R18). -/
def produceM (s : State) (md : MReg) (v mask : MWord) (lat : Nat) : Except State State :=
  if md = 0#2 then .ok s else produce s (.m md) (v.zeroExtend 4096) (mask.zeroExtend 4096) lat

/-! Commitment of a bundle. -/

/-- The kinds of C-slot instruction that a pending extension serves (R58). -/
inductive ExtUse where
  /-- A lone LI, ADDI or CM form: consumes the extension. -/
  | takes
  /-- EXT itself: replaces the extension. -/
  | replaces
  /-- Any other instruction: discards the extension. -/
  | drops
  deriving DecidableEq, Repr

/-- The fst of a thread whose bundle commits: W joins where the bundle sets it (R43, R58). -/
def Thread.fstAfter (t : Thread) (fl : Flags) (ext : ExtUse) (w : Bool) : W64 :=
  t.csr.fst ||| BitVec.zeroExtend 64 (fl ||| (if w || (t.kext.isSome && ext != .takes) then fW else fNone))

/-- When the bundle issued first. -/
def Thread.firstIssue (t : Thread) (now : Nat) : Nat :=
  match t.hold with
  | .done _ => t.issuedAt
  | _ => now

/-- The thread of a bundle that commits at cycle now and whose stall count ends at cycle due (R41, R43, R46, R58). -/
def Thread.afterCommit (t : Thread) (now due : Nat) (fl : Flags) (h : Hdr) (ext : ExtUse) (w : Bool) (next : W64) : Thread :=
  { t with
    csr := { t.csr with fst := t.fstAfter fl ext w }
    kext := none
    pc := next
    hold := .none
    issues := t.issues + 1
    stall := if h.st != 0#3 && decide (now < due) then some due else none }

/-- The cycle from which the issuing thread may issue again after a bundle of stall count ST (R46). -/
def State.stallEnd (s : State) (h : Hdr) : Nat :=
  s.dieAfter (dieOf s.cur.cid) (s.me.firstIssue s.now) (h.st.toNat + 1)

/-- How long the commitments of other cores stay recorded: 64 cycles of the slowest die (R327). -/
def State.budWindow (s : State) : Nat := (s.dev.mhz.toList.map fun f => if f = 0 then 64 else 64 * 1200 / f + 2).foldl max 64

/-- Commits the bundle of a C-slot instruction: its flags and W, the pending extension, the PC, the stall count, the
bundle count of its slice (R41, R43, R46, R58, R327).  w says that the instruction itself sets W. -/
def commit (s : State) (h : Hdr) (ext : ExtUse) (w : Bool) (next : W64) : State :=
  let t := s.me.afterCommit s.now (s.stallEnd h) s.cur.aFlags h ext w next
  let s1 := s.updMe fun _ => t
  let s2 := match t.slice with
    | some k => if s.cur.slot = 16 then s1 else s1.updSlice k fun sl =>
        { sl with issued := sl.issued + 1
                  recent := (s.cur.cid, s.me.firstIssue s.now) :: sl.recent.filter fun x => decide (s.now < x.2 + s.budWindow) }
    | none => s1
  let s3 := match t.stall with
    | some n => s2.atCycle n (.stallCountExpiry s.cur.cid s.cur.slot n)
    | none => s2
  { s3 with cur := { s3.cur with res := .committed } }

/-- Commits and goes on at the next bundle (R41). -/
def commitNext (s : State) (h : Hdr) (ext : ExtUse) (w : Bool) : State := commit s h ext w (s.me.pc + 8#64)

/-- A lone bundle whose instruction takes no literal sets W (R43). -/
def loneW (h : Hdr) : Bool := h.lit.isSome

/-- A bundle of a thread has issued, holds it, and has still to commit. -/
def State.underWay (s : State) (t : Thread) : Bool :=
  match t.hold with
  | .busy tok => !(s.req tok).any (·.err.isSome)
  | .done _ => true
  | _ => false

/-- Bundles of a slice, in slots other than the issuing one, that hold their threads and have still to commit. -/
def State.reserved (s : State) (k : Nat) : Nat :=
  (s.cores.map fun c => (List.range 17).countP fun i => !(c.cid == s.cur.cid && i == s.cur.slot) &&
    (c.thread i).any fun t => t.slice == some k && s.underWay t).sum

/-- The issuing thread's slice has issued all the bundles of its budget, those counted in that are under way (R327; DESIGN CHOICE,
log entry 43). -/
def State.overBudget (s : State) : Bool :=
  match s.me.slice.bind s.slice with
  | some sl => sl.budget != 0 && decide (sl.budget ≤ sl.issued + s.reserved sl.uid) && s.cur.slot != 16
  | none => false

/-- The checks of a C-slot instruction: its registers, then the slice's budget (R45, R327). -/
def gateC (u : Uses) (s : State) : Except State Unit :=
  match gate .c u s with
  | .error e => .error e
  | .ok () => if s.overBudget && (match s.me.hold with
      | .done _ => false
      | _ => true) then raise s 6 0x47 0 else .ok ()

end Sys2Proof.Machine
end

