-- ==== Sys2Proof/Machine/Flags.lean ====
section
/-! DEFINITION. The flag computations: sticky flags under the trap enables of fst (R20, R152), and the flag sets of
integer division and of the fallbacks (R62, R157). -/

namespace Sys2Proof.Machine

/-- The lowest-numbered flag of a set that fst enables to trap: its bit number, NV to IDZ (R20, R152). -/
def enabledFlag (fst : W64) (fl : Flags) : Option Nat :=
  (List.range 6).find? fun i => fl.getLsbD i && fst.getLsbD (16 + i)

/-- The flags of an A-slot instruction: the enabled one of lowest number traps, otherwise they join the bundle's flags,
which reach fst when it commits (R20, R45, R152). -/
def setFlags (s : State) (fl : Flags) : Except State State :=
  match enabledFlag s.me.csr.fst fl with
  | some i => raise s 7 (0x10 + i) 0
  | none => .ok { s with cur := { s.cur with aFlags := s.cur.aFlags ||| fl } }

/-- W where a combination of modifiers is executed by fallback (R62). -/
def wIf (b : Bool) : Flags := if b then fW else fNone

/-- IDZ where the divisor is zero (R157). -/
def idzIf {n : Nat} (b : BitVec n) : Flags := if b = 0#n then fIDZ else fNone

/-- Flags ORed into fst without a trap (R20). -/
def Thread.orFst (t : Thread) (fl : Flags) : Thread :=
  { t with csr := { t.csr with fst := t.csr.fst ||| fl.zeroExtend 64 } }

end Sys2Proof.Machine
end

