-- ==== Sys2Proof/Machine/Operands.lean ====
section
/-! DEFINITION. The operand forms: the second operand of the integer opcodes (R150), rounding modes (R53), the literal and
its extension (R58, R153), effective addresses (R167), and the vector operands (R54, R189). -/

namespace Sys2Proof

/-- The registers that a second operand names. -/
def Opnd2.regs : Opnd2 → List SReg
  | .reg rb _ => [rb]
  | .imm _ => []

/-- Whether the operation is the 32-bit one (R52). -/
def Opnd2.narrow : Opnd2 → Bool
  | .reg _ w => w
  | .imm _ => false

/-- IUN's modifier: whether the operation is the 32-bit one, and whether it is the fallback of R62. -/
def UOpnd.narrow : UOpnd → Bool
  | .std w => w
  | .imm _ => false

def UOpnd.fallback : UOpnd → Bool
  | .std _ => false
  | .imm _ => true

/-- N = 1 with RM ≠ 00 is the fallback of R62. -/
def FRnd.fallback (r : FRnd) : Bool := r.n && r.rm != 0#2

/-- Element width in bits (R54). -/
def VTy.bits : VTy → Nat
  | .f32 | .i32 | .n32 => 32
  | .bf16 | .f16 | .i16 => 16
  | .i8 | .n8 => 8

/-- Elements per register (R54). -/
def VTy.count (t : VTy) : Nat := 4096 / t.bits

/-- The floating format of a type. -/
def VTy.ff : VTy → Option Machine.FF
  | .f32 => some .f32
  | .bf16 => some .bf16
  | .f16 => some .f16
  | _ => none

def VTy.signed : VTy → Bool
  | .i32 | .i16 | .i8 => true
  | _ => false

def VSrc.vregs : VSrc → List VReg
  | .v n => [n]
  | .sc _ => []

def VSrc.sregs : VSrc → List SReg
  | .v _ => []
  | .sc r => [r]

end Sys2Proof

namespace Sys2Proof.Machine

/-- The second operand's value (R150). -/
def State.opnd2 (s : State) : Opnd2 → W64
  | .reg rb _ => s.regVal rb
  | .imm i => i.signExtend 64

/-- The rounding mode that fmode holds (R21). -/
def State.fmode (s : State) : RMode := RMode.ofBits (s.me.csr.fmode.extractLsb' 0 2)

/-- The rounding mode of a scalar floating instruction (R53). -/
def State.rmode (s : State) (r : FRnd) : RMode :=
  if r.rm != 0#2 then RMode.ofBits r.rm else if r.n then .rne else s.fmode

/-- A scalar floating operand: the f32 code in bits [31:0] (R151). -/
def f32Of (v : W64) : Nat := v.toNat % 2 ^ 32

/-- A bf16 or f16 operand in bits [15:0] (R151). -/
def h16Of (v : W64) : Nat := v.toNat % 2 ^ 16

/-- The literal of a lone bundle under a pending extension, or alone, sign-extended; the immediate field otherwise
(R58, R153). -/
def State.literal (s : State) {n : Nat} (h : Hdr) (imm : BitVec n) : W64 :=
  match h.lit with
  | none => imm.signExtend 64
  | some k =>
    match s.me.kext with
    | some x => (x.zeroExtend 64) <<< 32 ||| k.zeroExtend 64
    | none => k.signExtend 64

/-- As literal, for an instruction that takes no extension (R153). -/
def plainLiteral {n : Nat} (h : Hdr) (imm : BitVec n) : W64 :=
  match h.lit with
  | none => imm.signExtend 64
  | some k => k.signExtend 64

/-- What the instruction does to a pending extension: a lone form that takes one consumes it (R58). -/
def extUse (h : Hdr) : ExtUse := if h.lit.isSome then .takes else .drops

/-- The displacement of a CM form: dsp units of u bytes, or the lone literal (R50, R167). -/
def State.disp (s : State) (h : Hdr) (dsp : BitVec 5) (u : Nat) : W64 :=
  match h.lit with
  | none => BitVec.ofNat 64 (dsp.toNat * u)
  | some _ => s.literal h (0#12)

/-- The effective address of a CM form (R167). -/
def State.effAddr (s : State) (h : Hdr) (ra : SReg) (dsp : BitVec 5) (u : Nat) : W64 := s.regVal ra + s.disp h dsp u

/-! Vector operands. -/

/-- Element i of width w of a register (R17). -/
def elemAt (v : VWord) (w i : Nat) : Nat := (v.extractLsb' (w * i) w).toNat

/-- The elements of a register, lowest first. -/
def elems (v : VWord) (w n : Nat) : List Nat := (List.range n).map fun i => elemAt v w i

/-- The register whose elements of width w are given, lowest first (R17). -/
def packElems (w : Nat) : List Nat → Nat
  | [] => 0
  | x :: xs => x % 2 ^ w + 2 ^ w * packElems w xs

def vecOf (w : Nat) (xs : List Nat) : VWord := BitVec.ofNat 4096 (packElems w xs)

/-- The bits that a lane mask selects: lane i is bits [32i + 31 : 32i] (R18). -/
def laneBits (m : MWord) : VWord :=
  BitVec.ofNat 4096 (packElems 32 ((List.range 128).map fun i => if m.getLsbD i then 2 ^ 32 - 1 else 0))

/-- Whether element i of width w is active: its lane's mask bit is 1 (R18, R187). -/
def activeElem (m : MWord) (w i : Nat) : Bool := m.getLsbD (w * i / 32)

/-- The elements of the rb operand: a register's, or a scalar's low bits broadcast (R54, R189). -/
def State.vsrc (s : State) (b : VSrc) (w n : Nat) : List Nat :=
  match b with
  | .v r => elems (s.vecVal r) w n
  | .sc r => List.replicate n ((s.regVal r).toNat % 2 ^ w)

/-- A signed reading of an element. -/
def sElem (w x : Nat) : Int := if x < 2 ^ (w - 1) then x else (x : Int) - 2 ^ w

/-- The element code of an integer, wrapped to the width. -/
def wrapElem (w : Nat) (v : Int) : Nat := (v % (2 ^ w : Nat)).toNat

end Sys2Proof.Machine
end

