-- ==== Sys2Proof/Machine/Blocks.lean ====
section
/-! DEFINITION. Tagged blocks and their check (R75 to R80), and the elements of OCP MX data (R92 to R94). -/

namespace Sys2Proof.Machine

/-! The block check (R79). -/

def crcBit (c : Nat) : Nat := if c / 2 ^ 15 % 2 = 1 then Nat.xor (c * 2 % 2 ^ 16) 0x1021 else c * 2 % 2 ^ 16

def crcStep (c : Nat) (b : Byte) : Nat :=
  crcBit (crcBit (crcBit (crcBit (crcBit (crcBit (crcBit (crcBit (Nat.xor c (b.toNat * 2 ^ 8)))))))))

/-- CRC-16/CCITT of a list of bytes. -/
def crc16 (bs : List Byte) : Nat := bs.foldl crcStep 0xFFFF

/-! Blocks (R75 to R78). -/

/-- The header of a block: FMT and SCALE. -/
def blkFmt (bs : List Byte) : Nat := leVal (bs.take 2) % 64

def blkScale (bs : List Byte) : Nat := leVal (bs.take 2) / 64 % 1024

/-- Whether a FMT is well formed (R76). -/
def fmtOk (fmt : Nat) : Bool := decide (1 ≤ fmt) && decide (fmt ≤ 11)

/-- Element bits of a FMT; an ill-formed one counts as 60 elements of 8 bits, for VLDX (R76, R209) and in the array (R78; DESIGN
CHOICE, log entry 54). -/
def fmtBits (fmt : Nat) : Nat :=
  if fmt = 6 || fmt = 7 then 6 else if fmt = 8 || fmt = 9 then 4 else if fmt = 10 || fmt = 11 then 16 else 8

/-- Elements of a block of a FMT (R76). -/
def fmtCount (fmt : Nat) : Nat := 480 / fmtBits fmt

/-- The floating format of a FMT. -/
def fmtFF (fmt : Nat) : Option FF :=
  if fmt = 4 then some .e4m3 else if fmt = 5 then some .e5m2 else if fmt = 6 then some .e2m3
  else if fmt = 7 then some .e3m2 else if fmt = 8 then some .e2m1 else if fmt = 10 then some .bf16
  else if fmt = 11 then some .f16 else none

/-- The check of a whole block stands in its bytes 62 and 63 (R79). -/
def blkChecks (bs : List Byte) : Bool := leVal ((bs.drop 62).take 2) == crc16 (bs.take 62)

/-- The elements of a block; chk says that its page has CHK = 1 (R77, R79, R80). -/
def blkElems (bs : List Byte) (chk : Bool) : List Elem :=
  let fmt := blkFmt bs
  let sc := blkScale bs
  let w := fmtBits fmt
  let pay := leVal ((bs.drop 2).take 60)
  let good := fmtOk fmt && sc != 1023 && (!chk || blkChecks bs)
  (List.range (fmtCount fmt)).map fun i =>
    let c := pay / 2 ^ (w * i) % 2 ^ w
    { ok := good && !(fmt == 3 && ds8Reserved c), fmt := fmt, code := c, scale := sc }

/-- The integer that an integer element's code stands for. -/
def Elem.int (e : Elem) : Int :=
  if e.fmt = 1 then sElem 8 e.code else if e.fmt = 3 then ds8Val e.code else if e.fmt = 9 then sElem 4 e.code else e.code

/-- The value of a valid element without its scale (R77). -/
def Elem.raw (e : Elem) : FV :=
  match fmtFF e.fmt with
  | some f => f.val e.code
  | none => .fin (decide (e.int < 0)) e.int.natAbs 0

/-- An element converted to a floating format, with its scale (R69, R77, R80). -/
def Elem.toF (e : Elem) (dst : FF) (mode : RMode) : Nat × Flags :=
  if !e.ok then (dst.defNan, fNV)
  else
    match fmtFF e.fmt, e.raw with
    | _, .fin neg m x => dst.round mode { neg := neg, m := m, e := x + e.scale - 511, st := false }
    | some f, _ => convF f dst mode e.code
    | none, _ => (dst.defNan, fNV)

/-- An element converted to an integer in [lo, hi], with its scale (R69, R77, R80). -/
def Elem.toI (e : Elem) (lo hi : Int) (mode : RMode) : Int × Flags :=
  if !e.ok then (0, fNV)
  else
    match e.raw with
    | .nan => (0, fNV)
    | .inf neg => (if neg then lo else hi, fSAT)
    | .fin neg m x => roundInt mode lo hi { neg := neg, m := m, e := x + e.scale - 511, st := false }

/-- The range of an integer vector type. -/
def VTy.lo (t : VTy) : Int := if t.signed then -(2 ^ (t.bits - 1) : Nat) else 0

def VTy.hi (t : VTy) : Int := if t.signed then (2 ^ (t.bits - 1) : Nat) - 1 else (2 ^ t.bits : Nat) - 1

/-- An element as an element of a vector type: its code and the flags (R209). -/
def Elem.toTy (e : Elem) (ty : VTy) (mode : RMode) : Nat × Flags :=
  match ty.ff with
  | some f => e.toF f mode
  | none => ((wrapElem ty.bits (e.toI (VTy.lo ty) (VTy.hi ty) mode).1), (e.toI (VTy.lo ty) (VTy.hi ty) mode).2)

/-! OCP MX elements (R92, R210). -/

def MxElem.bits : MxElem → Nat
  | .e2m3 => 6
  | .e3m2 => 6
  | .e2m1 => 4
  | _ => 8

def MxElem.ff : MxElem → Option FF
  | .e4m3 => some .e4m3
  | .e5m2 => some .e5m2
  | .e2m3 => some .e2m3
  | .e3m2 => some .e3m2
  | .e2m1 => some .e2m1
  | .int8 => none

/-- An MX element with scale byte x and a further power of two, rounded to a format under RNE (R92 to R94, R210). -/
def mxRound (el : MxElem) (code x : Nat) (adj : Int) (dst : FF) : Nat × Flags :=
  if x = 255 then (dst.defNan, fNV)
  else
    match MxElem.ff el with
    | none =>
      let v := sElem 8 code
      dst.round .rne { neg := decide (v < 0), m := v.natAbs, e := (x : Int) - 133 + adj, st := false }
    | some f =>
      match f.val code with
      | .fin neg m e => dst.round .rne { neg := neg, m := m, e := e + x - 127 + adj, st := false }
      | _ => convF f dst .rne code

/-- Codes of width w packed continuously, low-order first, in a list of bytes (R92). -/
def packedCodes (bs : List Byte) (w n : Nat) : List Nat :=
  let v := leVal bs
  (List.range n).map fun i => v / 2 ^ (w * i) % 2 ^ w

end Sys2Proof.Machine
end

