-- ==== Sys2Proof/Machine/Home.lean ====
section
/-! DEFINITION. Where bytes live and how they are read and written: the physical map (R297, R298), L1 and L2 (R302, R304),
uncorrectable errors (R300, R306), revisions (R273, R308), latencies (R310), and translation with its checks (R167 to R169,
R311, R312). -/

namespace Sys2Proof.Machine

/-! The physical map. -/

/-- What a physical address names. -/
inductive Loc where
  | scratch (cid : Nat) (off : Nat)
  | dram (die : Nat)
  | remote (dev : Nat)
  | bad
  deriving DecidableEq, Repr

/-- The physical address of a core's scratchpad offset (R297, R301). -/
def scratchPa (cid off : Nat) : Nat :=
  Config.scratchBase + (cid / 320) * 2 ^ 29 + (cid / 64 % 5) * 2 ^ 26 + (cid / 16 % 4) * 2 ^ 24 +
    (cid / 4 % 4) * 2 ^ 22 + (cid % 4) * 2 ^ 20 + off

/-- The key under which the model holds a byte of another device's memory (R275). -/
def remoteKey (dev pa : Nat) : Nat := (dev + 1) * 2 ^ 48 + pa

/-- The bytes of device memory that exist in reduced service (R371). -/
def reducedBytes : Nat := 0x08000000

/-- The device has failed its die test: only the mailbox and the status answer (R370). -/
def Device.down (d : Device) : Bool := d.service == .failed && d.trained.isNone

/-- Device memory is die 0's L2: in reduced service, and where the die test has failed in it (R370, R371). -/
def Device.small (d : Device) : Bool := d.service == .reduced || d.down

/-- What a physical address names (R297); in reduced service only die 0's L2 is device memory (R371). -/
def State.loc (s : State) (pa : Nat) : Loc :=
  if 2 ^ 48 ≤ pa then .remote (pa / 2 ^ 48 - 1)
  else if pa < Config.memBytes then
    if s.dev.small && decide (reducedBytes ≤ pa) then .bad else .dram (pa / Config.dieBytes)
  else if Config.scratchBase ≤ pa && pa < Config.scratchBase + 2 ^ 31 then
    let x := pa - Config.scratchBase
    if x / 2 ^ 26 % 8 < 5 then
      .scratch (x / 2 ^ 29 * 320 + x / 2 ^ 26 % 8 * 64 + x / 2 ^ 24 % 4 * 16 + x / 2 ^ 22 % 4 * 4 + x / 2 ^ 20 % 4)
        (x % 2 ^ 20)
    else .bad
  else .bad

/-- The bucket of a device-memory address (R298). -/
def bucketOf (pa : Nat) : Nat :=
  Nat.xor (Nat.xor (pa / 2 ^ 8 % 1024) (pa / 2 ^ 18 % 1024)) (Nat.xor (pa / 2 ^ 28 % 1024) (pa / 2 ^ 38 % 1024))

/-- The slice that owns an address's bucket on its die (R298, R305). -/
def State.sliceOf (s : State) (die pa : Nat) : Nat :=
  match s.dev.owners.find? fun o => o.1 == die && o.2.1 == bucketOf pa with
  | some o => o.2.2
  | none => bucketOf pa % 32

/-- A home by number: an L2 slice, another device, a scratchpad bank, or the mesh that refuses an address (R352). -/
def State.homeOf (s : State) (pa : Nat) : Nat :=
  match s.loc pa with
  | .dram d => d * 32 + s.sliceOf d pa
  | .remote d => 1000 + d
  | .bad => 2000
  | .scratch c off => 10000 + c * 32 + off / 0x8000

/-- Whether port p works and stands in a route's mask (R358, R359). -/
def Device.usable (d : Device) (r : Route) (p : Nat) : Bool :=
  r.mask.getLsbD p && (if h : p < 12 then d.ports[p].up && !d.ports[p].failed else false)

/-- The port that a message to a device takes for a physical address (R358). -/
def State.portOf (s : State) (dev pa : Nat) : Option Nat :=
  match s.dev.routes.find? fun r => r.dev == dev with
  | none => none
  | some r =>
    let ps := (List.range 12).filter (s.dev.usable r)
    ps[Config.linkHash pa % ps.length]?

/-- The port over which an address of another device is reached now. -/
def State.portAt (s : State) (pa : Nat) : Option Nat :=
  match s.loc pa with
  | .remote d => s.portOf d pa
  | _ => none

/-! Uncorrectable errors (R300, R306; DESIGN CHOICE, log entry 31). -/

/-- The bytes under one ECC at an address: a 64-byte block of HBM, a 64-bit word of SRAM. -/
def eccSize (pa : Nat) : Nat := if pa < Config.memBytes then 64 else 8

/-- The first address of the unit of ECC that holds an address. -/
def eccUnit (pa : Nat) : Nat := pa / eccSize pa * eccSize pa

/-- n bytes at an address meet a unit with an uncorrectable error. -/
def State.spoilt (s : State) (pa n : Nat) : Bool :=
  s.bad.any fun u => decide (u < pa + n) && decide (pa < u + eccSize u)

/-! Bank modes (R31). -/

def Core.bank (c : Core) (b : Nat) : BitVec 2 := if h : b < 32 then c.bankMode[b] else 0#2

/-- Codes of R31. -/
def bankOff : BitVec 2 := 0#2

def bankCache : BitVec 2 := 1#2

def bankScratch : BitVec 2 := 2#2

def bankFifo : BitVec 2 := 3#2

/-- The banks that form L1's ways; one that is waking is not yet among them (R184, R302; DESIGN CHOICE, log entry 56). -/
def Core.ways (c : Core) : List Nat := (List.range 32).filter fun b => c.bank b == bankCache && !c.waking.getLsbD b

/-- The push window of a FIFO bank is its offsets 0x00 to 0x3F, the pop window 0x40 to 0x7F (R185). -/
def inPush (off n : Nat) : Bool := decide (off % 0x8000 + n ≤ 0x40)

def inPop (off n : Nat) : Bool := decide (0x40 ≤ off % 0x8000) && decide (off % 0x8000 + n ≤ 0x80)

/-! L2 (R304). -/

/-- The set of a line within its slice (R304). -/
def l2Set (line : Nat) : Nat := bucketOf (line * 256) / 32 * 32 + line * 256 / 2 ^ 18 % 32

/-- The sector bit of an address. -/
def sectorBit (pa : Nat) : BitVec 4 := BitVec.ofNat 4 (2 ^ (pa / 64 % 4))

/-- The bits of n bytes at an address within its 256-byte line. -/
def l2Mask (pa n : Nat) : BitVec 256 := BitVec.ofNat 256 ((2 ^ n - 1) * 2 ^ (pa % 256))

/-- The bytes of a line that the slice holds: those of filled sectors and those written (R304). -/
def L2Line.holds (l : L2Line) : BitVec 256 :=
  (List.range 4).foldl (fun m i => if l.sectors.getLsbD i then m ||| l2Mask (64 * i) 64 else m) l.wmask

def State.l2Line (s : State) (pa : Nat) : Option L2Line := s.l2.find? fun l => l.line == pa / 256

/-- Whether the home slice holds n bytes at an address; reduced service never misses (R304, R371). -/
def State.l2Hit (s : State) (pa : Nat) (n : Nat := 1) : Bool :=
  s.dev.small ||
    match s.l2Line pa with
    | some l => l2Mask pa n &&& ~~~l.holds == 0#256
    | none => false

/-- The address's sector is present, filled or written in part (R304). -/
def State.l2Sector (s : State) (pa : Nat) : Bool :=
  (s.l2Line pa).any fun l => l.sectors &&& sectorBit pa != 0#4 || l.wmask &&& l2Mask (pa / 64 * 64) 64 != 0#256

/-- The lines of the slice and set that a line falls in. -/
def State.l2Peers (s : State) (line : Nat) : List L2Line :=
  let d := line * 256 / Config.dieBytes
  s.l2.filter fun l => l.line * 256 / Config.dieBytes == d && l2Set l.line == l2Set line &&
    s.sliceOf d (l.line * 256) == s.sliceOf d (line * 256)

/-- The least recently used of a list of lines. -/
def oldestL2 : List L2Line → Option L2Line
  | [] => none
  | l :: rest =>
    match oldestL2 rest with
    | some m => if m.age < l.age then some m else some l
    | none => some l

/-- Uses an address's line, which takes sectors and written bytes; a new line evicts the least recently used one of a full
set (R304). -/
def State.l2Alloc (s : State) (pa : Nat) (sectors : BitVec 4) (wmask : BitVec 256) : State :=
  let (age, s) := s.fresh
  match s.l2Line pa with
  | some _ => { s with l2 := s.l2.map fun l =>
      if l.line == pa / 256 then { l with sectors := l.sectors ||| sectors, wmask := l.wmask ||| wmask, age := age } else l }
  | none =>
    let peers := s.l2Peers (pa / 256)
    let l2 := match (if peers.length < 16 then none else oldestL2 peers) with
      | some v => s.l2.filter fun l => l.line != v.line
      | none => s.l2
    { s with l2 := l2 ++ [{ line := pa / 256, sectors := sectors, wmask := wmask, under := [], age := age }] }

/-- Whether a page's CACHE field lets the home slice allocate (R304). -/
def allocates (cache : Nat) : Bool := cache == 0 || cache == 1

/-- A read of n bytes by a page with a CACHE field at their home: the line is used; a miss fills the sector where it is present
in part, or where the field lets it be allocated. -/
def State.l2Touch (s : State) (pa cache : Nat) (n : Nat := 1) : State :=
  match s.loc pa with
  | .dram _ =>
    if s.l2Hit pa n then (if (s.l2Line pa).isSome then s.l2Alloc pa 0#4 0#256 else s)
    else if s.l2Sector pa || allocates cache then s.l2Alloc pa (sectorBit pa) 0#256 else s
  | _ => s

/-- A write of n bytes at their home: it needs no fill, the sector's write mask takes the bytes (R304). -/
def State.l2Wrote (s : State) (pa cache n : Nat) : State :=
  match s.loc pa with
  | .dram _ => if s.l2Sector pa || allocates cache then s.l2Alloc pa 0#4 (l2Mask pa n) else s
  | _ => s

/-- Records the byte that HBM still holds under a byte about to become dirty in L2 (R181, R304). -/
def State.l2Dirty (s : State) (pa : Nat) : State :=
  { s with l2 := s.l2.map fun l =>
      if l.line == pa / 256 && l.holds.getLsbD (pa % 256) && !(l.under.any fun c => c.1 == pa) then
        { l with under := l.under ++ [(pa, Memory.get s.mem pa)] }
      else l }

/-! Revisions (R273, R308). -/

def Region.has (r : Region) (va : Nat) : Bool := decide (r.base ≤ va) && decide (va < r.base + r.size)

/-- The region of a snapshot that revisions an address: one whose merge type is not NONE (R245, R246). -/
def Rev.region (r : Rev) (va : Nat) : Option Region := r.snap.find? fun g => g.has va && g.merge != 0

def Part.rev (p : Part) (id : Nat) : Option Rev := p.revs.find? fun r => r.id == id

/-- The nearest revision, from one outward, whose snapshot revisions an address; fuel bounds the nesting (R273 rule 4). -/
def Part.levelFrom (p : Part) (va : Nat) : Nat → Option Nat → Option Nat
  | 0, _ => none
  | _ + 1, none => none
  | n + 1, some id =>
    match p.rev id with
    | some r => if (r.region va).isSome then some id else p.levelFrom va n r.parent
    | none => none

/-- As levelFrom, from a thread's or engine's revision. -/
def Part.level (p : Part) (inRev : Option Nat) (va : Nat) : Option Nat := p.levelFrom va (p.revs.length + 1) inRev

/-- Byte k of a block's data. -/
def blockByte (d : BitVec 512) (k : Nat) : Byte := d.extractLsb' (8 * k) 8

def setBlockByte (d : BitVec 512) (k : Nat) (b : Byte) : BitVec 512 :=
  (d &&& ~~~((0xFF#512) <<< (8 * k))) ||| ((b.zeroExtend 512) <<< (8 * k))

/-- The ancestor's byte for a revision: the nearest enclosing revising task's version at the CREATE, else its own
ancestor's, else memory as it stood (R273 rule 1). -/
def Part.ancByte (p : Part) (va pa : Nat) : Nat → Nat → Byte
  | 0, _ => 0#8
  | n + 1, id =>
    match p.rev id with
    | none => 0#8
    | some r =>
      match p.level r.parent va with
      | none => Memory.get r.mem0 pa
      | some q =>
        match r.vers0.find? fun v => v.rev == q && v.blk == pa / 64 with
        | some v => blockByte v.data (pa % 64)
        | none => p.ancByte va pa n q

def Part.anc (p : Part) (id va pa : Nat) : Byte := p.ancByte va pa (p.revs.length + 1) id

def Part.version (p : Part) (id pa : Nat) : Option Version :=
  p.versions.find? fun v => v.rev == id && v.blk == pa / 64

/-- The byte that a revision, or memory itself, holds (R273). -/
def State.byteAt (s : State) (part : Nat) (lvl : Option Nat) (va pa : Nat) : Byte :=
  match lvl with
  | none => Memory.get s.mem pa
  | some id =>
    let p := s.part part
    match p.version id pa with
    | some v => blockByte v.data (pa % 64)
    | none => p.anc id va pa

/-- n bytes at a home as a revision sees them. -/
def State.bytesAt (s : State) (part : Nat) (lvl : Option Nat) (va pa : Nat) : Nat → List Byte
  | 0 => []
  | n + 1 => s.byteAt part lvl va pa :: s.bytesAt part lvl (va + 1) (pa + 1) n

/-- Whether a write by a revision to a block needs a version that the store does not have (R308). -/
def State.storeFull (s : State) (part : Nat) (lvl : Option Nat) (pa : Nat) : Bool :=
  match lvl with
  | none => false
  | some id => ((s.part part).version id pa).isNone && decide ((s.part part).revCap ≤ (s.part part).versions.length)

/-- The version of a block that a revision gets at its first write (R308). -/
def State.newVersion (s : State) (part id va pa : Nat) : Version :=
  let bs := (List.range 64).map fun k =>
    ((s.part part).anc id (va - va % 64 + k) (pa - pa % 64 + k)).toNat
  { rev := id, va := va - va % 64, blk := pa / 64, data := BitVec.ofNat 512 (packElems 8 bs) }

/-- Full/empty waiters exist at a word. -/
def State.waitersAt (s : State) (pa : Nat) : Bool :=
  s.reqs.any fun r => r.st == .waiting && r.pa / 8 == pa / 8 &&
    (match r.kind with
     | .fe _ _ => true
     | _ => false)

/-- The ring of a partition whose tail line's TAIL dword starts at an address (R321). -/
def Ring.tailPa (r : Ring) : Nat := r.base.toNat + 64 * 2 ^ r.size.toNat

/-- Writes one byte at a home: into memory, with L2's record of HBM, or into a version that exists or is allocated. -/
def State.putByte (s : State) (part : Nat) (lvl : Option Nat) (va pa : Nat) (b : Byte) : State :=
  match lvl with
  | none =>
    let s := s.l2Dirty pa
    { s with mem := Memory.put s.mem pa b, bad := s.bad.filter (· != eccUnit pa) }
  | some id =>
    let p := s.part part
    let v := (p.version id pa).getD (s.newVersion part id va pa)
    let v' := { v with data := setBlockByte v.data (pa % 64) b }
    s.updPart part fun p =>
      { p with versions := (p.versions.filter fun x => !(x.rev == id && x.blk == pa / 64)) ++ [v'] }

def State.putBytesGo (s : State) (part : Nat) (lvl : Option Nat) (va pa : Nat) : List Byte → State
  | [] => s
  | b :: bs => (s.putByte part lvl va pa b).putBytesGo part lvl (va + 1) (pa + 1) bs

/-- The rings of every partition whose TAIL dword a write to memory touches: partition, ring (R321). -/
def State.tailsHit (s : State) (pa n : Nat) : List (Nat × Nat) :=
  s.parts.flatMap fun p => (List.range 8).filterMap fun k =>
    let r := if h : k < 8 then p.rings[k] else Ring.zero
    if p.valid && r.placed && decide (r.tailPa < pa + n) && decide (pa < r.tailPa + 8) then some (p.num, k)
    else none

/-- A write of a ring's TAIL dword is reported to the dispatcher (R321). -/
def State.tailReport (s : State) (lvl : Option Nat) (pa n : Nat) : State :=
  match lvl with
  | some _ => s
  | none =>
    (s.tailsHit pa n).foldl (fun s t =>
      let r := ((s.part t.1).rings.toList.getD t.2 Ring.zero)
      s.urgent (.tailLineWrite t.1 t.2 (BitVec.ofNat 64 (Memory.val s.mem r.tailPa 8)))) s

/-- A write to a partition's completion table may make a slice ready: the dispatcher looks again (R324). -/
def State.pendReport (s : State) (lvl : Option Nat) (pa n : Nat) : State :=
  match lvl with
  | some _ => s
  | none =>
    s.parts.foldl (fun s p =>
      if p.valid && decide (p.ctbase.toNat < pa + n) && decide (pa < p.ctbase.toNat + 8 * (p.ctcnt.toNat % 2 ^ 16)) &&
          s.slices.any (fun x => x.part == p.num && x.st == .waiting) then s.urgent (.sliceDispatch p.num) else s) s

/-- The change of a word with waiters, complete at cycle at_, is followed at once by their service (R174). -/
def State.wakeWaiters (s : State) (pa n at_ : Nat) : State :=
  (List.range ((pa % 8 + n + 7) / 8)).foldl (fun s k =>
    let w := (pa / 8 + k) * 8
    if s.waitersAt w then s.urgent (.feWaiterServed w at_) else s) s

/-- Writes bytes at a home, the write being complete at cycle at_. -/
def State.putBytesAt (s : State) (part : Nat) (lvl : Option Nat) (va pa at_ : Nat) (bs : List Byte) : State :=
  (((s.putBytesGo part lvl va pa bs).wakeWaiters pa bs.length at_).tailReport lvl pa bs.length).pendReport lvl pa bs.length

/-- Writes bytes at a home. -/
def State.putBytes (s : State) (part : Nat) (lvl : Option Nat) (va pa : Nat) (bs : List Byte) : State :=
  s.putBytesAt part lvl va pa s.now bs

/-! Side effects of tasks (R384). -/

/-- Marks the tasks from a revision outward, up to but not including revision stop. -/
def State.markFrom (s : State) (part : Nat) (stop : Option Nat) : Nat → Option Nat → State
  | 0, _ => s
  | _ + 1, none => s
  | n + 1, some id =>
    if stop == some id then s
    else
      match (s.part part).rev id with
      | some r => (s.updFam r.fam fun f => { f with side := true }).markFrom part stop n r.parent
      | none => s

/-- A write outside the writer's revisioned regions marks its enclosing tasks, up to the one whose version it becomes. -/
def State.markSide (s : State) (part : Nat) (inRev lvl : Option Nat) : State :=
  s.markFrom part lvl ((s.part part).revs.length + 1) inRev

/-! L1 (R302). -/

def Core.l1Line (c : Core) (pa : Nat) : Option L1Line := c.l1.find? fun l => l.line == pa / 32

/-- The valid bits of n bytes at an address within its line. -/
def lineMask (pa n : Nat) : BitVec 32 := BitVec.ofNat 32 ((2 ^ n - 1) * 2 ^ (pa % 32))

def Core.l1Hit (c : Core) (pa n : Nat) : Bool :=
  match c.l1Line pa with
  | some l => l.valid &&& lineMask pa n == lineMask pa n
  | none => false

/-- The first addresses of the L1 lines that n bytes at an address overlap. -/
def lineStarts (pa n : Nat) : List Nat := (List.range ((pa % 32 + n + 31) / 32)).map fun i => (pa / 32 + i) * 32

/-- Every one of n bytes at an address is valid in L1, in whatever lines they lie. -/
def Core.l1Holds (c : Core) (pa n : Nat) : Bool :=
  (lineStarts pa n).all fun b => c.l1Hit (max pa b) (min (pa + n) (b + 32) - max pa b)

def lineByte (l : L1Line) (k : Nat) : Byte := l.data.extractLsb' (8 * k) 8

def setLineByte (l : L1Line) (k : Nat) (b : Byte) (dirty : Bool) : L1Line :=
  { l with
    data := (l.data &&& ~~~((0xFF#256) <<< (8 * k))) ||| ((b.zeroExtend 256) <<< (8 * k))
    valid := l.valid ||| (1#32 <<< k)
    dirty := if dirty then l.dirty ||| (1#32 <<< k) else l.dirty }

/-- Writes bytes into a line, with or without dirty marks. -/
def lineWrite (l : L1Line) (k : Nat) (dirty : Bool) : List Byte → L1Line
  | [] => l
  | b :: bs => lineWrite (setLineByte l k b dirty) (k + 1) dirty bs

/-- A clean: the dirty bytes of a line go to their home (R302).  A line with an uncorrectable error is lost (R300). -/
def State.cleanLine (s : State) (l : L1Line) : State :=
  if l.bad then s
  else
    (List.range 32).foldl (fun s k =>
      if l.dirty.getLsbD k then (s.l2Wrote (l.line * 32 + k) 0 1).putBytes 0 none 0 (l.line * 32 + k) [lineByte l k] else s) s

/-- A dirty line with an uncorrectable error (R300). -/
def L1Line.spoilt (l : L1Line) : Bool := l.bad && l.dirty != 0#32

/-- Cleans the lines of a core that a test selects; answers how many were dirty.  Those with an uncorrectable error are
discarded (R300). -/
def State.l1Clean (s : State) (cid : Nat) (p : L1Line → Bool) : Nat × State :=
  let ls := (s.core cid).l1.filter fun l => p l && l.dirty != 0#32
  (ls.length, (ls.foldl (fun s l => s.cleanLine l) s).updCore cid fun c =>
    { c with
      l1 := (c.l1.filter fun l => !(p l && l.spoilt)).map fun l => if p l then { l with dirty := 0#32, bad := false } else l })

/-- The address of the first dirty line of a core with an uncorrectable error among those that a test selects: the access that
cleans it finds the error (R300). -/
def State.spoiltLine (s : State) (cid : Nat) (p : L1Line → Bool) : Option Nat :=
  ((s.core cid).l1.find? fun l => p l && l.spoilt).map fun l => l.line * 32

/-- Those of n bytes of a line that are dirty go to their home, and stay in the line, clean. -/
def State.l1Flush (s : State) (cid pa n : Nat) : State :=
  match (s.core cid).l1Line pa with
  | none => s
  | some l =>
    if l.bad then s
    else
      ((List.range n).foldl (fun s k =>
        if l.dirty.getLsbD (pa % 32 + k) then
          (s.l2Wrote (pa + k) 0 1).putBytes 0 none 0 (pa + k) [lineByte l (pa % 32 + k)]
        else s) s).updCore cid fun c =>
          { c with l1 := c.l1.map fun x => if x.line == pa / 32 then { x with dirty := x.dirty &&& ~~~lineMask pa n } else x }

/-- Drops lines of a core, whatever is dirty in them. -/
def State.l1Drop (s : State) (cid : Nat) (p : L1Line → Bool) : State :=
  s.updCore cid fun c => { c with l1 := c.l1.filter fun l => !p l }

def oldestL1 : List L1Line → Option L1Line
  | [] => none
  | l :: rest =>
    match oldestL1 rest with
    | some m => if m.age < l.age then some m else some l
    | none => some l

/-- The line that a new line for an address takes the place of (R302). -/
def Core.victim (c : Core) (pa : Nat) : Option L1Line :=
  let peers := c.l1.filter fun l => l.line % 1024 == pa / 32 % 1024
  if (c.l1Line pa).isSome || c.ways.any fun w => !(peers.any fun l => l.way == w) then none else oldestL1 peers

/-- An access of n bytes through L1 evicts a dirty line with an uncorrectable error, and so finds it (R300). -/
def State.evictsSpoilt (s : State) (cid pa : Nat) (n : Nat := 1) : Bool :=
  !(s.core cid).ways.isEmpty && (lineStarts pa n).any fun b => ((s.core cid).victim b).any L1Line.spoilt

/-- Makes a line of L1 for an address, with nothing valid, evicting the least recently used way of its set (R302). -/
def State.l1Alloc (s : State) (cid pa : Nat) : State :=
  let c := s.core cid
  if (c.l1Line pa).isSome || c.ways.isEmpty then s
  else
    let (age, s) := s.fresh
    let peers := c.l1.filter fun l => l.line % 1024 == pa / 32 % 1024
    match c.ways.find? fun w => !(peers.any fun l => l.way == w) with
    | some w => s.updCore cid fun c =>
        { c with l1 := c.l1 ++ [{ line := pa / 32, data := 0#256, valid := 0#32, dirty := 0#32, way := w, age := age, bad := false }] }
    | none =>
      match oldestL1 peers with
      | none => s
      | some v =>
        (s.cleanLine v).updCore cid fun c =>
          { c with l1 := (c.l1.filter fun l => l.line != v.line) ++
              [{ line := pa / 32, data := 0#256, valid := 0#32, dirty := 0#32, way := v.way, age := age, bad := false }] }

/-- A line of L1 overlaps n bytes at an address. -/
def L1Line.meets (l : L1Line) (pa n : Nat) : Bool := decide (pa / 32 ≤ l.line) && decide (l.line ≤ (pa + n - 1) / 32)

/-- Whether an access by a core finds an uncorrectable error: in a dirty line of its L1; in HBM, where neither L2 nor, for a
load, L1 answers, and no write meets it, since a block written again is repaired; or in scratchpad (R300, R306). -/
def State.uncorr (s : State) (cid pa n acc : Nat) : Bool :=
  (s.core cid).l1.any (fun l => l.meets pa n && l.spoilt) ||
    (s.spoilt pa n &&
      match s.loc pa with
      | .dram _ => acc != 1 && !s.l2Hit pa n && !(acc == 0 && (s.core cid).l1Holds pa n)
      | .scratch _ _ => true
      | _ => false)

/-- The access that finds the error in a dirty line, or evicts such a line, discards the line (R300). -/
def State.lose (s : State) (cid pa n : Nat) (cause : Nat) : State :=
  if 0x30 ≤ cause && cause ≤ 0x33 then
    s.l1Drop cid fun l => l.spoilt && (l.meets pa n || (lineStarts pa n).any fun b => ((s.core cid).victim b).any fun v => v.line == l.line)
  else s

/-- An uncorrectable error arises at an address.  A cache bank loses a clean line, and a dirty one is marked; a sector dirty
in L2 is going to be written over it (R300, R304, R306). -/
def State.strike (s : State) (pa : Nat) : State :=
  let mark : State := if s.bad.contains (eccUnit pa) then s else { s with bad := s.bad ++ [eccUnit pa] }
  match s.loc pa with
  | .dram _ => if (s.l2Line pa).any fun l => l.under.any fun c => c.1 / 64 == pa / 64 then s else mark
  | .scratch c off =>
    if (s.core c).bank (off / 0x8000) = bankOff then s
    else if (s.core c).bank (off / 0x8000) = bankCache then
      let hit (l : L1Line) : Bool := l.way == off / 0x8000 && l.line % 1024 == off % 0x8000 / 32
      s.updCore c fun k => { k with
        l1 := (k.l1.filter fun l => !hit l || l.dirty != 0#32).map fun l => if hit l then { l with bad := true } else l }
    else mark
  | _ => s

/-- A line's use makes it the most recent. -/
def State.l1Use (s : State) (cid pa : Nat) (f : L1Line → L1Line) : State :=
  let (age, s) := s.fresh
  s.updCore cid fun c => { c with l1 := c.l1.map fun l => if l.line == pa / 32 then { f l with age := age } else l }

/-- A plain store held in L1: the line is allocated without reading it and takes the bytes, dirty (R271, R302). -/
def State.l1Store (s : State) (cid pa : Nat) (bs : List Byte) : State :=
  (s.l1Alloc cid pa).l1Use cid pa fun l => lineWrite l (pa % 32) true bs

/-- A store performed at its home also writes those of its bytes that the writer's line holds, clean (R302). -/
def State.l1Echo (s : State) (cid pa : Nat) (bs : List Byte) : State :=
  s.updCore cid fun c => { c with l1 := c.l1.map fun l =>
    if l.line == pa / 32 then
      let x := lineWrite l (pa % 32) false bs
      { x with valid := l.valid, dirty := l.dirty &&& ~~~lineMask pa bs.length }
    else l }

/-- An atomic performed at its home drops the clean copies of its bytes in the issuer's L1, which a later load of its
thread must not return (R265, R272; DEDUCED, log entry 14). -/
def State.l1Forget (s : State) (cid pa n : Nat) : State :=
  s.updCore cid fun c => { c with l1 := c.l1.map fun l =>
    if l.line == pa / 32 then { l with valid := l.valid &&& (~~~lineMask pa n ||| l.dirty) } else l }

/-- A load miss fills the bytes of the line that are not valid from the home (R302). -/
def State.l1Fill (s : State) (cid pa : Nat) : State :=
  let s := s.l1Alloc cid pa
  let base := pa / 32 * 32
  s.l1Use cid pa fun l =>
    (List.range 32).foldl (fun l k =>
      if l.valid.getLsbD k then l else setLineByte l k (Memory.get s.mem (base + k)) false) l

/-- n bytes of a line that holds them. -/
def Core.l1Bytes (c : Core) (pa n : Nat) : List Byte :=
  match c.l1Line pa with
  | some l => (List.range n).map fun k => lineByte l (pa % 32 + k)
  | none => []

/-! Latencies (R310). -/

/-- The latency of a location for a core, in cycles; own says that the local alias was used, hit that L2 has the sector. -/
def latency (cid : Nat) (loc : Loc) (own hit : Bool) : Nat :=
  match loc with
  | .scratch c _ =>
    if c = cid then (if own then 2 else 8)
    else if quadOf c = quadOf cid then 3
    else if groupOf c = groupOf cid then 5
    else if sgOf c = sgOf cid then 7
    else if dieOf c = dieOf cid then 30 else 110
  | .dram d => if hit then (if d = dieOf cid then 60 else 100) else (if d = dieOf cid then 200 else 240)
  | .remote _ => Config.remoteLatency
  | .bad => 60

/-- The latency of an L1 hit (R310). -/
def l1Latency : Nat := 4

/-- What a revision adds to the latency of a block that has versions: 20 cycles where the directory entry is cached at the home
slice, an HBM access where it is not, which is a free value (R308; DESIGN CHOICE, log entry 40). -/
def State.dirLat (s : State) (part : Nat) (lvl : Option Nat) (pa : Nat) : Nat :=
  if lvl.isSome && (s.part part).versions.any fun v => v.blk == pa / 64 then
    if Config.dirCached (pa / 64) s.now then 20 else 200
  else 0

/-! Translation. -/

/-- Page attributes, the fields of a TLB entry's word 1 (R253). -/
def wR (w : W64) : Bool := w.getLsbD 0

def wW (w : W64) : Bool := w.getLsbD 1

def wX (w : W64) : Bool := w.getLsbD 2

def wU (w : W64) : Bool := w.getLsbD 3

def wTag (w : W64) : Bool := w.getLsbD 4

def wChk (w : W64) : Bool := w.getLsbD 5

def wTrav (w : W64) : Bool := w.getLsbD 6

def wRemote (w : W64) : Bool := w.getLsbD 7

def wCache (w : W64) : Nat := (w.extractLsb' 8 2).toNat

def wDev (w : W64) : Nat := (w.extractLsb' 58 6).toNat

def wPpn (w : W64) : Nat := (w.extractLsb' 16 32).toNat

/-- Bits of a page's offset, by size code (R253, R311). -/
def pageBits (sz : Nat) : Nat := if sz = 0 then 16 else if sz = 1 then 21 else 30

def TlbEntry.covers (e : TlbEntry) (va : Nat) : Bool :=
  va / 2 ^ pageBits e.sz == e.vpn * 2 ^ 16 / 2 ^ pageBits e.sz

/-- The physical address of an entry's page, with a REMOTE page under its device's key (R275). -/
def TlbEntry.pa (e : TlbEntry) (va : Nat) : Nat :=
  let a := wPpn e.w1 * 2 ^ 16 + va % 2 ^ pageBits e.sz
  if wRemote e.w1 then remoteKey (wDev e.w1) a else a

/-- Puts an entry into a TLB of n places: it replaces one of its page and size, else takes a free place, else the
hardware's victim (R253). -/
def tlbPut (tlb : List TlbEntry) (n k : Nat) (e : TlbEntry) : List TlbEntry :=
  let rest := tlb.filter fun x => !(x.vpn == e.vpn && x.sz == e.sz)
  if rest.length < n then rest ++ [e] else (rest.eraseIdx (Config.tlbVictim k % n)) ++ [e]

/-- As tlbPut, into the L2 TLB of 1,024 entries in 8 ways: only a full set gives up an entry (R253, R312). -/
def tlb2Put (tlb : List TlbEntry) (k : Nat) (e : TlbEntry) : List TlbEntry :=
  let rest := tlb.filter fun x => !(x.vpn == e.vpn && x.sz == e.sz)
  if rest.length < 8 then rest ++ [e]
  else
    let peers := rest.filter fun x => Config.tlbSet x.vpn x.sz % 128 == Config.tlbSet e.vpn e.sz % 128
    match (if peers.length < 8 then none else peers[Config.tlbVictim k % 8]?) with
    | some v => rest.filter (· != v) ++ [e]
    | none => rest ++ [e]

/-- The entry that serves an address: from the L1 TLB, or from the L2 TLB at 4 cycles more with a refill (R310). -/
def State.tlbFind (s : State) (cid va : Nat) : Option (TlbEntry × Nat × State) :=
  let c := s.core cid
  match c.tlb1.find? fun e => e.covers va with
  | some e => some (e, 0, s)
  | none =>
    match c.tlb2.find? fun e => e.covers va with
    | some e => some (e, 4, { s with freeCtr := s.freeCtr + 1 }.updCore cid fun c =>
        { c with tlb1 := tlbPut c.tlb1 64 s.freeCtr e })
    | none => none

/-- What an access needs: its access code, its permissions, and whether the word must have a tag (R168). -/
structure Need where
  acc : Nat
  r : Bool
  w : Bool
  x : Bool
  tag : Bool

def needLoad : Need := { acc := 0, r := true, w := false, x := false, tag := false }

def needStore : Need := { acc := 1, r := false, w := true, x := false, tag := false }

def needFetch : Need := { acc := 2, r := false, w := false, x := true, tag := false }

def needAtomic : Need := { acc := 3, r := true, w := true, x := false, tag := false }

/-- A memory cause (R378). -/
def memCause (kind acc : Nat) : Nat := 0x20 + kind * 4 + acc

/-- A translated access: its physical address, page attributes, whether it uses the local alias, and the cycles its
translation adds. -/
structure Xl where
  va : Nat
  pa : Nat
  w1 : W64
  own : Bool
  extra : Nat

/-- What translation answers: an access, a wait for a page or a waking bank, or a cause. -/
inductive Xr where
  | ok (x : Xl) (s : State)
  | miss
  | waking
  | fault (cause : Nat)

/-- The attributes the local alias has: readable, writable, tagged. -/
def aliasW1 : W64 := 0x1B#64

/-- The attributes of the walker's physical accesses, which bypass L1 (R255, R316). -/
def walkerW1 : W64 := 0x11B#64

/-- The local alias: the issuing core's own banks under the rules of R31.  A scalar access may use a FIFO bank's windows;
wide says that the access is no scalar load or store. -/
def State.aliasXl (s : State) (cid va n : Nat) (nd : Need) (wide : Bool) : Xr :=
  let c := s.core cid
  let b := va / 0x8000
  if c.waking.getLsbD b then .waking
  else if c.bank b = bankScratch then .ok { va := va, pa := scratchPa cid va, w1 := aliasW1, own := true, extra := 0 } s
  else if c.bank b = bankFifo && !wide && nd.acc == 0 && inPop va n then
    .ok { va := va, pa := scratchPa cid va, w1 := aliasW1, own := true, extra := 0 } s
  else if c.bank b = bankFifo && !wide && nd.acc == 1 && inPush va n then
    .ok { va := va, pa := scratchPa cid va, w1 := aliasW1, own := true, extra := 0 } s
  else .fault (memCause 0 nd.acc)

/-- The checks of a TLB hit, in order (R311). -/
def pageFault (w1 : W64) (user : Bool) (nd : Need) : Option Nat :=
  if user && !wU w1 then some (memCause 1 nd.acc)
  else if (nd.r && !wR w1) || (nd.w && !wW w1) || (nd.x && !wX w1) then some (memCause 1 nd.acc)
  else if nd.tag && !wTag w1 then some (memCause 5 nd.acc)
  else none

/-- An address of the walker as a physical one; one of more than 48 bits names nothing (R255, R297). -/
def physAddr (va : Nat) : Nat := if va < 2 ^ 48 then va else 2 ^ 48 - 1

/-- The bank behind an address is waking: an access is held there (R184, R299). -/
def State.waking (s : State) (pa : Nat) : Bool :=
  match s.loc pa with
  | .scratch c off => (s.core c).waking.getLsbD (off / 0x8000)
  | _ => false

/-- The partition's scratch banks hold another state: it is switched out, or its state is being put back (R392, R393). -/
def Part.away (p : Part) : Bool := p.gsst == .out || p.gsst == .restoring

/-- The switched-out partition that an address's scratchpad bank, occupied by no other partition, belongs to (R392). -/
def State.awayAt (s : State) (pa : Nat) : Option Nat :=
  match s.loc pa with
  | .scratch c _ =>
    if (s.partOf c).any fun p => !p.away then none
    else (s.parts.find? fun p => p.valid && p.away && p.hasSg (sgOf c)).map (·.num)
  | _ => none

/-- Translation of an access of n bytes by a core's agent (R167, R169, R311).  phys: the walker's physical addresses.  An access
to a waking bank waits, whichever way it comes (R184, R299). -/
def State.xlate (s : State) (cid va n align : Nat) (nd : Need) (user phys wide : Bool) : Xr :=
  if 2 ^ 57 ≤ va then .fault (memCause 0 nd.acc)
  else if va % align != 0 then .fault (memCause 2 nd.acc)
  else if phys then
    if s.waking (physAddr va) then .waking
    else .ok { va := va, pa := physAddr va, w1 := walkerW1, own := false, extra := 0 } s
  else if va < 0x100000 then s.aliasXl cid va n nd wide
  else
    match s.tlbFind cid va with
    | none => .miss
    | some (e, extra, s') =>
      match pageFault e.w1 user nd with
      | some f => .fault f
      | none =>
        if s.waking (e.pa va) then .waking else .ok { va := va, pa := e.pa va, w1 := e.w1, own := false, extra := extra } s'

/-! The miss mailbox (R255). -/

/-- The lowest mailbox entry not in use. -/
def freeMiss (m : List Miss) : Option Nat := (List.range 16).find? fun i => !(m.any fun e => e.ent == i)

/-- Adds a waiter, or the copy engine where there is none, to the entry of its page, or posts a new entry; answers whether
it could (R255). -/
def State.postMiss (s : State) (cid va acc : Nat) (waiter : Option (Nat × Nat)) : Bool × State :=
  let c := s.core cid
  let vpn := va / 2 ^ 16
  let ws : List PageWait := match waiter with
    | some w => [{ slot := w.1, uid := w.2, acc := acc, va := va }]
    | none => []
  if c.mbox.any fun e => e.vpn == vpn then
    (true, s.updCore cid fun c => { c with mbox := c.mbox.map fun e =>
      if e.vpn == vpn then
        { e with
          ce := e.ce || waiter.isNone
          ceVa := if waiter.isNone then va else e.ceVa
          waiters := (e.waiters.filter fun x => !(ws.any fun y => y.slot == x.slot && y.uid == x.uid)) ++ ws }
      else e })
  else
    match freeMiss c.mbox with
    | none => (false, s)
    | some i =>
      let (q, s) := s.fresh
      (true, s.updCore cid fun c => { c with mbox := c.mbox ++
        [{ ent := i, vpn := vpn, acc := acc, st := .unclaimed, ce := waiter.isNone, stale := false, inval := [], waiters := ws,
           ceVa := va, seq := q }] })

/-- A thread's access waits for its page: it is not ready until the entry completes. -/
def State.waitPage (s : State) (va acc : Nat) : State :=
  let (ok, s) := s.postMiss s.cur.cid va acc (some (s.cur.slot, s.me.uid))
  let s := if ok then s.updMe fun t => { t with hold := .wait .translation } else s
  { s with cur := { s.cur with res := .notReady } }

/-- Translation of the issuing thread's access, with its precise faults at stage 6 (R169). -/
def access (s : State) (va : W64) (n align : Nat) (nd : Need) (wide : Bool) : Except State (Xl × State) :=
  match s.xlate s.cur.cid va.toNat n align nd (!s.me.sys) (s.cur.slot == 16) wide with
  | .ok x s' => .ok (x, { s' with cur := { s'.cur with remote := s'.cur.remote || decide (2 ^ 48 ≤ x.pa),
                                                          addr := some (s'.cur.addr.getD x.va) } })
  | .miss => .error (s.waitPage va.toNat nd.acc)
  | .waking => notReady s
  | .fault c => raise s 6 c va.toNat

/-! The issuing thread's partition, revision and level. -/

/-- The partition number that governs the issuing core's accesses; 20 where none does. -/
def State.partNum (s : State) (cid : Nat) : Nat := ((s.partOf cid).map (·.num)).getD 20

/-- The revision in which a thread runs (R33). -/
def State.inRev (s : State) (t : Thread) : Option Nat := t.fam.bind fun f => (s.fam f).bind (·.inRev)

/-- The revision whose version a thread's access reads or writes; none for memory itself (R273). -/
def State.myLevel (s : State) (va : Nat) : Option Nat := (s.part (s.partNum s.cur.cid)).level (s.inRev s.me) va

/-- A read-only region has an address, among those of a revision and, where its own region there has no revisions, of its ancestors
(R244). -/
def Part.roFrom (p : Part) (va : Nat) : Nat → Option Nat → Bool
  | 0, _ => false
  | _ + 1, none => false
  | n + 1, some id =>
    match p.rev id with
    | some r => r.snap.any (fun g => g.has va && g.ro) || ((r.region va).isNone && p.roFrom va n r.parent)
    | none => false

/-- A store of a task's revision to an address is one into a read-only region, whatever its merge type (R244). -/
def Part.readOnly (p : Part) (inRev : Option Nat) (va : Nat) : Bool := p.roFrom va (p.revs.length + 1) inRev

/-- A store by the issuing thread's task into a read-only region (R244). -/
def State.roHit (s : State) (va : Nat) : Bool := (s.part (s.partNum s.cur.cid)).readOnly (s.inRev s.me) va

/-- Whether a physical address lies in the partition's permitted ranges (R297). -/
def Part.permits (p : Part) (pa : Nat) : Bool :=
  p.ranges.isEmpty || p.ranges.any fun r => decide (r.1 ≤ pa) && decide (pa ≤ r.2)

/-- An address of this device lies outside a partition's permitted ranges: its refusal is logged (R297, R386). -/
def State.outside (s : State) (p : Part) (pa : Nat) : Bool :=
  match s.loc pa with
  | .remote _ => false
  | _ => !p.permits pa

end Sys2Proof.Machine
end

