-- ==== Sys2Proof/Machine/Request.lean ====
section
/-! DEFINITION. Values that arrive in registers (R14, R36, R289), and requests: their slots (R354), their order (R171),
what each does at its home (R173, R174, R177, R179, R185, R308) and its answer (R169). -/

namespace Sys2Proof.Machine

/-! Arrival of values in registers. -/

/-- Puts a cell into a scalar register; the cause of a failed destination that it covers stays for END (R169). -/
def Thread.coverS (t : Thread) (n : BitVec 4) (c : SCell) : Thread :=
  match (t.regs.s.get n.toFin).fail with
  | some f => { t.setS n c with lost := t.lost ++ [f] }
  | none => t.setS n c

def Thread.coverV (t : Thread) (n : BitVec 4) (c : VCell) : Thread :=
  match (t.regs.v.get n.toFin).fail with
  | some f => { t.setV n c with lost := t.lost ++ [f] }
  | none => t.setV n c

/-- The handoff of the chain in cycles (R289). -/
def handoff (a b : Nat) : Nat :=
  if a = b then 1 else if quadOf a = quadOf b then 4 else if groupOf a = groupOf b then 6 else 20

/-- Whether a member is still to start in a share. -/
def Share.awaits (x : Share) (k : Nat) : Bool :=
  decide (x.next ≤ k) && decide (k < x.next + x.stride * x.left) && (k - x.next) % x.stride == 0

/-- The core that runs, or will run, a member of a family. -/
def Family.coreOf (f : Family) (member : Nat) : Option Nat :=
  (f.shares.find? fun x => x.awaits member || x.live.contains member).map (·.cid)

/-- The release side of an operation of quad scope or wider: the core's dirty lines go to their homes (R171). -/
def State.releaseLines (s : State) (cid : Nat) : State := (s.l1Clean cid fun _ => true).2

/-- The core to which a member's dependents go: along an inline run its creator's (R36, R120). -/
def Family.linkCore (f : Family) (member : Nat) : Option Nat := if f.kind = .inlined then some f.cid else f.coreOf member

/-- The release by which a thread sends a shared to another core (R36 rule 5): the core's dirty lines are cleaned; an
uncorrectable error among them waits for the thread's next bundle (R169, R300; DESIGN CHOICE, log entry 62). -/
def State.sendRelease (s : State) (w : Who) : State :=
  match s.spoiltLine w.cid fun _ => true with
  | some a => (s.releaseLines w.cid).updWho w fun t => { t with errs := t.errs ++ [{ cause := memCause 4 1, addr := a }] }
  | none => s.releaseLines w.cid

/-- Sends shared h_j of a member, written at cycle base, to its successor's d_j (R36 rules 2, 4 and 5, R269, R289). -/
def State.sendShared (s : State) (fam member j : Nat) (v : W64) (w : Who) (base : Nat) : State :=
  match s.fam fam with
  | none => s
  | some f =>
    let s1 : State := s.updFam fam fun f => { f with outs := f.outs ++ [{ member := member, j := j, val := v, far := false }] }
    match f.linkCore (member + 1) with
    | none => s1
    | some c =>
      let s2 : State := if c = w.cid then s1 else (s1.sentMsgs w.cid 1).sendRelease w
      s2.atCycle (s.dieAfter (dieOf w.cid) base (handoff w.cid c)) (.registerWriteMessage fam (member + 1) j v w.cid w.uid s.ctr c)

/-- A value written to a scalar register of a thread at cycle base.  The first write to a shared sends it (R36 rule 2). -/
def State.writeAt (s : State) (w : Who) (n : BitVec 4) (v : W64) (base : Nat) : State :=
  match s.whoThread w with
  | none => s
  | some t =>
    let s := s.updWho w fun t => t.coverS n (SCell.full v)
    let j := n.toNat - t.g
    if decide (t.g ≤ n.toNat) && decide (n.toNat < t.g + t.sh) && !t.sent.getLsbD j then
      let s := s.updWho w fun t => { t with sent := t.sent ||| (1#8 <<< j) }
      match t.fam with
      | some f => s.sendShared f t.member j v w base
      | none => s
    else s

/-- A value written to a scalar register of a thread now. -/
def State.writeS (s : State) (w : Who) (n : BitVec 4) (v : W64) : State := s.writeAt w n v s.now

/-- A value written to a scalar field of the issuing thread; writes to zr are discarded. -/
def State.writeMine (s : State) (r : SReg) (v : W64) : State :=
  match r with
  | .s n => s.writeS s.meWho n v
  | _ => s

/-- Marks a scalar destination of the issuing thread as pending (R14). -/
def State.awaitS (s : State) (r : SReg) : State :=
  match r with
  | .s n => s.updMe fun t => t.coverS n (t.regs.s.get n.toFin).await
  | _ => s

def State.awaitV (s : State) (n : VReg) : State := s.updMe fun t => t.coverV n (t.regs.v.get n.toFin).await

/-- The bits of val under mask land on a vector register's old contents. -/
def mergeBits (old val mask : VWord) : VWord := (old &&& ~~~mask) ||| (val &&& mask)

/-- A fixed-latency result lands (R46, R48): the register takes it and its presence bit is set. -/
def execFixedLatencyWriteback (s : State) : Host.Outcome State Fault Refusal :=
  .next (match s.evt with
    | .fixedLatencyWriteback cid slot n =>
      let c := s.core cid
      let ts := (c.thread slot).toList ++ (c.runs.filter fun r => r.slot == slot).map (·.creator)
      match ts.find? fun t => t.flights.any fun f => f.n == n with
      | none => s
      | some t =>
        match t.flights.find? fun f => f.n == n with
        | none => s
        | some f =>
          let w : Who := { cid := cid, slot := slot, uid := t.uid }
          let s := s.updWho w fun t => { t with flights := t.flights.filter fun f => f.n != n }
          match f.dst with
          | .s k =>
            let pend := (t.regs.s.get k.toFin).pend
            -- the A-slot of a bundle that was held sends a shared as if it had not been (R289)
            let s := s.writeAt w k (f.val.setWidth 64) (min f.land s.now)
            if pend then s.updWho w fun t => t.setS k { t.regs.s.get k.toFin with pend := true } else s
          | .v k => s.updWho w fun t =>
              let old := t.regs.v.get k.toFin
              t.coverV k { old with val := mergeBits old.val f.val f.mask, pres := true, fail := none }
          | .m k => s.updWho w fun t =>
              let old := t.regs.m.get k.toFin
              t.setM k ((old &&& ~~~(f.mask.setWidth 128)) ||| (f.val.setWidth 128 &&& f.mask.setWidth 128))
    | _ => s)

/-- A stall count ends: the thread may be ready (R46). -/
def execStallCountExpiry (s : State) : Host.Outcome State Fault Refusal :=
  .next (match s.evt with
    | .stallCountExpiry cid slot n =>
      s.updThread cid slot fun t => if t.stall = some n then { t with stall := none } else t
    | _ => s)

/-! Slots and order of requests. -/

/-- A request holds its slots until the cycle after its answer (R354). -/
def Req.holdsSlots (r : Req) (now : Nat) : Bool :=
  match r.st with
  | .answered t => decide (now ≤ t)
  | _ => true

def Req.answered (r : Req) : Bool :=
  match r.st with
  | .answered _ => true
  | _ => false

/-- The homes whose slots a request holds: of a vector instruction each home's until the cycle after that home's answer (R354,
R356). -/
def Req.takes (r : Req) (now : Nat) : List Nat :=
  if !r.holdsSlots now then []
  else if r.lanes.isEmpty then r.homes
  else r.parts.filterMap fun p => if p.2.all fun c => decide (now ≤ c) then some p.1 else none

/-- The slots of a core's memory port that are taken, each by its home (R354). -/
def State.taken (s : State) (cid : Nat) : List Nat := (s.reqs.filter fun r => r.who.cid == cid).flatMap fun r => r.takes s.now

/-- The core's memory port has a free request slot for each home and a free response slot for each request (R354). -/
def State.portFree (s : State) (cid : Nat) (homes : List Nat) : Bool :=
  homes.all (fun h => decide ((s.taken cid).count h < 8)) && decide ((s.taken cid).length + homes.length ≤ 512)

/-- Those of some homes for which the core's memory port has a free request slot, as far as its response slots go (R354, R356). -/
def State.freeHomes (s : State) (cid : Nat) (homes : List Nat) : List Nat :=
  (homes.filter fun h => decide ((s.taken cid).count h < 8)).take (512 - (s.taken cid).length)

/-- The thread's earlier acquire holds back a memory or copy instruction (R171). -/
def State.acqBlocked (s : State) : Bool :=
  s.reqs.any (fun r => r.acq && r.who == s.meWho && !r.answered) || decide (s.now < s.me.acqUntil)

/-- The start of every memory and copy instruction: an outstanding acquire makes it not ready. -/
def memGate (s : State) : Except State Unit := if s.acqBlocked then notReady s else .ok ()

def ReqKind.isStore : ReqKind → Bool
  | .store _ => true
  | .vstore _ => true
  | .push _ => true
  | _ => false

def ReqKind.atomic : ReqKind → Bool
  | .amo _ _ => true
  | .cas _ _ => true
  | .fe _ _ => true
  | _ => false

/-- The units of a vector access that are still to be performed. -/
def Req.units (r : Req) : List VUnit :=
  match r.kind with
  | .vload us _ _ => us
  | .vstore us => us.map (·.1)
  | _ => []

/-- The homes for which a vector instruction's request has still to find a slot (R356). -/
def State.slotless (s : State) (r : Req) : List Nat :=
  if r.lanes.isEmpty then []
  else ((r.units.map fun u => s.homeOf u.pa).eraseDups).filter fun h => !(r.parts.any fun p => p.1 == h)

/-- A vector instruction's request finds no free slot at one of its homes, and leaves in the cycle after one frees (R356). -/
def State.slotsShort (s : State) (r : Req) : Bool := !s.portFree r.who.cid (s.slotless r)

/-- The addresses and lengths that a request names: one, or those of its units. -/
def Req.spans (r : Req) : List (Nat × Nat) :=
  match r.kind with
  | .vload us _ _ => us.map fun u => (u.pa, u.n)
  | .vstore us => us.map fun u => (u.1.pa, u.1.n)
  | _ => [(r.pa, r.n)]

/-- The bytes that two requests name meet. -/
def Req.meets (a b : Req) : Bool :=
  a.spans.any fun x => b.spans.any fun y => decide (x.1 < y.1 + y.2) && decide (y.1 < x.1 + x.2)

/-- The addresses and lengths that a request has named since it issued. -/
def Req.reach (r : Req) : List (Nat × Nat) := if r.lanes.isEmpty then r.spans else r.lanes.map fun u => (u.pa, u.n)

/-- The homes at which a request is still to be performed. -/
def Req.ahead (r : Req) : List Nat := r.homes.filter fun h => !(r.parts.any fun p => p.1 == h && p.2.isSome)

/-- Two plain stores take the same path to one home, at which they are performed in program order: a bank through the same
alias, or an L2 slice from pages with CACHE 01 or 10 (R281). -/
def Req.sameHome (a b : Req) : Bool :=
  a.kind.isStore && b.kind.isStore && a.own == b.own &&
    a.ahead.any fun h => b.ahead.contains h && (decide (10000 ≤ h) || (decide (h < 1000) && a.cache != 0 && b.cache != 0))

/-- An access to another device (R275). -/
def Req.remote (r : Req) : Bool := r.reach.any fun x => decide (2 ^ 48 ≤ x.1)

/-- Accesses issued before token tok of a thread to other devices that have not been acknowledged (R275). -/
def State.unacknowledged (s : State) (w : Who) (tok : Nat) : Bool :=
  s.reqs.any fun q => decide (q.tok < tok) && q.who == w && q.remote && !q.answered

/-- An earlier request that must be performed before r is (R171, R180, R265, R268, R281): for a release, and a fence of both
aliases, every earlier request of the thread and, for a release at quad scope or wider, every store of its core, while at pod
scope those to other devices have been acknowledged (R275); for any other, those of the thread that meet its bytes, or stores to
the same home. -/
def State.blocks (s : State) (r : Req) : Bool :=
  (s.reqs.any fun q => decide (q.tok < r.tok) && (q.st == .sent || q.st == .waiting) &&
    ((q.who == r.who && (r.rel || r.all || q.meets r || q.sameHome r)) || (r.rel && r.wide && q.who.cid == r.who.cid && q.kind.isStore))) ||
  (r.rel && r.pod && s.unacknowledged r.who r.tok)

/-- Every access of the issuing thread that END, YIELD and TRAVEL wait for has been acknowledged (R169). -/
def State.acked (s : State) : Bool :=
  !(s.reqs.any fun r => r.who == s.meWho && (r.kind.isStore || r.dst == .none) && !r.answered)

/-- Accesses issued before token tok of a thread, and with wide the stores of its core, that are not yet performed (R171, R268). -/
def State.unperformed (s : State) (w : Who) (wide : Bool) (tok : Nat) : Bool :=
  s.reqs.any fun q => decide (q.tok < tok) && (q.st == .sent || q.st == .waiting) &&
    ((q.who.cid == w.cid && q.who.uid == w.uid) || (wide && q.who.cid == w.cid && q.kind.isStore))

/-- The stores of a core that are not yet performed at their homes (R268). -/
def State.storesOut (s : State) (cid : Nat) : Bool :=
  s.reqs.any fun r => r.who.cid == cid && r.kind.isStore && (r.st == .sent || r.st == .waiting)

/-- The stores and atomics of a core that are not yet performed at their homes (R323). -/
def State.writesOut (s : State) (cid : Nat) : Bool :=
  s.storesOut cid || s.reqs.any fun r => r.who.cid == cid && (r.st == .sent || r.st == .waiting) &&
    (match r.kind with
     | .amo _ _ => true
     | .cas _ _ => true
     | _ => false)

/-- The thread of a serial number, where it stands on a core or waits below an inline run there. -/
def State.whoOn (s : State) (cid uid : Nat) : Who :=
  let c := s.core cid
  let below := (c.runs.find? fun r => r.creator.uid == uid).map (·.slot)
  { cid := cid, uid := uid, slot := ((List.range 17).find? fun k => (c.thread k).any fun t => t.uid == uid).getD (below.getD 0) }

/-- A shared value reaches the core of the successor (R36 rule 4), once the writer's earlier accesses are performed, and what they
have left dirty is at its home, which the send releases (R36 rule 5): the link buffer takes it, and the successor's d_j if the
member has started. -/
def execRegisterWriteMessage (s : State) : Host.Outcome State Fault Refusal :=
  .next (match s.evt with
    | .registerWriteMessage fam member j v cid uid tok c =>
      let far := c != cid
      if s.unperformed { cid := cid, slot := 0, uid := uid } far tok then s.after cid 1 s.evt
      else
        let s : State := if far then s.sendRelease (s.whoOn cid uid) else s
        let s : State := s.updFam fam fun f =>
          { f with links := f.links ++ [{ member := member, j := j, val := v, far := far }] }
        (if far then s.gotMsgs c 1 else s).updCore c fun k =>
          let put (t : Thread) : Thread :=
            if t.fam == some fam && t.member == member && t.hold != .wait .inlineDriver then
              { t.setD (BitVec.ofNat 3 j) (SCell.full v) with acqs := if far then t.acqs ||| (1#8 <<< j) else t.acqs }
            else t
          { k with
            slots := k.slots.map fun o => o.map put
            runs := k.runs.map fun r => { r with creator := put r.creator } }
    | _ => s)

/-- A blank request of the issuing thread. -/
def State.newReq (s : State) (tok : Nat) (kind : ReqKind) (x : Xl) (n acc : Nat) : Req :=
  { tok := tok, who := s.meWho, part := s.partNum s.cur.cid, kind := kind, va := x.va, pa := x.pa, n := n, lvl := none, dst := .none, holds := false,
    rel := false, acq := false, wide := false, pod := false, all := false, from_ := 0, own := x.own, l1 := false,
    cache := wCache x.w1, acc := acc, homes := [], lat := x.extra,
    st := .sent, err := none, res := 0#64, vres := [], flags := fNone, issued := s.now, limit := none, swept := false, lanes := [],
    parts := [], lam := 0, got := [], bad := none, via := [] }

/-- The fabric messages that a request takes each way: one for each home, none through the local alias (R356, R388). -/
def Req.msgs (r : Req) : Nat := if r.own then 0 else r.homes.length

/-- A request leaves its thread; those of its addresses that lie in another device keep their ports (R358, R359). -/
def State.addReq (s : State) (r : Req) : State :=
  { s.sentMsgs r.who.cid r.msgs with
    reqs := s.reqs ++ [{ r with via := r.reach.filterMap fun x => (s.portAt x.1).map fun p => (x.1, p) }] }

/-! What an access meets at its home. -/

/-- Working slices of a die are fewer than 16 (R305). -/
def State.dieLost (s : State) (die : Nat) : Bool :=
  decide (16 < (s.dev.retired.filter fun r => r.1 == die).length)

/-- The cause that the links give an access to another device: no route (R358), or no working port on it (R359). -/
def State.routeCause (s : State) (dev acc : Nat) : Option Nat :=
  match s.dev.routes.find? fun r => r.dev == dev with
  | none => some (memCause 3 acc)
  | some r =>
    if r.mask = 0#12 then some (memCause 3 acc)
    else if (List.range 12).any (s.dev.usable r) then none else some 0x4E

/-- The cause with which the home, or the mesh, refuses an access of a partition (R297, R301, R305, R358).  scalar: a scalar load
or store, which may use a FIFO bank's windows. -/
def State.refusalOf (s : State) (p : Part) (own scalar : Bool) (pa n acc : Nat) : Option Nat :=
  match s.loc pa with
  | .bad => some (memCause 3 acc)
  | .remote d => s.routeCause d acc
  | .dram d => if !p.permits pa then some (memCause 3 acc) else if s.dieLost d then some 0x4C else none
  | .scratch c off =>
    if own then none
    else if !p.permits pa then some (memCause 3 acc)
    else
      let b := (s.core c).bank (off / 0x8000)
      if b = bankScratch then none
      else if b = bankFifo then
        if acc = 3 then some (memCause 0 3)
        else if scalar && ((acc == 0 && inPop off n) || (acc == 1 && inPush off n)) then none
        -- the other window is no place for the access (R185)
        else if scalar && (inPop off n || inPush off n) then some (memCause 0 acc)
        else some (memCause 3 acc)
      else some (memCause 3 acc)

/-- The cause with which an access of a core is refused. -/
def State.refusal (s : State) (cid : Nat) (own scalar : Bool) (pa n acc : Nat) : Option Nat :=
  s.refusalOf (s.part (s.partNum cid)) own scalar pa n acc

/-- The cause of an access that is refused, or that finds an uncorrectable error (R297, R300, R301, R305, R306, R358). -/
def State.homeCause (s : State) (cid : Nat) (own scalar : Bool) (pa n acc : Nat) : Option Nat :=
  match s.refusal cid own scalar pa n acc with
  | some c => some c
  | none => if s.uncorr cid pa n acc then some (memCause 4 acc) else none

/-- The cycles that the error response of an access takes: 60 from the mesh, which refuses what the partition may not access,
else the location's (R297, R310). -/
def State.errLat (s : State) (cid : Nat) (own : Bool) (pa : Nat) : Nat :=
  let permitted := (s.part (s.partNum cid)).permits pa
  match s.loc pa with
  | .scratch c off => if own || permitted then latency cid (.scratch c off) own false else 60
  | .remote d => if s.dev.routes.any fun r => r.dev == d && r.mask != 0#12 then Config.remoteLatency else 60
  | .dram d => if permitted && s.spoilt pa 1 then latency cid (.dram d) own false else 60
  | _ => 60

/-- The latency of an access at this moment, with what the versions of its block add; a store's acknowledgement takes the load
latency of its location (R286, R308, R310). -/
def State.accLat (s : State) (r : Req) : Nat :=
  latency r.who.cid (s.loc r.pa) r.own (s.l2Hit r.pa r.n) + s.dirLat r.part r.lvl r.pa

/-! Read-modify-write (R177 to R179). -/

/-- The value that an operation leaves, of n bytes. -/
def amoResult (op : AmoOp) (n : Nat) (old b : Nat) : Nat :=
  let m := 2 ^ (8 * n)
  let sg (x : Nat) : Int := if x < m / 2 then x else (x : Int) - m
  match op with
  | .add => (old + b) % m
  | .and => Nat.land old b
  | .or => Nat.lor old b
  | .xor => Nat.xor old b
  | .smin => if sg b < sg old then b else old
  | .smax => if sg old < sg b then b else old
  | .nmin => if b < old then b else old
  | .nmax => if old < b then b else old
  | .swap => b
  | .fadd => (fAdd .f32 .rne old b).1

/-- The register value of an old memory value of n bytes. -/
def oldValue (sext : Bool) (n old : Nat) : W64 :=
  if sext then (BitVec.ofNat (8 * n) old).signExtend 64 else BitVec.ofNat 64 old

/-! Answers. -/

/-- A request waits at its home, behind those that arrived before it (R174, R185). -/
def State.park (s : State) (r : Req) : State :=
  { s with reqs := (s.reqs.filter fun q => q.tok != r.tok) ++ [{ r with st := .waiting }] }

/-- Records the answer of a request and schedules its arrival. -/
def State.answer (s : State) (r : Req) (at_ : Nat) (ev : Ev) : State :=
  (s.updReq r.tok fun _ => { r with st := .performed }).atCycle at_ ev

/-- A refusal of an access outside its partition's permitted ranges is logged (R297, R387). -/
def State.logRefusal (s : State) (w : Who) (part pa acc cause : Nat) : State :=
  if cause = memCause 3 acc && s.outside (s.part part) pa then
    s.violation (if w.slot = 16 then 4 else 2) acc part w.cid w.slot pa (((s.whoThread w).map s.ownerTag).getD 0)
  else s

/-- An error response (R169). -/
def State.failReq (s : State) (r : Req) (cause lat : Nat) : State :=
  let c := r.who.cid
  let s := s.logRefusal r.who r.part r.pa r.acc cause
  (s.lose c r.pa r.n cause).answer { r with err := some { cause := cause, addr := memAddr cause r.va } } (s.now + s.ticks (dieOf c) lat)
    (.errorResponse r.tok)

/-- A write finds the revision store full: it is held while a join merges, without limit, and fails otherwise (R308). -/
def State.storeShort (s : State) (r : Req) : State :=
  let part := r.part
  if (s.part part).joins.isEmpty then s.failReq r 0x80 (s.accLat r + r.lat)
  else (s.updReq r.tok fun _ => { r with st := .waiting, limit := none }).updPart part fun p =>
    { p with heldWrites := p.heldWrites ++ [r.tok] }

/-- Whether a full/empty operation's condition holds (R173). -/
def FeOp.ready (op : FeOp) (full : Bool) : Bool :=
  match op with
  | .ldf => full
  | .ldfe => full
  | .stef => !full
  | _ => true

def FeOp.writes : FeOp → Bool
  | .stef => true
  | .stf => true
  | _ => false

/-- What a full/empty operation needs of its page (R168). -/
def FeOp.need (op : FeOp) : Need :=
  { acc := 3, tag := true, x := false,
    r := op == .ldf || op == .ldfe || op == .get
    w := op == .ldfe || op == .stef || op == .stf || op == .clr || op == .set }

/-- A request that writes is performed: the tasks of its thread whose regions do not hold it have had a side effect (R384). -/
def State.markReq (s : State) (r : Req) : State :=
  if r.own then s else s.markSide r.part ((s.whoThread r.who).bind fun t => s.inRev t) r.lvl

/-- Performs a full/empty operation whose condition holds, complete at cycle at_ (R173, R176). -/
def State.fePerform (s : State) (r : Req) (op : FeOp) (v : W64) (at_ : Nat) : State :=
  let s : State := if op.need.w then s.markReq r else s
  let part := r.part
  let w := r.pa / 8
  let full := Tags.full s.tags w
  let old := BitVec.ofNat 64 (leVal (s.bytesAt part r.lvl r.va r.pa 8))
  let res := if op = .get then (if full then 1#64 else 0#64) else old
  let s := s.answer { r with res := res } at_ (.loadResponse r.tok)
  let s := { s with tags := match op with
    | .ldfe => Tags.clear s.tags w
    | .clr => Tags.clear s.tags w
    | .stef => Tags.set s.tags w
    | .stf => Tags.set s.tags w
    | .set => Tags.set s.tags w
    | _ => s.tags }
  if op.writes then
    let bs := toLe 8 v.toNat
    let s := s.putBytesAt part r.lvl r.va r.pa at_ bs
    if r.lvl.isNone && !r.own then s.l1Echo r.who.cid r.pa bs else s
  else if op = .ldf || op = .get then s
  else s.wakeWaiters r.pa 8 at_

/-- The oldest waiting request of a list whose condition holds. -/
def State.feServe (s : State) (pa at_ : Nat) : State :=
  let ws := s.reqs.filter fun r => r.st == .waiting && r.pa / 8 == pa / 8
  match ws.find? fun r => match r.kind with
      | .fe op _ => op.ready (Tags.full s.tags (pa / 8))
      | _ => false with
  | none => s
  | some r =>
    match r.kind with
    | .fe op v =>
      if op.writes && s.storeFull (r.part) r.lvl r.pa then s.storeShort r
      else
        let s := (s.l2Touch r.pa r.cache 8).fePerform r op v (s.dieAfter (dieOf r.who.cid) at_ (s.accLat r))
        -- an operation that changes nothing leaves the other waiters to be examined again
        if op = .ldf then s.urgent (.feWaiterServed pa at_) else s
    | _ => s

/-- After a change of a word, its oldest waiter whose condition holds is performed (R174). -/
def execFeWaiterServed (s : State) : Host.Outcome State Fault Refusal :=
  .next (match s.evt with
    | .feWaiterServed pa at_ => s.feServe pa at_
    | _ => s)

/-! FIFO banks (R185). -/

def Core.fifo (c : Core) (b : Nat) : List Byte := ((c.fifos.find? fun f => f.bank == b).map (·.bytes)).getD []

def Core.setFifo (c : Core) (b : Nat) (bs : List Byte) : Core :=
  let rest := c.fifos.filter fun f => f.bank != b
  { c with fifos := if bs.isEmpty then rest else rest ++ [{ bank := b, bytes := bs }] }

/-- A push or pop that can be performed is performed; otherwise it waits in its order of arrival. -/
def State.fifoTry (s : State) (r : Req) : State :=
  match s.loc r.pa with
  | .scratch c off =>
    let b := off / 0x8000
    let q := (s.core c).fifo b
    let done (s : State) (res : Nat) : State :=
      let vres := match r.dst with
        | .v f _ => [(f, BitVec.ofNat 4096 res, BitVec.allOnes 4096)]
        | _ => []
      (s.answer { r with res := BitVec.ofNat 64 res, vres := vres }
        (s.now + s.ticks (dieOf r.who.cid) (s.accLat r + r.lat)) (.loadResponse r.tok)).urgent
        (.fifoWaitServed c b)
    match r.kind with
    | .push bs =>
      if q.length + bs.length ≤ 32768 then done ((s.markReq r).updCore c fun x => x.setFifo b (q ++ bs)) 0
      else s.updReq r.tok fun r => { r with st := .waiting }
    | .pop =>
      if r.n ≤ q.length then done (s.updCore c fun x => x.setFifo b (q.drop r.n)) (leVal (q.take r.n))
      else s.updReq r.tok fun r => { r with st := .waiting }
    | _ => s
  | _ => s

/-- The waiting pushes, or pops, of a bank, oldest first. -/
def State.fifoWaiters (s : State) (c b : Nat) (push : Bool) : List Req :=
  s.reqs.filter fun r => r.st == .waiting &&
    (match r.kind with
     | .push _ => push
     | .pop => !push
     | _ => false) &&
    (match s.loc r.pa with
     | .scratch c' off => c' == c && off / 0x8000 == b
     | _ => false)

/-- After a push or pop, the oldest waiting pop and the oldest waiting push are tried (R185). -/
def execFifoWaitServed (s : State) : Host.Outcome State Fault Refusal :=
  .next (match s.evt with
    | .fifoWaitServed c b =>
      let s1 := match s.fifoWaiters c b false with
        | r :: _ => s.fifoTry r
        | [] => s
      match s1.fifoWaiters c b true with
        | r :: _ => s1.fifoTry r
        | [] => s1
    | _ => s)

/-! Performing a request at its home. -/

/-- Latency of an answer that leaves now, with what its translation added. -/
def State.answerAt (s : State) (r : Req) : Nat := s.now + s.ticks (dieOf r.who.cid) (s.accLat r + r.lat)

/-- A load at its home, or through L1, for which it fetches the line (R172, R302). -/
def State.loadHome (s : State) (r : Req) (sext : Bool) : State :=
  let cid := r.who.cid
  let useL1 := r.l1 && !(s.core cid).ways.isEmpty
  let q : Req := if useL1 then { r with pa := r.pa / 32 * 32, n := 32 } else r
  let at_ := s.answerAt q
  let s := s.l2Touch q.pa r.cache q.n
  let s := if useL1 then s.l1Fill cid r.pa else s
  let bs := if useL1 then (s.core cid).l1Bytes r.pa r.n else s.bytesAt r.part r.lvl r.va r.pa r.n
  s.answer { r with res := oldValue sext r.n (leVal bs) } at_ (.loadResponse r.tok)

/-- A store at its home, or into L1, where a plain one that waited for an earlier access goes (R172, R270, R302). -/
def State.storeHome (s : State) (r : Req) (v : W64) : State :=
  let part := r.part
  let cid := r.who.cid
  if r.l1 && !(s.core cid).ways.isEmpty then
    let lat := if (s.core cid).l1Hit r.pa r.n then l1Latency else s.accLat { r with pa := r.pa / 32 * 32, n := 32 }
    (s.l1Store cid r.pa (toLe r.n v.toNat)).answer r (s.now + s.ticks (dieOf cid) (lat + r.lat)) (.storeAck r.tok)
  else if s.storeFull part r.lvl r.pa then s.storeShort r
  else
    let at_ := s.answerAt r
    let bs := toLe r.n v.toNat
    let s := (s.l2Wrote r.pa r.cache r.n).putBytesAt part r.lvl r.va r.pa at_ bs
    let s := if r.lvl.isNone && !r.own then s.l1Echo r.who.cid r.pa bs else s
    s.answer r at_ (.storeAck r.tok)

/-- An atomic at its home: the value that it leaves, if it writes one (R177, R179).  What the issuing core's L1 holds dirty of its bytes
goes there first (R265; DEDUCED, log entry 14). -/
def State.atomicHome (s : State) (r : Req) (f : Nat → Option Nat) (sext : Bool) : State :=
  let s : State := if r.lvl.isNone && !r.own then s.l1Flush r.who.cid r.pa r.n else s
  let part := r.part
  let old := leVal (s.bytesAt part r.lvl r.va r.pa r.n)
  match f old with
  | none => ((s.l2Touch r.pa r.cache r.n).l1Forget r.who.cid r.pa r.n).answer { r with res := oldValue sext r.n old } (s.answerAt r)
      (.loadResponse r.tok)
  | some new =>
    if s.storeFull part r.lvl r.pa then s.storeShort r
    else
      let at_ := s.answerAt r
      let s := s.markReq r
      (((s.l2Touch r.pa r.cache r.n).putBytesAt part r.lvl r.va r.pa at_ (toLe r.n new)).l1Forget r.who.cid r.pa r.n).answer
        { r with res := oldValue sext r.n old } at_ (.loadResponse r.tok)

/-- A full/empty operation reaches its home: it is performed, or it waits (R173 to R175). -/
def State.feHome (s : State) (r : Req) (op : FeOp) (v : W64) : State :=
  if op.ready (Tags.full s.tags (r.pa / 8)) then
    if op.writes && s.storeFull (r.part) r.lvl r.pa then s.storeShort r
    else (s.l2Touch r.pa r.cache 8).fePerform r op v s.now
  else s.park r

/-! The units of vector accesses: each reads or writes its bytes at its home (R202 to R210). -/

/-- The registers that plain units fill, each unit filling a lane: for each register its value and the bits written. -/
def plainUnits (first : BitVec 4) (count : Nat) (us : List (VUnit × List Byte)) : List (BitVec 4 × VWord × VWord) :=
  (List.range count).map fun k =>
    let r := first + BitVec.ofNat 4 k
    let mine := us.filter fun u => u.1.reg == r
    (r, mine.foldl (fun acc u => acc ||| (BitVec.ofNat 4096 (leVal u.2) <<< u.1.lo)) 0#4096,
      mine.foldl (fun acc u => acc ||| (BitVec.ofNat 4096 (2 ^ (max 32 (8 * u.1.n)) - 1) <<< u.1.lo)) 0#4096)

/-- The OR of the flags of the active elements of width w. -/
def activeFlags (m : MWord) (w : Nat) (xs : List (Nat × Flags)) : Flags :=
  (xs.zipIdx.filter fun x => activeElem m w x.2).foldl (fun acc x => acc ||| x.1.2) fNone

/-- The floating format of a VLDM destination. -/
def MxDest.ff : MxDest → FF
  | .f32 => .f32
  | .bf16 => .bf16
  | .f16 => .f16

/-- What a vector load leaves: its registers with the bits written, and its flags. -/
def vresult (form : VForm) (m : MWord) (first : BitVec 4) (count : Nat) (us : List (VUnit × List Byte)) :
    List (BitVec 4 × VWord × VWord) × Flags :=
  match form with
  | .plain => (plainUnits first count us, fNone)
  | .tagged ty mode k blks =>
    let es := blks.flatMap fun b => blkElems b.1 b.2
    let xs := ((es.drop k).take ty.count).map fun e => e.toTy ty mode
    -- a data-class error sets NV whether or not its lane is active (R209)
    let bad : Flags := if ((es.drop k).take ty.count).any fun e => !e.ok then fNV else fNone
    ([(first, vecOf ty.bits (xs.map (·.1)), laneBits m)], activeFlags m ty.bits xs ||| bad)
  | .mx dest el =>
    let n := 4096 / (MxDest.ff dest).width
    let data := (us.filter fun u => u.1.lo == 0).flatMap (·.2)
    let xsc := (us.filter fun u => u.1.lo != 0).flatMap (·.2)
    let xs := (packedCodes data (MxElem.bits el) n).zipIdx.map fun c =>
      mxRound el c.1 (xsc.getD (c.2 / 32) 0#8).toNat 0 (MxDest.ff dest)
    ([(first, vecOf (MxDest.ff dest).width (xs.map (·.1)), laneBits m)], activeFlags m (MxDest.ff dest).width xs)

/-- n bytes from an address on, through L1, line by line: whether every line hit, the bytes, the state (R302). -/
def State.l1Span (s : State) (cid : Nat) : Nat → Nat → Nat → Bool × List Byte × State
  | 0, _, _ => (true, [], s)
  | fuel + 1, pa, n =>
    if n = 0 then (true, [], s)
    else
      let k := min n (32 - pa % 32)
      let hit := (s.core cid).l1Hit pa k
      let s1 : State := if hit then s.l1Use cid pa id else (s.l2Touch (pa / 32 * 32) 0 32).l1Fill cid pa
      let (h, bs, s2) := s1.l1Span cid fuel (pa + k) (n - k)
      (hit && h, (s1.core cid).l1Bytes pa k ++ bs, s2)

/-- A line's clean bytes are those that the home holds. -/
def State.current (s : State) (l : L1Line) : Bool :=
  (List.range 32).all fun k => !l.valid.getLsbD k || l.dirty.getLsbD k || lineByte l k == Memory.get s.mem (l.line * 32 + k)

/-- The lines of a core that meet n bytes lose what is clean in them where one of them differs from its home: a block that is one
single-copy-atomic unit is not put together from copies of different times (R204). -/
def State.refresh (s : State) (cid pa n : Nat) : State :=
  if (s.core cid).l1.all fun l => !l.meets pa n || s.current l then s
  else s.updCore cid fun c =>
    { c with l1 := (c.l1.filter fun l => !l.meets pa n || l.dirty != 0#32).map fun l =>
        if l.meets pa n then { l with valid := l.dirty } else l }

/-- The L1 lines that n bytes at an address overlap: their first address and their bytes. -/
def lineSpan (pa n : Nat) : Nat × Nat := (pa / 32 * 32, (pa + n + 31) / 32 * 32 - pa / 32 * 32)

/-- The latency of a unit's location, for an access through L1 that of the lines it overlaps. -/
def State.unitLat (s : State) (r : Req) (u : VUnit) (lvl : Option Nat) (inL1 : Bool) : Nat :=
  let y := if inL1 then lineSpan u.pa u.n else (u.pa, u.n)
  s.accLat { r with pa := y.1, n := y.2, own := u.own, lvl := lvl }

/-- The bytes that a unit reads, and the latency of its location. -/
def State.unitRead (s : State) (r : Req) (u : VUnit) : List Byte × Nat × State :=
  let cid := r.who.cid
  let pn := r.part
  let lvl := (s.part pn).level r.lvl u.va
  let inL1 := u.l1 && lvl.isNone && !(s.core cid).ways.isEmpty
  let lat := s.unitLat r u lvl inL1
  if inL1 then
    let s : State := if 32 < u.n then s.refresh cid u.pa u.n else s
    let (hit, bs, s) := s.l1Span cid (u.n / 32 + 2) u.pa u.n
    (bs, if hit then l1Latency else lat, s)
  else (s.bytesAt pn lvl u.va u.pa u.n, lat, s.l2Touch u.pa u.cache u.n)

/-- Reads units in order: each with its bytes and the latency of its location. -/
def State.unitsRead (s : State) (r : Req) : List VUnit → List (VUnit × List Byte × Nat) × State
  | [] => ([], s)
  | u :: us =>
    let (bs, l, s1) := s.unitRead r u
    let (rest, s2) := s1.unitsRead r us
    ((u, bs, l) :: rest, s2)

/-- The cause of the lowest unit that its home refuses, or that finds an uncorrectable error. -/
def State.unitsCause (s : State) (r : Req) : List VUnit → Option (VUnit × Nat)
  | [] => none
  | u :: us =>
    match s.homeCause r.who.cid u.own false u.pa u.n r.acc with
    | some c => some (u, c)
    | none => if u.l1 && s.evictsSpoilt r.who.cid u.pa u.n then some (u, memCause 4 r.acc) else s.unitsCause r us

/-! The requests of a vector instruction, one for each home (R356).  A home that refuses one of its lanes, or finds an error in one,
performs none of them; the other homes perform theirs; the instruction's cause is that of its lowest lane, and comes with the last of
the answers (DESIGN CHOICE, log entry 75). -/

/-- The request takes the free slots of the homes that it has still to reach (R354, R356). -/
def State.takeSlots (s : State) (r : Req) : Req :=
  { r with parts := r.parts ++ (s.freeHomes r.who.cid (s.slotless r)).map fun h => (h, none) }

/-- A unit's home takes its access now: the request to it has left, and the bank neither wakes nor is away. -/
def State.unitGoes (s : State) (r : Req) (u : VUnit) : Bool :=
  r.lanes.isEmpty ||
    ((r.parts.any fun p => p.1 == s.homeOf u.pa) && !s.waking u.pa && (s.awayAt u.pa).isNone)

/-- The part at home h is performed, its answer due at cycle c. -/
def Req.lands (r : Req) (h c : Nat) : Req :=
  { r with
    from_ := max r.from_ c
    parts := r.parts.map fun p => if p.1 == h then (h, some (max (p.2.getD 0) c)) else p }

/-- Lane u has failed; the lowest one that has is kept. -/
def Req.spoil (r : Req) (u : VUnit) (f : Fail) : Req :=
  let i := r.lanes.findIdx (· == u)
  { r with bad := match r.bad with
      | some (j, g) => if j ≤ i then some (j, g) else some (i, f)
      | none => some (i, f) }

/-- The parts among homes hs that are refused, us being the units that go now: those homes, the request, the state. -/
def State.partsFail (s : State) (r : Req) (us : List VUnit) : List Nat → List Nat × Req × State
  | [] => ([], r, s)
  | h :: hs =>
    match s.unitsCause r (us.filter fun u => s.homeOf u.pa == h) with
    | none => s.partsFail r us hs
    | some (u, c) =>
      let at_ := s.now + s.ticks (dieOf r.who.cid) (s.errLat r.who.cid u.own u.pa + r.lat)
      let t := (s.logRefusal r.who r.part u.pa r.acc c).lose r.who.cid u.pa u.n c
      let (bad, q, t') := t.partsFail ((r.lands h at_).spoil u { cause := c, addr := memAddr c u.va }) us hs
      (h :: bad, q, t')

/-- The answer of a vector request whose parts have all been performed: the last one's (R356). -/
def State.vecDone (s : State) (r : Req) (at_ : Nat) (ev : Ev) : State :=
  match r.bad with
  | some (_, f) => s.answer { r with err := some f } at_ (.errorResponse r.tok)
  | none => s.answer r at_ ev

/-- What is left of a vector request is tried again in the next cycle. -/
def State.vecLater (s : State) (r : Req) : State :=
  (s.updReq r.tok fun _ => { r with st := .sent }).after r.who.cid 1 (.homeRequest r.tok)

/-- The bytes that a lane has read. -/
def Req.laneBytes (r : Req) (u : VUnit) : List Byte := ((r.got.find? fun g => g.1 == u).map (·.2)).getD []

/-- A vector load at the homes that take it now.  Each cycle that the last of its requests leaves later delays its presence by one
(R356).  One with no active lane has no location, whose latency it does not take (R205; DESIGN CHOICE, log entry 58). -/
def State.vloadHome (s : State) (r : Req) (us : List VUnit) (form : VForm) (m : MWord) : State :=
  let goes := us.filter (s.unitGoes r)
  let late := us.filter fun u => !s.unitGoes r u
  let (bad, r1, s1) := s.partsFail r goes (goes.map fun u => s.homeOf u.pa).eraseDups
  let (read, s2) := s1.unitsRead r (goes.filter fun u => !bad.contains (s.homeOf u.pa))
  let after (l : Nat) : Nat := s.now + s.ticks (dieOf r.who.cid) (l + r.lat)
  let r2 := read.foldl (fun q x => q.lands (s.homeOf x.1.pa) (after x.2.2)) r1
  let r3 := { r2 with got := r.got ++ read.map fun (x : VUnit × List Byte × Nat) => (x.1, x.2.1)
                      lam := (read.map fun (x : VUnit × List Byte × Nat) => x.2.2).foldl max r.lam }
  if late.isEmpty then
    let (first, count) := match r.dst with
      | .v f n => (f, n)
      | _ => (0#4, 0)
    let (vs, fl) := vresult form m first count (r.lanes.map fun u => (u, r3.laneBytes u))
    s2.vecDone { r3 with vres := vs, flags := fl } (max r3.from_ (after r3.lam)) (.loadResponse r.tok)
  else s2.vecLater { r3 with kind := .vload late form m }

/-- One unit of a vector store: a version, L1, or its home (R204, R302, R308).  Answers whether the store was short. -/
def State.unitWrite (s : State) (r : Req) (u : VUnit) (v : Nat) : Bool × Nat × State :=
  let cid := r.who.cid
  let pn := r.part
  let lvl := (s.part pn).level r.lvl u.va
  let bs := toLe u.n v
  let inL1 := u.l1 && lvl.isNone && !(s.core cid).ways.isEmpty
  let lat := s.unitLat r u lvl inL1
  if inL1 then (false, if (s.core cid).l1Hit u.pa u.n then l1Latency else lat, s.l1Store cid u.pa bs)
  else if s.storeFull pn lvl u.pa then (true, 0, s)
  else
    let s := (s.l2Wrote u.pa u.cache u.n).putBytes pn lvl u.va u.pa bs
    (false, lat, if lvl.isNone && !u.own then s.l1Echo cid u.pa bs else s)

/-- Writes units in order, at each home up to the first that needs a version the store does not have; short holds the homes where one
did.  Answers what is left, the home and latency of each unit written, the state. -/
def State.unitsWrite (s : State) (r : Req) : List Nat → List (VUnit × Nat) → List (VUnit × Nat) × List (Nat × Nat) × State
  | _, [] => ([], [], s)
  | short, (u, v) :: us =>
    let h := s.homeOf u.pa
    if short.contains h then
      let (left, ls, t) := s.unitsWrite r short us
      ((u, v) :: left, ls, t)
    else
      match s.unitWrite r u v with
      | (true, _, _) =>
        let (left, ls, t) := s.unitsWrite r (h :: short) us
        ((u, v) :: left, ls, t)
      | (false, l, s') =>
        let (left, ls, t) := s'.unitsWrite r short us
        (left, (h, l) :: ls, t)

/-- The parts of a vector store that find the revision store full and no join to wait for fail (R308). -/
def State.partsShort (s : State) (r : Req) (left : List (VUnit × Nat)) : Req :=
  left.foldl (fun q x => (q.lands (s.homeOf x.1.pa) (s.now + s.ticks (dieOf r.who.cid) (s.accLat { r with pa := x.1.pa, n := x.1.n } + r.lat))).spoil
    x.1 { cause := 0x80, addr := 0 }) r

/-- A vector store at the homes that take it now.  One of which a part is held, or leaves later, is acknowledged no earlier than the
parts performed before (R286, R356). -/
def State.vstoreHome (s : State) (r : Req) (us : List (VUnit × Nat)) : State :=
  let goes := us.filter fun u => s.unitGoes r u.1
  let late := us.filter fun u => !s.unitGoes r u.1
  let (bad, r1, s1) := s.partsFail r (goes.map (·.1)) (goes.map fun u => s.homeOf u.1.pa).eraseDups
  let (left, ls, t) := s1.unitsWrite r [] (goes.filter fun u => !bad.contains (s.homeOf u.1.pa))
  let r2 := ls.foldl (fun q x => q.lands x.1 (s.now + s.ticks (dieOf r.who.cid) (x.2 + r.lat))) r1
  let held := !left.isEmpty && !(s.part r.part).joins.isEmpty
  let r3 := if held then r2 else t.partsShort r2 left
  match (if held then left ++ late else late) with
  | [] => t.vecDone r3 (max r3.from_ (s.now + s.ticks (dieOf r.who.cid) r.lat)) (.storeAck r.tok)
  | (u, v) :: rest =>
    let q := { r3 with kind := .vstore ((u, v) :: rest), va := u.va, pa := u.pa }
    if held then t.storeShort q else t.vecLater q

/-! A request reaches its home. -/

/-- Whether a scalar access may use a FIFO bank's windows. -/
def ReqKind.scalar : ReqKind → Bool
  | .load _ => true
  | .store _ => true
  | .push _ => true
  | .pop => true
  | _ => false

/-- An earlier push, or pop, waits at the bank: accesses are served in their order of arrival (R185). -/
def State.fifoBusy (s : State) (r : Req) : Bool :=
  match s.loc r.pa with
  | .scratch c off => !(s.fifoWaiters c (off / 0x8000) (r.kind != .pop)).isEmpty
  | _ => false

/-- Performs a request that has reached its home and is blocked by nothing. -/
def State.perform (s : State) (r : Req) : State :=
  match r.kind with
  | .value v => s.answer { r with res := v } (s.now + s.ticks (dieOf r.who.cid) r.lat) (.loadResponse r.tok)
  | .vload us form m => s.vloadHome r us form m
  | .vstore us => s.vstoreHome r us
  | k =>
    match (match s.homeCause r.who.cid r.own k.scalar r.pa (if k.scalar && r.n = 512 then 1 else r.n) r.acc with
      | some c => some c
      | none => if r.l1 && s.evictsSpoilt r.who.cid r.pa then some (memCause 4 r.acc) else none) with
    | some c => s.failReq r c (s.errLat r.who.cid r.own r.pa + r.lat)
    | none =>
      match r.kind with
      | .load sext => s.loadHome r sext
      | .store v => s.storeHome r v
      | .amo op b =>
        s.atomicHome r (fun old => some (amoResult op r.n old (b.toNat % 2 ^ (8 * r.n)))) (op != .fadd && r.n == 4)
      | .cas e b =>
        s.atomicHome r (fun old => if old = e.toNat % 2 ^ (8 * r.n) then some (b.toNat % 2 ^ (8 * r.n)) else none)
          (r.n == 4)
      | .fe op v => s.feHome r op v
      | .push _ => if s.fifoBusy r then s.park r else (s.park r).fifoTry r
      | _ => if s.fifoBusy r then s.park r else (s.park r).fifoTry r

/-- An access to scratchpad. -/
def State.onScratch (s : State) (r : Req) : Bool := r.spans.any fun x => match s.loc x.1 with
  | .scratch _ _ => true
  | _ => false

/-- An acquire that waits: a fence, until the loads that its thread issued before it have returned (R180); one of quad scope or
wider, until the thread's earlier accesses to scratchpad, through either alias, are performed (R266). -/
def State.fenceWaits (s : State) (r : Req) : Bool :=
  r.acq && s.reqs.any fun q => decide (q.tok < r.tok) && q.who == r.who &&
    (((match r.kind with
       | .value _ => true
       | _ => false) && !q.kind.isStore && !q.answered) ||
      (r.wide && (q.st == .sent || q.st == .waiting) && s.onScratch q))

/-- The switched-out partition for which a request's message is kept: that of its thread, or that of its bank, where no other part of
it is still to be performed (R392). -/
def State.keptFor (s : State) (r : Req) : Option Nat :=
  if (s.part r.part).away then some r.part
  else if r.spans.all fun x => (s.awayAt x.1).isSome then (r.spans.filterMap fun x => s.awayAt x.1).head?
  else none

/-- The core of a bank receives a request from another core and answers it (R388). -/
def State.bankMsgs (s : State) (r : Req) : State :=
  match s.loc r.pa with
  | .scratch c _ => if r.own || c == r.who.cid then s else (s.gotMsgs c 1).sentMsgs c 1
  | _ => s

/-- As bankMsgs, for each of the homes that take a part of a vector request now (R356). -/
def State.partMsgs (s : State) (r : Req) : State :=
  if r.lanes.isEmpty then s.bankMsgs r
  else
    let goes := r.units.filter (s.unitGoes r)
    (goes.map fun u => s.homeOf u.pa).eraseDups.foldl (fun t h =>
      match goes.find? fun u => s.homeOf u.pa == h with
      | some u => t.bankMsgs { r with pa := u.pa, own := u.own }
      | none => t) s

/-- A release of quad scope or wider cleans its core's L1: answers the lines cleaned and the state, where no line has an
uncorrectable error, and the address of the first that has one (R171, R300). -/
def State.cleansFor (s : State) (r : Req) : Nat × State × Option Nat :=
  if r.rel && r.wide then
    let c := s.l1Clean r.who.cid fun _ => true
    (c.1, c.2, s.spoiltLine r.who.cid fun _ => true)
  else (0, s, none)

/-- A release whose cleaning has found an uncorrectable error in the line at a fails, with its own access code and address (R169,
R300).  A FENCE has neither: its cause has access code 1, and records the line's physical address (DESIGN CHOICE, log entry 62). -/
def State.cleanFails (s : State) (r : Req) (a : Nat) : State :=
  if r.n = 0 then s.failReq { r with va := a } (memCause 4 1) (s.accLat r + r.lat)
  else s.failReq r (memCause 4 r.acc) (s.accLat r + r.lat)

/-- A release is about to be performed.  What an earlier store, which waited, has left dirty in L1 since it issued goes home first, a
line in a cycle, and the release is performed behind that (R171). -/
def State.lastClean (s : State) (r : Req) (go : State → State) : State :=
  if r.swept then go s
  else
    match s.cleansFor r with
    | (_, t, some a) => t.cleanFails r a
    | (0, t, none) => go t
    | (k, t, none) =>
      (t.updReq r.tok fun q => { q with swept := true, from_ := t.now + t.ticks (dieOf r.who.cid) k }).after r.who.cid k
        (.homeRequest r.tok)

/-- A request of one home, whose bank wakes. -/
def State.bankWakes (s : State) (r : Req) : Bool := r.lanes.isEmpty && r.spans.any fun x => s.waking x.1

/-- A request reaches its home.  It waits there while earlier accesses must be performed first or its bank wakes. -/
def execHomeRequest (s : State) : Host.Outcome State Fault Refusal :=
  .next (match s.evt with
    | .homeRequest tok =>
      match s.req tok with
      | none => s
      | some r =>
        match s.keptFor r with
        | some p => s.urgent (.messageSave p tok)
        | none =>
          if r.st != .sent then s
          else
            let q := s.takeSlots r
            let t : State := s.updReq tok fun _ => q
            if t.blocks q || t.fenceWaits q || t.bankWakes q then t.after r.who.cid 1 (.homeRequest tok)
            else t.lastClean q fun t => (t.partMsgs q).perform q
    | _ => s)

/-! Answers arrive. -/

/-- The cause held for a failed destination (R169). -/
def State.failDest (s : State) (r : Req) (f : Fail) : State :=
  match r.dst with
  | .s n => s.updWho r.who fun t => t.setS n { t.regs.s.get n.toFin with pend := false, pres := false, fail := some f }
  | .v first k => (List.range k).foldl (fun s i => s.updWho r.who fun t =>
      let n := first + BitVec.ofNat 4 i
      t.setV n { t.regs.v.get n.toFin with pend := false, pres := false, fail := some f }) s
  | .none => s.updWho r.who fun t => { t with errs := t.errs ++ [f] }
  | .slot =>
    if (s.whoThread r.who).isSome then s.updThread r.who.cid r.who.slot fun t => { t with errs := t.errs ++ [f] } else s

/-- A request leaves the machine once answered; its slots are free in the next cycle (R354). -/
def State.closeReq (s : State) (tok : Nat) : State :=
  match s.req tok with
  | none => s
  | some r => (s.gotMsgs r.who.cid r.msgs).updReq tok fun r => { r with st := .answered s.now }

/-- Vector results land: the bits written change, and the registers become present. -/
def State.landVec (s : State) (r : Req) : State :=
  r.vres.foldl (fun s v => s.updWho r.who fun t =>
    t.setV v.1 (VCell.full (mergeBits (t.regs.v.get v.1.toFin).val v.2.1 v.2.2))) s

/-- A held thread's bundle can commit, or takes its cause. -/
def Thread.wake (t : Thread) (tok : Nat) (h : Hold) : Thread := if t.hold = .busy tok then { t with hold := h } else t

/-- The response of a load, atomic, full/empty access or status read arrives (R14, R172, R202). -/
def execLoadResponse (s : State) : Host.Outcome State Fault Refusal :=
  .next (match s.evt with
    | .loadResponse tok =>
      match s.req tok with
      | none => s
      | some r =>
        if (s.part r.part).away then s.urgent (.messageSave r.part tok)
        else
        let s := s.closeReq tok
        -- an acquire at quad scope or wider then invalidates the core's clean lines, in 4 cycles (R171)
        let s := if r.acq && r.wide then s.acquire r.who else s
        if r.holds then (s.landVec r).updWho r.who fun t => t.wake tok (.done r.res)
        else
          match r.dst with
          | .s n => s.writeS r.who n r.res
          | .v _ _ =>
            match (s.whoThread r.who).bind fun t => enabledFlag t.csr.fst r.flags with
            | some i => s.failDest r { cause := 0x10 + i, addr := 0 }
            | none => (s.landVec r).updWho r.who fun t => t.orFst r.flags
          | .none => s
          | .slot => s
    | _ => s)

/-- The acknowledgement of a store arrives (R286). -/
def execStoreAck (s : State) : Host.Outcome State Fault Refusal :=
  .next (match s.evt with
    | .storeAck tok =>
      match s.req tok with
      | none => s
      | some r =>
        if (s.part r.part).away then s.urgent (.messageSave r.part tok)
        else
          let s := s.closeReq tok
          if r.holds then s.updWho r.who fun t => t.wake tok (.done r.res) else s
    | _ => s)

/-- An error response arrives (R169): at a held bundle, at the failed destination, or for the next bundle. -/
def execErrorResponse (s : State) : Host.Outcome State Fault Refusal :=
  .next (match s.evt with
    | .errorResponse tok =>
      match s.req tok with
      | none => s
      | some r =>
        match r.err with
        | none => s
        | some f =>
          if (s.part r.part).away then s.urgent (.messageSave r.part tok)
          else
          let s := s.closeReq tok
          if r.holds then s.updWho r.who fun t => t.wake tok (.fail f) else s.failDest r f
    | _ => s)

/-- A wait limit has run out by the end of cycle now. -/
def Req.overdue (r : Req) (now : Nat) : Bool := (r.st == .waiting || r.st == .sent) && r.limit.any fun c => decide (c ≤ now)

/-- The condition of a full/empty request on its way holds at its home, and nothing keeps it from being performed: it is
performed, and no trap follows (R175). -/
def State.inTime (s : State) (r : Req) : Bool :=
  r.st == .sent && decide (r.from_ ≤ s.now) && !s.blocks r && !s.waking r.pa && (s.keptFor r).isNone &&
    (r.swept || (s.cleansFor r).1 == 0) &&
    (match r.kind with
     | .fe op _ => op.ready (Tags.full s.tags (r.pa / 8)) && !(op.writes && s.storeFull r.part r.lvl r.pa)
     | _ => false)

/-- When a request that has been sent is due at its home. -/
def State.arrival (s : State) (tok : Nat) : Nat :=
  ((s.agenda.find? fun d => d.what == .homeRequest tok).map (·.at_)).getD s.now

/-- The wait limit of a full/empty request expires: the request is performed if its condition holds, and otherwise withdrawn
and WAITLIMIT is raised (R175). -/
def execWaitlimitExpiry (s : State) : Host.Outcome State Fault Refusal :=
  .next (match s.evt with
    | .waitlimitExpiry tok =>
      match s.req tok with
      | none => s
      | some r =>
        if s.inTime r then
          match r.kind with
          | .fe op v => s.lastClean r fun t => ((t.bankMsgs r).l2Touch r.pa r.cache 8).fePerform r op v (s.arrival tok)
          | _ => s
        else if r.st = .waiting || r.st = .sent then
          let s1 : State := { s.gotMsgs r.who.cid r.msgs with reqs := s.reqs.filter fun q => q.tok != tok }
          if (s1.thread r.who.cid r.who.slot).any fun t => t.uid == r.who.uid && t.hold == .busy tok then
            { s1 with cur := { Cur.idle with cid := r.who.cid, slot := r.who.slot } }.takeTrap 6 0x49 0
          else s1
        else s
    | _ => s)

/-- The core whose copy-out has a number. -/
def State.outCore (s : State) (tok : Nat) : Option Nat := (s.cores.find? fun c => c.xfers.any fun x => x.tok == tok).map (·.cid)

/-- A merge has freed a version, or no join is left: the oldest held write, a request's or a copy-out's, goes on (R308). -/
def execRevstoreHoldRelease (s : State) : Host.Outcome State Fault Refusal :=
  .next (match s.evt with
    | .revstoreHoldRelease pn =>
      match (s.part pn).heldWrites with
      | [] => s
      | tok :: rest =>
        match s.outCore tok with
        | some c => s.urgent (.copyOutComplete c tok)
        | none =>
          let s := s.updPart pn fun p => { p with heldWrites := rest }
          match (s.req tok).filter fun r => r.st == .waiting with
          -- a write that is gone takes no version: the next does
          | none => s.urgent (.revstoreHoldRelease pn)
          -- one that is held again keeps its place
          | some r => (s.perform r).updPart pn fun p =>
              if p.heldWrites.contains tok then { p with heldWrites := tok :: p.heldWrites.filter (· != tok) } else p
    | _ => s)

/-- A bank's waking, or the change of its mode, ends, unless a later one is under way (R184, R186, R299). -/
def execBankWakeDone (s : State) : Host.Outcome State Fault Refusal :=
  .next (match s.evt with
    | .bankWakeDone cid b =>
      if s.agenda.any fun d => d.what == .bankWakeDone cid b then s
      else s.updCore cid fun c => { c with waking := c.waking &&& ~~~(1#32 <<< b) }
    | _ => s)

end Sys2Proof.Machine
end

