-- ==== Sys2Proof/Machine/Kin.lean ====
section
/-! DEFINITION. Families as they end: the files and slots they hold (R26, R118), their status (R122), joins and merges
(R136, R246, R348, R349), kills and purges (R124, R139, R380), and the end of a slice (R325). -/

namespace Sys2Proof.Machine

/-! The register files and slots of a core (R26, R118). -/

def Core.scFree (c : Core) : Nat := 320 - (c.regUse.map (·.sc)).sum

def Core.vecFree (c : Core) : Nat := 64 - (c.regUse.map (·.vec)).sum

/-- The free program slots of a core: no thread, and no share of a family keeps them. -/
def State.freeSlots (s : State) (cid : Nat) : List Nat :=
  let c := s.core cid
  let here := s.fams.filter fun f => (s.part f.part).gsst != .out
  let kept := here.flatMap fun f => (f.shares.filter fun x => x.cid == cid).flatMap (·.slots)
  (List.range 16).filter fun k => (c.thread k).isNone && !kept.contains k && !(c.runs.any fun r => r.slot == k)

/-- The step i is the next, unless it is due already. -/
def State.urgentOnce (s : State) (i : Ev) : State :=
  if s.agenda.any fun d => d.what == i && decide (d.at_ ≤ s.now) then s else s.urgent i

/-- Lets work that waits for slots and entries of a core try again (R324, R331, R385). -/
def State.freed (s : State) (cid : Nat) : State :=
  let s : State := match s.partOf cid with
    | some p =>
      if s.slices.any fun x => x.part == p.num && x.st == .waiting then s.urgentOnce (.sliceDispatch p.num) else s
    | none => s
  let s : State := s.contq.foldl (fun s q => if q.recs.isEmpty then s else s.urgentOnce (.continuationHeadPlace q.sg)) s
  s.fams.foldl (fun s f =>
    if f.st = .replayWait && (f.place.cores ++ f.place.dcores).contains cid then s.urgent (.taskReplay f.uid) else s) s

/-- Frees the family-table entries that a family holds, on every core (R25), for which work may wait (R324, R331). -/
def State.freeEnts (s : State) (uid : Nat) : State :=
  let held := (s.cores.filter fun c => c.ents.toList.contains (some uid)).map (·.cid)
  held.foldl (fun s c => s.freed c)
    { s with cores := s.cores.map fun c => { c with ents := c.ents.map fun e => if e == some uid then none else e } }

/-! Status (R122). -/

/-- The winning breaker and the break value; a family that was killed or died has none (R123, R124). -/
def Family.winner (f : Family) : Option (Nat × W64) := if f.ended = .none then f.brk else none

def Family.statusWord (f : Family) : W64 :=
  let code := if !f.st.over then 0xFF else
    match f.ended with
    | .none => if f.brk.isSome then 1 else 0
    | .killed => 2
    | .died c => c * 2 ^ 16 + 3
  BitVec.ofNat 64 (code + f.replay * 2 ^ 8)

/-- The shareds that a family returns: those of its last member or winning breaker; the values of hsrc at CREATE for a
family that was killed or died, or had no member (R36 rules 6 and 7, R124). -/
def Family.finals (f : Family) : List W64 :=
  let last := match f.brk with
    | some (b, _) => b
    | none => f.n - 1
  (List.range f.desc.s).map fun j =>
    let orig := f.init.getD j 0#64
    if f.ended != .none || f.n = 0 then orig
    else
      match f.outs.find? fun l => l.member == last && l.j == j with
      | some l => l.val
      | none => orig

/-! Logs in device memory (R246, R366, R382). -/

/-- Writes dwords at a physical address. -/
def State.putDwords (s : State) (pa : Nat) : List W64 → State
  | [] => s
  | w :: ws => ((s.l2Wrote pa 0 8).putBytes 0 none 0 pa (toLe 8 w.toNat)).putDwords (pa + 8) ws

/-- Appends a death notice to the partition's death log. -/
def State.deathLog (s : State) (part : Nat) (ws : List W64) : State :=
  let p := s.part part
  let s : State := s.putDwords (p.dlbase.toNat + 32 * (p.dlcnt.toNat % 2 ^ (p.dlsz.toNat % 32))) ws
  s.updPart part fun p => { p with dlcnt := p.dlcnt + 1#64 }

/-- Appends an entry to the conflict log; a full ring overwrites its oldest entry and counts it. -/
def State.conflictLog (s : State) (part : Nat) (ws : List W64) : State :=
  let p := s.part part
  let k := p.clsz.toNat % 32
  let s : State := s.putDwords (p.clbase.toNat + 32 * (p.clcnt.toNat % 2 ^ k)) ws
  s.updPart part fun p =>
    { p with clcnt := p.clcnt + 1#64, clovf := if 2 ^ k ≤ p.clcnt.toNat then p.clovf + 1#64 else p.clovf }

/-! Merges (R246, R348). -/

/-- Element bits of an ELEM code. -/
def elemBits (e : Nat) : Nat := if e = 0 then 8 else if e = 1 || 5 ≤ e then 16 else if e = 3 then 64 else 32

/-- The floating format of an ELEM code. -/
def elemFF (e : Nat) : FF := if e = 4 then .f32 else if e = 5 then .bf16 else .f16

/-- What a changed unit of w bits becomes, by merge type. -/
def mergeUnit (merge elem w a c p : Nat) : Nat :=
  let f := elemFF elem
  if merge = 2 then p
  else if merge = 3 then (p + c + 2 ^ w - a) % 2 ^ w
  else if merge = 4 then (fAdd f .rne p (fSub f .rne c a).1).1
  else if merge = 5 then (if sElem w p < sElem w c then c else p)
  else if merge = 6 then (if sElem w c < sElem w p then c else p)
  else if merge = 7 then max p c
  else if merge = 8 then min p c
  else if merge = 9 then (fMinMax f true p c).1
  else if merge = 10 then (fMinMax f false p c).1
  else if merge = 11 then Nat.xor p (Nat.land (Nat.xor a c) (Nat.xor p c))
  else c

/-- The width of a merge's units: bytes for CHILD and CONFLICT; BITS works on bytes too, bit by bit. -/
def mergeWidth (merge elem : Nat) : Nat := if merge = 1 || merge = 11 || merge = 12 then 8 else elemBits elem

/-- Unit i of w bits of a block. -/
def blockUnit (d : BitVec 512) (w i : Nat) : Nat := (d.extractLsb' (w * i) w).toNat

/-- The merge of a block: units that are not changed keep p. -/
def mergeBlockData (merge elem : Nat) (a c p : BitVec 512) : BitVec 512 :=
  let w := mergeWidth merge elem
  BitVec.ofNat 512 (packElems w ((List.range (512 / w)).map fun i =>
    let (x, y, z) := (blockUnit a w i, blockUnit c w i, blockUnit p w i)
    if x = y then z else mergeUnit merge elem w x y z))

/-- The CONFLICT entries of a block: elements with c ≠ a, p ≠ a and p ≠ c. -/
def conflicts (elem va : Nat) (a c p : BitVec 512) : List (Nat × Nat × Nat) :=
  let w := elemBits elem
  (List.range (512 / w)).filterMap fun i =>
    let (x, y, z) := (blockUnit a w i, blockUnit c w i, blockUnit p w i)
    if x != y && z != x && z != y then some (va + i * w / 8, z, y) else none

/-- A block as bytes at an address. -/
def bytesBlock (bs : List Byte) : BitVec 512 := BitVec.ofNat 512 (leVal bs)

/-- What the thread that a join is for meets in it: its SYNC's bundle takes the cause, or its next bundle does (R306; DESIGN CHOICE,
log entry 64). -/
def State.joinFails (s : State) (j : Join) (f : Fail) : State :=
  s.updWho j.who fun t => if t.hold = .busy j.fam then { t with hold := .fail f } else { t with errs := t.errs ++ [f] }

/-- The parent's value of a version's block is in memory, and is read from a block of HBM with an uncorrectable error (R306, R348). -/
def State.mergeSpoilt (s : State) (part : Nat) (r : Rev) (v : Version) : Bool :=
  (r.region v.va).isSome && ((s.part part).level r.parent v.va).isNone && s.spoilt (v.blk * 64) 64 && !s.l2Hit (v.blk * 64) 64

/-- Merges one version of a child revision into the level that its block belongs to from the parent revision (R273, R348),
and frees it. -/
def State.mergeVersion (s : State) (part : Nat) (r : Rev) (v : Version) (tag : Nat) : State :=
  let p := s.part part
  let pa := v.blk * 64
  let free (s : State) : State := s.updPart part fun p =>
    { p with versions := p.versions.filter fun x => !(x.rev == r.id && x.blk == v.blk) }
  match r.region v.va with
  | none => free s
  | some g =>
    let q := p.level r.parent v.va
    let a := bytesBlock ((List.range 64).map fun k => p.anc r.id (v.va + k) (pa + k))
    let cur := bytesBlock (s.bytesAt part q v.va pa 64)
    let res := mergeBlockData g.merge g.elem a v.data cur
    let s : State := if g.merge = 12 then
        (conflicts g.elem v.va a v.data cur).foldl (fun s e => s.conflictLog part
          [BitVec.ofNat 64 e.1, BitVec.ofNat 64 e.2.1, BitVec.ofNat 64 e.2.2,
           BitVec.ofNat 64 (g.elem * 2 ^ 32 + tag)]) s
      else s
    let s : State := free s
    if a = v.data then s
    else
      let s : State := match r.parent.bind p.rev with
        | some pr => if (pr.region v.va).isSome then s else s.markSide part r.parent q
        | none => s
      match q with
      | none => ((s.l2Touch pa 0 64).l2Wrote pa 0 64).putBytes part none v.va pa (toLe 64 res.toNat)
      | some id => s.updPart part fun p =>
          { p with versions := (p.versions.filter fun x => !(x.rev == id && x.blk == v.blk)) ++
              [{ rev := id, va := v.va, blk := v.blk, data := res }] }

/-- A scalar store or an atomic that has still to be performed, and that would write a version. -/
def Req.writesVersion (q : Req) (id : Nat) : Bool :=
  q.lvl == some id &&
    (match q.kind with
     | .store _ => true
     | .amo _ _ => true
     | .cas _ _ => true
     | _ => false)

/-- A revision is id or lies within it. -/
def Part.within (p : Part) (id : Nat) : Nat → Option Nat → Bool
  | 0, _ => false
  | _ + 1, none => false
  | n + 1, some k => k == id || p.within id n ((p.rev k).bind (·.parent))

/-- A request that has still to be performed writes nothing of a revision that is discarded, its units outside it being those of the
parent revision (R273, R280, R380). -/
def Req.withoutRev (p : Part) (id : Nat) (q : Req) : Req :=
  let up := (p.rev id).bind (·.parent)
  match q.kind with
  | .vload _ _ _ => if q.lvl = some id then { q with lvl := up } else q
  | .vstore us =>
    { q with kind := .vstore (us.filter fun u => p.level q.lvl u.1.va != some id), lvl := if q.lvl = some id then up else q.lvl }
  | _ => if q.writesVersion id then { q with kind := .value 0#64, lvl := none } else q

/-- What the requests and copy-outs under way have still to write of a revision goes with it (R273, R280, R380, R385). -/
def State.dropWrites (s : State) (part id : Nat) : State :=
  let p := s.part part
  let out (u : XUnit) : XUnit := if u.lvl = some id then { u with bytes := [] } else u
  let own := (((p.rev id).map (·.snap)).getD []).filterMap fun g => if g.merge != 0 then some (g.base, g.size) else none
  -- what a command that waits has still to read or write is the parent revision's
  let cmd (x : Xfer) : CopyCmd :=
    if !x.whole && p.within id (p.revs.length + 1) x.cmd.lvlFam then
      { x.cmd with
        lvlFam := if x.cmd.lvlFam = some id then (p.rev id).bind (·.parent) else x.cmd.lvlFam, gone := own ++ x.cmd.gone }
    else x.cmd
  { s with
    reqs := s.reqs.map fun q => if q.part == part && (q.st == .sent || q.st == .waiting) then q.withoutRev p id else q
    cores := s.cores.map fun c =>
      if p.hasSg (sgOf c.cid) then
        { c with xfers := c.xfers.map fun x => { x with cmd := cmd x, units := if x.cmd.form = 1 then x.units.map out else x.units } }
      else c }

/-- Versions have been freed: each held write, oldest first, may find one (R308). -/
def State.serveHeld (s : State) (part : Nat) : State :=
  (s.part part).heldWrites.foldl (fun s _ => s.urgent (.revstoreHoldRelease part)) s

/-- Discards a revision with its versions; held writes may then find free ones (R124, R308). -/
def State.dropRev (s : State) (part id : Nat) : State :=
  ((s.dropWrites part id).updPart part fun p =>
    { p with revs := p.revs.filter fun r => r.id != id, versions := p.versions.filter fun v => v.rev != id }).serveHeld part

/-! Joins (R136, R349). -/

/-- Versions in ascending address order. -/
def insVersion (v : Version) : List Version → List Version
  | [] => [v]
  | x :: rest => if v.va ≤ x.va then v :: x :: rest else x :: insVersion v rest

/-- Cycles from the beginning of a merge phase to its block merges, within the bound of R350 (DESIGN CHOICE, log entry 6). -/
def mergeDelay : Nat := 4

/-- A join is ready to merge: none into its own revision is left, and of those that its SYNC has listed into the same revision, none
before it (R136, R349). -/
def Part.joinReady (p : Part) (j : Join) : Bool :=
  !p.joins.any fun x => x.into == some j.rev || (x.sync == j.sync && x.into == j.into && decide (x.tok < j.tok))

/-- Numbers the joins that have become ready, in the order in which they have. -/
def State.readyJoins (s : State) (part : Nat) : State :=
  ((s.part part).joins.filter fun j => j.ready.isNone && (s.part part).joinReady j).foldl (fun s j =>
    let (n, s) := s.fresh
    s.updPart part fun p => { p with joins := p.joins.map fun x => if x.tok == j.tok then { x with ready := some n } else x }) s

/-- Joins in the order in which they became ready. -/
def insReady (j : Join) : List Join → List Join
  | [] => [j]
  | x :: rest => if j.ready.getD 0 < x.ready.getD 0 then j :: x :: rest else x :: insReady j rest

/-- A join may begin: it is ready, and no other into the same revision is under way (R349). -/
def Part.joinFree (p : Part) (j : Join) : Bool :=
  j.ready.isSome && !p.joins.any fun x => x.begun && x.into == j.into && x.tok != j.tok

/-- Begins a join that may begin. -/
def State.beginJoin (s : State) (part : Nat) (j : Join) : State :=
  let p := s.part part
  if j.begun || !p.joinFree j then s
  else
    let bs := (p.versions.filter fun v => v.rev == j.rev).foldl (fun acc v => insVersion v acc) []
    (s.updPart part fun p => { p with joins := p.joins.map fun x =>
      if x.tok == j.tok then { j with begun := true, blocks := bs } else x }).after j.who.cid mergeDelay (.mergeBlock j.tok)

/-- Begins the joins of a partition that may begin, in the order in which they became ready (R349). -/
def State.beginJoins (s : State) (part : Nat) : State :=
  let t := s.readyJoins part
  ((t.part part).joins.foldl (fun l j => insReady j l) []).foldl (fun s j => s.beginJoin part j) t

/-- The joiner of a family wants it merged: the join is listed, with the others of its SYNC. -/
def State.queueJoin (s : State) (f : Family) (id sync : Nat) (who : Who) : State :=
  if (s.part f.part).joins.any fun j => j.fam == f.uid then s
  else
    let (tok, s) := s.fresh
    let j : Join := { tok := tok, fam := f.uid, rev := id, into := ((s.part f.part).rev id).bind (·.parent), blocks := [],
                      who := who, begun := false, sync := sync, ready := none }
    s.updPart f.part fun p => { p with joins := p.joins ++ [j] }

/-- A joiner wants families merged: every join is listed before the first begins, so that each comes after those of its own
descendants (R349). -/
def State.queueJoins (s : State) (part : Nat) (l : List (Family × Nat)) (who : Who) : State :=
  (l.foldl (fun t x => t.queueJoin x.1 x.2 s.ctr who) s).beginJoins part

/-- The revision of a family that is live and still to merge. -/
def State.unmerged (s : State) (f : Family) : Option Nat :=
  match f.rev with
  | some id => if f.ended = .none && ((s.part f.part).rev id).any fun r => r.fam == f.uid then some id else none
  | none => none

/-- A join's last block is merged: the revision is freed, the joiner goes on and the next join begins. -/
def State.endJoin (s : State) (part : Nat) (j : Join) : State :=
  let s : State := s.dropRev part j.rev
  let s : State := s.updPart part fun p => { p with joins := p.joins.filter fun x => x.tok != j.tok }
  let s : State := s.beginJoins part
  let s : State := s.serveHeld part
  -- an inline family's status comes 2 cycles after the merge (R136)
  let lag := if (s.fam j.fam).any fun f => f.kind == .inlined then 2 else 0
  match s.whoThread j.who with
  | some t => if t.hold = .busy j.fam then s.after j.who.cid lag (.syncComplete j.who.cid j.who.slot j.fam) else s
  | none => s

/-- The partition and record of a join under way. -/
def State.join (s : State) (tok : Nat) : Option (Nat × Join) :=
  s.parts.findSome? fun p => (p.joins.find? fun j => j.tok == tok).map fun j => (p.num, j)

/-- One block of a join is merged at its home, the lowest first (R348, R349). -/
def execMergeBlock (s : State) : Host.Outcome State Fault Refusal :=
  .next (match s.evt with
    | .mergeBlock tok =>
      match s.join tok with
      | none => s
      | some (part, j) =>
        match j.blocks, (s.part part).rev j.rev with
        | v :: rest, some r =>
          let s : State :=
            if s.mergeSpoilt part r v then
              (s.joinFails j { cause := 0x30, addr := v.va }).updPart part fun p =>
                { p with versions := p.versions.filter fun x => !(x.rev == r.id && x.blk == v.blk) }
            else s.mergeVersion part r v (part * 2 ^ 8 + j.rev)
          let s : State := s.updPart part fun p => { p with joins := p.joins.map fun x =>
            if x.tok == tok then { x with blocks := rest } else x }
          let s : State := if (s.part part).heldWrites.isEmpty then s else s.urgent (.revstoreHoldRelease part)
          if rest.isEmpty then s.endJoin part j else s.urgent (.mergeBlock tok)
        | _, _ => s.endJoin part j
    | _ => s)

/-- The families whose revisions a joiner must merge for f: its unjoined REV descendants in creation order, then f. -/
def State.joinList (s : State) (f : Family) : List (Family × Nat) :=
  let under := s.famsWithin fun x => x.uid == f.uid
  (s.fams.filter fun x => under.contains x.uid && x.uid != f.uid).filterMap (fun x => (s.unmerged x).map fun id => (x, id)) ++
    ((s.unmerged f).map fun id => (f, id)).toList

/-- The cycle in which the notice of a family's end is due at its creator, where it is still on its way (R25, R136). -/
def State.noticeDue (s : State) (f : Family) : Option Nat :=
  (s.agenda.find? fun d => d.what == .syncComplete f.parentCid f.parentSlot f.uid && decide (s.now < d.at_)).map (·.at_)

/-- The creator's wait for a family that is done goes on: the merge, or SYNC's completion 4 cycles after the last END
(R136). -/
def State.syncReady (s : State) (f : Family) (who : Who) : State :=
  match s.joinList f with
  | [] =>
    if f.kind = .inlined || f.kind = .empty then s.after who.cid 2 (.syncComplete who.cid who.slot f.uid)
    else s.atCycle ((s.noticeDue f).getD s.now) (.syncComplete who.cid who.slot f.uid)
  | l => s.queueJoins f.part l who

/-! The end of families and slices. -/

/-- A slice ends with a status and a cause (R325); its object is signalled (R323). -/
def State.endSlice (s : State) (uid status cause : Nat) : State :=
  match s.slice uid with
  | none => s
  | some sl =>
    if sl.st = .ended then s
    else (s.updSlice uid fun x => { x with st := .ended, status := status, cause := cause }).urgent (.completionSignal uid)

/-- A running slice whose root is done, whose families have all ended and whose detached ones have updated their counters is
complete (R134, R138, R325). -/
def State.sliceCheck (s : State) (uid : Nat) : State :=
  match s.slice uid with
  | none => s
  | some sl =>
    if sl.st != .running || sl.yielding.any s.alive || s.fams.any fun f => f.slice == some uid && (!f.st.over || f.ctr.isSome) then s
    else
      match sl.root.bind s.fam with
      | some r => s.endSlice uid (if r.brk.isSome then 1 else 0) 0
      | none => s

/-- The core whose clock counts the 8 cycles to the first members on a core: the creator's for an allocation of its own, whose rd
becomes present in the same cycle, else the core itself (R257; DESIGN CHOICE, log entry 6). -/
def Family.clock (f : Family) (cid : Nat) : Nat := if f.kind == .alloc && !f.away then f.parentCid else cid

/-- A member is one of the first on its core: none of its share has started. -/
def Family.first (f : Family) (cid member : Nat) : Bool :=
  f.shares.any fun x => x.cid == cid && x.started == 0 && x.live.contains member

/-- The creator of a family, where it stands. -/
def Family.creator (f : Family) : Who := { cid := f.parentCid, slot := f.parentSlot, uid := f.parentUid }

/-- A family with no member left has ended (R138).  The notice of it reaches its creator 4 cycles later (R25, R136). -/
def State.familyDone (s : State) (uid : Nat) : State :=
  match s.fam uid with
  | none => s
  | some f =>
    if f.st.over || f.kind = .inlined then s
    else
      let fin (f : Family) : Family :=
        { f with st := if f.kind = .alloc && !f.det then .ending else .done, doneAt := s.now
                 shares := f.shares.map fun x => { x with slots := [], left := 0, live := [] } }
      let s : State := s.updFam uid fin
      let s : State := { s with cores := s.cores.map fun c => { c with regUse := c.regUse.filter fun u => u.fam != uid } }
      let s : State := if f.det || f.kind = .root then s.freeEnts uid else s
      let s : State := if f.kind = .alloc && !f.det then s.after f.parentCid 4 (.syncComplete f.parentCid f.parentSlot uid) else s
      let s : State := match s.whoThread f.creator with
        | some t => if t.hold = .busy uid && !f.det then s.syncReady (fin f) f.creator else s
        | none => s
      let s : State := f.shares.foldl (fun s x => s.freed x.cid) s
      let s : State := match f.slice with
        | some sl => s.sliceCheck sl
        | none => s
      if f.det then s.urgent (.detJoinDecrement uid) else s

/-- Whether every member of a family has ended. -/
def Family.over (f : Family) : Bool := f.shares.all fun x => x.left == 0 && x.live.isEmpty

/-- Changes the share in which a member runs on a core. -/
def Family.updShare (f : Family) (cid member : Nat) (g : Share → Share) : Family :=
  { f with shares := f.shares.map fun x => if x.cid == cid && x.live.contains member then g x else x }

/-- A slot that served a member is free for its family: the next member of the share takes it 2 cycles later, or the
slot's registers go back (R26, R118, R257). -/
def State.passSlot (s : State) (uid cid slot : Nat) (sh : Share) (member : Nat) : State :=
  match sh.left with
  | rest + 1 =>
    let s : State := s.updFam uid fun f => f.updShare cid member fun x =>
      { x with next := x.next + x.stride, left := rest, live := x.live ++ [x.next] }
    s.after cid 2 (.memberStart cid slot uid sh.next)
  | 0 => s.updCore cid fun c => { c with regUse := c.regUse.filter fun u => !(u.fam == uid && u.uid == slot + 1) }

/-- A member of a family stands on a core, or is about to start there. -/
def State.hereOn (s : State) (uid member cid : Nat) : Bool :=
  let mine (t : Thread) : Bool := t.fam == some uid && t.member == member
  let c := s.core cid
  c.slots.toList.any (fun o => o.any mine) || c.runs.any (fun r => mine r.creator) ||
    s.agenda.any fun d => match d.what with
      | .memberStart c _ f m => c == cid && f == uid && m == member
      | _ => false

/-- No member of a family stands on a core, or is still to start there. -/
def State.idleOn (s : State) (uid cid : Nat) : Bool :=
  (s.fam uid).any fun f => f.shares.all fun x => x.cid != cid || (x.left == 0 && !x.live.any fun m => s.hereOn uid m cid)

/-- A core that no member of a family is left on gives back what the family held there (R26, R118, R142). -/
def State.vacate (s : State) (uid cid : Nat) : State :=
  if s.idleOn uid cid then
    ((s.updCore cid fun c => { c with regUse := c.regUse.filter fun u => u.fam != uid }).updFam uid fun f =>
      { f with shares := f.shares.map fun x => if x.cid == cid then { x with slots := [] } else x }).freed cid
  else s

/-- A member has ended on a core, in a slot (R118, R138). -/
def State.memberEnded (s : State) (uid member cid slot : Nat) : State :=
  match (s.fam uid).bind fun f => f.shares.find? fun x => x.cid == cid && x.live.contains member with
  | none => s
  | some sh =>
    let s : State := s.passSlot uid cid slot sh member
    let s : State := s.updFam uid fun f => f.updShare cid member fun x =>
      { x with live := x.live.filter (· != member), ended := x.ended + 1 }
    let s : State := s.vacate uid cid
    if (s.fam uid).any Family.over then s.familyDone uid else s

/-- The update of a detached family's join counter (R134): the 64-bit word at its home loses 1, and a result of exactly 0
sets its tag full. -/
def State.decCounter (s : State) (part : Nat) (ctr : Nat × Nat) : State :=
  let v := (BitVec.ofNat 64 (leVal (s.bytesAt part none ctr.1 ctr.2 8))) - 1#64
  let s : State := s.l2Touch ctr.2 0 8
  let s : State := if v = 0#64 then { s with tags := Tags.set s.tags (ctr.2 / 8) } else s
  s.putBytes part none ctr.1 ctr.2 (toLe 8 v.toNat)

/-- The cores on which a family ran: those of its shares, or its creator's for one run inline (R117, R120). -/
def Family.ran (f : Family) : List Nat := if f.kind = .inlined then [f.cid] else (f.shares.map (·.cid)).eraseDups

/-- The last member of a detached family has ended: a release at pkg scope of the family's stores, then the counter (R134, R268);
the slice may then be complete. -/
def execDetJoinDecrement (s : State) : Host.Outcome State Fault Refusal :=
  .next (match s.evt with
    | .detJoinDecrement uid =>
      match s.fam uid with
      | none => s
      | some f =>
        match f.ctr with
        | none => s
        | some c =>
          if f.ran.any s.writesOut then s.after f.cid 1 (.detJoinDecrement uid)
          else
            let s : State := ((f.ran.foldl (fun s cid => s.releaseLines cid) s).decCounter f.part c).updFam uid fun f =>
              { f with ctr := none, synced := true }
            match f.slice with
            | some sl => s.sliceCheck sl
            | none => s
    | _ => s)

/-! Purges (R124, R380). -/

/-- An inline family is over: a detached one updates its counter (R134). -/
def State.inlineDone (s : State) (uid : Nat) : State :=
  let s1 : State := s.updFam uid fun f => { f with st := .done, doneAt := s.now }
  if (s.fam uid).any (·.det) then s1.urgent (.detJoinDecrement uid) else s1

/-- A message that reaches no thread any more has been received (R388): that of a delegation which is under way. -/
def State.dropAsk (s : State) (f : Family) : State :=
  let d := f.place.dcores.headD 0
  let n (e : Ev) : Nat := s.agenda.countP fun x => x.what == e
  let answers := n (.delegationAnswer f.uid true) + n (.delegationAnswer f.uid false)
  (((s.gotMsgs d (n (.delegationRequest f.uid))).gotMsgs f.parentCid answers).dropDue fun e =>
    e == .delegationRequest f.uid || e == .delegationAnswer f.uid true || e == .delegationAnswer f.uid false)

/-- Messages of travellers that are discarded count as received on the first core of their die, or of their queue's supergroup
(R388; DESIGN CHOICE, log entry 65). -/
def State.travsGone (s : State) (dead : Thread → Bool) : State :=
  let recs := s.contq.flatMap (fun q => q.recs ++ q.spill) ++ s.parts.flatMap (·.arrivals)
  let at_ := (s.travs.filter fun v => v.dev == s.dev.devid && dead v.thread).map (fun v => v.die * 320) ++
    (recs.filter fun r => r.traveller.any dead).map fun r => r.sg * 64
  at_.foldl (fun s c => s.gotMsgs c 1) s

/-- Discards copy commands that have not started; those that have started complete without their follow-on (R238). -/
def State.dropCommands (s : State) (p : CopyCmd → Bool) : State :=
  let moved := (s.cores.filter fun c => c.cq.any p || c.xfers.any fun x => x.ended && p x.cmd).map (·.cid)
  -- a release that waited behind a copy-out goes on (R216)
  let held := s.cores.flatMap fun c => ((c.cq.take 1).filter fun q => p q && q.form == 1).map fun q => (c.cid, q.tile)
  let keep (c : Core) : Core :=
    let first := (c.cq.take 1).any p
    { c with
      cq := c.cq.filter fun q => !p q
      tiles := if first then c.tiles.map fun t => { t with out := none } else c.tiles
      xfers := (c.xfers.filter fun x => !(x.ended && p x.cmd)).map fun x =>
        if p x.cmd then { x with cmd := { x.cmd with block := none } } else x }
  held.foldl (fun s x => s.urgent (.tileReleaseEffect x.1 x.2))
    (moved.foldl (fun s c => s.urgent (.copyCommandStart c)) { s with cores := s.cores.map keep })

/-- The queues of records that a discard may have opened go on: a head is tried, records follow (R331, R332). -/
def State.queuesOn (s : State) : State :=
  let sgs := ((s.contq.filter fun q => !q.recs.isEmpty || !q.spill.isEmpty).map (·.sg) ++
    s.parts.flatMap fun p => p.arrivals.map (·.sg)).eraseDups
  sgs.foldl (fun s g => (s.urgentOnce (.continuationHeadPlace g)).urgentOnce (.spillOverflowMove g)) s

/-- Removes threads: their slots, what waits below them, their waiting requests, page waits, queued copy commands, and
the travellers and records that hold them. -/
def State.dropThreads (s : State) (dead : Thread → Bool) : State :=
  let gone := s.cores.flatMap fun c =>
    (c.slots.toList.filterMap id ++ c.runs.map (·.creator)).filterMap fun t => if dead t then some t.uid else none
  let isGone (w : Who) : Bool := gone.contains w.uid
  let rec' (r : ContRec) : Bool := match r.traveller with
    | some t => !dead t
    | none => true
  -- an MXSW that waits for its partner is withdrawn (R234)
  let left := s.cores.flatMap fun c => (c.mxsw.filter fun m => isGone m.who && !m.begun).map fun m => (c.cid, m.tile, m.tok)
  let s : State := left.foldl (fun s x => s.urgent (.tileReleaseEffect x.1 x.2.1)) s
  let s : State := (s.dropCommands fun q => isGone q.who).travsGone dead
  let lost (r : Req) : Bool := isGone r.who && (r.st == .waiting || r.st == .sent) &&
    (match r.kind with
     | .fe _ _ => true
     | .push _ => true
     | .pop => true
     | _ => false)
  -- what they have still to be answered counts as received (R388)
  let s : State := (s.reqs.filter lost).foldl (fun s r => s.gotMsgs r.who.cid r.msgs) s
  State.queuesOn { s with
    cores := s.cores.map fun c =>
      { c with
        mxsw := c.mxsw.filter fun m => !(isGone m.who && !m.begun)
        tiles := c.tiles.map fun t => { t with readers := t.readers.filter fun r => !(left.any fun x => x.2.2 == r) }
        -- an injection disarms when its target's thread ends (R249)
        finj := if (c.thread (c.finj.extractLsb' 8 5).toNat).any dead then c.finj &&& ~~~1#64 else c.finj
        slots := c.slots.map fun o => match o with
          | some t => if dead t then none else some t
          | none => none
        runs := c.runs.filter fun r => !dead r.creator
        -- the registers lent to an inline run go back with its creator
        regUse := c.regUse.filter fun u => !(c.runs.any fun r => dead r.creator && r.fam == u.fam)
        mbox := c.mbox.map fun e => { e with waiters := e.waiters.filter fun w => !gone.contains w.uid } }
    reqs := s.reqs.filter fun r => !lost r
    travs := s.travs.filter fun t => !dead t.thread
    contq := s.contq.map fun q => { q with recs := q.recs.filter rec', spill := q.spill.filter rec' }
    parts := s.parts.map fun p => { p with arrivals := p.arrivals.filter rec' } }

/-- Whether a thread belongs to one of the families. -/
def Thread.ofFams (t : Thread) (fs : List Nat) : Bool := t.fam.any fs.contains

/-- The records of detached families that wait in queues are discarded, their counters updated (R331). -/
def State.dropRecords (s : State) (fs : List Nat) : State :=
  let q (r : ContRec) : Bool := r.traveller.isNone && fs.contains r.fam
  let all := s.contq.flatMap (fun x => x.recs ++ x.spill) ++ s.parts.flatMap (·.arrivals)
  let gone := (all.filter q).map (·.fam)
  let s : State := { s with
    contq := s.contq.map fun x => { x with recs := x.recs.filter fun r => !q r, spill := x.spill.filter fun r => !q r }
    parts := s.parts.map fun p => { p with arrivals := p.arrivals.filter fun r => !q r } }
  (gone.foldl (fun s f => s.familyDone f) s).queuesOn

/-- Discards the join of a family; the next may begin (R349). -/
def State.dropJoin (s : State) (part uid : Nat) : State :=
  (s.updPart part fun p => { p with joins := p.joins.filter fun j => j.fam != uid }).beginJoins part

/-- Purges families: threads, records, revisions; each is done, as ended says for those that have not ended. -/
def State.purgeFams (s : State) (fs : List Nat) (top : Option Nat) : State :=
  let s : State := s.dropThreads fun t => t.ofFams fs
  let s : State := s.dropCommands fun q => q.fam.any fs.contains
  let s : State := s.dropRecords fs
  -- inline runs of these families end, their creators staying (R120)
  let runs := s.cores.flatMap fun c => c.runs.filterMap fun r => if fs.contains r.fam then some (c.cid, r.slot) else none
  let s : State := runs.foldl (fun s r => s.after r.1 8 (.inlineRestore r.1 r.2)) s
  let s : State := fs.foldl (fun s u =>
    match s.fam u with
    | none => s
    | some f =>
      let s : State := match f.rev with
        | some id => if ((s.part f.part).rev id).any fun r => r.fam == u then
            (s.dropJoin f.part u).dropRev f.part id
          else s
        | none => s
      if f.st.over then s
      else
        let s : State := s.updFam u fun f =>
          { f with ended := if f.ended = .none then .killed else f.ended
                   shares := f.shares.map fun x => { x with left := 0, live := [] } }
        if f.kind = .inlined then s.inlineDone u else s.familyDone u) s
  -- a family that no thread is left to SYNC gives its entries back
  fs.foldl (fun s u => if some u = top then s else (s.freeEnts u).updFam u fun f => { f with synced := true }) s

/-- Kills families on one core at once (R139): their members in slots and below inline runs. -/
def State.killOn (s : State) (fs : List Nat) (cid : Nat) : State :=
  let c := s.core cid
  let mine := (c.slots.toList.filterMap id ++ c.runs.map (·.creator)).filter fun t => t.ofFams fs
  let s : State := s.dropThreads fun t => mine.any fun m => m.uid == t.uid
  fs.foldl (fun s u => s.updFam u fun f => { f with shares := f.shares.map fun x =>
    if x.cid == cid then { x with left := 0, live := [] } else x }) s

/-- Records the kill of families that have not ended: no further member of theirs starts (R124). -/
def State.markKilled (s : State) (fs : List Nat) : State :=
  fs.foldl (fun s u => s.updFam u fun f =>
    if f.st.over || f.ended != .none then f
    else { f with ended := .killed, st := if f.kind = .inlined then f.st else .purging,
                  shares := f.shares.map fun x => { x with left := 0 } }) s

/-- A kill message of a family is on its way, to the core named or to any. -/
def State.killSent (s : State) (uid : Nat) (cid : Option Nat) : Bool :=
  s.agenda.any fun d => match d.what with
    | .killMessage c u => u == uid && (cid.isNone || cid == some c)
    | _ => false

/-- Kill messages leave a core for the others on which members of the families stand, where none is on its way (R139). -/
def State.sendKills (s : State) (uid cid : Nat) (fs : List Nat) : State :=
  let cores := ((s.fams.filter fun x => fs.contains x.uid).flatMap fun x => (x.shares.filter fun y => !y.live.isEmpty).map
    (·.cid)).eraseDups
  (cores.filter fun c => c != cid && !s.killSent uid (some c)).foldl (fun s c =>
    (s.sentMsgs cid 1).after cid 20 (.killMessage c uid)) s

/-- The kill of a family is performed on a core: its members there, and those of the families they have created since, go; the
messages follow to further cores, and the last of them completes the purge (R124, R139). -/
def State.killHere (s : State) (uid cid : Nat) : State :=
  let fs := s.famsWithin fun x => x.uid == uid
  let s : State := ((s.markKilled fs).killOn fs cid).sendKills uid cid fs
  if s.killSent uid none then s else s.purgeFams fs (some uid)

/-- KILL of a family (R124, R139): recorded at once, own core at once, other cores by message. -/
def State.killFamily (s : State) (uid cid : Nat) : State :=
  match s.fam uid with
  | none => s
  | some f => if f.st.over || f.ended != .none then s else s.killHere uid cid

/-- A kill message reaches a core (R139). -/
def execKillMessage (s : State) : Host.Outcome State Fault Refusal :=
  .next (match s.evt with
    | .killMessage cid uid => (s.gotMsgs cid 1).killHere uid cid
    | _ => s)

/-- Kills the members above b of a family (R123), with the families that they created, detached ones too (DESIGN CHOICE, log entry
84). -/
def State.killAbove (s : State) (uid b : Nat) : State :=
  let high (t : Thread) : Bool := t.fam == some uid && decide (b < t.member)
  let uids := (s.cores.flatMap fun c => c.slots.toList.filterMap id ++ c.runs.map (·.creator)).filterMap fun t =>
    if high t then some t.uid else none
  let under := s.famsWithin fun x => uids.contains x.parentUid && x.uid != uid && x.kind != .root
  let s : State := s.purgeFams under none
  let s : State := s.dropThreads high
  let s : State := s.updFam uid fun f => { f with shares := f.shares.map fun x =>
    { x with left := if b < x.next then 0 else min x.left ((b - x.next) / x.stride + 1), live := x.live.filter (· ≤ b) } }
  -- what the killed members held in slots that serve no further member goes back, and the rest on cores where none is left
  let due (cid slot : Nat) : Bool := s.agenda.any fun d => match d.what with
    | .memberStart c k f m => c == cid && k == slot && f == uid && decide (m ≤ b)
    | _ => false
  let keeps (c : Core) (u : RegUse) : Bool :=
    u.fam != uid || u.uid == 0 || (c.thread (u.uid - 1)).isSome || c.runs.any (fun r => r.slot + 1 == u.uid) || due c.cid (u.uid - 1)
  let s : State := { s with cores := s.cores.map fun c => { c with regUse := c.regUse.filter (keeps c) } }
  match s.fam uid with
  | none => s
  | some f => f.shares.foldl (fun s x => s.vacate uid x.cid) s

/-- Discards the pending member starts of families that have no such member to start. -/
def State.startable (s : State) (uid member cid : Nat) : Bool :=
  (s.fam uid).any fun f => f.ended == .none && f.st != .purging && f.shares.any fun x => x.cid == cid && x.live.contains member

end Sys2Proof.Machine
end

