-- ==== Sys2Proof/Machine/Direct.lean ====
section
/-! DEFINITION. Accesses made at once: reads and writes of the issuing thread's bundle (R112, R120, R182), the engines'
page walks (R313, R314), results that arrive after a fixed time (R14), and page requests (R315, R366). -/

namespace Sys2Proof.Machine

/-- Whether an access goes through L1: a page with CACHE 00 homed in device memory, outside a revision (R302). -/
def State.usesL1 (s : State) (x : Xl) (lvl : Option Nat) : Bool :=
  !x.own && lvl.isNone && wCache x.w1 == 0 &&
    (match s.loc x.pa with
     | .dram _ => true
     | _ => false)

/-- An access of n bytes made at once finds them in the core's L1, and sends no request. -/
def State.inL1 (s : State) (cid : Nat) (x : Xl) (lvl : Option Nat) (n : Nat) : Bool :=
  s.usesL1 x lvl && (s.core cid).l1Holds x.pa n

/-- An access made at once has its slots, or needs none (R354). -/
def State.slotFor (s : State) (x : Xl) (lvl : Option Nat) (n : Nat) : Bool :=
  s.inL1 s.cur.cid x lvl n || s.portFree s.cur.cid [s.homeOf x.pa]

/-- The issuing bundle has made an access at once, whose answer comes n cycles later: one request stands for those that it makes at
one home in one step, its reads and its writes apart (R354; DESIGN CHOICE, log entry 76). -/
def State.noteMet (s : State) (pa : Nat) (write : Bool) (n : Nat) : State :=
  let same (m : Nat × Bool × Nat) : Bool := s.homeOf m.1 == s.homeOf pa && m.2.1 == write
  let met := if s.cur.met.any same then s.cur.met.map fun m => if same m then (m.1, m.2.1, max m.2.2 n) else m
    else s.cur.met ++ [(pa, write, n)]
  { s with cur := { s.cur with met := met } }

/-- The requests of the accesses that the issuing bundle has made at once: they keep their slots until their answers (R354). -/
def State.tookSlots (s : State) : State :=
  if s.cur.res = .notReady then s
  else s.cur.met.foldl (fun s m =>
    let (tok, s) := s.fresh
    let q := s.newReq tok (.value 0#64) { va := 0, pa := m.1, w1 := 0#64, own := true, extra := 0 } 1 0
    s.addReq { q with
      holds := true, homes := [s.homeOf m.1], st := .answered (s.now + s.ticks (dieOf s.cur.cid) m.2.2) })
    { s with cur := { s.cur with met := [] } }

/-- n bytes read at once by a core's agent: through L1, or from the home. -/
def State.readAt (s : State) (cid : Nat) (x : Xl) (lvl : Option Nat) (n : Nat) : List Byte × State :=
  if s.usesL1 x lvl && !(s.core cid).ways.isEmpty then
    let s : State := if 32 < n then s.refresh cid x.pa n else s
    (s.l1Span cid (n / 32 + 2) x.pa n).2
  else (s.bytesAt (s.partNum cid) lvl x.va x.pa n, s.l2Touch x.pa (wCache x.w1) n)

/-- The bytes that a store on its way puts at n addresses from pa on, by their offset from pa. -/
def Req.puts (q : Req) (pa n : Nat) : List (Nat × Byte) :=
  let at_ (p : Nat) (bs : List Byte) : List (Nat × Byte) :=
    bs.zipIdx.filterMap fun b => if decide (pa ≤ p + b.2) && decide (p + b.2 < pa + n) then some (p + b.2 - pa, b.1) else none
  match q.kind with
  | .store v => at_ q.pa (toLe q.n v.toNat)
  | .vstore us => us.flatMap fun u => at_ u.1.pa (toLe u.1.n u.2)
  | _ => []

/-- Bytes read by the issuing thread show its own earlier stores that wait in the store buffer, made through the same alias
(R182, R265, R266). -/
def State.forwarded (s : State) (x : Xl) (bs : List Byte) : List Byte :=
  (s.reqs.filter fun q => q.who == s.meWho && q.own == x.own && (q.st == .sent || q.st == .waiting)).foldl (fun bs q =>
    (q.puts x.pa bs.length).foldl (fun bs p => bs.set p.1 p.2) bs) bs

/-- An atomic of the issuing thread that is not yet performed names one of n bytes: what it leaves there is not known yet (R265). -/
def State.ownAtomic (s : State) (x : Xl) (n : Nat) : Bool :=
  s.reqs.any fun q => q.who == s.meWho && (q.st == .sent || q.st == .waiting) && q.kind.atomic &&
    q.spans.any fun y => decide (x.pa < y.1 + y.2) && decide (y.1 < x.pa + n)

/-- The cause that n bytes of an access of the issuing thread meet at their home, or at the L1 line that they evict (R169, R297,
R300). -/
def State.meets (s : State) (x : Xl) (lvl : Option Nat) (scalar : Bool) (n acc : Nat) : Option Nat :=
  match s.homeCause s.cur.cid x.own scalar x.pa n acc with
  | some c => some c
  | none => if s.usesL1 x lvl && s.evictsSpoilt s.cur.cid x.pa n then some (memCause 4 acc) else none

/-- What a refused or failed access of the issuing thread leaves beside its cause: the entry of the violation log, the line
discarded. -/
def State.metCause (s : State) (x : Xl) (n acc cause : Nat) : State :=
  (s.logRefusal s.meWho (s.partNum s.cur.cid) x.pa acc cause).lose s.cur.cid x.pa n cause

/-- The issuing bundle holds its thread until the error response of its access arrives, and then takes its cause (R169, R297). -/
def failLater {α : Type} (s : State) (x : Xl) (n acc cause : Nat) : Except State α :=
  let (tok, s) := (s.metCause x n acc cause).fresh
  let q := s.newReq tok (.value 0#64) { va := 0, pa := 0, w1 := 0#64, own := true, extra := 0 } 0 acc
  holdOn ((s.addReq { q with holds := true, homes := [s.homeOf x.pa], st := .performed, err := some { cause := cause, addr := memAddr cause x.va } }).after
    s.cur.cid (s.errLat s.cur.cid x.own x.pa + x.extra) (.errorResponse tok)) tok

/-- A plain store of bytes of one line made at once by a core's thread: into L1, or at the home. -/
def State.storeAt (s : State) (cid : Nat) (inRev : Option Nat) (x : Xl) (bs : List Byte) : State :=
  let pn := s.partNum cid
  let lvl := (s.part pn).level inRev x.va
  let s : State := if x.own then s else s.markSide pn inRev lvl
  if s.usesL1 x lvl && !(s.core cid).ways.isEmpty then s.l1Store cid x.pa bs
  else
    let s : State := (s.l2Wrote x.pa (wCache x.w1) bs.length).putBytes pn lvl x.va x.pa bs
    if lvl.isNone && !x.own then s.l1Echo cid x.pa bs else s

/-- A result that is known and arrives in a scalar register lat cycles later; until then the register is pending (R14). -/
def State.valueLater (s : State) (r : SReg) (v : W64) (lat : Nat) : State :=
  match r with
  | .s n =>
    let s : State := s.awaitS r
    let (tok, s) := s.fresh
    let q := s.newReq tok (.value v) { va := 0, pa := 0, w1 := 0#64, own := true, extra := 0 } 0 0
    (s.addReq { q with dst := .s n, lat := lat, st := .performed, res := v }).after s.cur.cid lat (.loadResponse tok)
  | _ => s

/-- Holds the issuing bundle for lat cycles, after which it commits with value v. -/
def holdFor {α : Type} (s : State) (v : W64) (lat : Nat) : Except State α :=
  let (tok, s) := s.fresh
  let q := s.newReq tok (.value v) { va := 0, pa := 0, w1 := 0#64, own := true, extra := 0 } 0 0
  holdOn ((s.addReq { q with holds := true, lat := lat, st := .performed, res := v }).after s.cur.cid lat
    (.loadResponse tok)) tok

/-- The value of a held bundle that goes on with its next part. -/
def partVal : W64 := 1#64

/-- Holds the issuing bundle for lat cycles, after which it goes on from its progress. -/
def holdPart {α : Type} (s : State) (prog : List Nat) (lat : Nat) : Except State α :=
  holdFor (s.updMe fun t => { t with prog := prog }) partVal lat

/-- The progress from which a held bundle of the issuing thread goes on. -/
def State.progress (s : State) : Option (List Nat) := if s.me.hold = .done partVal then some s.me.prog else none

/-- The value with which a held bundle commits, where the issuing thread has one. -/
def State.doneVal (s : State) : Option W64 :=
  match s.me.hold with
  | .done v => some v
  | _ => none

/-- The thread's held bundle has its answer. -/
def Thread.answered (t : Thread) : Bool :=
  match t.hold with
  | .done _ => true
  | .fail _ => true
  | _ => false

/-- The latency of a read made at once, which is that of a store's acknowledgement as well: that of the location, of the whole line
where it goes through L1 (R286, R302, R310). -/
def State.readLat (s : State) (cid : Nat) (x : Xl) (lvl : Option Nat) (n : Nat) : Nat :=
  let y := if s.usesL1 x lvl && !(s.core cid).ways.isEmpty then lineSpan x.pa n else (x.pa, n)
  x.extra +
    (if s.inL1 cid x lvl n then l1Latency
     else latency cid (s.loc x.pa) x.own (s.l2Hit y.1 y.2) + s.dirLat (s.partNum cid) lvl x.pa)

/-- n bytes that the issuing bundle reads at once, as its thread sees them. -/
def State.readHere (s : State) (x : Xl) (lvl : Option Nat) (n : Nat) : List Byte × State :=
  let (bs, s1) := s.readAt s.cur.cid x lvl n
  (s.forwarded x bs, if s.inL1 s.cur.cid x lvl n then s1 else s1.noteMet x.pa false (s.readLat s.cur.cid x lvl n))

/-- A read by the issuing bundle, its faults precise at the bundle. -/
def readNow (s : State) (va : W64) (n align : Nat) : Except State (List Byte × State) := do
  let (x, s1) ← access s va n align needLoad true
  let lvl := s1.myLevel va.toNat
  -- it waits behind an atomic of its own, at a bank whose partition is away, and for its slots (R265, R354, R392)
  if s1.ownAtomic x n || (s1.awayAt x.pa).isSome || !s1.slotFor x lvl n then notReady s
  else
  match s1.meets x lvl false n 0 with
  | some c => failLater s1 x n 0 c
  | none => return s1.readHere x lvl n

/-- The cycles after which a request is at its home: a full/empty operation is performed there at the end of its latency
(R173), every other request in its issue cycle (DESIGN CHOICE, log entry 6). -/
def State.travelTime (s : State) (r : Req) : Nat :=
  match r.kind with
  | .fe _ _ => if (s.homeCause r.who.cid r.own false r.pa r.n r.acc).isSome then 0 else s.accLat r + r.lat
  | _ => 0

/-- A request comes to a scratchpad through the mesh window: in its cycle the bank serves the local alias first (R299). -/
def State.byMesh (s : State) (r : Req) : Bool :=
  !r.own && (match s.loc r.pa with
    | .scratch _ _ => true
    | _ => false)

/-- A request is at its home n cycles later. -/
def State.arriveIn (s : State) (r : Req) (n : Nat) : State :=
  if n = 0 then (if s.byMesh r then s.atCycle s.now (.homeRequest r.tok) else s.urgent (.homeRequest r.tok))
  else s.after r.who.cid n (.homeRequest r.tok)

/-- Sends a request of the issuing thread on its way: a bundle without its slots is not ready (R354); a release of quad
scope or wider first cleans the core's dirty lines, one each cycle (R171), and meets an uncorrectable error in one of them
(R300). -/
def send (s : State) (r : Req) : Except State State :=
  if !s.portFree r.who.cid r.homes then notReady s
  else
    match s.cleansFor r with
    | (_, t, some a) => .ok ((t.addReq r).cleanFails r a)
    | (k, t, none) => .ok ((t.addReq { r with from_ := t.now + t.ticks (dieOf r.who.cid) k }).arriveIn r (k + s.travelTime r))

/-- A store by a task into a read-only region of its level (R244). -/
def roCheck (s : State) (va acc : Nat) : Except State Unit :=
  if s.roHit va then raise s 6 (0x24 + acc) va else .ok ()

/-- Marks the side effect of the issuing thread's write (R384); the local alias to the own scratch banks has none. -/
def State.markWrite (s : State) (x : Xl) (lvl : Option Nat) : State :=
  if x.own then s else s.markSide (s.partNum s.cur.cid) (s.inRev s.me) lvl

/-- A posted store of n bytes: held in L1 where it may be (R270, R271), else sent to its home. -/
def postStore (s : State) (x : Xl) (n : Nat) (v : W64) (rel wide pod : Bool) : Except State State := do
  let lvl := s.myLevel x.va
  roCheck s x.va 1
  let (tok, s1) := s.fresh
  let r := { s1.newReq tok (.store v) x n 1 with rel := rel, wide := wide, pod := pod, lvl := lvl }
  let inL1 := s1.usesL1 x lvl && !(rel && wide)
  if inL1 && !(s1.core s.cur.cid).ways.isEmpty && (s1.meets x lvl true n 1).isNone && !s1.blocks r then
    return (((s1.l1Store s.cur.cid x.pa (toLe n v.toNat)).addReq { r with st := .performed }).after s.cur.cid
      (s1.readLat s.cur.cid x lvl n) (.storeAck tok)).markWrite x lvl
  else
    let s2 ← send s1 { r with homes := [s1.homeOf x.pa], l1 := inL1 }
    return s2.markWrite x lvl

/-! The page table (R313, R314). -/

/-- What a walk by an engine answers: a leaf, a fault's KIND, a malformed entry, of which an event record tells (R314), an
absent-serviceable or a migrating node; and the level at which it ended. -/
inductive Walked where
  | leaf (w1 : W64) (sz : Nat)
  | fault (kind : Nat)
  | malformed
  | absent
  | migrating

/-- Index of a virtual address at a level. -/
def walkIndex (level va : Nat) : Nat := if level = 0 then va / 2 ^ 16 % 32 else va / 2 ^ (21 + 9 * (level - 1)) % 512

/-- A leaf's size code at a level (R313). -/
def leafSize (level : Nat) : Nat := level

/-- Walks from a node at a level down; bad says that an entry's read finds an uncorrectable error. -/
def walkFrom (m : List Host.Cell) (bad : Nat → Bool) (va : Nat) : Nat → Nat → Walked × Nat
  | level, node =>
    let size := if level = 0 then 256 else 4096
    if Config.memBytes < node + size then (.fault 6, level)
    else if bad (node + 8 * walkIndex level va) then (.fault 4, level)
    else
      let e := BitVec.ofNat 64 (Memory.val m (node + 8 * walkIndex level va) 8)
      let ty := (e.extractLsb' 55 3).toNat
      if ty = 2 then
        if 3 ≤ level then (.malformed, level)
        else
          let w1 := e &&& ~~~(7#64 <<< 55)
          if (e.extractLsb' 48 7) != 0#7 || (e.extractLsb' 10 6) != 0#6 ||
              wPpn w1 * 2 ^ 16 % 2 ^ pageBits (leafSize level) != 0 then (.malformed, level)
          else if !wRemote w1 && !(decide (wPpn w1 * 2 ^ 16 < Config.memBytes) ||
              (decide (Config.scratchBase ≤ wPpn w1 * 2 ^ 16) && decide (wPpn w1 * 2 ^ 16 < Config.scratchBase + 2 ^ 31))) then
            (.fault 6, level)
          else (.leaf w1 (leafSize level), level)
      else if ty = 3 then (.absent, level)
      else if ty = 4 then (.migrating, level)
      else if ty = 1 then
        match level with
        | 0 => (.malformed, 0)
        | l + 1 => walkFrom m bad va l ((e.extractLsb' 8 40).toNat * 256)
      else if ty = 0 then (.fault 0, level)
      else (.malformed, level)

/-- The page-table root of a partition, read on the first core of its first supergroup. -/
def State.rootOf (s : State) (p : Part) : Nat :=
  match (List.range 20).find? p.hasSg with
  | some g => (s.core (g * 64)).ptroot.toNat
  | none => 0

/-- The walk of an engine in a partition's page table, and the level at which it ended. -/
def State.walkEnd (s : State) (p : Part) (va : Nat) : Walked × Nat :=
  if 2 ^ 57 ≤ va then (.fault 0, 0) else walkFrom s.mem (fun a => s.spoilt a 8 && !s.l2Hit a 8) va 4 (s.rootOf p)

def State.walk (s : State) (p : Part) (va : Nat) : Walked := (s.walkEnd p va).1

/-- Two addresses lie under one entry of a partition's page table, that at which the walk of the first ends (R313). -/
def State.samePage (s : State) (p : Part) (va wa : Nat) : Bool :=
  let k := match (s.walkEnd p va).2 with
    | 0 => 16
    | l + 1 => 21 + 9 * l
  va / 2 ^ k == wa / 2 ^ k

/-- The physical address of a walked page. -/
def walkedPa (w1 : W64) (sz va : Nat) : Nat := TlbEntry.pa { vpn := 0, sz := sz, w1 := w1 } va

/-- What an engine's translation answers: an access, a cause, or a wait for the page. -/
inductive EngXl where
  | ok (pa : Nat) (w1 : W64)
  | fault (cause : Nat)
  | wait

/-- Translation by the dispatcher or the overflow engine, at user or system privilege. -/
def State.engXlate (s : State) (p : Part) (va : Nat) (nd : Need) (user : Bool) : EngXl :=
  match s.walk p va with
  | .leaf w1 sz =>
    match pageFault w1 user nd with
    | some c => .fault c
    | none => .ok (walkedPa w1 sz va) w1
  | .fault k => .fault (memCause k nd.acc)
  | .malformed => .fault (memCause 0 nd.acc)
  | _ => .wait

/-- A walk by the dispatcher or the overflow engine that met a malformed entry tells the management controller (R314). -/
def State.walkEvent (s : State) (p : Part) (va : Nat) : State :=
  match s.walk p va with
  | .malformed => s.event "malformed page-table entry" p.num va
  | _ => s

/-! Page requests (R315, R366). -/

/-- Posts a page request to the partition's host fault queue and raises its vector; answers whether there was room. -/
def State.postPage (s : State) (part vpn acc ent cid : Nat) (spill : Bool) : Bool × State :=
  let p := s.part part
  let k := p.hfqsz.toNat % 32
  if (p.hfqtail.toNat + 2 ^ 32 - p.hfqhead.toNat) % 2 ^ 32 < 2 ^ k then
    let d0 := BitVec.ofNat 64 (vpn * 2 ^ 16)
    let d1 := BitVec.ofNat 64 (acc * 2 ^ 40 + (if spill then 2 ^ 36 else 0) + ent * 2 ^ 32 + cid * 2 ^ 16 + part)
    let s : State := s.putDwords (p.hfqbase.toNat + 32 * (p.hfqtail.toNat % 2 ^ k)) [d0, d1, BitVec.ofNat 64 s.tsc, 0#64]
    let s : State := s.updPart part fun p => { p with hfqtail := BitVec.ofNat 64 ((p.hfqtail.toNat + 1) % 2 ^ 32) }
    (true, s.updDev fun d => { d with msix := d.msix ++ [p.hfqsz.toNat / 2 ^ 16 % 2 ^ 11] })
  else (false, s)

end Sys2Proof.Machine
end

