-- ==== Sys2Proof/Machine/Create.lean ====
section
/-! DEFINITION. CREATE: descriptors and places (R112 to R117), allocation (R118, R119), delegation (R258), inline runs
(R120), the continuation queue's entry (R330 to R334), and the start of members (R37, R257). -/

namespace Sys2Proof.Machine

/-! Descriptors and places. -/

/-- Field [lo + n − 1 : lo] of a number. -/
def bits (x lo n : Nat) : Nat := x / 2 ^ lo % 2 ^ n

/-- The descriptor's fields from its four dwords, the limit as it stands in D1 (R112). -/
def Desc.parse (d0 d1 d2 d3 : W64) : Desc :=
  { start := d0.toInt, limit := d1.toInt, step := (d3.extractLsb' 0 32).toInt, ind := d2.getLsbD 57,
    body := (d2 &&& 0x01FFFFFFFFFFFFF8#64), block := bits d3.toNat 58 5, hsrc := bits d3.toNat 54 4,
    gsrc := bits d3.toNat 50 4, v := bits d3.toNat 45 5, l := bits d3.toNat 40 5, s := bits d3.toNat 36 4,
    g := bits d3.toNat 32 4 }

/-- A reserved field of a descriptor is non-zero. -/
def Desc.reserved (d2 d3 : W64) : Bool :=
  d2.extractLsb' 58 6 != 0#6 || d2.extractLsb' 0 3 != 0#3 || d3.getLsbD 63

/-- The limits of R113 that need no place. -/
def Desc.bad (d : Desc) (rev det : Bool) (fallback : BitVec 2) : Bool :=
  d.step == 0 || decide (8 < d.g) || decide (8 < d.s) || decide (16 < d.v) || decide (16 < d.block) ||
    decide (16 < d.g + d.s + d.l) || decide (16 < d.gsrc + d.g) || decide (16 < d.hsrc + d.s) ||
    (decide (0 < d.s) && det) || (rev && det) || (decide (0 < d.g) && det && fallback == 3#2)

/-- The member count (R5, R114): ceil((LIMIT − START) / STEP), or none. -/
def Desc.count (d : Desc) : Nat :=
  if 0 < d.step then (-((d.start - d.limit) / d.step)).toNat else (-((d.limit - d.start) / (-d.step))).toNat

/-- Index of member k (R114). -/
def Desc.index (d : Desc) (k : Nat) : W64 := BitVec.ofInt 64 (d.start + k * d.step)

/-- The cores that a place's FIRST and COUNT name, for a core that creates (R115). -/
def placeCores (first count ci : Nat) : List Nat :=
  let f := if first = 2047 then ci else first
  (List.range (if count = 0 then 1 else count)).map (f + ·)

/-- A place value, resolved for the creating core (R115). -/
def Place.parse (w : W64) (ci : Nat) : Place :=
  let x := w.toNat
  { cores := placeCores (bits x 0 11) (bits x 11 11) ci, cyclic := bits x 22 2 == 1, fallback := w.extractLsb' 24 2,
    dcores := if bits x 37 11 = 0 then [] else placeCores (bits x 26 11) (bits x 37 11) ci }

/-- The faults of R116; mine says which cores are the partition's. -/
def Place.bad (p : Place) (w : W64) (det : Bool) (mine : Nat → Bool) : Bool :=
  let out (c : Nat) : Bool := decide (1279 < c) || !mine c
  bits w.toNat 48 16 != 0 || decide (2 ≤ bits w.toNat 22 2) || p.cores.any out || (p.fallback == 3#2 && !det) ||
    (p.fallback == 2#2 && p.dcores.isEmpty) || p.dcores.any out

/-- The faults of R116 for a CREATE in a partition. -/
def State.badPlace (s : State) (w : W64) (p : Place) (part : Nat) (det : Bool) : Bool :=
  p.bad w det fun c => (s.partOf c).any fun q => q.num == part

/-- The share of the j-th of c cores of n members (R117). -/
def dealt (cyclic : Bool) (n c j : Nat) : Nat × Nat × Nat :=
  if cyclic then (j, c, (n + c - 1 - j) / c)
  else
    let q := n / c
    let r := n % c
    (j * q + min j r, 1, if j < r then q + 1 else q)

/-- The shares of a place: core, first member, stride, count; a core with no member takes no part. -/
def deals (cores : List Nat) (cyclic : Bool) (n : Nat) : List (Nat × Nat × Nat × Nat) :=
  (cores.zipIdx.map fun c => (c.1, dealt cyclic n cores.length c.2)).filter fun d => d.2.2.2 != 0

/-! Allocation (R118, R119). -/

/-- Slots of a core that are usable for a family at once, by free slots and registers (R118). -/
def State.usable (s : State) (cid : Nat) (d : Desc) : List Nat :=
  let c := s.core cid
  let sc := 2 * d.s + d.l
  let bySc := if c.scFree < d.g then 0 else if sc = 0 then 16 else (c.scFree - d.g) / sc
  let byV := if d.v = 0 then 16 else c.vecFree / d.v
  (s.freeSlots cid).take (min bySc byV)

/-- The lowest free family-table entry of a core. -/
def Core.freeEnt (c : Core) : Option Nat := (List.range 8).find? fun i => c.ents.toList.getD i (some 0) == none

/-- Whether the attempt succeeds on every core that receives members (R119). -/
def State.fits (s : State) (d : Desc) (ds : List (Nat × Nat × Nat × Nat)) : Bool :=
  ds.all fun x => (s.core x.1).freeEnt.isSome && !(s.usable x.1 d).isEmpty

/-- A family id with I = 0 (R16). -/
def famId (gen : BitVec 32) (ent cid : Nat) : W64 := BitVec.ofNat 64 (gen.toNat * 2 ^ 16 + ent * 2 ^ 11 + cid)

/-- A family id with I = 1 (R16). -/
def inlineId (gen : BitVec 32) (cid : Nat) : W64 := BitVec.ofNat 64 (2 ^ 63 + gen.toNat * 2 ^ 16 + cid)

/-- Takes a core's part of an allocation: the entry, the slots, the registers, and the first members, which start in cycle at_
(R118, R257). -/
def State.takeCore (s : State) (uid : Nat) (d : Desc) (x : Nat × Nat × Nat × Nat) (keepEnt : Bool) (at_ : Nat) : State :=
  let (cid, first, stride, count) := x
  let slots := (s.usable cid d).take (min (if d.block = 0 then 16 else d.block) count)
  let ent := ((s.core cid).freeEnt).getD 0
  let s : State := s.updCore cid fun c =>
    { c with
      ents := if keepEnt then c.ents else c.ents.set! ent (some uid)
      gens := if keepEnt then c.gens else c.gens.set! ent (c.gens.toList.getD ent 0#32 + 1#32)
      regUse := c.regUse ++ [({ fam := uid, uid := 0, sc := d.g, vec := 0 } : RegUse)] ++
        slots.map fun k => ({ fam := uid, uid := k + 1, sc := 2 * d.s + d.l, vec := d.v } : RegUse) }
  let live := (List.range slots.length).map fun i => first + i * stride
  let s : State := s.updFam uid fun f => { f with shares := f.shares ++
    [{ cid := cid, slots := slots, next := first + slots.length * stride, stride := stride, left := count - slots.length,
       live := live, started := 0, ended := 0 }] }
  (slots.zip live).foldl (fun s y => s.atCycle at_ (.memberStart cid y.1 uid y.2)) s

/-- When a family's first members on a core start: in the eighth cycle from now of the core whose clock counts them (R257). -/
def State.startAt (s : State) (f : Family) (cid : Nat) : Nat := s.now + s.ticks (dieOf (f.clock cid)) 8

/-- Takes the allocation on every core; the family's id names the entry on the first (R16, R119).  The first members on each core
start 8 cycles of that family's clock later (R257). -/
def State.allocate (s : State) (uid : Nat) (d : Desc) (ds : List (Nat × Nat × Nat × Nat)) : State :=
  let home := (ds.map (·.1)).headD 0
  let ent := ((s.core home).freeEnt).getD 0
  let at_ (cid : Nat) : Nat := ((s.fam uid).map fun f => s.startAt f cid).getD s.now
  let s : State := ds.foldl (fun s x => s.takeCore uid d x false (at_ x.1)) s
  let gen := (s.core home).gens.toList.getD ent 0#32
  s.updFam uid fun f => { f with st := .running, cid := home, ent := ent, id := famId gen ent home }

/-! The start of members (R37). -/

/-- The bits of the inline frame's CSRs, and of the call frame's; the others are reserved (R21, R247). -/
def ifpMask : W64 := ~~~63#64

def cfpMask : W64 := ~~~7#64

/-- A slot's frame CSRs (R23); their reserved bits read 0. -/
def frameCsrs (c : Core) (slot : Nat) : W64 × W64 × W64 × W64 :=
  let a := c.sfb + BitVec.ofNat 64 slot * c.sfs
  ((a + (c.sfs >>> 1)) &&& ifpMask, a &&& ifpMask, (a + c.sfs) &&& cfpMask, (a + (c.sfs >>> 1)) &&& cfpMask)

/-- A value of the chain for dependent d_j of member k, where it has been sent. -/
def Family.link (f : Family) (k j : Nat) : Option W64 :=
  if k = 0 then f.init[j]? else (f.links.find? fun l => l.member == k && l.j == j).map (·.val)

/-- Which dependents of a starting member come from another core (R36 rule 5). -/
def Family.far (f : Family) (k : Nat) : BitVec 8 :=
  f.links.foldl (fun m l => if l.member == k && l.far then m ||| (1#8 <<< l.j) else m) 0#8

/-- The registers of a starting member: globals and sent dependents present, everything else a free value (R37, DESIGN CHOICE, log
entry 3). -/
def Family.startRegs (f : Family) (k n : Nat) : Regs :=
  let fr (i : Nat) : SCell := { SCell.zero with val := Config.freeReg (n + i) }
  { s := Vector.ofFn fun i => if i.val < f.desc.g then SCell.full (f.globals.getD i.val 0#64) else fr i.val
    d := Vector.ofFn fun i => match f.link k i.val with
      | some v => if i.val < f.desc.s then SCell.full v else fr (16 + i.val)
      | none => fr (16 + i.val)
    v := Vector.ofFn fun i => { VCell.zero with val := Config.freeVec (n + i.val) }
    m := Vector.replicate 4 (BitVec.allOnes 128) }

/-- The thread of a starting member. -/
def Family.startThread (f : Family) (k uid n : Nat) (fr : W64 × W64 × W64 × W64) : Thread :=
  { Thread.blank with
    uid := uid, fam := some f.uid, member := k, slice := f.slice, ix := f.desc.index k, fd := f.id, g := f.desc.g,
    sh := f.desc.s, l := f.desc.l, vn := f.desc.v, regs := f.startRegs k n, pc := f.desc.body, acqs := f.far k,
    csr := { Csrs.zero with
      fmode := f.start.fmode, wlim := f.start.wlim, chk := f.start.chk, ifp := fr.1, ifl := fr.2.1, cfp := fr.2.2.1,
      cfl := fr.2.2.2 } }

/-- Whether a family's cores and creator span more than one core: its release and acquire are at quad scope or wider
(R125). -/
def Family.spread (f : Family) : Bool := f.kind == .root || f.shares.any fun x => x.cid != f.parentCid

/-- A member starts in its slot (R37, R257); its start is the acquire of R125. -/
def execMemberStart (s : State) : Host.Outcome State Fault Refusal :=
  .next (match s.evt with
    | .memberStart cid slot fam k =>
      match s.fam fam with
      | none => s
      | some f =>
        if s.startable fam k cid && (s.thread cid slot).isNone then
          let (uid, s) := s.fresh
          let n := s.freeCtr
          let s : State := { s with freeCtr := n + 24 }
          let s : State := if f.spread then s.acqInval cid else s
          let s : State := s.updFam fam fun f => f.updShare cid k fun x => { x with started := x.started + 1 }
          s.setThread cid slot (some (f.startThread k uid n (frameCsrs (s.core cid) slot)))
        else s
    | _ => s)

/-! Inline runs (R120). -/

/-- Inserts a flight behind every flight that lands no later. -/
def insFlight (f : Flight) : List Flight → List Flight
  | [] => [f]
  | x :: rest => if f.land < x.land then f :: x :: rest else x :: insFlight f rest

/-- Lands every fixed-latency result of the issuing thread, in the order in which they land (R46, R48). -/
def State.settle (s : State) : State :=
  let s' : State := (s.me.flights.foldl (fun acc f => insFlight f acc) []).foldl (fun s f =>
    match f.dst with
    | .s k => s.writeAt s.meWho k (f.val.setWidth 64) (max f.land s.now)
    | .v k => s.updMe fun t =>
        let old := t.regs.v.get k.toFin
        t.coverV k { old with val := mergeBits old.val f.val f.mask, pres := true, fail := none }
    | .m k => s.updMe fun t =>
        let old := t.regs.m.get k.toFin
        t.setM k ((old &&& ~~~(f.mask.setWidth 128)) ||| (f.val.setWidth 128 &&& f.mask.setWidth 128))) s
  s'.updMe fun t => { t with flights := [] }

/-- The bytes of a frame, in the model's own layout. -/
def Thread.frame (t : Thread) : List Byte :=
  let w (v : W64) := toLe 8 v.toNat
  let pres := packElems 1 (t.regs.s.toList.map fun c => if c.pres then 1 else 0)
  let stack := (List.range 8).flatMap fun i => w (t.rstack.getD i 0#64)
  (t.regs.s.toList.flatMap fun c => w c.val) ++ toLe 8 pres ++ w t.pc ++ w t.csr.fst ++ w t.csr.fmode ++ w t.csr.wlim ++
    w t.csr.chk ++ ((t.regs.m.toList.drop 1).flatMap fun m => toLe 16 m.toNat) ++ stack ++ toLe 8 t.rstack.length ++
    toLe 8 t.depth ++ toLe 16 0 ++ ((t.regs.v.toList.take t.vn).flatMap fun c => toLe 512 c.val.toNat)

/-- A register restored from a frame, whose presence bit decides; saved says that it was present when the frame was written.
Where neither is so, what has arrived for it meanwhile stands (R120). -/
def restoreCell (old : SCell) (v : W64) (pres saved : Bool) : SCell :=
  if pres then { SCell.full v with pend := old.pend && !saved }
  else if saved then { SCell.full v with pres := false }
  else if old.pend || old.pres || old.fail.isSome then old else { old with val := v }

/-- A thread restored from a frame's bytes, in which the scalar and vector registers named saved were present (R120). -/
def Thread.unframe (t : Thread) (saved savedV : BitVec 16) (bs : List Byte) : Thread :=
  let w (o : Nat) : W64 := BitVec.ofNat 64 (leVal ((bs.drop o).take 8))
  let n := min (w 288).toNat 8
  { t with
    regs := {
      s := Vector.ofFn fun i => restoreCell (t.regs.s.get i) (w (8 * i.val)) ((w 128).getLsbD i.val) (saved.getLsbD i.val)
      d := t.regs.d
      v := Vector.ofFn fun i =>
        let old := t.regs.v.get i
        -- where nothing has arrived or is to arrive for it, the frame's bits are taken too
        if i.val < t.vn && (savedV.getLsbD i.val || !(old.pend || old.pres || old.fail.isSome)) then
          { old with val := BitVec.ofNat 4096 (leVal ((bs.drop (320 + 512 * i.val)).take 512)) } else old
      m := Vector.ofFn fun i => if i.val = 0 then t.regs.m.get i else
        BitVec.ofNat 128 (leVal ((bs.drop (176 + 16 * (i.val - 1))).take 16)) }
    pc := w 136 &&& ~~~7#64
    rstack := (List.range n).map fun i => w (224 + 8 * i)
    depth := (w 296).toNat
    csr := { t.csr with fst := w 144 &&& 0x3F00FF#64, fmode := w 152 &&& 3#64, wlim := w 160 &&& 0xFFFFFFFF#64,
                        chk := w 168 &&& 1#64 } }

/-- Size of a creator's frame (R120). -/
def Thread.frameSize (t : Thread) : Nat := 320 + 512 * t.vn

/-- Which of a thread's s-registers are present. -/
def Thread.present (t : Thread) : BitVec 16 :=
  BitVec.ofNat 16 (packElems 1 (t.regs.s.toList.map fun c => if c.pres then 1 else 0))

/-- Which of a thread's vector registers are present. -/
def Thread.presentV (t : Thread) : BitVec 16 :=
  BitVec.ofNat 16 (packElems 1 (t.regs.v.toList.map fun c => if c.pres then 1 else 0))

/-- The scalar and vector registers that a slot holds: those of its family's member, with its globals, or a traveller's 16, and
what inline runs in it have taken (R26). -/
def Core.slotHeld (c : Core) (slot : Nat) (t : Thread) : Nat × Nat :=
  let b := (((c.runs.filter fun r => r.slot == slot).getLast?).map (·.creator)).getD t
  let mine := c.regUse.filter fun u => u.uid == slot + 1
  let member := mine.any fun u => some u.fam == b.fam && u.sc == 2 * b.sh + b.l
  if mine.isEmpty then (t.g + 2 * t.sh + t.l, t.vn)
  else ((mine.map (·.sc)).sum + (if member then b.g else 0), (mine.map (·.vec)).sum)

/-- One store of a frame, of 32 bytes and access code 1: it is written, held for a version, or refused, which the slot learns with
the error response (R120 step 1, R169, R308). -/
def State.framePiece (s : State) (x : Xl) (lvl : Option Nat) (bs : List Byte) : State :=
  let (tok, s1) := s.fresh
  let u : VUnit := { va := x.va, pa := x.pa, n := 32, reg := 0#4, lo := 0, own := x.own, l1 := false, cache := wCache x.w1 }
  let q := { s1.newReq tok (.vstore [(u, leVal bs)]) x 32 1 with dst := .slot, homes := [s1.homeOf x.pa], lvl := s1.inRev s1.me }
  match s1.meets x lvl false 32 1 with
  | some c => (((s1.metCause x 32 1 c).addReq
      { q with st := .performed, err := some { cause := c, addr := memAddr c x.va } }).after s.cur.cid
        (s1.errLat s.cur.cid x.own x.pa + x.extra) (.errorResponse tok))
  | none =>
    if s1.storeFull (s1.partNum s.cur.cid) lvl x.pa then ((s1.addReq q).markWrite x lvl).storeShort q
    else
      let t : State := s.storeAt s.cur.cid (s.inRev s.me) x bs
      if s.usesL1 x lvl && !s.myCore.ways.isEmpty then t else t.noteMet x.pa true (s.readLat s.cur.cid x lvl 32)

/-- Writes a frame in pieces of 32 bytes (R120 step 1). -/
def storeFrame (s : State) (va : Nat) : List Byte → Nat → Except State State
  | _, 0 => .ok s
  | bs, n + 1 => do
    let (x, s1) ← access s (BitVec.ofNat 64 va) 32 8 needStore true
    let lvl := s1.myLevel va
    if s1.roHit va then raise s 6 0x25 va
    else if (s1.awayAt x.pa).isSome || !s1.slotFor x lvl 32 then notReady s
    else storeFrame (s1.framePiece x lvl (bs.take 32)) (va + 32) (bs.drop 32) n

/-- The placeholder that keeps a slot while the inline driver works. -/
def Thread.driver (uid fam : Nat) (t : Thread) : Thread :=
  { Thread.blank with uid := uid, fam := some fam, slice := t.slice, inl := true, hold := .wait .inlineDriver }

/-- Starts an inline run of family uid in the issuing slot: the frame, which holds the thread as the bundle leaves it, the
registers lent, the driver (R120).  The bundle commits here.  GEN of the family's id is the count with this run (R16; DESIGN CHOICE,
log entry 83). -/
def inlineRun (s : State) (h : Hdr) (rd : SReg) (uid : Nat) : Except State State :=
  match s.fam uid with
  | none => .ok (commitNext s h .drops (loneW h))
  | some f => do
  let t := s.me
  let F := t.frameSize
  let ifp := t.csr.ifp.toNat
  if ifp < t.csr.ifl.toNat + F then raise s 6 0x48 0
  else
    let saved := (commitNext s.settle h .drops (loneW h)).me
    let s1 ← storeFrame s (ifp - F) saved.frame (F / 32)
    let c := s1.myCore
    let held := c.slotHeld s.cur.slot t
    let needS := f.desc.g + 2 * f.desc.s + f.desc.l - held.1
    let needV := f.desc.v - held.2
    if c.scFree < needS || c.vecFree < needV then raise s1 6 0x42 0
    else
      let gen := c.inlCount + 1#32
      let s2 : State := commitNext s1.settle h .drops (loneW h)
      let s2 : State := if f.det then s2 else s2.awaitS rd
      let s2 : State := (List.range f.desc.s).foldl (fun s j => s.updMe fun t =>
        let n := BitVec.ofNat 4 (f.desc.hsrc + j)
        t.coverS n (t.regs.s.get n.toFin).await) s2
      -- the stall count ends before the creator resumes
      let creator := { s2.me with stall := none }
      let (u, s3) := s2.fresh
      let s3 : State := s3.updMyCore fun c =>
        { c with
          inlCount := gen
          runs := { slot := s.cur.slot, creator := creator, fam := uid, frame := ifp - F, createPc := t.pc,
                    rd := if f.det then .zr else rd, next := 0, saved := saved.present, savedV := saved.presentV } :: c.runs
          regUse := if needS = 0 && needV = 0 then c.regUse else
            c.regUse ++ [{ fam := uid, uid := s.cur.slot + 1, sc := needS, vec := needV }] }
      let s3 : State := s3.updFam uid fun f =>
        { f with kind := .inlined, st := .running, id := inlineId gen s.cur.cid, cid := s.cur.cid, shares := [] }
      let s3 : State := s3.setThread s.cur.cid s.cur.slot (some (Thread.driver u uid t))
      return s3.after s.cur.cid 10 (.inlineMemberEntry s.cur.cid s.cur.slot)

/-- An inline run, or the state that undo makes of one that cannot start: a CREATE that traps or waits changes nothing (R120). -/
def startInline (s : State) (h : Hdr) (rd : SReg) (uid : Nat) (undo : State → State) : Except State State :=
  match inlineRun s h rd uid with
  | .ok s' => .ok s'
  | .error e => .error (undo e)

/-- The inline run at the top of a slot. -/
def Core.runOf (c : Core) (slot : Nat) : Option InlineRun := c.runs.find? fun r => r.slot == slot

/-- A purge has stopped an inline run: its creator, or the run's family itself (R380 step 2). -/
def State.runStopped (s : State) (r : InlineRun) : Bool :=
  r.creator.hold == .wait .stopped || (s.fam r.fam).any fun f => f.st == .purging

/-- The next member of an inline run enters the slot (R120 step 3). -/
def execInlineMemberEntry (s : State) : Host.Outcome State Fault Refusal :=
  .next (match s.evt with
    | .inlineMemberEntry cid slot =>
      match (s.core cid).runOf slot with
      | none => s
      | some r =>
        -- a killed family starts no further member (R124)
        match (if s.runStopped r || (s.fam r.fam).any (fun f => f.ended != .none) then none else s.fam r.fam) with
        | none => s
        | some f =>
          let (uid, s) := s.fresh
          let n := s.freeCtr
          let s : State := { s with freeCtr := n + 24 }
          let k := r.next
          let errs := ((s.thread cid slot).map (·.errs)).getD []
          let cr := r.creator.csr
          let t := { f.startThread k uid n (BitVec.ofNat 64 r.frame, cr.ifl, cr.cfp, cr.cfl) with inl := true, errs := errs }
          (s.updCore cid fun c => { c with runs := c.runs.map fun x =>
            if x.slot == slot && x.fam == r.fam then { x with next := k + 1 } else x }).setThread cid slot (some t)
    | _ => s)

/-- Reads a frame back in pieces of 32 bytes; a wait or a cause ends it (R120 step 4). -/
def loadFrame (s : State) (va : Nat) : Nat → Except State (List Byte × State)
  | 0 => .ok ([], s)
  | n + 1 => do
    let (x, s1) ← access s (BitVec.ofNat 64 va) 32 8 needLoad true
    let lvl := s1.myLevel va
    if (s1.awayAt x.pa).isSome || !s1.slotFor x lvl 32 then notReady s
    else
    match s1.meets x lvl false 32 0 with
    | some c => failLater s1 x 32 0 c
    | none =>
      let (bs, s2) := s1.readHere x lvl 32
      let (more, s3) ← loadFrame s2 (va + 32) n
      return (bs ++ more, s3)

/-- The driver restores the creator of a slot's inline run (R120 step 4). -/
def State.restore (s : State) (cid slot : Nat) (r : InlineRun) : State :=
  let f := s.fam r.fam
  -- what the frame's stores have met since the last member's END (R120)
  let late := ((s.thread cid slot).map (·.errs)).getD []
  -- the frame is read by the creator's thread, standing again in its slot at the CREATE bundle
  let s1 : State := (s.updCore cid fun c => { c with runs := c.runs.filter fun x => !(x.slot == slot && x.fam == r.fam),
                                                      regUse := c.regUse.filter fun u => u.fam != r.fam }).setThread
    cid slot (some { r.creator with pc := r.createPc, hold := .none, errs := r.creator.errs ++ late,
                                    csr := { r.creator.csr with ifp := BitVec.ofNat 64 r.frame } })
  let cur0 := s.cur
  let s1 : State := { s1 with cur := { Cur.idle with cid := cid, slot := slot } }
  match (match r.creator.hold with
    -- the page's walk has ended in a fault
    | .fail f => raise s1 6 f.cause f.addr
    | _ => loadFrame s1 r.frame (r.creator.frameSize / 32)) with
  | .error e =>
    if e.cur.res ≠ .notReady then
      -- a cause, taken now or with its error response: the members' effects stand, the finals are not written
      { e.inlineDone r.fam with cur := cur0 }
    else
      -- the page is waited for: the driver tries again
      let w : State := { s with cores := (s.updCore cid fun c => { c with mbox := (e.core cid).mbox }).cores, ctr := e.ctr }
      w.after cid 1 (.inlineRestore cid slot)
  | .ok (bs, s2) =>
    let s2 : State := s2.tookSlots.updMe fun t =>
      let t := t.unframe r.saved r.savedV bs
      { t with csr := { t.csr with ifp := BitVec.ofNat 64 (r.frame + r.creator.frameSize),
                                   fst := t.csr.fst ||| ((f.map (·.flags)).getD fNone).zeroExtend 64 },
               lastInline := some r.fam, kids := t.kids ++ [r.fam], hold := .none }
    let s2 : State := match f with
      | none => s2
      | some f =>
        let s : State := (f.finals.zipIdx).foldl (fun s x => s.writeS s.meWho (BitVec.ofNat 4 (f.desc.hsrc + x.2)) x.1) s2
        let s : State := s.writeMine r.rd f.id
        s.inlineDone r.fam
    let s2 : State := match s2.me.slice with
      | some sl => s2.sliceCheck sl
      | none => s2
    { s2 with cur := cur0 }

/-- The inline driver has read the frame back (R120). -/
def execInlineRestore (s : State) : Host.Outcome State Fault Refusal :=
  .next (match s.evt with
    | .inlineRestore cid slot =>
      match (s.core cid).runOf slot with
      | none => s
      | some r => if s.runStopped r then s else s.restore cid slot r
    | _ => s)

/-! Continuation queues: the entry of a record (R332 to R334). -/

/-- The address of the next slot of a spill ring. -/
def ContQ.tailVa (q : ContQ) : Nat := q.cqsb.toNat + 64 * ((q.head + q.spill.length) % 2 ^ (q.cqsn.toNat % 32))

/-- The cause that an access of the dispatcher or the overflow engine meets at its home (R297, R300, R306). -/
def State.dispCause (s : State) (p : Part) (pa n acc : Nat) : Option Nat :=
  match s.refusalOf p false false pa n acc with
  | some c => some c
  | none =>
    if s.spoilt pa n && (match s.loc pa with
        | .dram _ => acc == 0 && !s.l2Hit pa n
        | .scratch _ _ => true
        | _ => false) then some (memCause 4 acc) else none

/-- An access of the dispatcher outside its partition's permitted ranges is logged (R386, R387). -/
def State.dispLog (s : State) (p : Part) (pa acc cause tag : Nat) : State :=
  if cause = memCause 3 acc && s.outside p pa then s.violation 5 acc p.num 2047 31 pa tag else s

/-- Writes a record to the spill ring's tail, where its page and its home let it (R334). -/
def State.spillWrite (s : State) (p : Part) (q : ContQ) (r : ContRec) : Option State :=
  match s.engXlate p q.tailVa needStore false with
  | .ok pa _ =>
    if (s.dispCause p pa 64 1).isSome then none
    else some ((s.putDwords pa r.words).updContQ q.sg fun q => { q with spill := q.spill ++ [r] })
  | _ => none

/-- The page of the next spill slot does not let a record in: the ring stalls, and the overflow engine looks at the page (R334). -/
def State.spillStall (s : State) (sg : Nat) : State :=
  (s.updContQ sg fun q => { q with stalled := true, posted := false }).urgent (.spillOverflowMove sg)

/-- A supergroup's queue takes a record itself (R332). -/
def ContQ.takes (q : ContQ) : Bool := q.spill.isEmpty && decide (q.recs.length < 64)

/-- A new record enters a supergroup's queue, or its spill ring's tail; an arriving record that finds no ring, or a stalled
one, waits in the arrival buffer (R332, R333). -/
def State.enqueue (s : State) (p : Part) (sg : Nat) (r0 : ContRec) : State :=
  let q := s.contQ sg
  let r := { r0 with sg := sg }
  let wait (s : State) : State := s.updPart p.num fun p => { p with arrivals := p.arrivals ++ [r] }
  if q.takes then (s.updContQ sg fun q => { q with recs := q.recs ++ [r] }).urgent (.continuationHeadPlace sg)
  else if q.cqsn = 0#64 || q.stalled then wait s
  else
    match s.spillWrite p q r with
    | some s => s
    | none => wait (s.spillStall sg)

/-- Kind 0 records in a partition's spill rings (R333). -/
def State.spilled (s : State) (p : Part) : Nat :=
  ((s.contq.filter fun q => p.hasSg q.sg).flatMap (·.spill)).countP fun r => r.traveller.isNone

/-! CREATE (R133). -/

/-- The lowest free revision id of a partition (R309). -/
def Part.freeRev (p : Part) : Option Nat := (List.range 256).find? fun i => !(p.revs.any fun r => r.id == i)

/-- Drops a family that a CREATE has recorded and that shall not exist, with its revision. -/
def State.forget (s : State) (uid : Nat) : State :=
  let s : State := match s.fam uid with
    | some f => match f.rev with
      | some id => (s.dropAsk f).dropRev f.part id
      | none => s.dropAsk f
    | none => s
  { s with fams := s.fams.filter fun f => f.uid != uid }

/-- The creator's side of an allocated, delegated or queued family: the destinations' presence clears, the family joins
those to be synced (R36, R133, R135). -/
def State.created (s : State) (f : Family) : State :=
  let s : State := (List.range f.desc.s).foldl (fun s j => s.updMe fun t =>
    let n := BitVec.ofNat 4 (f.desc.hsrc + j)
    t.coverS n (t.regs.s.get n.toFin).await) s
  if f.det then s else s.updMe fun t => { t with kids := t.kids ++ [f.uid] }

/-- The words of a kind 0 record (R330). -/
def queueWords (desc : W64) (ctr : Nat) (place : W64) (limit : Int) (tag slice : Nat) : List W64 :=
  [desc, 0#64, BitVec.ofNat 64 ctr, place, BitVec.ofInt 64 limit, BitVec.ofNat 64 tag, BitVec.ofNat 64 slice, 0#64]

/-- A kind 0 record. -/
def detRecord (fam : Nat) (words : List W64) : ContRec := { sg := 0, words := words, fam := fam, traveller := none }

/-- The family record that a CREATE makes.  A global or a shared whose register is absent is copied as it stands, as a present
value (R35, R36; DESIGN CHOICE, log entry 41). -/
def State.newFamily (s : State) (uid : Nat) (d : Desc) (p : Place) (n : Nat) (det : Bool) (rev : Option Nat) : Family :=
  let t := s.me
  let part := s.partNum s.cur.cid
  { uid := uid, id := 0#64, cid := s.cur.cid, ent := 0, kind := .alloc, st := .running, desc := d, place := p, n := n,
    det := det, rev := rev, inRev := if rev.isSome then rev else s.inRev t,
    task := if rev.isSome then some uid else (t.fam.bind s.fam).bind (·.task), part := part, slice := t.slice,
    parentFam := t.fam, parentUid := t.uid, parentCid := s.cur.cid, parentSlot := s.cur.slot,
    globals := (List.range d.g).map fun i => (t.regs.s.get (BitVec.ofNat 4 (d.gsrc + i)).toFin).val,
    init := (List.range d.s).map fun j => (t.regs.s.get (BitVec.ofNat 4 (d.hsrc + j)).toFin).val,
    start := { fmode := t.csr.fmode, wlim := t.csr.wlim, chk := t.csr.chk }, shares := [], links := [], outs := [], brk := none,
    flags := fNone, ended := .none, replay := 0, side := false, synced := false, doneAt := 0, away := false, ctr := none }

/-- The fallback's inline run, or the commitment of a CREATE whose delegation has been answered (R119).  A detached one that is
refused leaves rd as it is (R133; DEDUCED, log entry 42). -/
def answered (s : State) (h : Hdr) (rd : SReg) (uid : Nat) (ok : Bool) (det : Bool) : Except State State :=
  match s.fam uid with
  | none => .ok (commitNext s h .drops (loneW h))
  | some f => do
    if ok then
      let s : State := (commitNext s h .drops (loneW h)).created f
      .ok (if det then s else s.writeMine rd f.id)
    else if f.place.fallback = 2#2 then
      let s : State := commitNext (s.forget uid) h .drops (loneW h)
      .ok (if det then s else s.writeMine rd 0#64)
    -- an inline run that waits is tried again; the answer stands
    else startInline s h rd uid fun e => match e.cur.res with
      | .trapped _ => e.forget uid
      | _ => e

/-- CREATE, in the order of R133.  Its reads, and the frame and ring stores that it makes, do not make the thread travel (R143; DESIGN
CHOICE, log entry 78).  The count that an id with I = 1 takes includes the family itself (R16; DESIGN CHOICE, log entry 83). -/
def createOp (h : Hdr) (rd ra rb : SReg) (rev det : Bool) (s : State) : Except State State := do
  if s.cur.slot = 16 then raise s 2 0x00 0
  else
  gateC { Uses.none with sr := [ra, rb] ++ (if det then [rd] else []), sw := if det then [] else [rd] } s
  match s.me.hold with
  | .done v => answered s h rd (v.toNat / 2) (v.getLsbD 0) det
  | _ =>
  memGate s
  let (bs, s1) ← readNow s (s.regVal ra) 32 32
  let w (i : Nat) : W64 := BitVec.ofNat 64 (leVal ((bs.drop (8 * i)).take 8))
  let d := Desc.parse (w 0) (w 1) (w 2) (w 3)
  let pw := s.regVal rb
  let p := Place.parse pw s.cur.cid
  if Desc.reserved (w 2) (w 3) || d.bad rev det p.fallback then raise s 6 0x40 0
  else
  let hs : List (BitVec 4) := (List.range d.s).map fun j => BitVec.ofNat 4 (d.hsrc + j)
  if hs.any (fun n => s.cur.aDest == some (.s n)) then raise s 6 0x00 0
  else if hs.any (fun n => (s.me.regs.s.get n.toFin).pend) then notReady s
  else if s.badPlace pw p (s.partNum s.cur.cid) det then raise s 6 0x41 0
  else
  let pt := s.part (s.partNum s.cur.cid)
  let rid := if rev then pt.freeRev else none
  if rev && rid.isNone then raise s 6 0x81 0
  else
  let (lim, s2) ← (if d.ind then
      match readNow s1 (w 1) 8 8 with
      | .ok (b, s2) => (.ok ((BitVec.ofNat 64 (leVal b)).toInt, s2) : Except State (Int × State))
      | .error e => .error e
    else .ok (d.limit, s1))
  let d := { d with limit := lim }
  let n := d.count
  let ctr ← (if det then
      match access s2 (s.regVal rd) 8 8 { needAtomic with tag := true } true with
      | .ok (x, _) => (.ok (some (x.va, x.pa)) : Except State (Option (Nat × Nat)))
      | .error e => .error e
    else .ok none)
  let ds := deals p.cores p.cyclic n
  let fits := n != 0 && s2.fits d ds
  let away := n != 0 && !fits && (p.fallback == 0#2 || p.fallback == 2#2) && !p.dcores.isEmpty
  -- a release of the creator's earlier stores, as wide as the place and the delegation place it goes to (R125, R268, R273)
  let wide := (p.cores ++ if away then p.dcores else []).any (· != s.cur.cid) || rev || det
  if s.unperformed s.meWho wide s.ctr then notReady s
  else
  let s2 ← (if wide then
      match s2.spoiltLine s.cur.cid fun _ => true with
      | some a => raise (s2.releaseLines s.cur.cid) 6 0x31 a
      | none => .ok (s2.releaseLines s.cur.cid)
    else .ok s2)
  let (uid, s3) := s2.fresh
  let f := { s3.newFamily uid d p n det rid with ctr := ctr }
  let s3 : State := if det then s3.markSide f.part (s3.inRev s3.me) none else s3
  let s4 : State := { s3 with fams := s3.fams ++ [f] }
  let s4 : State := match rid with
    | some id => s4.updPart f.part fun q => { q with revs := q.revs ++
        [{ id := id, fam := uid, parent := s3.inRev s3.me, snap := q.regions, mem0 := s3.mem, vers0 := q.versions }] }
    | none => s4
  if n = 0 then
    let gen := s4.myCore.inlCount + 1#32
    let id := inlineId gen s.cur.cid
    let s5 : State := commitNext s4 h .drops (loneW h)
    let s5 : State := (s5.updMyCore fun c => { c with inlCount := gen }).updFam uid fun f =>
      { f with kind := .empty, st := .done, doneAt := s.now, id := id }
    let s5 : State := match rid with
      | some r => s5.dropRev f.part r
      | none => s5
    if det then return s5.urgent (.detJoinDecrement uid)
    else
      -- the hsrc registers are present again at once, with their initial values
      let s6 : State := (f.init.zipIdx).foldl (fun s x => s.writeS s.meWho (BitVec.ofNat 4 (d.hsrc + x.2)) x.1) s5
      return (s6.updMe fun t => { t with lastInline := some uid }).writeMine rd id
  else
    if fits then
      let s5 : State := (commitNext (s4.allocate uid d ds) h .drops (loneW h)).created f
      let id := ((s5.fam uid).map (·.id)).getD 0#64
      return (if det then s5 else s5.valueLater rd id 8)
    else if p.fallback = 3#2 then
      let sg := sgOf (p.cores.headD 0)
      let q := s4.contQ sg
      if !q.takes && (q.cqsn == 0#64 || decide (pt.cqsq.toNat ≤ s4.spilled pt)) then raise s 6 0x45 0
      -- only a record that the ring would take waits for its stall to end (R334)
      else if !q.takes && q.stalled then notReady s
      else
        let r : ContRec := { detRecord uid (queueWords (s.regVal ra) ((ctr.map (·.1)).getD 0) pw lim (s.ownerTag s.me % 2 ^ 32)
          (s.me.slice.getD 0)) with sg := sg }
        let s5 : State := (commitNext s4 h .drops (loneW h)).updFam uid fun f => { f with st := .queued }
        if q.takes then return s5.enqueue pt sg r
        else
          match s5.spillWrite pt q r with
          | some s6 => return s6
          -- the CREATE does not commit: it issues again once the stall has ended (R334)
          | none => notReady (s.spillStall sg)
    else if p.fallback = 1#2 || p.dcores.isEmpty then startInline s4 h rd uid fun s => s.forget uid
    else
      let s5 : State := s4.updFam uid fun f => { f with st := .delegating }
      holdOn ((s5.sentMsgs s.cur.cid 1).after s.cur.cid 20 (.delegationRequest uid)) uid

/-- CREATE (R133). -/
def execCreate (h : Hdr) (rd ra rb : SReg) (s : State) : Host.Outcome State Fault Refusal :=
  .next (run (createOp h rd ra rb false false s))

/-- CREATE with REV (R133). -/
def execCreateRev (h : Hdr) (rd ra rb : SReg) (s : State) : Host.Outcome State Fault Refusal :=
  .next (run (createOp h rd ra rb true false s))

/-- CREATE with DET (R134). -/
def execCreateDet (h : Hdr) (rd ra rb : SReg) (rev : Bool) (s : State) : Host.Outcome State Fault Refusal :=
  .next (run (createOp h rd ra rb rev true s))

/-- A delegation request reaches the delegation place, which decides at once (R258). -/
def execDelegationRequest (s : State) : Host.Outcome State Fault Refusal :=
  .next (match s.evt with
    | .delegationRequest uid =>
      match s.fam uid with
      | none => s
      | some f =>
        let d := f.place.dcores.headD 0
        -- the creator's family is gone: nothing is answered (R388)
        if f.st != .delegating then s.gotMsgs d 1
        else
          let ds := deals f.place.dcores f.place.cyclic f.n
          let s : State := (s.gotMsgs d 1).sentMsgs d 1
          if s.fits f.desc ds then
            ((s.updFam uid fun f => { f with away := true }).allocate uid f.desc ds).after f.parentCid 20 (.delegationAnswer uid true)
          else s.after f.parentCid 20 (.delegationAnswer uid false)
    | _ => s)

/-- The answer of a delegation reaches the creator, whose CREATE then commits or falls back (R119, R258). -/
def execDelegationAnswer (s : State) : Host.Outcome State Fault Refusal :=
  .next (match s.evt with
    | .delegationAnswer uid ok =>
      match s.fam uid with
      | none => s
      | some f => (s.gotMsgs f.parentCid 1).updWho f.creator fun t =>
          t.wake uid (.done (BitVec.ofNat 64 (uid * 2 + (if ok then 1 else 0))))
    | _ => s)

end Sys2Proof.Machine
end

