-- ==== Sys2Proof/Machine/Slices.lean ====
section
/-! DEFINITION. The partition's dispatcher (R319 to R329), its continuation queues (R330 to R334), the placing of
travellers (R142), and what follows a purge (R380 to R385). -/

namespace Sys2Proof.Machine

/-! The end of a slice (R325, R328, R381, R382). -/

/-- The families of a slice. -/
def State.sliceFams (s : State) (uid : Nat) : List Nat :=
  (s.fams.filter fun f => f.slice == some uid).map (·.uid)

/-- Ends a slice's work as KILL does, and the slice with a status (R328, R329, R389). -/
def State.killSlice (s : State) (uid status cause : Nat) : State :=
  let fs := s.sliceFams uid
  ((s.endSlice uid status cause).purgeFams fs none).dropThreads fun t => t.slice == some uid

/-- The dwords of a death notice (R381). -/
def Purge.notice (p : Purge) (tag replay : Nat) (task : Bool) : List W64 :=
  [BitVec.ofNat 64 (tag * 2 ^ 32 + (if task then 2 ^ 31 else 0) + replay * 2 ^ 29 + p.slot * 2 ^ 24 + p.cause * 2 ^ 16 + p.cid),
   BitVec.ofNat 64 p.pc, BitVec.ofNat 64 p.addr, BitVec.ofNat 64 p.time]

/-- Writes a slice's notice to NOTIFY at system privilege; a write that fails is reported instead (R382). -/
def State.notify (s : State) (sl : Slice) (ws : List W64) (cause : Nat) : State :=
  let p := s.part sl.part
  let va := sl.word 7
  if va = 0 then s
  else
    match s.engXlate p va needStore false with
    | .ok pa _ =>
      match s.dispCause p pa 32 1 with
      | none => s.putDwords pa ws
      | some c => (s.dispLog p pa 1 c sl.tag).event "notice lost" (sl.tag * 2 ^ 8 + cause) va
    | _ => (s.walkEvent p va).event "notice lost" (sl.tag * 2 ^ 8 + cause) va

/-- A slice has died, and its purge is under way (R325, R328). -/
def State.dying (s : State) (uid : Nat) : Bool := s.purges.any fun p => p.fam.isNone && p.slice == some uid

/-- The purge of a dead slice is over: its work ends as by KILL, and its notice is posted (R328, R380, R382). -/
def State.sliceDead (s : State) (sl : Slice) (p : Purge) : State :=
  if sl.st = .ended then s else (s.killSlice sl.uid 3 p.cause).notify sl (p.notice sl.tag 0 false) p.cause

/-- A slice dies of a cause that no thread raised, recorded with an address: its notice names no thread (R328, R375, R381).  A
death under way is the first, and decides (R383). -/
def State.sliceDies (s : State) (uid cause addr : Nat) : State :=
  match s.slice uid with
  | none => s
  | some sl =>
    if s.dying uid then s
    else s.sliceDead sl { tok := 0, fam := none, slice := some uid, cause := cause, replay := false, cid := 2047, slot := 31, pc := 0,
                          addr := addr, time := s.tsc }

/-! Submission (R320 to R322). -/

def Part.ring (p : Part) (k : Nat) : Ring := p.rings.toList.getD k Ring.zero

def State.updRing (s : State) (part k : Nat) (f : Ring → Ring) : State :=
  s.updPart part fun p => { p with rings := p.rings.set! k (f (p.ring k)) }

/-- The fields of a slice record (R320). -/
def recBad (ctcnt : Nat) (ws : List W64) : Bool :=
  let w (i : Nat) : Nat := (ws.getD i 0#64).toNat
  let obj (x : Nat) : Bool := x == 0xFFFF || decide (x < ctcnt)
  bits (w 3) 48 16 != 0 || bits (w 5) 32 1 != 0 || bits (w 6) 32 32 != 0 || w 0 % 32 != 0 || w 7 % 32 != 0 ||
    !(obj (bits (w 4) 0 16) && obj (bits (w 4) 16 16) && obj (bits (w 4) 32 16) && obj (bits (w 4) 48 16) &&
      obj (bits (w 5) 48 16))

/-- A root place that R322 refuses, whether or not the partition is switched in (R392). -/
def State.rootPlaceBad (s : State) (part : Nat) (w : W64) : Bool :=
  (Place.parse w 0).bad w false (fun c => (s.part part).valid && (s.part part).hasSg (sgOf c)) ||
    bits w.toNat 0 11 == 2047 || bits w.toNat 37 11 != 0 ||
    bits w.toNat 24 2 != 1

/-- Submits a record: a submission number, then the checks of R322; a refused one ends at once (R325). -/
def State.submit (s : State) (part ring index : Nat) (ws : List W64) : State :=
  let (uid, s) := s.fresh
  let p := s.part part
  let sl : Slice := { uid := uid, part := part, sub := p.nextSub + 1, ring := ring, index := index, words := ws,
                      st := .waiting, issued := 0, recent := [], root := none, status := 0, cause := 0, signalled := false,
                      yielding := none }
  let s : State := { s.updPart part fun p => { p with nextSub := p.nextSub + 1 } with slices := s.slices ++ [sl] }
  if recBad (p.ctcnt.toNat % 2 ^ 16) ws then s.sliceDies uid 0x40 0
  else if s.rootPlaceBad part (ws.getD 1 0#64) then s.sliceDies uid 0x41 0
  else s.urgent (.sliceDispatch part)

/-- A doorbell: the records are copied within 1 µs (R321, R326; DESIGN CHOICE, log entry 6). -/
def execDoorbell (s : State) : Host.Outcome State Fault Refusal :=
  .next (match s.evt with
    | .doorbell part k => s.atCycle (s.now + 40) (.sliceRecordCopy part k)
    | _ => s)

/-- A device write of a ring's TAIL dword sets TAIL and is reported to the dispatcher (R321). -/
def execTailLineWrite (s : State) : Host.Outcome State Fault Refusal :=
  .next (match s.evt with
    | .tailLineWrite part k v =>
      (s.updRing part k fun r => { r with tail := v.setWidth 32 }).atCycle (s.now + 40) (.sliceRecordCopy part k)
    | _ => s)

/-- A write of a ring's BASE or SIZE resets the ring (R321). -/
def execRingReset (s : State) : Host.Outcome State Fault Refusal :=
  .next (match s.evt with
    | .ringReset part k size v =>
      let s1 : State := s.updRing part k fun r =>
        { base := if size then r.base else v, size := if size then v else r.size, head := 0#32, tail := 0#32,
          stopped := false, placed := true }
      -- the tail line holds the same TAIL and HEAD
      s1.putBytesGo 0 none 0 ((s1.part part).ring k).tailPa (toLe 16 0)
    | _ => s)

/-- Stops a ring on an error, of which an event record tells (R321). -/
def State.stopRing (s : State) (part k : Nat) : State :=
  (s.updRing part k fun r => { r with stopped := true }).event "ring error" part k

/-- Copies n records of a ring from its HEAD on.  A record in a block of HBM with an uncorrectable error stops the ring (R306; DESIGN
CHOICE, log entry 64). -/
def State.copyRecords (s : State) (part k : Nat) : Nat → State
  | 0 => s
  | n + 1 =>
    let r := (s.part part).ring k
    let i := r.head.toNat % 2 ^ r.size.toNat
    if s.spoilt (r.base.toNat + 64 * i) 64 && !s.l2Hit (r.base.toNat + 64 * i) 64 then s.stopRing part k
    else
    let ws := (List.range 8).map fun j => BitVec.ofNat 64 (Memory.val s.mem (r.base.toNat + 64 * i + 8 * j) 8)
    let s : State := s.updRing part k fun r => { r with head := r.head + 1#32 }
    (s.submit part k i ws).copyRecords part k n

/-- The dispatcher copies a ring's records from HEAD to TAIL − 1, or stops the ring on an error (R321, R322). -/
def execSliceRecordCopy (s : State) : Host.Outcome State Fault Refusal :=
  .next (match s.evt with
    | .sliceRecordCopy part k =>
      let p := s.part part
      let r := p.ring k
      let n := (r.tail - r.head).toNat
      if !p.valid || r.stopped || !r.placed then s
      else if 2 ^ r.size.toNat < n then s.stopRing part k
      else
        let s : State := s.copyRecords part k n
        let r := (s.part part).ring k
        if n = 0 then s else s.putDwords (r.tailPa + 8) [r.head.zeroExtend 64]
    | _ => s)

/-! Dispatch (R324 to R326). -/

/-- PEND of a completion object. -/
def State.pend (s : State) (p : Part) (j : Nat) : Nat := Memory.val s.mem (p.ctbase.toNat + 8 * j) 4

/-- Every object named by the WAIT fields has PEND = 0 (R324). -/
def State.sliceReady (s : State) (sl : Slice) : Bool :=
  let p := s.part sl.part
  sl.st == .waiting && [0, 16, 32, 48].all fun o =>
    let j := bits (sl.word 4) o 16
    j == 0xFFFF || s.pend p j == 0

/-- Ascending DEADLINE, then ascending submission number. -/
def insSlice (x : Slice) : List Slice → List Slice
  | [] => [x]
  | y :: rest =>
    if x.word 2 < y.word 2 || (x.word 2 = y.word 2 && x.sub < y.sub) then x :: y :: rest else y :: insSlice x rest

/-- What the dispatcher finds when it reads a root's descriptor. -/
inductive RootRead where
  | ok (d : Desc) (s : State)
  | fault (cause va : Nat) (s : State)
  | wait

/-- Bytes that the dispatcher reads for a slice of tag at user privilege through the partition's page table. -/
def State.dispRead (s : State) (p : Part) (va n tag : Nat) : EngXl × List Byte × State :=
  match s.engXlate p va needLoad true with
  | .ok pa w1 =>
    match s.dispCause p pa n 0 with
    | some c => (.fault c, [], s.dispLog p pa 0 c tag)
    | none => (.ok pa w1, Memory.bytes s.mem pa n, s.l2Touch pa (wCache w1) n)
  | .fault c => (.fault c, [], if c = 0x20 then s.walkEvent p va else s)
  | .wait => (.wait, [], s)

/-- Reads and checks a root's descriptor, with its limit word (R113, R126, R326). -/
def State.readRoot (s : State) (p : Part) (sl : Slice) : RootRead :=
  match s.dispRead p (sl.word 0) 32 sl.tag with
  | (.fault c, _, s) => .fault c (sl.word 0) s
  | (.wait, _, _) => .wait
  | (.ok _ _, bs, s) =>
    let w (i : Nat) : W64 := BitVec.ofNat 64 (leVal ((bs.drop (8 * i)).take 8))
    let d := Desc.parse (w 0) (w 1) (w 2) (w 3)
    if Desc.reserved (w 2) (w 3) || d.bad false false 1#2 || d.g != 0 || d.s != 0 then .fault 0x40 0 s
    else if !d.ind then .ok d s
    else if (w 1).toNat % 8 != 0 then .fault 0x28 (w 1).toNat s
    else
      match s.dispRead p (w 1).toNat 8 sl.tag with
      | (.fault c, _, s) => .fault c (w 1).toNat s
      | (.wait, _, _) => .wait
      | (.ok _ _, b, s) => .ok { d with limit := (BitVec.ofNat 64 (leVal b)).toInt } s

/-- The root family of a slice (R326). -/
def rootFamily (uid : Nat) (sl : Slice) (d : Desc) (p : Place) : Family :=
  { uid := uid, id := 0#64, cid := p.cores.headD 0, ent := 0, kind := .root, st := .running, desc := d, place := p,
    n := d.count, det := false, rev := none, inRev := none, task := none, part := sl.part, slice := some sl.uid,
    parentFam := none, parentUid := 0, parentCid := 0, parentSlot := 31, globals := [], init := [],
    start := { fmode := BitVec.ofNat 64 (bits (sl.word 5) 33 2), wlim := BitVec.ofNat 64 (bits (sl.word 5) 0 32),
               chk := BitVec.ofNat 64 (bits (sl.word 5) 35 1) },
    shares := [], links := [], outs := [], brk := none, flags := fNone, ended := .none, replay := 0, side := false, synced := false,
    doneAt := 0, away := false, ctr := none }

/-- Tries the ready slices in order: the first whose root fits is dispatched; descriptor faults end slices on the way.
Answers whether one was dispatched. -/
def State.dispatchOne (s : State) (part : Nat) : List Slice → Bool × State
  | [] => (false, s)
  | sl :: rest =>
    let p := s.part part
    match s.readRoot p sl with
    | .wait => s.dispatchOne part rest
    | .fault c va s => (s.sliceDies sl.uid c (memAddr c va)).dispatchOne part rest
    | .ok d s =>
      let pl := Place.parse (sl.words.getD 1 0#64) 0
      let ds := deals pl.cores pl.cyclic d.count
      if s.fits d ds then
        let (uid, s) := s.fresh
        let s : State := { s with fams := s.fams ++ [rootFamily uid sl d pl] }
        let s : State := s.updSlice sl.uid fun x => { x with st := .running, root := some uid }
        let s : State := s.allocate uid d ds
        (true, if d.count = 0 then s.familyDone uid else s)
      else s.dispatchOne part rest

/-- The dispatcher may dispatch for a partition: it runs, and reduced service has not stopped (R372, R392). -/
def State.dispatches (s : State) (p : Part) : Bool :=
  p.valid && p.gsst == .running && !(s.dev.service == .reduced && s.dev.trained.isSome)

/-- One decision of the dispatcher, one every 40 cycles (R324, R326). -/
def execSliceDispatch (s : State) : Host.Outcome State Fault Refusal :=
  .next (match s.evt with
    | .sliceDispatch part =>
      let p := s.part part
      if !s.dispatches p then s
      else if s.now < p.dispAt then
        if s.agenda.any fun d => d.what == .sliceDispatch part && d.at_ == p.dispAt then s
        else s.atCycle p.dispAt (.sliceDispatch part)
      else
        let ready := (s.slices.filter fun x => x.part == part && s.sliceReady x).foldl (fun acc x => insSlice x acc) []
        match s.dispatchOne part ready with
        | (true, s) =>
          let s : State := s.updPart part fun p => { p with dispAt := s.now + 40 }
          if s.slices.any fun x => x.part == part && x.st == .waiting then s.atCycle (s.now + 40) (.sliceDispatch part)
          else s
        | (false, s) => s
    | _ => s)

/-! The end of slices (R323, R325, R328, R329). -/

/-- A completion object after a signal, and whether PEND is then 0 (R323). -/
def signalled (w status cause late : Nat) : Nat × Bool :=
  let pend := w % 2 ^ 32 - 1
  let done := pend == 0
  let hi := if done || decide (3 ≤ status) then
      cause * 2 ^ 56 + status * 2 ^ 48 + bits w 41 7 * 2 ^ 41 + late * 2 ^ 40 + bits w 32 8 * 2 ^ 32
    else w / 2 ^ 32 * 2 ^ 32
  (hi + pend, done)

/-- The atomic of a slice's signal at object j (R323). -/
def State.signalAt (s : State) (sl : Slice) (j : Nat) : State :=
  let pa := (s.part sl.part).ctbase.toNat + 8 * j
  let late := if sl.word 2 < s.tsc then 1 else 0
  let r := signalled (Memory.val s.mem pa 8) sl.status sl.cause late
  let s1 : State := if r.2 then { s with tags := Tags.set s.tags (pa / 8) } else s
  let s2 : State := s1.putDwords pa [BitVec.ofNat 64 r.1]
  if r.2 && bits (sl.word 5) 36 1 == 1 then s2.updDev fun d => { d with msix := d.msix ++ [bits (sl.word 5) 37 11] } else s2

/-- A slice's signal, a release at pkg scope (R323); a refused record's object may lie beyond the table.  The records of
the slice and of its families go. -/
def State.signalSlice (s : State) (uid : Nat) : State :=
  match s.slice uid with
  | none => s
  | some sl =>
    let p := s.part sl.part
    let s1 : State := s.cores.foldl (fun s c => if p.occupies && p.hasSg (sgOf c.cid) then s.releaseLines c.cid else s) s
    let j := bits (sl.word 5) 48 16
    let s2 : State := if p.ctcnt.toNat % 2 ^ 16 ≤ j then s1 else s1.signalAt sl j
    -- messages of delegations that were under way count as received (R388)
    let s2 : State := (s2.fams.filter fun f => f.slice == some uid).foldl (fun s f => s.dropAsk f) s2
    { s2 with
      slices := s2.slices.filter fun x => x.uid != uid
      fams := s2.fams.filter fun f => f.slice != some uid }

/-- Writes of a slice's threads, and of others on the cores where its families ran, are not yet performed (R323). -/
def State.sliceStores (s : State) (uid : Nat) : Bool :=
  ((s.fams.filter fun f => f.slice == some uid).flatMap Family.ran).any s.writesOut

/-- The signal of a slice that has ended; the dispatcher looks again, and the move to full service may follow (R323, R324,
R372). -/
def execCompletionSignal (s : State) : Host.Outcome State Fault Refusal :=
  .next (match s.evt with
    | .completionSignal uid =>
      match s.slice uid with
      | none => s
      | some sl =>
        -- what its detached families have still to count, and its stores, come first (R134, R323)
        if s.sliceStores uid || s.fams.any fun f => f.slice == some uid && f.ctr.isSome && f.st.over then
          s.atCycle (s.now + 1) (.completionSignal uid)
        else ((s.signalSlice uid).urgent .fullServiceEntry).urgent (.sliceDispatch sl.part)
    | _ => s)

/-- A cancel (R329). -/
def State.cancelNow (s : State) (part : Nat) (v : W64) : State :=
  let hit := s.slices.filter fun x => x.part == part && x.st != .ended && !s.dying x.uid && x.ring == bits v.toNat 16 3 &&
    x.index == bits v.toNat 0 16 && x.tag == bits v.toNat 32 32
  hit.foldl (fun s x => if x.st = .waiting then s.endSlice x.uid 5 0x4A else s.killSlice x.uid 6 0x4A) s

/-- A cancel reaches the dispatcher; one for a switched-out partition is held until switch-in (R329, R392). -/
def execCancel (s : State) : Host.Outcome State Fault Refusal :=
  .next (match s.evt with
    | .cancel part v =>
      if (s.part part).away then s.updPart part fun p => { p with heldIn := p.heldIn ++ [.cancel part v] }
      else s.cancelNow part v
    | _ => s)

/-! After a purge (R380 to R385). -/

/-- What is due for a task that is purged for its replay goes: the steps of the inline runs in the slots of its own, and the values
of its chain, which count as received (R385, R388). -/
def State.dropSteps (s : State) (uid : Nat) : State :=
  let mine (cid slot : Nat) : Bool := ((s.core cid).runOf slot).any fun r => r.fam == uid
  let far := s.agenda.filterMap fun d => match d.what with
    | .registerWriteMessage g _ _ _ cid _ _ c => if g = uid ∧ c ≠ cid then some c else none
    | _ => none
  (far.foldl (fun s c => s.gotMsgs c 1) s).dropDue fun e => match e with
    | .inlineRestore c k => mine c k
    | .inlineMemberEntry c k => mine c k
    | .registerWriteMessage g _ _ _ _ _ _ _ => g == uid
    | _ => false

/-- The purge of a task for its replay: its threads and descendants go, its versions too, and what they have still to write of them;
the family, its entries and its revision's ancestor stay (R385 steps 1 to 3). -/
def State.replayPurge (s : State) (f : Family) : State :=
  let inner := (s.famsWithin fun x => x.uid == f.uid).filter (· != f.uid)
  let s : State := s.purgeFams inner none
  let s : State := (s.dropThreads fun t => t.fam == some f.uid).dropSteps f.uid
  let s : State := { s with cores := s.cores.map fun c => { c with regUse := c.regUse.filter fun u => u.fam != f.uid || f.kind == .inlined } }
  let s : State := match f.rev with
    | some id => ((s.dropWrites f.part id).updPart f.part fun p =>
        { p with versions := p.versions.filter fun v => v.rev != id }).serveHeld f.part
    | none => s
  (s.updFam f.uid fun f => { f with st := .replayWait, shares := [], links := [], outs := [], brk := none, flags := fNone }).urgent
    (.taskReplay f.uid)

/-- The purge of an owner outside a task covers the task: an enclosing family is being purged or has ended early, or its slice
is (R383). -/
def State.covered (s : State) (f : Family) : Bool :=
  (s.fams.any fun g => g.uid != f.uid && (g.ended != .none || g.st == .purging) &&
    (s.famsWithin fun x => x.uid == g.uid).contains f.uid) ||
  f.slice.any fun u => match s.slice u with
    | some sl => sl.st == .ended || s.dying u
    | none => true

/-- A purge completes: the task or slice is dead and its notice is posted, or the task's replay begins, where no purge around it has come
(R328, R380, R382, R383, R385). -/
def execPurgeComplete (s : State) : Host.Outcome State Fault Refusal :=
  .next (match s.evt with
    | .purgeComplete tok =>
      match s.purges.find? fun p => p.tok == tok with
      | none => s
      | some p =>
        let s : State := { s with purges := s.purges.filter fun x => x.tok != tok }
        match p.fam with
        | some u =>
          match s.fam u with
          | none => s
          | some f =>
            if p.replay && f.st == .purging && f.ended == .none && !s.covered f then s.replayPurge f
            else
              let tag := f.part * 2 ^ 8 + f.rev.getD 0
              let s1 : State := s.purgeFams (s.famsWithin fun x => x.uid == u) (some u)
              if p.replay || s.covered f then s1 else s1.deathLog f.part (p.notice tag f.replay true)
        | none =>
          match p.slice.bind s.slice with
          | none => s
          | some sl => s.sliceDead sl p
    | _ => s)

/-- The cores that held a task: its place's, or those of the delegation place that accepted it (R385). -/
def Family.ranOn (f : Family) : List Nat := if f.away then f.place.dcores else f.place.cores

/-- A purged task is re-created from its create record, when its cores have the slots and registers (R385). -/
def execTaskReplay (s : State) : Host.Outcome State Fault Refusal :=
  .next (match s.evt with
    | .taskReplay uid =>
      match s.fam uid with
      | none => s
      | some f =>
        if f.st != .replayWait then s
        else if f.kind = .inlined then
          -- the inline run is entered again at member 0
          let at_ := s.cores.flatMap fun c => (c.runs.filter fun r => r.fam == uid).map fun r => (c.cid, r.slot, r.creator)
          let s : State := s.updFam uid fun f => { f with st := .running, replay := f.replay + 1 }
          at_.foldl (fun s x =>
            let (u, s) := s.fresh
            let s : State := s.updCore x.1 fun c => { c with runs := c.runs.map fun r =>
              if r.fam == uid then { r with next := 0 } else r }
            (s.setThread x.1 x.2.1 (some (Thread.driver u uid x.2.2))).after x.1 2 (.inlineMemberEntry x.1 x.2.1)) s
        else
          let ds := deals f.ranOn f.place.cyclic f.n
          if ds.all fun x => !(s.usable x.1 f.desc).isEmpty then
            let s : State := s.updFam uid fun f => { f with st := .running, replay := f.replay + 1 }
            ds.foldl (fun s x => s.takeCore uid f.desc x true (s.startAt f x.1)) s
          else s
    | _ => s)

/-! Travellers and continuation queues (R142, R330 to R334). -/

/-- Cores of a supergroup. -/
def sgCores (sg : Nat) : List Nat := (List.range 64).map (sg * 64 + ·)

/-- The core of a supergroup with the most free slots (ties to the lower cid) that can lend a traveller its registers, and
its lowest free slot (R26, R331). -/
def State.roomiest (s : State) (sg : Nat) : Option (Nat × Nat) :=
  ((sgCores sg).foldl (fun (best : Option (Nat × Nat × Nat)) c =>
    let fr := s.freeSlots c
    match fr with
    | [] => best
    | k :: _ =>
      if (s.core c).scFree < 16 then best
      else
        match best with
        | some b => if b.2.2 < fr.length then some (c, k, fr.length) else best
        | none => some (c, k, fr.length)) none).map fun b => (b.1, b.2.1)

/-- A purge has stopped the work of a thread: its family's, or its slice's (R328, R380). -/
def State.stopped (s : State) (t : Thread) : Bool :=
  (t.fam.bind s.fam).any (fun f => f.st == .purging) || t.slice.any s.dying

/-- Places a travelling thread in a slot, with the slot's frame; its arrival is an acquire (R142, R276).  One whose work a purge has
stopped issues nothing (R328, R380). -/
def State.land (s : State) (t : Thread) (cid slot : Nat) : State :=
  let fr := frameCsrs (s.core cid) slot
  let t' := { t with hold := if s.stopped t then .wait .stopped else .none, stall := none,
                     csr := { t.csr with ifp := fr.1, ifl := fr.2.1, cfp := fr.2.2.1, cfl := fr.2.2.2 } }
  let s : State := ((s.gotMsgs cid 1).acqInval cid).setThread cid slot (some t')
  match t.fam with
  | none => s
  | some u =>
    let s : State := s.updFam u fun f =>
      { f with shares := (f.shares.map fun x => { x with live := x.live.filter (· != t.member) }) ++
          [{ cid := cid, slots := [slot], next := 0, stride := 1, left := 0, live := [t.member], started := 1, ended := 0 }] }
    s.updCore cid fun c => { c with regUse := c.regUse ++ [{ fam := u, uid := slot + 1, sc := 16, vec := 0 }] }

/-- The lowest free context frame of a partition's traveller area: 256 bytes for each record of a traveller (R330). -/
def State.travFrame (s : State) (p : Part) : Option Nat :=
  let recs := (s.contq.filter fun q => p.hasSg q.sg).flatMap (fun q => q.recs ++ q.spill) ++ p.arrivals
  let used := (recs.filter fun r => r.traveller.isSome).map fun r => (r.words.getD 1 0#64).toNat
  ((List.range (min p.travRoom (used.length + 1))).find? fun i => !used.contains (p.travBase + 256 * i)).map (p.travBase + 256 * ·)

/-- The 256 bytes of a traveller's context frame, as dwords: the packed state of R142, in an order of the model's own, as its thread
resumes from its record (DESIGN CHOICE, log entry 60). -/
def Thread.packed (t : Thread) : List W64 :=
  let stack (i : Nat) : W64 := match t.rstack[i]? with
    | some a => a ||| 1#64
    | none => 0#64
  let ms := (t.regs.m.toList.drop 1).flatMap fun (m : MWord) => [m.setWidth 64, (m >>> 64).setWidth 64]
  let fl := bits t.csr.fst.toNat 0 8 + bits t.csr.fst.toNat 16 6 * 2 ^ 8
  t.regs.s.toList.map (·.val) ++ [t.pc ||| (t.csr.chk &&& 1#64)] ++ ms ++ (List.range 8).map stack ++
    [BitVec.ofNat 64 (t.present.toNat + fl * 2 ^ 16 + bits t.csr.fmode.toNat 0 2 * 2 ^ 30 + bits t.csr.wlim.toNat 0 32 * 2 ^ 32)]

/-- A traveller's record in a continuation queue, its context frame at an address (R330). -/
def travRecord (t : Thread) (tag frame : Nat) : ContRec :=
  { sg := 0, words := [t.pc, BitVec.ofNat 64 frame, 0#64, 0#64, 0#64, BitVec.ofNat 64 (2 ^ 32 + tag),
      BitVec.ofNat 64 (t.slice.getD 0), 0#64],
    fam := t.fam.getD 0, traveller := some t }

/-- The supergroup of a partition on a die with the most free slots. -/
def State.leastLoaded (s : State) (p : Part) (die : Nat) : Option Nat :=
  let load (sg : Nat) : Nat := ((sgCores sg).map fun c => (s.freeSlots c).length).sum
  ((List.range 5).foldl (fun (best : Option (Nat × Nat)) i =>
    let sg := die * 5 + i
    if p.hasSg sg then
      match best with
      | some b => if b.2 < load sg then some (sg, load sg) else best
      | none => some (sg, load sg)
    else best) none).map (·.1)

/-- A traveller that finds no slot: its state is packed into a free frame, and its record goes to the queue, or behind the arrivals
of its die; with no frame free it is tried again (R330, R333; DESIGN CHOICE, log entry 60). -/
def State.queueTraveller (s : State) (v : Traveller) (p : Part) (sg : Nat) : State :=
  match s.travFrame p with
  | none => s.atCycle (s.now + 1) (.travellerArrival v.tok)
  | some a =>
    let r := travRecord v.thread (s.ownerTag v.thread % 2 ^ 32) a
    let s1 : State := ({ s with travs := s.travs.filter fun t => t.tok != v.tok } : State).putDwords a v.thread.packed
    if p.arrivals.any fun x => x.sg / 5 == v.die then
      (s1.updPart p.num fun p => { p with arrivals := p.arrivals ++ [{ r with sg := sg }] }).urgent (.spillOverflowMove sg)
    else s1.enqueue p sg r

/-- A message for a switched-out partition goes to its message section, or stays with its requester while that is full (R392). -/
def State.keepMsg (s : State) (part : Nat) (e : Ev) : State :=
  s.updPart part fun p =>
    if p.msgs.length < p.msgRoom then { p with msgs := p.msgs ++ [e] } else { p with pent := p.pent ++ [e] }

/-- A traveller reaches its die: a free slot of the least-loaded supergroup, or that supergroup's queue (R142).  One that
left for another device is there (R360, DESIGN CHOICE, log entry 16). -/
def execTravellerArrival (s : State) : Host.Outcome State Fault Refusal :=
  .next (match s.evt with
    | .travellerArrival tok =>
      match s.travs.find? fun t => t.tok == tok with
      | none => s
      | some v =>
        let p := s.part v.part
        if v.dev != s.dev.devid then s
        else if p.away then s.keepMsg v.part (.travellerArrival tok)
        else
          match s.leastLoaded p v.die with
          | none => s
          | some sg =>
            match (if (s.contQ sg).recs.isEmpty && !p.arrivals.any (fun x => x.sg / 5 == v.die) then s.roomiest sg else none) with
            | some (c, k) => ({ s with travs := s.travs.filter fun t => t.tok != tok } : State).land v.thread c k
            | none => s.queueTraveller v p sg
    | _ => s)

/-- The head of a continuation queue is placed where it can be (R331). -/
def execContinuationHeadPlace (s : State) : Host.Outcome State Fault Refusal :=
  .next (match s.evt with
    | .continuationHeadPlace sg =>
      match (s.contQ sg).recs, s.partOf (sg * 64) with
      | r :: rest, some p =>
        if p.gsst != .running then s
        else
          let next (s : State) : State := if rest.isEmpty then s else s.urgent (.continuationHeadPlace sg)
          let pop (s : State) : State :=
            next ((s.updContQ sg fun q => { q with recs := q.recs.drop 1 }).urgent (.spillOverflowMove sg))
          match r.traveller with
          | some t =>
            match s.roomiest sg with
            | some (c, k) => (pop s).land t c k
            | none => s
          | none =>
            match s.fam r.fam with
            | none => pop s
            | some f =>
              let ds := deals f.place.cores f.place.cyclic f.n
              if f.st = .queued && s.fits f.desc ds then (pop s).allocate r.fam f.desc ds else s
      | _, _ => s
    | _ => s)

/-- A spill page's fault: the partition's fatal flag is set, and every slice of it ends with SPILL_PAGE (R334). -/
def State.spillFatal (s : State) (part sg : Nat) : State :=
  let s1 : State := (s.updPart part fun p => { p with fatal := true }).updContQ sg fun q => { q with stalled := false, posted := false }
  (s1.slices.filter fun x => x.part == part && x.st != .ended).foldl (fun s x => s.sliceDies x.uid 0x46 0) s1

/-- A stalled spill ring: a fresh walk of the next slot's page ends the stall, or the page is requested; a page that the walk, its
permissions or its home refuse is fatal (R334, R335; DESIGN CHOICE, log entry 44). -/
def State.spillLook (s : State) (p : Part) (sg : Nat) : State :=
  let q := s.contQ sg
  match s.walk p q.tailVa with
  | .leaf w1 sz =>
    let pa := walkedPa w1 sz q.tailVa
    if (pageFault w1 false needStore).isSome then s.spillFatal p.num sg
    else
    match s.dispCause p pa 64 1 with
    | some c => (s.dispLog p pa 1 c 0).spillFatal p.num sg
    | none => (s.updContQ sg fun q => { q with stalled := false, posted := false }).urgent (.spillOverflowMove sg)
  | .malformed => (s.walkEvent p q.tailVa).spillFatal p.num sg
  | .fault k =>
    if k != 0 then s.spillFatal p.num sg
    else
      let (ok, s) := s.postPage p.num (q.tailVa / 2 ^ 16) 1 0 (sg * 64) true
      s.updContQ sg fun q => { q with posted := ok }
  | _ =>
    let (ok, s) := s.postPage p.num (q.tailVa / 2 ^ 16) 1 0 (sg * 64) true
    s.updContQ sg fun q => { q with posted := ok }

/-- The overflow engine: records move from the spill ring's head into the queue as room appears; records that arrived while
neither could take them follow in their order; a page that is not mapped stalls the ring (R332 to R334). -/
def execSpillOverflowMove (s : State) : Host.Outcome State Fault Refusal :=
  .next (match s.evt with
    | .spillOverflowMove sg =>
      match s.partOf (sg * 64) with
      | none => s
      | some p =>
        let q := s.contQ sg
        match (if q.recs.length < 64 then q.spill else []) with
        | r :: _ =>
          ((s.updContQ sg fun q => { q with
            recs := q.recs ++ [r], spill := q.spill.drop 1, head := (q.head + 1) % 2 ^ (q.cqsn.toNat % 32) }).urgent
              (.continuationHeadPlace sg)).urgent (.spillOverflowMove sg)
        | [] =>
          -- an arrival holds back the later ones of its die (R333)
          let accept (r : ContRec) : State :=
            let rest := p.arrivals.erase r
            let s1 : State := (s.updPart p.num fun p => { p with arrivals := rest }).enqueue p sg r
            let s2 : State := if q.stalled && !q.posted then s1.urgent (.spillOverflowMove sg) else s1
            match rest.find? fun r => r.sg / 5 == sg / 5 with
            | some n => s2.urgent (.spillOverflowMove n.sg)
            | none => s2
          let look : State := if q.stalled && !q.posted then s.spillLook p sg else s
          match p.arrivals.find? fun r => r.sg / 5 == sg / 5 with
          | none => look
          | some r =>
            if r.sg != sg then look.urgent (.spillOverflowMove r.sg)
            else if q.takes then accept r
            else if q.stalled then look
            else if q.cqsn == 0#64 then s
            else if (s.spillWrite p q r).isSome then accept r
            else s.spillStall sg
    | _ => s)

end Sys2Proof.Machine
end

