-- ==== Sys2Proof/Machine/Control.lean ====
section
/-! DEFINITION. Control flow (R130 to R132, R146), families (R135 to R140), YIELD and TRAVEL (R141 to R143), and barriers
(R144, R145). -/

namespace Sys2Proof.Machine

/-! Branches (R130, R132). -/

/-- The target of a forward branch: PC + 8 + off·8. -/
def State.target (s : State) (off : BitVec 14) : W64 := s.me.pc + 8#64 + (off.zeroExtend 64 <<< 3)

/-- A conditional branch on a register's value. -/
def bcOp (h : Hdr) (ra : SReg) (off : BitVec 14) (p : Int → Bool) (s : State) : Except State State := do
  gateC { Uses.none with sr := [ra] } s
  return commit s h .drops (loneW h) (if p (s.regVal ra).toInt then s.target off else s.me.pc + 8#64)

/-- A conditional branch on a register's presence; a register without a presence bit counts as present, with W (R62). -/
def bcPresOp (h : Hdr) (ra : SReg) (off : BitVec 14) (full : Bool) (s : State) : Except State State := do
  if s.me.outside ra then raise s 2 0x04 0
  else
    gateC Uses.none s
    let pres := match s.me.cell ra with
      | some c => c.pres && !c.pend
      | none => true
    return commit s h .drops (loneW h || (s.me.cell ra).isNone)
      (if pres == full then s.target off else s.me.pc + 8#64)

/-- BR (R130). -/
def execBr (h : Hdr) (off : BitVec 14) (s : State) : Host.Outcome State Fault Refusal :=
  .next (run (do
    gateC Uses.none s
    return commit s h .drops (loneW h) (s.target off)))

/-- BC eqz (R130). -/
def execBcEqz (h : Hdr) (ra : SReg) (off : BitVec 14) (s : State) : Host.Outcome State Fault Refusal :=
  .next (run (bcOp h ra off (fun v => v == 0) s))

/-- BC nez (R130). -/
def execBcNez (h : Hdr) (ra : SReg) (off : BitVec 14) (s : State) : Host.Outcome State Fault Refusal :=
  .next (run (bcOp h ra off (fun v => v != 0) s))

/-- BC ltz (R130). -/
def execBcLtz (h : Hdr) (ra : SReg) (off : BitVec 14) (s : State) : Host.Outcome State Fault Refusal :=
  .next (run (bcOp h ra off (fun v => decide (v < 0)) s))

/-- BC gez (R130). -/
def execBcGez (h : Hdr) (ra : SReg) (off : BitVec 14) (s : State) : Host.Outcome State Fault Refusal :=
  .next (run (bcOp h ra off (fun v => decide (0 ≤ v)) s))

/-- BC gtz (R130). -/
def execBcGtz (h : Hdr) (ra : SReg) (off : BitVec 14) (s : State) : Host.Outcome State Fault Refusal :=
  .next (run (bcOp h ra off (fun v => decide (0 < v)) s))

/-- BC lez (R130). -/
def execBcLez (h : Hdr) (ra : SReg) (off : BitVec 14) (s : State) : Host.Outcome State Fault Refusal :=
  .next (run (bcOp h ra off (fun v => decide (v ≤ 0)) s))

/-- BC full (R130). -/
def execBcFull (h : Hdr) (ra : SReg) (off : BitVec 14) (s : State) : Host.Outcome State Fault Refusal :=
  .next (run (bcPresOp h ra off true s))

/-- BC empty (R130). -/
def execBcEmpty (h : Hdr) (ra : SReg) (off : BitVec 14) (s : State) : Host.Outcome State Fault Refusal :=
  .next (run (bcPresOp h ra off false s))

/-- BRX (R132): forward only. -/
def execBrx (h : Hdr) (ra : SReg) (s : State) : Host.Outcome State Fault Refusal :=
  .next (run (do
    gateC { Uses.none with sr := [ra] } s
    let t := s.regVal ra
    if t.extractLsb' 0 3 != 0#3 then raise s 6 0x08 0
    else if t.toNat ≤ s.me.pc.toNat then raise s 6 0x09 0
    else return commit s h .drops (loneW h) t))

/-! Calls (R19, R131). -/

/-- Pushes a return address; the oldest of eight is spilled to the call frame, in a dword store of access code 1 (R19).  A cause that
the store meets at its home comes with the error response, for the next bundle: the push then stands (DESIGN CHOICE, log entry 67). -/
def push (s : State) (a : W64) : Except State State :=
  let t := s.me
  if t.rstack.length < 8 then .ok (s.updMe fun t => { t with rstack := a :: t.rstack })
  else if t.csr.cfp.toNat < t.csr.cfl.toNat + 8 then raise s 6 0x0C 0
  else do
    memGate s
    let va := t.csr.cfp - 8#64
    let (x, s1) ← access s va 8 8 needStore false
    let s2 ← postStore s1 x 8 (t.rstack.getLastD 0#64) false false false
    return s2.updMe fun t => { t with
      rstack := a :: t.rstack.dropLast, depth := t.depth + 1, csr := { t.csr with cfp := va } }

/-- A call to a target (R131). -/
def callOp (s : State) (h : Hdr) (target : W64) (w : Bool) : Except State State :=
  if target.extractLsb' 0 3 != 0#3 then raise s 6 0x08 0
  else do
    let s1 ← push s (s.me.pc + 8#64)
    return commit s1 h .drops w target

/-- CALL (R131): forward by off bundles, or by a lone K in any direction. -/
def execCall (h : Hdr) (off : BitVec 14) (s : State) : Host.Outcome State Fault Refusal :=
  .next (run (do
    gateC Uses.none s
    let target := match h.lit with
      | some k => s.me.pc + 8#64 + (k.signExtend 64 <<< 3)
      | none => s.target off
    callOp s h target false))

/-- CALLX (R131). -/
def execCallx (h : Hdr) (ra : SReg) (s : State) : Host.Outcome State Fault Refusal :=
  .next (run (do
    gateC { Uses.none with sr := [ra] } s
    callOp s h (s.regVal ra) (loneW h)))

/-- The jump of a RET to an entry, with what it does to the stack. -/
def retTo (s : State) (h : Hdr) (a : W64) (pop : Thread → Thread) : Except State State :=
  if a.extractLsb' 0 3 != 0#3 then raise s 6 0x08 0
  else .ok ((commit s h .drops (loneW h) a).updMe pop)

/-- RET (R131): the newest entry, or the refill from cfp, for which the thread is held (R19). -/
def execRet (h : Hdr) (s : State) : Host.Outcome State Fault Refusal :=
  .next (run (do
    gateC Uses.none s
    let t := s.me
    match t.rstack with
    | a :: _ => retTo s h a fun t => { t with rstack := t.rstack.drop 1 }
    | [] =>
      if t.depth = 0 then raise s 6 0x0B 0
      else
        match s.doneVal with
        | some v => retTo s h v fun t =>
            { t with depth := t.depth - 1, csr := { t.csr with cfp := t.csr.cfp + 8#64 } }
        | none => do
          memGate s
          let (x, s1) ← access s t.csr.cfp 8 8 needLoad false
          let lvl := s1.myLevel x.va
          if s1.ownAtomic x 8 || (s1.awayAt x.pa).isSome || !s1.slotFor x lvl 8 then notReady s
          else
          match s1.meets x lvl true 8 0 with
          | some c => failLater s1 x 8 0 c
          | none =>
            let (bs, s2) := s1.readHere x lvl 8
            holdFor s2 (BitVec.ofNat 64 (leVal bs)) (s1.readLat s.cur.cid x lvl 8)))

/-- TRAP (R146): software cause 0xA0 + imm5. -/
def execTrap (_h : Hdr) (imm : BitVec 5) (s : State) : Host.Outcome State Fault Refusal :=
  .next (run (do
    gateC Uses.none s
    raise s 6 (0xA0 + imm.toNat) 0))

/-! Delivery points of asynchronous faults and import flags (R20, R220, R241). -/

/-- Delivers the oldest held fault before the bundle's own checks, from the cycle after it is held on (R295); otherwise
ORs in the flags of completed imports. -/
def deliver (s : State) : Except State State :=
  match s.me.held with
  | f :: _ =>
    if f.at_ < s.now then raise (s.updMe fun t => { t with held := t.held.drop 1 }) 1 f.fail.cause f.fail.addr
    else notReady s
  | [] => .ok (s.updMe fun t => { t.orFst t.impFlags with impFlags := fNone })

/-! SYNC and its kin (R135, R136, R139, R140). -/

/-- The family that an id names, with the checks of SYNC, KILL and FSTAT; read: FSTAT, which a detached family's or a root
family's own members may also apply to their fd (R136, R137, R140). -/
def famOf (s : State) (id : W64) (read : Bool) : Except State Family :=
  let t := s.me
  match s.fams.find? fun f => f.id == id && !f.synced && f.id != 0#64 with
  | none => raise s 6 0x44 0
  | some f =>
    if read && (f.det || f.kind == .root) && t.fam == some f.uid then .ok f
    else if id.getLsbD 63 then (if t.lastInline = some f.uid then .ok f else raise s 6 0x44 0)
    else if f.det then raise s 6 0x43 0
    else if f.parentUid = t.uid && f.kind != .root then .ok f
    else if f.rev.isSome then raise s 6 0x85 0 else raise s 6 0x44 0

/-- In the walker slot these instructions raise ILLOP_C (R128). -/
def notWalker (s : State) : Except State Unit := if s.cur.slot = 16 then raise s 2 0x00 0 else .ok ()

/-- A family has been synced by the issuing thread: it leaves its entry, and its flags are ORed into fst where its driver
has not done so (R36 rule 8, R120, R136). -/
def State.finish (s : State) (f : Family) : State :=
  let s1 : State := if f.kind = .alloc then s.updMe fun t => t.orFst f.flags else s
  ((s1.freeEnts f.uid).updFam f.uid fun f => { f with synced := true }).updMe fun t =>
    { t with kids := t.kids.filter (· != f.uid) }

/-- The join of a family is an acquire at quad scope or wider: it ran on other cores (R125), or it or a family within it is a REV
family (R279). -/
def State.joinAcquires (s : State) (f : Family) : Bool :=
  f.spread || s.fams.any fun x => x.rev.isSome && (s.famsWithin fun y => y.uid == f.uid).contains x.uid

/-- SYNC (R136). -/
def execSync (h : Hdr) (rd ra : SReg) (s : State) : Host.Outcome State Fault Refusal :=
  .next (run (do
    notWalker s
    gateC { Uses.none with sr := [ra], sw := [rd] } s
    match s.doneVal with
    | some u =>
      match s.fam u.toNat with
      | none => return commitNext s h .drops (loneW h)
      | some f =>
        let s1 : State := commitNext s h .drops (loneW h)
        let s2 : State := if f.kind = .alloc then
            (f.finals.zipIdx).foldl (fun s x => s.writeS s.meWho (BitVec.ofNat 4 (f.desc.hsrc + x.2)) x.1) s1
          else s1
        let s3 : State := (s2.finish f).writeMine rd f.statusWord
        return (if s.joinAcquires f then s3.acquire s3.meWho else s3)
    | none =>
      let f ← famOf s (s.regVal ra) false
      let s1 : State := if f.st.over then s.syncReady f s.meWho else s
      holdOn s1 f.uid))

/-- A family's notice reaches its creator, 4 cycles after its last END: it is done (R25).  A SYNC that waits for it, with
nothing left to merge, commits (R136). -/
def execSyncComplete (s : State) : Host.Outcome State Fault Refusal :=
  .next (match s.evt with
    | .syncComplete cid slot u =>
      match s.fam u with
      | none => s
      | some f =>
        -- the notice itself is still on its way
        if (s.noticeDue f).isSome then s
        else
          let s1 : State := if f.st = .ending then s.updFam u fun f => { f with st := .done } else s
          if f.st.over && (s.joinList f).isEmpty then s1.updThread cid slot fun t => t.wake u (.done (BitVec.ofNat 64 u)) else s1
    | _ => s)

/-- The hsrc registers of a family whose finals are discarded hold nothing and wait for nothing more (R135; DESIGN CHOICE, log
entry 46). -/
def State.discardFinals (s : State) (f : Family) : State :=
  if f.kind = .alloc then (List.range f.desc.s).foldl (fun s j => s.updMe fun t =>
    let n := BitVec.ofNat 4 (f.desc.hsrc + j)
    t.setS n { t.regs.s.get n.toFin with pend := false }) s
  else s

/-- Syncs the thread's own unsynced families in creation order, discarding what they return (R135); not ready until all
are. -/
def syncKids : Nat → State → Except State State
  | 0, s => .ok s
  | n + 1, s =>
    match s.me.kids with
    | [] => .ok s
    | u :: _ =>
      match s.fam u with
      | none => syncKids n (s.updMe fun t => { t with kids := t.kids.drop 1 })
      | some f =>
        if !f.st.over then notReady s
        else
          match s.joinList f with
          | [] =>
            let s1 : State := (s.finish f).discardFinals f
            syncKids n (if s.joinAcquires f then s1.acquire s.meWho else s1)
          | l => notReady (s.queueJoins f.part l s.meWho)

/-- BREAK (R123, R137).  Code that is a member of no family has none to break: BADFID (DESIGN CHOICE, log entry 45). -/
def execBreakFam (h : Hdr) (ra : SReg) (s : State) : Host.Outcome State Fault Refusal :=
  .next (run (do
    notWalker s
    gateC { Uses.none with sr := [ra] } s
    match s.me.fam.bind s.fam with
    | none => raise s 6 0x44 0
    | some f =>
      let b := s.me.member
      let s1 : State := commitNext s h .drops (loneW h)
      let wins := match f.brk with
        | some (k, _) => decide (b < k)
        | none => true
      return (if wins then (s1.updFam f.uid fun f => { f with brk := some (b, s.regVal ra) }).killAbove f.uid b else s1)))

/-- KILL (R124, R139). -/
def execKill (h : Hdr) (ra : SReg) (s : State) : Host.Outcome State Fault Refusal :=
  .next (run (do
    notWalker s
    gateC { Uses.none with sr := [ra] } s
    let f ← famOf s (s.regVal ra) false
    return (commitNext s h .drops (loneW h)).killFamily f.uid s.cur.cid))

/-- FSTAT: a value of a family, after one round trip to the core that holds its entry (R140). -/
def fstatOp (h : Hdr) (rd ra : SReg) (g : Family → W64) (s : State) : Except State State := do
  notWalker s
  gateC { Uses.none with sr := [ra], sw := [rd] } s
  let f ← famOf s (s.regVal ra) true
  return (commitNext s h .drops (loneW h)).valueLater rd (g f)
    (if f.cid = s.cur.cid then 2 else handoff s.cur.cid f.cid)

/-- FSTAT status (R122, R140). -/
def execFstatStatus (h : Hdr) (rd ra : SReg) (s : State) : Host.Outcome State Fault Refusal :=
  .next (run (fstatOp h rd ra Family.statusWord s))

/-- FSTAT break value (R140). -/
def execFstatBval (h : Hdr) (rd ra : SReg) (s : State) : Host.Outcome State Fault Refusal :=
  .next (run (fstatOp h rd ra (fun f => (f.winner.map (·.2)).getD 0#64) s))

/-- FSTAT breaker index (R140). -/
def execFstatBidx (h : Hdr) (rd ra : SReg) (s : State) : Host.Outcome State Fault Refusal :=
  .next (run (fstatOp h rd ra (fun f => (f.winner.map fun b => f.desc.index b.1).getD 0#64) s))

/-- FSTAT replay count (R140). -/
def execFstatReplay (h : Hdr) (rd ra : SReg) (s : State) : Host.Outcome State Fault Refusal :=
  .next (run (fstatOp h rd ra (fun f => BitVec.ofNat 64 f.replay) s))

/-! END (R138). -/

/-- The release of a bundle finds an uncorrectable error in a dirty line of its core (R169, R300; DESIGN CHOICE, log entry 62). -/
def spoiltGate (s : State) : Except State Unit :=
  match s.spoiltLine s.cur.cid fun _ => true with
  | some a => raise (s.releaseLines s.cur.cid) 6 0x31 a
  | none => .ok ()

/-- A cause that only END is left to raise: a failed destination never read, or a store error (R169). -/
def Thread.leftover (t : Thread) : Option Fail :=
  (t.errs ++ t.lost ++ t.regs.s.toList.filterMap (·.fail) ++ t.regs.v.toList.filterMap (·.fail)).head?

/-- The registers that hold no result of the thread but wait for the SYNC of its families: their hsrc registers (R36 rule 1). -/
def State.kidRegs (s : State) (t : Thread) : List Nat :=
  (t.kids.filterMap s.fam).flatMap fun f => if f.kind = .alloc then (List.range f.desc.s).map (f.desc.hsrc + ·) else []

/-- A result of the issuing thread is pending (R14). -/
def State.pendingMe (s : State) : Bool :=
  let kept := s.kidRegs s.me
  (s.me.regs.s.toList.zipIdx.any fun c => c.1.pend && !kept.contains c.2) || s.me.regs.v.toList.any (·.pend)

/-- An unwritten shared has an absent dependent (R36 rule 3). -/
def Thread.owes (t : Thread) : Bool :=
  (List.range t.sh).any fun j => !t.sent.getLsbD j && !(t.flights.any fun f => f.dst == .s (BitVec.ofNat 4 (t.g + j))) &&
    !(t.regs.d.get (BitVec.ofNat 3 j).toFin).pres

/-- Sends copies of the shareds that the thread has not written (R36 rule 3). -/
def State.sendCopies (s : State) : State :=
  let t := s.me
  match t.fam with
  | none => s
  | some f => (List.range t.sh).foldl (fun s j =>
      if t.sent.getLsbD j then s else s.sendShared f t.member j (t.regs.d.get (BitVec.ofNat 3 j).toFin).val s.meWho s.now) s

/-- finj disarms when its target's thread ends (R249). -/
def Core.disarm (c : Core) (slot : Nat) : Core :=
  if c.finj.getLsbD 0 && (c.finj.extractLsb' 8 5).toNat == slot then { c with finj := c.finj &&& ~~~1#64 } else c

/-- The thread leaves its slot: the next member of its share, or of its inline run, follows (R118, R120, R138). -/
def State.leave (s : State) : State :=
  let t := s.me
  let cid := s.cur.cid
  let slot := s.cur.slot
  let s1 : State := s.updMyCore fun c => c.disarm slot
  match t.fam with
  | none => (s1.setThread cid slot none).freed cid
  | some u =>
    if t.inl then
      let (n, s2) := s1.fresh
      let s2 : State := s2.setThread cid slot (some (Thread.driver n u t))
      let more := match (s2.core cid).runOf slot, s2.fam u with
        | some r, some f => f.brk.isNone && decide (r.next < f.n)
        | _, _ => false
      if more then s2.after cid 2 (.inlineMemberEntry cid slot) else s2.after cid 8 (.inlineRestore cid slot)
    else (s1.setThread cid slot none).memberEnded u t.member cid slot

/-- END (R138). -/
def execEndThread (h : Hdr) (s : State) : Host.Outcome State Fault Refusal :=
  .next (run (do
    notWalker s
    let s ← deliver s
    gateC Uses.none s
    match s.me.leftover with
    | some f => raise s 6 f.cause f.addr
    | none =>
      let wide := (s.me.fam.bind s.fam).any Family.spread
      if s.pendingMe || s.me.owes || !s.acked || (wide && s.storesOut s.cur.cid) then notReady s
      else
        let s1 ← syncKids (s.me.kids.length + 1) s
        if wide then spoiltGate s1
        let s2 : State := ((commitNext s1 h .drops (loneW h)).settle).sendCopies
        let fl : Flags := s2.me.csr.fst.setWidth 8
        let s3 : State := match s2.me.fam with
          | some u => s2.updFam u fun f => { f with flags := f.flags ||| fl }
          | none => s2
        return (if wide then s3.releaseLines s.cur.cid else s3).leave))

/-! YIELD (R141). -/

/-- YIELD (R141): the slice ends once its other families have, and the record at ra is submitted. -/
def execYieldSlice (h : Hdr) (ra : SReg) (s : State) : Host.Outcome State Fault Refusal :=
  .next (run (do
    notWalker s
    gateC { Uses.none with sr := [ra] } s
    match s.me.fam.bind s.fam, s.me.slice.bind s.slice with
    | some f, some sl =>
      if f.kind != .root then raise s 6 0x44 0
      else if (s.regVal ra).toNat % 64 != 0 then raise s 6 0x28 (s.regVal ra).toNat
      else if s.pendingMe || !s.acked then notReady s
      else
        let s0 : State := s.updSlice sl.uid fun x => { x with yielding := some s.me.uid }
        let s1 ← syncKids (s0.me.kids.length + 1) s0
        if s1.fams.any fun g => g.slice == some sl.uid && g.uid != f.uid && (!g.st.over || g.ctr.isSome) then notReady s1
        else
          let (bs, s2) ← readNow s1 (s.regVal ra) 64 64
          let ws := (List.range 8).map fun i => BitVec.ofNat 64 (leVal ((bs.drop (8 * i)).take 8))
          let s3 : State := (commitNext s2 h .drops (loneW h)).settle
          let s4 : State := s3.updMyCore fun c => c.disarm s.cur.slot
          return (s4.killSlice sl.uid 2 0).submit sl.part sl.ring sl.index ws
    | _, _ => raise s 6 0x44 0))

/-! TRAVEL (R142, R143). -/

/-- The conditions of R142 on the thread and the address.  Code that is a member of no family, the steward's, has no family to report
its END to, and may not travel (DESIGN CHOICE, log entry 66). -/
def State.mayTravel (s : State) (va : Nat) : Bool :=
  let t := s.me
  t.fam.isSome && t.sh == 0 && t.vn == 0 && !t.inl && t.depth == 0 && (s.myLevel va).isNone

/-- The device and die of an access's home. -/
def State.homeDie (s : State) (pa : Nat) : Nat × Nat :=
  match s.loc pa with
  | .dram d => (s.dev.devid, d)
  | .scratch c _ => (s.dev.devid, dieOf c)
  | .remote d => (d, (pa % 2 ^ 48) / Config.dieBytes)
  | .bad => (s.dev.devid, dieOf s.cur.cid)

/-- Whether an access's home is the current die of the current device. -/
def State.atHome (s : State) (pa : Nat) : Bool := s.homeDie pa == (s.dev.devid, dieOf s.cur.cid)

/-- Whether the partition could place a traveller at that home: a supergroup of its own on the die, or another device (DESIGN CHOICE, log
entry 15). -/
def State.canLand (s : State) (pa : Nat) : Bool :=
  let (dev, die) := s.homeDie pa
  dev != s.dev.devid || ((s.partOf s.cur.cid).bind (s.leastLoaded · die)).isSome

/-- The travel of the issuing thread, to resume at next: its families synced, its results arrived, its accesses performed,
it is packed and leaves its slot (R142, R276, R360).  acc is the access code of what makes it travel. -/
def depart (s : State) (x : Xl) (acc : Nat) (next : W64) : Except State State :=
  let (dev, die) := s.homeDie x.pa
  let pn := s.partNum s.cur.cid
  let away := dev != s.dev.devid
  if away && !((s.part pn).pods.any fun p => p.1 == dev) then raise s 6 (memCause 3 acc) x.va
  else
    match (if away then s.routeCause dev acc else none) with
    | some c => raise s 6 c (memAddr c x.va)
    | none =>
      if s.pendingMe || !s.acked || s.storesOut s.cur.cid then notReady s
      else do
        let s1 ← syncKids (s.me.kids.length + 1) s
        spoiltGate s1
        let s2 : State := s1.settle.releaseLines s.cur.cid
        let s2 : State := if away then s2.markSide pn (s2.inRev s2.me) none else s2
        let (tok, s3) := s2.fresh
        let t := { s3.me with pc := next, hold := .none, stall := none }
        let dest := if away then (((s.part pn).pods.find? fun p => p.1 == dev).map (·.2)).getD 0 else pn
        let s4 : State := { s3 with travs := s3.travs ++
          [{ tok := tok, pa := x.pa, thread := t, part := dest, die := die, dev := dev
             port := if away then s3.portOf dev x.pa else none }] }
        let s5 : State := (s4.sentMsgs s.cur.cid 1).setThread s.cur.cid s.cur.slot none
        let s6 : State := match t.fam with
          | none => s5
          | some u =>
            match (s5.fam u).bind fun f => f.shares.find? fun y => y.cid == s.cur.cid && y.live.contains t.member with
            -- a slot that serves no further member is free
            | some sh =>
              let s5 : State := s5.passSlot u s.cur.cid s.cur.slot sh t.member
              let s5 : State := if sh.left = 0 then
                  s5.updFam u fun f => f.updShare s.cur.cid t.member fun y => { y with slots := y.slots.filter (· != s.cur.slot) }
                else s5
              s5.vacate u s.cur.cid
            | none => s5
        return (s6.freed s.cur.cid).after s.cur.cid (if away then Config.remoteLatency else 110) (.travellerArrival tok)

/-- An access to a TRAV page homed elsewhere makes a thread that may travel do so first: the access is performed at the
home after the arrival (R143, R276).  acc is its access code. -/
def travFirst (s : State) (x : Xl) (acc : Nat) : Except State Unit :=
  if wTrav x.w1 && !s.atHome x.pa && s.mayTravel x.va && s.canLand x.pa then
    match depart s x acc s.me.pc with
    | .ok s' => .error { s' with cur := { s'.cur with res := .held } }
    | .error e => .error e
  else .ok ()

/-- TRAVEL (R142). -/
def execTravel (h : Hdr) (ra : SReg) (s : State) : Host.Outcome State Fault Refusal :=
  .next (run (do
    notWalker s
    gateC { Uses.none with sr := [ra] } s
    let (x, s1) ← access s (s.regVal ra) 1 1 needLoad true
    if !s1.mayTravel x.va then raise s 6 0x3C x.va
    else if s1.atHome x.pa || !s1.canLand x.pa then return commitNext s1 h .drops (loneW h)
    else
      -- the A-slot's result and the bundle's flags leave with the thread
      match depart (commitNext s1 h .drops (loneW h)) x 0 (s.me.pc + 8#64) with
      | .ok s' => .ok s'
      | .error _ => depart s1 x 0 (s.me.pc + 8#64)))

/-! Barriers (R144, R145). -/

/-- The unit of a scope's barrier for a core: itself, its quad, its partition's part of the die, or its partition. -/
def State.barUnit (s : State) (sc : Scope) (cid : Nat) : Nat :=
  match sc with
  | .core => cid
  | .quad => quadOf cid
  | .die => s.partNum cid * 4 + dieOf cid
  | .pkg => s.partNum cid
  | .pod => s.partNum cid

/-- The number of a barrier instance. -/
def Barrier.key (b : Barrier) : Nat := (b.unit * 8 + b.id) * 8 + b.sc

def State.bar (s : State) (sc : Scope) (unit id : Nat) : Barrier :=
  (s.bars.find? fun b => b.sc == sc.code && b.unit == unit && b.id == id).getD
    { sc := sc.code, unit := unit, id := id, count := 0, arrived := 0, waiters := [], phase := 0, closed := [] }

def State.setBar (s : State) (b : Barrier) : State :=
  { s with bars := (s.bars.filter fun x => x.key != b.key) ++ [b] }

/-- BARCFG (R144, R145). -/
def execBarcfg (h : Hdr) (ra : SReg) (sc : Scope) (id : BitVec 3) (s : State) : Host.Outcome State Fault Refusal :=
  .next (run (do
    notWalker s
    gateC { Uses.none with sr := [ra] } s
    let v := s.regVal ra
    let b := s.bar sc (s.barUnit sc s.cur.cid) id.toNat
    if v.extractLsb' 32 32 != 0#32 || b.arrived != 0 then raise s 6 0x86 0
    else return (commitNext s h .drops (loneW h)).setBar { b with count := v.toNat }))

/-- BAR (R145): an arrival, then a wait; the arrival is a release and the departure an acquire at the scope. -/
def execBar (h : Hdr) (sc : Scope) (id : BitVec 3) (s : State) : Host.Outcome State Fault Refusal :=
  .next (run (do
    notWalker s
    gateC Uses.none s
    match s.doneVal with
    | some _ =>
      let s1 : State := commitNext s h .drops (loneW h)
      return (if sc = .core then s1 else s1.acquire s1.meWho)
    | none =>
      let b := s.bar sc (s.barUnit sc s.cur.cid) id.toNat
      if b.count = 0 then raise s 6 0x86 0
      -- the arrival releases the thread's earlier accesses, at quad scope or wider its core's stores, at pod scope what other
      -- devices have still to acknowledge (R267, R268, R275)
      else if s.unperformed s.meWho (sc != .core) s.ctr || (sc == .pod && s.unacknowledged s.meWho s.ctr) then notReady s
      else
        if sc != .core then spoiltGate s
        let (tok, s1) := s.fresh
        let s2 : State := if sc = .core then s1 else
          (s1.releaseLines s.cur.cid).markSide (s1.partNum s.cur.cid) (s1.inRev s1.me) none
        holdOn (s2.urgent (.barrierArrival s.cur.cid s.cur.slot s.me.uid sc id)) tok))

/-- Cycles from a phase's last arrival to its release (R145, R361). -/
def State.barDelay (s : State) (sc : Scope) : Nat :=
  match sc with
  | .core => 2
  | .quad => 8
  | .die => 40
  | .pkg => 120
  | .pod => Config.remoteLatency * ((s.dev.routes.map (·.hops)).foldl max 0)

/-- An arrival is counted; the COUNT-th closes the phase (R145). -/
def execBarrierArrival (s : State) : Host.Outcome State Fault Refusal :=
  .next (match s.evt with
    | .barrierArrival cid slot uid sc id =>
      let b := s.bar sc (s.barUnit sc cid) id.toNat
      let ws := b.waiters ++ [{ cid := cid, slot := slot, uid := uid }]
      let s : State := if sc = .core then s else s.sentMsgs cid 1
      if b.arrived + 1 < b.count then s.setBar { b with arrived := b.arrived + 1, waiters := ws }
      else
        (s.setBar { b with arrived := 0, waiters := [], phase := b.phase + 1, closed := b.closed ++ [(b.phase, ws)] }).after
          cid (s.barDelay sc) (.barrierRelease b.key b.phase)
    | _ => s)

/-- The release of a closed phase reaches its waiters (R145). -/
def execBarrierRelease (s : State) : Host.Outcome State Fault Refusal :=
  .next (match s.evt with
    | .barrierRelease key phase =>
      match s.bars.find? fun b => b.key == key with
      | none => s
      | some b =>
        let ws := ((b.closed.find? fun c => c.1 == phase).map (·.2)).getD []
        let s1 : State := s.setBar { b with closed := b.closed.filter fun c => c.1 != phase }
        ws.foldl (fun s w => (if b.sc = Scope.core.code then s else s.gotMsgs w.cid 1).updWho w fun t =>
          match t.hold with
          | .busy _ => { t with hold := .done 0#64 }
          | _ => t) s1
    | _ => s)

end Sys2Proof.Machine
end

