-- ==== Sys2Proof/Machine/Array.lean ====
section
/-! DEFINITION. The arithmetic of the matrix array: classes and shapes (R221), rows of tagged blocks (R222), accumulation
(R82 to R89), matching (R228, R341), carries in time (R338) and drain conversions (R87, R90, R91). -/

namespace Sys2Proof.Machine

/-! Classes and shapes (R221). -/

/-- The class of a FMT; none for an ill-formed one. -/
def fmtCls (fmt : Nat) : Option Cls :=
  if fmt = 1 || fmt = 2 || fmt = 4 || fmt = 5 then some .b8
  else if fmt = 3 then some .ds8
  else if fmt = 6 || fmt = 7 then some .b6
  else if fmt = 8 || fmt = 9 then some .b4
  else if fmt = 10 then some .bf16
  else if fmt = 11 then some .f16 else none

/-- bf16 and f16 are one class. -/
def Cls.same (a b : Cls) : Bool := a == b || ((a == .bf16 || a == .f16) && (b == .bf16 || b == .f16))

/-- How many cycles the streamed rows take: r, half of r, or twice r. -/
inductive Rate where
  | one
  | half
  | twice
  deriving DecidableEq, Repr

/-- A pass shape: MACs per cell-cycle, Kp and the rate of rows. -/
structure Shape where
  macs : Nat
  kp : Nat
  rate : Rate
  deriving DecidableEq, Repr

/-- The row of the table for a plane's class and an activation class. -/
def shapeOf (w a : Cls) : Option Shape :=
  match w, a with
  | .b8, .b8 | .b8, .b6 => some { macs := 4, kp := 128, rate := .one }
  | .b8, .ds8 | .ds8, .b8 | .ds8, .ds8 => some { macs := 8, kp := 128, rate := .half }
  | .ds8, .b6 => some { macs := 4, kp := 128, rate := .one }
  | .ds8, .bf16 => some { macs := 2, kp := 128, rate := .twice }
  | .b6, .b6 | .b6, .b8 | .b6, .ds8 => some { macs := 4, kp := 128, rate := .one }
  | .b4, .b4 => some { macs := 8, kp := 256, rate := .one }
  | .bf16, .bf16 | .bf16, .f16 | .f16, .bf16 | .f16, .f16 | .bf16, .ds8 => some { macs := 2, kp := 64, rate := .one }
  | _, _ => none

/-- The activation class of the first row of the table for a plane's class. -/
def firstAct (w : Cls) : Cls :=
  match w with
  | .ds8 => .b8
  | c => c

/-- Kp of a plane's class. -/
def clsKp : Cls → Nat
  | .b4 => 256
  | .bf16 => 64
  | .f16 => 64
  | _ => 128

/-- Cycles that r streamed rows take. -/
def Rate.cycles (x : Rate) (r : Nat) : Nat :=
  match x with
  | .one => r
  | .half => (r + 1) / 2
  | .twice => 2 * r

/-- The position of a streamed row (R338). -/
def Rate.pos (x : Rate) (m : Nat) : Nat :=
  match x with
  | .one => m
  | .half => m / 2
  | .twice => 2 * m + 1

/-- The rows of a step of the matching unit (R341). -/
def Rate.stepRows (x : Rate) : Nat :=
  match x with
  | .one => 2
  | .half => 4
  | .twice => 1

/-! Rows of blocks (R78, R222). -/

/-- What stands where a block would lie beyond its region: a data-class error with no scale of its own. -/
def noElem : Elem := { ok := false, fmt := 0, code := 0, scale := 1024 }

/-- k elements of a row from its blocks; the elements of a block that accept refuses are data-class errors. -/
def rowElems (accept : Nat → Bool) (k : Nat) (blocks : List (List Byte)) : List Elem :=
  let es := blocks.foldl (fun (acc : List Elem) b =>
    if k ≤ acc.length then acc
    else acc ++ (blkElems b false).map fun e => if accept e.fmt then e else { e with ok := false }) []
  es.take k ++ List.replicate (k - es.length) noElem

/-- The class, Kp and columns of a weight block (R221, R223). -/
def planeOf (regions : List (List (List Byte))) : Plane :=
  let cls := ((regions.head?.bind (·.head?)).bind fun b => fmtCls (blkFmt b)).getD .b8
  { cls := cls, kp := clsKp cls,
    cols := regions.map (rowElems (fun f => (fmtCls f).any cls.same) (clsKp cls)) }

/-! Accumulation. -/

/-- Whether an element is an exact zero, as the matching unit marks it (R228). -/
def Elem.zero (e : Elem) : Bool :=
  e.ok && (match e.raw with
    | .fin _ m _ => m == 0
    | _ => false)

/-- Lists of n elements of a list, in order. -/
def chunks (n : Nat) : Nat → List (Elem × Elem) → List (List (Elem × Elem))
  | 0, _ => []
  | k + 1, xs => if xs.isEmpty then [] else xs.take n :: chunks n k (xs.drop n)

/-- The groups of pairs that one cell sums in one cycle: macs consecutive K (R82), or for a sparse pass the effectual pairs
of each 2·macs consecutive K, packed in ascending K (R228). -/
def cellGroups (sparse : Bool) (macs : Nat) (ps : List (Elem × Elem)) : List (List (Elem × Elem)) :=
  if sparse then
    (chunks (2 * macs) ps.length ps).flatMap fun g =>
      chunks macs g.length (g.filter fun p => !p.1.zero && !p.2.zero)
  else chunks macs ps.length ps

/-- What a cell's accumulation leaves: its value, flags and poison, and the signs of its carries. -/
structure CellRes where
  v : Int
  fl : Flags
  pois : Bool
  ups : List Bool

/-- A product in an int-mode tile: data-class errors and floating operands contribute 0, with NV and poison (R80, R226). -/
def intProduct (p : Elem × Elem) : Option Int :=
  if p.1.ok && p.2.ok && (fmtFF p.1.fmt).isNone && (fmtFF p.2.fmt).isNone then some (p.1.int * p.2.int) else none

/-- One cycle of an int-mode cell: the residue wraps by 2^20 with a carry (R86). -/
def intStep (r : CellRes) (g : List (Elem × Elem)) : CellRes :=
  let xs := g.map intProduct
  let bad := xs.any (·.isNone)
  let v := r.v + (xs.map fun x => x.getD 0).sum
  let fl : Flags := if bad then r.fl ||| fNV else r.fl
  if 2 ^ 19 ≤ v then { v := v - 2 ^ 20, fl := fl, pois := r.pois || bad, ups := r.ups ++ [true] }
  else if v < -(2 ^ 19) then { v := v + 2 ^ 20, fl := fl, pois := r.pois || bad, ups := r.ups ++ [false] }
  else { v := v, fl := fl, pois := r.pois || bad, ups := r.ups }

/-- A product in an FP-mode tile, exact with both scales (R83); or a NaN, with the f32 codes of its NaN operands, bad telling of a
data-class error (R66, R80). -/
inductive FProd where
  | fin (v : Int) (e : Int) (neg : Bool)
  | inf (neg : Bool)
  | invalid
  | nan (bad : Bool) (codes : List Nat)

/-- The f32 code of an element that reads as a NaN: that of a NaN element, made quiet (R66, R69), and the default NaN for one with a
data-class error, as for the elements of a NaN block (R80, R93, R210). -/
def Elem.nan (e : Elem) : Option Nat :=
  if !e.ok then some (FF.defNan .f32)
  else
    match e.raw, fmtFF e.fmt with
    | .nan, some f => some ((convF f .f32 .rne e.code).1 ||| 0x400000)
    | _, _ => none

def fpProduct (p : Elem × Elem) : FProd :=
  match [p.1, p.2].filterMap Elem.nan with
  | c :: cs => .nan (!p.1.ok || !p.2.ok) (c :: cs)
  | [] =>
    match p.1.raw, p.2.raw with
    | .nan, _ => .invalid
    | _, .nan => .invalid
    | .inf a, .inf b => .inf (a != b)
    | .inf a, .fin b m _ => if m = 0 then .invalid else .inf (a != b)
    | .fin a m _, .inf b => if m = 0 then .invalid else .inf (a != b)
    | .fin a m x, .fin b n y => .fin (signed (a != b) (m * n)) (x + y + p.1.scale + p.2.scale - 1022) (a != b)

/-- Rounding into an FP-mode cell: RNE, with results below 2^−126 flushed (R84). -/
def cellRound (d : Dy) : Nat × Flags :=
  let r := FF.f32.round .rne d
  if r.1 / 2 ^ 23 % 256 = 0 && r.1 % 2 ^ 23 != 0 then (r.1 / 2 ^ 31 * 2 ^ 31, fUF ||| fNX)
  else (r.1, r.2 &&& (fOF ||| fNX))

/-- The NaN of some NaN operands: their code, where they have one (R66), else that of some quiet NaN, the same for the same operands
(R85; DESIGN CHOICE, log entry 17). -/
def nanMix (codes : List Nat) : Nat :=
  match codes.dedup with
  | [c] => c
  | _ =>
    let x := (Config.arrayNan codes).toNat
    x / 2 ^ 31 * 2 ^ 31 + 0x7FC00000 + x % 2 ^ 22

/-- One cycle of an FP-mode cell (R66, R83, R84).  An exact sum of zero is −0 only where the cell's value and every product are −0
(DESIGN CHOICE, log entry 68). -/
def fpStep (r : CellRes) (g : List (Elem × Elem)) : CellRes :=
  let xs := g.map fpProduct
  let cur := FF.f32.val r.v.toNat
  let bad := xs.any fun x => match x with
    | .nan b _ => b
    | _ => false
  let nans := xs.flatMap fun x => match x with
    | .nan _ cs => cs
    | _ => []
  let invalid := xs.any fun x => match x with
    | .invalid => true
    | _ => false
  let infs := xs.filterMap fun x => match x with
    | .inf n => some n
    | _ => none
  let fins := xs.filterMap fun x => match x with
    | .fin v e n => some (v, e, n)
    | _ => none
  let out (c : Nat) (fl : Flags) : CellRes := { v := c, fl := r.fl ||| fl, pois := r.pois || bad, ups := [] }
  if g.isEmpty then r
  else
    match cur, nans with
    | .nan, _ => out (nanMix (r.v.toNat :: nans)) fNV
    | _, _ :: _ => out (nanMix nans) fNV
    | .inf n, [] => if invalid || infs.any (· != n) then out (FF.defNan .f32) fNV else out r.v.toNat fNone
    | .fin cn cm ce, [] =>
      if invalid || (infs.contains true && infs.contains false) then out (FF.defNan .f32) fNV
      else
        match infs with
        | n :: _ => out (FF.infCode .f32 n) fNone
        | [] =>
          let sum := fins.foldl (fun a x => addDy a (x.1, x.2.1)) (signed cn cm, ce)
          if sum.1 = 0 then
            out (FF.sign .f32 (cn && cm == 0 && fins.all fun x => x.2.2 && x.1 == 0)) fNone
          else
            let q := cellRound { neg := decide (sum.1 < 0), m := sum.1.natAbs, e := sum.2, st := false }
            out q.1 q.2

/-- The accumulation of one output cell over a pass. -/
def cellRun (fp sparse : Bool) (macs : Nat) (v : Int) (a w : List Elem) : CellRes :=
  (cellGroups sparse macs (List.zip a w)).foldl (fun r g => if fp then fpStep r g else intStep r g)
    { v := v, fl := fNone, pois := false, ups := [] }

/-! Recorded scales (R89). -/

/-- The scales of a row's blocks, in order, without repeats.  SCALE 1023 marks a NaN block and is no scale (R77).  DEDUCED, log 18. -/
def scalesOf (es : List Elem) : List Nat := ((es.map (·.scale)).filter (· < 1023)).dedup

/-- The scale recorded after a row, and whether one differs from it. -/
def recordScale (old : Option Nat) (es : List Elem) : Option Nat × Bool :=
  let xs := ((es.map (·.scale)).filter (· < 1023))
  let s := match old with
    | some x => some x
    | none => xs.head?
  (s, (scalesOf es).any fun x => s != some x)

/-! The matching unit in time (R341). -/

/-- The pairs that an array row's cell of column n meets in a step, by K group: the effectual ones are counted. -/
def stepLen (shape : Shape) (rows : List (List Elem)) (cols : List (List Elem)) : Nat :=
  let m := shape.macs
  -- the K groups of one cell: one group of macs, or for two sweeps of 64 K the groups of both
  let groups : List (List Nat) := match shape.rate with
    | .twice => (List.range 32).map fun g => [g, g + 32]
    | _ => (List.range (shape.kp / m)).map fun g => [g]
  -- rows that one cell takes: for two halves of the column, alternate ones
  let halves : List (List (List Elem)) := match shape.rate with
    | .half => [rows.zipIdx.filterMap fun (x : List Elem × Nat) => if x.2 % 2 = 0 then some x.1 else none,
                rows.zipIdx.filterMap fun (x : List Elem × Nat) => if x.2 % 2 = 1 then some x.1 else none]
    | _ => [rows]
  let count (rs : List (List Elem)) (col : List Elem) (gs : List Nat) : Nat :=
    (gs.map fun g =>
      let w := (col.drop (g * m)).take m
      (rs.map fun r => ((List.zip ((r.drop (g * m)).take m) w).filter fun p => !p.1.zero && !p.2.zero).length).sum).sum
  if halves.any fun rs => cols.any fun col => groups.any fun gs => decide (m < count rs col gs) then 2 else 1

/-- Rows in lists of k. -/
def rowSteps (k : Nat) : Nat → List (List Elem) → List (List (List Elem))
  | 0, _ => []
  | n + 1, rs => if rs.isEmpty then [] else rs.take k :: rowSteps k n (rs.drop k)

/-- For each streamed row, the cycle from the pass's start in which column group 0 adds it, and the cycles of the pass
(R221, R338, R341). -/
def rowTimes (shape : Shape) (sparse : Bool) (rows : List (List Elem)) (cols : List (List Elem)) : List Nat × Nat :=
  if sparse then
    let lens := (rowSteps shape.rate.stepRows rows.length rows).map fun rs => stepLen shape rs cols
    ((List.range rows.length).map fun m => 4 + (lens.take (m / shape.rate.stepRows + 1)).sum, 12 + lens.sum)
  else ((List.range rows.length).map fun m => 5 + shape.rate.pos m, 12 + shape.rate.cycles rows.length)

/-! A pass. -/

/-- What a pass does to an accumulator: its cells, when it meets differing scales, scales, carries and cycles. -/
structure PassRes where
  cells : List PassCell
  off : List Nat
  sa : List (Option Nat)
  sw : List (Option Nat)
  carries : List Carry
  cycles : Nat

/-- Carries in the order of their cycles, columns ascending. -/
def insCarry (c : Carry) : List Carry → List Carry
  | [] => [c]
  | x :: rest =>
    if c.at_ < x.at_ || (c.at_ = x.at_ && c.col < x.col) then c :: x :: rest else x :: insCarry c rest

/-- An accumulator's values, flags and scales written out. -/
def Acc.full (a : Acc) : List Int := if a.vals.isEmpty then List.replicate 1024 0 else a.vals

def scaleList (l : List (Option Nat)) : List (Option Nat) := if l.isEmpty then List.replicate 32 none else l

/-- A pass of activation rows rows, the first being row r0, against a plane (R225, R226). -/
def runPass (a : Acc) (p : Plane) (shape : Shape) (sparse : Bool) (r0 : Nat) (rows : List (List Elem)) : PassRes :=
  let old := a.full
  let times := rowTimes shape sparse rows p.cols
  let cells := (rows.zipIdx).flatMap fun (r : List Elem × Nat) => (p.cols.zipIdx).map fun (c : List Elem × Nat) =>
    let i := (r0 + r.2) * 32 + c.2
    (i, times.1.getD r.2 0 + c.2 / 4, cellRun a.fp sparse shape.macs (old.getD i 0) r.1 c.1)
  let sa : List (Option Nat × Bool) := if a.fp then [] else (scaleList a.sa).zipIdx.map fun (x : Option Nat × Nat) =>
    if r0 ≤ x.2 then
      match rows[x.2 - r0]? with
      | some es => recordScale x.1 es
      | none => (x.1, false)
    else (x.1, false)
  let sw : List (Option Nat × Bool) := if a.fp || rows.isEmpty then []
    else (scaleList a.sw).zipIdx.map fun (x : Option Nat × Nat) => recordScale x.1 (p.cols.getD x.2 [])
  { cells := cells.map fun c => { i := c.1, at_ := c.2.1, v := c.2.2.v, fl := c.2.2.fl, pois := c.2.2.pois }
    off := ((sa.zipIdx).filterMap fun (x : (Option Nat × Bool) × Nat) => if x.1.2 then times.1[x.2 - r0]? else none) ++
      ((sw.zipIdx).filterMap fun (x : (Option Nat × Bool) × Nat) => if x.1.2 then (times.1.head?).map (· + x.2 / 4) else none)
    sa := sa.map (·.1)
    sw := sw.map (·.1)
    carries := cells.foldl (fun acc c => (c.2.2.ups.zipIdx).foldl (fun acc u =>
      insCarry { at_ := c.2.1 + u.2, row := c.1 / 32, col := c.1 % 32, up := u.1 } acc) acc) []
    cycles := times.2 }

/-! Drain conversions (R87, R90, R91). -/

/-- A drained value: an exact integer with its scale, or an f32 code. -/
inductive DVal where
  | int (v : Int) (e : Int)
  | fp (c : Nat)

/-- Wrapping to 40 bits. -/
def wrap40 (v : Int) : Int := (v + 2 ^ 39) % 2 ^ 40 - 2 ^ 39

/-- The value of cell i, and OF where it left 40 bits (R87). -/
def drainVal (a : Acc) (spall : List Spall) (c i : Nat) : DVal × Flags :=
  let x := a.vals.getD i 0
  if a.fp then (.fp x.toNat, fNone)
  else
    let n := ((spall.find? fun e => e.acc == c && e.row == i / 32 && e.col == i % 32).map (·.cnt)).getD 0
    let full := x + n * 2 ^ 20
    let sa := ((a.sa[i / 32]?).getD none).getD 511
    let sw := ((a.sw[i % 32]?).getD none).getD 511
    (.int (wrap40 full) ((sa : Int) + sw - 1022), if wrap40 full = full then fNone else fOF)

/-- A drained value as a magnitude, an exponent and a sign, where it is finite. -/
def DVal.dy : DVal → Option Dy
  | .int v e => some { neg := decide (v < 0), m := v.natAbs, e := e, st := false }
  | .fp c =>
    match FF.f32.val c with
    | .fin n m e => some { neg := n, m := m, e := e, st := false }
    | _ => none

/-- A drained value in a floating format; with sat a finite value that would round to ±∞ becomes ±max. -/
def DVal.toF (d : DVal) (f : FF) (mode : RMode) (sat : Bool) (adj : Int) : Nat × Flags :=
  match d.dy, d with
  | some y, _ =>
    let r := f.round mode { y with e := y.e + adj }
    match f.val r.1 with
    | .inf n => if sat then (f.sign n + f.maxCode, fSAT ||| fNX) else r
    | _ => r
  | none, .fp c => convF .f32 f mode c
  | none, _ => (f.defNan, fNone)

/-- A drained value as an integer of a range. -/
def DVal.toI (d : DVal) (lo hi : Int) (mode : RMode) (adj : Int) : Int × Flags :=
  match d.dy, d with
  | some y, _ => roundInt mode lo hi { y with e := y.e + adj }
  | none, .fp c => convInt .f32 mode lo hi c
  | none, _ => (0, fNone)

/-- A tagged block of a FMT and SCALE: elements packed low-order first, padded with code 0, check bytes 0. -/
def taggedBlock (fmt scale : Nat) (codes : List Nat) : List Byte :=
  toLe 2 (scale * 64 + fmt) ++ toLe 60 (packElems (fmtBits fmt) codes) ++ [0#8, 0#8]

/-- The smallest c with M ≤ 7 · 2^c. -/
def ceilLog7 (m : Nat) : Int := if 8 * m ≤ 7 * 2 ^ bitLen m then (bitLen m : Int) - 3 else (bitLen m : Int) - 2

/-- The largest of the finite magnitudes of a row, as a magnitude and an exponent. -/
def rowMax (ds : List DVal) : Nat × Int :=
  (ds.filterMap DVal.dy).foldl (fun a y =>
    let e := min a.2 y.e
    if a.1 * 2 ^ (a.2 - e).toNat < y.m * 2 ^ (y.e - e).toNat then (y.m, y.e) else a) (0, 0)

/-- The SCALE of a row drained as e4m3 (R91). -/
def rowScale (ds : List DVal) : Nat :=
  let m := rowMax ds
  if m.1 = 0 then 511 else min 1022 (511 + m.2 - 6 + ceilLog7 m.1).toNat

/-- The bytes of a row of 32 drained values, and the flags of its conversion (R90). -/
def drainRow (code : Nat) (sat : Bool) (scale : Nat) (mode : RMode) (ds : List DVal) : List Byte × Flags :=
  let flt (f : FF) (n : Nat) : List Byte × Flags :=
    let xs := ds.map fun d => d.toF f mode sat 0
    (xs.flatMap fun x => toLe n x.1, xs.foldl (fun a x => a ||| x.2) fNone)
  match code with
  | 0 => flt .f32 4
  | 1 => flt .bf16 2
  | 2 => flt .f16 2
  | 3 =>
    let xs := ds.map fun d => d.toI (-2147483648) 2147483647 mode 0
    (xs.flatMap fun x => toLe 4 (wrapElem 32 x.1), xs.foldl (fun a x => a ||| x.2) fNone)
  | 4 =>
    let xs := ds.map fun d => match d with
      | .int v _ => (v, fNone)
      | .fp c => convInt .f32 mode (-(2 ^ 63)) (2 ^ 63 - 1) c
    (xs.flatMap fun x => toLe 8 (wrapElem 64 x.1), xs.foldl (fun a x => a ||| x.2) fNone)
  | 5 =>
    let sc := rowScale ds
    let xs := ds.map fun d => d.toF .e4m3 mode true (511 - sc)
    (taggedBlock 4 sc (xs.map (·.1)), xs.foldl (fun a x => a ||| x.2) fNone)
  | 6 =>
    if scale = 1023 then (taggedBlock 1 1023 [], fNV)
    else
      let xs := ds.map fun d => d.toI (-128) 127 mode (511 - scale)
      (taggedBlock 1 scale (xs.map fun x => wrapElem 8 x.1), xs.foldl (fun a x => a ||| x.2) fNone)
  | _ =>
    let xs := ds.map fun d => d.toF .bf16 mode sat 0
    (taggedBlock 10 511 ((xs.take 30).map (·.1)) ++ taggedBlock 10 511 ((xs.drop 30).map (·.1)),
      xs.foldl (fun a x => a ||| x.2) fNone)

/-- Bytes of a drained tile (R90). -/
def drainBytes (code : Nat) : Nat :=
  if code = 1 || code = 2 || code = 5 || code = 6 then 2048 else if code = 4 then 8192 else 4096

/-- All bytes of a drain, row by row, and its flags. -/
def drainAll (a : Acc) (spall : List Spall) (c code : Nat) (sat : Bool) (scale : Nat) (mode : RMode) :
    List Byte × Flags :=
  let a : Acc := { a with vals := a.full }
  (List.range 32).foldl (fun acc m =>
    let ds := (List.range 32).map fun n => drainVal a spall c (32 * m + n)
    let r := drainRow code sat scale mode (ds.map (·.1))
    (acc.1 ++ r.1, acc.2 ||| r.2 ||| ds.foldl (fun f d => f ||| d.2) fNone)) ([], fNone)

end Sys2Proof.Machine
end

