-- ==== Sys2Proof/Machine/Matrix.lean ====
section
/-! DEFINITION. Tiles (R211 to R218), the matrix queue and the array's passes (R219 to R230, R294, R338 to R342), and the
control of accumulators (R231 to R234). -/

namespace Sys2Proof.Machine

/-! The tile table (R29, R212, R213). -/

def Core.tile (c : Core) (t : Nat) : Tile := if h : t < 64 then c.tiles[t] else Tile.zero

def Core.updTile (c : Core) (t : Nat) (f : Tile → Tile) : Core :=
  if h : t < 64 then { c with tiles := c.tiles.set t (f c.tiles[t]) } else c

def State.updTile (s : State) (cid t : Nat) (f : Tile → Tile) : State := s.updCore cid fun c => c.updTile t f

/-- Every bank that a range of offsets touches is in scratch mode (R31). -/
def Core.scratchOk (c : Core) (off n : Nat) : Bool :=
  (List.range 32).all fun b => (off + n ≤ b * 0x8000 || (b + 1) * 0x8000 ≤ off) || c.bank b == bankScratch

def Core.tileScratch (c : Core) (t : Nat) : Bool := c.scratchOk (c.tile t).base (c.tile t).size

/-- The bytes of a tile from an offset on. -/
def State.tileBytes (s : State) (cid t off n : Nat) : List Byte :=
  Memory.bytes s.mem (scratchPa cid ((s.core cid).tile t).base + off) n

/-- Writes bytes of a tile. -/
def State.putTile (s : State) (cid t off : Nat) (bs : List Byte) : State :=
  s.putBytes 0 none 0 (scratchPa cid ((s.core cid).tile t).base + off) bs

/-- The first of n bytes of a tile, by its offset in the scratchpad, that has an uncorrectable error (R300). -/
def State.tileBad (s : State) (cid t off n : Nat) : Option Nat :=
  let lo := scratchPa cid ((s.core cid).tile t).base + off
  ((s.bad.filter fun u => decide (u < lo + n) && decide (lo < u + 8)).min?).map fun u => max u lo - scratchPa cid 0

/-- An asynchronous fault is held for its thread, wherever that has travelled; that of a thread that is gone is discarded (R219,
R220). -/
def State.holdFault (s : State) (w : Who) (cause addr : Nat) : State :=
  s.updThere w fun t => { t with held := t.held ++ [{ fail := { cause := cause, addr := addr }, at_ := s.now }] }

/-- No reader registered before number tok is left (R213). -/
def Tile.freeFor (t : Tile) (tok : Nat) : Bool := t.readers.all fun r => decide (tok ≤ r)

/-- What a tile holds back may go on once its readers have finished. -/
def State.releaseCheck (s : State) (cid t : Nat) : State :=
  let x := (s.core cid).tile t
  if x.rel.any x.freeFor || x.out.any x.freeFor then s.urgent (.tileReleaseEffect cid t) else s

/-- A reader of a tile has read its last byte (R213). -/
def State.readDone (s : State) (cid t tok : Nat) : State :=
  (s.updTile cid t fun x => { x with readers := x.readers.filter (· != tok) }).releaseCheck cid t

/-! What the matrix queue can start (R219). -/

def Core.accAt (c : Core) (i : Nat) : Acc := if h : i < 4 then c.acc[i] else Acc.zero

def Core.updAcc (c : Core) (i : Nat) (f : Acc → Acc) : Core :=
  if h : i < 4 then { c with acc := c.acc.set i (f c.acc[i]) } else c

def Shadow.isEmpty : Shadow → Bool
  | .empty => true
  | _ => false

def Shadow.isFull : Shadow → Bool
  | .full _ => true
  | _ => false

def MOp.isMls : MOp → Bool
  | .mls _ => true
  | _ => false

/-- The accumulator that an operation names. -/
def MOp.names (o : MOp) (c : Nat) : Bool :=
  match o with
  | .pass _ _ k _ _ _ _ => k == c
  | .zero _ k => k == c
  | _ => false

def MOp.swaps : MOp → Bool
  | .swap => true
  | .pass _ sw _ _ _ _ _ => sw
  | _ => false

def MCmd.names (m : MCmd) (c : Nat) : Bool := m.ops.any (·.names c)

/-- A copy command's follow-on names an accumulator (R243). -/
def CopyCmd.names (q : CopyCmd) (c : Nat) : Bool :=
  match q.block with
  | some ws =>
    let d := (ws.getD 4 0#64).toNat
    (d % 16 == 2 || d % 16 == 3) && d / 16 % 4 == c
  | none => false

/-- An instruction that names accumulator c has issued and not completed (R232, R233, R243). -/
def Core.busyAcc (c : Core) (k : Nat) : Bool :=
  c.mq.any (·.names k) || c.groups.any (·.names k) || c.pass.any (fun p => p.c == k) || c.drain.any (fun d => d.c == k) ||
    c.cq.any (·.names k) || c.xfers.any fun x => x.cmd.names k

/-- A follow-on's tile lets it start, or stops it with a cause (R211, R222, R243). -/
def Core.followTile (c : Core) (m : MCmd) (t : Nat) : Bool :=
  !m.follow || (let x := c.tile t; x.err || x.size == 0 || x.size % 2048 != 0 || x.st == .ready)

def Core.drains (c : Core) (k : Nat) : Bool := c.drain.any fun d => d.c == k

/-- The next group of a started MMAG can start, or end the MMAG (R230). -/
def Core.groupReady (c : Core) : Bool :=
  c.pass.isNone && c.groups.isSome &&
    (match c.shadow with
     | .full _ => true
     | .loading _ _ _ => false
     | .empty => !(c.mq.any fun m => m.ops.any (·.isMls)))

/-- The step with which the head of the queue starts, where it can.  A pass behind an MMAG that has left the head waits until all its
groups have run, though one of them waits for a load (R230; DESIGN CHOICE, log entry 81). -/
def Core.headStep (c : Core) (now : Nat) : Option Ev :=
  match c.mq with
  | [] => none
  | m :: _ =>
    if now < m.from_ then none
    else
      match m.ops with
      | [] => some (.passStart c.cid)
      | .mls t :: _ => if c.shadow.isEmpty && c.followTile m t then some (.mlsStart c.cid) else none
      | .swap :: _ => if c.shadow.isFull && c.pass.isNone && c.groups.isNone then some (.planeSwap c.cid) else none
      | .pass _ sw k t _ _ _ :: _ =>
        if c.pass.isNone && c.groups.isNone && (!sw || c.shadow.isFull) && !c.drains k && c.followTile m t then
          some (.passStart c.cid)
        else none
      | .zero _ k :: _ =>
        if !c.pass.any (fun p => p.c == k) && !c.groups.any (·.names k) && !c.drains k then some (.mzeroStart c.cid)
        else none

/-- Starts what can start in a core's matrix engine. -/
def State.mxKick (s : State) (cid : Nat) : State :=
  let c := s.core cid
  let s : State := match c.headStep s.now with
    | some e => s.urgent e
    | none => s
  if c.groupReady then s.urgent (.passStart cid) else s

/-- A tile has changed: what waits for it in an engine, or at a bundle, looks again. -/
def State.tileChanged (s : State) (cid : Nat) : State :=
  let s : State := (s.mxKick cid).again cid
  if (s.core cid).cq.isEmpty then s else s.urgent (.copyCommandStart cid)

/-- The head leaves the queue; a follow-on that waits for room may enter (R243). -/
def State.popHead (s : State) (cid : Nat) : State :=
  let s : State := (s.updCore cid fun c => { c with mq := c.mq.drop 1 }).again cid
  (s.core cid).xfers.foldl (fun s x => if x.ended then s.urgent (.tileBytesArrive cid x.tok) else s) s

/-! TDEF, TARM, TREL, TWAIT, TSTAT (R214 to R218). -/

/-- TDEF (R214). -/
def tdefOp (h : Hdr) (t : TileNo) (ra rb : SReg) (s : State) : Except State State := do
  gateC { Uses.none with sr := [ra, rb] } s
  let a := (s.regVal ra).toNat
  let n := (s.regVal rb).toNat
  let c := s.myCore
  if (c.tile t.toNat).st != .empty then raise s 6 0x60 0
  else if (a != 0 || n != 0) && (a % 64 != 0 || n = 0 || n % 64 != 0 || 1048576 < n || 0x100000 < a + n ||
      !c.scratchOk a n) then raise s 6 0x61 0
  else return (commitNext s h .drops (loneW h)).updTile s.cur.cid t.toNat fun x => { x with base := a, size := n }

/-- TDEF (R214). -/
def execTdef (h : Hdr) (t : TileNo) (ra rb : SReg) (s : State) : Host.Outcome State Fault Refusal :=
  .next (run (tdefOp h t ra rb s))

/-- The EMPTY-to-FILLING row of R212. -/
def Tile.arm (x : Tile) (n : Nat) : Tile :=
  { x with st := .filling, expected := n, arrived := 0, pois := false, err := false }

/-- TARM (R215). -/
def tarmOp (h : Hdr) (t : TileNo) (ra : SReg) (s : State) : Except State State := do
  gateC { Uses.none with sr := [ra] } s
  let n := (s.regVal ra).toNat
  let c := s.myCore
  let x := c.tile t.toNat
  if x.st = .ready || x.st = .draining then notReady s
  else if x.st = .filling then raise s 6 0x60 0
  else if x.size = 0 || !c.tileScratch t.toNat || n = 0 || x.size < n then raise s 6 0x61 0
  else return ((commitNext s h .drops (loneW h)).updTile s.cur.cid t.toNat (·.arm n)).tileChanged s.cur.cid

/-- TARM (R215). -/
def execTarm (h : Hdr) (t : TileNo) (ra : SReg) (s : State) : Host.Outcome State Fault Refusal :=
  .next (run (tarmOp h t ra s))

/-- TREL (R216). -/
def trelOp (h : Hdr) (t : TileNo) (s : State) : Except State State := do
  gateC Uses.none s
  let x := s.myCore.tile t.toNat
  let done : State := commitNext s h .drops (loneW h)
  match x.st with
  | .empty => return done
  | .draining => notReady s
  | .filling =>
    if x.err then return (done.updTile s.cur.cid t.toNat fun x => { x with st := .empty }).tileChanged s.cur.cid
    else notReady s
  | .ready =>
    if x.rel.isSome then return done
    else
      let (tok, s1) := done.fresh
      return (s1.updTile s.cur.cid t.toNat fun x => { x with rel := some tok }).releaseCheck s.cur.cid t.toNat

/-- TREL (R216). -/
def execTrel (h : Hdr) (t : TileNo) (s : State) : Host.Outcome State Fault Refusal := .next (run (trelOp h t s))

/-- A deferred release takes effect once every earlier reader has finished.  A copy-out that waits for readers of the tile comes
first (R213, R216; DESIGN CHOICE, log entry 73). -/
def execTileReleaseEffect (s : State) : Host.Outcome State Fault Refusal :=
  .next (match s.evt with
    | .tileReleaseEffect cid t =>
      let x := (s.core cid).tile t
      if x.out.isSome then (if x.out.any x.freeFor then s.tileChanged cid else s)
      else if x.rel.any x.freeFor then
        (s.updTile cid t fun x => { x with rel := none, st := if x.st = .ready then .empty else x.st }).tileChanged cid
      else s
    | _ => s)

/-- TWAIT (R217). -/
def twaitOp (h : Hdr) (t : TileNo) (s : State) : Except State State := do
  let s ← deliver s
  gateC Uses.none s
  let x := s.myCore.tile t.toNat
  if x.err then raise s 6 0x60 0
  else if x.st != .ready then notReady s
  else return commitNext s h .drops (loneW h)

/-- TWAIT (R217). -/
def execTwait (h : Hdr) (t : TileNo) (s : State) : Host.Outcome State Fault Refusal := .next (run (twaitOp h t s))

/-- The code of a tile's STATE (R29). -/
def TileSt.code : TileSt → Nat
  | .empty => 0
  | .filling => 1
  | .ready => 2
  | .draining => 3

def bit01 (b : Bool) : Nat := if b then 1 else 0

/-- TSTAT's snapshot (R218). -/
def Tile.word (x : Tile) : W64 :=
  BitVec.ofNat 64 (x.st.code * 2 ^ 62 + bit01 x.pois * 2 ^ 61 + bit01 x.err * 2 ^ 60 +
    bit01 (x.rel.isSome || x.out.isSome) * 2 ^ 59 +
    x.arrived * 2 ^ 32 + x.expected)

/-- TSTAT (R218). -/
def execTstat (h : Hdr) (t : TileNo) (rb : SReg) (s : State) : Host.Outcome State Fault Refusal :=
  .next (run (do
    gateC { Uses.none with sw := [rb] } s
    return (commitNext s h .drops (loneW h)).valueLater rb (s.myCore.tile t.toNat).word 2))

/-! Instructions that enter the matrix queue (R219, R223 to R231). -/

/-- The wait of an instruction that reads a tile (R211). -/
def tileReady (s : State) (t : Nat) : Except State Unit :=
  let x := s.myCore.tile t
  if x.size = 0 then raise s 6 0x61 0
  else if x.err then raise s 6 0x60 0
  else if x.st != .ready then notReady s
  else .ok ()

/-- As tileReady, for a tile of 32 regions (R222). -/
def arrayTile (s : State) (t : Nat) : Except State Unit := do
  tileReady s t
  if (s.myCore.tile t).size % 2048 != 0 then raise s 6 0x61 0 else .ok ()

/-- The matrix queue is full (R219). -/
def Core.mqFull (c : Core) : Bool := decide (8 ≤ c.mq.length)

/-- A load that no issued swap has consumed (R223). -/
def Core.unconsumed (c : Core) : Bool := decide (c.swaps < c.loads)

/-- An instruction enters a core's matrix queue, counting its loads and swaps. -/
def State.mxEnter (s : State) (cid : Nat) (m : MCmd) : State :=
  (s.updCore cid fun c => { c with
    mq := c.mq ++ [m]
    loads := c.loads + m.ops.countP (·.isMls)
    swaps := c.swaps + m.ops.countP (·.swaps) }).mxKick cid

/-- The bundle commits and its instruction enters the queue, registered as a reader of its tile (R213). -/
def enqueueMx (s : State) (h : Hdr) (w : Bool) (t : Option Nat) (ops : List MOp) (lat : Nat) : State :=
  let (tok, s1) := (commitNext s h .drops (loneW h || w)).fresh
  let s2 : State := match t with
    | some t => s1.updTile s.cur.cid t fun x => { x with readers := x.readers ++ [tok] }
    | none => s1
  let at_ := s.now + s.ticks (dieOf s.cur.cid) lat
  let s3 : State := s2.mxEnter s.cur.cid { tok := tok, who := s.meWho, ops := ops, follow := false, from_ := at_ }
  if lat = 0 then s3 else s3.atCycle at_ (.passStart s.cur.cid)

/-- A matrix instruction that reduced service does not have (R371). -/
def notReduced (s : State) (bad : Bool) : Except State Unit :=
  if s.dev.service == .reduced && bad then raise s 2 0x00 0 else .ok ()

/-- Whether the first block of a tile has a format of the 16-bit class. -/
def State.wide16 (s : State) (cid t : Nat) : Bool :=
  match fmtCls (blkFmt (s.tileBytes cid t 0 2)) with
  | some .bf16 => true
  | some .f16 => true
  | _ => false

/-- MLS (R223). -/
def execMls (h : Hdr) (t : TileNo) (s : State) : Host.Outcome State Fault Refusal :=
  .next (run (do
    let s ← deliver s
    gateC Uses.none s
    arrayTile s t.toNat
    notReduced s (!s.wide16 s.cur.cid t.toNat)
    if s.myCore.unconsumed || s.myCore.mqFull then notReady s
    else return enqueueMx s h false (some t.toNat) [.mls t.toNat] 0))

/-- MSWP (R224).  Where no load is left for it, though an issued swap has still to take the shadow plane, it does nothing, as with the
plane empty (DESIGN CHOICE, log entry 71). -/
def execMswp (h : Hdr) (s : State) : Host.Outcome State Fault Refusal :=
  .next (run (do
    let s ← deliver s
    gateC Uses.none s
    if !s.myCore.unconsumed then return commitNext s h .drops (loneW h)
    else if s.myCore.mqFull then notReady s
    else return enqueueMx s h false none [.swap] 0))

/-- The invalid bit raises at issue, unless an MZERO of the accumulator is still to start (R225). -/
def accUsable (s : State) (c : Nat) : Except State Unit :=
  let k := s.myCore
  if (k.accAt c).inv && !(k.mq.any fun m => m.ops.any fun o => match o with
      | .zero _ x => x == c
      | _ => false) then raise s 6 0x7A 0
  else .ok ()

/-- .sw with an empty shadow plane and no load left is the fallback of R62 (R224). -/
def Core.swFallback (c : Core) : Bool := !c.unconsumed && c.shadow.isEmpty

/-- MMA and MMASP: one pass over 32 rows.  A .sw with no load left for it, where an issued swap has still to take the shadow plane,
is neither a swap nor the fallback: it is dropped, and sets no W (R62, R224; DESIGN CHOICE, log entry 53). -/
def mmaOp (h : Hdr) (sparse : Bool) (t : TileNo) (sw : Bool) (c : AccNo) (s : State) : Except State State := do
  let s ← deliver s
  gateC Uses.none s
  tileReady s t.toNat
  accUsable s c.toNat
  arrayTile s t.toNat
  if s.myCore.mqFull then notReady s
  else
    return enqueueMx s h (sw && s.myCore.swFallback) (some t.toNat)
      [.pass sparse (sw && s.myCore.unconsumed) c.toNat t.toNat 0 32 true] 0

/-- MMA (R225). -/
def execMma (h : Hdr) (t : TileNo) (sw : Bool) (c : AccNo) (s : State) : Host.Outcome State Fault Refusal :=
  .next (run (mmaOp h false t sw c s))

/-- MMASP (R228). -/
def execMmasp (h : Hdr) (t : TileNo) (sw : Bool) (c : AccNo) (s : State) : Host.Outcome State Fault Refusal :=
  .next (run (mmaOp h true t sw c s))

/-- A dword of a group table (R229); a bank that wakes is waited for (R184). -/
def tableWord (s : State) (va : Nat) : Except State Nat :=
  if decide (va + 8 ≤ 0x100000) && s.myCore.waking.getLsbD (va / 0x8000) then notReady s
  else if 0x100000 < va + 8 || s.myCore.bank (va / 0x8000) != bankScratch then raise s 6 0x20 va
  else if s.uncorr s.cur.cid (scratchPa s.cur.cid va) 8 0 then raise s 6 0x30 va
  else .ok (Memory.val s.mem (scratchPa s.cur.cid va) 8)

/-- The n groups of a table from an address on, as first row and count; none where one is ill-formed.  The whole table is read before
it is judged: a later dword's memory fault comes ahead of an earlier group that is ill-formed (R229; DESIGN CHOICE, log entry 80). -/
def tableGroups (s : State) (va : Nat) : Nat → Except State (Option (List (Nat × Nat)))
  | 0 => .ok (some [])
  | n + 1 => do
    let w ← tableWord s va
    let more ← tableGroups s (va + 8) n
    let nr := w / 256 % 64
    let r0 := w % 32
    return (if w % 32 + nr * 256 != w || 32 < r0 + nr then none else more.map ((r0, nr) :: ·))

/-- The passes of a list of groups; the first swaps as sw says, every later one swaps (R230). -/
def groupOps (c t : Nat) : Bool → List (Nat × Nat) → List MOp
  | _, [] => []
  | sw, (r0, nr) :: rest => .pass false sw c t r0 nr rest.isEmpty :: groupOps c t true rest

/-- MMAG (R230). -/
def mmagOp (h : Hdr) (t : TileNo) (ra : SReg) (sw : Bool) (c : AccNo) (s : State) : Except State State := do
  let s ← deliver s
  gateC { Uses.none with sr := [ra] } s
  tileReady s t.toNat
  accUsable s c.toNat
  arrayTile s t.toNat
  let va := (s.regVal ra).toNat
  if va % 8 != 0 then raise s 6 0x28 va
  else
    let ng ← tableWord s va
    if ng = 0 || 32 < ng then raise s 6 0x70 0
    else
      match ← tableGroups s (va + 8) ng with
      | none => raise s 6 0x70 0
      | some gs =>
        if s.myCore.mqFull then notReady s
        else
          return enqueueMx s h (sw && s.myCore.swFallback) (some t.toNat)
            (groupOps c.toNat t.toNat (sw && s.myCore.unconsumed) (gs.filter fun g => g.2 != 0)) 2

/-- MMAG (R230). -/
def execMmag (h : Hdr) (t : TileNo) (ra : SReg) (sw : Bool) (c : AccNo) (s : State) : Host.Outcome State Fault Refusal :=
  .next (run (mmagOp h t ra sw c s))

/-- MZERO: queued (R231). -/
def mzeroOp (h : Hdr) (fp : Bool) (c : AccNo) (s : State) : Except State State := do
  let s ← deliver s
  notReduced s (!fp)
  gateC Uses.none s
  if s.myCore.mqFull then notReady s else return enqueueMx s h false none [.zero fp c.toNat] 0

/-- MZERO in int mode (R231). -/
def execMzeroInt (h : Hdr) (c : AccNo) (s : State) : Host.Outcome State Fault Refusal := .next (run (mzeroOp h false c s))

/-- MZERO in fp mode (R231). -/
def execMzeroFp (h : Hdr) (c : AccNo) (s : State) : Host.Outcome State Fault Refusal := .next (run (mzeroOp h true c s))

/-! Weight planes (R223, R224). -/

/-- The 64-byte blocks of a list of bytes. -/
def blocksOf : Nat → List Byte → List (List Byte)
  | 0, _ => []
  | n + 1, bs => if bs.isEmpty then [] else bs.take 64 :: blocksOf n (bs.drop 64)

/-- The 32 regions of a tile, each as blocks (R222). -/
def State.regions (s : State) (cid t : Nat) : List (List (List Byte)) :=
  let n := ((s.core cid).tile t).size / 32
  (List.range 32).map fun j => blocksOf (n / 64) (s.tileBytes cid t (j * n) n)

/-- The fault that a follow-on meets at its tile (R211, R222, R243). -/
def Core.followFault (c : Core) (m : MCmd) (t : Nat) : Option Nat :=
  let x := c.tile t
  if !m.follow then none
  else if x.size = 0 then some 0x61
  else if x.err then some 0x60
  else if x.size % 2048 != 0 then some 0x61 else none

/-- In reduced service a follow-on MLS of a plane that is not of the 16-bit class is illegal, as one that issues is (R243, R371). -/
def State.followIll (s : State) (cid : Nat) (m : MCmd) (t : Nat) : Option Nat :=
  if m.follow && s.dev.service == .reduced && !s.wide16 cid t then some 0x00 else none

/-- The array reads a tile for an instruction: an uncorrectable error among its bytes is held for the issuer (R300; DESIGN CHOICE, log
entry 31). -/
def State.readsTile (s : State) (cid t : Nat) (w : Who) : State :=
  match s.tileBad cid t 0 ((s.core cid).tile t).size with
  | some a => s.holdFault w 0x30 a
  | none => s

/-- The head MLS starts: the shadow plane loads (R223). -/
def execMlsStart (s : State) : Host.Outcome State Fault Refusal :=
  .next (match s.evt with
    | .mlsStart cid =>
      let c := s.core cid
      match c.mq with
      | m :: _ =>
        match m.ops with
        | .mls t :: _ =>
          if c.headStep s.now != some (.mlsStart cid) then s
          else
            match (c.followFault m t).or (s.followIll cid m t) with
            | some f =>
              -- its load never takes place
              ((((s.popHead cid).updCore cid fun c => { c with loads := c.loads - 1 }).holdFault m.who f 0).readDone cid t m.tok).mxKick cid
            | none =>
              let p := planeOf (s.regions cid t)
              let s1 : State := ((s.popHead cid).readsTile cid t m.who).updCore cid fun c =>
                { c with shadow := .loading p t m.tok }
              (s1.after cid 40 (.planeFull cid)).mxKick cid
        | _ => s
      | [] => s
    | _ => s)

/-- The shadow plane is full, and the MLS has read its last byte (R223, R294). -/
def execPlaneFull (s : State) : Host.Outcome State Fault Refusal :=
  .next (match s.evt with
    | .planeFull cid =>
      match (s.core cid).shadow with
      | .loading p t tok => ((s.updCore cid fun c => { c with shadow := .full p }).readDone cid t tok).mxKick cid
      | _ => s
    | _ => s)

/-- The full shadow plane becomes the active plane (R224). -/
def Core.swap (c : Core) : Core :=
  match c.shadow with
  | .full p => { c with active := some p, shadow := .empty }
  | _ => c

/-- The head MSWP is performed (R224). -/
def execPlaneSwap (s : State) : Host.Outcome State Fault Refusal :=
  .next (match s.evt with
    | .planeSwap cid =>
      if (s.core cid).headStep s.now = some (.planeSwap cid) then ((s.popHead cid).updCore cid Core.swap).mxKick cid else s
    | _ => s)

/-- The head MZERO is performed (R231). -/
def execMzeroStart (s : State) : Host.Outcome State Fault Refusal :=
  .next (match s.evt with
    | .mzeroStart cid =>
      let c := s.core cid
      if c.headStep s.now != some (.mzeroStart cid) then s
      else
        match c.mq with
        | m :: _ =>
          match m.ops with
          | .zero fp k :: _ => ((s.popHead cid).updCore cid fun c =>
              { c.updAcc k (fun _ => { Acc.zero with fp := fp }) with
                spall := c.spall.filter fun e => e.acc != k, late := c.late.filter fun l => l.acc != k }).mxKick cid
          | _ => s
        | [] => s
    | _ => s)

/-! Passes (R221, R225 to R230, R338). -/

/-- The shape of a pass, and whether the first classes form no pair (R221). -/
def passShape (p : Plane) (rows : List (List Byte)) : Shape × Bool :=
  let a := (rows.head?.bind fun b => fmtCls (blkFmt b)).getD (firstAct p.cls)
  match shapeOf p.cls a with
  | some sh => (sh, true)
  | none => ((shapeOf p.cls (firstAct p.cls)).getD { macs := 4, kp := p.kp, rate := .one }, false)

/-- Whether a pass takes an activation block of a FMT (R221). -/
def passTakes (p : Plane) (sh : Shape) (pair : Bool) (fmt : Nat) : Bool :=
  pair && (match fmtCls fmt with
    | some a =>
      match shapeOf p.cls a with
      | some x => x.macs == sh.macs && x.kp == sh.kp
      | none => false
    | none => false)

/-- When a pass under way ends: P cycles from its start, and those that it has stalled (R294, R342). -/
def State.passEnd (s : State) (cid : Nat) (p : Pass) : Nat := s.atDie cid (p.start + p.len + p.slip)

/-- The carries that a pass has still to post, by the cycle of the die's count in which each is due. -/
def Pass.owed (p : Pass) : List Late :=
  p.carries.map fun x => { acc := p.c, who := p.who, carry := { x with at_ := p.start + x.at_ + p.slip } }

/-- The carries that a core has still to post: those that passes had left when they completed, and those of the pass under way. -/
def Core.owed (c : Core) : List Late := c.late ++ (c.pass.map Pass.owed).getD []

/-- The next carry of a core is due. -/
def State.carryDue (s : State) (cid : Nat) : State :=
  match ((s.core cid).owed.map fun l => l.carry.at_).min? with
  | some n => s.atCycle (s.atDie cid n) (.spallCarryResume cid)
  | none => s

/-- A pass runs against the active plane: what it will leave is known at its start (R225, R228). -/
def State.passRun (s : State) (cid : Nat) (m : MCmd) (pl : Plane) (sparse : Bool) (k t r0 nr : Nat) (last : Bool) : State :=
  let c := s.core cid
  let regs := s.regions cid t
  let sp := passShape pl ((regs.headD []).take 1)
  let rows := ((regs.drop r0).take nr).map (rowElems (passTakes pl sp.1 sp.2) pl.kp)
  let r := runPass (c.accAt k) pl sp.1 sparse r0 rows
  let p : Pass :=
    { tok := m.tok, who := m.who, c := k, t := t, last := last, start := s.dieNow cid, len := r.cycles, slip := 0,
      cells := r.cells, off := r.off, sa := r.sa, sw := r.sw, carries := r.carries, stop := none }
  let s1 : State := (s.readsTile cid t m.who).updCore cid fun c => { c with pass := some p }
  (s1.carryDue cid).atCycle (s1.passEnd cid p) (.passComplete cid)

/-- A pass ends without accumulating; ACC_INVALID is held for its issuer (R225). -/
def State.passNot (s : State) (cid : Nat) (m : MCmd) (k t : Nat) (last : Bool) : State :=
  let s1 : State := (s.updCore cid fun c => c.updAcc k fun a => { a with inv := true }).holdFault m.who 0x7A 0
  (if last then s1.readDone cid t m.tok else s1).mxKick cid

/-- An MMAG ends at a group that finds no plane to swap; the swaps it will not perform no longer count (R230). -/
def State.mmagEnds (s : State) (cid : Nat) (m : MCmd) (k t : Nat) : State :=
  ((((s.updCore cid fun c =>
    { c.updAcc k (fun a => { a with inv := true }) with groups := none, swaps := c.swaps - m.ops.countP (·.swaps) }).holdFault
      m.who 0x7A 0).readDone cid t m.tok)).mxKick cid

/-- The first pass of an entry's list starts, the rest being groups still to run. -/
def State.passBegin (s : State) (cid : Nat) (m : MCmd) : State :=
  match m.ops with
  | .pass sparse sw k t r0 nr last :: rest =>
    if sw && !(s.core cid).shadow.isFull then s.mmagEnds cid m k t
    else
      let s1 : State := s.updCore cid fun c =>
        { (if sw then c.swap else c) with groups := if rest.isEmpty then none else some { m with ops := rest } }
      let c := s1.core cid
      match c.active with
      | some pl =>
        if (c.accAt k).inv then s1.passNot cid m k t last
        else (s1.passRun cid m pl sparse k t r0 nr last).mxKick cid
      | none => s1.passNot cid m k t last
  | _ => s

/-- The tile that an entry reads. -/
def MCmd.tile (m : MCmd) : Nat :=
  match m.ops with
  | .pass _ _ _ t _ _ _ :: _ => t
  | .mls t :: _ => t
  | _ => 0

/-- The swap of a follow-on that does not start is performed no more. -/
def Core.unswap (c : Core) (m : MCmd) : Core := { c with swaps := c.swaps - m.ops.countP (·.swaps) }

/-- A pass starts: the next group of a started MMAG, or the head of the queue (R219, R230). -/
def execPassStart (s : State) : Host.Outcome State Fault Refusal :=
  .next (match s.evt with
    | .passStart cid =>
      let c := s.core cid
      match c.groupReady, c.groups with
      | true, some m => s.passBegin cid m
      | _, _ =>
        match c.mq with
        | m :: _ =>
          if c.headStep s.now != some (.passStart cid) then s
          else if m.ops.isEmpty then
            -- an MMAG none of whose groups has rows: its reader is the one registered at every tile it may be
            let s1 : State := s.popHead cid
            ((List.range 64).foldl (fun s t => s.readDone cid t m.tok) s1).mxKick cid
          else
            match c.followFault m m.tile with
            | some f =>
              ((((s.popHead cid).updCore cid fun c => c.unswap m).holdFault m.who f 0).readDone cid m.tile m.tok).mxKick cid
            | none => (s.popHead cid).passBegin cid m
        | [] => s
    | _ => s)

/-! Carries (R227, R342). -/

/-- What becomes of a carry at the spall buffer. -/
inductive CarryRes where
  | ok (l : List Spall)
  | full
  | sat

/-- Posts a carry of accumulator k. -/
def postCarry (l : List Spall) (k : Nat) (x : Carry) : CarryRes :=
  let d : Int := if x.up then 1 else -1
  match l.find? fun e => e.acc == k && e.row == x.row && e.col == x.col with
  | some e =>
    if 32767 < (e.cnt + d).natAbs then .sat
    else .ok (l.map fun y => if y.acc == k && y.row == x.row && y.col == x.col then { y with cnt := y.cnt + d } else y)
  | none =>
    -- the lowest-numbered free entry
    match (List.range 64).find? fun i => !(l.any fun e => e.ent == i) with
    | none => .full
    | some i => .ok (l ++ [{ ent := i, acc := k, row := x.row, col := x.col, cnt := d }])

/-- A carry ends the work on its accumulator, which is invalid, its entries free: the pass under way is abandoned, its fault coming at
its end; for a pass that has completed the fault is held now (R227, R294). -/
def Core.abandon (c : Core) (l : Late) (now cause : Nat) : Core :=
  { c.updAcc l.acc (fun a => { a with inv := true }) with
    spall := c.spall.filter fun e => e.acc != l.acc
    late := c.late.filter fun x => x.acc != l.acc
    pass := c.pass.map fun p => if p.owed.contains l then
      { p with carries := [], stop := some (now - p.start - p.slip, cause) } else p }

/-- A carry has been taken off those that a core owes. -/
def Core.paid (c : Core) (l : Late) : Core :=
  if c.late.contains l then { c with late := c.late.erase l }
  else { c with pass := c.pass.map fun p => { p with carries := p.carries.filter fun x =>
    !(p.start + x.at_ + p.slip == l.carry.at_ && x.row == l.carry.row && x.col == l.carry.col) } }

/-- What a cycle's carries leave: the core, the faults of passes that have completed, whether carries are left over, and how many of
those are still among the first eight (R342). -/
structure Posted where
  c : Core
  faults : List (Who × Nat)
  stalls : Bool
  quota : Nat

/-- Posts carries, in the order given, up to n of them, in cycle now of the die's count (R227, R342).  A carry that finds no entry waits,
the array standing still, while another accumulator drains. -/
def postCarries (c : Core) (now : Nat) (faults : List (Who × Nat)) : Nat → List Late → Posted
  | n, [] => { c := c, faults := faults, stalls := false, quota := n }
  | 0, _ :: _ => { c := c, faults := faults, stalls := true, quota := 0 }
  | n + 1, l :: ls =>
    -- those of an accumulator whose work has ended go with it
    if !c.owed.contains l then postCarries c now faults (n + 1) ls
    else
      let ends (cause : Nat) : Posted :=
        postCarries (c.abandon l now cause) now (if c.late.contains l then faults ++ [(l.who, cause)] else faults) n ls
      match postCarry c.spall l.acc l.carry with
      | .ok sp => postCarries { c.paid l with spall := sp } now faults n ls
      | .sat => ends 0x79
      | .full =>
        if !c.mctl.getLsbD 0 && c.drain.any fun d => d.c != l.acc then { c := c, faults := faults, stalls := true, quota := n + 1 }
        else ends 0x78

/-- The array stands still for a cycle: every later event of the pass under way, and every carry owed, comes one later (R342). -/
def Core.stall (c : Core) : Core :=
  { c with
    late := c.late.map fun l => { l with carry := { l.carry with at_ := l.carry.at_ + 1 } }
    pass := c.pass.map fun p => { p with slip := p.slip + 1 } }

/-- Carries in ascending column order (R342). -/
def insCol (x : Late) : List Late → List Late
  | [] => [x]
  | y :: rest => if x.carry.col < y.carry.col then x :: y :: rest else y :: insCol x rest

/-- The carries of a cycle are posted, columns ascending; the ninth and those behind it, and those that wait for a drain, stall the
array, which takes one of the former in each cycle that it stands still for them (R227, R342). -/
def execSpallCarryResume (s : State) : Host.Outcome State Fault Refusal :=
  .next (match s.evt with
    | .spallCarryResume cid =>
      let c := s.core cid
      let n := s.dieNow cid
      -- a pass that is over in this cycle completes first
      if c.pass.any fun p => decide (p.start + p.len + p.slip ≤ n) then
        (s.urgent (.spallCarryResume cid)).urgent (.passComplete cid)
      else
        match (c.owed.filter fun l => decide (l.carry.at_ ≤ n)).foldl (fun acc l => insCol l acc) [] with
        | [] => s
        | due =>
          -- how many of them the first cycle would have taken still; each of the others costs a cycle of its own
          let q := match c.stallAt with
            | some (k, q) => if k = n then q else 8
            | none => 8
          let r := postCarries c n [] (max q 1) due
          let c1 : Core := if r.stalls then { r.c.stall with stallAt := some (n + 1, min q r.quota) } else r.c
          let s1 : State := r.faults.foldl (fun s f => s.holdFault f.1 f.2 0) (s.setCore c1)
          s1.carryDue cid
    | _ => s)

/-- The pass has got as far as a cycle of it before it was abandoned (R294). -/
def Pass.reached (p : Pass) (at_ : Nat) : Bool := p.stop.all fun z => decide (at_ ≤ z.1)

/-- The scales recorded after a pass, of the rows or columns that it has reached. -/
def Pass.scales (old new : List (Option Nat)) (reached : Nat → Bool) : List (Option Nat) :=
  new.zipIdx.map fun x => if reached x.2 then x.1 else (old[x.2]?).getD none

/-- What a pass leaves in its accumulator: the cells that were added to before it was abandoned, and the scales of their rows and
columns (R89, R294). -/
def Acc.after (a : Acc) (p : Pass) : Acc :=
  let cs := p.cells.filter fun x => p.reached x.at_
  let off := p.off.any p.reached
  { a with
    vals := cs.foldl (fun l x => l.set x.i x.v) a.full
    flags := cs.foldl (fun f x => f ||| x.fl) (a.flags ||| (if off then fNV else fNone))
    pois := a.pois || off || cs.any (·.pois)
    sa := if a.fp then a.sa else Pass.scales a.sa p.sa fun m => cs.any fun x => x.i / 32 == m
    sw := if a.fp then a.sw else Pass.scales a.sw p.sw fun n => cs.any fun x => x.i % 32 == n }

/-- A pass completes (R294). -/
def execPassComplete (s : State) : Host.Outcome State Fault Refusal :=
  .next (match s.evt with
    | .passComplete cid =>
      match (s.core cid).pass with
      | none => s
      | some p =>
        if s.now < s.passEnd cid p then s.atCycle (s.passEnd cid p) (.passComplete cid)
        else
          let s1 : State := s.updCore cid fun c => { c.updAcc p.c (·.after p) with pass := none, late := c.late ++ p.owed }
          let s2 : State := match p.stop with
            | some z => s1.holdFault p.who z.2 0
            | none => s1
          (if p.last then s2.readDone cid p.t p.tok else s2).mxKick cid
    | _ => s)

/-! MDRN and MSTAT (R232, R233, R340). -/

/-- MDRN (R232). -/
def mdrnOp (h : Hdr) (t : TileNo) (ra : SReg) (sat : Bool) (code : BitVec 3) (c : AccNo) (s : State) : Except State State := do
  match s.doneVal with
  | some _ => return commitNext s h .drops (loneW h || (sat && (code == 3#3 || code == 4#3)))
  | none =>
    let s ← deliver s
    gateC { Uses.none with sr := if code = 6#3 then [ra] else [] } s
    let k := s.myCore
    let a := k.accAt c.toNat
    let x := k.tile t.toNat
    let n := drainBytes code.toNat
    if k.busyAcc c.toNat || x.st != .empty || k.drain.isSome then notReady s
    else if a.inv then raise s 6 0x7A 0
    else if x.size < n || !k.tileScratch t.toNat then raise s 6 0x61 0
    else if a.pois && k.mctl.getLsbD 1 then raise s 6 0x7B 0
    else
      let (tok, s1) := s.fresh
      let d : Drain := { tok := tok, who := s.meWho, c := c.toNat, t := t.toNat, code := code.toNat, sat := sat,
                         scale := (s.regVal ra).toNat % 1024, mode := s.fmode }
      let s2 : State := s1.updMyCore fun k =>
        { k.updTile t.toNat (fun x => { x.arm n with pois := a.pois }) with drain := some d }
      holdOn (s2.after s.cur.cid 40 (.drainComplete s.cur.cid)) tok

/-- MDRN (R232). -/
def execMdrn (h : Hdr) (t : TileNo) (ra : SReg) (sat : Bool) (code : BitVec 3) (c : AccNo) (s : State) :
    Host.Outcome State Fault Refusal := .next (run (mdrnOp h t ra sat code c s))

/-- The spall entries of a drained accumulator, with the carries for it that have still to be posted. -/
def Core.drained (c : Core) (k : Nat) : List Spall :=
  (c.late.filter fun l => l.acc == k).foldl (fun sp l =>
    let d : Int := if l.carry.up then 1 else -1
    if sp.any fun e => e.acc == k && e.row == l.carry.row && e.col == l.carry.col then
      sp.map fun e => if e.acc == k && e.row == l.carry.row && e.col == l.carry.col then { e with cnt := e.cnt + d } else e
    else sp ++ [{ ent := 64, acc := k, row := l.carry.row, col := l.carry.col, cnt := d }]) c.spall

/-- A bank that a tile lies in is waking. -/
def Core.tileWaking (c : Core) (t : Nat) : Bool :=
  let x := c.tile t
  (List.range 32).any fun b => c.waking.getLsbD b && decide (x.base < (b + 1) * 0x8000) && decide (b * 0x8000 < x.base + x.size)

/-- A drain completes: the values stand in the tile, the accumulator is zero, and its spall entries are free, for a carry that waits in
the following cycle (R232, R340).  An uncorrectable error among the tile's bytes is the MDRN's trap, which leaves accumulator, tile and
fst unchanged (R300; DESIGN CHOICE, log entry 31). -/
def execDrainComplete (s : State) : Host.Outcome State Fault Refusal :=
  .next (match s.evt with
    | .drainComplete cid =>
      let c := s.core cid
      match c.drain with
      | none => s
      | some d =>
        -- the writes to a bank that wakes hold the thread until it has woken (R184)
        if c.tileWaking d.t then s.after cid 1 (.drainComplete cid)
        else
        match s.tileBad cid d.t 0 (drainBytes d.code) with
        | some x => ((s.updCore cid fun c => { c.updTile d.t (fun x => { x with st := .empty, pois := false }) with drain := none }).updThere
            d.who fun t => t.wake d.tok (.fail { cause := 0x31, addr := x })).tileChanged cid
        | none =>
        let a := c.accAt d.c
        let out := drainAll a (c.drained d.c) d.c d.code d.sat d.scale d.mode
        let s1 : State := (s.putTile cid d.t 0 out.1).updCore cid fun c =>
          { (c.updAcc d.c fun a => { Acc.zero with fp := a.fp, inv := a.inv }).updTile d.t fun x =>
              { x with st := .ready, arrived := x.expected } with
            drain := none, spall := c.spall.filter fun e => e.acc != d.c, late := c.late.filter fun l => l.acc != d.c }
        (s1.updWho d.who fun t => (t.orFst (a.flags ||| out.2)).wake d.tok (.done 0#64)).tileChanged cid
    | _ => s)

/-- MSTAT's value (R233). -/
def Core.accWord (c : Core) (k : Nat) : W64 :=
  let a := c.accAt k
  let f (i n : Nat) : Nat := bit01 (a.flags.getLsbD i) * 2 ^ n
  let sh := match c.shadow with
    | .empty => 0
    | .loading _ _ _ => 1
    | .full _ => 2
  BitVec.ofNat 64 (c.mq.length * 2 ^ 24 + bit01 c.active.isSome * 2 ^ 18 + sh * 2 ^ 16 +
    c.spall.countP (fun e => e.acc == k) * 2 ^ 8 + f 7 7 + f 4 6 + f 3 5 + f 2 4 + f 0 3 + bit01 a.inv * 4 +
    bit01 a.pois * 2 + bit01 a.fp)

/-- MSTAT (R233). -/
def execMstat (h : Hdr) (rb : SReg) (c : AccNo) (s : State) : Host.Outcome State Fault Refusal :=
  .next (run (do
    let s ← deliver s
    gateC { Uses.none with sw := [rb] } s
    if s.myCore.busyAcc c.toNat then notReady s
    else return (commitNext s h .drops (loneW h)).valueLater rb (s.myCore.accWord c.toNat) 2))

/-! MXSW (R234). -/

/-- The mirror of a core in its group. -/
def mirrorOf (cid : Nat) : Nat := cid / 16 * 16 + (15 - cid % 16)

/-- MXSW (R234). -/
def execMxsw (h : Hdr) (t : TileNo) (s : State) : Host.Outcome State Fault Refusal :=
  .next (run (match s.doneVal with
    | some _ => .ok (commitNext s h .drops (loneW h))
    | none => do
      let s ← deliver s
      gateC Uses.none s
      tileReady s t.toNat
      let (tok, s1) := s.fresh
      let s2 : State := s1.updMyCore fun c =>
        { c.updTile t.toNat (fun x => { x with readers := x.readers ++ [tok] }) with
          mxsw := c.mxsw ++ [{ tile := t.toNat, who := s.meWho, tok := tok, begun := false }] }
      holdOn (s2.urgent (.mxswPair s.cur.cid t.toNat)) tok))

/-- The oldest MXSW of a tile on a core that waits for its partner. -/
def Core.mxswOf (c : Core) (t : Nat) (begun : Bool) : Option Mxsw := c.mxsw.find? fun m => m.tile == t && m.begun == begun

/-- A write outside its regions by a thread's engine command marks the thread's tasks (R384). -/
def State.markOf (s : State) (w : Who) : State :=
  s.markSide (s.partNum w.cid) ((s.whoThread w).bind s.inRev) none

/-- An MXSW is over: its thread goes on as hold says, and its tile has one reader less. -/
def State.mxswEnd (s : State) (cid t : Nat) (m : Mxsw) (hold : Hold) : State :=
  ((s.updCore cid fun c => { c with mxsw := c.mxsw.filter fun x => x.tok != m.tok }).updWho m.who fun th =>
    th.wake m.tok hold).readDone cid t m.tok

/-- Two mirror MXSWs pair: the exchange begins, or both raise TILE_RANGE (R234).  One whose tile a TREL registered before it has emptied
meanwhile pairs all the same, and the exchange takes the tile on to READY (DESIGN CHOICE, log entry 82). -/
def execMxswPair (s : State) : Host.Outcome State Fault Refusal :=
  .next (match s.evt with
    | .mxswPair cid t =>
      let o := mirrorOf cid
      match (s.core cid).mxswOf t false, (s.core o).mxswOf t false with
      | some a, some b =>
        let n := ((s.core cid).tile t).size
        if n != ((s.core o).tile t).size then
          let f : Hold := .fail { cause := 0x61, addr := 0 }
          (s.mxswEnd cid t a f).mxswEnd o t b f
        else
          let go (s : State) (cid : Nat) (m : Mxsw) : State := s.updCore cid fun c =>
            { c.updTile t (fun x => { x with st := .draining }) with
              mxsw := c.mxsw.map fun x => if x.tok == m.tok then { x with begun := true } else x }
          (go (go s cid a) o b).after cid (6 + n / 64) (.mxswComplete cid t)
      | _, _ => s
    | _ => s)

/-- The exchange is complete: each thread has written the other core's tile, which is a side effect of its tasks (R234, R384).  With an
uncorrectable error in either tile both instructions take the cause, and the tiles stay as they are (R300; DESIGN CHOICE, log entry
31). -/
def execMxswComplete (s : State) : Host.Outcome State Fault Refusal :=
  .next (match s.evt with
    | .mxswComplete cid t =>
      let o := mirrorOf cid
      match (s.core cid).mxswOf t true, (s.core o).mxswOf t true with
      | some a, some b =>
        let x := (s.core cid).tile t
        let y := (s.core o).tile t
        let xs := s.tileBytes cid t 0 x.size
        let ys := s.tileBytes o t 0 y.size
        match (s.tileBad cid t 0 x.size).or (s.tileBad o t 0 y.size) with
        | some e =>
          let f : Hold := .fail { cause := 0x30, addr := e }
          let back (z : Tile) : Tile := { z with st := .ready }
          (((((s.updTile cid t back).updTile o t back).mxswEnd cid t a f).mxswEnd o t b f).tileChanged cid).tileChanged o
        | none =>
        let s1 : State := (((s.putTile cid t 0 ys).putTile o t 0 xs).markOf a.who).markOf b.who
        let s2 : State := (s1.updTile cid t fun z => { z with st := .ready, pois := y.pois }).updTile o t fun z =>
          { z with st := .ready, pois := x.pois }
        (((s2.mxswEnd cid t a (.done 0#64)).mxswEnd o t b (.done 0#64)).tileChanged cid).tileChanged o
      | _, _ => s
    | _ => s)

end Sys2Proof.Machine
end

