-- ==== Sys2Proof/Machine/Memory.lean ====
section
/-! DEFINITION. The memory family: loads and stores (R172), full/empty access (R173, R176), atomics (R177, R179), FENCE
(R180), CMO (R181), MOVB and SETB (R182, R183), BCFG (R184, R186) and the FIFO windows (R185). -/

namespace Sys2Proof.Machine

/-- A physical address lies in a FIFO bank. -/
def State.inFifo (s : State) (pa : Nat) : Bool :=
  match s.loc pa with
  | .scratch c off => (s.core c).bank (off / 0x8000) == bankFifo
  | _ => false

/-- A window of a FIFO bank: a scalar access there holds its thread, one in the wrong direction until it fails (R185). -/
def State.inWindow (s : State) (pa n : Nat) : Bool := s.inFifo pa && (inPop (pa % 0x8000) n || inPush (pa % 0x8000) n)

/-- Sends a request that holds its thread. -/
def sendHold (s : State) (r : Req) : Except State State := do
  let s1 ← send s { r with holds := true }
  holdOn s1 r.tok

/-! LD, LDS, ST (R172). -/

/-- A load's answer from L1: nothing earlier of its thread is still to be performed on its bytes. -/
def State.l1Answers (s : State) (r : Req) : Bool :=
  r.l1 && (s.core s.cur.cid).l1Hit r.pa r.n && !s.blocks r && (s.homeCause s.cur.cid r.own true r.pa r.n 0).isNone

/-- A load answered by L1 (R302, R310). -/
def State.l1Load (s : State) (r : Req) (sext : Bool) : State :=
  let bs := (s.core s.cur.cid).l1Bytes r.pa r.n
  ((s.l1Use s.cur.cid r.pa id).addReq { r with st := .performed, res := oldValue sext r.n (leVal bs) }).after s.cur.cid
    (l1Latency + r.lat) (.loadResponse r.tok)

/-- Where the result of a load into rd goes. -/
def destOf : SReg → RDest
  | .s n => .s n
  | _ => .none

/-- LD and LDS: n bytes at va, as an acquire at a scope or a plain load; w says that a fallback of R62 was taken. -/
def loadOp (h : Hdr) (rd ra : SReg) (n : Nat) (va : State → W64) (sext acq : Bool) (sc : Scope) (w : Bool) (s : State) :
    Except State State := do
  gateC { Uses.none with sr := [ra], sw := [rd] } s
  match s.doneVal with
  | some v => return (commitNext s h (extUse h) w).writeMine rd (oldValue sext n v.toNat)
  | none =>
    memGate s
    let (x, s1) ← access s (va s) n n needLoad false
    travFirst s1 x 0
    let lvl := s1.myLevel x.va
    let (tok, s2) := s1.fresh
    let r := { s2.newReq tok (.load sext) x n 0 with
      acq := acq, wide := sc != .core, pod := sc == .pod, lvl := lvl, dst := destOf rd, homes := [s2.homeOf x.pa],
      l1 := s2.usesL1 x lvl }
    if s2.inWindow x.pa n then
      sendHold s2 { r with kind := if inPop (x.pa % 0x8000) n then .pop else .load sext, dst := .none }
    else if s2.l1Answers r then
      return ((commitNext s2 h (extUse h) w).awaitS rd).l1Load { r with homes := [] } sext
    else
      let s3 ← send s2 r
      return (commitNext s3 h (extUse h) w).awaitS rd

/-- The fallbacks of R62 for a load's and a store's ord and sc. -/
def ordFallback (m : MemMod) (bad : Bool) : Bool := bad || (m.ord == 0#2 && m.sc != .core)

def accSize (m : MemMod) : Nat := 2 ^ m.sz.toNat

/-- LD (R172). -/
def execLd (h : Hdr) (rd ra : SReg) (m : MemMod) (s : State) : Host.Outcome State Fault Refusal :=
  .next (run (loadOp h rd ra (accSize m) (fun s => s.effAddr h ra m.dsp (accSize m)) false (m.ord != 0#2)
    m.sc (ordFallback m (m.ord.getLsbD 1)) s))

/-- LDS (R172); a dword is loaded as by LD (R62). -/
def execLds (h : Hdr) (rd ra : SReg) (m : MemMod) (s : State) : Host.Outcome State Fault Refusal :=
  .next (run (loadOp h rd ra (accSize m) (fun s => s.effAddr h ra m.dsp (accSize m)) true (m.ord != 0#2)
    m.sc (ordFallback m (m.ord.getLsbD 1 || m.sz == 3#2)) s))

/-- ST: a posted store (R172), or a push, which holds its thread (R185). -/
def storeOp (h : Hdr) (rd ra : SReg) (m : MemMod) (s : State) : Except State State := do
  gateC { Uses.none with sr := [rd, ra] } s
  let w := ordFallback m (m.ord.getLsbD 0)
  match s.doneVal with
  | some _ => return commitNext s h (extUse h) w
  | none =>
    memGate s
    let n := accSize m
    let rel := m.ord != 0#2
    let wide := m.sc != .core
    let (x, s1) ← access s (s.effAddr h ra m.dsp n) n n needStore false
    travFirst s1 x 1
    if s1.inWindow x.pa n then
      let (tok, s2) := s1.fresh
      let kind : ReqKind := if inPush (x.pa % 0x8000) n then .push (toLe n (s.regVal rd).toNat) else .store (s.regVal rd)
      let r := { s2.newReq tok kind x n 1 with rel := rel, wide := wide, pod := m.sc == .pod, homes := [s2.homeOf x.pa] }
      sendHold s2 r
    else
      let s2 ← postStore s1 x n (s.regVal rd) rel wide (m.sc == .pod)
      return commitNext s2 h (extUse h) w

/-- ST (R172). -/
def execSt (h : Hdr) (rd ra : SReg) (m : MemMod) (s : State) : Host.Outcome State Fault Refusal :=
  .next (run (storeOp h rd ra m s))

/-! Full/empty access (R173 to R176). -/

/-- Whether the scope that R173 gives a full/empty access is wider than core. -/
def State.feWide (s : State) (cid pa : Nat) : Bool :=
  match s.loc pa with
  | .scratch c _ => c != cid
  | _ => true

def FeOp.acquires (op : FeOp) : Bool := op == .ldf || op == .ldfe

def FeOp.releases (op : FeOp) : Bool := op == .stef || op == .stf || op == .set

/-- The last cycle in which a full/empty wait that starts now may end; a limit of 0 is none (R175). -/
def State.waitLimit (s : State) : Option Nat :=
  let n := s.me.csr.wlim.toNat
  if n = 0 then none else some (s.dieAfter (dieOf s.cur.cid) s.now n)

/-- A full/empty or tag operation: it holds its thread until it is performed at the word's home. -/
def feOp (h : Hdr) (op : FeOp) (rd ra : SReg) (va : State → W64) (ext : ExtUse) (w : Bool) (s : State) :
    Except State State := do
  let loads := op == .ldf || op == .ldfe || op == .get
  gateC { Uses.none with sr := if op.writes then [rd, ra] else [ra], sw := if loads then [rd] else [] } s
  match s.doneVal with
  | some v =>
    let s1 : State := commitNext s h ext w
    return (if loads then s1.writeMine rd v else s1)
  | none =>
    memGate s
    let (x, s1) ← access s (va s) 8 8 op.need true
    travFirst s1 x 3
    let lvl := s1.myLevel x.va
    if op.need.w then roCheck s1 x.va 3
    -- the core's own dirty bytes of the word are performed first (R265; DEDUCED, log entry 14); a line with an uncorrectable error
    -- stays for the access to find (R300)
    let s2 : State := if s1.usesL1 x lvl then (s1.l1Clean s.cur.cid fun l => l.line == x.pa / 32 && !l.spoilt).2 else s1
    let (tok, s3) := s2.fresh
    let r := { s3.newReq tok (.fe op (if op.writes then s.regVal rd else 0#64)) x 8 3 with
      lvl := lvl, acq := op.acquires, rel := op.releases, wide := s3.feWide s.cur.cid x.pa,
      pod := decide (2 ^ 48 ≤ x.pa), homes := [s3.homeOf x.pa], limit := s.waitLimit }
    sendHold s3 r

/-- The address of a 0x17 form: dsp counts 8-byte units (R167). -/
def feAddr (h : Hdr) (ra : SReg) (m : FeMod) (s : State) : W64 := s.effAddr h ra m.dsp 8

/-- ord ≠ 00 is ignored with W (R62); so is a scope on a form that has none to give. -/
def feFallback (m : FeMod) : Bool := m.ord != 0#2 || m.sc != .core

/-- LDF (R173). -/
def execLdf (h : Hdr) (rd ra : SReg) (m : FeMod) (s : State) : Host.Outcome State Fault Refusal :=
  .next (run (feOp h .ldf rd ra (feAddr h ra m) (extUse h) (feFallback m) s))

/-- LDFE (R173). -/
def execLdfe (h : Hdr) (rd ra : SReg) (m : FeMod) (s : State) : Host.Outcome State Fault Refusal :=
  .next (run (feOp h .ldfe rd ra (feAddr h ra m) (extUse h) (feFallback m) s))

/-- STEF (R173). -/
def execStef (h : Hdr) (rd ra : SReg) (m : FeMod) (s : State) : Host.Outcome State Fault Refusal :=
  .next (run (feOp h .stef rd ra (feAddr h ra m) (extUse h) (feFallback m) s))

/-- STF (R173). -/
def execStf (h : Hdr) (rd ra : SReg) (m : FeMod) (s : State) : Host.Outcome State Fault Refusal :=
  .next (run (feOp h .stf rd ra (feAddr h ra m) (extUse h) (feFallback m) s))

/-- FECLR (R176). -/
def execFeclr (h : Hdr) (ra : SReg) (s : State) : Host.Outcome State Fault Refusal :=
  .next (run (feOp h .clr .zr ra (fun s => s.regVal ra) .drops (loneW h) s))

/-- FEGET (R176). -/
def execFeget (h : Hdr) (rd ra : SReg) (s : State) : Host.Outcome State Fault Refusal :=
  .next (run (feOp h .get rd ra (fun s => s.regVal ra) .drops (loneW h) s))

/-- FESET (R176). -/
def execFeset (h : Hdr) (ra : SReg) (s : State) : Host.Outcome State Fault Refusal :=
  .next (run (feOp h .set .zr ra (fun s => s.regVal ra) .drops (loneW h) s))

/-! AMO and CAS (R177 to R179): at the home, ordered at pkg or pod scope (R56). -/

/-- An atomic of n bytes at ra. -/
def atomicOp (h : Hdr) (kind : ReqKind) (rd ra : SReg) (u : Uses) (n : Nat) (od : BitVec 2) (w : Bool) (s : State) :
    Except State State := do
  gateC u s
  memGate s
  let (x, s1) ← access s (s.regVal ra) n n needAtomic true
  travFirst s1 x 3
  let lvl := s1.myLevel x.va
  roCheck s1 x.va 3
  let (tok, s2) := s1.fresh
  let s3 ← send s2 { s2.newReq tok kind x n 3 with
    lvl := lvl, acq := od.getLsbD 0, rel := od.getLsbD 1, wide := true, pod := decide (2 ^ 48 ≤ x.pa), dst := destOf rd, homes := [s2.homeOf x.pa] }
  return (commitNext s3 h .drops (loneW h || w)).awaitS rd

/-- AMO: op on a word or a dword (R177). -/
def amoInstr (h : Hdr) (op : AmoOp) (rd ra rb : SReg) (w : Bool) (od : BitVec 2) (s : State) : Except State State :=
  let word := w || op == .fadd
  atomicOp h (.amo op (s.regVal rb)) rd ra { Uses.none with sr := [ra, rb], sw := [rd] } (if word then 4 else 8) od
    (op == .fadd && !w) s

/-- AMO add (R177). -/
def execAmoAdd (h : Hdr) (rd ra rb : SReg) (w : Bool) (od : BitVec 2) (s : State) : Host.Outcome State Fault Refusal :=
  .next (run (amoInstr h .add rd ra rb w od s))

/-- AMO and (R177). -/
def execAmoAnd (h : Hdr) (rd ra rb : SReg) (w : Bool) (od : BitVec 2) (s : State) : Host.Outcome State Fault Refusal :=
  .next (run (amoInstr h .and rd ra rb w od s))

/-- AMO or (R177). -/
def execAmoOr (h : Hdr) (rd ra rb : SReg) (w : Bool) (od : BitVec 2) (s : State) : Host.Outcome State Fault Refusal :=
  .next (run (amoInstr h .or rd ra rb w od s))

/-- AMO xor (R177). -/
def execAmoXor (h : Hdr) (rd ra rb : SReg) (w : Bool) (od : BitVec 2) (s : State) : Host.Outcome State Fault Refusal :=
  .next (run (amoInstr h .xor rd ra rb w od s))

/-- AMO smin (R177). -/
def execAmoSmin (h : Hdr) (rd ra rb : SReg) (w : Bool) (od : BitVec 2) (s : State) : Host.Outcome State Fault Refusal :=
  .next (run (amoInstr h .smin rd ra rb w od s))

/-- AMO smax (R177). -/
def execAmoSmax (h : Hdr) (rd ra rb : SReg) (w : Bool) (od : BitVec 2) (s : State) : Host.Outcome State Fault Refusal :=
  .next (run (amoInstr h .smax rd ra rb w od s))

/-- AMO nmin (R177). -/
def execAmoNmin (h : Hdr) (rd ra rb : SReg) (w : Bool) (od : BitVec 2) (s : State) : Host.Outcome State Fault Refusal :=
  .next (run (amoInstr h .nmin rd ra rb w od s))

/-- AMO nmax (R177). -/
def execAmoNmax (h : Hdr) (rd ra rb : SReg) (w : Bool) (od : BitVec 2) (s : State) : Host.Outcome State Fault Refusal :=
  .next (run (amoInstr h .nmax rd ra rb w od s))

/-- AMO swap (R177). -/
def execAmoSwap (h : Hdr) (rd ra rb : SReg) (w : Bool) (od : BitVec 2) (s : State) : Host.Outcome State Fault Refusal :=
  .next (run (amoInstr h .swap rd ra rb w od s))

/-- AMO fadd, always of a word (R62, R177, R178). -/
def execAmoFadd (h : Hdr) (rd ra rb : SReg) (w : Bool) (od : BitVec 2) (s : State) : Host.Outcome State Fault Refusal :=
  .next (run (amoInstr h .fadd rd ra rb w od s))

/-- CAS (R179). -/
def execCas (h : Hdr) (rd ra rb : SReg) (w : Bool) (od : BitVec 2) (s : State) : Host.Outcome State Fault Refusal :=
  .next (run (atomicOp h (.cas (s.regVal rd) (s.regVal rb)) rd ra
    { Uses.none with sr := [rd, ra, rb], sw := [rd] } (if w then 4 else 8) od false s))

/-! FENCE (R180). -/

/-- FENCE: a request of no bytes that is performed once those before it are, as ord and scope say. -/
def fenceOp (h : Hdr) (lb : Bool) (sc : Scope) (od : BitVec 2) (s : State) : Except State State := do
  gateC Uses.none s
  match s.doneVal with
  | some _ => return commitNext s h .drops (loneW h || od == 0#2)
  | none =>
    memGate s
    let (tok, s1) := s.fresh
    sendHold s1 { s1.newReq tok (.value 0#64) { va := 0, pa := 0, w1 := 0#64, own := true, extra := 0 } 0 0 with
      acq := od != 2#2, rel := od != 1#2, wide := sc != .core, pod := sc == .pod, all := lb }

/-- FENCE (R180). -/
def execFence (h : Hdr) (lb : Bool) (sc : Scope) (od : BitVec 2) (s : State) : Host.Outcome State Fault Refusal :=
  .next (run (fenceOp h lb sc od s))

/-! CMO (R181). -/

/-- In the mesh window (R301). -/
def inMesh (va : Nat) : Bool := decide (Config.meshBase ≤ va) && decide (va < Config.meshBase + 2 ^ 31)

/-- What a range instruction has done: the bytes dealt with, the cycles spent on lines, and the cycle, counted from its start, in
which its last write is acknowledged. -/
structure Range where
  done : Nat
  lines : Nat
  ack : Nat

/-- The cycles for which a range instruction holds its thread (R181). -/
def Range.hold (r : Range) : Nat := max r.lines r.ack

/-- A range instruction at a page that is not in the TLBs, or without its slots: what has been done stays done (R181, R252, R354). -/
def Range.wait {α : Type} (r : Range) (start : Nat) (s e : State) : Except State α :=
  if r.done = start then .error e else holdPart s [r.done, r.lines, r.ack] 1

/-- Applies f to each page's part of a range from where it stands, translated; skip says that addresses of the two aliases of
scratchpad are passed over.  f answers the lines of its part, its index in them and latency of the last write, and the state. -/
def overRange (skip : Bool) (nd : Need) (f : State → Xl → Nat → Except State (Nat × Option (Nat × Nat) × State))
    (va n start : Nat) : Nat → State → Range → Except State (Range × State)
  | 0, s, r => .ok (r, s)
  | fuel + 1, s, r =>
    if n ≤ r.done then .ok (r, s)
    else
      let a := (va + r.done) % 2 ^ 64
      let k := min (n - r.done) (0x10000 - a % 0x10000)
      if skip && (a < 0x100000 || inMesh a) then overRange skip nd f va n start fuel s { r with done := r.done + k }
      else
        match access s (BitVec.ofNat 64 a) 1 1 nd true with
        | .error e => if e.cur.res = .notReady then r.wait start s e else .error e
        | .ok (x, s1) =>
          match f s1 x k with
          | .error e => if e.cur.res = .notReady then r.wait start s e else .error e
          | .ok (l, w, s2) =>
            overRange skip nd f va n start fuel s2
              { done := r.done + k, lines := r.lines + l + x.extra
                ack := match w with
                  | some (i, lat) => max r.ack (r.lines + x.extra + i + lat)
                  | none => r.ack }

/-- Where a range instruction starts, or goes on. -/
def State.rangeFrom (s : State) : Range :=
  match s.progress with
  | some [d, l, a] => { done := d, lines := l, ack := a }
  | _ => { done := 0, lines := 0, ack := 0 }

/-- The cleaning of lines by a bundle of access code acc finds an uncorrectable error in one: the lines are dealt with, and the
cause is the bundle's, with the address that the bundle has for the line (R168, R169, R300). -/
def spoiltStop (s s' : State) (acc : Nat) (p : L1Line → Bool) (addr : Nat → Nat) : Except State Unit :=
  match s.spoiltLine s.cur.cid p with
  | some a => raise s' 6 (memCause 4 acc) (addr a)
  | none => .ok ()

/-- The address by which a range from x names a line, or the first byte of it that lies in the range. -/
def Xl.lineVa (x : Xl) (a : Nat) : Nat := x.va + (max a x.pa - x.pa)

/-- The requests with which a part of a range instruction deals with lines of a size at their homes: none leaves until each of the
homes has a slot free, and each keeps one until the last is answered (R354; DESIGN CHOICE, log entry 76). -/
def State.lineSlots (s : State) (size : Nat) (ls : List Nat) (cycles : Nat) : Except State State :=
  let hs := (ls.map fun l => s.homeOf (l * size)).eraseDups
  if !s.portFree s.cur.cid hs then notReady s
  else .ok (ls.foldl (fun s l => s.noteMet (l * size) true cycles) s)

/-- Lines of a size that k bytes at pa overlap. -/
def linesOf (size pa k : Nat) : Nat := (pa + k - 1) / size + 1 - pa / size

def L1Line.over (l : L1Line) (pa k : Nat) : Bool := decide (pa / 32 ≤ l.line) && decide (l.line ≤ (pa + k - 1) / 32)

def L2Line.over (l : L2Line) (pa k : Nat) : Bool := decide (pa / 256 ≤ l.line) && decide (l.line ≤ (pa + k - 1) / 256)

/-- The operations of CMO. -/
inductive CmoOp where
  | clean
  | inval
  | flush
  deriving DecidableEq, Repr

/-- The access code of an operation (R168). -/
def CmoOp.acc : CmoOp → Nat
  | .clean => 0
  | _ => 1

/-- The last write of a part: of some lines of a size that a range from pa overlaps, the place of the highest among them and the
latency of its own home (R181). -/
def State.lastWrite (s : State) (pa size : Nat) (hit : Bool) (ls : List Nat) : Option (Nat × Nat) :=
  ls.max?.map fun l => (l - pa / size, latency s.cur.cid (s.loc (l * size)) false hit)

/-- The bytes of k at x's address that lie in line l of a size. -/
def Xl.inLine (x : Xl) (k size l : Nat) : Xl × Nat :=
  let a := max x.pa (l * size)
  ({ x with va := x.va + (a - x.pa), pa := a }, min (x.pa + k) ((l + 1) * size) - a)

/-- The first of some lines, of a size, that a range of k bytes overlaps whose home refuses it: its part of the range, and the
cause (R181, R297). -/
def State.refusedLine (s : State) (x : Xl) (k size acc : Nat) (ls : List Nat) : Option (Xl × Nat × Nat) :=
  ls.findSome? fun l =>
    let y := x.inLine k size l
    (s.refusal s.cur.cid x.own false y.1.pa y.2 acc).map fun c => (y.1, y.2, c)

/-- CMO in the issuing core's L1. -/
def cmoL1 (op : CmoOp) (s : State) (x : Xl) (k : Nat) : Except State (Nat × Option (Nat × Nat) × State) := do
  let cid := s.cur.cid
  let meets (l : L1Line) : Bool := l.over x.pa k
  let dirty := if op = .inval then [] else ((s.core cid).l1.filter fun l => meets l && l.dirty != 0#32).map (·.line)
  match s.refusedLine x k 32 op.acc dirty with
  | some y => failLater s y.1 y.2.1 op.acc y.2.2
  | none =>
    let last := s.lastWrite x.pa 32 true dirty
    let s0 ← s.lineSlots 32 dirty ((last.map fun w => w.1 + w.2).getD 0)
    let s1 : State := if op = .inval then s0 else (s0.l1Clean cid meets).2
    if op != .inval then spoiltStop s0 s1 op.acc meets x.lineVa
    return (linesOf 32 x.pa k, last, if op = .clean then s1 else s1.l1Drop cid meets)

/-- CMO at the home slices: a clean makes HBM hold the dirty bytes, an inval gives back what HBM held. -/
def cmoL2 (op : CmoOp) (s : State) (x : Xl) (k : Nat) : Except State (Nat × Option (Nat × Nat) × State) :=
  match s.loc x.pa with
  | .remote _ => .ok (0, none, s)
  | _ =>
    let ls := (List.range (linesOf 256 x.pa k)).map (x.pa / 256 + ·)
    match s.refusedLine x k 256 op.acc ls with
    | some y => failLater s y.1 y.2.1 op.acc y.2.2
    | none => do
      let s ← s.lineSlots 256 ls (((s.lastWrite x.pa 256 false ls).map fun w => w.1 + w.2).getD 0)
      let hit := s.l2.filter fun l => l.over x.pa k
      let dirty := if op = .inval then [] else (hit.filter fun l => !l.under.isEmpty).map (·.line)
      let m := if op = .inval then hit.foldl (fun m l => l.under.foldl (fun m c => Memory.put m c.1 c.2) m) s.mem else s.mem
      let l2 := if op = .clean then s.l2.map fun l => if l.over x.pa k then { l with under := [] } else l
        else s.l2.filter fun l => !l.over x.pa k
      return (linesOf 256 x.pa k, s.lastWrite x.pa 256 false dirty, { s with mem := m, l2 := l2 })

/-- CMO (R181). -/
def cmoOp (h : Hdr) (op : CmoOp) (ra rb : SReg) (l2 : Bool) (s : State) : Except State State := do
  if op = .inval && l2 && !s.me.sys then raise s 2 0x07 0
  else
  gateC { Uses.none with sr := [ra, rb] } s
  match s.doneVal, s.progress with
  | some _, none => return commitNext s h .drops (loneW h)
  | _, _ =>
    memGate s
    let n := (s.regVal rb).toNat
    if n = 0 then return commitNext s h .drops (loneW h)
    else
      let r0 := s.rangeFrom
      let (r, s1) ← overRange true (if op = .clean then needLoad else needStore) (if l2 then cmoL2 op else cmoL1 op)
        (s.regVal ra).toNat n r0.done (n / 0x10000 + 2) s r0
      holdFor s1 0#64 r.hold

/-- CMO clean (R181). -/
def execCmoClean (h : Hdr) (ra rb : SReg) (l2 : Bool) (s : State) : Host.Outcome State Fault Refusal :=
  .next (run (cmoOp h .clean ra rb l2 s))

/-- CMO inval (R181). -/
def execCmoInval (h : Hdr) (ra rb : SReg) (l2 : Bool) (s : State) : Host.Outcome State Fault Refusal :=
  .next (run (cmoOp h .inval ra rb l2 s))

/-- CMO flush (R181). -/
def execCmoFlush (h : Hdr) (ra rb : SReg) (l2 : Bool) (s : State) : Host.Outcome State Fault Refusal :=
  .next (run (cmoOp h .flush ra rb l2 s))

/-! MOVB and SETB (R182, R183). -/

/-- What ends a block move before its count: a cause of translation, one that a home gives, a missing page, a wait, or a byte's
write that is held for a version (R308). -/
inductive MvStop where
  | none
  | cause (c va : Nat)
  | home (x : Xl) (acc c : Nat)
  | page (va acc : Nat)
  | wait
  | held (x : Xl) (b : Byte)

/-- The progress of a block move: bytes done and the largest latencies. -/
structure Mv where
  s : State
  k : Nat
  lr : Nat
  lw : Nat
  stop : MvStop

/-- One location of a byte of a block move: its translation, or what stops the move there.  The windows of a FIFO bank are no place
for such a byte: NOMAP through the local alias, BUSERR through the mesh window (R185, R301; DEDUCED, log entry 47). -/
def State.mvXl (s : State) (va : Nat) (nd : Need) : Xl × State × MvStop :=
  let none : Xl := { va := va, pa := 0, w1 := 0#64, own := false, extra := 0 }
  match s.xlate s.cur.cid va 1 1 nd (!s.me.sys) (s.cur.slot == 16) true with
  | .miss => (none, s, .page va nd.acc)
  | .waking => (none, s, .wait)
  | .fault c => (none, s, .cause c va)
  | .ok x s1 =>
    let s1 : State := { s1 with cur := { s1.cur with remote := s1.cur.remote || decide (2 ^ 48 ≤ x.pa) } }
    -- the partition of its bank is away (R392)
    if (s1.awayAt x.pa).isSome then (none, s, .wait)
    else
    match s1.meets x (s1.myLevel va) false 1 nd.acc with
    | some c => (x, s1, .home x nd.acc c)
    | Option.none => (x, s1, .none)

/-- An earlier access of the issuing thread, not yet performed, keeps a plain byte store from being performed: it names the byte,
or is a store to the same home that comes before it there (R265, R281). -/
def State.storeWaits (s : State) (x : Xl) : Bool :=
  let r := { s.newReq s.ctr (.store 0#64) x 1 1 with homes := [s.homeOf x.pa] }
  s.reqs.any fun q => q.who == s.meWho && (q.st == .sent || q.st == .waiting) && (q.meets r || q.sameHome r)

/-- One byte's write, with the checks of R244 and R308; it waits for the thread's earlier stores to that byte and its home (R265,
R281), and for a request slot (R354). -/
def Mv.put (m : Mv) (dst : Nat) (b : Byte) (lr : Nat) : Mv :=
  match m.s.mvXl dst needStore with
  | (x, s, .none) =>
    let lvl := s.myLevel dst
    let pn := s.partNum s.cur.cid
    let inL1 := s.usesL1 x lvl && !s.myCore.ways.isEmpty
    if s.roHit dst then { m with stop := .cause 0x25 dst }
    else if s.storeWaits x || !(inL1 || s.portFree s.cur.cid [s.homeOf x.pa]) then { m with stop := .wait }
    else if s.storeFull pn lvl x.pa then
      if (s.part pn).joins.isEmpty then { m with stop := .cause 0x80 dst }
      else { m with lr := max m.lr lr, lw := max m.lw (s.readLat s.cur.cid x lvl 1), stop := .held x b }
    else
      let lw := s.readLat s.cur.cid x lvl 1
      let t : State := s.storeAt s.cur.cid (s.inRev s.me) x [b]
      { s := if inL1 then t else t.noteMet x.pa true lw, k := m.k + 1, lr := max m.lr lr, lw := max m.lw lw, stop := .none }
  | (_, _, e) => { m with stop := e }

/-- Moves or fills bytes one after the other, from byte k on.  A fill (b, c) puts b + c·k at byte k: c tells how the count of bytes
changes the register that ra names (R182).  A read sees the thread's own stores that wait, and waits for its atomics (R182, R265). -/
def moveGo (fill : Option (Byte × Byte)) (dst src : W64) : Nat → Mv → Mv
  | 0, m => m
  | n + 1, m =>
    let d := (dst + BitVec.ofNat 64 m.k).toNat
    let a := (src + BitVec.ofNat 64 m.k).toNat
    let m1 := match fill with
      | some (b, c) => m.put d (b + c * BitVec.ofNat 8 m.k) 0
      | none =>
        match m.s.mvXl a needLoad with
        | (x, s, .none) =>
          let lvl := s.myLevel a
          if s.ownAtomic x 1 || !s.slotFor x lvl 1 then { m with stop := .wait }
          else
          let (bs, s1) := s.readHere x lvl 1
          { m with s := s1 }.put d (bs.headD 0#8) (s.readLat s.cur.cid x lvl 1)
        | (_, _, e) => { m with stop := e }
    match m1.stop with
    | .none => moveGo fill dst src n m1
    | _ => m1

/-- The registers of a block move after k bytes; whole says that the bundle ends with them, which sends a shared (R36 rule 2). -/
def State.moved (s : State) (rd ra rb : SReg) (fill whole : Bool) (k : Nat) : State :=
  let put (s : State) (r : SReg) (v : W64) : State :=
    match r with
    | .s n => if whole then s.writeMine r v else s.updMe fun t => t.setS n { t.regs.s.get n.toFin with val := v }
    | _ => s
  let n := BitVec.ofNat 64 k
  let s1 : State := put (put s rd (s.regVal rd + n)) rb (s.regVal rb - n)
  if fill then s1 else put s1 ra (s.regVal ra + n)

/-- Bytes of a block move in a cycle: 64 where every byte lies in the own scratchpad through the local alias, else 32 (R182). -/
def moveRate (fill : Bool) (dst src n : Nat) : Nat :=
  if decide (dst + n ≤ 0x100000) && (fill || decide (src + n ≤ 0x100000)) then 64 else 32

/-- The byte that SETB fills with, and what each byte filled adds to it: ra may name rd, which counts up, or rb, which counts down
(R182). -/
def State.fillOf (s : State) (rd ra rb : SReg) : Byte × Byte :=
  ((s.regVal ra).setWidth 8, if ra = .zr then 0#8 else if ra = rd then 1#8 else if ra = rb then 0xFF#8 else 0#8)

/-- The thread is held until the write of one byte of its block move, which waits for a version, is performed (R308); then it goes on
behind that byte. -/
def holdByte (s : State) (x : Xl) (b : Byte) (prog : List Nat) : Except State State :=
  let (tok, s1) := (s.updMe fun t => { t with prog := prog }).fresh
  let r := { s1.newReq tok (.store (b.setWidth 64)) x 1 1 with
    lvl := s1.myLevel x.va, holds := true, homes := [s1.homeOf x.pa], res := partVal }
  holdOn (((s1.addReq r).markWrite x r.lvl).storeShort r) tok

/-- MOVB, or SETB with a fill byte: it moves the bytes of a cycle, and goes on in the next from the registers' committed progress,
until the last byte; then it holds its thread for the latencies (R182, R183).  One of 0 bytes names no location to take a latency from:
it commits at once; and a byte on a TRAV page homed elsewhere is accessed from here, without travel (DESIGN CHOICE, log entry 78). -/
def moveOp (h : Hdr) (rd ra rb : SReg) (fill : Bool) (s : State) : Except State State := do
  let wr := if fill then [rd, rb] else [rd, ra, rb]
  if wr.any (· == .zr) then raise s 2 0x04 0
  else
  gateC { Uses.none with sr := [rd, ra, rb], sw := wr } s
  match s.doneVal, s.progress with
  | some _, none => return commitNext s h .drops (loneW h)
  | _, p =>
    memGate s
    -- the byte that was held has been written
    let s : State := match p with
      | some [_, _, _, 1] => s.moved rd ra rb fill false 1
      | _ => s
    let n := (s.regVal rb).toNat
    if n = 0 && p.isNone then return commitNext s h .drops (loneW h)
    else
      let (lr, lw, q) := match p with
        | some (lr :: lw :: q :: _) => (lr, lw, q)
        | _ => (0, 0, moveRate fill (s.regVal rd).toNat (s.regVal ra).toNat n)
      let f := if fill then some (s.fillOf rd ra rb) else none
      let m := moveGo f (s.regVal rd) (s.regVal ra) (min q n) { s := s, k := 0, lr := lr, lw := lw, stop := .none }
      match m.stop with
      | .cause c va => raise (m.s.moved rd ra rb fill true m.k) 6 c (memAddr c va)
      | .home x acc c => failLater (m.s.moved rd ra rb fill true m.k) x 1 acc c
      | .page va acc => .error ((m.s.moved rd ra rb fill false m.k).waitPage va acc)
      | .wait =>
        if m.k = 0 then notReady m.s else holdPart (m.s.moved rd ra rb fill false m.k) [m.lr, m.lw, q] 1
      | .held x b => holdByte (m.s.moved rd ra rb fill false m.k) x b [m.lr, m.lw, q, 1]
      | .none =>
        if m.k < n then holdPart (m.s.moved rd ra rb fill false m.k) [m.lr, m.lw, q] 1
        else holdFor (m.s.moved rd ra rb fill true m.k) 0#64 (m.lr + m.lw + 1)

/-- MOVB (R182). -/
def execMovb (h : Hdr) (rd ra rb : SReg) (s : State) : Host.Outcome State Fault Refusal :=
  .next (run (moveOp h rd ra rb false s))

/-- SETB (R182). -/
def execSetb (h : Hdr) (rd ra rb : SReg) (s : State) : Host.Outcome State Fault Refusal :=
  .next (run (moveOp h rd ra rb true s))

/-! BCFG (R184, R186). -/

/-- A defined tile that is not EMPTY overlaps a bank (R31). -/
def Tile.blocks (t : Tile) (b : Nat) : Bool :=
  t.st != .empty && decide (t.base < (b + 1) * 0x8000) && decide (b * 0x8000 < t.base + t.size)

/-- Removes the cells of a bank, which then reads as zeros, and empties its tags. -/
def State.zeroBank (s : State) (cid b : Nat) : State :=
  let lo := scratchPa cid (b * 0x8000)
  { s with
    mem := s.mem.filter fun c => !(decide (lo ≤ c.1) && decide (c.1 < lo + 0x8000))
    bad := s.bad.filter fun u => !(decide (lo ≤ u) && decide (u < lo + 0x8000))
    tags := s.tags.filter fun w => !(decide (lo ≤ 8 * w) && decide (8 * w < lo + 0x8000)) }

/-- Bytes of a request lie in a bank. -/
def State.reqInBank (s : State) (cid b : Nat) (r : Req) : Bool :=
  r.spans.any fun x => match s.loc x.1 with
    | .scratch c off => c == cid && off / 0x8000 == b
    | _ => false

/-- Waiters at a bank that leaves its mode fail with NOMAP for their access (R175, R186). -/
def State.failWaiters (s : State) (cid b : Nat) : State :=
  (s.reqs.filter fun r => r.st == .waiting && s.reqInBank cid b r).foldl (fun s r =>
    s.failReq r (memCause 0 r.acc) (s.accLat r)) s

/-- The change of one bank's mode; answers the lines cleaned (R184). -/
def State.bankChange (s : State) (cid b : Nat) (mode : BitVec 2) : Nat × State :=
  let old := (s.core cid).bank b
  let c := if old = bankCache then s.l1Clean cid fun l => l.way == b else (0, s)
  let s1 : State := if old = bankCache then c.2.l1Drop cid fun l => l.way == b else c.2
  let s2 : State := (s1.failWaiters cid b).zeroBank cid b
  let s3 : State := s2.updCore cid fun x =>
    { x.setFifo b [] with bankMode := x.bankMode.set! b mode, waking := x.waking ||| (1#32 <<< b) }
  (c.1, s3)

/-- A bank takes accesses again n cycles after the change of its mode began, or a waking bank once it is zero-filled (R184, R186). -/
def State.bankWake (s : State) (cid b n : Nat) (old mode : BitVec 2) : State :=
  s.after cid (if old = bankOff && mode != bankOff then max n 2048 else n) (.bankWakeDone cid b)

/-- A copy-out of any core has blocks of a bank still to write (R186). -/
def State.outInBank (s : State) (cid b : Nat) : Bool :=
  s.cores.any fun c => c.xfers.any fun x => x.cmd.form == 1 && x.units.any fun u => match s.loc u.pa with
    | .scratch k off => k == cid && off / 0x8000 == b
    | _ => false

/-- BCFG (R184).  The accesses that issued before it are performed first, copy-outs among them (R186).  Its cleaning takes one cycle
for each line, and the change of the modes one more; the spec gives neither time (DESIGN CHOICE, log entry 77). -/
def bcfgOp (h : Hdr) (ra rb : SReg) (s : State) : Except State State := do
  gateC { Uses.none with sr := [ra, rb] } s
  match s.doneVal with
  | some _ => return commitNext s h .drops (loneW h)
  | none =>
    memGate s
    let m := s.regVal ra
    let v := s.regVal rb
    if m.extractLsb' 32 32 != 0#32 || v.extractLsb' 2 62 != 0#62 then raise s 6 0x02 0
    else
      let mode := v.extractLsb' 0 2
      let cid := s.cur.cid
      let c := s.myCore
      let bs := (List.range 32).filter fun b => m.getLsbD b && c.bank b != mode
      if bs.any fun b => c.bank b == bankScratch && c.tiles.toList.any (·.blocks b) then raise s 6 0x60 0
      else if (s.reqs.any fun r => r.st == .sent && bs.any fun b => s.reqInBank cid b r) || bs.any (s.outInBank cid) then notReady s
      else
        let gone (l : L1Line) : Bool := bs.contains l.way
        -- what a bank holds dirty has a store's access code and its physical address (DESIGN CHOICE, log entry 62)
        spoiltStop s (s.l1Clean cid gone).2 1 gone id
        let (k, s1) := bs.foldl (fun (a : Nat × State) b =>
          let (n, s) := a.2.bankChange cid b mode
          (a.1 + n, s)) (0, s)
        -- the first access after the change finds the banks in their new mode
        let s2 : State := bs.foldl (fun s b => s.bankWake cid b (k + 1) (c.bank b) mode) s1
        holdFor s2 0#64 (k + 1)

/-- BCFG (R184). -/
def execBcfg (h : Hdr) (ra rb : SReg) (s : State) : Host.Outcome State Fault Refusal :=
  .next (run (bcfgOp h ra rb s))

end Sys2Proof.Machine
end

