-- ==== Sys2Proof/Machine/Copy.lean ====
section
/-! DEFINITION. The copy engine: commands and their checks (R235 to R243), transfers in time (R293, R343), the import of OCP
MX data (R92 to R94, R241), and the engine error record (R345). -/

namespace Sys2Proof.Machine

/-! Commands (R237 to R241). -/

/-- The fields of an operand word: the tile offset; rows, or 1; bytes of a row at the tile, or elements of a row for X. -/
structure Geom where
  off : Nat
  rows : Nat
  rowb : Nat
  /-- Bytes of a row in the tile. -/
  out : Nat
  deriving DecidableEq, Repr

/-- Element codes of EF (R241). -/
def efOf (ef : Nat) : MxElem :=
  match ef with
  | 0 => .e4m3
  | 1 => .e5m2
  | 2 => .e2m3
  | 3 => .e3m2
  | 4 => .e2m1
  | _ => .int8

/-- The operand word of a form; none where a check of COPY_BADCMD fails (R237, R239 to R241). -/
def geomOf (form : Nat) (o third : Nat) : Option Geom :=
  if form = 3 then
    let g : Geom := { off := bits o 36 20, rows := bits o 21 15, rowb := bits o 0 21, out := bits o 0 21 }
    if bits o 56 8 != 0 || g.off % 64 != 0 || g.rowb % 64 != 0 || g.rowb = 0 || g.rows = 0 || 16384 < g.rows then none
    else some g
  else if form = 4 then
    let k := bits o 0 16
    let n := if bits o 26 1 = 1 then 60 else 30
    let g : Geom := { off := bits o 32 20, rows := bits o 16 7, rowb := k, out := (k + n - 1) / n * 64 }
    if bits o 52 12 != 0 || bits o 27 5 != 0 || 6 ≤ bits o 23 3 || g.off % 64 != 0 || g.rows = 0 || 64 < g.rows ||
        k = 0 || k % 32 != 0 || 16384 < k then none
    else some g
  else
    let g : Geom := { off := bits o 32 20, rows := 1, rowb := bits o 0 21, out := bits o 0 21 }
    if bits o 52 12 != 0 || bits o 21 11 != 0 || g.off % 64 != 0 || g.rowb % 64 != 0 || g.rowb = 0 || 1048576 < g.rowb ||
        (form = 2 && third = 0) then none
    else some g

/-- The checks of R237 in order: a cause with the address recorded for it. -/
def copyCheck (c : Core) (t form addr o third : Nat) : Option Fail :=
  match geomOf form o third with
  | none => some { cause := 0x68, addr := 0 }
  | some g =>
    let x := c.tile t
    if addr % (if form = 4 then 8 else 64) != 0 then some { cause := if form = 1 then 0x29 else 0x28, addr := addr }
    else if form = 3 && third % 4 != 0 then some { cause := 0x28, addr := third }
    else if x.size = 0 || x.size < g.off + g.rows * g.out || !c.tileScratch t then some { cause := 0x61, addr := 0 }
    else none

/-- The engine has its 16 commands: those in the queue and those that have started and not ended (R2, R30; DEDUCED, log entry 86). -/
def Core.cqFull (c : Core) : Bool := decide (16 ≤ c.cq.length + c.xfers.length)

/-- A CPY form: its checks, then the copy queue (R239). -/
def cpyOp (h : Hdr) (form : Nat) (t : TileNo) (ra rb : SReg) (third : Option SReg) (scope : Nat) (s : State) :
    Except State State := do
  gateC { Uses.none with sr := [ra, rb] ++ third.toList } s
  memGate s
  let th := (third.map s.regVal).getD 0#64
  match copyCheck s.myCore t.toNat form (s.regVal ra).toNat (s.regVal rb).toNat th.toNat with
  | some f => raise s 6 f.cause f.addr
  | none =>
    if form = 1 then tileReady s t.toNat
    if s.myCore.cqFull then notReady s
    else
      let (tok, s1) := (commitNext s h .drops (loneW h)).fresh
      let q : CopyCmd :=
        { tok := tok, who := s.meWho, tile := t.toNat, form := form, addr := (s.regVal ra).toNat, opnd := s.regVal rb,
          third := th, scope := scope, block := none, blockAddr := 0, lvlFam := s.inRev s.me, sys := s.me.sys,
          fam := s.me.fam, tag := s.ownerTag s.me, from_ := s.now, armed := false, gone := [] }
      return (s1.updMyCore fun c => { c with cq := c.cq ++ [q] }).urgent (.copyCommandStart s.cur.cid)

/-- The scalar register after one of s0 to s14 (R57). -/
def SReg.after : SReg → Option SReg
  | .s n => some (.s (n + 1#4))
  | _ => none

/-- CPY.G2T (R239). -/
def execCpyG2t (h : Hdr) (t : TileNo) (ra rb : SReg) (s : State) : Host.Outcome State Fault Refusal :=
  .next (run (cpyOp h 0 t ra rb none 0 s))

/-- CPY.T2G (R239). -/
def execCpyT2g (h : Hdr) (t : TileNo) (ra rb : SReg) (sc : Scope) (s : State) : Host.Outcome State Fault Refusal :=
  .next (run (cpyOp h 1 t ra rb none sc.code s))

/-- CPY.MC (R239). -/
def execCpyMc (h : Hdr) (t : TileNo) (ra rb : SReg) (s : State) : Host.Outcome State Fault Refusal :=
  .next (run (cpyOp h 2 t ra rb (SReg.after rb) 0 s))

/-- CPY.GX (R240). -/
def execCpyGx (h : Hdr) (t : TileNo) (ra rb : SReg) (s : State) : Host.Outcome State Fault Refusal :=
  .next (run (cpyOp h 3 t ra rb (SReg.after rb) 0 s))

/-- CPY.X (R241). -/
def execCpyX (h : Hdr) (t : TileNo) (ra rb : SReg) (s : State) : Host.Outcome State Fault Refusal :=
  .next (run (cpyOp h 4 t ra rb (SReg.after rb) 0 s))

/-- CPYC: the block is loaded as the bundle issues, and the thread is held until it has arrived (R242, R243). -/
def cpycOp (h : Hdr) (t : TileNo) (ra : SReg) (s : State) : Except State State := do
  gateC { Uses.none with sr := [ra] } s
  match s.doneVal with
  | some _ => return commitNext s h .drops (loneW h)
  | none =>
    memGate s
    let va := s.regVal ra
    if va.toNat % 64 != 0 then raise s 6 0x28 va.toNat
    else if s.myCore.cqFull then notReady s
    else
      let (x, _) ← access s va 1 1 needLoad true
      let lat := s.readLat s.cur.cid x (s.myLevel x.va) 64
      let (bs, s2) ← readNow s va 64 64
      let w (i : Nat) : W64 := BitVec.ofNat 64 (leVal ((bs.drop (8 * i)).take 8))
      let d3 := (w 3).toNat
      let at_ := s.now + s.ticks (dieOf s.cur.cid) lat
      let (tok, s3) := s2.fresh
      let q : CopyCmd :=
        { tok := tok, who := s.meWho, tile := t.toNat, form := bits d3 0 3, addr := (w 0).toNat, opnd := w 1, third := w 2,
          scope := bits d3 3 3, block := some ((List.range 8).map w), blockAddr := va.toNat, lvlFam := s.inRev s.me,
          sys := s.me.sys, fam := s.me.fam, tag := s.ownerTag s.me, from_ := at_, armed := false, gone := [] }
      holdFor ((s3.updMyCore fun c => { c with cq := c.cq ++ [q] }).atCycle at_ (.copyCommandStart s.cur.cid)) 0#64 lat

/-- CPYC (R243). -/
def execCpyc (h : Hdr) (t : TileNo) (ra : SReg) (s : State) : Host.Outcome State Fault Refusal :=
  .next (run (cpycOp h t ra s))

/-! The fields of a command block (R242). -/

def CopyCmd.word (q : CopyCmd) (i : Nat) : Nat := ((q.block.getD []).getD i 0#64).toNat

def CopyCmd.arms (q : CopyCmd) : Bool := bits (q.word 3) 8 1 == 1

def CopyCmd.armb (q : CopyCmd) : Nat := bits (q.word 3) 32 21

def CopyCmd.mop (q : CopyCmd) : Nat := q.word 4 % 16

def CopyCmd.acc (q : CopyCmd) : Nat := q.word 4 / 16 % 4

def CopyCmd.sw (q : CopyCmd) : Bool := bits (q.word 4) 8 1 == 1

def CopyCmd.mtile (q : CopyCmd) : Nat := bits (q.word 4) 9 6

/-- A command block is ill-formed (R243). -/
def CopyCmd.ill (q : CopyCmd) (c : Core) : Bool :=
  let d3 := q.word 3
  let d4 := q.word 4
  q.block.isSome &&
    (bits d3 53 11 != 0 || bits d3 9 23 != 0 || bits d3 6 2 != 0 || d4 / 2 ^ 15 != 0 || bits d4 6 2 != 0 ||
      q.word 5 != 0 || q.word 6 != 0 || q.word 7 != 0 || 5 ≤ q.form || 4 ≤ q.mop || 5 ≤ q.scope ||
      (q.form != 1 && q.scope != 0) || (q.form ≤ 1 && q.third != 0#64) || (q.form = 1 && q.mop != 0) ||
      (q.mop = 1 && q.sw) || (q.form = 2 && q.mop != 0 && !q.third.getLsbD (c.cid % 64)) ||
      (q.arms && (q.armb = 0 || (c.tile q.tile).size < q.armb)) ||
      (copyCheck c q.tile q.form q.addr q.opnd.toNat q.third.toNat).isSome)

/-! Halting (R238, R345, R347). -/

/-- A transfer waits while the queue is halted: it stands behind the command that failed (R347). -/
def Core.halts (c : Core) (x : Xfer) : Bool := c.cqHalted && decide (c.haltTok < x.tok)

/-- A transfer behind a failed one, none of whose bytes has landed: its command waits again (R347). -/
def Xfer.behind (x : Xfer) (tok : Nat) : Bool := decide (tok < x.tok) && x.landed == 0 && !x.ended

/-- The commands of a core's transfers behind a failed one are queued again; the tile of a copy-out among them is READY again
(R347). -/
def Core.requeue (c : Core) (tok : Nat) : Core :=
  let back := c.xfers.filter (·.behind tok)
  back.foldl (fun c x => if x.cmd.form = 1 then c.updTile x.cmd.tile fun t => { t with st := .ready } else c)
    { c with
      cq := back.map (·.cmd) ++ c.cq, xfers := c.xfers.filter fun x => !x.behind tok
      -- no page is waited for any more
      cqWait := false, mbox := c.mbox.map fun e => { e with ce := false } }

/-- The record of a halt, its fault held for the issuer, and the event; inv says that the accumulator is marked invalid.  A command
that fails while the queue is halted leaves the record as it is (R345). -/
def State.cqHalt (s : State) (cid : Nat) (q : CopyCmd) (cause addr landed : Nat) (inv : Bool) : State :=
  let acc := if q.mop != 0 then q.acc else 0
  let d0 := cause * 2 ^ 56 + q.tile * 2 ^ 50 + acc * 2 ^ 48 + bit01 q.block.isSome * 2 ^ 47 + bit01 inv * 2 ^ 46 +
    q.form % 8 * 2 ^ 43 + q.who.slot * 2 ^ 33 + landed % 2 ^ 21
  let r : EngErr := { d0 := BitVec.ofNat 64 d0, d1 := BitVec.ofNat 64 addr, d2 := q.opnd, d3 := BitVec.ofNat 64 s.tsc }
  let back := ((s.core cid).xfers.filter (·.behind q.tok)).map (·.tok)
  let s0 : State := s.dropDue fun e => match e with
    | .tileBytesArrive _ t => back.contains t
    | .copyOutComplete _ t => back.contains t
    | _ => false
  let s1 : State := s0.updCore cid fun c =>
    let c : Core := if inv then c.updAcc q.acc fun a => { a with inv := true } else c
    { c with
      cqHalted := true, haltTok := if c.cqHalted then min c.haltTok q.tok else q.tok, eq := if c.cqHalted then c.eq else r
      xfers := c.xfers.filter fun x => x.tok != q.tok : Core }.requeue q.tok
  (s1.holdFault q.who cause addr).event "copy queue halted" cid cause

/-- An engine error against a tile sets the ERR bit of one that is FILLING; that of a copy-out makes its tile, which is DRAINING, READY
again, with ERR (R212, R238). -/
def Tile.errs (x : Tile) (out : Bool) : Tile :=
  if out then (if x.st = .draining then { x with err := true, st := .ready } else x)
  else if x.st = .filling then { x with err := true } else x

/-- An engine error against a tile: what waits for it looks again (R211, R212). -/
def State.tileErr (s : State) (cid t : Nat) (out : Bool) : State :=
  (s.updTile cid t (·.errs out)).tileChanged cid

/-- An engine error of a transfer: against the tile that it empties, or against those of its receivers (R212, R238). -/
def State.xferErr (s : State) (cid : Nat) (x : Xfer) : State :=
  if x.cmd.form = 1 then (s.tileErr cid x.cmd.tile true).releaseCheck cid x.cmd.tile
  else x.recvs.foldl (fun s y => s.tileErr y.cid x.cmd.tile false) s

/-- The cause held for a fault of an engine's access (R238). -/
def engCause (c : Nat) : Nat :=
  if c < 0x20 || 0x40 ≤ c then c
  else if (c - 0x20) / 4 = 3 then 0x6A
  else if (c - 0x20) / 4 = 4 then c else 0x69

/-! Access by the engine (R235, R236). -/

/-- The start latency of a location (R235). -/
def startLat (cid : Nat) (loc : Loc) (own hit : Bool) : Nat :=
  match loc with
  | .scratch c _ => if c = cid then 20 else latency cid loc own hit + 18
  | .dram _ => latency cid loc own hit + (if hit then 10 else 50)
  | _ => latency cid loc own hit + 50

/-- The start latency of a read of n bytes, with what the versions of its block add (R235, R308). -/
def State.startLat (s : State) (cid : Nat) (x : Xl) (lvl : Option Nat) (n : Nat) : Nat :=
  Sys2Proof.Machine.startLat cid (s.loc x.pa) x.own (s.l2Hit x.pa n) + s.dirLat (s.partNum cid) lvl x.pa

/-- What the engine meets at an address; wait: a bank that wakes, or one whose partition is switched out (R299, R392). -/
inductive EngAcc where
  | ok (x : Xl) (lvl : Option Nat) (s : State)
  | miss
  | wait (away : Bool)
  | fault (f : Fail) (lat : Nat) (s : State)

/-- The engine's access to n bytes at an address, as the issuing thread's (R236, R238). -/
def State.engAccess (s : State) (cid : Nat) (q : CopyCmd) (va n : Nat) (nd : Need) : EngAcc :=
  let pn := s.partNum cid
  match s.xlate cid va n 1 nd (!q.sys) (q.who.slot == 16) true with
  | .miss => .miss
  | .waking => .wait false
  | .fault c => .fault { cause := engCause c, addr := va } 0 s
  | .ok x s1 =>
    let lvl := (s1.part pn).level q.lvlFam va
    match s1.homeCause cid x.own false x.pa n nd.acc with
    | some c =>
      let refused := c == memCause 3 nd.acc && s1.outside (s1.part pn) x.pa
      let s2 : State := if refused then s1.violation 3 nd.acc pn cid q.who.slot x.pa q.tag else s1.lose cid x.pa n c
      .fault { cause := engCause c, addr := va } (s1.errLat cid x.own x.pa) s2
    | none =>
      if (s1.awayAt x.pa).isSome then .wait true
      else if nd.w && (s1.part pn).readOnly q.lvlFam va then .fault { cause := 0x69, addr := va } 0 s1 else .ok x lvl s1

/-- n bytes of one line pair as the engine reads them: from L1 where the line is present, else from the home; a block is read as one
(R236, R279). -/
def State.engBytes (s0 : State) (cid : Nat) (x : Xl) (lvl : Option Nat) (n : Nat) : List Byte :=
  let s : State := if lvl.isNone then s0.refresh cid x.pa n else s0
  let bs := s.bytesAt (s.partNum cid) lvl x.va x.pa n
  if lvl.isSome then bs
  else bs.zipIdx.map fun (b : Byte × Nat) =>
    match (s.core cid).l1Line (x.pa + b.2) with
    | some l => if l.valid.getLsbD ((x.pa + b.2) % 32) then lineByte l ((x.pa + b.2) % 32) else b.1
    | none => b.1

/-- A source block as it lands in a tile: one that fails its page's check carries SCALE 1023 (R79). -/
def landBlock (chk : Bool) (bs : List Byte) : List Byte × Bool :=
  if chk && !blkChecks bs then (toLe 2 (1023 * 64 + blkFmt bs) ++ bs.drop 2, true) else (bs, false)

/-- A block as it is written to memory: a page with CHK = 1 receives its check (R79). -/
def outBlock (chk : Bool) (bs : List Byte) : List Byte :=
  if chk then bs.take 62 ++ toLe 2 (crc16 (bs.take 62)) else bs

/-! Building a transfer. -/

/-- What ends the building of a transfer: nothing; a page that is missing, with the access; a wait; or a fault and when it is
found. -/
inductive BuildStop where
  | none
  | miss (va acc : Nat)
  | wait (away : Bool)
  | fail (f : Fail) (at_ : Nat)

/-- A transfer as it is put together: its units, how far it has been read, and what ended that. -/
structure Build where
  s : State
  units : List XUnit
  prog : CopyProg
  stop : BuildStop

def Build.on (b : Build) : Bool :=
  match b.stop with
  | .none => true
  | _ => false

/-- The cycle that lies extra cycles after the one in which piece number u is read. -/
def Build.time (b : Build) (cid u extra : Nat) : Nat := b.s.dieAfter (dieOf cid) b.prog.t0 (u - b.prog.u0 + extra)

/-- When piece number u lands, which would be at cycle t: no sooner than one cycle after the piece before (R235). -/
def Build.lands (b : Build) (cid u t : Nat) : Nat :=
  if b.prog.u.isNone || b.prog.u == some u then max b.prog.land t else max (b.s.dieAfter (dieOf cid) b.prog.land 1) t

/-- The engine's access for piece number u; whatever does not let it be read ends the building, which then goes on from u. -/
def Build.access (b : Build) (cid : Nat) (q : CopyCmd) (va n u : Nat) (nd : Need) (go : Xl → Option Nat → State → Build) :
    Build :=
  if !b.on then b
  else
    match b.s.engAccess cid q va n nd with
    | .miss => { b with stop := .miss va nd.acc, prog := { b.prog with u0 := u, t0 := b.time cid u 0 } }
    | .wait a => { b with stop := .wait a, prog := { b.prog with u0 := u, t0 := b.time cid u 0 } }
    | .fault f lat s =>
      { b with s := s, stop := .fail f (max b.prog.land (b.time cid u ((if q.form = 1 then 20 else 0) + lat))) }
    | .ok x lvl s => go x lvl s

/-- The block at va, piece number u of the command, for tile offset off (R235, R293). -/
def Build.read (b : Build) (cid : Nat) (q : CopyCmd) (va off u : Nat) : Build :=
  b.access cid q va 64 u needLoad fun x lvl s =>
    let land := b.lands cid u (b.time cid u (s.startLat cid x lvl 64))
    let d := landBlock (wChk x.w1) (s.engBytes cid x lvl 64)
    { b with
      s := if lvl.isNone then s.l2Touch x.pa (wCache x.w1) 64 else s
      units := b.units ++ [{ due := land, off := off, va := va, pa := x.pa, lvl := lvl, cache := 0, bytes := d.1, pois := d.2
                             port := s.portAt x.pa }]
      prog := { b.prog with land := land, u := some u, k := b.prog.k + 1 } }

/-- A block of a tile on its way to va (R239): its write issues 20 cycles after its read, in command order, and is acknowledged after
the latency of its home (R235, R343).  An uncorrectable error in the tile is met as the block is read (R300; DESIGN CHOICE, log entry
31). -/
def Build.write (b : Build) (cid : Nat) (q : CopyCmd) (va off u : Nat) : Build :=
  b.access cid q va 64 u needStore fun x lvl s =>
    match s.tileBad cid q.tile off 64 with
    | some a => { b with s := s, stop := .fail { cause := 0x30, addr := a } (max b.prog.land (b.time cid u 20)) }
    | none =>
    let bs := outBlock (wChk x.w1) (s.tileBytes cid q.tile off 64)
    let land := b.lands cid u (b.time cid u 20)
    let at_ := s.dieAfter (dieOf cid) land
      (latency cid (s.loc x.pa) x.own (s.l2Hit x.pa 64) + s.dirLat (s.partNum cid) lvl x.pa)
    { b with
      s := s
      prog := { b.prog with land := land, u := some u, k := b.prog.k + 1 }
      units := b.units ++ [{ due := at_, off := off, va := va, pa := x.pa, lvl := lvl, cache := wCache x.w1
                             -- nothing is written of a revision that has been discarded (R273, R280)
                             bytes := if q.gone.any fun g => decide (g.1 ≤ va) && decide (va < g.1 + g.2) then [] else bs
                             pois := x.own, port := s.portAt x.pa }] }

/-- The n bytes from va0 on that a command reads beside its data, block by block: an index list or scale bytes, each read once
(R240). -/
def Build.list (cid : Nat) (q : CopyCmd) (va0 n : Nat) : Nat → Build → Build
  | 0, b => b
  | fuel + 1, b =>
    let d := b.prog.list.length
    if n ≤ d || !b.on then b
    else
      let va := (va0 + d) % 2 ^ 64
      let k := min (n - d) (64 - va % 64)
      Build.list cid q va0 n fuel (b.access cid q va k 0 needLoad fun x lvl s =>
        { b with
          s := if lvl.isNone then s.l2Touch x.pa (wCache x.w1) k else s
          prog := { b.prog with list := b.prog.list ++ s.engBytes cid x lvl k } })

/-- G2T, MC and GX: rows of n bytes at the addresses given, from the piece on that has not been read (R239, R240, R293). -/
def Build.rows (b : Build) (cid : Nat) (q : CopyCmd) (off n : Nat) (srcs : List Nat) : Build :=
  ((srcs.zipIdx.flatMap fun (x : Nat × Nat) => (List.range (n / 64)).map fun j => (x.1 + 64 * j, x.2 * n + 64 * j, x.2)).drop
    b.prog.k).foldl (fun b p => b.read cid q p.1 (off + p.2.1) (p.2.1 / 128 + p.2.2)) b

/-! Import (R93, R94, R241). -/

/-- Elements of a destination block, and its FMT. -/
def destCount (e4m3 : Bool) : Nat := if e4m3 then 60 else 30

/-- The tagged block of elements [k0, k0 + n) of a row whose codes and scale bytes are given (R93, R94).  bad: the elements
that a source block with a failed check affects, which read as the elements of a NaN block do (R79, R80; DEDUCED, log entry 21). -/
def importBlock (e4m3 : Bool) (el : MxElem) (codes scales : List Nat) (bad : Nat → Bool) (k0 : Nat) : List Byte × Flags :=
  let n := destCount e4m3
  let es := ((codes.zipIdx).drop k0).take n
  let x (k : Nat) : Nat := scales.getD (k / 32) 255
  let xe (k : Nat) : Nat := if bad k then 255 else x k
  if e4m3 then
    let sc := ((es.map fun e => x e.2).filter (· != 255)).foldl (fun (m : Option Nat) v => some (max (m.getD 0) (v + 384))) none
    let scale := sc.getD 511
    let out := es.map fun e => mxRound el e.1 (xe e.2) ((511 : Int) - scale) .e4m3
    (taggedBlock 4 scale (out.map (·.1)), out.foldl (fun f o => f ||| o.2) fNone)
  else
    let out := es.map fun e => mxRound el e.1 (xe e.2) 0 .bf16
    (taggedBlock 10 511 (out.map (·.1)), out.foldl (fun f o => f ||| o.2) fNone)

/-- The source bytes of X as blocks, each with the cycle in which it is consumed: bytes and landings go to the progress. -/
def Build.source (b : Build) (cid : Nat) (q : CopyCmd) (n : Nat) : Build :=
  -- the source starts at a multiple of 8 only: it is read in pieces that end at block boundaries
  let first := min n (64 - q.addr % 64)
  let pieces := (0, first) :: (List.range ((n - first + 63) / 64)).map fun j => (first + 64 * j, min 64 (n - first - 64 * j))
  (pieces.drop b.prog.k).foldl (fun b p =>
    let va := q.addr + p.1
    let u := (p.1 + p.2 - 1) / 128
    b.access cid q va p.2 u needLoad fun x lvl s =>
      let land := b.lands cid u (b.time cid u (8 + s.startLat cid x lvl p.2))
      let bs := s.engBytes cid x lvl p.2
      { b with
        s := if lvl.isNone then s.l2Touch x.pa (wCache x.w1) p.2 else s
        -- a whole block of a page with CHK = 1 is checked; pois marks one that fails (R79)
        prog := { b.prog with
          land := land, u := some u, k := b.prog.k + 1, src := b.prog.src ++ bs
          marks := b.prog.marks ++ [{ due := land, off := p.1 + p.2, va := va, pa := x.pa, lvl := lvl, cache := 0, bytes := [],
                                      pois := p.2 == 64 && wChk x.w1 && !blkChecks bs, port := s.portAt x.pa }] } }) b

/-- X: an import (R241).  Each destination block is written in the cycle that consumes its last source byte (R344). -/
def Build.imports (b : Build) (cid : Nat) (q : CopyCmd) (g : Geom) : Build × Flags :=
  let o := q.opnd.toNat
  let e4m3 := bits o 26 1 == 1
  let el := efOf (bits o 23 3)
  let w := MxElem.bits el
  let n := destCount e4m3
  let k := g.rowb
  let rowBytes := k * w / 8
  let b1 := (Build.list cid q q.third.toNat (g.rows * k / 32) (g.rows * k / 32 / 64 + 2) b).source cid q (g.rows * rowBytes)
  let src := b1.prog.src
  let marks := b1.prog.marks
  -- the bytes of a source block whose check failed
  let spoilt (at_ : Nat) : Bool := marks.any fun m => m.pois && decide (m.off ≤ at_ + 64) && decide (at_ < m.off)
  -- destination blocks whose source bytes have all been read
  let out := (List.range g.rows).flatMap fun r =>
    let codes := packedCodes ((src.drop (r * rowBytes)).take rowBytes) w k
    let scales := ((b1.prog.list.drop (r * (k / 32))).take (k / 32)).map (·.toNat)
    (List.range (g.out / 64)).filterMap fun j =>
      let last := r * rowBytes + (min ((j + 1) * n) k * w + 7) / 8
      (marks.find? fun m => decide (last ≤ m.off)).map fun m =>
        let res := importBlock e4m3 el codes scales
          (fun e => spoilt (r * rowBytes + e * w / 8) || spoilt (r * rowBytes + ((e + 1) * w - 1) / 8)) (j * n)
        ({ due := m.due, off := g.off + r * g.out + 64 * j, va := q.addr + r * rowBytes + j * n * w / 8, pa := 0,
           lvl := none, cache := 0, bytes := res.1, pois := false, port := m.port : XUnit }, res.2)
  ({ b1 with units := out.map (·.1) }, out.foldl (fun f x => f ||| x.2) fNone)

/-- The last landing among a core's transfers, at the last of their receivers, or the last issue of a write, before which the bytes of a
command do not land (R235). -/
def State.lastLand (s : State) (cid : Nat) : Nat :=
  ((s.core cid).xfers.map fun x => s.dieAfter (dieOf cid) x.prog.land ((x.recvs.map (·.lag)).foldl max 0)).foldl max 0

/-- The parts of a transfer from where it stands on, until it is whole, waits, or meets a fault (R239 to R241). -/
def State.build (s : State) (cid : Nat) (q : CopyCmd) (g : Geom) (units : List XUnit) (prog : CopyProg) : Build × Flags :=
  let b : Build := { s := s, units := units, prog := { prog with t0 := max s.now prog.t0 }, stop := .none }
  if q.form = 1 then
    (((List.range (g.rowb / 64)).drop prog.k).foldl (fun b j => b.write cid q (q.addr + 64 * j) (g.off + 64 * j) (64 * j / 128)) b,
      fNone)
  else if q.form = 3 then
    let b1 := Build.list cid q q.third.toNat (4 * g.rows) (4 * g.rows / 64 + 2) b
    (if b1.on then b1.rows cid q g.off g.rowb ((List.range g.rows).map fun r =>
      (q.addr + leVal ((b1.prog.list.drop (4 * r)).take 4) * g.rowb) % 2 ^ 64) else b1, fNone)
  else if q.form = 4 then b.imports cid q g
  else (b.rows cid q g.off g.rowb [q.addr], fNone)

/-- The cycles for which a command's reads occupy the engine (R343). -/
def CopyCmd.reads (q : CopyCmd) (g : Geom) : Nat :=
  if q.form = 3 then (g.rows * g.rowb + 127) / 128 + g.rows - 1
  else if q.form = 4 then
    (g.rows * (g.rowb * MxElem.bits (efOf (bits q.opnd.toNat 23 3)) / 8) + 127) / 128
  else (g.rowb + 127) / 128

/-- The receivers of a command, with the cycles by which theirs land later (R239, R343). -/
def CopyCmd.recvs (q : CopyCmd) (c : Core) (cores : Nat → Core) (g : Geom) : List Recv :=
  if q.form = 1 then []
  else if q.form = 2 then
    (List.range 64).filterMap fun i =>
      if !q.third.getLsbD i then none
      else
        let r := c.cid / 64 * 64 + i
        let lag := if r = c.cid then 0 else if quadOf r = quadOf c.cid then 1 else if groupOf r = groupOf c.cid then 3 else 5
        let x := (cores r).tile q.tile
        some { cid := r, lag := lag, next := 0,
               failed := x.size = 0 || x.size < g.off + g.out || !(cores r).tileScratch q.tile }
  else [{ cid := c.cid, lag := 0, next := 0, failed := false }]

/-- A store of the command's thread is not yet performed (R236). -/
def State.storesBefore (s : State) (q : CopyCmd) : Bool :=
  s.reqs.any fun r => r.who == q.who && r.kind.isStore && decide (r.tok < q.tok) && (r.st == .sent || r.st == .waiting)

/-- A receiver that has taken every unit built so far looks at cycle at_ for what follows. -/
def State.recvsLook (s : State) (x : Xfer) (at_ : Nat) : State :=
  (x.recvs.filter fun r => r.next == x.units.length).foldl (fun s r =>
    s.atCycle (s.dieAfter (dieOf r.cid) at_ r.lag) (.tileBytesArrive r.cid x.tok)) s

/-- The engine looks again in the next cycle, where it is not going to anyway. -/
def State.copySoon (s : State) (cid : Nat) : State :=
  if s.agenda.any fun d => d.what == .copyCommandStart cid && decide (s.now < d.at_) then s
  else s.after cid 1 (.copyCommandStart cid)

/-- A transfer goes on: its next reads, until it is whole or a page is missing, for which the queue waits (R235, R238). -/
def State.copyOn (s : State) (cid : Nat) (x : Xfer) (g : Geom) : State :=
  let (b, fl) := s.build cid x.cmd g x.units x.prog
  let (fail, failAt) := match b.stop with
    | .fail f t => (some f, t)
    | _ => (none, 0)
  let whole := match b.stop with
    | .none => true
    | .fail _ _ => true
    | _ => false
  let away := match b.stop with
    | .wait a => a
    | _ => false
  -- its requests carry 256 bytes each, and are answered before a stop (R388)
  let k := (b.units.length - x.units.length + 3) / 4
  let x1 : Xfer :=
    { x with units := b.units, prog := b.prog, flags := fl, whole := whole, fail := fail, failAt := failAt, away := away }
  let s1 : State := ((b.s.sentMsgs cid k).gotMsgs cid k).updCore cid fun c =>
    { c with xfers := c.xfers.map fun y => if y.tok == x.tok then x1 else y }
  let at_ := ((b.units[x.units.length]?).map (·.due)).getD (if fail.isSome then failAt else s.now)
  let s2 : State :=
    if x.cmd.form = 1 then (if whole then
        s1.atCycle ((b.units.map (·.due)).foldl max (max failAt b.prog.land)) (.copyOutComplete cid x.tok) else s1)
    else if x.units.length < b.units.length || whole then s1.recvsLook { x with units := x.units } at_ else s1
  match b.stop with
  | .miss va acc =>
    let (ok, s3) := s2.postMiss cid va acc none
    if ok then s3.updCore cid fun c => { c with cqWait := true } else s3.copySoon cid
  | .wait _ => s2.copySoon cid
  | _ =>
    let free := s.dieAfter (dieOf cid) (max s.now x.prog.t0) (x.cmd.reads g - x.prog.u0)
    (s2.updCore cid fun c => { c with cqFree := free }).atCycle free (.copyCommandStart cid)

/-- The transfer that a command starts. -/
def State.copyXfer (s : State) (cid : Nat) (q : CopyCmd) (g : Geom) : Xfer :=
  let prog : CopyProg := { list := [], src := [], marks := [], k := 0, t0 := s.now, u0 := 0, u := none
                           land := s.lastLand cid }
  { tok := q.tok, cmd := q, recvs := q.recvs (s.core cid) s.core g, units := [], whole := false, prog := prog, landed := 0,
    flags := fNone, fail := none, failAt := 0, ended := false, away := false }

/-- The head command leaves the queue for its transfer: the tile of a copy-out is DRAINING from here on, and a failed receiver's ERR
is set, in whatever state its tile is (R212, R235, R238, R239; DEDUCED, log entry 74). -/
def State.copyTaken (s : State) (cid : Nat) (q : CopyCmd) (x : Xfer) : State :=
  (x.recvs.filter (·.failed)).foldl (fun s r => (s.updTile r.cid q.tile fun t => { t with err := true }).tileChanged r.cid)
    (s.updCore cid fun c =>
    { (if q.form = 1 then c.updTile q.tile fun t => { t with st := .draining, out := none } else c) with
      cq := c.cq.drop 1, xfers := c.xfers ++ [x] })

/-- A transfer starts, behind the stores of its thread (R236). -/
def State.copyGo (s : State) (cid : Nat) (q : CopyCmd) (g : Geom) : State :=
  if s.storesBefore q then s.copySoon cid
  else
    let x := s.copyXfer cid q g
    (s.copyTaken cid q x).copyOn cid x g

/-- The head command starts where it can; a transfer that waited for a page, or a bank, goes on before it, and is completed while its
partition stops (R235, R243, R293, R388). -/
def State.copyTry (s : State) (cid : Nat) : State :=
  let c := s.core cid
  let goes (p : Part) : Bool := p.gsst == .running || (p.gsst == .stopping && c.xfers.any fun x => !x.whole)
  if c.cqWait || c.cqHalted || !(s.partOf cid).any goes then s
  else
  match c.xfers.find? fun x => !x.whole with
  | some x =>
    match geomOf x.cmd.form x.cmd.opnd.toNat x.cmd.third.toNat with
    | some g => s.copyOn cid x g
    | none => s
  | none =>
  match c.cq with
  | [] => s
  | q :: _ =>
    if s.now < q.from_ || s.now < c.cqFree || c.xfers.any (·.ended) then s
    else
      let drop (s : State) : State :=
        let s1 : State := s.updCore cid fun c =>
          { (if q.form = 1 then c.updTile q.tile fun t => { t with out := none } else c) with cq := c.cq.drop 1 }
        if q.form = 1 then s1.urgent (.tileReleaseEffect cid q.tile) else s1
      let x := c.tile q.tile
      if !q.armed && q.ill c then (drop s).cqHalt cid q 0x68 q.blockAddr 0 (q.mop = 2 || q.mop = 3)
      else if q.block.isSome && q.arms && !q.armed then
        match x.st with
        | .empty =>
          -- the command looks again once its tile is armed
          (s.updCore cid fun c =>
            { c.updTile q.tile (·.arm q.armb) with cq := { q with armed := true } :: c.cq.drop 1 }).tileChanged cid
        | .filling => ((drop s).tileErr cid q.tile false).cqHalt cid q 0x60 q.addr 0 false
        | _ => s
      else if q.form = 1 && x.err then (drop s).cqHalt cid q 0x60 q.addr 0 false
      else if q.form = 1 && x.st != .ready then s
      else if q.form = 1 && x.out.isNone then
        -- readers registered before this hold the copy-out back, later ones do not (R213)
        let (tok, s1) := s.fresh
        (s1.updTile cid q.tile fun t => { t with out := some tok }).urgent (.copyCommandStart cid)
      else if q.form = 1 && !x.out.any x.freeFor then s
      else
        match geomOf q.form q.opnd.toNat q.third.toNat with
        | some g => s.copyGo cid q g
        | none => s

/-- The copy engine takes its head command (R235). -/
def execCopyCommandStart (s : State) : Host.Outcome State Fault Refusal :=
  .next (match s.evt with
    | .copyCommandStart cid => s.copyTry cid
    | _ => s)

/-! Arrival (R212, R238, R241, R243). -/

/-- The core whose engine performs a transfer, and the transfer. -/
def State.xfer (s : State) (tok : Nat) : Option (Nat × Xfer) :=
  s.cores.findSome? fun c => (c.xfers.find? fun x => x.tok == tok).map fun x => (c.cid, x)

def State.updXfer (s : State) (cid tok : Nat) (f : Xfer → Xfer) : State :=
  s.updCore cid fun c => { c with xfers := c.xfers.map fun x => if x.tok == tok then f x else x }

/-- The address of the first byte not written of a unit of which m tile bytes were: an element of an import's block takes one byte or
two, behind the block's header, and stands in its row of the source behind the elements of the blocks before (R345). -/
def CopyCmd.source (q : CopyCmd) (u : XUnit) (m : Nat) : Nat :=
  match q.form, geomOf q.form q.opnd.toNat q.third.toNat with
  | 4, some g =>
    let e4m3 := bits q.opnd.toNat 26 1 == 1
    let w := MxElem.bits (efOf (bits q.opnd.toNat 23 3))
    let blk := (u.off - g.off) / 64
    let per := g.out / 64
    let e := blk % per * destCount e4m3 + (m - 2) / (if e4m3 then 1 else 2)
    q.addr + blk / per * (g.rowb * w / 8) + min e g.rowb * w / 8
  | _, _ => u.va + m

/-- Bytes of a command's unit arrive in a tile: how many were written, the fault that they meet, and the state (R212, R300). -/
def State.arrive (s : State) (cid : Nat) (q : CopyCmd) (u : XUnit) : Nat × Option Fail × State :=
  let t := q.tile
  let x := (s.core cid).tile t
  let past (m : Nat) : Option Fail := some { cause := 0x62, addr := q.source u m }
  if x.st != .filling then (0, past 0, s.updTile cid t fun x => { x with err := true })
  else
  match s.tileBad cid t u.off (min u.bytes.length (x.expected - x.arrived)) with
  | some a => (0, some { cause := 0x31, addr := a }, s.updTile cid t fun x => { x with err := true })
  | none =>
    let n := min u.bytes.length (x.expected - x.arrived)
    let overrun := decide (n < u.bytes.length)
    let s1 : State := (s.putTile cid t u.off (u.bytes.take n)).updTile cid t fun x =>
      { x with arrived := x.arrived + n, pois := x.pois || u.pois, err := x.err || overrun
               st := if x.arrived + n = x.expected then .ready else .filling }
    (n, if overrun then past n else none, if x.arrived + n = x.expected then s1.tileChanged cid else s1)

/-- The follow-on of a command enters the matrix queue, where there is room (R243).  An MLS enters though an earlier load is unconsumed,
and waits at the head for an empty shadow plane; a pass whose SW finds nothing to swap runs without, and sets no W (R20, R62, R223; DESIGN
CHOICE, log entry 72). -/
def State.followOn (s : State) (cid : Nat) (x : Xfer) : State :=
  let c := s.core cid
  let q := x.cmd
  if c.mqFull then s.updXfer cid x.tok fun x => { x with ended := true }
  else
    let (tok, s0) := (s.updCore cid fun c => { c with xfers := c.xfers.filter fun y => y.tok != x.tok }).fresh
    -- it registers with its tile as an instruction issued now does (R213)
    let s1 : State := s0.updTile cid q.mtile fun t => { t with readers := t.readers ++ [tok] }
    let op : MOp := if q.mop = 1 then .mls q.mtile
      else .pass (q.mop = 3) (q.sw && c.unconsumed) q.acc q.mtile 0 32 true
    let m : MCmd := { tok := tok, who := q.who, ops := [op], follow := true, from_ := s.now }
    (s1.mxEnter cid m).urgent (.copyCommandStart cid)

/-- A transfer has landed whole: its import flags are held for the thread's next delivery point, and its follow-on enters
the queue; a receiver that failed halts the queue now (R238, R241, R243, R347). -/
def State.copyDone (s : State) (cid : Nat) (x : Xfer) : State :=
  let s1 : State := s.updThere x.cmd.who fun t => { t with impFlags := t.impFlags ||| x.flags }
  if x.recvs.any (·.failed) then s1.cqHalt cid x.cmd 0x61 x.cmd.addr x.landed false
  else if x.cmd.mop != 0 then s1.followOn cid x
  else (s1.updCore cid fun c => { c with xfers := c.xfers.filter fun y => y.tok != x.tok }).urgent (.copyCommandStart cid)

/-- The units of a receiver that are due land in order; answers the next unit's number, the bytes written and the fault met.  Bytes
written to another core's tile are a side effect of the command's tasks (R384). -/
def State.landUnits (s : State) (r : Recv) (cid : Nat) (q : CopyCmd) : List XUnit → Nat → Nat → Nat × Nat × Option Fail × State
  | [], k, n => (k, n, none, s)
  | u :: us, k, n =>
    if s.now < u.due + s.ticks (dieOf r.cid) r.lag then (k, n, none, s)
    else if r.failed then s.landUnits r cid q us (k + 1) n
    else
      let (m, past, s1) := s.arrive r.cid q u
      let s2 : State := if m = 0 || r.cid == cid then s1 else s1.markSide (s1.partNum cid) q.lvlFam none
      match past with
      | some f => (k, n + m, some f, s2)
      | none => s2.landUnits r cid q us (k + 1) (n + m)

/-- Engine bytes land in a receiver's tile (R212, R235); behind the last, the transfer's fault or its end. -/
def execTileBytesArrive (s : State) : Host.Outcome State Fault Refusal :=
  .next (match s.evt with
    | .tileBytesArrive rc tok =>
      match s.xfer tok with
      | none => s
      | some (cid, x) =>
        -- what stands behind a failed command waits for the queue to go on (R347)
        if (s.core cid).halts x then s
        else if x.ended then s.followOn cid x
        else
          match x.recvs.find? fun r => r.cid == rc with
          | none => s
          | some r =>
            let (k, n, past, s1) := s.landUnits r cid x.cmd (x.units.drop r.next) r.next 0
            let x1 : Xfer := { x with
              landed := x.landed + n, recvs := x.recvs.map fun y => if y.cid == rc then { y with next := k } else y }
            let s2 : State := s1.updXfer cid tok fun _ => x1
            match past with
            | some f => (s2.tileChanged rc).cqHalt cid x1.cmd f.cause f.addr x1.landed false
            | none =>
              match x.units[k]? with
              | some u => s2.atCycle (u.due + s.ticks (dieOf cid) r.lag) (.tileBytesArrive rc tok)
              | none =>
                if !x1.whole || x1.recvs.any fun y => decide (y.next < x1.units.length) then s2
                else
                  match x1.fail with
                  | some f =>
                    if s.now < x1.failAt then s2.atCycle x1.failAt (.tileBytesArrive rc tok)
                    else
                      (s2.xferErr cid x1).cqHalt cid x1.cmd f.cause f.addr x1.landed false
                  | none => s2.copyDone cid x1
    | _ => s)

/-! Copy-out (R212, R236, R239). -/

/-- Writes units at their homes until one needs a version that the store does not have, or its bank's partition is switched out
(R308, R392). -/
def State.outUnits (s : State) (cid : Nat) (q : CopyCmd) : List XUnit → List XUnit × State
  | [] => ([], s)
  | u :: us =>
    let pn := s.partNum cid
    -- nothing is left to write of a revision that has been discarded (R280)
    if u.bytes.isEmpty then s.outUnits cid q us
    else if (s.awayAt u.pa).isSome || s.storeFull pn u.lvl u.pa then (u :: us, s)
    else
      -- a version leaves memory, and what L1 has dirty for it, as it is (R271, R273)
      let s0 : State := if u.lvl.isSome then (s.l1Clean cid fun l => l.over u.pa 64).2 else s
      let s1 : State := s0.l1Drop cid fun l => l.over u.pa 64
      let s2 : State := (s1.l2Wrote u.pa u.cache 64).putBytes pn u.lvl u.va u.pa u.bytes
      -- pois marks a unit that went through the local alias, which has no side effect (R384)
      (if u.pois then s2 else s2.markSide pn q.lvlFam u.lvl).outUnits cid q us

/-- A held write goes on no more, or is done: the next may (R308). -/
def State.unheld (s : State) (part tok : Nat) : State :=
  if (s.part part).heldWrites.contains tok then
    let s1 : State := s.updPart part fun p => { p with heldWrites := p.heldWrites.filter (· != tok) }
    if (s1.part part).heldWrites.isEmpty then s1 else s1.urgent (.revstoreHoldRelease part)
  else s

/-- The copy-out's last write is acknowledged: the tile is EMPTY; or its fault halts the queue (R212, R238, R239).  One that needs a
version while a join merges is held, in its place among the held writes (R308). -/
def execCopyOutComplete (s : State) : Host.Outcome State Fault Refusal :=
  .next (match s.evt with
    | .copyOutComplete cid tok =>
      match s.xfer tok with
      | none => s
      | some (_, x) =>
        let q := x.cmd
        let pn := s.partNum cid
        let (rest, s1) := s.outUnits cid q x.units
        match rest with
        | u :: _ =>
          let wait (away : Bool) : State := s1.updXfer cid tok fun x => { x with units := rest, away := away }
          if (s1.awayAt u.pa).isSome then (wait true).after cid 1 s.evt
          else if (s1.part pn).joins.isEmpty then
            ((s1.unheld pn tok).xferErr cid x).cqHalt cid q 0x80 u.va 0 false
          else (wait false).updPart pn fun p =>
            { p with heldWrites := if p.heldWrites.contains tok then p.heldWrites else p.heldWrites ++ [tok] }
        | [] =>
          let s1 : State := s1.unheld pn tok
          match x.fail with
          | some f => (s1.xferErr cid x).cqHalt cid q f.cause f.addr 0 false
          | none =>
            -- a TREL that waited for it does nothing (R216)
            ((s1.updCore cid fun c =>
              { c.updTile q.tile (fun t => { t with st := .empty, rel := none }) with xfers := c.xfers.filter fun y => y.tok != tok }).tileChanged
                cid).urgent (.copyCommandStart cid)
    | _ => s)

end Sys2Proof.Machine
end

