-- ==== Sys2Proof/Machine/System.lean ====
section
/-! DEFINITION. Regions (R244, R245), the control and status registers (R21, R22, R247 to R249), the SYS group (R250 to R256),
and what completes a page miss: the walker's MBOX, the host's replies and the end of a migration (R314 to R317). -/

namespace Sys2Proof.Machine

/-! RGN (R244, R245). -/

/-- The element codes that a merge type allows (R246). -/
def elemFits (merge elem : Nat) : Bool :=
  if merge = 3 || (5 ≤ merge && merge ≤ 8) then elem ≤ 3
  else if merge = 4 || merge = 9 || merge = 10 then 4 ≤ elem && elem ≤ 6
  else elem ≤ 6

/-- A region descriptor that RGN refuses as RGN_BAD. -/
def rgnBad (d0 d1 d2 d3 : Nat) : Bool :=
  d2 / 2 ^ 17 != 0 || bits d2 12 4 != 0 || d3 != 0 || 13 ≤ d2 % 16 || bits d2 4 4 != 0 || !elemFits (d2 % 16) (bits d2 8 4) ||
    d1 = 0 || d0 % 64 != 0 || d1 % 64 != 0 || 2 ^ 57 < d0 + d1 || d0 < 0x100000

/-- The pages of a range, from va on: their number k, and whether one is REMOTE; a page that does not translate ends it.  Where a
page is missing the bundle goes on from it, unless it started there: the pages before it, and the descriptor d, stay as read
(R245). -/
def rgnPages (last : Nat) (start : Option Nat) (d : List Nat) : Nat → State → Nat → Nat → Bool → Except State (Nat × Bool × State)
  | 0, s, _, k, r => .ok (k, r, s)
  | fuel + 1, s, va, k, r =>
    if last ≤ va then .ok (k, r, s)
    else
      match access s (BitVec.ofNat 64 va) 1 1 needLoad true with
      | .error e => if e.cur.res = .notReady && start != some va then holdPart s ([va, k, bit01 r] ++ d) 1 else .error e
      | .ok (x, s1) =>
        let sz := match s1.tlbFind s.cur.cid va with
          | some (e, _, _) => 2 ^ pageBits e.sz
          | none => 2 ^ 16
        rgnPages last start d fuel s1 (va / sz * sz + sz) (k + 1) (r || wRemote x.w1)

/-- The lowest region number that a partition has free. -/
def Part.freeRegion (p : Part) : Option Nat := (List.range 64).find? fun i => !(p.regions.any fun g => g.num == i)

/-- The checks and the end of a define, whose descriptor and load latency are d, from page va on (R245). -/
def rgnDefine (d : List Nat) (start : Option Nat) (va k : Nat) (r : Bool) (s : State) : Except State State := do
  let d0 := d.getD 0 0
  let d1 := d.getD 1 0
  let d2 := d.getD 2 0
  let pn := s.partNum s.cur.cid
  let p := s.part pn
  match p.freeRegion with
  | none => raise s 6 0x82 0
  | some num =>
    if rgnBad d0 d1 d2 (d.getD 3 0) then raise s 6 0x82 0
    else if p.regions.any fun g => decide (g.base < d0 + d1) && decide (d0 < g.base + g.size) then raise s 6 0x83 0
    else
      let (k, remote, s2) ← rgnPages (d0 + d1) start d (d1 / 0x10000 + 2) s va k r
      if remote then raise s 6 0x84 0
      else
        let g : Region := { num := num, base := d0, size := d1, ro := d2.testBit 16, elem := bits d2 8 4, merge := d2 % 16 }
        holdFor ((s2.updPart pn fun p => { p with regions := p.regions ++ [g] }).updMe fun t => { t with prog := [] })
          (BitVec.ofNat 64 num) (d.getD 4 0 + 4 * k + 4)

/-- RGN.DEF (R245). -/
def rgnDefOp (h : Hdr) (rd ra : SReg) (s : State) : Except State State := do
  gateC { Uses.none with sr := [ra], sw := [rd] } s
  match s.progress, s.doneVal with
  | some (va :: k :: r :: d), _ => rgnDefine d (some va) va k (r == 1) s
  | _, some v => return (commitNext s h .drops (loneW h)).writeMine rd v
  | _, none =>
    memGate s
    let (x, _) ← access s (s.regVal ra) 32 32 needLoad true
    let lat := s.readLat s.cur.cid x (s.myLevel x.va) 32
    let (bs, s1) ← readNow s (s.regVal ra) 32 32
    let d := ((List.range 4).map fun i => leVal ((bs.drop (8 * i)).take 8)) ++ [lat]
    rgnDefine d none (d.getD 0 0) 0 false s1

/-- RGN.DEF (R245). -/
def execRgnDef (h : Hdr) (rd ra : SReg) (s : State) : Host.Outcome State Fault Refusal := .next (run (rgnDefOp h rd ra s))

/-- RGN.REL (R245). -/
def rgnRelOp (h : Hdr) (ra : SReg) (s : State) : Except State State := do
  gateC { Uses.none with sr := [ra] } s
  match s.doneVal with
  | some _ => return commitNext s h .drops (loneW h)
  | none =>
    memGate s
    let v := (s.regVal ra).toNat
    let pn := s.partNum s.cur.cid
    let p := s.part pn
    match (if 64 ≤ v then none else p.regions.find? fun g => g.num == v) with
    | none => raise s 6 0x82 0
    | some g =>
      if p.revs.any fun r => r.snap.contains g then raise s 6 0x82 0
      else holdFor (s.updPart pn fun p => { p with regions := p.regions.filter fun x => x.num != v }) 0#64 4

/-- RGN.REL (R245). -/
def execRgnRel (h : Hdr) (ra : SReg) (s : State) : Host.Outcome State Fault Refusal := .next (run (rgnRelOp h ra s))

/-! The miss mailbox: completion (R255, R314 to R317). -/

def State.updMiss (s : State) (cid ent : Nat) (f : Miss → Miss) : State :=
  s.updCore cid fun c => { c with mbox := c.mbox.map fun e => if e.ent == ent then f e else e }

/-- An entry frees: an unmarked requester of a seventeenth page may post (R255). -/
def State.freeMissEnt (s : State) (cid ent : Nat) : State :=
  s.updCore cid fun c => { c with mbox := c.mbox.filter fun e => e.ent != ent }

/-- Every waiter of an entry retries, and the entry frees. -/
def State.missRetry (s : State) (cid : Nat) (e : Miss) : State :=
  let s1 : State := e.waiters.foldl (fun s w => s.updWho { cid := cid, slot := w.slot, uid := w.uid } fun t =>
    if t.hold = .wait .translation then { t with hold := .none } else t) s
  let s2 : State := s1.freeMissEnt cid e.ent
  if e.ce then (s2.updCore cid fun c => { c with cqWait := false }).urgent (.copyCommandStart cid) else s2

/-- A thread that waits for a page: at its bundle, at a held bundle that tries again in every cycle, or below an inline run whose
frame is read back (R120). -/
def Core.waitsPage (c : Core) (w : PageWait) (t : Thread) : Bool :=
  t.hold == .wait .translation || t.answered || c.runs.any fun r => r.slot == w.slot && r.creator.uid == w.uid

/-- Every waiter of an entry receives the memory cause of a kind and its own access; a waiting engine receives COPY_XLAT. -/
def State.missFault (s : State) (cid : Nat) (e : Miss) (kind : Nat) : State :=
  let s1 : State := e.waiters.foldl (fun s w => s.updWho { cid := cid, slot := w.slot, uid := w.uid } fun t =>
    if (s.core cid).waitsPage w t then { t with hold := .fail { cause := memCause kind w.acc, addr := w.va } } else t) s
  let s2 : State := s1.freeMissEnt cid e.ent
  match e.ce && (s2.core cid).cqWait, (s2.core cid).xfers.find? fun x => !x.whole with
  | true, some x =>
    ((s2.updCore cid fun c => { c with cqWait := false }).xferErr cid x).cqHalt cid x.cmd 0x69 e.ceVa x.landed false
  | _, _ => s2

/-- Posts the page request of a suspended entry, or leaves it pending while the queue is full (R315, R366). -/
def State.missPost (s : State) (cid : Nat) (e : Miss) : State :=
  let (ok, s1) := s.postPage (s.partNum cid) e.vpn e.acc e.ent cid false
  s1.updMiss cid e.ent fun e => { e with st := if ok then .suspended else .unposted }

/-- A claimed entry completes with an outcome; one gone stale makes its waiters retry (R255, R317). -/
def State.missDone (s : State) (cid : Nat) (e : Miss) (out kind : Nat) : State :=
  if e.stale || out = 0 then s.missRetry cid e
  else if out = 1 then s.missFault cid e kind
  else if out = 2 then s.missPost cid e
  else s.updMiss cid e.ent fun e => { e with st := .parked }

/-- The oldest unclaimed record of a mailbox. -/
def oldestMiss : List Miss → Option Miss
  | [] => none
  | e :: rest =>
    match oldestMiss rest with
    | some m => if e.st = .unclaimed && e.seq < m.seq then some e else some m
    | none => if e.st = .unclaimed then some e else none

/-- A record as MBOX delivers it (R255). -/
def Miss.record (e : Miss) : W64 :=
  BitVec.ofNat 64 (e.vpn * 2 ^ 23 + e.acc * 2 ^ 21 + e.ent * 2 ^ 17 + bit01 e.ce * 2 ^ 16 +
    ((List.range 16).map fun k => if e.waiters.any fun w => w.slot == k then 2 ^ k else 0).sum)

/-- The migration of the page of a VPN has ended: what is parked on it retries, on every core of the partition; a spill ring
whose next slot lies on it is tried again (R316, R334). -/
def State.migDone (s : State) (p : Part) (vpn : Nat) : State :=
  let same (va : Nat) : Bool := s.samePage p (vpn * 2 ^ 16) va
  let s1 : State := s.cores.foldl (fun s c =>
    if !p.hasSg (sgOf c.cid) then s
    else (c.mbox.filter fun e => e.st == .parked && same (e.vpn * 2 ^ 16)).foldl (fun s e => s.missRetry c.cid e) s) s
  (s1.contq.filter fun q => p.hasSg q.sg && q.stalled && same q.tailVa).foldl (fun s q =>
    (s.updContQ q.sg fun q => { q with posted := false }).urgent (.spillOverflowMove q.sg)) s1

/-! System functions (R250 to R256). -/

/-- At user level a system function raises PRIV (R22, R39). -/
def sysOnly (s : State) : Except State Unit := if s.me.sys then .ok () else raise s 2 0x07 0

/-- ERET (R250); its ST count is dropped.  An extension that stayed pending for the bundle it returns to is pending again (R58;
DEDUCED, log entry 63). -/
def eretOp (h : Hdr) (s : State) : Except State State := do
  sysOnly s
  gateC Uses.none s
  let h0 : Hdr := { h with st := 0#3 }
  if s.cur.slot = 16 then
    if (oldestMiss s.myCore.mbox).isNone then notReady s
    else return commit s h0 .drops (loneW h) s.myCore.wentry
  else
    let c := s.me.csr
    if c.epc.extractLsb' 0 3 != 0#3 then raise s 6 0x08 0
    else return (commit s h0 .drops (loneW h) c.epc).updMe fun t =>
      { t with sys := c.estat.getLsbD 8, csr := { t.csr with estat := t.csr.estat &&& ~~~0xFF#64 }
               kext := t.kextKept, kextKept := none }

/-- ERET (R250). -/
def execEret (h : Hdr) (s : State) : Host.Outcome State Fault Refusal := .next (run (eretOp h s))

/-- HALT (R251). -/
def execHalt (h : Hdr) (s : State) : Host.Outcome State Fault Refusal :=
  .next (run (do
    sysOnly s
    gateC Uses.none s
    return (commitNext s h .drops (loneW h)).updMe fun t => { t with hold := .wait .halted }))

/-- ICI's cleaning of a part of its range in L1 (R252); its faults are those of a load. -/
def iciL1 (s : State) (x : Xl) (k : Nat) : Except State (Nat × Option (Nat × Nat) × State) := do
  let meets (l : L1Line) : Bool := l.over x.pa k
  match s.refusedLine x k 32 0 (((s.core s.cur.cid).l1.filter fun l => meets l && l.dirty != 0#32).map (·.line)) with
  | some y => failLater s y.1 y.2.1 0 y.2.2
  | none =>
    let c := s.l1Clean s.cur.cid meets
    spoiltStop s c.2 0 meets x.lineVa
    return (c.1, none, c.2)

/-- ICI (R252). -/
def iciOp (h : Hdr) (ra rb : SReg) (s : State) : Except State State := do
  gateC { Uses.none with sr := [ra, rb] } s
  match s.doneVal, s.progress with
  | some _, none => return commitNext s h .drops (loneW h)
  | _, _ =>
    memGate s
    let va := (s.regVal ra).toNat
    let n := (s.regVal rb).toNat
    if n = 0 then return commitNext s h .drops (loneW h)
    else
      let r0 := s.rangeFrom
      let (r, s1) ← overRange false needLoad iciL1 va n r0.done (n / 0x10000 + 2) s r0
      holdFor (s1.updMyCore fun c =>
        { c with ibuf := c.ibuf.filter fun l => !(decide (va < (l.line + 1) * 64) && decide (l.line * 64 < va + n)) }) 0#64
        (4 + r.lines)

/-- ICI (R252). -/
def execIci (h : Hdr) (ra rb : SReg) (s : State) : Host.Outcome State Fault Refusal := .next (run (iciOp h ra rb s))

/-- The VPN bits below a page size. -/
def vpnLow (sz : Nat) : Nat := 2 ^ (pageBits sz - 16)

/-- A reserved or misaligned entry (R253). -/
def tlbwBad (a b : Nat) : Bool :=
  let sz := bits a 21 2
  a % 2 ^ 20 != 0 || sz == 3 || bits a 23 41 % vpnLow sz != 0 || bits b 48 10 != 0 || bits b 10 6 != 0 || bits b 8 2 == 3 ||
    bits b 16 32 % vpnLow sz != 0 || (bits b 7 1 == 0 && bits b 58 6 != 0)

/-- TLBW (R253). -/
def tlbwOp (h : Hdr) (ra rb : SReg) (s : State) : Except State State := do
  sysOnly s
  gateC { Uses.none with sr := [ra, rb] } s
  match s.doneVal with
  | some _ => return commitNext s h .drops (loneW h)
  | none =>
    let a := (s.regVal ra).toNat
    if tlbwBad a (s.regVal rb).toNat then raise s 6 0x02 0
    else
      let e : TlbEntry := { vpn := bits a 23 41, sz := bits a 21 2, w1 := s.regVal rb }
      let hit (m : Miss) : Bool := s.cur.slot == 16 && e.covers (m.vpn * 2 ^ 16) && (m.stale || m.inval.any e.covers)
      let k := s.freeCtr
      let s1 : State := if s.myCore.mbox.any hit then
          -- TLBI has named the page since its miss was claimed (R317)
          s.updMyCore fun c => { c with mbox := c.mbox.map fun m => if hit m then { m with stale := true } else m }
        else
        { s with freeCtr := k + 2 }.updMyCore fun c =>
          { c with tlb2 := tlb2Put c.tlb2 k e, tlb1 := if bits a 20 1 = 1 then c.tlb1 else tlbPut c.tlb1 64 (k + 1) e }
      holdFor s1 0#64 2

/-- TLBW (R253). -/
def execTlbw (h : Hdr) (ra rb : SReg) (s : State) : Host.Outcome State Fault Refusal := .next (run (tlbwOp h ra rb s))

/-- Removes the entries of a core's TLBs that cover an address, or all, with the instruction-buffer lines of their pages, each
by the page through which it was fetched; claimed misses of the pages go stale, and one whose page's size is not known yet
keeps the address (R254, R317). -/
def Core.tlbInval (c : Core) (va : Nat) (all : Bool) : Core :=
  let hit (e : TlbEntry) : Bool := all || e.covers va
  let gone := (c.tlb1 ++ c.tlb2).filter hit
  let inPage (a : Nat) : Bool := all || a / 2 ^ 16 == va / 2 ^ 16 || gone.any fun e => e.covers a
  { c with
    tlb1 := c.tlb1.filter fun e => !hit e
    tlb2 := c.tlb2.filter fun e => !hit e
    ibuf := c.ibuf.filter fun l => !(inPage (l.line * 64) || l.line * 64 / 2 ^ pageBits l.sz == va / 2 ^ pageBits l.sz)
    mbox := c.mbox.map fun e =>
      if e.st != .claimed then e
      else if inPage (e.vpn * 2 ^ 16) then { e with stale := true } else { e with inval := e.inval ++ [va] } }

/-- TLBI (R254). -/
def tlbiOp (h : Hdr) (ra rb : SReg) (s : State) : Except State State := do
  sysOnly s
  gateC { Uses.none with sr := [ra, rb] } s
  match s.doneVal with
  | some _ => return commitNext s h .drops (loneW h)
  | none =>
    let v := (s.regVal rb).toNat
    let va := (s.regVal ra).toNat
    if 8 ≤ v || 2 ≤ v % 4 then raise s 6 0x02 0
    else if v / 4 = 1 then
      let mine (c : Core) : Bool := c.cid == s.cur.cid || (s.partOf s.cur.cid).any fun p => p.hasSg (sgOf c.cid)
      holdFor { s with cores := s.cores.map fun c => if mine c then c.tlbInval va (v % 4 = 1) else c } 0#64 200
    else holdFor (s.updMyCore fun c => c.tlbInval va (v % 4 = 1)) 0#64 4

/-- TLBI (R254). -/
def execTlbi (h : Hdr) (ra rb : SReg) (s : State) : Host.Outcome State Fault Refusal := .next (run (tlbiOp h ra rb s))

/-- The completion half of MBOX: what it leaves, and whether it did nothing (R255). -/
def State.mboxComplete (s : State) (ra : SReg) : State × Bool :=
  if ra = .zr then (s, false)
  else
    let v := (s.regVal ra).toNat
    match s.myCore.mbox.find? fun e => e.ent == v % 16 && e.st == .claimed with
    | some e => (s.missDone s.cur.cid e (bits v 8 2) (bits v 10 3), false)
    | none => (s, true)

/-- The claim half of MBOX: the bundle commits with the oldest unclaimed record (R255). -/
def mboxClaim (s : State) (h : Hdr) (rd : SReg) (w : Bool) : State :=
  let s1 : State := commitNext s h .drops (loneW h || w)
  match (if rd = .zr then none else oldestMiss s.myCore.mbox) with
  | some e => (s1.updMiss s.cur.cid e.ent fun e => { e with st := .claimed }).valueLater rd e.record 2
  | none => s1

/-- MBOX (R255): the walker is not ready at one that claims while no record is unclaimed (R336). -/
def mboxOp (h : Hdr) (rd ra : SReg) (s : State) : Except State State := do
  if s.cur.slot != 16 then raise s 2 0x00 0
  sysOnly s
  gateC { Uses.none with sr := [ra], sw := [rd] } s
  let v := (s.regVal ra).toNat
  if rd != .zr && (oldestMiss s.myCore.mbox).isNone then notReady s
  else if ra != .zr && (v / 2 ^ 13 != 0 || bits v 4 4 != 0) then raise s 6 0x02 0
  else
    let (s1, w) := s.mboxComplete ra
    return mboxClaim s1 h rd w

/-- MBOX (R255). -/
def execMbox (h : Hdr) (rd ra : SReg) (s : State) : Host.Outcome State Fault Refusal := .next (run (mboxOp h rd ra s))

/-- The steps of the matrix engine that are due on a core. -/
def Ev.isMatrix (e : Ev) (cid : Nat) : Bool :=
  match e with
  | .mlsStart c => c == cid
  | .planeFull c => c == cid
  | .planeSwap c => c == cid
  | .passStart c => c == cid
  | .spallCarryResume c => c == cid
  | .passComplete c => c == cid
  | .mzeroStart c => c == cid
  | _ => false

/-- The matrix engine's reset (R256): what was reading a tile for it reads no more. -/
def State.matrixReset (s : State) (cid : Nat) : State :=
  let c := s.core cid
  let load := match c.shadow with
    | .loading _ _ tok => [tok]
    | _ => []
  let toks := c.mq.map (·.tok) ++ c.groups.toList.map (·.tok) ++ c.pass.toList.map (·.tok) ++ load
  let s1 : State := (s.dropDue fun e => Ev.isMatrix e cid).updCore cid fun c =>
    { c with
      mq := [], groups := none, pass := none, active := none, shadow := .empty, spall := [], loads := 0, swaps := 0, late := []
      stallAt := none
      acc := c.acc.map fun a => { a with inv := true }
      tiles := c.tiles.map fun t => { t with readers := t.readers.filter fun r => !toks.contains r } }
  -- a follow-on that the full queue held enters
  let s2 : State := (c.xfers.filter (·.ended)).foldl (fun s x => s.urgent (.tileBytesArrive cid x.tok)) (s1.tileChanged cid)
  (List.range 64).foldl (fun s t => s.releaseCheck cid t) s2

/-- The copy queue goes on; discard says that its commands go first, and with them what their copy-outs waited for.  A CPYC whose block
is still on its way is not yet in the queue, and stays (R243, R256). -/
def State.queueResume (s : State) (cid : Nat) (discard : Bool) : State :=
  -- what was landing behind the failed command goes on (R347)
  let s0 : State := ((s.core cid).xfers.filter (s.core cid).halts).foldl (fun s x =>
    x.recvs.foldl (fun s r => s.urgent (.tileBytesArrive r.cid x.tok)) s) s
  let s1 : State := s0.updCore cid fun c => { c with cqHalted := false }
  if !discard then s1.urgent (.copyCommandStart cid)
  else
    let left := (s.core cid).cq.filter fun q => decide (s.now < q.from_)
    let held := (List.range 64).filter fun t => ((s.core cid).tile t).out.isSome
    let s2 : State := s1.updCore cid fun c => { c with cq := left, tiles := c.tiles.map fun t => { t with out := none } }
    -- a TREL behind such a copy-out may take effect
    (held.foldl (fun s t => s.releaseCheck cid t) s2).urgent (.copyCommandStart cid)

/-- MRES: ra's value is the operation (R256). -/
def mresOp (h : Hdr) (ra : SReg) (s : State) : Except State State := do
  sysOnly s
  gateC { Uses.none with sr := [ra] } s
  let cid := s.cur.cid
  let v := (s.regVal ra).toNat
  if 3 ≤ v then raise s 6 0x02 0
  else
    let s1 : State := commitNext s h .drops (loneW h)
    if v = 2 then return s1.matrixReset cid
    else return s1.queueResume cid (v == 1)

/-- MRES with operation 0: resume (R256).  The word is the same for every operation, and ra's value decides. -/
def execMresResume (h : Hdr) (ra : SReg) (s : State) : Host.Outcome State Fault Refusal := .next (run (mresOp h ra s))

/-- MRES with operation 1: discard (R256). -/
def execMresDiscard (h : Hdr) (ra : SReg) (s : State) : Host.Outcome State Fault Refusal := .next (run (mresOp h ra s))

/-- MRES with operation 2: matrix reset (R256). -/
def execMresMatrixReset (h : Hdr) (ra : SReg) (s : State) : Host.Outcome State Fault Refusal := .next (run (mresOp h ra s))

/-! Control and status registers (R21, R22, R247 to R249). -/

/-- bud (R327): the budget less the bundles of this core, and of other cores at least 64 cycles old. -/
def State.budVal (s : State) : W64 :=
  match s.me.slice.bind s.slice with
  | none => BitVec.allOnes 64
  | some sl =>
    if sl.budget = 0 then BitVec.allOnes 64
    else
      let late := sl.recent.countP fun x => x.1 != s.cur.cid && decide (s.now < x.2 + s.ticks (dieOf s.cur.cid) 64)
      BitVec.ofNat 64 (sl.budget - (sl.issued - late))

/-- Entries that an accumulator holds in the spall buffer. -/
def Core.spallOf (c : Core) (k : Nat) : Nat := c.spall.countP fun e => e.acc == k

/-- What a CSR reads. -/
def State.csrVal (s : State) (n : Nat) : W64 :=
  let c := s.me.csr
  let k := s.myCore
  let q := s.contQ (sgOf s.cur.cid)
  match n with
  | 0x001 => c.fst
  | 0x002 => c.fmode
  | 0x003 => c.wlim
  | 0x004 => c.chk
  | 0x010 => c.ifp
  | 0x011 => c.ifl
  | 0x012 => c.cfp
  | 0x013 => c.cfl
  | 0x020 => k.mctl
  | 0x021 => BitVec.ofNat 64 (k.spallOf 0 + k.spallOf 1 * 2 ^ 8 + k.spallOf 2 * 2 ^ 16 + k.spallOf 3 * 2 ^ 24)
  | 0x030 => BitVec.ofNat 64 s.tsc
  | 0x031 => s.budVal
  | 0x040 => k.finj
  | 0x100 => c.estat
  | 0x101 => c.epc
  | 0x102 => c.eaddr
  | 0x103 => k.tvec
  | 0x110 => k.wentry
  | 0x111 => BitVec.ofNat 64 (k.mbox.countP (fun e => e.st == .unclaimed) * 2 ^ 8 + k.mbox.length)
  | 0x112 => k.ptroot
  | 0x120 => k.sfb
  | 0x121 => k.sfs
  | 0x122 =>
    match s.partOf s.cur.cid with
    | some p => BitVec.ofNat 64 (32 + p.num)
    | none => 0#64
  | 0x130 => q.cqsb
  | 0x131 => q.cqsn
  | 0x132 => (s.part (s.partNum s.cur.cid)).cqsq
  | 0x133 => BitVec.ofNat 64 (q.spill.length * 2 ^ 8 + bit01 q.stalled * 2 ^ 7 + q.recs.length)
  | 0x140 => k.eq.d0
  | 0x141 => k.eq.d1
  | 0x142 => k.eq.d2
  | 0x143 => k.eq.d3
  | 0x144 => BitVec.ofNat 64 (k.cq.countP (fun x => decide (x.from_ ≤ s.now)) * 2 ^ 8 + bit01 k.cqHalted)
  | _ => 0#64

/-- The bits of a CSR that a write changes; the others are reserved (R20 to R22). -/
def csrMask (n : Nat) : W64 :=
  match n with
  | 0x001 => 0x3F00FF#64
  | 0x002 => 0x3#64
  | 0x003 => 0xFFFFFFFF#64
  | 0x004 => 0x1#64
  | 0x010 => ~~~0x3F#64
  | 0x011 => ~~~0x3F#64
  | 0x012 => ~~~0x7#64
  | 0x013 => ~~~0x7#64
  | 0x020 => 0x3#64
  | 0x040 => 0xFFFFFFFF00001F0F#64
  | 0x100 => 0x1FF#64
  | 0x103 => ~~~0x7#64
  | 0x110 => ~~~0x7#64
  | 0x112 => ~~~0xFFFF#64
  | 0x113 => ~~~0xFFFF#64
  | 0x130 => ~~~0xFFFF#64
  | 0x131 => 0x1F#64
  | 0x132 => 0xFFFFFFFF#64
  | _ => BitVec.allOnes 64

/-- finj written: armed for a thread in a slot and a KIND that is not reserved (R249). -/
def Core.armFinj (c : Core) (v : W64) : Core :=
  let live := (c.thread (v.extractLsb' 8 5).toNat).isSome && decide ((v.extractLsb' 8 5).toNat < 16)
  let v' := if live && decide ((v.extractLsb' 1 3).toNat < 3) then v else v &&& ~~~1#64
  { c with finj := v', finjCnt := 0 }

/-- A write to a writable CSR by the issuing thread. -/
def State.csrPut (s : State) (n : Nat) (v0 : W64) : State :=
  let v := v0 &&& csrMask n
  let th (f : Csrs → Csrs) : State := s.updMe fun t => { t with csr := f t.csr }
  let sg := sgOf s.cur.cid
  match n with
  | 0x001 => th fun c => { c with fst := v }
  | 0x002 => th fun c => { c with fmode := v }
  | 0x003 => th fun c => { c with wlim := v }
  | 0x004 => th fun c => { c with chk := v }
  | 0x010 => th fun c => { c with ifp := v }
  | 0x011 => th fun c => { c with ifl := v }
  | 0x012 => th fun c => { c with cfp := v }
  | 0x013 => th fun c => { c with cfl := v }
  | 0x020 => s.updMyCore fun c => { c with mctl := v }
  | 0x040 => s.urgent (.finjWrite s.cur.cid v)
  | 0x100 => th fun c => { c with estat := v }
  | 0x101 => th fun c => { c with epc := v }
  | 0x102 => th fun c => { c with eaddr := v }
  | 0x103 => s.updMyCore fun c => { c with tvec := v }
  | 0x110 => s.updMyCore fun c => { c with wentry := v }
  | 0x112 => s.updMyCore fun c => { c with ptroot := v }
  | 0x113 => s.urgent (.migd (s.partNum s.cur.cid) v)
  | 0x120 => s.updMyCore fun c => { c with sfb := v }
  | 0x121 => s.updMyCore fun c => { c with sfs := v }
  | 0x130 => s.updContQ sg fun q => { q with cqsb := v }
  | 0x131 => s.updContQ sg fun q => { q with cqsn := v }
  | 0x132 => s.updPart (s.partNum s.cur.cid) fun p => { p with cqsq := v }
  | _ => s

/-- A CSR instruction; new is the value written, where one is (R247).  A value written to fst stands first, and the flags of the
bundle's A-slot are ORed into it at the commitment (R44; DESIGN CHOICE, log entry 69). -/
def csrOp (h : Hdr) (rd : SReg) (ra : Option SReg) (csr : BitVec 12) (new : State → Option W64) (s : State) :
    Except State State := do
  let n := csr.toNat
  if csrSystem n then sysOnly s
  let u : Uses := { Uses.none with sr := ra.toList, sw := [rd] }
  -- a write to a read-only CSR ranks with ROWRITE, behind the registers' window and before readiness (R45)
  if csrReadOnly n && (new s).isSome && !(u.sr.any s.me.outside || s.me.outside rd || s.me.readOnly rd) then raise s 2 0x06 0
  gateC u s
  let old := s.csrVal n
  let s1 : State := match new s with
    | some v => s.csrPut n v
    | none => s
  return (commitNext s1 h .drops (loneW h)).valueLater rd old 2

/-- CSRR (R247). -/
def execCsrr (h : Hdr) (rd : SReg) (csr : BitVec 12) (s : State) : Host.Outcome State Fault Refusal :=
  .next (run (csrOp h rd none csr (fun _ => none) s))

/-- CSRW (R247). -/
def execCsrw (h : Hdr) (rd ra : SReg) (csr : BitVec 12) (s : State) : Host.Outcome State Fault Refusal :=
  .next (run (csrOp h rd (some ra) csr (fun s => some (s.regVal ra)) s))

/-- CSRS (R247): with zr, a read only. -/
def execCsrs (h : Hdr) (rd ra : SReg) (csr : BitVec 12) (s : State) : Host.Outcome State Fault Refusal :=
  .next (run (csrOp h rd (some ra) csr
    (fun s => if ra = .zr then none else some (s.csrVal csr.toNat ||| s.regVal ra)) s))

/-- A write to finj (R249). -/
def execFinjWrite (s : State) : Host.Outcome State Fault Refusal :=
  .next (match s.evt with
    | .finjWrite cid v => s.updCore cid fun c => c.armFinj (v &&& csrMask 0x040)
    | _ => s)

/-- The cause that an injection gives its bundle (R249): of an atomic, CAS, LDF or LDFE, the read's own. -/
def finjCause (kind : Nat) (atomic : Bool) : Nat :=
  if kind = 0 then 0x4C else if kind = 1 then (if atomic then 0x33 else 0x30) else 0x4E

end Sys2Proof.Machine
end

