-- ==== Sys2Proof/Machine/Service.lean ====
section
/-! DEFINITION. The device as a whole: start-up and service (R369 to R373), clocks (R374), slice retirement (R305), the Zoune
links (R357 to R359), the host's windows (R363, R364), page replies (R315, R316, R366), and core control (R38, R40, R367). -/

namespace Sys2Proof.Machine

/-! Refused host accesses (R365, R386, R387). -/

/-- A host write that is discarded and logged, by its window offset. -/
def State.discard (s : State) (off : Nat) : State := s.violation 0 1 0 2047 31 off 0

/-- An access that completes with Unsupported Request. -/
def State.unsupported (s : State) : State := s.updDev fun d => { d with unsupported := d.unsupported + 1 }

/-- A host write outside the map of the control window. -/
def State.forbidden (s : State) (off : Nat) : State := (s.discard off).unsupported

/-- The offset of a word of a partition's control block (R364). -/
def cbOff (part k : Nat) : Nat := 0x100000 + 0x10000 * part + k

/-! Retirement and the report of degradation (R305, R369). -/

/-- DEGR: the retired slices and failed links, as far as four bits count. -/
def Device.degraded (d : Device) : Nat := min 15 (d.retired.length + d.ports.toList.countP (·.failed))

/-- Counts the retired slices and failed links that are reported. -/
def State.report (s : State) : State := s.updDev fun d => { d with degr := d.degraded }

/-- The slice that owns a bucket. -/
def State.ownerOf (s : State) (die b : Nat) : Nat :=
  match s.dev.owners.find? fun o => o.1 == die && o.2.1 == b with
  | some o => o.2.2
  | none => b % 32

/-- The slices in the order s + 1, s − 1, s + 2, s − 2, … (R305). -/
def nearOrder (k : Nat) : List Nat :=
  ((List.range 16).flatMap fun i => [(k + i + 1) % 32, (k + 31 - i) % 32]).eraseDups

/-- Retires a slice of a die: its lines go back to HBM, its buckets to the nearest working slices (R305). -/
def State.retire (s : State) (die k : Nat) : State :=
  if s.dev.retired.contains (die, k) then s
  else
    let s1 : State := { s with l2 := s.l2.filter fun l =>
      !(l.line * 256 / Config.dieBytes == die && s.sliceOf die (l.line * 256) == k) }
    let mine := (List.range 1024).filter fun b => s.ownerOf die b == k
    let dest := (nearOrder k).filter fun x => !s.dev.retired.contains (die, x)
    let moved := if dest.isEmpty then [] else mine.zipIdx.map fun b => (die, b.1, dest.getD (b.2 % dest.length) 0)
    (s1.updDev fun d =>
      { d with
        retired := d.retired ++ [(die, k)]
        owners := (d.owners.filter fun o => !(o.1 == die && mine.contains o.2.1)) ++ moved }).report

/-- An error is corrected in slice n % 32 of die n / 32: it is counted, and a count of one interval of the firmware's that passes the
threshold retires the slice (R305; DESIGN CHOICE, log entry 87). -/
def State.corrected (s : State) (n : Nat) : State :=
  let i := s.tsc / s.dev.errSpan
  let k := match s.dev.sliceErrs.find? fun e => e.1 == n with
    | some (_, j, c) => if j = i then c + 1 else 1
    | none => 1
  let t : State := s.updDev fun d => { d with sliceErrs := d.sliceErrs.filter (fun e => e.1 != n) ++ [(n, i, k)] }
  if t.dev.errLimit.any fun m => decide (m < k) then t.urgent (.sliceRetire (n / 32) (n % 32)) else t

/-- A slice's corrected errors have passed their threshold: it retires, at once (R305). -/
def execSliceRetire (s : State) : Host.Outcome State Fault Refusal :=
  .next (match s.evt with
    | .sliceRetire die k =>
      if s.dev.retired.contains (die, k) || 4 ≤ die || 32 ≤ k then s
      else (s.retire die k).event "slice retired" die k
    | _ => s)

/-! Start-up (R370 to R372). -/

/-- An image passes the boot ROM's verification (R370; DESIGN CHOICE, log entry 8). -/
def imageOk (image svn : Nat) : Bool := Config.imageValid image && decide (Config.fusedMinSvn ≤ svn)

/-- The firmware starts: reduced service begins (R370). -/
def State.startReduced (s : State) (image svn : Nat) : State :=
  s.updDev fun d => { d with service := .reduced, svn := svn % 256, image := image, msix := d.msix ++ [0] }

/-- Power-on or device reset: everything is at its reset value and every tag empty; the boot ROM verifies the image in flash
(R307, R370).  What the host has yet to do stands. -/
def execDeviceReset (s : State) : Host.Outcome State Fault Refusal :=
  .next (match s.evt with
    | .deviceReset =>
      let s1 : State := { State.reset with
        agenda := [], inputs := s.inputs, evt := s.evt, ctr := s.ctr, freeCtr := s.freeCtr
        dev := { Device.fresh with flash := s.dev.flash } }
      if imageOk s.dev.flash.1 s.dev.flash.2 then s1.startReduced s.dev.flash.1 s.dev.flash.2
      else s1.updDev fun d => { d with service := .recovery }
    | _ => s)

/-- In recovery, the image that the host has written is verified and started (R370). -/
def execImageLoad (s : State) : Host.Outcome State Fault Refusal :=
  .next (match s.evt with
    | .imageLoad image svn =>
      if s.dev.service != .recovery then s
      else if imageOk image svn then s.startReduced image svn
      else s.updDev fun d => { d with mailErr := Config.failureCode image }
    | _ => s)

/-- Cycles of 100 ms (R372). -/
def hundredMs : Nat := 120000000

/-- HBM training and die test end; bad names the slices that failed, slice k of die d as 32·d + k.  The reduced partition
dispatches no more, or the device has failed (R370, R372). -/
def execTrainingComplete (s : State) : Host.Outcome State Fault Refusal :=
  .next (match s.evt with
    | .trainingComplete bad =>
      if s.dev.service != .reduced || s.dev.trained.isSome then s
      else
        let s1 : State := bad.foldl (fun s k => s.retire (k / 32) (k % 32)) s
        if (List.range 4).any s1.dieLost then s1.updDev fun d => { d with service := .failed }
        else
          let s2 : State := s1.updDev fun d => { d with trained := some s.now }
          (s2.atCycle (s.now + hundredMs) .reducedSliceTimeout).urgent .fullServiceEntry
    | _ => s)

/-- 100 ms after training, what still runs ends as GSCTL end would end it, and the move follows (R372). -/
def execReducedSliceTimeout (s : State) : Host.Outcome State Fault Refusal :=
  .next (match s.evt with
    | .reducedSliceTimeout =>
      if s.dev.service != .reduced || s.dev.trained.isNone then s
      else
        let s1 : State := s.urgent .fullServiceEntry
        (s1.slices.filter fun x => x.st == .running).foldl (fun s x => s.sliceDies x.uid 0x4D 0) s1
    | _ => s)

/-- The text of an attestation report as one number (R373). -/
def Report.text (r : Report) : Nat :=
  r.rom.toNat + 2 ^ 384 * (r.image.toNat + 2 ^ 384 * (r.config.toNat + 2 ^ 384 * (r.svn + 2 ^ 8 * (r.dev + 2 ^ 6 *
    (r.nonce.toNat + 2 ^ 256 * (r.keys.1.toNat + 2 ^ 256 * r.keys.2.toNat))))))

/-- The partition configuration as one number. -/
def State.configCode (s : State) : Nat :=
  (s.parts.filter (·.valid)).foldl (fun a p => a * 2 ^ 25 + p.num * 2 ^ 20 + p.sgs.toNat) 0

/-- An attestation request: a report signed with both keys (R373; DESIGN CHOICE, log entry 8). -/
def execAttestationRequest (s : State) : Host.Outcome State Fault Refusal :=
  .next (match s.evt with
    | .attestationRequest nonce =>
      let r : Report :=
        { rom := Config.measure 0, image := Config.measure (2 * s.dev.image + 1), config := Config.measure (2 * s.configCode + 2),
          svn := s.dev.svn, dev := s.dev.devid, nonce := nonce, keys := Config.identityKeys, sigs := (0, 0) }
      s.updDev fun d => { d with mailbox := d.mailbox ++ [{ r with sigs := Config.signReport r.text }] }
    | _ => s)

/-! Power (R374). -/

/-- A moment that lies n cycles of a die's clock ahead in s lies n of its cycles ahead in t, where the clock has changed; one before the
die's next cycle stays (R46, R374). -/
def State.retime (s t : State) (die a : Nat) : Nat :=
  let f := if h : die < 4 then s.dev.mhz[die] else 1200
  let n := (a + 1) * f / 1200 - (s.now + 1) * f / 1200
  if a ≤ s.now || n = 0 then a else t.dieAfter die t.now n

/-- The core whose clock counts the cycles to a step that is due. -/
def State.evCore (s : State) (e : Ev) : Option Nat :=
  match e with
  | .fixedLatencyWriteback c _ _ => some c
  | .stallCountExpiry c _ _ => some c
  | .registerWriteMessage _ _ _ _ c _ _ _ => some c
  | .bankWakeDone c _ => some c
  | .memberStart c _ f k => some (((s.fam f).map fun f => if f.first c k then f.clock c else c).getD c)
  | .inlineMemberEntry c _ => some c
  | .inlineRestore c _ => some c
  | .syncComplete c _ _ => some c
  | .killMessage c _ => some c
  | .planeFull c => some c
  | .passStart c => some c
  | .passComplete c => some c
  | .spallCarryResume c => some c
  | .drainComplete c => some c
  | .mxswComplete c _ => some c
  | .copyCommandStart c => some c
  | .copyOutComplete c _ => some c
  | .tileBytesArrive _ tok => (s.xfer tok).map (·.1)
  | .loadResponse t => (s.req t).map (·.who.cid)
  | .storeAck t => (s.req t).map (·.who.cid)
  | .errorResponse t => (s.req t).map (·.who.cid)
  | .homeRequest t => (s.req t).map (·.who.cid)
  | .delegationRequest f => (s.fam f).map (·.parentCid)
  | .delegationAnswer f _ => (s.fam f).map (·.parentCid)
  | .detJoinDecrement f => (s.fam f).map (·.cid)
  | .purgeComplete t => (s.purges.find? fun p => p.tok == t).map (·.cid)
  | .mergeBlock t => (s.parts.findSome? fun p => p.joins.find? fun j => j.tok == t).map (·.who.cid)
  | _ => none

/-- A step that names the moment in which it is due. -/
def Ev.retimed (e : Ev) (k : Nat → Nat) : Ev :=
  match e with
  | .stallCountExpiry c slot n => .stallCountExpiry c slot (k n)
  | e => e

/-- The moments that a thread waits for. -/
def Thread.retimed (t : Thread) (k : Nat → Nat) : Thread :=
  let fl (f : Flight) : Flight := { f with land := k f.land }
  { t with stall := t.stall.map k, flights := t.flights.map fl, aside := t.aside.map fl, acqUntil := k t.acqUntil }

/-- The moments that a request waits for. -/
def Req.retimed (r : Req) (k : Nat → Nat) : Req :=
  { r with
    from_ := k r.from_, limit := r.limit.map k, parts := r.parts.map fun p => (p.1, p.2.map k)
    st := match r.st with
      | .answered t => .answered (k t)
      | st => st }

/-- The moments that a transfer waits for. -/
def Xfer.retimed (x : Xfer) (k : Nat → Nat) : Xfer :=
  { x with
    units := x.units.map fun u => { u with due := k u.due }
    failAt := k x.failAt
    prog := { x.prog with land := k x.prog.land, t0 := k x.prog.t0, marks := x.prog.marks.map fun u => { u with due := k u.due } } }

/-- The moments that a core's threads and engines wait for. -/
def Core.retimed (c : Core) (k : Nat → Nat) : Core :=
  { c with
    slots := c.slots.map fun o => o.map fun t => t.retimed k
    runs := c.runs.map fun r => { r with creator := r.creator.retimed k }
    mq := c.mq.map fun m => { m with from_ := k m.from_ }
    cq := c.cq.map fun q => { q with from_ := k q.from_ }
    cqFree := k c.cqFree
    xfers := c.xfers.map fun x => x.retimed k }

/-- A die's clock has changed from what it was in s: what its cores count in cycles comes that many of the new cycles later, in the
order in which it would have come (R46, R258, R374). -/
def State.retimed (t s : State) (die : Nat) : State :=
  let k := s.retime t die
  let on (cid : Nat) : Bool := dieOf cid == die
  { t with
    cores := t.cores.map fun c => if on c.cid then c.retimed k else c
    reqs := t.reqs.map fun r => if on r.who.cid then r.retimed k else r
    agenda := (t.agenda.map fun d =>
      if (s.evCore d.what).any on then { at_ := k d.at_, what := Ev.retimed d.what k } else d).foldl (fun l d => insDue d l) [] }

/-- The clock at which a die runs within its limits: that of full service, in which a device that has failed since goes
on (R374; DESIGN CHOICE, log entry 85). -/
def Device.topMhz (d : Device) : Nat := if d.service = .full || (d.service == .failed && d.trained.isSome) then 1200 else 600

/-- The move to full service, once training has ended and no slice runs; what counts cycles goes on in those of the new clock (R46, R370,
R372, R374). -/
def execFullServiceEntry (s : State) : Host.Outcome State Fault Refusal :=
  .next (match s.evt with
    | .fullServiceEntry =>
      if s.dev.service != .reduced || s.dev.trained.isNone || s.slices.any fun x => x.st == .running then s
      else
        let s1 : State := { s.updDev fun d =>
          { d with service := .full, mhz := Vector.replicate 4 1200, msix := d.msix ++ [0] } with l2 := [] }
        let s2 : State := (List.range 4).foldl (fun t die => t.retimed s die) s1
        (s2.parts.filter (·.valid)).foldl (fun s p => s.urgent (.sliceDispatch p.num)) s2
    | _ => s)

/-- A die's arithmetic clock steps by 100 MHz, down at a limit and up again behind it; no lower than 100 MHz (R374; DESIGN
CHOICE, log entry 85). -/
def execClockStep (s : State) : Host.Outcome State Fault Refusal :=
  .next (match s.evt with
    | .clockStep die up =>
      (s.updDev fun d => { d with mhz := Vector.ofFn fun i =>
        if i.val = die then (if up then min d.topMhz (d.mhz.get i + 100) else max 100 (d.mhz.get i - 100)) else d.mhz.get i }).retimed s die
    | _ => s)

/-- A die at 115 °C stops its partitions, and the status word reports failed. -/
def execThermalStop (s : State) : Host.Outcome State Fault Refusal :=
  .next (match s.evt with
    | .thermalStop die =>
      let s1 : State := s.updDev fun d => { d with service := .failed }
      (s1.parts.filter fun p => p.valid && p.gsst == .running && (List.range 5).any fun i => p.hasSg (die * 5 + i)).foldl
        (fun s p => s.urgent (.gsctlStop p.num)) s1
    | _ => s)

/-! Zoune links (R357 to R359). -/

def Device.updPort (d : Device) (k : Nat) (f : Port → Port) : Device :=
  { d with ports := Vector.ofFn fun i => if i.val = k then f (d.ports.get i) else d.ports.get i }

def Device.port (d : Device) (k : Nat) : Option Port := d.ports.toList[k]?

/-- A flit is replayed; again says that it was replayed before.  A ninth failure fails the link (R357). -/
def execLinkFlitReplay (s : State) : Host.Outcome State Fault Refusal :=
  .next (match s.evt with
    | .linkFlitReplay k again =>
      match s.dev.port k with
      | none => s
      | some p =>
        if !p.up || p.failed then s
        else if again && decide (8 ≤ p.replays) then s.urgent (.linkFailure k)
        else s.updDev fun d => d.updPort k fun p => { p with replays := if again then p.replays + 1 else 1 }
    | _ => s)

/-- A link has given no acknowledgement for 10 µs: it has failed (R357). -/
def execLinkAckTimeout (s : State) : Host.Outcome State Fault Refusal :=
  .next (match s.evt with
    | .linkAckTimeout k =>
      match s.dev.port k with
      | none => s
      | some p => if p.up && !p.failed then s.urgent (.linkFailure k) else s
    | _ => s)

/-- The answer of a request becomes HWERR_LINK, and comes at once (R359). -/
def State.answerFails (s : State) (r : Req) : State :=
  let mine (e : Ev) : Bool := e == .loadResponse r.tok || e == .storeAck r.tok || e == .errorResponse r.tok || e == .homeRequest r.tok
  ((s.dropDue mine).updReq r.tok fun r => { r with st := .performed, err := some { cause := 0x4E, addr := 0 } }).atCycle s.now
    (.errorResponse r.tok)

/-- A request's address lies at a home whose answer is on its way, at port k (R356, R359). -/
def State.flies (s : State) (k : Nat) (r : Req) (v : Nat × Nat) : Bool :=
  v.2 == k && (r.parts.isEmpty || r.parts.any fun p => p.1 == s.homeOf v.1 && p.2.any fun c => decide (s.now < c))

/-- A request in flight over port k fails with HWERR_LINK (R359).  Where the bundle that made it is held for something else, the bundle
fails; where a vector instruction's requests have still to leave, their lanes go on, and the instruction fails with the last. -/
def State.linkFail (s : State) (k : Nat) (r : Req) : State :=
  if r.answered then
    match ((s.whoThread r.who).map Thread.hold : Option Hold) with
    | some (.busy tok) =>
      match s.req tok with
      | some q => s.answerFails q
      | none => s
    | _ => s
  else if r.lanes.isEmpty || r.st == .performed then s.answerFails r
  else
    match r.lanes.find? fun u => r.via.any fun v => v.1 == u.pa && s.flies k r v with
    | some u => s.updReq r.tok fun q => q.spoil u { cause := 0x4E, addr := 0 }
    | none => s

/-- A request is in flight: its answer is, or it is itself, on the way to a word of a full/empty operation (R173, R359). -/
def Req.inFlight (r : Req) (now : Nat) : Bool :=
  match r.st with
  | .performed => true
  | .answered t => decide (now < t)
  | .sent => decide (r.from_ ≤ now) &&
      (match r.kind with
       | .fe _ _ => true
       | _ => !r.parts.isEmpty)
  | .waiting => !r.parts.isEmpty

/-- A transfer loses the units that have yet to cross a failed link, and ends with the cause there (R359). -/
def Xfer.linkFail (x : Xfer) (now port : Nat) : Xfer :=
  let gone (u : XUnit) : Bool := decide (now < u.due) && u.port == some port
  match x.units.find? gone with
  | none => x
  | some u =>
    { x with units := x.units.takeWhile fun v => !gone v, whole := true, fail := some { cause := 0x4E, addr := u.va }, failAt := now }

/-- A transfer that waited for a page ends with the cause of a failed link. -/
def State.linkEnds (s : State) (cid : Nat) (old new : Xfer) : State :=
  if old.whole || !new.whole then s
  else if new.cmd.form = 1 then s.atCycle s.now (.copyOutComplete cid new.tok) else s.recvsLook new s.now

/-- A failed link: what is in flight over it fails, and routes go on over the ports that are left (R359). -/
def execLinkFailure (s : State) : Host.Outcome State Fault Refusal :=
  .next (match s.evt with
    | .linkFailure k =>
      match s.dev.port k with
      | none => s
      | some p =>
        if !p.up || p.failed then s
        else
          let rs := s.reqs.filter fun r => r.inFlight s.now && r.via.any (s.flies k r)
          let vs := s.travs.filter fun v => v.dev != s.dev.devid && v.port == some k &&
            s.agenda.any fun d => d.what == .travellerArrival v.tok
          let s1 : State := { s with
            cores := s.cores.map fun c => { c with xfers := c.xfers.map fun x => x.linkFail s.now k }
            travs := s.travs.filter fun v => !(vs.any fun w => w.tok == v.tok) }
          let s2 : State := s.cores.foldl (fun t c => c.xfers.foldl (fun t x =>
            t.linkEnds c.cid x (x.linkFail s.now k)) t) (rs.foldl (fun s r => s.linkFail k r) s1)
          let s3 : State := vs.foldl (fun s v =>
            s.startPurge (s.taskOf v.thread) v.thread.slice 0x4E 2047 31 v.thread.pc.toNat 0) s2
          (((s3.updDev fun d => d.updPort k fun p => { p with up := false, failed := true }).report).event "link failed" k 0)
    | _ => s)

/-- A link completes training, at 8 lanes or at 4 (R357); links are down in reduced service (R371). -/
def execLinkTraining (s : State) : Host.Outcome State Fault Refusal :=
  .next (match s.evt with
    | .linkTraining k half =>
      if s.dev.service != .full then s
      else (s.updDev fun d => d.updPort k fun _ => { up := true, half := half, failed := false, replays := 0 }).report
    | _ => s)

/-! The host's window on memory (R363). -/

/-- A host access of n bytes at an offset of BAR2's window that is refused. -/
def State.bar2Bad (s : State) (addr n : Nat) : Bool :=
  let pa := s.dev.bar2.toNat + addr
  !(s.dev.service == .reduced || s.dev.service == .full) || n = 0 || 8 < n || decide (s.dev.bar2Size < addr + n) ||
    decide ((if s.dev.service = .reduced then reducedBytes else Config.memBytes) < pa + n) ||
    (s.dev.closed ++ s.parts.flatMap (·.closed)).any fun r => decide (r.1 < pa + n) && decide (pa ≤ r.2)

/-- A host access through BAR2: performed at the home slice without L1, or refused and logged (R363, R386).  A read that finds an
uncorrectable error completes with an error, and leaves no entry (R306; DESIGN CHOICE, log entry 64). -/
def State.bar2Access (s : State) (write : Bool) (addr n : Nat) (v : W64) : State :=
  let pa := s.dev.bar2.toNat + addr
  if s.bar2Bad addr n then (s.violation 1 (if write then 1 else 0) 0 2047 31 pa 0).unsupported
  else if write then (s.l2Wrote pa 1 n).putBytes 20 none 0 pa (toLe n v.toNat)
  else if s.spoilt pa n && !s.l2Hit pa n then s.unsupported
  else (s.l2Touch pa 1 n).updDev fun d => { d with hostRead := Memory.val s.mem pa n }

/-! What the words of the control window read (R364). -/

/-- The code of the service state in the status word. -/
def Service.code : Service → Nat
  | .rom => 0
  | .reduced => 1
  | .full => 2
  | .recovery => 3
  | .failed => 4

/-- The status word (R369). -/
def Device.status (d : Device) : W64 :=
  BitVec.ofNat 64 (d.svn % 256 * 2 ^ 32 + d.devid % 64 * 2 ^ 26 + d.degr % 16 * 2 ^ 4 + d.service.code)

/-- Word k of a partition's control block (R365, R366, R389); what is only written reads a free value. -/
def State.blockRead (s : State) (part k : Nat) : Option W64 :=
  let p := s.part part
  if k = 0 then some (BitVec.ofNat 64 (bit01 p.valid * 2 ^ 63 + p.sgs.toNat))
  else if k = 8 then some (BitVec.ofNat 64 (bit01 p.fatal))
  else if 0x40 ≤ k && k < 0x140 then
    let r := p.ring ((k - 0x40) / 0x20)
    some (if k % 0x20 = 0 then r.base else if k % 0x20 = 8 then r.size else if k % 0x20 = 16 then r.head.zeroExtend 64
      else r.tail.zeroExtend 64)
  else if k = 0x318 then some p.swtime
  else if k = 0x328 then some (BitVec.ofNat 64 (match p.gsst with
    | .running => 0
    | .stopping => 1
    | .stopped => 2
    | .saving => 3
    | .out => 4
    | .restoring => 5))
  else if 0x400 ≤ k && k ≤ 0x460 then
    [p.ctbase, p.ctcnt, p.hfqbase, p.hfqsz, p.hfqtail, p.hfqhead, p.dlbase, p.dlsz, p.dlcnt, p.clbase, p.clsz, p.clcnt,
      p.clovf][(k - 0x400) / 8]?
  else if (0x200 ≤ k && k < 0x240) || k = 0x300 || k = 0x308 || k = 0x310 || k = 0x320 then some (Config.hostWord (cbOff part k))
  else none

/-- The halted slots of a core (R367). -/
def Core.haltedBits (c : Core) : W64 :=
  BitVec.ofNat 64 (((List.range 17).map fun i =>
    if (c.thread i).any fun t => t.hold == .wait .halted then 2 ^ i else 0).sum)

/-- A word of a core's control block (R367, R388). -/
def Core.controlWord (c : Core) (k : Nat) : Option W64 :=
  if k = 0 then some c.haltedBits else if k = 8 then some c.stopck else if k = 16 then some c.msent else if k = 24 then some c.mrecv
  else none

/-- A word of the violation log: COUNT, or a dword of an entry (R387). -/
def Device.violWord (d : Device) (k : Nat) : Option W64 :=
  if k = 0 then some (BitVec.ofNat 64 d.violCount)
  else if k < 0x20 then none
  else match d.viols[(k - 0x20) / 0x20]? with
    | none => some 0#64
    | some e => [e.d0, e.d1, e.d2, e.d3][k % 0x20 / 8]?

/-- What a host read of the control window gives; nothing outside its map (R364).  A word inside it whose content the manual does not
give reads a free value.  In the failed state only mailbox and status answer (R370). -/
def State.controlWord (s : State) (off : Nat) : Option W64 :=
  let free := some (Config.hostWord off)
  if off % 8 != 0 then none
  else if off = 0 then some s.dev.status
  else if s.dev.service == .failed && decide (0x2000 ≤ off) then none
  else if off = 0x100 then some s.dev.bar2
  else if off < 0x2000 then free
  else if 0x10000 ≤ off && off < 0x20000 then ((s.dev.msixTable.find? fun x => x.1 == off - 0x10000).map (·.2)).or free
  else if 0x100000 ≤ off && off < 0x240000 then s.blockRead ((off - 0x100000) / 0x10000) ((off - 0x100000) % 0x10000)
  else if 0x300000 ≤ off && off < 0x300000 + 0x40 * 1280 then
    ((s.core ((off - 0x300000) / 0x40)).controlWord (off % 0x40)).or free
  else if 0x400000 ≤ off && off < 0x410000 then (s.dev.violWord (off - 0x400000)).or free
  else none

/-- A host read of the control window; one outside its map is logged and completes with Unsupported Request (R364, R386). -/
def State.controlRead (s : State) (off : Nat) : State :=
  match s.controlWord off with
  | some v => s.updDev fun d => { d with hostRead := v.toNat }
  | none => (s.violation 0 0 0 2047 31 off 0).unsupported

/-- A host access through BAR2, or a read of BAR0's window (R363, R364, R386). -/
def execHostBar2Access (s : State) : Host.Outcome State Fault Refusal :=
  .next (match s.evt with
    | .hostBar2Access write addr n v => s.bar2Access write addr n v
    | .controlRead off => s.controlRead off
    | _ => s)

/-! Page replies (R315, R316, R334, R366). -/

/-- A reply whose reserved fields are zero, to a core of the partition. -/
def State.replyOk (s : State) (part v : Nat) : Bool :=
  v / 2 ^ 45 == 0 && decide (bits v 40 2 < 2) && bits v 37 3 == 0 && bits v 27 5 == 0 && bits v 0 16 == 0 &&
    decide (bits v 16 11 < 1280) && (s.part part).hasSg (sgOf (bits v 16 11))

/-- A reply acts on a mailbox entry that waits for it, or on the spill stall of the core's supergroup.  The host answers the requests
of an entry in their order, so a request that a gang switch discarded takes the first (R317; DEDUCED, log entry 49). -/
def State.reply (s : State) (part v : Nat) : State :=
  let cid := bits v 16 11
  let ent := bits v 32 4
  if bits v 36 1 = 1 then
    let sg := sgOf cid
    if !((s.contQ sg).stalled && (s.contQ sg).posted) then s
    else if bits v 40 2 = 0 then
      (s.updContQ sg fun q => { q with posted := false }).urgent (.spillOverflowMove sg)
    else s.spillFatal part sg
  else if (s.core cid).lost.contains ent then s.updCore cid fun c => { c with lost := c.lost.erase ent }
  else
    match (s.core cid).mbox.find? fun e => e.ent == ent && e.st == .suspended with
    | none => s
    | some e => if bits v 40 2 = 0 then s.missRetry cid e else s.missFault cid e (bits v 42 3)

/-- The host's reply to a page request (R315); one for a switched-out partition is held until switch-in (R392). -/
def execPgreply (s : State) : Host.Outcome State Fault Refusal :=
  .next (match s.evt with
    | .pgreply part v =>
      if !s.replyOk part v.toNat then s.discard (cbOff part 0x308)
      else if (s.part part).away then s.updPart part fun p => { p with heldIn := p.heldIn ++ [.pgreply part v] }
      else s.reply part v.toNat
    | _ => s)

/-- The end of a migration; nothing is parked for a switched-out partition (R316, R390). -/
def execMigd (s : State) : Host.Outcome State Fault Refusal :=
  .next (match s.evt with
    | .migd part v =>
      if v.toNat % 2 ^ 16 != 0 then s.discard (cbOff part 0x310)
      else if (s.part part).away then s
      else s.migDone (s.part part) (v.toNat / 2 ^ 16)
    | _ => s)

/-- Posts the page request of the oldest mailbox entry of a partition that waits for room in its queue (R366). -/
def State.postOldest (s : State) (p : Part) : State :=
  let es := s.cores.flatMap fun c =>
    if p.hasSg (sgOf c.cid) then (c.mbox.filter fun e => e.st == .unposted).map fun e => (c.cid, e) else []
  match es.foldl (fun (best : Option (Nat × Miss)) x =>
      match best with
      | some b => if x.2.seq < b.2.seq then some x else best
      | none => some x) none with
  | some x => s.missPost x.1 x.2
  | none => s

/-- The host has consumed records of its fault queue: what waited for room posts (R366). -/
def execHfqheadWrite (s : State) : Host.Outcome State Fault Refusal :=
  .next (match s.evt with
    | .hfqheadWrite part v =>
      let p := s.part part
      let m := 2 ^ 32
      if m ≤ v.toNat || (p.hfqtail.toNat + m - p.hfqhead.toNat) % m < (v.toNat + m - p.hfqhead.toNat) % m then
        s.discard (cbOff part 0x428)
      else
        let s1 : State := s.updPart part fun p => { p with hfqhead := v }
        let n := if p.away then 0 else (s1.cores.map fun c => c.mbox.countP fun e => e.st == .unposted).sum
        let s2 : State := (List.range n).foldl (fun s _ => s.postOldest p) s1
        (s2.contq.filter fun q => !p.away && p.hasSg q.sg && q.stalled && !q.posted).foldl
          (fun s q => s.urgent (.spillOverflowMove q.sg)) s2
    | _ => s)

/-! Core control (R38, R40, R251, R367). -/

/-- Resumes the halted slots that a core-control word names. -/
def execCoreControlWrite (s : State) : Host.Outcome State Fault Refusal :=
  .next (match s.evt with
    | .coreControlWrite cid v =>
      let go (i : Nat) (t : Thread) : Thread :=
        if v.getLsbD i && t.hold == .wait .halted then { t with hold := .none } else t
      s.updCore cid fun c => { c with slots := Vector.ofFn fun i => (c.slots.get i).map (go i.val) }
    | _ => s)

/-- A physical address in the scratchpad banks of a core. -/
def inScratch (cid a : Nat) : Bool := decide (scratchPa cid 0 ≤ a) && decide (a < scratchPa cid 0 + 2 ^ 20)

/-- A step due that belongs to a core's threads, families or engines. -/
def Ev.ofCore (e : Ev) (cid : Nat) : Bool :=
  Ev.isMatrix e cid ||
    (match e with
     | .fixedLatencyWriteback c _ _ => c == cid
     | .stallCountExpiry c _ _ => c == cid
     | .bankWakeDone c _ => c == cid
     | .memberStart c _ _ _ => c == cid
     | .inlineMemberEntry c _ => c == cid
     | .inlineRestore c _ => c == cid
     | .syncComplete c _ _ => c == cid
     | .killMessage c _ => c == cid
     | .barrierArrival c _ _ _ _ => c == cid
     | .drainComplete c => c == cid
     | .mxswComplete c _ => c == cid
     | _ => false)

/-- Core reset (R40): its state at reset values, its scratch banks zero with every tag empty; its core barriers go with its
threads (DESIGN CHOICE, log entry 50), and so do the families that were created or stood on it, as KILL ends them (log entry
51).  A reply to a page request that it has posted is discarded (R315). -/
def execCoreReset (s : State) : Host.Outcome State Fault Refusal :=
  .next (match s.evt with
    | .coreReset cid =>
      let d := dieOf cid
      let fs := s.famsWithin fun f => f.cid == cid || f.shares.any fun x => x.cid == cid
      let s : State := if fs.isEmpty then s else s.purgeFams fs none
      { s with
        cores := putCore s.cores { Core.fresh cid (if h : d < 4 then s.dieCyc[d] else 0) with
          lost := (s.core cid).lost ++ ((s.core cid).mbox.filter fun e => e.st == .suspended).map (·.ent) },
        fams := s.fams.filter fun f => f.cid != cid || f.kind == .root,
        agenda := s.agenda.filter fun x => !Ev.ofCore x.what cid,
        mem := s.mem.filter fun c => !inScratch cid c.1,
        bad := s.bad.filter fun u => !inScratch cid u,
        tags := s.tags.filter fun w => !inScratch cid (w * 8),
        bars := s.bars.filter fun b => !(b.sc == Scope.core.code && b.unit == cid) }
    | _ => s)

/-- The thread of code that the firmware starts at system privilege (R38). -/
def Thread.system (uid : Nat) (pc : W64) (fr : W64 × W64 × W64 × W64) : Thread :=
  { Thread.blank with
    uid := uid, sys := true, l := 16, pc := pc, regs := { Regs.start with s := Vector.replicate 16 (SCell.full 0#64) }
    csr := { Csrs.zero with ifp := fr.1, ifl := fr.2.1, cfp := fr.2.2.1, cfl := fr.2.2.2 } }

/-- Starts a system thread in a slot of a core.  The walker's start values are those of steward code (DESIGN CHOICE, log entry
52). -/
def State.startSystem (s : State) (cid slot : Nat) (pc : W64) : State :=
  let (uid, s1) := s.fresh
  s1.setThread cid slot (some (Thread.system uid pc (frameCsrs (s1.core cid) slot)))

/-- The firmware starts steward code in a free program slot (R38). -/
def execStewardStart (s : State) : Host.Outcome State Fault Refusal :=
  .next (match s.evt with
    | .stewardStart cid slot pc =>
      if (s.freeSlots cid).contains slot then s.startSystem cid slot (pc &&& ~~~7#64) else s
    | _ => s)

end Sys2Proof.Machine
end

