-- ==== Sys2Proof/Machine/Gang.lean ====
section
/-! DEFINITION. Partitions formed and dissolved (R319, R365, R366), gang stop and gang switch (R388 to R393), the writes of
the control window (R364, R365), and fault injection (R249). -/

namespace Sys2Proof.Machine

/-! Forming and dissolving (R365). -/

/-- The reserved bits of a PSG word. -/
def psgBad (v : W64) : Bool := bits v.toNat 20 43 != 0

/-- The cores of a set of supergroups. -/
def sgsCores (sgs : BitVec 20) : List Nat := (List.range 20).flatMap fun g => if sgs.getLsbD g then sgCores g else []

/-- Bytes of a core's region of a save area (R391). -/
def coreRegion : Nat := 0x11C000

/-- Bytes of a save area of n cores whose message section has room for m messages of 64 bytes (R391, DESIGN CHOICE, log entry 34). -/
def saveBytes (n m : Nat) : Nat := coreRegion * n + 64 * m

/-- The firmware's words of a core of a partition, and its walker started at the walk code (R23, R38, R248, R377). -/
def State.bootCore (s : State) (cid : Nat) (fw : FwConf) : State :=
  (s.updCore cid fun c => { c with
    sfb := fw.sfb, sfs := fw.sfs, ptroot := fw.ptroot &&& csrMask 0x112, wentry := fw.wentry &&& csrMask 0x110
    tvec := fw.tvec &&& csrMask 0x103 }).startSystem cid 16 (fw.wentry &&& csrMask 0x110)

/-- A PSG write with VALID = 1: the partition is formed where it may be, and runs (R365, R366). -/
def execPartitionForm (s : State) : Host.Outcome State Fault Refusal :=
  .next (match s.evt with
    | .partitionForm part v fw =>
      let p := s.part part
      let sgs : BitVec 20 := v.setWidth 20
      let taken := (List.range 20).any fun g => sgs.getLsbD g && s.parts.any fun q => q.occupies && q.hasSg g
      if 20 ≤ part || p.valid || !v.getLsbD 63 || psgBad v || sgs = 0#20 || taken then s.discard (cbOff part 0)
      else
        let s1 : State := s.updPart part fun p => { p with
          valid := true, sgs := sgs, gsst := .running, gsEnded := false, fatal := false, ctbase := fw.ctbase, ctcnt := fw.ctcnt
          hfqbase := fw.hfqbase, hfqsz := fw.hfqsz, dlbase := fw.dlbase, dlsz := fw.dlsz, clbase := fw.clbase, clsz := fw.clsz
          revCap := fw.revBytes / 72, travBase := fw.travBase, travRoom := fw.travBytes / 256, saveBase := fw.saveBase
          msgRoom := fw.msgRoom, ranges := fw.ranges, pods := fw.pods
          closed := fw.closed ++ [(fw.saveBase, fw.saveBase + saveBytes (sgsCores sgs).length fw.msgRoom - 1)] }
        (sgsCores sgs).foldl (fun s c => s.bootCore c fw) s1
    | _ => s)

/-- The partition's barrier instances at die scope and wider (R144). -/
def Barrier.ofPart (b : Barrier) (part : Nat) : Bool :=
  (b.sc == Scope.die.code && b.unit / 4 == part) || ((b.sc == Scope.pkg.code || b.sc == Scope.pod.code) && b.unit == part)

/-- The barrier instances of a partition's cores and quads. -/
def Barrier.onCores (b : Barrier) (p : Part) : Bool :=
  (b.sc == Scope.core.code && p.hasSg (sgOf b.unit)) || (b.sc == Scope.quad.code && p.hasSg (sgOf (b.unit * 4)))

/-- A slice ends with its partition: one whose death is under way with that death's cause, any other with GANGSTOP (R365, R383). -/
def State.sliceOver (s : State) (uid : Nat) : State :=
  match s.slice uid, s.purges.find? fun p => p.fam.isNone && p.slice == some uid with
  | some sl, some p => ({ s with purges := s.purges.filter fun x => x.tok != p.tok } : State).sliceDead sl p
  | _, _ => s.sliceDies uid 0x4D 0

/-- A PSG write with VALID = 0: the partition is dissolved where it may be (R365). -/
def execPartitionDissolve (s : State) : Host.Outcome State Fault Refusal :=
  .next (match s.evt with
    | .partitionDissolve part v =>
      let p := s.part part
      if !p.valid || v.getLsbD 63 || psgBad v || !(p.gsst == .out || (p.gsst == .stopped && p.gsEnded)) then
        s.discard (cbOff part 0)
      else
        let s1 : State := (s.slices.filter fun x => x.part == part).foldl
          (fun s x => (s.sliceOver x.uid).signalSlice x.uid) s
        let here (cid : Nat) : Bool := p.occupies && p.hasSg (sgOf cid)
        { s1 with
          parts := s1.parts.filter fun q => q.num != part
          fams := s1.fams.filter fun f => f.part != part
          travs := s1.travs.filter fun t => t.part != part || t.dev != s.dev.devid
          contq := s1.contq.filter fun q => !here (q.sg * 64)
          bars := s1.bars.filter fun b => !(b.ofPart part || (p.occupies && b.onCores p))
          cores := s1.cores.map fun c =>
            if here c.cid then { c with slots := Vector.replicate 17 none, runs := [] } else c }
    | _ => s)

/-! Gang stop (R388, R389). -/

/-- A transfer that a stop does not wait for: one whose follow-on waits for room, one behind a failed command, or one that waits for a
page or for a bank of a switched-out partition, all it has read so far having landed. -/
def Core.atRest (c : Core) (x : Xfer) : Bool :=
  x.ended || c.halts x || x.away && x.cmd.form == 1 && x.whole ||
    (!x.whole && (c.cqWait || x.away) && x.recvs.all fun r => r.next == x.units.length)

/-- Nothing that a stop lets complete is still under way on a core: fixed-latency results, issued matrix instructions and
started copy commands; no carry is left to post. -/
def Core.calm (c : Core) : Bool :=
  ((c.slots.toList.filterMap id) ++ c.runs.map (·.creator)).all (·.flights.isEmpty) && c.mq.isEmpty && c.groups.isNone &&
    c.pass.isNone && c.late.isEmpty && c.drain.isNone && c.mxsw.all (!·.begun) && c.xfers.all c.atRest &&
    (match c.shadow with
     | .loading _ _ _ => false
     | _ => true)

def State.calm (s : State) (p : Part) : Bool := s.cores.all fun c => !p.hasSg (sgOf c.cid) || c.calm

/-- Each core of a partition records its ck and its message counts. -/
def State.recordStop (s : State) (p : Part) : State :=
  (sgsCores p.sgs).foldl (fun s cid =>
    let ck := s.ck cid
    s.updCore cid fun c => { c with
      stopck := ck, msent := BitVec.ofNat 64 (c.sentCnt % 2 ^ 48), mrecv := BitVec.ofNat 64 (c.recvCnt % 2 ^ 48) }) s

/-- The stop signal: no core of the partition issues; stopped once all that is under way has completed (R388). -/
def execGsctlStop (s : State) : Host.Outcome State Fault Refusal :=
  .next (match s.evt with
    | .gsctlStop part =>
      let p := s.part part
      match p.valid, p.gsst with
      | true, .running =>
        (s.updPart part fun p => { p with gsst := .stopping, gsEnded := false }).urgent (.gsctlStop part)
      | true, .stopping =>
        if s.calm p then (s.recordStop p).updPart part fun p => { p with gsst := .stopped }
        else s.atCycle (s.now + 1) (.gsctlStop part)
      | _, _ => s.discard (cbOff part 0x320)
    | _ => s)

/-- The steps with which a partition's engines and queues go on. -/
def State.goOn (s : State) (p : Part) : List Ev :=
  (s.cores.filter fun c => p.hasSg (sgOf c.cid)).map (fun c => Ev.copyCommandStart c.cid) ++
    (s.contq.filter fun q => p.hasSg q.sg).flatMap (fun q => [Ev.continuationHeadPlace q.sg, Ev.spillOverflowMove q.sg]) ++
    [.sliceDispatch p.num, .gangSwitch p.num]

/-- Steps that come before everything due, in order. -/
def State.inject (s : State) (es : List Ev) : State :=
  { s with agenda := es.map (fun e => { at_ := s.now, what := e }) ++ s.agenda }

/-- The go signal to a stopped partition (R389). -/
def execGsctlGo (s : State) : Host.Outcome State Fault Refusal :=
  .next (match s.evt with
    | .gsctlGo part =>
      let p := s.part part
      if p.valid && p.gsst == .stopped then
        (s.updPart part fun p => { p with gsst := .running, gsEnded := false }).inject (s.goOn p)
      else s.discard (cbOff part 0x320)
    | _ => s)

/-- End, applied to a stopped partition: every slice ends with GANGSTOP (R389). -/
def execGsctlEnd (s : State) : Host.Outcome State Fault Refusal :=
  .next (match s.evt with
    | .gsctlEnd part =>
      let p := s.part part
      if p.valid && p.gsst == .stopped then
        (s.slices.filter fun x => x.part == part && x.st != .ended).foldl (fun s x => s.sliceDies x.uid 0x4D 0)
          (s.updPart part fun p => { p with gsEnded := true })
      else s.discard (cbOff part 0x320)
    | _ => s)

/-! Gang switch (R390 to R393). -/

/-- A full/empty or FIFO access that waits, or is on its way to its word. -/
def Req.waitsAtWord (r : Req) : Bool :=
  (r.st == .waiting || r.st == .sent) &&
    (match r.kind with
     | .fe _ _ => true
     | .push _ => true
     | .pop => true
     | _ => false)

/-- Withdraws the partition's full/empty, FIFO and translation waits and the MXSWs that wait for their partners, with the PCs at
their bundles (R234, R317, R390). -/
def State.withdraw (s : State) (p : Part) : State :=
  let mine (r : Req) : Bool := r.part == p.num && r.waitsAtWord
  let left := s.cores.flatMap fun c =>
    if p.hasSg (sgOf c.cid) then (c.mxsw.filter fun m => !m.begun).map fun m => (c.cid, m.tile, m.tok) else []
  let toks := (s.reqs.filter mine).map (·.tok) ++ left.map (·.2.2)
  let free (t : Thread) : Thread :=
    match t.hold with
    | .busy k => if toks.contains k then { t with hold := .none } else t
    | .wait .translation => { t with hold := .none }
    | _ => t
  let back : State := left.foldl (fun s x => s.readDone x.1 x.2.1 x.2.2)
    ((s.reqs.filter mine).foldl (fun s r => s.gotMsgs r.who.cid r.msgs) s)
  { back with
    reqs := s.reqs.filter fun r => !mine r
    cores := back.cores.map fun c =>
      if p.hasSg (sgOf c.cid) then
        { c with
          slots := c.slots.map fun o => o.map free
          runs := c.runs.map fun r => { r with creator := free r.creator }
          mxsw := c.mxsw.filter (·.begun)
          lost := c.lost ++ (c.mbox.filter fun e => e.st == .suspended).map (·.ent)
          mbox := [] }
      else c }

/-- The partition may be saved: it is calm, its stores are performed, and deaths, merges and replays begun are over. -/
def State.drained (s : State) (p : Part) : Bool :=
  s.calm p && !(s.reqs.any fun r => r.part == p.num && r.kind.isStore && (r.st == .sent || r.st == .waiting)) &&
    !(s.purges.any fun x => (x.fam.bind s.fam).any (·.part == p.num) || (x.slice.bind s.slice).any (·.part == p.num)) &&
    !(p.joins.any (·.begun))

/-- A message in the network to or from a partition's cores or threads (R392). -/
def State.msgOf (s : State) (p : Part) (e : Ev) : Bool :=
  let fam (u : Nat) : Bool := (s.fam u).any (·.part == p.num)
  let req (t : Nat) : Bool := (s.req t).any (·.part == p.num)
  match e with
  | .registerWriteMessage f _ _ _ _ _ _ _ => fam f
  | .delegationRequest f => fam f
  | .delegationAnswer f _ => fam f
  | .detJoinDecrement f => fam f
  | .killMessage _ f => fam f
  | .loadResponse t => req t
  | .storeAck t => req t
  | .errorResponse t => req t
  | .homeRequest t => req t
  | .travellerArrival t => s.travs.any fun v => v.tok == t && v.part == p.num && v.dev == s.dev.devid
  | _ => false

/-- A step due that belongs to a partition's cores or threads: a message to or from them, or a time that they wait for. -/
def State.evOf (s : State) (p : Part) (e : Ev) : Bool :=
  let on (cid : Nat) : Bool := p.hasSg (sgOf cid)
  s.msgOf p e ||
  (match e with
  | .fixedLatencyWriteback c _ _ => on c
  | .stallCountExpiry c _ _ => on c
  | .bankWakeDone c _ => on c
  | .memberStart c _ _ _ => on c
  | .inlineMemberEntry c _ => on c
  | .inlineRestore c _ => on c
  | .syncComplete c _ _ => on c
  | .barrierArrival c _ _ _ _ => on c
  | .copyCommandStart c => on c
  | .tileBytesArrive c _ => on c
  | .copyOutComplete c _ => on c
  | .taskReplay f => (s.fam f).any (·.part == p.num)
  | .waitlimitExpiry t => (s.req t).any (·.part == p.num)
  | .barrierRelease k _ => s.bars.any fun b => b.key == k && b.closed.any fun x => x.2.any fun w => on w.cid
  | _ => false)

/-- The address of the j-th core's region in a partition's save area (R391). -/
def Part.region (p : Part) (j : Nat) : Nat := p.saveBase + coreRegion * j

/-- An offset in a core's scratchpad lies in a bank in scratch mode. -/
def Core.scratchAt (c : Core) (off : Nat) : Bool := decide (off < 2 ^ 20) && c.bank (off / 0x8000) == bankScratch

/-- The offset of an address in a core's scratchpad, where it lies there in a bank in scratch mode. -/
def Core.scratchOff (c : Core) (a : Nat) : Option Nat :=
  if scratchPa c.cid 0 ≤ a && c.scratchAt (a - scratchPa c.cid 0) then some (a - scratchPa c.cid 0) else none

/-- The first register of the vector register file that a slot's thread has in a save area: behind those of the lower slots (R391,
DESIGN CHOICE, log entry 34). -/
def Core.vecBase (c : Core) (slot : Nat) : Nat := ((c.slots.toList.take slot).map fun o => (o.map (·.vn)).getD 0).sum

/-- The dwords of a thread's context in a save area: registers, PC, return stack and CSRs, as the model orders them (R391, DESIGN CHOICE,
log entry 34). -/
def Thread.context (t : Thread) : List W64 :=
  t.regs.s.toList.map (·.val) ++ t.regs.d.toList.map (·.val) ++ ((List.range 8).map fun i => t.rstack.getD i 0#64) ++
    [t.pc, BitVec.ofNat 64 t.depth, t.csr.fst, t.csr.fmode, t.csr.wlim, t.csr.chk, t.csr.ifp, t.csr.ifl, t.csr.cfp, t.csr.cfl, t.csr.estat,
      t.csr.epc, t.csr.eaddr]

/-- A thread with the registers, PC, return stack and CSRs of a context whose dword i is w i. -/
def Thread.ofContext (t : Thread) (w : Nat → W64) : Thread :=
  { t with
    regs := { t.regs with
      s := Vector.ofFn fun i => { t.regs.s.get i with val := w i.val }
      d := Vector.ofFn fun i => { t.regs.d.get i with val := w (16 + i.val) } }
    rstack := (List.range t.rstack.length).map fun i => w (24 + i)
    pc := w 32, depth := (w 33).toNat
    csr := { fst := w 34, fmode := w 35, wlim := w 36, chk := w 37, ifp := w 38, ifl := w 39, cfp := w 40, cfl := w 41, estat := w 42
             epc := w 43, eaddr := w 44 } }

/-- A thread with the vector registers that v gives. -/
def Thread.ofVectors (t : Thread) (v : Nat → Option VWord) : Thread :=
  { t with regs := { t.regs with v := Vector.ofFn fun i => match (if i.val < t.vn then v i.val else none) with
      | some x => { t.regs.v.get i with val := x }
      | none => t.regs.v.get i } }

/-- Where a core's region has its vector registers, accumulators and contexts, by R391's table. -/
def vecRegion (base n : Nat) : Nat := base + 0x104000 + 0x200 * n

def accRegion (base c : Nat) : Nat := base + 0x10C000 + 0x2000 * c

def contextRegion (base slot : Nat) : Nat := base + 0x117000 + 0x200 * slot

/-- The bytes other than zero of a value at an address. -/
def cellsAt (a : Nat) (bs : List Byte) : List Host.Cell := (bs.zipIdx.map fun b => (a + b.2, b.1)).filter fun c => c.2 != 0#8

/-- The bytes that a core's region holds of its vector registers, accumulator values and thread contexts (R391). -/
def Core.registerCells (c : Core) (base : Nat) : List Host.Cell :=
  (c.slots.toList.zipIdx.flatMap fun x => match x.1 with
    | none => []
    | some t =>
      cellsAt (contextRegion base x.2) (t.context.flatMap fun w => toLe 8 w.toNat) ++
        (((List.range t.vn).filter fun i => decide (c.vecBase x.2 + i < 64)).flatMap fun i =>
          cellsAt (vecRegion base (c.vecBase x.2 + i)) (toLe 512 (t.regs.v.toList.getD i VCell.zero).val.toNat))) ++
    (c.acc.toList.zipIdx.flatMap fun x => x.1.vals.zipIdx.flatMap fun v =>
      cellsAt (accRegion base x.2 + 8 * v.2) (toLe 8 (BitVec.ofInt 64 v.1).toNat))

/-- A saved core with its vector registers, accumulator values and thread contexts as its region has them (R391, R393). -/
def State.regionCore (s : State) (c : Core) (base : Nat) : Core :=
  let w (a : Nat) : W64 := BitVec.ofNat 64 (Memory.val s.mem a 8)
  { c with
    slots := Vector.ofFn fun k => (c.slots.get k).map fun t =>
      (t.ofContext fun i => w (contextRegion base k.val + 8 * i)).ofVectors fun i =>
        if c.vecBase k.val + i < 64 then some (BitVec.ofNat 4096 (Memory.val s.mem (vecRegion base (c.vecBase k.val + i)) 512)) else none
    acc := Vector.ofFn fun k =>
      let a := c.acc.get k
      { a with vals := (List.range a.vals.length).map fun i =>
          let x := w (accRegion base k.val + 8 * i)
          if a.fp then (x.toNat : Int) else x.toInt } }

/-- The bytes that a core's region holds: the data of its scratch and FIFO banks, and the tags of its scratch banks (R391). -/
def State.bankCells (s : State) (c : Core) (base : Nat) : List Host.Cell :=
  let offs := s.tags.filterMap fun w => c.scratchOff (w * 8)
  (s.mem.filterMap fun x => (c.scratchOff x.1).map fun o => (base + o, x.2)) ++
    (c.fifos.flatMap fun f => f.bytes.zipIdx.map fun b => (base + f.bank * 0x8000 + b.2, b.1)) ++
    (offs.map fun o => (base + 0x100000 + o / 64,
      (offs.filter fun x => x / 64 == o / 64).foldl (fun b x => b ||| (1#8 <<< (x / 8 % 8))) 0#8))

/-- Writes the banks, registers and accumulators of a partition's cores to its save area, which then holds nothing else in its core regions (R390, R391). -/
def State.saveBanks (s : State) (p : Part) : State :=
  let cids := sgsCores p.sgs
  let out (a : Nat) : Bool := decide (a < p.saveBase) || decide (p.region cids.length ≤ a)
  let cells := cids.zipIdx.flatMap fun x => s.bankCells (s.core x.1) (p.region x.2) ++ (s.core x.1).registerCells (p.region x.2)
  { s with
    mem := cells.foldl (fun m x => Memory.put m x.1 x.2) (s.mem.filter fun x => out x.1)
    bad := s.bad.filter out
    l2 := s.l2.filter fun l => out (l.line * 256) || out (l.line * 256 + 255) }

/-- The data and tags that a core's region gives the core's scratch banks. -/
def State.regionCells (s : State) (c : Core) (base : Nat) : List Host.Cell × List Nat :=
  (s.mem.filterMap fun x =>
      if base ≤ x.1 && c.scratchAt (x.1 - base) then some (scratchPa c.cid (x.1 - base), x.2) else none,
    (s.mem.filter fun x => decide (base + 0x100000 ≤ x.1) && decide (x.1 < base + 0x104000)).flatMap fun x =>
      ((List.range 8).filter fun i => x.2.getLsbD i).map fun i => scratchPa c.cid 0 / 8 + (x.1 - base - 0x100000) * 8 + i)

/-- A saved core's FIFO queues, their bytes read from its region. -/
def State.regionFifos (s : State) (c : Core) (base : Nat) : List Fifo :=
  c.fifos.map fun f => { f with bytes := Memory.bytes s.mem (base + f.bank * 0x8000) f.bytes.length }

/-- A physical address in the scratchpad of a partition's cores. -/
def State.inBanks (s : State) (p : Part) (a : Nat) : Bool :=
  match s.loc a with
  | .scratch c _ => p.hasSg (sgOf c)
  | _ => false

/-- A core as it stands when its partition's state has left it: the counts that belong to the core itself go on. -/
def Core.emptied (c : Core) : Core :=
  { Core.fresh c.cid c.ck0 with
    stopck := c.stopck, msent := c.msent, mrecv := c.mrecv, sentCnt := c.sentCnt, recvCnt := c.recvCnt }

/-- Another partition's access that waits in a bank of the partition's cores. -/
def State.waitsIn (s : State) (p : Part) (r : Req) : Bool := r.part != p.num && r.st == .waiting && s.inBanks p r.pa

/-- The accesses of other partitions that wait in the partition's banks leave with them: each is a message in the section, which reaches
its bank again at switch-in (R392). -/
def State.keepWaits (s : State) (p : Part) : State :=
  let toks := (s.reqs.filter (s.waitsIn p)).map (·.tok)
  let t : State := { s with
    reqs := s.reqs.map fun r => if toks.contains r.tok then { r with st := .sent } else r
    parts := s.parts.map fun q => { q with heldWrites := q.heldWrites.filter fun k => !toks.contains k } }
  toks.foldl (fun s k => s.keepMsg p.num (.homeRequest k)) t

/-- Saves the partition's state and the messages in flight, those that the message section has no room for staying in the network,
and leaves its cores free (R390 to R392). -/
def State.save (s : State) (p : Part) : State :=
  let mine (c : Core) : Bool := p.hasSg (sgOf c.cid)
  let s1 : State := ((s.cores.foldl (fun s c => if mine c then s.releaseLines c.cid else s) s).saveBanks p).keepWaits p
  let due := s1.agenda.filter fun d => s1.evOf p d.what
  let left := (due.filter fun d => s1.msgOf p d.what).drop (p.msgRoom - (s1.part p.num).msgs.length)
  let s2 : State := s1.updPart p.num fun q => { q with
    gsst := .out, swtime := 0#64
    saved := (s1.cores.filter mine).map fun c => { c with l1 := [], tlb1 := [], tlb2 := [], mbox := [], ibuf := [] }
    savedQ := s1.contq.filter fun q => p.hasSg q.sg
    savedBars := s1.bars.filter fun b => b.onCores p
    msgs := q.msgs ++ (due.filter fun d => !left.contains d).map (·.what) }
  { s2 with
    cores := s2.cores.map fun c => if mine c then c.emptied else c
    contq := s2.contq.filter fun q => !p.hasSg q.sg
    bars := s2.bars.filter fun b => !b.onCores p
    agenda := s2.agenda.filter fun d => !s1.evOf p d.what || left.contains d
    turn := s2.turn.filter fun cid => !p.hasSg (sgOf cid) }

/-- The gang switch of a partition, step by step: stop, drain, save, out (R390). -/
def execGangSwitch (s : State) : Host.Outcome State Fault Refusal :=
  .next (match s.evt with
    | .gangSwitch part =>
      let p := s.part part
      if !p.valid || p.swtime = 0#64 || s.tsc < p.swtime.toNat then s
      else
        match p.gsst with
        | .saving => s.save p
        | .out => s
        | .restoring => s
        | _ =>
          let s1 : State := (s.withdraw p).updPart part fun p => { p with gsst := .stopping }
          if s1.drained p then
            ((s1.recordStop p).updPart part fun p => { p with gsst := .saving }).atCycle (s.now + 1) (.gangSwitch part)
          else s1.atCycle (s.now + 1) (.gangSwitch part)
    | _ => s)

/-- A request or answer to or from a switched-out partition's cores is kept in its message section (R392). -/
def execMessageSave (s : State) : Host.Outcome State Fault Refusal :=
  .next (match s.evt with
    | .messageSave part tok =>
      match s.req tok with
      | none => s
      | some r =>
        let e : Option Ev := match r.st with
          | .sent => some (.homeRequest tok)
          | .performed =>
            if r.err.isSome then some (.errorResponse tok)
            else
              match r.kind with
              | .store _ => some (.storeAck tok)
              | .vstore _ => some (.storeAck tok)
              | _ => some (.loadResponse tok)
          | _ => none
        match e with
        | some e => if (s.part part).away then s.keepMsg part e else s.urgent e
        | none => s
    | _ => s)

/-- A saved core put back: the counts that belong to the core itself have gone on, and what waited for a page misses again (R16, R317,
R388). -/
def Core.putBack (c now : Core) : Core :=
  { c with
    cqWait := false, ck0 := now.ck0, stopck := now.stopck, msent := now.msent, mrecv := now.mrecv, sentCnt := now.sentCnt, recvCnt := now.recvCnt }

/-- Puts the saved state of a partition back, its banks, registers and accumulators from the save area (R391, R393). -/
def State.putBack (s : State) (p : Part) : State :=
  let at_ (c : Core) : Nat := p.region (((sgsCores p.sgs).idxOf? c.cid).getD 0)
  let got := p.saved.map fun c => s.regionCells c (at_ c)
  { s with
    cores := (p.saved.map fun c => { (s.regionCore c (at_ c)).putBack (s.core c.cid) with fifos := s.regionFifos c (at_ c) }).foldl putCore s.cores
    -- a stall resumes with a fresh walk (R335)
    contq := (p.savedQ.map fun q => { q with posted := false }).foldl putContQ (s.contq.filter fun q => !p.hasSg q.sg)
    bars := (s.bars.filter fun b => !b.onCores p) ++ p.savedBars
    mem := (got.flatMap (·.1)).foldl (fun m c => Memory.put m c.1 c.2) (s.mem.filter fun c => !s.inBanks p c.1)
    tags := (got.flatMap (·.2)).foldl Tags.set (s.tags.filter fun w => !s.inBanks p (w * 8)) }

/-- Switch in: the save area is restored; then the messages, the held cancels and replies, and go (R393). -/
def execGsctlSwitchIn (s : State) : Host.Outcome State Fault Refusal :=
  .next (match s.evt with
    | .gsctlSwitchIn part =>
      let p := s.part part
      let taken := s.parts.any fun q => q.num != part && q.occupies && q.sgs &&& p.sgs != 0#20
      match p.valid && !taken, p.gsst with
      | true, .out =>
        ((s.putBack p).updPart part fun p => { p with
          gsst := .restoring, saved := [], savedQ := [], savedBars := [] }).atCycle
            (s.now + 1) (.gsctlSwitchIn part)
      | true, .restoring =>
        (s.updPart part fun p => { p with gsst := .running, msgs := [], pent := [], heldIn := [] }).inject
          (p.msgs ++ p.pent ++ p.heldIn ++ s.goOn p)
      | _, _ => s.discard (cbOff part 0x320)
    | _ => s)

/-! The control window (R364, R365). -/

/-- A write of GSCTL: a command that does not fit GSST is discarded and logged (R389). -/
def State.gsctl (s : State) (part : Nat) (v : Nat) : State :=
  let st := (s.part part).gsst
  if !(s.part part).valid then s.discard (cbOff part 0x320)
  else if v = 1 && st == .running then s.urgent (.gsctlStop part)
  else if v = 2 && st == .stopped then s.urgent (.gsctlGo part)
  else if v = 3 && st == .stopped then s.urgent (.gsctlEnd part)
  else if v = 4 && st == .out then s.urgent (.gsctlSwitchIn part)
  else s.discard (cbOff part 0x320)

/-- The firmware's words of a partition formed by a plain PSG write: the revision store's default size (R308), a save area and behind
it a traveller area of 4,096 frames at the top of device memory (DESIGN CHOICE, log entry 34), all else 0. -/
def FwConf.blank (part : Nat) : FwConf :=
  let base := Config.memBytes - 1282 * coreRegion * (part + 1)
  { sfb := 0#64, sfs := 0#64, ptroot := 0#64, wentry := 0#64, tvec := 0#64, revBytes := 16000000000,
    travBase := base + 1281 * coreRegion, travBytes := 2 ^ 20, saveBase := base, msgRoom := 4096, ctbase := 0#64, ctcnt := 0#64,
    hfqbase := 0#64, hfqsz := 0#64, dlbase := 0#64, dlsz := 0#64, clbase := 0#64, clsz := 0#64, ranges := [], pods := [],
    closed := [] }

/-- TAIL is one register with the TAIL dword of the ring's tail line (R321). -/
def State.putTail (s : State) (part k : Nat) (v : W64) : State :=
  let r := (s.part part).ring k
  let s1 : State := s.updRing part k fun r => { r with tail := v.setWidth 32 }
  if !r.placed then s1 else s1.putBytesGo 0 none 0 r.tailPa (toLe 8 (v.toNat % 2 ^ 32))

/-- A write to word k of a partition's control block (R365, R366, R389). -/
def State.blockWrite (s : State) (part k : Nat) (v : W64) : State :=
  let n := v.toNat
  if k = 0 then s.urgent (if v.getLsbD 63 then .partitionForm part v (FwConf.blank part) else .partitionDissolve part v)
  else if 0x40 ≤ k && k < 0x140 then
    let i := (k - 0x40) / 0x20
    match (k - 0x40) % 0x20 with
    | 0 => s.urgent (.ringReset part i false v)
    | 8 => if 16 < n then s.discard (cbOff part k) else s.urgent (.ringReset part i true v)
    | 24 => if 2 ^ 32 ≤ n then s.discard (cbOff part k) else s.putTail part i v
    | _ => s.discard (cbOff part k)
  else if 0x200 ≤ k && k < 0x240 then s.urgent (.doorbell part ((k - 0x200) / 8))
  else if k = 0x300 then if bits n 19 13 != 0 then s.discard (cbOff part k) else s.urgent (.cancel part v)
  else if k = 0x308 then s.urgent (.pgreply part v)
  else if k = 0x310 then s.urgent (.migd part v)
  else if k = 0x318 then
    (s.updPart part fun p => { p with swtime := v }).atCycle (max s.now ((n * 6 + 4) / 5)) (.gangSwitch part)
  else if k = 0x320 then s.gsctl part n
  else if k = 0x428 then s.urgent (.hfqheadWrite part v)
  else if k = 8 || k = 0x328 || (0x400 ≤ k && k ≤ 0x460) then s.discard (cbOff part k)
  else s.forbidden (cbOff part k)

/-- Words that the firmware alone writes: the device id, the route table, the firmware area and the size of BAR2's window (R358, R363,
R369), the address at which an uncorrectable error arises, the core in whose SRAM, the slice in whose data and the address of HBM at which
an error is corrected (R300, R305, R306; DESIGN CHOICE, log entry 31), the threshold and interval of a slice's retirement (R305; DESIGN
CHOICE, log entry 87); the model numbers them as it likes. -/
def State.firmwareWrite (s : State) (off : Nat) (v : W64) : Option State :=
  let n := v.toNat
  if off = 0 then some (s.updDev fun d => { d with devid := n % 64 })
  else if 0x2000 ≤ off && off < 0x2200 then
    let r : Route := { dev := (off - 0x2000) / 8, mask := v.setWidth 12, hops := bits n 12 3 }
    some (s.updDev fun d => { d with routes := (d.routes.filter fun x => x.dev != r.dev) ++ [r] })
  else if off = 0x3000 then some (s.updDev fun d => { d with closed := d.closed ++ [(n, n)] })
  else if off = 0x3010 then some (s.strike n)
  else if off = 0x3018 then some (s.updCore (n % 1280) fun c => { c with errCnt := c.errCnt + 1 })
  else if off = 0x3028 then some (if n < 128 then s.corrected n else s)
  else if off = 0x3030 then some (s.updDev fun d => { d with errLimit := some n })
  else if off = 0x3038 then some (s.updDev fun d => { d with errSpan := n })
  else if off = 0x3040 then some (s.updDev fun d =>
    { d with hbmErrs := d.hbmErrs.zipIdx.map fun x => if x.2 = n / Config.dieBytes then x.1 + 1 else x.1 })
  else if off = 0x3020 then some (if 2 ^ 30 ≤ n && n ≤ 2 ^ 40 then s.updDev fun d => { d with bar2Size := n } else s)
  else if off = 0x3008 then
    some (s.updDev fun d => { d with closed := d.closed.dropLast ++ (d.closed.getLast?.map fun r => (r.1, n)).toList })
  else none

/-- The host asks that the flash be rewritten with the image that runs (R370). -/
def Device.rewriteFlash (d : Device) : Device := if d.small || d.service == .full then { d with flash := (d.image, d.svn) } else d

/-- A write of the host to the control window (R364): to a word of its own, or to one whose write is a step of its own.  In
the failed state only mailbox and status answer (R370).  A BAR2 offset that is no multiple of the window's size is discarded (R363;
DESIGN CHOICE, log entry 29). -/
def State.windowWrite (s : State) (off : Nat) (v : W64) : State :=
  if off % 8 != 0 then s.forbidden off
  else if s.dev.service == .failed && decide (0x2000 ≤ off) then s.forbidden off
  else if off = 0x100 then if v.toNat % s.dev.bar2Size != 0 then s.discard off else s.updDev fun d => { d with bar2 := v }
  else if off < 0x1000 then s.discard off
  else if off = 0x1008 then s.updDev Device.rewriteFlash
  else if off < 0x2000 then s
  else if 0x10000 ≤ off && off < 0x20000 then
    s.updDev fun d => { d with msixTable := (d.msixTable.filter fun x => x.1 != off - 0x10000) ++ [(off - 0x10000, v)] }
  else if 0x100000 ≤ off && off < 0x240000 then s.blockWrite ((off - 0x100000) / 0x10000) ((off - 0x100000) % 0x10000) v
  else if 0x300000 ≤ off && off < 0x300000 + 0x40 * 1280 then
    if (off - 0x300000) % 0x40 = 0 then s.urgent (.coreControlWrite ((off - 0x300000) / 0x40) v) else s.discard off
  else if 0x400000 ≤ off && off < 0x410000 then s.discard off
  else s.forbidden off

/-- A write to a control or status register, by the host or by the firmware (R364, R365). -/
def execRegisterWrite (s : State) : Host.Outcome State Fault Refusal :=
  .next (match s.evt with
    | .registerWrite fw off v =>
      match (if fw then s.firmwareWrite off v else none) with
      | some s1 => s1
      | none => s.windowWrite off v
    | _ => s)

/-! Fault injection (R249). -/

/-- The armed fault falls on the bundle of a slot, whose load goes to addr; it does not commit. -/
def execFinjInject (s : State) : Host.Outcome State Fault Refusal :=
  .next (match s.evt with
    | .finjInject cid slot addr atomic =>
      let cause := finjCause ((s.core cid).finj.extractLsb' 1 3).toNat atomic
      let s1 : State := s.updCore cid fun c => { c with finj := c.finj &&& ~~~1#64 }
      { s1 with cur := { Cur.idle with cid := cid, slot := slot } }.takeTrap 6 cause (memAddr cause addr)
    | _ => s)

end Sys2Proof.Machine
end

