-- ==== Sys2Proof/Machine/Scalar.lean ====
section
/-! DEFINITION. The scalar integer and floating instructions (R148 to R166). -/

namespace Sys2Proof.Machine

/-! The C-slot constants (R153). -/

/-- LI (R153): rd := the immediate, the literal, or the extended literal. -/
def execLi (h : Hdr) (rd : SReg) (imm : BitVec 12) (s : State) : Host.Outcome State Fault Refusal :=
  .next (run (do
    gateC { Uses.none with sw := [rd], pw := SReg.dest rd 1 } s
    let s1 ← produceS s rd (s.literal h imm) 1
    return commitNext s1 h (extUse h) false))

/-- LIH (R153): rd := the immediate in bits [63:32] above the low half of ra.  It takes no extension. -/
def execLih (h : Hdr) (rd ra : SReg) (imm : BitVec 12) (s : State) : Host.Outcome State Fault Refusal :=
  .next (run (do
    gateC { Uses.none with sr := [ra], sw := [rd], pw := SReg.dest rd 1 } s
    let s1 ← produceS s rd ((plainLiteral h imm) <<< 32 ||| (s.regVal ra &&& 0xFFFFFFFF#64)) 1
    return commitNext s1 h .drops false))

/-- ADDI (R153): rd := ra plus the immediate, the literal, or the extended literal. -/
def execAddi (h : Hdr) (rd ra : SReg) (imm : BitVec 12) (s : State) : Host.Outcome State Fault Refusal :=
  .next (run (do
    gateC { Uses.none with sr := [ra], sw := [rd], pw := SReg.dest rd 1 } s
    let s1 ← produceS s rd (s.regVal ra + s.literal h imm) 1
    return commitNext s1 h (extUse h) false))

/-- NOP (R129): nothing. -/
def execNop (s : State) : Host.Outcome State Fault Refusal := .next { s with cur := { s.cur with res := .committed } }

/-- CNOP (R129): nothing but the PC and the stall count; a lone one sets W (R43). -/
def execCnop (h : Hdr) (s : State) : Host.Outcome State Fault Refusal :=
  .next (run (do
    gateC Uses.none s
    return commitNext s h .drops (loneW h)))

/-- EXT (R58, R147): K becomes the pending extension, replacing one with W. -/
def execExt (h : Hdr) (s : State) : Host.Outcome State Fault Refusal :=
  .next (run (do
    gateC Uses.none s
    return (commitNext s h .replaces false).updMe fun t => { t with kext := h.lit }))

/-! The integer operations, at either width (R154 to R159). -/

/-- The shift count of R154: b[5:0] at width 64, b[4:0] at width 32. -/
def shCount {n : Nat} (b : BitVec n) : Nat := b.toNat % n

def iAdd (n : Nat) (a b : BitVec n) : BitVec n := a + b

def iSub (n : Nat) (a b : BitVec n) : BitVec n := a - b

def iAnd (n : Nat) (a b : BitVec n) : BitVec n := a &&& b

def iOr (n : Nat) (a b : BitVec n) : BitVec n := a ||| b

def iXor (n : Nat) (a b : BitVec n) : BitVec n := a ^^^ b

def iAndn (n : Nat) (a b : BitVec n) : BitVec n := a &&& ~~~b

def iShl (n : Nat) (a b : BitVec n) : BitVec n := a <<< shCount b

def iShr (n : Nat) (a b : BitVec n) : BitVec n := a >>> shCount b

def iSar (n : Nat) (a b : BitVec n) : BitVec n := a.sshiftRight (shCount b)

def iRol (n : Nat) (a b : BitVec n) : BitVec n := a.rotateLeft (shCount b)

def iMin (n : Nat) (a b : BitVec n) : BitVec n := if b.toInt < a.toInt then b else a

def iMax (n : Nat) (a b : BitVec n) : BitVec n := if a.toInt < b.toInt then b else a

def iMinn (n : Nat) (a b : BitVec n) : BitVec n := if b.toNat < a.toNat then b else a

def iMaxn (n : Nat) (a b : BitVec n) : BitVec n := if a.toNat < b.toNat then b else a

def iShadd (k : Nat) (n : Nat) (a b : BitVec n) : BitVec n := a <<< k + b

/-- A relation's truth value (R155). -/
def truth (n : Nat) (p : Bool) : BitVec n := if p then 1 else 0

def iEq (n : Nat) (a b : BitVec n) : BitVec n := truth n (a == b)

def iNe (n : Nat) (a b : BitVec n) : BitVec n := truth n (a != b)

def iLt (n : Nat) (a b : BitVec n) : BitVec n := truth n (decide (a.toInt < b.toInt))

def iLtn (n : Nat) (a b : BitVec n) : BitVec n := truth n (decide (a.toNat < b.toNat))

def iLe (n : Nat) (a b : BitVec n) : BitVec n := truth n (decide (a.toInt ≤ b.toInt))

def iLen (n : Nat) (a b : BitVec n) : BitVec n := truth n (decide (a.toNat ≤ b.toNat))

def iGt (n : Nat) (a b : BitVec n) : BitVec n := truth n (decide (b.toInt < a.toInt))

def iGtn (n : Nat) (a b : BitVec n) : BitVec n := truth n (decide (b.toNat < a.toNat))

def iMul (n : Nat) (a b : BitVec n) : BitVec n := a * b

/-- The high half of a product (R156). -/
def iMulhs (n : Nat) (a b : BitVec n) : BitVec n := BitVec.ofInt n (a.toInt * b.toInt / (2 ^ n : Nat))

def iMulhn (n : Nat) (a b : BitVec n) : BitVec n := BitVec.ofNat n (a.toNat * b.toNat / 2 ^ n)

def iMulhsn (n : Nat) (a b : BitVec n) : BitVec n := BitVec.ofInt n (a.toInt * (b.toNat : Int) / (2 ^ n : Nat))

/-- Quotients and remainders (R157): truncated toward zero; all ones and the dividend for a zero divisor; the most
negative number by −1 wraps to itself with remainder 0. -/
def iDivs (n : Nat) (a b : BitVec n) : BitVec n :=
  if b = 0#n then BitVec.allOnes n else BitVec.ofInt n (a.toInt.tdiv b.toInt)

def iDivn (n : Nat) (a b : BitVec n) : BitVec n :=
  if b = 0#n then BitVec.allOnes n else BitVec.ofNat n (a.toNat / b.toNat)

def iRems (n : Nat) (a b : BitVec n) : BitVec n :=
  if b = 0#n then a else BitVec.ofInt n (a.toInt.tmod b.toInt)

def iRemn (n : Nat) (a b : BitVec n) : BitVec n :=
  if b = 0#n then a else BitVec.ofNat n (a.toNat % b.toNat)

/-- The number of one bits among the low k bits. -/
def popLow {n : Nat} (a : BitVec n) : Nat → Nat
  | 0 => 0
  | k + 1 => (if a.getLsbD k then 1 else 0) + popLow a k

def iClz (n : Nat) (a : BitVec n) : BitVec n := BitVec.ofNat n (n - bitLen a.toNat)

/-- The lowest set bit at or above i, looking at k bits; i + k where there is none. -/
def ctzFrom {n : Nat} (a : BitVec n) : Nat → Nat → Nat
  | 0, i => i
  | k + 1, i => if a.getLsbD i then i else ctzFrom a k (i + 1)

def iCtz (n : Nat) (a : BitVec n) : BitVec n := BitVec.ofNat n (ctzFrom a n 0)

def iPopc (n : Nat) (a : BitVec n) : BitVec n := BitVec.ofNat n (popLow a n)

def iNot (n : Nat) (a : BitVec n) : BitVec n := ~~~a

def iNeg (n : Nat) (a : BitVec n) : BitVec n := 0#n - a

/-- The bytes of a in reverse order. -/
def iBswap (n : Nat) (a : BitVec n) : BitVec n := BitVec.ofNat n (leVal ((toLe (n / 8) a.toNat).reverse))

def iSex (k : Nat) (n : Nat) (a : BitVec n) : BitVec n := (a.extractLsb' 0 k).signExtend n

def iZex (k : Nat) (n : Nat) (a : BitVec n) : BitVec n := (a.extractLsb' 0 k).zeroExtend n

/-- A two-operand integer operation at the width of R150; its result is sign-extended from the narrow width unless it is a
truth value (R150, R155). -/
def intVal (f : (n : Nat) → BitVec n → BitVec n → BitVec n) (narrow : Bool) (a b : W64) : W64 :=
  if narrow then (f 32 (a.extractLsb' 0 32) (b.extractLsb' 0 32)).signExtend 64 else f 64 a b

/-- A one-operand integer operation at either width (R158). -/
def unVal (f : (n : Nat) → BitVec n → BitVec n) (narrow : Bool) (a : W64) : W64 :=
  if narrow then (f 32 (a.extractLsb' 0 32)).signExtend 64 else f 64 a

/-- An A-slot instruction with one fixed-latency scalar result and its flags (R148, R152). -/
def scalarOp (u : Uses) (rd : SReg) (v : State → W64 × Flags) (lat : Nat) (s : State) : State :=
  run (do
    gate .a { u with sw := [rd], pw := SReg.dest rd lat } s
    let s1 ← setFlags s (v s).2
    let s2 ← produceS s1 rd (v s).1 lat
    return { s2 with cur := { s2.cur with res := .committed } })

/-- A two-operand integer instruction (R150). -/
def intOp (f : (n : Nat) → BitVec n → BitVec n → BitVec n) (lat : Nat) (rd ra : SReg) (o : Opnd2) (s : State) : State :=
  scalarOp { Uses.none with sr := ra :: o.regs } rd
    (fun s => (intVal f o.narrow (s.regVal ra) (s.opnd2 o), fNone)) lat s

/-- An integer division (R157). -/
def divOp (f : (n : Nat) → BitVec n → BitVec n → BitVec n) (rd ra : SReg) (o : Opnd2) (s : State) : State :=
  scalarOp { Uses.none with sr := ra :: o.regs } rd
    (fun s => (intVal f o.narrow (s.regVal ra) (s.opnd2 o),
      if o.narrow then idzIf ((s.opnd2 o).extractLsb' 0 32) else idzIf (s.opnd2 o))) 16 s

/-- An integer unary instruction; its I = 1 form is the fallback of R62 (R158). -/
def iunOp (f : (n : Nat) → BitVec n → BitVec n) (rd ra : SReg) (u : UOpnd) (s : State) : State :=
  scalarOp { Uses.none with sr := [ra] } rd
    (fun s => (unVal f u.narrow (s.regVal ra), wIf u.fallback)) 1 s

/-- ADD (R154): a + b. -/
def execAdd (rd ra : SReg) (o : Opnd2) (s : State) : Host.Outcome State Fault Refusal :=
  .next (intOp iAdd 1 rd ra o s)

/-- SUB (R154): a − b. -/
def execSub (rd ra : SReg) (o : Opnd2) (s : State) : Host.Outcome State Fault Refusal :=
  .next (intOp iSub 1 rd ra o s)

/-- AND (R154): a & b. -/
def execAnd (rd ra : SReg) (o : Opnd2) (s : State) : Host.Outcome State Fault Refusal :=
  .next (intOp iAnd 1 rd ra o s)

/-- OR (R154): a | b. -/
def execOr (rd ra : SReg) (o : Opnd2) (s : State) : Host.Outcome State Fault Refusal :=
  .next (intOp iOr 1 rd ra o s)

/-- XOR (R154): a xor b. -/
def execXor (rd ra : SReg) (o : Opnd2) (s : State) : Host.Outcome State Fault Refusal :=
  .next (intOp iXor 1 rd ra o s)

/-- ANDN (R154): a & ~b. -/
def execAndn (rd ra : SReg) (o : Opnd2) (s : State) : Host.Outcome State Fault Refusal :=
  .next (intOp iAndn 1 rd ra o s)

/-- SHL (R154): a shifted left. -/
def execShl (rd ra : SReg) (o : Opnd2) (s : State) : Host.Outcome State Fault Refusal :=
  .next (intOp iShl 1 rd ra o s)

/-- SHR (R154): a shifted right, zero fill. -/
def execShr (rd ra : SReg) (o : Opnd2) (s : State) : Host.Outcome State Fault Refusal :=
  .next (intOp iShr 1 rd ra o s)

/-- SAR (R154): a shifted right, sign fill. -/
def execSar (rd ra : SReg) (o : Opnd2) (s : State) : Host.Outcome State Fault Refusal :=
  .next (intOp iSar 1 rd ra o s)

/-- ROL (R154): a rotated left. -/
def execRol (rd ra : SReg) (o : Opnd2) (s : State) : Host.Outcome State Fault Refusal :=
  .next (intOp iRol 1 rd ra o s)

/-- MIN (R154): the signed smaller. -/
def execMin (rd ra : SReg) (o : Opnd2) (s : State) : Host.Outcome State Fault Refusal :=
  .next (intOp iMin 1 rd ra o s)

/-- MAX (R154): the signed larger. -/
def execMax (rd ra : SReg) (o : Opnd2) (s : State) : Host.Outcome State Fault Refusal :=
  .next (intOp iMax 1 rd ra o s)

/-- MINN (R154): the unsigned smaller. -/
def execMinn (rd ra : SReg) (o : Opnd2) (s : State) : Host.Outcome State Fault Refusal :=
  .next (intOp iMinn 1 rd ra o s)

/-- MAXN (R154): the unsigned larger. -/
def execMaxn (rd ra : SReg) (o : Opnd2) (s : State) : Host.Outcome State Fault Refusal :=
  .next (intOp iMaxn 1 rd ra o s)

/-- SHADD1 (R154): 2a + b. -/
def execShadd1 (rd ra : SReg) (o : Opnd2) (s : State) : Host.Outcome State Fault Refusal :=
  .next (intOp (iShadd 1) 1 rd ra o s)

/-- SHADD2 (R154): 4a + b. -/
def execShadd2 (rd ra : SReg) (o : Opnd2) (s : State) : Host.Outcome State Fault Refusal :=
  .next (intOp (iShadd 2) 1 rd ra o s)

/-- SHADD3 (R154): 8a + b. -/
def execShadd3 (rd ra : SReg) (o : Opnd2) (s : State) : Host.Outcome State Fault Refusal :=
  .next (intOp (iShadd 3) 1 rd ra o s)

/-- MOV (R154): the second operand. -/
def execMov (rd : SReg) (o : Opnd2) (s : State) : Host.Outcome State Fault Refusal :=
  .next (scalarOp { Uses.none with sr := o.regs } rd
    (fun s => (intVal (fun _ _ b => b) o.narrow 0#64 (s.opnd2 o), fNone)) 1 s)

/-- CMP_EQ (R155): 1 where the relation holds, else 0. -/
def execCmpEq (rd ra : SReg) (o : Opnd2) (s : State) : Host.Outcome State Fault Refusal :=
  .next (intOp iEq 1 rd ra o s)

/-- CMP_NE (R155): 1 where the relation holds, else 0. -/
def execCmpNe (rd ra : SReg) (o : Opnd2) (s : State) : Host.Outcome State Fault Refusal :=
  .next (intOp iNe 1 rd ra o s)

/-- CMP_LT (R155): 1 where the relation holds, else 0. -/
def execCmpLt (rd ra : SReg) (o : Opnd2) (s : State) : Host.Outcome State Fault Refusal :=
  .next (intOp iLt 1 rd ra o s)

/-- CMP_LTN (R155): 1 where the relation holds, else 0. -/
def execCmpLtn (rd ra : SReg) (o : Opnd2) (s : State) : Host.Outcome State Fault Refusal :=
  .next (intOp iLtn 1 rd ra o s)

/-- CMP_LE (R155): 1 where the relation holds, else 0. -/
def execCmpLe (rd ra : SReg) (o : Opnd2) (s : State) : Host.Outcome State Fault Refusal :=
  .next (intOp iLe 1 rd ra o s)

/-- CMP_LEN (R155): 1 where the relation holds, else 0. -/
def execCmpLen (rd ra : SReg) (o : Opnd2) (s : State) : Host.Outcome State Fault Refusal :=
  .next (intOp iLen 1 rd ra o s)

/-- CMP_GT (R155): 1 where the relation holds, else 0. -/
def execCmpGt (rd ra : SReg) (o : Opnd2) (s : State) : Host.Outcome State Fault Refusal :=
  .next (intOp iGt 1 rd ra o s)

/-- CMP_GTN (R155): 1 where the relation holds, else 0. -/
def execCmpGtn (rd ra : SReg) (o : Opnd2) (s : State) : Host.Outcome State Fault Refusal :=
  .next (intOp iGtn 1 rd ra o s)

/-- MUL (R156). -/
def execMul (rd ra : SReg) (o : Opnd2) (s : State) : Host.Outcome State Fault Refusal :=
  .next (intOp iMul 3 rd ra o s)

/-- MULHS (R156). -/
def execMulhs (rd ra : SReg) (o : Opnd2) (s : State) : Host.Outcome State Fault Refusal :=
  .next (intOp iMulhs 3 rd ra o s)

/-- MULHN (R156). -/
def execMulhn (rd ra : SReg) (o : Opnd2) (s : State) : Host.Outcome State Fault Refusal :=
  .next (intOp iMulhn 3 rd ra o s)

/-- MULHSN (R156). -/
def execMulhsn (rd ra : SReg) (o : Opnd2) (s : State) : Host.Outcome State Fault Refusal :=
  .next (intOp iMulhsn 3 rd ra o s)

/-- DIVS (R157): a zero divisor sets IDZ, or traps with EIDZ. -/
def execDivs (rd ra : SReg) (o : Opnd2) (s : State) : Host.Outcome State Fault Refusal :=
  .next (divOp iDivs rd ra o s)

/-- DIVN (R157): a zero divisor sets IDZ, or traps with EIDZ. -/
def execDivn (rd ra : SReg) (o : Opnd2) (s : State) : Host.Outcome State Fault Refusal :=
  .next (divOp iDivn rd ra o s)

/-- REMS (R157): a zero divisor sets IDZ, or traps with EIDZ. -/
def execRems (rd ra : SReg) (o : Opnd2) (s : State) : Host.Outcome State Fault Refusal :=
  .next (divOp iRems rd ra o s)

/-- REMN (R157): a zero divisor sets IDZ, or traps with EIDZ. -/
def execRemn (rd ra : SReg) (o : Opnd2) (s : State) : Host.Outcome State Fault Refusal :=
  .next (divOp iRemn rd ra o s)

/-- CLZ (R158). -/
def execClz (rd ra : SReg) (u : UOpnd) (s : State) : Host.Outcome State Fault Refusal :=
  .next (iunOp iClz rd ra u s)

/-- CTZ (R158). -/
def execCtz (rd ra : SReg) (u : UOpnd) (s : State) : Host.Outcome State Fault Refusal :=
  .next (iunOp iCtz rd ra u s)

/-- POPC (R158). -/
def execPopc (rd ra : SReg) (u : UOpnd) (s : State) : Host.Outcome State Fault Refusal :=
  .next (iunOp iPopc rd ra u s)

/-- NOT (R158). -/
def execNot (rd ra : SReg) (u : UOpnd) (s : State) : Host.Outcome State Fault Refusal :=
  .next (iunOp iNot rd ra u s)

/-- NEG (R158). -/
def execNeg (rd ra : SReg) (u : UOpnd) (s : State) : Host.Outcome State Fault Refusal :=
  .next (iunOp iNeg rd ra u s)

/-- BSWAP (R158). -/
def execBswap (rd ra : SReg) (u : UOpnd) (s : State) : Host.Outcome State Fault Refusal :=
  .next (iunOp iBswap rd ra u s)

/-- SEXB (R158). -/
def execSexb (rd ra : SReg) (u : UOpnd) (s : State) : Host.Outcome State Fault Refusal :=
  .next (iunOp (iSex 8) rd ra u s)

/-- SEXH (R158). -/
def execSexh (rd ra : SReg) (u : UOpnd) (s : State) : Host.Outcome State Fault Refusal :=
  .next (iunOp (iSex 16) rd ra u s)

/-- SEXW (R158). -/
def execSexw (rd ra : SReg) (u : UOpnd) (s : State) : Host.Outcome State Fault Refusal :=
  .next (iunOp (iSex 32) rd ra u s)

/-- ZEXB (R158). -/
def execZexb (rd ra : SReg) (u : UOpnd) (s : State) : Host.Outcome State Fault Refusal :=
  .next (iunOp (iZex 8) rd ra u s)

/-- ZEXH (R158). -/
def execZexh (rd ra : SReg) (u : UOpnd) (s : State) : Host.Outcome State Fault Refusal :=
  .next (iunOp (iZex 16) rd ra u s)

/-- ZEXW (R158). -/
def execZexw (rd ra : SReg) (u : UOpnd) (s : State) : Host.Outcome State Fault Refusal :=
  .next (iunOp (iZex 32) rd ra u s)

/-! Bit fields and select. -/

/-- The width of a field of length len1 + 1 at pos, cut at bit 63 (R159). -/
def fieldWidth (len1 pos : BitVec 6) : Nat :=
  if 64 < pos.toNat + (len1.toNat + 1) then 64 - pos.toNat else len1.toNat + 1

/-- A field that passes bit 63 is the fallback of R62. -/
def fieldCut (len1 pos : BitVec 6) : Bool := decide (64 < pos.toNat + (len1.toNat + 1))

/-- The field of a at pos, w bits wide, extended (R159). -/
def bfxVal (sgn : Bool) (pos w : Nat) (a : W64) : W64 :=
  let f := a.extractLsb' pos w
  if sgn then f.signExtend 64 else f.zeroExtend 64

/-- old with the w bits at pos replaced by a's low bits (R159). -/
def bfiVal (pos w : Nat) (old a : W64) : W64 :=
  let m : W64 := BitVec.ofNat 64 ((2 ^ w - 1) * 2 ^ pos)
  (old &&& ~~~m) ||| ((a <<< pos) &&& m)

/-- BFX (R159). -/
def execBfx (rd ra : SReg) (sgn : Bool) (len1 pos : BitVec 6) (s : State) : Host.Outcome State Fault Refusal :=
  .next (scalarOp { Uses.none with sr := [ra] } rd
    (fun s => (bfxVal sgn pos.toNat (fieldWidth len1 pos) (s.regVal ra), wIf (fieldCut len1 pos))) 1 s)

/-- BFI (R159): rd is also a source. -/
def execBfi (rd ra : SReg) (len1 pos : BitVec 6) (s : State) : Host.Outcome State Fault Refusal :=
  .next (scalarOp { Uses.none with sr := [rd, ra] } rd
    (fun s => (bfiVal pos.toNat (fieldWidth len1 pos) (s.regVal rd) (s.regVal ra), wIf (fieldCut len1 pos))) 1 s)

/-- SEL (R160): ra where rc is not zero, else rb. -/
def execSel (rd ra rb rc : SReg) (s : State) : Host.Outcome State Fault Refusal :=
  .next (scalarOp { Uses.none with sr := [ra, rb, rc] } rd
    (fun s => (if s.regVal rc != 0#64 then s.regVal ra else s.regVal rb, fNone)) 1 s)

/-! Floating arithmetic (R161 to R166). -/

/-- A scalar floating instruction on f32 codes; its result is zero-extended (R151).  N = 1 with RM not 0 sets W on every one of
them, those too on which RM and N have no effect (R62, R161, R166; DEDUCED, log entry 55). -/
def fOp (u : List SReg) (rd : SReg) (r : FRnd) (f : State → Nat × Flags) (lat : Nat) (s : State) : State :=
  scalarOp { Uses.none with sr := u } rd
    (fun s => (BitVec.ofNat 64 (f s).1, (f s).2 ||| wIf r.fallback)) lat s

/-- FADD (R161). -/
def execFadd (rd ra rb : SReg) (r : FRnd) (s : State) : Host.Outcome State Fault Refusal :=
  .next (fOp [ra, rb] rd r (fun s => fAdd .f32 (s.rmode r) (f32Of (s.regVal ra)) (f32Of (s.regVal rb))) 4 s)

/-- FSUB (R161). -/
def execFsub (rd ra rb : SReg) (r : FRnd) (s : State) : Host.Outcome State Fault Refusal :=
  .next (fOp [ra, rb] rd r (fun s => fSub .f32 (s.rmode r) (f32Of (s.regVal ra)) (f32Of (s.regVal rb))) 4 s)

/-- FMUL (R161). -/
def execFmul (rd ra rb : SReg) (r : FRnd) (s : State) : Host.Outcome State Fault Refusal :=
  .next (fOp [ra, rb] rd r (fun s => fMul .f32 (s.rmode r) (f32Of (s.regVal ra)) (f32Of (s.regVal rb))) 4 s)

/-- FDIV (R161). -/
def execFdiv (rd ra rb : SReg) (r : FRnd) (s : State) : Host.Outcome State Fault Refusal :=
  .next (fOp [ra, rb] rd r (fun s => fDiv .f32 (s.rmode r) (f32Of (s.regVal ra)) (f32Of (s.regVal rb))) 12 s)

/-- FMIN (R162). -/
def execFmin (rd ra rb : SReg) (r : FRnd) (s : State) : Host.Outcome State Fault Refusal :=
  .next (fOp [ra, rb] rd r (fun s => fMinMax .f32 false (f32Of (s.regVal ra)) (f32Of (s.regVal rb))) 4 s)

/-- FMAX (R162). -/
def execFmax (rd ra rb : SReg) (r : FRnd) (s : State) : Host.Outcome State Fault Refusal :=
  .next (fOp [ra, rb] rd r (fun s => fMinMax .f32 true (f32Of (s.regVal ra)) (f32Of (s.regVal rb))) 4 s)

/-- FSQRT (R161). -/
def execFsqrt (rd ra : SReg) (r : FRnd) (s : State) : Host.Outcome State Fault Refusal :=
  .next (fOp [ra] rd r (fun s => fSqrt .f32 (s.rmode r) (f32Of (s.regVal ra))) 12 s)

/-- FABS (R161): bit 31 cleared, no flag. -/
def execFabs (rd ra : SReg) (r : FRnd) (s : State) : Host.Outcome State Fault Refusal :=
  .next (fOp [ra] rd r (fun s => (FF.f32.absCode (f32Of (s.regVal ra)), fNone)) 4 s)

/-- FNEG (R161): bit 31 inverted, no flag. -/
def execFneg (rd ra : SReg) (r : FRnd) (s : State) : Host.Outcome State Fault Refusal :=
  .next (fOp [ra] rd r (fun s => (FF.f32.negate (f32Of (s.regVal ra)), fNone)) 4 s)

/-- FCPSGN (R161): a's magnitude with b's sign, no flag. -/
def execFcpsgn (rd ra rb : SReg) (r : FRnd) (s : State) : Host.Outcome State Fault Refusal :=
  .next (fOp [ra, rb] rd r (fun s => (FF.f32.absCode (f32Of (s.regVal ra)) +
    FF.f32.sign ((s.regVal rb).getLsbD 31), fNone)) 4 s)

/-- FFMA (R163): a × b + c, rounded once. -/
def execFfma (rd ra rb rc : SReg) (r : FRnd) (s : State) : Host.Outcome State Fault Refusal :=
  .next (fOp [ra, rb, rc] rd r (fun s => fMa .f32 (s.rmode r) false (f32Of (s.regVal ra)) (f32Of (s.regVal rb))
    (f32Of (s.regVal rc))) 4 s)

/-- FNMA (R163): −(a × b) + c, rounded once. -/
def execFnma (rd ra rb rc : SReg) (r : FRnd) (s : State) : Host.Outcome State Fault Refusal :=
  .next (fOp [ra, rb, rc] rd r (fun s => fMa .f32 (s.rmode r) true (f32Of (s.regVal ra)) (f32Of (s.regVal rb))
    (f32Of (s.regVal rc))) 4 s)

/-- A floating comparison's result (R164). -/
def fcmpOp (rel : Rel) (rd ra rb : SReg) (s : State) : State :=
  scalarOp { Uses.none with sr := [ra, rb] } rd
    (fun s => let r := fCmp .f32 rel (f32Of (s.regVal ra)) (f32Of (s.regVal rb)); (truth 64 r.1, r.2)) 4 s

/-- FCMP_EQ (R164). -/
def execFcmpEq (rd ra rb : SReg) (s : State) : Host.Outcome State Fault Refusal :=
  .next (fcmpOp .eq rd ra rb s)

/-- FCMP_LT (R164). -/
def execFcmpLt (rd ra rb : SReg) (s : State) : Host.Outcome State Fault Refusal :=
  .next (fcmpOp .lt rd ra rb s)

/-- FCMP_LE (R164). -/
def execFcmpLe (rd ra rb : SReg) (s : State) : Host.Outcome State Fault Refusal :=
  .next (fcmpOp .le rd ra rb s)

/-- FCMP_UN (R164). -/
def execFcmpUn (rd ra rb : SReg) (s : State) : Host.Outcome State Fault Refusal :=
  .next (fcmpOp .un rd ra rb s)

/-- An integer source of I2F and N2F (R165). -/
def intSrc (sgn w : Bool) (v : W64) : Int :=
  match sgn, w with
  | true, true => (v.extractLsb' 0 32).toInt
  | true, false => v.toInt
  | false, true => ((v.extractLsb' 0 32).toNat : Int)
  | false, false => (v.toNat : Int)

/-- The f32 code of an integer, rounded; zero is +0 (R165). -/
def intToF32 (mode : RMode) (v : Int) : Nat × Flags := FF.f32.round mode (Dy.ofInt v)

/-- F2I and F2N on an f32 code (R165). -/
def f32ToInt (sgn w : Bool) (mode : RMode) (c : Nat) : W64 × Flags :=
  match sgn, w with
  | true, true => let r := convInt .f32 mode (-2 ^ 31) (2 ^ 31 - 1) c; ((BitVec.ofInt 32 r.1).signExtend 64, r.2)
  | true, false => let r := convInt .f32 mode (-2 ^ 63) (2 ^ 63 - 1) c; (BitVec.ofInt 64 r.1, r.2)
  | false, true => let r := convInt .f32 mode 0 (2 ^ 32 - 1) c; (BitVec.ofInt 64 r.1, r.2)
  | false, false => let r := convInt .f32 mode 0 (2 ^ 64 - 1) c; (BitVec.ofInt 64 r.1, r.2)

/-- I2F (R165). -/
def execI2f (rd ra : SReg) (w : Bool) (r : FRnd) (s : State) : Host.Outcome State Fault Refusal :=
  .next (fOp [ra] rd r (fun s => intToF32 (s.rmode r) (intSrc true w (s.regVal ra))) 4 s)

/-- N2F (R165). -/
def execN2f (rd ra : SReg) (w : Bool) (r : FRnd) (s : State) : Host.Outcome State Fault Refusal :=
  .next (fOp [ra] rd r (fun s => intToF32 (s.rmode r) (intSrc false w (s.regVal ra))) 4 s)

/-- F2I (R165). -/
def execF2i (rd ra : SReg) (w : Bool) (r : FRnd) (s : State) : Host.Outcome State Fault Refusal :=
  .next (scalarOp { Uses.none with sr := [ra] } rd
    (fun s => let x := f32ToInt true w (s.rmode r) (f32Of (s.regVal ra)); (x.1, x.2 ||| wIf r.fallback)) 4 s)

/-- F2N (R165). -/
def execF2n (rd ra : SReg) (w : Bool) (r : FRnd) (s : State) : Host.Outcome State Fault Refusal :=
  .next (scalarOp { Uses.none with sr := [ra] } rd
    (fun s => let x := f32ToInt false w (s.rmode r) (f32Of (s.regVal ra)); (x.1, x.2 ||| wIf r.fallback)) 4 s)

/-- F2BF (R165). -/
def execF2bf (rd ra : SReg) (r : FRnd) (s : State) : Host.Outcome State Fault Refusal :=
  .next (fOp [ra] rd r (fun s => convF .f32 .bf16 (s.rmode r) (f32Of (s.regVal ra))) 4 s)

/-- BF2F (R165): exact, no flag. -/
def execBf2f (rd ra : SReg) (r : FRnd) (s : State) : Host.Outcome State Fault Refusal :=
  .next (fOp [ra] rd r (fun s => convF .bf16 .f32 .rne (h16Of (s.regVal ra))) 4 s)

/-- F2H (R165). -/
def execF2h (rd ra : SReg) (r : FRnd) (s : State) : Host.Outcome State Fault Refusal :=
  .next (fOp [ra] rd r (fun s => convF .f32 .f16 (s.rmode r) (f32Of (s.regVal ra))) 4 s)

/-- H2F (R165): exact, no flag. -/
def execH2f (rd ra : SReg) (r : FRnd) (s : State) : Host.Outcome State Fault Refusal :=
  .next (fOp [ra] rd r (fun s => convF .f16 .f32 .rne (h16Of (s.regVal ra))) 4 s)

/-- FCLS (R166). -/
def execFcls (rd ra : SReg) (r : FRnd) (s : State) : Host.Outcome State Fault Refusal :=
  .next (fOp [ra] rd r (fun s => (fClass .f32 (f32Of (s.regVal ra)), fNone)) 4 s)

end Sys2Proof.Machine
end

