-- ==== Sys2Proof/Machine/Vector.lean ====
section
/-! DEFINITION. The vector and mask instructions of the A-slot (R187 to R201). -/

namespace Sys2Proof.Machine

/-! What the vector instructions share (R187 to R190). -/

/-- A vector A-slot instruction: its registers, its destination, the governing mask, the element width, what the elements
become, and the flags of its fallback.  Only active elements are written and flagged. -/
def vecOut (u : Uses) (vd : VReg) (msk : MReg) (w : Nat) (xs : State → List (Nat × Flags)) (fl : Flags) (lat : Nat)
    (s : State) : State :=
  run (do
    gate .a { u with vw := [vd], mr := msk :: u.mr, pw := [(.v vd, lat)] } s
    let mk := s.maskVal msk
    let r := xs s
    let s1 ← setFlags s (activeFlags mk w r ||| fl)
    let s2 ← produce s1 (.v vd) (vecOf w (r.map (·.1))) (laneBits mk) lat
    return { s2 with cur := { s2.cur with res := .committed } })

/-- An operation on two elements of a type. -/
abbrev Elem2 := VTy → RMode → Nat → Nat → Nat × Flags

/-- An operation on one element of a type. -/
abbrev Elem1 := VTy → RMode → Nat → Nat × Flags

/-- The type whose elements a shift, or a bit count, of a float type takes (R62). -/
def VTy.asBits : VTy → VTy
  | .f32 => .n32
  | .bf16 => .i16
  | .f16 => .i16
  | t => t

/-- The type of a floating function of an integer type (R62). -/
def VTy.asF32 (t : VTy) : VTy := if t.ff.isSome then t else .f32

/-- A two-operand instruction executed with type eff m.ty, with W where that is another type (R62). -/
def vBin (op : Elem2) (eff : VTy → VTy) (fb : VTy → Bool) (lat : VTy → Nat) (vd va : VReg) (b : VSrc) (m : VMod)
    (s : State) : State :=
  let t := eff m.ty
  vecOut { Uses.none with vr := va :: b.vregs, sr := b.sregs } vd m.msk t.bits
    (fun s => List.zipWith (op t s.fmode) (elems (s.vecVal va) t.bits t.count) (s.vsrc b t.bits t.count))
    (wIf (fb m.ty)) (lat m.ty) s

/-- A one-operand instruction; S = 1 is a fallback (R62). -/
def vUn (op : Elem1) (eff : VTy → VTy) (vd va : VReg) (sb : Bool) (m : VMod) (s : State) : State :=
  let t := eff m.ty
  vecOut { Uses.none with vr := [va] } vd m.msk t.bits
    (fun s => (elems (s.vecVal va) t.bits t.count).map (op t s.fmode)) (wIf (sb || t != m.ty)) 8 s

/-- Latency of a VALU operation: 4 for floating arithmetic, else 2. -/
def aluLat (t : VTy) : Nat := if t.ff.isSome then 4 else 2

def two (_ : VTy) : Nat := 2

/-- An integer operation of a width on elements. -/
def onBits (f : (n : Nat) → BitVec n → BitVec n → BitVec n) (w a b : Nat) : Nat × Flags :=
  ((f w (BitVec.ofNat w a) (BitVec.ofNat w b)).toNat, fNone)

/-! VALU (R191). -/

/-- An operation with a floating and an integer form. -/
def arith (ff : FF → RMode → Nat → Nat → Nat × Flags) (fs fu : (n : Nat) → BitVec n → BitVec n → BitVec n) : Elem2 :=
  fun t mode a b =>
    match t.ff with
    | some f => ff f mode a b
    | none => onBits (if t.signed then fs else fu) t.bits a b

/-- A bitwise or shift operation. -/
def bitwise (g : (n : Nat) → BitVec n → BitVec n → BitVec n) : Elem2 := fun t _ a b => onBits g t.bits a b

/-- An integer division, with IDZ for a zero divisor. -/
def divElem : Elem2 := fun t mode a b =>
  match t.ff with
  | some f => fDiv f mode a b
  | none => ((onBits (if t.signed then iDivs else iDivn) t.bits a b).1, if b = 0 then fIDZ else fNone)

/-- An integer element's value by the type's signedness. -/
def VTy.int (t : VTy) (x : Nat) : Int := if t.signed then sElem t.bits x else x

/-- An integer saturated to the type's range, with SAT when clamped. -/
def satElem (t : VTy) (v : Int) : Nat × Flags :=
  if v < VTy.lo t then (wrapElem t.bits (VTy.lo t), fSAT)
  else if VTy.hi t < v then (wrapElem t.bits (VTy.hi t), fSAT) else (wrapElem t.bits v, fNone)

def addsElem : Elem2 := fun t mode a b =>
  match t.ff with
  | some f => fAdd f mode a b
  | none => satElem t (VTy.int t a + VTy.int t b)

def subsElem : Elem2 := fun t mode a b =>
  match t.ff with
  | some f => fSub f mode a b
  | none => satElem t (VTy.int t a - VTy.int t b)

/-- |a − b|: exact mod 2^w, or rounded as a floating magnitude. -/
def absdElem : Elem2 := fun t mode a b =>
  match t.ff with
  | none => (wrapElem t.bits ((VTy.int t a - VTy.int t b).natAbs : Int), fNone)
  | some f =>
    match nanOf f [a, b] with
    | some r => r
    | none =>
      let r := if f.key a < f.key b then fSub f mode b a else fSub f mode a b
      (if f.isNan r.1 then r.1 else f.absCode r.1, r.2)

/-- VADD (R191). -/
def execVadd (vd va : VReg) (b : VSrc) (m : VMod) (s : State) : Host.Outcome State Fault Refusal :=
  .next (vBin (arith fAdd iAdd iAdd) id (fun _ => false) aluLat vd va b m s)

/-- VSUB (R191). -/
def execVsub (vd va : VReg) (b : VSrc) (m : VMod) (s : State) : Host.Outcome State Fault Refusal :=
  .next (vBin (arith fSub iSub iSub) id (fun _ => false) aluLat vd va b m s)

/-- VMUL (R191). -/
def execVmul (vd va : VReg) (b : VSrc) (m : VMod) (s : State) : Host.Outcome State Fault Refusal :=
  .next (vBin (arith fMul iMul iMul) id (fun _ => false) aluLat vd va b m s)

/-- VDIV (R191). -/
def execVdiv (vd va : VReg) (b : VSrc) (m : VMod) (s : State) : Host.Outcome State Fault Refusal :=
  .next (vBin divElem id (fun _ => false) aluLat vd va b m s)

/-- VMIN (R191). -/
def execVmin (vd va : VReg) (b : VSrc) (m : VMod) (s : State) : Host.Outcome State Fault Refusal :=
  .next (vBin (arith (fun f _ => fMinMax f false) iMin iMinn) id (fun _ => false) aluLat vd va b m s)

/-- VMAX (R191). -/
def execVmax (vd va : VReg) (b : VSrc) (m : VMod) (s : State) : Host.Outcome State Fault Refusal :=
  .next (vBin (arith (fun f _ => fMinMax f true) iMax iMaxn) id (fun _ => false) aluLat vd va b m s)

/-- VAND (R191). -/
def execVand (vd va : VReg) (b : VSrc) (m : VMod) (s : State) : Host.Outcome State Fault Refusal :=
  .next (vBin (bitwise iAnd) id (fun _ => false) two vd va b m s)

/-- VOR (R191). -/
def execVor (vd va : VReg) (b : VSrc) (m : VMod) (s : State) : Host.Outcome State Fault Refusal :=
  .next (vBin (bitwise iOr) id (fun _ => false) two vd va b m s)

/-- VXOR (R191). -/
def execVxor (vd va : VReg) (b : VSrc) (m : VMod) (s : State) : Host.Outcome State Fault Refusal :=
  .next (vBin (bitwise iXor) id (fun _ => false) two vd va b m s)

/-- VSHL (R191). -/
def execVshl (vd va : VReg) (b : VSrc) (m : VMod) (s : State) : Host.Outcome State Fault Refusal :=
  .next (vBin (bitwise iShl) VTy.asBits (fun t => t.ff.isSome) two vd va b m s)

/-- VSHR (R191). -/
def execVshr (vd va : VReg) (b : VSrc) (m : VMod) (s : State) : Host.Outcome State Fault Refusal :=
  .next (vBin (bitwise iShr) VTy.asBits (fun t => t.ff.isSome) two vd va b m s)

/-- VSAR (R191). -/
def execVsar (vd va : VReg) (b : VSrc) (m : VMod) (s : State) : Host.Outcome State Fault Refusal :=
  .next (vBin (bitwise iSar) VTy.asBits (fun t => t.ff.isSome) two vd va b m s)

/-- VADDS (R191). -/
def execVadds (vd va : VReg) (b : VSrc) (m : VMod) (s : State) : Host.Outcome State Fault Refusal :=
  .next (vBin addsElem id (fun t => t.ff.isSome) aluLat vd va b m s)

/-- VSUBS (R191). -/
def execVsubs (vd va : VReg) (b : VSrc) (m : VMod) (s : State) : Host.Outcome State Fault Refusal :=
  .next (vBin subsElem id (fun t => t.ff.isSome) aluLat vd va b m s)

/-- VABSD (R191). -/
def execVabsd (vd va : VReg) (b : VSrc) (m : VMod) (s : State) : Host.Outcome State Fault Refusal :=
  .next (vBin absdElem id (fun _ => false) aluLat vd va b m s)

/-! VFMA, VFNMA, VDOT4 (R192, R193). -/

/-- A multiply-accumulate of elements. -/
def vFma (neg : Bool) (vd va : VReg) (b : VSrc) (vc : VReg) (m : VMod) (s : State) : State :=
  let t := m.ty
  vecOut { Uses.none with vr := va :: vc :: b.vregs, sr := b.sregs } vd m.msk t.bits
    (fun s => List.zipWith (fun ab c =>
        match t.ff with
        | some f => fMa f s.fmode neg ab.1 ab.2 c
        | none => (wrapElem t.bits ((if neg then -(ab.1 * ab.2 : Nat) else (ab.1 * ab.2 : Nat) : Int) + c), fNone))
      (List.zip (elems (s.vecVal va) t.bits t.count) (s.vsrc b t.bits t.count))
      (elems (s.vecVal vc) t.bits t.count)) fNone 5 s

/-- Four products of a lane. -/
def dot4 (sgn : Bool) (a b : Nat) : Int :=
  ((List.range 4).map fun k =>
    let x := a / 2 ^ (8 * k) % 256
    let y := b / 2 ^ (8 * k) % 256
    if sgn then sElem 8 x * sElem 8 y else (x * y : Nat)).sum

/-- VDOT4 works on lanes, its types other than i8 and n8 being executed as i8 (R62). -/
def vDot4 (vd va : VReg) (b : VSrc) (vc : VReg) (m : VMod) (s : State) : State :=
  vecOut { Uses.none with vr := va :: vc :: b.vregs, sr := b.sregs } vd m.msk 32
    (fun s =>
      let ys := match b with
        | .v r => elems (s.vecVal r) 32 128
        | .sc r => List.replicate 128 ((s.regVal r).toNat % 256 * 0x01010101)
      List.zipWith (fun ab (c : Nat) => (wrapElem 32 (dot4 (m.ty != .n8) ab.1 ab.2 + (c : Int)), fNone))
        (List.zip (elems (s.vecVal va) 32 128) ys) (elems (s.vecVal vc) 32 128))
    (wIf (m.ty != .i8 && m.ty != .n8)) 5 s

/-- VFMA (R192): a·b + c. -/
def execVfma (vd va : VReg) (b : VSrc) (vc : VReg) (m : VMod) (s : State) : Host.Outcome State Fault Refusal :=
  .next (vFma false vd va b vc m s)

/-- VFNMA (R192): −(a·b) + c. -/
def execVfnma (vd va : VReg) (b : VSrc) (vc : VReg) (m : VMod) (s : State) : Host.Outcome State Fault Refusal :=
  .next (vFma true vd va b vc m s)

/-- VDOT4 (R193). -/
def execVdot4 (vd va : VReg) (b : VSrc) (vc : VReg) (m : VMod) (s : State) : Host.Outcome State Fault Refusal :=
  .next (vDot4 vd va b vc m s)

/-! VUN (R194, R195). -/

/-- A floating function, on a type that has been made a floating one. -/
def fltElem (g : FF → RMode → Nat → Nat × Flags) : Elem1 := fun t mode a => g ((VTy.ff t).getD .f32) mode a

def absElem : Elem1 := fun t _ a =>
  match t.ff with
  | some f => (f.absCode a, fNone)
  | none => (if t.signed then wrapElem t.bits ((sElem t.bits a).natAbs : Int) else a, fNone)

def negElem : Elem1 := fun t _ a =>
  match t.ff with
  | some f => (f.negate a, fNone)
  | none => (wrapElem t.bits (-(a : Int)), fNone)

def reluElem : Elem1 := fun t _ a =>
  match t.ff with
  | some f =>
    match nanOf f [a] with
    | some r => r
    | none => (if a / 2 ^ (t.bits - 1) % 2 = 1 then 0 else a, fNone)
  | none => (if t.signed && decide (sElem t.bits a < 0) then 0 else a, fNone)

/-- VABS (R194). -/
def execVabs (vd va : VReg) (sb : Bool) (m : VMod) (s : State) : Host.Outcome State Fault Refusal :=
  .next (vUn absElem id vd va sb m s)

/-- VNEG (R194). -/
def execVneg (vd va : VReg) (sb : Bool) (m : VMod) (s : State) : Host.Outcome State Fault Refusal :=
  .next (vUn negElem id vd va sb m s)

/-- VSQRT (R194, R195). -/
def execVsqrt (vd va : VReg) (sb : Bool) (m : VMod) (s : State) : Host.Outcome State Fault Refusal :=
  .next (vUn (fltElem fSqrt) VTy.asF32 vd va sb m s)

/-- VRCP (R194, R195). -/
def execVrcp (vd va : VReg) (sb : Bool) (m : VMod) (s : State) : Host.Outcome State Fault Refusal :=
  .next (vUn (fltElem fRcp) VTy.asF32 vd va sb m s)

/-- VRSQ (R194, R195). -/
def execVrsq (vd va : VReg) (sb : Bool) (m : VMod) (s : State) : Host.Outcome State Fault Refusal :=
  .next (vUn (fltElem fRsq) VTy.asF32 vd va sb m s)

/-- VEX2 (R194, R195). -/
def execVex2 (vd va : VReg) (sb : Bool) (m : VMod) (s : State) : Host.Outcome State Fault Refusal :=
  .next (vUn (fltElem fEx2) VTy.asF32 vd va sb m s)

/-- VLG2 (R194, R195). -/
def execVlg2 (vd va : VReg) (sb : Bool) (m : VMod) (s : State) : Host.Outcome State Fault Refusal :=
  .next (vUn (fltElem fLg2) VTy.asF32 vd va sb m s)

/-- VMOV (R194). -/
def execVmov (vd va : VReg) (sb : Bool) (m : VMod) (s : State) : Host.Outcome State Fault Refusal :=
  .next (vUn (fun _ _ a => (a, fNone)) id vd va sb m s)

/-- VNOT (R194). -/
def execVnot (vd va : VReg) (sb : Bool) (m : VMod) (s : State) : Host.Outcome State Fault Refusal :=
  .next (vUn (fun t _ a => (2 ^ t.bits - 1 - a, fNone)) id vd va sb m s)

/-- VCLZ (R194). -/
def execVclz (vd va : VReg) (sb : Bool) (m : VMod) (s : State) : Host.Outcome State Fault Refusal :=
  .next (vUn (fun t _ a => (t.bits - bitLen a, fNone)) VTy.asBits vd va sb m s)

/-- VPOPC (R194). -/
def execVpopc (vd va : VReg) (sb : Bool) (m : VMod) (s : State) : Host.Outcome State Fault Refusal :=
  .next (vUn (fun t _ a => (popLow (BitVec.ofNat 32 a) t.bits, fNone)) VTy.asBits vd va sb m s)

/-- VRELU (R194). -/
def execVrelu (vd va : VReg) (sb : Bool) (m : VMod) (s : State) : Host.Outcome State Fault Refusal :=
  .next (vUn reluElem id vd va sb m s)

/-! VCMP and VSEL (R196, R197). -/

/-- A relation of integer values. -/
def intRel (r : Rel) (a b : Int) : Bool :=
  match r with
  | .eq => a == b
  | .ne => a != b
  | .lt => decide (a < b)
  | .le => decide (a ≤ b)
  | .gt => decide (b < a)
  | .ge => decide (b ≤ a)
  | .un => false
  | .ord => true

/-- A relation of two elements, with its flags. -/
def cmpElem (r : Rel) (t : VTy) (a b : Nat) : Bool × Flags :=
  match t.ff with
  | some f => fCmp f r a b
  | none => (intRel r (VTy.int t a) (VTy.int t b), fNone)

/-- The mask whose bit i is the AND of the relation over the elements of lane i. -/
def laneAll (w : Nat) (xs : List Bool) : MWord :=
  BitVec.ofNat 128 ((List.range 128).foldl (fun acc i =>
    if ((xs.drop (i * (32 / w))).take (32 / w)).all id then acc + 2 ^ i else acc) 0)

/-- VCMP (R196). -/
def vCmp (r : Rel) (md : MReg) (va : VReg) (b : VSrc) (m : VMod) (s : State) : State :=
  run (do
    gate .a { Uses.none with vr := va :: b.vregs, sr := b.sregs, mr := [m.msk], mw := [md], pw := maskDest md 2 } s
    let t := m.ty
    let mk := s.maskVal m.msk
    let xs := List.zipWith (cmpElem r t) (elems (s.vecVal va) t.bits t.count) (s.vsrc b t.bits t.count)
    let s1 ← setFlags s (activeFlags mk t.bits (xs.map fun x => (0, x.2)))
    let s2 ← produceM s1 md (laneAll t.bits (xs.map (·.1))) mk 2
    return { s2 with cur := { s2.cur with res := .committed } })

/-- VCMP eq (R196). -/
def execVcmpEq (md : MReg) (va : VReg) (b : VSrc) (m : VMod) (s : State) : Host.Outcome State Fault Refusal :=
  .next (vCmp .eq md va b m s)

/-- VCMP ne (R196). -/
def execVcmpNe (md : MReg) (va : VReg) (b : VSrc) (m : VMod) (s : State) : Host.Outcome State Fault Refusal :=
  .next (vCmp .ne md va b m s)

/-- VCMP lt (R196). -/
def execVcmpLt (md : MReg) (va : VReg) (b : VSrc) (m : VMod) (s : State) : Host.Outcome State Fault Refusal :=
  .next (vCmp .lt md va b m s)

/-- VCMP le (R196). -/
def execVcmpLe (md : MReg) (va : VReg) (b : VSrc) (m : VMod) (s : State) : Host.Outcome State Fault Refusal :=
  .next (vCmp .le md va b m s)

/-- VCMP gt (R196). -/
def execVcmpGt (md : MReg) (va : VReg) (b : VSrc) (m : VMod) (s : State) : Host.Outcome State Fault Refusal :=
  .next (vCmp .gt md va b m s)

/-- VCMP ge (R196). -/
def execVcmpGe (md : MReg) (va : VReg) (b : VSrc) (m : VMod) (s : State) : Host.Outcome State Fault Refusal :=
  .next (vCmp .ge md va b m s)

/-- VCMP un (R196). -/
def execVcmpUn (md : MReg) (va : VReg) (b : VSrc) (m : VMod) (s : State) : Host.Outcome State Fault Refusal :=
  .next (vCmp .un md va b m s)

/-- VCMP ord (R196). -/
def execVcmpOrd (md : MReg) (va : VReg) (b : VSrc) (m : VMod) (s : State) : Host.Outcome State Fault Refusal :=
  .next (vCmp .ord md va b m s)

/-- VSEL (R197). -/
def execVsel (vd va : VReg) (b : VSrc) (mk : MReg) (m : VMod) (s : State) : Host.Outcome State Fault Refusal :=
  .next (vecOut { Uses.none with vr := va :: b.vregs, sr := b.sregs, mr := [mk] } vd m.msk m.ty.bits
    (fun s => (List.zip (elems (s.vecVal va) m.ty.bits m.ty.count) (s.vsrc b m.ty.bits m.ty.count)).zipIdx.map fun x =>
      (if activeElem (s.maskVal mk) m.ty.bits x.2 then x.1.1 else x.1.2, fNone)) fNone 1 s)

/-! VCVT (R198). -/

/-- The bits that a target element occupies. -/
def cvtBits : CvtCode → Nat
  | .f32 | .i32 | .n32 => 32
  | .bf16 | .f16 | .i16 => 16
  | _ => 8

def cvtFF : CvtCode → Option FF
  | .f32 => some .f32
  | .bf16 => some .bf16
  | .f16 => some .f16
  | .e4m3 => some .e4m3
  | .e5m2 => some .e5m2
  | .e2m3 => some .e2m3
  | .e3m2 => some .e3m2
  | .e2m1 => some .e2m1
  | _ => none

/-- The range of an integer target. -/
def cvtRange : CvtCode → Int × Int
  | .i32 => (-2147483648, 2147483647)
  | .n32 => (0, 4294967295)
  | .i16 => (-32768, 32767)
  | .i8 => (-128, 127)
  | .n8 => (0, 255)
  | _ => (-8, 7)

/-- Whether a target is the source type itself. -/
def cvtSame (c : CvtCode) (t : VTy) : Bool :=
  match c, t with
  | .f32, .f32 | .bf16, .bf16 | .f16, .f16 | .i32, .i32 | .n32, .n32 | .i16, .i16 | .i8, .i8 | .n8, .n8 => true
  | _, _ => false

/-- The code of an integer target: i4 keeps four bits. -/
def cvtWrap (c : CvtCode) (v : Int) : Nat := wrapElem (if c = .i4 then 4 else cvtBits c) v

/-- The conversion of one element (R69, R74). -/
def cvtElem (c : CvtCode) (t : VTy) (mode : RMode) (a : Nat) : Nat × Flags :=
  if cvtSame c t then (a, fNone)
  else
    match t.ff, cvtFF c with
    | some f, some g => convF f g mode a
    | some f, none =>
      if c = .ds8 then convDs8 f mode a
      else
        let r := convInt f mode (cvtRange c).1 (cvtRange c).2 a
        (cvtWrap c r.1, r.2)
    | none, some g => g.round mode (Dy.ofInt (VTy.int t a))
    | none, none =>
      if c = .ds8 then ds8Round mode (Dy.ofInt (VTy.int t a))
      else
        let r := roundInt mode (cvtRange c).1 (cvtRange c).2 (Dy.ofInt (VTy.int t a))
        (cvtWrap c r.1, r.2)

/-- The target elements of VCVT: converted ones, then zero codes. -/
def cvtElems (c : CvtCode) (t : VTy) (mode : RMode) (v : VWord) : List (Nat × Flags) :=
  let nt := 4096 / cvtBits c
  let k := min t.count nt
  (elems v t.bits k).map (cvtElem c t mode) ++ List.replicate (nt - k) (if c = .ds8 then 0x77 else 0, fNone)

/-- VCVT (R198); S = 1 is a fallback (R62). -/
def execVcvt (vd va : VReg) (tc : CvtCode) (sb : Bool) (m : VMod) (s : State) : Host.Outcome State Fault Refusal :=
  .next (vecOut { Uses.none with vr := [va] } vd m.msk (cvtBits tc)
    (fun s => cvtElems tc m.ty s.fmode (s.vecVal va)) (wIf sb) 4 s)

/-! VRED and VSCAN (R81, R199). -/

/-- One level of the pairwise tree. -/
def pairUp (f : Nat → Nat → Nat × Flags) : List Nat → List (Nat × Flags)
  | a :: b :: r => f a b :: pairUp f r
  | [a] => [(a, fNone)]
  | [] => []

/-- The pairwise tree over a list whose length is at most 2^k, with the flags of its operations. -/
def treeOf (f : Nat → Nat → Nat × Flags) : Nat → List Nat → Flags → Nat × Flags
  | 0, xs, fl => (xs.headD 0, fl)
  | k + 1, xs, fl =>
    let ys := pairUp f xs
    treeOf f k (ys.map (·.1)) (ys.foldl (fun acc y => acc ||| y.2) fl)

/-- A reduction: what an inactive element enters as, and the operation. -/
structure RedOp where
  unit : VTy → Nat
  op : Elem2

/-- The extension of an element into a scalar register (R199, R200). -/
def extElem (t : VTy) (x : Nat) : W64 := if t.signed then (BitVec.ofNat t.bits x).signExtend 64 else BitVec.ofNat 64 x

/-- VRED (R199). -/
def vRed (r : RedOp) (rd : SReg) (va : VReg) (sb : Bool) (m : VMod) (s : State) : State :=
  scalarOp { Uses.none with vr := [va], mr := [m.msk] } rd
    (fun s =>
      let t := m.ty
      let mk := s.maskVal m.msk
      let xs := (elems (s.vecVal va) t.bits t.count).zipIdx.map fun x =>
        if activeElem mk t.bits x.2 then x.1 else r.unit t
      let y := treeOf (r.op t s.fmode) 9 xs fNone
      (extElem t y.1, y.2 ||| wIf sb)) 8 s

def redSum : RedOp := { unit := fun _ => 0, op := arith fAdd iAdd iAdd }

def redMin : RedOp :=
  { unit := fun t => match t.ff with
      | some f => f.infCode false
      | none => wrapElem t.bits (VTy.hi t)
    op := arith (fun f _ => fMinMax f false) iMin iMinn }

def redMax : RedOp :=
  { unit := fun t => match t.ff with
      | some f => f.infCode true
      | none => wrapElem t.bits (VTy.lo t)
    op := arith (fun f _ => fMinMax f true) iMax iMaxn }

def redAnd : RedOp := { unit := fun t => 2 ^ t.bits - 1, op := bitwise iAnd }

def redOr : RedOp := { unit := fun _ => 0, op := bitwise iOr }

def redXor : RedOp := { unit := fun _ => 0, op := bitwise iXor }

/-- VRED sum (R199). -/
def execVredSum (rd : SReg) (va : VReg) (sb : Bool) (m : VMod) (s : State) : Host.Outcome State Fault Refusal :=
  .next (vRed redSum rd va sb m s)

/-- VRED min (R199). -/
def execVredMin (rd : SReg) (va : VReg) (sb : Bool) (m : VMod) (s : State) : Host.Outcome State Fault Refusal :=
  .next (vRed redMin rd va sb m s)

/-- VRED max (R199). -/
def execVredMax (rd : SReg) (va : VReg) (sb : Bool) (m : VMod) (s : State) : Host.Outcome State Fault Refusal :=
  .next (vRed redMax rd va sb m s)

/-- VRED and (R199). -/
def execVredAnd (rd : SReg) (va : VReg) (sb : Bool) (m : VMod) (s : State) : Host.Outcome State Fault Refusal :=
  .next (vRed redAnd rd va sb m s)

/-- VRED or (R199). -/
def execVredOr (rd : SReg) (va : VReg) (sb : Bool) (m : VMod) (s : State) : Host.Outcome State Fault Refusal :=
  .next (vRed redOr rd va sb m s)

/-- VRED xor (R199). -/
def execVredXor (rd : SReg) (va : VReg) (sb : Bool) (m : VMod) (s : State) : Host.Outcome State Fault Refusal :=
  .next (vRed redXor rd va sb m s)

/-- The prefixes of the active elements in ascending order: the first is unchanged (R81). -/
def scanGo (f : Nat → Nat → Nat × Flags) : List (Nat × Bool) → Option Nat → List (Nat × Flags)
  | [], _ => []
  | (x, false) :: r, p => (x, fNone) :: scanGo f r p
  | (x, true) :: r, none => (x, fNone) :: scanGo f r (some x)
  | (x, true) :: r, some p => f p x :: scanGo f r (some (f p x).1)

/-- VSCAN (R199). -/
def vScan (op : Elem2) (vd va : VReg) (sb : Bool) (m : VMod) (s : State) : State :=
  let t := m.ty
  vecOut { Uses.none with vr := [va] } vd m.msk t.bits
    (fun s => scanGo (op t s.fmode) ((elems (s.vecVal va) t.bits t.count).zipIdx.map fun x =>
      (x.1, activeElem (s.maskVal m.msk) t.bits x.2)) none) (wIf sb) 12 s

/-- VSCAN sum (R199). -/
def execVscanSum (vd va : VReg) (sb : Bool) (m : VMod) (s : State) : Host.Outcome State Fault Refusal :=
  .next (vScan redSum.op vd va sb m s)

/-- VSCAN max (R199). -/
def execVscanMax (vd va : VReg) (sb : Bool) (m : VMod) (s : State) : Host.Outcome State Fault Refusal :=
  .next (vScan redMax.op vd va sb m s)

/-! Moving elements (R200). -/

/-- The element of a table that an index names: modulo N, and within its half for 8-bit types. -/
def permElem (xs : List Nat) (n j x : Nat) : Nat :=
  if n = 512 then xs.getD (256 * (j / 256) + x % 256) 0 else xs.getD (x % n) 0

/-- VPERM (R200). -/
def execVperm (vd va : VReg) (b : VSrc) (m : VMod) (s : State) : Host.Outcome State Fault Refusal :=
  .next (vecOut { Uses.none with vr := va :: b.vregs, sr := b.sregs } vd m.msk m.ty.bits
    (fun s =>
      let xs := elems (s.vecVal va) m.ty.bits m.ty.count
      (s.vsrc b m.ty.bits m.ty.count).zipIdx.map fun x => (permElem xs m.ty.count x.2 x.1, fNone)) fNone 6 s)

/-- VBCST (R200). -/
def execVbcst (vd : VReg) (rs : SReg) (m : VMod) (s : State) : Host.Outcome State Fault Refusal :=
  .next (vecOut { Uses.none with sr := [rs] } vd m.msk m.ty.bits
    (fun s => List.replicate m.ty.count ((s.regVal rs).toNat % 2 ^ m.ty.bits, fNone)) fNone 1 s)

/-- VIOTA (R200). -/
def execViota (vd : VReg) (m : VMod) (s : State) : Host.Outcome State Fault Refusal :=
  .next (vecOut Uses.none vd m.msk m.ty.bits
    (fun _ => (List.range m.ty.count).map fun (j : Nat) => (match m.ty.ff with
      | some f => (f.round .rne (Dy.ofInt (j : Nat))).1
      | none => j % 2 ^ m.ty.bits, fNone)) fNone 1 s)

/-- VEXT (R200). -/
def execVext (rd : SReg) (va : VReg) (rl : SReg) (ty : VTy) (s : State) : Host.Outcome State Fault Refusal :=
  .next (scalarOp { Uses.none with vr := [va], sr := [rl] } rd
    (fun s => (extElem ty (elemAt (s.vecVal va) ty.bits ((s.regVal rl).toNat % ty.count)), fNone)) 2 s)

/-- VINS (R200): it waits for its destination and changes one element. -/
def execVins (vd : VReg) (rs rl : SReg) (ty : VTy) (s : State) : Host.Outcome State Fault Refusal :=
  .next (run (do
    gate .a { Uses.none with sr := [rs, rl], vr := [vd], vw := [vd], pw := [(.v vd, 2)] } s
    let o := ty.bits * ((s.regVal rl).toNat % ty.count)
    let s1 ← produce s (.v vd) (BitVec.ofNat 4096 ((s.regVal rs).toNat % 2 ^ ty.bits) <<< o)
      (BitVec.ofNat 4096 (2 ^ ty.bits - 1) <<< o) 2
    return { s1 with cur := { s1.cur with res := .committed } }))

/-! MALU and MPOP (R201). -/

/-- A mask instruction that reads the masks ms. -/
def maluOp (ms : List MReg) (md : MReg) (v : State → MWord) (s : State) : State :=
  run (do
    gate .a { Uses.none with mr := ms, mw := [md], pw := maskDest md 1 } s
    let s1 ← produceM s md (v s) (BitVec.allOnes 128) 1
    return { s1 with cur := { s1.cur with res := .committed } })

/-- MALU and (R201). -/
def execMaluAnd (md ma mb : MReg) (s : State) : Host.Outcome State Fault Refusal :=
  .next (maluOp [ma, mb] md (fun s => s.maskVal ma &&& s.maskVal mb) s)

/-- MALU or (R201). -/
def execMaluOr (md ma mb : MReg) (s : State) : Host.Outcome State Fault Refusal :=
  .next (maluOp [ma, mb] md (fun s => s.maskVal ma ||| s.maskVal mb) s)

/-- MALU xor (R201). -/
def execMaluXor (md ma mb : MReg) (s : State) : Host.Outcome State Fault Refusal :=
  .next (maluOp [ma, mb] md (fun s => s.maskVal ma ^^^ s.maskVal mb) s)

/-- MALU andn (R201). -/
def execMaluAndn (md ma mb : MReg) (s : State) : Host.Outcome State Fault Refusal :=
  .next (maluOp [ma, mb] md (fun s => s.maskVal ma &&& ~~~s.maskVal mb) s)

/-- MALU not (R201). -/
def execMaluNot (md ma : MReg) (s : State) : Host.Outcome State Fault Refusal :=
  .next (maluOp [ma] md (fun s => ~~~s.maskVal ma) s)

/-- MALU set (R201). -/
def execMaluSet (md : MReg) (s : State) : Host.Outcome State Fault Refusal :=
  .next (maluOp [] md (fun _ => BitVec.allOnes 128) s)

/-- MALU clr (R201). -/
def execMaluClr (md : MReg) (s : State) : Host.Outcome State Fault Refusal :=
  .next (maluOp [] md (fun _ => 0#128) s)

/-- MPOP count (R201). -/
def execMpopCount (rd : SReg) (ma : MReg) (s : State) : Host.Outcome State Fault Refusal :=
  .next (scalarOp { Uses.none with mr := [ma] } rd (fun s => (BitVec.ofNat 64 (popLow (s.maskVal ma) 128), fNone)) 1 s)

/-- MPOP first (R201): the lowest one bit, or 128. -/
def execMpopFirst (rd : SReg) (ma : MReg) (s : State) : Host.Outcome State Fault Refusal :=
  .next (scalarOp { Uses.none with mr := [ma] } rd (fun s => (BitVec.ofNat 64 (ctzFrom (s.maskVal ma) 128 0), fNone)) 1 s)

/-! Reduced service (R371). -/

/-- The element type of a vector instruction that has one. -/
def vtyOf : Instr → Option VTy
  | .vadd _ _ _ m => some m.ty
  | .vsub _ _ _ m => some m.ty
  | .vmul _ _ _ m => some m.ty
  | .vdiv _ _ _ m => some m.ty
  | .vmin _ _ _ m => some m.ty
  | .vmax _ _ _ m => some m.ty
  | .vand _ _ _ m => some m.ty
  | .vor _ _ _ m => some m.ty
  | .vxor _ _ _ m => some m.ty
  | .vshl _ _ _ m => some m.ty
  | .vshr _ _ _ m => some m.ty
  | .vsar _ _ _ m => some m.ty
  | .vadds _ _ _ m => some m.ty
  | .vsubs _ _ _ m => some m.ty
  | .vabsd _ _ _ m => some m.ty
  | .vfma _ _ _ _ m => some m.ty
  | .vfnma _ _ _ _ m => some m.ty
  | .vdot4 _ _ _ _ m => some m.ty
  | .vabs _ _ _ m => some m.ty
  | .vneg _ _ _ m => some m.ty
  | .vsqrt _ _ _ m => some m.ty
  | .vrcp _ _ _ m => some m.ty
  | .vrsq _ _ _ m => some m.ty
  | .vex2 _ _ _ m => some m.ty
  | .vlg2 _ _ _ m => some m.ty
  | .vmov _ _ _ m => some m.ty
  | .vnot _ _ _ m => some m.ty
  | .vclz _ _ _ m => some m.ty
  | .vpopc _ _ _ m => some m.ty
  | .vrelu _ _ _ m => some m.ty
  | .vcmpEq _ _ _ m => some m.ty
  | .vcmpNe _ _ _ m => some m.ty
  | .vcmpLt _ _ _ m => some m.ty
  | .vcmpLe _ _ _ m => some m.ty
  | .vcmpGt _ _ _ m => some m.ty
  | .vcmpGe _ _ _ m => some m.ty
  | .vcmpUn _ _ _ m => some m.ty
  | .vcmpOrd _ _ _ m => some m.ty
  | .vsel _ _ _ _ m => some m.ty
  | .vcvt _ _ _ _ m => some m.ty
  | .vredSum _ _ _ m => some m.ty
  | .vredMin _ _ _ m => some m.ty
  | .vredMax _ _ _ m => some m.ty
  | .vredAnd _ _ _ m => some m.ty
  | .vredOr _ _ _ m => some m.ty
  | .vredXor _ _ _ m => some m.ty
  | .vscanSum _ _ _ m => some m.ty
  | .vscanMax _ _ _ m => some m.ty
  | .vperm _ _ _ m => some m.ty
  | .vbcst _ _ m => some m.ty
  | .viota _ m => some m.ty
  | .vext _ _ _ ty => some ty
  | .vins _ _ _ ty => some ty
  | _ => none

/-- In reduced service a vector instruction has elements of type f32 or bf16 only. -/
def reducedA (i : Instr) : Bool :=
  match vtyOf i with
  | some t => t != .f32 && t != .bf16
  | none => false

end Sys2Proof.Machine
end

