-- ==== Sys2Proof/Machine/VecMem.lean ====
section
/-! DEFINITION. The vector memory instructions (R202 to R210, R356). -/

namespace Sys2Proof.Machine

/-- A unit before its translation: its address, bytes, alignment, and the register and bit it fills or drains from. -/
structure Piece where
  va : W64
  n : Nat
  align : Nat
  reg : BitVec 4
  lo : Nat

/-- Translates the pieces in order, with every check of R203: the units, the cycles that translation adds, the state. -/
def vecAccess (nd : Need) : List Piece → State → Except State (List VUnit × Nat × State)
  | [], s => .ok ([], 0, s)
  | p :: ps, s => do
    let (x, s1) ← access s p.va p.n p.align nd true
    if s1.inFifo x.pa then raise s 6 (memCause 0 nd.acc) x.va
    else
      let lvl := s1.myLevel x.va
      if nd.w then roCheck s1 x.va 1
      let (us, e, s2) ← vecAccess nd ps s1
      return ({ va := x.va, pa := x.pa, n := p.n, reg := p.reg, lo := p.lo, own := x.own, l1 := s1.usesL1 x lvl,
                cache := wCache x.w1 } :: us, max x.extra e, s2)

/-- Bits [31:0] of lane i. -/
def laneOf (v : VWord) (i : Nat) : Nat := elemAt v 32 i

/-- The lanes whose mask bit is 1. -/
def State.activeLanes (s : State) (msk : MReg) : List Nat :=
  (List.range 128).filter fun i => (s.maskVal msk).getLsbD i

/-- A vector request of the issuing thread, its slots taken when they are free (R356). -/
def sendVec (s : State) (us : List VUnit) (kind : ReqKind) (dst : RDest) (acc lat : Nat) : State :=
  let (tok, s1) := s.fresh
  let u0 := us.headD { va := 0, pa := 0, n := 0, reg := 0#4, lo := 0, own := true, l1 := false, cache := 0 }
  let r := s1.newReq tok kind { va := u0.va, pa := u0.pa, w1 := 0#64, own := u0.own, extra := lat } 4 acc
  (s1.addReq { r with
    lvl := s1.inRev s1.me, dst := dst, cache := u0.cache, homes := (us.map fun u => s1.homeOf u.pa).eraseDups, lanes := us }).urgent
    (.homeRequest tok)

/-- A vector load of pieces into count registers from vd on. -/
def vecLoad (h : Hdr) (vd : VReg) (count : Nat) (ps : List Piece) (form : VForm) (msk : MReg) (lat : Nat) (s : State) :
    Except State State := do
  let (us, e, s1) ← vecAccess needLoad ps s
  let s2 : State := commitNext s1 h .drops (loneW h)
  let s3 : State := (List.range count).foldl (fun s k => s.awaitV (vd + BitVec.ofNat 4 k)) s2
  return sendVec s3 us (.vload us form (s.maskVal msk)) (.v vd count) 0 (lat + e)

/-- A posted vector store of pieces, each with its value. -/
def vecStore (h : Hdr) (ps : List (Piece × Nat)) (s : State) : Except State State := do
  let (us, e, s1) ← vecAccess needStore (ps.map (·.1)) s
  let s2 : State := us.foldl (fun s u =>
    if u.own then s else s.markSide (s.partNum s.cur.cid) (s.inRev s.me) (s.myLevel u.va)) (commitNext s1 h .drops (loneW h))
  return sendVec s2 us (.vstore (us.zip (ps.map (·.2)))) .none 1 e

/-- ra, and a stride, that are no multiples of 4: ALIGN, with the lowest active lane that is misaligned; where no active lane is,
ra is recorded; it comes ahead of what a lower, aligned lane's translation would raise (R203, R207; DESIGN CHOICE, log entry 57). -/
def wordAligned (s : State) (ps : List Piece) (base stride : W64) (acc : Nat) : Except State Unit :=
  if base.toNat % 4 = 0 && stride.toNat % 4 = 0 then .ok ()
  else
    match ps.find? fun p => decide (2 ^ 57 ≤ p.va.toNat) || p.va.toNat % 4 != 0 with
    | some p => if 2 ^ 57 ≤ p.va.toNat then raise s 6 (memCause 0 acc) p.va.toNat else raise s 6 (memCause 2 acc) p.va.toNat
    | none => raise s 6 (memCause 2 acc) base.toNat

/-- The pieces of the active lanes of one register, lane i at base + i·stride. -/
def lanePieces (lanes : List Nat) (vd : VReg) (base stride : W64) : List Piece :=
  lanes.map fun i => { va := base + BitVec.ofNat 64 i * stride, n := 4, align := 4, reg := vd, lo := 32 * i }

/-- The pieces of the eight registers of a 32 × 32 block, lane by lane (R203, R207). -/
def blockPieces (lanes : List Nat) (vd : VReg) (base : W64) : List Piece :=
  lanes.flatMap fun i => (List.range 8).map fun j =>
    { va := base + BitVec.ofNat 64 (128 * (i % 32) + 4 * (4 * j + i / 32)), n := 4, align := 4,
      reg := vd + BitVec.ofNat 4 j, lo := 32 * i }

/-- The eight registers of VLDT and VSTT. -/
def eight (vd : VReg) : List VReg := (List.range 8).map fun k => vd + BitVec.ofNat 4 k

/-- vd + 7 must lie in the window (R207). -/
def eightFit (s : State) (vd : VReg) : Except State Unit :=
  if s.me.vn ≤ vd.toNat + 7 then raise s 2 0x04 0 else .ok ()

/-- A contiguous access whose base is a window of a FIFO bank: its translation (R206). -/
def fifoWindow (s : State) (va : W64) (msk : MReg) (acc : Nat) : Option Xl :=
  if msk != 0#2 then none
  else
    match s.xlate s.cur.cid va.toNat 4 4 (if acc = 0 then needLoad else needStore) (!s.me.sys) (s.cur.slot == 16) false with
    | .ok x _ =>
      if s.inFifo x.pa && x.pa % 0x8000 == (if acc = 0 then 0x40 else 0) then some x else none
    | _ => none

/-- VLD contiguous (R207), or a pop of 512 bytes (R206). -/
def execVld (h : Hdr) (vd : VReg) (ra : SReg) (msk : MReg) (s : State) : Host.Outcome State Fault Refusal :=
  .next (run (do
    gateC { Uses.none with sr := [ra], vw := [vd], mr := [msk] } s
    match s.doneVal with
    | some _ => return commitNext s h .drops (loneW h)
    | none =>
      memGate s
      let a := s.regVal ra
      match fifoWindow s a msk 0 with
      | some x =>
        let (tok, s1) := s.fresh
        sendHold s1 { s1.newReq tok .pop x 512 0 with dst := .v vd 1, homes := [s1.homeOf x.pa], lat := x.extra + 3 }
      | none =>
        let ps := lanePieces (s.activeLanes msk) vd a 4#64
        wordAligned s ps a 0#64 0
        vecLoad h vd 1 ps .plain msk 3 s))

/-- VLD strided (R207). -/
def execVldStr (h : Hdr) (vd : VReg) (ra rb : SReg) (msk : MReg) (s : State) : Host.Outcome State Fault Refusal :=
  .next (run (do
    gateC { Uses.none with sr := [ra, rb], vw := [vd], mr := [msk] } s
    memGate s
    let ls := s.activeLanes msk
    let ps := lanePieces ls vd (s.regVal ra) (s.regVal rb)
    wordAligned s ps (s.regVal ra) (s.regVal rb) 0
    vecLoad h vd 1 ps .plain msk ((ls.length + 15) / 16) s))

/-- VLDT (R207). -/
def execVldt (h : Hdr) (vd : VReg) (ra : SReg) (msk : MReg) (s : State) : Host.Outcome State Fault Refusal :=
  .next (run (do
    eightFit s vd
    gateC { Uses.none with sr := [ra], vw := eight vd, mr := [msk] } s
    memGate s
    let ps := blockPieces (s.activeLanes msk) vd (s.regVal ra)
    wordAligned s ps (s.regVal ra) 0#64 0
    vecLoad h vd 8 ps .plain msk 31 s))

/-- VST contiguous (R207), or a push of 512 bytes (R206). -/
def execVst (h : Hdr) (vd : VReg) (ra : SReg) (msk : MReg) (s : State) : Host.Outcome State Fault Refusal :=
  .next (run (do
    gateC { Uses.none with sr := [ra], vr := [vd], mr := [msk] } s
    match s.doneVal with
    | some _ => return commitNext s h .drops (loneW h)
    | none =>
      memGate s
      let a := s.regVal ra
      match fifoWindow s a msk 1 with
      | some x =>
        let (tok, s1) := s.fresh
        let r := { s1.newReq tok (.push (toLe 512 (s.vecVal vd).toNat)) x 512 1 with homes := [s1.homeOf x.pa] }
        sendHold (if s1.portFree s.cur.cid r.homes then s1.markWrite x none else s1) r
      | none =>
        let ls := s.activeLanes msk
        let ps := lanePieces ls vd a 4#64
        wordAligned s ps a 0#64 1
        vecStore h (ps.zip (ls.map (laneOf (s.vecVal vd)))) s))

/-- VST strided (R207). -/
def execVstStr (h : Hdr) (vd : VReg) (ra rb : SReg) (msk : MReg) (s : State) : Host.Outcome State Fault Refusal :=
  .next (run (do
    gateC { Uses.none with sr := [ra, rb], vr := [vd], mr := [msk] } s
    memGate s
    let ls := s.activeLanes msk
    let ps := lanePieces ls vd (s.regVal ra) (s.regVal rb)
    wordAligned s ps (s.regVal ra) (s.regVal rb) 1
    vecStore h (ps.zip (ls.map (laneOf (s.vecVal vd)))) s))

/-- VSTT (R207). -/
def execVstt (h : Hdr) (vd : VReg) (ra : SReg) (msk : MReg) (s : State) : Host.Outcome State Fault Refusal :=
  .next (run (do
    eightFit s vd
    gateC { Uses.none with sr := [ra], vr := eight vd, mr := [msk] } s
    memGate s
    let ls := s.activeLanes msk
    let ps := blockPieces ls vd (s.regVal ra)
    wordAligned s ps (s.regVal ra) 0#64 1
    vecStore h (ps.zip (ps.map fun p => laneOf (s.vecVal p.reg) (p.lo / 32))) s))

/-- Bytes of an element of VGTH and VSCT. -/
def gBytes : GSize → Nat
  | .byte => 1
  | .half => 2
  | .word => 4

/-- The pieces of a gather or scatter: lane i at base plus the signed index in lane i (R208). -/
def indexPieces (lanes : List Nat) (vd : VReg) (base : W64) (vi : VWord) (n : Nat) : List Piece :=
  lanes.map fun i =>
    { va := base + (BitVec.ofNat 32 (laneOf vi i)).signExtend 64, n := n, align := n, reg := vd, lo := 32 * i }

/-- VGTH (R208). -/
def execVgth (h : Hdr) (vd : VReg) (ra : SReg) (vi : VReg) (msk : MReg) (sz : GSize) (s : State) :
    Host.Outcome State Fault Refusal :=
  .next (run (do
    gateC { Uses.none with sr := [ra], vr := [vi], vw := [vd], mr := [msk] } s
    memGate s
    let ls := s.activeLanes msk
    vecLoad h vd 1 (indexPieces ls vd (s.regVal ra) (s.vecVal vi) (gBytes sz)) .plain msk ((ls.length + 15) / 16) s))

/-- VSCT (R208): lanes in ascending order. -/
def execVsct (h : Hdr) (vd : VReg) (ra : SReg) (vi : VReg) (msk : MReg) (sz : GSize) (s : State) :
    Host.Outcome State Fault Refusal :=
  .next (run (do
    gateC { Uses.none with sr := [ra], vr := [vd, vi], mr := [msk] } s
    memGate s
    let ls := s.activeLanes msk
    vecStore h ((indexPieces ls vd (s.regVal ra) (s.vecVal vi) (gBytes sz)).zip (ls.map (laneOf (s.vecVal vd)))) s))

/-! VLDX (R209). -/

/-- The blocks of a row from an address on that hold its first n elements, each with its bytes, read once and so of one version
(R204), and its page's CHK: a block's header tells its length.  Answers the cycles that translation adds as well (R310). -/
def rowBlocks : Nat → Nat → Nat → State → Except State (List (Piece × List Byte × Bool) × Nat × State)
  | 0, _, _, s => .ok ([], 0, s)
  | fuel + 1, va, n, s =>
    if n = 0 then .ok ([], 0, s)
    else do
      let (x, s1) ← access s (BitVec.ofNat 64 va) 64 64 needLoad true
      if s1.inFifo x.pa then raise s 6 (memCause 0 0) va
      else
        let bs := (s1.readAt s.cur.cid x (s1.myLevel va) 64).1
        let (ps, e, s2) ← rowBlocks fuel (va + 64) (n - fmtCount (blkFmt bs)) s1
        return (({ va := BitVec.ofNat 64 va, n := 64, align := 64, reg := 0#4, lo := 0 }, bs, wChk x.w1) :: ps, max x.extra e, s2)

/-- An access of the issuing thread is still to be performed. -/
def State.myAccessesOut (s : State) : Bool := s.reqs.any fun r => r.who == s.meWho && (r.st == .sent || r.st == .waiting)

/-- VLDX (R209). -/
def execVldx (h : Hdr) (vd : VReg) (ra rb : SReg) (msk : MReg) (ty : VTy) (s : State) :
    Host.Outcome State Fault Refusal :=
  .next (run (do
    gateC { Uses.none with sr := [ra, rb], vw := [vd], mr := [msk] } s
    memGate s
    let a := (s.regVal ra).toNat
    let k := (s.regVal rb).toNat
    if 2 ^ 57 ≤ a then raise s 6 0x20 a
    else if a % 64 != 0 || decide (2 ^ 20 ≤ k) then raise s 6 0x28 a
    -- the blocks that the walk reads are read behind the thread's earlier accesses, stores and loads (R265)
    else if s.myAccessesOut then notReady s
    else
      let (bs, e, s1) ← rowBlocks (k + ty.count) a (k + ty.count) s
      vecLoad h vd 1 (bs.map (·.1)) (.tagged ty s.fmode k (bs.map (·.2))) msk (bs.length + 3 + e) s1))

/-! VLDM (R210). -/

/-- The pieces of n elements from MX blocks of 32 at ra with scales from rb on, block by block, each block's bytes before its scale.  A
fault is that of the first piece that has one, and records that piece's own address (DESIGN CHOICE, log entry 70). -/
def mxPieces (vd : VReg) (ra rb : W64) (el : MxElem) (n : Nat) : List Piece :=
  let k := 4 * MxElem.bits el
  (List.range (n / 32)).flatMap fun b =>
    ((List.range (k / 8)).map fun i =>
      { va := ra + BitVec.ofNat 64 (k * b + 8 * i), n := 8, align := 8, reg := vd, lo := 0 }) ++
    [{ va := rb + BitVec.ofNat 64 b, n := 1, align := 1, reg := vd, lo := 1 }]

/-- VLDM (R210). -/
def execVldm (h : Hdr) (vd : VReg) (ra rb : SReg) (msk : MReg) (dest : MxDest) (el : MxElem) (s : State) :
    Host.Outcome State Fault Refusal :=
  .next (run (do
    gateC { Uses.none with sr := [ra, rb], vw := [vd], mr := [msk] } s
    memGate s
    vecLoad h vd 1 (mxPieces vd (s.regVal ra) (s.regVal rb) el (4096 / (MxDest.ff dest).width)) (.mx dest el) msk 4 s))

end Sys2Proof.Machine
end

