-- ==== Sys2Proof/Machine/Dispatch.lean ====
section
/-! DEFINITION. The dispatch: one arm per constructor of Instr, each a call of that instruction's meaning. -/

namespace Sys2Proof.Machine

/-- The meaning of each instruction of the opcode table.  The arms of EVENT rows act on what s.evt names. -/
def exec (i : Instr) (s : State) : Host.Outcome State Fault Refusal :=
  match i with
  | .cnop h => Sys2Proof.Machine.execCnop h s
  | .li h rd imm => Sys2Proof.Machine.execLi h rd imm s
  | .lih h rd ra imm => Sys2Proof.Machine.execLih h rd ra imm s
  | .addi h rd ra imm => Sys2Proof.Machine.execAddi h rd ra imm s
  | .br h off => Sys2Proof.Machine.execBr h off s
  | .bcEqz h ra off => Sys2Proof.Machine.execBcEqz h ra off s
  | .bcNez h ra off => Sys2Proof.Machine.execBcNez h ra off s
  | .bcLtz h ra off => Sys2Proof.Machine.execBcLtz h ra off s
  | .bcGez h ra off => Sys2Proof.Machine.execBcGez h ra off s
  | .bcGtz h ra off => Sys2Proof.Machine.execBcGtz h ra off s
  | .bcLez h ra off => Sys2Proof.Machine.execBcLez h ra off s
  | .bcFull h ra off => Sys2Proof.Machine.execBcFull h ra off s
  | .bcEmpty h ra off => Sys2Proof.Machine.execBcEmpty h ra off s
  | .call h off => Sys2Proof.Machine.execCall h off s
  | .callx h ra => Sys2Proof.Machine.execCallx h ra s
  | .ret h => Sys2Proof.Machine.execRet h s
  | .brx h ra => Sys2Proof.Machine.execBrx h ra s
  | .create h rd ra rb => Sys2Proof.Machine.execCreate h rd ra rb s
  | .createRev h rd ra rb => Sys2Proof.Machine.execCreateRev h rd ra rb s
  | .createDet h rd ra rb rev => Sys2Proof.Machine.execCreateDet h rd ra rb rev s
  | .sync h rd ra => Sys2Proof.Machine.execSync h rd ra s
  | .breakFam h ra => Sys2Proof.Machine.execBreakFam h ra s
  | .endThread h => Sys2Proof.Machine.execEndThread h s
  | .kill h ra => Sys2Proof.Machine.execKill h ra s
  | .fstatStatus h rd ra => Sys2Proof.Machine.execFstatStatus h rd ra s
  | .fstatBval h rd ra => Sys2Proof.Machine.execFstatBval h rd ra s
  | .fstatBidx h rd ra => Sys2Proof.Machine.execFstatBidx h rd ra s
  | .fstatReplay h rd ra => Sys2Proof.Machine.execFstatReplay h rd ra s
  | .yieldSlice h ra => Sys2Proof.Machine.execYieldSlice h ra s
  | .travel h ra => Sys2Proof.Machine.execTravel h ra s
  | .bar h sc id => Sys2Proof.Machine.execBar h sc id s
  | .barcfg h ra sc id => Sys2Proof.Machine.execBarcfg h ra sc id s
  | .ld h rd ra m => Sys2Proof.Machine.execLd h rd ra m s
  | .lds h rd ra m => Sys2Proof.Machine.execLds h rd ra m s
  | .st h rd ra m => Sys2Proof.Machine.execSt h rd ra m s
  | .ldf h rd ra m => Sys2Proof.Machine.execLdf h rd ra m s
  | .ldfe h rd ra m => Sys2Proof.Machine.execLdfe h rd ra m s
  | .stef h rd ra m => Sys2Proof.Machine.execStef h rd ra m s
  | .stf h rd ra m => Sys2Proof.Machine.execStf h rd ra m s
  | .feclr h ra => Sys2Proof.Machine.execFeclr h ra s
  | .feget h rd ra => Sys2Proof.Machine.execFeget h rd ra s
  | .feset h ra => Sys2Proof.Machine.execFeset h ra s
  | .amoAdd h rd ra rb w od => Sys2Proof.Machine.execAmoAdd h rd ra rb w od s
  | .amoAnd h rd ra rb w od => Sys2Proof.Machine.execAmoAnd h rd ra rb w od s
  | .amoOr h rd ra rb w od => Sys2Proof.Machine.execAmoOr h rd ra rb w od s
  | .amoXor h rd ra rb w od => Sys2Proof.Machine.execAmoXor h rd ra rb w od s
  | .amoSmin h rd ra rb w od => Sys2Proof.Machine.execAmoSmin h rd ra rb w od s
  | .amoSmax h rd ra rb w od => Sys2Proof.Machine.execAmoSmax h rd ra rb w od s
  | .amoNmin h rd ra rb w od => Sys2Proof.Machine.execAmoNmin h rd ra rb w od s
  | .amoNmax h rd ra rb w od => Sys2Proof.Machine.execAmoNmax h rd ra rb w od s
  | .amoSwap h rd ra rb w od => Sys2Proof.Machine.execAmoSwap h rd ra rb w od s
  | .amoFadd h rd ra rb w od => Sys2Proof.Machine.execAmoFadd h rd ra rb w od s
  | .cas h rd ra rb w od => Sys2Proof.Machine.execCas h rd ra rb w od s
  | .fence h lb sc od => Sys2Proof.Machine.execFence h lb sc od s
  | .cmoClean h ra rb l2 => Sys2Proof.Machine.execCmoClean h ra rb l2 s
  | .cmoInval h ra rb l2 => Sys2Proof.Machine.execCmoInval h ra rb l2 s
  | .cmoFlush h ra rb l2 => Sys2Proof.Machine.execCmoFlush h ra rb l2 s
  | .movb h rd ra rb => Sys2Proof.Machine.execMovb h rd ra rb s
  | .setb h rd ra rb => Sys2Proof.Machine.execSetb h rd ra rb s
  | .bcfg h ra rb => Sys2Proof.Machine.execBcfg h ra rb s
  | .trap h imm => Sys2Proof.Machine.execTrap h imm s
  | .vld h vd ra msk => Sys2Proof.Machine.execVld h vd ra msk s
  | .vldStr h vd ra rb msk => Sys2Proof.Machine.execVldStr h vd ra rb msk s
  | .vldt h vd ra msk => Sys2Proof.Machine.execVldt h vd ra msk s
  | .vst h vd ra msk => Sys2Proof.Machine.execVst h vd ra msk s
  | .vstStr h vd ra rb msk => Sys2Proof.Machine.execVstStr h vd ra rb msk s
  | .vstt h vd ra msk => Sys2Proof.Machine.execVstt h vd ra msk s
  | .vgth h vd ra vi msk sz => Sys2Proof.Machine.execVgth h vd ra vi msk sz s
  | .vsct h vd ra vi msk sz => Sys2Proof.Machine.execVsct h vd ra vi msk sz s
  | .vldx h vd ra rb msk ty => Sys2Proof.Machine.execVldx h vd ra rb msk ty s
  | .vldm h vd ra rb msk dest el => Sys2Proof.Machine.execVldm h vd ra rb msk dest el s
  | .tdef h t ra rb => Sys2Proof.Machine.execTdef h t ra rb s
  | .tarm h t ra => Sys2Proof.Machine.execTarm h t ra s
  | .trel h t => Sys2Proof.Machine.execTrel h t s
  | .twait h t => Sys2Proof.Machine.execTwait h t s
  | .tstat h t rb => Sys2Proof.Machine.execTstat h t rb s
  | .cpyG2t h t ra rb => Sys2Proof.Machine.execCpyG2t h t ra rb s
  | .cpyT2g h t ra rb sc => Sys2Proof.Machine.execCpyT2g h t ra rb sc s
  | .cpyMc h t ra rb => Sys2Proof.Machine.execCpyMc h t ra rb s
  | .cpyGx h t ra rb => Sys2Proof.Machine.execCpyGx h t ra rb s
  | .cpyX h t ra rb => Sys2Proof.Machine.execCpyX h t ra rb s
  | .cpyc h t ra => Sys2Proof.Machine.execCpyc h t ra s
  | .mls h t => Sys2Proof.Machine.execMls h t s
  | .mswp h => Sys2Proof.Machine.execMswp h s
  | .mma h t sw c => Sys2Proof.Machine.execMma h t sw c s
  | .mmasp h t sw c => Sys2Proof.Machine.execMmasp h t sw c s
  | .mmag h t ra sw c => Sys2Proof.Machine.execMmag h t ra sw c s
  | .mdrn h t ra sat code c => Sys2Proof.Machine.execMdrn h t ra sat code c s
  | .mzeroInt h c => Sys2Proof.Machine.execMzeroInt h c s
  | .mzeroFp h c => Sys2Proof.Machine.execMzeroFp h c s
  | .mstat h rb c => Sys2Proof.Machine.execMstat h rb c s
  | .mxsw h t => Sys2Proof.Machine.execMxsw h t s
  | .rgnDef h rd ra => Sys2Proof.Machine.execRgnDef h rd ra s
  | .rgnRel h ra => Sys2Proof.Machine.execRgnRel h ra s
  | .csrr h rd csr => Sys2Proof.Machine.execCsrr h rd csr s
  | .csrw h rd ra csr => Sys2Proof.Machine.execCsrw h rd ra csr s
  | .csrs h rd ra csr => Sys2Proof.Machine.execCsrs h rd ra csr s
  | .eret h => Sys2Proof.Machine.execEret h s
  | .halt h => Sys2Proof.Machine.execHalt h s
  | .ici h ra rb => Sys2Proof.Machine.execIci h ra rb s
  | .tlbw h ra rb => Sys2Proof.Machine.execTlbw h ra rb s
  | .tlbi h ra rb => Sys2Proof.Machine.execTlbi h ra rb s
  | .mbox h rd ra => Sys2Proof.Machine.execMbox h rd ra s
  | .mresResume h ra => Sys2Proof.Machine.execMresResume h ra s
  | .mresDiscard h ra => Sys2Proof.Machine.execMresDiscard h ra s
  | .mresMatrixReset h ra => Sys2Proof.Machine.execMresMatrixReset h ra s
  | .ext h => Sys2Proof.Machine.execExt h s
  | .nop => Sys2Proof.Machine.execNop s
  | .add rd ra o => Sys2Proof.Machine.execAdd rd ra o s
  | .sub rd ra o => Sys2Proof.Machine.execSub rd ra o s
  | .and rd ra o => Sys2Proof.Machine.execAnd rd ra o s
  | .or rd ra o => Sys2Proof.Machine.execOr rd ra o s
  | .xor rd ra o => Sys2Proof.Machine.execXor rd ra o s
  | .andn rd ra o => Sys2Proof.Machine.execAndn rd ra o s
  | .shl rd ra o => Sys2Proof.Machine.execShl rd ra o s
  | .shr rd ra o => Sys2Proof.Machine.execShr rd ra o s
  | .sar rd ra o => Sys2Proof.Machine.execSar rd ra o s
  | .rol rd ra o => Sys2Proof.Machine.execRol rd ra o s
  | .min rd ra o => Sys2Proof.Machine.execMin rd ra o s
  | .max rd ra o => Sys2Proof.Machine.execMax rd ra o s
  | .minn rd ra o => Sys2Proof.Machine.execMinn rd ra o s
  | .maxn rd ra o => Sys2Proof.Machine.execMaxn rd ra o s
  | .shadd1 rd ra o => Sys2Proof.Machine.execShadd1 rd ra o s
  | .shadd2 rd ra o => Sys2Proof.Machine.execShadd2 rd ra o s
  | .shadd3 rd ra o => Sys2Proof.Machine.execShadd3 rd ra o s
  | .mov rd o => Sys2Proof.Machine.execMov rd o s
  | .cmpEq rd ra o => Sys2Proof.Machine.execCmpEq rd ra o s
  | .cmpNe rd ra o => Sys2Proof.Machine.execCmpNe rd ra o s
  | .cmpLt rd ra o => Sys2Proof.Machine.execCmpLt rd ra o s
  | .cmpLtn rd ra o => Sys2Proof.Machine.execCmpLtn rd ra o s
  | .cmpLe rd ra o => Sys2Proof.Machine.execCmpLe rd ra o s
  | .cmpLen rd ra o => Sys2Proof.Machine.execCmpLen rd ra o s
  | .cmpGt rd ra o => Sys2Proof.Machine.execCmpGt rd ra o s
  | .cmpGtn rd ra o => Sys2Proof.Machine.execCmpGtn rd ra o s
  | .mul rd ra o => Sys2Proof.Machine.execMul rd ra o s
  | .mulhs rd ra o => Sys2Proof.Machine.execMulhs rd ra o s
  | .mulhn rd ra o => Sys2Proof.Machine.execMulhn rd ra o s
  | .mulhsn rd ra o => Sys2Proof.Machine.execMulhsn rd ra o s
  | .divs rd ra o => Sys2Proof.Machine.execDivs rd ra o s
  | .divn rd ra o => Sys2Proof.Machine.execDivn rd ra o s
  | .rems rd ra o => Sys2Proof.Machine.execRems rd ra o s
  | .remn rd ra o => Sys2Proof.Machine.execRemn rd ra o s
  | .clz rd ra u => Sys2Proof.Machine.execClz rd ra u s
  | .ctz rd ra u => Sys2Proof.Machine.execCtz rd ra u s
  | .popc rd ra u => Sys2Proof.Machine.execPopc rd ra u s
  | .not rd ra u => Sys2Proof.Machine.execNot rd ra u s
  | .neg rd ra u => Sys2Proof.Machine.execNeg rd ra u s
  | .bswap rd ra u => Sys2Proof.Machine.execBswap rd ra u s
  | .sexb rd ra u => Sys2Proof.Machine.execSexb rd ra u s
  | .sexh rd ra u => Sys2Proof.Machine.execSexh rd ra u s
  | .sexw rd ra u => Sys2Proof.Machine.execSexw rd ra u s
  | .zexb rd ra u => Sys2Proof.Machine.execZexb rd ra u s
  | .zexh rd ra u => Sys2Proof.Machine.execZexh rd ra u s
  | .zexw rd ra u => Sys2Proof.Machine.execZexw rd ra u s
  | .bfx rd ra sgn len1 pos => Sys2Proof.Machine.execBfx rd ra sgn len1 pos s
  | .bfi rd ra len1 pos => Sys2Proof.Machine.execBfi rd ra len1 pos s
  | .sel rd ra rb rc => Sys2Proof.Machine.execSel rd ra rb rc s
  | .fadd rd ra rb rm => Sys2Proof.Machine.execFadd rd ra rb rm s
  | .fsub rd ra rb rm => Sys2Proof.Machine.execFsub rd ra rb rm s
  | .fmul rd ra rb rm => Sys2Proof.Machine.execFmul rd ra rb rm s
  | .fdiv rd ra rb rm => Sys2Proof.Machine.execFdiv rd ra rb rm s
  | .fmin rd ra rb rm => Sys2Proof.Machine.execFmin rd ra rb rm s
  | .fmax rd ra rb rm => Sys2Proof.Machine.execFmax rd ra rb rm s
  | .fsqrt rd ra rm => Sys2Proof.Machine.execFsqrt rd ra rm s
  | .fabs rd ra rm => Sys2Proof.Machine.execFabs rd ra rm s
  | .fneg rd ra rm => Sys2Proof.Machine.execFneg rd ra rm s
  | .fcpsgn rd ra rb rm => Sys2Proof.Machine.execFcpsgn rd ra rb rm s
  | .ffma rd ra rb rc rm => Sys2Proof.Machine.execFfma rd ra rb rc rm s
  | .fnma rd ra rb rc rm => Sys2Proof.Machine.execFnma rd ra rb rc rm s
  | .fcmpEq rd ra rb => Sys2Proof.Machine.execFcmpEq rd ra rb s
  | .fcmpLt rd ra rb => Sys2Proof.Machine.execFcmpLt rd ra rb s
  | .fcmpLe rd ra rb => Sys2Proof.Machine.execFcmpLe rd ra rb s
  | .fcmpUn rd ra rb => Sys2Proof.Machine.execFcmpUn rd ra rb s
  | .i2f rd ra w rm => Sys2Proof.Machine.execI2f rd ra w rm s
  | .n2f rd ra w rm => Sys2Proof.Machine.execN2f rd ra w rm s
  | .f2i rd ra w rm => Sys2Proof.Machine.execF2i rd ra w rm s
  | .f2n rd ra w rm => Sys2Proof.Machine.execF2n rd ra w rm s
  | .f2bf rd ra rm => Sys2Proof.Machine.execF2bf rd ra rm s
  | .bf2f rd ra rm => Sys2Proof.Machine.execBf2f rd ra rm s
  | .f2h rd ra rm => Sys2Proof.Machine.execF2h rd ra rm s
  | .h2f rd ra rm => Sys2Proof.Machine.execH2f rd ra rm s
  | .fcls rd ra rm => Sys2Proof.Machine.execFcls rd ra rm s
  | .vadd vd va b m => Sys2Proof.Machine.execVadd vd va b m s
  | .vsub vd va b m => Sys2Proof.Machine.execVsub vd va b m s
  | .vmul vd va b m => Sys2Proof.Machine.execVmul vd va b m s
  | .vdiv vd va b m => Sys2Proof.Machine.execVdiv vd va b m s
  | .vmin vd va b m => Sys2Proof.Machine.execVmin vd va b m s
  | .vmax vd va b m => Sys2Proof.Machine.execVmax vd va b m s
  | .vand vd va b m => Sys2Proof.Machine.execVand vd va b m s
  | .vor vd va b m => Sys2Proof.Machine.execVor vd va b m s
  | .vxor vd va b m => Sys2Proof.Machine.execVxor vd va b m s
  | .vshl vd va b m => Sys2Proof.Machine.execVshl vd va b m s
  | .vshr vd va b m => Sys2Proof.Machine.execVshr vd va b m s
  | .vsar vd va b m => Sys2Proof.Machine.execVsar vd va b m s
  | .vadds vd va b m => Sys2Proof.Machine.execVadds vd va b m s
  | .vsubs vd va b m => Sys2Proof.Machine.execVsubs vd va b m s
  | .vabsd vd va b m => Sys2Proof.Machine.execVabsd vd va b m s
  | .vfma vd va b vc m => Sys2Proof.Machine.execVfma vd va b vc m s
  | .vfnma vd va b vc m => Sys2Proof.Machine.execVfnma vd va b vc m s
  | .vdot4 vd va b vc m => Sys2Proof.Machine.execVdot4 vd va b vc m s
  | .vabs vd va sb m => Sys2Proof.Machine.execVabs vd va sb m s
  | .vneg vd va sb m => Sys2Proof.Machine.execVneg vd va sb m s
  | .vsqrt vd va sb m => Sys2Proof.Machine.execVsqrt vd va sb m s
  | .vrcp vd va sb m => Sys2Proof.Machine.execVrcp vd va sb m s
  | .vrsq vd va sb m => Sys2Proof.Machine.execVrsq vd va sb m s
  | .vex2 vd va sb m => Sys2Proof.Machine.execVex2 vd va sb m s
  | .vlg2 vd va sb m => Sys2Proof.Machine.execVlg2 vd va sb m s
  | .vmov vd va sb m => Sys2Proof.Machine.execVmov vd va sb m s
  | .vnot vd va sb m => Sys2Proof.Machine.execVnot vd va sb m s
  | .vclz vd va sb m => Sys2Proof.Machine.execVclz vd va sb m s
  | .vpopc vd va sb m => Sys2Proof.Machine.execVpopc vd va sb m s
  | .vrelu vd va sb m => Sys2Proof.Machine.execVrelu vd va sb m s
  | .vcmpEq md va b m => Sys2Proof.Machine.execVcmpEq md va b m s
  | .vcmpNe md va b m => Sys2Proof.Machine.execVcmpNe md va b m s
  | .vcmpLt md va b m => Sys2Proof.Machine.execVcmpLt md va b m s
  | .vcmpLe md va b m => Sys2Proof.Machine.execVcmpLe md va b m s
  | .vcmpGt md va b m => Sys2Proof.Machine.execVcmpGt md va b m s
  | .vcmpGe md va b m => Sys2Proof.Machine.execVcmpGe md va b m s
  | .vcmpUn md va b m => Sys2Proof.Machine.execVcmpUn md va b m s
  | .vcmpOrd md va b m => Sys2Proof.Machine.execVcmpOrd md va b m s
  | .vsel vd va b mk m => Sys2Proof.Machine.execVsel vd va b mk m s
  | .vcvt vd va tc sb m => Sys2Proof.Machine.execVcvt vd va tc sb m s
  | .vredSum rd va sb m => Sys2Proof.Machine.execVredSum rd va sb m s
  | .vredMin rd va sb m => Sys2Proof.Machine.execVredMin rd va sb m s
  | .vredMax rd va sb m => Sys2Proof.Machine.execVredMax rd va sb m s
  | .vredAnd rd va sb m => Sys2Proof.Machine.execVredAnd rd va sb m s
  | .vredOr rd va sb m => Sys2Proof.Machine.execVredOr rd va sb m s
  | .vredXor rd va sb m => Sys2Proof.Machine.execVredXor rd va sb m s
  | .vscanSum vd va sb m => Sys2Proof.Machine.execVscanSum vd va sb m s
  | .vscanMax vd va sb m => Sys2Proof.Machine.execVscanMax vd va sb m s
  | .vperm vd va b m => Sys2Proof.Machine.execVperm vd va b m s
  | .vbcst vd rs m => Sys2Proof.Machine.execVbcst vd rs m s
  | .viota vd m => Sys2Proof.Machine.execViota vd m s
  | .vext rd va rl ty => Sys2Proof.Machine.execVext rd va rl ty s
  | .vins vd rs rl ty => Sys2Proof.Machine.execVins vd rs rl ty s
  | .maluAnd md ma mb => Sys2Proof.Machine.execMaluAnd md ma mb s
  | .maluOr md ma mb => Sys2Proof.Machine.execMaluOr md ma mb s
  | .maluXor md ma mb => Sys2Proof.Machine.execMaluXor md ma mb s
  | .maluAndn md ma mb => Sys2Proof.Machine.execMaluAndn md ma mb s
  | .maluNot md ma => Sys2Proof.Machine.execMaluNot md ma s
  | .maluSet md => Sys2Proof.Machine.execMaluSet md s
  | .maluClr md => Sys2Proof.Machine.execMaluClr md s
  | .mpopCount rd ma => Sys2Proof.Machine.execMpopCount rd ma s
  | .mpopFirst rd ma => Sys2Proof.Machine.execMpopFirst rd ma s
  | .fixedLatencyWriteback => Sys2Proof.Machine.execFixedLatencyWriteback s
  | .stallCountExpiry => Sys2Proof.Machine.execStallCountExpiry s
  | .registerWriteMessage => Sys2Proof.Machine.execRegisterWriteMessage s
  | .loadResponse => Sys2Proof.Machine.execLoadResponse s
  | .storeAck => Sys2Proof.Machine.execStoreAck s
  | .errorResponse => Sys2Proof.Machine.execErrorResponse s
  | .homeRequest => Sys2Proof.Machine.execHomeRequest s
  | .revstoreHoldRelease => Sys2Proof.Machine.execRevstoreHoldRelease s
  | .feWaiterServed => Sys2Proof.Machine.execFeWaiterServed s
  | .waitlimitExpiry => Sys2Proof.Machine.execWaitlimitExpiry s
  | .fifoWaitServed => Sys2Proof.Machine.execFifoWaitServed s
  | .bankWakeDone => Sys2Proof.Machine.execBankWakeDone s
  | .memberStart => Sys2Proof.Machine.execMemberStart s
  | .inlineMemberEntry => Sys2Proof.Machine.execInlineMemberEntry s
  | .inlineRestore => Sys2Proof.Machine.execInlineRestore s
  | .delegationRequest => Sys2Proof.Machine.execDelegationRequest s
  | .delegationAnswer => Sys2Proof.Machine.execDelegationAnswer s
  | .syncComplete => Sys2Proof.Machine.execSyncComplete s
  | .killMessage => Sys2Proof.Machine.execKillMessage s
  | .detJoinDecrement => Sys2Proof.Machine.execDetJoinDecrement s
  | .barrierArrival => Sys2Proof.Machine.execBarrierArrival s
  | .barrierRelease => Sys2Proof.Machine.execBarrierRelease s
  | .travellerArrival => Sys2Proof.Machine.execTravellerArrival s
  | .continuationHeadPlace => Sys2Proof.Machine.execContinuationHeadPlace s
  | .spillOverflowMove => Sys2Proof.Machine.execSpillOverflowMove s
  | .doorbell => Sys2Proof.Machine.execDoorbell s
  | .tailLineWrite => Sys2Proof.Machine.execTailLineWrite s
  | .ringReset => Sys2Proof.Machine.execRingReset s
  | .sliceRecordCopy => Sys2Proof.Machine.execSliceRecordCopy s
  | .sliceDispatch => Sys2Proof.Machine.execSliceDispatch s
  | .completionSignal => Sys2Proof.Machine.execCompletionSignal s
  | .cancel => Sys2Proof.Machine.execCancel s
  | .purgeComplete => Sys2Proof.Machine.execPurgeComplete s
  | .taskReplay => Sys2Proof.Machine.execTaskReplay s
  | .mlsStart => Sys2Proof.Machine.execMlsStart s
  | .planeFull => Sys2Proof.Machine.execPlaneFull s
  | .planeSwap => Sys2Proof.Machine.execPlaneSwap s
  | .passStart => Sys2Proof.Machine.execPassStart s
  | .spallCarryResume => Sys2Proof.Machine.execSpallCarryResume s
  | .passComplete => Sys2Proof.Machine.execPassComplete s
  | .mzeroStart => Sys2Proof.Machine.execMzeroStart s
  | .drainComplete => Sys2Proof.Machine.execDrainComplete s
  | .mxswPair => Sys2Proof.Machine.execMxswPair s
  | .mxswComplete => Sys2Proof.Machine.execMxswComplete s
  | .tileBytesArrive => Sys2Proof.Machine.execTileBytesArrive s
  | .tileReleaseEffect => Sys2Proof.Machine.execTileReleaseEffect s
  | .copyCommandStart => Sys2Proof.Machine.execCopyCommandStart s
  | .copyOutComplete => Sys2Proof.Machine.execCopyOutComplete s
  | .mergeBlock => Sys2Proof.Machine.execMergeBlock s
  | .pgreply => Sys2Proof.Machine.execPgreply s
  | .migd => Sys2Proof.Machine.execMigd s
  | .hfqheadWrite => Sys2Proof.Machine.execHfqheadWrite s
  | .finjWrite => Sys2Proof.Machine.execFinjWrite s
  | .finjInject => Sys2Proof.Machine.execFinjInject s
  | .linkFlitReplay => Sys2Proof.Machine.execLinkFlitReplay s
  | .linkAckTimeout => Sys2Proof.Machine.execLinkAckTimeout s
  | .linkFailure => Sys2Proof.Machine.execLinkFailure s
  | .hostBar2Access => Sys2Proof.Machine.execHostBar2Access s
  | .partitionForm => Sys2Proof.Machine.execPartitionForm s
  | .partitionDissolve => Sys2Proof.Machine.execPartitionDissolve s
  | .gsctlStop => Sys2Proof.Machine.execGsctlStop s
  | .gsctlGo => Sys2Proof.Machine.execGsctlGo s
  | .gsctlEnd => Sys2Proof.Machine.execGsctlEnd s
  | .gsctlSwitchIn => Sys2Proof.Machine.execGsctlSwitchIn s
  | .gangSwitch => Sys2Proof.Machine.execGangSwitch s
  | .messageSave => Sys2Proof.Machine.execMessageSave s
  | .coreControlWrite => Sys2Proof.Machine.execCoreControlWrite s
  | .registerWrite => Sys2Proof.Machine.execRegisterWrite s
  | .attestationRequest => Sys2Proof.Machine.execAttestationRequest s
  | .imageLoad => Sys2Proof.Machine.execImageLoad s
  | .deviceReset => Sys2Proof.Machine.execDeviceReset s
  | .trainingComplete => Sys2Proof.Machine.execTrainingComplete s
  | .fullServiceEntry => Sys2Proof.Machine.execFullServiceEntry s
  | .reducedSliceTimeout => Sys2Proof.Machine.execReducedSliceTimeout s
  | .clockStep => Sys2Proof.Machine.execClockStep s
  | .thermalStop => Sys2Proof.Machine.execThermalStop s
  | .sliceRetire => Sys2Proof.Machine.execSliceRetire s
  | .coreReset => Sys2Proof.Machine.execCoreReset s
  | .stewardStart => Sys2Proof.Machine.execStewardStart s
  | .linkTraining => Sys2Proof.Machine.execLinkTraining s

end Sys2Proof.Machine
end

