-- ==== Sys2Proof/Machine/Fetch.lean ====
section
/-! DEFINITION. Before a bundle's instructions run: its fetch (R252, R311, R318), the causes of what does not decode and
their order (R45, R61), the destinations that the two slots name (R44), and what fault injection looks for (R249). -/

namespace Sys2Proof.Machine

/-! Fetch. -/

/-- What a fetch answers: the bundle's two words, a wait, for a page or for an error response, or a cause. -/
inductive Fetched where
  | ok (w0 w1 : Nat) (s : State)
  | wait (s : State)
  | fault (cause : Nat) (s : State)

/-- Bytes of a line of the instruction buffer (DESIGN CHOICE, log entry 10). -/
def ibBytes : Nat := 64

/-- A line of the instruction buffer, by its virtual number. -/
def Core.ibLine (c : Core) (line : Nat) : Option IbLine := c.ibuf.find? fun l => l.line == line

/-- The two words of a bundle at offset off of a line's bytes. -/
def wordsAt (bs : List Byte) (off : Nat) : Nat × Nat :=
  (leVal ((bs.drop off).take 4), leVal ((bs.drop (off + 4)).take 4))

/-- The page size code with which a translated fetch was made; the alias and the walker have no pages. -/
def State.fetchSz (s : State) (cid : Nat) (x : Xl) : Nat :=
  if x.own then 0 else (((s.core cid).tlb1.find? fun e => e.covers x.va).map (·.sz)).getD 0

/-- A fetch that its home refuses, or that finds an uncorrectable error, holds its thread until the error response arrives (R297,
R310); another slot may issue in the cycle. -/
def State.fetchFails (s : State) (x : Xl) (c : Nat) : State :=
  let t : State := run (failLater s x 8 2 c)
  { t with cur := { t.cur with res := .notReady } }

/-- The bytes of a fetch's line at their home, or the state in which it waits for its error response (R297, R300). -/
def State.fetchHome (s : State) (cid : Nat) (x : Xl) (n : Nat) : Except State (List Byte × State) :=
  if (s.awayAt x.pa).isSome then .error { s with cur := { s.cur with res := .notReady } }
  else
  match s.homeCause cid x.own false x.pa 8 2 with
  | some c => .error (s.fetchFails x c)
  | none => .ok (Memory.bytes s.mem (x.pa - x.va % n) n, s.l2Touch (x.pa - x.va % n) (wCache x.w1) n)

/-- A translated fetch: from the instruction buffer, or from the home, which fills a line of it unless another word of the line has
an uncorrectable error (R300). -/
def State.fetchLine (s : State) (cid : Nat) (x : Xl) : Fetched :=
  match (s.core cid).ibLine (x.va / ibBytes) with
  | some l =>
    let w := wordsAt l.bytes (x.va % ibBytes)
    .ok w.1 w.2 s
  | none =>
    match s.fetchHome cid x ibBytes with
    | .error t => .wait t
    | .ok (bs, t) =>
      let w := wordsAt bs (x.va % ibBytes)
      .ok w.1 w.2 (if s.uncorr cid (x.pa - x.va % ibBytes) ibBytes 2 then t else t.updCore cid fun c =>
        { c with ibuf := c.ibuf ++ [{ line := x.va / ibBytes, sz := s.fetchSz cid x, bytes := bs }] })

/-- The walker's fetch: physical, and past the instruction buffer (R255). -/
def State.fetchPhys (s : State) (cid : Nat) (x : Xl) : Fetched :=
  match s.fetchHome cid x 8 with
  | .error t => .wait t
  | .ok (bs, t) =>
    let w := wordsAt bs 0
    .ok w.1 w.2 t

/-- The fetch of the issuing thread's next bundle.  The walker's addresses are physical (R255). -/
def State.fetch (s : State) : Fetched :=
  let va := s.me.pc.toNat
  let walker := s.cur.slot == 16
  match s.xlate s.cur.cid va 8 8 needFetch (!s.me.sys) walker true with
  | .ok x s' => if walker then s'.fetchPhys s.cur.cid x else s'.fetchLine s.cur.cid x
  | .miss => .wait (s.waitPage va 2)
  | .waking => .wait { s with cur := { s.cur with res := .notReady } }
  | .fault c => .fault c s

/-! What does not decode. -/

/-- The C-slot opcodes that raise ILLOP_C in the walker slot: CREATE to BARCFG (R128); and MBOX outside it (R255). -/
def slotBars (slot w : Nat) : Bool :=
  (slot == 16 && decide (0x0A ≤ fld w 22 6) && decide (fld w 22 6 ≤ 0x13)) ||
    (slot != 16 && fld w 22 6 == 0x3C && fld w 0 7 == 5)

/-- The instructions that raise PRIV at user level: SYS but for ICI, CMO inval at l2, and the system CSRs (R39, R181, R248). -/
def privWord (w : Nat) : Bool :=
  (fld w 22 6 == 0x3C && fld w 0 7 != 2) || (fld w 22 6 == 0x1C && fld w 0 3 == 5) ||
    (decide (0x39 ≤ fld w 22 6) && decide (fld w 22 6 ≤ 0x3B) && csrSystem (fld w 0 12))

/-- The cause of a C-slot word that does not decode, ILLOP_C and PRIV before the reserved fields (R45). -/
def causeC (slot : Nat) (sys : Bool) (e : DecErr) : Nat :=
  let rank (w c : Nat) : Nat := if slotBars slot w then 0x00 else if privWord w && !sys then 0x07 else c
  match e with
  | .rsvfldC w => rank w 0x02
  | .rsvregC w => rank w 0x04
  | _ => 0x00

/-- The cause of an A-slot word that does not decode. -/
def causeA (e : DecErr) : Nat :=
  match e with
  | .rsvfldA => 0x03
  | .rsvregA => 0x05
  | _ => 0x01

/-! Destinations. -/

/-- A register that an instruction's encoding names as its destination. -/
inductive Dest where
  | s (r : SReg)
  | v (n : VReg)
  | m (n : MReg)
  deriving DecidableEq, Repr

/-- zr and m0 take no write. -/
def Dest.real (d : Dest) : Bool := d != .s .zr && d != .m 0#2

/-- The destinations that the encoding of a C-slot instruction names (R44). -/
def destsC (i : Instr) : List Dest :=
  match i with
  | .li _ rd _ | .lih _ rd _ _ | .addi _ rd _ _ | .create _ rd _ _ | .createRev _ rd _ _ | .sync _ rd _
  | .fstatStatus _ rd _ | .fstatBval _ rd _ | .fstatBidx _ rd _ | .fstatReplay _ rd _ | .ld _ rd _ _ | .lds _ rd _ _
  | .ldf _ rd _ _ | .ldfe _ rd _ _ | .feget _ rd _ | .amoAdd _ rd _ _ _ _ | .amoAnd _ rd _ _ _ _
  | .amoOr _ rd _ _ _ _ | .amoXor _ rd _ _ _ _ | .amoSmin _ rd _ _ _ _ | .amoSmax _ rd _ _ _ _
  | .amoNmin _ rd _ _ _ _ | .amoNmax _ rd _ _ _ _ | .amoSwap _ rd _ _ _ _ | .amoFadd _ rd _ _ _ _ | .cas _ rd _ _ _ _
  | .rgnDef _ rd _ | .csrr _ rd _ | .csrw _ rd _ _ | .csrs _ rd _ _ | .mbox _ rd _ => [.s rd]
  | .vld _ vd _ _ | .vldStr _ vd _ _ _ | .vgth _ vd _ _ _ _ | .vldx _ vd _ _ _ _ | .vldm _ vd _ _ _ _ _ => [.v vd]
  | .vldt _ vd _ _ => (eight vd).map .v
  | .tstat _ _ rb | .mstat _ rb _ => [.s rb]
  | _ => []

/-- The destinations that the encoding of an A-slot instruction names (R44). -/
def destsA (i : Instr) : List Dest :=
  match i with
  | .add rd _ _ | .sub rd _ _ | .and rd _ _ | .or rd _ _ | .xor rd _ _ | .andn rd _ _ | .shl rd _ _ | .shr rd _ _
  | .sar rd _ _ | .rol rd _ _ | .min rd _ _ | .max rd _ _ | .minn rd _ _ | .maxn rd _ _ | .shadd1 rd _ _
  | .shadd2 rd _ _ | .shadd3 rd _ _ | .mov rd _ | .cmpEq rd _ _ | .cmpNe rd _ _ | .cmpLt rd _ _ | .cmpLtn rd _ _
  | .cmpLe rd _ _ | .cmpLen rd _ _ | .cmpGt rd _ _ | .cmpGtn rd _ _ | .mul rd _ _ | .mulhs rd _ _ | .mulhn rd _ _
  | .mulhsn rd _ _ | .divs rd _ _ | .divn rd _ _ | .rems rd _ _ | .remn rd _ _ | .clz rd _ _ | .ctz rd _ _
  | .popc rd _ _ | .not rd _ _ | .neg rd _ _ | .bswap rd _ _ | .sexb rd _ _ | .sexh rd _ _ | .sexw rd _ _
  | .zexb rd _ _ | .zexh rd _ _ | .zexw rd _ _ | .bfx rd _ _ _ _ | .bfi rd _ _ _ | .sel rd _ _ _ | .fadd rd _ _ _
  | .fsub rd _ _ _ | .fmul rd _ _ _ | .fdiv rd _ _ _ | .fmin rd _ _ _ | .fmax rd _ _ _ | .fsqrt rd _ _ | .fabs rd _ _
  | .fneg rd _ _ | .fcpsgn rd _ _ _ | .ffma rd _ _ _ _ | .fnma rd _ _ _ _ | .fcmpEq rd _ _ | .fcmpLt rd _ _
  | .fcmpLe rd _ _ | .fcmpUn rd _ _ | .i2f rd _ _ _ | .n2f rd _ _ _ | .f2i rd _ _ _ | .f2n rd _ _ _ | .f2bf rd _ _
  | .bf2f rd _ _ | .f2h rd _ _ | .h2f rd _ _ | .fcls rd _ _ | .vredSum rd _ _ _ | .vredMin rd _ _ _
  | .vredMax rd _ _ _ | .vredAnd rd _ _ _ | .vredOr rd _ _ _ | .vredXor rd _ _ _ | .vext rd _ _ _ | .mpopCount rd _
  | .mpopFirst rd _ => [.s rd]
  | .vadd vd _ _ _ | .vsub vd _ _ _ | .vmul vd _ _ _ | .vdiv vd _ _ _ | .vmin vd _ _ _ | .vmax vd _ _ _
  | .vand vd _ _ _ | .vor vd _ _ _ | .vxor vd _ _ _ | .vshl vd _ _ _ | .vshr vd _ _ _ | .vsar vd _ _ _
  | .vadds vd _ _ _ | .vsubs vd _ _ _ | .vabsd vd _ _ _ | .vfma vd _ _ _ _ | .vfnma vd _ _ _ _ | .vdot4 vd _ _ _ _
  | .vabs vd _ _ _ | .vneg vd _ _ _ | .vsqrt vd _ _ _ | .vrcp vd _ _ _ | .vrsq vd _ _ _ | .vex2 vd _ _ _
  | .vlg2 vd _ _ _ | .vmov vd _ _ _ | .vnot vd _ _ _ | .vclz vd _ _ _ | .vpopc vd _ _ _ | .vrelu vd _ _ _
  | .vsel vd _ _ _ _ | .vcvt vd _ _ _ _ | .vscanSum vd _ _ _ | .vscanMax vd _ _ _ | .vperm vd _ _ _ | .vbcst vd _ _
  | .viota vd _ | .vins vd _ _ _ => [.v vd]
  | .vcmpEq md _ _ _ | .vcmpNe md _ _ _ | .vcmpLt md _ _ _ | .vcmpLe md _ _ _ | .vcmpGt md _ _ _ | .vcmpGe md _ _ _
  | .vcmpUn md _ _ _ | .vcmpOrd md _ _ _ | .maluAnd md _ _ | .maluOr md _ _ | .maluXor md _ _ | .maluAndn md _ _
  | .maluNot md _ | .maluSet md | .maluClr md => [.m md]
  | _ => []

/-- Both slots name the same destination, other than zr or m0 (R44). -/
def sameDest (c a : Instr) : Bool := (destsC c).any fun d => d.real && (destsA a).contains d

/-- The scalar destination of an A-slot instruction, which CREATE compares with its hsrc registers (R44). -/
def scalarDest (a : Instr) : Option SReg :=
  match destsA a with
  | [.s r] => some r
  | _ => none

/-! Fault injection (R249). -/

/-- The C-slot instructions that perform a load, and among them the atomic and full/empty ones. -/
def performsLoad (i : Instr) : Bool :=
  match i with
  | .ld _ _ _ _ | .lds _ _ _ _ | .vld _ _ _ _ | .vldStr _ _ _ _ _ | .vldt _ _ _ _ | .vgth _ _ _ _ _ _
  | .vldx _ _ _ _ _ _ | .vldm _ _ _ _ _ _ _ => true
  | _ => false

def performsAtomic (i : Instr) : Bool :=
  match i with
  | .amoAdd _ _ _ _ _ _ | .amoAnd _ _ _ _ _ _ | .amoOr _ _ _ _ _ _ | .amoXor _ _ _ _ _ _ | .amoSmin _ _ _ _ _ _
  | .amoSmax _ _ _ _ _ _ | .amoNmin _ _ _ _ _ _ | .amoNmax _ _ _ _ _ _ | .amoSwap _ _ _ _ _ _
  | .amoFadd _ _ _ _ _ _ | .cas _ _ _ _ _ _ | .ldf _ _ _ _ | .ldfe _ _ _ _ => true
  | _ => false

/-- finj of a core is armed for a slot. -/
def Core.finjOn (c : Core) (slot : Nat) : Bool := c.finj.getLsbD 0 && (c.finj.extractLsb' 8 5).toNat == slot

/-- The armed fault falls on a bundle, COUNT others having issued: on any, on one that loads, on one that goes to a REMOTE
page. -/
def Core.finjHits (c : Core) (slot : Nat) (i : Instr) (remote : Bool) : Bool :=
  c.finjOn slot && decide ((c.finj.extractLsb' 32 32).toNat ≤ c.finjCnt) &&
    match (c.finj.extractLsb' 1 3).toNat with
    | 0 => true
    | 1 => performsLoad i || performsAtomic i
    | _ => remote

/-- A later part of a bundle that has been counted goes to a REMOTE page, and the armed link failure falls on it (R249). -/
def Core.finjLater (c : Core) (slot : Nat) (remote : Bool) : Bool :=
  c.finjOn slot && decide ((c.finj.extractLsb' 32 32).toNat < c.finjCnt) && c.finj.extractLsb' 1 3 == 2#3 && remote

end Sys2Proof.Machine
end

