-- ==== Sys2Proof/Machine/Issue.lean ====
section
/-! DEFINITION. The issue of bundles: both slots of a bundle together (R41, R44, R45), the commitment of held bundles, the
choice of the issuing slot (R336, R337), and the passing of cycles (R7, R374). -/

namespace Sys2Proof.Machine

abbrev Out : Type := Host.Outcome State Fault Refusal

/-- Goes on from a next state; a stop stays a stop. -/
def andThen (o : Out) (f : State → Out) : Out :=
  match o with
  | .next s => f s
  | .fault r => .fault r
  | .refused r => .refused r

/-! A bundle's two slots. -/

/-- Keeps results of the A-slot, its flags and its trap, while the C-slot holds the thread: they count once the bundle commits (R44,
R45). -/
def State.setAside (t s : State) (fs : List Flight) (fl : Flags) (trap : Option Fail) : State :=
  t.updThread s.cur.cid s.cur.slot fun th => { th with aside := fs, asideFlags := fl, asideTrap := trap }

/-- The results that an A-slot has added, a standing after it. -/
def State.addedTo (a s : State) : List Flight := a.me.flights.filter fun f => !(s.me.flights.any fun g => g.n == f.n)

/-- RET, whose target may be misaligned (R131). -/
def isRet (c : Instr) : Bool :=
  match c with
  | .ret _ => true
  | _ => false

/-- FENCE, whose A-slot is performed normally (R180). -/
def isFence (c : Instr) : Bool :=
  match c with
  | .fence _ _ _ _ => true
  | _ => false

/-- A C-slot whose held access leaves nothing behind. -/
def onlyReads (c : Instr) : Bool :=
  match c with
  | .ldf _ _ _ _ => true
  | .feget _ _ _ => true
  | _ => isRet c || isFence c

/-- The held access of a bundle may find a cause of its own before it has done anything: it only reads, or its home refuses it.  An
A-slot's trap then waits for what it finds (R45); where the access would be performed, the trap comes at once, and it is not (DEDUCED,
log entry 32). -/
def State.mayFailFirst (s : State) (c : Instr) : Bool :=
  onlyReads c ||
    (match s.me.hold with
     | .busy tok => (s.req tok).any fun r => r.err.isSome ||
         (r.st == .sent && (s.homeCause r.who.cid r.own r.kind.scalar r.pa r.n r.acc).isSome)
     | _ => false)

/-- The hold of the issuing bundle can end only in its commitment: what its access finds is known, it is a fence, which finds no
error now in what it cleans, or it waits for a family, a barrier or a drain. -/
def State.sure (s : State) (c : Instr) : Bool :=
  match s.me.hold with
  | .busy tok =>
    match s.req tok with
    | some r => r.err.isNone && (isFence c || r.st == .performed && (r.res != partVal || s.me.prog.isEmpty) && !isRet c)
    | none => !(s.fams.any fun f => f.uid == tok && f.st == .delegating) && !(s.cores.any fun k => k.mxsw.any fun m => m.tok == tok)
  | _ => false

/-- The C-slot after the A-slot, rA standing after that. -/
def afterA (c : Instr) (s rA : State) : Out := exec c { rA with cur := { s.cur with aFlags := rA.cur.aFlags } }

/-- The bundle's outcome from those of its slots, each run on s: the fault that comes first in R45; a wait of either slot;
a hold; or both results, the C-slot going last (R44 rule 3).  Where a hold may yet end in a cause the A-slot's results, or its trap,
wait for its end; else they stand before the C-slot's effect. -/
def joinSlots (c : Instr) (s rC rA : State) : Out :=
  match rC.cur.res, rA.cur.res with
  | .trapped k, .trapped j => .next (if j < k then rA else rC)
  | .trapped _, _ => .next rC
  | .held, .trapped _ =>
    if !rC.sure c && rC.mayFailFirst c then .next (rC.setAside s [] fNone rA.cur.trap) else .next rA
  | .held, _ =>
    if rC.sure c then andThen (afterA c s rA) fun t => .next (t.setAside s [] rA.cur.aFlags none)
    else .next (rC.setAside s (rA.addedTo s) rA.cur.aFlags none)
  | .committed, .trapped _ => .next rA
  | _, .trapped _ => .next rC
  | _, _ =>
    andThen (afterA c s rA) fun t =>
      .next (if t.cur.res = .committed || rC.cur.res = .committed then t else rC)

/-- The A-slot of a bundle whose C-slot, run on s, has left rC. -/
def withA (c : Instr) (a : Except DecErr Instr) (s rC : State) : Out :=
  match a with
  | .error e => .next (s.takeTrap 3 (causeA e) 0)
  | .ok a =>
    andThen (exec a s) fun rA =>
      if rA.cur.res = .trapped 3 then .next rA
      else if sameDest c a then .next (s.takeTrap 4 0x00 0)
      else if rA.cur.res = .notReady then .next rA
      else joinSlots c s rC rA

/-- The A-slot destination that CREATE compares with its hsrc registers (R44). -/
def asideDest (a : Except DecErr Instr) : Option SReg :=
  match a with
  | .ok i => scalarDest i
  | .error _ => none

/-- Both slots of a decoded bundle, in the issuing slot of s.  A fault of fetch, delivery or C-slot decode comes first. -/
def runBundle (c : Instr) (a : Except DecErr Instr) (s : State) : Out :=
  let s := { s with cur := { s.cur with aDest := asideDest a } }
  andThen (exec c s) fun rC =>
    match rC.cur.res with
    | .trapped k => if k ≤ 2 then .next rC else withA c a s rC
    | _ => withA c a s rC

/-- In reduced service a vector instruction of an absent type is illegal (R371). -/
def reduceA (s : State) (a : Except DecErr Instr) : Except DecErr Instr :=
  match a with
  | .ok i => if s.dev.service = .reduced && reducedA i then .error .illopA else .ok i
  | .error e => .error e

/-- The bundle has issued: finj counts it, or falls on it, s standing before it (R249). -/
def injected (c : Instr) (s t : State) : Out :=
  let k := s.core s.cur.cid
  if !(t.cur.res == .committed || t.cur.res == .held) then .next t
  else if k.finjHits s.cur.slot c t.cur.remote then
    exec .finjInject { s with evt := .finjInject s.cur.cid s.cur.slot (t.cur.addr.getD 0) (performsAtomic c) }
  else if k.finjOn s.cur.slot then .next (t.updCore s.cur.cid fun k => { k with finjCnt := k.finjCnt + 1 })
  else .next t

/-- A held thread keeps the words of its bundle. -/
def State.latched (t : State) (cid slot : Nat) (w : W64) : State :=
  if t.cur.res = .held then t.updThread cid slot fun th => { th with latch := w } else t

/-- The C-slot words at which a fault held for the thread is delivered, before anything in them is looked at: TWAIT, MDRN, MSTAT,
the matrix instructions and END (R220, R295), and MXSW, which R219 does not list (DESIGN CHOICE, log entry 79). -/
def delivers (w : Nat) : Bool :=
  let cop := fld w 22 6
  cop == 0x0D || cop == 0x2B || (decide (0x2F ≤ cop) && decide (cop ≤ 0x37))

/-- The fault that a bundle of word w meets (R220). -/
def State.heldFault (s : State) (w : Nat) : Option HeldFault := if delivers w then s.me.held.head? else none

/-- A bundle that does not issue. -/
def State.stays (s : State) : Out := .next { s with cur := { s.cur with res := .notReady } }

/-- A held fault is delivered from the cycle after it is held on (R295). -/
def State.deliverHeld (s : State) (f : HeldFault) : Out :=
  if f.at_ < s.now then
    .next ((s.updMe fun t => { t with held := t.held.drop 1 }).takeTrap 1 f.fail.cause f.fail.addr)
  else s.stays

/-- The two words of a bundle at the issuing slot, past its delivery point (R41, R45). -/
def State.runDecoded (s : State) (w0 w1 : Nat) : Out :=
  let b := decodeWords w0 w1
  match b.c with
  | .error e => .next (s.takeTrap 2 (causeC s.cur.slot s.me.sys e) 0)
  | .ok c =>
    andThen (runBundle c (reduceA s b.a) s) fun t =>
      injected c s (t.tookSlots.latched s.cur.cid s.cur.slot (BitVec.ofNat 64 (w0 + w1 * 2 ^ 32)))

/-- As runDecoded; a bundle that reads dependents for the first time makes their acquire and goes on in the same cycle, each slot
at most once (R36 rule 5). -/
def State.runReading (s : State) (w0 w1 : Nat) : Nat → Out
  | 0 => s.runDecoded w0 w1
  | n + 1 =>
    andThen (s.runDecoded w0 w1) fun t =>
      if t.cur.res = .notReady ∧ t.me.acqs ≠ s.me.acqs then { t with cur := s.cur }.runReading w0 w1 n else .next t

/-- The two words of a bundle at the issuing slot: a held fault comes first (R220). -/
def State.runWords (s : State) (w0 w1 : Nat) : Out :=
  match s.heldFault w0 with
  | some f => s.deliverHeld f
  | none => s.runReading w0 w1 2

/-- The slot of a core as the issuing one, before its bundle. -/
def State.issuing (s : State) (cid slot : Nat) : State := { s with cur := { Cur.idle with cid := cid, slot := slot } }

/-- A fetched bundle: the store errors that wait for it (R169), and its two words. -/
def State.runFetched (t : State) (w0 w1 : Nat) : Out :=
  match t.me.errs with
  | f :: rest => .next ((t.updMe fun th => { th with errs := rest }).takeTrap 1 f.cause f.addr)
  | [] => t.runWords w0 w1

/-- The next bundle of a slot's thread.  While its stall count runs only a held fault can reach it (R46, R295). -/
def State.issueAt (s0 : State) (cid slot : Nat) : Out :=
  let s : State := s0.issuing cid slot
  match s.fetch with
  | .ok w0 w1 t => if s.me.stall.isSome && (t.heldFault w0).isNone then s.stays else t.runFetched w0 w1
  | .wait t => if s.me.stall.isSome then s.stays else .next t
  | .fault c t => if s.me.stall.isSome then s.stays else .next (t.takeTrap 1 c (memAddr c s.me.pc.toNat))

/-! Held bundles. -/

/-- The A-slot results of a held bundle join the thread's, due as they were when it issued. -/
def State.placeAside (s : State) : State :=
  let t := s.me
  let s1 : State := t.aside.foldl (fun s f =>
    let (n, s) := s.fresh
    (s.updMe fun t => { t with flights := t.flights ++ [{ f with n := n }] }).atCycle (max f.land s.now)
      (.fixedLatencyWriteback s.cur.cid s.cur.slot n)) s
  { s1.updMe fun t => { t with aside := [] } with cur := { s.cur with aFlags := t.asideFlags } }

/-- The families that a thread's CREATE has asked other cores for, and for which it still waits (R258). -/
def State.asked (s : State) (uid : Nat) : List Nat :=
  (s.fams.filter fun f => f.parentUid == uid && f.st == .delegating).map (·.uid)

/-- A held bundle that cannot go on yet keeps its answer. -/
def State.keepsAnswer (t s : State) : State := t.updMe fun th => { th with hold := s.me.hold }

/-- A later part of a held bundle: its requests take their slots, or the armed link failure falls on it, s standing before the part
(R249, R354). -/
def State.furtherPart (t s : State) : Out :=
  if t.cur.res == .held && (s.core s.cur.cid).finjLater s.cur.slot t.cur.remote then
    exec .finjInject { s with evt := .finjInject s.cur.cid s.cur.slot (t.cur.addr.getD 0) false }
  else .next t.tookSlots

/-- The A-slot's trap of a held bundle whose C-slot has met no fault (R45). -/
def State.trapAside (s : State) (f : Fail) : State :=
  (s.updMe fun t => { t with asideTrap := none }).takeTrap 7 f.cause f.addr

/-- A held bundle whose answer has arrived: it commits with its A-slot's results, goes on, or takes its cause, with which the
A-slot's results are dropped, or its A-slot's (R44, R45, R336). -/
def State.resume (s0 : State) (cid slot : Nat) : Out :=
  let s : State := s0.issuing cid slot
  match s.me.hold with
  | .fail f => .next (((s.asked s.me.uid).foldl State.forget s).takeTrap 6 f.cause f.addr)
  | _ =>
    match decodeC (s.me.latch.toNat % 2 ^ 32) (s.me.latch.toNat / 2 ^ 32) with
    | .ok c =>
      andThen (exec c s) fun t =>
        if t.cur.res = .committed then
          match s.me.asideTrap with
          | some f => .next (s.trapAside f)
          | none => andThen (exec c s.placeAside) fun t => .next t.tookSlots
        else if t.cur.res = .notReady then .next (t.keepsAnswer s)
        else t.furtherPart s
    | .error _ => s.stays

/-! The choice of a slot. -/

/-- The thread is at a bundle that may issue, or take a held fault: no hold, and no stall without a held fault (R295, R336). -/
def Thread.free (t : Thread) : Bool := t.hold == .none && (t.stall.isNone || !t.held.isEmpty)

/-- The slots that may issue in this cycle, in the order of R337. -/
def State.issueOrder (s : State) (cid : Nat) : List Nat :=
  let c := s.core cid
  let ps := ((List.range 16).map fun i => (c.rot + 1 + i) % 16).filter fun k => (c.thread k).any Thread.free
  let w := if (c.thread 16).any Thread.free then [16] else []
  let recent := match c.walkerAt with
    | some t => decide (s.dieNow cid ≤ t + 16)
    | none => false
  if recent then ps ++ w else w ++ ps

/-- The slots whose held bundle has its answer. -/
def State.answeredSlots (s : State) (cid : Nat) : List Nat :=
  (List.range 17).filter fun k => ((s.core cid).thread k).any Thread.answered

/-- A slot has issued: the rotation goes on from it (R337), and the core has issued for this cycle. -/
def State.rotated (s : State) (cid slot : Nat) : State :=
  let s1 : State := s.updCore cid fun c => if slot = 16 then { c with walkerAt := some (s.dieNow cid) } else { c with rot := slot }
  { s1 with turn := s1.turn.drop 1 }

/-- The first slot of a list whose bundle is ready issues; with none, the core issues nothing in this cycle. -/
def State.issueFirst (s : State) (cid : Nat) : List Nat → Out
  | [] => .next { s with turn := s.turn.drop 1, idle := s.idle ++ [cid], cur := Cur.idle }
  | k :: ks =>
    andThen (s.issueAt cid k) fun t =>
      if t.cur.res = .notReady then t.issueFirst cid ks else .next (t.rotated cid k)

/-- The first held bundle of a list that can commit does; with none, the core issues. -/
def State.resumeFirst (s : State) (cid : Nat) : List Nat → Out
  | [] => s.issueFirst cid (s.issueOrder cid)
  | k :: ks =>
    andThen (s.resume cid k) fun t => if t.cur.res = .notReady then t.resumeFirst cid ks else .next t

/-- What a core does in a cycle. -/
def State.coreTurn (s : State) (cid : Nat) : Out := s.resumeFirst cid (s.answeredSlots cid)

/-! Cycles. -/

/-- A die whose clock runs at mhz has a cycle at device cycle n (R374). -/
def ticksAt (mhz n : Nat) : Bool := n * mhz / 1200 != (n + 1) * mhz / 1200

/-- A core may issue in device cycle n: a thread stands on it, its partition runs, its die's clock has a cycle, in reduced service it
is of the first supergroup, and the die test has not failed (R370, R371, R389). -/
def State.mayIssue (s : State) (n : Nat) (c : Core) : Bool :=
  c.slots.toList.any (·.isSome) && (s.partOf c.cid).any (fun p => p.gsst == .running) &&
    (if h : dieOf c.cid < 4 then ticksAt s.dev.mhz[dieOf c.cid] n else false) &&
    !s.dev.down && (s.dev.service != .reduced || decide (c.cid < 64))

/-- Nothing is left to do in this cycle: the next begins. -/
def State.nextCycle (s : State) : State :=
  let n := s.now + 1
  { s with
    now := n
    idle := []
    dieCyc := Vector.ofFn fun d : Fin 4 => if ticksAt s.dev.mhz[d] n then s.dieCyc[d] + 1 else s.dieCyc[d]
    reqs := s.reqs.filter fun r => r.holdsSlots n }

/-- The cores that may issue in this cycle get their turn. -/
def State.formTurn (s : State) : State :=
  { s with turn := (s.cores.filter (s.mayIssue s.now)).map (·.cid), turnAt := s.now }

/-- The end of a cycle: the wait limits that run out with it, one by one, then the next cycle. -/
def State.endCycle (s : State) : Out :=
  match s.reqs.find? fun r => r.overdue s.now with
  | some r => exec .waitlimitExpiry { s with evt := .waitlimitExpiry r.tok }
  | none => .next s.nextCycle

/-- The place of a due step in its cycle: 0 before the cores' turns; 1 behind them, where requests come to a scratchpad through
the mesh or for delegation; 2 behind those, where the copy engine's reads and transfers and the matrix engine reach it (R258, R299). -/
def State.rank (s : State) (e : Ev) : Nat :=
  match e with
  | .homeRequest tok => if (s.req tok).any s.byMesh then 1 else 0
  | .delegationRequest _ => 1
  | .copyCommandStart _ => 2
  | .tileBytesArrive _ _ => 2
  | .copyOutComplete _ _ => 2
  | .mlsStart _ => 2
  | .passStart _ => 2
  | .drainComplete _ => 2
  | .mxswComplete _ _ => 2
  | _ => 0

/-- The first due step of a rank. -/
def State.dueNext (s : State) (rank : Nat) : Option Due := s.agenda.find? fun d => decide (d.at_ ≤ s.now) && s.rank d.what == rank

/-- The switched-out partition whose cores or threads a message is to or from, for which it is kept (R392). -/
def State.awayMsg (s : State) (e : Ev) : Option Part := s.parts.find? fun p => p.away && s.msgOf p e

/-- A due step runs. -/
def State.runDue (s : State) (d : Due) : Out :=
  let t : State := { s with agenda := s.agenda.erase d, evt := d.what }
  match s.awayMsg d.what with
  | some p => .next (t.keepMsg p.num d.what)
  | none => exec d.what.instr t

/-- What comes next once every core has had its turn and every due step has run: an input, behind what this cycle has brought
about (R329), or the end of the cycle. -/
def State.onward (s : State) : Out :=
  match s.inputs with
  | e :: es => exec e.instr { s with inputs := es, evt := e }
  | [] => s.endCycle

/-- The due steps behind the cores' turns. -/
def State.lateDue (s : State) : Out :=
  match s.dueNext 1 with
  | some d => s.runDue d
  | none =>
    match s.dueNext 2 with
    | some d => s.runDue d
    | none => s.onward

/-- The next core's turn, or what follows the last. -/
def State.turns (s : State) : Out :=
  match s.turn with
  | cid :: _ => s.coreTurn cid
  | [] => if s.turnAt = s.now then s.lateDue else .next s.formTurn

/-- What comes next in a cycle: a due step, a core's turn, a due step behind those, an input, the end of the cycle. -/
def State.proceed (s : State) : Out :=
  match s.dueNext 0 with
  | some d => s.runDue d
  | none => s.turns

/-! A program's first bundle, for a machine in which nothing runs. -/

/-- The physical address at which withFetchWord places a bundle, and its virtual address. -/
def bootPa : Nat := 0x100000

def bootVa : Nat := 0x200000

/-- A user thread, the root of a slice, with every local present and zero. -/
def bootThread (uid : Nat) : Thread :=
  { Thread.blank with
    uid := uid, fam := some (uid + 1), slice := some (uid + 2), l := 16, vn := 16, pc := BitVec.ofNat 64 bootVa
    regs := { Regs.start with s := Vector.replicate 16 (SCell.full 0#64), v := Vector.replicate 16 (VCell.full 0#4096) } }

/-- Its code page: 64 KiB, readable, writable, executable, for user threads. -/
def bootPage : TlbEntry :=
  { vpn := bootVa / 2 ^ 16, sz := 0, w1 := BitVec.ofNat 64 (bootPa / 2 ^ 16 * 2 ^ 16 + 0x0F) }

/-- Its slice, of partition 0, with no budget. -/
def bootSlice (uid : Nat) : Slice :=
  { uid := uid + 2, part := 0, sub := 0, ring := 0, index := 0, words := List.replicate 8 0#64, st := .running, issued := 0,
    recent := [], root := some (uid + 1), status := 0, cause := 0, signalled := false, yielding := none }

/-- The descriptor of its family. -/
def bootDesc : Desc :=
  { start := 0, limit := 0, step := 1, ind := false, body := BitVec.ofNat 64 bootVa, block := 0, hsrc := 0, gsrc := 0, v := 16,
    l := 16, s := 0, g := 0 }

/-- Its family: one member on core 0. -/
def bootFamily (uid : Nat) : Family :=
  { rootFamily (uid + 1) (bootSlice uid) bootDesc { cores := [0], cyclic := false, fallback := 0#2, dcores := [] } with
    shares := [{ cid := 0, slots := [0], next := 1, stride := 1, left := 0, live := [0], started := 1, ended := 0 }] }

/-- Core 0 with that thread in slot 0 and nothing else. -/
def firstCore (uid : Nat) : Core :=
  { (Core.fresh 0 0).setThread 0 (some (bootThread uid)) with
    tlb1 := [bootPage], tlb2 := [bootPage], regUse := [{ fam := uid + 1, uid := 1, sc := 16, vec := 16 }] }

/-- The machine in full service with a program loaded, whose first bundle is the eight bytes given (DESIGN CHOICE, log entry 28). -/
def State.loaded (s : State) (bytes : List Byte) : State :=
  { s with
    mem := Memory.putAll s.mem bootPa bytes
    cores := putCore s.cores (firstCore s.ctr)
    fams := s.fams ++ [bootFamily s.ctr]
    slices := s.slices ++ [bootSlice s.ctr]
    parts := putPart s.parts { Part.fresh 0 with valid := true, sgs := 1#20 }
    dev := { s.dev with service := .full, mhz := Vector.replicate 4 1200 }
    agenda := [], inputs := [], turn := [0], turnAt := s.now, idle := [], ctr := s.ctr + 3 }

end Sys2Proof.Machine
end

