-- ==== Sys2Proof/Machine/Step.lean ====
section
/-! DEFINITION. One step of the machine, and a program's first instruction placed where the step fetches it. -/

namespace Sys2Proof.Machine

/-- One step: what is due before the cores' turns; else the first core whose turn it is commits a held bundle or issues one; else what is due
behind the turns; else an input; else the next cycle begins (DESIGN CHOICE, log entry 6). -/
def step (s : State) : Host.Outcome State Fault Refusal := s.proceed

/-- s with a program loaded whose first bundle holds the table's word w of nbits bits, so that the next step issues it (DESIGN CHOICE, log
entry 28). -/
def State.withFetchWord (s : State) (nbits w : Nat) : State := s.loaded (tableBytes nbits w)

end Sys2Proof.Machine
end

