-- ==== Sys2Proof/Safety.lean ====
section
/-! DEFINITION. What counts as a safe run, and the conditions on a state, in the manual's words, under which instructions
complete: the terms in which statements are written. -/

namespace Sys2Proof.Machine

/-! Safe states and runs. -/

/-- Memory is in canonical form: the form in which equal memories are equal data. -/
def State.Sound (s : State) : Prop := Memory.wf s.mem = true

/-- A run is safe when none of its steps stops. -/
def SafeFrom (s : State) : Prop := ∀ k, ∃ t, Host.Core.run Sys2Proof.core k s = .next t

/-! The issuing thread. -/

/-- A thread stands in the issuing slot. -/
def State.Stands (s : State) : Prop := s.cur.slot < 17 ∧ s.thread s.cur.cid s.cur.slot = some s.me

/-- The registers that an instruction names may be used: they lie in the thread's window, those written may be written
(R15); those read are present and not failed, those written await nothing (R14, R169); with chk no result that they
would read is in flight (R47); and no dependent among them waits for its first read's acquire (R36). -/
structure Usable (u : Uses) (s : State) : Prop where
  window : ∀ r ∈ u.sr ++ u.sw, s.me.outside r = false
  vectors : ∀ n ∈ u.vr ++ u.vw, n.toNat < s.me.vn
  writable : ∀ r ∈ u.sw, s.me.readOnly r = false
  present : ∀ c ∈ u.sr.filterMap s.me.cell, c.pres = true ∧ c.fail = none
  vpresent : ∀ n ∈ u.vr, (s.me.regs.v.get n.toFin).pres = true ∧ (s.me.regs.v.get n.toFin).fail = none
  idle : ∀ c ∈ u.sw.filterMap s.me.cell, c.pend = false
  vidle : ∀ n ∈ u.vw, (s.me.regs.v.get n.toFin).pend = false
  landed : s.me.csr.chk.getLsbD 0 = true → ∀ f ∈ s.me.olderFlights,
    (∀ r ∈ u.sr, f.dst.isS r = false) ∧ (∀ n ∈ u.vr, f.dst ≠ .v n) ∧ (∀ n ∈ u.mr, f.dst ≠ .m n)
  acquired : ∀ r ∈ u.sr, s.me.unacquired r = false

/-- With chk a fixed-latency result may not land before an earlier result of the same register (R47). -/
def InOrder (s : State) (d : FDest) (lat : Nat) : Prop :=
  s.me.csr.chk.getLsbD 0 = true → s.me.overtakes s.now (s.ticks (dieOf s.cur.cid) lat) d = false

/-- As InOrder, of a scalar destination: a write to zr is discarded (R148). -/
def SInOrder (s : State) (rd : SReg) (lat : Nat) : Prop :=
  match rd with
  | .s n => InOrder s (.s n) lat
  | _ => True

/-- Nothing keeps a request that has been sent from being performed at its home: no earlier access, fence or want of slots, no
waking bank, no line that it would evict spoilt; and it is no release that has lines to clean (R171, R180, R184, R300, R354). -/
def State.Unhindered (s : State) (r : Req) : Prop :=
  r.st = .sent ∧ s.blocks r = false ∧ s.fenceWaits r = false ∧ s.slotsShort r = false ∧
    r.spans.any (fun x => s.waking x.1) = false ∧ (r.l1 && s.evictsSpoilt r.who.cid r.pa) = false ∧
    (r.rel && r.wide && (s.core r.who.cid).l1.any fun l => l.dirty != 0#32) = false

/-- The slice's budget, if it has one, is not spent, or the bundle has issued already (R327). -/
def InBudget (s : State) : Prop := s.overBudget = false ∨ ∃ v, s.me.hold = .done v

/-! What a save area holds. -/

/-- A core's region has room for it: FIFO queues in banks of their own, none in scratch mode, accumulators of at most 1,024 values
that a dword holds, return stacks of at most eight entries (R19, R27, R185, R391). -/
structure Core.Fits (c : Core) : Prop where
  cid : c.cid < 1280
  fifos : ∀ f ∈ c.fifos, f.bank < 32 ∧ c.bank f.bank ≠ bankScratch ∧ f.bytes.length ≤ 0x8000
  banks : (c.fifos.map (·.bank)).Nodup
  acc : ∀ k : Fin 4, (c.acc.get k).vals.length ≤ 1024 ∧
    ∀ v ∈ (c.acc.get k).vals, if (c.acc.get k).fp then 0 ≤ v ∧ v < 2 ^ 64 else -2 ^ 63 ≤ v ∧ v < 2 ^ 63
  threads : ∀ slot th, c.thread slot = some th → th.rstack.length ≤ 8 ∧ th.depth < 2 ^ 64

/-- The region at base of t's memory holds core c as it stands in u: the data and the tags of its scratch banks, its FIFO queues, the
contexts and vector registers of its threads, and the values of its accumulators, each at its place (R391; log entry 34). -/
structure Core.SavedAt (c : Core) (u : State) (base : Nat) (t : State) : Prop where
  data : ∀ off < 2 ^ 20, c.scratchAt off = true → Memory.get t.mem (base + off) = Memory.get u.mem (scratchPa c.cid off)
  tags : ∀ off < 2 ^ 20, c.scratchAt off = true →
    (Memory.get t.mem (base + 0x100000 + off / 64)).getLsbD (off / 8 % 8) = decide (scratchPa c.cid off / 8 ∈ u.tags)
  fifos : ∀ f ∈ c.fifos, Memory.bytes t.mem (base + f.bank * 0x8000) f.bytes.length = f.bytes
  contexts : ∀ slot th i w, c.thread slot = some th → th.context[i]? = some w →
    Memory.val t.mem (contextRegion base slot + 8 * i) 8 = w.toNat
  vectors : ∀ slot th (i : Fin 16), c.thread slot = some th → i.val < th.vn → c.vecBase slot + i.val < 64 →
    Memory.val t.mem (vecRegion base (c.vecBase slot + i.val)) 512 = (th.regs.v.get i).val.toNat
  acc : ∀ (k : Fin 4) i v, (c.acc.get k).vals[i]? = some v →
    Memory.val t.mem (accRegion base k.val + 8 * i) 8 = (BitVec.ofInt 64 v).toNat

/-! What an instruction leaves. -/

/-- A result of the issuing bundle: the bits of mask of register d take val lat cycles later (R46). -/
def State.flightOf (s : State) (d : FDest) (val mask : VWord) (lat : Nat) : Flight :=
  { n := s.ctr, dst := d, val := val, mask := mask, land := s.now + s.ticks (dieOf s.cur.cid) lat, ep := s.me.issues }

/-- s with such a result in flight. -/
def State.withFlight (s : State) (d : FDest) (val mask : VWord) (lat : Nat) : State :=
  let f := s.flightOf d val mask lat
  { s.updMe fun t => { t with flights := t.flights ++ [f] } with
    ctr := s.ctr + 1
    agenda := insDue { at_ := f.land, what := .fixedLatencyWriteback s.cur.cid s.cur.slot s.ctr } s.agenda }

/-- s with a scalar result in flight; a result for zr is discarded (R148). -/
def State.withScalar (s : State) (rd : SReg) (v : W64) (lat : Nat) : State :=
  match rd with
  | .s n => s.withFlight (.s n) (v.zeroExtend 4096) (BitVec.allOnes 4096) lat
  | _ => s

/-- s with a mask result in flight; a result for m0 is discarded (R18). -/
def State.withMask (s : State) (md : MReg) (v mask : MWord) (lat : Nat) : State :=
  if md = 0#2 then s else s.withFlight (.m md) (v.zeroExtend 4096) (mask.zeroExtend 4096) lat

/-- The A-slot instruction has run: its flags stand with the bundle, and reach fst when it commits (R20, R45). -/
def State.aDone (s : State) (fl : Flags) : State :=
  { s with cur := { s.cur with aFlags := s.cur.aFlags ||| fl, res := .committed } }

/-- No flag of a set is enabled to trap (R20). -/
def NoTrap (s : State) (fl : Flags) : Prop := ∀ i < 6, fl.getLsbD i = true → s.me.csr.fst.getLsbD (16 + i) = false

/-! Instructions of one shape. -/

/-- With no flag enabled among those it sets, the A-slot instruction i, which reads the registers of u and writes rd,
leaves v in flight for rd and its flags with the bundle, and changes nothing else (R148, R151, R152). -/
def ScalarResult (i : Instr) (u : Uses) (rd : SReg) (s : State) (v : W64) (fl : Flags) (lat : Nat) : Prop :=
  s.Stands → Usable { u with sw := [rd] } s → NoTrap s fl → SInOrder s rd lat →
    exec i s = .next ((s.withScalar rd v lat).aDone fl)

/-- An integer operation at the width of R150: on all 64 bits, or on the low 32 with the result sign-extended. -/
def atWidth (f : (n : Nat) → BitVec n → BitVec n → BitVec n) (narrow : Bool) (a b : W64) : W64 :=
  if narrow then (f 32 (a.setWidth 32) (b.setWidth 32)).signExtend 64 else f 64 a b

/-- The two-operand integer instruction i writes f (a, b), after lat cycles, with the flags fl (b); a is ra, and b is rb or
the sign-extended immediate (R150). -/
def IntRule (i : SReg → SReg → Opnd2 → Instr) (lat : Nat) (f : (n : Nat) → BitVec n → BitVec n → BitVec n)
    (fl : (n : Nat) → BitVec n → Flags := fun _ _ => fNone) : Prop :=
  ∀ rd ra o s,
    let b : W64 := match o with
      | .reg rb _ => s.regVal rb
      | .imm k => k.signExtend 64
    let narrow : Bool := match o with
      | .reg _ w => w
      | .imm _ => false
    let rs := match o with
      | .reg rb _ => [ra, rb]
      | .imm _ => [ra]
    ScalarResult (i rd ra o) { Uses.none with sr := rs } rd s (atWidth f narrow (s.regVal ra) b)
      (if narrow then fl 32 (b.setWidth 32) else fl 64 b) lat

/-- The integer division i with a zero divisor takes the cause of IDZ where EIDZ enables it, and writes nothing (R152,
R157). -/
def ZeroDivisorTrap (i : SReg → SReg → Opnd2 → Instr) : Prop :=
  ∀ rd ra s, s.Stands → s.me.csr.fst.getLsbD 21 = true →
    (∀ rb w, Usable { Uses.none with sr := [ra, rb], sw := [rd] } s →
      (if w then (s.regVal rb).setWidth 32 = 0#32 else s.regVal rb = 0#64) →
      exec (i rd ra (.reg rb w)) s = .next (s.takeTrap 7 0x15 0)) ∧
    (Usable { Uses.none with sr := [ra], sw := [rd] } s →
      exec (i rd ra (.imm 0#10)) s = .next (s.takeTrap 7 0x15 0))

/-- The one-operand integer instruction i writes f (a); its I = 1 form is the 64-bit operation with W (R158, R62). -/
def UnaryRule (i : SReg → SReg → UOpnd → Instr) (f : (n : Nat) → BitVec n → BitVec n) : Prop :=
  ∀ rd ra s,
    (∀ w, ScalarResult (i rd ra (.std w)) { Uses.none with sr := [ra] } rd s
      (atWidth (fun n a _ => f n a) w (s.regVal ra) 0#64) fNone 1) ∧
    (∀ k, ScalarResult (i rd ra (.imm k)) { Uses.none with sr := [ra] } rd s (f 64 (s.regVal ra)) fW 1)

/-- The floating instruction i on rs writes the zero-extended f (s) with its flags, and W where N = 1 is combined with a
mode (R53, R62, R151, R161). -/
def FloatRule (i : Instr) (rs : List SReg) (rd : SReg) (r : FRnd) (s : State) (x : Nat × Flags) (lat : Nat) : Prop :=
  ScalarResult i { Uses.none with sr := rs } rd s (BitVec.ofNat 64 x.1)
    (x.2 ||| (if r.n && r.rm != 0#2 then fW else fNone)) lat

/-! Vector instructions. -/

/-- With no flag of its active elements enabled, the vector instruction i, which reads the registers of u, leaves the codes
r of its elements of width w in flight for the active lanes of vd, and their flags and fl with the bundle (R187, R188,
R190). -/
def VecResult (i : Instr) (u : Uses) (vd : VReg) (msk : MReg) (s : State) (w : Nat) (r : List (Nat × Flags)) (fl : Flags)
    (lat : Nat) : Prop :=
  let all := activeFlags (s.maskVal msk) w r ||| fl
  s.Stands → Usable { u with vw := [vd], mr := msk :: u.mr } s → NoTrap s all → InOrder s (.v vd) lat →
    exec i s = .next ((s.withFlight (.v vd) (vecOf w (r.map (·.1))) (laneBits (s.maskVal msk)) lat).aDone all)

/-- The elements of a register, those of the second operand, and its registers (R187, R189). -/
def State.vA (s : State) (va : VReg) (t : VTy) : List Nat := elems (s.vecVal va) t.bits t.count

def State.vB (s : State) (b : VSrc) (t : VTy) : List Nat :=
  match b with
  | .v n => s.vA n t
  | .sc r => List.replicate t.count ((s.regVal r).toNat % 2 ^ t.bits)

def binUses (va : VReg) (b : VSrc) : Uses :=
  match b with
  | .v n => { Uses.none with vr := [va, n] }
  | .sc r => { Uses.none with vr := [va], sr := [r] }

/-- The two-operand vector instruction i writes f (a, b) of the elements, by the type that eff executes for the type named,
with W where they differ (R62, R191). -/
def VecRule (i : VReg → VReg → VSrc → VMod → Instr) (eff : VTy → VTy) (extraW : VTy → Bool) (lat : VTy → Nat)
    (f : VTy → RMode → Nat → Nat → Nat × Flags) : Prop :=
  ∀ vd va b (m : VMod) s,
    let t := eff m.ty
    VecResult (i vd va b m) (binUses va b) vd m.msk s t.bits (List.zipWith (f t s.fmode) (s.vA va t) (s.vB b t))
      (if extraW m.ty then fW else fNone) (lat m.ty)

/-- A function of elements: of their integer values, wrapped to the width, or of their floating codes (R191). -/
def vNum (f : Int → Int → Int) (g : FF → RMode → Nat → Nat → Nat × Flags) (t : VTy) (m : RMode) (a b : Nat) : Nat × Flags :=
  match t.ff with
  | some k => g k m a b
  | none => (wrapElem t.bits (f (VTy.int t a) (VTy.int t b)), fNone)

/-- A function of the bits of elements (R191). -/
def vBit (f : (w : Nat) → BitVec w → BitVec w → BitVec w) (t : VTy) (_ : RMode) (a b : Nat) : Nat × Flags :=
  ((f t.bits (BitVec.ofNat t.bits a) (BitVec.ofNat t.bits b)).toNat, fNone)

/-- The integer or floating latency of R188. -/
def vLat (t : VTy) : Nat := if t.ff = none then 2 else 4

/-- The one-operand vector instruction i writes f (a) of the elements, 8 cycles later, with W where it is a fallback
(R62, R194). -/
def VecUnRule (i : VReg → VReg → Bool → VMod → Instr) (eff : VTy → VTy) (f : VTy → RMode → Nat → Nat × Flags) : Prop :=
  ∀ vd va sb (m : VMod) s,
    let t := eff m.ty
    VecResult (i vd va sb m) { Uses.none with vr := [va] } vd m.msk s t.bits ((s.vA va t).map (f t s.fmode))
      (if sb ∨ t ≠ m.ty then fW else fNone) 8

/-- The comparison i writes, for each active lane, whether the relation k holds of every element of the lane, and raises
the flags of its active elements (R196). -/
def VecCmpRule (i : MReg → VReg → VSrc → VMod → Instr) (k : VTy → Nat → Nat → Bool × Flags) : Prop :=
  ∀ md va b (m : VMod) s,
    let xs := List.zipWith (k m.ty) (s.vA va m.ty) (s.vB b m.ty)
    let fl := activeFlags (s.maskVal m.msk) m.ty.bits (xs.map fun x => (0, x.2))
    s.Stands → Usable { binUses va b with mr := [m.msk] } s → NoTrap s fl → (md = 0#2 ∨ InOrder s (.m md) 2) →
      ∃ v : MWord, (∀ l < 128, v.getLsbD l = (List.range (32 / m.ty.bits)).all fun e =>
          (xs.getD (32 / m.ty.bits * l + e) (false, fNone)).1) ∧
        exec (i md va b m) s = .next ((s.withMask md v (s.maskVal m.msk) 2).aDone fl)

/-- A relation of the elements' integer values, or of their floating codes (R164, R196). -/
def vRel (p : Int → Int → Bool) (k : Rel) (t : VTy) (a b : Nat) : Bool × Flags :=
  match t.ff with
  | some f => fCmp f k a b
  | none => (p (VTy.int t a) (VTy.int t b), fNone)

/-- The reduction i writes the pairwise tree of the active elements, and e for the others, 8 cycles later, extended into rd;
S = 1 is a fallback (R62, R81, R199). -/
def VecRedRule (i : SReg → VReg → Bool → VMod → Instr) (e : VTy → Nat) (f : VTy → RMode → Nat → Nat → Nat × Flags) : Prop :=
  ∀ rd va sb (m : VMod) s,
    let mk := s.maskVal m.msk
    let y := treeOf (f m.ty s.fmode) 9 ((s.vA va m.ty).mapIdx fun j x => if mk.getLsbD (m.ty.bits * j / 32) then x else e m.ty)
      fNone
    let z : W64 := if m.ty.signed then (BitVec.ofNat m.ty.bits y.1).signExtend 64 else BitVec.ofNat 64 y.1
    ScalarResult (i rd va sb m) { Uses.none with vr := [va], mr := [m.msk] } rd s z (y.2 ||| if sb then fW else fNone) 8

/-- The prefixes i writes: an active element becomes f of the active prefix before it and itself (R81, R199). -/
def VecScanRule (i : VReg → VReg → Bool → VMod → Instr) (f : VTy → RMode → Nat → Nat → Nat × Flags) : Prop :=
  ∀ vd va sb (m : VMod) s,
    let mk := s.maskVal m.msk
    let go (acc : List (Nat × Flags) × Option Nat) (x : Nat × Nat) : List (Nat × Flags) × Option Nat :=
      if mk.getLsbD (m.ty.bits * x.2 / 32) then
        match acc.2 with
        | none => (acc.1 ++ [(x.1, fNone)], some x.1)
        | some p => (acc.1 ++ [f m.ty s.fmode p x.1], some (f m.ty s.fmode p x.1).1)
      else (acc.1 ++ [(x.1, fNone)], acc.2)
    VecResult (i vd va sb m) { Uses.none with vr := [va] } vd m.msk s m.ty.bits
      ((s.vA va m.ty).zipIdx.foldl go ([], none)).1 (if sb then fW else fNone) 12

/-- The mask instruction i, which reads the masks ms, writes v to md one cycle later (R201). -/
def MaskRule (i : Instr) (ms : List MReg) (md : MReg) (s : State) (v : MWord) : Prop :=
  s.Stands → Usable { Uses.none with mr := ms } s → (md = 0#2 ∨ InOrder s (.m md) 1) →
    exec i s = .next ((s.withMask md v (BitVec.allOnes 128) 1).aDone fNone)

/-- The creator of the inline run r stands in its slot again, at its CREATE bundle, where its frame is read (R120). -/
def State.creatorBack (s : State) (cid slot : Nat) (r : InlineRun) : State :=
  { (s.updCore cid fun c => { c with
      runs := c.runs.filter fun x => !(x.slot == slot && x.fam == r.fam)
      regUse := c.regUse.filter fun u => u.fam != r.fam }).setThread cid slot
        (some { r.creator with
          pc := r.createPc, hold := .none, csr := { r.creator.csr with ifp := BitVec.ofNat 64 r.frame }
          errs := r.creator.errs ++ ((s.thread cid slot).map (·.errs)).getD [] }) with
    cur := { Cur.idle with cid := cid, slot := slot } }

/-- The flags of completed imports have joined fst, as at each delivery point (R220, R241). -/
def State.delivered (s : State) : State := s.updMe fun t =>
  { t with csr := { t.csr with fst := t.csr.fst ||| t.impFlags.setWidth 64 }, impFlags := fNone }

/-- The instruction i commits, with a value for the scalar register r on its way, for which r waits (R14). -/
def Answers (i : Instr) (r : SReg) (s : State) (p : W64 → Prop) : Prop :=
  ∃ t v, p v ∧ exec i s = .next t ∧ t.cur.res = .committed ∧ t.me.pc = s.me.pc + 8#64 ∧ t.mem = s.mem ∧
    ∀ k, r = .s k → (∃ q ∈ t.reqs, q.kind = .value v ∧ q.res = v ∧ q.dst = .s k ∧ q.who = s.meWho) ∧
      (t.me.regs.s.get k.toFin).pres = false ∧ (t.me.regs.s.get k.toFin).pend = true

/-- The instruction i commits and stands at the end of its core's matrix queue with the operations ops (R219). -/
def Queues (i : Instr) (s : State) (ops : List MOp) : Prop :=
  ∃ t m, exec i s = .next t ∧ t.cur.res = .committed ∧ t.me.pc = s.me.pc + 8#64 ∧ t.mem = s.mem ∧
    t.myCore.mq = s.myCore.mq ++ [m] ∧ m.ops = ops ∧ m.who = s.meWho ∧ m.follow = false

/-- The step e, taken in s, answers a next state of which p holds. -/
def Follows (e : Ev) (s : State) (p : State → Prop) : Prop := ∃ t, exec e.instr { s with evt := e } = .next t ∧ p t

/-- Lane i of the active lanes of a mask lies at base + stride·i (R207). -/
def laneUnits (s : State) (msk : MReg) (vd : VReg) (base stride : W64) : List Piece :=
  ((List.range 128).filter fun i => (s.maskVal msk).getLsbD i).map fun i =>
    { va := base + stride * BitVec.ofNat 64 i, n := 4, align := 4, reg := vd, lo := 32 * i }

/-- The vector load i, whose units all pass their checks, commits with its request on the way for the lanes of its mask, the
registers that it writes await it, and no byte of memory changes (R203, R207). -/
def VecLoads (i : Instr) (u : Uses) (vd : VReg) (count : Nat) (ps : List Piece) (form : VForm) (msk : MReg) (s : State) : Prop :=
  s.Stands → InBudget s → s.me.hold = .none → Usable u s → s.acqBlocked = false →
    ∀ us e s', vecAccess needLoad ps s = .ok (us, e, s') →
    ∃ t q, exec i s = .next t ∧ t.cur.res = .committed ∧ t.me.pc = s.me.pc + 8#64 ∧ t.mem = s.mem ∧ q ∈ t.reqs ∧
      q.kind = .vload us form (s.maskVal msk) ∧ q.dst = .v vd count ∧ q.who = s.meWho ∧
      ∀ k < count, (t.me.regs.v.get (vd + BitVec.ofNat 4 k).toFin).pres = false ∧
        (t.me.regs.v.get (vd + BitVec.ofNat 4 k).toFin).pend = true

/-- The vector store i, whose units all pass their checks, commits with its request on the way, each unit with its value;
no byte of memory has changed yet, and no register (R203, R207). -/
def VecStores (i : Instr) (u : Uses) (ps : List (Piece × Nat)) (s : State) : Prop :=
  s.Stands → InBudget s → s.me.hold = .none → Usable u s → s.acqBlocked = false →
    ∀ us e s', vecAccess needStore (ps.map (·.1)) s = .ok (us, e, s') →
    ∃ t q, exec i s = .next t ∧ t.cur.res = .committed ∧ t.me.pc = s.me.pc + 8#64 ∧ t.mem = s.mem ∧ q ∈ t.reqs ∧
      q.kind = .vstore (us.zip (ps.map (·.2))) ∧ q.who = s.meWho ∧ t.me.regs = s.me.regs

/-! What an instruction leaves alone. -/

/-- The instructions that read memory, tiles, the engines' state or the TLBs and store nothing (R203). -/
def keepsMemory (i : Instr) : Bool :=
  match i with
  | .ld _ _ _ _ | .lds _ _ _ _ | .vld _ _ _ _ | .vldStr _ _ _ _ _ | .vldt _ _ _ _ | .vgth _ _ _ _ _ _
  | .vldx _ _ _ _ _ _ | .vldm _ _ _ _ _ _ _ | .tdef _ _ _ _ | .tarm _ _ _ | .trel _ _ | .twait _ _ | .tstat _ _ _
  | .cpyG2t _ _ _ _ | .cpyT2g _ _ _ _ _ | .cpyMc _ _ _ _ | .cpyGx _ _ _ _ | .cpyX _ _ _ _ | .mls _ _ | .mswp _
  | .mma _ _ _ _ | .mmasp _ _ _ _ | .mmag _ _ _ _ _ | .mdrn _ _ _ _ _ _ | .mzeroInt _ _ | .mzeroFp _ _ | .mstat _ _ _
  | .mxsw _ _ | .rgnRel _ _ | .csrr _ _ _ | .tlbw _ _ _ | .tlbi _ _ _ | .halt _ => true
  | _ => false

/-- The instructions that write no register of their thread but those their encoding names as a destination (R44). -/
def keepsRegisters (i : Instr) : Bool :=
  keepsMemory i ||
    match i with
    | .st _ _ _ _ | .ldf _ _ _ _ | .ldfe _ _ _ _ | .stef _ _ _ _ | .stf _ _ _ _ | .feclr _ _ | .feget _ _ _ | .feset _ _
    | .amoAdd _ _ _ _ _ _ | .amoAnd _ _ _ _ _ _ | .amoOr _ _ _ _ _ _ | .amoXor _ _ _ _ _ _ | .amoSmin _ _ _ _ _ _
    | .amoSmax _ _ _ _ _ _ | .amoNmin _ _ _ _ _ _ | .amoNmax _ _ _ _ _ _ | .amoSwap _ _ _ _ _ _
    | .amoFadd _ _ _ _ _ _ | .cas _ _ _ _ _ _ | .fence _ _ _ _ | .cmoClean _ _ _ _ | .cmoInval _ _ _ _
    | .cmoFlush _ _ _ _ | .bcfg _ _ _ | .vst _ _ _ _ | .vstStr _ _ _ _ _ | .vstt _ _ _ _ | .vsct _ _ _ _ _ _
    | .cpyc _ _ _ | .rgnDef _ _ _ | .ici _ _ _ | .mbox _ _ _ => true
    | _ => false

end Sys2Proof.Machine
end

