-- ==== Sys2Proof/Certificates/Slice0/Obligations.lean ====
section
/-! DEFINITION. The statements for the provers. -/

open Sys2Proof Sys2Proof.Machine

/-- R154: what each IALU function with two operands writes, one cycle later, at either width; no flag is set. -/
def Obligations.IntegerArithmeticResults : Prop :=
  IntRule .add 1 (fun _ a b => a + b) ∧
  IntRule .sub 1 (fun _ a b => a - b) ∧
  IntRule .and 1 (fun _ a b => a &&& b) ∧
  IntRule .or 1 (fun _ a b => a ||| b) ∧
  IntRule .xor 1 (fun _ a b => a ^^^ b) ∧
  IntRule .andn 1 (fun _ a b => a &&& ~~~b) ∧
  IntRule .shl 1 (fun n a b => a <<< (b.toNat % n)) ∧
  IntRule .shr 1 (fun n a b => a >>> (b.toNat % n)) ∧
  IntRule .sar 1 (fun n a b => a.sshiftRight (b.toNat % n)) ∧
  IntRule .rol 1 (fun n a b => a.rotateLeft (b.toNat % n)) ∧
  IntRule .min 1 (fun _ a b => if a.toInt ≤ b.toInt then a else b) ∧
  IntRule .max 1 (fun _ a b => if b.toInt ≤ a.toInt then a else b) ∧
  IntRule .minn 1 (fun _ a b => if a.toNat ≤ b.toNat then a else b) ∧
  IntRule .maxn 1 (fun _ a b => if b.toNat ≤ a.toNat then a else b) ∧
  IntRule .shadd1 1 (fun _ a b => a <<< 1 + b) ∧
  IntRule .shadd2 1 (fun _ a b => a <<< 2 + b) ∧
  IntRule .shadd3 1 (fun _ a b => a <<< 3 + b) ∧
  (∀ rd rb w s, ScalarResult (.mov rd (.reg rb w)) { Uses.none with sr := [rb] } rd s
    (if w then ((s.regVal rb).setWidth 32).signExtend 64 else s.regVal rb) fNone 1) ∧
  (∀ rd k s, ScalarResult (.mov rd (.imm k)) Uses.none rd s (k.signExtend 64) fNone 1)

/-- R155: a comparison writes 1 where its relation holds and 0 otherwise, at either width; no flag is set. -/
def Obligations.IntegerComparisonResults : Prop :=
  IntRule .cmpEq 1 (fun n a b => if a = b then 1#n else 0#n) ∧
  IntRule .cmpNe 1 (fun n a b => if a = b then 0#n else 1#n) ∧
  IntRule .cmpLt 1 (fun n a b => if a.toInt < b.toInt then 1#n else 0#n) ∧
  IntRule .cmpLtn 1 (fun n a b => if a.toNat < b.toNat then 1#n else 0#n) ∧
  IntRule .cmpLe 1 (fun n a b => if a.toInt ≤ b.toInt then 1#n else 0#n) ∧
  IntRule .cmpLen 1 (fun n a b => if a.toNat ≤ b.toNat then 1#n else 0#n) ∧
  IntRule .cmpGt 1 (fun n a b => if b.toInt < a.toInt then 1#n else 0#n) ∧
  IntRule .cmpGtn 1 (fun n a b => if b.toNat < a.toNat then 1#n else 0#n)

/-- R156, R157: the halves of the exact product, after 3 cycles; quotient and remainder, after 16; a zero divisor gives all
ones and the dividend and sets IDZ, or traps where EIDZ = 1, and the most negative number by −1 gives itself and 0. -/
def Obligations.MultiplicationAndDivisionResults : Prop :=
  (IntRule .mul 3 (fun n a b => BitVec.ofNat n (a.toNat * b.toNat)) ∧
   IntRule .mulhs 3 (fun n a b => BitVec.ofInt n (a.toInt * b.toInt / 2 ^ n)) ∧
   IntRule .mulhn 3 (fun n a b => BitVec.ofNat n (a.toNat * b.toNat / 2 ^ n)) ∧
   IntRule .mulhsn 3 (fun n a b => BitVec.ofInt n (a.toInt * (b.toNat : Int) / 2 ^ n))) ∧
  (IntRule .divs 16 (fun n a b => if b = 0#n then BitVec.allOnes n else BitVec.ofInt n (a.toInt.tdiv b.toInt))
     (fun n b => if b = 0#n then fIDZ else fNone) ∧
   IntRule .divn 16 (fun n a b => if b = 0#n then BitVec.allOnes n else BitVec.ofNat n (a.toNat / b.toNat))
     (fun n b => if b = 0#n then fIDZ else fNone) ∧
   IntRule .rems 16 (fun n a b => if b = 0#n then a else BitVec.ofInt n (a.toInt - b.toInt * a.toInt.tdiv b.toInt))
     (fun n b => if b = 0#n then fIDZ else fNone) ∧
   IntRule .remn 16 (fun n a b => if b = 0#n then a else BitVec.ofNat n (a.toNat - b.toNat * (a.toNat / b.toNat)))
     (fun n b => if b = 0#n then fIDZ else fNone) ∧
   ZeroDivisorTrap .divs ∧ ZeroDivisorTrap .divn ∧ ZeroDivisorTrap .rems ∧ ZeroDivisorTrap .remn)

/-- R158: the one-operand integer functions, at either width, one cycle later; the I = 1 form is 64 bits wide and sets W. -/
def Obligations.IntegerUnaryResults : Prop :=
  UnaryRule .clz (fun n a => BitVec.ofNat n (((List.range n).find? a.getMsbD).getD n)) ∧
  UnaryRule .ctz (fun n a => BitVec.ofNat n (((List.range n).find? a.getLsbD).getD n)) ∧
  UnaryRule .popc (fun n a => BitVec.ofNat n ((List.range n).countP a.getLsbD)) ∧
  UnaryRule .not (fun _ a => ~~~a) ∧
  UnaryRule .neg (fun n a => 0#n - a) ∧
  UnaryRule .bswap (fun n a => BitVec.ofNat n
    (leVal ((List.range (n / 8)).map fun i => a.extractLsb' (n - 8 - 8 * i) 8))) ∧
  UnaryRule .sexb (fun n a => (a.setWidth 8).signExtend n) ∧
  UnaryRule .sexh (fun n a => (a.setWidth 16).signExtend n) ∧
  UnaryRule .sexw (fun n a => (a.setWidth 32).signExtend n) ∧
  UnaryRule .zexb (fun n a => (a.setWidth 8).setWidth n) ∧
  UnaryRule .zexh (fun n a => (a.setWidth 16).setWidth n) ∧
  UnaryRule .zexw (fun n a => (a.setWidth 32).setWidth n)

/-- R159, R160: a bit field of length len1 + 1 at pos, cut at bit 63 with W, extracted or inserted; and the selection. -/
def Obligations.BitFieldAndSelectResults : Prop :=
  (∀ rd ra sgn (len1 pos : BitVec 6) s,
    let cut : Bool := decide (64 < pos.toNat + (len1.toNat + 1))
    let w := if cut then 64 - pos.toNat else len1.toNat + 1
    let f := (s.regVal ra).extractLsb' pos.toNat w
    ScalarResult (.bfx rd ra sgn len1 pos) { Uses.none with sr := [ra] } rd s
      (if sgn then f.signExtend 64 else f.setWidth 64) (if cut then fW else fNone) 1) ∧
  (∀ rd ra (len1 pos : BitVec 6) s,
    let cut : Bool := decide (64 < pos.toNat + (len1.toNat + 1))
    let w := if cut then 64 - pos.toNat else len1.toNat + 1
    ∃ v : W64, (∀ i < 64, v.getLsbD i =
        if pos.toNat ≤ i ∧ i < pos.toNat + w then (s.regVal ra).getLsbD (i - pos.toNat) else (s.regVal rd).getLsbD i) ∧
      ScalarResult (.bfi rd ra len1 pos) { Uses.none with sr := [rd, ra] } rd s v (if cut then fW else fNone) 1) ∧
  (∀ rd ra rb rc s, ScalarResult (.sel rd ra rb rc) { Uses.none with sr := [ra, rb, rc] } rd s
    (if s.regVal rc = 0#64 then s.regVal rb else s.regVal ra) fNone 1)

/-- R53, R62, R161 to R163: the f32 arithmetic, after 4 cycles, or 12 for the quotient and the root, under the rounding mode of the
instruction.  That FABS, FNEG, FCPSGN, FMIN and FMAX, which do not round, set W for N = 1 with a mode is DEDUCED (log entry 55). -/
def Obligations.FloatingArithmeticResults : Prop :=
  ∀ rd ra rb rc r s,
    let m := if r.rm = 0#2 then (if r.n then RMode.rne else s.fmode) else RMode.ofBits r.rm
    let a := (s.regVal ra).toNat % 2 ^ 32
    let b := (s.regVal rb).toNat % 2 ^ 32
    let c := (s.regVal rc).toNat % 2 ^ 32
    FloatRule (.fadd rd ra rb r) [ra, rb] rd r s (fAdd .f32 m a b) 4 ∧
    FloatRule (.fsub rd ra rb r) [ra, rb] rd r s (fSub .f32 m a b) 4 ∧
    FloatRule (.fmul rd ra rb r) [ra, rb] rd r s (fMul .f32 m a b) 4 ∧
    FloatRule (.fdiv rd ra rb r) [ra, rb] rd r s (fDiv .f32 m a b) 12 ∧
    FloatRule (.fmin rd ra rb r) [ra, rb] rd r s (fMinMax .f32 false a b) 4 ∧
    FloatRule (.fmax rd ra rb r) [ra, rb] rd r s (fMinMax .f32 true a b) 4 ∧
    FloatRule (.fsqrt rd ra r) [ra] rd r s (fSqrt .f32 m a) 12 ∧
    FloatRule (.ffma rd ra rb rc r) [ra, rb, rc] rd r s (fMa .f32 m false a b c) 4 ∧
    FloatRule (.fnma rd ra rb rc r) [ra, rb, rc] rd r s (fMa .f32 m true a b c) 4 ∧
    FloatRule (.fabs rd ra r) [ra] rd r s (a % 2 ^ 31, fNone) 4 ∧
    FloatRule (.fneg rd ra r) [ra] rd r s ((a + 2 ^ 31) % 2 ^ 32, fNone) 4 ∧
    FloatRule (.fcpsgn rd ra rb r) [ra, rb] rd r s (a % 2 ^ 31 + b / 2 ^ 31 * 2 ^ 31, fNone) 4

/-- R53, R62, R164 to R166: the f32 comparisons, conversions and the class, after 4 cycles.  That BF2F, H2F and FCLS, which do not round,
set W for N = 1 with a mode is DEDUCED (log entry 55). -/
def Obligations.FloatingComparisonAndConversionResults : Prop :=
  ∀ rd ra rb w r s,
    let m := if r.rm = 0#2 then (if r.n then RMode.rne else s.fmode) else RMode.ofBits r.rm
    let a := (s.regVal ra).toNat % 2 ^ 32
    let b := (s.regVal rb).toNat % 2 ^ 32
    let h := (s.regVal ra).toNat % 2 ^ 16
    let i : Int := if w then ((s.regVal ra).setWidth 32).toInt else (s.regVal ra).toInt
    let n : Int := if w then (((s.regVal ra).setWidth 32).toNat : Int) else ((s.regVal ra).toNat : Int)
    let cmp (k : Rel) (x : Instr) : Prop := ScalarResult x { Uses.none with sr := [ra, rb] } rd s
      (if (fCmp .f32 k a b).1 then 1#64 else 0#64) (fCmp .f32 k a b).2 4
    cmp .eq (.fcmpEq rd ra rb) ∧ cmp .lt (.fcmpLt rd ra rb) ∧ cmp .le (.fcmpLe rd ra rb) ∧ cmp .un (.fcmpUn rd ra rb) ∧
    FloatRule (.i2f rd ra w r) [ra] rd r s (FF.f32.round m (Dy.ofInt i)) 4 ∧
    FloatRule (.n2f rd ra w r) [ra] rd r s (FF.f32.round m (Dy.ofInt n)) 4 ∧
    (let x := convInt .f32 m (if w then -2 ^ 31 else -2 ^ 63) (if w then 2 ^ 31 - 1 else 2 ^ 63 - 1) a
     ScalarResult (.f2i rd ra w r) { Uses.none with sr := [ra] } rd s (BitVec.ofInt 64 x.1)
      (x.2 ||| (if r.n && r.rm != 0#2 then fW else fNone)) 4) ∧
    (let x := convInt .f32 m 0 (if w then 2 ^ 32 - 1 else 2 ^ 64 - 1) a
     ScalarResult (.f2n rd ra w r) { Uses.none with sr := [ra] } rd s (BitVec.ofInt 64 x.1)
      (x.2 ||| (if r.n && r.rm != 0#2 then fW else fNone)) 4) ∧
    FloatRule (.f2bf rd ra r) [ra] rd r s (convF .f32 .bf16 m a) 4 ∧
    FloatRule (.bf2f rd ra r) [ra] rd r s (convF .bf16 .f32 .rne h) 4 ∧
    FloatRule (.f2h rd ra r) [ra] rd r s (convF .f32 .f16 m a) 4 ∧
    FloatRule (.h2f rd ra r) [ra] rd r s (convF .f16 .f32 .rne h) 4 ∧
    FloatRule (.fcls rd ra r) [ra] rd r s (fClass .f32 a, fNone) 4

/-- R153, R58, R129: LI, LIH and ADDI take the immediate, the lone literal, or the literal below a pending extension; LIH
takes no extension.  The result lands one cycle later.  CNOP and NOP do nothing but let the thread go on; EXT records its
literal as the pending extension. -/
def Obligations.ConstantsAndExtension : Prop :=
  (∀ (h : Hdr) (rd ra : SReg) (imm : BitVec 12) (s : State), s.Stands → InBudget s → SInOrder s rd 1 →
     let x : W64 := match h.lit with
       | none => imm.signExtend 64
       | some k => k.signExtend 64
     let y : W64 := match h.lit, s.me.kext with
       | some k, some e => e ++ k
       | _, _ => x
     let ext : ExtUse := if h.lit.isSome then .takes else .drops
     let next := s.me.pc + 8#64
     (Usable { Uses.none with sw := [rd] } s →
       exec (.li h rd imm) s = .next (commit (s.withScalar rd y 1) h ext false next)) ∧
     (Usable { Uses.none with sr := [ra], sw := [rd] } s →
       exec (.lih h rd ra imm) s = .next (commit (s.withScalar rd (x.setWidth 32 ++ (s.regVal ra).setWidth 32) 1) h .drops
         false next) ∧
       exec (.addi h rd ra imm) s = .next (commit (s.withScalar rd (s.regVal ra + y) 1) h ext false next))) ∧
  (∀ (h : Hdr) (s : State), s.Stands → InBudget s →
     exec .nop s = .next { s with cur := { s.cur with res := .committed } } ∧
     exec (.cnop h) s = .next (commit s h .drops h.lit.isSome (s.me.pc + 8#64)) ∧
     ∀ k, h.lit = some k → ∃ t, exec (.ext h) s = .next t ∧ t.cur.res = .committed ∧ t.me.kext = some k ∧
       t.me.pc = s.me.pc + 8#64 ∧ t.me.regs = s.me.regs ∧ t.mem = s.mem)

/-- R41, R43, R46, R58: what the commitment of a bundle changes: the PC and the pending extension, fst by the bundle's flags
and W, the stall, the count of bundles; no register and no byte of memory. -/
def Obligations.CommitmentEffect : Prop :=
  ∀ (s : State) (h : Hdr) (ext : ExtUse) (w : Bool) (next : W64), s.Stands → ∃ t, commit s h ext w next = t ∧
    t.cur = { s.cur with res := .committed } ∧
    t.me.pc = next ∧ t.me.kext = none ∧ t.me.hold = .none ∧ t.me.issues = s.me.issues + 1 ∧
    t.me.csr = { s.me.csr with fst := s.me.csr.fst ||| BitVec.setWidth 64 (s.cur.aFlags |||
      if w = true ∨ (s.me.kext.isSome = true ∧ ext ≠ .takes) then fW else fNone) } ∧
    (t.me.stall = none ↔ h.st = 0#3 ∨ s.dieAfter (dieOf s.cur.cid) (s.me.firstIssue s.now) (h.st.toNat + 1) ≤ s.now) ∧
    t.me.regs = s.me.regs ∧ t.me.flights = s.me.flights ∧ t.me.rstack = s.me.rstack ∧
    (∀ cid slot, (cid ≠ s.cur.cid ∨ slot ≠ s.cur.slot) → t.thread cid slot = s.thread cid slot) ∧
    t.mem = s.mem ∧ t.tags = s.tags ∧ t.reqs = s.reqs ∧ t.fams = s.fams ∧ t.parts = s.parts ∧ t.dev = s.dev ∧
    t.now = s.now

/-- R130: a branch that is taken goes forward by off bundles from the next bundle, and one that is not goes to the next
bundle; the conditions are those of the register's signed value or of its presence. -/
def Obligations.BranchTargets : Prop :=
  ∀ (h : Hdr) (ra : SReg) (off : BitVec 14) (s : State), s.Stands → InBudget s →
    let next := s.me.pc + 8#64
    let target := next + (off.setWidth 64 <<< 3)
    let go (w c : Bool) : State := commit s h .drops w (if c then target else next)
    let v := (s.regVal ra).toInt
    Usable Uses.none s →
    exec (.br h off) s = .next (go h.lit.isSome true) ∧
    (Usable { Uses.none with sr := [ra] } s →
      exec (.bcEqz h ra off) s = .next (go h.lit.isSome (decide (v = 0))) ∧
      exec (.bcNez h ra off) s = .next (go h.lit.isSome (decide (v ≠ 0))) ∧
      exec (.bcLtz h ra off) s = .next (go h.lit.isSome (decide (v < 0))) ∧
      exec (.bcGez h ra off) s = .next (go h.lit.isSome (decide (v ≥ 0))) ∧
      exec (.bcGtz h ra off) s = .next (go h.lit.isSome (decide (v > 0))) ∧
      exec (.bcLez h ra off) s = .next (go h.lit.isSome (decide (v ≤ 0)))) ∧
    (s.me.outside ra = false → ∀ c, s.me.cell ra = some c →
      exec (.bcFull h ra off) s = .next (go h.lit.isSome (c.pres && !c.pend)) ∧
      exec (.bcEmpty h ra off) s = .next (go h.lit.isSome (!(c.pres && !c.pend)))) ∧
    (s.me.outside ra = false → s.me.cell ra = none →
      exec (.bcFull h ra off) s = .next (go true true) ∧
      exec (.bcEmpty h ra off) s = .next (go true false))

/-- R19, R131, R132: BRX goes forward to the register's address; a call keeps the return address on top of the return
stack, and a return takes it from there.  The ninth entry spills the oldest into the call frame, below cfp, or traps where the frame has
no room; and a return with an empty stack and entries spilled holds its thread for the entry at cfp, and goes there. -/
def Obligations.CallsAndReturns : Prop :=
  ∀ (h : Hdr) (ra : SReg) (off : BitVec 14) (s : State), s.Stands → InBudget s →
    let next := s.me.pc + 8#64
    let a := s.regVal ra
    let pushed := s.updMe fun t => { t with rstack := next :: t.rstack }
    (Usable { Uses.none with sr := [ra] } s → a.toNat % 8 = 0 →
      (s.me.pc.toNat < a.toNat → exec (.brx h ra) s = .next (commit s h .drops h.lit.isSome a)) ∧
      (a.toNat ≤ s.me.pc.toNat → exec (.brx h ra) s = .next (s.takeTrap 6 0x09 0)) ∧
      (s.me.rstack.length < 8 → exec (.callx h ra) s = .next (commit pushed h .drops h.lit.isSome a))) ∧
    (Usable Uses.none s →
      (let target := match h.lit with
         | none => next + (off.setWidth 64 <<< 3)
         | some k => next + (k.signExtend 64 <<< 3)
       target.toNat % 8 = 0 → s.me.rstack.length < 8 →
         exec (.call h off) s = .next (commit pushed h .drops false target)) ∧
      (∀ r rest, s.me.rstack = r :: rest → r.toNat % 8 = 0 →
        ∃ t, exec (.ret h) s = .next t ∧ t.cur.res = .committed ∧ t.me.pc = r ∧ t.me.rstack = rest ∧
          t.me.regs = s.me.regs ∧ t.mem = s.mem) ∧
      (s.me.rstack = [] → s.me.depth = 0 → exec (.ret h) s = .next (s.takeTrap 6 0x0B 0)) ∧
      (∀ v, s.me.rstack = [] → s.me.depth ≠ 0 → s.me.hold = .done v → v.toNat % 8 = 0 →
        ∃ t, exec (.ret h) s = .next t ∧ t.cur.res = .committed ∧ t.me.pc = v ∧ t.me.rstack = [] ∧
          t.me.depth = s.me.depth - 1 ∧ t.me.csr.cfp = s.me.csr.cfp + 8#64 ∧ t.me.regs = s.me.regs ∧ t.mem = s.mem) ∧
      (∀ x s', s.me.rstack = [] → s.me.depth ≠ 0 → s.me.hold = .none → s.acqBlocked = false →
        access s s.me.csr.cfp 8 8 needLoad false = .ok (x, s') → s'.ownAtomic x 8 = false → s'.awayAt x.pa = none →
        s'.slotFor x (s'.myLevel x.va) 8 = true →
        s'.meets x (s'.myLevel x.va) true 8 0 = none →
        ∃ t q, exec (.ret h) s = .next t ∧ t.cur.res = .held ∧ q ∈ t.reqs ∧ t.me.hold = .busy q.tok ∧ q.who = s.meWho ∧
          q.kind = .value (BitVec.ofNat 64 (leVal (s'.forwarded x (s'.readAt s.cur.cid x (s'.myLevel x.va) 8).1))))) ∧
    (let target := next + (off.setWidth 64 <<< 3)
     let below := s.me.csr.cfp - 8#64
     Usable Uses.none s → h.lit = none → target.toNat % 8 = 0 → s.me.rstack.length = 8 →
      (s.me.csr.cfp.toNat < s.me.csr.cfl.toNat + 8 → exec (.call h off) s = .next (s.takeTrap 6 0x0C 0)) ∧
      (∀ x s', s.me.csr.cfl.toNat + 8 ≤ s.me.csr.cfp.toNat → s.acqBlocked = false →
        access s below 8 8 needStore false = .ok (x, s') → s.roHit x.va = false →
        s.portFree s.cur.cid [s.homeOf x.pa] = true →
        ∃ t q, exec (.call h off) s = .next t ∧ t.cur.res = .committed ∧ t.me.pc = target ∧
          t.me.rstack = next :: s.me.rstack.dropLast ∧ t.me.depth = s.me.depth + 1 ∧ t.me.csr.cfp = below ∧
          t.me.regs = s.me.regs ∧ q ∈ t.reqs ∧ q.kind = .store (s.me.rstack.getLastD 0#64) ∧ q.pa = x.pa ∧ q.n = 8 ∧
          q.who = s.meWho))

/-- R15, R17, R22, R39, R58, R146, R376, R377: TRAP takes the software cause 0xA0 + imm.  A trap of a walker halts its slot, with
the cause, the PC and the address kept; steward code enters its handler at tvec, whose first bundle waits for the results in
flight (R48), with no extension pending, or halts where a cause is being handled; and a thread at user level stops.  A register
outside its thread's window raises RSVREG, in either slot, and behind it a write to one that is not writable ROWRITE, as a write
to a read-only CSR does; the instructions and CSRs of the system raise PRIV at user level; and MBOX in another slot than the
walker's is ILLOP_C.  Two clauses are the model's choice: that the handler of steward code starts with no extension pending, the one
that was pending kept for ERET (log entry 63), and that PRIV comes ahead of a register outside the window or one that is not writable
in the same slot (log entry 32). -/
def Obligations.TrapEntry : Prop :=
  ∀ (s : State), s.Stands →
    (∀ h imm, InBudget s → Usable Uses.none s →
      exec (.trap h imm) s = .next (s.takeTrap 6 (0xA0 + imm.toNat) 0)) ∧
    (∀ h rd ra rb imm w,
      (s.me.outside rd = true ∨ s.me.outside ra = true ∨ s.me.outside rb = true →
        exec (.add rd ra (.reg rb w)) s = .next (s.takeTrap 3 0x05 0)) ∧
      (s.me.outside rd = false → s.me.outside ra = false → s.me.outside rb = false → s.me.readOnly rd = true →
        exec (.add rd ra (.reg rb w)) s = .next (s.takeTrap 3 0x06 0)) ∧
      (s.me.outside rd = true → exec (.li h rd imm) s = .next (s.takeTrap 2 0x04 0)) ∧
      (s.me.outside rd = false → s.me.readOnly rd = true → exec (.li h rd imm) s = .next (s.takeTrap 2 0x06 0))) ∧
    (∀ vd va vb (m : VMod), s.me.vn ≤ vd.toNat ∨ s.me.vn ≤ va.toNat ∨ s.me.vn ≤ vb.toNat →
      exec (.vadd vd va (.v vb) m) s = .next (s.takeTrap 3 0x05 0)) ∧
    (∀ h rd ra rb csr,
      (s.me.sys = false →
        (∀ i ∈ [Instr.eret h, .halt h, .tlbw h ra rb, .tlbi h ra rb, .mresResume h ra, .mresDiscard h ra,
            .mresMatrixReset h ra, .cmoInval h ra rb true], exec i s = .next (s.takeTrap 2 0x07 0)) ∧
        (csrSystem csr.toNat = true → ∀ i ∈ [Instr.csrr h rd csr, .csrw h rd ra csr, .csrs h rd ra csr],
          exec i s = .next (s.takeTrap 2 0x07 0))) ∧
      (csrSystem csr.toNat = false ∨ s.me.sys = true → csrReadOnly csr.toNat = true → s.me.outside ra = false →
        s.me.outside rd = false → s.me.readOnly rd = false →
        exec (.csrw h rd ra csr) s = .next (s.takeTrap 2 0x06 0) ∧
        (ra ≠ .zr → exec (.csrs h rd ra csr) s = .next (s.takeTrap 2 0x06 0))) ∧
      (s.cur.slot ≠ 16 → exec (.mbox h rd ra) s = .next (s.takeTrap 2 0x00 0))) ∧
    ∀ stage cause addr, ∃ t, s.takeTrap stage cause addr = t ∧ t.cur.res = .trapped stage ∧ t.mem = s.mem ∧
      t.me.regs = s.me.regs ∧
      (s.cur.slot = 16 → t.me.hold = .wait .halted ∧ t.me.csr.estat = BitVec.ofNat 64 (0x100 + cause) ∧
        t.me.csr.epc = s.me.pc ∧ t.me.csr.eaddr = BitVec.ofNat 64 addr) ∧
      (s.cur.slot ≠ 16 → s.me.sys = true → s.me.csr.estat.toNat % 256 = 0 →
        t.me.pc = s.myCore.tvec ∧ t.me.sys = true ∧ t.me.hold = .none ∧ t.me.stall = s.me.landsAt s.now ∧
        t.me.csr.estat = BitVec.ofNat 64 (0x100 + cause) ∧ t.me.csr.epc = s.me.pc ∧
        t.me.csr.eaddr = BitVec.ofNat 64 addr ∧ t.me.kext = none ∧ t.me.kextKept = s.me.kext) ∧
      (s.cur.slot ≠ 16 → s.me.sys = true → s.me.csr.estat.toNat % 256 ≠ 0 →
        t.me.hold = .wait .halted ∧ t.me.csr = s.me.csr) ∧
      (s.cur.slot ≠ 16 → s.me.sys = false → t.me.hold = .wait .stopped)

/-- R46, R48, R18, R36: a fixed-latency result lands in its register: a scalar register takes the value and is present, a
vector register and a mask take the bits of the result's mask, and m0 takes none; the flight is gone.  A stall count ends,
and the thread may be ready.  A shared value that arrives, with its writer's earlier accesses performed, stands in the family's
link buffer; one that comes from another core has released them: no line of its writer's L1 is dirty (R269). -/
def Obligations.TimedResultsLand : Prop :=
  (∀ (s : State) cid slot n (th : Thread) (f : Flight), s.evt = .fixedLatencyWriteback cid slot n → slot < 17 →
     s.thread cid slot = some th → th.flights.find? (fun f => f.n == n) = some f →
     ∃ t th', exec .fixedLatencyWriteback s = .next t ∧ t.thread cid slot = some th' ∧ (th.sh = 0 → t.mem = s.mem) ∧
       (∀ g ∈ th'.flights, g.n ≠ n) ∧
       (∀ k, f.dst = .s k → (th'.regs.s.get k.toFin).val = f.val.setWidth 64 ∧ (th'.regs.s.get k.toFin).pres = true ∧
         (∀ j, j ≠ k → th'.regs.s.get j.toFin = th.regs.s.get j.toFin) ∧ th'.regs.v = th.regs.v ∧ th'.regs.m = th.regs.m) ∧
       (∀ k, f.dst = .v k → (th'.regs.v.get k.toFin).pres = true ∧
         (∀ i < 4096, (th'.regs.v.get k.toFin).val.getLsbD i =
           if f.mask.getLsbD i then f.val.getLsbD i else (th.regs.v.get k.toFin).val.getLsbD i) ∧
         (∀ j, j ≠ k → th'.regs.v.get j.toFin = th.regs.v.get j.toFin) ∧ th'.regs.s = th.regs.s ∧ th'.regs.m = th.regs.m) ∧
       (∀ k, f.dst = .m k →
         (∀ i < 128, (th'.regs.m.get k.toFin).getLsbD i =
           if k ≠ 0#2 ∧ f.mask.getLsbD i = true then f.val.getLsbD i else (th.regs.m.get k.toFin).getLsbD i) ∧
         (∀ j, j ≠ k → th'.regs.m.get j.toFin = th.regs.m.get j.toFin) ∧ th'.regs.s = th.regs.s ∧ th'.regs.v = th.regs.v)) ∧
  (∀ (s : State) cid slot n (th : Thread), s.evt = .stallCountExpiry cid slot n → slot < 17 →
     s.thread cid slot = some th → th.stall = some n →
     ∃ t, exec .stallCountExpiry s = .next t ∧ t.thread cid slot = some { th with stall := none } ∧ t.mem = s.mem ∧
       ∀ c k, (c ≠ cid ∨ k ≠ slot) → t.thread c k = s.thread c k) ∧
  (∀ (s : State) fam member j v cid uid tok c (f : Family), s.evt = .registerWriteMessage fam member j v cid uid tok c →
     s.fam fam = some f → s.unperformed { cid := cid, slot := 0, uid := uid } (c != cid) tok = false →
     ∃ t f', exec .registerWriteMessage s = .next t ∧ t.fam fam = some f' ∧
       f'.links = f.links ++ [{ member := member, j := j, val := v, far := c != cid }] ∧ t.tags = s.tags ∧
       (c = cid → t.mem = s.mem) ∧ (c ≠ cid → ∀ l ∈ (t.core cid).l1, l.dirty = 0#32))

/-- R14, R20, R169, R202, R286: answers of requests.  A load's response writes its scalar register and sets its presence, lets its
held bundle go on with the value, or leaves in its vector registers the bits of its lanes and its flags in fst, while an enabled flag
makes the registers failed; an acknowledgement ends a store; an error response makes the destination failed, ends the
wait of a held bundle with its cause, or waits for the thread's next bundle.  Each ends its request. -/
def Obligations.AnswersArrive : Prop :=
  ∀ (s : State) tok (r : Req) (th : Thread), s.req tok = some r → (s.part r.part).away = false → r.who.slot < 17 →
    s.thread r.who.cid r.who.slot = some th → th.uid = r.who.uid →
    let closed (t : State) : Prop := ∃ q, t.req tok = some q ∧ q.st = .answered s.now
    (s.evt = .loadResponse tok → ∃ t th', exec .loadResponse s = .next t ∧ closed t ∧
      t.thread r.who.cid r.who.slot = some th' ∧
      (r.holds = true → th.hold = .busy tok → th'.hold = .done r.res) ∧
      (r.holds = false → ∀ n, r.dst = .s n → (th'.regs.s.get n.toFin).val = r.res ∧
        (th'.regs.s.get n.toFin).pres = true ∧ (th'.regs.s.get n.toFin).pend = false) ∧
      (r.holds = false → ∀ v k, r.dst = .v v k →
        (enabledFlag th.csr.fst r.flags = none → (r.vres.map (·.1)).Nodup →
          th'.csr.fst = th.csr.fst ||| r.flags.setWidth 64 ∧
          ∀ e ∈ r.vres, th'.regs.v.get e.1.toFin = VCell.full (mergeBits (th.regs.v.get e.1.toFin).val e.2.1 e.2.2)) ∧
        (∀ i, enabledFlag th.csr.fst r.flags = some i → ∀ j < k,
          (th'.regs.v.get (v + BitVec.ofNat 4 j).toFin).fail = some { cause := 0x10 + i, addr := 0 } ∧
          (th'.regs.v.get (v + BitVec.ofNat 4 j).toFin).pres = false))) ∧
    (s.evt = .storeAck tok → ∃ t, exec .storeAck s = .next t ∧ closed t ∧ t.mem = s.mem) ∧
    (s.evt = .errorResponse tok → ∀ f, r.err = some f → ∃ t th', exec .errorResponse s = .next t ∧ closed t ∧
      t.thread r.who.cid r.who.slot = some th' ∧ t.mem = s.mem ∧
      (r.holds = true → th.hold = .busy tok → th'.hold = .fail f) ∧
      (r.holds = false → ∀ n, r.dst = .s n → (th'.regs.s.get n.toFin).fail = some f ∧
        (th'.regs.s.get n.toFin).pres = false) ∧
      (r.holds = false → r.dst = .none → th'.errs = th.errs ++ [f]))

/-- R173 to R176, R184, R185, R308: full/empty accesses at their home.  With its condition met, LDF and GET leave the tag,
LDFE and CLR empty it, STEF, STF and SET fill it, and the two stores alone write the word, which takes their value; LDF and LDFE are
answered with the word, and GET with its tag.  After a change of a word its
oldest ready waiter is performed; a wait whose limit ends is withdrawn; a FIFO bank serves its oldest pop when it holds
enough bytes; a waking bank wakes; and the oldest write held for a version leaves the queue, and is performed where the version is free. -/
def Obligations.FullEmptyOperationsAndWaiters : Prop :=
  (∀ (s : State) (r : Req) op v at_, r.lvl = none → r.pa % 8 = 0 →
     let t := s.fePerform r op v at_
     (∀ w, w ≠ r.pa / 8 → (w ∈ t.tags ↔ w ∈ s.tags)) ∧
     (op = .ldf ∨ op = .get → t.tags = s.tags) ∧
     (op = .ldfe ∨ op = .clr → r.pa / 8 ∉ t.tags) ∧
     (op = .stef ∨ op = .stf ∨ op = .set → r.pa / 8 ∈ t.tags) ∧
     (op ≠ .stef → op ≠ .stf → t.mem = s.mem) ∧
     (op = .stef ∨ op = .stf → s.Sound → Memory.bytes t.mem r.pa 8 = toLe 8 v.toNat ∧
       ∀ a, (a < r.pa ∨ r.pa + 8 ≤ a) → Memory.get t.mem a = Memory.get s.mem a) ∧
     (s.req r.tok = some r → ∃ q, t.req r.tok = some q ∧ q.st = .performed ∧
       (op = .get → q.res = if r.pa / 8 ∈ s.tags then 1#64 else 0#64) ∧
       (op = .ldf ∨ op = .ldfe → q.res = BitVec.ofNat 64 (leVal (Memory.bytes s.mem r.pa 8))))) ∧
  (∀ (s : State),
     (∀ pa at_ r, s.evt = .feWaiterServed pa at_ →
       s.reqs.filter (fun r => r.st == .waiting && r.pa / 8 == pa / 8) = [r] → r.kind = .fe .ldfe 0#64 → r.lvl = none →
       pa / 8 ∈ s.tags → ∃ t, exec .feWaiterServed s = .next t ∧ pa / 8 ∉ t.tags ∧ t.mem = s.mem) ∧
     (∀ tok r, s.evt = .waitlimitExpiry tok → s.req tok = some r → r.st = .waiting →
       ∃ t, exec .waitlimitExpiry s = .next t ∧ t.req tok = none ∧ t.mem = s.mem ∧ t.tags = s.tags ∧
         ∀ th, s.thread r.who.cid r.who.slot = some th → th.uid = r.who.uid → th.hold = .busy tok →
           t.cur.res = .trapped 6) ∧
     (∀ c b r off, s.evt = .fifoWaitServed c b → s.fifoWaiters c b false = [r] → s.fifoWaiters c b true = [] →
       s.loc r.pa = .scratch c off → off / 0x8000 = b → r.kind = .pop → r.n ≤ ((s.core c).fifo b).length →
       ∃ t, exec .fifoWaitServed s = .next t ∧ t.mem = s.mem ∧
         (t.core c).fifo b = ((s.core c).fifo b).drop r.n) ∧
     (∀ cid b, s.evt = .bankWakeDone cid b → b < 32 → (∀ d ∈ s.agenda, d.what ≠ .bankWakeDone cid b) →
       ∃ t, exec .bankWakeDone s = .next t ∧ (t.core cid).waking.getLsbD b = false ∧
         (∀ i, i ≠ b → (t.core cid).waking.getLsbD i = (s.core cid).waking.getLsbD i) ∧ t.mem = s.mem) ∧
     (∀ pn tok rest, s.evt = .revstoreHoldRelease pn → (s.part pn).heldWrites = tok :: rest → s.outCore tok = none →
       (s.req tok = none → ∃ t, exec .revstoreHoldRelease s = .next t ∧ (t.part pn).heldWrites = rest ∧ t.mem = s.mem) ∧
       (∀ r v id, s.req tok = some r → r.st = .waiting → tok ∉ rest → r.kind = .store v → r.lvl = some id → r.l1 = false →
         r.n ∈ [1, 2, 4, 8] → r.pa % 64 + r.n ≤ 64 → s.homeCause r.who.cid r.own true r.pa r.n r.acc = none →
         s.storeFull r.part r.lvl r.pa = false →
         ∃ t, exec .revstoreHoldRelease s = .next t ∧ (t.part pn).heldWrites = rest ∧ t.mem = s.mem ∧
           t.bytesAt r.part r.lvl r.va r.pa r.n = toLe r.n v.toNat)))

/-- R172, R177 to R179, R202, R207, R208, R302, R355: a store that reaches its home, held back by nothing, writes its bytes there, and no
other byte changes; one that may stay in L1 leaves them in its line.  A load is answered with the bytes at its address, zero-extended or
sign-extended, those that L1 holds from there.  An atomic leaves its new value at its home, and is answered with the old one, in which the
bytes that its core's L1 holds dirty stand (the model's choice, log entry 14).  A vector load reads its lanes, and a vector store writes its
lanes, each at its own address. -/
def Obligations.StoresAndAtomicsArePerformed : Prop :=
  (∀ (s : State) tok (r : Req) v, s.evt = .homeRequest tok → s.req tok = some r → r.kind = .store v → r.lvl = none →
     s.keptFor r = none → s.Unhindered r →
     r.n ∈ [1, 2, 4, 8] → s.homeCause r.who.cid r.own true r.pa r.n r.acc = none → (∃ d, s.loc r.pa = .dram d) →
     s.Sound →
     (r.l1 = false ∨ (s.core r.who.cid).ways = [] →
       ∃ t, exec .homeRequest s = .next t ∧ Memory.bytes t.mem r.pa r.n = toLe r.n v.toNat ∧
         ∀ a, (a < r.pa ∨ r.pa + r.n ≤ a) → Memory.get t.mem a = Memory.get s.mem a) ∧
     (r.l1 = true → (s.core r.who.cid).ways ≠ [] → r.pa % r.n = 0 →
       ∃ t, exec .homeRequest s = .next t ∧ (t.core r.who.cid).l1Bytes r.pa r.n = toLe r.n v.toNat ∧
         ∀ a, a / 32 = r.pa / 32 → Memory.get t.mem a = Memory.get s.mem a)) ∧
  (∀ (s : State) tok (r : Req) sext, s.evt = .homeRequest tok → s.req tok = some r → r.kind = .load sext → r.lvl = none →
     s.keptFor r = none → s.Unhindered r →
     r.n ∈ [1, 2, 4, 8] → r.pa % r.n = 0 → s.homeCause r.who.cid r.own true r.pa r.n r.acc = none → s.Sound →
     let c := s.core r.who.cid
     let seen (a : Nat) : Byte := match (if r.l1 = true ∧ c.ways ≠ [] then c.l1Line r.pa else none) with
       | some l => if l.valid.getLsbD (a % 32) then lineByte l (a % 32) else Memory.get s.mem a
       | none => Memory.get s.mem a
     let old := leVal ((List.range r.n).map fun k => seen (r.pa + k))
     ∃ t q, exec .homeRequest s = .next t ∧ t.req tok = some q ∧ q.st = .performed ∧
       q.res = (if sext then (BitVec.ofNat (8 * r.n) old).signExtend 64 else BitVec.ofNat 64 old) ∧
       (r.l1 = false → t.mem = s.mem)) ∧
  (∀ (s : State) tok (r : Req), s.evt = .homeRequest tok → s.req tok = some r → r.lvl = none → s.keptFor r = none →
     s.Unhindered r → r.n = 4 ∨ r.n = 8 →
     s.homeCause r.who.cid r.own false r.pa r.n r.acc = none → (∃ d, s.loc r.pa = .dram d) → s.Sound →
     let mine (a : Nat) : Byte := match (if r.own then none else (s.core r.who.cid).l1Line r.pa) with
       | some l => if l.bad = false ∧ a / 32 = r.pa / 32 ∧ l.dirty.getLsbD (a % 32) = true then lineByte l (a % 32)
         else Memory.get s.mem a
       | none => Memory.get s.mem a
     let old := leVal ((List.range r.n).map fun k => mine (r.pa + k))
     let leaves (new : Nat) (sext : Bool) : Prop := ∃ t q, exec .homeRequest s = .next t ∧
       leVal (Memory.bytes t.mem r.pa r.n) = new % 2 ^ (8 * r.n) ∧
       (∀ a, (a < r.pa ∨ r.pa + r.n ≤ a) → Memory.get t.mem a = Memory.get s.mem a) ∧
       q ∈ t.reqs ∧ q.tok = tok ∧ q.st = .performed ∧
       q.res = if sext then (BitVec.ofNat (8 * r.n) old).signExtend 64 else BitVec.ofNat 64 old
     (∀ b, r.kind = .amo .add b → leaves (old + b.toNat) (r.n == 4)) ∧
     (∀ b, r.kind = .amo .swap b → leaves b.toNat (r.n == 4)) ∧
     let sg (x : Nat) : Int := (BitVec.ofNat (8 * r.n) x).toInt
     let m (b : W64) : Nat := b.toNat % 2 ^ (8 * r.n)
     (∀ b, r.kind = .amo .and b → leaves (old &&& b.toNat) (r.n == 4)) ∧
     (∀ b, r.kind = .amo .or b → leaves (old ||| b.toNat) (r.n == 4)) ∧
     (∀ b, r.kind = .amo .xor b → leaves (old ^^^ b.toNat) (r.n == 4)) ∧
     (∀ b, r.kind = .amo .smin b → leaves (if sg b.toNat < sg old then b.toNat else old) (r.n == 4)) ∧
     (∀ b, r.kind = .amo .smax b → leaves (if sg old < sg b.toNat then b.toNat else old) (r.n == 4)) ∧
     (∀ b, r.kind = .amo .nmin b → leaves (if m b < old then b.toNat else old) (r.n == 4)) ∧
     (∀ b, r.kind = .amo .nmax b → leaves (if old < m b then b.toNat else old) (r.n == 4)) ∧
     (∀ b, r.kind = .amo .fadd b → r.n = 4 → leaves (fAdd .f32 .rne old (m b)).1 false) ∧
     (∀ e b, r.kind = .cas e b → leaves (if old = e.toNat % 2 ^ (8 * r.n) then b.toNat else old) (r.n == 4))) ∧
  (∀ (s : State) tok (r : Req) us form (k : MWord) v count, s.evt = .homeRequest tok → s.req tok = some r →
     r.kind = .vload us form k → r.dst = .v v count → r.lvl = none → s.keptFor r = none → s.Unhindered r →
     r.lanes = us → r.parts = [] → r.got = [] → r.bad = none → (∀ u ∈ us, u.l1 = false ∧ s.awayAt u.pa = none) →
     s.unitsCause r us = none →
     ∃ t q, exec .homeRequest s = .next t ∧ t.req tok = some q ∧ q.st = .performed ∧ t.mem = s.mem ∧
       (q.vres, q.flags) = vresult form k v count (us.map fun u => (u, Memory.bytes s.mem u.pa u.n))) ∧
  (∀ (s : State) tok (r : Req) us, s.evt = .homeRequest tok → s.req tok = some r → r.kind = .vstore us → r.lvl = none →
     s.keptFor r = none → s.Unhindered r → r.lanes = us.map (·.1) → r.parts = [] → r.bad = none →
     (∀ u ∈ us, u.1.l1 = false ∧ s.awayAt u.1.pa = none) → s.unitsCause r (us.map (·.1)) = none → s.Sound →
     us.Pairwise (fun a b => a.1.pa + a.1.n ≤ b.1.pa ∨ b.1.pa + b.1.n ≤ a.1.pa) →
     ∃ t q, exec .homeRequest s = .next t ∧ t.req tok = some q ∧ q.st = .performed ∧
       (∀ u ∈ us, Memory.bytes t.mem u.1.pa u.1.n = toLe u.1.n u.2) ∧
       ∀ a, (∀ u ∈ us, a < u.1.pa ∨ u.1.pa + u.1.n ≤ a) → Memory.get t.mem a = Memory.get s.mem a)

/-- R14, R167, R172: a load whose address translates commits with a request for its bytes on the way, or answered by L1;
its destination awaits the value, and no byte of memory changes. -/
def Obligations.LoadsComplete : Prop :=
  ∀ (h : Hdr) (rd ra : SReg) (m : MemMod) (s s' : State) (x : Xl), s.Stands → InBudget s → s.me.hold = .none →
    Usable { Uses.none with sr := [ra], sw := [rd] } s → s.acqBlocked = false →
    let n := 2 ^ m.sz.toNat
    let va := s.regVal ra + s.disp h m.dsp n
    s.xlate s.cur.cid va.toNat n n needLoad (!s.me.sys) (s.cur.slot == 16) false = .ok x s' → wTrav x.w1 = false →
    s.inWindow x.pa n = false → s.portFree s.cur.cid [s.homeOf x.pa] = true →
    let done (i : Instr) (sext : Bool) : Prop := ∃ t q, exec i s = .next t ∧ t.cur.res = .committed ∧
      t.me.pc = s.me.pc + 8#64 ∧ t.mem = s.mem ∧ q ∈ t.reqs ∧ q.kind = .load sext ∧ q.pa = x.pa ∧ q.n = n ∧
      q.who = s.meWho ∧ q.dst = destOf rd ∧ q.acq = (m.ord != 0#2) ∧
      ∀ k, rd = .s k → (t.me.regs.s.get k.toFin).pres = false ∧ (t.me.regs.s.get k.toFin).pend = true
    done (.ld h rd ra m) false ∧ done (.lds h rd ra m) true

/-- R14, R167, R172: a store whose address translates commits with its value on the way to its home, or in L1; a store that
is no release changes no byte of memory before it reaches its home. -/
def Obligations.StoresComplete : Prop :=
  ∀ (h : Hdr) (rd ra : SReg) (m : MemMod) (s s' : State) (x : Xl), s.Stands → InBudget s → s.me.hold = .none →
    Usable { Uses.none with sr := [rd, ra] } s → s.acqBlocked = false →
    let n := 2 ^ m.sz.toNat
    let va := s.regVal ra + s.disp h m.dsp n
    s.xlate s.cur.cid va.toNat n n needStore (!s.me.sys) (s.cur.slot == 16) false = .ok x s' → wTrav x.w1 = false →
    s.inWindow x.pa n = false → s.roHit x.va = false →
    s.portFree s.cur.cid [s.homeOf x.pa] = true →
    ∃ t q, exec (.st h rd ra m) s = .next t ∧ t.cur.res = .committed ∧ q ∈ t.reqs ∧ q.kind = .store (s.regVal rd) ∧
      q.pa = x.pa ∧ q.n = n ∧ q.who = s.meWho ∧ q.rel = (m.ord != 0#2) ∧
      (m.ord = 0#2 → s.usesL1 x (s.myLevel x.va) = false → t.mem = s.mem ∧ t.me.pc = s.me.pc + 8#64)

/-- R173, R176: a full/empty or tag operation whose address translates holds its thread with its request on the way; once
the answer has come the bundle commits, and a loading form writes the answer. -/
def Obligations.FullEmptyAccessesComplete : Prop :=
  ∀ (h : Hdr) (rd ra : SReg) (m : FeMod) (s s' : State) (x : Xl), s.Stands → InBudget s → s.acqBlocked = false →
    let issues (i : Instr) (op : FeOp) (va v : W64) : Prop :=
      s.me.hold = .none →
      s.xlate s.cur.cid va.toNat 8 8 op.need (!s.me.sys) (s.cur.slot == 16) true = .ok x s' → wTrav x.w1 = false →
      s.roHit x.va = false → s.portFree s.cur.cid [s.homeOf x.pa] = true →
      ∃ t q, exec i s = .next t ∧ t.cur.res = .held ∧ q ∈ t.reqs ∧ q.kind = .fe op v ∧ q.pa = x.pa ∧ q.holds = true ∧
        q.who = s.meWho
    let ends (i : Instr) : Prop := ∀ v, s.me.hold = .done v → ∃ t, exec i s = .next t ∧ t.cur.res = .committed ∧
      t.me.pc = s.me.pc + 8#64 ∧ t.mem = s.mem
    let loads (i : Instr) : Prop := ∀ v k, s.me.hold = .done v → rd = .s k → ∃ t, exec i s = .next t ∧
      t.cur.res = .committed ∧ (t.me.regs.s.get k.toFin).val = v ∧ (t.me.regs.s.get k.toFin).pres = true ∧
      t.me.pc = s.me.pc + 8#64 ∧ (s.me.sh = 0 → t.mem = s.mem)
    let a := s.regVal ra + s.disp h m.dsp 8
    (Usable { Uses.none with sr := [ra], sw := [rd] } s →
      issues (.ldf h rd ra m) .ldf a 0#64 ∧ loads (.ldf h rd ra m) ∧
      issues (.ldfe h rd ra m) .ldfe a 0#64 ∧ loads (.ldfe h rd ra m) ∧
      issues (.feget h rd ra) .get (s.regVal ra) 0#64 ∧ loads (.feget h rd ra)) ∧
    (Usable { Uses.none with sr := [rd, ra] } s →
      issues (.stef h rd ra m) .stef a (s.regVal rd) ∧ ends (.stef h rd ra m) ∧
      issues (.stf h rd ra m) .stf a (s.regVal rd) ∧ ends (.stf h rd ra m)) ∧
    (Usable { Uses.none with sr := [ra] } s →
      issues (.feclr h ra) .clr (s.regVal ra) 0#64 ∧ ends (.feclr h ra) ∧
      issues (.feset h ra) .set (s.regVal ra) 0#64 ∧ ends (.feset h ra))

/-- R14, R177, R179: an atomic whose address translates commits with its request on the way, its destination, absent and pending,
awaiting the old value; one that is no release changes no byte of memory before it reaches its home. -/
def Obligations.AtomicsComplete : Prop :=
  ∀ (h : Hdr) (rd ra rb : SReg) (w : Bool) (od : BitVec 2) (s s' : State) (x : Xl), s.Stands → InBudget s →
    s.acqBlocked = false →
    let done (i : Instr) (kind : ReqKind) (n : Nat) : Prop :=
      s.xlate s.cur.cid (s.regVal ra).toNat n n needAtomic (!s.me.sys) (s.cur.slot == 16) true = .ok x s' →
      wTrav x.w1 = false → s.roHit x.va = false → s.portFree s.cur.cid [s.homeOf x.pa] = true →
      ∃ t q, exec i s = .next t ∧ t.cur.res = .committed ∧ q ∈ t.reqs ∧ q.kind = kind ∧ q.pa = x.pa ∧ q.n = n ∧
        q.who = s.meWho ∧ q.dst = destOf rd ∧ q.acq = od.getLsbD 0 ∧ q.rel = od.getLsbD 1 ∧ t.me.pc = s.me.pc + 8#64 ∧
        (∀ k, rd = .s k → (t.me.regs.s.get k.toFin).pres = false ∧ (t.me.regs.s.get k.toFin).pend = true) ∧
        (od.getLsbD 1 = false → t.mem = s.mem)
    let n := if w then 4 else 8
    let b := s.regVal rb
    (Usable { Uses.none with sr := [ra, rb], sw := [rd] } s →
      done (.amoAdd h rd ra rb w od) (.amo .add b) n ∧ done (.amoAnd h rd ra rb w od) (.amo .and b) n ∧
      done (.amoOr h rd ra rb w od) (.amo .or b) n ∧ done (.amoXor h rd ra rb w od) (.amo .xor b) n ∧
      done (.amoSmin h rd ra rb w od) (.amo .smin b) n ∧ done (.amoSmax h rd ra rb w od) (.amo .smax b) n ∧
      done (.amoNmin h rd ra rb w od) (.amo .nmin b) n ∧ done (.amoNmax h rd ra rb w od) (.amo .nmax b) n ∧
      done (.amoSwap h rd ra rb w od) (.amo .swap b) n ∧ done (.amoFadd h rd ra rb w od) (.amo .fadd b) 4) ∧
    (Usable { Uses.none with sr := [rd, ra, rb], sw := [rd] } s →
      done (.cas h rd ra rb w od) (.cas (s.regVal rd) b) n)

/-- R180 to R186: FENCE holds its thread until what comes before it is done, having cleaned the core's dirty lines where it
releases, and dropped its clean ones where it acquires; CMO cleans, discards or flushes the lines of its range, in L1 or at the
home slices, where none of these lines is refused and each of their homes has a free slot (R354); MOVB and SETB move their bytes and advance their registers, a fill byte following
the register that ra names; and BCFG puts the banks of its mask into the mode, zero: each holds its
thread; and each of these bundles, once its hold has ended, commits and changes nothing more. -/
def Obligations.OrderingAndBlockOperationsComplete : Prop :=
  ∀ (h : Hdr) (rd ra rb : SReg) (lb l2 : Bool) (sc : Scope) (od : BitVec 2) (s : State), s.Stands → InBudget s → s.Sound →
    s.acqBlocked = false →
    let cid := s.cur.cid
    let a := (s.regVal ra).toNat
    let n := (s.regVal rb).toNat
    let next := s.me.pc + 8#64
    let ends (i : Instr) : Prop :=
      ∀ v, v ≠ partVal → s.me.hold = .done v → exec i s = .next (commit s h .drops h.lit.isSome next)
    let none_ (i : Instr) : Prop := s.me.hold = .none → n = 0 → exec i s = .next (commit s h .drops h.lit.isSome next)
    let holds (i : Instr) (p : State → Prop) : Prop := ∃ t, exec i s = .next t ∧ t.cur.res = .held ∧ p t
    let onPage (nd : Need) (p : Xl → State → Prop) : Prop :=
      s.me.hold = .none → 0 < n → a % 65536 + n ≤ 65536 → 0x100000 ≤ a → inMesh a = false →
        ∀ x s', access s (s.regVal ra) 1 1 nd true = .ok (x, s') → p x s'
    let slots (s' : State) (size : Nat) (ls : List Nat) : Prop :=
      s'.portFree s'.cur.cid ((ls.map fun l => s'.homeOf (l * size)).eraseDups) = true
    let inL1 (x : Xl) (s' : State) (acc : Nat) : Prop :=
      let ls := ((s'.core cid).l1.filter fun l => l.over x.pa n && l.dirty != 0#32).map (·.line)
      s'.refusedLine x n 32 acc ls = none ∧ slots s' 32 ls ∧
        s'.spoiltLine s'.cur.cid (·.over x.pa n) = none ∧
        ((s'.core cid).l1.map (·.line)).Nodup
    let home (x : Xl) (s' t : State) : Prop := ∀ l ∈ (s'.core cid).l1, l.over x.pa n = true → ∀ k < 32,
      l.dirty.getLsbD k = true → Memory.get t.mem (l.line * 32 + k) = lineByte l k
    let atHome (x : Xl) (s' : State) (acc : Nat) : Prop :=
      let ls := (List.range (linesOf 256 x.pa n)).map (x.pa / 256 + ·)
      (∃ d, s'.loc x.pa = .dram d) ∧ s'.refusedLine x n 256 acc ls = none ∧ slots s' 256 ls
    (Usable Uses.none s →
      (∀ v, s.me.hold = .done v → exec (.fence h lb sc od) s = .next (commit s h .drops (h.lit.isSome || od == 0#2) next)) ∧
      (s.me.hold = .none → s.portFree cid [] = true → holds (.fence h lb sc od) fun t => ∃ q ∈ t.reqs,
        q.kind = .value 0#64 ∧ q.who = s.meWho ∧ q.acq = (od != 2#2) ∧ q.rel = (od != 1#2) ∧ q.all = lb ∧ q.wide = (sc != .core) ∧
        q.pod = (sc == .pod) ∧
        (q.rel = true → q.wide = true → s.spoiltLine cid (fun _ => true) = none → ∀ l ∈ t.myCore.l1, l.dirty = 0#32) ∧
        (t.req q.tok = some q → t.keptFor q = none → t.Unhindered q → Follows (.homeRequest q.tok) t fun u =>
          Follows (.loadResponse q.tok) u fun w => w.me.hold = .done 0#64 ∧
            (q.acq = true → q.wide = true → ∀ l ∈ w.myCore.l1, l.valid = l.dirty)))) ∧
    (Usable { Uses.none with sr := [ra, rb] } s →
      ends (.cmoClean h ra rb l2) ∧ none_ (.cmoClean h ra rb l2) ∧
      onPage needLoad (fun x s' =>
        (l2 = false → inL1 x s' 0 → holds (.cmoClean h ra rb l2) fun t =>
          (∀ l ∈ t.myCore.l1, l.over x.pa n = true → l.dirty = 0#32) ∧ home x s' t) ∧
        (l2 = true → atHome x s' 0 → holds (.cmoClean h ra rb l2) fun t =>
          t.mem = s'.mem ∧ ∀ l ∈ t.l2, l.over x.pa n = true → l.under = [])) ∧
      ends (.cmoFlush h ra rb l2) ∧ none_ (.cmoFlush h ra rb l2) ∧
      onPage needStore (fun x s' =>
        (l2 = false → inL1 x s' 1 → holds (.cmoFlush h ra rb l2) fun t =>
          (∀ l ∈ t.myCore.l1, l.over x.pa n = false) ∧ home x s' t) ∧
        (l2 = true → atHome x s' 1 → holds (.cmoFlush h ra rb l2) fun t =>
          t.mem = s'.mem ∧ ∀ l ∈ t.l2, l.over x.pa n = false)) ∧
      ((l2 = true → s.me.sys = true) → ends (.cmoInval h ra rb l2) ∧ none_ (.cmoInval h ra rb l2) ∧
        onPage needStore (fun x s' =>
          (l2 = false → slots s' 32 [] → holds (.cmoInval h ra rb l2) fun t => t.mem = s'.mem ∧ ∀ l ∈ t.myCore.l1, l.over x.pa n = false) ∧
          (l2 = true → atHome x s' 1 → holds (.cmoInval h ra rb l2) fun t => (∀ l ∈ t.l2, l.over x.pa n = false) ∧
            ∀ l c, s'.l2.filter (·.over x.pa n) = [l] → l.under = [c] → Memory.get t.mem c.1 = c.2)))) ∧
    (Usable { Uses.none with sr := [ra, rb] } s →
      (∀ v, s.me.hold = .done v → exec (.bcfg h ra rb) s = .next (commit s h .drops h.lit.isSome next)) ∧
      (let c := s.myCore
       let mode := (s.regVal rb).setWidth 2
       let turned (b : Nat) : Bool := (s.regVal ra).getLsbD b && c.bank b != mode
       s.me.hold = .none → a < 2 ^ 32 → n < 4 → (∀ b < 32, turned b = true → ∀ t ∈ c.tiles.toList, t.blocks b = false) →
        (∀ r ∈ s.reqs, r.st = .sent → ∀ b < 32, turned b = true → s.reqInBank cid b r = false) →
        (∀ b < 32, turned b = true → s.outInBank cid b = false) →
        (∀ l ∈ c.l1, l.way < 32 → turned l.way = true → l.spoilt = false) →
        holds (.bcfg h ra rb) fun t => ∀ b < 32, t.myCore.bank b = (if (s.regVal ra).getLsbD b then mode else c.bank b) ∧
          ((∀ b' < 32, turned b' = true → c.bank b' ≠ bankCache) → turned b = true →
            ∀ k < 0x8000, Memory.get t.mem (scratchPa cid (b * 0x8000) + k) = 0#8))) ∧
    (let goes (i : Instr) (fill : Option (Byte × Byte)) : Prop :=
      s.me.hold = .none → 0 < n →
        let m := moveGo fill (s.regVal rd) (s.regVal ra) (min (moveRate fill.isSome (s.regVal rd).toNat a n) n)
          { s := s, k := 0, lr := 0, lw := 0, stop := .none }
        m.stop = .none → m.k = n → holds i fun t => t.regVal rd = s.regVal rd + s.regVal rb ∧ t.regVal rb = 0#64 ∧
          (fill = none → t.regVal ra = s.regVal ra + s.regVal rb) ∧ (s.me.sh = 0 → t.mem = m.s.mem)
     rd ≠ .zr → rb ≠ .zr → rd ≠ rb →
      (ra ≠ .zr → rd ≠ ra → ra ≠ rb → Usable { Uses.none with sr := [rd, ra, rb], sw := [rd, ra, rb] } s →
        ends (.movb h rd ra rb) ∧ none_ (.movb h rd ra rb) ∧ goes (.movb h rd ra rb) none) ∧
      (Usable { Uses.none with sr := [rd, ra, rb], sw := [rd, rb] } s →
        ends (.setb h rd ra rb) ∧ none_ (.setb h rd ra rb) ∧ goes (.setb h rd ra rb) (some (s.fillOf rd ra rb))))

/-- R191: what each VALU function writes for its elements: their integer values wrapped to the width, saturated by VADDS and
VSUBS, or the rounded floating result; the bitwise functions and the shifts work on the bits. -/
def Obligations.VectorArithmeticResults : Prop :=
  let never : VTy → Bool := fun _ => false
  let bits (t : VTy) : VTy := match t with
    | .f32 => .n32
    | .bf16 | .f16 => .i16
    | t => t
  let flt (t : VTy) : Bool := t.ff.isSome
  let clamp (f : Int → Int → Int) (g : FF → RMode → Nat → Nat → Nat × Flags) (t : VTy) (m : RMode) (a b : Nat) :
      Nat × Flags :=
    match t.ff with
    | some k => g k m a b
    | none =>
      let v := f (VTy.int t a) (VTy.int t b)
      (wrapElem t.bits (max (VTy.lo t) (min (VTy.hi t) v)), if v < VTy.lo t ∨ VTy.hi t < v then fSAT else fNone)
  VecRule .vadd id never vLat (vNum (· + ·) fAdd) ∧
  VecRule .vsub id never vLat (vNum (· - ·) fSub) ∧
  VecRule .vmul id never vLat (vNum (· * ·) fMul) ∧
  VecRule .vdiv id never vLat (fun t m a b => match t.ff with
    | some k => fDiv k m a b
    | none => if b = 0 then (2 ^ t.bits - 1, fIDZ)
      else (wrapElem t.bits ((VTy.int t a).tdiv (VTy.int t b)), fNone)) ∧
  VecRule .vmin id never vLat (vNum min (fun k _ => fMinMax k false)) ∧
  VecRule .vmax id never vLat (vNum max (fun k _ => fMinMax k true)) ∧
  VecRule .vand id never (fun _ => 2) (vBit fun _ a b => a &&& b) ∧
  VecRule .vor id never (fun _ => 2) (vBit fun _ a b => a ||| b) ∧
  VecRule .vxor id never (fun _ => 2) (vBit fun _ a b => a ^^^ b) ∧
  VecRule .vshl bits flt (fun _ => 2) (vBit fun w a b => a <<< (b.toNat % w)) ∧
  VecRule .vshr bits flt (fun _ => 2) (vBit fun w a b => a >>> (b.toNat % w)) ∧
  VecRule .vsar bits flt (fun _ => 2) (vBit fun w a b => a.sshiftRight (b.toNat % w)) ∧
  VecRule .vadds id flt vLat (clamp (· + ·) fAdd) ∧
  VecRule .vsubs id flt vLat (clamp (· - ·) fSub) ∧
  VecRule .vabsd id never vLat (fun t m a b => match t.ff with
    | some _ => absdElem t m a b
    | none => (wrapElem t.bits |VTy.int t a - VTy.int t b|, fNone))

/-- R192, R193: the multiply-accumulates of vectors, 5 cycles later. -/
def Obligations.VectorMultiplyAddResults : Prop :=
  ∀ vd va b vc (m : VMod) s,
    let us := { binUses va b with vr := va :: vc :: (binUses va b).vr.tail }
    let ab (t : VTy) := List.zip (s.vA va t) (s.vB b t)
    let fma (neg : Bool) : List (Nat × Flags) := List.zipWith (fun x c => match m.ty.ff with
      | some k => fMa k s.fmode neg x.1 x.2 c
      | none => (wrapElem m.ty.bits ((if neg then -1 else 1) * (VTy.int m.ty x.1 * VTy.int m.ty x.2) + VTy.int m.ty c), fNone))
      (ab m.ty) (s.vA vc m.ty)
    let byte (x k : Nat) : Int := VTy.int (if m.ty = .n8 then .n8 else .i8) (x / 256 ^ k % 256)
    let ys := match b with
      | .v n => s.vA n .n32
      | .sc r => List.replicate 128 ((s.regVal r).toNat % 256 * 0x01010101)
    let dot := List.zipWith (fun x c => (wrapElem 32
        ((c : Int) + byte x.1 0 * byte x.2 0 + byte x.1 1 * byte x.2 1 + byte x.1 2 * byte x.2 2 + byte x.1 3 * byte x.2 3),
        fNone)) (List.zip (s.vA va .n32) ys) (s.vA vc .n32)
    VecResult (.vfma vd va b vc m) us vd m.msk s m.ty.bits (fma false) fNone 5 ∧
    VecResult (.vfnma vd va b vc m) us vd m.msk s m.ty.bits (fma true) fNone 5 ∧
    VecResult (.vdot4 vd va b vc m) us vd m.msk s 32 dot (if m.ty = .i8 ∨ m.ty = .n8 then fNone else fW) 5

/-- R194, R195: what the one-operand vector functions write, 8 cycles later.  The values of VEX2 and VLG2 within R195's bounds are the
model's approximations (DEDUCED, log entry 13). -/
def Obligations.VectorUnaryResults : Prop :=
  let bits (t : VTy) : VTy := match t with
    | .f32 => .n32
    | .bf16 | .f16 => .i16
    | t => t
  let flt (t : VTy) : VTy := if t.ff.isSome then t else .f32
  let flts (g : FF → RMode → Nat → Nat × Flags) (t : VTy) (m : RMode) (a : Nat) : Nat × Flags :=
    match t with
    | .bf16 => g .bf16 m a
    | .f16 => g .f16 m a
    | _ => g .f32 m a
  VecUnRule .vabs id (fun t _ a => match t.ff with
    | some _ => (a % 2 ^ (t.bits - 1), fNone)
    | none => (wrapElem t.bits |VTy.int t a|, fNone)) ∧
  VecUnRule .vneg id (fun t _ a => match t.ff with
    | some _ => ((a + 2 ^ (t.bits - 1)) % 2 ^ t.bits, fNone)
    | none => (wrapElem t.bits (0 - (a : Int)), fNone)) ∧
  VecUnRule .vsqrt flt (flts fSqrt) ∧ VecUnRule .vrcp flt (flts fRcp) ∧ VecUnRule .vrsq flt (flts fRsq) ∧
  VecUnRule .vex2 flt (flts fEx2) ∧ VecUnRule .vlg2 flt (flts fLg2) ∧
  VecUnRule .vmov id (fun _ _ a => (a, fNone)) ∧
  VecUnRule .vnot id (fun t _ a => ((~~~(BitVec.ofNat t.bits a)).toNat, fNone)) ∧
  VecUnRule .vclz bits (fun t _ a => (((List.range t.bits).find? fun i => a.testBit (t.bits - 1 - i)).getD t.bits, fNone)) ∧
  VecUnRule .vpopc bits (fun t _ a => ((List.range t.bits).countP a.testBit, fNone)) ∧
  VecUnRule .vrelu id (fun t _ a => match t.ff with
    | some k => if k.isNan a then (k.quiet a, if k.isSnan a then fNV else fNone)
      else (if 2 ^ (t.bits - 1) ≤ a then 0 else a, fNone)
    | none => (wrapElem t.bits (max 0 (VTy.int t a)), fNone))

/-- R196, R197: the comparisons of vectors and the selection. -/
def Obligations.VectorComparisonAndSelectResults : Prop :=
  VecCmpRule .vcmpEq (vRel (fun a b => decide (a = b)) .eq) ∧ VecCmpRule .vcmpNe (vRel (fun a b => decide (a ≠ b)) .ne) ∧
  VecCmpRule .vcmpLt (vRel (fun a b => decide (a < b)) .lt) ∧ VecCmpRule .vcmpLe (vRel (fun a b => decide (a ≤ b)) .le) ∧
  VecCmpRule .vcmpGt (vRel (fun a b => decide (a > b)) .gt) ∧ VecCmpRule .vcmpGe (vRel (fun a b => decide (a ≥ b)) .ge) ∧
  VecCmpRule .vcmpUn (vRel (fun _ _ => false) .un) ∧ VecCmpRule .vcmpOrd (vRel (fun _ _ => true) .ord) ∧
  ∀ vd va b mk (m : VMod) s,
    VecResult (.vsel vd va b mk m) { binUses va b with mr := [mk] } vd m.msk s m.ty.bits
      ((List.zip (s.vA va m.ty) (s.vB b m.ty)).mapIdx fun j x =>
        (if (s.maskVal mk).getLsbD (m.ty.bits * j / 32) then x.1 else x.2, fNone)) fNone 1

/-- R198: element j of a conversion is source element j converted, up to the smaller of the two counts, and then the zero
code, 4 cycles later; a target equal to the source copies the code. -/
def Obligations.VectorConversionResults : Prop :=
  ∀ vd va tc sb (m : VMod) s,
    let nt := 4096 / cvtBits tc
    let k := min m.ty.count nt
    (∃ r : List (Nat × Flags), r.length = nt ∧
      (∀ j < k, r[j]? = some (cvtElem tc m.ty s.fmode (elemAt (s.vecVal va) m.ty.bits j))) ∧
      (∀ j, k ≤ j → j < nt → r[j]? = some (if tc = .ds8 then 0x77 else 0, fNone)) ∧
      VecResult (.vcvt vd va tc sb m) { Uses.none with vr := [va] } vd m.msk s (cvtBits tc) r (if sb then fW else fNone) 4) ∧
    (∀ c mode a, (tc, m.ty) ∈ [(.f32, .f32), (.bf16, .bf16), (.f16, .f16), (.i32, .i32), (.n32, .n32), (.i16, .i16),
      (.i8, .i8), (.n8, .n8)] → c = cvtElem tc m.ty mode a → c = (a, fNone))

/-- R81, R199: reductions in the pairwise tree, and prefixes in ascending order. -/
def Obligations.VectorReductionResults : Prop :=
  VecRedRule .vredSum (fun _ => 0) (vNum (· + ·) fAdd) ∧
  VecRedRule .vredMin (fun t => match t with
    | .f32 => 0x7F800000
    | .bf16 => 0x7F80
    | .f16 => 0x7C00
    | t => (VTy.hi t).toNat) (vNum min (fun k _ => fMinMax k false)) ∧
  VecRedRule .vredMax (fun t => match t with
    | .f32 => 0xFF800000
    | .bf16 => 0xFF80
    | .f16 => 0xFC00
    | t => wrapElem t.bits (VTy.lo t)) (vNum max (fun k _ => fMinMax k true)) ∧
  VecRedRule .vredAnd (fun t => 2 ^ t.bits - 1) (vBit fun _ a b => a &&& b) ∧
  VecRedRule .vredOr (fun _ => 0) (vBit fun _ a b => a ||| b) ∧
  VecRedRule .vredXor (fun _ => 0) (vBit fun _ a b => a ^^^ b) ∧
  VecScanRule .vscanSum (vNum (· + ·) fAdd) ∧
  VecScanRule .vscanMax (vNum max (fun k _ => fMinMax k true))

/-- R200, R201: permutation, broadcast, the element numbers, and one element read or written; the mask functions, the count
of a mask's one bits and its lowest one bit. -/
def Obligations.ElementAndMaskResults : Prop :=
  (∀ vd va b rd rs rl (m : VMod) (ty : VTy) s,
     let n := m.ty.count
     let xs := s.vA va m.ty
     let e := (s.regVal rl).toNat % ty.count
     let x := elemAt (s.vecVal va) ty.bits e
     VecResult (.vperm vd va b m) (binUses va b) vd m.msk s m.ty.bits ((s.vB b m.ty).mapIdx fun j x =>
       (if n = 512 then xs.getD (256 * (j / 256) + x % 256) 0 else xs.getD (x % n) 0, fNone)) fNone 6 ∧
     VecResult (.vbcst vd rs m) { Uses.none with sr := [rs] } vd m.msk s m.ty.bits
       (List.replicate n ((s.regVal rs).toNat % 2 ^ m.ty.bits, fNone)) fNone 1 ∧
     VecResult (.viota vd m) Uses.none vd m.msk s m.ty.bits ((List.range n).map fun (j : Nat) =>
       (match m.ty.ff with
        | some k => (k.round .rne (Dy.ofInt (j : Nat))).1
        | none => j % 2 ^ m.ty.bits, fNone)) fNone 1 ∧
     ScalarResult (.vext rd va rl ty) { Uses.none with vr := [va], sr := [rl] } rd s
       (if ty.signed then (BitVec.ofNat ty.bits x).signExtend 64 else BitVec.ofNat 64 x) fNone 2 ∧
     (s.Stands → Usable { Uses.none with sr := [rs, rl], vr := [vd], vw := [vd] } s → InOrder s (.v vd) 2 →
       ∃ v k : VWord, exec (.vins vd rs rl ty) s = .next ((s.withFlight (.v vd) v k 2).aDone fNone) ∧
         ∀ i < 4096, k.getLsbD i = decide (ty.bits * e ≤ i ∧ i < ty.bits * (e + 1)) ∧
           (k.getLsbD i = true → v.getLsbD i = (s.regVal rs).getLsbD (i - ty.bits * e)))) ∧
  (∀ md ma mb rd s,
     let a := s.maskVal ma
     let b := s.maskVal mb
     MaskRule (.maluAnd md ma mb) [ma, mb] md s (a &&& b) ∧ MaskRule (.maluOr md ma mb) [ma, mb] md s (a ||| b) ∧
     MaskRule (.maluXor md ma mb) [ma, mb] md s (a ^^^ b) ∧ MaskRule (.maluAndn md ma mb) [ma, mb] md s (a &&& ~~~b) ∧
     MaskRule (.maluNot md ma) [ma] md s (~~~a) ∧ MaskRule (.maluSet md) [] md s (BitVec.allOnes 128) ∧
     MaskRule (.maluClr md) [] md s 0#128 ∧
     ScalarResult (.mpopCount rd ma) { Uses.none with mr := [ma] } rd s
       (BitVec.ofNat 64 ((List.range 128).countP a.getLsbD)) fNone 1 ∧
     ScalarResult (.mpopFirst rd ma) { Uses.none with mr := [ma] } rd s
       (BitVec.ofNat 64 (((List.range 128).find? a.getLsbD).getD 128)) fNone 1)

/-- R203, R207 to R210: a vector load whose units pass their checks commits with its request on the way. -/
def Obligations.VectorLoadsComplete : Prop :=
  ∀ (h : Hdr) (vd : VReg) (ra rb : SReg) (vi : VReg) (msk : MReg) (sz : GSize) (ty : VTy) (dest : MxDest) (el : MxElem)
    (s : State),
    let a := s.regVal ra
    let b := s.regVal rb
    let n := match sz with
      | .byte => 1
      | .half => 2
      | .word => 4
    let lanes := (List.range 128).filter fun i => (s.maskVal msk).getLsbD i
    (a.toNat % 4 = 0 → fifoWindow s a msk 0 = none →
      VecLoads (.vld h vd ra msk) { Uses.none with sr := [ra], vw := [vd], mr := [msk] } vd 1
        (laneUnits s msk vd a 4#64) .plain msk s) ∧
    (a.toNat % 4 = 0 → b.toNat % 4 = 0 →
      VecLoads (.vldStr h vd ra rb msk) { Uses.none with sr := [ra, rb], vw := [vd], mr := [msk] } vd 1
        (laneUnits s msk vd a b) .plain msk s) ∧
    (a.toNat % 4 = 0 → vd.toNat + 7 < s.me.vn →
      VecLoads (.vldt h vd ra msk) { Uses.none with sr := [ra], vw := eight vd, mr := [msk] } vd 8
        (blockPieces lanes vd a) .plain msk s) ∧
    VecLoads (.vgth h vd ra vi msk sz) { Uses.none with sr := [ra], vr := [vi], vw := [vd], mr := [msk] } vd 1
      (lanes.map fun i =>
        { va := a + ((s.vecVal vi).extractLsb' (32 * i) 32).signExtend 64, n := n, align := n, reg := vd, lo := 32 * i })
      .plain msk s ∧
    VecLoads (.vldm h vd ra rb msk dest el) { Uses.none with sr := [ra, rb], vw := [vd], mr := [msk] } vd 1
      (mxPieces vd a b el (if dest = .f32 then 128 else 256)) (.mx dest el) msk s ∧
    (s.Stands → InBudget s → Usable { Uses.none with sr := [ra, rb], vw := [vd], mr := [msk] } s → s.acqBlocked = false →
      s.myAccessesOut = false → a.toNat % 64 = 0 → a.toNat < 2 ^ 57 → b.toNat < 2 ^ 20 → ∀ bs e0 s' us e s'',
      rowBlocks (b.toNat + ty.count) a.toNat (b.toNat + ty.count) s = .ok (bs, e0, s') →
      vecAccess needLoad (bs.map (·.1)) s' = .ok (us, e, s'') →
      ∃ t q, exec (.vldx h vd ra rb msk ty) s = .next t ∧ t.cur.res = .committed ∧ t.me.pc = s.me.pc + 8#64 ∧
        t.mem = s.mem ∧ q ∈ t.reqs ∧ q.kind = .vload us (.tagged ty s.fmode b.toNat (bs.map (·.2))) (s.maskVal msk) ∧
        q.dst = .v vd 1 ∧ q.who = s.meWho)

/-- R203, R207, R208: a vector store whose units pass their checks commits with its request on the way. -/
def Obligations.VectorStoresComplete : Prop :=
  ∀ (h : Hdr) (vd : VReg) (ra rb : SReg) (vi : VReg) (msk : MReg) (sz : GSize) (s : State),
    let a := s.regVal ra
    let b := s.regVal rb
    let n := match sz with
      | .byte => 1
      | .half => 2
      | .word => 4
    let lanes := (List.range 128).filter fun i => (s.maskVal msk).getLsbD i
    let val (p : Piece) : Piece × Nat := (p, ((s.vecVal p.reg).extractLsb' p.lo 32).toNat)
    (a.toNat % 4 = 0 → fifoWindow s a msk 1 = none →
      VecStores (.vst h vd ra msk) { Uses.none with sr := [ra], vr := [vd], mr := [msk] }
        ((laneUnits s msk vd a 4#64).map val) s) ∧
    (a.toNat % 4 = 0 → b.toNat % 4 = 0 →
      VecStores (.vstStr h vd ra rb msk) { Uses.none with sr := [ra, rb], vr := [vd], mr := [msk] }
        ((laneUnits s msk vd a b).map val) s) ∧
    (a.toNat % 4 = 0 → vd.toNat + 7 < s.me.vn →
      VecStores (.vstt h vd ra msk) { Uses.none with sr := [ra], vr := eight vd, mr := [msk] }
        ((blockPieces lanes vd a).map val) s) ∧
    VecStores (.vsct h vd ra vi msk sz) { Uses.none with sr := [ra], vr := [vd, vi], mr := [msk] }
      (lanes.map fun i => val
        { va := a + ((s.vecVal vi).extractLsb' (32 * i) 32).signExtend 64, n := n, align := n, reg := vd, lo := 32 * i }) s

/-- R16, R114, R117 to R119, R133, R134: a CREATE whose descriptor and place pass their checks, and whose members fit at once,
commits with the family running: its members dealt, its globals and initial values those of the creator's registers, whose globals
need not be present (DESIGN CHOICE, log entry 41); the family's identifier, of the lowest free entry of its first core, is on its way to
rd.  A family without members is done at once, and rd holds its identifier.  That the count in an identifier includes its own family is
the model's choice (log entry 83). -/
def Obligations.CreateCompletes : Prop :=
  ∀ (h : Hdr) (rd ra rb : SReg) (s s1 s2 : State) (bs bl : List Byte) (lim : Int), s.Stands → InBudget s →
    s.cur.slot ≠ 16 → s.me.hold = .none → s.acqBlocked = false → readNow s (s.regVal ra) 32 32 = .ok (bs, s1) →
    let w (i : Nat) : W64 := BitVec.ofNat 64 (leVal ((bs.drop (8 * i)).take 8))
    let d0 := Desc.parse (w 0) (w 1) (w 2) (w 3)
    let d := { d0 with limit := lim }
    let p := Place.parse (s.regVal rb) s.cur.cid
    let reads : List SReg := [ra, rb]
    (d0.ind = false ∧ lim = d0.limit ∧ s2 = s1) ∨
      (d0.ind = true ∧ readNow s1 (w 1) 8 8 = .ok (bl, s2) ∧ lim = (BitVec.ofNat 64 (leVal bl)).toInt) →
    Desc.reserved (w 2) (w 3) = false →
    (∀ j < d.s, (s.me.regs.s.get (BitVec.ofNat 4 (d.hsrc + j)).toFin).pend = false ∧
      s.cur.aDest ≠ some (.s (BitVec.ofNat 4 (d.hsrc + j)))) →
    (∀ wide, s.unperformed s.meWho wide s.ctr = false) → s2.spoiltLine s.cur.cid (fun _ => true) = none →
    let ok (rev det : Bool) (ctr : Option (Nat × Nat)) (i : Instr) : Prop :=
      d0.bad rev det p.fallback = false → s.badPlace (s.regVal rb) p (s.partNum s.cur.cid) det = false →
      (rev = true → (s.part (s.partNum s.cur.cid)).freeRev.isSome = true) →
      (d.count = 0 ∨ s.fits d (deals p.cores p.cyclic d.count) = true) →
      ∃ t f, exec i s = .next t ∧ t.cur.res = .committed ∧ t.me.pc = s.me.pc + 8#64 ∧ f ∈ t.fams ∧
        f.desc = d ∧ f.n = d.count ∧ f.det = det ∧ f.parentUid = s.me.uid ∧ f.ctr = ctr ∧
        f.globals = (List.range d.g).map (fun i => (s.me.regs.s.get (BitVec.ofNat 4 (d.gsrc + i)).toFin).val) ∧
        f.init = (List.range d.s).map (fun j => (s.me.regs.s.get (BitVec.ofNat 4 (d.hsrc + j)).toFin).val) ∧
        (d.count = 0 → f.st = .done ∧ f.id = inlineId (s.myCore.inlCount + 1#32) s.cur.cid ∧
          (det = false → ∀ k, rd = .s k → (t.me.regs.s.get k.toFin).val = f.id ∧ (t.me.regs.s.get k.toFin).pres = true)) ∧
        (0 < d.count → f.st = .running ∧ (det = false → f.uid ∈ t.me.kids) ∧
          f.cid = ((deals p.cores p.cyclic d.count).map (·.1)).headD 0 ∧ (s.core f.cid).freeEnt = some f.ent ∧
          f.id = famId ((s.core f.cid).gens.toList.getD f.ent 0#32 + 1#32) f.ent f.cid ∧
          (det = false → ∀ k, rd = .s k → (∃ q ∈ t.reqs, q.kind = .value f.id ∧ q.res = f.id ∧ q.dst = .s k ∧ q.who = s.meWho) ∧
            (t.me.regs.s.get k.toFin).pres = false ∧ (t.me.regs.s.get k.toFin).pend = true) ∧
          f.shares.map (fun x => (x.cid, x.live.length + x.left)) =
            (deals p.cores p.cyclic d.count).map (fun x => (x.1, x.2.2.2)))
    (Usable { Uses.none with sr := reads, sw := [rd] } s →
      ok false false none (.create h rd ra rb) ∧ ok true false none (.createRev h rd ra rb)) ∧
    (∀ x s3, Usable { Uses.none with sr := reads ++ [rd] } s →
      access s2 (s.regVal rd) 8 8 { needAtomic with tag := true } true = .ok (x, s3) →
      ok false true (some (x.va, x.pa)) (.createDet h rd ra rb false))

/-- R36, R122 to R124, R136, R137, R139, R140: SYNC waits for the family, and its bundle commits with the status in rd and the family's
final shareds in hsrc and the registers after it; KILL ends the family as killed; BREAK records the breaker's member and value, in the
place of those of a higher member, and leaves those of a lower one; and FSTAT reads the family's values. -/
def Obligations.FamilyInstructionsComplete : Prop :=
  ∀ (h : Hdr) (rd ra : SReg) (s : State) (f : Family), s.Stands → InBudget s → s.cur.slot ≠ 16 →
    let next := s.me.pc + 8#64
    (Usable { Uses.none with sr := [ra], sw := [rd] } s →
      (s.me.hold = .none → famOf s (s.regVal ra) false = .ok f →
        ∃ t, exec (.sync h rd ra) s = .next t ∧ t.cur.res = .held ∧ t.me.hold = .busy f.uid) ∧
      (∀ v, s.me.hold = .done v → s.fam v.toNat = some f →
        ∃ t g, exec (.sync h rd ra) s = .next t ∧ t.cur.res = .committed ∧ t.me.pc = next ∧ t.fam f.uid = some g ∧
          g.synced = true ∧ f.uid ∉ t.me.kids ∧
          (f.kind = .alloc → f.desc.hsrc + f.desc.s ≤ 16 → ∀ j < f.desc.s, ∀ x, f.finals[j]? = some x →
            let k := BitVec.ofNat 4 (f.desc.hsrc + j)
            rd ≠ .s k → (t.me.regs.s.get k.toFin).val = x ∧ (t.me.regs.s.get k.toFin).pres = true) ∧
          ∀ k, rd = .s k → (t.me.regs.s.get k.toFin).val = f.statusWord ∧ (t.me.regs.s.get k.toFin).pres = true) ∧
      (famOf s (s.regVal ra) true = .ok f →
        let reads (i : Instr) (v : W64) : Prop := ∃ t, exec i s = .next t ∧ t.cur.res = .committed ∧ t.me.pc = next ∧
          t.mem = s.mem ∧ t.fams = s.fams ∧
          ∀ k, rd = .s k → (∃ q ∈ t.reqs, q.kind = .value v ∧ q.res = v ∧ q.dst = .s k ∧ q.who = s.meWho) ∧
            (t.me.regs.s.get k.toFin).pend = true
        reads (.fstatStatus h rd ra) f.statusWord ∧
        reads (.fstatBval h rd ra) ((f.winner.map (·.2)).getD 0#64) ∧
        reads (.fstatBidx h rd ra) ((f.winner.map fun b => f.desc.index b.1).getD 0#64) ∧
        reads (.fstatReplay h rd ra) (BitVec.ofNat 64 f.replay))) ∧
    (Usable { Uses.none with sr := [ra] } s →
      (famOf s (s.regVal ra) false = .ok f → s.fam f.uid = some f → f.st.over = false → f.ended = .none →
        ∃ t g, exec (.kill h ra) s = .next t ∧ t.cur.res = .committed ∧ t.fam f.uid = some g ∧ g.ended = .killed) ∧
      (s.me.fam = some f.uid → s.fam f.uid = some f →
        (∀ k v, f.brk = some (k, v) → k ≤ s.me.member →
          exec (.breakFam h ra) s = .next (commit s h .drops h.lit.isSome next)) ∧
        (f.brk = none ∨ (∃ k v, f.brk = some (k, v) ∧ s.me.member < k) →
          ∃ t g, exec (.breakFam h ra) s = .next t ∧ t.cur.res = .committed ∧ t.fam f.uid = some g ∧
            g.brk = some (s.me.member, s.regVal ra))))

/-- R135, R138, R141 to R143: END, with nothing left to wait for, frees its slot; YIELD ends its slice and submits the record
at ra in its place; TRAVEL at home goes on, and elsewhere packs the thread and frees its slot. -/
def Obligations.ThreadEndsComplete : Prop :=
  ∀ (h : Hdr) (ra : SReg) (s : State), s.Stands → InBudget s → s.cur.slot ≠ 16 → s.me.kids = [] → s.pendingMe = false →
    s.acked = true → s.storesOut s.cur.cid = false → s.spoiltLine s.cur.cid (fun _ => true) = none →
    let out (t : State) : Prop := t.cur.res = .committed ∧ t.thread s.cur.cid s.cur.slot = none
    (Usable Uses.none s → s.me.held = [] → s.me.leftover = none → s.me.owes = false → s.me.inl = false →
      ∃ t, exec (.endThread h) s = .next t ∧ out t) ∧
    (Usable { Uses.none with sr := [ra] } s →
      (∀ f sl bs s2, s.me.fam.bind s.fam = some f → s.me.slice.bind s.slice = some sl → f.kind = .root →
        sl.st = .running → (s.regVal ra).toNat % 64 = 0 →
        (∀ g ∈ s.fams, g.slice = some sl.uid → g.uid ≠ f.uid → g.st.over = true ∧ g.ctr = none) →
        readNow (s.updSlice sl.uid fun x => { x with yielding := some s.me.uid }) (s.regVal ra) 64 64 = .ok (bs, s2) →
        ∃ t y z, exec (.yieldSlice h ra) s = .next t ∧ t.cur.res = .committed ∧
          t.slice sl.uid = some y ∧ y.st = .ended ∧ y.status = 2 ∧
          z ∈ t.slices ∧ z.ring = sl.ring ∧ z.index = sl.index ∧
          ∀ i < 8, z.words[i]? = some (BitVec.ofNat 64 (leVal ((bs.drop (8 * i)).take 8)))) ∧
      (∀ x s1, access s (s.regVal ra) 1 1 needLoad true = .ok (x, s1) → s1.mayTravel x.va = true →
        (s1.atHome x.pa = true → exec (.travel h ra) s = .next (commit s1 h .drops h.lit.isSome (s.me.pc + 8#64))) ∧
        (s1.atHome x.pa = false → (s1.homeDie x.pa).1 = s.dev.devid → s1.canLand x.pa = true →
          ∃ t v, exec (.travel h ra) s = .next t ∧ out t ∧ v ∈ t.travs ∧ v.pa = x.pa ∧ v.thread.pc = s.me.pc + 8#64 ∧
            v.thread.uid = s.me.uid)))

/-- R144, R145: BARCFG sets the count of its barrier; BAR counts an arrival and waits; the arrival that completes the count
resets the barrier and closes the phase, whose release lets each of its waiters go on. -/
def Obligations.BarriersComplete : Prop :=
  ∀ (h : Hdr) (ra : SReg) (sc : Scope) (id : BitVec 3) (s : State),
    let b := s.bar sc (s.barUnit sc s.cur.cid) id.toNat
    let go := commit s h .drops h.lit.isSome (s.me.pc + 8#64)
    (s.Stands → InBudget s → s.cur.slot ≠ 16 →
      (Usable { Uses.none with sr := [ra] } s → (s.regVal ra).toNat < 2 ^ 32 → b.arrived = 0 →
        exec (.barcfg h ra sc id) s = .next (go.setBar { b with count := (s.regVal ra).toNat })) ∧
      (Usable Uses.none s →
        (s.me.hold = .none → b.count ≠ 0 → s.unperformed s.meWho (sc != .core) s.ctr = false →
          (sc == .pod && s.unacknowledged s.meWho s.ctr) = false →
          sc = .core ∨ s.spoiltLine s.cur.cid (fun _ => true) = none →
          ∃ t, exec (.bar h sc id) s = .next t ∧ t.cur.res = .held ∧
            t.agenda.head? = some { at_ := s.now, what := .barrierArrival s.cur.cid s.cur.slot s.me.uid sc id }) ∧
        (∀ v, s.me.hold = .done v →
          exec (.bar h sc id) s = .next (if sc = .core then go else go.acquire go.meWho)))) ∧
    (∀ cid slot uid, s.evt = .barrierArrival cid slot uid sc id →
      let c := s.bar sc (s.barUnit sc cid) id.toNat
      let ws := c.waiters ++ [{ cid := cid, slot := slot, uid := uid }]
      ∃ t, exec .barrierArrival s = .next t ∧ t.mem = s.mem ∧
        (c.arrived + 1 < c.count → t.bar sc (s.barUnit sc cid) id.toNat = { c with arrived := c.arrived + 1, waiters := ws }) ∧
        (c.count ≤ c.arrived + 1 → t.bar sc (s.barUnit sc cid) id.toNat =
          { c with arrived := 0, waiters := [], phase := c.phase + 1, closed := c.closed ++ [(c.phase, ws)] })) ∧
    (∀ key phase c, s.evt = .barrierRelease key phase → (s.bars.find? fun b => b.key == key) = some c →
      ∃ t, exec .barrierRelease s = .next t ∧ t.mem = s.mem ∧
        ∀ ws w th tok, (c.closed.find? fun x => x.1 == phase) = some (phase, ws) → w ∈ ws → w.slot < 17 →
          s.thread w.cid w.slot = some th → th.uid = w.uid → th.hold = .busy tok →
          t.thread w.cid w.slot = some { th with hold := .done 0#64 })

/-- R37, R118, R120, R257, R258, R136: a member starts at its body with its index, its globals and its frame; an inline run
enters its next member, and restores its creator: from the bytes that the frame holds come back the PC, the CSRs, the return stack, the
scalar registers that were present and the vector window, and hsrc takes the finals and rd the family's identifier; a delegation is decided
and answered; and a SYNC's wait ends.  Where each stands in the frame is the model's layout (log entry 34). -/
def Obligations.MembersStart : Prop :=
  ∀ (s : State) cid slot, slot < 17 →
    (∀ fam k f, s.evt = .memberStart cid slot fam k → s.fam fam = some f → s.startable fam k cid = true →
      s.thread cid slot = none →
      ∃ t th, exec .memberStart s = .next t ∧ t.thread cid slot = some th ∧ th.fam = some fam ∧ th.member = k ∧
        th.ix = BitVec.ofInt 64 (f.desc.start + k * f.desc.step) ∧ th.pc = f.desc.body ∧ th.fd = f.id ∧ th.sys = false ∧
        th.g = f.desc.g ∧ th.sh = f.desc.s ∧ th.l = f.desc.l ∧ th.vn = f.desc.v ∧
        (∀ i : Fin 16, i.val < f.desc.g → th.regs.s.get i = SCell.full (f.globals.getD i.val 0#64)) ∧
        (∀ i : Fin 16, f.desc.g ≤ i.val → (th.regs.s.get i).pres = false) ∧
        (∀ i : Fin 8, k = 0 → i.val < f.desc.s → ∀ v, f.init[i.val]? = some v → th.regs.d.get i = SCell.full v) ∧
        th.csr.fst = 0#64 ∧ th.csr.fmode = f.start.fmode ∧ th.csr.wlim = f.start.wlim ∧ th.csr.chk = f.start.chk ∧
        th.csr.cfp = ((s.core cid).sfb + BitVec.ofNat 64 (slot + 1) * (s.core cid).sfs) &&& ~~~7#64) ∧
    (∀ r f, s.evt = .inlineMemberEntry cid slot → (s.core cid).runOf slot = some r → s.runStopped r = false →
      s.fam r.fam = some f → f.ended = .none →
      ∃ t th, exec .inlineMemberEntry s = .next t ∧ t.thread cid slot = some th ∧ th.inl = true ∧ th.member = r.next ∧
        th.ix = f.desc.index r.next ∧ th.pc = f.desc.body ∧ t.mem = s.mem) ∧
    (∀ r f bs s2, s.evt = .inlineRestore cid slot → (s.core cid).runOf slot = some r → s.runStopped r = false →
      s.fam r.fam = some f → (∀ x, r.creator.hold ≠ .fail x) → loadFrame (s.creatorBack cid slot r) r.frame (r.creator.frameSize / 32) = .ok (bs, s2) →
      ∃ t th g, exec .inlineRestore s = .next t ∧ t.thread cid slot = some th ∧ th.uid = r.creator.uid ∧ th.hold = .none ∧
        th.lastInline = some r.fam ∧ t.fam r.fam = some g ∧ g.st = .done ∧ t.cur = s.cur ∧
        (let w (o : Nat) : W64 := BitVec.ofNat 64 (leVal ((bs.drop o).take 8))
         let own (k : BitVec 4) : Prop := r.rd ≠ .s k ∧ ∀ j < f.desc.s, BitVec.ofNat 4 (f.desc.hsrc + j) ≠ k
         th.pc = w 136 &&& ~~~7#64 ∧ th.rstack = (List.range (min (w 288).toNat 8)).map (fun i => w (224 + 8 * i)) ∧
         th.depth = (w 296).toNat ∧ th.csr.ifp = BitVec.ofNat 64 (r.frame + r.creator.frameSize) ∧
         th.csr.fst = (w 144 &&& 0x3F00FF#64) ||| f.flags.zeroExtend 64 ∧ th.csr.fmode = w 152 &&& 3#64 ∧
         th.csr.wlim = w 160 &&& 0xFFFFFFFF#64 ∧ th.csr.chk = w 168 &&& 1#64 ∧
         (∀ k : BitVec 4, own k → r.saved.getLsbD k.toNat = true → (w 128).getLsbD k.toNat = true →
           th.regs.s.get k.toFin = SCell.full (w (8 * k.toNat))) ∧
         (∀ k : BitVec 4, k.toNat < r.creator.vn → r.savedV.getLsbD k.toNat = true →
           (th.regs.v.get k.toFin).val = BitVec.ofNat 4096 (leVal ((bs.drop (320 + 512 * k.toNat)).take 512))) ∧
         (f.desc.hsrc + f.desc.s ≤ 16 → ∀ j < f.desc.s, ∀ x, f.finals[j]? = some x →
           let k := BitVec.ofNat 4 (f.desc.hsrc + j)
           r.rd ≠ .s k → (th.regs.s.get k.toFin).val = x ∧ (th.regs.s.get k.toFin).pres = true) ∧
         ∀ k, r.rd = .s k → (th.regs.s.get k.toFin).val = f.id ∧ (th.regs.s.get k.toFin).pres = true)) ∧
    (∀ uid f, s.evt = .delegationRequest uid → s.fam uid = some f → f.st = .delegating →
      let yes := s.fits f.desc (deals f.place.dcores f.place.cyclic f.n)
      ∃ t, exec .delegationRequest s = .next t ∧ t.mem = s.mem ∧
        { at_ := s.now + s.ticks (dieOf f.parentCid) 20, what := .delegationAnswer uid yes } ∈ t.agenda ∧
        ∃ g, t.fam uid = some g ∧ g.st = if yes then .running else .delegating) ∧
    (∀ uid ok f th, s.evt = .delegationAnswer uid ok → s.fam uid = some f → f.parentCid = cid → f.parentSlot = slot →
      s.thread cid slot = some th → th.uid = f.parentUid → th.hold = .busy uid →
      ∃ t, exec .delegationAnswer s = .next t ∧ t.mem = s.mem ∧
        t.thread cid slot = some { th with hold := .done (BitVec.ofNat 64 (uid * 2 + if ok then 1 else 0)) }) ∧
    (∀ u f th, s.evt = .syncComplete cid slot u → s.fam u = some f → f.st.over = true → s.joinList f = [] →
      s.thread cid slot = some th → th.hold = .busy u →
      ∃ t, exec .syncComplete s = .next t ∧ t.mem = s.mem ∧
        t.thread cid slot = some { th with hold := .done (BitVec.ofNat 64 u) })

/-- R124, R134, R139, R348, R380, R385: a kill that reaches a core leaves it no thread of the family; a detached family's end
subtracts 1 from its counter, and fills its tag at 0; a merged block holds what its region's merge gives; a purged task
is dead, or waits for its replay, which starts it again. -/
def Obligations.FamiliesEnd : Prop :=
  ∀ (s : State), s.Sound →
    (∀ cid uid, s.evt = .killMessage cid uid → ∃ t, exec .killMessage s = .next t ∧
      ∀ slot th fam, t.thread cid slot = some th → th.fam = some fam → fam ∉ s.famsWithin fun x => x.uid == uid) ∧
    (∀ uid f va pa, s.evt = .detJoinDecrement uid → s.fam uid = some f → f.ctr = some (va, pa) → pa % 8 = 0 →
      (∃ d, s.loc pa = .dram d) → f.ran.any s.writesOut = false →
      let s0 := f.ran.foldl (fun s c => s.releaseLines c) s
      let v : W64 := BitVec.ofNat 64 (leVal (Memory.bytes s0.mem pa 8)) - 1#64
      ∃ t, exec .detJoinDecrement s = .next t ∧ Memory.bytes t.mem pa 8 = toLe 8 v.toNat ∧
        (v = 0#64 → pa / 8 ∈ t.tags) ∧ (v ≠ 0#64 → t.tags = s0.tags) ∧
        ∀ a, (a < pa ∨ pa + 8 ≤ a) → Memory.get t.mem a = Memory.get s0.mem a) ∧
    (∀ tok part j r g v rest, s.evt = .mergeBlock tok → s.join tok = some (part, j) → j.blocks = v :: rest →
      (s.part part).rev j.rev = some r → r.id = j.rev → r.region v.va = some g → g.merge ≠ 12 →
      (s.part part).level r.parent v.va = none → (∃ d, s.loc (v.blk * 64) = .dram d) →
      let a := bytesBlock ((List.range 64).map fun k => (s.part part).anc r.id (v.va + k) (v.blk * 64 + k))
      s.spoilt (v.blk * 64) 64 = false → a ≠ v.data → ∃ t, exec .mergeBlock s = .next t ∧
        Memory.bytes t.mem (v.blk * 64) 64 =
          toLe 64 (mergeBlockData g.merge g.elem a v.data (bytesBlock (Memory.bytes s.mem (v.blk * 64) 64))).toNat) ∧
    (∀ tok p u f, s.evt = .purgeComplete tok → (s.purges.find? fun p => p.tok == tok) = some p → p.fam = some u →
      s.fam u = some f → ∃ t g, exec .purgeComplete s = .next t ∧ t.fam u = some g ∧
        (p.replay = true → f.st = .purging → f.ended = .none → s.covered f = false → g.st = .replayWait) ∧
        (∀ cid slot th, t.thread cid slot = some th → th.fam ≠ some u) ∧
        (p.replay = false → s.covered f = false → (t.part f.part).dlcnt = (s.part f.part).dlcnt + 1#64)) ∧
    (∀ uid f, s.evt = .taskReplay uid → s.fam uid = some f → f.st = .replayWait → f.kind ≠ .inlined →
      (∀ x ∈ deals f.ranOn f.place.cyclic f.n, s.usable x.1 f.desc ≠ []) →
      ∃ t g, exec .taskReplay s = .next t ∧ t.mem = s.mem ∧ t.fam uid = some g ∧ g.st = .running ∧ g.replay = f.replay + 1)

/-- R321 to R329: a doorbell and a written tail have the ring's records copied; BASE and SIZE reset a ring; copying takes
each record from HEAD to TAIL; a ready slice whose root fits runs; its signal removes it; and a cancel ends it.
The 40 cycles before a copy are the model's choice within R321's bound (log entry 6). -/
def Obligations.SlicesAreServed : Prop :=
  ∀ (s : State) part k, k < 8 →
    let r := (s.part part).ring k
    let copies (t : State) : Prop := { at_ := s.now + 40, what := .sliceRecordCopy part k } ∈ t.agenda
    (s.evt = .doorbell part k → ∃ t, exec .doorbell s = .next t ∧ copies t ∧ t.parts = s.parts ∧ t.mem = s.mem) ∧
    (∀ v, s.evt = .tailLineWrite part k v → ∃ t, exec .tailLineWrite s = .next t ∧ copies t ∧ t.mem = s.mem ∧
      (t.part part).ring k = { r with tail := v.setWidth 32 }) ∧
    (∀ size v, s.evt = .ringReset part k size v → ∃ t, exec .ringReset s = .next t ∧
      (t.part part).ring k = { base := if size then r.base else v, size := if size then v else r.size, head := 0#32,
                               tail := 0#32, stopped := false, placed := true }) ∧
    (s.evt = .sliceRecordCopy part k → (s.part part).valid = true → r.stopped = false → r.placed = true → s.bad = [] →
      (r.tail - r.head).toNat ≤ 2 ^ r.size.toNat →
      ∃ t, exec .sliceRecordCopy s = .next t ∧ ((t.part part).ring k).head = r.tail ∧
        t.slices.length = s.slices.length + (r.tail - r.head).toNat) ∧
    (∀ sl rest d s', s.evt = .sliceDispatch part → s.dispatches (s.part part) = true → (s.part part).dispAt ≤ s.now →
      (s.slices.filter fun x => x.part == part && s.sliceReady x).foldl (fun acc x => insSlice x acc) [] = sl :: rest →
      s.readRoot (s.part part) sl = .ok d s' → 0 < d.count →
      (let p := Place.parse (sl.words.getD 1 0#64) 0
       s.fits d (deals p.cores p.cyclic d.count)) = true →
      ∃ t y, exec .sliceDispatch s = .next t ∧ t.slice sl.uid = some y ∧ y.st = .running ∧
        ∃ f ∈ t.fams, y.root = some f.uid ∧ f.desc = d ∧ f.n = d.count ∧ f.kind = .root) ∧
    (∀ uid sl, s.evt = .completionSignal uid → s.slice uid = some sl → s.sliceStores uid = false →
      (∀ f ∈ s.fams, f.slice = some uid → f.ctr = none ∨ f.st.over = false) →
      ∃ t, exec .completionSignal s = .next t ∧ (∀ x ∈ t.slices, x.uid ≠ uid) ∧ ∀ f ∈ t.fams, f.slice ≠ some uid) ∧
    (∀ v sl, s.evt = .cancel part v → (s.part part).away = false →
      (s.slices.filter fun x => x.part == part && x.st != .ended && !s.dying x.uid && x.ring == bits v.toNat 16 3 &&
        x.index == bits v.toNat 0 16 && x.tag == bits v.toNat 32 32) = [sl] → s.slice sl.uid = some sl →
      ∃ t y, exec .cancel s = .next t ∧ t.slice sl.uid = some y ∧ y.st = .ended ∧ y.cause = 0x4A ∧
        y.status = if sl.st = .waiting then 5 else 6)

/-- R142, R331 to R333: a traveller that arrives takes a free slot; the head of a continuation queue is placed where it
fits; and a spilled record moves into the queue when it has room. -/
def Obligations.QueuesAreServed : Prop :=
  ∀ (s : State),
    (∀ tok v sg c k, s.evt = .travellerArrival tok → (s.travs.find? fun t => t.tok == tok) = some v →
      v.dev = s.dev.devid → (s.part v.part).away = false → s.stopped v.thread = false → s.leastLoaded (s.part v.part) v.die = some sg → (s.contQ sg).recs = [] →
      (∀ x ∈ (s.part v.part).arrivals, x.sg / 5 ≠ v.die) →
      s.roomiest sg = some (c, k) →
      ∃ t th, exec .travellerArrival s = .next t ∧ t.thread c k = some th ∧ th.uid = v.thread.uid ∧
        th.pc = v.thread.pc ∧ th.regs = v.thread.regs ∧ th.hold = .none) ∧
    (∀ sg r rest p f, s.evt = .continuationHeadPlace sg → (s.contQ sg).recs = r :: rest → s.partOf (sg * 64) = some p →
      p.gsst = .running → r.traveller = none → s.fam r.fam = some f → f.st = .queued →
      s.fits f.desc (deals f.place.cores f.place.cyclic f.n) = true →
      ∃ t g, exec .continuationHeadPlace s = .next t ∧ t.mem = s.mem ∧ (t.contQ sg).recs = rest ∧
        t.fam r.fam = some g ∧ g.st = .running) ∧
    (∀ sg r rest p, s.evt = .spillOverflowMove sg → s.partOf (sg * 64) = some p → (s.contQ sg).spill = r :: rest →
      (s.contQ sg).recs.length < 64 →
      ∃ t, exec .spillOverflowMove s = .next t ∧ t.mem = s.mem ∧ (t.contQ sg).recs = (s.contQ sg).recs ++ [r] ∧
        (t.contQ sg).spill = rest)

/-- R212 to R218: TDEF defines an EMPTY tile; TARM arms it; TREL empties or releases it; TWAIT goes on at a READY tile; and
TSTAT reads the entry. -/
def Obligations.TileInstructionsComplete : Prop :=
  ∀ (h : Hdr) (t : TileNo) (ra rb : SReg) (s : State), s.Stands → InBudget s →
    let x := s.myCore.tile t.toNat
    let a := (s.regVal ra).toNat
    let b := (s.regVal rb).toNat
    let go := commit s h .drops h.lit.isSome (s.me.pc + 8#64)
    (Usable { Uses.none with sr := [ra, rb] } s → x.st = .empty →
      (a = 0 ∧ b = 0) ∨ (a % 64 = 0 ∧ b ≠ 0 ∧ b % 64 = 0 ∧ a + b ≤ 2 ^ 20 ∧ s.myCore.scratchOk a b = true) →
      exec (.tdef h t ra rb) s = .next (go.updTile s.cur.cid t.toNat fun y => { y with base := a, size := b })) ∧
    (Usable { Uses.none with sr := [ra] } s → x.st = .empty → s.myCore.tileScratch t.toNat = true → 0 < a → a ≤ x.size →
      ∃ u, exec (.tarm h t ra) s = .next u ∧ u.cur.res = .committed ∧ u.me.pc = s.me.pc + 8#64 ∧ u.mem = s.mem ∧
        u.myCore.tile t.toNat =
          { x with st := .filling, expected := a, arrived := 0, pois := false, err := false }) ∧
    (Usable Uses.none s →
      (x.st = .empty ∨ (x.st = .ready ∧ x.rel.isSome = true) → exec (.trel h t) s = .next go) ∧
      (x.st = .ready → x.rel = none → ∃ u n, exec (.trel h t) s = .next u ∧ u.cur.res = .committed ∧ u.mem = s.mem ∧
        u.myCore.tile t.toNat = { x with rel := some n } ∧
        ((∀ r ∈ x.readers, n ≤ r) → x.out = none →
          u.agenda.head? = some { at_ := s.now, what := .tileReleaseEffect s.cur.cid t.toNat } ∧
          Follows (.tileReleaseEffect s.cur.cid t.toNat) u fun w =>
            w.mem = s.mem ∧ w.myCore.tile t.toNat = { x with st := .empty })) ∧
      (x.st = .filling → x.err = true → ∃ u, exec (.trel h t) s = .next u ∧ u.cur.res = .committed ∧ u.mem = s.mem ∧
        u.myCore.tile t.toNat = { x with st := .empty }) ∧
      (s.me.held = [] → x.err = false → x.st = .ready →
        exec (.twait h t) s = .next (commit s.delivered h .drops h.lit.isSome (s.me.pc + 8#64)))) ∧
    (Usable { Uses.none with sw := [rb] } s → x.arrived < 2 ^ 21 → x.expected < 2 ^ 21 →
      Answers (.tstat h t rb) rb s fun v =>
        (v.extractLsb' 0 21).toNat = x.expected ∧ (v.extractLsb' 32 21).toNat = x.arrived ∧
        v.getLsbD 59 = (x.rel.isSome || x.out.isSome) ∧ v.getLsbD 60 = x.err ∧ v.getLsbD 61 = x.pois ∧
        v.extractLsb' 62 2 = match x.st with
          | .empty => 0#2
          | .filling => 1#2
          | .ready => 2#2
          | .draining => 3#2)

/-- R219, R222 to R225, R228 to R234: the matrix instructions whose tile and accumulator let them enter the queue, and what each does
where the queue is empty: a plane loads and swaps, a pass runs and leaves its cells in its accumulator, an accumulator is zeroed;
MDRN and MXSW hold their thread, drain and exchange, and commit when they are done; MSTAT reads the accumulator's status.  A swap with no
load unconsumed does nothing, though the shadow plane may hold one that an earlier swap is to consume (DESIGN CHOICE, log entries 53 and
71); and the cells of an MMASP in FP mode are those of log entry 11. -/
def Obligations.MatrixInstructionsComplete : Prop :=
  ∀ (h : Hdr) (t : TileNo) (ra rb : SReg) (sw : Bool) (c : AccNo) (s : State), s.Stands → InBudget s → s.me.held = [] → s.Sound →
    let cid := s.cur.cid
    let k := s.myCore
    let x := k.tile t.toNat
    let a := k.accAt c.toNat
    let next := s.me.pc + 8#64
    let room := k.mq.length < 8
    let idle := k.mq = [] ∧ k.pass = none ∧ k.groups = none ∧ k.drain = none
    let reads := x.err = false ∧ x.size ≠ 0 ∧ x.st = .ready ∧ x.size % 2048 = 0
    let swaps := sw && k.unconsumed
    let plane (pl : Plane) : Prop := (swaps = true → k.shadow = .full pl) ∧ (swaps = false → k.active = some pl)
    let cells (pl : Plane) (sparse : Bool) (r0 nr : Nat) : List PassCell :=
      let regs := s.regions cid t.toNat
      let sh := passShape pl ((regs.headD []).take 1)
      (runPass a pl sh.1 sparse r0 (((regs.drop r0).take nr).map (rowElems (passTakes pl sh.1 sh.2) pl.kp))).cells
    let ends (p : Pass) (u : State) : Prop := p.carries = [] → ∀ n cyc, { u with now := n, dieCyc := cyc }.passEnd cid p ≤ n →
      Follows (.passComplete cid) { u with now := n, dieCyc := cyc } fun v =>
        v.mem = s.mem ∧ v.myCore.pass = none ∧ v.myCore.accAt c.toNat = a.after p
    let passes (i : Instr) (sparse : Bool) : Prop := Queues i s [.pass sparse swaps c.toNat t.toNat 0 32 true] ∧
      (idle → ∀ pl, plane pl → ∃ u, exec i s = .next u ∧ Follows (.passStart cid) u fun v => ∃ p, v.myCore.pass = some p ∧
        p.c = c.toNat ∧ p.t = t.toNat ∧ p.who = s.meWho ∧ p.cells = cells pl sparse 0 32 ∧
        v.myCore.active = some pl ∧ ends p v)
    let zeroes (i : Instr) (fp : Bool) : Prop := Queues i s [.zero fp c.toNat] ∧
      (idle → ∃ u, exec i s = .next u ∧ Follows (.mzeroStart cid) u fun v =>
        v.myCore.accAt c.toNat = { Acc.zero with fp := fp } ∧ v.myCore.spall = k.spall.filter fun e => e.acc != c.toNat)
    (Usable Uses.none s → room →
      (reads → (s.dev.service = .reduced → s.wide16 cid t.toNat = true) → k.unconsumed = false →
        Queues (.mls h t) s [.mls t.toNat] ∧
        (k.mq = [] → k.shadow = .empty → ∃ u, exec (.mls h t) s = .next u ∧ Follows (.mlsStart cid) u fun v =>
          Follows (.planeFull cid) v fun w => w.myCore.shadow = .full (planeOf (s.regions cid t.toNat)))) ∧
      (k.unconsumed = true → Queues (.mswp h) s [.swap] ∧
        (idle → ∀ pl, k.shadow = .full pl → ∃ u, exec (.mswp h) s = .next u ∧ Follows (.planeSwap cid) u fun v =>
          v.myCore.active = some pl ∧ v.myCore.shadow = .empty)) ∧
      (k.unconsumed = false → exec (.mswp h) s = .next (commit s.delivered h .drops h.lit.isSome next)) ∧
      (reads → a.inv = false → passes (.mma h t sw c) false ∧ passes (.mmasp h t sw c) true) ∧
      zeroes (.mzeroFp h c) true ∧ (s.dev.service ≠ .reduced → zeroes (.mzeroInt h c) false)) ∧
    (∀ n gs, Usable { Uses.none with sr := [ra] } s → room → reads → a.inv = false → (s.regVal ra).toNat % 8 = 0 →
      tableWord s (s.regVal ra).toNat = .ok n → 0 < n → n ≤ 32 →
      tableGroups s ((s.regVal ra).toNat + 8) n = .ok (some gs) →
      let rows := gs.filter fun g => g.2 != 0
      Queues (.mmag h t ra sw c) s (groupOps c.toNat t.toNat swaps rows) ∧
      (idle → ∀ pl g rest m, rows = g :: rest → plane pl → s.now + s.ticks (dieOf cid) 2 ≤ m →
        ∃ u, exec (.mmag h t ra sw c) s = .next u ∧ Follows (.passStart cid) { u with now := m } fun v => ∃ p,
          v.myCore.pass = some p ∧ p.c = c.toNat ∧ p.t = t.toNat ∧ p.last = rest.isEmpty ∧
          p.cells = cells pl false g.1 g.2 ∧ v.myCore.active = some pl ∧ v.myCore.groups.isSome = !rest.isEmpty ∧
          ends p v)) ∧
    (∀ sat code,
      (∀ v, s.me.hold = .done v → exec (.mdrn h t ra sat code c) s =
        .next (commit s h .drops (h.lit.isSome || (sat && (code == 3#3 || code == 4#3))) next)) ∧
      (s.me.hold = .none → Usable { Uses.none with sr := if code = 6#3 then [ra] else [] } s →
        k.busyAcc c.toNat = false → x.st = .empty → k.drain = none → a.inv = false → drainBytes code.toNat ≤ x.size →
        k.tileScratch t.toNat = true → k.tileWaking t.toNat = false → (k.mctl.getLsbD 1 = true → a.pois = false) →
        s.tileBad cid t.toNat 0 (drainBytes code.toNat) = none →
        ∃ u d, exec (.mdrn h t ra sat code c) s = .next u ∧ u.cur.res = .held ∧ u.mem = s.mem ∧
          u.myCore.drain = some d ∧ d.c = c.toNat ∧ d.t = t.toNat ∧ d.code = code.toNat ∧ d.sat = sat ∧
          (u.myCore.tile t.toNat).st = .filling ∧ (u.myCore.tile t.toNat).expected = drainBytes code.toNat ∧
          let out := drainAll a (k.drained c.toNat) c.toNat code.toNat sat ((s.regVal ra).toNat % 1024) s.delivered.fmode
          Follows (.drainComplete cid) u fun v => Memory.bytes v.mem (scratchPa cid x.base) out.1.length = out.1 ∧
            (v.myCore.tile t.toNat).st = .ready ∧ v.myCore.accAt c.toNat = { Acc.zero with fp := a.fp } ∧
            v.me.hold = .done 0#64)) ∧
    (Usable { Uses.none with sw := [rb] } s → k.busyAcc c.toNat = false → k.mq.length ≤ 8 →
      k.spall.countP (fun e => e.acc == c.toNat) ≤ 64 →
      Answers (.mstat h rb c) rb s fun v => v.getLsbD 0 = a.fp ∧ v.getLsbD 1 = a.pois ∧ v.getLsbD 2 = a.inv ∧
        (v.extractLsb' 8 8).toNat = k.spall.countP (fun e => e.acc == c.toNat) ∧ v.getLsbD 18 = k.active.isSome ∧
        (v.extractLsb' 24 8).toNat = k.mq.length) ∧
    (∀ v, s.me.hold = .done v → exec (.mxsw h t) s = .next (commit s h .drops h.lit.isSome next)) ∧
    (s.me.hold = .none → Usable Uses.none s → x.err = false → x.size ≠ 0 → x.st = .ready →
      let o := mirrorOf cid
      let y := (s.core o).tile t.toNat
      let mine := scratchPa cid x.base
      let its := scratchPa o y.base
      ∃ u m, exec (.mxsw h t) s = .next u ∧ u.cur.res = .held ∧ u.mem = s.mem ∧ u.myCore.mxsw = k.mxsw ++ [m] ∧
        m.tile = t.toNat ∧ m.who = s.meWho ∧ m.begun = false ∧
        u.agenda.head? = some { at_ := s.now, what := .mxswPair cid t.toNat } ∧
        ∀ b, k.mxsw = [] → (s.core o).mxsw = [b] → b.tile = t.toNat → b.begun = false → y.size = x.size →
          mine + x.size ≤ its ∨ its + x.size ≤ mine →
          s.tileBad cid t.toNat 0 x.size = none → s.tileBad o t.toNat 0 x.size = none →
          Follows (.mxswPair cid t.toNat) u fun v => Follows (.mxswComplete cid t.toNat) v fun w =>
            Memory.bytes w.mem mine x.size = Memory.bytes s.mem its x.size ∧
            Memory.bytes w.mem its x.size = Memory.bytes s.mem mine x.size ∧ (w.myCore.tile t.toNat).st = .ready ∧
            w.me.hold = .done 0#64)

/-- R223, R224, R230, R231: what the head of a matrix queue does when it starts, and a later group of an MMAG under way. -/
def Obligations.MatrixQueueStarts : Prop :=
  ∀ (s : State) cid m rest, (s.core cid).mq = m :: rest → m.follow = false →
    let c := s.core cid
    (∀ t ops, s.evt = .mlsStart cid → c.headStep s.now = some (.mlsStart cid) → m.ops = .mls t :: ops →
      ∃ u, exec .mlsStart s = .next u ∧ u.mem = s.mem ∧ (u.core cid).mq = rest ∧
        (u.core cid).shadow = .loading (planeOf (s.regions cid t)) t m.tok ∧
        { at_ := s.now + s.ticks (dieOf cid) 40, what := .planeFull cid } ∈ u.agenda) ∧
    (∀ p ops, s.evt = .planeSwap cid → c.headStep s.now = some (.planeSwap cid) → m.ops = .swap :: ops →
      c.shadow = .full p → ∃ u, exec .planeSwap s = .next u ∧ u.mem = s.mem ∧ (u.core cid).mq = rest ∧
        (u.core cid).active = some p ∧ (u.core cid).shadow = .empty) ∧
    (∀ fp k ops, s.evt = .mzeroStart cid → c.headStep s.now = some (.mzeroStart cid) → m.ops = .zero fp k :: ops → k < 4 →
      ∃ u, exec .mzeroStart s = .next u ∧ u.mem = s.mem ∧ (u.core cid).mq = rest ∧
        (u.core cid).accAt k = { Acc.zero with fp := fp } ∧ (u.core cid).spall = c.spall.filter fun e => e.acc != k) ∧
    (∀ sparse sw k t r0 nr last ops pl, s.evt = .passStart cid → c.headStep s.now = some (.passStart cid) →
      m.ops = .pass sparse sw k t r0 nr last :: ops → (sw = true → c.shadow = .full pl) →
      (sw = false → c.active = some pl) → (c.accAt k).inv = false →
      ∃ u p, exec .passStart s = .next u ∧ u.mem = s.mem ∧ (u.core cid).mq = rest ∧ (u.core cid).pass = some p ∧
        p.c = k ∧ p.t = t ∧ p.last = last ∧ p.start = s.dieNow cid ∧ p.who = m.who ∧ (u.core cid).active = some pl ∧
        ((u.core cid).groups = if ops = [] then none else some { m with ops := ops })) ∧
    (∀ g sparse k t r0 nr last ops pl, s.evt = .passStart cid → c.groups = some g → c.pass = none →
      g.ops = .pass sparse true k t r0 nr last :: ops → c.shadow = .full pl → (c.accAt k).inv = false →
      ∃ u p, exec .passStart s = .next u ∧ u.mem = s.mem ∧ (u.core cid).mq = c.mq ∧ (u.core cid).pass = some p ∧
        p.c = k ∧ p.t = t ∧ p.last = last ∧ p.start = s.dieNow cid ∧ p.who = g.who ∧ (u.core cid).active = some pl ∧
        ((u.core cid).groups = if ops = [] then none else some { g with ops := ops }))

/-- R213, R223, R227, R232, R234, R294, R342: the ends of what the matrix engine does: a plane is loaded; a carry is posted, in the
lowest-numbered free entry where its cell has none; a pass adds its cells to its accumulator, and leaves the carries that come after its
end to be posted (DEDUCED, log entry 48); a drain leaves its bytes in its tile and the accumulator zero; an exchange pairs and swaps two
tiles; and a release, or a copy-out, goes on once the readers registered before it have finished, the copy-out first (DESIGN CHOICE, log
entry 73). -/
def Obligations.MatrixOperationsEnd : Prop :=
  ∀ (s : State) cid, s.Sound →
    let c := s.core cid
    let o := mirrorOf cid
    let pa (c : Nat) (t : Nat) : Nat := scratchPa c ((s.core c).tile t).base
    (∀ p t tok, s.evt = .planeFull cid → c.shadow = .loading p t tok →
      ∃ u, exec .planeFull s = .next u ∧ u.mem = s.mem ∧ (u.core cid).shadow = .full p) ∧
    (∀ p x, s.evt = .spallCarryResume cid → c.pass = some p → p.carries = [x] → c.late = [] →
      p.start + x.at_ + p.slip ≤ s.dieNow cid → s.dieNow cid < p.start + p.len + p.slip →
      (∀ e ∈ c.spall, ¬(e.acc = p.c ∧ e.row = x.row ∧ e.col = x.col)) → c.spall.length < 64 →
      ∃ u i, exec .spallCarryResume s = .next u ∧ u.mem = s.mem ∧
        i < 64 ∧ (∀ e ∈ c.spall, e.ent ≠ i) ∧ (∀ j < i, ∃ e ∈ c.spall, e.ent = j) ∧ (u.core cid).spall =
          c.spall ++ [{ ent := i, acc := p.c, row := x.row, col := x.col, cnt := if x.up then 1 else -1 }] ∧
        (u.core cid).pass = some { p with carries := [] }) ∧
    (∀ p, s.evt = .passComplete cid → c.pass = some p → s.passEnd cid p ≤ s.now → p.c < 4 →
      ∃ u, exec .passComplete s = .next u ∧ u.mem = s.mem ∧ (u.core cid).pass = none ∧
        (u.core cid).accAt p.c = (c.accAt p.c).after p ∧ (u.core cid).late = c.late ++ p.owed) ∧
    (∀ d, s.evt = .drainComplete cid → c.drain = some d → d.c < 4 → d.t < 64 → c.tileWaking d.t = false → s.tileBad cid d.t 0 (drainBytes d.code) = none →
      let out := drainAll (c.accAt d.c) (c.drained d.c) d.c d.code d.sat d.scale d.mode
      ∃ u, exec .drainComplete s = .next u ∧ Memory.bytes u.mem (pa cid d.t) out.1.length = out.1 ∧
        (u.core cid).drain = none ∧ ((u.core cid).tile d.t).st = .ready ∧
        (u.core cid).accAt d.c = { Acc.zero with fp := (c.accAt d.c).fp, inv := (c.accAt d.c).inv } ∧
        ∀ th, s.thread d.who.cid d.who.slot = some th → th.uid = d.who.uid → th.hold = .busy d.tok → d.who.slot < 17 →
          ∃ th', u.thread d.who.cid d.who.slot = some th' ∧ th'.hold = .done 0#64) ∧
    (∀ t a b, s.evt = .mxswPair cid t → t < 64 → c.mxswOf t false = some a → (s.core o).mxswOf t false = some b →
      (c.tile t).size = ((s.core o).tile t).size →
      ∃ u, exec .mxswPair s = .next u ∧ u.mem = s.mem ∧ ((u.core cid).tile t).st = .draining ∧
        ((u.core o).tile t).st = .draining ∧
        { at_ := s.now + s.ticks (dieOf cid) (6 + (c.tile t).size / 64), what := .mxswComplete cid t } ∈ u.agenda) ∧
    (∀ t a b, s.evt = .mxswComplete cid t → t < 64 → c.mxswOf t true = some a → (s.core o).mxswOf t true = some b →
      let n := (c.tile t).size
      ((s.core o).tile t).size = n → pa cid t + n ≤ pa o t ∨ pa o t + n ≤ pa cid t →
      s.tileBad cid t 0 n = none → s.tileBad o t 0 n = none →
      ∃ u, exec .mxswComplete s = .next u ∧
        Memory.bytes u.mem (pa cid t) n = Memory.bytes s.mem (pa o t) n ∧
        Memory.bytes u.mem (pa o t) n = Memory.bytes s.mem (pa cid t) n ∧
        ((u.core cid).tile t).st = .ready ∧ ((u.core o).tile t).st = .ready ∧
        ((u.core cid).tile t).pois = ((s.core o).tile t).pois ∧ ((u.core o).tile t).pois = (c.tile t).pois) ∧
    (∀ t n, s.evt = .tileReleaseEffect cid t → t < 64 → (c.tile t).rel = some n → (c.tile t).out = none →
      (∀ q ∈ (c.tile t).readers, n ≤ q) →
      ∃ u, exec .tileReleaseEffect s = .next u ∧ u.mem = s.mem ∧ ((u.core cid).tile t).rel = none ∧
        ((u.core cid).tile t).st = if (c.tile t).st = .ready then .empty else (c.tile t).st) ∧
    (∀ t n, s.evt = .tileReleaseEffect cid t → t < 64 → (c.tile t).out = some n → (∀ q ∈ (c.tile t).readers, n ≤ q) →
      ∃ u, exec .tileReleaseEffect s = .next u ∧ u.mem = s.mem ∧ (u.core cid).tile t = c.tile t ∧
        (c.cq ≠ [] → u.agenda.head? = some { at_ := s.now, what := .copyCommandStart cid }))

/-- R237, R239 to R243: a copy instruction whose checks pass and whose queue has room commits with its command in the
queue; CPYC holds its thread for its block, and then commits. -/
def Obligations.CopyInstructionsComplete : Prop :=
  ∀ (h : Hdr) (t : TileNo) (ra rb : SReg) (sc : Scope) (s : State), s.Stands → InBudget s → s.acqBlocked = false →
    let k := s.myCore
    let third (r : SReg) : Option SReg := match r with
      | .s n => some (.s (n + 1#4))
      | _ => none
    let cpy (i : Instr) (form : Nat) (o : Option SReg) (scope : Nat) : Prop :=
      let v := (o.map s.regVal).getD 0#64
      Usable { Uses.none with sr := [ra, rb] ++ o.toList } s → k.cq.length + k.xfers.length < 16 →
      copyCheck k t.toNat form (s.regVal ra).toNat (s.regVal rb).toNat v.toNat = none →
      (form = 1 → (k.tile t.toNat).err = false ∧ (k.tile t.toNat).st = .ready) →
      ∃ u q, exec i s = .next u ∧ u.cur.res = .committed ∧ u.me.pc = s.me.pc + 8#64 ∧ u.mem = s.mem ∧
        u.myCore.cq = k.cq ++ [q] ∧ q.tile = t.toNat ∧ q.form = form ∧ q.addr = (s.regVal ra).toNat ∧
        q.opnd = s.regVal rb ∧ q.third = v ∧ q.scope = scope ∧ q.block = none ∧ q.who = s.meWho
    cpy (.cpyG2t h t ra rb) 0 none 0 ∧ cpy (.cpyT2g h t ra rb sc) 1 none sc.code ∧
    cpy (.cpyMc h t ra rb) 2 (third rb) 0 ∧ cpy (.cpyGx h t ra rb) 3 (third rb) 0 ∧ cpy (.cpyX h t ra rb) 4 (third rb) 0 ∧
    (Usable { Uses.none with sr := [ra] } s →
      (∀ v, s.me.hold = .done v → exec (.cpyc h t ra) s = .next (commit s h .drops h.lit.isSome (s.me.pc + 8#64))) ∧
      (∀ x s' bs s1, s.me.hold = .none → (s.regVal ra).toNat % 64 = 0 → k.cq.length + k.xfers.length < 16 →
        access s (s.regVal ra) 1 1 needLoad true = .ok (x, s') → readNow s (s.regVal ra) 64 64 = .ok (bs, s1) →
        let w (i : Nat) : W64 := BitVec.ofNat 64 (leVal ((bs.drop (8 * i)).take 8))
        ∃ u q, exec (.cpyc h t ra) s = .next u ∧ u.cur.res = .held ∧ u.myCore.cq = k.cq ++ [q] ∧ q.tile = t.toNat ∧
          q.block = some ((List.range 8).map w) ∧ q.addr = (w 0).toNat ∧ q.opnd = w 1 ∧ q.third = w 2 ∧
          q.form = (w 3).toNat % 8 ∧ q.who = s.meWho))

/-- R212, R213, R235, R238, R239, R243: the copy engine starts its head command, a copy-out once the readers of its tile registered before
it have finished; where a page is missing it keeps what it has read (DEDUCED, log entry 20); bytes that arrive stand in their tile, which is
READY with the last; and a copy-out that is acknowledged has written its bytes and leaves its tile EMPTY. -/
def Obligations.CopyEngineSteps : Prop :=
  ∀ (s : State) cid, s.Sound →
    let c := s.core cid
    (∀ q rest g, s.evt = .copyCommandStart cid → c.cq = q :: rest → c.cqHalted = false → c.cqWait = false →
      q.from_ ≤ s.now → c.cqFree ≤ s.now → (∀ x ∈ c.xfers, x.ended = false ∧ x.whole = true) →
      (∃ p, s.partOf cid = some p ∧ p.gsst = .running) → q.block = none → q.tile < 64 →
      (q.form = 1 → (c.tile q.tile).err = false ∧ (c.tile q.tile).st = .ready ∧
        ∃ n, (c.tile q.tile).out = some n ∧ ∀ r ∈ (c.tile q.tile).readers, n ≤ r) →
      geomOf q.form q.opnd.toNat q.third.toNat = some g → s.storesBefore q = false →
      let x := s.copyXfer cid q g
      let b := (s.copyTaken cid q x).build cid q g [] x.prog
      (b.1.stop matches .none) →
      ∃ t y, exec .copyCommandStart s = .next t ∧ t.mem = b.1.s.mem ∧ (t.core cid).cq = rest ∧ y ∈ (t.core cid).xfers ∧
        y.tok = q.tok ∧ y.cmd = q ∧ y.units = b.1.units ∧ y.flags = b.2 ∧ y.whole = true ∧ y.fail = none ∧
        (q.form = 1 → ((t.core cid).tile q.tile).st = .draining)) ∧
    (∀ q rest, s.evt = .copyCommandStart cid → c.cq = q :: rest → c.cqHalted = false → c.cqWait = false →
      q.from_ ≤ s.now → c.cqFree ≤ s.now → (∀ x ∈ c.xfers, x.ended = false ∧ x.whole = true) →
      (∃ p, s.partOf cid = some p ∧ p.gsst = .running) → q.block = none → q.tile < 64 → q.form = 1 →
      (c.tile q.tile).err = false → (c.tile q.tile).st = .ready → (c.tile q.tile).out = none →
      ∃ t n, exec .copyCommandStart s = .next t ∧ t.mem = s.mem ∧ (t.core cid).cq = c.cq ∧
        (t.core cid).tile q.tile = { c.tile q.tile with out := some n } ∧
        t.agenda.head? = some { at_ := s.now, what := .copyCommandStart cid }) ∧
    (∀ q rest g va acc, s.evt = .copyCommandStart cid → c.cq = q :: rest → c.cqHalted = false → c.cqWait = false →
      q.from_ ≤ s.now → c.cqFree ≤ s.now → (∀ x ∈ c.xfers, x.ended = false ∧ x.whole = true) →
      (∃ p, s.partOf cid = some p ∧ p.gsst = .running) → q.block = none → q.form ≠ 1 →
      geomOf q.form q.opnd.toNat q.third.toNat = some g → s.storesBefore q = false →
      let x := s.copyXfer cid q g
      let b := (s.copyTaken cid q x).build cid q g [] x.prog
      b.1.stop = .miss va acc → (∃ m ∈ (b.1.s.core cid).mbox, m.vpn = va / 2 ^ 16) →
      ∃ t, exec .copyCommandStart s = .next t ∧ (t.core cid).cqWait = true ∧ ∃ y ∈ (t.core cid).xfers,
        y.tok = q.tok ∧ y.units = b.1.units ∧ y.prog = b.1.prog ∧ y.whole = false) ∧
    (∀ tok x u rc, s.evt = .tileBytesArrive rc tok → s.xfer tok = some (cid, x) → x.tok = tok → x.ended = false →
      x.units = [u] → x.recvs = [{ cid := rc, lag := 0, next := 0, failed := false }] → x.fail = none →
      x.cmd.block = none → x.cmd.tile < 64 → u.due ≤ s.now → c.halts x = false →
      let y := (s.core rc).tile x.cmd.tile
      y.st = .filling → y.arrived + u.bytes.length ≤ y.expected → s.tileBad rc x.cmd.tile u.off u.bytes.length = none →
      ∃ t, exec .tileBytesArrive s = .next t ∧
        Memory.bytes t.mem (scratchPa rc y.base + u.off) u.bytes.length = u.bytes ∧
        (t.core rc).tile x.cmd.tile = { y with
          arrived := y.arrived + u.bytes.length, pois := y.pois || u.pois,
          st := if y.arrived + u.bytes.length = y.expected then .ready else .filling }) ∧
    (∀ tok x, s.evt = .copyOutComplete cid tok → s.xfer tok = some (cid, x) → x.fail = none → x.cmd.tile < 64 →
      (∀ u ∈ x.units, u.lvl = none ∧ s.awayAt u.pa = none) →
      ∃ t, exec .copyOutComplete s = .next t ∧ ((t.core cid).tile x.cmd.tile).st = .empty ∧
        (∀ y ∈ (t.core cid).xfers, y.tok ≠ tok) ∧
        ∀ u, x.units = [u] → Memory.bytes t.mem u.pa u.bytes.length = u.bytes)

/-- R245: RGN.DEF of a good descriptor of local pages gives the region the lowest free number, and its bundle commits with
that number; RGN.REL frees a region that no revision holds. -/
def Obligations.RegionInstructionsComplete : Prop :=
  ∀ (h : Hdr) (rd ra : SReg) (s : State), s.Stands → InBudget s → s.acqBlocked = false →
    let pn := s.partNum s.cur.cid
    let next := s.me.pc + 8#64
    (Usable { Uses.none with sr := [ra], sw := [rd] } s →
      (∀ v, s.me.hold = .done v → (v = partVal → s.me.prog = []) →
        ∃ t, exec (.rgnDef h rd ra) s = .next t ∧ t.cur.res = .committed ∧ t.me.pc = next ∧
        (s.me.sh = 0 → t.mem = s.mem) ∧ ∀ k, rd = .s k → (t.me.regs.s.get k.toFin).val = v ∧ (t.me.regs.s.get k.toFin).pres = true) ∧
      (∀ x s' bs s1 num n s2, s.me.hold = .none → access s (s.regVal ra) 32 32 needLoad true = .ok (x, s') →
        readNow s (s.regVal ra) 32 32 = .ok (bs, s1) → (s1.part pn).freeRegion = some num →
        let d (i : Nat) : Nat := leVal ((bs.drop (8 * i)).take 8)
        rgnBad (d 0) (d 1) (d 2) (d 3) = false →
        (∀ g ∈ (s1.part pn).regions, g.base + g.size ≤ d 0 ∨ d 0 + d 1 ≤ g.base) →
        let dl := (List.range 4).map d ++ [s.readLat s.cur.cid x (s.myLevel x.va) 32]
        rgnPages (d 0 + d 1) none dl (d 1 / 0x10000 + 2) s1 (d 0) 0 false = .ok (n, false, s2) →
        ∃ t g q, exec (.rgnDef h rd ra) s = .next t ∧ t.cur.res = .held ∧ g ∈ (t.part pn).regions ∧ g.num = num ∧
          g.base = d 0 ∧ g.size = d 1 ∧ g.merge = d 2 % 16 ∧ g.ro = (d 2).testBit 16 ∧ t.me.prog = [] ∧
          q ∈ t.reqs ∧ q.kind = .value (BitVec.ofNat 64 num) ∧ t.me.hold = .busy q.tok ∧
          (t.req q.tok = some q → (t.part q.part).away = false → Follows (.loadResponse q.tok) t fun u =>
            u.me.hold = .done (BitVec.ofNat 64 num)))) ∧
    (Usable { Uses.none with sr := [ra] } s →
      (∀ v, s.me.hold = .done v → exec (.rgnRel h ra) s = .next (commit s h .drops h.lit.isSome next)) ∧
      (∀ g, s.me.hold = .none → (s.regVal ra).toNat < 64 →
        ((s.part pn).regions.find? fun g => g.num == (s.regVal ra).toNat) = some g →
        (∀ r ∈ (s.part pn).revs, g ∉ r.snap) →
        ∃ t, exec (.rgnRel h ra) s = .next t ∧ t.cur.res = .held ∧ t.mem = s.mem ∧
          (t.part pn).regions = (s.part pn).regions.filter fun x => x.num != (s.regVal ra).toNat))

/-- R20 to R23, R247, R249: what CSRR reads of the thread's and the core's registers; a written register holds the value's
unreserved bits; and CSRS ORs into it.  That the flags of the bundle itself are ORed into an fst that it writes is the model's choice
(log entry 69).  finj is armed for a thread that stands, and with a kind that is not reserved; the
armed fault falls on its bundle as a trap, and disarms. -/
def Obligations.ControlRegistersComplete : Prop :=
  (∀ (h : Hdr) (rd ra : SReg) (csr : BitVec 12) (s : State), s.Stands → InBudget s →
     let n := csr.toNat
     let c := s.me.csr
     let k := s.myCore
     let writes (i : Instr) (v : W64) : Prop :=
       ∃ t, exec i s = .next t ∧ t.cur.res = .committed ∧ t.me.pc = s.me.pc + 8#64 ∧ t.mem = s.mem ∧
         (n = 0x001 → t.me.csr.fst = (v &&& 0x3F00FF#64) ||| BitVec.setWidth 64 (s.cur.aFlags |||
           if h.lit.isSome ∨ s.me.kext.isSome then fW else fNone)) ∧
         (n = 0x002 → t.me.csr.fmode = v &&& 3#64) ∧ (n = 0x003 → t.me.csr.wlim = v &&& 0xFFFFFFFF#64) ∧
         (n = 0x004 → t.me.csr.chk = v &&& 1#64) ∧ (n = 0x010 → t.me.csr.ifp = v &&& ~~~0x3F#64) ∧
         (n = 0x011 → t.me.csr.ifl = v &&& ~~~0x3F#64) ∧ (n = 0x012 → t.me.csr.cfp = v &&& ~~~7#64) ∧
         (n = 0x013 → t.me.csr.cfl = v &&& ~~~7#64) ∧ (n = 0x020 → t.myCore.mctl = v &&& 3#64) ∧
         (n = 0x100 → t.me.csr.estat = v &&& 0x1FF#64) ∧ (n = 0x101 → t.me.csr.epc = v) ∧
         (n = 0x102 → t.me.csr.eaddr = v) ∧ (n = 0x103 → t.myCore.tvec = v &&& ~~~7#64) ∧
         (n = 0x110 → t.myCore.wentry = v &&& ~~~7#64) ∧ (n = 0x112 → t.myCore.ptroot = v &&& ~~~0xFFFF#64) ∧
         (n = 0x120 → t.myCore.sfb = v) ∧ (n = 0x121 → t.myCore.sfs = v) ∧
         (n = 0x130 → (t.contQ (sgOf s.cur.cid)).cqsb = v &&& ~~~0xFFFF#64) ∧
         (n = 0x131 → (t.contQ (sgOf s.cur.cid)).cqsn = v &&& 0x1F#64) ∧
         (n = 0x132 → (t.part (s.partNum s.cur.cid)).cqsq = v &&& 0xFFFFFFFF#64) ∧
         (n = 0x040 → t.agenda.head? = some { at_ := s.now, what := .finjWrite s.cur.cid (v &&& 0xFFFFFFFF00001F0F#64) }) ∧
         (n = 0x113 → t.agenda.head? =
           some { at_ := s.now, what := .migd (s.partNum s.cur.cid) (v &&& ~~~0xFFFF#64) })
     (n = 0x040 ∨ 0x100 ≤ n → s.me.sys = true) →
     (Usable { Uses.none with sw := [rd] } s → ∀ v : W64,
       (n, v) ∈ [(0x001, c.fst), (0x002, c.fmode), (0x003, c.wlim), (0x004, c.chk), (0x010, c.ifp), (0x011, c.ifl),
         (0x012, c.cfp), (0x013, c.cfl), (0x020, k.mctl), (0x030, BitVec.ofNat 64 s.tsc), (0x040, k.finj), (0x100, c.estat),
         (0x101, c.epc), (0x102, c.eaddr), (0x103, k.tvec), (0x110, k.wentry), (0x112, k.ptroot), (0x120, k.sfb),
         (0x121, k.sfs), (0x140, k.eq.d0), (0x141, k.eq.d1), (0x142, k.eq.d2), (0x143, k.eq.d3)] →
       Answers (.csrr h rd csr) rd s (· = v)) ∧
     (Usable { Uses.none with sr := [ra], sw := [rd] } s →
       n ∉ [0x021, 0x030, 0x031, 0x111, 0x122, 0x133, 0x140, 0x141, 0x142, 0x143, 0x144] →
       writes (.csrw h rd ra csr) (s.regVal ra) ∧
       (ra ≠ .zr → writes (.csrs h rd ra csr) (s.csrVal n ||| s.regVal ra))) ∧
     (Usable { Uses.none with sr := [.zr], sw := [rd] } s → Answers (.csrs h rd .zr csr) rd s (· = s.csrVal n))) ∧
  (∀ (s : State) cid,
     (∀ v, s.evt = .finjWrite cid v → ∃ t, exec .finjWrite s = .next t ∧ t.mem = s.mem ∧
       let w := v &&& 0xFFFFFFFF00001F0F#64
       let slot := v.toNat / 2 ^ 8 % 32
       (t.core cid).finj = if (s.thread cid slot).isSome ∧ slot < 16 ∧ v.toNat / 2 % 8 < 3 then w else w &&& ~~~1#64) ∧
     (∀ slot addr atomic, s.evt = .finjInject cid slot addr atomic → slot < 17 →
       ∃ t, exec .finjInject s = .next t ∧ t.mem = s.mem ∧ t.cur.cid = cid ∧ t.cur.slot = slot ∧
         t.cur.res = .trapped 6 ∧ (t.core cid).finj = (s.core cid).finj &&& ~~~1#64))

/-- R58, R250 to R254, R256: ERET returns to epc at the level that estat holds, with the extension pending that stayed so for the bundle
there (DEDUCED, log entry 63), and a walker to its entry for the next miss; HALT
halts; ICI drops the lines of its range; TLBW installs its entry, but for the walker's whose page TLBI has named since its miss was
claimed (R317), TLBI removes those it names; and MRES resumes, discards
or resets. -/
def Obligations.SystemInstructionsComplete : Prop :=
  ∀ (h : Hdr) (ra rb : SReg) (s : State), s.Stands → InBudget s →
    let next := s.me.pc + 8#64
    let a := s.regVal ra
    let b := s.regVal rb
    let go := commit s h .drops h.lit.isSome next
    (s.me.sys = true → Usable Uses.none s →
      exec (.halt h) s = .next (go.updMe fun t => { t with hold := .wait .halted }) ∧
      (s.cur.slot ≠ 16 → s.me.csr.epc.toNat % 8 = 0 → ∃ t, exec (.eret h) s = .next t ∧ t.cur.res = .committed ∧
        t.me.pc = s.me.csr.epc ∧ t.me.sys = s.me.csr.estat.getLsbD 8 ∧
        t.me.csr.estat = s.me.csr.estat &&& ~~~0xFF#64 ∧ t.me.kext = s.me.kextKept ∧ t.me.kextKept = none ∧ t.me.stall = none ∧ t.me.regs = s.me.regs ∧ t.mem = s.mem) ∧
      (∀ e, s.cur.slot = 16 → oldestMiss s.myCore.mbox = some e → ∃ t, exec (.eret h) s = .next t ∧
        t.cur.res = .committed ∧ t.me.pc = s.myCore.wentry ∧ t.me.sys = true ∧ t.me.regs = s.me.regs ∧ t.mem = s.mem)) ∧
    (Usable { Uses.none with sr := [ra, rb] } s →
      (∀ v, s.me.hold = .done v → (v ≠ partVal → exec (.ici h ra rb) s = .next go) ∧
        (s.me.sys = true → exec (.tlbw h ra rb) s = .next go ∧ exec (.tlbi h ra rb) s = .next go)) ∧
      (s.me.hold = .none → s.acqBlocked = false →
        (b = 0#64 → exec (.ici h ra rb) s = .next go) ∧
        (∀ r s1, b ≠ 0#64 →
            overRange false needLoad iciL1 a.toNat b.toNat 0 (b.toNat / 0x10000 + 2) s { done := 0, lines := 0, ack := 0 } =
              .ok (r, s1) →
          ∃ t, exec (.ici h ra rb) s = .next t ∧ t.cur.res = .held ∧
            ∀ l ∈ t.myCore.ibuf, l.line * 64 + 64 ≤ a.toNat ∨ a.toNat + b.toNat ≤ l.line * 64) ∧
        (∀ x s', b ≠ 0#64 → a.toNat % 65536 + b.toNat ≤ 65536 → access s a 1 1 needLoad true = .ok (x, s') →
          s'.refusedLine x b.toNat 32 0 (((s'.core s'.cur.cid).l1.filter fun l => l.over x.pa b.toNat && l.dirty != 0#32).map
            (·.line)) = none → s'.spoiltLine s'.cur.cid (·.over x.pa b.toNat) = none →
          ∃ t, exec (.ici h ra rb) s = .next t ∧ t.cur.res = .held ∧
            (∀ l ∈ t.myCore.ibuf, l.line * 64 + 64 ≤ a.toNat ∨ a.toNat + b.toNat ≤ l.line * 64) ∧
            ∀ l ∈ t.myCore.l1, l.over x.pa b.toNat = true → l.dirty = 0#32)) ∧
      (s.me.hold = .none → s.me.sys = true →
        (tlbwBad a.toNat b.toNat = false →
          let e : TlbEntry := { vpn := a.toNat / 2 ^ 23, sz := a.toNat / 2 ^ 21 % 4, w1 := b }
          let stale (m : Miss) : Prop :=
            s.cur.slot = 16 ∧ e.covers (m.vpn * 2 ^ 16) = true ∧ (m.stale = true ∨ m.inval.any e.covers = true)
          ∃ t, exec (.tlbw h ra rb) s = .next t ∧ t.cur.res = .held ∧ t.mem = s.mem ∧
            ((∀ m ∈ s.myCore.mbox, ¬stale m) → e ∈ t.myCore.tlb2 ∧ (a.getLsbD 20 = false → e ∈ t.myCore.tlb1)) ∧
            ∀ m ∈ s.myCore.mbox, stale m → t.myCore.tlb1 = s.myCore.tlb1 ∧ t.myCore.tlb2 = s.myCore.tlb2 ∧
              { m with stale := true } ∈ t.myCore.mbox) ∧
        (b.toNat < 8 → b.toNat % 4 < 2 →
          ∃ t, exec (.tlbi h ra rb) s = .next t ∧ t.cur.res = .held ∧ t.mem = s.mem ∧
            ∀ e, e ∈ t.myCore.tlb1 ∨ e ∈ t.myCore.tlb2 → b.toNat % 4 = 0 ∧ e.covers a.toNat = false))) ∧
    (s.me.sys = true → Usable { Uses.none with sr := [ra] } s →
      let resumes (i : Instr) : Prop :=
        (a = 0#64 ∨ a = 1#64 → ∃ t, exec i s = .next t ∧ t.cur.res = .committed ∧ t.me.pc = next ∧ t.mem = s.mem ∧
          t.myCore.cqHalted = false ∧ t.myCore.cq = (if a = 1#64 then s.myCore.cq.filter fun q => decide (s.now < q.from_) else s.myCore.cq) ∧
          (a = 1#64 → ∀ x ∈ t.myCore.tiles.toList, x.out = none) ∧
          t.agenda.head? = some { at_ := s.now, what := .copyCommandStart s.cur.cid }) ∧
        (a = 2#64 → ∃ t, exec i s = .next t ∧ t.cur.res = .committed ∧ t.me.pc = next ∧ t.mem = s.mem ∧
          t.myCore.mq = [] ∧ t.myCore.pass = none ∧ t.myCore.active = none ∧ t.myCore.shadow = .empty ∧
          t.myCore.spall = [] ∧ ∀ i < 4, (t.myCore.accAt i).inv = true)
      resumes (.mresResume h ra) ∧ resumes (.mresDiscard h ra) ∧ resumes (.mresMatrixReset h ra))

/-- R255, R315 to R317, R366: a walker's MBOX claims the oldest miss and reads its record, and completes a claimed one; the host's
replies and the end of a migration act on what waits for a page, though not for a partition that is switched out; and the room that the
host makes in the queue takes the record of an entry that waited for it, which is posted.  A walker with no record to claim
is not ready, and completes nothing yet (R336; DEDUCED, log entry 23); a reply to a request that a gang switch has discarded does
nothing (R317; DEDUCED, log entry 49). -/
def Obligations.PageMissesAreServed : Prop :=
  ∀ (s : State) (e : Miss),
    (∀ (h : Hdr) rd, s.Stands → InBudget s → s.cur.slot = 16 → s.me.sys = true → s.me.hold = .none →
      Usable { Uses.none with sr := [.zr], sw := [rd] } s → rd ≠ .zr → oldestMiss s.myCore.mbox = some e →
      e.vpn < 2 ^ 41 → e.acc < 4 → e.ent < 16 →
      Answers (.mbox h rd .zr) rd s fun v => (v.extractLsb' 23 41).toNat = e.vpn ∧ (v.extractLsb' 21 2).toNat = e.acc ∧
        (v.extractLsb' 17 4).toNat = e.ent ∧ v.getLsbD 16 = e.ce ∧
        ∀ k < 16, v.getLsbD k = e.waiters.any (fun w => w.slot == k)) ∧
    (∀ (h : Hdr) ra, s.Stands → InBudget s → s.cur.slot = 16 → s.me.sys = true → s.me.hold = .none →
      Usable { Uses.none with sr := [ra], sw := [.zr] } s → ra ≠ .zr → s.myCore.mbox = [e] → e.st = .claimed →
      (s.regVal ra).toNat = e.ent → e.ent < 16 →
      ∃ t, exec (.mbox h .zr ra) s = .next t ∧ t.cur.res = .committed ∧ t.mem = s.mem ∧ t.myCore.mbox = [] ∧
        ∀ w ∈ e.waiters, ∀ th, w.slot < 16 → s.thread s.cur.cid w.slot = some th → th.uid = w.uid →
          th.hold = .wait .translation → t.thread s.cur.cid w.slot = some { th with hold := .none }) ∧
    (∀ part v cid, s.evt = .pgreply part v → s.replyOk part v.toNat = true → (s.part part).away = false →
      v.getLsbD 36 = false → v.extractLsb' 40 2 = 0#2 → cid = v.toNat / 2 ^ 16 % 2 ^ 11 →
      (s.core cid).mbox = [e] → e.st = .suspended → e.ent = v.toNat / 2 ^ 32 % 16 → e.ent ∉ (s.core cid).lost →
      ∃ t, exec .pgreply s = .next t ∧ t.mem = s.mem ∧ (t.core cid).mbox = [] ∧
        ∀ w ∈ e.waiters, ∀ th, w.slot < 16 → s.thread cid w.slot = some th → th.uid = w.uid →
          th.hold = .wait .translation → t.thread cid w.slot = some { th with hold := .none }) ∧
    (∀ part v, s.evt = .pgreply part v → s.replyOk part v.toNat = true → (s.part part).away = false → v.getLsbD 36 = false →
      let cid := v.toNat / 2 ^ 16 % 2 ^ 11
      let ent := v.toNat / 2 ^ 32 % 16
      ent ∈ (s.core cid).lost → ∃ t, exec .pgreply s = .next t ∧ t.mem = s.mem ∧ (t.core cid).mbox = (s.core cid).mbox ∧
        (t.core cid).lost = (s.core cid).lost.erase ent) ∧
    (∀ (h : Hdr) rd ra, s.Stands → s.cur.slot = 16 → s.me.sys = true → InBudget s → s.me.hold = .none →
      Usable { Uses.none with sr := [ra], sw := [rd] } s → rd ≠ .zr → oldestMiss s.myCore.mbox = none →
      exec (.mbox h rd ra) s = .next { s with cur := { s.cur with res := .notReady } }) ∧
    (∀ part v, s.evt = .migd part v → v.toNat % 2 ^ 16 = 0 → (s.part part).away = true → exec .migd s = .next s) ∧
    (∀ part v, s.evt = .migd part v → v.toNat % 2 ^ 16 = 0 → (s.part part).away = false →
      ∃ t, exec .migd s = .next t ∧ t.mem = s.mem ∧
        ∀ cid, (s.part part).hasSg (sgOf cid) = true → ∀ m ∈ (t.core cid).mbox, m.st = .parked → m.vpn ≠ v.toNat / 2 ^ 16) ∧
    (∀ part v, s.evt = .hfqheadWrite part v → v.toNat < 2 ^ 32 →
      ((v.toNat : Int) - (s.part part).hfqhead.toNat) % 2 ^ 32 ≤
        (((s.part part).hfqtail.toNat : Int) - (s.part part).hfqhead.toNat) % 2 ^ 32 →
      (s.part part).hfqhead.toNat < 2 ^ 32 →
      let p := s.part part
      let k := p.hfqsz.toNat % 32
      ∃ t, exec .hfqheadWrite s = .next t ∧ (t.part part).hfqhead = v ∧
        ∀ cid, s.Sound → p.away = false → s.partNum cid = part → p.hasSg (sgOf cid) = true → (s.core cid).mbox = [e] →
          e.st = .unposted → (∀ c ∈ s.cores, p.hasSg (sgOf c.cid) = true → c.cid ≠ cid → ∀ m ∈ c.mbox, m.st ≠ .unposted) →
          (s.cores.map (·.cid)).Nodup → (p.hfqtail.toNat + 2 ^ 32 - v.toNat) % 2 ^ 32 < 2 ^ k →
          (t.core cid).mbox = [{ e with st := .suspended }] ∧ (t.part part).hfqtail.toNat = (p.hfqtail.toNat + 1) % 2 ^ 32 ∧
          t.dev.msix = s.dev.msix ++ [p.hfqsz.toNat / 2 ^ 16 % 2 ^ 11] ∧
          Memory.bytes t.mem (p.hfqbase.toNat + 32 * (p.hfqtail.toNat % 2 ^ k)) 32 =
            toLe 8 (e.vpn * 2 ^ 16) ++ toLe 8 (e.acc * 2 ^ 40 + e.ent * 2 ^ 32 + cid * 2 ^ 16 + part) ++ toLe 8 s.tsc ++ toLe 8 0)

/-- R305, R307, R369 to R374: reset leaves the tags empty, and memory empty, which is the model's (DESIGN CHOICE, log entry 2), and starts
the image; training retires the failed slices; full service follows once no slice runs; clocks step within their limits; and a hot die
stops its partitions.  Model's choices are also whether an image verifies, the code of its failure, and the keys and signatures of a
report, which are uninterpreted (log entry 8), and a clock's floor of 100 MHz and its limit of 1,200 MHz in the failed state of a device
that had trained (log entry 85). -/
def Obligations.ServiceOfTheDevice : Prop :=
  ∀ (s : State),
    let d := s.dev
    (s.evt = .deviceReset → ∃ t, exec .deviceReset s = .next t ∧ t.mem = [] ∧ t.tags = [] ∧ t.l2 = [] ∧ t.fams = [] ∧
      t.slices = [] ∧ t.reqs = [] ∧ t.agenda = [] ∧
      t.dev.service = if Config.imageValid d.flash.1 = true ∧ Config.fusedMinSvn ≤ d.flash.2 then .reduced else .recovery) ∧
    (∀ image svn, s.evt = .imageLoad image svn → d.service = .recovery →
      ∃ t, exec .imageLoad s = .next t ∧ t.mem = s.mem ∧
        if Config.imageValid image = true ∧ Config.fusedMinSvn ≤ svn then
          t.dev.service = .reduced ∧ t.dev.image = image ∧ t.dev.msix = d.msix ++ [0]
        else t.dev = { d with mailErr := Config.failureCode image }) ∧
    (∀ bad, s.evt = .trainingComplete bad → d.service = .reduced → d.trained = none → (∀ k ∈ bad, k < 128) →
      ∃ t, exec .trainingComplete s = .next t ∧ t.mem = s.mem ∧
        (∀ k ∈ bad, (k / 32, k % 32) ∈ t.dev.retired) ∧
        (bad = [] → d.retired = [] → t.dev.trained = some s.now ∧
          { at_ := s.now + 120000000, what := .reducedSliceTimeout } ∈ t.agenda)) ∧
    (s.evt = .fullServiceEntry → d.service = .reduced → d.trained.isSome = true → (∀ x ∈ s.slices, x.st ≠ .running) →
      ∃ t, exec .fullServiceEntry s = .next t ∧ t.mem = s.mem ∧ t.dev.service = .full ∧
        ∀ i : Fin 4, t.dev.mhz.get i = 1200) ∧
    (s.evt = .reducedSliceTimeout → d.service = .reduced → d.trained.isSome = true → (s.slices.map (·.uid)).Nodup →
      (∀ x ∈ s.slices, s.dying x.uid = false) →
      ∃ t, exec .reducedSliceTimeout s = .next t ∧ ∀ x ∈ t.slices, x.st ≠ .running) ∧
    (∀ nonce, s.evt = .attestationRequest nonce → ∃ t r, exec .attestationRequest s = .next t ∧ t.mem = s.mem ∧
      t.dev = { d with mailbox := d.mailbox ++ [r] } ∧ r.nonce = nonce ∧ r.dev = d.devid ∧ r.svn = d.svn ∧
      r.keys = Config.identityKeys ∧ r.sigs = Config.signReport r.text) ∧
    (∀ die up, s.evt = .clockStep die up → ∃ t, exec .clockStep s = .next t ∧ t.mem = s.mem ∧ t.now = s.now ∧
      ∀ i : Fin 4, (i.val ≠ die → t.dev.mhz.get i = d.mhz.get i) ∧
        (i.val = die → up = false → t.dev.mhz.get i = max 100 (d.mhz.get i - 100)) ∧
        (i.val = die → up = true → t.dev.mhz.get i =
          min (if d.service = .full ∨ (d.service = .failed ∧ d.trained.isSome = true) then 1200 else 600) (d.mhz.get i + 100))) ∧
    (∀ die, s.evt = .thermalStop die → ∃ t, exec .thermalStop s = .next t ∧ t.mem = s.mem ∧ t.dev.service = .failed ∧
      ∀ p ∈ s.parts, p.valid = true → p.gsst = .running → (∃ i < 5, p.hasSg (die * 5 + i) = true) →
        { at_ := s.now, what := .gsctlStop p.num } ∈ t.agenda) ∧
    (∀ die k, s.evt = .sliceRetire die k → die < 4 → k < 32 → (die, k) ∉ d.retired →
      ∃ t, exec .sliceRetire s = .next t ∧ t.mem = s.mem ∧ t.dev.retired = d.retired ++ [(die, k)] ∧
        ((∃ j < 32, j ≠ k ∧ (die, j) ∉ d.retired) → ∀ b < 1024, t.ownerOf die b ≠ k))

/-- R357, R359, R369: a replayed flit is counted, and the ninth failure, or no acknowledgement, fails its link; a failed link is
reported, in an event record and in DEGR, and what is in flight over it fails; and a link that has trained is up. -/
def Obligations.LinksFailAndTrain : Prop :=
  ∀ (s : State) k p, s.dev.port k = some p →
    let later (t : State) (e : Ev) : Prop := t.agenda.head? = some { at_ := s.now, what := e }
    (∀ again, s.evt = .linkFlitReplay k again → p.up = true → p.failed = false →
      ∃ t, exec .linkFlitReplay s = .next t ∧ t.mem = s.mem ∧
        (again = true ∧ 8 ≤ p.replays → later t (.linkFailure k)) ∧
        (again = false ∨ p.replays < 8 →
          t.dev.port k = some { p with replays := if again then p.replays + 1 else 1 } ∧ t.agenda = s.agenda)) ∧
    (s.evt = .linkAckTimeout k → p.up = true → p.failed = false →
      ∃ t, exec .linkAckTimeout s = .next t ∧ t.mem = s.mem ∧ later t (.linkFailure k)) ∧
    (s.evt = .linkFailure k → p.up = true → p.failed = false →
      ∃ t, exec .linkFailure s = .next t ∧ t.mem = s.mem ∧
        t.dev.port k = some { p with up := false, failed := true } ∧
        t.dev.events.getLast? = some { what := "link failed", a := k, b := 0, time := s.tsc } ∧
        t.dev.degr = min 15 (t.dev.retired.length + t.dev.ports.toList.countP (·.failed)) ∧
        ∀ r ∈ s.reqs, r.st = .performed ∨ (r.st = .sent ∧ r.from_ ≤ s.now ∧ ∃ op v, r.kind = .fe op v) →
          r.parts = [] → r.lanes = [] → (∃ v ∈ r.via, v.2 = k) → { at_ := s.now, what := .errorResponse r.tok } ∈ t.agenda) ∧
    (∀ half, s.evt = .linkTraining k half → s.dev.service = .full → ∃ t, exec .linkTraining s = .next t ∧ t.mem = s.mem ∧
      t.dev.port k = some { up := true, half := half, failed := false, replays := 0 })

/-- R38, R40, R249, R363 to R369, R386: the host's window on memory, the reads and writes of the control window, core control and
core reset, and the code that the firmware starts.  A read that finds an uncorrectable error completes with an error, and an
offset that is no multiple of the window's size is not taken (DESIGN CHOICE, log entries 64 and 29).  That core reset ends the
families of its core is the model's choice (DESIGN CHOICE, log entry 51). -/
def Obligations.HostAndFirmwareAccess : Prop :=
  ∀ (s : State), s.Sound →
    (∀ write addr n v, s.evt = .hostBar2Access write addr n v →
      let pa := s.dev.bar2.toNat + addr
      (s.bar2Bad addr n = false → write = true → ∃ t, exec .hostBar2Access s = .next t ∧
        Memory.bytes t.mem pa n = toLe n v.toNat ∧
        ∀ a, (a < pa ∨ pa + n ≤ a) → Memory.get t.mem a = Memory.get s.mem a) ∧
      (s.bar2Bad addr n = false → write = false → s.spoilt pa n = false ∨ s.l2Hit pa n = true →
        ∃ t, exec .hostBar2Access s = .next t ∧ t.mem = s.mem ∧
        t.dev = { s.dev with hostRead := leVal (Memory.bytes s.mem pa n) }) ∧
      (s.bar2Bad addr n = false → write = false → s.spoilt pa n = true → s.l2Hit pa n = false →
        ∃ t, exec .hostBar2Access s = .next t ∧ t.mem = s.mem ∧
        t.dev.unsupported = s.dev.unsupported + 1 ∧ t.dev.violCount = s.dev.violCount) ∧
      (s.bar2Bad addr n = true → ∃ t, exec .hostBar2Access s = .next t ∧ t.mem = s.mem ∧
        t.dev.unsupported = s.dev.unsupported + 1 ∧ t.dev.violCount = s.dev.violCount + 1)) ∧
    (∀ off, s.evt = .controlRead off →
      (∀ v, s.controlWord off = some v → ∃ t, exec .hostBar2Access s = .next t ∧ t.mem = s.mem ∧
        t.dev = { s.dev with hostRead := v.toNat }) ∧
      (s.controlWord off = none → ∃ t, exec .hostBar2Access s = .next t ∧ t.mem = s.mem ∧
        t.dev.unsupported = s.dev.unsupported + 1 ∧ t.dev.violCount = s.dev.violCount + 1)) ∧
    (∃ v, s.controlWord 0 = some v ∧ (v.extractLsb' 32 8).toNat = s.dev.svn % 256 ∧
      (v.extractLsb' 26 6).toNat = s.dev.devid % 64 ∧ (v.extractLsb' 4 4).toNat = s.dev.degr % 16 ∧
      (v.extractLsb' 0 4).toNat = match s.dev.service with
        | .rom => 0
        | .reduced => 1
        | .full => 2
        | .recovery => 3
        | .failed => 4) ∧
    (∀ off v, s.evt = .registerWrite false off v → s.dev.service = .full →
      (off = 0x100 → ∃ t, exec .registerWrite s = .next t ∧ t.mem = s.mem ∧
        (v.toNat % s.dev.bar2Size = 0 → t.dev = { s.dev with bar2 := v }) ∧
        (v.toNat % s.dev.bar2Size ≠ 0 → t.dev.bar2 = s.dev.bar2)) ∧
      (∀ part k, part < 20 → k < 8 → off = 0x100000 + 0x10000 * part + (0x200 + 8 * k) →
        ∃ t, exec .registerWrite s = .next t ∧ t.mem = s.mem ∧
          t.agenda.head? = some { at_ := s.now, what := .doorbell part k }) ∧
      (∀ cid, cid < 1280 → off = 0x300000 + 0x40 * cid → ∃ t, exec .registerWrite s = .next t ∧ t.mem = s.mem ∧
        t.agenda.head? = some { at_ := s.now, what := .coreControlWrite cid v })) ∧
    (∀ cid v, s.evt = .coreControlWrite cid v → ∃ t, exec .coreControlWrite s = .next t ∧ t.mem = s.mem ∧
      ∀ slot < 17, ∀ th, s.thread cid slot = some th → t.thread cid slot = some
        (if v.getLsbD slot = true ∧ th.hold = .wait .halted then { th with hold := .none } else th)) ∧
    (∀ cid, s.evt = .coreReset cid → ∃ t, exec .coreReset s = .next t ∧ (∀ slot, t.thread cid slot = none) ∧
      (∀ off < 2 ^ 20, Memory.get t.mem (scratchPa cid 0 + off) = 0#8) ∧
      (∀ d ∈ t.agenda, Ev.ofCore d.what cid = false) ∧ (∀ f ∈ t.fams, f.cid = cid → f.kind = .root) ∧
      ((∀ f ∈ s.fams, f.cid ≠ cid ∧ ∀ x ∈ f.shares, x.cid ≠ cid) →
        (∀ a, (a < scratchPa cid 0 ∨ scratchPa cid 0 + 2 ^ 20 ≤ a) → Memory.get t.mem a = Memory.get s.mem a) ∧
        ∀ c, c ≠ cid → t.core c = s.core c)) ∧
    (∀ cid slot pc, s.evt = .stewardStart cid slot pc → slot ∈ s.freeSlots cid →
      ∃ t th, exec .stewardStart s = .next t ∧ t.mem = s.mem ∧ t.thread cid slot = some th ∧ th.sys = true ∧
        th.pc = pc &&& ~~~7#64 ∧ th.csr.estat = 0#64)

/-- R319, R365, R388 to R393: partitions are formed, with a walker on each of their cores, and dissolved; a stop ends issue
and records each core once all is calm; go and end follow a stop.  A gang switch withdraws the partition's waits and stops it, and saves it
once it is drained: the region of each core in the save area holds the core's banks, registers and accumulators, its L1 cleaned, the
partition's cores are free, and what another partition's access waited for in its banks is kept as a message.  Switch-in puts each core
back from its region as it was saved, with the bytes and tags of its scratch banks; then the messages follow, in their order, and the
partition runs.  A message for a partition that is out is kept, behind the section where that is full.  Memory that the forming of a
partition leaves as it is, is DEDUCED (log entry 30); that every core's stopck is recorded in one cycle (log entry 6), where a region has
each register, that the tables and the messages stand in lists of the partition's and change no byte of memory, and that an access that
waited comes to its bank again are the model's choices (log entry 34). -/
def Obligations.PartitionsAreControlled : Prop :=
  ∀ (s : State) part,
    let p := s.part part
    let mine (cid : Nat) : Bool := p.hasSg (sgOf cid)
    let area (cid : Nat) : Nat := p.region (((sgsCores p.sgs).idxOf? cid).getD 0)
    (∀ v fw, s.evt = .partitionForm part v fw → part < 20 → p.valid = false → v.getLsbD 63 = true → psgBad v = false →
      v.setWidth 20 ≠ 0#20 →
      (∀ q ∈ s.parts, q.valid = true → q.gsst ≠ .out → q.sgs &&& v.setWidth 20 = 0#20) →
      ∃ t, exec .partitionForm s = .next t ∧ t.mem = s.mem ∧ (t.part part).valid = true ∧
        (t.part part).sgs = v.setWidth 20 ∧ (t.part part).gsst = .running ∧ (t.part part).revCap = fw.revBytes / 72 ∧
        ∀ cid, cid < 1280 → v.getLsbD (sgOf cid) = true → ∃ th, t.thread cid 16 = some th ∧ th.sys = true ∧
          th.pc = fw.wentry &&& ~~~7#64 ∧ (t.core cid).ptroot = fw.ptroot &&& ~~~0xFFFF#64) ∧
    (∀ v, s.evt = .partitionDissolve part v → p.valid = true → v.getLsbD 63 = false → psgBad v = false →
      p.gsst = .out ∨ (p.gsst = .stopped ∧ p.gsEnded = true) →
      ∃ t, exec .partitionDissolve s = .next t ∧ (t.part part).valid = false ∧ (∀ f ∈ t.fams, f.part ≠ part) ∧
        ∀ x ∈ t.slices, x.part ≠ part) ∧
    (s.evt = .gsctlStop part → p.valid = true → ∃ t, exec .gsctlStop s = .next t ∧ t.mem = s.mem ∧
      (p.gsst = .running → (t.part part).gsst = .stopping) ∧
      (p.gsst = .stopping → s.calm p = true → (t.part part).gsst = .stopped ∧
        ∀ cid ∈ sgsCores p.sgs, (t.core cid).stopck = s.ck cid) ∧
      (p.gsst = .stopping → s.calm p = false → (t.part part).gsst = .stopping ∧
        { at_ := s.now + 1, what := .gsctlStop part } ∈ t.agenda)) ∧
    (s.evt = .gsctlGo part → p.valid = true → p.gsst = .stopped → ∃ t, exec .gsctlGo s = .next t ∧ t.mem = s.mem ∧
      (t.part part).gsst = .running) ∧
    (s.evt = .gsctlEnd part → p.valid = true → p.gsst = .stopped → (s.slices.map (·.uid)).Nodup →
      (∀ x ∈ s.slices, x.part = part → s.dying x.uid = false) →
      ∃ t, exec .gsctlEnd s = .next t ∧
      (t.part part).gsst = .stopped ∧ (t.part part).gsEnded = true ∧ ∀ x ∈ t.slices, x.part = part → x.st = .ended) ∧
    (s.evt = .gangSwitch part → p.valid = true → p.swtime ≠ 0#64 → p.swtime.toNat ≤ s.tsc →
      ∃ t, exec .gangSwitch s = .next t ∧
        (p.gsst = .saving →
          let u : State := s.cores.foldl (fun u c => if mine c.cid then u.releaseLines c.cid else u) s
          (t.part part).gsst = .out ∧ (t.part part).swtime = 0#64 ∧ (∀ cid slot, mine cid = true → t.thread cid slot = none) ∧
          (t.part part).saved = (u.cores.filter fun c => mine c.cid).map (fun c =>
            { c with l1 := [], tlb1 := [], tlb2 := [], mbox := [], ibuf := [] }) ∧
          (s.Sound → (∀ cid ∈ sgsCores p.sgs, (u.core cid).Fits) →
            (∀ cid ∈ sgsCores p.sgs, (u.core cid).SavedAt u (area cid) t) ∧
            ∀ a, (a < p.saveBase ∨ p.region (sgsCores p.sgs).length ≤ a) → Memory.get t.mem a = Memory.get u.mem a) ∧
          ∀ r ∈ s.reqs, s.waitsIn p r = true → .homeRequest r.tok ∈ (t.part part).msgs ++ (t.part part).pent ∧
            ∀ q ∈ t.reqs, q.tok = r.tok → q.st = .sent) ∧
        (p.gsst = .running ∨ p.gsst = .stopping ∨ p.gsst = .stopped →
          let w : State := (s.withdraw p).updPart part fun p => { p with gsst := .stopping }
          t.mem = s.mem ∧ { at_ := s.now + 1, what := .gangSwitch part } ∈ t.agenda ∧
          (∀ r ∈ t.reqs, r.part = part → r.waitsAtWord = false) ∧
          (∀ cid slot th, mine cid = true → t.thread cid slot = some th → th.hold ≠ .wait .translation) ∧
          (w.drained p = true → (t.part part).gsst = .saving ∧ ∀ cid ∈ sgsCores p.sgs, (t.core cid).stopck = w.ck cid) ∧
          (w.drained p = false → (t.part part).gsst = .stopping))) ∧
    (s.evt = .gsctlSwitchIn part → p.valid = true →
      (∀ q ∈ s.parts, q.num ≠ part → q.valid = true → q.gsst ≠ .out → q.sgs &&& p.sgs = 0#20) →
      ∃ t, exec .gsctlSwitchIn s = .next t ∧
        (p.gsst = .out → (t.part part).gsst = .restoring ∧ { at_ := s.now + 1, what := .gsctlSwitchIn part } ∈ t.agenda ∧
          (s.Sound → (p.saved.map (·.cid)).Nodup → (∀ c ∈ p.saved, c.Fits ∧ mine c.cid = true) →
            ∀ c ∈ p.saved, ∀ u, c.SavedAt u (area c.cid) s → t.core c.cid = c.putBack (s.core c.cid) ∧
              ∀ off < 2 ^ 20, c.scratchAt off = true →
                Memory.get t.mem (scratchPa c.cid off) = Memory.get u.mem (scratchPa c.cid off) ∧
                (scratchPa c.cid off / 8 ∈ t.tags ↔ scratchPa c.cid off / 8 ∈ u.tags))) ∧
        (p.gsst = .restoring → (t.part part).gsst = .running ∧ t.mem = s.mem ∧
          (t.part part).msgs = [] ∧ (t.part part).pent = [] ∧ (t.part part).heldIn = [] ∧
          ∃ rest, t.agenda = (p.msgs ++ p.pent ++ p.heldIn).map (fun e => { at_ := s.now, what := e }) ++ rest)) ∧
    (∀ tok r e, s.evt = .messageSave part tok → s.req tok = some r → p.away = true →
      (r.st = .sent ∧ e = .homeRequest tok) ∨ (r.st = .performed ∧ e = if r.err.isSome then .errorResponse tok else
        match r.kind with
        | .store _ => .storeAck tok
        | .vstore _ => .storeAck tok
        | _ => .loadResponse tok) →
      ∃ t, exec .messageSave s = .next t ∧ t.mem = s.mem ∧ t.reqs = s.reqs ∧
        (p.msgs.length < p.msgRoom → (t.part part).msgs = p.msgs ++ [e]) ∧
        (p.msgRoom ≤ p.msgs.length → (t.part part).pent = p.pent ++ [e]))

/-- R40, R302, R370: what core reset leaves, and a core in the machine after device reset: no thread, empty tables and queues, the
accumulators and planes of R40, banks 0 to 11 scratch, their bytes 0 and their tags empty, and the others cache, and the registers
0; the device then is in ROM, with memory in its canonical form and every tag empty.  The clauses on the reset state rest on R302
and R370; the counter's own start is the model's (log entry 4). -/
def Obligations.ResetState : Prop :=
  let left (c : Core) : Prop := (∀ slot, c.thread slot = none) ∧ c.runs = [] ∧ c.regUse = [] ∧
    (∀ i : Fin 8, c.ents.get i = none ∧ c.gens.get i = 0#32) ∧ (∀ k < 4, c.accAt k = Acc.zero) ∧ c.spall = [] ∧
    c.active = none ∧ c.shadow = .empty ∧ (∀ t, c.tile t = Tile.zero) ∧ c.cq = [] ∧ c.cqHalted = false ∧ c.l1 = [] ∧
    (∀ b < 32, c.bank b = if b < 12 then bankScratch else bankCache) ∧
    c.mctl = 0#64 ∧ c.finj = 0#64 ∧ c.sfb = 0#64 ∧ c.sfs = 0#64
  State.reset.Sound ∧ State.reset.tags = [] ∧ State.reset.dev.service = .rom ∧
  (∀ cid, left (State.reset.core cid) ∧ State.reset.ck cid = 0#64) ∧
  ∀ (s : State) cid, s.evt = .coreReset cid → cid < 1280 →
    ∃ t, exec .coreReset s = .next t ∧ left (t.core cid) ∧ t.ck cid = 0#64 ∧
      (∀ w, scratchPa cid 0 ≤ w * 8 → w * 8 < scratchPa cid 0 + 2 ^ 20 → w ∉ t.tags) ∧
      (s.Sound → ∀ off < 2 ^ 20, Memory.get t.mem (scratchPa cid 0 + off) = 0#8)

/-- The rule that every machine step keeps: memory is in its canonical form, whatever the step runs. -/
def Obligations.MemoryStaysCanonical : Prop := ∀ s t, s.Sound → step s = .next t → t.Sound

/-- No step stops the machine: from every state a run of any length goes on. -/
def Obligations.NoRunStops : Prop := ∀ s, SafeFrom s

/-- What a step runs.  A due step of the machine comes first, then each core's turn, then the due steps that come behind the
turns, an input, and the end of the cycle; a message of a switched-out partition is kept (R392).  In its turn a core commits a
held bundle that has its answer, or takes the trap that its A-slot has met; else its first ready slot issues the bundle at its PC: both slots run on the state before it, the
C-slot last, and the turn ends.  A fault of the fetch, a held fault at its delivery point, a C-slot that decodes to no instruction
or traps at decode take the trap; and a C-slot that holds its thread, and may yet end in a cause, keeps its A-slot's results
aside, and its trap where that cause may come before any effect.  A bundle's accesses made at once take their slots behind it (R354).  The bytes fetched are those at the bundle's physical address (R41, R44, R45, R220, R336, R337).  The model's choices are
the order of due steps, turns and inputs (DESIGN CHOICE, log entry 6), that fetched bytes are those below every revision (log
entry 10), that a held bundle keeps the words it issued with (log entry 39), that its A-slot's results, or its trap, are set aside (log
entry 32), and which slots accesses made at once take (log entry 76). -/
def Obligations.StepRunsDecodedInstruction : Prop :=
  ∀ (s : State),
    let runs (d : Due) : Prop :=
      let z : State := { s with agenda := s.agenda.erase d, evt := d.what }
      (s.awayMsg d.what = none → step s = exec d.what.instr z) ∧
      (∀ p, s.awayMsg d.what = some p → step s = .next (z.keepMsg p.num d.what))
    let quiet : Prop := s.dueNext 0 = none
    (∀ d, s.dueNext 0 = some d → runs d) ∧
    (quiet → s.turn = [] → s.turnAt ≠ s.now → step s = .next s.formTurn) ∧
    (quiet → s.turn = [] → s.turnAt = s.now →
      (∀ d, s.dueNext 1 = some d → runs d) ∧ (∀ d, s.dueNext 1 = none → s.dueNext 2 = some d → runs d) ∧
      (s.dueNext 1 = none → s.dueNext 2 = none →
        (∀ e es, s.inputs = e :: es → step s = exec e.instr { s with inputs := es, evt := e }) ∧
        (s.inputs = [] → (∀ r ∈ s.reqs, r.overdue s.now = false) → step s = .next s.nextCycle))) ∧
    (∀ cid rest k ks v c u, quiet → s.turn = cid :: rest → s.answeredSlots cid = k :: ks →
      let z := s.issuing cid k
      z.me.hold = .done v → decodeC (z.me.latch.toNat % 2 ^ 32) (z.me.latch.toNat / 2 ^ 32) = .ok c → exec c z = .next u →
      (u.cur.res = .committed → z.me.asideTrap = none → ∀ w, exec c z.placeAside = .next w → w.cur.res ≠ .notReady →
        step s = .next w.tookSlots) ∧
      (∀ f, u.cur.res = .committed → z.me.asideTrap = some f → step s = .next (z.trapAside f)) ∧
      (u.cur.res ≠ .committed → u.cur.res ≠ .notReady →
        (u.cur.res = .held → (s.core cid).finjLater k u.cur.remote = false) → step s = .next u.tookSlots)) ∧
    (∀ cid rest k ks c t, quiet → s.turn = cid :: rest → s.answeredSlots cid = [] → s.issueOrder cid = k :: ks →
      (s.issuing cid k).me.stall = none → (s.issuing cid k).fetch = .fault c t →
      step s = .next ((t.takeTrap 1 c (memAddr c (s.issuing cid k).me.pc.toNat)).rotated cid k)) ∧
    (∀ cid rest k ks w0 w1 t, quiet → s.turn = cid :: rest → s.answeredSlots cid = [] →
      s.issueOrder cid = k :: ks → (s.issuing cid k).fetch = .ok w0 w1 t → t.me.errs = [] →
      (∀ f, t.heldFault w0 = some f → f.at_ < t.now → step s =
        .next (((t.updMe fun th => { th with held := th.held.drop 1 }).takeTrap 1 f.fail.cause f.fail.addr).rotated cid k)) ∧
      ((s.issuing cid k).me.stall = none → t.heldFault w0 = none →
       (∀ e, (decodeWords w0 w1).c = .error e →
         step s = .next ((t.takeTrap 2 (causeC t.cur.slot t.me.sys e) 0).rotated cid k)) ∧
       (∀ c a, (decodeWords w0 w1).c = .ok c → (decodeWords w0 w1).a = .ok a →
        (t.dev.service = .reduced → reducedA a = false) → (t.core t.cur.cid).finjOn t.cur.slot = false →
        let z : State := { t with cur := { t.cur with aDest := scalarDest a } }
        let latched (u : State) : State :=
          (u.tookSlots.latched t.cur.cid t.cur.slot (BitVec.ofNat 64 (w0 + w1 * 2 ^ 32))).rotated cid k
        ∀ rC rA, exec c z = .next rC → exec a z = .next rA →
          (rC.cur.res = .trapped 2 → step s = .next (rC.tookSlots.rotated cid k)) ∧
          (∀ j, sameDest c a = false → rA.cur.res = .trapped j → j ≠ 3 → rC.cur.res = .held → step s = .next
            (if !rC.sure c && rC.mayFailFirst c then latched (rC.setAside z [] fNone rA.cur.trap)
             else rA.tookSlots.rotated cid k)) ∧
          (sameDest c a = false → rA.cur.res = .committed → rC.cur.res = .held →
            (rC.sure c = false → step s = .next (latched (rC.setAside z (rA.addedTo z) rA.cur.aFlags none))) ∧
            (rC.sure c = true → ∀ u, exec c { rA with cur := { z.cur with aFlags := rA.cur.aFlags } } = .next u →
              u.cur.res = .held → step s = .next (latched (u.setAside z [] rA.cur.aFlags none)))) ∧
          (sameDest c a = false → rA.cur.res = .committed → rC.cur.res = .committed → ∀ u,
            exec c { rA with cur := { z.cur with aFlags := rA.cur.aFlags } } = .next u → u.cur.res = .committed →
            step s = .next (u.tookSlots.rotated cid k))))) ∧
    (∀ cid k x s', k ≠ 16 → (s.issuing cid k).me.pc.toNat % 8 = 0 →
      (s.issuing cid k).xlate cid (s.issuing cid k).me.pc.toNat 8 8 needFetch (!(s.issuing cid k).me.sys) false true = .ok x s' →
      x.pa % 64 = (s.issuing cid k).me.pc.toNat % 64 → (s'.core cid).ibLine ((s.issuing cid k).me.pc.toNat / 64) = none →
      s'.awayAt x.pa = none → s'.homeCause cid x.own false x.pa 8 2 = none →
      ∃ t, (s.issuing cid k).fetch = .ok (Memory.val s'.mem x.pa 4) (Memory.val s'.mem (x.pa + 4) 4) t) ∧
    (∀ cid x s', (s.issuing cid 16).xlate cid (s.issuing cid 16).me.pc.toNat 8 8 needFetch (!(s.issuing cid 16).me.sys) true true =
        .ok x s' → s'.awayAt x.pa = none → s'.homeCause cid x.own false x.pa 8 2 = none →
      x.pa = physAddr (s.issuing cid 16).me.pc.toNat ∧
      ∃ t, (s.issuing cid 16).fetch = .ok (Memory.val s'.mem x.pa 4) (Memory.val s'.mem (x.pa + 4) 4) t ∧ t.mem = s.mem)

/-- Bundles of the manual, word for word, decode to the instructions that they stand for (R41 to R62). -/
def Obligations.DecodingExamples : Prop :=
  let h : Hdr := { st := 0#3, lit := none }
  let lone (k : BitVec 32) : Hdr := { st := 0#3, lit := some k }
  let st (n : BitVec 3) : Hdr := { st := n, lit := none }
  let is (w : Nat) (c a : Instr) : Prop := decodeWords (w % 2 ^ 32) (w / 2 ^ 32) = { c := .ok c, a := .ok a }
  is 0x0001234580440000 (.li (lone 0x00012345#32) (.s 2#4) 0#12) .nop ∧
  is 0x0C85300020000000 (.cnop (st 2#3)) (.mul (.s 4#4) (.s 5#4) (.reg (.s 6#4) false)) ∧
  is 0x05042840050E1801 (.ld h (.s 7#4) (.s 1#4) { sz := 2#2, ord := 0#2, sc := .core, dsp := 1#5 })
    (.sub (.s 8#4) (.s 4#4) (.reg (.s 5#4) false)) ∧
  is 0x0000000001464004 (.bcNez h (.s 3#4) 4#14) .nop ∧
  is 0x0000000002882180 (.create h (.s 4#4) (.s 2#4) (.s 3#4)) .nop ∧
  is 0x4061100300000000 (.cnop h) (.vadd 3#4 1#4 (.v 2#4) { msk := 0#2, ty := .i32 }) ∧
  is 0x000000000B4510C0 (.cpyG2t h 5#6 (.s 2#4) (.s 3#4)) .nop

/-- R42, R49 to R62: a well-formed instruction's word, with its literal, decodes to the instruction again, but for MRES,
whose three operations share one word (R256). -/
def Obligations.EncodedInstructionsDecode : Prop :=
  (∀ i w, i.wf = true → encode i = some w → (∀ h ra, i ≠ .mresDiscard h ra ∧ i ≠ .mresMatrixReset h ra) →
    (∀ h, hdr? i = some h → decodeC w ((h.lit.map (·.toNat)).getD 0) = .ok i) ∧ (hdr? i = none → decodeA w = .ok i)) ∧
  ∀ h ra, encode (.mresDiscard h ra) = encode (.mresResume h ra) ∧
    encode (.mresMatrixReset h ra) = encode (.mresResume h ra)

/-- R42, R49 to R62: a word that decodes is the word of the instruction that it decodes to, which is well-formed, so that no
bit of a word is dropped and no two words stand for one instruction. -/
def Obligations.DecodedWordsEncode : Prop :=
  (∀ w k i, w < 2 ^ 32 → k < 2 ^ 32 → decodeC w k = .ok i → i.wf = true ∧ encode i = some w ∧
    ∃ h, hdr? i = some h ∧ ∀ l, h.lit = some l → l.toNat = k) ∧
  (∀ w i, w < 2 ^ 32 → decodeA w = .ok i → i.wf = true ∧ encode i = some w ∧ hdr? i = none)

/-- R44, R169, R203: what the memory, tile, matrix and copy instructions leave alone, whether they commit, hold their thread or
wait: each changes no register of its thread but its destinations, no mask, no dependent register, no entry of the return stack
and no thread CSR but fst; and those that store nothing change no byte of memory, but for what the release of a shared that is
sent to another core cleans (R269), and no tag. -/
def Obligations.RegistersAndMemoryElsewhere : Prop :=
  ∀ (i : Instr) (s t : State) (th : Thread), s.Stands → exec i s = .next t → (∀ k, t.cur.res ≠ .trapped k) →
    t.thread s.cur.cid s.cur.slot = some th → th.uid = s.me.uid →
    (keepsRegisters i = true →
      (∀ k : BitVec 4, Dest.s (.s k) ∉ destsC i → th.regs.s.get k.toFin = s.me.regs.s.get k.toFin) ∧
      (∀ k : BitVec 4, Dest.v k ∉ destsC i → th.regs.v.get k.toFin = s.me.regs.v.get k.toFin) ∧
      th.regs.m = s.me.regs.m ∧ th.regs.d = s.me.regs.d ∧ th.rstack = s.me.rstack ∧
      { th.csr with fst := 0#64 } = { s.me.csr with fst := 0#64 }) ∧
    (keepsMemory i = true → (s.me.sh = 0 → t.mem = s.mem) ∧ t.tags = s.tags)
end

