-- ==== Sys2Proof/Laws/Memory.lean ====
section
/-! SUPPORT. Memory as a list of cells: a read after a write, and the canonical form, which every memory operation keeps. -/

namespace Sys2Proof.Machine

/-! Reads after writes. -/

theorem Memory.get_below {lo : Nat} {m : List Host.Cell} (h : Memory.wfFrom (some lo) m = true) {a : Nat} (ha : a ≤ lo) :
    Memory.get m a = 0#8 := by
  cases m with
  | nil => rfl
  | cons c rest =>
    obtain ⟨k, b⟩ := c
    simp only [Memory.wfFrom, Bool.and_eq_true, decide_eq_true_eq] at h
    unfold Memory.get
    rw [if_neg (by omega), if_pos (by omega)]

theorem Memory.wfFrom_tail {lo : Option Nat} {k : Nat} {b : Byte} {m : List Host.Cell}
    (h : Memory.wfFrom lo ((k, b) :: m) = true) : Memory.wfFrom (some k) m = true := by
  simp only [Memory.wfFrom, Bool.and_eq_true] at h
  exact h.2

/-- A read after a write: the byte written, or the byte that stood there. -/
theorem Memory.get_put {lo : Option Nat} {m : List Host.Cell} (h : Memory.wfFrom lo m = true) (a : Nat) (b : Byte) (x : Nat) :
    Memory.get (Memory.put m a b) x = if x = a then b else Memory.get m x := by
  induction m generalizing lo with
  | nil =>
    unfold Memory.put
    by_cases hb : b = 0#8 <;> by_cases hx : x = a <;> simp [hb, hx, Memory.get]
    omega
  | cons c rest ih =>
    obtain ⟨k, v⟩ := c
    have ht := Memory.wfFrom_tail h
    unfold Memory.put
    split
    · by_cases hb : b = 0#8
      · by_cases hx : x = a
        · subst hx; simp only [hb, if_true, Memory.get]; rw [if_neg (by omega), if_pos (by omega)]
        · simp [hb, hx]
      · by_cases hx : x = a
        · simp [hb, hx, Memory.get]
        · simp only [hb, if_false, hx, Memory.get]
          rw [if_neg (Ne.symm hx)]
          split
          · rw [if_neg (by omega), if_pos (by omega)]
          · rfl
    · split
      · rename_i hk
        subst hk
        by_cases hb : b = 0#8
        · by_cases hx : x = a
          · subst hx; simp only [hb, if_true]; exact Memory.get_below ht (Nat.le_refl _)
          · simp only [hb, if_true, hx, if_false, Memory.get]
            rw [if_neg (Ne.symm hx)]
            split
            · exact Memory.get_below ht (by omega)
            · rfl
        · by_cases hx : x = a
          · simp [hb, hx, Memory.get]
          · simp only [hb, if_false, hx, Memory.get]
            rw [if_neg (Ne.symm hx), if_neg (Ne.symm hx)]
      · by_cases hx : x = a
        · subst hx
          simp only [Memory.get, if_true]
          rw [if_neg (by omega), if_neg (by omega), ih ht]
          simp
        · simp only [Memory.get, hx, if_false]
          split
          · rfl
          · split
            · rfl
            · rw [ih ht]; simp [hx]

/-! The canonical form. -/

theorem Memory.wfFrom_put {lo : Option Nat} {m : List Host.Cell} (h : Memory.wfFrom lo m = true) {a : Nat} (b : Byte)
    (ha : ∀ l, lo = some l → l < a) : Memory.wfFrom lo (Memory.put m a b) = true := by
  induction m generalizing lo with
  | nil =>
    unfold Memory.put
    split
    · rfl
    · rename_i hb
      cases lo with
      | none => simp [Memory.wfFrom, hb]
      | some l => simp [Memory.wfFrom, hb, ha l rfl]
  | cons c rest ih =>
    obtain ⟨k, v⟩ := c
    have ht := Memory.wfFrom_tail h
    have hv : (v != 0#8) = true := by simp only [Memory.wfFrom, Bool.and_eq_true] at h; exact h.1.2
    unfold Memory.put
    split
    · rename_i hlt
      split
      · exact h
      · rename_i hb
        cases lo with
        | none => simp [Memory.wfFrom, hb, hlt, hv, ht]
        | some l => simp [Memory.wfFrom, hb, hlt, hv, ht, ha l rfl]
    · split
      · rename_i hk
        subst hk
        split
        · cases lo with
          | none =>
            cases rest with
            | nil => rfl
            | cons c' r' =>
              obtain ⟨k', v'⟩ := c'
              simp only [Memory.wfFrom, Bool.and_eq_true] at ht ⊢
              exact ⟨⟨trivial, ht.1.2⟩, ht.2⟩
          | some l =>
            cases rest with
            | nil => rfl
            | cons c' r' =>
              obtain ⟨k', v'⟩ := c'
              have := ha l rfl
              simp only [Memory.wfFrom, Bool.and_eq_true, decide_eq_true_eq] at ht ⊢
              exact ⟨⟨by omega, ht.1.2⟩, ht.2⟩
        · rename_i hb
          cases lo with
          | none => simp [Memory.wfFrom, hb, ht]
          | some l => simp [Memory.wfFrom, hb, ht, ha l rfl]
      · have hr := ih ht (by intro l hl; cases hl; omega)
        simp only [Memory.wfFrom, Bool.and_eq_true] at h ⊢
        exact ⟨h.1, hr⟩

/-- A write keeps the canonical form. -/
theorem Memory.wf_put {m : List Host.Cell} (h : Memory.wf m = true) (a : Nat) (b : Byte) :
    Memory.wf (Memory.put m a b) = true :=
  Memory.wfFrom_put h b (by intro l hl; cases hl)

theorem Memory.wf_putAll {m : List Host.Cell} (h : Memory.wf m = true) (a : Nat) (bs : List Byte) :
    Memory.wf (Memory.putAll m a bs) = true := by
  induction bs generalizing m a with
  | nil => exact h
  | cons b bs ih => exact ih (Memory.wf_put h a b) (a + 1)

theorem Memory.wfFrom_mono {lo hi : Nat} {m : List Host.Cell} (h : Memory.wfFrom (some hi) m = true) (hl : lo ≤ hi) :
    Memory.wfFrom (some lo) m = true := by
  cases m with
  | nil => rfl
  | cons c rest =>
    obtain ⟨k, b⟩ := c
    simp only [Memory.wfFrom, Bool.and_eq_true, decide_eq_true_eq] at h ⊢
    exact ⟨⟨by omega, h.1.2⟩, h.2⟩

theorem Memory.wfFrom_filter {lo : Nat} {m : List Host.Cell} (h : Memory.wfFrom (some lo) m = true) (p : Host.Cell → Bool) :
    Memory.wfFrom (some lo) (m.filter p) = true := by
  induction m generalizing lo with
  | nil => rfl
  | cons c rest ih =>
    obtain ⟨k, b⟩ := c
    have hr := ih (Memory.wfFrom_tail h)
    simp only [Memory.wfFrom, Bool.and_eq_true, decide_eq_true_eq] at h
    rw [List.filter_cons]
    split
    · simp [Memory.wfFrom, h.1.1, h.1.2, hr]
    · exact Memory.wfFrom_mono hr (by omega)

/-- Cells removed leave the form canonical. -/
theorem Memory.wf_filter {m : List Host.Cell} (h : Memory.wf m = true) (p : Host.Cell → Bool) :
    Memory.wf (m.filter p) = true := by
  cases m with
  | nil => rfl
  | cons c rest =>
    obtain ⟨k, b⟩ := c
    have hr := Memory.wfFrom_filter (Memory.wfFrom_tail h) p
    simp only [Memory.wf, Memory.wfFrom, Bool.and_eq_true] at h ⊢
    rw [List.filter_cons]
    split
    · simp [Memory.wfFrom, h.1.2, hr]
    · cases hm : rest.filter p with
      | nil => rfl
      | cons c' r' =>
        obtain ⟨k', b'⟩ := c'
        rw [hm] at hr
        simp only [Memory.wfFrom, Bool.and_eq_true] at hr ⊢
        exact ⟨⟨trivial, hr.1.2⟩, hr.2⟩

/-- Cells written one after the other, as a restored save area writes them, leave the form canonical. -/
theorem Memory.wf_foldl_put {m : List Host.Cell} (h : Memory.wf m = true) (cs : List Host.Cell) :
    Memory.wf (cs.foldl (fun m c => Memory.put m c.1 c.2) m) = true := by
  induction cs generalizing m with
  | nil => exact h
  | cons c cs ih => exact ih (Memory.wf_put h c.1 c.2)

/-! Bytes. -/

@[simp] theorem Memory.length_bytes (m : List Host.Cell) (a n : Nat) : (Memory.bytes m a n).length = n := by
  induction n generalizing a with
  | zero => rfl
  | succ n ih => simp [Memory.bytes, ih]

/-- A byte read after several were written. -/
theorem Memory.get_putAll {m : List Host.Cell} (h : Memory.wf m = true) (a : Nat) (bs : List Byte) (x : Nat) :
    Memory.get (Memory.putAll m a bs) x = if a ≤ x ∧ x < a + bs.length then bs.getD (x - a) 0#8 else Memory.get m x := by
  induction bs generalizing m a with
  | nil => rw [if_neg (by simp only [List.length_nil]; omega)]; rfl
  | cons b bs ih =>
    unfold Memory.putAll
    rw [ih (Memory.wf_put h a b), Memory.get_put h]
    by_cases hx : x = a
    · subst hx
      rw [if_neg (by omega), if_pos rfl, if_pos (by simp)]
      simp
    · by_cases hin : a + 1 ≤ x ∧ x < a + 1 + bs.length
      · rw [if_pos hin, if_pos (by simp; omega)]
        obtain ⟨d, rfl⟩ : ∃ d, x = a + 1 + d := ⟨x - (a + 1), by omega⟩
        have e : a + 1 + d - a = d + 1 := by omega
        rw [e]
        simp
      · rw [if_neg hin, if_neg hx, if_neg (by simp; omega)]

/-! The operations of the machine that write memory. -/

theorem State.reset_sound : State.reset.Sound := rfl

theorem State.Sound.congr {s t : State} (h : s.Sound) (hm : t.mem = s.mem) : t.Sound := by
  unfold State.Sound; rw [hm]; exact h

@[simp] theorem State.l2Dirty_mem (s : State) (pa : Nat) : (s.l2Dirty pa).mem = s.mem := rfl

theorem State.Sound.putByte {s : State} (h : s.Sound) (part : Nat) (lvl : Option Nat) (va pa : Nat) (b : Byte) :
    (s.putByte part lvl va pa b).Sound := by
  unfold State.putByte
  split
  · exact Memory.wf_put h pa b
  · exact h.congr rfl

theorem State.Sound.putBytesGo {s : State} (h : s.Sound) (part : Nat) (lvl : Option Nat) (va pa : Nat) (bs : List Byte) :
    (s.putBytesGo part lvl va pa bs).Sound := by
  induction bs generalizing s va pa with
  | nil => exact h
  | cons b bs ih => exact ih (h.putByte part lvl va pa b) (va + 1) (pa + 1)

theorem foldl_mem {α : Type} (f : State → α → State) (hf : ∀ s x, (f s x).mem = s.mem) (l : List α) (s : State) :
    (l.foldl f s).mem = s.mem := by
  induction l generalizing s with
  | nil => rfl
  | cons x l ih => rw [List.foldl_cons, ih, hf]

theorem foldl_sound {α : Type} (f : State → α → State) (hf : ∀ s x, s.Sound → (f s x).Sound) (l : List α) {s : State}
    (h : s.Sound) : (l.foldl f s).Sound := by
  induction l generalizing s with
  | nil => exact h
  | cons x l ih => exact ih (hf s x h)

theorem State.Sound.zeroBank {s : State} (h : s.Sound) (cid b : Nat) : (s.zeroBank cid b).Sound := Memory.wf_filter h _

theorem State.Sound.putBack {s : State} (h : s.Sound) (p : Part) : (s.putBack p).Sound :=
  Memory.wf_foldl_put (Memory.wf_filter h _) _

theorem State.Sound.saveBanks {s : State} (h : s.Sound) (p : Part) : (s.saveBanks p).Sound :=
  Memory.wf_foldl_put (Memory.wf_filter h _) _

@[simp] theorem State.keepMsg_mem (s : State) (part : Nat) (e : Ev) : (s.keepMsg part e).mem = s.mem := rfl

theorem State.Sound.loaded {s : State} (h : s.Sound) (bs : List Byte) : (s.loaded bs).Sound := Memory.wf_putAll h _ bs

@[simp] theorem State.l2Alloc_mem (s : State) (pa : Nat) (sectors : BitVec 4) (wmask : BitVec 256) :
    (s.l2Alloc pa sectors wmask).mem = s.mem := by
  unfold State.l2Alloc
  dsimp only [State.fresh]
  split <;> rfl

@[simp] theorem State.l2Touch_mem (s : State) (pa cache n : Nat) : (s.l2Touch pa cache n).mem = s.mem := by
  unfold State.l2Touch
  repeat' split
  all_goals simp

@[simp] theorem State.l2Wrote_mem (s : State) (pa cache n : Nat) : (s.l2Wrote pa cache n).mem = s.mem := by
  unfold State.l2Wrote
  repeat' split
  all_goals simp

@[simp] theorem State.wakeWaiters_mem (s : State) (pa n at_ : Nat) : (s.wakeWaiters pa n at_).mem = s.mem := by
  unfold State.wakeWaiters
  exact foldl_mem _ (by intro s x; dsimp only; split <;> rfl) _ _

@[simp] theorem State.tailReport_mem (s : State) (lvl : Option Nat) (pa n : Nat) : (s.tailReport lvl pa n).mem = s.mem := by
  unfold State.tailReport
  split
  · rfl
  · exact foldl_mem _ (by intro s x; rfl) _ _

@[simp] theorem State.pendReport_mem (s : State) (lvl : Option Nat) (pa n : Nat) : (s.pendReport lvl pa n).mem = s.mem := by
  unfold State.pendReport
  split
  · rfl
  · exact foldl_mem _ (by intro s x; split <;> rfl) _ _

theorem State.Sound.putBytesAt {s : State} (h : s.Sound) (part : Nat) (lvl : Option Nat) (va pa at_ : Nat) (bs : List Byte) :
    (s.putBytesAt part lvl va pa at_ bs).Sound :=
  (h.putBytesGo part lvl va pa bs).congr (by simp [State.putBytesAt])

theorem State.Sound.putBytes {s : State} (h : s.Sound) (part : Nat) (lvl : Option Nat) (va pa : Nat) (bs : List Byte) :
    (s.putBytes part lvl va pa bs).Sound := h.putBytesAt part lvl va pa s.now bs

theorem State.Sound.putTile {s : State} (h : s.Sound) (cid t off : Nat) (bs : List Byte) : (s.putTile cid t off bs).Sound :=
  h.putBytes 0 none 0 _ bs

theorem State.Sound.putDwords {s : State} (h : s.Sound) (pa : Nat) (ws : List W64) : (s.putDwords pa ws).Sound := by
  induction ws generalizing s pa with
  | nil => exact h
  | cons w ws ih => exact ih (State.Sound.putBytes (h.congr (by simp)) _ _ _ _ _) _

theorem State.Sound.cleanLine {s : State} (h : s.Sound) (l : L1Line) : (s.cleanLine l).Sound := by
  unfold State.cleanLine
  split
  · exact h
  · refine foldl_sound _ (fun s k hs => ?_) _ h
    split
    · exact (hs.congr (State.l2Wrote_mem s _ _ _)).putBytes _ _ _ _ _
    · exact hs

theorem State.Sound.l1Clean {s : State} (h : s.Sound) (cid : Nat) (p : L1Line → Bool) : (s.l1Clean cid p).2.Sound :=
  (foldl_sound _ (fun _ l hs => hs.cleanLine l) _ h).congr rfl

theorem State.Sound.releaseLines {s : State} (h : s.Sound) (cid : Nat) : (s.releaseLines cid).Sound := h.l1Clean cid _

theorem State.Sound.l1Alloc {s : State} (h : s.Sound) (cid pa : Nat) : (s.l1Alloc cid pa).Sound := by
  unfold State.l1Alloc
  dsimp only [State.fresh]
  split
  · exact h
  · split
    · exact h.congr rfl
    · split
      · exact h.congr rfl
      · exact (State.Sound.cleanLine (s := { s with ctr := s.ctr + 1 }) (h.congr rfl) _).congr rfl

theorem State.Sound.l1Fill {s : State} (h : s.Sound) (cid pa : Nat) : (s.l1Fill cid pa).Sound := (h.l1Alloc cid pa).congr rfl

theorem State.Sound.l1Store {s : State} (h : s.Sound) (cid pa : Nat) (bs : List Byte) : (s.l1Store cid pa bs).Sound :=
  (h.l1Alloc cid pa).congr rfl

end Sys2Proof.Machine
end

