-- ==== Sys2Proof/Laws/State.lean ====
section
/-! SUPPORT. What each update of the state leaves: one lemma for each field that an update does not touch. -/

namespace Sys2Proof.Machine

variable (s : State)

/-! setCore changes cores. -/

@[simp] theorem State.setCore_now (c : Core) : (s.setCore c).now = s.now := rfl

@[simp] theorem State.setCore_dieCyc (c : Core) : (s.setCore c).dieCyc = s.dieCyc := rfl

@[simp] theorem State.setCore_mem (c : Core) : (s.setCore c).mem = s.mem := rfl

@[simp] theorem State.setCore_tags (c : Core) : (s.setCore c).tags = s.tags := rfl

@[simp] theorem State.setCore_bad (c : Core) : (s.setCore c).bad = s.bad := rfl

@[simp] theorem State.setCore_l2 (c : Core) : (s.setCore c).l2 = s.l2 := rfl

@[simp] theorem State.setCore_fams (c : Core) : (s.setCore c).fams = s.fams := rfl

@[simp] theorem State.setCore_slices (c : Core) : (s.setCore c).slices = s.slices := rfl

@[simp] theorem State.setCore_purges (c : Core) : (s.setCore c).purges = s.purges := rfl

@[simp] theorem State.setCore_reqs (c : Core) : (s.setCore c).reqs = s.reqs := rfl

@[simp] theorem State.setCore_bars (c : Core) : (s.setCore c).bars = s.bars := rfl

@[simp] theorem State.setCore_parts (c : Core) : (s.setCore c).parts = s.parts := rfl

@[simp] theorem State.setCore_contq (c : Core) : (s.setCore c).contq = s.contq := rfl

@[simp] theorem State.setCore_travs (c : Core) : (s.setCore c).travs = s.travs := rfl

@[simp] theorem State.setCore_dev (c : Core) : (s.setCore c).dev = s.dev := rfl

@[simp] theorem State.setCore_agenda (c : Core) : (s.setCore c).agenda = s.agenda := rfl

@[simp] theorem State.setCore_inputs (c : Core) : (s.setCore c).inputs = s.inputs := rfl

@[simp] theorem State.setCore_turn (c : Core) : (s.setCore c).turn = s.turn := rfl

@[simp] theorem State.setCore_turnAt (c : Core) : (s.setCore c).turnAt = s.turnAt := rfl

@[simp] theorem State.setCore_idle (c : Core) : (s.setCore c).idle = s.idle := rfl

@[simp] theorem State.setCore_cur (c : Core) : (s.setCore c).cur = s.cur := rfl

@[simp] theorem State.setCore_evt (c : Core) : (s.setCore c).evt = s.evt := rfl

@[simp] theorem State.setCore_ctr (c : Core) : (s.setCore c).ctr = s.ctr := rfl

@[simp] theorem State.setCore_freeCtr (c : Core) : (s.setCore c).freeCtr = s.freeCtr := rfl

/-! updCore changes cores. -/

@[simp] theorem State.updCore_now (n : Nat) (f : Core → Core) : (s.updCore n f).now = s.now := rfl

@[simp] theorem State.updCore_dieCyc (n : Nat) (f : Core → Core) : (s.updCore n f).dieCyc = s.dieCyc := rfl

@[simp] theorem State.updCore_mem (n : Nat) (f : Core → Core) : (s.updCore n f).mem = s.mem := rfl

@[simp] theorem State.updCore_tags (n : Nat) (f : Core → Core) : (s.updCore n f).tags = s.tags := rfl

@[simp] theorem State.updCore_bad (n : Nat) (f : Core → Core) : (s.updCore n f).bad = s.bad := rfl

@[simp] theorem State.updCore_l2 (n : Nat) (f : Core → Core) : (s.updCore n f).l2 = s.l2 := rfl

@[simp] theorem State.updCore_fams (n : Nat) (f : Core → Core) : (s.updCore n f).fams = s.fams := rfl

@[simp] theorem State.updCore_slices (n : Nat) (f : Core → Core) : (s.updCore n f).slices = s.slices := rfl

@[simp] theorem State.updCore_purges (n : Nat) (f : Core → Core) : (s.updCore n f).purges = s.purges := rfl

@[simp] theorem State.updCore_reqs (n : Nat) (f : Core → Core) : (s.updCore n f).reqs = s.reqs := rfl

@[simp] theorem State.updCore_bars (n : Nat) (f : Core → Core) : (s.updCore n f).bars = s.bars := rfl

@[simp] theorem State.updCore_parts (n : Nat) (f : Core → Core) : (s.updCore n f).parts = s.parts := rfl

@[simp] theorem State.updCore_contq (n : Nat) (f : Core → Core) : (s.updCore n f).contq = s.contq := rfl

@[simp] theorem State.updCore_travs (n : Nat) (f : Core → Core) : (s.updCore n f).travs = s.travs := rfl

@[simp] theorem State.updCore_dev (n : Nat) (f : Core → Core) : (s.updCore n f).dev = s.dev := rfl

@[simp] theorem State.updCore_agenda (n : Nat) (f : Core → Core) : (s.updCore n f).agenda = s.agenda := rfl

@[simp] theorem State.updCore_inputs (n : Nat) (f : Core → Core) : (s.updCore n f).inputs = s.inputs := rfl

@[simp] theorem State.updCore_turn (n : Nat) (f : Core → Core) : (s.updCore n f).turn = s.turn := rfl

@[simp] theorem State.updCore_turnAt (n : Nat) (f : Core → Core) : (s.updCore n f).turnAt = s.turnAt := rfl

@[simp] theorem State.updCore_idle (n : Nat) (f : Core → Core) : (s.updCore n f).idle = s.idle := rfl

@[simp] theorem State.updCore_cur (n : Nat) (f : Core → Core) : (s.updCore n f).cur = s.cur := rfl

@[simp] theorem State.updCore_evt (n : Nat) (f : Core → Core) : (s.updCore n f).evt = s.evt := rfl

@[simp] theorem State.updCore_ctr (n : Nat) (f : Core → Core) : (s.updCore n f).ctr = s.ctr := rfl

@[simp] theorem State.updCore_freeCtr (n : Nat) (f : Core → Core) : (s.updCore n f).freeCtr = s.freeCtr := rfl

/-! setThread changes cores. -/

@[simp] theorem State.setThread_now (n k : Nat) (t : Option Thread) : (s.setThread n k t).now = s.now := rfl

@[simp] theorem State.setThread_dieCyc (n k : Nat) (t : Option Thread) : (s.setThread n k t).dieCyc = s.dieCyc := rfl

@[simp] theorem State.setThread_mem (n k : Nat) (t : Option Thread) : (s.setThread n k t).mem = s.mem := rfl

@[simp] theorem State.setThread_tags (n k : Nat) (t : Option Thread) : (s.setThread n k t).tags = s.tags := rfl

@[simp] theorem State.setThread_bad (n k : Nat) (t : Option Thread) : (s.setThread n k t).bad = s.bad := rfl

@[simp] theorem State.setThread_l2 (n k : Nat) (t : Option Thread) : (s.setThread n k t).l2 = s.l2 := rfl

@[simp] theorem State.setThread_fams (n k : Nat) (t : Option Thread) : (s.setThread n k t).fams = s.fams := rfl

@[simp] theorem State.setThread_slices (n k : Nat) (t : Option Thread) : (s.setThread n k t).slices = s.slices := rfl

@[simp] theorem State.setThread_purges (n k : Nat) (t : Option Thread) : (s.setThread n k t).purges = s.purges := rfl

@[simp] theorem State.setThread_reqs (n k : Nat) (t : Option Thread) : (s.setThread n k t).reqs = s.reqs := rfl

@[simp] theorem State.setThread_bars (n k : Nat) (t : Option Thread) : (s.setThread n k t).bars = s.bars := rfl

@[simp] theorem State.setThread_parts (n k : Nat) (t : Option Thread) : (s.setThread n k t).parts = s.parts := rfl

@[simp] theorem State.setThread_contq (n k : Nat) (t : Option Thread) : (s.setThread n k t).contq = s.contq := rfl

@[simp] theorem State.setThread_travs (n k : Nat) (t : Option Thread) : (s.setThread n k t).travs = s.travs := rfl

@[simp] theorem State.setThread_dev (n k : Nat) (t : Option Thread) : (s.setThread n k t).dev = s.dev := rfl

@[simp] theorem State.setThread_agenda (n k : Nat) (t : Option Thread) : (s.setThread n k t).agenda = s.agenda := rfl

@[simp] theorem State.setThread_inputs (n k : Nat) (t : Option Thread) : (s.setThread n k t).inputs = s.inputs := rfl

@[simp] theorem State.setThread_turn (n k : Nat) (t : Option Thread) : (s.setThread n k t).turn = s.turn := rfl

@[simp] theorem State.setThread_turnAt (n k : Nat) (t : Option Thread) : (s.setThread n k t).turnAt = s.turnAt := rfl

@[simp] theorem State.setThread_idle (n k : Nat) (t : Option Thread) : (s.setThread n k t).idle = s.idle := rfl

@[simp] theorem State.setThread_cur (n k : Nat) (t : Option Thread) : (s.setThread n k t).cur = s.cur := rfl

@[simp] theorem State.setThread_evt (n k : Nat) (t : Option Thread) : (s.setThread n k t).evt = s.evt := rfl

@[simp] theorem State.setThread_ctr (n k : Nat) (t : Option Thread) : (s.setThread n k t).ctr = s.ctr := rfl

@[simp] theorem State.setThread_freeCtr (n k : Nat) (t : Option Thread) : (s.setThread n k t).freeCtr = s.freeCtr := rfl

/-! updMyCore changes cores. -/

@[simp] theorem State.updMyCore_now (f : Core → Core) : (s.updMyCore f).now = s.now := rfl

@[simp] theorem State.updMyCore_dieCyc (f : Core → Core) : (s.updMyCore f).dieCyc = s.dieCyc := rfl

@[simp] theorem State.updMyCore_mem (f : Core → Core) : (s.updMyCore f).mem = s.mem := rfl

@[simp] theorem State.updMyCore_tags (f : Core → Core) : (s.updMyCore f).tags = s.tags := rfl

@[simp] theorem State.updMyCore_bad (f : Core → Core) : (s.updMyCore f).bad = s.bad := rfl

@[simp] theorem State.updMyCore_l2 (f : Core → Core) : (s.updMyCore f).l2 = s.l2 := rfl

@[simp] theorem State.updMyCore_fams (f : Core → Core) : (s.updMyCore f).fams = s.fams := rfl

@[simp] theorem State.updMyCore_slices (f : Core → Core) : (s.updMyCore f).slices = s.slices := rfl

@[simp] theorem State.updMyCore_purges (f : Core → Core) : (s.updMyCore f).purges = s.purges := rfl

@[simp] theorem State.updMyCore_reqs (f : Core → Core) : (s.updMyCore f).reqs = s.reqs := rfl

@[simp] theorem State.updMyCore_bars (f : Core → Core) : (s.updMyCore f).bars = s.bars := rfl

@[simp] theorem State.updMyCore_parts (f : Core → Core) : (s.updMyCore f).parts = s.parts := rfl

@[simp] theorem State.updMyCore_contq (f : Core → Core) : (s.updMyCore f).contq = s.contq := rfl

@[simp] theorem State.updMyCore_travs (f : Core → Core) : (s.updMyCore f).travs = s.travs := rfl

@[simp] theorem State.updMyCore_dev (f : Core → Core) : (s.updMyCore f).dev = s.dev := rfl

@[simp] theorem State.updMyCore_agenda (f : Core → Core) : (s.updMyCore f).agenda = s.agenda := rfl

@[simp] theorem State.updMyCore_inputs (f : Core → Core) : (s.updMyCore f).inputs = s.inputs := rfl

@[simp] theorem State.updMyCore_turn (f : Core → Core) : (s.updMyCore f).turn = s.turn := rfl

@[simp] theorem State.updMyCore_turnAt (f : Core → Core) : (s.updMyCore f).turnAt = s.turnAt := rfl

@[simp] theorem State.updMyCore_idle (f : Core → Core) : (s.updMyCore f).idle = s.idle := rfl

@[simp] theorem State.updMyCore_cur (f : Core → Core) : (s.updMyCore f).cur = s.cur := rfl

@[simp] theorem State.updMyCore_evt (f : Core → Core) : (s.updMyCore f).evt = s.evt := rfl

@[simp] theorem State.updMyCore_ctr (f : Core → Core) : (s.updMyCore f).ctr = s.ctr := rfl

@[simp] theorem State.updMyCore_freeCtr (f : Core → Core) : (s.updMyCore f).freeCtr = s.freeCtr := rfl

/-! updWho changes cores. -/

@[simp] theorem State.updWho_now (w : Who) (f : Thread → Thread) : (s.updWho w f).now = s.now := rfl

@[simp] theorem State.updWho_dieCyc (w : Who) (f : Thread → Thread) : (s.updWho w f).dieCyc = s.dieCyc := rfl

@[simp] theorem State.updWho_mem (w : Who) (f : Thread → Thread) : (s.updWho w f).mem = s.mem := rfl

@[simp] theorem State.updWho_tags (w : Who) (f : Thread → Thread) : (s.updWho w f).tags = s.tags := rfl

@[simp] theorem State.updWho_bad (w : Who) (f : Thread → Thread) : (s.updWho w f).bad = s.bad := rfl

@[simp] theorem State.updWho_l2 (w : Who) (f : Thread → Thread) : (s.updWho w f).l2 = s.l2 := rfl

@[simp] theorem State.updWho_fams (w : Who) (f : Thread → Thread) : (s.updWho w f).fams = s.fams := rfl

@[simp] theorem State.updWho_slices (w : Who) (f : Thread → Thread) : (s.updWho w f).slices = s.slices := rfl

@[simp] theorem State.updWho_purges (w : Who) (f : Thread → Thread) : (s.updWho w f).purges = s.purges := rfl

@[simp] theorem State.updWho_reqs (w : Who) (f : Thread → Thread) : (s.updWho w f).reqs = s.reqs := rfl

@[simp] theorem State.updWho_bars (w : Who) (f : Thread → Thread) : (s.updWho w f).bars = s.bars := rfl

@[simp] theorem State.updWho_parts (w : Who) (f : Thread → Thread) : (s.updWho w f).parts = s.parts := rfl

@[simp] theorem State.updWho_contq (w : Who) (f : Thread → Thread) : (s.updWho w f).contq = s.contq := rfl

@[simp] theorem State.updWho_travs (w : Who) (f : Thread → Thread) : (s.updWho w f).travs = s.travs := rfl

@[simp] theorem State.updWho_dev (w : Who) (f : Thread → Thread) : (s.updWho w f).dev = s.dev := rfl

@[simp] theorem State.updWho_agenda (w : Who) (f : Thread → Thread) : (s.updWho w f).agenda = s.agenda := rfl

@[simp] theorem State.updWho_inputs (w : Who) (f : Thread → Thread) : (s.updWho w f).inputs = s.inputs := rfl

@[simp] theorem State.updWho_turn (w : Who) (f : Thread → Thread) : (s.updWho w f).turn = s.turn := rfl

@[simp] theorem State.updWho_turnAt (w : Who) (f : Thread → Thread) : (s.updWho w f).turnAt = s.turnAt := rfl

@[simp] theorem State.updWho_idle (w : Who) (f : Thread → Thread) : (s.updWho w f).idle = s.idle := rfl

@[simp] theorem State.updWho_cur (w : Who) (f : Thread → Thread) : (s.updWho w f).cur = s.cur := rfl

@[simp] theorem State.updWho_evt (w : Who) (f : Thread → Thread) : (s.updWho w f).evt = s.evt := rfl

@[simp] theorem State.updWho_ctr (w : Who) (f : Thread → Thread) : (s.updWho w f).ctr = s.ctr := rfl

@[simp] theorem State.updWho_freeCtr (w : Who) (f : Thread → Thread) : (s.updWho w f).freeCtr = s.freeCtr := rfl

/-! updUid changes cores and travs and contq and parts. -/

@[simp] theorem State.updUid_now (n : Nat) (f : Thread → Thread) : (s.updUid n f).now = s.now := rfl

@[simp] theorem State.updUid_dieCyc (n : Nat) (f : Thread → Thread) : (s.updUid n f).dieCyc = s.dieCyc := rfl

@[simp] theorem State.updUid_mem (n : Nat) (f : Thread → Thread) : (s.updUid n f).mem = s.mem := rfl

@[simp] theorem State.updUid_tags (n : Nat) (f : Thread → Thread) : (s.updUid n f).tags = s.tags := rfl

@[simp] theorem State.updUid_bad (n : Nat) (f : Thread → Thread) : (s.updUid n f).bad = s.bad := rfl

@[simp] theorem State.updUid_l2 (n : Nat) (f : Thread → Thread) : (s.updUid n f).l2 = s.l2 := rfl

@[simp] theorem State.updUid_fams (n : Nat) (f : Thread → Thread) : (s.updUid n f).fams = s.fams := rfl

@[simp] theorem State.updUid_slices (n : Nat) (f : Thread → Thread) : (s.updUid n f).slices = s.slices := rfl

@[simp] theorem State.updUid_purges (n : Nat) (f : Thread → Thread) : (s.updUid n f).purges = s.purges := rfl

@[simp] theorem State.updUid_reqs (n : Nat) (f : Thread → Thread) : (s.updUid n f).reqs = s.reqs := rfl

@[simp] theorem State.updUid_bars (n : Nat) (f : Thread → Thread) : (s.updUid n f).bars = s.bars := rfl

@[simp] theorem State.updUid_dev (n : Nat) (f : Thread → Thread) : (s.updUid n f).dev = s.dev := rfl

@[simp] theorem State.updUid_agenda (n : Nat) (f : Thread → Thread) : (s.updUid n f).agenda = s.agenda := rfl

@[simp] theorem State.updUid_inputs (n : Nat) (f : Thread → Thread) : (s.updUid n f).inputs = s.inputs := rfl

@[simp] theorem State.updUid_turn (n : Nat) (f : Thread → Thread) : (s.updUid n f).turn = s.turn := rfl

@[simp] theorem State.updUid_turnAt (n : Nat) (f : Thread → Thread) : (s.updUid n f).turnAt = s.turnAt := rfl

@[simp] theorem State.updUid_idle (n : Nat) (f : Thread → Thread) : (s.updUid n f).idle = s.idle := rfl

@[simp] theorem State.updUid_cur (n : Nat) (f : Thread → Thread) : (s.updUid n f).cur = s.cur := rfl

@[simp] theorem State.updUid_evt (n : Nat) (f : Thread → Thread) : (s.updUid n f).evt = s.evt := rfl

@[simp] theorem State.updUid_ctr (n : Nat) (f : Thread → Thread) : (s.updUid n f).ctr = s.ctr := rfl

@[simp] theorem State.updUid_freeCtr (n : Nat) (f : Thread → Thread) : (s.updUid n f).freeCtr = s.freeCtr := rfl

/-! updFam changes fams. -/

@[simp] theorem State.updFam_now (n : Nat) (f : Family → Family) : (s.updFam n f).now = s.now := rfl

@[simp] theorem State.updFam_dieCyc (n : Nat) (f : Family → Family) : (s.updFam n f).dieCyc = s.dieCyc := rfl

@[simp] theorem State.updFam_cores (n : Nat) (f : Family → Family) : (s.updFam n f).cores = s.cores := rfl

@[simp] theorem State.updFam_mem (n : Nat) (f : Family → Family) : (s.updFam n f).mem = s.mem := rfl

@[simp] theorem State.updFam_tags (n : Nat) (f : Family → Family) : (s.updFam n f).tags = s.tags := rfl

@[simp] theorem State.updFam_bad (n : Nat) (f : Family → Family) : (s.updFam n f).bad = s.bad := rfl

@[simp] theorem State.updFam_l2 (n : Nat) (f : Family → Family) : (s.updFam n f).l2 = s.l2 := rfl

@[simp] theorem State.updFam_slices (n : Nat) (f : Family → Family) : (s.updFam n f).slices = s.slices := rfl

@[simp] theorem State.updFam_purges (n : Nat) (f : Family → Family) : (s.updFam n f).purges = s.purges := rfl

@[simp] theorem State.updFam_reqs (n : Nat) (f : Family → Family) : (s.updFam n f).reqs = s.reqs := rfl

@[simp] theorem State.updFam_bars (n : Nat) (f : Family → Family) : (s.updFam n f).bars = s.bars := rfl

@[simp] theorem State.updFam_parts (n : Nat) (f : Family → Family) : (s.updFam n f).parts = s.parts := rfl

@[simp] theorem State.updFam_contq (n : Nat) (f : Family → Family) : (s.updFam n f).contq = s.contq := rfl

@[simp] theorem State.updFam_travs (n : Nat) (f : Family → Family) : (s.updFam n f).travs = s.travs := rfl

@[simp] theorem State.updFam_dev (n : Nat) (f : Family → Family) : (s.updFam n f).dev = s.dev := rfl

@[simp] theorem State.updFam_agenda (n : Nat) (f : Family → Family) : (s.updFam n f).agenda = s.agenda := rfl

@[simp] theorem State.updFam_inputs (n : Nat) (f : Family → Family) : (s.updFam n f).inputs = s.inputs := rfl

@[simp] theorem State.updFam_turn (n : Nat) (f : Family → Family) : (s.updFam n f).turn = s.turn := rfl

@[simp] theorem State.updFam_turnAt (n : Nat) (f : Family → Family) : (s.updFam n f).turnAt = s.turnAt := rfl

@[simp] theorem State.updFam_idle (n : Nat) (f : Family → Family) : (s.updFam n f).idle = s.idle := rfl

@[simp] theorem State.updFam_cur (n : Nat) (f : Family → Family) : (s.updFam n f).cur = s.cur := rfl

@[simp] theorem State.updFam_evt (n : Nat) (f : Family → Family) : (s.updFam n f).evt = s.evt := rfl

@[simp] theorem State.updFam_ctr (n : Nat) (f : Family → Family) : (s.updFam n f).ctr = s.ctr := rfl

@[simp] theorem State.updFam_freeCtr (n : Nat) (f : Family → Family) : (s.updFam n f).freeCtr = s.freeCtr := rfl

/-! updSlice changes slices. -/

@[simp] theorem State.updSlice_now (n : Nat) (f : Slice → Slice) : (s.updSlice n f).now = s.now := rfl

@[simp] theorem State.updSlice_dieCyc (n : Nat) (f : Slice → Slice) : (s.updSlice n f).dieCyc = s.dieCyc := rfl

@[simp] theorem State.updSlice_cores (n : Nat) (f : Slice → Slice) : (s.updSlice n f).cores = s.cores := rfl

@[simp] theorem State.updSlice_mem (n : Nat) (f : Slice → Slice) : (s.updSlice n f).mem = s.mem := rfl

@[simp] theorem State.updSlice_tags (n : Nat) (f : Slice → Slice) : (s.updSlice n f).tags = s.tags := rfl

@[simp] theorem State.updSlice_bad (n : Nat) (f : Slice → Slice) : (s.updSlice n f).bad = s.bad := rfl

@[simp] theorem State.updSlice_l2 (n : Nat) (f : Slice → Slice) : (s.updSlice n f).l2 = s.l2 := rfl

@[simp] theorem State.updSlice_fams (n : Nat) (f : Slice → Slice) : (s.updSlice n f).fams = s.fams := rfl

@[simp] theorem State.updSlice_purges (n : Nat) (f : Slice → Slice) : (s.updSlice n f).purges = s.purges := rfl

@[simp] theorem State.updSlice_reqs (n : Nat) (f : Slice → Slice) : (s.updSlice n f).reqs = s.reqs := rfl

@[simp] theorem State.updSlice_bars (n : Nat) (f : Slice → Slice) : (s.updSlice n f).bars = s.bars := rfl

@[simp] theorem State.updSlice_parts (n : Nat) (f : Slice → Slice) : (s.updSlice n f).parts = s.parts := rfl

@[simp] theorem State.updSlice_contq (n : Nat) (f : Slice → Slice) : (s.updSlice n f).contq = s.contq := rfl

@[simp] theorem State.updSlice_travs (n : Nat) (f : Slice → Slice) : (s.updSlice n f).travs = s.travs := rfl

@[simp] theorem State.updSlice_dev (n : Nat) (f : Slice → Slice) : (s.updSlice n f).dev = s.dev := rfl

@[simp] theorem State.updSlice_agenda (n : Nat) (f : Slice → Slice) : (s.updSlice n f).agenda = s.agenda := rfl

@[simp] theorem State.updSlice_inputs (n : Nat) (f : Slice → Slice) : (s.updSlice n f).inputs = s.inputs := rfl

@[simp] theorem State.updSlice_turn (n : Nat) (f : Slice → Slice) : (s.updSlice n f).turn = s.turn := rfl

@[simp] theorem State.updSlice_turnAt (n : Nat) (f : Slice → Slice) : (s.updSlice n f).turnAt = s.turnAt := rfl

@[simp] theorem State.updSlice_idle (n : Nat) (f : Slice → Slice) : (s.updSlice n f).idle = s.idle := rfl

@[simp] theorem State.updSlice_cur (n : Nat) (f : Slice → Slice) : (s.updSlice n f).cur = s.cur := rfl

@[simp] theorem State.updSlice_evt (n : Nat) (f : Slice → Slice) : (s.updSlice n f).evt = s.evt := rfl

@[simp] theorem State.updSlice_ctr (n : Nat) (f : Slice → Slice) : (s.updSlice n f).ctr = s.ctr := rfl

@[simp] theorem State.updSlice_freeCtr (n : Nat) (f : Slice → Slice) : (s.updSlice n f).freeCtr = s.freeCtr := rfl

/-! updPart changes parts. -/

@[simp] theorem State.updPart_now (n : Nat) (f : Part → Part) : (s.updPart n f).now = s.now := rfl

@[simp] theorem State.updPart_dieCyc (n : Nat) (f : Part → Part) : (s.updPart n f).dieCyc = s.dieCyc := rfl

@[simp] theorem State.updPart_cores (n : Nat) (f : Part → Part) : (s.updPart n f).cores = s.cores := rfl

@[simp] theorem State.updPart_mem (n : Nat) (f : Part → Part) : (s.updPart n f).mem = s.mem := rfl

@[simp] theorem State.updPart_tags (n : Nat) (f : Part → Part) : (s.updPart n f).tags = s.tags := rfl

@[simp] theorem State.updPart_bad (n : Nat) (f : Part → Part) : (s.updPart n f).bad = s.bad := rfl

@[simp] theorem State.updPart_l2 (n : Nat) (f : Part → Part) : (s.updPart n f).l2 = s.l2 := rfl

@[simp] theorem State.updPart_fams (n : Nat) (f : Part → Part) : (s.updPart n f).fams = s.fams := rfl

@[simp] theorem State.updPart_slices (n : Nat) (f : Part → Part) : (s.updPart n f).slices = s.slices := rfl

@[simp] theorem State.updPart_purges (n : Nat) (f : Part → Part) : (s.updPart n f).purges = s.purges := rfl

@[simp] theorem State.updPart_reqs (n : Nat) (f : Part → Part) : (s.updPart n f).reqs = s.reqs := rfl

@[simp] theorem State.updPart_bars (n : Nat) (f : Part → Part) : (s.updPart n f).bars = s.bars := rfl

@[simp] theorem State.updPart_contq (n : Nat) (f : Part → Part) : (s.updPart n f).contq = s.contq := rfl

@[simp] theorem State.updPart_travs (n : Nat) (f : Part → Part) : (s.updPart n f).travs = s.travs := rfl

@[simp] theorem State.updPart_dev (n : Nat) (f : Part → Part) : (s.updPart n f).dev = s.dev := rfl

@[simp] theorem State.updPart_agenda (n : Nat) (f : Part → Part) : (s.updPart n f).agenda = s.agenda := rfl

@[simp] theorem State.updPart_inputs (n : Nat) (f : Part → Part) : (s.updPart n f).inputs = s.inputs := rfl

@[simp] theorem State.updPart_turn (n : Nat) (f : Part → Part) : (s.updPart n f).turn = s.turn := rfl

@[simp] theorem State.updPart_turnAt (n : Nat) (f : Part → Part) : (s.updPart n f).turnAt = s.turnAt := rfl

@[simp] theorem State.updPart_idle (n : Nat) (f : Part → Part) : (s.updPart n f).idle = s.idle := rfl

@[simp] theorem State.updPart_cur (n : Nat) (f : Part → Part) : (s.updPart n f).cur = s.cur := rfl

@[simp] theorem State.updPart_evt (n : Nat) (f : Part → Part) : (s.updPart n f).evt = s.evt := rfl

@[simp] theorem State.updPart_ctr (n : Nat) (f : Part → Part) : (s.updPart n f).ctr = s.ctr := rfl

@[simp] theorem State.updPart_freeCtr (n : Nat) (f : Part → Part) : (s.updPart n f).freeCtr = s.freeCtr := rfl

/-! updContQ changes contq. -/

@[simp] theorem State.updContQ_now (n : Nat) (f : ContQ → ContQ) : (s.updContQ n f).now = s.now := rfl

@[simp] theorem State.updContQ_dieCyc (n : Nat) (f : ContQ → ContQ) : (s.updContQ n f).dieCyc = s.dieCyc := rfl

@[simp] theorem State.updContQ_cores (n : Nat) (f : ContQ → ContQ) : (s.updContQ n f).cores = s.cores := rfl

@[simp] theorem State.updContQ_mem (n : Nat) (f : ContQ → ContQ) : (s.updContQ n f).mem = s.mem := rfl

@[simp] theorem State.updContQ_tags (n : Nat) (f : ContQ → ContQ) : (s.updContQ n f).tags = s.tags := rfl

@[simp] theorem State.updContQ_bad (n : Nat) (f : ContQ → ContQ) : (s.updContQ n f).bad = s.bad := rfl

@[simp] theorem State.updContQ_l2 (n : Nat) (f : ContQ → ContQ) : (s.updContQ n f).l2 = s.l2 := rfl

@[simp] theorem State.updContQ_fams (n : Nat) (f : ContQ → ContQ) : (s.updContQ n f).fams = s.fams := rfl

@[simp] theorem State.updContQ_slices (n : Nat) (f : ContQ → ContQ) : (s.updContQ n f).slices = s.slices := rfl

@[simp] theorem State.updContQ_purges (n : Nat) (f : ContQ → ContQ) : (s.updContQ n f).purges = s.purges := rfl

@[simp] theorem State.updContQ_reqs (n : Nat) (f : ContQ → ContQ) : (s.updContQ n f).reqs = s.reqs := rfl

@[simp] theorem State.updContQ_bars (n : Nat) (f : ContQ → ContQ) : (s.updContQ n f).bars = s.bars := rfl

@[simp] theorem State.updContQ_parts (n : Nat) (f : ContQ → ContQ) : (s.updContQ n f).parts = s.parts := rfl

@[simp] theorem State.updContQ_travs (n : Nat) (f : ContQ → ContQ) : (s.updContQ n f).travs = s.travs := rfl

@[simp] theorem State.updContQ_dev (n : Nat) (f : ContQ → ContQ) : (s.updContQ n f).dev = s.dev := rfl

@[simp] theorem State.updContQ_agenda (n : Nat) (f : ContQ → ContQ) : (s.updContQ n f).agenda = s.agenda := rfl

@[simp] theorem State.updContQ_inputs (n : Nat) (f : ContQ → ContQ) : (s.updContQ n f).inputs = s.inputs := rfl

@[simp] theorem State.updContQ_turn (n : Nat) (f : ContQ → ContQ) : (s.updContQ n f).turn = s.turn := rfl

@[simp] theorem State.updContQ_turnAt (n : Nat) (f : ContQ → ContQ) : (s.updContQ n f).turnAt = s.turnAt := rfl

@[simp] theorem State.updContQ_idle (n : Nat) (f : ContQ → ContQ) : (s.updContQ n f).idle = s.idle := rfl

@[simp] theorem State.updContQ_cur (n : Nat) (f : ContQ → ContQ) : (s.updContQ n f).cur = s.cur := rfl

@[simp] theorem State.updContQ_evt (n : Nat) (f : ContQ → ContQ) : (s.updContQ n f).evt = s.evt := rfl

@[simp] theorem State.updContQ_ctr (n : Nat) (f : ContQ → ContQ) : (s.updContQ n f).ctr = s.ctr := rfl

@[simp] theorem State.updContQ_freeCtr (n : Nat) (f : ContQ → ContQ) : (s.updContQ n f).freeCtr = s.freeCtr := rfl

/-! updReq changes reqs. -/

@[simp] theorem State.updReq_now (n : Nat) (f : Req → Req) : (s.updReq n f).now = s.now := rfl

@[simp] theorem State.updReq_dieCyc (n : Nat) (f : Req → Req) : (s.updReq n f).dieCyc = s.dieCyc := rfl

@[simp] theorem State.updReq_cores (n : Nat) (f : Req → Req) : (s.updReq n f).cores = s.cores := rfl

@[simp] theorem State.updReq_mem (n : Nat) (f : Req → Req) : (s.updReq n f).mem = s.mem := rfl

@[simp] theorem State.updReq_tags (n : Nat) (f : Req → Req) : (s.updReq n f).tags = s.tags := rfl

@[simp] theorem State.updReq_bad (n : Nat) (f : Req → Req) : (s.updReq n f).bad = s.bad := rfl

@[simp] theorem State.updReq_l2 (n : Nat) (f : Req → Req) : (s.updReq n f).l2 = s.l2 := rfl

@[simp] theorem State.updReq_fams (n : Nat) (f : Req → Req) : (s.updReq n f).fams = s.fams := rfl

@[simp] theorem State.updReq_slices (n : Nat) (f : Req → Req) : (s.updReq n f).slices = s.slices := rfl

@[simp] theorem State.updReq_purges (n : Nat) (f : Req → Req) : (s.updReq n f).purges = s.purges := rfl

@[simp] theorem State.updReq_bars (n : Nat) (f : Req → Req) : (s.updReq n f).bars = s.bars := rfl

@[simp] theorem State.updReq_parts (n : Nat) (f : Req → Req) : (s.updReq n f).parts = s.parts := rfl

@[simp] theorem State.updReq_contq (n : Nat) (f : Req → Req) : (s.updReq n f).contq = s.contq := rfl

@[simp] theorem State.updReq_travs (n : Nat) (f : Req → Req) : (s.updReq n f).travs = s.travs := rfl

@[simp] theorem State.updReq_dev (n : Nat) (f : Req → Req) : (s.updReq n f).dev = s.dev := rfl

@[simp] theorem State.updReq_agenda (n : Nat) (f : Req → Req) : (s.updReq n f).agenda = s.agenda := rfl

@[simp] theorem State.updReq_inputs (n : Nat) (f : Req → Req) : (s.updReq n f).inputs = s.inputs := rfl

@[simp] theorem State.updReq_turn (n : Nat) (f : Req → Req) : (s.updReq n f).turn = s.turn := rfl

@[simp] theorem State.updReq_turnAt (n : Nat) (f : Req → Req) : (s.updReq n f).turnAt = s.turnAt := rfl

@[simp] theorem State.updReq_idle (n : Nat) (f : Req → Req) : (s.updReq n f).idle = s.idle := rfl

@[simp] theorem State.updReq_cur (n : Nat) (f : Req → Req) : (s.updReq n f).cur = s.cur := rfl

@[simp] theorem State.updReq_evt (n : Nat) (f : Req → Req) : (s.updReq n f).evt = s.evt := rfl

@[simp] theorem State.updReq_ctr (n : Nat) (f : Req → Req) : (s.updReq n f).ctr = s.ctr := rfl

@[simp] theorem State.updReq_freeCtr (n : Nat) (f : Req → Req) : (s.updReq n f).freeCtr = s.freeCtr := rfl

/-! updDev changes dev. -/

@[simp] theorem State.updDev_now (f : Device → Device) : (s.updDev f).now = s.now := rfl

@[simp] theorem State.updDev_dieCyc (f : Device → Device) : (s.updDev f).dieCyc = s.dieCyc := rfl

@[simp] theorem State.updDev_cores (f : Device → Device) : (s.updDev f).cores = s.cores := rfl

@[simp] theorem State.updDev_mem (f : Device → Device) : (s.updDev f).mem = s.mem := rfl

@[simp] theorem State.updDev_tags (f : Device → Device) : (s.updDev f).tags = s.tags := rfl

@[simp] theorem State.updDev_bad (f : Device → Device) : (s.updDev f).bad = s.bad := rfl

@[simp] theorem State.updDev_l2 (f : Device → Device) : (s.updDev f).l2 = s.l2 := rfl

@[simp] theorem State.updDev_fams (f : Device → Device) : (s.updDev f).fams = s.fams := rfl

@[simp] theorem State.updDev_slices (f : Device → Device) : (s.updDev f).slices = s.slices := rfl

@[simp] theorem State.updDev_purges (f : Device → Device) : (s.updDev f).purges = s.purges := rfl

@[simp] theorem State.updDev_reqs (f : Device → Device) : (s.updDev f).reqs = s.reqs := rfl

@[simp] theorem State.updDev_bars (f : Device → Device) : (s.updDev f).bars = s.bars := rfl

@[simp] theorem State.updDev_parts (f : Device → Device) : (s.updDev f).parts = s.parts := rfl

@[simp] theorem State.updDev_contq (f : Device → Device) : (s.updDev f).contq = s.contq := rfl

@[simp] theorem State.updDev_travs (f : Device → Device) : (s.updDev f).travs = s.travs := rfl

@[simp] theorem State.updDev_agenda (f : Device → Device) : (s.updDev f).agenda = s.agenda := rfl

@[simp] theorem State.updDev_inputs (f : Device → Device) : (s.updDev f).inputs = s.inputs := rfl

@[simp] theorem State.updDev_turn (f : Device → Device) : (s.updDev f).turn = s.turn := rfl

@[simp] theorem State.updDev_turnAt (f : Device → Device) : (s.updDev f).turnAt = s.turnAt := rfl

@[simp] theorem State.updDev_idle (f : Device → Device) : (s.updDev f).idle = s.idle := rfl

@[simp] theorem State.updDev_cur (f : Device → Device) : (s.updDev f).cur = s.cur := rfl

@[simp] theorem State.updDev_evt (f : Device → Device) : (s.updDev f).evt = s.evt := rfl

@[simp] theorem State.updDev_ctr (f : Device → Device) : (s.updDev f).ctr = s.ctr := rfl

@[simp] theorem State.updDev_freeCtr (f : Device → Device) : (s.updDev f).freeCtr = s.freeCtr := rfl

/-! atCycle changes agenda. -/

@[simp] theorem State.atCycle_now (n : Nat) (e : Ev) : (s.atCycle n e).now = s.now := rfl

@[simp] theorem State.atCycle_dieCyc (n : Nat) (e : Ev) : (s.atCycle n e).dieCyc = s.dieCyc := rfl

@[simp] theorem State.atCycle_cores (n : Nat) (e : Ev) : (s.atCycle n e).cores = s.cores := rfl

@[simp] theorem State.atCycle_mem (n : Nat) (e : Ev) : (s.atCycle n e).mem = s.mem := rfl

@[simp] theorem State.atCycle_tags (n : Nat) (e : Ev) : (s.atCycle n e).tags = s.tags := rfl

@[simp] theorem State.atCycle_bad (n : Nat) (e : Ev) : (s.atCycle n e).bad = s.bad := rfl

@[simp] theorem State.atCycle_l2 (n : Nat) (e : Ev) : (s.atCycle n e).l2 = s.l2 := rfl

@[simp] theorem State.atCycle_fams (n : Nat) (e : Ev) : (s.atCycle n e).fams = s.fams := rfl

@[simp] theorem State.atCycle_slices (n : Nat) (e : Ev) : (s.atCycle n e).slices = s.slices := rfl

@[simp] theorem State.atCycle_purges (n : Nat) (e : Ev) : (s.atCycle n e).purges = s.purges := rfl

@[simp] theorem State.atCycle_reqs (n : Nat) (e : Ev) : (s.atCycle n e).reqs = s.reqs := rfl

@[simp] theorem State.atCycle_bars (n : Nat) (e : Ev) : (s.atCycle n e).bars = s.bars := rfl

@[simp] theorem State.atCycle_parts (n : Nat) (e : Ev) : (s.atCycle n e).parts = s.parts := rfl

@[simp] theorem State.atCycle_contq (n : Nat) (e : Ev) : (s.atCycle n e).contq = s.contq := rfl

@[simp] theorem State.atCycle_travs (n : Nat) (e : Ev) : (s.atCycle n e).travs = s.travs := rfl

@[simp] theorem State.atCycle_dev (n : Nat) (e : Ev) : (s.atCycle n e).dev = s.dev := rfl

@[simp] theorem State.atCycle_inputs (n : Nat) (e : Ev) : (s.atCycle n e).inputs = s.inputs := rfl

@[simp] theorem State.atCycle_turn (n : Nat) (e : Ev) : (s.atCycle n e).turn = s.turn := rfl

@[simp] theorem State.atCycle_turnAt (n : Nat) (e : Ev) : (s.atCycle n e).turnAt = s.turnAt := rfl

@[simp] theorem State.atCycle_idle (n : Nat) (e : Ev) : (s.atCycle n e).idle = s.idle := rfl

@[simp] theorem State.atCycle_cur (n : Nat) (e : Ev) : (s.atCycle n e).cur = s.cur := rfl

@[simp] theorem State.atCycle_evt (n : Nat) (e : Ev) : (s.atCycle n e).evt = s.evt := rfl

@[simp] theorem State.atCycle_ctr (n : Nat) (e : Ev) : (s.atCycle n e).ctr = s.ctr := rfl

@[simp] theorem State.atCycle_freeCtr (n : Nat) (e : Ev) : (s.atCycle n e).freeCtr = s.freeCtr := rfl

/-! after changes agenda. -/

@[simp] theorem State.after_now (c n : Nat) (e : Ev) : (s.after c n e).now = s.now := rfl

@[simp] theorem State.after_dieCyc (c n : Nat) (e : Ev) : (s.after c n e).dieCyc = s.dieCyc := rfl

@[simp] theorem State.after_cores (c n : Nat) (e : Ev) : (s.after c n e).cores = s.cores := rfl

@[simp] theorem State.after_mem (c n : Nat) (e : Ev) : (s.after c n e).mem = s.mem := rfl

@[simp] theorem State.after_tags (c n : Nat) (e : Ev) : (s.after c n e).tags = s.tags := rfl

@[simp] theorem State.after_bad (c n : Nat) (e : Ev) : (s.after c n e).bad = s.bad := rfl

@[simp] theorem State.after_l2 (c n : Nat) (e : Ev) : (s.after c n e).l2 = s.l2 := rfl

@[simp] theorem State.after_fams (c n : Nat) (e : Ev) : (s.after c n e).fams = s.fams := rfl

@[simp] theorem State.after_slices (c n : Nat) (e : Ev) : (s.after c n e).slices = s.slices := rfl

@[simp] theorem State.after_purges (c n : Nat) (e : Ev) : (s.after c n e).purges = s.purges := rfl

@[simp] theorem State.after_reqs (c n : Nat) (e : Ev) : (s.after c n e).reqs = s.reqs := rfl

@[simp] theorem State.after_bars (c n : Nat) (e : Ev) : (s.after c n e).bars = s.bars := rfl

@[simp] theorem State.after_parts (c n : Nat) (e : Ev) : (s.after c n e).parts = s.parts := rfl

@[simp] theorem State.after_contq (c n : Nat) (e : Ev) : (s.after c n e).contq = s.contq := rfl

@[simp] theorem State.after_travs (c n : Nat) (e : Ev) : (s.after c n e).travs = s.travs := rfl

@[simp] theorem State.after_dev (c n : Nat) (e : Ev) : (s.after c n e).dev = s.dev := rfl

@[simp] theorem State.after_inputs (c n : Nat) (e : Ev) : (s.after c n e).inputs = s.inputs := rfl

@[simp] theorem State.after_turn (c n : Nat) (e : Ev) : (s.after c n e).turn = s.turn := rfl

@[simp] theorem State.after_turnAt (c n : Nat) (e : Ev) : (s.after c n e).turnAt = s.turnAt := rfl

@[simp] theorem State.after_idle (c n : Nat) (e : Ev) : (s.after c n e).idle = s.idle := rfl

@[simp] theorem State.after_cur (c n : Nat) (e : Ev) : (s.after c n e).cur = s.cur := rfl

@[simp] theorem State.after_evt (c n : Nat) (e : Ev) : (s.after c n e).evt = s.evt := rfl

@[simp] theorem State.after_ctr (c n : Nat) (e : Ev) : (s.after c n e).ctr = s.ctr := rfl

@[simp] theorem State.after_freeCtr (c n : Nat) (e : Ev) : (s.after c n e).freeCtr = s.freeCtr := rfl

/-! urgent changes agenda. -/

@[simp] theorem State.urgent_now (e : Ev) : (s.urgent e).now = s.now := rfl

@[simp] theorem State.urgent_dieCyc (e : Ev) : (s.urgent e).dieCyc = s.dieCyc := rfl

@[simp] theorem State.urgent_cores (e : Ev) : (s.urgent e).cores = s.cores := rfl

@[simp] theorem State.urgent_mem (e : Ev) : (s.urgent e).mem = s.mem := rfl

@[simp] theorem State.urgent_tags (e : Ev) : (s.urgent e).tags = s.tags := rfl

@[simp] theorem State.urgent_bad (e : Ev) : (s.urgent e).bad = s.bad := rfl

@[simp] theorem State.urgent_l2 (e : Ev) : (s.urgent e).l2 = s.l2 := rfl

@[simp] theorem State.urgent_fams (e : Ev) : (s.urgent e).fams = s.fams := rfl

@[simp] theorem State.urgent_slices (e : Ev) : (s.urgent e).slices = s.slices := rfl

@[simp] theorem State.urgent_purges (e : Ev) : (s.urgent e).purges = s.purges := rfl

@[simp] theorem State.urgent_reqs (e : Ev) : (s.urgent e).reqs = s.reqs := rfl

@[simp] theorem State.urgent_bars (e : Ev) : (s.urgent e).bars = s.bars := rfl

@[simp] theorem State.urgent_parts (e : Ev) : (s.urgent e).parts = s.parts := rfl

@[simp] theorem State.urgent_contq (e : Ev) : (s.urgent e).contq = s.contq := rfl

@[simp] theorem State.urgent_travs (e : Ev) : (s.urgent e).travs = s.travs := rfl

@[simp] theorem State.urgent_dev (e : Ev) : (s.urgent e).dev = s.dev := rfl

@[simp] theorem State.urgent_inputs (e : Ev) : (s.urgent e).inputs = s.inputs := rfl

@[simp] theorem State.urgent_turn (e : Ev) : (s.urgent e).turn = s.turn := rfl

@[simp] theorem State.urgent_turnAt (e : Ev) : (s.urgent e).turnAt = s.turnAt := rfl

@[simp] theorem State.urgent_idle (e : Ev) : (s.urgent e).idle = s.idle := rfl

@[simp] theorem State.urgent_cur (e : Ev) : (s.urgent e).cur = s.cur := rfl

@[simp] theorem State.urgent_evt (e : Ev) : (s.urgent e).evt = s.evt := rfl

@[simp] theorem State.urgent_ctr (e : Ev) : (s.urgent e).ctr = s.ctr := rfl

@[simp] theorem State.urgent_freeCtr (e : Ev) : (s.urgent e).freeCtr = s.freeCtr := rfl

/-! dropDue changes agenda. -/

@[simp] theorem State.dropDue_now (p : Ev → Bool) : (s.dropDue p).now = s.now := rfl

@[simp] theorem State.dropDue_dieCyc (p : Ev → Bool) : (s.dropDue p).dieCyc = s.dieCyc := rfl

@[simp] theorem State.dropDue_cores (p : Ev → Bool) : (s.dropDue p).cores = s.cores := rfl

@[simp] theorem State.dropDue_mem (p : Ev → Bool) : (s.dropDue p).mem = s.mem := rfl

@[simp] theorem State.dropDue_tags (p : Ev → Bool) : (s.dropDue p).tags = s.tags := rfl

@[simp] theorem State.dropDue_bad (p : Ev → Bool) : (s.dropDue p).bad = s.bad := rfl

@[simp] theorem State.dropDue_l2 (p : Ev → Bool) : (s.dropDue p).l2 = s.l2 := rfl

@[simp] theorem State.dropDue_fams (p : Ev → Bool) : (s.dropDue p).fams = s.fams := rfl

@[simp] theorem State.dropDue_slices (p : Ev → Bool) : (s.dropDue p).slices = s.slices := rfl

@[simp] theorem State.dropDue_purges (p : Ev → Bool) : (s.dropDue p).purges = s.purges := rfl

@[simp] theorem State.dropDue_reqs (p : Ev → Bool) : (s.dropDue p).reqs = s.reqs := rfl

@[simp] theorem State.dropDue_bars (p : Ev → Bool) : (s.dropDue p).bars = s.bars := rfl

@[simp] theorem State.dropDue_parts (p : Ev → Bool) : (s.dropDue p).parts = s.parts := rfl

@[simp] theorem State.dropDue_contq (p : Ev → Bool) : (s.dropDue p).contq = s.contq := rfl

@[simp] theorem State.dropDue_travs (p : Ev → Bool) : (s.dropDue p).travs = s.travs := rfl

@[simp] theorem State.dropDue_dev (p : Ev → Bool) : (s.dropDue p).dev = s.dev := rfl

@[simp] theorem State.dropDue_inputs (p : Ev → Bool) : (s.dropDue p).inputs = s.inputs := rfl

@[simp] theorem State.dropDue_turn (p : Ev → Bool) : (s.dropDue p).turn = s.turn := rfl

@[simp] theorem State.dropDue_turnAt (p : Ev → Bool) : (s.dropDue p).turnAt = s.turnAt := rfl

@[simp] theorem State.dropDue_idle (p : Ev → Bool) : (s.dropDue p).idle = s.idle := rfl

@[simp] theorem State.dropDue_cur (p : Ev → Bool) : (s.dropDue p).cur = s.cur := rfl

@[simp] theorem State.dropDue_evt (p : Ev → Bool) : (s.dropDue p).evt = s.evt := rfl

@[simp] theorem State.dropDue_ctr (p : Ev → Bool) : (s.dropDue p).ctr = s.ctr := rfl

@[simp] theorem State.dropDue_freeCtr (p : Ev → Bool) : (s.dropDue p).freeCtr = s.freeCtr := rfl

/-! event changes dev. -/

@[simp] theorem State.event_now (w : String) (a b : Nat) : (s.event w a b).now = s.now := rfl

@[simp] theorem State.event_dieCyc (w : String) (a b : Nat) : (s.event w a b).dieCyc = s.dieCyc := rfl

@[simp] theorem State.event_cores (w : String) (a b : Nat) : (s.event w a b).cores = s.cores := rfl

@[simp] theorem State.event_mem (w : String) (a b : Nat) : (s.event w a b).mem = s.mem := rfl

@[simp] theorem State.event_tags (w : String) (a b : Nat) : (s.event w a b).tags = s.tags := rfl

@[simp] theorem State.event_bad (w : String) (a b : Nat) : (s.event w a b).bad = s.bad := rfl

@[simp] theorem State.event_l2 (w : String) (a b : Nat) : (s.event w a b).l2 = s.l2 := rfl

@[simp] theorem State.event_fams (w : String) (a b : Nat) : (s.event w a b).fams = s.fams := rfl

@[simp] theorem State.event_slices (w : String) (a b : Nat) : (s.event w a b).slices = s.slices := rfl

@[simp] theorem State.event_purges (w : String) (a b : Nat) : (s.event w a b).purges = s.purges := rfl

@[simp] theorem State.event_reqs (w : String) (a b : Nat) : (s.event w a b).reqs = s.reqs := rfl

@[simp] theorem State.event_bars (w : String) (a b : Nat) : (s.event w a b).bars = s.bars := rfl

@[simp] theorem State.event_parts (w : String) (a b : Nat) : (s.event w a b).parts = s.parts := rfl

@[simp] theorem State.event_contq (w : String) (a b : Nat) : (s.event w a b).contq = s.contq := rfl

@[simp] theorem State.event_travs (w : String) (a b : Nat) : (s.event w a b).travs = s.travs := rfl

@[simp] theorem State.event_agenda (w : String) (a b : Nat) : (s.event w a b).agenda = s.agenda := rfl

@[simp] theorem State.event_inputs (w : String) (a b : Nat) : (s.event w a b).inputs = s.inputs := rfl

@[simp] theorem State.event_turn (w : String) (a b : Nat) : (s.event w a b).turn = s.turn := rfl

@[simp] theorem State.event_turnAt (w : String) (a b : Nat) : (s.event w a b).turnAt = s.turnAt := rfl

@[simp] theorem State.event_idle (w : String) (a b : Nat) : (s.event w a b).idle = s.idle := rfl

@[simp] theorem State.event_cur (w : String) (a b : Nat) : (s.event w a b).cur = s.cur := rfl

@[simp] theorem State.event_evt (w : String) (a b : Nat) : (s.event w a b).evt = s.evt := rfl

@[simp] theorem State.event_ctr (w : String) (a b : Nat) : (s.event w a b).ctr = s.ctr := rfl

@[simp] theorem State.event_freeCtr (w : String) (a b : Nat) : (s.event w a b).freeCtr = s.freeCtr := rfl

/-! violation changes dev. -/

@[simp] theorem State.violation_now (a b c d e f g : Nat) : (s.violation a b c d e f g).now = s.now := rfl

@[simp] theorem State.violation_dieCyc (a b c d e f g : Nat) : (s.violation a b c d e f g).dieCyc = s.dieCyc := rfl

@[simp] theorem State.violation_cores (a b c d e f g : Nat) : (s.violation a b c d e f g).cores = s.cores := rfl

@[simp] theorem State.violation_mem (a b c d e f g : Nat) : (s.violation a b c d e f g).mem = s.mem := rfl

@[simp] theorem State.violation_tags (a b c d e f g : Nat) : (s.violation a b c d e f g).tags = s.tags := rfl

@[simp] theorem State.violation_bad (a b c d e f g : Nat) : (s.violation a b c d e f g).bad = s.bad := rfl

@[simp] theorem State.violation_l2 (a b c d e f g : Nat) : (s.violation a b c d e f g).l2 = s.l2 := rfl

@[simp] theorem State.violation_fams (a b c d e f g : Nat) : (s.violation a b c d e f g).fams = s.fams := rfl

@[simp] theorem State.violation_slices (a b c d e f g : Nat) : (s.violation a b c d e f g).slices = s.slices := rfl

@[simp] theorem State.violation_purges (a b c d e f g : Nat) : (s.violation a b c d e f g).purges = s.purges := rfl

@[simp] theorem State.violation_reqs (a b c d e f g : Nat) : (s.violation a b c d e f g).reqs = s.reqs := rfl

@[simp] theorem State.violation_bars (a b c d e f g : Nat) : (s.violation a b c d e f g).bars = s.bars := rfl

@[simp] theorem State.violation_parts (a b c d e f g : Nat) : (s.violation a b c d e f g).parts = s.parts := rfl

@[simp] theorem State.violation_contq (a b c d e f g : Nat) : (s.violation a b c d e f g).contq = s.contq := rfl

@[simp] theorem State.violation_travs (a b c d e f g : Nat) : (s.violation a b c d e f g).travs = s.travs := rfl

@[simp] theorem State.violation_agenda (a b c d e f g : Nat) : (s.violation a b c d e f g).agenda = s.agenda := rfl

@[simp] theorem State.violation_inputs (a b c d e f g : Nat) : (s.violation a b c d e f g).inputs = s.inputs := rfl

@[simp] theorem State.violation_turn (a b c d e f g : Nat) : (s.violation a b c d e f g).turn = s.turn := rfl

@[simp] theorem State.violation_turnAt (a b c d e f g : Nat) : (s.violation a b c d e f g).turnAt = s.turnAt := rfl

@[simp] theorem State.violation_idle (a b c d e f g : Nat) : (s.violation a b c d e f g).idle = s.idle := rfl

@[simp] theorem State.violation_cur (a b c d e f g : Nat) : (s.violation a b c d e f g).cur = s.cur := rfl

@[simp] theorem State.violation_evt (a b c d e f g : Nat) : (s.violation a b c d e f g).evt = s.evt := rfl

@[simp] theorem State.violation_ctr (a b c d e f g : Nat) : (s.violation a b c d e f g).ctr = s.ctr := rfl

@[simp] theorem State.violation_freeCtr (a b c d e f g : Nat) : (s.violation a b c d e f g).freeCtr = s.freeCtr := rfl

/-! updThread changes cores. -/

@[simp] theorem State.updThread_now (n k : Nat) (f : Thread → Thread) : (s.updThread n k f).now = s.now := by
  unfold State.updThread; split <;> rfl

@[simp] theorem State.updThread_dieCyc (n k : Nat) (f : Thread → Thread) : (s.updThread n k f).dieCyc = s.dieCyc := by
  unfold State.updThread; split <;> rfl

@[simp] theorem State.updThread_mem (n k : Nat) (f : Thread → Thread) : (s.updThread n k f).mem = s.mem := by
  unfold State.updThread; split <;> rfl

@[simp] theorem State.updThread_tags (n k : Nat) (f : Thread → Thread) : (s.updThread n k f).tags = s.tags := by
  unfold State.updThread; split <;> rfl

@[simp] theorem State.updThread_bad (n k : Nat) (f : Thread → Thread) : (s.updThread n k f).bad = s.bad := by
  unfold State.updThread; split <;> rfl

@[simp] theorem State.updThread_l2 (n k : Nat) (f : Thread → Thread) : (s.updThread n k f).l2 = s.l2 := by
  unfold State.updThread; split <;> rfl

@[simp] theorem State.updThread_fams (n k : Nat) (f : Thread → Thread) : (s.updThread n k f).fams = s.fams := by
  unfold State.updThread; split <;> rfl

@[simp] theorem State.updThread_slices (n k : Nat) (f : Thread → Thread) : (s.updThread n k f).slices = s.slices := by
  unfold State.updThread; split <;> rfl

@[simp] theorem State.updThread_purges (n k : Nat) (f : Thread → Thread) : (s.updThread n k f).purges = s.purges := by
  unfold State.updThread; split <;> rfl

@[simp] theorem State.updThread_reqs (n k : Nat) (f : Thread → Thread) : (s.updThread n k f).reqs = s.reqs := by
  unfold State.updThread; split <;> rfl

@[simp] theorem State.updThread_bars (n k : Nat) (f : Thread → Thread) : (s.updThread n k f).bars = s.bars := by
  unfold State.updThread; split <;> rfl

@[simp] theorem State.updThread_parts (n k : Nat) (f : Thread → Thread) : (s.updThread n k f).parts = s.parts := by
  unfold State.updThread; split <;> rfl

@[simp] theorem State.updThread_contq (n k : Nat) (f : Thread → Thread) : (s.updThread n k f).contq = s.contq := by
  unfold State.updThread; split <;> rfl

@[simp] theorem State.updThread_travs (n k : Nat) (f : Thread → Thread) : (s.updThread n k f).travs = s.travs := by
  unfold State.updThread; split <;> rfl

@[simp] theorem State.updThread_dev (n k : Nat) (f : Thread → Thread) : (s.updThread n k f).dev = s.dev := by
  unfold State.updThread; split <;> rfl

@[simp] theorem State.updThread_agenda (n k : Nat) (f : Thread → Thread) : (s.updThread n k f).agenda = s.agenda := by
  unfold State.updThread; split <;> rfl

@[simp] theorem State.updThread_inputs (n k : Nat) (f : Thread → Thread) : (s.updThread n k f).inputs = s.inputs := by
  unfold State.updThread; split <;> rfl

@[simp] theorem State.updThread_turn (n k : Nat) (f : Thread → Thread) : (s.updThread n k f).turn = s.turn := by
  unfold State.updThread; split <;> rfl

@[simp] theorem State.updThread_turnAt (n k : Nat) (f : Thread → Thread) : (s.updThread n k f).turnAt = s.turnAt := by
  unfold State.updThread; split <;> rfl

@[simp] theorem State.updThread_idle (n k : Nat) (f : Thread → Thread) : (s.updThread n k f).idle = s.idle := by
  unfold State.updThread; split <;> rfl

@[simp] theorem State.updThread_cur (n k : Nat) (f : Thread → Thread) : (s.updThread n k f).cur = s.cur := by
  unfold State.updThread; split <;> rfl

@[simp] theorem State.updThread_evt (n k : Nat) (f : Thread → Thread) : (s.updThread n k f).evt = s.evt := by
  unfold State.updThread; split <;> rfl

@[simp] theorem State.updThread_ctr (n k : Nat) (f : Thread → Thread) : (s.updThread n k f).ctr = s.ctr := by
  unfold State.updThread; split <;> rfl

@[simp] theorem State.updThread_freeCtr (n k : Nat) (f : Thread → Thread) : (s.updThread n k f).freeCtr = s.freeCtr := by
  unfold State.updThread; split <;> rfl

/-! updMe changes cores. -/

@[simp] theorem State.updMe_now (f : Thread → Thread) : (s.updMe f).now = s.now := by
  unfold State.updMe; simp

@[simp] theorem State.updMe_dieCyc (f : Thread → Thread) : (s.updMe f).dieCyc = s.dieCyc := by
  unfold State.updMe; simp

@[simp] theorem State.updMe_mem (f : Thread → Thread) : (s.updMe f).mem = s.mem := by
  unfold State.updMe; simp

@[simp] theorem State.updMe_tags (f : Thread → Thread) : (s.updMe f).tags = s.tags := by
  unfold State.updMe; simp

@[simp] theorem State.updMe_bad (f : Thread → Thread) : (s.updMe f).bad = s.bad := by
  unfold State.updMe; simp

@[simp] theorem State.updMe_l2 (f : Thread → Thread) : (s.updMe f).l2 = s.l2 := by
  unfold State.updMe; simp

@[simp] theorem State.updMe_fams (f : Thread → Thread) : (s.updMe f).fams = s.fams := by
  unfold State.updMe; simp

@[simp] theorem State.updMe_slices (f : Thread → Thread) : (s.updMe f).slices = s.slices := by
  unfold State.updMe; simp

@[simp] theorem State.updMe_purges (f : Thread → Thread) : (s.updMe f).purges = s.purges := by
  unfold State.updMe; simp

@[simp] theorem State.updMe_reqs (f : Thread → Thread) : (s.updMe f).reqs = s.reqs := by
  unfold State.updMe; simp

@[simp] theorem State.updMe_bars (f : Thread → Thread) : (s.updMe f).bars = s.bars := by
  unfold State.updMe; simp

@[simp] theorem State.updMe_parts (f : Thread → Thread) : (s.updMe f).parts = s.parts := by
  unfold State.updMe; simp

@[simp] theorem State.updMe_contq (f : Thread → Thread) : (s.updMe f).contq = s.contq := by
  unfold State.updMe; simp

@[simp] theorem State.updMe_travs (f : Thread → Thread) : (s.updMe f).travs = s.travs := by
  unfold State.updMe; simp

@[simp] theorem State.updMe_dev (f : Thread → Thread) : (s.updMe f).dev = s.dev := by
  unfold State.updMe; simp

@[simp] theorem State.updMe_agenda (f : Thread → Thread) : (s.updMe f).agenda = s.agenda := by
  unfold State.updMe; simp

@[simp] theorem State.updMe_inputs (f : Thread → Thread) : (s.updMe f).inputs = s.inputs := by
  unfold State.updMe; simp

@[simp] theorem State.updMe_turn (f : Thread → Thread) : (s.updMe f).turn = s.turn := by
  unfold State.updMe; simp

@[simp] theorem State.updMe_turnAt (f : Thread → Thread) : (s.updMe f).turnAt = s.turnAt := by
  unfold State.updMe; simp

@[simp] theorem State.updMe_idle (f : Thread → Thread) : (s.updMe f).idle = s.idle := by
  unfold State.updMe; simp

@[simp] theorem State.updMe_cur (f : Thread → Thread) : (s.updMe f).cur = s.cur := by
  unfold State.updMe; simp

@[simp] theorem State.updMe_evt (f : Thread → Thread) : (s.updMe f).evt = s.evt := by
  unfold State.updMe; simp

@[simp] theorem State.updMe_ctr (f : Thread → Thread) : (s.updMe f).ctr = s.ctr := by
  unfold State.updMe; simp

@[simp] theorem State.updMe_freeCtr (f : Thread → Thread) : (s.updMe f).freeCtr = s.freeCtr := by
  unfold State.updMe; simp

/-! sentMsgs changes cores. -/

@[simp] theorem State.sentMsgs_now (c n : Nat) : (s.sentMsgs c n).now = s.now := by
  unfold State.sentMsgs; split <;> rfl

@[simp] theorem State.sentMsgs_dieCyc (c n : Nat) : (s.sentMsgs c n).dieCyc = s.dieCyc := by
  unfold State.sentMsgs; split <;> rfl

@[simp] theorem State.sentMsgs_mem (c n : Nat) : (s.sentMsgs c n).mem = s.mem := by
  unfold State.sentMsgs; split <;> rfl

@[simp] theorem State.sentMsgs_tags (c n : Nat) : (s.sentMsgs c n).tags = s.tags := by
  unfold State.sentMsgs; split <;> rfl

@[simp] theorem State.sentMsgs_bad (c n : Nat) : (s.sentMsgs c n).bad = s.bad := by
  unfold State.sentMsgs; split <;> rfl

@[simp] theorem State.sentMsgs_l2 (c n : Nat) : (s.sentMsgs c n).l2 = s.l2 := by
  unfold State.sentMsgs; split <;> rfl

@[simp] theorem State.sentMsgs_fams (c n : Nat) : (s.sentMsgs c n).fams = s.fams := by
  unfold State.sentMsgs; split <;> rfl

@[simp] theorem State.sentMsgs_slices (c n : Nat) : (s.sentMsgs c n).slices = s.slices := by
  unfold State.sentMsgs; split <;> rfl

@[simp] theorem State.sentMsgs_purges (c n : Nat) : (s.sentMsgs c n).purges = s.purges := by
  unfold State.sentMsgs; split <;> rfl

@[simp] theorem State.sentMsgs_reqs (c n : Nat) : (s.sentMsgs c n).reqs = s.reqs := by
  unfold State.sentMsgs; split <;> rfl

@[simp] theorem State.sentMsgs_bars (c n : Nat) : (s.sentMsgs c n).bars = s.bars := by
  unfold State.sentMsgs; split <;> rfl

@[simp] theorem State.sentMsgs_parts (c n : Nat) : (s.sentMsgs c n).parts = s.parts := by
  unfold State.sentMsgs; split <;> rfl

@[simp] theorem State.sentMsgs_contq (c n : Nat) : (s.sentMsgs c n).contq = s.contq := by
  unfold State.sentMsgs; split <;> rfl

@[simp] theorem State.sentMsgs_travs (c n : Nat) : (s.sentMsgs c n).travs = s.travs := by
  unfold State.sentMsgs; split <;> rfl

@[simp] theorem State.sentMsgs_dev (c n : Nat) : (s.sentMsgs c n).dev = s.dev := by
  unfold State.sentMsgs; split <;> rfl

@[simp] theorem State.sentMsgs_agenda (c n : Nat) : (s.sentMsgs c n).agenda = s.agenda := by
  unfold State.sentMsgs; split <;> rfl

@[simp] theorem State.sentMsgs_inputs (c n : Nat) : (s.sentMsgs c n).inputs = s.inputs := by
  unfold State.sentMsgs; split <;> rfl

@[simp] theorem State.sentMsgs_turn (c n : Nat) : (s.sentMsgs c n).turn = s.turn := by
  unfold State.sentMsgs; split <;> rfl

@[simp] theorem State.sentMsgs_turnAt (c n : Nat) : (s.sentMsgs c n).turnAt = s.turnAt := by
  unfold State.sentMsgs; split <;> rfl

@[simp] theorem State.sentMsgs_idle (c n : Nat) : (s.sentMsgs c n).idle = s.idle := by
  unfold State.sentMsgs; split <;> rfl

@[simp] theorem State.sentMsgs_cur (c n : Nat) : (s.sentMsgs c n).cur = s.cur := by
  unfold State.sentMsgs; split <;> rfl

@[simp] theorem State.sentMsgs_evt (c n : Nat) : (s.sentMsgs c n).evt = s.evt := by
  unfold State.sentMsgs; split <;> rfl

@[simp] theorem State.sentMsgs_ctr (c n : Nat) : (s.sentMsgs c n).ctr = s.ctr := by
  unfold State.sentMsgs; split <;> rfl

@[simp] theorem State.sentMsgs_freeCtr (c n : Nat) : (s.sentMsgs c n).freeCtr = s.freeCtr := by
  unfold State.sentMsgs; split <;> rfl

/-! gotMsgs changes cores. -/

@[simp] theorem State.gotMsgs_now (c n : Nat) : (s.gotMsgs c n).now = s.now := by
  unfold State.gotMsgs; split <;> rfl

@[simp] theorem State.gotMsgs_dieCyc (c n : Nat) : (s.gotMsgs c n).dieCyc = s.dieCyc := by
  unfold State.gotMsgs; split <;> rfl

@[simp] theorem State.gotMsgs_mem (c n : Nat) : (s.gotMsgs c n).mem = s.mem := by
  unfold State.gotMsgs; split <;> rfl

@[simp] theorem State.gotMsgs_tags (c n : Nat) : (s.gotMsgs c n).tags = s.tags := by
  unfold State.gotMsgs; split <;> rfl

@[simp] theorem State.gotMsgs_bad (c n : Nat) : (s.gotMsgs c n).bad = s.bad := by
  unfold State.gotMsgs; split <;> rfl

@[simp] theorem State.gotMsgs_l2 (c n : Nat) : (s.gotMsgs c n).l2 = s.l2 := by
  unfold State.gotMsgs; split <;> rfl

@[simp] theorem State.gotMsgs_fams (c n : Nat) : (s.gotMsgs c n).fams = s.fams := by
  unfold State.gotMsgs; split <;> rfl

@[simp] theorem State.gotMsgs_slices (c n : Nat) : (s.gotMsgs c n).slices = s.slices := by
  unfold State.gotMsgs; split <;> rfl

@[simp] theorem State.gotMsgs_purges (c n : Nat) : (s.gotMsgs c n).purges = s.purges := by
  unfold State.gotMsgs; split <;> rfl

@[simp] theorem State.gotMsgs_reqs (c n : Nat) : (s.gotMsgs c n).reqs = s.reqs := by
  unfold State.gotMsgs; split <;> rfl

@[simp] theorem State.gotMsgs_bars (c n : Nat) : (s.gotMsgs c n).bars = s.bars := by
  unfold State.gotMsgs; split <;> rfl

@[simp] theorem State.gotMsgs_parts (c n : Nat) : (s.gotMsgs c n).parts = s.parts := by
  unfold State.gotMsgs; split <;> rfl

@[simp] theorem State.gotMsgs_contq (c n : Nat) : (s.gotMsgs c n).contq = s.contq := by
  unfold State.gotMsgs; split <;> rfl

@[simp] theorem State.gotMsgs_travs (c n : Nat) : (s.gotMsgs c n).travs = s.travs := by
  unfold State.gotMsgs; split <;> rfl

@[simp] theorem State.gotMsgs_dev (c n : Nat) : (s.gotMsgs c n).dev = s.dev := by
  unfold State.gotMsgs; split <;> rfl

@[simp] theorem State.gotMsgs_agenda (c n : Nat) : (s.gotMsgs c n).agenda = s.agenda := by
  unfold State.gotMsgs; split <;> rfl

@[simp] theorem State.gotMsgs_inputs (c n : Nat) : (s.gotMsgs c n).inputs = s.inputs := by
  unfold State.gotMsgs; split <;> rfl

@[simp] theorem State.gotMsgs_turn (c n : Nat) : (s.gotMsgs c n).turn = s.turn := by
  unfold State.gotMsgs; split <;> rfl

@[simp] theorem State.gotMsgs_turnAt (c n : Nat) : (s.gotMsgs c n).turnAt = s.turnAt := by
  unfold State.gotMsgs; split <;> rfl

@[simp] theorem State.gotMsgs_idle (c n : Nat) : (s.gotMsgs c n).idle = s.idle := by
  unfold State.gotMsgs; split <;> rfl

@[simp] theorem State.gotMsgs_cur (c n : Nat) : (s.gotMsgs c n).cur = s.cur := by
  unfold State.gotMsgs; split <;> rfl

@[simp] theorem State.gotMsgs_evt (c n : Nat) : (s.gotMsgs c n).evt = s.evt := by
  unfold State.gotMsgs; split <;> rfl

@[simp] theorem State.gotMsgs_ctr (c n : Nat) : (s.gotMsgs c n).ctr = s.ctr := by
  unfold State.gotMsgs; split <;> rfl

@[simp] theorem State.gotMsgs_freeCtr (c n : Nat) : (s.gotMsgs c n).freeCtr = s.freeCtr := by
  unfold State.gotMsgs; split <;> rfl

/-! again changes turn and idle. -/

@[simp] theorem State.again_now (n : Nat) : (s.again n).now = s.now := by
  unfold State.again; split <;> rfl

@[simp] theorem State.again_dieCyc (n : Nat) : (s.again n).dieCyc = s.dieCyc := by
  unfold State.again; split <;> rfl

@[simp] theorem State.again_cores (n : Nat) : (s.again n).cores = s.cores := by
  unfold State.again; split <;> rfl

@[simp] theorem State.again_mem (n : Nat) : (s.again n).mem = s.mem := by
  unfold State.again; split <;> rfl

@[simp] theorem State.again_tags (n : Nat) : (s.again n).tags = s.tags := by
  unfold State.again; split <;> rfl

@[simp] theorem State.again_bad (n : Nat) : (s.again n).bad = s.bad := by
  unfold State.again; split <;> rfl

@[simp] theorem State.again_l2 (n : Nat) : (s.again n).l2 = s.l2 := by
  unfold State.again; split <;> rfl

@[simp] theorem State.again_fams (n : Nat) : (s.again n).fams = s.fams := by
  unfold State.again; split <;> rfl

@[simp] theorem State.again_slices (n : Nat) : (s.again n).slices = s.slices := by
  unfold State.again; split <;> rfl

@[simp] theorem State.again_purges (n : Nat) : (s.again n).purges = s.purges := by
  unfold State.again; split <;> rfl

@[simp] theorem State.again_reqs (n : Nat) : (s.again n).reqs = s.reqs := by
  unfold State.again; split <;> rfl

@[simp] theorem State.again_bars (n : Nat) : (s.again n).bars = s.bars := by
  unfold State.again; split <;> rfl

@[simp] theorem State.again_parts (n : Nat) : (s.again n).parts = s.parts := by
  unfold State.again; split <;> rfl

@[simp] theorem State.again_contq (n : Nat) : (s.again n).contq = s.contq := by
  unfold State.again; split <;> rfl

@[simp] theorem State.again_travs (n : Nat) : (s.again n).travs = s.travs := by
  unfold State.again; split <;> rfl

@[simp] theorem State.again_dev (n : Nat) : (s.again n).dev = s.dev := by
  unfold State.again; split <;> rfl

@[simp] theorem State.again_agenda (n : Nat) : (s.again n).agenda = s.agenda := by
  unfold State.again; split <;> rfl

@[simp] theorem State.again_inputs (n : Nat) : (s.again n).inputs = s.inputs := by
  unfold State.again; split <;> rfl

@[simp] theorem State.again_turnAt (n : Nat) : (s.again n).turnAt = s.turnAt := by
  unfold State.again; split <;> rfl

@[simp] theorem State.again_cur (n : Nat) : (s.again n).cur = s.cur := by
  unfold State.again; split <;> rfl

@[simp] theorem State.again_evt (n : Nat) : (s.again n).evt = s.evt := by
  unfold State.again; split <;> rfl

@[simp] theorem State.again_ctr (n : Nat) : (s.again n).ctr = s.ctr := by
  unfold State.again; split <;> rfl

@[simp] theorem State.again_freeCtr (n : Nat) : (s.again n).freeCtr = s.freeCtr := by
  unfold State.again; split <;> rfl

/-! updThere changes cores and travs and contq and parts. -/

@[simp] theorem State.updThere_now (w : Who) (f : Thread → Thread) : (s.updThere w f).now = s.now := by
  unfold State.updThere; split <;> rfl

@[simp] theorem State.updThere_dieCyc (w : Who) (f : Thread → Thread) : (s.updThere w f).dieCyc = s.dieCyc := by
  unfold State.updThere; split <;> rfl

@[simp] theorem State.updThere_mem (w : Who) (f : Thread → Thread) : (s.updThere w f).mem = s.mem := by
  unfold State.updThere; split <;> rfl

@[simp] theorem State.updThere_tags (w : Who) (f : Thread → Thread) : (s.updThere w f).tags = s.tags := by
  unfold State.updThere; split <;> rfl

@[simp] theorem State.updThere_bad (w : Who) (f : Thread → Thread) : (s.updThere w f).bad = s.bad := by
  unfold State.updThere; split <;> rfl

@[simp] theorem State.updThere_l2 (w : Who) (f : Thread → Thread) : (s.updThere w f).l2 = s.l2 := by
  unfold State.updThere; split <;> rfl

@[simp] theorem State.updThere_fams (w : Who) (f : Thread → Thread) : (s.updThere w f).fams = s.fams := by
  unfold State.updThere; split <;> rfl

@[simp] theorem State.updThere_slices (w : Who) (f : Thread → Thread) : (s.updThere w f).slices = s.slices := by
  unfold State.updThere; split <;> rfl

@[simp] theorem State.updThere_purges (w : Who) (f : Thread → Thread) : (s.updThere w f).purges = s.purges := by
  unfold State.updThere; split <;> rfl

@[simp] theorem State.updThere_reqs (w : Who) (f : Thread → Thread) : (s.updThere w f).reqs = s.reqs := by
  unfold State.updThere; split <;> rfl

@[simp] theorem State.updThere_bars (w : Who) (f : Thread → Thread) : (s.updThere w f).bars = s.bars := by
  unfold State.updThere; split <;> rfl

@[simp] theorem State.updThere_dev (w : Who) (f : Thread → Thread) : (s.updThere w f).dev = s.dev := by
  unfold State.updThere; split <;> rfl

@[simp] theorem State.updThere_agenda (w : Who) (f : Thread → Thread) : (s.updThere w f).agenda = s.agenda := by
  unfold State.updThere; split <;> rfl

@[simp] theorem State.updThere_inputs (w : Who) (f : Thread → Thread) : (s.updThere w f).inputs = s.inputs := by
  unfold State.updThere; split <;> rfl

@[simp] theorem State.updThere_turn (w : Who) (f : Thread → Thread) : (s.updThere w f).turn = s.turn := by
  unfold State.updThere; split <;> rfl

@[simp] theorem State.updThere_turnAt (w : Who) (f : Thread → Thread) : (s.updThere w f).turnAt = s.turnAt := by
  unfold State.updThere; split <;> rfl

@[simp] theorem State.updThere_idle (w : Who) (f : Thread → Thread) : (s.updThere w f).idle = s.idle := by
  unfold State.updThere; split <;> rfl

@[simp] theorem State.updThere_cur (w : Who) (f : Thread → Thread) : (s.updThere w f).cur = s.cur := by
  unfold State.updThere; split <;> rfl

@[simp] theorem State.updThere_evt (w : Who) (f : Thread → Thread) : (s.updThere w f).evt = s.evt := by
  unfold State.updThere; split <;> rfl

@[simp] theorem State.updThere_ctr (w : Who) (f : Thread → Thread) : (s.updThere w f).ctr = s.ctr := by
  unfold State.updThere; split <;> rfl

@[simp] theorem State.updThere_freeCtr (w : Who) (f : Thread → Thread) : (s.updThere w f).freeCtr = s.freeCtr := by
  unfold State.updThere; split <;> rfl

end Sys2Proof.Machine
end

