-- ==== Sys2Proof/Laws/Ops.lean ====
section
/-! SUPPORT. Cores, threads and the issuing thread after an update; and, once for each shared operation, everything it can
do. -/

namespace Sys2Proof.Machine

/-! Cores. -/

theorem find_putCore_self (l : List Core) (c : Core) : (putCore l c).find? (fun x => x.cid == c.cid) = some c := by
  induction l with
  | nil => simp [putCore]
  | cons x xs ih =>
    unfold putCore
    split
    · simp
    · split
      · simp
      · rename_i h1 h2
        rw [List.find?_cons_of_neg (by simpa using fun h => h2 h.symm)]
        exact ih

theorem find_putCore_ne (l : List Core) (c : Core) (k : Nat) (h : k ≠ c.cid) :
    (putCore l c).find? (fun x => x.cid == k) = l.find? (fun x => x.cid == k) := by
  induction l with
  | nil => simp [putCore, Ne.symm h]
  | cons x xs ih =>
    unfold putCore
    split
    · rw [List.find?_cons_of_neg (by simpa using Ne.symm h)]
    · split
      · rename_i _ h2
        rw [List.find?_cons_of_neg (by simpa using Ne.symm h), List.find?_cons_of_neg (by simpa [← h2] using Ne.symm h)]
      · simp only [List.find?_cons, ih]

@[simp] theorem State.core_setCore_self (s : State) (c : Core) : (s.setCore c).core c.cid = c := by
  simp [State.core, State.setCore, find_putCore_self]

theorem State.core_setCore_ne (s : State) (c : Core) (k : Nat) (h : k ≠ c.cid) : (s.setCore c).core k = s.core k := by
  simp [State.core, State.setCore, find_putCore_ne _ _ _ h]

theorem State.core_cid (s : State) (k : Nat) : (s.core k).cid = k := by
  unfold State.core
  cases h : s.cores.find? (fun c => c.cid == k) with
  | none => rfl
  | some c => simpa using List.find?_some h

@[simp] theorem State.core_updCore_self (s : State) (k : Nat) (f : Core → Core) :
    (s.updCore k f).core k = { f (s.core k) with cid := k } :=
  State.core_setCore_self s { f (s.core k) with cid := k }

theorem State.core_updCore_ne (s : State) (k j : Nat) (f : Core → Core) (h : j ≠ k) :
    (s.updCore k f).core j = s.core j :=
  State.core_setCore_ne s _ j h

/-- The cores are what every reading of a core goes by. -/
theorem State.core_congr {s t : State} (h : s.cores = t.cores) (k : Nat) : s.core k = t.core k := by
  simp [State.core, h]

/-! Threads. -/

theorem Core.thread_setThread_self (c : Core) (k : Nat) (t : Option Thread) (h : k < 17) :
    (c.setThread k t).thread k = t := by
  simp [Core.thread, Core.setThread, h]

theorem Core.thread_setThread_ne (c : Core) (k j : Nat) (t : Option Thread) (h : j ≠ k) :
    (c.setThread k t).thread j = c.thread j := by
  unfold Core.setThread
  split
  · unfold Core.thread
    split
    · simp [Ne.symm h]
    · rfl
  · rfl

theorem State.thread_setThread_self (s : State) (c k : Nat) (t : Option Thread) (h : k < 17) :
    (s.setThread c k t).thread c k = t := by
  unfold State.thread State.setThread
  rw [State.core_updCore_self]
  exact Core.thread_setThread_self (s.core c) k t h

theorem State.thread_setThread_ne (s : State) (c k c' k' : Nat) (t : Option Thread) (h : c' ≠ c ∨ k' ≠ k) :
    (s.setThread c k t).thread c' k' = s.thread c' k' := by
  unfold State.thread State.setThread
  by_cases hc : c' = c
  · subst hc
    rw [State.core_updCore_self]
    exact Core.thread_setThread_ne (s.core c') k k' t (h.resolve_left (fun h => h rfl))
  · rw [State.core_updCore_ne _ _ _ _ hc]

/-! The issuing thread. -/

theorem State.me_congr {s t : State} (hc : s.cores = t.cores) (h : s.cur.cid = t.cur.cid) (k : s.cur.slot = t.cur.slot) :
    s.me = t.me := by
  simp [State.me, State.thread, h, k, State.core_congr hc]

theorem State.Stands.updMe {s : State} (h : s.Stands) (f : Thread → Thread) :
    s.updMe f = s.setThread s.cur.cid s.cur.slot (some (f s.me)) := by
  unfold State.updMe State.updThread
  rw [h.2]

theorem State.Stands.me_updMe {s : State} (h : s.Stands) (f : Thread → Thread) : (s.updMe f).me = f s.me := by
  rw [h.updMe f]
  unfold State.me
  simp only [State.setThread_cur]
  rw [State.thread_setThread_self _ _ _ _ h.1]
  rfl

theorem State.Stands.after_updMe {s : State} (h : s.Stands) (f : Thread → Thread) : (s.updMe f).Stands := by
  refine ⟨by simpa using h.1, ?_⟩
  rw [h.me_updMe f, h.updMe f]
  simp only [State.setThread_cur]
  exact State.thread_setThread_self _ _ _ _ h.1

/-- Standing goes by the cores and the issuing slot alone. -/
theorem State.Stands.congr {s t : State} (h : s.Stands) (hc : t.cores = s.cores) (hcur : t.cur.cid = s.cur.cid)
    (hs : t.cur.slot = s.cur.slot) : t.Stands := by
  refine ⟨hs ▸ h.1, ?_⟩
  rw [State.me_congr hc hcur hs, ← h.2]
  simp [State.thread, State.core_congr hc, hcur, hs]

/-! The checks on registers. -/

/-- Which writes an instruction makes in the air does not tell whether its registers are usable. -/
theorem Usable.withPw {u : Uses} {s : State} (h : Usable u s) (pw : List (FDest × Nat)) : Usable { u with pw := pw } s :=
  ⟨h.window, h.vectors, h.writable, h.present, h.vpresent, h.idle, h.vidle, h.landed, h.acquired⟩

/-- A scalar result that overtakes none, as the checks look for it. -/
theorem SInOrder.dest {s : State} {rd : SReg} {lat : Nat} (h : SInOrder s rd lat) :
    ∀ p ∈ SReg.dest rd lat, InOrder s p.1 p.2 := by
  cases rd <;> simp_all [SReg.dest, SInOrder]

/-- The registers are usable, and no result would land before an older one: the checks let the instruction go on. -/
theorem gate_ok {u : Uses} {s : State} (sl : Slot) (h : Usable u s) (hpw : ∀ p ∈ u.pw, InOrder s p.1 p.2) :
    gate sl u s = .ok () := by
  obtain ⟨hw, hv, hro, hp, hvp, hi, hvi, hl, ha⟩ := h
  have h1 : u.sr.any s.me.outside = false := by simpa using fun r hr => hw r (by simp [hr])
  have h2 : u.sw.any s.me.outside = false := by simpa using fun r hr => hw r (by simp [hr])
  have h3 : (u.vr.any fun n => decide (s.me.vn ≤ n.toNat)) = false := by simpa using fun n hn => hv n (by simp [hn])
  have h4 : (u.vw.any fun n => decide (s.me.vn ≤ n.toNat)) = false := by simpa using fun n hn => hv n (by simp [hn])
  have h5 : u.sw.any s.me.readOnly = false := by simpa using hro
  have h6 : ((u.sr.filterMap s.me.cell).filterMap (·.fail) ++
      (u.vr.map fun n => s.me.regs.v.get n.toFin).filterMap (·.fail)).head? = none := by
    have e1 : (u.sr.filterMap s.me.cell).filterMap (·.fail) = [] := by
      rw [List.filterMap_eq_nil_iff]; exact fun c hc => (hp c hc).2
    have e2 : (u.vr.map fun n => s.me.regs.v.get n.toFin).filterMap (·.fail) = [] := by
      rw [List.filterMap_eq_nil_iff]
      intro c hc
      obtain ⟨n, hn, rfl⟩ := List.mem_map.1 hc
      exact (hvp n hn).2
    rw [e1, e2]; rfl
  have h7 : (u.sr.filterMap s.me.cell).any (fun c => !c.pres) = false := by
    rw [List.any_eq_false]; intro c hc; simp [(hp c hc).1]
  have h8 : (u.vr.map fun n => s.me.regs.v.get n.toFin).any (fun c => !c.pres) = false := by
    rw [List.any_eq_false]; intro c hc
    obtain ⟨n, hn, rfl⟩ := List.mem_map.1 hc
    simp [(hvp n hn).1]
  have h9 : (u.sw.filterMap s.me.cell).any (·.pend) = false := by
    rw [List.any_eq_false]; intro c hc; simp [hi c hc]
  have h10 : (u.vw.map fun n => s.me.regs.v.get n.toFin).any (·.pend) = false := by
    rw [List.any_eq_false]; intro c hc
    obtain ⟨n, hn, rfl⟩ := List.mem_map.1 hc
    simp [hvi n hn]
  have h12 : u.sr.any s.me.unacquired = false := by simpa using ha
  have h11 : (s.me.csr.chk.getLsbD 0 && ((s.me.olderFlights.any fun f =>
      u.sr.any f.dst.isS || u.vr.any (fun n => f.dst == .v n) || u.mr.any (fun n => f.dst == .m n)) ||
        u.pw.any fun p => s.me.overtakes s.now (s.ticks (dieOf s.cur.cid) p.2) p.1)) = false := by
    cases hc : s.me.csr.chk.getLsbD 0 with
    | false => rfl
    | true =>
      rw [Bool.true_and, Bool.or_eq_false_iff, List.any_eq_false, List.any_eq_false]
      refine ⟨?_, fun p hp => by simp [hpw p hp hc]⟩
      intro f hf
      obtain ⟨a, b, c⟩ := hl hc f hf
      have x1 : u.sr.any f.dst.isS = false := by simpa using a
      have x2 : u.vr.any (fun n => f.dst == .v n) = false := by simpa using b
      have x3 : u.mr.any (fun n => f.dst == .m n) = false := by simpa using c
      simp [x1, x2, x3]
  unfold gate
  simp only [h1, h2, h3, h4, h5, h7, h8, h9, h10, h11, h12, Bool.or_self, Bool.false_eq_true, if_false, h6]

theorem gateC_ok {u : Uses} {s : State} (h : Usable u s) (hpw : ∀ p ∈ u.pw, InOrder s p.1 p.2) (hb : InBudget s) :
    gateC u s = .ok () := by
  unfold gateC
  rw [gate_ok .c h hpw]
  rcases hb with hb | ⟨v, hv⟩
  · simp [hb]
  · simp [hv]

/-- The checks let an instruction go on, or end it in a trap or for this cycle, or make the acquire of first reads. -/
theorem gate_cases (sl : Slot) (u : Uses) (s : State) :
    gate sl u s = .ok () ∨ (∃ st c a, gate sl u s = raise s st c a) ∨ gate sl u s = notReady s ∨
      gate sl u s = .error (s.firstReads u.sr) := by
  unfold gate
  dsimp only
  split
  · exact .inr (.inl ⟨_, _, _, rfl⟩)
  · split
    · exact .inr (.inl ⟨_, _, _, rfl⟩)
    · split
      · split <;> exact .inr (.inl ⟨_, _, _, rfl⟩)
      · split
        · exact .inr (.inr (.inl rfl))
        · split
          · exact .inr (.inl ⟨_, _, _, rfl⟩)
          · split
            · exact .inr (.inr (.inr rfl))
            · exact .inl rfl

/-! Results in flight. -/

theorem State.dieAfter_congr {s t : State} (h : s.dev = t.dev) (d at_ n : Nat) : s.dieAfter d at_ n = t.dieAfter d at_ n := by
  simp [State.dieAfter, h]

theorem State.ticks_congr {s t : State} (h : s.dev = t.dev) (hn : s.now = t.now) (d n : Nat) : s.ticks d n = t.ticks d n := by
  simp [State.ticks, hn, State.dieAfter_congr h]

/-- A result that overtakes none is in flight. -/
theorem produce_ok {s : State} {d : FDest} {lat : Nat} (hs : s.Stands) (h : InOrder s d lat) (v m : VWord) :
    produce s d v m lat = .ok (s.withFlight d v m lat) := by
  have h1 : (s.me.csr.chk.getLsbD 0 && s.me.overtakes s.now (s.ticks (dieOf s.cur.cid) lat) d) = false := by
    cases hc : s.me.csr.chk.getLsbD 0 with
    | false => rfl
    | true => simp [h hc]
  have h2 : ({ s with ctr := s.ctr + 1 } : State).Stands := hs.congr rfl rfl rfl
  unfold produce
  simp only [h1, Bool.false_eq_true, if_false, State.fresh, State.withFlight]
  rw [State.Stands.updMe h2, State.Stands.updMe hs]
  rfl

/-- A result in flight changes the flights of the issuing thread alone. -/
theorem State.Stands.me_withFlight {s : State} (hs : s.Stands) (d : FDest) (v m : VWord) (lat : Nat) :
    (s.withFlight d v m lat).me =
      { s.me with flights := s.me.flights ++ [s.flightOf d v m lat] } :=
  (State.me_congr (t := s.updMe fun t => { t with flights := t.flights ++ [s.flightOf d v m lat] }) rfl rfl rfl).trans
    (hs.me_updMe _)

theorem State.Stands.after_withFlight {s : State} (hs : s.Stands) (d : FDest) (v m : VWord) (lat : Nat) :
    (s.withFlight d v m lat).Stands :=
  (hs.after_updMe _).congr rfl rfl rfl

@[simp] theorem State.Stands.me_withScalar_pc {s : State} (hs : s.Stands) (rd : SReg) (v : W64) (lat : Nat) :
    (s.withScalar rd v lat).me.pc = s.me.pc := by
  cases rd <;> first | rfl | (show (State.withFlight ..).me.pc = _; rw [hs.me_withFlight])

theorem State.Stands.after_withScalar {s : State} (hs : s.Stands) (rd : SReg) (v : W64) (lat : Nat) :
    (s.withScalar rd v lat).Stands := by
  cases rd <;> first | exact hs | exact hs.after_withFlight _ _ _ _

theorem produceS_ok {s : State} {rd : SReg} {lat : Nat} (hs : s.Stands) (h : SInOrder s rd lat) (v : W64) :
    produceS s rd v lat = .ok (s.withScalar rd v lat) := by
  cases rd <;> first | rfl | exact produce_ok hs h _ _

theorem produceM_ok {s : State} {md : MReg} {lat : Nat} (hs : s.Stands) (h : md = 0#2 ∨ InOrder s (.m md) lat)
    (v m : MWord) : produceM s md v m lat = .ok (s.withMask md v m lat) := by
  unfold produceM State.withMask
  split
  · rfl
  · exact produce_ok hs (h.resolve_left ‹_›) _ _

/-! Commitment. -/

/-- What commitment leaves of the issuing thread. -/
theorem commit_me {s : State} (hs : s.Stands) (h : Hdr) (ext : ExtUse) (w : Bool) (next : W64) :
    (commit s h ext w next).me =
      s.me.afterCommit s.now (s.stallEnd h) s.cur.aFlags h ext w next := by
  refine Eq.trans ?_ (hs.me_updMe fun _ => s.me.afterCommit s.now (s.stallEnd h) s.cur.aFlags h ext w next)
  unfold commit
  apply State.me_congr <;> dsimp only <;> (repeat' split) <;> simp

theorem commit_res (s : State) (h : Hdr) (ext : ExtUse) (w : Bool) (next : W64) :
    (commit s h ext w next).cur = { s.cur with res := .committed } := by
  unfold commit; dsimp only; (repeat' split) <;> simp

/-- Commitment touches the thread, the bundle count of its slice and the agenda, nothing else. -/
theorem commit_frame (s : State) (h : Hdr) (ext : ExtUse) (w : Bool) (next : W64) :
    let t := commit s h ext w next
    t.now = s.now ∧ t.mem = s.mem ∧ t.tags = s.tags ∧ t.l2 = s.l2 ∧ t.fams = s.fams ∧ t.reqs = s.reqs ∧
    t.bars = s.bars ∧ t.parts = s.parts ∧ t.contq = s.contq ∧ t.travs = s.travs ∧ t.dev = s.dev ∧
    t.purges = s.purges ∧ t.ctr = s.ctr ∧ t.freeCtr = s.freeCtr := by
  unfold commit; dsimp only; (repeat' split) <;> simp


end Sys2Proof.Machine
end

