-- ==== Sys2Proof/Laws/PerInstr.lean ====
section
/-! SUPPORT. Statements made of every instruction, one lemma for each constructor.  Family Encoded: an instruction's word has
32 bits; a machine step that no instruction encodes has none. -/

namespace Sys2Proof

/-- The word of an instruction has 32 bits (R41). -/
def Laws.Encoded.Statement (i : Instr) : Prop := ∀ w, encode i = some w → w < 2 ^ 32

theorem SReg.code_lt (r : SReg) : r.code < 32 := by
  cases r <;> simp only [SReg.code] <;> omega

theorem Scope.code_lt (r : Scope) : r.code < 8 := by cases r <;> decide

theorem VTy.code_lt (t : VTy) : t.code < 8 := by cases t <;> decide

theorem CvtCode.code_lt (t : CvtCode) : t.code < 16 := by cases t <;> decide

theorem GSize.code_lt (t : GSize) : t.code < 4 := by cases t <;> decide

theorem MxDest.code_lt (t : MxDest) : t.code < 4 := by cases t <;> decide

theorem MxElem.code_lt (t : MxElem) : t.code < 8 := by cases t <;> decide

theorem bit_lt (b : Bool) : bit b < 2 := by cases b <;> decide

theorem Opnd2.rb_lt (o : Opnd2) : o.rb < 32 := by
  cases o with
  | reg rb w => exact rb.code_lt
  | imm i => simp only [Opnd2.rb]; omega

theorem Opnd2.md_lt (o : Opnd2) : o.md < 64 := by
  cases o with
  | reg rb w => have := bit_lt w; simp only [Opnd2.md]; omega
  | imm i => simp only [Opnd2.md]; omega

theorem UOpnd.rb_lt (o : UOpnd) : o.rb < 32 := by
  cases o <;> simp only [UOpnd.rb] <;> omega

theorem UOpnd.md_lt (o : UOpnd) : o.md < 64 := by
  cases o with
  | std w => have := bit_lt w; simp only [UOpnd.md]; omega
  | imm i => simp only [UOpnd.md]; omega

theorem FRnd.md_lt (r : FRnd) : r.md < 8 := by
  have := bit_lt r.n; simp only [FRnd.md]; omega

theorem VMod.md_lt (m : VMod) : m.md < 32 := by
  have := m.ty.code_lt; simp only [VMod.md]; omega

theorem VSrc.rb_lt (b : VSrc) : b.rb < 32 := by
  cases b with
  | v n => simp only [VSrc.rb]; omega
  | sc r => exact r.code_lt

theorem VSrc.s_lt (b : VSrc) : b.s ≤ 32 := by cases b <;> simp [VSrc.s]

theorem cWord_lt {cop f : Nat} (h : Hdr) (hc : cop < 64) (hf : f < 2 ^ 22) : cWord cop h f < 2 ^ 32 := by
  unfold cWord; split <;> omega

theorem crWord_lt {cop rd ra rb fn : Nat} (h : Hdr) (hc : cop < 64) (h1 : rd < 32) (h2 : ra < 32) (h3 : rb < 32)
    (h4 : fn < 128) : crWord cop h rd ra rb fn < 2 ^ 32 := cWord_lt h hc (by omega)

theorem ciWord_lt {cop rd ra imm : Nat} (h : Hdr) (hc : cop < 64) (h1 : rd < 32) (h2 : ra < 32) (h3 : imm < 4096) :
    ciWord cop h rd ra imm < 2 ^ 32 := cWord_lt h hc (by omega)

theorem cbWord_lt {cop ra cc off : Nat} (h : Hdr) (hc : cop < 64) (h1 : ra < 32) (h2 : cc < 8) (h3 : off < 2 ^ 14) :
    cbWord cop h ra cc off < 2 ^ 32 := cWord_lt h hc (by omega)

theorem cmWord_lt {cop rd ra sz ord sc dsp : Nat} (h : Hdr) (hc : cop < 64) (h1 : rd < 32) (h2 : ra < 32) (h3 : sz < 4)
    (h4 : ord < 4) (h5 : sc < 8) (h6 : dsp < 32) : cmWord cop h rd ra sz ord sc dsp < 2 ^ 32 := cWord_lt h hc (by omega)

theorem cvWord_lt {cop vd ra rb msk fn : Nat} (h : Hdr) (hc : cop < 64) (h1 : vd < 32) (h2 : ra < 32) (h3 : rb < 32)
    (h4 : msk < 4) (h5 : fn < 32) : cvWord cop h vd ra rb msk fn < 2 ^ 32 := cWord_lt h hc (by omega)

theorem cxWord_lt {cop t ra rb fn : Nat} (h : Hdr) (hc : cop < 64) (h1 : t < 64) (h2 : ra < 32) (h3 : rb < 32)
    (h4 : fn < 64) : cxWord cop h t ra rb fn < 2 ^ 32 := cWord_lt h hc (by omega)

theorem aWord_lt {aop rd ra rb rc md : Nat} (ha : aop < 64) (h1 : rd < 32) (h2 : ra < 32) (h3 : rb < 32) (h4 : rc < 32)
    (h5 : md < 64) : aWord aop rd ra rb rc md < 2 ^ 32 := by
  unfold aWord; omega

theorem Laws.Encoded.cnop (h : Hdr) : Laws.Encoded.Statement (.cnop h) := by
  rintro _ ⟨⟩
  exact crWord_lt h (by decide) (by decide) (by decide) (by decide) (by decide)

theorem Laws.Encoded.li (h : Hdr) (rd : SReg) (imm : BitVec 12) : Laws.Encoded.Statement (.li h rd imm) := by
  rintro _ ⟨⟩
  exact ciWord_lt h (by decide) rd.code_lt (by decide) (by omega)

theorem Laws.Encoded.lih (h : Hdr) (rd : SReg) (ra : SReg) (imm : BitVec 12) : Laws.Encoded.Statement (.lih h rd ra imm) := by
  rintro _ ⟨⟩
  exact ciWord_lt h (by decide) rd.code_lt ra.code_lt (by omega)

theorem Laws.Encoded.addi (h : Hdr) (rd : SReg) (ra : SReg) (imm : BitVec 12) : Laws.Encoded.Statement (.addi h rd ra imm) := by
  rintro _ ⟨⟩
  exact ciWord_lt h (by decide) rd.code_lt ra.code_lt (by omega)

theorem Laws.Encoded.br (h : Hdr) (off : BitVec 14) : Laws.Encoded.Statement (.br h off) := by
  rintro _ ⟨⟩
  exact cbWord_lt h (by decide) (by decide) (by decide) (by omega)

theorem Laws.Encoded.bcEqz (h : Hdr) (ra : SReg) (off : BitVec 14) : Laws.Encoded.Statement (.bcEqz h ra off) := by
  rintro _ ⟨⟩
  exact cbWord_lt h (by decide) ra.code_lt (by decide) (by omega)

theorem Laws.Encoded.bcNez (h : Hdr) (ra : SReg) (off : BitVec 14) : Laws.Encoded.Statement (.bcNez h ra off) := by
  rintro _ ⟨⟩
  exact cbWord_lt h (by decide) ra.code_lt (by decide) (by omega)

theorem Laws.Encoded.bcLtz (h : Hdr) (ra : SReg) (off : BitVec 14) : Laws.Encoded.Statement (.bcLtz h ra off) := by
  rintro _ ⟨⟩
  exact cbWord_lt h (by decide) ra.code_lt (by decide) (by omega)

theorem Laws.Encoded.bcGez (h : Hdr) (ra : SReg) (off : BitVec 14) : Laws.Encoded.Statement (.bcGez h ra off) := by
  rintro _ ⟨⟩
  exact cbWord_lt h (by decide) ra.code_lt (by decide) (by omega)

theorem Laws.Encoded.bcGtz (h : Hdr) (ra : SReg) (off : BitVec 14) : Laws.Encoded.Statement (.bcGtz h ra off) := by
  rintro _ ⟨⟩
  exact cbWord_lt h (by decide) ra.code_lt (by decide) (by omega)

theorem Laws.Encoded.bcLez (h : Hdr) (ra : SReg) (off : BitVec 14) : Laws.Encoded.Statement (.bcLez h ra off) := by
  rintro _ ⟨⟩
  exact cbWord_lt h (by decide) ra.code_lt (by decide) (by omega)

theorem Laws.Encoded.bcFull (h : Hdr) (ra : SReg) (off : BitVec 14) : Laws.Encoded.Statement (.bcFull h ra off) := by
  rintro _ ⟨⟩
  exact cbWord_lt h (by decide) ra.code_lt (by decide) (by omega)

theorem Laws.Encoded.bcEmpty (h : Hdr) (ra : SReg) (off : BitVec 14) : Laws.Encoded.Statement (.bcEmpty h ra off) := by
  rintro _ ⟨⟩
  exact cbWord_lt h (by decide) ra.code_lt (by decide) (by omega)

theorem Laws.Encoded.call (h : Hdr) (off : BitVec 14) : Laws.Encoded.Statement (.call h off) := by
  rintro _ ⟨⟩
  exact cbWord_lt h (by decide) (by decide) (by decide) (by omega)

theorem Laws.Encoded.callx (h : Hdr) (ra : SReg) : Laws.Encoded.Statement (.callx h ra) := by
  rintro _ ⟨⟩
  exact crWord_lt h (by decide) (by decide) ra.code_lt (by decide) (by decide)

theorem Laws.Encoded.ret (h : Hdr) : Laws.Encoded.Statement (.ret h) := by
  rintro _ ⟨⟩
  exact crWord_lt h (by decide) (by decide) (by decide) (by decide) (by decide)

theorem Laws.Encoded.brx (h : Hdr) (ra : SReg) : Laws.Encoded.Statement (.brx h ra) := by
  rintro _ ⟨⟩
  exact crWord_lt h (by decide) (by decide) ra.code_lt (by decide) (by decide)

theorem Laws.Encoded.create (h : Hdr) (rd : SReg) (ra : SReg) (rb : SReg) : Laws.Encoded.Statement (.create h rd ra rb) := by
  rintro _ ⟨⟩
  exact crWord_lt h (by decide) rd.code_lt ra.code_lt rb.code_lt (by decide)

theorem Laws.Encoded.createRev (h : Hdr) (rd : SReg) (ra : SReg) (rb : SReg) : Laws.Encoded.Statement (.createRev h rd ra rb) := by
  rintro _ ⟨⟩
  exact crWord_lt h (by decide) rd.code_lt ra.code_lt rb.code_lt (by decide)

theorem Laws.Encoded.createDet (h : Hdr) (rd : SReg) (ra : SReg) (rb : SReg) (rev : Bool) : Laws.Encoded.Statement (.createDet h rd ra rb rev) := by
  rintro _ ⟨⟩
  exact crWord_lt h (by decide) rd.code_lt ra.code_lt rb.code_lt (by have := bit_lt rev; omega)

theorem Laws.Encoded.sync (h : Hdr) (rd : SReg) (ra : SReg) : Laws.Encoded.Statement (.sync h rd ra) := by
  rintro _ ⟨⟩
  exact crWord_lt h (by decide) rd.code_lt ra.code_lt (by decide) (by decide)

theorem Laws.Encoded.breakFam (h : Hdr) (ra : SReg) : Laws.Encoded.Statement (.breakFam h ra) := by
  rintro _ ⟨⟩
  exact crWord_lt h (by decide) (by decide) ra.code_lt (by decide) (by decide)

theorem Laws.Encoded.endThread (h : Hdr) : Laws.Encoded.Statement (.endThread h) := by
  rintro _ ⟨⟩
  exact crWord_lt h (by decide) (by decide) (by decide) (by decide) (by decide)

theorem Laws.Encoded.kill (h : Hdr) (ra : SReg) : Laws.Encoded.Statement (.kill h ra) := by
  rintro _ ⟨⟩
  exact crWord_lt h (by decide) (by decide) ra.code_lt (by decide) (by decide)

theorem Laws.Encoded.fstatStatus (h : Hdr) (rd : SReg) (ra : SReg) : Laws.Encoded.Statement (.fstatStatus h rd ra) := by
  rintro _ ⟨⟩
  exact crWord_lt h (by decide) rd.code_lt ra.code_lt (by decide) (by decide)

theorem Laws.Encoded.fstatBval (h : Hdr) (rd : SReg) (ra : SReg) : Laws.Encoded.Statement (.fstatBval h rd ra) := by
  rintro _ ⟨⟩
  exact crWord_lt h (by decide) rd.code_lt ra.code_lt (by decide) (by decide)

theorem Laws.Encoded.fstatBidx (h : Hdr) (rd : SReg) (ra : SReg) : Laws.Encoded.Statement (.fstatBidx h rd ra) := by
  rintro _ ⟨⟩
  exact crWord_lt h (by decide) rd.code_lt ra.code_lt (by decide) (by decide)

theorem Laws.Encoded.fstatReplay (h : Hdr) (rd : SReg) (ra : SReg) : Laws.Encoded.Statement (.fstatReplay h rd ra) := by
  rintro _ ⟨⟩
  exact crWord_lt h (by decide) rd.code_lt ra.code_lt (by decide) (by decide)

theorem Laws.Encoded.yieldSlice (h : Hdr) (ra : SReg) : Laws.Encoded.Statement (.yieldSlice h ra) := by
  rintro _ ⟨⟩
  exact crWord_lt h (by decide) (by decide) ra.code_lt (by decide) (by decide)

theorem Laws.Encoded.travel (h : Hdr) (ra : SReg) : Laws.Encoded.Statement (.travel h ra) := by
  rintro _ ⟨⟩
  exact crWord_lt h (by decide) (by decide) ra.code_lt (by decide) (by decide)

theorem Laws.Encoded.bar (h : Hdr) (sc : Scope) (id : BitVec 3) : Laws.Encoded.Statement (.bar h sc id) := by
  rintro _ ⟨⟩
  exact crWord_lt h (by decide) (by decide) (by decide) (by decide) (by have := sc.code_lt; omega)

theorem Laws.Encoded.barcfg (h : Hdr) (ra : SReg) (sc : Scope) (id : BitVec 3) : Laws.Encoded.Statement (.barcfg h ra sc id) := by
  rintro _ ⟨⟩
  exact crWord_lt h (by decide) (by decide) ra.code_lt (by decide) (by have := sc.code_lt; omega)

theorem Laws.Encoded.ld (h : Hdr) (rd : SReg) (ra : SReg) (m : MemMod) : Laws.Encoded.Statement (.ld h rd ra m) := by
  rintro _ ⟨⟩
  exact cmWord_lt h (by decide) rd.code_lt ra.code_lt (by omega) (by omega) (by have := m.sc.code_lt; omega) (by omega)

theorem Laws.Encoded.lds (h : Hdr) (rd : SReg) (ra : SReg) (m : MemMod) : Laws.Encoded.Statement (.lds h rd ra m) := by
  rintro _ ⟨⟩
  exact cmWord_lt h (by decide) rd.code_lt ra.code_lt (by omega) (by omega) (by have := m.sc.code_lt; omega) (by omega)

theorem Laws.Encoded.st (h : Hdr) (rd : SReg) (ra : SReg) (m : MemMod) : Laws.Encoded.Statement (.st h rd ra m) := by
  rintro _ ⟨⟩
  exact cmWord_lt h (by decide) rd.code_lt ra.code_lt (by omega) (by omega) (by have := m.sc.code_lt; omega) (by omega)

theorem Laws.Encoded.ldf (h : Hdr) (rd : SReg) (ra : SReg) (m : FeMod) : Laws.Encoded.Statement (.ldf h rd ra m) := by
  rintro _ ⟨⟩
  exact cmWord_lt h (by decide) rd.code_lt ra.code_lt (by decide) (by omega) (by have := m.sc.code_lt; omega) (by omega)

theorem Laws.Encoded.ldfe (h : Hdr) (rd : SReg) (ra : SReg) (m : FeMod) : Laws.Encoded.Statement (.ldfe h rd ra m) := by
  rintro _ ⟨⟩
  exact cmWord_lt h (by decide) rd.code_lt ra.code_lt (by decide) (by omega) (by have := m.sc.code_lt; omega) (by omega)

theorem Laws.Encoded.stef (h : Hdr) (rd : SReg) (ra : SReg) (m : FeMod) : Laws.Encoded.Statement (.stef h rd ra m) := by
  rintro _ ⟨⟩
  exact cmWord_lt h (by decide) rd.code_lt ra.code_lt (by decide) (by omega) (by have := m.sc.code_lt; omega) (by omega)

theorem Laws.Encoded.stf (h : Hdr) (rd : SReg) (ra : SReg) (m : FeMod) : Laws.Encoded.Statement (.stf h rd ra m) := by
  rintro _ ⟨⟩
  exact cmWord_lt h (by decide) rd.code_lt ra.code_lt (by decide) (by omega) (by have := m.sc.code_lt; omega) (by omega)

theorem Laws.Encoded.feclr (h : Hdr) (ra : SReg) : Laws.Encoded.Statement (.feclr h ra) := by
  rintro _ ⟨⟩
  exact crWord_lt h (by decide) (by decide) ra.code_lt (by decide) (by decide)

theorem Laws.Encoded.feget (h : Hdr) (rd : SReg) (ra : SReg) : Laws.Encoded.Statement (.feget h rd ra) := by
  rintro _ ⟨⟩
  exact crWord_lt h (by decide) rd.code_lt ra.code_lt (by decide) (by decide)

theorem Laws.Encoded.feset (h : Hdr) (ra : SReg) : Laws.Encoded.Statement (.feset h ra) := by
  rintro _ ⟨⟩
  exact crWord_lt h (by decide) (by decide) ra.code_lt (by decide) (by decide)

theorem Laws.Encoded.amoAdd (h : Hdr) (rd : SReg) (ra : SReg) (rb : SReg) (w : Bool) (od : BitVec 2) : Laws.Encoded.Statement (.amoAdd h rd ra rb w od) := by
  rintro _ ⟨⟩
  exact crWord_lt h (by decide) rd.code_lt ra.code_lt rb.code_lt (by have := bit_lt w; omega)

theorem Laws.Encoded.amoAnd (h : Hdr) (rd : SReg) (ra : SReg) (rb : SReg) (w : Bool) (od : BitVec 2) : Laws.Encoded.Statement (.amoAnd h rd ra rb w od) := by
  rintro _ ⟨⟩
  exact crWord_lt h (by decide) rd.code_lt ra.code_lt rb.code_lt (by have := bit_lt w; omega)

theorem Laws.Encoded.amoOr (h : Hdr) (rd : SReg) (ra : SReg) (rb : SReg) (w : Bool) (od : BitVec 2) : Laws.Encoded.Statement (.amoOr h rd ra rb w od) := by
  rintro _ ⟨⟩
  exact crWord_lt h (by decide) rd.code_lt ra.code_lt rb.code_lt (by have := bit_lt w; omega)

theorem Laws.Encoded.amoXor (h : Hdr) (rd : SReg) (ra : SReg) (rb : SReg) (w : Bool) (od : BitVec 2) : Laws.Encoded.Statement (.amoXor h rd ra rb w od) := by
  rintro _ ⟨⟩
  exact crWord_lt h (by decide) rd.code_lt ra.code_lt rb.code_lt (by have := bit_lt w; omega)

theorem Laws.Encoded.amoSmin (h : Hdr) (rd : SReg) (ra : SReg) (rb : SReg) (w : Bool) (od : BitVec 2) : Laws.Encoded.Statement (.amoSmin h rd ra rb w od) := by
  rintro _ ⟨⟩
  exact crWord_lt h (by decide) rd.code_lt ra.code_lt rb.code_lt (by have := bit_lt w; omega)

theorem Laws.Encoded.amoSmax (h : Hdr) (rd : SReg) (ra : SReg) (rb : SReg) (w : Bool) (od : BitVec 2) : Laws.Encoded.Statement (.amoSmax h rd ra rb w od) := by
  rintro _ ⟨⟩
  exact crWord_lt h (by decide) rd.code_lt ra.code_lt rb.code_lt (by have := bit_lt w; omega)

theorem Laws.Encoded.amoNmin (h : Hdr) (rd : SReg) (ra : SReg) (rb : SReg) (w : Bool) (od : BitVec 2) : Laws.Encoded.Statement (.amoNmin h rd ra rb w od) := by
  rintro _ ⟨⟩
  exact crWord_lt h (by decide) rd.code_lt ra.code_lt rb.code_lt (by have := bit_lt w; omega)

theorem Laws.Encoded.amoNmax (h : Hdr) (rd : SReg) (ra : SReg) (rb : SReg) (w : Bool) (od : BitVec 2) : Laws.Encoded.Statement (.amoNmax h rd ra rb w od) := by
  rintro _ ⟨⟩
  exact crWord_lt h (by decide) rd.code_lt ra.code_lt rb.code_lt (by have := bit_lt w; omega)

theorem Laws.Encoded.amoSwap (h : Hdr) (rd : SReg) (ra : SReg) (rb : SReg) (w : Bool) (od : BitVec 2) : Laws.Encoded.Statement (.amoSwap h rd ra rb w od) := by
  rintro _ ⟨⟩
  exact crWord_lt h (by decide) rd.code_lt ra.code_lt rb.code_lt (by have := bit_lt w; omega)

theorem Laws.Encoded.amoFadd (h : Hdr) (rd : SReg) (ra : SReg) (rb : SReg) (w : Bool) (od : BitVec 2) : Laws.Encoded.Statement (.amoFadd h rd ra rb w od) := by
  rintro _ ⟨⟩
  exact crWord_lt h (by decide) rd.code_lt ra.code_lt rb.code_lt (by have := bit_lt w; omega)

theorem Laws.Encoded.cas (h : Hdr) (rd : SReg) (ra : SReg) (rb : SReg) (w : Bool) (od : BitVec 2) : Laws.Encoded.Statement (.cas h rd ra rb w od) := by
  rintro _ ⟨⟩
  exact crWord_lt h (by decide) rd.code_lt ra.code_lt rb.code_lt (by have := bit_lt w; omega)

theorem Laws.Encoded.fence (h : Hdr) (lb : Bool) (sc : Scope) (od : BitVec 2) : Laws.Encoded.Statement (.fence h lb sc od) := by
  rintro _ ⟨⟩
  exact crWord_lt h (by decide) (by decide) (by decide) (by decide) (by have := bit_lt lb; have := sc.code_lt; omega)

theorem Laws.Encoded.cmoClean (h : Hdr) (ra : SReg) (rb : SReg) (l2 : Bool) : Laws.Encoded.Statement (.cmoClean h ra rb l2) := by
  rintro _ ⟨⟩
  exact crWord_lt h (by decide) (by decide) ra.code_lt rb.code_lt (by have := bit_lt l2; omega)

theorem Laws.Encoded.cmoInval (h : Hdr) (ra : SReg) (rb : SReg) (l2 : Bool) : Laws.Encoded.Statement (.cmoInval h ra rb l2) := by
  rintro _ ⟨⟩
  exact crWord_lt h (by decide) (by decide) ra.code_lt rb.code_lt (by have := bit_lt l2; omega)

theorem Laws.Encoded.cmoFlush (h : Hdr) (ra : SReg) (rb : SReg) (l2 : Bool) : Laws.Encoded.Statement (.cmoFlush h ra rb l2) := by
  rintro _ ⟨⟩
  exact crWord_lt h (by decide) (by decide) ra.code_lt rb.code_lt (by have := bit_lt l2; omega)

theorem Laws.Encoded.movb (h : Hdr) (rd : SReg) (ra : SReg) (rb : SReg) : Laws.Encoded.Statement (.movb h rd ra rb) := by
  rintro _ ⟨⟩
  exact crWord_lt h (by decide) rd.code_lt ra.code_lt rb.code_lt (by decide)

theorem Laws.Encoded.setb (h : Hdr) (rd : SReg) (ra : SReg) (rb : SReg) : Laws.Encoded.Statement (.setb h rd ra rb) := by
  rintro _ ⟨⟩
  exact crWord_lt h (by decide) rd.code_lt ra.code_lt rb.code_lt (by decide)

theorem Laws.Encoded.bcfg (h : Hdr) (ra : SReg) (rb : SReg) : Laws.Encoded.Statement (.bcfg h ra rb) := by
  rintro _ ⟨⟩
  exact crWord_lt h (by decide) (by decide) ra.code_lt rb.code_lt (by decide)

theorem Laws.Encoded.trap (h : Hdr) (imm : BitVec 5) : Laws.Encoded.Statement (.trap h imm) := by
  rintro _ ⟨⟩
  exact crWord_lt h (by decide) (by decide) (by decide) (by decide) (by omega)

theorem Laws.Encoded.vld (h : Hdr) (vd : VReg) (ra : SReg) (msk : MReg) : Laws.Encoded.Statement (.vld h vd ra msk) := by
  rintro _ ⟨⟩
  exact cvWord_lt h (by decide) (by omega) ra.code_lt (by decide) (by omega) (by decide)

theorem Laws.Encoded.vldStr (h : Hdr) (vd : VReg) (ra : SReg) (rb : SReg) (msk : MReg) : Laws.Encoded.Statement (.vldStr h vd ra rb msk) := by
  rintro _ ⟨⟩
  exact cvWord_lt h (by decide) (by omega) ra.code_lt rb.code_lt (by omega) (by decide)

theorem Laws.Encoded.vldt (h : Hdr) (vd : VReg) (ra : SReg) (msk : MReg) : Laws.Encoded.Statement (.vldt h vd ra msk) := by
  rintro _ ⟨⟩
  exact cvWord_lt h (by decide) (by omega) ra.code_lt (by decide) (by omega) (by decide)

theorem Laws.Encoded.vst (h : Hdr) (vd : VReg) (ra : SReg) (msk : MReg) : Laws.Encoded.Statement (.vst h vd ra msk) := by
  rintro _ ⟨⟩
  exact cvWord_lt h (by decide) (by omega) ra.code_lt (by decide) (by omega) (by decide)

theorem Laws.Encoded.vstStr (h : Hdr) (vd : VReg) (ra : SReg) (rb : SReg) (msk : MReg) : Laws.Encoded.Statement (.vstStr h vd ra rb msk) := by
  rintro _ ⟨⟩
  exact cvWord_lt h (by decide) (by omega) ra.code_lt rb.code_lt (by omega) (by decide)

theorem Laws.Encoded.vstt (h : Hdr) (vd : VReg) (ra : SReg) (msk : MReg) : Laws.Encoded.Statement (.vstt h vd ra msk) := by
  rintro _ ⟨⟩
  exact cvWord_lt h (by decide) (by omega) ra.code_lt (by decide) (by omega) (by decide)

theorem Laws.Encoded.vgth (h : Hdr) (vd : VReg) (ra : SReg) (vi : VReg) (msk : MReg) (sz : GSize) : Laws.Encoded.Statement (.vgth h vd ra vi msk sz) := by
  rintro _ ⟨⟩
  exact cvWord_lt h (by decide) (by omega) ra.code_lt (by omega) (by omega) (by have := sz.code_lt; omega)

theorem Laws.Encoded.vsct (h : Hdr) (vd : VReg) (ra : SReg) (vi : VReg) (msk : MReg) (sz : GSize) : Laws.Encoded.Statement (.vsct h vd ra vi msk sz) := by
  rintro _ ⟨⟩
  exact cvWord_lt h (by decide) (by omega) ra.code_lt (by omega) (by omega) (by have := sz.code_lt; omega)

theorem Laws.Encoded.vldx (h : Hdr) (vd : VReg) (ra : SReg) (rb : SReg) (msk : MReg) (ty : VTy) : Laws.Encoded.Statement (.vldx h vd ra rb msk ty) := by
  rintro _ ⟨⟩
  exact cvWord_lt h (by decide) (by omega) ra.code_lt rb.code_lt (by omega) (by have := ty.code_lt; omega)

theorem Laws.Encoded.vldm (h : Hdr) (vd : VReg) (ra : SReg) (rb : SReg) (msk : MReg) (dest : MxDest) (el : MxElem) : Laws.Encoded.Statement (.vldm h vd ra rb msk dest el) := by
  rintro _ ⟨⟩
  exact cvWord_lt h (by decide) (by omega) ra.code_lt rb.code_lt (by omega) (by have := dest.code_lt; have := el.code_lt; omega)

theorem Laws.Encoded.tdef (h : Hdr) (t : TileNo) (ra : SReg) (rb : SReg) : Laws.Encoded.Statement (.tdef h t ra rb) := by
  rintro _ ⟨⟩
  exact cxWord_lt h (by decide) (by omega) ra.code_lt rb.code_lt (by decide)

theorem Laws.Encoded.tarm (h : Hdr) (t : TileNo) (ra : SReg) : Laws.Encoded.Statement (.tarm h t ra) := by
  rintro _ ⟨⟩
  exact cxWord_lt h (by decide) (by omega) ra.code_lt (by decide) (by decide)

theorem Laws.Encoded.trel (h : Hdr) (t : TileNo) : Laws.Encoded.Statement (.trel h t) := by
  rintro _ ⟨⟩
  exact cxWord_lt h (by decide) (by omega) (by decide) (by decide) (by decide)

theorem Laws.Encoded.twait (h : Hdr) (t : TileNo) : Laws.Encoded.Statement (.twait h t) := by
  rintro _ ⟨⟩
  exact cxWord_lt h (by decide) (by omega) (by decide) (by decide) (by decide)

theorem Laws.Encoded.tstat (h : Hdr) (t : TileNo) (rb : SReg) : Laws.Encoded.Statement (.tstat h t rb) := by
  rintro _ ⟨⟩
  exact cxWord_lt h (by decide) (by omega) (by decide) rb.code_lt (by decide)

theorem Laws.Encoded.cpyG2t (h : Hdr) (t : TileNo) (ra : SReg) (rb : SReg) : Laws.Encoded.Statement (.cpyG2t h t ra rb) := by
  rintro _ ⟨⟩
  exact cxWord_lt h (by decide) (by omega) ra.code_lt rb.code_lt (by decide)

theorem Laws.Encoded.cpyT2g (h : Hdr) (t : TileNo) (ra : SReg) (rb : SReg) (sc : Scope) : Laws.Encoded.Statement (.cpyT2g h t ra rb sc) := by
  rintro _ ⟨⟩
  exact cxWord_lt h (by decide) (by omega) ra.code_lt rb.code_lt (by have := sc.code_lt; omega)

theorem Laws.Encoded.cpyMc (h : Hdr) (t : TileNo) (ra : SReg) (rb : SReg) : Laws.Encoded.Statement (.cpyMc h t ra rb) := by
  rintro _ ⟨⟩
  exact cxWord_lt h (by decide) (by omega) ra.code_lt rb.code_lt (by decide)

theorem Laws.Encoded.cpyGx (h : Hdr) (t : TileNo) (ra : SReg) (rb : SReg) : Laws.Encoded.Statement (.cpyGx h t ra rb) := by
  rintro _ ⟨⟩
  exact cxWord_lt h (by decide) (by omega) ra.code_lt rb.code_lt (by decide)

theorem Laws.Encoded.cpyX (h : Hdr) (t : TileNo) (ra : SReg) (rb : SReg) : Laws.Encoded.Statement (.cpyX h t ra rb) := by
  rintro _ ⟨⟩
  exact cxWord_lt h (by decide) (by omega) ra.code_lt rb.code_lt (by decide)

theorem Laws.Encoded.cpyc (h : Hdr) (t : TileNo) (ra : SReg) : Laws.Encoded.Statement (.cpyc h t ra) := by
  rintro _ ⟨⟩
  exact cxWord_lt h (by decide) (by omega) ra.code_lt (by decide) (by decide)

theorem Laws.Encoded.mls (h : Hdr) (t : TileNo) : Laws.Encoded.Statement (.mls h t) := by
  rintro _ ⟨⟩
  exact cxWord_lt h (by decide) (by omega) (by decide) (by decide) (by decide)

theorem Laws.Encoded.mswp (h : Hdr) : Laws.Encoded.Statement (.mswp h) := by
  rintro _ ⟨⟩
  exact cxWord_lt h (by decide) (by decide) (by decide) (by decide) (by decide)

theorem Laws.Encoded.mma (h : Hdr) (t : TileNo) (sw : Bool) (c : AccNo) : Laws.Encoded.Statement (.mma h t sw c) := by
  rintro _ ⟨⟩
  exact cxWord_lt h (by decide) (by omega) (by decide) (by decide) (by have := bit_lt sw; omega)

theorem Laws.Encoded.mmasp (h : Hdr) (t : TileNo) (sw : Bool) (c : AccNo) : Laws.Encoded.Statement (.mmasp h t sw c) := by
  rintro _ ⟨⟩
  exact cxWord_lt h (by decide) (by omega) (by decide) (by decide) (by have := bit_lt sw; omega)

theorem Laws.Encoded.mmag (h : Hdr) (t : TileNo) (ra : SReg) (sw : Bool) (c : AccNo) : Laws.Encoded.Statement (.mmag h t ra sw c) := by
  rintro _ ⟨⟩
  exact cxWord_lt h (by decide) (by omega) ra.code_lt (by decide) (by have := bit_lt sw; omega)

theorem Laws.Encoded.mdrn (h : Hdr) (t : TileNo) (ra : SReg) (sat : Bool) (code : BitVec 3) (c : AccNo) : Laws.Encoded.Statement (.mdrn h t ra sat code c) := by
  rintro _ ⟨⟩
  exact cxWord_lt h (by decide) (by omega) ra.code_lt (by have := bit_lt sat; omega) (by omega)

theorem Laws.Encoded.mzeroInt (h : Hdr) (c : AccNo) : Laws.Encoded.Statement (.mzeroInt h c) := by
  rintro _ ⟨⟩
  exact cxWord_lt h (by decide) (by decide) (by decide) (by decide) (by omega)

theorem Laws.Encoded.mzeroFp (h : Hdr) (c : AccNo) : Laws.Encoded.Statement (.mzeroFp h c) := by
  rintro _ ⟨⟩
  exact cxWord_lt h (by decide) (by decide) (by decide) (by decide) (by omega)

theorem Laws.Encoded.mstat (h : Hdr) (rb : SReg) (c : AccNo) : Laws.Encoded.Statement (.mstat h rb c) := by
  rintro _ ⟨⟩
  exact cxWord_lt h (by decide) (by decide) (by decide) rb.code_lt (by omega)

theorem Laws.Encoded.mxsw (h : Hdr) (t : TileNo) : Laws.Encoded.Statement (.mxsw h t) := by
  rintro _ ⟨⟩
  exact cxWord_lt h (by decide) (by omega) (by decide) (by decide) (by decide)

theorem Laws.Encoded.rgnDef (h : Hdr) (rd : SReg) (ra : SReg) : Laws.Encoded.Statement (.rgnDef h rd ra) := by
  rintro _ ⟨⟩
  exact crWord_lt h (by decide) rd.code_lt ra.code_lt (by decide) (by decide)

theorem Laws.Encoded.rgnRel (h : Hdr) (ra : SReg) : Laws.Encoded.Statement (.rgnRel h ra) := by
  rintro _ ⟨⟩
  exact crWord_lt h (by decide) (by decide) ra.code_lt (by decide) (by decide)

theorem Laws.Encoded.csrr (h : Hdr) (rd : SReg) (csr : BitVec 12) : Laws.Encoded.Statement (.csrr h rd csr) := by
  rintro _ ⟨⟩
  exact ciWord_lt h (by decide) rd.code_lt (by decide) (by omega)

theorem Laws.Encoded.csrw (h : Hdr) (rd : SReg) (ra : SReg) (csr : BitVec 12) : Laws.Encoded.Statement (.csrw h rd ra csr) := by
  rintro _ ⟨⟩
  exact ciWord_lt h (by decide) rd.code_lt ra.code_lt (by omega)

theorem Laws.Encoded.csrs (h : Hdr) (rd : SReg) (ra : SReg) (csr : BitVec 12) : Laws.Encoded.Statement (.csrs h rd ra csr) := by
  rintro _ ⟨⟩
  exact ciWord_lt h (by decide) rd.code_lt ra.code_lt (by omega)

theorem Laws.Encoded.eret (h : Hdr) : Laws.Encoded.Statement (.eret h) := by
  rintro _ ⟨⟩
  exact crWord_lt h (by decide) (by decide) (by decide) (by decide) (by decide)

theorem Laws.Encoded.halt (h : Hdr) : Laws.Encoded.Statement (.halt h) := by
  rintro _ ⟨⟩
  exact crWord_lt h (by decide) (by decide) (by decide) (by decide) (by decide)

theorem Laws.Encoded.ici (h : Hdr) (ra : SReg) (rb : SReg) : Laws.Encoded.Statement (.ici h ra rb) := by
  rintro _ ⟨⟩
  exact crWord_lt h (by decide) (by decide) ra.code_lt rb.code_lt (by decide)

theorem Laws.Encoded.tlbw (h : Hdr) (ra : SReg) (rb : SReg) : Laws.Encoded.Statement (.tlbw h ra rb) := by
  rintro _ ⟨⟩
  exact crWord_lt h (by decide) (by decide) ra.code_lt rb.code_lt (by decide)

theorem Laws.Encoded.tlbi (h : Hdr) (ra : SReg) (rb : SReg) : Laws.Encoded.Statement (.tlbi h ra rb) := by
  rintro _ ⟨⟩
  exact crWord_lt h (by decide) (by decide) ra.code_lt rb.code_lt (by decide)

theorem Laws.Encoded.mbox (h : Hdr) (rd : SReg) (ra : SReg) : Laws.Encoded.Statement (.mbox h rd ra) := by
  rintro _ ⟨⟩
  exact crWord_lt h (by decide) rd.code_lt ra.code_lt (by decide) (by decide)

theorem Laws.Encoded.mresResume (h : Hdr) (ra : SReg) : Laws.Encoded.Statement (.mresResume h ra) := by
  rintro _ ⟨⟩
  exact crWord_lt h (by decide) (by decide) ra.code_lt (by decide) (by decide)

theorem Laws.Encoded.mresDiscard (h : Hdr) (ra : SReg) : Laws.Encoded.Statement (.mresDiscard h ra) := by
  rintro _ ⟨⟩
  exact crWord_lt h (by decide) (by decide) ra.code_lt (by decide) (by decide)

theorem Laws.Encoded.mresMatrixReset (h : Hdr) (ra : SReg) : Laws.Encoded.Statement (.mresMatrixReset h ra) := by
  rintro _ ⟨⟩
  exact crWord_lt h (by decide) (by decide) ra.code_lt (by decide) (by decide)

theorem Laws.Encoded.ext (h : Hdr) : Laws.Encoded.Statement (.ext h) := by
  rintro _ ⟨⟩
  exact cWord_lt h (by decide) (by decide)

theorem Laws.Encoded.nop : Laws.Encoded.Statement (.nop) := by
  rintro _ ⟨⟩
  decide

theorem Laws.Encoded.add (rd : SReg) (ra : SReg) (o : Opnd2) : Laws.Encoded.Statement (.add rd ra o) := by
  rintro _ ⟨⟩
  exact aWord_lt (by decide) rd.code_lt ra.code_lt o.rb_lt (by decide) (by have := o.md_lt; omega)

theorem Laws.Encoded.sub (rd : SReg) (ra : SReg) (o : Opnd2) : Laws.Encoded.Statement (.sub rd ra o) := by
  rintro _ ⟨⟩
  exact aWord_lt (by decide) rd.code_lt ra.code_lt o.rb_lt (by decide) (by have := o.md_lt; omega)

theorem Laws.Encoded.and (rd : SReg) (ra : SReg) (o : Opnd2) : Laws.Encoded.Statement (.and rd ra o) := by
  rintro _ ⟨⟩
  exact aWord_lt (by decide) rd.code_lt ra.code_lt o.rb_lt (by decide) (by have := o.md_lt; omega)

theorem Laws.Encoded.or (rd : SReg) (ra : SReg) (o : Opnd2) : Laws.Encoded.Statement (.or rd ra o) := by
  rintro _ ⟨⟩
  exact aWord_lt (by decide) rd.code_lt ra.code_lt o.rb_lt (by decide) (by have := o.md_lt; omega)

theorem Laws.Encoded.xor (rd : SReg) (ra : SReg) (o : Opnd2) : Laws.Encoded.Statement (.xor rd ra o) := by
  rintro _ ⟨⟩
  exact aWord_lt (by decide) rd.code_lt ra.code_lt o.rb_lt (by decide) (by have := o.md_lt; omega)

theorem Laws.Encoded.andn (rd : SReg) (ra : SReg) (o : Opnd2) : Laws.Encoded.Statement (.andn rd ra o) := by
  rintro _ ⟨⟩
  exact aWord_lt (by decide) rd.code_lt ra.code_lt o.rb_lt (by decide) (by have := o.md_lt; omega)

theorem Laws.Encoded.shl (rd : SReg) (ra : SReg) (o : Opnd2) : Laws.Encoded.Statement (.shl rd ra o) := by
  rintro _ ⟨⟩
  exact aWord_lt (by decide) rd.code_lt ra.code_lt o.rb_lt (by decide) (by have := o.md_lt; omega)

theorem Laws.Encoded.shr (rd : SReg) (ra : SReg) (o : Opnd2) : Laws.Encoded.Statement (.shr rd ra o) := by
  rintro _ ⟨⟩
  exact aWord_lt (by decide) rd.code_lt ra.code_lt o.rb_lt (by decide) (by have := o.md_lt; omega)

theorem Laws.Encoded.sar (rd : SReg) (ra : SReg) (o : Opnd2) : Laws.Encoded.Statement (.sar rd ra o) := by
  rintro _ ⟨⟩
  exact aWord_lt (by decide) rd.code_lt ra.code_lt o.rb_lt (by decide) (by have := o.md_lt; omega)

theorem Laws.Encoded.rol (rd : SReg) (ra : SReg) (o : Opnd2) : Laws.Encoded.Statement (.rol rd ra o) := by
  rintro _ ⟨⟩
  exact aWord_lt (by decide) rd.code_lt ra.code_lt o.rb_lt (by decide) (by have := o.md_lt; omega)

theorem Laws.Encoded.min (rd : SReg) (ra : SReg) (o : Opnd2) : Laws.Encoded.Statement (.min rd ra o) := by
  rintro _ ⟨⟩
  exact aWord_lt (by decide) rd.code_lt ra.code_lt o.rb_lt (by decide) (by have := o.md_lt; omega)

theorem Laws.Encoded.max (rd : SReg) (ra : SReg) (o : Opnd2) : Laws.Encoded.Statement (.max rd ra o) := by
  rintro _ ⟨⟩
  exact aWord_lt (by decide) rd.code_lt ra.code_lt o.rb_lt (by decide) (by have := o.md_lt; omega)

theorem Laws.Encoded.minn (rd : SReg) (ra : SReg) (o : Opnd2) : Laws.Encoded.Statement (.minn rd ra o) := by
  rintro _ ⟨⟩
  exact aWord_lt (by decide) rd.code_lt ra.code_lt o.rb_lt (by decide) (by have := o.md_lt; omega)

theorem Laws.Encoded.maxn (rd : SReg) (ra : SReg) (o : Opnd2) : Laws.Encoded.Statement (.maxn rd ra o) := by
  rintro _ ⟨⟩
  exact aWord_lt (by decide) rd.code_lt ra.code_lt o.rb_lt (by decide) (by have := o.md_lt; omega)

theorem Laws.Encoded.shadd1 (rd : SReg) (ra : SReg) (o : Opnd2) : Laws.Encoded.Statement (.shadd1 rd ra o) := by
  rintro _ ⟨⟩
  exact aWord_lt (by decide) rd.code_lt ra.code_lt o.rb_lt (by decide) (by have := o.md_lt; omega)

theorem Laws.Encoded.shadd2 (rd : SReg) (ra : SReg) (o : Opnd2) : Laws.Encoded.Statement (.shadd2 rd ra o) := by
  rintro _ ⟨⟩
  exact aWord_lt (by decide) rd.code_lt ra.code_lt o.rb_lt (by decide) (by have := o.md_lt; omega)

theorem Laws.Encoded.shadd3 (rd : SReg) (ra : SReg) (o : Opnd2) : Laws.Encoded.Statement (.shadd3 rd ra o) := by
  rintro _ ⟨⟩
  exact aWord_lt (by decide) rd.code_lt ra.code_lt o.rb_lt (by decide) (by have := o.md_lt; omega)

theorem Laws.Encoded.mov (rd : SReg) (o : Opnd2) : Laws.Encoded.Statement (.mov rd o) := by
  rintro _ ⟨⟩
  exact aWord_lt (by decide) rd.code_lt (by decide) o.rb_lt (by decide) (by have := o.md_lt; omega)

theorem Laws.Encoded.cmpEq (rd : SReg) (ra : SReg) (o : Opnd2) : Laws.Encoded.Statement (.cmpEq rd ra o) := by
  rintro _ ⟨⟩
  exact aWord_lt (by decide) rd.code_lt ra.code_lt o.rb_lt (by decide) (by have := o.md_lt; omega)

theorem Laws.Encoded.cmpNe (rd : SReg) (ra : SReg) (o : Opnd2) : Laws.Encoded.Statement (.cmpNe rd ra o) := by
  rintro _ ⟨⟩
  exact aWord_lt (by decide) rd.code_lt ra.code_lt o.rb_lt (by decide) (by have := o.md_lt; omega)

theorem Laws.Encoded.cmpLt (rd : SReg) (ra : SReg) (o : Opnd2) : Laws.Encoded.Statement (.cmpLt rd ra o) := by
  rintro _ ⟨⟩
  exact aWord_lt (by decide) rd.code_lt ra.code_lt o.rb_lt (by decide) (by have := o.md_lt; omega)

theorem Laws.Encoded.cmpLtn (rd : SReg) (ra : SReg) (o : Opnd2) : Laws.Encoded.Statement (.cmpLtn rd ra o) := by
  rintro _ ⟨⟩
  exact aWord_lt (by decide) rd.code_lt ra.code_lt o.rb_lt (by decide) (by have := o.md_lt; omega)

theorem Laws.Encoded.cmpLe (rd : SReg) (ra : SReg) (o : Opnd2) : Laws.Encoded.Statement (.cmpLe rd ra o) := by
  rintro _ ⟨⟩
  exact aWord_lt (by decide) rd.code_lt ra.code_lt o.rb_lt (by decide) (by have := o.md_lt; omega)

theorem Laws.Encoded.cmpLen (rd : SReg) (ra : SReg) (o : Opnd2) : Laws.Encoded.Statement (.cmpLen rd ra o) := by
  rintro _ ⟨⟩
  exact aWord_lt (by decide) rd.code_lt ra.code_lt o.rb_lt (by decide) (by have := o.md_lt; omega)

theorem Laws.Encoded.cmpGt (rd : SReg) (ra : SReg) (o : Opnd2) : Laws.Encoded.Statement (.cmpGt rd ra o) := by
  rintro _ ⟨⟩
  exact aWord_lt (by decide) rd.code_lt ra.code_lt o.rb_lt (by decide) (by have := o.md_lt; omega)

theorem Laws.Encoded.cmpGtn (rd : SReg) (ra : SReg) (o : Opnd2) : Laws.Encoded.Statement (.cmpGtn rd ra o) := by
  rintro _ ⟨⟩
  exact aWord_lt (by decide) rd.code_lt ra.code_lt o.rb_lt (by decide) (by have := o.md_lt; omega)

theorem Laws.Encoded.mul (rd : SReg) (ra : SReg) (o : Opnd2) : Laws.Encoded.Statement (.mul rd ra o) := by
  rintro _ ⟨⟩
  exact aWord_lt (by decide) rd.code_lt ra.code_lt o.rb_lt (by decide) (by have := o.md_lt; omega)

theorem Laws.Encoded.mulhs (rd : SReg) (ra : SReg) (o : Opnd2) : Laws.Encoded.Statement (.mulhs rd ra o) := by
  rintro _ ⟨⟩
  exact aWord_lt (by decide) rd.code_lt ra.code_lt o.rb_lt (by decide) (by have := o.md_lt; omega)

theorem Laws.Encoded.mulhn (rd : SReg) (ra : SReg) (o : Opnd2) : Laws.Encoded.Statement (.mulhn rd ra o) := by
  rintro _ ⟨⟩
  exact aWord_lt (by decide) rd.code_lt ra.code_lt o.rb_lt (by decide) (by have := o.md_lt; omega)

theorem Laws.Encoded.mulhsn (rd : SReg) (ra : SReg) (o : Opnd2) : Laws.Encoded.Statement (.mulhsn rd ra o) := by
  rintro _ ⟨⟩
  exact aWord_lt (by decide) rd.code_lt ra.code_lt o.rb_lt (by decide) (by have := o.md_lt; omega)

theorem Laws.Encoded.divs (rd : SReg) (ra : SReg) (o : Opnd2) : Laws.Encoded.Statement (.divs rd ra o) := by
  rintro _ ⟨⟩
  exact aWord_lt (by decide) rd.code_lt ra.code_lt o.rb_lt (by decide) (by have := o.md_lt; omega)

theorem Laws.Encoded.divn (rd : SReg) (ra : SReg) (o : Opnd2) : Laws.Encoded.Statement (.divn rd ra o) := by
  rintro _ ⟨⟩
  exact aWord_lt (by decide) rd.code_lt ra.code_lt o.rb_lt (by decide) (by have := o.md_lt; omega)

theorem Laws.Encoded.rems (rd : SReg) (ra : SReg) (o : Opnd2) : Laws.Encoded.Statement (.rems rd ra o) := by
  rintro _ ⟨⟩
  exact aWord_lt (by decide) rd.code_lt ra.code_lt o.rb_lt (by decide) (by have := o.md_lt; omega)

theorem Laws.Encoded.remn (rd : SReg) (ra : SReg) (o : Opnd2) : Laws.Encoded.Statement (.remn rd ra o) := by
  rintro _ ⟨⟩
  exact aWord_lt (by decide) rd.code_lt ra.code_lt o.rb_lt (by decide) (by have := o.md_lt; omega)

theorem Laws.Encoded.clz (rd : SReg) (ra : SReg) (u : UOpnd) : Laws.Encoded.Statement (.clz rd ra u) := by
  rintro _ ⟨⟩
  exact aWord_lt (by decide) rd.code_lt ra.code_lt u.rb_lt (by decide) (by have := u.md_lt; omega)

theorem Laws.Encoded.ctz (rd : SReg) (ra : SReg) (u : UOpnd) : Laws.Encoded.Statement (.ctz rd ra u) := by
  rintro _ ⟨⟩
  exact aWord_lt (by decide) rd.code_lt ra.code_lt u.rb_lt (by decide) (by have := u.md_lt; omega)

theorem Laws.Encoded.popc (rd : SReg) (ra : SReg) (u : UOpnd) : Laws.Encoded.Statement (.popc rd ra u) := by
  rintro _ ⟨⟩
  exact aWord_lt (by decide) rd.code_lt ra.code_lt u.rb_lt (by decide) (by have := u.md_lt; omega)

theorem Laws.Encoded.not (rd : SReg) (ra : SReg) (u : UOpnd) : Laws.Encoded.Statement (.not rd ra u) := by
  rintro _ ⟨⟩
  exact aWord_lt (by decide) rd.code_lt ra.code_lt u.rb_lt (by decide) (by have := u.md_lt; omega)

theorem Laws.Encoded.neg (rd : SReg) (ra : SReg) (u : UOpnd) : Laws.Encoded.Statement (.neg rd ra u) := by
  rintro _ ⟨⟩
  exact aWord_lt (by decide) rd.code_lt ra.code_lt u.rb_lt (by decide) (by have := u.md_lt; omega)

theorem Laws.Encoded.bswap (rd : SReg) (ra : SReg) (u : UOpnd) : Laws.Encoded.Statement (.bswap rd ra u) := by
  rintro _ ⟨⟩
  exact aWord_lt (by decide) rd.code_lt ra.code_lt u.rb_lt (by decide) (by have := u.md_lt; omega)

theorem Laws.Encoded.sexb (rd : SReg) (ra : SReg) (u : UOpnd) : Laws.Encoded.Statement (.sexb rd ra u) := by
  rintro _ ⟨⟩
  exact aWord_lt (by decide) rd.code_lt ra.code_lt u.rb_lt (by decide) (by have := u.md_lt; omega)

theorem Laws.Encoded.sexh (rd : SReg) (ra : SReg) (u : UOpnd) : Laws.Encoded.Statement (.sexh rd ra u) := by
  rintro _ ⟨⟩
  exact aWord_lt (by decide) rd.code_lt ra.code_lt u.rb_lt (by decide) (by have := u.md_lt; omega)

theorem Laws.Encoded.sexw (rd : SReg) (ra : SReg) (u : UOpnd) : Laws.Encoded.Statement (.sexw rd ra u) := by
  rintro _ ⟨⟩
  exact aWord_lt (by decide) rd.code_lt ra.code_lt u.rb_lt (by decide) (by have := u.md_lt; omega)

theorem Laws.Encoded.zexb (rd : SReg) (ra : SReg) (u : UOpnd) : Laws.Encoded.Statement (.zexb rd ra u) := by
  rintro _ ⟨⟩
  exact aWord_lt (by decide) rd.code_lt ra.code_lt u.rb_lt (by decide) (by have := u.md_lt; omega)

theorem Laws.Encoded.zexh (rd : SReg) (ra : SReg) (u : UOpnd) : Laws.Encoded.Statement (.zexh rd ra u) := by
  rintro _ ⟨⟩
  exact aWord_lt (by decide) rd.code_lt ra.code_lt u.rb_lt (by decide) (by have := u.md_lt; omega)

theorem Laws.Encoded.zexw (rd : SReg) (ra : SReg) (u : UOpnd) : Laws.Encoded.Statement (.zexw rd ra u) := by
  rintro _ ⟨⟩
  exact aWord_lt (by decide) rd.code_lt ra.code_lt u.rb_lt (by decide) (by have := u.md_lt; omega)

theorem Laws.Encoded.bfx (rd : SReg) (ra : SReg) (sgn : Bool) (len1 : BitVec 6) (pos : BitVec 6) : Laws.Encoded.Statement (.bfx rd ra sgn len1 pos) := by
  rintro _ ⟨⟩
  exact aWord_lt (by decide) rd.code_lt ra.code_lt (by omega) (by have := bit_lt sgn; omega) (by omega)

theorem Laws.Encoded.bfi (rd : SReg) (ra : SReg) (len1 : BitVec 6) (pos : BitVec 6) : Laws.Encoded.Statement (.bfi rd ra len1 pos) := by
  rintro _ ⟨⟩
  exact aWord_lt (by decide) rd.code_lt ra.code_lt (by omega) (by omega) (by omega)

theorem Laws.Encoded.sel (rd : SReg) (ra : SReg) (rb : SReg) (rc : SReg) : Laws.Encoded.Statement (.sel rd ra rb rc) := by
  rintro _ ⟨⟩
  exact aWord_lt (by decide) rd.code_lt ra.code_lt rb.code_lt rc.code_lt (by decide)

theorem Laws.Encoded.fadd (rd : SReg) (ra : SReg) (rb : SReg) (rm : FRnd) : Laws.Encoded.Statement (.fadd rd ra rb rm) := by
  rintro _ ⟨⟩
  exact aWord_lt (by decide) rd.code_lt ra.code_lt rb.code_lt (by decide) (by have := rm.md_lt; omega)

theorem Laws.Encoded.fsub (rd : SReg) (ra : SReg) (rb : SReg) (rm : FRnd) : Laws.Encoded.Statement (.fsub rd ra rb rm) := by
  rintro _ ⟨⟩
  exact aWord_lt (by decide) rd.code_lt ra.code_lt rb.code_lt (by decide) (by have := rm.md_lt; omega)

theorem Laws.Encoded.fmul (rd : SReg) (ra : SReg) (rb : SReg) (rm : FRnd) : Laws.Encoded.Statement (.fmul rd ra rb rm) := by
  rintro _ ⟨⟩
  exact aWord_lt (by decide) rd.code_lt ra.code_lt rb.code_lt (by decide) (by have := rm.md_lt; omega)

theorem Laws.Encoded.fdiv (rd : SReg) (ra : SReg) (rb : SReg) (rm : FRnd) : Laws.Encoded.Statement (.fdiv rd ra rb rm) := by
  rintro _ ⟨⟩
  exact aWord_lt (by decide) rd.code_lt ra.code_lt rb.code_lt (by decide) (by have := rm.md_lt; omega)

theorem Laws.Encoded.fmin (rd : SReg) (ra : SReg) (rb : SReg) (rm : FRnd) : Laws.Encoded.Statement (.fmin rd ra rb rm) := by
  rintro _ ⟨⟩
  exact aWord_lt (by decide) rd.code_lt ra.code_lt rb.code_lt (by decide) (by have := rm.md_lt; omega)

theorem Laws.Encoded.fmax (rd : SReg) (ra : SReg) (rb : SReg) (rm : FRnd) : Laws.Encoded.Statement (.fmax rd ra rb rm) := by
  rintro _ ⟨⟩
  exact aWord_lt (by decide) rd.code_lt ra.code_lt rb.code_lt (by decide) (by have := rm.md_lt; omega)

theorem Laws.Encoded.fsqrt (rd : SReg) (ra : SReg) (rm : FRnd) : Laws.Encoded.Statement (.fsqrt rd ra rm) := by
  rintro _ ⟨⟩
  exact aWord_lt (by decide) rd.code_lt ra.code_lt (by decide) (by decide) (by have := rm.md_lt; omega)

theorem Laws.Encoded.fabs (rd : SReg) (ra : SReg) (rm : FRnd) : Laws.Encoded.Statement (.fabs rd ra rm) := by
  rintro _ ⟨⟩
  exact aWord_lt (by decide) rd.code_lt ra.code_lt (by decide) (by decide) (by have := rm.md_lt; omega)

theorem Laws.Encoded.fneg (rd : SReg) (ra : SReg) (rm : FRnd) : Laws.Encoded.Statement (.fneg rd ra rm) := by
  rintro _ ⟨⟩
  exact aWord_lt (by decide) rd.code_lt ra.code_lt (by decide) (by decide) (by have := rm.md_lt; omega)

theorem Laws.Encoded.fcpsgn (rd : SReg) (ra : SReg) (rb : SReg) (rm : FRnd) : Laws.Encoded.Statement (.fcpsgn rd ra rb rm) := by
  rintro _ ⟨⟩
  exact aWord_lt (by decide) rd.code_lt ra.code_lt rb.code_lt (by decide) (by have := rm.md_lt; omega)

theorem Laws.Encoded.ffma (rd : SReg) (ra : SReg) (rb : SReg) (rc : SReg) (rm : FRnd) : Laws.Encoded.Statement (.ffma rd ra rb rc rm) := by
  rintro _ ⟨⟩
  exact aWord_lt (by decide) rd.code_lt ra.code_lt rb.code_lt rc.code_lt (by have := rm.md_lt; omega)

theorem Laws.Encoded.fnma (rd : SReg) (ra : SReg) (rb : SReg) (rc : SReg) (rm : FRnd) : Laws.Encoded.Statement (.fnma rd ra rb rc rm) := by
  rintro _ ⟨⟩
  exact aWord_lt (by decide) rd.code_lt ra.code_lt rb.code_lt rc.code_lt (by have := rm.md_lt; omega)

theorem Laws.Encoded.fcmpEq (rd : SReg) (ra : SReg) (rb : SReg) : Laws.Encoded.Statement (.fcmpEq rd ra rb) := by
  rintro _ ⟨⟩
  exact aWord_lt (by decide) rd.code_lt ra.code_lt rb.code_lt (by decide) (by decide)

theorem Laws.Encoded.fcmpLt (rd : SReg) (ra : SReg) (rb : SReg) : Laws.Encoded.Statement (.fcmpLt rd ra rb) := by
  rintro _ ⟨⟩
  exact aWord_lt (by decide) rd.code_lt ra.code_lt rb.code_lt (by decide) (by decide)

theorem Laws.Encoded.fcmpLe (rd : SReg) (ra : SReg) (rb : SReg) : Laws.Encoded.Statement (.fcmpLe rd ra rb) := by
  rintro _ ⟨⟩
  exact aWord_lt (by decide) rd.code_lt ra.code_lt rb.code_lt (by decide) (by decide)

theorem Laws.Encoded.fcmpUn (rd : SReg) (ra : SReg) (rb : SReg) : Laws.Encoded.Statement (.fcmpUn rd ra rb) := by
  rintro _ ⟨⟩
  exact aWord_lt (by decide) rd.code_lt ra.code_lt rb.code_lt (by decide) (by decide)

theorem Laws.Encoded.i2f (rd : SReg) (ra : SReg) (w : Bool) (rm : FRnd) : Laws.Encoded.Statement (.i2f rd ra w rm) := by
  rintro _ ⟨⟩
  exact aWord_lt (by decide) rd.code_lt ra.code_lt (by decide) (by decide) (by have := bit_lt w; have := rm.md_lt; omega)

theorem Laws.Encoded.n2f (rd : SReg) (ra : SReg) (w : Bool) (rm : FRnd) : Laws.Encoded.Statement (.n2f rd ra w rm) := by
  rintro _ ⟨⟩
  exact aWord_lt (by decide) rd.code_lt ra.code_lt (by decide) (by decide) (by have := bit_lt w; have := rm.md_lt; omega)

theorem Laws.Encoded.f2i (rd : SReg) (ra : SReg) (w : Bool) (rm : FRnd) : Laws.Encoded.Statement (.f2i rd ra w rm) := by
  rintro _ ⟨⟩
  exact aWord_lt (by decide) rd.code_lt ra.code_lt (by decide) (by decide) (by have := bit_lt w; have := rm.md_lt; omega)

theorem Laws.Encoded.f2n (rd : SReg) (ra : SReg) (w : Bool) (rm : FRnd) : Laws.Encoded.Statement (.f2n rd ra w rm) := by
  rintro _ ⟨⟩
  exact aWord_lt (by decide) rd.code_lt ra.code_lt (by decide) (by decide) (by have := bit_lt w; have := rm.md_lt; omega)

theorem Laws.Encoded.f2bf (rd : SReg) (ra : SReg) (rm : FRnd) : Laws.Encoded.Statement (.f2bf rd ra rm) := by
  rintro _ ⟨⟩
  exact aWord_lt (by decide) rd.code_lt ra.code_lt (by decide) (by decide) (by have := rm.md_lt; omega)

theorem Laws.Encoded.bf2f (rd : SReg) (ra : SReg) (rm : FRnd) : Laws.Encoded.Statement (.bf2f rd ra rm) := by
  rintro _ ⟨⟩
  exact aWord_lt (by decide) rd.code_lt ra.code_lt (by decide) (by decide) (by have := rm.md_lt; omega)

theorem Laws.Encoded.f2h (rd : SReg) (ra : SReg) (rm : FRnd) : Laws.Encoded.Statement (.f2h rd ra rm) := by
  rintro _ ⟨⟩
  exact aWord_lt (by decide) rd.code_lt ra.code_lt (by decide) (by decide) (by have := rm.md_lt; omega)

theorem Laws.Encoded.h2f (rd : SReg) (ra : SReg) (rm : FRnd) : Laws.Encoded.Statement (.h2f rd ra rm) := by
  rintro _ ⟨⟩
  exact aWord_lt (by decide) rd.code_lt ra.code_lt (by decide) (by decide) (by have := rm.md_lt; omega)

theorem Laws.Encoded.fcls (rd : SReg) (ra : SReg) (rm : FRnd) : Laws.Encoded.Statement (.fcls rd ra rm) := by
  rintro _ ⟨⟩
  exact aWord_lt (by decide) rd.code_lt ra.code_lt (by decide) (by decide) (by have := rm.md_lt; omega)

theorem Laws.Encoded.vadd (vd : VReg) (va : VReg) (b : VSrc) (m : VMod) : Laws.Encoded.Statement (.vadd vd va b m) := by
  rintro _ ⟨⟩
  exact aWord_lt (by decide) (by omega) (by omega) b.rb_lt (by decide) (by have := b.rb_lt; have := b.s_lt; have := m.md_lt; omega)

theorem Laws.Encoded.vsub (vd : VReg) (va : VReg) (b : VSrc) (m : VMod) : Laws.Encoded.Statement (.vsub vd va b m) := by
  rintro _ ⟨⟩
  exact aWord_lt (by decide) (by omega) (by omega) b.rb_lt (by decide) (by have := b.rb_lt; have := b.s_lt; have := m.md_lt; omega)

theorem Laws.Encoded.vmul (vd : VReg) (va : VReg) (b : VSrc) (m : VMod) : Laws.Encoded.Statement (.vmul vd va b m) := by
  rintro _ ⟨⟩
  exact aWord_lt (by decide) (by omega) (by omega) b.rb_lt (by decide) (by have := b.rb_lt; have := b.s_lt; have := m.md_lt; omega)

theorem Laws.Encoded.vdiv (vd : VReg) (va : VReg) (b : VSrc) (m : VMod) : Laws.Encoded.Statement (.vdiv vd va b m) := by
  rintro _ ⟨⟩
  exact aWord_lt (by decide) (by omega) (by omega) b.rb_lt (by decide) (by have := b.rb_lt; have := b.s_lt; have := m.md_lt; omega)

theorem Laws.Encoded.vmin (vd : VReg) (va : VReg) (b : VSrc) (m : VMod) : Laws.Encoded.Statement (.vmin vd va b m) := by
  rintro _ ⟨⟩
  exact aWord_lt (by decide) (by omega) (by omega) b.rb_lt (by decide) (by have := b.rb_lt; have := b.s_lt; have := m.md_lt; omega)

theorem Laws.Encoded.vmax (vd : VReg) (va : VReg) (b : VSrc) (m : VMod) : Laws.Encoded.Statement (.vmax vd va b m) := by
  rintro _ ⟨⟩
  exact aWord_lt (by decide) (by omega) (by omega) b.rb_lt (by decide) (by have := b.rb_lt; have := b.s_lt; have := m.md_lt; omega)

theorem Laws.Encoded.vand (vd : VReg) (va : VReg) (b : VSrc) (m : VMod) : Laws.Encoded.Statement (.vand vd va b m) := by
  rintro _ ⟨⟩
  exact aWord_lt (by decide) (by omega) (by omega) b.rb_lt (by decide) (by have := b.rb_lt; have := b.s_lt; have := m.md_lt; omega)

theorem Laws.Encoded.vor (vd : VReg) (va : VReg) (b : VSrc) (m : VMod) : Laws.Encoded.Statement (.vor vd va b m) := by
  rintro _ ⟨⟩
  exact aWord_lt (by decide) (by omega) (by omega) b.rb_lt (by decide) (by have := b.rb_lt; have := b.s_lt; have := m.md_lt; omega)

theorem Laws.Encoded.vxor (vd : VReg) (va : VReg) (b : VSrc) (m : VMod) : Laws.Encoded.Statement (.vxor vd va b m) := by
  rintro _ ⟨⟩
  exact aWord_lt (by decide) (by omega) (by omega) b.rb_lt (by decide) (by have := b.rb_lt; have := b.s_lt; have := m.md_lt; omega)

theorem Laws.Encoded.vshl (vd : VReg) (va : VReg) (b : VSrc) (m : VMod) : Laws.Encoded.Statement (.vshl vd va b m) := by
  rintro _ ⟨⟩
  exact aWord_lt (by decide) (by omega) (by omega) b.rb_lt (by decide) (by have := b.rb_lt; have := b.s_lt; have := m.md_lt; omega)

theorem Laws.Encoded.vshr (vd : VReg) (va : VReg) (b : VSrc) (m : VMod) : Laws.Encoded.Statement (.vshr vd va b m) := by
  rintro _ ⟨⟩
  exact aWord_lt (by decide) (by omega) (by omega) b.rb_lt (by decide) (by have := b.rb_lt; have := b.s_lt; have := m.md_lt; omega)

theorem Laws.Encoded.vsar (vd : VReg) (va : VReg) (b : VSrc) (m : VMod) : Laws.Encoded.Statement (.vsar vd va b m) := by
  rintro _ ⟨⟩
  exact aWord_lt (by decide) (by omega) (by omega) b.rb_lt (by decide) (by have := b.rb_lt; have := b.s_lt; have := m.md_lt; omega)

theorem Laws.Encoded.vadds (vd : VReg) (va : VReg) (b : VSrc) (m : VMod) : Laws.Encoded.Statement (.vadds vd va b m) := by
  rintro _ ⟨⟩
  exact aWord_lt (by decide) (by omega) (by omega) b.rb_lt (by decide) (by have := b.rb_lt; have := b.s_lt; have := m.md_lt; omega)

theorem Laws.Encoded.vsubs (vd : VReg) (va : VReg) (b : VSrc) (m : VMod) : Laws.Encoded.Statement (.vsubs vd va b m) := by
  rintro _ ⟨⟩
  exact aWord_lt (by decide) (by omega) (by omega) b.rb_lt (by decide) (by have := b.rb_lt; have := b.s_lt; have := m.md_lt; omega)

theorem Laws.Encoded.vabsd (vd : VReg) (va : VReg) (b : VSrc) (m : VMod) : Laws.Encoded.Statement (.vabsd vd va b m) := by
  rintro _ ⟨⟩
  exact aWord_lt (by decide) (by omega) (by omega) b.rb_lt (by decide) (by have := b.rb_lt; have := b.s_lt; have := m.md_lt; omega)

theorem Laws.Encoded.vfma (vd : VReg) (va : VReg) (b : VSrc) (vc : VReg) (m : VMod) : Laws.Encoded.Statement (.vfma vd va b vc m) := by
  rintro _ ⟨⟩
  exact aWord_lt (by decide) (by omega) (by omega) b.rb_lt (by omega) (by have := b.rb_lt; have := b.s_lt; have := m.md_lt; omega)

theorem Laws.Encoded.vfnma (vd : VReg) (va : VReg) (b : VSrc) (vc : VReg) (m : VMod) : Laws.Encoded.Statement (.vfnma vd va b vc m) := by
  rintro _ ⟨⟩
  exact aWord_lt (by decide) (by omega) (by omega) b.rb_lt (by omega) (by have := b.rb_lt; have := b.s_lt; have := m.md_lt; omega)

theorem Laws.Encoded.vdot4 (vd : VReg) (va : VReg) (b : VSrc) (vc : VReg) (m : VMod) : Laws.Encoded.Statement (.vdot4 vd va b vc m) := by
  rintro _ ⟨⟩
  exact aWord_lt (by decide) (by omega) (by omega) b.rb_lt (by omega) (by have := b.rb_lt; have := b.s_lt; have := m.md_lt; omega)

theorem Laws.Encoded.vabs (vd : VReg) (va : VReg) (sb : Bool) (m : VMod) : Laws.Encoded.Statement (.vabs vd va sb m) := by
  rintro _ ⟨⟩
  exact aWord_lt (by decide) (by omega) (by omega) (by decide) (by decide) (by have := bit_lt sb; have := m.md_lt; omega)

theorem Laws.Encoded.vneg (vd : VReg) (va : VReg) (sb : Bool) (m : VMod) : Laws.Encoded.Statement (.vneg vd va sb m) := by
  rintro _ ⟨⟩
  exact aWord_lt (by decide) (by omega) (by omega) (by decide) (by decide) (by have := bit_lt sb; have := m.md_lt; omega)

theorem Laws.Encoded.vsqrt (vd : VReg) (va : VReg) (sb : Bool) (m : VMod) : Laws.Encoded.Statement (.vsqrt vd va sb m) := by
  rintro _ ⟨⟩
  exact aWord_lt (by decide) (by omega) (by omega) (by decide) (by decide) (by have := bit_lt sb; have := m.md_lt; omega)

theorem Laws.Encoded.vrcp (vd : VReg) (va : VReg) (sb : Bool) (m : VMod) : Laws.Encoded.Statement (.vrcp vd va sb m) := by
  rintro _ ⟨⟩
  exact aWord_lt (by decide) (by omega) (by omega) (by decide) (by decide) (by have := bit_lt sb; have := m.md_lt; omega)

theorem Laws.Encoded.vrsq (vd : VReg) (va : VReg) (sb : Bool) (m : VMod) : Laws.Encoded.Statement (.vrsq vd va sb m) := by
  rintro _ ⟨⟩
  exact aWord_lt (by decide) (by omega) (by omega) (by decide) (by decide) (by have := bit_lt sb; have := m.md_lt; omega)

theorem Laws.Encoded.vex2 (vd : VReg) (va : VReg) (sb : Bool) (m : VMod) : Laws.Encoded.Statement (.vex2 vd va sb m) := by
  rintro _ ⟨⟩
  exact aWord_lt (by decide) (by omega) (by omega) (by decide) (by decide) (by have := bit_lt sb; have := m.md_lt; omega)

theorem Laws.Encoded.vlg2 (vd : VReg) (va : VReg) (sb : Bool) (m : VMod) : Laws.Encoded.Statement (.vlg2 vd va sb m) := by
  rintro _ ⟨⟩
  exact aWord_lt (by decide) (by omega) (by omega) (by decide) (by decide) (by have := bit_lt sb; have := m.md_lt; omega)

theorem Laws.Encoded.vmov (vd : VReg) (va : VReg) (sb : Bool) (m : VMod) : Laws.Encoded.Statement (.vmov vd va sb m) := by
  rintro _ ⟨⟩
  exact aWord_lt (by decide) (by omega) (by omega) (by decide) (by decide) (by have := bit_lt sb; have := m.md_lt; omega)

theorem Laws.Encoded.vnot (vd : VReg) (va : VReg) (sb : Bool) (m : VMod) : Laws.Encoded.Statement (.vnot vd va sb m) := by
  rintro _ ⟨⟩
  exact aWord_lt (by decide) (by omega) (by omega) (by decide) (by decide) (by have := bit_lt sb; have := m.md_lt; omega)

theorem Laws.Encoded.vclz (vd : VReg) (va : VReg) (sb : Bool) (m : VMod) : Laws.Encoded.Statement (.vclz vd va sb m) := by
  rintro _ ⟨⟩
  exact aWord_lt (by decide) (by omega) (by omega) (by decide) (by decide) (by have := bit_lt sb; have := m.md_lt; omega)

theorem Laws.Encoded.vpopc (vd : VReg) (va : VReg) (sb : Bool) (m : VMod) : Laws.Encoded.Statement (.vpopc vd va sb m) := by
  rintro _ ⟨⟩
  exact aWord_lt (by decide) (by omega) (by omega) (by decide) (by decide) (by have := bit_lt sb; have := m.md_lt; omega)

theorem Laws.Encoded.vrelu (vd : VReg) (va : VReg) (sb : Bool) (m : VMod) : Laws.Encoded.Statement (.vrelu vd va sb m) := by
  rintro _ ⟨⟩
  exact aWord_lt (by decide) (by omega) (by omega) (by decide) (by decide) (by have := bit_lt sb; have := m.md_lt; omega)

theorem Laws.Encoded.vcmpEq (md : MReg) (va : VReg) (b : VSrc) (m : VMod) : Laws.Encoded.Statement (.vcmpEq md va b m) := by
  rintro _ ⟨⟩
  exact aWord_lt (by decide) (by omega) (by omega) b.rb_lt (by decide) (by have := b.rb_lt; have := b.s_lt; have := m.md_lt; omega)

theorem Laws.Encoded.vcmpNe (md : MReg) (va : VReg) (b : VSrc) (m : VMod) : Laws.Encoded.Statement (.vcmpNe md va b m) := by
  rintro _ ⟨⟩
  exact aWord_lt (by decide) (by omega) (by omega) b.rb_lt (by decide) (by have := b.rb_lt; have := b.s_lt; have := m.md_lt; omega)

theorem Laws.Encoded.vcmpLt (md : MReg) (va : VReg) (b : VSrc) (m : VMod) : Laws.Encoded.Statement (.vcmpLt md va b m) := by
  rintro _ ⟨⟩
  exact aWord_lt (by decide) (by omega) (by omega) b.rb_lt (by decide) (by have := b.rb_lt; have := b.s_lt; have := m.md_lt; omega)

theorem Laws.Encoded.vcmpLe (md : MReg) (va : VReg) (b : VSrc) (m : VMod) : Laws.Encoded.Statement (.vcmpLe md va b m) := by
  rintro _ ⟨⟩
  exact aWord_lt (by decide) (by omega) (by omega) b.rb_lt (by decide) (by have := b.rb_lt; have := b.s_lt; have := m.md_lt; omega)

theorem Laws.Encoded.vcmpGt (md : MReg) (va : VReg) (b : VSrc) (m : VMod) : Laws.Encoded.Statement (.vcmpGt md va b m) := by
  rintro _ ⟨⟩
  exact aWord_lt (by decide) (by omega) (by omega) b.rb_lt (by decide) (by have := b.rb_lt; have := b.s_lt; have := m.md_lt; omega)

theorem Laws.Encoded.vcmpGe (md : MReg) (va : VReg) (b : VSrc) (m : VMod) : Laws.Encoded.Statement (.vcmpGe md va b m) := by
  rintro _ ⟨⟩
  exact aWord_lt (by decide) (by omega) (by omega) b.rb_lt (by decide) (by have := b.rb_lt; have := b.s_lt; have := m.md_lt; omega)

theorem Laws.Encoded.vcmpUn (md : MReg) (va : VReg) (b : VSrc) (m : VMod) : Laws.Encoded.Statement (.vcmpUn md va b m) := by
  rintro _ ⟨⟩
  exact aWord_lt (by decide) (by omega) (by omega) b.rb_lt (by decide) (by have := b.rb_lt; have := b.s_lt; have := m.md_lt; omega)

theorem Laws.Encoded.vcmpOrd (md : MReg) (va : VReg) (b : VSrc) (m : VMod) : Laws.Encoded.Statement (.vcmpOrd md va b m) := by
  rintro _ ⟨⟩
  exact aWord_lt (by decide) (by omega) (by omega) b.rb_lt (by decide) (by have := b.rb_lt; have := b.s_lt; have := m.md_lt; omega)

theorem Laws.Encoded.vsel (vd : VReg) (va : VReg) (b : VSrc) (mk : MReg) (m : VMod) : Laws.Encoded.Statement (.vsel vd va b mk m) := by
  rintro _ ⟨⟩
  exact aWord_lt (by decide) (by omega) (by omega) b.rb_lt (by omega) (by have := b.rb_lt; have := b.s_lt; have := m.md_lt; omega)

theorem Laws.Encoded.vcvt (vd : VReg) (va : VReg) (tc : CvtCode) (sb : Bool) (m : VMod) : Laws.Encoded.Statement (.vcvt vd va tc sb m) := by
  rintro _ ⟨⟩
  exact aWord_lt (by decide) (by omega) (by omega) (by decide) (by have := tc.code_lt; omega) (by have := bit_lt sb; have := m.md_lt; omega)

theorem Laws.Encoded.vredSum (rd : SReg) (va : VReg) (sb : Bool) (m : VMod) : Laws.Encoded.Statement (.vredSum rd va sb m) := by
  rintro _ ⟨⟩
  exact aWord_lt (by decide) rd.code_lt (by omega) (by decide) (by decide) (by have := bit_lt sb; have := m.md_lt; omega)

theorem Laws.Encoded.vredMin (rd : SReg) (va : VReg) (sb : Bool) (m : VMod) : Laws.Encoded.Statement (.vredMin rd va sb m) := by
  rintro _ ⟨⟩
  exact aWord_lt (by decide) rd.code_lt (by omega) (by decide) (by decide) (by have := bit_lt sb; have := m.md_lt; omega)

theorem Laws.Encoded.vredMax (rd : SReg) (va : VReg) (sb : Bool) (m : VMod) : Laws.Encoded.Statement (.vredMax rd va sb m) := by
  rintro _ ⟨⟩
  exact aWord_lt (by decide) rd.code_lt (by omega) (by decide) (by decide) (by have := bit_lt sb; have := m.md_lt; omega)

theorem Laws.Encoded.vredAnd (rd : SReg) (va : VReg) (sb : Bool) (m : VMod) : Laws.Encoded.Statement (.vredAnd rd va sb m) := by
  rintro _ ⟨⟩
  exact aWord_lt (by decide) rd.code_lt (by omega) (by decide) (by decide) (by have := bit_lt sb; have := m.md_lt; omega)

theorem Laws.Encoded.vredOr (rd : SReg) (va : VReg) (sb : Bool) (m : VMod) : Laws.Encoded.Statement (.vredOr rd va sb m) := by
  rintro _ ⟨⟩
  exact aWord_lt (by decide) rd.code_lt (by omega) (by decide) (by decide) (by have := bit_lt sb; have := m.md_lt; omega)

theorem Laws.Encoded.vredXor (rd : SReg) (va : VReg) (sb : Bool) (m : VMod) : Laws.Encoded.Statement (.vredXor rd va sb m) := by
  rintro _ ⟨⟩
  exact aWord_lt (by decide) rd.code_lt (by omega) (by decide) (by decide) (by have := bit_lt sb; have := m.md_lt; omega)

theorem Laws.Encoded.vscanSum (vd : VReg) (va : VReg) (sb : Bool) (m : VMod) : Laws.Encoded.Statement (.vscanSum vd va sb m) := by
  rintro _ ⟨⟩
  exact aWord_lt (by decide) (by omega) (by omega) (by decide) (by decide) (by have := bit_lt sb; have := m.md_lt; omega)

theorem Laws.Encoded.vscanMax (vd : VReg) (va : VReg) (sb : Bool) (m : VMod) : Laws.Encoded.Statement (.vscanMax vd va sb m) := by
  rintro _ ⟨⟩
  exact aWord_lt (by decide) (by omega) (by omega) (by decide) (by decide) (by have := bit_lt sb; have := m.md_lt; omega)

theorem Laws.Encoded.vperm (vd : VReg) (va : VReg) (b : VSrc) (m : VMod) : Laws.Encoded.Statement (.vperm vd va b m) := by
  rintro _ ⟨⟩
  exact aWord_lt (by decide) (by omega) (by omega) b.rb_lt (by decide) (by have := b.rb_lt; have := b.s_lt; have := m.md_lt; omega)

theorem Laws.Encoded.vbcst (vd : VReg) (rs : SReg) (m : VMod) : Laws.Encoded.Statement (.vbcst vd rs m) := by
  rintro _ ⟨⟩
  exact aWord_lt (by decide) (by omega) rs.code_lt (by decide) (by decide) (by have := m.md_lt; omega)

theorem Laws.Encoded.viota (vd : VReg) (m : VMod) : Laws.Encoded.Statement (.viota vd m) := by
  rintro _ ⟨⟩
  exact aWord_lt (by decide) (by omega) (by decide) (by decide) (by decide) (by have := m.md_lt; omega)

theorem Laws.Encoded.vext (rd : SReg) (va : VReg) (rl : SReg) (ty : VTy) : Laws.Encoded.Statement (.vext rd va rl ty) := by
  rintro _ ⟨⟩
  exact aWord_lt (by decide) rd.code_lt (by omega) rl.code_lt (by decide) (by have := ty.code_lt; omega)

theorem Laws.Encoded.vins (vd : VReg) (rs : SReg) (rl : SReg) (ty : VTy) : Laws.Encoded.Statement (.vins vd rs rl ty) := by
  rintro _ ⟨⟩
  exact aWord_lt (by decide) (by omega) rs.code_lt rl.code_lt (by decide) (by have := ty.code_lt; omega)

theorem Laws.Encoded.maluAnd (md : MReg) (ma : MReg) (mb : MReg) : Laws.Encoded.Statement (.maluAnd md ma mb) := by
  rintro _ ⟨⟩
  exact aWord_lt (by decide) (by omega) (by omega) (by omega) (by decide) (by decide)

theorem Laws.Encoded.maluOr (md : MReg) (ma : MReg) (mb : MReg) : Laws.Encoded.Statement (.maluOr md ma mb) := by
  rintro _ ⟨⟩
  exact aWord_lt (by decide) (by omega) (by omega) (by omega) (by decide) (by decide)

theorem Laws.Encoded.maluXor (md : MReg) (ma : MReg) (mb : MReg) : Laws.Encoded.Statement (.maluXor md ma mb) := by
  rintro _ ⟨⟩
  exact aWord_lt (by decide) (by omega) (by omega) (by omega) (by decide) (by decide)

theorem Laws.Encoded.maluAndn (md : MReg) (ma : MReg) (mb : MReg) : Laws.Encoded.Statement (.maluAndn md ma mb) := by
  rintro _ ⟨⟩
  exact aWord_lt (by decide) (by omega) (by omega) (by omega) (by decide) (by decide)

theorem Laws.Encoded.maluNot (md : MReg) (ma : MReg) : Laws.Encoded.Statement (.maluNot md ma) := by
  rintro _ ⟨⟩
  exact aWord_lt (by decide) (by omega) (by omega) (by decide) (by decide) (by decide)

theorem Laws.Encoded.maluSet (md : MReg) : Laws.Encoded.Statement (.maluSet md) := by
  rintro _ ⟨⟩
  exact aWord_lt (by decide) (by omega) (by decide) (by decide) (by decide) (by decide)

theorem Laws.Encoded.maluClr (md : MReg) : Laws.Encoded.Statement (.maluClr md) := by
  rintro _ ⟨⟩
  exact aWord_lt (by decide) (by omega) (by decide) (by decide) (by decide) (by decide)

theorem Laws.Encoded.mpopCount (rd : SReg) (ma : MReg) : Laws.Encoded.Statement (.mpopCount rd ma) := by
  rintro _ ⟨⟩
  exact aWord_lt (by decide) rd.code_lt (by omega) (by decide) (by decide) (by decide)

theorem Laws.Encoded.mpopFirst (rd : SReg) (ma : MReg) : Laws.Encoded.Statement (.mpopFirst rd ma) := by
  rintro _ ⟨⟩
  exact aWord_lt (by decide) rd.code_lt (by omega) (by decide) (by decide) (by decide)

theorem Laws.Encoded.fixedLatencyWriteback : Laws.Encoded.Statement .fixedLatencyWriteback := by
  rintro _ ⟨⟩

theorem Laws.Encoded.stallCountExpiry : Laws.Encoded.Statement .stallCountExpiry := by
  rintro _ ⟨⟩

theorem Laws.Encoded.registerWriteMessage : Laws.Encoded.Statement .registerWriteMessage := by
  rintro _ ⟨⟩

theorem Laws.Encoded.loadResponse : Laws.Encoded.Statement .loadResponse := by
  rintro _ ⟨⟩

theorem Laws.Encoded.storeAck : Laws.Encoded.Statement .storeAck := by
  rintro _ ⟨⟩

theorem Laws.Encoded.errorResponse : Laws.Encoded.Statement .errorResponse := by
  rintro _ ⟨⟩

theorem Laws.Encoded.homeRequest : Laws.Encoded.Statement .homeRequest := by
  rintro _ ⟨⟩

theorem Laws.Encoded.revstoreHoldRelease : Laws.Encoded.Statement .revstoreHoldRelease := by
  rintro _ ⟨⟩

theorem Laws.Encoded.feWaiterServed : Laws.Encoded.Statement .feWaiterServed := by
  rintro _ ⟨⟩

theorem Laws.Encoded.waitlimitExpiry : Laws.Encoded.Statement .waitlimitExpiry := by
  rintro _ ⟨⟩

theorem Laws.Encoded.fifoWaitServed : Laws.Encoded.Statement .fifoWaitServed := by
  rintro _ ⟨⟩

theorem Laws.Encoded.bankWakeDone : Laws.Encoded.Statement .bankWakeDone := by
  rintro _ ⟨⟩

theorem Laws.Encoded.memberStart : Laws.Encoded.Statement .memberStart := by
  rintro _ ⟨⟩

theorem Laws.Encoded.inlineMemberEntry : Laws.Encoded.Statement .inlineMemberEntry := by
  rintro _ ⟨⟩

theorem Laws.Encoded.inlineRestore : Laws.Encoded.Statement .inlineRestore := by
  rintro _ ⟨⟩

theorem Laws.Encoded.delegationRequest : Laws.Encoded.Statement .delegationRequest := by
  rintro _ ⟨⟩

theorem Laws.Encoded.delegationAnswer : Laws.Encoded.Statement .delegationAnswer := by
  rintro _ ⟨⟩

theorem Laws.Encoded.syncComplete : Laws.Encoded.Statement .syncComplete := by
  rintro _ ⟨⟩

theorem Laws.Encoded.killMessage : Laws.Encoded.Statement .killMessage := by
  rintro _ ⟨⟩

theorem Laws.Encoded.detJoinDecrement : Laws.Encoded.Statement .detJoinDecrement := by
  rintro _ ⟨⟩

theorem Laws.Encoded.barrierArrival : Laws.Encoded.Statement .barrierArrival := by
  rintro _ ⟨⟩

theorem Laws.Encoded.barrierRelease : Laws.Encoded.Statement .barrierRelease := by
  rintro _ ⟨⟩

theorem Laws.Encoded.travellerArrival : Laws.Encoded.Statement .travellerArrival := by
  rintro _ ⟨⟩

theorem Laws.Encoded.continuationHeadPlace : Laws.Encoded.Statement .continuationHeadPlace := by
  rintro _ ⟨⟩

theorem Laws.Encoded.spillOverflowMove : Laws.Encoded.Statement .spillOverflowMove := by
  rintro _ ⟨⟩

theorem Laws.Encoded.doorbell : Laws.Encoded.Statement .doorbell := by
  rintro _ ⟨⟩

theorem Laws.Encoded.tailLineWrite : Laws.Encoded.Statement .tailLineWrite := by
  rintro _ ⟨⟩

theorem Laws.Encoded.ringReset : Laws.Encoded.Statement .ringReset := by
  rintro _ ⟨⟩

theorem Laws.Encoded.sliceRecordCopy : Laws.Encoded.Statement .sliceRecordCopy := by
  rintro _ ⟨⟩

theorem Laws.Encoded.sliceDispatch : Laws.Encoded.Statement .sliceDispatch := by
  rintro _ ⟨⟩

theorem Laws.Encoded.completionSignal : Laws.Encoded.Statement .completionSignal := by
  rintro _ ⟨⟩

theorem Laws.Encoded.cancel : Laws.Encoded.Statement .cancel := by
  rintro _ ⟨⟩

theorem Laws.Encoded.purgeComplete : Laws.Encoded.Statement .purgeComplete := by
  rintro _ ⟨⟩

theorem Laws.Encoded.taskReplay : Laws.Encoded.Statement .taskReplay := by
  rintro _ ⟨⟩

theorem Laws.Encoded.mlsStart : Laws.Encoded.Statement .mlsStart := by
  rintro _ ⟨⟩

theorem Laws.Encoded.planeFull : Laws.Encoded.Statement .planeFull := by
  rintro _ ⟨⟩

theorem Laws.Encoded.planeSwap : Laws.Encoded.Statement .planeSwap := by
  rintro _ ⟨⟩

theorem Laws.Encoded.passStart : Laws.Encoded.Statement .passStart := by
  rintro _ ⟨⟩

theorem Laws.Encoded.spallCarryResume : Laws.Encoded.Statement .spallCarryResume := by
  rintro _ ⟨⟩

theorem Laws.Encoded.passComplete : Laws.Encoded.Statement .passComplete := by
  rintro _ ⟨⟩

theorem Laws.Encoded.mzeroStart : Laws.Encoded.Statement .mzeroStart := by
  rintro _ ⟨⟩

theorem Laws.Encoded.drainComplete : Laws.Encoded.Statement .drainComplete := by
  rintro _ ⟨⟩

theorem Laws.Encoded.mxswPair : Laws.Encoded.Statement .mxswPair := by
  rintro _ ⟨⟩

theorem Laws.Encoded.mxswComplete : Laws.Encoded.Statement .mxswComplete := by
  rintro _ ⟨⟩

theorem Laws.Encoded.tileBytesArrive : Laws.Encoded.Statement .tileBytesArrive := by
  rintro _ ⟨⟩

theorem Laws.Encoded.tileReleaseEffect : Laws.Encoded.Statement .tileReleaseEffect := by
  rintro _ ⟨⟩

theorem Laws.Encoded.copyCommandStart : Laws.Encoded.Statement .copyCommandStart := by
  rintro _ ⟨⟩

theorem Laws.Encoded.copyOutComplete : Laws.Encoded.Statement .copyOutComplete := by
  rintro _ ⟨⟩

theorem Laws.Encoded.mergeBlock : Laws.Encoded.Statement .mergeBlock := by
  rintro _ ⟨⟩

theorem Laws.Encoded.pgreply : Laws.Encoded.Statement .pgreply := by
  rintro _ ⟨⟩

theorem Laws.Encoded.migd : Laws.Encoded.Statement .migd := by
  rintro _ ⟨⟩

theorem Laws.Encoded.hfqheadWrite : Laws.Encoded.Statement .hfqheadWrite := by
  rintro _ ⟨⟩

theorem Laws.Encoded.finjWrite : Laws.Encoded.Statement .finjWrite := by
  rintro _ ⟨⟩

theorem Laws.Encoded.finjInject : Laws.Encoded.Statement .finjInject := by
  rintro _ ⟨⟩

theorem Laws.Encoded.linkFlitReplay : Laws.Encoded.Statement .linkFlitReplay := by
  rintro _ ⟨⟩

theorem Laws.Encoded.linkAckTimeout : Laws.Encoded.Statement .linkAckTimeout := by
  rintro _ ⟨⟩

theorem Laws.Encoded.linkFailure : Laws.Encoded.Statement .linkFailure := by
  rintro _ ⟨⟩

theorem Laws.Encoded.hostBar2Access : Laws.Encoded.Statement .hostBar2Access := by
  rintro _ ⟨⟩

theorem Laws.Encoded.partitionForm : Laws.Encoded.Statement .partitionForm := by
  rintro _ ⟨⟩

theorem Laws.Encoded.partitionDissolve : Laws.Encoded.Statement .partitionDissolve := by
  rintro _ ⟨⟩

theorem Laws.Encoded.gsctlStop : Laws.Encoded.Statement .gsctlStop := by
  rintro _ ⟨⟩

theorem Laws.Encoded.gsctlGo : Laws.Encoded.Statement .gsctlGo := by
  rintro _ ⟨⟩

theorem Laws.Encoded.gsctlEnd : Laws.Encoded.Statement .gsctlEnd := by
  rintro _ ⟨⟩

theorem Laws.Encoded.gsctlSwitchIn : Laws.Encoded.Statement .gsctlSwitchIn := by
  rintro _ ⟨⟩

theorem Laws.Encoded.gangSwitch : Laws.Encoded.Statement .gangSwitch := by
  rintro _ ⟨⟩

theorem Laws.Encoded.messageSave : Laws.Encoded.Statement .messageSave := by
  rintro _ ⟨⟩

theorem Laws.Encoded.coreControlWrite : Laws.Encoded.Statement .coreControlWrite := by
  rintro _ ⟨⟩

theorem Laws.Encoded.registerWrite : Laws.Encoded.Statement .registerWrite := by
  rintro _ ⟨⟩

theorem Laws.Encoded.attestationRequest : Laws.Encoded.Statement .attestationRequest := by
  rintro _ ⟨⟩

theorem Laws.Encoded.imageLoad : Laws.Encoded.Statement .imageLoad := by
  rintro _ ⟨⟩

theorem Laws.Encoded.deviceReset : Laws.Encoded.Statement .deviceReset := by
  rintro _ ⟨⟩

theorem Laws.Encoded.trainingComplete : Laws.Encoded.Statement .trainingComplete := by
  rintro _ ⟨⟩

theorem Laws.Encoded.fullServiceEntry : Laws.Encoded.Statement .fullServiceEntry := by
  rintro _ ⟨⟩

theorem Laws.Encoded.reducedSliceTimeout : Laws.Encoded.Statement .reducedSliceTimeout := by
  rintro _ ⟨⟩

theorem Laws.Encoded.clockStep : Laws.Encoded.Statement .clockStep := by
  rintro _ ⟨⟩

theorem Laws.Encoded.thermalStop : Laws.Encoded.Statement .thermalStop := by
  rintro _ ⟨⟩

theorem Laws.Encoded.sliceRetire : Laws.Encoded.Statement .sliceRetire := by
  rintro _ ⟨⟩

theorem Laws.Encoded.coreReset : Laws.Encoded.Statement .coreReset := by
  rintro _ ⟨⟩

theorem Laws.Encoded.stewardStart : Laws.Encoded.Statement .stewardStart := by
  rintro _ ⟨⟩

theorem Laws.Encoded.linkTraining : Laws.Encoded.Statement .linkTraining := by
  rintro _ ⟨⟩

end Sys2Proof
end

