-- ==== Sys2Proof/Laws/Scalar.lean ====
section
/-! SUPPORT. What a scalar A-slot instruction leaves, once for all of them. -/

namespace Sys2Proof.Machine

theorem setFlags_ok {s : State} {fl : Flags} (h : NoTrap s fl) :
    setFlags s fl = .ok { s with cur := { s.cur with aFlags := s.cur.aFlags ||| fl } } := by
  have e : enabledFlag s.me.csr.fst fl = none := by
    unfold enabledFlag
    rw [List.find?_eq_none]
    intro i hi
    cases hf : fl.getLsbD i with
    | false => simp
    | true => simp [h i (List.mem_range.1 hi) hf]
  unfold setFlags
  rw [e]

/-- An A-slot instruction whose registers are usable, whose flags do not trap and whose result overtakes none. -/
theorem scalarOp_ok {u : Uses} {rd : SReg} {v : State → W64 × Flags} {lat : Nat} {s : State} (hs : s.Stands)
    (hu : Usable { u with sw := [rd] } s) (hf : NoTrap s (v s).2) (ho : SInOrder s rd lat) :
    scalarOp u rd v lat s = (s.withScalar rd (v s).1 lat).aDone (v s).2 := by
  let t : State := { s with cur := { s.cur with aFlags := s.cur.aFlags ||| (v s).2 } }
  have ht : t.Stands := hs.congr rfl rfl rfl
  have h1 : produceS t rd (v s).1 lat = .ok (t.withScalar rd (v s).1 lat) :=
    produceS_ok ht (by cases rd <;> exact ho) _
  unfold scalarOp
  simp only [gate_ok .a (hu.withPw (SReg.dest rd lat)) ho.dest, setFlags_ok hf, bind, Except.bind, pure, Except.pure]
  rw [h1]
  cases rd <;> first | rfl | (simp only [run, State.withScalar, State.withFlight]; rw [ht.updMe, hs.updMe]; rfl)

end Sys2Proof.Machine
end

