-- ==== Sys2Proof/Laws/Step.lean ====
section
/-! SUPPORT. What the shared operations of a step can do: an instruction always answers a next state, taking a trap, and
translation. -/

namespace Sys2Proof.Machine

/-- Every instruction and every machine step answers a next state. -/
theorem exec_next (i : Instr) (s : State) : ∃ t, exec i s = .next t := by
  cases i <;> exact ⟨_, rfl⟩

theorem andThen_next {o : Out} {f : State → Out} (h : ∃ t, o = .next t) (g : ∀ s, ∃ t, f s = .next t) :
    ∃ t, andThen o f = .next t := by
  obtain ⟨t, rfl⟩ := h
  exact g t

/-! Taking a trap (R376, R377, R380). -/

theorem takeTrap_walker {s : State} (h : s.cur.slot = 16) (stage cause addr : Nat) :
    s.takeTrap stage cause addr =
      ({ s with cur := { s.cur with res := .trapped stage, trap := some { cause := cause, addr := addr } } }.updMe fun t => t.trapWalker cause addr).event "walker halted"
        s.cur.cid cause := by
  unfold State.takeTrap
  simp only [h, if_true]

theorem takeTrap_user {s : State} (h : s.cur.slot ≠ 16) (hu : s.me.sys = false) (stage cause addr : Nat) :
    s.takeTrap stage cause addr =
      State.startPurge ({ s with cur := { s.cur with res := .trapped stage, trap := some { cause := cause, addr := addr } } }.updMe fun t =>
          { t with hold := .wait .stopped, stall := none })
        (if cause = 0x47 then none
          else State.taskOf ({ s with cur := { s.cur with res := .trapped stage, trap := some { cause := cause, addr := addr } } }.updMe fun t =>
            { t with hold := .wait .stopped, stall := none }) s.me)
        s.me.slice cause s.cur.cid s.cur.slot s.me.pc.toNat addr := by
  unfold State.takeTrap
  simp only [h, hu, Bool.false_eq_true, if_false, State.updMe_cur]

@[simp] theorem State.startPurge_mem (s : State) (t : Option Family) (sl : Option Nat) (a b c d e : Nat) :
    (s.startPurge t sl a b c d e).mem = s.mem := by
  unfold State.startPurge
  dsimp only [State.fresh]
  split
  · split <;> rfl
  · split
    · split <;> rfl
    · rfl

/-- A trap changes no byte of memory. -/
@[simp] theorem State.takeTrap_mem (s : State) (stage cause addr : Nat) : (s.takeTrap stage cause addr).mem = s.mem := by
  by_cases h : s.cur.slot = 16
  · rw [takeTrap_walker h]; simp
  · cases hu : s.me.sys with
    | false => rw [takeTrap_user h hu]; simp
    | true =>
      unfold State.takeTrap
      simp only [h, hu, if_false, if_true]
      repeat' split
      all_goals simp

/-! Translation (R167, R169, R311). -/

/-- A translated access changes only its core's TLBs. -/
theorem tlbFind_frame {s s' : State} {cid va k : Nat} {e : TlbEntry} (h : s.tlbFind cid va = some (e, k, s')) :
    s' = s ∨ ∃ l, s' = { s with freeCtr := s.freeCtr + 1 }.updCore cid fun c => { c with tlb1 := l } := by
  unfold State.tlbFind at h
  dsimp only at h
  split at h
  · exact .inl (by injection h with h; injection h with _ h; injection h with _ h; exact h.symm)
  · split at h
    · injection h with h; injection h with _ h; injection h with _ h
      exact .inr ⟨tlbPut (s.core cid).tlb1 64 s.freeCtr _, h.symm⟩
    · cases h

theorem xlate_frame {s s' : State} {cid va n al : Nat} {nd : Need} {user phys wide : Bool} {x : Xl}
    (h : s.xlate cid va n al nd user phys wide = .ok x s') :
    s' = s ∨ ∃ l, s' = { s with freeCtr := s.freeCtr + 1 }.updCore cid fun c => { c with tlb1 := l } := by
  unfold State.xlate at h
  split at h
  · cases h
  · split at h
    · cases h
    · split at h
      · split at h <;> cases h
        exact .inl rfl
      · split at h
        · unfold State.aliasXl at h
          dsimp only at h
          repeat' (split at h)
          all_goals first | (cases h; done) | (cases h; exact .inl rfl)
        · split at h
          · cases h
          · rename_i e k s1 hf
            split at h
            · cases h
            · split at h
              · cases h
              · injection h with _ h
                subst h
                exact tlbFind_frame hf

theorem xlate_mem {s s' : State} {cid va n al : Nat} {nd : Need} {user phys wide : Bool} {x : Xl}
    (h : s.xlate cid va n al nd user phys wide = .ok x s') : s'.mem = s.mem ∧ s'.cur = s.cur ∧ s'.reqs = s.reqs := by
  obtain rfl | ⟨l, rfl⟩ := xlate_frame h <;> exact ⟨rfl, rfl, rfl⟩

/-- What an access of the issuing bundle can come to. -/
theorem access_cases (s : State) (va : W64) (n al : Nat) (nd : Need) (wide : Bool) :
    (∃ x s', s.xlate s.cur.cid va.toNat n al nd (!s.me.sys) (s.cur.slot == 16) wide = .ok x s' ∧
      access s va n al nd wide = .ok (x, { s' with cur := { s'.cur with
        remote := s'.cur.remote || decide (2 ^ 48 ≤ x.pa), addr := some (s'.cur.addr.getD x.va) } })) ∨
    access s va n al nd wide = .error (s.waitPage va.toNat nd.acc) ∨
    access s va n al nd wide = notReady s ∨
    ∃ c, access s va n al nd wide = raise s 6 c va.toNat := by
  unfold access
  split
  · rename_i x s' h; exact .inl ⟨x, s', h, rfl⟩
  · exact .inr (.inl rfl)
  · exact .inr (.inr (.inl rfl))
  · exact .inr (.inr (.inr ⟨_, rfl⟩))

end Sys2Proof.Machine
end

