-- ==== Sys2Proof/Laws/Vector.lean ====
section
/-! SUPPORT. What a vector A-slot instruction leaves, once for all of them. -/

namespace Sys2Proof.Machine

/-- A result for a register, and flags, of the issuing bundle. -/
theorem produce_flags_ok {s : State} {d : FDest} {fl : Flags} {lat : Nat} (hs : s.Stands) (ho : InOrder s d lat)
    (v m : VWord) :
    produce { s with cur := { s.cur with aFlags := s.cur.aFlags ||| fl } } d v m lat =
      .ok { s.withFlight d v m lat with cur := { s.cur with aFlags := s.cur.aFlags ||| fl } } := by
  have ht : ({ s with cur := { s.cur with aFlags := s.cur.aFlags ||| fl } } : State).Stands := hs.congr rfl rfl rfl
  have ho' : InOrder ({ s with cur := { s.cur with aFlags := s.cur.aFlags ||| fl } } : State) d lat := ho
  rw [produce_ok ht ho']
  simp only [State.withFlight]
  rw [ht.updMe, hs.updMe]
  rfl

/-- A vector instruction whose registers are usable, whose active flags do not trap and whose result overtakes none. -/
theorem vecOut_ok {u : Uses} {vd : VReg} {msk : MReg} {w : Nat} {xs : State → List (Nat × Flags)} {fl : Flags} {lat : Nat}
    {s : State} (hs : s.Stands) (hu : Usable { u with vw := [vd], mr := msk :: u.mr } s)
    (hf : NoTrap s (activeFlags (s.maskVal msk) w (xs s) ||| fl)) (ho : InOrder s (.v vd) lat) :
    vecOut u vd msk w xs fl lat s =
      (s.withFlight (.v vd) (vecOf w ((xs s).map (·.1))) (laneBits (s.maskVal msk)) lat).aDone
        (activeFlags (s.maskVal msk) w (xs s) ||| fl) := by
  unfold vecOut
  simp only [gate_ok .a (hu.withPw [(.v vd, lat)]) (by simpa using ho), setFlags_ok hf, produce_flags_ok hs ho, bind, Except.bind, pure, Except.pure, run]
  simp only [State.aDone, State.withFlight]
  rw [hs.updMe]
  rfl

end Sys2Proof.Machine
end

