-- ==== Sys2Proof/Tests/Slice0.lean ====
section
/-! SUPPORT. Tests of the model: terms that no encoding has, words written out from the manual's encodings, single steps
whose results the manual gives, and for each statement a state that meets its hypotheses. -/

namespace Sys2Proof.Tests

set_option Elab.async false

open Sys2Proof Sys2Proof.Machine

/-! Words. -/

/-- The header of a bundle of two slots with stall count n, and that of a lone bundle. -/
def hs (n : Nat) : Hdr := { st := BitVec.ofNat 3 n, lit := none }

def hl (k : BitVec 32) : Hdr := { st := 0#3, lit := some k }

def readsC (w : Nat) (i : Instr) : Bool :=
  match decodeC w 0 with
  | .ok j => j == i
  | .error _ => false

def readsA (w : Nat) (i : Instr) : Bool :=
  match decodeA w with
  | .ok j => j == i
  | .error _ => false

def checkC (xs : List (Nat × Instr)) : Bool := xs.all fun x => readsC x.1 x.2

def checkA (xs : List (Nat × Instr)) : Bool := xs.all fun x => readsA x.1 x.2

def failsC (w : Nat) (e : DecErr) : Bool :=
  match decodeC w 0 with
  | .ok _ => false
  | .error x => x == e

def failsA (w : Nat) (e : DecErr) : Bool :=
  match decodeA w with
  | .ok _ => false
  | .error x => x == e

/-- The words of C-slot instructions that chapters 5, 7, 8, 9 and 10 print as examples. -/
theorem test_manual_words_c : checkC [
    (0x01464004, .bcNez (hs 0) (.s 3#4) 4#14),
    (0x02882180, .create (hs 0) (.s 4#4) (.s 2#4) (.s 3#4)),
    (0x02882181, .createRev (hs 0) (.s 4#4) (.s 2#4) (.s 3#4)),
    (0x02922182, .createDet (hs 0) (.s 9#4) (.s 2#4) (.s 3#4) false),
    (0x02CA4000, .sync (hs 0) (.s 5#4) (.s 4#4)),
    (0x04C05001, .barcfg (hs 0) (.s 5#4) .core 1#3),
    (0x04800001, .bar (hs 0) .core 1#3),
    (0x0480000A, .bar (hs 0) .quad 2#3),
    (0x00863010, .lih (hs 0) (.s 3#4) (.s 3#4) 0x10#12),
    (0x00C84064, .addi (hs 0) (.s 4#4) (.s 4#4) 100#12),
    (0x050A2922, .ld (hs 0) (.s 5#4) (.s 2#4) { sz := 2#2, ord := 1#2, sc := .quad, dsp := 2#5 }),
    (0x05461403, .lds (hs 0) (.s 3#4) (.s 1#4) { sz := 1#2, ord := 0#2, sc := .core, dsp := 3#5 }),
    (0x05881E40, .st (hs 0) (.s 4#4) (.s 1#4) { sz := 3#2, ord := 2#2, sc := .die, dsp := 0#5 }),
    (0x05C81400, .ldfe (hs 0) (.s 4#4) (.s 1#4) { ord := 0#2, sc := .core, dsp := 0#5 }),
    (0x05C61800, .stef (hs 0) (.s 3#4) (.s 1#4) { ord := 0#2, sc := .core, dsp := 0#5 }),
    (0x05C62C02, .stf (hs 0) (.s 3#4) (.s 2#4) { ord := 0#2, sc := .core, dsp := 2#5 }),
    (0x064A2183, .amoAdd (hs 0) (.s 5#4) (.s 2#4) (.s 3#4) false 3#2),
    (0x064A21CC, .amoFadd (hs 0) (.s 5#4) (.s 2#4) (.s 3#4) true 0#2),
    (0x08041000, .vld (hs 0) 2#4 (.s 1#4) 0#2),
    (0x08041181, .vldStr (hs 0) 2#4 (.s 1#4) (.s 3#4) 0#2),
    (0x08001002, .vldt (hs 0) 0#4 (.s 1#4) 0#2),
    (0x08441000, .vst (hs 0) 2#4 (.s 1#4) 0#2),
    (0x08862202, .vgth (hs 0) 3#4 (.s 2#4) 4#4 0#2 .word),
    (0x08C62220, .vsct (hs 0) 3#4 (.s 2#4) 4#4 1#2 .byte),
    (0x09022181, .vldx (hs 0) 1#4 (.s 2#4) (.s 3#4) 0#2 .bf16),
    (0x0944218A, .vldm (hs 0) 2#4 (.s 2#4) (.s 3#4) 0#2 .bf16 .e2m3),
    (0x0A0510C0, .tdef (hs 0) 5#6 (.s 2#4) (.s 3#4)),
    (0x0A452000, .tarm (hs 0) 5#6 (.s 4#4)),
    (0x0A850000, .trel (hs 0) 5#6),
    (0x0AC50000, .twait (hs 0) 5#6),
    (0x0B050180, .tstat (hs 0) 5#6 (.s 6#4)),
    (0x0BC50000, .mls (hs 0) 5#6),
    (0x0C000000, .mswp (hs 0)),
    (0x0C460005, .mma (hs 0) 6#6 true 1#2),
    (0x0C860000, .mmasp (hs 0) 6#6 false 0#2),
    (0x0CC71002, .mmag (hs 0) 7#6 (.s 2#4) false 2#2),
    (0x0D400007, .mzeroFp (hs 0) 3#2),
    (0x0D090004, .mdrn (hs 0) 9#6 (.s 0#4) false 1#3 0#2),
    (0x0D091019, .mdrn (hs 0) 9#6 (.s 2#4) false 6#3 1#2),
    (0x0D090042, .mdrn (hs 0) 9#6 (.s 0#4) true 0#3 2#2),
    (0x0D800141, .mstat (hs 0) (.s 5#4) 1#2),
    (0x0DCC0000, .mxsw (hs 0) 12#6),
    (0x0B4510C0, .cpyG2t (hs 0) 5#6 (.s 2#4) (.s 3#4)),
    (0x0B492159, .cpyT2g (hs 0) 9#6 (.s 4#4) (.s 5#4) .pkg),
    (0x0B4510C2, .cpyMc (hs 0) 5#6 (.s 2#4) (.s 3#4)),
    (0x0B4710C3, .cpyGx (hs 0) 7#6 (.s 2#4) (.s 3#4)),
    (0x0B451184, .cpyX (hs 0) 5#6 (.s 2#4) (.s 6#4)),
    (0x0B851000, .cpyc (hs 0) 5#6 (.s 2#4)),
    (0x0E082000, .rgnDef (hs 0) (.s 4#4) (.s 2#4)),
    (0x0E004001, .rgnRel (hs 0) (.s 4#4)),
    (0x0E4A0002, .csrr (hs 0) (.s 5#4) 2#12),
    (0x0E8A3002, .csrw (hs 0) (.s 5#4) (.s 3#4) 2#12),
    (0x0EF03001, .csrs (hs 0) .zr (.s 3#4) 1#12),
    (0x0F000000, .eret (hs 0)),
    (0x0F000001, .halt (hs 0)),
    (0x0F002182, .ici (hs 0) (.s 2#4) (.s 3#4)),
    (0x0F002183, .tlbw (hs 0) (.s 2#4) (.s 3#4)),
    (0x0F002184, .tlbi (hs 0) (.s 2#4) (.s 3#4)),
    (0x0F085005, .mbox (hs 0) (.s 4#4) (.s 5#4)),
    (0x0F002006, .mresResume (hs 0) (.s 2#4))] = true := by decide +kernel

/-- The words of A-slot instructions that chapters 6 and 8 print as examples. -/
theorem test_manual_words_a : checkA [
    (0x04632001, .add (.s 3#4) (.s 3#4) (.reg (.s 4#4) true)),
    (0x05220C00, .shadd3 (.s 9#4) (.s 2#4) (.reg (.s 1#4) false)),
    (0x08C218C0, .cmpLtn (.s 6#4) (.s 2#4) (.reg (.s 3#4) false)),
    (0x08C201A0, .cmpGt (.s 6#4) (.s 2#4) (.imm 0#10)),
    (0x0CE21880, .mulhn (.s 7#4) (.s 2#4) (.reg (.s 3#4) false)),
    (0x10A21800, .divs (.s 5#4) (.s 2#4) (.reg (.s 3#4) false)),
    (0x14820001, .clz (.s 4#4) (.s 2#4) (.std true)),
    (0x18825888, .bfx (.s 4#4) (.s 2#4) true 11#6 8#6),
    (0x1C82F820, .bfi (.s 4#4) (.s 2#4) 31#6 32#6),
    (0x20A21980, .sel (.s 5#4) (.s 2#4) (.s 3#4) (.s 6#4)),
    (0x24E320C1, .fdiv (.s 7#4) (.s 3#4) (.s 4#4) { n := false, rm := 1#2 }),
    (0x29021900, .ffma (.s 8#4) (.s 2#4) (.s 3#4) (.s 4#4) { n := false, rm := 0#2 }),
    (0x30C21840, .fcmpLt (.s 6#4) (.s 2#4) (.s 3#4)),
    (0x34A20089, .f2i (.s 5#4) (.s 2#4) true { n := false, rm := 1#2 }),
    (0x40611003, .vadd 3#4 1#4 (.v 2#4) { msk := 0#2, ty := .i32 }),
    (0x40421B06, .vadds 2#4 2#4 (.v 3#4) { msk := 0#2, ty := .i8 }),
    (0x40A118A0, .vmul 5#4 1#4 (.sc (.s 3#4)) { msk := 0#2, ty := .f32 }),
    (0x448110C0, .vfma 4#4 1#4 (.v 2#4) 3#4 { msk := 0#2, ty := .f32 }),
    (0x78E110C6, .vdot4 7#4 1#4 (.v 2#4) 3#4 { msk := 0#2, ty := .i8 }),
    (0x4C6302C0, .vrelu 3#4 3#4 false { msk := 0#2, ty := .f32 }),
    (0x4C6200CA, .vrcp 3#4 2#4 false { msk := 1#2, ty := .f16 }),
    (0x52221905, .vcmpGt 1#2 2#4 (.v 3#4) { msk := 0#2, ty := .i16 }),
    (0x54811480, .vsel 4#4 1#4 (.v 2#4) 2#2 { msk := 0#2, ty := .f32 }),
    (0x58C10040, .vcvt 6#4 1#4 .bf16 false { msk := 0#2, ty := .f32 }),
    (0x5CA20000, .vredSum (.s 5#4) 2#4 false { msk := 0#2, ty := .f32 }),
    (0x60A10003, .vscanSum 5#4 1#4 false { msk := 0#2, ty := .i32 }),
    (0x64811005, .vperm 4#4 1#4 (.v 2#4) { msk := 0#2, ty := .i16 }),
    (0x68430006, .vbcst 2#4 (.s 3#4) { msk := 0#2, ty := .i8 }),
    (0x6C200003, .viota 1#4 { msk := 0#2, ty := .i32 }),
    (0x70C22000, .vext (.s 6#4) 2#4 (.s 4#4) .f32),
    (0x74622003, .vins 3#4 (.s 2#4) (.s 4#4) .i32),
    (0x7E329800, .maluAnd 1#2 2#2 3#2),
    (0x80910000, .mpopCount (.s 4#4) 1#2)] = true := by decide +kernel

/-! One word of every row of the opcode table, its fields placed by R42 and R49 to R60. -/

theorem test_decode_constants : checkC [
    (0x10000000, .cnop (hs 1)),
    (0x20460A5C, .li (hs 2) (.s 3#4) 0xa5c#12),
    (0x30872A5C, .lih (hs 3) (.s 3#4) (.d 2#3) 0xa5c#12),
    (0x40C72A5C, .addi (hs 4) (.s 3#4) (.d 2#3) 0xa5c#12)] = true := by decide +kernel

theorem test_decode_branches_and_calls : checkC [
    (0x51002A5B, .br (hs 5) 0x2a5b#14),
    (0x61642A5B, .bcEqz (hs 6) (.d 2#3) 0x2a5b#14),
    (0x71646A5B, .bcNez (hs 7) (.d 2#3) 0x2a5b#14),
    (0x0164AA5B, .bcLtz (hs 0) (.d 2#3) 0x2a5b#14),
    (0x1164EA5B, .bcGez (hs 1) (.d 2#3) 0x2a5b#14),
    (0x21652A5B, .bcGtz (hs 2) (.d 2#3) 0x2a5b#14),
    (0x31656A5B, .bcLez (hs 3) (.d 2#3) 0x2a5b#14),
    (0x4165AA5B, .bcFull (hs 4) (.d 2#3) 0x2a5b#14),
    (0x5165EA5B, .bcEmpty (hs 5) (.d 2#3) 0x2a5b#14),
    (0x61802A5B, .call (hs 6) 0x2a5b#14),
    (0x71C12000, .callx (hs 7) (.d 2#3)),
    (0x02000000, .ret (hs 0)),
    (0x12412000, .brx (hs 1) (.d 2#3))] = true := by decide +kernel

theorem test_decode_families : checkC [
    (0x22872E00, .create (hs 2) (.s 3#4) (.d 2#3) .ck),
    (0x32872E01, .createRev (hs 3) (.s 3#4) (.d 2#3) .ck),
    (0x42872E02, .createDet (hs 4) (.s 3#4) (.d 2#3) .ck false),
    (0x52C72000, .sync (hs 5) (.s 3#4) (.d 2#3)),
    (0x63012000, .breakFam (hs 6) (.d 2#3)),
    (0x73400000, .endThread (hs 7)),
    (0x03812000, .kill (hs 0) (.d 2#3)),
    (0x13C72000, .fstatStatus (hs 1) (.s 3#4) (.d 2#3)),
    (0x23C72001, .fstatBval (hs 2) (.s 3#4) (.d 2#3)),
    (0x33C72002, .fstatBidx (hs 3) (.s 3#4) (.d 2#3)),
    (0x43C72003, .fstatReplay (hs 4) (.s 3#4) (.d 2#3)),
    (0x54012000, .yieldSlice (hs 5) (.d 2#3)),
    (0x64412000, .travel (hs 6) (.d 2#3))] = true := by decide +kernel

theorem test_decode_barriers_and_trap : checkC [
    (0x7480001D, .bar (hs 7) .pkg 5#3),
    (0x04C1201D, .barcfg (hs 0) (.d 2#3) .pkg 5#3),
    (0x57C00013, .trap (hs 5) 0x13#5)] = true := by decide +kernel

theorem test_decode_loads_and_stores : checkC [
    (0x15072935, .ld (hs 1) (.s 3#4) (.d 2#3) { sz := 2#2, ord := 1#2, sc := .quad, dsp := 21#5 }),
    (0x25472935, .lds (hs 2) (.s 3#4) (.d 2#3) { sz := 2#2, ord := 1#2, sc := .quad, dsp := 21#5 }),
    (0x35872935, .st (hs 3) (.s 3#4) (.d 2#3) { sz := 2#2, ord := 1#2, sc := .quad, dsp := 21#5 }),
    (0x45C72156, .ldf (hs 4) (.s 3#4) (.d 2#3) { ord := 1#2, sc := .die, dsp := 22#5 }),
    (0x55C72556, .ldfe (hs 5) (.s 3#4) (.d 2#3) { ord := 1#2, sc := .die, dsp := 22#5 }),
    (0x65C72956, .stef (hs 6) (.s 3#4) (.d 2#3) { ord := 1#2, sc := .die, dsp := 22#5 }),
    (0x75C72D56, .stf (hs 7) (.s 3#4) (.d 2#3) { ord := 1#2, sc := .die, dsp := 22#5 }),
    (0x06012000, .feclr (hs 0) (.d 2#3)),
    (0x16072001, .feget (hs 1) (.s 3#4) (.d 2#3)),
    (0x26012002, .feset (hs 2) (.d 2#3))] = true := by decide +kernel

theorem test_decode_atomics : checkC [
    (0x36472E06, .amoAdd (hs 3) (.s 3#4) (.d 2#3) .ck true 2#2),
    (0x46472E0E, .amoAnd (hs 4) (.s 3#4) (.d 2#3) .ck true 2#2),
    (0x56472E16, .amoOr (hs 5) (.s 3#4) (.d 2#3) .ck true 2#2),
    (0x66472E1E, .amoXor (hs 6) (.s 3#4) (.d 2#3) .ck true 2#2),
    (0x76472E26, .amoSmin (hs 7) (.s 3#4) (.d 2#3) .ck true 2#2),
    (0x06472E2E, .amoSmax (hs 0) (.s 3#4) (.d 2#3) .ck true 2#2),
    (0x16472E36, .amoNmin (hs 1) (.s 3#4) (.d 2#3) .ck true 2#2),
    (0x26472E3E, .amoNmax (hs 2) (.s 3#4) (.d 2#3) .ck true 2#2),
    (0x36472E46, .amoSwap (hs 3) (.s 3#4) (.d 2#3) .ck true 2#2),
    (0x46472E4E, .amoFadd (hs 4) (.s 3#4) (.d 2#3) .ck true 2#2),
    (0x56872E06, .cas (hs 5) (.s 3#4) (.d 2#3) .ck true 2#2)] = true := by decide +kernel

theorem test_decode_ordering_and_blocks : checkC [
    (0x66C0002E, .fence (hs 6) true .pkg 2#2),
    (0x77012E04, .cmoClean (hs 7) (.d 2#3) .ck true),
    (0x07012E05, .cmoInval (hs 0) (.d 2#3) .ck true),
    (0x17012E06, .cmoFlush (hs 1) (.d 2#3) .ck true),
    (0x27472E00, .movb (hs 2) (.s 3#4) (.d 2#3) .ck),
    (0x37472E01, .setb (hs 3) (.s 3#4) (.d 2#3) .ck),
    (0x47812E00, .bcfg (hs 4) (.d 2#3) .ck)] = true := by decide +kernel

theorem test_decode_vector_memory : checkC [
    (0x68172040, .vld (hs 6) 11#4 (.d 2#3) 2#2),
    (0x78172E41, .vldStr (hs 7) 11#4 (.d 2#3) .ck 2#2),
    (0x08172042, .vldt (hs 0) 11#4 (.d 2#3) 2#2),
    (0x18572040, .vst (hs 1) 11#4 (.d 2#3) 2#2),
    (0x28572E41, .vstStr (hs 2) 11#4 (.d 2#3) .ck 2#2),
    (0x38572042, .vstt (hs 3) 11#4 (.d 2#3) 2#2),
    (0x489726C1, .vgth (hs 4) 11#4 (.d 2#3) 13#4 2#2 .half),
    (0x58D726C1, .vsct (hs 5) 11#4 (.d 2#3) 13#4 2#2 .half),
    (0x69172E46, .vldx (hs 6) 11#4 (.d 2#3) .ck 2#2 .i8),
    (0x79572E53, .vldm (hs 7) 11#4 (.d 2#3) .ck 2#2 .f16 .e3m2)] = true := by decide +kernel

theorem test_decode_tiles : checkC [
    (0x0A299700, .tdef (hs 0) 41#6 (.d 2#3) .ck),
    (0x1A699000, .tarm (hs 1) 41#6 (.d 2#3)),
    (0x2AA90000, .trel (hs 2) 41#6),
    (0x3AE90000, .twait (hs 3) 41#6),
    (0x4B290700, .tstat (hs 4) 41#6 .ck)] = true := by decide +kernel

theorem test_decode_copies : checkC [
    (0x5B699700, .cpyG2t (hs 5) 41#6 (.d 2#3) .ck),
    (0x6B699719, .cpyT2g (hs 6) 41#6 (.d 2#3) .ck .pkg),
    (0x7B699382, .cpyMc (hs 7) 41#6 (.d 2#3) (.s 14#4)),
    (0x0B699383, .cpyGx (hs 0) 41#6 (.d 2#3) (.s 14#4)),
    (0x1B699384, .cpyX (hs 1) 41#6 (.d 2#3) (.s 14#4)),
    (0x2BA99000, .cpyc (hs 2) 41#6 (.d 2#3))] = true := by decide +kernel

theorem test_decode_matrix : checkC [
    (0x3BE90000, .mls (hs 3) 41#6),
    (0x4C000000, .mswp (hs 4)),
    (0x5C690006, .mma (hs 5) 41#6 true 2#2),
    (0x6CA90006, .mmasp (hs 6) 41#6 true 2#2),
    (0x7CE99006, .mmag (hs 7) 41#6 (.d 2#3) true 2#2),
    (0x0D29905A, .mdrn (hs 0) 41#6 (.d 2#3) true 6#3 2#2),
    (0x1D400002, .mzeroInt (hs 1) 2#2),
    (0x2D400006, .mzeroFp (hs 2) 2#2),
    (0x3D800702, .mstat (hs 3) .ck 2#2),
    (0x4DE90000, .mxsw (hs 4) 41#6)] = true := by decide +kernel

theorem test_decode_regions_and_csrs : checkC [
    (0x5E072000, .rgnDef (hs 5) (.s 3#4) (.d 2#3)),
    (0x6E012001, .rgnRel (hs 6) (.d 2#3)),
    (0x7E460103, .csrr (hs 7) (.s 3#4) 0x103#12),
    (0x0E872103, .csrw (hs 0) (.s 3#4) (.d 2#3) 0x103#12),
    (0x1EC72103, .csrs (hs 1) (.s 3#4) (.d 2#3) 0x103#12)] = true := by decide +kernel

theorem test_decode_system : checkC [
    (0x2F000000, .eret (hs 2)),
    (0x3F000001, .halt (hs 3)),
    (0x4F012E02, .ici (hs 4) (.d 2#3) .ck),
    (0x5F012E03, .tlbw (hs 5) (.d 2#3) .ck),
    (0x6F012E04, .tlbi (hs 6) (.d 2#3) .ck),
    (0x7F072005, .mbox (hs 7) (.s 3#4) (.d 2#3)),
    (0x0F012006, .mresResume (hs 0) (.d 2#3))] = true := by decide +kernel

theorem test_decode_integer_arithmetic : checkA [
    (0x00000000, .nop),
    (0x0472B02D, .add (.s 3#4) (.d 2#3) (.imm 0b1011001101#10)),
    (0x0472E041, .sub (.s 3#4) (.d 2#3) (.reg .ck true)),
    (0x0472B0AD, .and (.s 3#4) (.d 2#3) (.imm 0b1011001101#10)),
    (0x0472E0C1, .or (.s 3#4) (.d 2#3) (.reg .ck true)),
    (0x0472B12D, .xor (.s 3#4) (.d 2#3) (.imm 0b1011001101#10)),
    (0x0472E141, .andn (.s 3#4) (.d 2#3) (.reg .ck true)),
    (0x0472B1AD, .shl (.s 3#4) (.d 2#3) (.imm 0b1011001101#10)),
    (0x0472E1C1, .shr (.s 3#4) (.d 2#3) (.reg .ck true)),
    (0x0472B22D, .sar (.s 3#4) (.d 2#3) (.imm 0b1011001101#10)),
    (0x0472E241, .rol (.s 3#4) (.d 2#3) (.reg .ck true)),
    (0x0472B2AD, .min (.s 3#4) (.d 2#3) (.imm 0b1011001101#10)),
    (0x0472E2C1, .max (.s 3#4) (.d 2#3) (.reg .ck true)),
    (0x0472B32D, .minn (.s 3#4) (.d 2#3) (.imm 0b1011001101#10)),
    (0x0472E341, .maxn (.s 3#4) (.d 2#3) (.reg .ck true)),
    (0x0472B3AD, .shadd1 (.s 3#4) (.d 2#3) (.imm 0b1011001101#10)),
    (0x0472E3C1, .shadd2 (.s 3#4) (.d 2#3) (.reg .ck true)),
    (0x0472B42D, .shadd3 (.s 3#4) (.d 2#3) (.imm 0b1011001101#10)),
    (0x0460E441, .mov (.s 3#4) (.reg .ck true))] = true := by decide +kernel

theorem test_decode_integer_comparisons : checkA [
    (0x0872B02D, .cmpEq (.s 3#4) (.d 2#3) (.imm 0b1011001101#10)),
    (0x0872E041, .cmpNe (.s 3#4) (.d 2#3) (.reg .ck true)),
    (0x0872B0AD, .cmpLt (.s 3#4) (.d 2#3) (.imm 0b1011001101#10)),
    (0x0872E0C1, .cmpLtn (.s 3#4) (.d 2#3) (.reg .ck true)),
    (0x0872B12D, .cmpLe (.s 3#4) (.d 2#3) (.imm 0b1011001101#10)),
    (0x0872E141, .cmpLen (.s 3#4) (.d 2#3) (.reg .ck true)),
    (0x0872B1AD, .cmpGt (.s 3#4) (.d 2#3) (.imm 0b1011001101#10)),
    (0x0872E1C1, .cmpGtn (.s 3#4) (.d 2#3) (.reg .ck true))] = true := by decide +kernel

theorem test_decode_multiplication_and_division : checkA [
    (0x0C72B02D, .mul (.s 3#4) (.d 2#3) (.imm 0b1011001101#10)),
    (0x0C72E041, .mulhs (.s 3#4) (.d 2#3) (.reg .ck true)),
    (0x0C72B0AD, .mulhn (.s 3#4) (.d 2#3) (.imm 0b1011001101#10)),
    (0x0C72E0C1, .mulhsn (.s 3#4) (.d 2#3) (.reg .ck true)),
    (0x1072B02D, .divs (.s 3#4) (.d 2#3) (.imm 0b1011001101#10)),
    (0x1072E041, .divn (.s 3#4) (.d 2#3) (.reg .ck true)),
    (0x1072B0AD, .rems (.s 3#4) (.d 2#3) (.imm 0b1011001101#10)),
    (0x1072E0C1, .remn (.s 3#4) (.d 2#3) (.reg .ck true))] = true := by decide +kernel

theorem test_decode_unary : checkA [
    (0x14720001, .clz (.s 3#4) (.d 2#3) (.std true)),
    (0x14720041, .ctz (.s 3#4) (.d 2#3) (.std true)),
    (0x14720081, .popc (.s 3#4) (.d 2#3) (.std true)),
    (0x147200C1, .not (.s 3#4) (.d 2#3) (.std true)),
    (0x14720101, .neg (.s 3#4) (.d 2#3) (.std true)),
    (0x14720141, .bswap (.s 3#4) (.d 2#3) (.std true)),
    (0x14720181, .sexb (.s 3#4) (.d 2#3) (.std true)),
    (0x147201C1, .sexh (.s 3#4) (.d 2#3) (.std true)),
    (0x14720201, .sexw (.s 3#4) (.d 2#3) (.std true)),
    (0x14720241, .zexb (.s 3#4) (.d 2#3) (.std true)),
    (0x14720281, .zexh (.s 3#4) (.d 2#3) (.std true)),
    (0x147202C1, .zexw (.s 3#4) (.d 2#3) (.std true))] = true := by decide +kernel

theorem test_decode_fields_and_selection : checkA [
    (0x187268DA, .bfx (.s 3#4) (.d 2#3) true 0x2d#6 0x1a#6),
    (0x1C72685A, .bfi (.s 3#4) (.d 2#3) 0x2d#6 0x1a#6),
    (0x2072E640, .sel (.s 3#4) (.d 2#3) .ck .ix)] = true := by decide +kernel

theorem test_decode_floating : checkA [
    (0x2472E004, .fadd (.s 3#4) (.d 2#3) .ck { n := true, rm := 0#2 }),
    (0x2472E046, .fsub (.s 3#4) (.d 2#3) .ck { n := true, rm := 2#2 }),
    (0x2472E084, .fmul (.s 3#4) (.d 2#3) .ck { n := true, rm := 0#2 }),
    (0x2472E0C6, .fdiv (.s 3#4) (.d 2#3) .ck { n := true, rm := 2#2 }),
    (0x2472E104, .fmin (.s 3#4) (.d 2#3) .ck { n := true, rm := 0#2 }),
    (0x2472E146, .fmax (.s 3#4) (.d 2#3) .ck { n := true, rm := 2#2 }),
    (0x24720184, .fsqrt (.s 3#4) (.d 2#3) { n := true, rm := 0#2 }),
    (0x247201C6, .fabs (.s 3#4) (.d 2#3) { n := true, rm := 2#2 }),
    (0x24720204, .fneg (.s 3#4) (.d 2#3) { n := true, rm := 0#2 }),
    (0x2472E246, .fcpsgn (.s 3#4) (.d 2#3) .ck { n := true, rm := 2#2 }),
    (0x2872E644, .ffma (.s 3#4) (.d 2#3) .ck .ix { n := true, rm := 0#2 }),
    (0x2C72E646, .fnma (.s 3#4) (.d 2#3) .ck .ix { n := true, rm := 2#2 })] = true := by decide +kernel

theorem test_decode_floating_comparison_and_conversion : checkA [
    (0x3072E000, .fcmpEq (.s 3#4) (.d 2#3) .ck),
    (0x3072E040, .fcmpLt (.s 3#4) (.d 2#3) .ck),
    (0x3072E080, .fcmpLe (.s 3#4) (.d 2#3) .ck),
    (0x3072E0C0, .fcmpUn (.s 3#4) (.d 2#3) .ck),
    (0x3472000C, .i2f (.s 3#4) (.d 2#3) true { n := true, rm := 0#2 }),
    (0x3472004E, .n2f (.s 3#4) (.d 2#3) true { n := true, rm := 2#2 }),
    (0x3472008C, .f2i (.s 3#4) (.d 2#3) true { n := true, rm := 0#2 }),
    (0x347200CE, .f2n (.s 3#4) (.d 2#3) true { n := true, rm := 2#2 }),
    (0x34720104, .f2bf (.s 3#4) (.d 2#3) { n := true, rm := 0#2 }),
    (0x34720146, .bf2f (.s 3#4) (.d 2#3) { n := true, rm := 2#2 }),
    (0x34720184, .f2h (.s 3#4) (.d 2#3) { n := true, rm := 0#2 }),
    (0x347201C6, .h2f (.s 3#4) (.d 2#3) { n := true, rm := 2#2 }),
    (0x34720204, .fcls (.s 3#4) (.d 2#3) { n := true, rm := 0#2 })] = true := by decide +kernel

theorem test_decode_vector_arithmetic : checkA [
    (0x4166C834, .vadd 11#4 6#4 (.sc .ix) { msk := 2#2, ty := .n32 }),
    (0x41666055, .vsub 11#4 6#4 (.v 12#4) { msk := 2#2, ty := .i16 }),
    (0x4166C8B6, .vmul 11#4 6#4 (.sc .ix) { msk := 2#2, ty := .i8 }),
    (0x416660D7, .vdiv 11#4 6#4 (.v 12#4) { msk := 2#2, ty := .n8 }),
    (0x4166C930, .vmin 11#4 6#4 (.sc .ix) { msk := 2#2, ty := .f32 }),
    (0x41666151, .vmax 11#4 6#4 (.v 12#4) { msk := 2#2, ty := .bf16 }),
    (0x4166C9B2, .vand 11#4 6#4 (.sc .ix) { msk := 2#2, ty := .f16 }),
    (0x416661D3, .vor 11#4 6#4 (.v 12#4) { msk := 2#2, ty := .i32 }),
    (0x4166CA34, .vxor 11#4 6#4 (.sc .ix) { msk := 2#2, ty := .n32 }),
    (0x41666255, .vshl 11#4 6#4 (.v 12#4) { msk := 2#2, ty := .i16 }),
    (0x4166CAB6, .vshr 11#4 6#4 (.sc .ix) { msk := 2#2, ty := .i8 }),
    (0x416662D7, .vsar 11#4 6#4 (.v 12#4) { msk := 2#2, ty := .n8 }),
    (0x4166CB30, .vadds 11#4 6#4 (.sc .ix) { msk := 2#2, ty := .f32 }),
    (0x41666351, .vsubs 11#4 6#4 (.v 12#4) { msk := 2#2, ty := .bf16 }),
    (0x4166CBB2, .vabsd 11#4 6#4 (.sc .ix) { msk := 2#2, ty := .f16 }),
    (0x45666253, .vfma 11#4 6#4 (.v 12#4) 9#4 { msk := 2#2, ty := .i32 }),
    (0x4966CA74, .vfnma 11#4 6#4 (.sc .ix) 9#4 { msk := 2#2, ty := .n32 }),
    (0x79666255, .vdot4 11#4 6#4 (.v 12#4) 9#4 { msk := 2#2, ty := .i16 })] = true := by decide +kernel

theorem test_decode_vector_unary : checkA [
    (0x4D660036, .vabs 11#4 6#4 true { msk := 2#2, ty := .i8 }),
    (0x4D660077, .vneg 11#4 6#4 true { msk := 2#2, ty := .n8 }),
    (0x4D6600B0, .vsqrt 11#4 6#4 true { msk := 2#2, ty := .f32 }),
    (0x4D6600F1, .vrcp 11#4 6#4 true { msk := 2#2, ty := .bf16 }),
    (0x4D660132, .vrsq 11#4 6#4 true { msk := 2#2, ty := .f16 }),
    (0x4D660173, .vex2 11#4 6#4 true { msk := 2#2, ty := .i32 }),
    (0x4D6601B4, .vlg2 11#4 6#4 true { msk := 2#2, ty := .n32 }),
    (0x4D6601F5, .vmov 11#4 6#4 true { msk := 2#2, ty := .i16 }),
    (0x4D660236, .vnot 11#4 6#4 true { msk := 2#2, ty := .i8 }),
    (0x4D660277, .vclz 11#4 6#4 true { msk := 2#2, ty := .n8 }),
    (0x4D6602B0, .vpopc 11#4 6#4 true { msk := 2#2, ty := .f32 }),
    (0x4D6602F1, .vrelu 11#4 6#4 true { msk := 2#2, ty := .bf16 })] = true := by decide +kernel

theorem test_decode_vector_comparison_and_selection : checkA [
    (0x5266C832, .vcmpEq 3#2 6#4 (.sc .ix) { msk := 2#2, ty := .f16 }),
    (0x52666053, .vcmpNe 3#2 6#4 (.v 12#4) { msk := 2#2, ty := .i32 }),
    (0x5266C8B4, .vcmpLt 3#2 6#4 (.sc .ix) { msk := 2#2, ty := .n32 }),
    (0x526660D5, .vcmpLe 3#2 6#4 (.v 12#4) { msk := 2#2, ty := .i16 }),
    (0x5266C936, .vcmpGt 3#2 6#4 (.sc .ix) { msk := 2#2, ty := .i8 }),
    (0x52666157, .vcmpGe 3#2 6#4 (.v 12#4) { msk := 2#2, ty := .n8 }),
    (0x5266C9B0, .vcmpUn 3#2 6#4 (.sc .ix) { msk := 2#2, ty := .f32 }),
    (0x526661D1, .vcmpOrd 3#2 6#4 (.v 12#4) { msk := 2#2, ty := .bf16 }),
    (0x5566CC72, .vsel 11#4 6#4 (.sc .ix) 1#2 { msk := 2#2, ty := .f16 }),
    (0x59660273, .vcvt 11#4 6#4 .e5m2 true { msk := 2#2, ty := .i32 })] = true := by decide +kernel

theorem test_decode_reductions : checkA [
    (0x5C660034, .vredSum (.s 3#4) 6#4 true { msk := 2#2, ty := .n32 }),
    (0x5C660075, .vredMin (.s 3#4) 6#4 true { msk := 2#2, ty := .i16 }),
    (0x5C6600B6, .vredMax (.s 3#4) 6#4 true { msk := 2#2, ty := .i8 }),
    (0x5C6600F7, .vredAnd (.s 3#4) 6#4 true { msk := 2#2, ty := .n8 }),
    (0x5C660130, .vredOr (.s 3#4) 6#4 true { msk := 2#2, ty := .f32 }),
    (0x5C660171, .vredXor (.s 3#4) 6#4 true { msk := 2#2, ty := .bf16 }),
    (0x61660032, .vscanSum 11#4 6#4 true { msk := 2#2, ty := .f16 }),
    (0x61660073, .vscanMax 11#4 6#4 true { msk := 2#2, ty := .i32 })] = true := by decide +kernel

theorem test_decode_elements : checkA [
    (0x6566C834, .vperm 11#4 6#4 (.sc .ix) { msk := 2#2, ty := .n32 }),
    (0x697B0015, .vbcst 11#4 .fd { msk := 2#2, ty := .i16 }),
    (0x6D600016, .viota 11#4 { msk := 2#2, ty := .i8 }),
    (0x7066D007, .vext (.s 3#4) 6#4 .ci .n8),
    (0x757BD000, .vins 11#4 .fd .ci .f32)] = true := by decide +kernel

theorem test_decode_masks : checkA [
    (0x7E719000, .maluAnd 3#2 1#2 2#2),
    (0x7E719040, .maluOr 3#2 1#2 2#2),
    (0x7E719080, .maluXor 3#2 1#2 2#2),
    (0x7E7190C0, .maluAndn 3#2 1#2 2#2),
    (0x7E710100, .maluNot 3#2 1#2),
    (0x7E600140, .maluSet 3#2),
    (0x7E600180, .maluClr 3#2),
    (0x80710000, .mpopCount (.s 3#4) 1#2),
    (0x80710040, .mpopFirst (.s 3#4) 1#2)] = true := by decide +kernel

/-- The three operations of MRES share one word, and EXT has its own, in a lone bundle (R58, R256). -/
theorem test_decode_mres_and_ext :
    readsC 0x7F012006 (.mresResume (hs 7) (.d 2#3)) = true ∧
    (decodeC 0x8F400000 5).toOption = some (.ext (hl 5#32)) ∧ failsC 0x0F400000 .illopC = true := by decide +kernel

/-- A lone bundle's literal stands for the immediate, the offset or the displacement, whose field must be 0 (R43). -/
theorem test_decode_lone :
    (decodeC 0x80460000 0x80000001).toOption = some (.li (hl 0x80000001#32) (.s 3#4) 0#12) ∧
    (decodeC 0x80460001 0).toOption = none ∧
    (decodeC 0x81800000 0xFFFFFFFF).toOption = some (.call (hl 0xFFFFFFFF#32) 0#14) ∧
    (decodeC 0x850A2C00 8).toOption = some (.ld (hl 8#32) (.s 5#4) (.s 2#4) { sz := 3#2, ord := 0#2, sc := .core, dsp := 0#5 }) ∧
    (decodeC 0x850A2C01 8).toOption = none := by decide +kernel

/-- Words that no row has: reserved opcodes, functions, fields and registers (R50, R51, R55 to R57, R59). -/
theorem test_decode_rejects :
    [0x09800000, 0x0FC00000, 0x03C00004, 0x06000003, 0x06400050, 0x07000003, 0x07400002, 0x08000003, 0x0B400005, 0x0D000020,
      0x0E000002, 0x0F000007].all (fun w => failsC w .illopC) = true ∧
    [0x00000001, 0x00420000 + 0x1000, 0x01004000, 0x02000080, 0x04800028, 0x07C00020, 0x0A800040, 0x0D400008].all (fun w =>
      failsC w (.rsvfldC w)) = true ∧
    [0x007A0000, 0x01C1D000, 0x08280000, 0x0B4513C2].all (fun w => failsC w (.rsvregC w)) = true ∧
    [0x38000000, 0x84000000, 0x04000480, 0x14000300].all (fun w => failsA w .illopA) = true ∧
    [0x00000001, 0x04000002, 0x20000001, 0x24000008, 0x7C000001].all (fun w => failsA w .rsvfldA) = true ∧
    [0x07A00000, 0x42000000, 0x7C000000].all (fun w => failsA w .rsvregA) = true := by decide +kernel

/-! Terms that no encoding has: one for each check of Instr.wf and of wfPair. -/

theorem test_wf_refuses_fields_beside_a_literal :
    [.li (hl 1#32) .zr 1#12, .lih (hl 1#32) .zr .zr 1#12, .addi (hl 1#32) .zr .zr 1#12, .call (hl 1#32) 1#14,
      .ld (hl 1#32) .zr .zr { sz := 0#2, ord := 0#2, sc := .core, dsp := 1#5 },
      .lds (hl 1#32) .zr .zr { sz := 0#2, ord := 0#2, sc := .core, dsp := 1#5 },
      .st (hl 1#32) .zr .zr { sz := 0#2, ord := 0#2, sc := .core, dsp := 1#5 },
      .ldf (hl 1#32) .zr .zr { ord := 0#2, sc := .core, dsp := 1#5 },
      .ldfe (hl 1#32) .zr .zr { ord := 0#2, sc := .core, dsp := 1#5 },
      .stef (hl 1#32) .zr .zr { ord := 0#2, sc := .core, dsp := 1#5 },
      .stf (hl 1#32) .zr .zr { ord := 0#2, sc := .core, dsp := 1#5 }].all (fun i => !Instr.wf i) = true := by decide

theorem test_wf_refuses_operands :
    [.cpyMc (hs 0) 0#6 .zr (.s 15#4), .cpyGx (hs 0) 0#6 .zr .zr, .cpyX (hs 0) 0#6 .zr (.d 0#3),
      .mdrn (hs 0) 0#6 (.s 1#4) false 0#3 0#2, .csrr (hs 0) .zr 0x005#12, .csrw (hs 0) .zr .zr 0x022#12,
      .csrs (hs 0) .zr .zr 0x145#12, .ext (hs 0)].all (fun i => !Instr.wf i) = true := by decide

theorem test_wf_accepts :
    [.li (hl 1#32) .zr 0#12, .li (hs 7) .zr 1#12, .cpyMc (hs 0) 0#6 .zr (.s 14#4), .mdrn (hs 0) 0#6 (.s 1#4) false 6#3 0#2,
      .csrr (hs 0) .zr 0x144#12, .ext (hl 1#32)].all Instr.wf = true := by decide

theorem test_wf_pairs :
    wfPair (.movb (hs 0) (.s 1#4) (.s 2#4) (.s 3#4)) (.mov .zr (.imm 0#10)) = false ∧
    wfPair (.movb (hs 0) (.s 1#4) (.s 1#4) (.s 3#4)) .nop = false ∧
    wfPair (.movb (hs 0) (.s 1#4) (.s 2#4) (.s 1#4)) .nop = false ∧
    wfPair (.movb (hs 0) (.s 1#4) (.s 2#4) (.s 2#4)) .nop = false ∧
    wfPair (.setb (hs 0) (.s 1#4) (.s 2#4) (.s 3#4)) (.mov .zr (.imm 0#10)) = false ∧
    wfPair (.setb (hs 0) (.s 1#4) (.s 2#4) (.s 1#4)) .nop = false ∧
    wfPair (.setb (hs 0) (.s 1#4) (.s 1#4) (.s 3#4)) .nop = true ∧
    wfPair (.movb (hs 0) (.s 1#4) (.s 2#4) (.s 3#4)) .nop = true := by decide

/-! States for the witnesses. -/

/-- A user thread of a window of sixteen locals that hold xs, with every vector register present. -/
def thr (xs : List W64) : Thread :=
  { Thread.blank with
    uid := 7, l := 16, vn := 16, pc := 0x1000#64
    regs := { Regs.start with
      s := Vector.ofFn fun i => SCell.full (xs.getD i.val 0#64), v := Vector.replicate 16 (VCell.full 0x4000_3F80_0003_FF02#4096) } }

/-- A device in full service whose partition 0 has supergroup 0, with that thread in slot 0 of core 0. -/
def base (xs : List W64) : State :=
  ({ State.reset with
    agenda := [], ctr := 100, parts := [{ Part.fresh 0 with valid := true, sgs := 1#20 }]
    dev := { Device.fresh with service := .full, mhz := Vector.replicate 4 1200 } }).setThread 0 0 (some (thr xs))

/-- As base, at system privilege. -/
def sysBase (xs : List W64) : State := (base xs).updMe fun t => { t with sys := true }

/-- s with bytes in the scratchpad of core 0. -/
def inScratch (s : State) (off : Nat) (bs : List Byte) : State :=
  { s with mem := Memory.putAll s.mem (scratchPa 0 off) bs }

/-- The bytes of dwords. -/
def dwords (ws : List Nat) : List Byte := ws.flatMap fun w => toLe 8 w

/-- s at the machine step e. -/
def evAt (s : State) (e : Ev) : State := { s with evt := e }

/-- The issuing thread with its bundle's answer v. -/
def answered (s : State) (v : W64) : State := s.updMe fun t => { t with hold := .done v }

/-- A family of n members, allocated on core 0 in entry 0 by the thread of slot 0. -/
def fam0 (n : Nat) : Family :=
  { uid := 20, id := famId 1#32 0 0, cid := 0, ent := 0, kind := .alloc, st := .running,
    desc := { start := 0, limit := n, step := 1, ind := false, body := 0x3000#64, block := 0, hsrc := 0, gsrc := 0, v := 1,
              l := 2, s := 1, g := 1 }
    place := { cores := [0], cyclic := false, fallback := 0#2, dcores := [] }, n := n, det := false, rev := none,
    inRev := none, task := none, part := 0, slice := none, parentFam := none, parentUid := 7, parentCid := 0,
    parentSlot := 0, globals := [9#64], init := [8#64], start := { fmode := 0#64, wlim := 0#64, chk := 0#64 },
    shares := [{ cid := 0, slots := [1], next := 1, stride := 1, left := n - 1, live := [0], started := 1, ended := 0 }]
    links := [], outs := [], brk := none,
    flags := fNone, ended := .none, replay := 0, side := false, synced := false, doneAt := 0,
    away := false, ctr := none }

/-- s with that family, of two members. -/
def withFam (s : State) : State :=
  { s.updCore 0 fun c => { c with ents := c.ents.set 0 (some 20), gens := c.gens.set 0 1#32 } with fams := [fam0 2] }

/-! What the witnesses show of a thread. -/

/-- As Usable, for a thread without chk. -/
def usableB (u : Uses) (s : State) : Bool :=
  (u.sr ++ u.sw).all (fun r => !s.me.outside r) && (u.vr ++ u.vw).all (fun n => decide (n.toNat < s.me.vn)) &&
    u.sw.all (fun r => !s.me.readOnly r) && (u.sr.filterMap s.me.cell).all (fun c => c.pres && c.fail.isNone) &&
    u.vr.all (fun n => (s.me.regs.v.get n.toFin).pres && (s.me.regs.v.get n.toFin).fail.isNone) &&
    (u.sw.filterMap s.me.cell).all (fun c => !c.pend) && u.vw.all (fun n => !(s.me.regs.v.get n.toFin).pend) &&
    !s.me.csr.chk.getLsbD 0 && u.sr.all (fun r => !s.me.unacquired r)

theorem usable_of {u : Uses} {s : State} (h : usableB u s = true) : Usable u s := by
  simp only [usableB, Bool.and_eq_true, List.all_eq_true, Bool.not_eq_eq_eq_not, Bool.not_true, decide_eq_true_eq,
    Option.isNone_iff_eq_none] at h
  obtain ⟨⟨⟨⟨⟨⟨⟨⟨h1, h2⟩, h3⟩, h4⟩, h5⟩, h6⟩, h7⟩, h8⟩, h9⟩ := h
  exact ⟨h1, h2, h3, h4, h5, h6, h7, fun h => absurd (h8.symm.trans h) (by decide), h9⟩

/-- As Unhindered, decided. -/
def unhinderedB (s : State) (r : Req) : Bool :=
  decide (r.st = .sent) && !s.blocks r && !s.fenceWaits r && !s.slotsShort r && !r.spans.any (fun x => s.waking x.1) &&
    !(r.l1 && s.evictsSpoilt r.who.cid r.pa) && !(r.rel && r.wide && (s.core r.who.cid).l1.any fun l => l.dirty != 0#32)

theorem unhindered_of {s : State} {r : Req} (h : unhinderedB s r = true) : s.Unhindered r := by
  simp only [unhinderedB, Bool.and_eq_true, decide_eq_true_eq, Bool.not_eq_eq_eq_not, Bool.not_true] at h
  obtain ⟨⟨⟨⟨⟨⟨h1, h2⟩, h3⟩, h4⟩, h5⟩, h6⟩, h7⟩ := h
  exact ⟨h1, h2, h3, h4, h5, h6, h7⟩

/-- An outcome is a next state of which p holds. -/
def nextB (o : Host.Outcome State Fault Refusal) (p : State → Bool) : Bool :=
  match o with
  | .next t => p t
  | _ => false

/-- The step e answers a next state of which p holds. -/
def stepsB (e : Ev) (s : State) (p : State → Bool) : Bool := nextB (exec e.instr { s with evt := e }) p

/-- A thread stands in the issuing slot, within its budget, and the registers of u may be used. -/
def Ready (u : Uses) (s : State) : Prop := s.Stands ∧ InBudget s ∧ Usable u s

theorem ready_of {u : Uses} {s : State}
    (h : decide (s.cur.slot < 17 ∧ s.thread s.cur.cid s.cur.slot = some s.me ∧ s.overBudget = false) && usableB u s) :
    Ready u s := by
  simp only [Bool.and_eq_true, decide_eq_true_eq] at h
  exact ⟨⟨h.1.1, h.1.2.1⟩, .inl h.1.2.2, usable_of h.2⟩

/-- An answer exists and meets a condition. -/
def okB {ε α : Type} (r : Except ε α) (p : α → Bool) : Bool :=
  match r with
  | .ok a => p a
  | .error _ => false

theorem ok_of {ε α : Type} {r : Except ε α} {P : α → Prop} [∀ a, Decidable (P a)] (h : okB r (fun a => decide (P a)) = true) :
    ∃ a, r = .ok a ∧ P a := by
  cases r with
  | ok a => exact ⟨a, rfl, by simpa [okB] using h⟩
  | error e => simp [okB] at h

def xrB (r : Xr) (p : Xl → State → Bool) : Bool :=
  match r with
  | .ok x s => p x s
  | _ => false

theorem xr_of {r : Xr} {P : Xl → State → Prop} [∀ x s, Decidable (P x s)] (h : xrB r (fun x s => decide (P x s)) = true) :
    ∃ x s, r = .ok x s ∧ P x s := by
  cases r with
  | ok x s => exact ⟨x, s, rfl, by simpa [xrB] using h⟩
  | _ => simp [xrB] at h

def someB {α : Type} (r : Option α) (p : α → Bool) : Bool :=
  match r with
  | some a => p a
  | none => false

theorem some_of {α : Type} {r : Option α} {P : α → Prop} [∀ a, Decidable (P a)]
    (h : someB r (fun a => decide (P a)) = true) : ∃ a, r = some a ∧ P a := by
  cases r with
  | some a => exact ⟨a, rfl, by simpa [someB] using h⟩
  | none => simp [someB] at h

/-! A witness for the hypotheses of each statement. -/

/-- The registers of a scalar test: the extremes, and the two that the manual names for a division. -/
def xs0 : List W64 := [0#64, 5#64, 0x8000000000000000#64, 0xFFFFFFFFFFFFFFFF#64, 0x0000000100000000#64]

theorem witness_IntegerArithmeticResults :
    Ready { Uses.none with sr := [.s 2#4, .s 3#4], sw := [.s 1#4] } (base xs0) ∧ NoTrap (base xs0) fNone ∧
      SInOrder (base xs0) (.s 1#4) 1 := by
  refine ⟨ready_of (by decide +kernel), ?_, ?_⟩
  · unfold NoTrap; decide +kernel
  · unfold SInOrder InOrder; decide +kernel

/-- With chk, beside an older flight of the same register that lands in the same cycle. -/
theorem witness_IntegerComparisonResults :
    let s := (base xs0).updMe fun t => { t with
      csr := { t.csr with chk := 1#64 }, issues := 1
      flights := [{ n := 1, dst := .s 1#4, val := 0#4096, mask := 0#4096, land := 1, ep := 0 }] }
    s.Stands ∧ Usable { Uses.none with sr := [.s 2#4, .zr], sw := [.s 1#4] } s ∧ NoTrap s fNone ∧
      SInOrder s (.s 1#4) 1 := by
  refine ⟨by unfold State.Stands; decide +kernel, ?_, by unfold NoTrap; decide +kernel, by unfold SInOrder InOrder; decide +kernel⟩
  constructor <;> decide +kernel

theorem witness_MultiplicationAndDivisionResults :
    Ready { Uses.none with sr := [.s 2#4, .s 0#4], sw := [.s 1#4] } (base xs0) ∧ NoTrap (base xs0) fIDZ ∧
      SInOrder (base xs0) (.s 1#4) 16 := by
  refine ⟨ready_of (by decide +kernel), ?_, ?_⟩
  · unfold NoTrap; decide +kernel
  · unfold SInOrder InOrder; decide +kernel

/-- ZeroDivisorTrap: EIDZ = 1, and a divisor that is 0 at 64 bits, and one that is 0 at 32 bits only. -/
theorem witness_ZeroDivisorTrap :
    let s := (base xs0).updMe fun t => { t with csr := { t.csr with fst := 0x200000#64 } }
    Ready { Uses.none with sr := [.s 2#4, .s 0#4], sw := [.s 1#4] } s ∧
      Ready { Uses.none with sr := [.s 2#4, .s 4#4], sw := [.s 1#4] } s ∧ s.me.csr.fst.getLsbD 21 = true ∧
      s.regVal (.s 0#4) = 0#64 ∧ (s.regVal (.s 4#4)).setWidth 32 = 0#32 :=
  ⟨ready_of (by decide +kernel), ready_of (by decide +kernel), by decide +kernel⟩

theorem witness_IntegerUnaryResults :
    Ready { Uses.none with sr := [.ix], sw := [.zr] } (base xs0) ∧ NoTrap (base xs0) fW ∧ SInOrder (base xs0) .zr 1 := by
  exact ⟨ready_of (by decide +kernel), by unfold NoTrap; decide +kernel, by unfold SInOrder; decide +kernel⟩

theorem witness_BitFieldAndSelectResults :
    Ready { Uses.none with sr := [.s 1#4, .s 2#4, .s 3#4], sw := [.s 1#4] } (base xs0) ∧ NoTrap (base xs0) fW ∧
      SInOrder (base xs0) (.s 1#4) 1 := by
  exact ⟨ready_of (by decide +kernel), by unfold NoTrap; decide +kernel, by unfold SInOrder InOrder; decide +kernel⟩

/-- A sum that overflows and is inexact, its flags not enabled. -/
theorem witness_FloatingArithmeticResults :
    let s := base [0#64, 0x7F7FFFFF#64, 0x7F7FFFFF#64]
    let x := fAdd .f32 .rne (s.regVal (.s 1#4)).toNat (s.regVal (.s 2#4)).toNat
    Ready { Uses.none with sr := [.s 1#4, .s 2#4], sw := [.s 0#4] } s ∧ x.1 = 0x7F800000 ∧ x.2 ≠ fNone ∧ NoTrap s x.2 ∧
      SInOrder s (.s 0#4) 12 := by
  exact ⟨ready_of (by decide +kernel), by decide +kernel, by decide +kernel, by unfold NoTrap; decide +kernel,
    by unfold SInOrder InOrder; decide +kernel⟩

theorem witness_FloatingComparisonAndConversionResults :
    let s := base [0#64, 0x7FC00000#64, 0x3F800000#64]
    Ready { Uses.none with sr := [.s 1#4, .s 2#4], sw := [.s 0#4] } s ∧ NoTrap s (fNV ||| fW) ∧ SInOrder s (.s 0#4) 4 := by
  exact ⟨ready_of (by decide +kernel), by unfold NoTrap; decide +kernel, by unfold SInOrder InOrder; decide +kernel⟩

/-- With a pending extension. -/
theorem witness_ConstantsAndExtension :
    let s := (base xs0).updMe fun t => { t with kext := some 1#32 }
    Ready { Uses.none with sr := [.s 2#4], sw := [.s 1#4] } s ∧ SInOrder s (.s 1#4) 1 ∧ s.me.kext = some 1#32 ∧
      (hl 7#32).lit = some 7#32 := by
  exact ⟨ready_of (by decide +kernel), by unfold SInOrder InOrder; decide +kernel, by decide +kernel, rfl⟩

theorem witness_CommitmentEffect : (base xs0).Stands := by unfold State.Stands; decide +kernel

/-- A register that is present, and one that no cell holds. -/
theorem witness_BranchTargets :
    let s := base xs0
    Ready Uses.none s ∧ Ready { Uses.none with sr := [.s 2#4] } s ∧ s.me.outside (.s 15#4) = false ∧
      s.me.cell (.s 15#4) = some (SCell.full 0#64) ∧ s.me.outside .ck = false ∧ s.me.cell .ck = none :=
  ⟨ready_of (by decide +kernel), ready_of (by decide +kernel), by decide +kernel⟩

/-- The call frame of the thread, in scratch bank 1 through the local alias: spilled entries stand from cfp to 0x48100. -/
def framed (s : State) (cfp cfl : W64) (stack : List W64) : State :=
  s.updMe fun t => { t with depth := 2, rstack := stack, csr := { t.csr with cfp := cfp, cfl := cfl } }

/-- A full stack with no room, and with room for one entry exactly, in the call frame; an empty stack over spilled entries, whose
entry is to be read, and has been. -/
theorem witness_SpillsAndRefills :
    let s := base []
    let stack := (List.range 8).map fun k => BitVec.ofNat 64 (0x2000 + 8 * k)
    let no := framed s 0x48007#64 0x48000#64 stack
    let fits := framed s 0x48008#64 0x48000#64 stack
    let empty := framed s 0x48000#64 0x48000#64 []
    (Ready Uses.none no ∧ no.me.rstack.length = 8 ∧ no.me.csr.cfp.toNat < no.me.csr.cfl.toNat + 8) ∧
    (Ready Uses.none fits ∧ fits.me.rstack.length = 8 ∧ fits.me.csr.cfl.toNat + 8 ≤ fits.me.csr.cfp.toNat ∧
      fits.acqBlocked = false ∧ ∃ a, access fits (fits.me.csr.cfp - 8#64) 8 8 needStore false = .ok a ∧
        fits.roHit a.1.va = false ∧ fits.portFree 0 [fits.homeOf a.1.pa] = true) ∧
    (Ready Uses.none empty ∧ empty.me.rstack = [] ∧ empty.me.depth ≠ 0 ∧ empty.me.hold = .none ∧ empty.acqBlocked = false ∧
      ∃ a, access empty empty.me.csr.cfp 8 8 needLoad false = .ok a ∧ a.2.ownAtomic a.1 8 = false ∧ a.2.awayAt a.1.pa = none ∧
        a.2.slotFor a.1 (a.2.myLevel a.1.va) 8 = true ∧ a.2.meets a.1 (a.2.myLevel a.1.va) true 8 0 = none) ∧
    (let t := answered empty 0x2000#64
     Ready Uses.none t ∧ t.me.rstack = [] ∧ t.me.depth ≠ 0 ∧ t.me.hold = .done 0x2000#64 ∧ (0x2000#64).toNat % 8 = 0) :=
  ⟨⟨ready_of (by decide +kernel), by decide +kernel⟩,
    ⟨ready_of (by decide +kernel), by decide +kernel, by decide +kernel, by decide +kernel, ok_of (by decide +kernel)⟩,
    ⟨ready_of (by decide +kernel), by decide +kernel, by decide +kernel, by decide +kernel, by decide +kernel,
      ok_of (by decide +kernel)⟩,
    ready_of (by decide +kernel), by decide +kernel⟩

/-- Targets at the thread's own bundle, and one bundle on; a return stack with one place left, and an empty one. -/
theorem witness_CallsAndReturns :
    let s := base [0#64, 0x1000#64, 0x1008#64]
    let full := s.updMe fun t => { t with rstack := List.replicate 7 0x2000#64 }
    Ready Uses.none s ∧ Ready { Uses.none with sr := [.s 1#4] } s ∧ Ready { Uses.none with sr := [.s 2#4] } s ∧
      (s.regVal (.s 1#4)).toNat % 8 = 0 ∧ (s.regVal (.s 1#4)).toNat ≤ s.me.pc.toNat ∧
      (s.regVal (.s 2#4)).toNat % 8 = 0 ∧ s.me.pc.toNat < (s.regVal (.s 2#4)).toNat ∧ s.me.rstack = [] ∧ s.me.depth = 0 ∧
      Ready Uses.none full ∧ full.me.rstack.length < 8 ∧ (0x2000#64).toNat % 8 = 0 ∧
      (full.me.pc + 8#64 + ((0x3FFF#14).setWidth 64 <<< 3)).toNat % 8 = 0 ∧
      full.me.rstack = 0x2000#64 :: List.replicate 6 0x2000#64 :=
  ⟨ready_of (by decide +kernel), ready_of (by decide +kernel), ready_of (by decide +kernel), by decide +kernel,
    by decide +kernel, by decide +kernel, by decide +kernel, by decide +kernel, by decide +kernel,
    ready_of (by decide +kernel), by decide +kernel⟩

/-- The walker, steward code without and with a cause in hand, and a user thread. -/
theorem witness_TrapEntry :
    let s := base xs0
    let w := { (s.setThread 0 16 (some { thr xs0 with sys := true })) with cur := { Cur.idle with slot := 16 } }
    let k := sysBase xs0
    let n := k.updMe fun t => { t with csr := { t.csr with estat := 0x101#64 } }
    Ready Uses.none s ∧ s.cur.slot ≠ 16 ∧ s.me.sys = false ∧ w.Stands ∧ w.cur.slot = 16 ∧ k.Stands ∧ k.cur.slot ≠ 16 ∧
      k.me.sys = true ∧ k.me.csr.estat.toNat % 256 = 0 ∧ n.Stands ∧ n.me.sys = true ∧ n.me.csr.estat.toNat % 256 ≠ 0 := by
  refine ⟨ready_of (by decide +kernel), by decide +kernel, by decide +kernel, ?_⟩
  unfold State.Stands; decide +kernel

/-- A thread of one global, four locals and one vector register: its last register, the first behind its window, the global, which it
may not write; a system CSR, one that it may not write, and one that it may. -/
theorem witness_WindowAndPrivilegeTraps :
    let s := (base []).updMe fun t => { t with l := 4, g := 1, vn := 1 }
    s.Stands ∧ s.me.outside (.s 0#4) = false ∧ s.me.readOnly (.s 0#4) = true ∧ s.me.outside (.s 5#4) = true ∧
      s.me.outside (.s 4#4) = false ∧ s.me.readOnly (.s 4#4) = false ∧ s.me.vn ≤ (1#4).toNat ∧ s.me.sys = false ∧
      csrSystem 0x100 = true ∧ csrSystem 0x021 = false ∧ csrReadOnly 0x021 = true ∧ SReg.s 4#4 ≠ .zr ∧ s.cur.slot ≠ 16 := by
  unfold State.Stands; decide +kernel

/-- A flight into a scalar register, into a vector register, into a mask and into m0; a stall count; a shared value for a member
of the writer's core, and one from another core, and no access before either. -/
theorem witness_TimedResultsLand :
    let f (d : FDest) : Flight := { n := 3, dst := d, val := 5#4096, mask := 0xFF#4096, land := 0, ep := 0 }
    let s (d : FDest) : State := evAt ((base xs0).updMe fun t => { t with flights := [f d], stall := some 4 })
      (.fixedLatencyWriteback 0 0 3)
    [FDest.s 15#4, FDest.v 0#4, FDest.m 1#2, FDest.m 0#2].all (fun d =>
      someB ((s d).thread 0 0) fun th => th.flights.find? (fun f => f.n == 3) == some (f d)) = true ∧
    (∃ th, (evAt (s (.s 1#4)) (.stallCountExpiry 0 0 4)).thread 0 0 = some th ∧ th.stall = some 4) ∧
    let w := evAt (withFam (s (.s 1#4))) (.registerWriteMessage 20 1 0 9#64 0 7 60 0)
    (w.unperformed { cid := 0, slot := 0, uid := 7 } false 60 = false) ∧ w.fam 20 = some (fam0 2) ∧
      (fam0 2).links = [] ∧
      (evAt w (.registerWriteMessage 20 1 0 9#64 2 7 60 0)).unperformed { cid := 2, slot := 0, uid := 7 } (0 != 2) 60 = false :=
  ⟨by decide +kernel, some_of (by decide +kernel), by decide +kernel⟩

/-- A request of the thread in slot 0 of core 0, on its way. -/
def rq (kind : ReqKind) (pa n : Nat) : Req :=
  { tok := 50, who := { cid := 0, slot := 0, uid := 7 }, part := 0, kind := kind, va := pa, pa := pa, n := n, lvl := none,
    dst := .none, holds := false, rel := false, acq := false, all := false, wide := false, pod := false, own := false, l1 := false,
    cache := 0, acc := 0, from_ := 0, homes := [], lat := 0, st := .sent, err := none, res := 5#64, vres := [], flags := fNone, issued := 0, limit := none,
    swept := false, lanes := [], parts := [], lam := 0, got := [], bad := none, via := [] }

/-- s with a request, and the step e. -/
def reqAt (s : State) (r : Req) (e : Ev) : State := evAt { s with reqs := [r] } e

/-- The thread of slot 0, waiting at its bundle for request tok. -/
def waits (s : State) (tok : Nat) : State := s.updMe fun t => { t with hold := .busy tok }

/-- A load for s15, one that its bundle waits for, one for two vector registers whose flag is and is not enabled, an acknowledgement,
and errors of each kind. -/
theorem witness_AnswersArrive :
    let s := base xs0
    let f : Fail := { cause := 0x22, addr := 64 }
    let ok (t : State) (r : Req) : Bool := decide (t.req 50 = some r ∧ (t.part r.part).away = false ∧ r.who.slot < 17) &&
      someB (t.thread r.who.cid r.who.slot) fun th => decide (th.uid = r.who.uid ∧ (r.holds = true → th.hold = .busy 50))
    let r1 := { rq (.load false) 64 8 with dst := .s 15#4 }
    let r2 := { rq (.fe .ldf 0#64) 64 8 with holds := true }
    let r3 := { r1 with err := some f }
    let r4 := { r2 with err := some f }
    let r5 := { rq (.store 0#64) 64 8 with err := some f }
    let r6 := { rq (.load false) 64 8 with dst := .v 15#4 2, flags := fNV, vres := [(15#4, 1#4096, 3#4096), (0#4, 1#4096, 3#4096)] }
    let e := s.updMe fun t => { t with csr := { t.csr with fst := 0x10000#64 } }
    (ok (reqAt s r6 (.loadResponse 50)) r6 = true ∧ enabledFlag s.me.csr.fst r6.flags = none ∧ (r6.vres.map (·.1)).Nodup) ∧
    (ok (reqAt e r6 (.loadResponse 50)) r6 = true ∧ enabledFlag e.me.csr.fst r6.flags = some 0) ∧
    ok (reqAt s r1 (.loadResponse 50)) r1 = true ∧ ok (reqAt (waits s 50) r2 (.loadResponse 50)) r2 = true ∧
      ok (reqAt s (rq (.store 0#64) 64 8) (.storeAck 50)) (rq (.store 0#64) 64 8) = true ∧
      ok (reqAt s r3 (.errorResponse 50)) r3 = true ∧ ok (reqAt (waits s 50) r4 (.errorResponse 50)) r4 = true ∧
      ok (reqAt s r5 (.errorResponse 50)) r5 = true := by decide +kernel

/-- A word and its waiter; a wait with its limit; a pop that its bank can serve exactly; a waking bank whose last wake is due; a
held write. -/
theorem witness_FullEmptyOperationsAndWaiters :
    let s := base xs0
    let r := { rq (.fe .ldfe 0#64) 0x40 8 with st := .waiting, holds := true }
    (r.lvl = none ∧ r.pa % 8 = 0) ∧
    (let t := { reqAt s r (.feWaiterServed 0x40 0) with tags := [8] }
     t.reqs.filter (fun r => r.st == .waiting && r.pa / 8 == 0x40 / 8) = [r] ∧ r.kind = .fe .ldfe 0#64 ∧ 0x40 / 8 ∈ t.tags) ∧
    (let t := reqAt (waits s 50) r (.waitlimitExpiry 50)
     t.req 50 = some r ∧ r.st = .waiting ∧ someB (t.thread 0 0) (fun th => th.uid = r.who.uid ∧ th.hold = .busy 50) = true) ∧
    (let p := { rq .pop (scratchPa 0 0x8040) 8 with st := .waiting }
     let t := reqAt (s.updCore 0 fun c => { c with
       bankMode := c.bankMode.set 1 bankFifo, fifos := [{ bank := 1, bytes := toLe 8 77 }] }) p (.fifoWaitServed 0 1)
     t.fifoWaiters 0 1 false = [p] ∧ t.fifoWaiters 0 1 true = [] ∧ t.loc p.pa = .scratch 0 0x8040 ∧ 0x8040 / 0x8000 = 1 ∧
       p.kind = .pop ∧ p.n ≤ ((t.core 0).fifo 1).length) ∧
    (let t := evAt (s.updCore 0 fun c => { c with waking := 0x22#32 }) (.bankWakeDone 0 5)
     (t.agenda.all fun d => d.what != .bankWakeDone 0 5) = true ∧ (t.core 0).waking.getLsbD 5 = true) ∧
    (let t := evAt (s.updPart 0 fun p => { p with heldWrites := [51, 52] }) (.revstoreHoldRelease 0)
     (t.part 0).heldWrites = [51, 52] ∧ t.outCore 51 = none ∧ t.req 51 = none) ∧
    (let w := { rq (.store 5#64) 0x7C 4 with lvl := some 3, acc := 1, st := .waiting }
     let t := reqAt (s.updPart 0 fun p => { p with
       revCap := 1, revs := [{ id := 3, fam := 20, parent := none, snap := [], mem0 := [], vers0 := [] }], heldWrites := [50, 52] }) w (.revstoreHoldRelease 0)
     (t.part 0).heldWrites = [50, 52] ∧ t.outCore 50 = none ∧ t.req 50 = some w ∧ w.st = .waiting ∧ w.pa % 64 + w.n = 64 ∧
       t.homeCause 0 w.own true w.pa w.n w.acc = none ∧ t.storeFull w.part w.lvl w.pa = false) := by decide +kernel

/-- Both stores of a word, each in a request that stands, in memory that stands in order. -/
theorem witness_FullEmptyStores :
    let s := { base [] with mem := Memory.putAll [] 0x40 (toLe 8 0x1122334455667788) }
    let r := rq (.fe .stef 7#64) 0x40 8
    s.Sound ∧ (reqAt s r (.homeRequest 50)).req r.tok = some r ∧ r.lvl = none ∧ r.pa % 8 = 0 := by
  unfold State.Sound; decide +kernel

/-- A store, a load and an atomic of each width, and a vector load and store of two lanes, at device memory; a store and a load through
L1, that miss in it and that hit. -/
theorem witness_StoresAndAtomicsArePerformed :
    let ok (r : Req) (scalar : Bool) : Bool :=
      let s := reqAt { base xs0 with mem := Memory.putAll [] 0x1000 (toLe 8 0x1122334455667788) } r (.homeRequest 50)
      decide (s.req 50 = some r ∧ r.lvl = none ∧ s.keptFor r = none ∧ unhinderedB s r = true ∧
        s.homeCause r.who.cid r.own scalar r.pa r.n r.acc = none ∧ s.loc r.pa = .dram 0 ∧ Memory.wf s.mem = true)
    ok { rq (.store 0xFFFFFFFFFFFFFFFF#64) 0x1007 1 with acc := 1 } true = true ∧
      ok { rq (.store 5#64) 0x1000 8 with acc := 1 } true = true ∧ ok { rq (.amo .add 1#64) 0x1004 4 with acc := 3 } false = true ∧
      ok { rq (.amo .swap 1#64) 0x1000 8 with acc := 3 } false = true ∧
      ok { rq (.cas 0x55667788#64 1#64) 0x1000 4 with acc := 3 } false = true ∧
      ([AmoOp.and, .or, .xor, .smin, .smax, .nmin, .nmax, .fadd].all fun op =>
        ok { rq (.amo op 0xFFFFFFFF00000001#64) 0x1004 4 with acc := 3 } false) = true ∧
      ok (rq (.load true) 0x1006 2) true = true ∧ ok { rq (.load false) 0x1000 8 with l1 := true } true = true ∧
      ok { rq (.store 5#64) 0x1000 8 with acc := 1, l1 := true } true = true ∧ (base xs0).myCore.ways ≠ [] := by decide +kernel

theorem witness_VectorAccessesArePerformed :
    let us : List VUnit := [{ va := 0x1000, pa := 0x1000, n := 4, own := false, l1 := false, cache := 0, reg := 15#4, lo := 0 },
      { va := 0x1004, pa := 0x1004, n := 4, own := false, l1 := false, cache := 0, reg := 15#4, lo := 4064 }]
    let ws := us.map fun u => (u, 7)
    let at_ (r : Req) : State := reqAt { base xs0 with mem := Memory.putAll [] 0x1000 (toLe 8 9) } r (.homeRequest 50)
    let ok (r : Req) : Prop := r.lvl = none ∧ (at_ r).keptFor r = none ∧ unhinderedB (at_ r) r = true ∧
      (at_ r).unitsCause r us = none ∧ r.lanes = us ∧ r.parts = [] ∧ r.got = [] ∧ r.bad = none ∧
      (us.all fun u => !u.l1 && ((at_ r).awayAt u.pa).isNone) = true
    ok { rq (.vload us .plain 0x80000001#128) 0x1000 4 with dst := .v 15#4 1, lanes := us } ∧
      ok { rq (.vstore ws) 0x1000 4 with acc := 1, lanes := us } ∧
      ws.Pairwise (fun a b => a.1.pa + a.1.n ≤ b.1.pa ∨ b.1.pa + b.1.n ≤ a.1.pa) ∧ ws.map (·.1) = us ∧
      Memory.wf (at_ (rq (.vstore ws) 0x1000 4)).mem = true := by decide +kernel

/-- An atomic on a dword of which core 0's L1 holds one byte dirty. -/
theorem witness_AtomicOverDirtyByte :
    let r := { rq (.amo .add 1#64) 0x1000 8 with acc := 3 }
    let s := reqAt ((base xs0).updCore 0 fun c => { c with
      l1 := [{ line := 0x80, data := 7#256, valid := 0xF#32, dirty := 1#32, way := 12, age := 0, bad := false }] }) r (.homeRequest 50)
    s.keptFor r = none ∧ unhinderedB s r = true ∧ s.homeCause 0 false false r.pa r.n r.acc = none ∧ s.loc r.pa = .dram 0 ∧
      someB ((s.core 0).l1Line r.pa) (fun l => !l.bad && l.dirty.getLsbD 0) = true ∧ Memory.wf s.mem = true := by decide +kernel

/-- An access through L1, whose line core 0 holds. -/
theorem witness_L1AccessesArePerformed :
    let ok (r : Req) : Prop :=
      let s := reqAt ((base xs0).updCore 0 fun c => { c with
        l1 := [{ line := 0x80, data := 7#256, valid := 0xF#32, dirty := 1#32, way := 12, age := 0, bad := false }] }) r (.homeRequest 50)
      s.keptFor r = none ∧ unhinderedB s r = true ∧ s.homeCause 0 false true r.pa r.n r.acc = none ∧
        ((s.core 0).l1Line r.pa).isSome = true ∧ (s.core 0).ways ≠ [] ∧ r.l1 = true ∧ r.pa % r.n = 0
    ok { rq (.load false) 0x1000 8 with l1 := true } ∧ ok { rq (.store 5#64) 0x1002 2 with acc := 1, l1 := true } := by
  decide +kernel

/-- Core 0 has the page at 0x200000, at physical 0x300000: readable, writable and tagged for users. -/
def paged (s : State) : State :=
  s.updCore 0 fun c => { c with tlb1 := [{ vpn := 0x20, sz := 0, w1 := 0x30001B#64 }] }

/-- A load, and a store, that the local alias serves at its last scratch byte, and that a page serves. -/
theorem witness_LoadsComplete :
    let s := paged (base [0x5FFFE#64, 0x200000#64])
    let ok (ra : SReg) (dsp : BitVec 5) : Prop :=
      ∃ x s', s.xlate s.cur.cid (s.regVal ra + s.disp (hs 0) dsp 1).toNat 1 1 needLoad (!s.me.sys) (s.cur.slot == 16) false =
        .ok x s' ∧ wTrav x.w1 = false ∧ s.inWindow x.pa 1 = false ∧ s.portFree s.cur.cid [s.homeOf x.pa] = true
    Ready { Uses.none with sr := [.s 0#4], sw := [.s 15#4] } s ∧ Ready { Uses.none with sr := [.s 1#4], sw := [.s 15#4] } s ∧
      s.me.hold = .none ∧ s.acqBlocked = false ∧ ok (.s 0#4) 1#5 ∧ ok (.s 1#4) 31#5 :=
  ⟨ready_of (by decide +kernel), ready_of (by decide +kernel), by decide +kernel, by decide +kernel,
    xr_of (by decide +kernel), xr_of (by decide +kernel)⟩

theorem witness_StoresComplete :
    let s := paged (base [0x5FFFE#64, 0x200000#64])
    let ok (ra : SReg) (dsp : BitVec 5) : Prop :=
      ∃ x s', s.xlate s.cur.cid (s.regVal ra + s.disp (hs 0) dsp 1).toNat 1 1 needStore (!s.me.sys) (s.cur.slot == 16) false =
        .ok x s' ∧ wTrav x.w1 = false ∧ s.inWindow x.pa 1 = false ∧ s.roHit x.va = false ∧
        s.portFree s.cur.cid [s.homeOf x.pa] = true ∧ (x.own = true → s.usesL1 x (s.myLevel x.va) = false)
    Ready { Uses.none with sr := [.s 3#4, .s 0#4] } s ∧ Ready { Uses.none with sr := [.s 3#4, .s 1#4] } s ∧
      s.me.hold = .none ∧ s.acqBlocked = false ∧ ok (.s 0#4) 1#5 ∧ ok (.s 1#4) 31#5 :=
  ⟨ready_of (by decide +kernel), ready_of (by decide +kernel), by decide +kernel, by decide +kernel,
    xr_of (by decide +kernel), xr_of (by decide +kernel)⟩

/-- A word of the scratchpad, for each kind of full/empty access, and a bundle that has its answer. -/
theorem witness_FullEmptyAccessesComplete :
    let s := base [0x5FFF0#64, 3#64]
    let ok (op : FeOp) : Prop := ∃ x s', s.xlate s.cur.cid (s.regVal (.s 0#4) + s.disp (hs 0) 1#5 8).toNat 8 8 op.need
        (!s.me.sys) (s.cur.slot == 16) true = .ok x s' ∧ wTrav x.w1 = false ∧ s.roHit x.va = false ∧
        s.portFree s.cur.cid [s.homeOf x.pa] = true
    Ready { Uses.none with sr := [.s 0#4], sw := [.s 15#4] } s ∧ Ready { Uses.none with sr := [.s 1#4, .s 0#4] } s ∧
      s.me.hold = .none ∧ s.acqBlocked = false ∧ ok .ldf ∧ ok .stef ∧ ok .clr ∧ ok .get ∧
      Ready { Uses.none with sr := [.s 0#4], sw := [.s 15#4] } (answered s 5#64) ∧ (answered s 5#64).me.hold = .done 5#64 :=
  ⟨ready_of (by decide +kernel), ready_of (by decide +kernel), by decide +kernel, by decide +kernel,
    xr_of (by decide +kernel), xr_of (by decide +kernel), xr_of (by decide +kernel), xr_of (by decide +kernel),
    ready_of (by decide +kernel), by decide +kernel⟩

theorem witness_AtomicsComplete :
    let s := base [0x5FFF8#64, 3#64]
    let ok (n : Nat) : Prop := ∃ x s', s.xlate s.cur.cid (s.regVal (.s 0#4)).toNat n n needAtomic (!s.me.sys)
        (s.cur.slot == 16) true = .ok x s' ∧ wTrav x.w1 = false ∧ s.roHit x.va = false ∧
        s.portFree s.cur.cid [s.homeOf x.pa] = true
    Ready { Uses.none with sr := [.s 0#4, .s 1#4], sw := [.s 15#4] } s ∧
      Ready { Uses.none with sr := [.s 15#4, .s 0#4, .s 1#4], sw := [.s 15#4] } s ∧ s.acqBlocked = false ∧ ok 4 ∧ ok 8 :=
  ⟨ready_of (by decide +kernel), ready_of (by decide +kernel), by decide +kernel, xr_of (by decide +kernel),
    xr_of (by decide +kernel)⟩

/-- Core 0 holds a dirty L1 line of that page, and an L2 line of it stands over one byte of HBM. -/
def cached (s : State) : State :=
  { (paged s).updCore 0 fun c => { c with
      l1 := [{ line := 0x18000, data := 7#256, valid := BitVec.allOnes 32, dirty := 1#32, way := 12, age := 0, bad := false }] } with
    l2 := [{ line := 0x3000, sectors := 1#4, wmask := 1#256, under := [(0x300000, 9#8)], age := 0 }] }

/-- Bundles that have their answer, one of them the last byte's; a fence, whose request nothing keeps; and operations over no bytes
and over the lines of a page. -/
theorem witness_OrderingAndBlockOperationsComplete :
    let s := base [0x200000#64, 0x40#64, 0#64]
    let d := answered s 0#64
    let c := cached s
    Ready Uses.none s ∧ s.Sound ∧ s.portFree s.cur.cid [] = true ∧ s.me.hold = .none ∧ s.acqBlocked = false ∧
      nextB (exec (.fence (hs 0) true .quad 3#2) s) (fun t => t.reqs.any fun q => q.kind == .value 0#64 && t.req q.tok == some q &&
        (t.keptFor q).isNone && unhinderedB t q) = true ∧
      Ready { Uses.none with sr := [.s 0#4, .s 2#4] } s ∧ s.regVal (.s 2#4) = 0#64 ∧
      Ready { Uses.none with sr := [.s 0#4, .s 1#4] } d ∧ d.me.hold = .done 0#64 ∧ d.acqBlocked = false ∧ 0#64 ≠ partVal ∧
      Ready { Uses.none with sr := [.s 0#4, .s 1#4, .s 2#4], sw := [.s 0#4, .s 1#4, .s 2#4] } d ∧
      Ready { Uses.none with sr := [.s 0#4, .s 1#4] } c ∧ c.Sound ∧ c.me.hold = .none ∧ inMesh 0x200000 = false ∧
      (∀ nd ∈ [needLoad, needStore], ∃ y, access c (c.regVal (.s 0#4)) 1 1 nd true = .ok y ∧
        (∀ acc < 2, y.2.refusedLine y.1 0x40 256 acc ((List.range (linesOf 256 y.1.pa 0x40)).map (y.1.pa / 256 + ·)) = none ∧
          y.2.refusedLine y.1 0x40 32 acc
            (((y.2.core 0).l1.filter fun l => l.over y.1.pa 0x40 && l.dirty != 0#32).map (·.line)) = none) ∧
        (∀ ls ∈ [(List.range (linesOf 256 y.1.pa 0x40)).map fun i => (y.1.pa / 256 + i) * 256,
            ((y.2.core 0).l1.filter fun l => l.over y.1.pa 0x40 && l.dirty != 0#32).map (·.line * 32), []],
          y.2.portFree y.2.cur.cid ((ls.map y.2.homeOf).eraseDups) = true) ∧
        y.2.spoiltLine y.2.cur.cid (·.over y.1.pa 0x40) = none ∧ ((y.2.core y.2.cur.cid).l1.map (·.line)).Nodup ∧
        ((y.2.core y.2.cur.cid).l1.any fun l => l.over y.1.pa 0x40 && l.dirty.getLsbD 0) = true ∧ y.2.loc y.1.pa = .dram 0 ∧
        (y.2.l2.filter (·.over y.1.pa 0x40)).map (·.under) = [[(0x300000, 9#8)]]) := by
  refine ⟨ready_of ?_, ?_, ?_, ?_, ?_, ?_, ready_of ?_, ?_, ready_of ?_, ?_, ?_, ?_, ready_of ?_, ready_of ?_, ?_, ?_, ?_, ?_⟩
  case refine_18 =>
    simp only [List.mem_cons, List.not_mem_nil, or_false, forall_eq_or_imp, forall_eq]
    exact ⟨ok_of (by decide +kernel), ok_of (by decide +kernel)⟩
  all_goals (try unfold State.Sound); decide +kernel

/-- A move from the scratchpad into a page, a fill of that page from another register, from the address and from the count, and
banks that a BCFG turns: scratch into cache, and back. -/
theorem witness_OrderingAndBlockOperationsComplete_moves :
    let s := (cached (base [0x200010#64, 0x50000#64, 0x20#64, 0x1001#64])).updMe fun t => { t with sys := true }
    let go (fill : Option (Byte × Byte)) : Mv := moveGo fill (s.regVal (.s 0#4)) (s.regVal (.s 1#4))
      (min (moveRate fill.isSome (s.regVal (.s 0#4)).toNat (s.regVal (.s 1#4)).toNat 0x20) 0x20)
      { s := s, k := 0, lr := 0, lw := 0, stop := .none }
    let turned (m : BitVec 2) (b : Nat) : Bool := (s.regVal (.s 3#4)).getLsbD b && s.myCore.bank b != m
    Ready { Uses.none with sr := [.s 0#4, .s 1#4, .s 2#4], sw := [.s 0#4, .s 1#4, .s 2#4] } s ∧ s.me.hold = .none ∧
      s.Sound ∧ s.acqBlocked = false ∧ s.me.sh = 0 ∧
      ([none, some (s.fillOf (.s 0#4) (.s 1#4) (.s 2#4)), some (s.fillOf (.s 0#4) (.s 0#4) (.s 2#4)),
        some (s.fillOf (.s 0#4) (.s 2#4) (.s 2#4))].all fun f => (match (go f).stop with | .none => true | _ => false) && (go f).k == 0x20) = true ∧
      Ready { Uses.none with sr := [.s 3#4, .s 2#4] } s ∧ (s.regVal (.s 3#4)).toNat < 2 ^ 32 ∧
      ((List.range 32).all fun b => !s.outInBank 0 b && s.myCore.tiles.toList.all fun t => !t.blocks b) = true ∧ s.reqs = [] ∧
      (s.myCore.l1.all fun l => !l.spoilt) = true ∧ (turned bankCache 0 && !turned bankCache 12) = true ∧
      (turned bankScratch 12 && !turned bankScratch 0) = true := by
  refine ⟨ready_of ?_, ?_, ?_, ?_, ?_, ?_, ready_of ?_, ?_, ?_, ?_, ?_, ?_, ?_⟩
  all_goals (try unfold State.Sound); decide +kernel

/-- A vector operation of two registers, of a register and a scalar, and with integer flags; no flag is enabled. -/
theorem witness_VectorArithmeticResults :
    let s := base xs0
    Ready { Uses.none with vr := [1#4, 2#4], vw := [15#4], mr := [0#2] } s ∧
      Ready { Uses.none with vr := [1#4], sr := [.s 3#4], vw := [15#4], mr := [3#2] } s ∧ NoTrap s (fSAT ||| fIDZ ||| fW) ∧
      InOrder s (.v 15#4) 4 :=
  ⟨ready_of (by decide +kernel), ready_of (by decide +kernel), by unfold NoTrap; decide +kernel,
    by unfold InOrder; decide +kernel⟩

theorem witness_VectorMultiplyAddResults :
    let s := base xs0
    Ready { Uses.none with vr := [1#4, 3#4, 2#4], vw := [15#4], mr := [0#2] } s ∧ NoTrap s fW ∧ InOrder s (.v 15#4) 5 :=
  ⟨ready_of (by decide +kernel), by unfold NoTrap; decide +kernel, by unfold InOrder; decide +kernel⟩

theorem witness_VectorUnaryResults :
    let s := base xs0
    Ready { Uses.none with vr := [15#4], vw := [15#4], mr := [1#2] } s ∧ NoTrap s fW ∧ InOrder s (.v 15#4) 8 :=
  ⟨ready_of (by decide +kernel), by unfold NoTrap; decide +kernel, by unfold InOrder; decide +kernel⟩

theorem witness_VectorComparisonAndSelectResults :
    let s := base xs0
    Ready { Uses.none with vr := [1#4, 2#4], mr := [3#2] } s ∧ NoTrap s fNV ∧ InOrder s (.m 1#2) 2 ∧
      Ready { Uses.none with vr := [1#4, 2#4], mr := [0#2, 2#2], vw := [4#4] } s ∧ InOrder s (.v 4#4) 1 :=
  ⟨ready_of (by decide +kernel), by unfold NoTrap; decide +kernel, by unfold InOrder; decide +kernel,
    ready_of (by decide +kernel), by unfold InOrder; decide +kernel⟩

theorem witness_VectorConversionResults :
    let s := base xs0
    Ready { Uses.none with vr := [0#4], vw := [1#4], mr := [0#2] } s ∧ NoTrap s fW ∧ InOrder s (.v 1#4) 4 ∧
      cvtElem .f32 .f32 .rne 0x7F800001 = (0x7F800001, fNone) :=
  ⟨ready_of (by decide +kernel), by unfold NoTrap; decide +kernel, by unfold InOrder; decide +kernel, by decide +kernel⟩

theorem witness_VectorReductionResults :
    let s := base xs0
    Ready { Uses.none with vr := [2#4], mr := [1#2], sw := [.s 5#4] } s ∧ NoTrap s fW ∧ SInOrder s (.s 5#4) 8 ∧
      Ready { Uses.none with vr := [2#4], mr := [1#2], vw := [5#4] } s ∧ InOrder s (.v 5#4) 12 :=
  ⟨ready_of (by decide +kernel), by unfold NoTrap; decide +kernel, by unfold SInOrder InOrder; decide +kernel,
    ready_of (by decide +kernel), by unfold InOrder; decide +kernel⟩

theorem witness_ElementAndMaskResults :
    let s := base xs0
    Ready { Uses.none with vr := [1#4, 2#4], mr := [0#2], vw := [4#4] } s ∧
      Ready { Uses.none with vr := [2#4], sr := [.s 4#4], sw := [.s 6#4] } s ∧
      Ready { Uses.none with sr := [.s 2#4, .s 4#4], vr := [3#4], vw := [3#4] } s ∧
      Ready { Uses.none with mr := [1#2, 3#2] } s ∧ NoTrap s fNone ∧ InOrder s (.v 4#4) 6 ∧ InOrder s (.m 3#2) 1 :=
  ⟨ready_of (by decide +kernel), ready_of (by decide +kernel), ready_of (by decide +kernel), ready_of (by decide +kernel),
    by unfold NoTrap; decide +kernel, by unfold InOrder; decide +kernel, by unfold InOrder; decide +kernel⟩

/-- Units in the scratchpad for each form: whole lanes, strided lanes, the block, gathered halves, elements with their
scales, and the blocks of a row. -/
theorem witness_VectorLoadsComplete :
    let s := base [0x1000#64, 8#64, 0x3000#64]
    let lanes := (List.range 128).filter fun i => (s.maskVal 0#2).getLsbD i
    let ok (ps : List Piece) : Prop := ∃ x, vecAccess needLoad ps s = .ok x ∧ x.1.length = ps.length
    Ready { Uses.none with sr := [.s 0#4, .s 1#4], vr := [2#4], vw := eight 8#4, mr := [0#2] } s ∧ s.acqBlocked = false ∧
      s.me.hold = .none ∧ s.myAccessesOut = false ∧ fifoWindow s (s.regVal (.s 0#4)) 0#2 0 = none ∧ (8#4).toNat + 7 < s.me.vn ∧
      ok (laneUnits s 0#2 8#4 (s.regVal (.s 0#4)) 4#64) ∧ ok (laneUnits s 0#2 8#4 (s.regVal (.s 0#4)) (s.regVal (.s 1#4))) ∧
      ok (blockPieces lanes 8#4 (s.regVal (.s 0#4))) ∧
      ok (lanes.map fun i => { va := s.regVal (.s 2#4) + BitVec.ofNat 64 (2 * i), n := 2, align := 2, reg := 8#4, lo := 32 * i }) ∧
      ok (mxPieces 8#4 (s.regVal (.s 0#4)) (s.regVal (.s 2#4)) .e4m3 128) ∧
      (s.regVal (.s 0#4)).toNat % 64 = 0 ∧ (s.regVal (.s 0#4)).toNat < 2 ^ 57 ∧ (s.regVal (.s 1#4)).toNat < 2 ^ 20 ∧
      ∃ x, rowBlocks 136 (s.regVal (.s 0#4)).toNat 136 s = .ok x ∧ okB (vecAccess needLoad (x.1.map (·.1)) x.2.2) (fun _ => true) :=
  ⟨ready_of (by decide +kernel), by decide +kernel, by decide +kernel, by decide +kernel, by decide +kernel,
    by decide +kernel, ok_of (by decide +kernel), ok_of (by decide +kernel), ok_of (by decide +kernel),
    ok_of (by decide +kernel), ok_of (by decide +kernel), by decide +kernel, by decide +kernel, by decide +kernel,
    ok_of (by decide +kernel)⟩

/-- A gather whose offsets are those of the lanes. -/
theorem witness_VectorLoadsComplete_gather :
    let s := (base [0x2000#64]).updMe fun t => t.setV 13#4 (VCell.full (vecOf 32 (List.range 128)))
    ∃ x, vecAccess needLoad ((List.range 128).map fun i => ({
        va := s.regVal (.s 0#4) + ((s.vecVal 13#4).extractLsb' (32 * i) 32).signExtend 64, n := 1, align := 1, reg := 8#4,
        lo := 32 * i } : Piece)) s = .ok x ∧ x.1.length = 128 := ok_of (by decide +kernel)

theorem witness_VectorStoresComplete :
    let s := base [0x1000#64, 8#64]
    let lanes := (List.range 128).filter fun i => (s.maskVal 0#2).getLsbD i
    let ok (ps : List Piece) : Prop := ∃ x, vecAccess needStore ps s = .ok x ∧ x.1.length = ps.length
    Ready { Uses.none with sr := [.s 0#4, .s 1#4], vr := eight 8#4, mr := [0#2] } s ∧ s.acqBlocked = false ∧
      s.me.hold = .none ∧ fifoWindow s (s.regVal (.s 0#4)) 0#2 1 = none ∧ (8#4).toNat + 7 < s.me.vn ∧
      ok (laneUnits s 0#2 8#4 (s.regVal (.s 0#4)) 4#64) ∧ ok (laneUnits s 0#2 8#4 (s.regVal (.s 0#4)) (s.regVal (.s 1#4))) ∧
      ok (blockPieces lanes 8#4 (s.regVal (.s 0#4))) :=
  ⟨ready_of (by decide +kernel), by decide +kernel, by decide +kernel, by decide +kernel, by decide +kernel,
    ok_of (by decide +kernel), ok_of (by decide +kernel), ok_of (by decide +kernel)⟩

/-- A descriptor of n members, with one global from s3 and one shared from s2 where sh = 1, its limit in D1 or behind it. -/
def descr (n sh : Nat) (ind : Bool) : List Byte :=
  dwords [0, n, 0x3000 + (if ind then 2 ^ 57 else 0),
    1 + 1 * 2 ^ 32 + sh * 2 ^ 36 + 2 * 2 ^ 40 + 1 * 2 ^ 45 + 3 * 2 ^ 50 + 2 * 2 ^ 54]

/-- The conditions of CreateCompletes on the descriptor bs with limit lim, at s1 with the place in s1. -/
def createOk (s : State) (bs : List Byte) (ind : Bool) (lim : Int) (rev det : Bool) (n : Nat) : Bool :=
  let w (i : Nat) : W64 := BitVec.ofNat 64 (leVal ((bs.drop (8 * i)).take 8))
  let d0 := Desc.parse (w 0) (w 1) (w 2) (w 3)
  let d := { d0 with limit := lim }
  let v := s.regVal (.s 1#4)
  let p := Place.parse v s.cur.cid
  decide (d0.ind = ind ∧ (ind = false → lim = d0.limit) ∧ Desc.reserved (w 2) (w 3) = false ∧
    (∀ j < d.s, (s.me.regs.s.get (BitVec.ofNat 4 (d.hsrc + j)).toFin).pend = false ∧
      s.cur.aDest ≠ some (.s (BitVec.ofNat 4 (d.hsrc + j)))) ∧
    d0.bad rev det p.fallback = false ∧ s.badPlace v p (s.partNum s.cur.cid) det = false ∧
    (rev = true → (s.part (s.partNum s.cur.cid)).freeRev.isSome = true) ∧ d.count = n ∧
    (n = 0 ∨ s.fits d (deals p.cores p.cyclic d.count) = true) ∧ s.spoiltLine s.cur.cid (fun _ => true) = none)

/-- Sixteen members, none, a limit word, a task, and a detached family. -/
theorem witness_CreateCompletes :
    let s (bs : List Byte) : State := inScratch (inScratch (base [0x1000#64, 0x7FF#64, 8#64, 9#64, 0x2000#64]) 0x1000 bs) 0x2000 (toLe 8 2)
    let reads : Uses := { Uses.none with sr := [.s 0#4, .s 1#4], sw := [.s 5#4] }
    (∀ bs ∈ [descr 16 1 false], Ready reads (s bs)) ∧
    (let t := s (descr 16 1 false)
     t.cur.slot ≠ 16 ∧ t.me.hold = .none ∧ t.acqBlocked = false ∧ ∀ wide, t.unperformed t.meWho wide t.ctr = false) ∧
    (∃ x, readNow (s (descr 16 1 false)) 0x1000#64 32 32 = .ok x ∧
      createOk (s (descr 16 1 false)) x.1 false 16 false false 16 = true ∧
      createOk (s (descr 16 1 false)) x.1 false 16 true false 16 = true) ∧
    (∃ x, readNow (s (descr 0 1 false)) 0x1000#64 32 32 = .ok x ∧
      createOk (s (descr 0 1 false)) x.1 false 0 false false 0 = true) ∧
    (∃ x, readNow (s (descr 0x2000 1 true)) 0x1000#64 32 32 = .ok x ∧
      createOk (s (descr 0x2000 1 true)) x.1 true 2 false false 2 = true ∧
      okB (readNow x.2 0x2000#64 8 8) (fun y => leVal y.1 == 2) = true) ∧
    Ready { Uses.none with sr := [.s 0#4, .s 1#4, .s 4#4] } (s (descr 16 0 false)) ∧
    ∃ x, readNow (s (descr 16 0 false)) 0x1000#64 32 32 = .ok x ∧
      createOk (s (descr 16 0 false)) x.1 false 16 false true 16 = true ∧
      okB (access x.2 0x2000#64 8 8 { needAtomic with tag := true } true) (fun y => y.1.va == 0x2000) = true := by
  refine ⟨fun bs h => ?_, by decide +kernel, ok_of (by decide +kernel), ok_of (by decide +kernel), ok_of (by decide +kernel),
    ready_of (by decide +kernel), ok_of (by decide +kernel)⟩
  simp only [List.mem_cons, List.not_mem_nil, or_false] at h
  subst h
  exact ready_of (by decide +kernel)

/-- The creator waits, has its answer, with a final for s0, reads and kills; a member breaks, first, after a lower one, and in the place of
a higher one. -/
theorem witness_FamilyInstructionsComplete :
    let s := withFam (base [0x10000#64])
    let m := s.updMe fun t => { t with fam := some 20, member := 1 }
    let b := { m with fams := [{ fam0 2 with brk := some (1, 4#64) }] }
    Ready { Uses.none with sr := [.s 0#4], sw := [.s 5#4] } s ∧ s.cur.slot ≠ 16 ∧ s.me.hold = .none ∧
      (∃ f, famOf s (s.regVal (.s 0#4)) false = .ok f ∧ f = fam0 2) ∧
      (∃ f, famOf s (s.regVal (.s 0#4)) true = .ok f ∧ f = fam0 2) ∧
      (answered s 20#64).me.hold = .done 20#64 ∧ (answered s 20#64).fam 20 = some (fam0 2) ∧
      (s.fam 20 = some (fam0 2) ∧ (fam0 2).st.over = false ∧ (fam0 2).ended = .none) ∧
      (m.me.fam = some 20 ∧ m.fam 20 = some (fam0 2) ∧ (fam0 2).brk = none) ∧
      b.me.fam = some 20 ∧ b.fam 20 = some { fam0 2 with brk := some (1, 4#64) } ∧ 1 ≤ b.me.member ∧
      (let h := { m with fams := [{ fam0 2 with brk := some (2, 4#64) }] }
       h.me.fam = some 20 ∧ h.fam 20 = some { fam0 2 with brk := some (2, 4#64) } ∧ h.me.member < 2) ∧
      (let g := { fam0 2 with outs := [{ member := 1, j := 0, val := 6#64, far := false }] }
       let t := answered { s with fams := [g] } 20#64
       t.fam 20 = some g ∧ t.me.hold = .done 20#64 ∧ g.kind = .alloc ∧ g.desc.hsrc + g.desc.s ≤ 16 ∧ g.finals[0]? = some 6#64) :=
  ⟨ready_of (by decide +kernel), by decide +kernel, by decide +kernel, ok_of (by decide +kernel), ok_of (by decide +kernel),
    by decide +kernel⟩

/-- A slice of partition 0 that runs. -/
def slice0 : Slice :=
  { uid := 30, part := 0, sub := 1, ring := 2, index := 3, words := List.replicate 8 0#64, st := .running, issued := 0,
    recent := [], root := some 20, status := 0, cause := 0, signalled := false, yielding := none }

/-- Nothing keeps the thread from ending. -/
def endsB (t : State) : Bool :=
  decide (t.cur.slot ≠ 16 ∧ t.me.kids = [] ∧ t.pendingMe = false ∧ t.acked = true ∧ t.storesOut t.cur.cid = false ∧
    t.spoiltLine t.cur.cid (fun _ => true) = none)

/-- A thread of a member alone; the root's member of a slice, with a record at 0x1000; and a thread that travels to its own
core, and to die 1. -/
theorem witness_ThreadEndsComplete :
    let s := base [0x1000#64, 0x210000#64]
    let y := { withFam s with
      slices := [slice0], fams := [{ fam0 2 with kind := .root, slice := some 30 }] }.updMe fun t =>
        { t with fam := some 20, slice := some 30 }
    let v := ((withFam s).updPart 0 fun p => { p with sgs := 0x21#20 }).updMe fun t => { t with fam := some 20, vn := 0 }
    let v := v.updCore 0 fun c => { c with tlb1 := [{ vpn := 0x21, sz := 0, w1 := 0x2CB418001B#64 }] }
    Ready Uses.none s ∧ endsB s = true ∧
      (s.me.held = [] ∧ s.me.leftover = none ∧ s.me.owes = false ∧ s.me.inl = false) ∧
      Ready { Uses.none with sr := [.s 0#4] } y ∧ endsB y = true ∧
      y.me.fam.bind y.fam = some { fam0 2 with kind := .root, slice := some 30 } ∧ y.me.slice.bind y.slice = some slice0 ∧
      (slice0.st = .running ∧ (y.regVal (.s 0#4)).toNat % 64 = 0) ∧
      (y.fams.all fun g => !(g.slice == some 30) || g.uid == 20 || (g.st.over && g.ctr.isNone)) = true ∧
      (∃ x, readNow (y.updSlice 30 fun x => { x with yielding := some y.me.uid }) (y.regVal (.s 0#4)) 64 64 = .ok x ∧ x.1.length = 64) ∧
      Ready { Uses.none with sr := [.s 1#4] } v ∧ endsB v = true ∧
      (∃ x, access v (v.regVal (.s 0#4)) 1 1 needLoad true = .ok x ∧ x.2.mayTravel x.1.va = true ∧
        x.2.atHome x.1.pa = true) ∧
      ∃ x, access v (v.regVal (.s 1#4)) 1 1 needLoad true = .ok x ∧ x.2.mayTravel x.1.va = true ∧ x.2.atHome x.1.pa = false ∧
        (x.2.homeDie x.1.pa).1 = v.dev.devid ∧ x.2.canLand x.1.pa = true := by
  refine ⟨ready_of ?_, ?_, ?_, ready_of ?_, ?_, ?_, ?_, ?_, ?_, ok_of ?_, ready_of ?_, ?_, ok_of ?_, ok_of ?_⟩
  all_goals decide +kernel

/-- A count at its limit; an arrival that leaves the phase open by one, and the one that closes it; a release. -/
theorem witness_BarriersComplete :
    let s := base [0xFFFFFFFF#64]
    let w : Who := { cid := 0, slot := 0, uid := 7 }
    let b (n a : Nat) : Barrier :=
      { sc := Scope.quad.code, unit := 0, id := 3, count := n, arrived := a, waiters := [], phase := 4, closed := [(3, [w])] }
    let at_ (n a : Nat) : State := { evAt s (.barrierArrival 0 0 7 .quad 3#3) with bars := [b n a] }
    Ready { Uses.none with sr := [.s 0#4] } s ∧ s.cur.slot ≠ 16 ∧ (s.regVal (.s 0#4)).toNat < 2 ^ 32 ∧
      (s.bar .pkg (s.barUnit .pkg 0) 7).arrived = 0 ∧ Ready Uses.none (at_ 2 0) ∧ (at_ 2 0).me.hold = .none ∧
      ((at_ 2 0).bar .quad ((at_ 2 0).barUnit .quad 0) 3).count ≠ 0 ∧
      ((at_ 2 0).unperformed (at_ 2 0).meWho true (at_ 2 0).ctr = false ∧
        (at_ 2 0).unacknowledged (at_ 2 0).meWho (at_ 2 0).ctr = false ∧ (at_ 2 0).spoiltLine 0 (fun _ => true) = none) ∧
      Ready Uses.none (answered s 0#64) ∧ (answered s 0#64).me.hold = .done 0#64 ∧
      ((at_ 3 1).bar .quad 0 3).arrived + 1 < ((at_ 3 1).bar .quad 0 3).count ∧
      ((at_ 2 1).bar .quad 0 3).count ≤ ((at_ 2 1).bar .quad 0 3).arrived + 1 ∧
      (let r := waits { evAt s (.barrierRelease (b 2 0).key 3) with bars := [b 2 0] } 60
       (r.bars.find? fun x => x.key == (b 2 0).key) = some (b 2 0) ∧ ((b 2 0).closed.find? fun x => x.1 == 3) = some (3, [w]) ∧
         someB (r.thread 0 0) (fun th => th.uid = 7 ∧ th.hold = .busy 60) = true) :=
  ⟨ready_of (by decide +kernel), by decide +kernel, by decide +kernel, by decide +kernel, ready_of (by decide +kernel),
    by decide +kernel, by decide +kernel, by decide +kernel, ready_of (by decide +kernel), by decide +kernel⟩

/-- An inline run of family 20 in slot 0, its creator the thread of base, with a frame at 0x4000. -/
def run0 : InlineRun :=
  { slot := 0, creator := { thr xs0 with fam := none }, fam := 20, frame := 0x4000, createPc := 0x1000#64, rd := .s 5#4, next := 1,
    saved := 0xFFFF#16, savedV := 0xFFFF#16 }

theorem witness_MembersStart :
    let s := inScratch (inScratch (withFam (base xs0)) 0x4080 (toLe 8 0xFFFF)) 0x4018 (toLe 8 77)
    let r := s.updCore 0 fun c => { c with runs := [run0] }
    let q := evAt { s with fams := [{ fam0 2 with st := .delegating }] } (.delegationRequest 20)
    (s.fam 20 = some (fam0 2) ∧ s.startable 20 0 0 = true ∧ s.thread 0 1 = none) ∧
      ((r.core 0).runOf 0 = some run0 ∧ r.runStopped run0 = false ∧ r.fam 20 = some (fam0 2) ∧ (fam0 2).ended = .none ∧
        run0.creator.hold = .none) ∧
      (∃ x, loadFrame (r.creatorBack 0 0 run0) run0.frame (run0.creator.frameSize / 32) = .ok x ∧
        (BitVec.ofNat 64 (leVal ((x.1.drop 128).take 8))).getLsbD 3 = true ∧ leVal ((x.1.drop 24).take 8) = 77) ∧
      (run0.saved.getLsbD 3 = true ∧ run0.rd ≠ .s 3#4 ∧ run0.creator.vn = 16 ∧ run0.savedV.getLsbD 15 = true) ∧
      q.fam 20 = some { fam0 2 with st := .delegating } ∧ (fam0 2).parentCid = 0 ∧ (fam0 2).parentSlot = 0 ∧
      someB ((waits s 20).thread 0 0) (fun th => th.uid = (fam0 2).parentUid ∧ th.hold = .busy 20) = true ∧
      (FamState.done.over = true ∧ s.joinList { fam0 2 with st := .done } = []) :=
  ⟨by decide +kernel, by decide +kernel, ok_of (by decide +kernel), by decide +kernel⟩

/-- A task's revision with one version, and its join; a detached family; a purge with and without a replay. -/
def revState : State :=
  let v : Version := { rev := 1, va := 0x300000, blk := 0xC000, data := 5#512 }
  let g : Region := { num := 0, base := 0x300000, size := 64, ro := false, elem := 3, merge := 1 }
  let r : Rev := { id := 1, fam := 20, parent := none, snap := [g], mem0 := [], vers0 := [] }
  let j : Join :=
    { tok := 70, fam := 20, rev := 1, into := none, blocks := [v], who := { cid := 0, slot := 0, uid := 7 }, begun := true,
      sync := 70, ready := some 70 }
  (withFam (base xs0)).updPart 0 fun p => { p with revs := [r], versions := [v], joins := [j], regions := [g] }

theorem witness_FamiliesEnd :
    let s := withFam (base xs0)
    let p (replay : Bool) : Purge :=
      { tok := 80, fam := some 20, slice := none, cause := 0x22, replay := replay, cid := 0, slot := 1, pc := 0, addr := 0, time := 0 }
    let d := { s with fams := [{ fam0 2 with ctr := some (0x2000, 0x2000), det := true }] }
    let w := { s with fams := [{ fam0 2 with st := .replayWait }] }
    Memory.wf s.mem = true ∧ d.fam 20 = some { fam0 2 with ctr := some (0x2000, 0x2000), det := true } ∧ 0x2000 % 8 = 0 ∧
      (d.loc 0x2000 = .dram 0 ∧ ({ fam0 2 with ctr := some (0x2000, 0x2000), det := true } : Family).ran.any d.writesOut = false) ∧
      (∃ x, revState.join 70 = some x ∧ x.1 = 0 ∧ ∃ v, x.2.blocks = [v] ∧
        ((revState.part 0).rev x.2.rev).any (fun r => (r.region v.va).any (fun g => g.merge != 12) && r.id == x.2.rev &&
          (revState.part 0).level r.parent v.va == none &&
          bytesBlock ((List.range 64).map fun k => (revState.part 0).anc r.id (v.va + k) (v.blk * 64 + k)) != v.data) = true ∧
        revState.loc (v.blk * 64) = .dram 0 ∧ revState.spoilt (v.blk * 64) 64 = false) ∧
      (s.covered (fam0 2) = false ∧ { s with fams := [{ fam0 2 with st := .purging }] }.covered { fam0 2 with st := .purging } = false) ∧
      ({ s with purges := [p true] }.purges.find? fun p => p.tok == 80) = some (p true) ∧ (p false).fam = some 20 ∧
      s.fam 20 = some (fam0 2) ∧ w.fam 20 = some { fam0 2 with st := .replayWait } ∧ (fam0 2).kind ≠ .inlined ∧
      ∀ x ∈ deals (fam0 2).ranOn (fam0 2).place.cyclic (fam0 2).n, w.usable x.1 (fam0 2).desc ≠ [] := by
  refine ⟨by decide +kernel, by decide +kernel, by decide +kernel, by decide +kernel, ?_, by decide +kernel, by decide +kernel,
    by decide +kernel, by decide +kernel, by decide +kernel, by decide +kernel, by decide +kernel⟩
  refine ⟨_, rfl, rfl, _, rfl, ?_, ?_, ?_⟩ <;> decide +kernel

/-- A partition whose page table maps the first GiB onto itself, with a root's descriptor of two members at 0x1000. -/
def sliceState (sl : Slice) : State :=
  let m := Memory.putAll [] 0x1000 (dwords [0, 2, 0x3000, 1 + 2 * 2 ^ 40 + 2 ^ 45])
  let m := Memory.putAll m 0x10000 (dwords [2 ^ 55 + 0x20000])
  let m := Memory.putAll m 0x20000 (dwords [2 ^ 55 + 0x30000])
  let m := Memory.putAll m 0x30000 (dwords [2 ^ 56 + 0x1B])
  { ({ base xs0 with mem := m }.updCore 0 fun c => { c with ptroot := 0x10000#64 }) with slices := [sl] }

/-- A slice that waits for nothing. -/
def ready0 : Slice :=
  { slice0 with st := .waiting, root := none,
                words := [0x1000#64, 0#64, 0#64, 0#64, 0xFFFFFFFFFFFFFFFF#64, 0#64, 5#64, 0#64] }

/-- The eight rings, one of them full with its size; a ready slice; its signal; and a cancel that names it. -/
theorem witness_SlicesAreServed :
    let s := evAt (sliceState ready0) (.sliceDispatch 0)
    let r : Ring := { base := 0x5000#64, size := 2#64, head := 0xFFFFFFFE#32, tail := 2#32, stopped := false, placed := true }
    let c := evAt (s.updPart 0 fun p => { p with rings := p.rings.set 7 r }) (.sliceRecordCopy 0 7)
    let v : W64 := 0x0000000500020003#64
    ((c.part 0).valid = true ∧ c.bad = [] ∧ ((c.part 0).ring 7).stopped = false ∧ ((c.part 0).ring 7).placed = true ∧
      (((c.part 0).ring 7).tail - ((c.part 0).ring 7).head).toNat ≤ 2 ^ ((c.part 0).ring 7).size.toNat) ∧
    (s.dispatches (s.part 0) = true ∧ (s.part 0).dispAt ≤ s.now ∧
      (s.slices.filter fun x => x.part == 0 && s.sliceReady x).foldl (fun acc x => insSlice x acc) [] = [ready0] ∧
      match s.readRoot (s.part 0) ready0 with
      | .ok d _ => 0 < d.count ∧ s.fits d (deals (Place.parse (ready0.words.getD 1 0#64) 0).cores
          (Place.parse (ready0.words.getD 1 0#64) 0).cyclic d.count) = true
      | _ => False) ∧
    s.slice 30 = some ready0 ∧ s.sliceStores 30 = false ∧ (s.fams.all fun f => f.slice != some 30) = true ∧
      (s.part 0).away = false ∧
      (s.slices.filter fun x => x.part == 0 && x.st != .ended && !s.dying x.uid && x.ring == bits v.toNat 16 3 &&
        x.index == bits v.toNat 0 16 && x.tag == bits v.toNat 32 32) = [ready0] := by
  refine ⟨by decide +kernel, ⟨by decide +kernel, by decide +kernel, by decide +kernel, ?_⟩, by decide +kernel⟩
  have h : (match (evAt (sliceState ready0) (.sliceDispatch 0)).readRoot ((evAt (sliceState ready0) (.sliceDispatch 0)).part 0)
        ready0 with
      | .ok d _ => decide (0 < d.count ∧ (evAt (sliceState ready0) (.sliceDispatch 0)).fits d
          (deals (Place.parse (ready0.words.getD 1 0#64) 0).cores (Place.parse (ready0.words.getD 1 0#64) 0).cyclic d.count) =
            true)
      | _ => false) = true := by decide +kernel
  split <;> simp_all

/-- A traveller to die 0, a record at the head of a queue, and a spilled record with one place left in the queue. -/
theorem witness_QueuesAreServed :
    let s := withFam (base xs0)
    let v : Traveller := { tok := 90, pa := 0x1000, thread := { thr xs0 with uid := 9 }, part := 0, die := 0, dev := 0 }
    let r : ContRec := { sg := 0, words := List.replicate 8 0#64, fam := 20, traveller := none }
    let t := evAt { s with travs := [v] } (.travellerArrival 90)
    let f := { fam0 2 with st := .queued }
    let q := evAt { s.updContQ 0 fun q => { q with recs := [r] } with fams := [f] } (.continuationHeadPlace 0)
    let o := evAt (s.updContQ 0 fun q => { q with recs := List.replicate 63 r, spill := [r] }) (.spillOverflowMove 0)
    ((t.travs.find? fun t => t.tok == 90) = some v ∧ (v.dev = t.dev.devid ∧ (t.part v.part).away = false ∧
      t.stopped v.thread = false) ∧ t.leastLoaded (t.part v.part) v.die = some 0 ∧
      (t.contQ 0).recs = [] ∧ (t.part v.part).arrivals = [] ∧ ∃ x, t.roomiest 0 = some x ∧ x.1 < 64) ∧
    ((q.contQ 0).recs = [r] ∧ (∃ p, q.partOf (0 * 64) = some p ∧ p.gsst = .running) ∧ r.traveller = none ∧
      q.fam r.fam = some f ∧ q.fits f.desc (deals f.place.cores f.place.cyclic f.n) = true) ∧
    (∃ p, o.partOf (0 * 64) = some p ∧ p.num = 0) ∧ (o.contQ 0).spill = [r] ∧ (o.contQ 0).recs.length < 64 :=
  ⟨⟨by decide +kernel, by decide +kernel, by decide +kernel, by decide +kernel, by decide +kernel, some_of (by decide +kernel)⟩,
    ⟨by decide +kernel, some_of (by decide +kernel), by decide +kernel, by decide +kernel, by decide +kernel⟩,
    some_of (by decide +kernel), by decide +kernel, by decide +kernel⟩

/-- base with entry 5 of its tile table y. -/
def withTile (s : State) (y : Tile) : State := s.updCore 0 fun c => { c with tiles := c.tiles.set 5 y }

def tile0 : Tile := { Tile.zero with base := 0x5F800, size := 0x800 }

/-- A definition that ends at the last scratch bank's end, and one of nothing; and a tile in each state that an
instruction finds. -/
theorem witness_TileInstructionsComplete :
    let s := base [0x5F800#64, 0x800#64, 0#64]
    let d := withTile s tile0
    let r := withTile s { tile0 with st := .ready }
    let r2 := withTile s { tile0 with st := .ready, rel := some 4 }
    let f := withTile s { tile0 with st := .filling, err := true }
    Ready { Uses.none with sr := [.s 0#4, .s 1#4] } s ∧ (s.myCore.tile 5).st = .empty ∧
      (0x5F800 % 64 = 0 ∧ 0x800 ≠ 0 ∧ 0x800 % 64 = 0 ∧ 0x5F800 + 0x800 ≤ 2 ^ 20 ∧ s.myCore.scratchOk 0x5F800 0x800 = true) ∧
      (s.regVal (.s 2#4)).toNat = 0 ∧
      Ready { Uses.none with sr := [.s 1#4] } d ∧ (d.myCore.tile 5).st = .empty ∧ d.myCore.tileScratch 5 = true ∧
      (d.regVal (.s 1#4)).toNat = (d.myCore.tile 5).size ∧
      Ready Uses.none r ∧ (r.myCore.tile 5).st = .ready ∧
      ((r.myCore.tile 5).rel = none ∧ (r.myCore.tile 5).out = none ∧ (r.myCore.tile 5).readers = []) ∧
      ((r.myCore.tile 5).err = false ∧ r.me.held = []) ∧ Ready Uses.none r2 ∧ (r2.myCore.tile 5).rel.isSome = true ∧
      Ready Uses.none f ∧ ((f.myCore.tile 5).st = .filling ∧ (f.myCore.tile 5).err = true) ∧
      Ready { Uses.none with sw := [.s 5#4] } r ∧ (r.myCore.tile 5).arrived < 2 ^ 21 ∧ (r.myCore.tile 5).expected < 2 ^ 21 := by
  refine ⟨ready_of ?_, ?_, ?_, ?_, ready_of ?_, ?_, ?_, ?_, ready_of ?_, ?_, ?_, ?_, ready_of ?_, ?_, ready_of ?_, ?_,
    ready_of ?_, ?_, ?_⟩
  all_goals decide +kernel

/-- A queue with one place left, before a ready tile; a group table of one group of 32 rows; a drain into an empty tile. -/
theorem witness_MatrixInstructionsComplete :
    let m : MCmd := { tok := 1, who := { cid := 0, slot := 0, uid := 7 }, ops := [.swap], follow := false, from_ := 0 }
    let s := inScratch (base [0x1000#64, 3#64]) 0x1000 (dwords [1, 32 * 256])
    let r := (withTile s { tile0 with st := .ready }).updCore 0 fun c => { c with mq := List.replicate 7 m }
    let w := r.updCore 0 fun c => { c with loads := 1 }
    let e := withTile s { tile0 with size := 0x1000, base := 0x5F000 }
    let ok (t : State) : Bool := decide (t.me.held = [] ∧ t.myCore.mq.length < 8 ∧ t.me.hold = .none)
    Ready Uses.none r ∧ ok r = true ∧ (r.myCore.tile 5).err = false ∧ (r.myCore.tile 5).size ≠ 0 ∧
      (r.myCore.tile 5).st = .ready ∧ (r.myCore.tile 5).size % 2048 = 0 ∧ r.dev.service ≠ .reduced ∧
      r.myCore.unconsumed = false ∧ w.myCore.unconsumed = true ∧ (r.myCore.accAt 2).inv = false ∧
      Ready { Uses.none with sr := [.s 0#4] } r ∧ (r.regVal (.s 0#4)).toNat % 8 = 0 ∧
      (∃ n, tableWord r 0x1000 = .ok n ∧ n = 1) ∧ (∃ g, tableGroups r 0x1008 1 = .ok g ∧ g = some [(0, 32)]) ∧
      Ready Uses.none e ∧ ok e = true ∧
      (e.myCore.busyAcc 2 = false ∧ (e.myCore.tile 5).st = .empty ∧ e.myCore.drain = none ∧
        drainBytes 0 ≤ (e.myCore.tile 5).size ∧ e.tileBad 0 5 0 (drainBytes 0) = none ∧ e.myCore.tileScratch 5 = true ∧ e.myCore.tileWaking 5 = false ∧ e.myCore.mctl.getLsbD 1 = false) ∧
      (answered e 0#64).me.hold = .done 0#64 ∧ Ready { Uses.none with sw := [.s 5#4] } e ∧
      (e.myCore.mq.length ≤ 8 ∧ e.myCore.spall.countP (fun x => x.acc == 2) ≤ 64) ∧
      Ready Uses.none (withTile s { tile0 with st := .ready }) ∧ s.Sound := by
  refine ⟨ready_of ?_, ?_, ?_, ?_, ?_, ?_, ?_, ?_, ?_, ?_, ready_of ?_, ?_, ok_of ?_, ok_of ?_, ready_of ?_, ?_, ?_, ?_,
    ready_of ?_, ?_, ready_of ?_, ?_⟩
  all_goals (try unfold State.Sound); decide +kernel

/-- An idle engine with a plane to pass with, one to swap in, and a place to load one: a pass begins, without a carry to post; and
the mirror core waits with a tile of the same size. -/
theorem witness_MatrixInstructionsComplete_idle :
    let pl : Plane := { cls := .b8, kp := 60, cols := [] }
    let b : Mxsw := { tile := 5, who := { cid := 0, slot := 0, uid := 7 }, tok := 2, begun := false }
    let s := withTile (base xs0) { tile0 with st := .ready }
    let i := s.updCore 0 fun c => { c with active := some pl }
    let f := s.updCore 0 fun c => { c with shadow := .full pl, loads := 1 }
    let o := s.updCore (mirrorOf 0) fun c => { c with mxsw := [b], tiles := c.tiles.set 5 { tile0 with st := .ready, base := 0 } }
    let idle (t : State) : Bool :=
      decide (t.myCore.mq = [] ∧ t.myCore.pass = none ∧ t.myCore.groups = none ∧ t.myCore.drain = none)
    (idle i && idle f) = true ∧ (s.myCore.shadow = .empty ∧ s.myCore.unconsumed = false) ∧ i.myCore.active = some pl ∧
      (f.myCore.shadow = .full pl ∧ f.myCore.unconsumed = true) ∧
      nextB (exec (.mma (hs 0) 5#6 false 2#2) i) (fun u => stepsB (.passStart 0) u fun v =>
        v.myCore.pass.any fun p => p.carries.isEmpty && p.cells.isEmpty) = true ∧
      (o.tileBad 0 5 0 0x800 = none ∧ o.tileBad (mirrorOf 0) 5 0 0x800 = none) ∧
      (o.myCore.mxsw = [] ∧ (o.core (mirrorOf 0)).mxsw = [b] ∧ ((o.core (mirrorOf 0)).tile 5).size = (o.myCore.tile 5).size) ∧
      scratchPa 0 (o.myCore.tile 5).base + 0x800 ≤ scratchPa (mirrorOf 0) 0 := by
  refine ⟨?_, ?_, ?_, ?_, ?_, ?_, ?_, ?_⟩
  all_goals decide +kernel

/-- The largest drain fills its tile. -/
theorem witness_MatrixInstructionsComplete_drain : drainBytes 4 = 8192 ∧ drainBytes 0 = 4096 := by decide +kernel

/-- The head of a queue that loads, swaps, clears accumulator 3, and passes with and without a swap. -/
theorem witness_MatrixQueueStarts :
    let pl : Plane := { cls := .b8, kp := 60, cols := [] }
    let s (ops : List MOp) (sh : Shadow) (act : Option Plane) : State :=
      (withTile (base xs0) { tile0 with st := .ready }).updCore 0 fun c => { c with
        mq := [{ tok := 1, who := { cid := 0, slot := 0, uid := 7 }, ops := ops, follow := false, from_ := 0 }]
        shadow := sh, active := act }
    let head (t : State) (e : Ev) : Bool := (t.core 0).headStep t.now == some e
    head (s [.mls 5] .empty none) (.mlsStart 0) = true ∧ head (s [.swap] (.full pl) none) (.planeSwap 0) = true ∧
      head (s [.zero true 3] .empty none) (.mzeroStart 0) = true ∧
      head (s [.pass false true 3 5 0 32 true] (.full pl) none) (.passStart 0) = true ∧
      head (s [.pass true false 3 5 0 32 true] .empty (some pl)) (.passStart 0) = true ∧
      (let g : MCmd := { tok := 0, who := { cid := 0, slot := 0, uid := 7 }, ops := [.pass false true 3 5 16 16 true],
                         follow := false, from_ := 0 }
       let t := (s [.swap] (.full pl) none).updCore 0 fun c => { c with groups := some g }
       (t.core 0).groups = some g ∧ (t.core 0).pass = none ∧ (t.core 0).shadow = .full pl) ∧
      ((s [.swap] .empty none).core 0).accAt 3 = Acc.zero := by decide +kernel

/-- The mirror cores 0 and the core across, each with the exchange of tile 63 issued; a pass at its end, and one within it with a carry
and one free entry; a drain; a release that no reader holds back. -/
theorem witness_MatrixOperationsEnd :
    let who : Who := { cid := 0, slot := 0, uid := 7 }
    let p : Pass :=
      { tok := 1, who := who, c := 3, t := 5, last := true, start := 0, len := 10, slip := 0, cells := [], off := [],
        sa := [], sw := [], carries := [{ at_ := 4, row := 31, col := 31, up := true }], stop := none }
    let taken : List Spall := (List.range 63).map fun i => { ent := i, acc := 3, row := i % 32, col := i / 32, cnt := 1 }
    let s := { ((base xs0).updCore 0 fun c => { c with pass := some p, spall := taken }) with
      now := 10, dieCyc := Vector.replicate 4 4 }
    let d : Drain := { tok := 60, who := who, c := 3, t := 63, code := 0, sat := false, scale := 0, mode := .rne }
    let e := waits ((base xs0).updCore 0 fun c => { c with drain := some d }) 60
    let x (begun : Bool) : State :=
      let put (b : Nat) (c : Core) : Core := { c with
        mxsw := [{ tile := 63, who := who, tok := 2, begun := begun }]
        tiles := c.tiles.set 63 { Tile.zero with st := .ready, base := b, size := 64 } }
      ((base xs0).updCore 0 (put 0x5FFC0)).updCore (mirrorOf 0) (put 0)
    let y := { tile0 with st := .ready, rel := some 4, readers := [4] }
    let w := (base xs0).updCore 0 fun c => { c with tiles := c.tiles.set 63 { tile0 with st := .draining, out := some 4 } }
    let r := (base xs0).updCore 0 fun c => { c with tiles := c.tiles.set 63 y }
    Memory.wf s.mem = true ∧ (s.core 0).pass = some p ∧ p.carries.length = 1 ∧ (s.core 0).late = [] ∧
      p.start + 4 + p.slip ≤ s.dieNow 0 ∧ s.dieNow 0 < p.start + p.len + p.slip ∧
      (∀ e ∈ (s.core 0).spall, ¬(e.acc = p.c ∧ e.row = 31 ∧ e.col = 31)) ∧ (s.core 0).spall.length < 64 ∧
      ({ s with dieCyc := Vector.replicate 4 10 }.passEnd 0 p ≤ s.now ∧ p.c < 4) ∧
      ((e.core 0).drain = some d ∧ d.c < 4 ∧ d.t < 64 ∧ (e.core 0).tileWaking d.t = false ∧ e.tileBad 0 d.t 0 (drainBytes d.code) = none) ∧
      someB (e.thread 0 0) (fun th => th.uid = d.who.uid ∧ th.hold = .busy d.tok) = true ∧
      ((x false).core 0).mxswOf 63 false = some { tile := 63, who := who, tok := 2, begun := false } ∧
      ((x false).core (mirrorOf 0)).mxswOf 63 false = some { tile := 63, who := who, tok := 2, begun := false } ∧
      (((x false).core 0).tile 63).size = (((x false).core (mirrorOf 0)).tile 63).size ∧
      ((x true).core 0).mxswOf 63 true = some { tile := 63, who := who, tok := 2, begun := true } ∧
      ((x true).core (mirrorOf 0)).mxswOf 63 true = some { tile := 63, who := who, tok := 2, begun := true } ∧
      ((x true).tileBad 0 63 0 64 = none ∧ (x true).tileBad (mirrorOf 0) 63 0 64 = none) ∧
      scratchPa 0 0x5FFC0 + 64 ≤ scratchPa (mirrorOf 0) 0 ∧ (((r.core 0).tile 63).rel = some 4 ∧ ((r.core 0).tile 63).out = none) ∧
      (((w.core 0).tile 63).out = some 4 ∧ ((w.core 0).tile 63).readers = []) ∧
      ∀ q ∈ ((r.core 0).tile 63).readers, 4 ≤ q := by decide +kernel

theorem witness_MatrixOperationsEnd_plane :
    let pl : Plane := { cls := .b8, kp := 60, cols := [] }
    (((base xs0).updCore 0 fun c => { c with shadow := .loading pl 5 1 }).core 0).shadow = .loading pl 5 1 := by decide +kernel

/-- A length word of 64 bytes at tile offset 0x7C0, the last 64 bytes of the tile, for the forms of two operands; the words of
the others; and a queue with one place left. -/
theorem witness_CopyInstructionsComplete :
    let q : CopyCmd :=
      { tok := 3, who := { cid := 0, slot := 0, uid := 7 }, tile := 4, form := 0, addr := 0, opnd := 0#64,
        third := 0#64, scope := 0, block := none, blockAddr := 0, lvlFam := none, sys := false, fam := none, tag := 0, from_ := 0, armed := false, gone := [] }
    let s (o third : W64) (st : TileSt) : State :=
      (withTile (base [0x4000#64, o, third]) { tile0 with st := st }).updCore 0 fun c => { c with cq := List.replicate 15 q }
    let ok (form : Nat) (o third : W64) (st : TileSt) : Bool :=
      decide (copyCheck (s o third st).myCore 5 form 0x4000 o.toNat third.toNat = none ∧ (s o third st).myCore.cqFull = false ∧
        (s o third st).acqBlocked = false ∧ (form = 1 → ((s o third st).myCore.tile 5).err = false ∧
          ((s o third st).myCore.tile 5).st = .ready))
    ok 0 0x000007C000000040#64 0#64 .empty = true ∧ ok 1 0x000007C000000040#64 0#64 .ready = true ∧
      ok 2 0x000007C000000040#64 1#64 .empty = true ∧ ok 3 0x00007C0000200040#64 0x100#64 .empty = true ∧
      ok 4 0x0000078000010020#64 0x100#64 .empty = true ∧
      Ready { Uses.none with sr := [.s 0#4, .s 1#4] ++ ([.s 2#4] : List SReg) } (s 0x000007C000000040#64 1#64 .ready) ∧
      Ready { Uses.none with sr := [.s 0#4] } (answered (s 0#64 0#64 .ready) 0#64) ∧
      (answered (s 0#64 0#64 .ready) 0#64).me.hold = .done 0#64 ∧ (s 0#64 0#64 .ready).me.hold = .none ∧
      (∃ x, access (s 0#64 0#64 .ready) 0x4000#64 1 1 needLoad true = .ok x ∧ x.1.va = 0x4000) ∧
      ∃ x, readNow (s 0#64 0#64 .ready) 0x4000#64 64 64 = .ok x ∧ x.1.length = 64 :=
  ⟨by decide +kernel, by decide +kernel, by decide +kernel, by decide +kernel, by decide +kernel, ready_of (by decide +kernel),
    ready_of (by decide +kernel), by decide +kernel, by decide +kernel, ok_of (by decide +kernel), ok_of (by decide +kernel)⟩

/-- A command at the head of a queue, for a copy in, and a copy out that has been registered and that has not, and one whose page is
missing; the last bytes of a transfer. -/
theorem witness_CopyEngineSteps :
    let who : Who := { cid := 0, slot := 0, uid := 7 }
    let q (form addr : Nat) : CopyCmd :=
      { tok := 3, who := who, tile := 5, form := form, addr := addr, opnd := 0x40#64,
        third := 0#64, scope := 0, block := none, blockAddr := 0, lvlFam := none, sys := false, fam := none, tag := 0, from_ := 0, armed := false, gone := [] }
    let s (form addr : Nat) (st : TileSt) : State :=
      (withTile (base xs0) { tile0 with st := st, expected := 64 }).updCore 0 fun c => { c with
        cq := [q form addr]
        mbox := [{ ent := 0, vpn := 0x700, acc := 0, st := .unclaimed, ce := false, stale := false, inval := [], waiters := [],
                   ceVa := 0, seq := 1 }] }
    let prog : CopyProg := { list := [], src := [], marks := [], k := 1, t0 := 0, u0 := 0, land := 0, u := some 0 }
    let u : XUnit :=
      { due := 0, off := 0, va := 0x4000, pa := 0x2000, lvl := none, cache := 0, bytes := List.replicate 64 9#8,
        pois := false }
    let x : Xfer :=
      { tok := 3, cmd := q 0 0x4000, recvs := [{ cid := 0, lag := 0, next := 0, failed := false }], units := [u],
        whole := true, prog := prog, landed := 0, flags := fNone, fail := none, failAt := 0, ended := false, away := false }
    let t := (withTile (base xs0) { tile0 with st := .filling, expected := 64 }).updCore 0 fun c => { c with xfers := [x] }
    let ok (form addr : Nat) (st : TileSt) (p : BuildStop → State → Bool) : Bool :=
      let z := s form addr st
      decide (Memory.wf z.mem = true ∧ (z.core 0).cq = [q form addr] ∧ (z.core 0).cqHalted = false ∧ (z.core 0).cqWait = false ∧
        (z.core 0).cqFree ≤ z.now ∧ (z.core 0).xfers = [] ∧ z.storesBefore (q form addr) = false) &&
      someB (z.partOf 0) (fun p => p.gsst == .running) &&
      someB (geomOf form 0x40 0) fun g =>
        let x := z.copyXfer 0 (q form addr) g
        let b := ((z.copyTaken 0 (q form addr) x).build 0 (q form addr) g [] x.prog).1
        p b.stop b.s
    let goes : BuildStop → State → Bool
      | .none, _ => true
      | _, _ => false
    let misses : BuildStop → State → Bool
      | .miss va _, b => (b.core 0).mbox.any fun m => m.vpn == va / 2 ^ 16
      | _, _ => false
    ok 0 0x4000 .filling goes = true ∧ ok 1 0x4000 .ready goes = true ∧
      (((s 1 0x4000 .ready).core 0).tile 5).out = none ∧ (((s 1 0x4000 .ready).core 0).tile 5).err = false ∧
      (let z := (s 1 0x4000 .ready).updTile 0 5 fun y => { y with out := some 4, readers := [4] }
       ((z.core 0).tile 5).out = some 4 ∧ ((z.core 0).tile 5).readers = [4] ∧ ((z.core 0).tile 5).st = .ready ∧
         (z.core 0).cq = [q 1 0x4000] ∧ someB (geomOf 1 0x40 0) (fun g =>
           let x := z.copyXfer 0 (q 1 0x4000) g
           goes ((z.copyTaken 0 (q 1 0x4000) x).build 0 (q 1 0x4000) g [] x.prog).1.stop z) = true) ∧
      ok 0 0x7000000 .filling misses = true ∧
      t.xfer 3 = some (0, x) ∧ x.fail = none ∧ u.lvl = none ∧ t.awayAt u.pa = none ∧ u.due ≤ t.now ∧ t.tileBad 0 5 u.off u.bytes.length = none ∧ ((t.core 0).tile 5).st = .filling ∧
      ((t.core 0).tile 5).arrived + u.bytes.length = ((t.core 0).tile 5).expected := by decide +kernel

/-- A region of one page beside another, its descriptor in the scratchpad; and the region with the highest number. -/
theorem witness_RegionInstructionsComplete :
    let g (n b : Nat) : Region := { num := n, base := b, size := 64, ro := false, elem := 3, merge := 1 }
    let s := (inScratch (paged (base [0x1000#64, 63#64])) 0x1000 (dwords [0x200000, 64, 0x301, 0])).updPart 0 fun p =>
      { p with regions := [g 0 0x200040, g 63 0x300000] }
    Ready { Uses.none with sr := [.s 0#4], sw := [.s 5#4] } s ∧ s.me.hold = .none ∧ s.acqBlocked = false ∧
      (∃ x, access s 0x1000#64 32 32 needLoad true = .ok x ∧ x.1.va = 0x1000) ∧
      (∃ x, readNow s 0x1000#64 32 32 = .ok x ∧ (x.2.part 0).freeRegion = some 1 ∧
        rgnBad (leVal (x.1.take 8)) (leVal ((x.1.drop 8).take 8)) (leVal ((x.1.drop 16).take 8)) (leVal ((x.1.drop 24).take 8)) =
          false ∧
        (∀ y ∈ (x.2.part 0).regions, y.base + y.size ≤ 0x200000 ∨ 0x200040 ≤ y.base) ∧
        okB (access s 0x1000#64 32 32 needLoad true) (fun a =>
          okB (rgnPages 0x200040 none ([0x200000, 64, 0x301, 0] ++ [s.readLat s.cur.cid a.1 (s.myLevel a.1.va) 32]) 2 x.2 0x200000
            0 false) fun y => y.2.1 == false) = true) ∧
      Ready { Uses.none with sr := [.s 1#4] } s ∧ (s.regVal (.s 1#4)).toNat < 64 ∧
      ((s.part 0).regions.find? fun y => y.num == 63) = some (g 63 0x300000) ∧
      (∀ r ∈ (s.part 0).revs, g 63 0x300000 ∉ r.snap) ∧ (answered s 1#64).me.hold = .done 1#64 ∧
      ((answered s 1#64).me.prog = [] ∧ (s.part 0).away = false) :=
  ⟨ready_of (by decide +kernel), by decide +kernel, by decide +kernel, ok_of (by decide +kernel), ok_of (by decide +kernel),
    ready_of (by decide +kernel), by decide +kernel⟩

/-- User and system registers, the first and the last that each clause takes; a fault armed for slot 16. -/
theorem witness_ControlRegistersComplete :
    let s := base [0xFFFFFFFFFFFFFFFF#64]
    let k := sysBase [0xFFFFFFFFFFFFFFFF#64]
    Ready { Uses.none with sr := [.s 0#4], sw := [.s 5#4] } s ∧ Ready { Uses.none with sr := [.s 0#4], sw := [.s 5#4] } k ∧
      Ready { Uses.none with sr := [.zr], sw := [.s 5#4] } s ∧ k.me.sys = true ∧ (SReg.s 0#4) ≠ .zr ∧
      (0x001#12).toNat ∉ [0x021, 0x030, 0x031, 0x111, 0x122, 0x133, 0x140, 0x141, 0x142, 0x143, 0x144] ∧
      (0x132#12).toNat ∉ [0x021, 0x030, 0x031, 0x111, 0x122, 0x133, 0x140, 0x141, 0x142, 0x143, 0x144] ∧
      (evAt s (.finjWrite 0 0xFFFFFFFF00001F0F#64)).evt = .finjWrite 0 0xFFFFFFFF00001F0F#64 ∧
      (evAt s (.finjInject 0 16 0 false)).evt = .finjInject 0 16 0 false ∧ 16 < 17 :=
  ⟨ready_of (by decide +kernel), ready_of (by decide +kernel), ready_of (by decide +kernel), by decide +kernel⟩

/-- Steward code with an aligned epc, and an extension that stays pending for the bundle there, a walker with a miss, a range of
one byte, an entry for each TLB, an address to invalidate, and each operation of MRES. -/
theorem witness_SystemInstructionsComplete :
    let s := paged (sysBase [0x200000#64, 1#64, 0x10000000#64, 0x30001B#64, 0#64, 2#64])
    let m : Miss :=
      { ent := 15, vpn := 0x20, acc := 3, st := .unclaimed, ce := false, stale := false, inval := [],
        waiters := [{ slot := 0, uid := 7, acc := 3, va := 0x200000 }], ceVa := 0, seq := 1 }
    let w := { ((s.setThread 0 16 (some { thr xs0 with sys := true, uid := 8 })).updCore 0 fun c => { c with mbox := [m] }) with
      cur := { Cur.idle with slot := 16 } }
    Ready Uses.none s ∧ s.me.sys = true ∧ s.cur.slot ≠ 16 ∧ s.me.csr.epc.toNat % 8 = 0 ∧ s.me.hold = .none ∧
      Ready Uses.none (s.updMe fun t => { t with kextKept := some 5#32 }) ∧ Ready Uses.none w ∧ w.me.sys = true ∧ w.cur.slot = 16 ∧ oldestMiss w.myCore.mbox = some m ∧
      Ready { Uses.none with sr := [.s 0#4, .s 1#4] } s ∧ s.acqBlocked = false ∧ s.regVal (.s 1#4) ≠ 0#64 ∧
      (∃ x, overRange false needLoad iciL1 0x200000 1 0 2 s { done := 0, lines := 0, ack := 0 } = .ok x ∧ x.1.done = 1) ∧
      (∃ y, access s (s.regVal (.s 0#4)) 1 1 needLoad true = .ok y ∧
        y.2.refusedLine y.1 1 32 0 (((y.2.core 0).l1.filter fun l => l.over y.1.pa 1 && l.dirty != 0#32).map (·.line)) = none ∧
        y.2.spoiltLine y.2.cur.cid (·.over y.1.pa 1) = none) ∧
      Ready { Uses.none with sr := [.s 2#4, .s 3#4] } s ∧
      tlbwBad (s.regVal (.s 2#4)).toNat (s.regVal (.s 3#4)).toNat = false ∧
      (let e : TlbEntry := { vpn := 0x20, sz := 0, w1 := 0x30001B#64 }
       e.vpn = (s.regVal (.s 2#4)).toNat / 2 ^ 23 ∧ e.sz = (s.regVal (.s 2#4)).toNat / 2 ^ 21 % 4 ∧ e.w1 = s.regVal (.s 3#4) ∧
         e.covers (m.vpn * 2 ^ 16) = true ∧ (m.stale = true ∨ m.inval.any e.covers = true) = False ∧
         ({ m with inval := [m.vpn * 2 ^ 16] } : Miss).inval.any e.covers = true ∧
         ({ w.updCore 0 (fun c => { c with mbox := [{ m with stale := true }] }) with cur := w.cur }).myCore.mbox = [{ m with stale := true }]) ∧
      Ready { Uses.none with sr := [.s 0#4, .s 4#4] } s ∧ (s.regVal (.s 4#4)).toNat < 8 ∧
      Ready { Uses.none with sr := [.s 5#4] } s ∧ (s.regVal (.s 5#4) = 2#64 ∧ s.regVal (.s 1#4) = 1#64) ∧
      Ready { Uses.none with sr := [.s 0#4, .s 1#4] } (answered s 0#64) ∧ (answered s 0#64).me.hold = .done 0#64 := by
  refine ⟨ready_of ?_, ?_, ?_, ?_, ?_, ready_of ?_, ready_of ?_, ?_, ?_, ?_, ready_of ?_, ?_, ?_, ok_of ?_, ok_of ?_, ready_of ?_, ?_,
    ?_, ready_of ?_, ?_, ready_of ?_, ?_, ready_of ?_, ?_⟩
  case refine_18 => simp only [eq_iff_iff]; decide +kernel
  all_goals decide +kernel

/-- A walker before the highest page's miss, unclaimed and claimed; a reply for a suspended one; a migration; room for all
that is in the fault queue. -/
theorem witness_PageMissesAreServed :
    let m (st : MissSt) : Miss :=
      { ent := 15, vpn := 2 ^ 41 - 1, acc := 3, st := st, ce := false, stale := false, inval := [],
        waiters := [{ slot := 0, uid := 7, acc := 3, va := 0 }], ceVa := 0, seq := 1 }
    let h := (base xs0).updMe fun t => { t with hold := .wait .translation }
    let s (st : MissSt) : State :=
      { ((h.setThread 0 16 (some { thr [15#64] with sys := true, uid := 8 })).updCore 0 fun c => { c with mbox := [m st] }) with
        cur := { Cur.idle with slot := 16 } }
    let v : W64 := 0xF00000000#64
    let p := (s .suspended).updPart 0 fun p => { p with hfqhead := 0xFFFFFFFF#64, hfqtail := 3#64 }
    Ready { Uses.none with sr := [.zr], sw := [.s 5#4] } (s .unclaimed) ∧ (s .unclaimed).me.sys = true ∧
      (s .unclaimed).me.hold = .none ∧ oldestMiss (s .unclaimed).myCore.mbox = some (m .unclaimed) ∧
      Ready { Uses.none with sr := [.s 0#4], sw := [.zr] } (s .claimed) ∧ (s .claimed).myCore.mbox = [m .claimed] ∧
      ((s .claimed).regVal (.s 0#4)).toNat = 15 ∧
      someB ((s .claimed).thread 0 0) (fun th => th.uid = 7 ∧ th.hold = .wait .translation) = true ∧
      p.replyOk 0 v.toNat = true ∧ (p.part 0).away = false ∧ v.getLsbD 36 = false ∧ v.extractLsb' 40 2 = 0#2 ∧
      v.toNat / 2 ^ 16 % 2 ^ 11 = 0 ∧ v.toNat / 2 ^ 32 % 16 = 15 ∧ (p.core 0).mbox = [m .suspended] ∧ (p.core 0).lost = [] ∧
      15 ∈ ((p.updCore 0 fun c => { c with lost := [15] }).core 0).lost ∧
      oldestMiss (s .claimed).myCore.mbox = none ∧
      (0xFFFF0000#64).toNat % 2 ^ 16 = 0 ∧ ((p.updPart 0 fun q => { q with gsst := .out }).part 0).away = true ∧
      (((3 : Nat) : Int) - (p.part 0).hfqhead.toNat) % 2 ^ 32 ≤
        (((p.part 0).hfqtail.toNat : Int) - (p.part 0).hfqhead.toNat) % 2 ^ 32 ∧ (p.part 0).hfqhead.toNat < 2 ^ 32 :=
  ⟨ready_of (by decide +kernel), by decide +kernel, by decide +kernel, by decide +kernel, ready_of (by decide +kernel),
    by decide +kernel⟩

/-- Entry 15 of core 0 waits for room in a queue of two records, and the host's head makes room for one. -/
theorem witness_PageMissesAreServed_posting :
    let m : Miss :=
      { ent := 15, vpn := 2 ^ 41 - 1, acc := 3, st := .unposted, ce := false, stale := false, inval := [], waiters := [], ceVa := 0, seq := 1 }
    let s := evAt (((base xs0).updCore 0 fun c => { c with mbox := [m] }).updPart 0 fun p =>
      { p with hfqsz := 1#64, hfqtail := 2#64, hfqbase := 0x8000#64 }) (.hfqheadWrite 0 1#64)
    s.Sound ∧ (s.part 0).away = false ∧ s.partNum 0 = 0 ∧ (s.part 0).hasSg (sgOf 0) = true ∧ (s.core 0).mbox = [m] ∧ m.st = .unposted ∧
      s.cores.map (·.cid) = [0] ∧ (1 : Int) ≤ (((s.part 0).hfqtail.toNat : Int) - (s.part 0).hfqhead.toNat) % 2 ^ 32 ∧
      ((s.part 0).hfqtail.toNat + 2 ^ 32 - 1) % 2 ^ 32 < 2 ^ ((s.part 0).hfqsz.toNat % 32) := by
  unfold State.Sound; decide +kernel

/-- Each state of service, a slice that runs or none, and the last slice of the last die. -/
theorem witness_ServiceOfTheDevice :
    let s := base xs0
    let at_ (v : Service) (t : Option Nat) (x : List Slice) : State := { s with dev := { s.dev with service := v, trained := t }, slices := x }
    (at_ .recovery none []).dev.service = .recovery ∧ (at_ .reduced none []).dev.service = .reduced ∧
      (at_ .reduced none []).dev.trained = none ∧ (∀ k ∈ [0, 127], k < 128) ∧
      (at_ .reduced (some 5) []).dev.trained.isSome = true ∧ (∀ x ∈ (at_ .reduced (some 5) [ready0]).slices, x.st ≠ .running) ∧
      ((at_ .reduced (some 5) [slice0]).slices.map (·.uid)).Nodup ∧ (at_ .reduced (some 5) [slice0]).dying 30 = false ∧
      ((at_ .failed (some 5) []).dev.trained.isSome = true ∧ (at_ .failed none []).dev.trained = none ∧
        (at_ .failed none []).dev.service = .failed) ∧ (3, 31) ∉ s.dev.retired ∧
      (∃ j < 32, j ≠ 31 ∧ (3, j) ∉ s.dev.retired) ∧
      (s.parts.all fun p => p.valid && p.gsst == .running && (List.range 5).any fun i => p.hasSg (0 * 5 + i)) = true := by
  decide +kernel

/-- The last port, up, at the eighth and the ninth failure. -/
theorem witness_LinksFailAndTrain :
    let s := base xs0
    let p (n : Nat) : Port := { up := true, half := false, failed := false, replays := n }
    let at_ (n : Nat) : State := { s with dev := { s.dev with ports := s.dev.ports.set 11 (p n) } }
    (at_ 7).dev.port 11 = some (p 7) ∧ (at_ 8).dev.port 11 = some (p 8) ∧ (p 8).up = true ∧ (p 8).failed = false ∧
      7 < 8 ∧ 8 ≤ (p 8).replays ∧ s.dev.service = .full := by decide +kernel

/-- Where that port is up and alone on the route to device 1, a request that is made goes over it, whatever the hash of its address:
a load that has been performed, and a wait on its way; the port's failure is in the step. -/
theorem witness_LinksFailAndTrain_requests :
    let s := base xs0
    let p : Port := { up := true, half := false, failed := false, replays := 0 }
    let t : State := { s with dev := { s.dev with ports := s.dev.ports.set 11 p, routes := [{ dev := 1, mask := 0x800#12, hops := 1 }] } }
    let e : State := evAt { t with reqs := [{ rq (.load false) (2 ^ 49) 8 with st := .performed, via := [(2 ^ 49, 11)] },
      { rq (.fe .ldf 0#64) (2 ^ 49) 8 with via := [(2 ^ 49, 11)] }] } (.linkFailure 11)
    t.portAt (2 ^ 49) = some 11 ∧ e.dev.port 11 = some p ∧ p.up = true ∧ p.failed = false ∧
      ∀ r ∈ e.reqs, (r.st = .performed ∨ r.st = .sent ∧ r.from_ ≤ e.now ∧ r.kind = .fe .ldf 0#64) ∧ r.parts = [] ∧ r.lanes = [] ∧
        r.via = [(2 ^ 49, 11)] := by
  intro s p t e
  refine ⟨?_, by decide +kernel⟩
  have h1 : t.loc (2 ^ 49) = .remote 1 := by decide +kernel
  have h2 : (t.dev.routes.find? fun r => r.dev == 1) = some { dev := 1, mask := 0x800#12, hops := 1 } := by decide +kernel
  have h3 : (List.range 12).filter (t.dev.usable { dev := 1, mask := 0x800#12, hops := 1 }) = [11] := by decide +kernel
  simp only [State.portAt, h1, State.portOf, h2, h3, List.length_singleton, Nat.mod_one]
  rfl

/-- An access that ends with the window's last byte, one behind it, one of nine bytes, one that finds an uncorrectable error, in HBM
and under L2; each word of the control window, one outside its map, a multiple of the window's size and another offset; a halted thread
in slot 16; core 1279. -/
theorem witness_HostAndFirmwareAccess :
    let s := base xs0
    let w := s.setThread 0 16 (some { thr xs0 with hold := .wait .halted })
    let b := { s with bad := [0x1000] }
    Memory.wf s.mem = true ∧ s.bar2Bad (s.dev.bar2Size - 8) 8 = false ∧ s.bar2Bad (s.dev.bar2Size - 7) 8 = true ∧
      s.bar2Bad 0 9 = true ∧ (s.bar2Bad 0x1000 8 = false ∧ s.spoilt 0x1000 8 = false) ∧
      (b.bar2Bad 0x1000 8 = false ∧ b.spoilt 0x1000 8 = true ∧ b.l2Hit 0x1000 8 = false) ∧
      (s.controlWord 0x100 = some 0#64 ∧ s.controlWord 0x101 = none ∧ s.controlWord 0 = some s.dev.status) ∧
      ((0x3000000000#64).toNat % s.dev.bar2Size = 0 ∧ (0x8#64).toNat % s.dev.bar2Size ≠ 0) ∧ s.dev.bar2.toNat = 0 ∧ s.dev.service = .full ∧ 19 < 20 ∧ 7 < 8 ∧ 1279 < 1280 ∧
      someB (w.thread 0 16) (fun th => th.hold == .wait .halted) = true ∧ 15 ∈ s.freeSlots 0 := by decide +kernel

/-- A free partition number and free supergroups; a partition that is out, one whose end has been applied, and one in each
state of a switch. -/
theorem witness_PartitionsAreControlled :
    let s := base xs0
    let v : W64 := 0x80000000000FFFFE#64
    let at_ (g : GsSt) : State := s.updPart 0 fun p => { p with gsst := g, swtime := 1#64, gsEnded := true }
    let later (g : GsSt) : State := { at_ g with now := 2 }
    let req := { rq (.load false) 64 8 with part := 0 }
    ((s.part 19).valid = false ∧ v.getLsbD 63 = true ∧ psgBad v = false ∧ v.setWidth 20 ≠ 0#20 ∧
      ∀ q ∈ s.parts, q.valid = true → q.gsst ≠ .out → q.sgs &&& v.setWidth 20 = 0#20) ∧
      ((0#64).getLsbD 63 = false ∧ psgBad 0#64 = false ∧ ((at_ .out).part 0).gsst = .out ∧
        ((at_ .stopped).part 0).gsst = .stopped ∧ ((at_ .stopped).part 0).gsEnded = true) ∧
      (s.calm (s.part 0) = true ∧ ((at_ .stopping).part 0).gsst = .stopping ∧
        let b := (at_ .stopping).updCore 0 fun c => { c with mq :=
          [{ tok := 1, who := { cid := 0, slot := 0, uid := 7 }, ops := [.swap], follow := false, from_ := 0 }] }
        b.calm (b.part 0) = false) ∧
      ((s.slices.map (·.uid)).Nodup ∧ ((later .saving).part 0).swtime ≠ 0#64 ∧
        ((later .saving).part 0).swtime.toNat ≤ (later .saving).tsc ∧ ((later .restoring).part 0).valid = true ∧
        ∀ q ∈ (at_ .out).parts, q.num ≠ 0 → q.valid = true → q.gsst ≠ .out → q.sgs &&& ((at_ .out).part 0).sgs = 0#20) ∧
      (s.slices.all fun x => !s.dying x.uid) = true ∧
      (let done := { rq (.store 5#64) 64 8 with st := .performed }
       (reqAt (at_ .out) done (.messageSave 0 50)).req 50 = some done ∧ done.err.isSome = false) ∧
      ((reqAt (at_ .out) req (.messageSave 0 50)).req 50 = some req ∧ req.st = .sent ∧ ((at_ .out).part 0).away = true ∧
        ((at_ .out).part 0).msgs.length < (((at_ .out).updPart 0 fun p => { p with msgRoom := 1 }).part 0).msgRoom ∧
        (((at_ .out).updPart 0 fun p => { p with msgRoom := 0 }).part 0).msgRoom ≤ ((at_ .out).part 0).msgs.length) := by
  decide +kernel

/-- As Core.Fits, decided. -/
def fitsB (c : Core) : Bool :=
  decide (c.cid < 1280) && c.fifos.all (fun f => decide (f.bank < 32 ∧ c.bank f.bank ≠ bankScratch ∧ f.bytes.length ≤ 0x8000)) &&
    decide ((c.fifos.map (·.bank)).Nodup) &&
    c.acc.toList.all (fun a => decide (a.vals.length ≤ 1024) && a.vals.all fun v =>
      if a.fp then decide (0 ≤ v ∧ v < 2 ^ 64) else decide (-2 ^ 63 ≤ v ∧ v < 2 ^ 63)) &&
    c.slots.toList.all fun o => o.all fun th => decide (th.rstack.length ≤ 8 ∧ th.depth < 2 ^ 64)

theorem fits_of {c : Core} (h : fitsB c = true) : c.Fits := by
  simp only [fitsB, Bool.and_eq_true, decide_eq_true_eq, List.all_eq_true] at h
  obtain ⟨⟨⟨⟨h1, h2⟩, h3⟩, h4⟩, h5⟩ := h
  refine ⟨h1, h2, h3, fun k => ?_, fun slot th ht => ?_⟩
  · obtain ⟨a, b⟩ := h4 (c.acc.get k) (by simp [Vector.get])
    refine ⟨a, fun v hv => ?_⟩
    have := b v hv
    split at this <;> simp_all
  · unfold Core.thread at ht
    split at ht
    · have := h5 (c.slots[slot]) (by simp)
      simpa [ht] using this
    · simp at ht

/-- A drained partition, and one whose thread still issues to a scratch bank of its own; what a core of it has fits its region, and an
access of partition 1 waits in a bank of it. -/
theorem witness_PartitionsAreControlled_saving :
    let s (g : GsSt) : State := evAt ((base xs0).updPart 0 fun p => { p with gsst := g, swtime := 1#64, saveBase := 0x100000 }) (.gangSwitch 0)
    let r := { rq (.fe .ldf 0#64) (scratchPa 0 64) 8 with part := 1, st := .waiting, who := { cid := 64, slot := 0, uid := 8 } }
    let a := { s .saving with now := 2, reqs := [r] }
    let w (rs : List Req) : State := ((({ s .running with reqs := rs }).withdraw ((s .running).part 0)).updPart 0 fun p => { p with gsst := .stopping })
    (∀ cid ∈ sgsCores (a.part 0).sgs, ((a.cores.foldl (fun u c => if (a.part 0).hasSg (sgOf c.cid) then u.releaseLines c.cid else u) a).core
      cid).Fits) ∧ a.Sound ∧ (a.part 0).gsst = .saving ∧ (a.part 0).swtime.toNat ≤ a.tsc ∧ a.waitsIn (a.part 0) r = true ∧
      ((w []).drained ((s .running).part 0) = true) ∧
      ((w [{ rq (.store 5#64) (scratchPa 0 64) 8 with st := .sent }]).drained ((s .running).part 0) = false) := by
  refine ⟨fun cid h => fits_of ?_, by unfold State.Sound; decide +kernel⟩
  revert cid
  decide +kernel

/-- Memory's bytes from a region at 0x100000: one of the scratchpad, a tag, the value 7 of accumulator 0 and slot 3's PC 0x1000. -/
def saved0 : List Host.Cell := [(0x100005, 9#8), (0x200000, 1#8), (0x20C000, 7#8), (0x217701, 0x10#8)]

/-- A core whose thread and accumulator those are. -/
def savedCore : Core :=
  { Core.fresh 0 0 with
    slots := (Vector.replicate 17 none).set 3 (some { Thread.blank with pc := 0x1000#64 })
    acc := (Vector.replicate 4 Acc.zero).set 0 { Acc.zero with vals := [7] } }

theorem savedCore_thread {slot : Nat} {th : Thread} (h : savedCore.thread slot = some th) :
    slot = 3 ∧ th = { Thread.blank with pc := 0x1000#64 } := by
  have key : ∀ k : Fin 17, savedCore.thread k.val = if k = 3 then some { Thread.blank with pc := 0x1000#64 } else none := by
    decide +kernel
  by_cases hk : slot < 17
  · have := key ⟨slot, hk⟩
    rw [h] at this
    split at this
    · exact ⟨by simp_all [Fin.ext_iff], by simpa using this⟩
    · simp at this
  · simp [Core.thread, hk] at h

/-- The region at 0x100000 holds that core, where its scratchpad has a byte 9 and a full word. -/
theorem savedCore_savedAt {u t : State} (hm : u.mem = [(scratchPa 0 5, 9#8)]) (ht : u.tags = [scratchPa 0 0 / 8])
    (hs : t.mem = saved0) : savedCore.SavedAt u 0x100000 t := by
  have pa (off : Nat) : scratchPa savedCore.cid off = 0x800000000000 + off := by
    simp [scratchPa, Config.scratchBase, savedCore, Core.fresh]
  refine ⟨fun off h _ => ?_, fun off h _ => ?_, fun f h => by simp [savedCore, Core.fresh] at h, fun slot th i w h1 h2 => ?_,
    fun slot th i h1 h2 => ?_, fun k i v h => ?_⟩
  · rw [hm, hs, pa, show scratchPa 0 5 = 0x800000000005 from rfl]
    simp only [saved0, Memory.get]
    split_ifs <;> first | rfl | omega
  · have e : scratchPa savedCore.cid off / 8 ∈ u.tags ↔ off / 8 = 0 := by
      rw [ht, pa, List.mem_singleton, show scratchPa 0 0 / 8 = 0x100000000000 from rfl]
      omega
    refine Eq.trans ?_ (show decide (off / 8 = 0) = _ from decide_eq_decide.mpr e.symm)
    rw [hs, show off / 64 = off / 8 / 8 by omega]
    by_cases h8 : off / 8 < 8
    · have key : ∀ k < 8, (Memory.get saved0 (0x100000 + 0x100000 + k / 8)).getLsbD (k % 8) = decide (k = 0) := by decide
      exact key _ h8
    · have a : Memory.get saved0 (0x100000 + 0x100000 + off / 8 / 8) = 0#8 := by
        simp only [saved0, Memory.get]
        split_ifs <;> first | rfl | omega
      simp [a, show ¬off / 8 = 0 by omega]
  · obtain ⟨rfl, rfl⟩ := savedCore_thread h1
    have key : ∀ i : Fin 45, Memory.val saved0 (contextRegion 0x100000 3 + 8 * i.val) 8 =
        (({ Thread.blank with pc := 0x1000#64 } : Thread).context.getD i.val 0#64).toNat := by decide +kernel
    obtain ⟨hi, rfl⟩ := List.getElem?_eq_some_iff.mp h2
    have := key ⟨i, hi⟩
    rw [hs, this]
    simp [List.getD, h2]
  · obtain ⟨rfl, rfl⟩ := savedCore_thread h1
    simp [Thread.blank] at h2
  · have key : ∀ k : Fin 4, (savedCore.acc.get k).vals = if k = 0 then [7] else [] := by decide +kernel
    rw [key] at h
    split at h
    · obtain ⟨hi, rfl⟩ := List.getElem?_eq_some_iff.mp h
      simp only [List.length_singleton, Nat.lt_one_iff] at hi
      subst hi
      simp_all
      decide +kernel
    · simp at h

/-- The core's partition is out, its region in memory. -/
theorem witness_PartitionsAreControlled_restoring :
    let u : State := { base [] with mem := [(scratchPa 0 5, 9#8)], tags := [scratchPa 0 0 / 8] }
    let s : State := { (base []).updPart 0 fun p => { p with gsst := .out, saveBase := 0x100000, saved := [savedCore] } with mem := saved0 }
    let p := s.part 0
    s.Sound ∧ p.valid = true ∧ p.gsst = .out ∧ (p.saved.map (·.cid)).Nodup ∧ (∀ c ∈ p.saved, c.Fits ∧ p.hasSg (sgOf c.cid) = true) ∧
      savedCore ∈ p.saved ∧ savedCore.scratchAt 5 = true ∧
      savedCore.SavedAt u (p.region (((sgsCores p.sgs).idxOf? savedCore.cid).getD 0)) s := by
  intro u s p
  have hb : p.region (((sgsCores p.sgs).idxOf? savedCore.cid).getD 0) = 0x100000 := by decide +kernel
  refine ⟨by unfold State.Sound; decide +kernel, by decide +kernel, by decide +kernel, by decide +kernel, fun x hx => ?_,
    by decide +kernel, by decide +kernel, hb ▸ savedCore_savedAt rfl rfl rfl⟩
  obtain rfl : x = savedCore := List.mem_singleton.mp hx
  exact ⟨fits_of (by decide +kernel), by decide +kernel⟩

/-- The reset of the last core, in a device whose memory is in its form. -/
theorem witness_ResetState :
    (evAt (base xs0) (.coreReset 1279)).evt = .coreReset 1279 ∧ 1279 < 1280 ∧ Memory.wf (base xs0).mem = true := by
  decide +kernel

theorem witness_MemoryStaysCanonical : State.reset.Sound ∧ ∃ t, step State.reset = .next t :=
  ⟨State.reset_sound, by unfold step; exact ⟨_, rfl⟩⟩

/-- A bundle that is loaded and issued: both slots commit, the C-slot holds its thread, surely or not, traps at decode, or is no
instruction. -/
def issues (w : Nat) (res : IssueRes) (sure : Bool := false) : Bool :=
  let s := State.reset.loaded (toLe 8 w)
  decide (s.agenda = [] ∧ s.dueNext 0 = none ∧ s.turn = [0] ∧ s.answeredSlots 0 = [] ∧ s.issueOrder 0 = [0] ∧
      (s.issuing 0 0).me.stall = none) &&
    match (s.issuing 0 0).fetch with
    | .ok w0 w1 t => decide (t.me.errs = [] ∧ t.heldFault w0 = none) &&
      match (decodeWords w0 w1).c, (decodeWords w0 w1).a with
      | .ok c, .ok a =>
        let z : State := { t with cur := { t.cur with aDest := scalarDest a } }
        match exec c z, exec a z with
        | .next rC, .next rA => decide (rC.cur.res = res ∧ rA.cur.res = .committed ∧ sameDest c a = false ∧
            (t.dev.service = .reduced → reducedA a = false) ∧ (t.core t.cur.cid).finjOn t.cur.slot = false ∧ rC.sure c = sure) &&
            nextB (exec c { rA with cur := { z.cur with aFlags := rA.cur.aFlags } }) (fun u => u.cur.res == res)
        | _, _ => false
      | .error _, _ => decide (res = .notReady)
      | _, _ => false
    | _ => false

/-- A bundle whose C-slot holds its thread while its A-slot divides by zero, for which the thread takes a trap. -/
def holdsTrapped (w : Nat) (first : Bool) : Bool :=
  let l := State.reset.loaded (toLe 8 w)
  let s := l.updThread 0 0 fun t => { t with csr := { t.csr with fst := 0x3F0000#64 } }
  match (s.issuing 0 0).fetch with
  | .ok w0 w1 t =>
    match (decodeWords w0 w1).c, (decodeWords w0 w1).a with
    | .ok c, .ok a =>
      let z : State := { t with cur := { t.cur with aDest := scalarDest a } }
      match exec c z, exec a z with
      | .next rC, .next rA => decide (rC.cur.res = .held ∧ rA.cur.res = .trapped 7 ∧ sameDest c a = false ∧
          (!rC.sure c && rC.mayFailFirst c) = first)
      | _, _ => false
    | _, _ => false
  | _ => false

/-- Steps that are due before the cores' turns and behind them, an input, a held bundle with its answer, and bundles of each
outcome. -/
theorem witness_StepRunsDecodedInstruction :
    let f := answered ((base xs0).updMe fun t => { t with latch := BitVec.ofNat 64 0x06C00000 }) 0#64
    let due (e : Ev) : State := { base xs0 with agenda := [{ at_ := 0, what := e }] }
    (let o := (due (.homeRequest 50)).updPart 0 fun p => { p with gsst := .out }
     let o := { o with reqs := [rq (.load false) 64 8] }
     ((base xs0).awayMsg (.delegationRequest 20)).isNone = true ∧ someB (o.awayMsg (.homeRequest 50)) (fun p => p.num == 0) = true ∧
       (o.dueNext 0).isSome = true) ∧
    (State.reset.dueNext 0 = some { at_ := 0, what := .deviceReset } ∧ (base xs0).dueNext 0 = none ∧ (base xs0).turn = []) ∧
      ((due (.delegationRequest 20)).dueNext 0 = none ∧ (due (.delegationRequest 20)).dueNext 1 = some { at_ := 0, what := .delegationRequest 20 } ∧
        (due (.tileBytesArrive 0 3)).dueNext 1 = none ∧ (due (.tileBytesArrive 0 3)).dueNext 2 = some { at_ := 0, what := .tileBytesArrive 0 3 }) ∧
      (({ base xs0 with inputs := [.hfqheadWrite 0 0#64] }).dueNext 2 = none ∧ (base xs0).inputs = [] ∧ (base xs0).reqs = []) ∧
      (({ f with turn := [0] }).answeredSlots 0 = [0] ∧ (f.issuing 0 0).me.hold = .done 0#64) ∧
      readsC 0x06C00000 (.fence (hs 0) false .core 0#2) = true ∧
      (let g := (answered (cached (base [0x200000#64, 0x40#64])) partVal).updMe fun t => { t with prog := [0, 0, 0] }
       nextB (exec (.cmoClean (hs 0) (.s 0#4) (.s 1#4) false) (g.issuing 0 0)) (fun u => u.cur.res == .held &&
         !(g.core 0).finjLater 0 u.cur.remote) = true) ∧
      (nextB (exec (.fence (hs 0) false .core 0#2) (f.issuing 0 0)) (fun u => u.cur.res == .committed) &&
        nextB (exec (.fence (hs 0) false .core 0#2) (f.issuing 0 0).placeAside) (fun u => u.cur.res != .notReady)) = true ∧
      (issues 0x0C8530000000_0000 .committed && issues 0x06C00003 .held true && issues 0x07800000 .held true) = true ∧
      (issues 0x05C81000 .held && issues 0x0F000001 (.trapped 2) && issues 0x0FC00000 .notReady) = true ∧
      (holdsTrapped 0x10A2180005C81000 true && holdsTrapped 0x10A2180005C81400 false) = true ∧
      ((f.issuing 0 0).me.asideTrap = none ∧
        ((f.updMe fun t => { t with asideTrap := some { cause := 0x41, addr := 0 } }).issuing 0 0).me.asideTrap =
          some { cause := 0x41, addr := 0 }) := by
  and_intros
  all_goals decide +kernel

/-- A PC that is not aligned; a held fault at a TWAIT; the fetch of a user's bundle, and of a walker's at its physical address. -/
theorem witness_StepRunsDecodedInstruction_fetch :
    let s := State.reset.loaded (toLe 8 0)
    let p := { ((base xs0).updMe fun t => { t with pc := 0x1004#64 }) with turn := [0] }
    let h := (s.issuing 0 0).updMe fun t => { t with held := [{ at_ := 0, fail := { cause := 0x70, addr := 5 } }] }
    let w := (({ base xs0 with mem := Memory.putAll [] 0x1000 (toLe 8 0) }).setThread 0 16
      (some { thr xs0 with sys := true })).issuing 0 16
    (p.issueOrder 0 = [0] ∧ (p.issuing 0 0).me.stall = none ∧
        (match (p.issuing 0 0).fetch with | .fault _ _ => true | _ => false) = true) ∧
      ({ h with now := 1 }.heldFault 0x0AC50000 = some { at_ := 0, fail := { cause := 0x70, addr := 5 } }) ∧
      ((s.issuing 0 0).me.pc.toNat % 8 = 0 ∧ ∃ x t, (s.issuing 0 0).xlate 0 (s.issuing 0 0).me.pc.toNat 8 8 needFetch
        (!(s.issuing 0 0).me.sys) false true = .ok x t ∧ x.pa % 64 = (s.issuing 0 0).me.pc.toNat % 64 ∧
        (t.core 0).ibLine ((s.issuing 0 0).me.pc.toNat / 64) = none ∧ t.awayAt x.pa = none ∧ t.homeCause 0 x.own false x.pa 8 2 = none) ∧
      ∃ x t, w.xlate 0 w.me.pc.toNat 8 8 needFetch (!w.me.sys) true true = .ok x t ∧ x.pa = 0x1000 ∧
        t.awayAt x.pa = none ∧ t.homeCause 0 x.own false x.pa 8 2 = none :=
  ⟨by decide +kernel, by decide +kernel, ⟨by decide +kernel, xr_of (by decide +kernel)⟩, xr_of (by decide +kernel)⟩

theorem witness_EncodedInstructionsDecode :
    Instr.wf (.mdrn (hs 7) 63#6 (.s 15#4) true 6#3 3#2) = true ∧
      (encode (.mdrn (hs 7) 63#6 (.s 15#4) true 6#3 3#2)).isSome = true ∧
      hdr? (.mdrn (hs 7) 63#6 (.s 15#4) true 6#3 3#2) = some (hs 7) ∧ Instr.wf .nop = true ∧ encode .nop = some 0 ∧
      hdr? .nop = none := by decide +kernel

theorem witness_DecodedWordsEncode :
    readsC 0x0D3F7FFF (.mdrn (hs 0) 63#6 (.s 15#4) true 7#3 3#2) = false ∧
      readsC 0x0D3F005F (.mdrn (hs 0) 63#6 (.s 0#4) true 7#3 3#2) = true ∧
      readsA 0x7E329800 (.maluAnd 1#2 2#2 3#2) = true ∧ 0x7E329800 < 2 ^ 32 := by decide +kernel

/-- A load that leaves its thread in its slot. -/
theorem witness_RegistersAndMemoryElsewhere :
    let s := base [0x1000#64]
    let i : Instr := .ld (hs 0) (.s 1#4) (.s 0#4) { sz := 3#2, ord := 0#2, sc := .core, dsp := 0#5 }
    s.Stands ∧ keepsMemory i = true ∧ keepsRegisters i = true ∧
      nextB (exec i s) (fun t => t.cur.res == .committed && (t.thread 0 0).any fun th => th.uid == s.me.uid) = true := by
  refine ⟨by unfold State.Stands; decide +kernel, by decide, by decide, ?_⟩
  decide +kernel

/-! Single steps whose results the manual gives. -/

/-- The scalar value, and the flags, that an A-slot instruction leaves. -/
def leaves (i : Instr) (s : State) (v : W64) (fl : Flags := fNone) : Bool :=
  match exec i s with
  | .next t => (t.me.flights.map fun f => f.val.setWidth 64) == [v] && t.cur.aFlags == fl && t.cur.res == .committed
  | _ => false

/-- Element j of width w of what a vector instruction leaves. -/
def leavesElem (i : Instr) (s : State) (w j v : Nat) : Bool :=
  match exec i s with
  | .next t => (t.me.flights.map fun f => elemAt f.val w j) == [v]
  | _ => false

/-- Chapter 6: an immediate count keeps its low bits, and a .w result is sign-extended even for SHR. -/
theorem test_shifts :
    leaves (.shl (.s 1#4) (.s 0#4) (.imm (-1#10))) (base [1#64]) 0x8000000000000000#64 = true ∧
    leaves (.shr (.s 1#4) (.s 0#4) (.reg .zr true)) (base [0x80000000#64]) 0xFFFFFFFF80000000#64 = true := by decide +kernel

/-- `shadd3 s9, s2, s1` is 8·s2 + s1. -/
theorem test_shadd3 : leaves (.shadd3 (.s 9#4) (.s 2#4) (.reg (.s 1#4) false)) (base [0#64, 5#64, 3#64]) 29#64 = true := by
  decide +kernel

/-- `mulhn` of 2^63 by itself gives 2^62. -/
theorem test_mulhn :
    leaves (.mulhn (.s 7#4) (.s 2#4) (.reg (.s 2#4) false)) (base xs0) 0x4000000000000000#64 = true := by decide +kernel

/-- R157: division by zero with .w, and the most negative number by −1. -/
theorem test_division :
    leaves (.divs (.s 5#4) (.s 1#4) (.reg (.s 4#4) true)) (base xs0) 0xFFFFFFFFFFFFFFFF#64 fIDZ = true ∧
    leaves (.rems (.s 5#4) (.s 0#4) (.reg .zr true)) (base [0x1FFFFFFFE#64]) 0xFFFFFFFFFFFFFFFE#64 fIDZ = true ∧
    leaves (.divs (.s 5#4) (.s 2#4) (.reg (.s 3#4) false)) (base xs0) 0x8000000000000000#64 = true ∧
    leaves (.rems (.s 5#4) (.s 2#4) (.reg (.s 3#4) false)) (base xs0) 0#64 = true := by decide +kernel

theorem test_clz_w : leaves (.clz (.s 4#4) (.s 0#4) (.std true)) (base [0x1000000FF#64]) 24#64 = true := by decide +kernel

theorem test_bfx_bfi :
    leaves (.bfx (.s 4#4) (.s 2#4) true 11#6 8#6) (base [0#64, 0#64, 0xABC123#64]) 0xFFFFFFFFFFFFFBC1#64 = true ∧
    leaves (.bfi (.s 4#4) (.s 2#4) 31#6 32#6) (base [0#64, 0#64, 0xABC123#64, 0#64, 7#64]) 0x00ABC12300000007#64 = true := by
  decide +kernel

/-- Chapter 6's program: 7 to f32, divided by 3, narrowed to bf16. -/
theorem test_float_program :
    leaves (.i2f (.s 3#4) (.s 2#4) false { n := false, rm := 0#2 }) (base [0#64, 0#64, 7#64]) 0x40E00000#64 = true ∧
    leaves (.fdiv (.s 4#4) (.s 3#4) (.s 5#4) { n := false, rm := 0#2 })
      (base [0#64, 0#64, 0#64, 0x40E00000#64, 0#64, 0x40400000#64]) 0x40155555#64 fNX = true ∧
    leaves (.f2bf (.s 6#4) (.s 4#4) { n := false, rm := 0#2 }) (base [0#64, 0#64, 0#64, 0#64, 0x40155555#64]) 0x4015#64 fNX =
      true := by decide +kernel

/-- R163, R165: 0 × ∞ is invalid, and an integer takes a NaN as 0 with NV and a value beyond its range as the range's end. -/
theorem test_float_invalid :
    leaves (.ffma (.s 0#4) (.s 1#4) (.s 2#4) (.s 3#4) { n := false, rm := 0#2 })
      (base [0#64, 0#64, 0x7F800000#64, 0x3F800000#64]) 0x7FC00000#64 fNV = true ∧
    leaves (.f2i (.s 5#4) (.s 2#4) true { n := false, rm := 1#2 }) (base [0#64, 0#64, 0x7FC00000#64]) 0#64 fNV = true ∧
    leaves (.f2n (.s 5#4) (.s 2#4) false { n := false, rm := 0#2 }) (base [0#64, 0#64, 0xFF800000#64]) 0#64 fSAT = true := by
  decide +kernel

/-- R70's example: e5m2 0x7D widens to a signalling NaN and narrows back. -/
theorem test_payload :
    convF .e5m2 .f32 .rne 0x7D = (0x7FA00000, fNone) ∧ convF .f32 .e5m2 .rup 0x7FA00000 = (0x7D, fNone) := by decide +kernel

/-- R69: e4m3 values up to 464 round to 448 without saturation; the next f32 value saturates. -/
theorem test_e4m3_edge :
    convF .f32 .e4m3 .rne 0x43E80000 = (0x7E, fNX) ∧ convF .f32 .e4m3 .rne 0x43E80001 = (0x7E, fSAT ||| fNX) := by
  decide +kernel

/-- The table of R74. -/
theorem test_ds8 :
    [(0x40C00000, 0x21, fNone), (0x42C80000, 0x65, fNX), (0x42E00000, 0x65, fNX), (0x3F000000, 0x77, fNX),
      (0xC3020000, 0xEE, fSAT ||| fNX), (0x80000000, 0x77, fNone), (0x7FC00000, 0xF7, fNV)].all (fun x =>
      cvtElem .ds8 .f32 .rne x.1 == (x.2.1, x.2.2)) = true := by decide +kernel

/-- R79: the check of "123456789". -/
theorem test_crc : crc16 [0x31#8, 0x32#8, 0x33#8, 0x34#8, 0x35#8, 0x36#8, 0x37#8, 0x38#8, 0x39#8] = 0x29B1 := by decide +kernel

/-- R94's worked re-blocking: the header, and elements 0, 1, 2 and 32. -/
theorem test_import :
    let codes := [0x0F, 0x01, 0x2A] ++ List.replicate 29 0 ++ [0x1F] ++ List.replicate 31 0
    let r := importBlock true .e2m3 codes [0x78, 0x7F] (fun _ => false) 0
    let q := importBlock true .e2m3 codes [0x78, 0x7F] (fun _ => false) 60
    r.1.take 5 = [0xC4#8, 0x7F#8, 0x08#8, 0x00#8, 0x85#8] ∧ r.1[34]? = some 0x4F#8 ∧ r.2 = fNX ||| fUF ∧
      q.1.take 2 = [0xC4#8, 0x7F#8] ∧ q.2 = fNone := by decide +kernel

/-- R114's descending family, R112's descriptor and R115's place, as the manual writes them. -/
theorem test_descriptor :
    let d : Desc := { (fam0 0).desc with start := 10, limit := 0, step := -4 }
    let e := Desc.parse 1#64 5#64 0x01000048#64 0x01D8011100000001#64
    let p := Place.parse 0x00000020140007FF#64 9
    d.count = 3 ∧ [d.index 0, d.index 1, d.index 2] = [10#64, 6#64, 2#64] ∧
      (e.g, e.s, e.l, e.v) = (1, 1, 1, 0) ∧ (e.gsrc, e.hsrc) = (6, 7) ∧ (e.body, e.step, e.count) = (0x01000048#64, 1, 4) ∧
      (p.cores, p.dcores, p.fallback) = ([9], [5], 0#2) := by decide +kernel

/-- R117: seven members on three cores, in chunks and in turn. -/
theorem test_deals :
    deals [4, 5, 6] false 7 = [(4, 0, 1, 3), (5, 3, 1, 2), (6, 5, 1, 2)] ∧
    deals [4, 5, 6] true 7 = [(4, 0, 3, 3), (5, 1, 3, 2), (6, 2, 3, 2)] := by decide +kernel

/-- R196's example: lane 0 holds 5 and −3, compared with 0 and 0; neither GT nor LE holds of both. -/
theorem test_vcmp :
    let s := (base []).updMe fun t => (t.setV 2#4 (VCell.full 0xFFFD0005#4096)).setV 3#4 (VCell.full 0#4096)
    leavesElem (.vcmpGt 1#2 2#4 (.v 3#4) { msk := 0#2, ty := .i16 }) s 1 0 0 = true ∧
    leavesElem (.vcmpLe 1#2 2#4 (.v 3#4) { msk := 0#2, ty := .i16 }) s 1 0 0 = true ∧
    leavesElem (.vcmpLe 1#2 2#4 (.v 3#4) { msk := 0#2, ty := .i16 }) s 1 1 1 = true := by decide +kernel

/-- R198's example: the elements of v1 fill the lower half, and the upper half is zero. -/
theorem test_vcvt :
    let s := (base []).updMe fun t => t.setV 1#4 (VCell.full (vecOf 32 (List.replicate 128 0x3F800000)))
    leavesElem (.vcvt 6#4 1#4 .bf16 false { msk := 0#2, ty := .f32 }) s 16 127 0x3F80 = true ∧
    leavesElem (.vcvt 6#4 1#4 .bf16 false { msk := 0#2, ty := .f32 }) s 16 128 0 = true := by decide +kernel

/-- One lone bundle as the first of a program: it loads its literal and goes on; the extended one takes both literals. -/
theorem test_step_li :
    nextB (step (State.reset.loaded (toLe 8 0x0001234580440000))) (fun t =>
      t.me.pc == BitVec.ofNat 64 (bootVa + 8) && (t.me.flights.map fun f => f.val.setWidth 64) == [0x12345#64]) = true ∧
    leaves (.li (hl 0#32) (.s 9#4) 0#12) ((base []).updMe fun t => { t with kext := some 1#32 }) 0x0000000100000000#64 = true := by
  decide +kernel

/-- A host's word placed as the manual's table numbers it is decoded and run: `halt` at user level traps with PRIV (R39, R378). -/
theorem test_step_halt :
    (decodeTableWord 32 0x0F000001).isSome = true ∧
    nextB (step (State.reset.withFetchWord 32 0x0F000001)) (fun t => (t.purges.map (·.cause)) == [0x07]) = true := by
  decide +kernel

/-- Memory is little-endian, and a store's zero bytes leave no entry (R6). -/
theorem test_memory :
    Memory.putAll [] 16 (toLe 4 0x00AB00CD) = [(16, 0xCD#8), (18, 0xAB#8)] ∧
    Memory.val (Memory.putAll [] 16 (toLe 4 0x00AB00CD)) 16 4 = 0x00AB00CD := by decide +kernel

-- R300, R306: an uncorrectable error answers a load with UNCORR; a block written again is repaired.
theorem test_uncorrectable_error :
    (let s := ({ State.reset with dev := { State.reset.dev with service := .full } } : State).strike 0x100040
     let cause (s : State) (pa acc : Nat) : Option Nat := s.homeCause 0 false true pa 8 acc
     cause s 0x100040 0 = some 0x30 && cause s 0x100078 3 = some 0x33 && cause s 0x100040 1 = none && cause s 0x100080 0 = none &&
       cause (s.putByte 0 none 0 0x100048 1#8) 0x100040 0 = none) = true := by decide +kernel

end Sys2Proof.Tests
end

section
namespace Sys2Proof.Machine

/-! A byte of a list whose cells in some place are gone. -/

/-- No listed cell names the address: it reads 0. -/
theorem Memory.get_eq_zero_of_not_mem {m : List Host.Cell} {a : Nat} (h : ∀ c ∈ m, c.1 ≠ a) : Memory.get m a = 0#8 := by
  induction m with
  | nil => rfl
  | cons c rest ih =>
    obtain ⟨k, b⟩ := c
    have hk : k ≠ a := h (k, b) (by simp)
    unfold Memory.get
    rw [if_neg hk, ih fun c hc => h c (by simp [hc]), ite_self]

/-- A core as reset leaves it, whatever page requests the host has still to answer and whenever its counter started (R40). -/
theorem Core.fresh_values (cid ck0 : Nat) (lost : List Nat) :
    let c : Core := { Core.fresh cid ck0 with lost := lost }
    (∀ slot, c.thread slot = none) ∧ c.runs = [] ∧ c.regUse = [] ∧
    (∀ i : Fin 8, c.ents.get i = none ∧ c.gens.get i = 0#32) ∧ (∀ k < 4, c.accAt k = Acc.zero) ∧ c.spall = [] ∧
    c.active = none ∧ c.shadow = .empty ∧ (∀ t, c.tile t = Tile.zero) ∧ c.cq = [] ∧ c.cqHalted = false ∧ c.l1 = [] ∧
    (∀ b < 32, c.bank b = if b < 12 then bankScratch else bankCache) ∧
    c.mctl = 0#64 ∧ c.finj = 0#64 ∧ c.sfb = 0#64 ∧ c.sfs = 0#64 := by
  refine ⟨fun slot => ?_, rfl, rfl, fun i => ⟨?_, ?_⟩, fun k hk => ?_, rfl, rfl, rfl, fun t => ?_, rfl, rfl, rfl,
    fun b hb => ?_, rfl, rfl, rfl, rfl⟩
  · simp [Core.thread, Core.fresh]
  · simp [Core.fresh, Vector.get_eq_getElem]
  · simp [Core.fresh, Vector.get_eq_getElem]
  · simp [Core.accAt, Core.fresh]
  · simp [Core.tile, Core.fresh]
  · simp [Core.bank, Core.fresh, bankReset, hb, bankScratch, bankCache]


/-- The families that a core reset ends are purged first (log entry 51). -/
def State.withoutFamsOf (s : State) (cid : Nat) : State :=
  let fs := s.famsWithin fun f => f.cid == cid || f.shares.any fun x => x.cid == cid
  if fs.isEmpty then s else s.purgeFams fs none

/-- What core reset then leaves of the machine (R40). -/
def State.coreCleared (s : State) (cid : Nat) : State :=
  { s with
    cores := putCore s.cores { Core.fresh cid (s.dieNow cid) with
      lost := (s.core cid).lost ++ ((s.core cid).mbox.filter fun e => e.st == .suspended).map (·.ent) }
    fams := s.fams.filter fun f => f.cid != cid || f.kind == .root
    agenda := s.agenda.filter fun x => !Ev.ofCore x.what cid
    mem := s.mem.filter fun c => !inScratch cid c.1
    bad := s.bad.filter fun u => !inScratch cid u
    tags := s.tags.filter fun w => !inScratch cid (w * 8)
    bars := s.bars.filter fun b => !(b.sc == Scope.core.code && b.unit == cid) }

theorem exec_coreReset {s : State} {cid : Nat} (h : s.evt = .coreReset cid) :
    exec .coreReset s = .next ((s.withoutFamsOf cid).coreCleared cid) := by
  show execCoreReset s = _
  unfold execCoreReset
  rw [h]
  rfl

theorem State.core_coreCleared_self (s : State) (cid : Nat) :
    (s.coreCleared cid).core cid = { Core.fresh cid (s.dieNow cid) with
      lost := (s.core cid).lost ++ ((s.core cid).mbox.filter fun e => e.st == .suspended).map (·.ent) } :=
  State.core_setCore_self s { Core.fresh cid (s.dieNow cid) with
    lost := (s.core cid).lost ++ ((s.core cid).mbox.filter fun e => e.st == .suspended).map (·.ent) }

theorem State.core_coreCleared_ne (s : State) {cid k : Nat} (h : k ≠ cid) : (s.coreCleared cid).core k = s.core k :=
  State.core_setCore_ne s { Core.fresh cid (s.dieNow cid) with
    lost := (s.core cid).lost ++ ((s.core cid).mbox.filter fun e => e.st == .suspended).map (·.ent) } k h

/-- The counter of the core starts at 0 (R16, R40). -/
theorem State.ck_coreCleared (s : State) (cid : Nat) : (s.coreCleared cid).ck cid = 0#64 := by
  unfold State.ck
  rw [State.core_coreCleared_self]
  exact congrArg (BitVec.ofNat 64) (Nat.sub_self (s.dieNow cid))

/-- The banks' bytes are 0: no cell of them is listed any more. -/
theorem State.get_coreCleared_scratch (s : State) {cid off : Nat} (h : off < 2 ^ 20) :
    Memory.get (s.coreCleared cid).mem (scratchPa cid 0 + off) = 0#8 := by
  refine Memory.get_eq_zero_of_not_mem fun c hc ha => ?_
  have hout : (!inScratch cid c.1) = true := (List.mem_filter.1 hc).2
  simp only [inScratch, Bool.not_eq_true', Bool.and_eq_false_iff, decide_eq_false_iff_not] at hout
  omega

/-- No word of the banks has a full tag. -/
theorem State.tags_coreCleared_scratch (s : State) {cid w : Nat} (h : scratchPa cid 0 ≤ w * 8)
    (h' : w * 8 < scratchPa cid 0 + 2 ^ 20) : w ∉ (s.coreCleared cid).tags := by
  intro hw
  have hout : (!inScratch cid (w * 8)) = true := (List.mem_filter.1 hw).2
  simp only [inScratch, Bool.not_eq_true', Bool.and_eq_false_iff, decide_eq_false_iff_not] at hout
  omega

/-- Settles O53: core reset leaves the fresh core, whose values are those of R40, and no cell or tag of its banks; and the reset
machine lists no core, so that each of them is the fresh one. -/
theorem resetState : Obligations.ResetState := by
  unfold Obligations.ResetState
  refine ⟨State.reset_sound, rfl, rfl, fun cid => ⟨Core.fresh_values cid 0 [], ?_⟩, fun s cid h _ => ?_⟩
  · simp [State.ck, State.reset]
  · refine ⟨_, exec_coreReset h, ?_, State.ck_coreCleared _ cid, fun w => State.tags_coreCleared_scratch _,
      fun _ off => State.get_coreCleared_scratch _⟩
    rw [State.core_coreCleared_self]
    exact Core.fresh_values cid _ _

end Sys2Proof.Machine
end

section
namespace Sys2Proof.Machine

/-! Bytes of memory. -/

theorem Memory.bytes_eq_map (m : List Host.Cell) (a n : Nat) :
    Memory.bytes m a n = (List.range n).map fun i => Memory.get m (a + i) := by
  induction n generalizing a with
  | zero => rfl
  | succ n ih =>
    rw [Memory.bytes, ih, List.range_succ_eq_map, List.map_cons, List.map_map]
    simp [Function.comp_def, Nat.add_assoc, Nat.add_comm 1]

@[simp] theorem length_toLe (n v : Nat) : (toLe n v).length = n := by
  induction n generalizing v with
  | zero => rfl
  | succ n ih => rw [toLe, List.length_cons, ih]

/-- Bytes read where they have been written. -/
theorem Memory.bytes_putAll {m : List Host.Cell} (h : Memory.wf m = true) (a : Nat) (bs : List Byte) :
    Memory.bytes (Memory.putAll m a bs) a bs.length = bs := by
  rw [Memory.bytes_eq_map]
  refine List.ext_getElem (by simp) fun i h1 h2 => ?_
  simp [Memory.get_putAll h, h2]

/-- Cells that go leave the bytes elsewhere. -/
theorem Memory.get_filter {lo : Option Nat} {m : List Host.Cell} (h : Memory.wfFrom lo m = true) {p : Host.Cell → Bool} {a : Nat}
    (hp : ∀ b, p (a, b) = true) : Memory.get (m.filter p) a = Memory.get m a := by
  induction m generalizing lo with
  | nil => rfl
  | cons c rest ih =>
    obtain ⟨k, b⟩ := c
    have ht := Memory.wfFrom_tail h
    rw [List.filter_cons]
    split
    · simp only [Memory.get, ih ht]
    · rename_i hk
      have hka : k ≠ a := fun e => hk (e ▸ hp b)
      rw [ih ht]
      simp only [Memory.get, hka, if_false]
      split
      · exact Memory.get_below ht (by omega)
      · rfl

/-- Bytes written to memory itself stand there. -/
theorem State.putBytesGo_none_mem (s : State) (part va pa : Nat) (bs : List Byte) :
    (s.putBytesGo part none va pa bs).mem = Memory.putAll s.mem pa bs := by
  induction bs generalizing s va pa with
  | nil => rfl
  | cons b bs ih => exact ih _ _ _

@[simp] theorem State.putBytesAt_none_mem (s : State) (part va pa at_ : Nat) (bs : List Byte) :
    (s.putBytesAt part none va pa at_ bs).mem = Memory.putAll s.mem pa bs := by
  simp [State.putBytesAt, State.putBytesGo_none_mem]

@[simp] theorem State.putBytes_none_mem (s : State) (part va pa : Nat) (bs : List Byte) :
    (s.putBytes part none va pa bs).mem = Memory.putAll s.mem pa bs :=
  State.putBytesAt_none_mem s part va pa s.now bs

@[simp] theorem State.l2Alloc_dev (s : State) (pa : Nat) (sectors : BitVec 4) (wmask : BitVec 256) :
    (s.l2Alloc pa sectors wmask).dev = s.dev := by
  unfold State.l2Alloc
  dsimp only [State.fresh]
  split <;> rfl

@[simp] theorem State.l2Touch_dev (s : State) (pa cache n : Nat) : (s.l2Touch pa cache n).dev = s.dev := by
  unfold State.l2Touch
  repeat' split
  all_goals simp

/-! The host's window (R363, R364). -/

theorem exec_hostBar2Access {s : State} {write : Bool} {addr n : Nat} {v : W64} (h : s.evt = .hostBar2Access write addr n v) :
    exec .hostBar2Access s = .next (s.bar2Access write addr n v) := by
  show execHostBar2Access s = _
  unfold execHostBar2Access
  rw [h]

theorem exec_controlRead {s : State} {off : Nat} (h : s.evt = .controlRead off) :
    exec .hostBar2Access s = .next (s.controlRead off) := by
  show execHostBar2Access s = _
  unfold execHostBar2Access
  rw [h]

theorem State.bar2Access_write {s : State} (hs : s.Sound) {addr n : Nat} (h : s.bar2Bad addr n = false) (v : W64) :
    let pa := s.dev.bar2.toNat + addr
    let t := s.bar2Access true addr n v
    Memory.bytes t.mem pa n = toLe n v.toNat ∧ ∀ a, (a < pa ∨ pa + n ≤ a) → Memory.get t.mem a = Memory.get s.mem a := by
  intro pa t
  have ht : t.mem = Memory.putAll s.mem pa (toLe n v.toNat) := by simp [t, pa, State.bar2Access, h]
  rw [ht]
  refine ⟨?_, fun a ha => ?_⟩
  · simpa using Memory.bytes_putAll hs pa (toLe n v.toNat)
  · rw [Memory.get_putAll hs, length_toLe, if_neg (by omega)]

theorem State.bar2Access_read {s : State} {addr n : Nat} (h : s.bar2Bad addr n = false) (v : W64)
    (hr : s.spoilt (s.dev.bar2.toNat + addr) n = false ∨ s.l2Hit (s.dev.bar2.toNat + addr) n = true) :
    (s.bar2Access false addr n v).mem = s.mem ∧ (s.bar2Access false addr n v).dev =
      { s.dev with hostRead := leVal (Memory.bytes s.mem (s.dev.bar2.toNat + addr) n) } := by
  have hok : (s.spoilt (s.dev.bar2.toNat + addr) n && !s.l2Hit (s.dev.bar2.toNat + addr) n) = false := by
    rcases hr with hr | hr <;> simp [hr]
  unfold State.bar2Access
  simp only [h, hok, Bool.false_eq_true, if_false]
  exact ⟨by simp, by simp [State.updDev, Memory.val]⟩

theorem State.bar2Access_spoilt {s : State} {addr n : Nat} (h : s.bar2Bad addr n = false) (v : W64)
    (hb : s.spoilt (s.dev.bar2.toNat + addr) n = true) (hm : s.l2Hit (s.dev.bar2.toNat + addr) n = false) :
    s.bar2Access false addr n v = s.unsupported := by
  simp [State.bar2Access, h, hb, hm]

theorem State.bar2Access_bad {s : State} {addr n : Nat} (h : s.bar2Bad addr n = true) (write : Bool) (v : W64) :
    s.bar2Access write addr n v =
      (s.violation 1 (if write then 1 else 0) 0 2047 31 (s.dev.bar2.toNat + addr) 0).unsupported := by
  simp [State.bar2Access, h]

/-- Fields of a word that is a sum of them in their places. -/
theorem status_field_sums {a b c e : Nat} (ha : a < 256) (hb : b < 64) (hc : c < 16) (he : e < 16) :
    let n := a * 4294967296 + b * 67108864 + c * 16 + e
    n < 18446744073709551616 ∧ n / 4294967296 % 256 = a ∧ n / 67108864 % 64 = b ∧ n / 16 % 16 = c ∧ n % 16 = e := by
  intro n
  exact ⟨by omega, by omega, by omega, by omega, by omega⟩

/-- The fields of the status word (R369). -/
theorem Device.status_fields (d : Device) :
    (d.status.extractLsb' 32 8).toNat = d.svn % 256 ∧ (d.status.extractLsb' 26 6).toNat = d.devid % 64 ∧
      (d.status.extractLsb' 4 4).toNat = d.degr % 16 ∧ (d.status.extractLsb' 0 4).toNat = d.service.code := by
  have hc : d.service.code < 16 := by cases d.service <;> decide
  obtain ⟨hn, hsvn, hdev, hdegr, hcode⟩ := status_field_sums (Nat.mod_lt d.svn (by decide : 256 > 0)) (Nat.mod_lt d.devid (by decide : 64 > 0))
    (Nat.mod_lt d.degr (by decide : 16 > 0)) hc
  have hv : d.status.toNat = d.svn % 256 * 4294967296 + d.devid % 64 * 67108864 + d.degr % 16 * 16 + d.service.code := by
    simp only [Device.status, BitVec.toNat_ofNat, Nat.reducePow]
    exact Nat.mod_eq_of_lt hn
  refine ⟨?_, ?_, ?_, ?_⟩ <;> rw [BitVec.extractLsb'_toNat, Nat.shiftRight_eq_div_pow, hv]
  · exact hsvn
  · exact hdev
  · exact hdegr
  · rw [Nat.pow_zero, Nat.div_one]
    exact hcode

/-! Writes to the control window (R363 to R367). -/

theorem exec_registerWrite_host {s : State} {off : Nat} {v : W64} (h : s.evt = .registerWrite false off v) :
    exec .registerWrite s = .next (s.windowWrite off v) := by
  show execRegisterWrite s = _
  unfold execRegisterWrite
  rw [h]
  rfl

theorem State.windowWrite_bar2 {s : State} (hf : s.dev.service = .full) (v : W64) :
    s.windowWrite 0x100 v =
      if v.toNat % s.dev.bar2Size != 0 then s.discard 0x100 else s.updDev fun d => { d with bar2 := v } := by
  simp [State.windowWrite, hf]

theorem State.blockWrite_doorbell {s : State} {part n : Nat} (h1 : 0x200 ≤ n) (h2 : n < 0x240) (v : W64) :
    s.blockWrite part n v = s.urgent (.doorbell part ((n - 0x200) / 8)) := by
  unfold State.blockWrite
  dsimp only
  rw [if_neg (by omega), if_neg (by simp; omega), if_pos (by simp; omega)]

theorem State.windowWrite_doorbell {s : State} (hf : s.dev.service = .full) {part k : Nat} (hp : part < 20) (hk : k < 8)
    (v : W64) : s.windowWrite (0x100000 + 0x10000 * part + (0x200 + 8 * k)) v = s.urgent (.doorbell part k) := by
  have e1 : (0x100000 + 0x10000 * part + (0x200 + 8 * k) - 0x100000) / 0x10000 = part := by omega
  have e2 : (0x100000 + 0x10000 * part + (0x200 + 8 * k) - 0x100000) % 0x10000 = 0x200 + 8 * k := by omega
  have hw : s.windowWrite (0x100000 + 0x10000 * part + (0x200 + 8 * k)) v = s.blockWrite part (0x200 + 8 * k) v := by
    unfold State.windowWrite
    rw [if_neg (by simp; omega), if_neg (by simp [hf]), if_neg (by omega), if_neg (by omega), if_neg (by omega),
      if_neg (by omega), if_neg (by simp; omega), if_pos (by simp; omega), e1, e2]
  rw [hw, State.blockWrite_doorbell (by omega) (by omega), Nat.add_sub_cancel_left, Nat.mul_div_cancel_left k (by decide)]

theorem State.windowWrite_coreControl {s : State} (hf : s.dev.service = .full) {cid : Nat} (hc : cid < 1280) (v : W64) :
    s.windowWrite (0x300000 + 0x40 * cid) v = s.urgent (.coreControlWrite cid v) := by
  unfold State.windowWrite
  rw [if_neg (by simp; omega), if_neg (by simp [hf]), if_neg (by omega), if_neg (by omega), if_neg (by omega),
    if_neg (by omega), if_neg (by simp; omega), if_neg (by simp; omega), if_pos (by simp; omega), if_pos (by omega),
    show (0x300000 + 0x40 * cid - 0x300000) / 0x40 = cid by omega]

/-! Core control (R251, R367). -/

/-- A halted thread that a core-control word names goes on. -/
def Thread.resumed (v : W64) (slot : Nat) (t : Thread) : Thread :=
  if v.getLsbD slot = true ∧ t.hold = .wait .halted then { t with hold := .none } else t

theorem exec_coreControlWrite {s : State} {cid : Nat} {v : W64} (h : s.evt = .coreControlWrite cid v) :
    ∃ t, exec .coreControlWrite s = .next t ∧ t.mem = s.mem ∧
      ∀ slot < 17, ∀ th, s.thread cid slot = some th → t.thread cid slot = some (th.resumed v slot) := by
  refine ⟨_, rfl, ?_, fun slot hk th hth => ?_⟩
  · rw [h]; rfl
  · rw [h]
    dsimp only
    unfold State.thread at hth ⊢
    rw [State.core_updCore_self]
    simp only [Core.thread, hk, dif_pos] at hth ⊢
    simp [Vector.get_eq_getElem, hth, Thread.resumed]

/-! Core reset and what it leaves of the others (R40). -/

/-- No family is found where none is looked for. -/
theorem State.famsWithin_eq_nil {s : State} {p : Family → Bool} (h : ∀ f ∈ s.fams, p f = false) : s.famsWithin p = [] := by
  unfold State.famsWithin
  generalize s.fams = l at h
  induction l with
  | nil => rfl
  | cons f l ih =>
    have hf : p f = false := h f (by simp)
    have hl := ih fun g hg => h g (by simp [hg])
    cases hp : f.parentFam <;> simpa [hf, hp] using hl

/-- A core on which no family was created, nor stands, has none to end. -/
theorem State.withoutFamsOf_eq {s : State} {cid : Nat} (h : ∀ f ∈ s.fams, f.cid ≠ cid ∧ ∀ x ∈ f.shares, x.cid ≠ cid) :
    s.withoutFamsOf cid = s := by
  have hp : ∀ f ∈ s.fams, (f.cid == cid || f.shares.any fun x => x.cid == cid) = false := fun f hf => by
    simpa using h f hf
  unfold State.withoutFamsOf
  rw [State.famsWithin_eq_nil hp]
  rfl

theorem State.get_coreCleared_elsewhere {s : State} (hs : s.Sound) {cid a : Nat}
    (ha : a < scratchPa cid 0 ∨ scratchPa cid 0 + 2 ^ 20 ≤ a) :
    Memory.get (s.coreCleared cid).mem a = Memory.get s.mem a := by
  refine Memory.get_filter hs fun _ => ?_
  simp only [inScratch, Bool.not_eq_true', Bool.and_eq_false_iff, decide_eq_false_iff_not]
  omega

theorem State.agenda_coreCleared (s : State) (cid : Nat) : ∀ d ∈ (s.coreCleared cid).agenda, Ev.ofCore d.what cid = false :=
  fun d hd => by simpa using (List.mem_filter.1 hd).2

theorem State.fams_coreCleared (s : State) (cid : Nat) :
    ∀ f ∈ (s.coreCleared cid).fams, f.cid = cid → f.kind = .root := fun f hf hc => by
  have h := (List.mem_filter.1 hf).2
  simpa [hc] using h

theorem State.thread_coreCleared (s : State) (cid slot : Nat) : (s.coreCleared cid).thread cid slot = none := by
  unfold State.thread
  rw [State.core_coreCleared_self]
  exact (Core.fresh_values cid _ _).1 slot

/-! The firmware starts code (R38). -/

theorem State.freeSlots_lt {s : State} {cid slot : Nat} (h : slot ∈ s.freeSlots cid) : slot < 16 :=
  List.mem_range.1 (List.mem_filter.1 h).1

theorem exec_stewardStart {s : State} {cid slot : Nat} {pc : W64} (h : s.evt = .stewardStart cid slot pc)
    (hf : slot ∈ s.freeSlots cid) : exec .stewardStart s = .next (s.startSystem cid slot (pc &&& ~~~7#64)) := by
  show execStewardStart s = _
  unfold execStewardStart
  rw [h]
  simp [hf]

theorem State.thread_startSystem (s : State) (cid : Nat) {slot : Nat} (hk : slot < 17) (pc : W64) :
    ∃ uid fr, (s.startSystem cid slot pc).thread cid slot = some (Thread.system uid pc fr) :=
  ⟨_, _, State.thread_setThread_self _ _ _ _ hk⟩

/-- Settles O51: each host or firmware access is the model's own operation on memory, on the device's words, or on a core, whose
lemma says what it leaves; what core reset leaves is what the cleared core and the filtered lists hold. -/
theorem hostAndFirmwareAccess : Obligations.HostAndFirmwareAccess := by
  unfold Obligations.HostAndFirmwareAccess
  intro s hs
  refine ⟨fun write addr n v he => ?_, fun off he => ?_, ?_, fun off v he hf => ?_, fun cid v he => ?_, fun cid he => ?_,
    fun cid slot pc he hk => ?_⟩
  · rw [exec_hostBar2Access he]
    refine ⟨fun h hw => ?_, fun h hw hr => ?_, fun h hw hb hm => ?_, fun h => ?_⟩
    · subst hw
      obtain ⟨h1, h2⟩ := State.bar2Access_write hs h v
      exact ⟨_, rfl, h1, h2⟩
    · subst hw
      obtain ⟨h1, h2⟩ := State.bar2Access_read h v hr
      exact ⟨_, rfl, h1, h2⟩
    · subst hw
      rw [State.bar2Access_spoilt h v hb hm]
      exact ⟨_, rfl, rfl, rfl, rfl⟩
    · rw [State.bar2Access_bad h]
      exact ⟨_, rfl, rfl, rfl, rfl⟩
  · rw [exec_controlRead he]
    refine ⟨fun v hv => ?_, fun hv => ?_⟩ <;> unfold State.controlRead <;> rw [hv]
    · exact ⟨_, rfl, rfl, rfl⟩
    · exact ⟨_, rfl, rfl, rfl, rfl⟩
  · obtain ⟨h1, h2, h3, h4⟩ := s.dev.status_fields
    refine ⟨s.dev.status, rfl, h1, h2, h3, h4.trans ?_⟩
    cases s.dev.service <;> rfl
  · refine ⟨fun ho => ?_, fun part k hp hk ho => ?_, fun cid hc ho => ?_⟩ <;> subst ho <;> rw [exec_registerWrite_host he]
    · rw [State.windowWrite_bar2 hf]
      by_cases h : v.toNat % s.dev.bar2Size = 0
      · exact ⟨_, rfl, by simp [h], fun _ => by simp [h, State.updDev], fun hn => absurd h hn⟩
      · exact ⟨_, rfl, by simp [h, State.discard], fun h0 => absurd h0 h, fun _ => by simp [h, State.discard, State.violation, State.updDev]⟩
    · rw [State.windowWrite_doorbell hf hp hk]
      exact ⟨_, rfl, rfl, rfl⟩
    · rw [State.windowWrite_coreControl hf hc]
      exact ⟨_, rfl, rfl, rfl⟩
  · exact exec_coreControlWrite he
  · refine ⟨_, exec_coreReset he, State.thread_coreCleared _ cid, fun off => State.get_coreCleared_scratch _,
      State.agenda_coreCleared _ cid, State.fams_coreCleared _ cid, fun hn => ?_⟩
    rw [State.withoutFamsOf_eq hn]
    exact ⟨fun a => State.get_coreCleared_elsewhere hs, fun c => State.core_coreCleared_ne s⟩
  · rw [exec_stewardStart he hk]
    obtain ⟨uid, fr, hth⟩ := State.thread_startSystem s cid (Nat.lt_succ_of_lt (State.freeSlots_lt hk)) (pc &&& ~~~7#64)
    exact ⟨_, _, rfl, rfl, hth, rfl, rfl, rfl⟩

end Sys2Proof.Machine
end

section
/-! SUPPORT. What the operations on memory and on requests leave alone, in two relations: Calm, of those that touch a core's L1 and
L1 TLB alone beside memory itself, and SameThreads, of those that touch no thread. -/

namespace Sys2Proof.Machine

/-! Calm. -/

/-- Between s and t nothing has changed but memory, L2, what L1 and the L1 TLBs hold, the agenda, the model's own counters, and what the
issuing bundle remembers of its accesses. -/
structure State.Calm (s t : State) : Prop where
  now : t.now = s.now
  dieCyc : t.dieCyc = s.dieCyc
  fams : t.fams = s.fams
  slices : t.slices = s.slices
  reqs : t.reqs = s.reqs
  parts : t.parts = s.parts
  contq : t.contq = s.contq
  dev : t.dev = s.dev
  cur : t.cur = { s.cur with remote := t.cur.remote, addr := t.cur.addr, met := t.cur.met }
  core : ∀ c, t.core c = { s.core c with l1 := (t.core c).l1, tlb1 := (t.core c).tlb1 }

namespace State.Calm

variable {s t u : State}

theorem refl (s : State) : s.Calm s := ⟨rfl, rfl, rfl, rfl, rfl, rfl, rfl, rfl, rfl, fun _ => rfl⟩

theorem trans (h : s.Calm t) (k : t.Calm u) : s.Calm u where
  now := k.now.trans h.now
  dieCyc := k.dieCyc.trans h.dieCyc
  fams := k.fams.trans h.fams
  slices := k.slices.trans h.slices
  reqs := k.reqs.trans h.reqs
  parts := k.parts.trans h.parts
  contq := k.contq.trans h.contq
  dev := k.dev.trans h.dev
  cur := by rw [k.cur, h.cur]
  core c := by rw [k.core c, h.core c]

/-- A change of memory, L2, the agenda and the counters. -/
theorem of_cores (hc : t.cores = s.cores) (hcur : t.cur = s.cur) (now : t.now = s.now) (dieCyc : t.dieCyc = s.dieCyc)
    (fams : t.fams = s.fams) (slices : t.slices = s.slices) (reqs : t.reqs = s.reqs) (parts : t.parts = s.parts)
    (contq : t.contq = s.contq) (dev : t.dev = s.dev) : s.Calm t :=
  ⟨now, dieCyc, fams, slices, reqs, parts, contq, dev, by rw [hcur], fun c => by rw [State.core_congr hc]⟩

theorem updCore {f : Core → Core} (hf : ∀ c, f c = { c with l1 := (f c).l1, tlb1 := (f c).tlb1 }) (k : Nat) :
    s.Calm (s.updCore k f) := by
  refine ⟨rfl, rfl, rfl, rfl, rfl, rfl, rfl, rfl, rfl, fun c => ?_⟩
  by_cases hc : c = k
  · subst hc
    rw [State.core_updCore_self, hf (s.core c)]
    have hcid := State.core_cid s c
    generalize s.core c = x at hcid
    subst hcid
    rfl
  · rw [State.core_updCore_ne _ _ _ _ hc]

theorem foldl {α : Type} {f : State → α → State} (hf : ∀ (s : State) (x : α), s.Calm (f s x)) (l : List α) (s : State) :
    s.Calm (l.foldl f s) := by
  induction l generalizing s with
  | nil => exact refl s
  | cons x l ih => exact (hf s x).trans (ih _)

/-! What does not change for the issuing bundle. -/

theorem cid (h : s.Calm t) : t.cur.cid = s.cur.cid := by rw [h.cur]

theorem slot (h : s.Calm t) : t.cur.slot = s.cur.slot := by rw [h.cur]

theorem thread (h : s.Calm t) (c k : Nat) : t.thread c k = s.thread c k := by
  unfold State.thread
  rw [h.core c]
  rfl

theorem me (h : s.Calm t) : t.me = s.me := by
  unfold State.me
  rw [h.thread, h.cid, h.slot]

theorem meWho (h : s.Calm t) : t.meWho = s.meWho := by
  unfold State.meWho
  rw [h.me, h.cid, h.slot]

theorem stands (h : s.Calm t) (hs : s.Stands) : t.Stands :=
  ⟨h.slot ▸ hs.1, by rw [h.thread, h.cid, h.slot, h.me]; exact hs.2⟩

theorem loc (h : s.Calm t) (pa : Nat) : t.loc pa = s.loc pa := by
  unfold State.loc
  rw [h.dev]

theorem homeOf (h : s.Calm t) (pa : Nat) : t.homeOf pa = s.homeOf pa := by
  unfold State.homeOf State.sliceOf
  rw [h.loc, h.dev]

theorem portFree (h : s.Calm t) (cid : Nat) (homes : List Nat) : t.portFree cid homes = s.portFree cid homes := by
  unfold State.portFree State.taken
  rw [h.reqs, h.now]

theorem part (h : s.Calm t) (n : Nat) : t.part n = s.part n := by
  unfold State.part
  rw [h.parts]

theorem partNum (h : s.Calm t) (cid : Nat) : t.partNum cid = s.partNum cid := by
  unfold State.partNum State.partOf
  rw [h.parts]

theorem fam (h : s.Calm t) (uid : Nat) : t.fam uid = s.fam uid := by
  unfold State.fam
  rw [h.fams]

theorem inRev (h : s.Calm t) (th : Thread) : t.inRev th = s.inRev th := by
  unfold State.inRev
  simp only [h.fam]

theorem myLevel (h : s.Calm t) (va : Nat) : t.myLevel va = s.myLevel va := by
  unfold State.myLevel
  rw [h.part, h.partNum, h.cid, h.inRev, h.me]

theorem roHit (h : s.Calm t) (va : Nat) : t.roHit va = s.roHit va := by
  unfold State.roHit
  rw [h.part, h.partNum, h.cid, h.inRev, h.me]

theorem usesL1 (h : s.Calm t) (x : Xl) (lvl : Option Nat) : t.usesL1 x lvl = s.usesL1 x lvl := by
  unfold State.usesL1
  rw [h.loc]

theorem bank (h : s.Calm t) (c b : Nat) : (t.core c).bank b = (s.core c).bank b := by
  rw [h.core c]
  rfl

theorem inWindow (h : s.Calm t) (pa n : Nat) : t.inWindow pa n = s.inWindow pa n := by
  unfold State.inWindow State.inFifo
  simp only [h.loc, h.bank]

theorem regVal (h : s.Calm t) (r : SReg) : t.regVal r = s.regVal r := by
  unfold State.regVal State.ck
  simp only [h.me, h.cid, h.dieCyc]
  rw [h.core s.cur.cid]

theorem ticks (h : s.Calm t) (d n : Nat) : t.ticks d n = s.ticks d n := State.ticks_congr h.dev h.now d n

theorem stallEnd (h : s.Calm t) (hd : Hdr) : t.stallEnd hd = s.stallEnd hd := by
  unfold State.stallEnd
  rw [h.cid, h.me, h.now, State.dieAfter_congr h.dev]

end State.Calm

/-! The operations on L2, L1 and memory itself are calm. -/

theorem State.calm_l2Alloc (s : State) (pa : Nat) (sectors : BitVec 4) (wmask : BitVec 256) : s.Calm (s.l2Alloc pa sectors wmask) := by
  unfold State.l2Alloc
  dsimp only [State.fresh]
  split <;> exact .of_cores rfl rfl rfl rfl rfl rfl rfl rfl rfl rfl

theorem State.calm_l2Touch (s : State) (pa cache n : Nat) : s.Calm (s.l2Touch pa cache n) := by
  unfold State.l2Touch
  split
  · split
    · split
      · exact s.calm_l2Alloc _ _ _
      · exact .refl s
    · split
      · exact s.calm_l2Alloc _ _ _
      · exact .refl s
  · exact .refl s

theorem State.calm_l2Wrote (s : State) (pa cache n : Nat) : s.Calm (s.l2Wrote pa cache n) := by
  unfold State.l2Wrote
  split
  · split
    · exact s.calm_l2Alloc _ _ _
    · exact .refl s
  · exact .refl s

theorem State.calm_urgent (s : State) (e : Ev) : s.Calm (s.urgent e) := .of_cores rfl rfl rfl rfl rfl rfl rfl rfl rfl rfl

theorem State.calm_atCycle (s : State) (n : Nat) (e : Ev) : s.Calm (s.atCycle n e) :=
  .of_cores rfl rfl rfl rfl rfl rfl rfl rfl rfl rfl

theorem State.calm_after (s : State) (c n : Nat) (e : Ev) : s.Calm (s.after c n e) := s.calm_atCycle _ e

theorem State.calm_fresh (s : State) : s.Calm s.fresh.2 := .of_cores rfl rfl rfl rfl rfl rfl rfl rfl rfl rfl

theorem State.calm_wakeWaiters (s : State) (pa n at_ : Nat) : s.Calm (s.wakeWaiters pa n at_) := by
  unfold State.wakeWaiters
  refine .foldl (fun s k => ?_) _ s
  dsimp only
  split
  · exact s.calm_urgent _
  · exact .refl s

theorem State.calm_tailReport (s : State) (lvl : Option Nat) (pa n : Nat) : s.Calm (s.tailReport lvl pa n) := by
  unfold State.tailReport
  split
  · exact .refl s
  · exact .foldl (fun s _ => s.calm_urgent _) _ s

theorem State.calm_pendReport (s : State) (lvl : Option Nat) (pa n : Nat) : s.Calm (s.pendReport lvl pa n) := by
  unfold State.pendReport
  split
  · exact .refl s
  · refine .foldl (fun s p => ?_) _ s
    split
    · exact s.calm_urgent _
    · exact .refl s

theorem State.calm_putBytesGo (s : State) (part va pa : Nat) (bs : List Byte) : s.Calm (s.putBytesGo part none va pa bs) := by
  induction bs generalizing s va pa with
  | nil => exact .refl s
  | cons b bs ih =>
    have h1 : s.Calm (s.putByte part none va pa b) := .of_cores rfl rfl rfl rfl rfl rfl rfl rfl rfl rfl
    exact h1.trans (ih _ _ _)

theorem State.calm_putBytesAt (s : State) (part va pa at_ : Nat) (bs : List Byte) :
    s.Calm (s.putBytesAt part none va pa at_ bs) :=
  (((s.calm_putBytesGo part va pa bs).trans (State.calm_wakeWaiters _ _ _ _)).trans (State.calm_tailReport _ _ _ _)).trans
    (State.calm_pendReport _ _ _ _)

theorem State.calm_putBytes (s : State) (part va pa : Nat) (bs : List Byte) : s.Calm (s.putBytes part none va pa bs) :=
  s.calm_putBytesAt part va pa s.now bs

theorem State.calm_cleanLine (s : State) (l : L1Line) : s.Calm (s.cleanLine l) := by
  unfold State.cleanLine
  split
  · exact .refl s
  · refine .foldl (fun s k => ?_) _ s
    split
    · exact (s.calm_l2Wrote _ _ _).trans (State.calm_putBytes _ _ _ _ _)
    · exact .refl s

theorem State.calm_l1Clean (s : State) (cid : Nat) (p : L1Line → Bool) : s.Calm (s.l1Clean cid p).2 := by
  unfold State.l1Clean
  dsimp only
  exact (State.Calm.foldl (fun s l => s.calm_cleanLine l) _ s).trans (.updCore (fun _ => rfl) cid)

theorem State.calm_releaseLines (s : State) (cid : Nat) : s.Calm (s.releaseLines cid) := s.calm_l1Clean cid _

theorem State.calm_l1Alloc (s : State) (cid pa : Nat) : s.Calm (s.l1Alloc cid pa) := by
  unfold State.l1Alloc
  dsimp only
  split
  · exact .refl s
  · split
    · exact s.calm_fresh.trans (.updCore (fun _ => rfl) cid)
    · split
      · exact s.calm_fresh
      · exact (s.calm_fresh.trans (State.calm_cleanLine _ _)).trans (.updCore (fun _ => rfl) cid)

theorem State.calm_l1Use (s : State) (cid pa : Nat) (f : L1Line → L1Line) : s.Calm (s.l1Use cid pa f) := by
  unfold State.l1Use
  exact s.calm_fresh.trans (.updCore (fun _ => rfl) cid)

theorem State.calm_l1Store (s : State) (cid pa : Nat) (bs : List Byte) : s.Calm (s.l1Store cid pa bs) :=
  (s.calm_l1Alloc cid pa).trans (State.calm_l1Use _ _ _ _)

theorem State.calm_l1Fill (s : State) (cid pa : Nat) : s.Calm (s.l1Fill cid pa) :=
  (s.calm_l1Alloc cid pa).trans (State.calm_l1Use _ _ _ _)

theorem State.calm_l1Drop (s : State) (cid : Nat) (p : L1Line → Bool) : s.Calm (s.l1Drop cid p) := .updCore (fun _ => rfl) cid

theorem State.calm_refresh (s : State) (cid pa n : Nat) : s.Calm (s.refresh cid pa n) := by
  unfold State.refresh
  split
  · exact .refl s
  · exact .updCore (fun _ => rfl) cid

theorem State.calm_l1Span (s : State) (cid fuel pa n : Nat) : s.Calm (s.l1Span cid fuel pa n).2.2 := by
  induction fuel generalizing s pa n with
  | zero => exact .refl s
  | succ fuel ih =>
    unfold State.l1Span
    split
    · exact .refl s
    · dsimp only
      split
      · exact (s.calm_l1Use _ _ _).trans (ih _ _ _)
      · exact ((s.calm_l2Touch _ _ _).trans (State.calm_l1Fill _ _ _)).trans (ih _ _ _)

theorem State.calm_readAt (s : State) (cid : Nat) (x : Xl) (lvl : Option Nat) (n : Nat) : s.Calm (s.readAt cid x lvl n).2 := by
  unfold State.readAt
  split
  · dsimp only
    split
    · exact (s.calm_refresh _ _ _).trans (State.calm_l1Span _ _ _ _ _)
    · exact s.calm_l1Span _ _ _ _
  · exact s.calm_l2Touch _ _ _

theorem State.calm_noteMet (s : State) (pa : Nat) (write : Bool) (n : Nat) : s.Calm (s.noteMet pa write n) :=
  ⟨rfl, rfl, rfl, rfl, rfl, rfl, rfl, rfl, rfl, fun _ => rfl⟩

theorem State.calm_readHere (s : State) (x : Xl) (lvl : Option Nat) (n : Nat) : s.Calm (s.readHere x lvl n).2 := by
  unfold State.readHere
  dsimp only
  split
  · exact s.calm_readAt _ _ _ _
  · exact (s.calm_readAt _ _ _ _).trans (State.calm_noteMet _ _ _ _)

theorem calm_xlate {s s' : State} {cid va n al : Nat} {nd : Need} {user phys wide : Bool} {x : Xl}
    (h : s.xlate cid va n al nd user phys wide = .ok x s') : s.Calm s' := by
  obtain rfl | ⟨l, rfl⟩ := xlate_frame h
  · exact .refl _
  · have h1 : s.Calm { s with freeCtr := s.freeCtr + 1 } := .of_cores rfl rfl rfl rfl rfl rfl rfl rfl rfl rfl
    exact h1.trans (.updCore (fun _ => rfl) cid)

/-- The access of the issuing thread whose address has translated. -/
theorem access_ok {s s' : State} {va : W64} {n al : Nat} {nd : Need} {wide : Bool} {x : Xl}
    (h : s.xlate s.cur.cid va.toNat n al nd (!s.me.sys) (s.cur.slot == 16) wide = .ok x s') :
    ∃ t, access s va n al nd wide = .ok (x, t) ∧ s.Calm t ∧ t.mem = s.mem := by
  let t : State := { s' with cur := { s'.cur with
    remote := s'.cur.remote || decide (2 ^ 48 ≤ x.pa), addr := some (s'.cur.addr.getD x.va) } }
  have hst : s'.Calm t := ⟨rfl, rfl, rfl, rfl, rfl, rfl, rfl, rfl, rfl, fun _ => rfl⟩
  refine ⟨t, ?_, (calm_xlate h).trans hst, (xlate_mem h).1⟩
  unfold access
  rw [h]

theorem calm_access {s t : State} {va : W64} {n al : Nat} {nd : Need} {wide : Bool} {x : Xl}
    (h : access s va n al nd wide = .ok (x, t)) : s.Calm t ∧ t.mem = s.mem := by
  obtain ⟨y, s', hx, hy⟩ | he | he | ⟨c, he⟩ := access_cases s va n al nd wide
  · obtain ⟨u, hu, hc, hm⟩ := access_ok hx
    rw [hu] at h
    injection h with h
    injection h with _ h
    exact h ▸ ⟨hc, hm⟩
  all_goals rw [he] at h; cases h

end Sys2Proof.Machine
end

section
/-! SUPPORT. What sending a request, committing a bundle and awaiting a result leave: the threads, the request on its way, the
destination. -/

namespace Sys2Proof.Machine

/-! The threads stand as they stood. -/

/-- The same slot issues, and every thread is as it was. -/
structure State.SameThreads (s t : State) : Prop where
  cid : t.cur.cid = s.cur.cid
  slot : t.cur.slot = s.cur.slot
  thread : ∀ c k, t.thread c k = s.thread c k

theorem State.Calm.sameThreads {s t : State} (h : s.Calm t) : s.SameThreads t := ⟨h.cid, h.slot, h.thread⟩

namespace State.SameThreads

variable {s t u : State}

theorem refl (s : State) : s.SameThreads s := ⟨rfl, rfl, fun _ _ => rfl⟩

theorem trans (h : s.SameThreads t) (k : t.SameThreads u) : s.SameThreads u :=
  ⟨k.cid.trans h.cid, k.slot.trans h.slot, fun c i => (k.thread c i).trans (h.thread c i)⟩

theorem of_cores (hc : t.cores = s.cores) (cid : t.cur.cid = s.cur.cid) (slot : t.cur.slot = s.cur.slot) : s.SameThreads t :=
  ⟨cid, slot, fun c k => by unfold State.thread; rw [State.core_congr hc]⟩

/-- A change of a core that leaves its slots. -/
theorem updCore {f : Core → Core} (hf : ∀ c, (f c).slots = c.slots) (k : Nat) : s.SameThreads (s.updCore k f) := by
  refine ⟨rfl, rfl, fun c i => ?_⟩
  unfold State.thread
  by_cases hc : c = k
  · subst hc
    rw [State.core_updCore_self]
    simp only [Core.thread, hf]
  · rw [State.core_updCore_ne _ _ _ _ hc]

theorem foldl {α : Type} {f : State → α → State} (hf : ∀ (s : State) (x : α), s.SameThreads (f s x)) (l : List α) (s : State) :
    s.SameThreads (l.foldl f s) := by
  induction l generalizing s with
  | nil => exact refl s
  | cons x l ih => exact (hf s x).trans (ih _)

theorem me (h : s.SameThreads t) : t.me = s.me := by
  unfold State.me
  rw [h.thread, h.cid, h.slot]

theorem meWho (h : s.SameThreads t) : t.meWho = s.meWho := by
  unfold State.meWho
  rw [h.me, h.cid, h.slot]

theorem stands (h : s.SameThreads t) (hs : s.Stands) : t.Stands :=
  ⟨h.slot ▸ hs.1, by rw [h.thread, h.cid, h.slot, h.me]; exact hs.2⟩

end State.SameThreads

theorem State.sameThreads_sentMsgs (s : State) (c n : Nat) : s.SameThreads (s.sentMsgs c n) := by
  unfold State.sentMsgs
  split
  · exact .refl s
  · exact State.SameThreads.updCore (f := fun c => { c with sentCnt := c.sentCnt + n }) (fun _ => rfl) c

theorem State.sameThreads_gotMsgs (s : State) (c n : Nat) : s.SameThreads (s.gotMsgs c n) := by
  unfold State.gotMsgs
  split
  · exact .refl s
  · exact State.SameThreads.updCore (f := fun c => { c with recvCnt := c.recvCnt + n }) (fun _ => rfl) c

/-- The thread of the issuing slot changes by f alone. -/
theorem State.Stands.sameThreads_updMe {s t : State} (hs : s.Stands) (h : s.SameThreads t) (f : Thread → Thread) :
    (t.updMe f).me = f s.me := by
  rw [(h.stands hs).me_updMe, h.me]

/-! Requests on their way. -/

/-- q is the request r, as far as its thread can tell: when a release has cleaned its lines, over which ports it goes, how far it has
come and what it has met at its home may differ. -/
def Req.IsOf (q r : Req) : Prop := ∃ f v st e, q = { r with from_ := f, via := v, st := st, err := e }

theorem State.addReq_reqs (s : State) (r : Req) :
    (s.addReq r).reqs = s.reqs ++ [{ r with via := r.reach.filterMap fun x => (s.portAt x.1).map fun p => (x.1, p) }] := rfl

theorem State.mem_addReq (s : State) (r : Req) :
    { r with via := r.reach.filterMap fun x => (s.portAt x.1).map fun p => (x.1, p) } ∈ (s.addReq r).reqs :=
  List.mem_append_right _ (List.mem_singleton_self _)

theorem State.sameThreads_addReq (s : State) (r : Req) : s.SameThreads (s.addReq r) :=
  (s.sameThreads_sentMsgs r.who.cid r.msgs).trans (.of_cores rfl rfl rfl)

@[simp] theorem State.addReq_mem (s : State) (r : Req) : (s.addReq r).mem = s.mem := State.sentMsgs_mem s _ _

@[simp] theorem State.addReq_cur (s : State) (r : Req) : (s.addReq r).cur = s.cur := State.sentMsgs_cur s _ _

@[simp] theorem State.addReq_fams (s : State) (r : Req) : (s.addReq r).fams = s.fams := State.sentMsgs_fams s _ _

@[simp] theorem State.addReq_now (s : State) (r : Req) : (s.addReq r).now = s.now := State.sentMsgs_now s _ _

@[simp] theorem State.addReq_agenda (s : State) (r : Req) : (s.addReq r).agenda = s.agenda := State.sentMsgs_agenda s _ _

theorem State.calm_arriveIn (s : State) (r : Req) (n : Nat) : s.Calm (s.arriveIn r n) := by
  unfold State.arriveIn
  split
  · split
    · exact s.calm_atCycle _ _
    · exact s.calm_urgent _
  · exact s.calm_after _ _ _

@[simp] theorem State.arriveIn_mem (s : State) (r : Req) (n : Nat) : (s.arriveIn r n).mem = s.mem := by
  unfold State.arriveIn
  repeat' split
  all_goals rfl

theorem State.logRefusal_reqs (s : State) (w : Who) (part pa acc cause : Nat) : (s.logRefusal w part pa acc cause).reqs = s.reqs := by
  unfold State.logRefusal
  split <;> rfl

theorem State.sameThreads_logRefusal (s : State) (w : Who) (part pa acc cause : Nat) :
    s.SameThreads (s.logRefusal w part pa acc cause) := by
  unfold State.logRefusal
  split
  · exact .of_cores rfl rfl rfl
  · exact .refl s

theorem State.calm_lose (s : State) (cid pa n cause : Nat) : s.Calm (s.lose cid pa n cause) := by
  unfold State.lose
  split
  · exact s.calm_l1Drop _ _
  · exact .refl s

theorem State.sameThreads_failReq (s : State) (r : Req) (cause lat : Nat) : s.SameThreads (s.failReq r cause lat) :=
  ((s.sameThreads_logRefusal _ _ _ _ _).trans (State.calm_lose _ _ _ _ _).sameThreads).trans (.of_cores rfl rfl rfl)

/-- A request among those under way that fails stays among them, with its cause. -/
theorem State.failReq_isOf {s : State} {r q : Req} (hq : q ∈ s.reqs) (ht : q.tok = r.tok) (cause lat : Nat) :
    ∃ q' ∈ (s.failReq r cause lat).reqs, q'.IsOf r := by
  refine ⟨{ r with err := some { cause := cause, addr := memAddr cause r.va }, st := .performed }, ?_, r.from_, r.via, _, _, rfl⟩
  refine List.mem_map.2 ⟨q, ?_, by simp [ht]⟩
  rw [(State.calm_lose _ _ _ _ _).reqs, State.logRefusal_reqs]
  exact hq

/-- A request that finds its slots is on its way, and no thread has changed; without a release nothing is cleaned for it. -/
theorem send_ok {s : State} {r : Req} (hp : s.portFree r.who.cid r.homes = true) (hn : r.n ≠ 0) :
    ∃ t, send s r = .ok t ∧ s.SameThreads t ∧ (∃ q ∈ t.reqs, q.IsOf r) ∧ (r.rel = false → t.mem = s.mem) := by
  have hcalm : s.Calm (s.cleansFor r).2.1 := by
    unfold State.cleansFor
    split
    · exact s.calm_l1Clean _ _
    · exact .refl s
  have hmem : r.rel = false → (s.cleansFor r).2.1 = s ∧ (s.cleansFor r).2.2 = none := by
    intro h
    unfold State.cleansFor
    simp [h]
  unfold send
  simp only [hp, Bool.not_true, Bool.false_eq_true, if_false]
  rcases hc : s.cleansFor r with ⟨k, t, a⟩
  rw [hc] at hcalm hmem
  cases a with
  | some a =>
    refine ⟨_, rfl, ?_, ?_, fun h => absurd (hmem h).2 (by simp)⟩
    · unfold State.cleanFails
      rw [if_neg hn]
      exact (hcalm.sameThreads.trans (t.sameThreads_addReq r)).trans (State.sameThreads_failReq _ _ _ _)
    · unfold State.cleanFails
      rw [if_neg hn]
      exact State.failReq_isOf (r := r) (t.mem_addReq r) rfl _ _
  | none =>
    refine ⟨_, rfl, ?_, ?_, fun h => ?_⟩
    · exact (hcalm.sameThreads.trans (t.sameThreads_addReq _)).trans (State.calm_arriveIn _ _ _).sameThreads
    · rw [(State.calm_arriveIn _ _ _).reqs]
      exact ⟨_, t.mem_addReq _, _, _, r.st, r.err, rfl⟩
    · rw [State.arriveIn_mem, State.addReq_mem]
      exact congrArg State.mem (hmem h).1

/-! Side effects of tasks (R384). -/

theorem State.markFrom_eq (s : State) (part : Nat) (stop : Option Nat) (n : Nat) (inRev : Option Nat) :
    s.markFrom part stop n inRev = { s with fams := (s.markFrom part stop n inRev).fams } := by
  induction n generalizing s inRev with
  | zero => rfl
  | succ n ih =>
    cases inRev with
    | none => rfl
    | some id =>
      unfold State.markFrom
      split
      · rfl
      · split
        · rw [ih]; rfl
        · rfl

theorem State.markWrite_eq (s : State) (x : Xl) (lvl : Option Nat) :
    s.markWrite x lvl = { s with fams := (s.markWrite x lvl).fams } := by
  unfold State.markWrite
  split
  · rfl
  · exact State.markFrom_eq _ _ _ _ _

theorem State.sameThreads_markWrite (s : State) (x : Xl) (lvl : Option Nat) : s.SameThreads (s.markWrite x lvl) := by
  rw [State.markWrite_eq]
  exact .of_cores rfl rfl rfl

@[simp] theorem State.markWrite_reqs (s : State) (x : Xl) (lvl : Option Nat) : (s.markWrite x lvl).reqs = s.reqs := by
  rw [State.markWrite_eq]

@[simp] theorem State.markWrite_mem (s : State) (x : Xl) (lvl : Option Nat) : (s.markWrite x lvl).mem = s.mem := by
  rw [State.markWrite_eq]

/-! Posted stores (R172, R270). -/

/-- The request of a posted store, before its home is known. -/
def State.storeReq (s : State) (x : Xl) (n : Nat) (v : W64) (rel wide pod : Bool) : Req :=
  { s.fresh.2.newReq s.ctr (.store v) x n 1 with rel := rel, wide := wide, pod := pod, lvl := s.myLevel x.va }

/-- The posted store of an access that L1 takes part in. -/
def State.storeUsesL1 (s : State) (x : Xl) (rel wide : Bool) : Bool := s.usesL1 x (s.myLevel x.va) && !(rel && wide)

/-- The posted store that L1 answers at once. -/
def State.storesInL1 (s : State) (x : Xl) (n : Nat) (v : W64) (rel wide pod : Bool) : Bool :=
  s.storeUsesL1 x rel wide && !(s.fresh.2.core s.cur.cid).ways.isEmpty && (s.fresh.2.meets x (s.myLevel x.va) true n 1).isNone &&
    !s.fresh.2.blocks (s.storeReq x n v rel wide pod)

theorem postStore_inL1 {s : State} {x : Xl} {n : Nat} {v : W64} {rel wide pod : Bool} (hro : s.roHit x.va = false)
    (h : s.storesInL1 x n v rel wide pod = true) :
    postStore s x n v rel wide pod =
      .ok ((((s.fresh.2.l1Store s.cur.cid x.pa (toLe n v.toNat)).addReq { s.storeReq x n v rel wide pod with st := .performed }).after
        s.cur.cid (s.fresh.2.readLat s.cur.cid x (s.myLevel x.va) n) (.storeAck s.ctr)).markWrite x (s.myLevel x.va)) := by
  unfold postStore
  simp only [roCheck, hro, Bool.false_eq_true, if_false, bind, Except.bind, pure, Except.pure]
  exact if_pos h

theorem postStore_sent {s t : State} {x : Xl} {n : Nat} {v : W64} {rel wide pod : Bool} (hro : s.roHit x.va = false)
    (h : s.storesInL1 x n v rel wide pod = false)
    (ht : send s.fresh.2 { s.storeReq x n v rel wide pod with homes := [s.homeOf x.pa], l1 := s.storeUsesL1 x rel wide } = .ok t) :
    postStore s x n v rel wide pod = .ok (t.markWrite x (s.myLevel x.va)) := by
  unfold postStore
  simp only [roCheck, hro, Bool.false_eq_true, if_false, bind, Except.bind, pure, Except.pure]
  refine (if_neg (Bool.eq_false_iff.1 h)).trans ?_
  exact congrArg (Except.bind · fun t => Except.ok (t.markWrite x (s.myLevel x.va))) ht

/-- A store that no read-only region refuses and that finds its slots is on its way, or in L1; where L1 takes no part and it is no
release, no byte has changed. -/
theorem postStore_ok {s : State} {x : Xl} {n : Nat} (hn : n ≠ 0) (v : W64) {rel : Bool} (wide pod : Bool)
    (hro : s.roHit x.va = false) (hp : s.portFree s.cur.cid [s.homeOf x.pa] = true) :
    ∃ t, postStore s x n v rel wide pod = .ok t ∧ s.SameThreads t ∧
      (∃ q ∈ t.reqs, q.kind = .store v ∧ q.pa = x.pa ∧ q.n = n ∧ q.who = s.meWho ∧ q.rel = rel) ∧
      (rel = false → s.usesL1 x (s.myLevel x.va) = false → t.mem = s.mem) := by
  cases hin : s.storesInL1 x n v rel wide pod with
  | true =>
    refine ⟨_, postStore_inL1 hro hin, ?_, ?_, fun _ h => ?_⟩
    · exact (((s.calm_fresh.trans (State.calm_l1Store _ _ _ _)).sameThreads.trans (State.sameThreads_addReq _ _)).trans
        (State.calm_after _ _ _ _).sameThreads).trans (State.sameThreads_markWrite _ _ _)
    · rw [State.markWrite_reqs]
      exact ⟨_, State.mem_addReq _ _, rfl, rfl, rfl, rfl, rfl⟩
    · simp [State.storesInL1, State.storeUsesL1, h] at hin
  | false =>
    obtain ⟨t, ht, hth, ⟨q, hq, f, w, st, e, rfl⟩, hm⟩ := send_ok (s := s.fresh.2)
      (r := { s.storeReq x n v rel wide pod with homes := [s.homeOf x.pa], l1 := s.storeUsesL1 x rel wide }) hp hn
    refine ⟨_, postStore_sent hro hin ht, ?_, ?_, fun hr _ => ?_⟩
    · exact (s.calm_fresh.sameThreads.trans hth).trans (t.sameThreads_markWrite _ _)
    · rw [State.markWrite_reqs]
      exact ⟨_, hq, rfl, rfl, rfl, rfl, rfl⟩
    · rw [State.markWrite_mem]
      exact hm hr

end Sys2Proof.Machine
end

section
/-! SUPPORT. What committing a bundle, awaiting a value and holding a thread leave. -/

namespace Sys2Proof.Machine

/-! Commitment. -/

theorem commit_cores (s : State) (h : Hdr) (ext : ExtUse) (w : Bool) (next : W64) :
    (commit s h ext w next).cores =
      (s.updMe fun _ => s.me.afterCommit s.now (s.stallEnd h) s.cur.aFlags h ext w next).cores := by
  unfold commit
  dsimp only
  repeat' split
  all_goals rfl

theorem State.Stands.after_commit {s : State} (hs : s.Stands) (h : Hdr) (ext : ExtUse) (w : Bool) (next : W64) :
    (commit s h ext w next).Stands :=
  (hs.after_updMe _).congr (commit_cores s h ext w next) (by rw [commit_res]; simp) (by rw [commit_res]; simp)

@[simp] theorem commit_mem (s : State) (h : Hdr) (ext : ExtUse) (w : Bool) (next : W64) : (commit s h ext w next).mem = s.mem :=
  (commit_frame s h ext w next).2.1

@[simp] theorem commit_now (s : State) (h : Hdr) (ext : ExtUse) (w : Bool) (next : W64) : (commit s h ext w next).now = s.now :=
  (commit_frame s h ext w next).1

@[simp] theorem commit_fams (s : State) (h : Hdr) (ext : ExtUse) (w : Bool) (next : W64) : (commit s h ext w next).fams = s.fams := by
  obtain ⟨-, -, -, -, hf, -⟩ := commit_frame s h ext w next
  exact hf

@[simp] theorem commit_reqs (s : State) (h : Hdr) (ext : ExtUse) (w : Bool) (next : W64) : (commit s h ext w next).reqs = s.reqs := by
  obtain ⟨-, -, -, -, -, hr, -⟩ := commit_frame s h ext w next
  exact hr

theorem State.meWho_congr {s t : State} (hc : t.cur.cid = s.cur.cid) (hk : t.cur.slot = s.cur.slot) (hu : t.me.uid = s.me.uid) :
    t.meWho = s.meWho := by
  unfold State.meWho
  rw [hc, hk, hu]

/-- Commitment leaves the thread the one it was. -/
theorem State.Stands.meWho_commit {s : State} (hs : s.Stands) (h : Hdr) (ext : ExtUse) (w : Bool) (next : W64) :
    (commit s h ext w next).meWho = s.meWho :=
  State.meWho_congr (by rw [commit_res]) (by rw [commit_res]) (by rw [commit_me hs]; rfl)

/-! Registers that are covered. -/

/-- Covering a register changes the register, and maybe what END has to tell. -/
theorem Thread.coverS_eq (t : Thread) (n : BitVec 4) (c : SCell) :
    t.coverS n c = { t.setS n c with lost := (t.coverS n c).lost } := by
  unfold Thread.coverS
  split <;> rfl

@[simp] theorem Thread.coverS_self (t : Thread) (n : BitVec 4) (c : SCell) : (t.coverS n c).regs.s.get n.toFin = c := by
  rw [Thread.coverS_eq]
  simp [Thread.setS, Vector.get_eq_getElem]

@[simp] theorem Thread.coverS_pc (t : Thread) (n : BitVec 4) (c : SCell) : (t.coverS n c).pc = t.pc := by
  rw [Thread.coverS_eq]; rfl

@[simp] theorem Thread.coverS_uid (t : Thread) (n : BitVec 4) (c : SCell) : (t.coverS n c).uid = t.uid := by
  rw [Thread.coverS_eq]; rfl

/-! A register that awaits a value (R14). -/

@[simp] theorem State.awaitS_cur (s : State) (r : SReg) : (s.awaitS r).cur = s.cur := by
  cases r <;> simp [State.awaitS]

@[simp] theorem State.awaitS_mem (s : State) (r : SReg) : (s.awaitS r).mem = s.mem := by
  cases r <;> simp [State.awaitS]

@[simp] theorem State.awaitS_now (s : State) (r : SReg) : (s.awaitS r).now = s.now := by
  cases r <;> simp [State.awaitS]

@[simp] theorem State.awaitS_fams (s : State) (r : SReg) : (s.awaitS r).fams = s.fams := by
  cases r <;> simp [State.awaitS]

@[simp] theorem State.awaitS_reqs (s : State) (r : SReg) : (s.awaitS r).reqs = s.reqs := by
  cases r <;> simp [State.awaitS]

namespace State.Stands

variable {s : State} (hs : s.Stands)
include hs

theorem me_awaitS (n : BitVec 4) : (s.awaitS (.s n)).me = s.me.coverS n (s.me.regs.s.get n.toFin).await := hs.me_updMe _

theorem after_awaitS (r : SReg) : (s.awaitS r).Stands := by
  cases r with
  | s n => exact hs.after_updMe _
  | _ => exact hs

theorem awaitS_pc (r : SReg) : (s.awaitS r).me.pc = s.me.pc := by
  cases r with
  | s n => rw [hs.me_awaitS, Thread.coverS_pc]
  | _ => rfl

theorem awaitS_meWho (r : SReg) : (s.awaitS r).meWho = s.meWho := by
  cases r with
  | s n => exact State.meWho_congr (by simp) (by simp) (by rw [hs.me_awaitS, Thread.coverS_uid])
  | _ => rfl

/-- The register that awaits a value is absent and pending. -/
theorem awaitS_pending {r : SReg} {n : BitVec 4} (h : r = .s n) :
    ((s.awaitS r).me.regs.s.get n.toFin).pres = false ∧ ((s.awaitS r).me.regs.s.get n.toFin).pend = true := by
  subst h
  rw [hs.me_awaitS, Thread.coverS_self]
  exact ⟨rfl, rfl⟩

end State.Stands

/-- A bundle that commits while its destination awaits a value: what stands of its state. -/
structure Awaiting (s t : State) (r : SReg) : Prop where
  stands : t.Stands
  cid : t.cur.cid = s.cur.cid
  slot : t.cur.slot = s.cur.slot
  res : t.cur.res = .committed
  who : t.meWho = s.meWho
  pc : t.me.pc = s.me.pc + 8#64
  mem : t.mem = s.mem
  pending : ∀ k, r = .s k → (t.me.regs.s.get k.toFin).pres = false ∧ (t.me.regs.s.get k.toFin).pend = true

theorem State.Stands.awaiting {s : State} (hs : s.Stands) (h : Hdr) (ext : ExtUse) (w : Bool) (r : SReg) :
    Awaiting s ((commitNext s h ext w).awaitS r) r := by
  have hc : (commitNext s h ext w).Stands := hs.after_commit _ _ _ _
  refine ⟨hc.after_awaitS r, ?_, ?_, ?_, ?_, ?_, ?_, fun k => hc.awaitS_pending⟩
  · simp [commitNext, commit_res]
  · simp [commitNext, commit_res]
  · simp [commitNext, commit_res]
  · rw [hc.awaitS_meWho]
    exact hs.meWho_commit _ _ _ _
  · rw [hc.awaitS_pc, commitNext, commit_me hs]
    rfl
  · rw [State.awaitS_mem, commitNext, commit_mem]

theorem State.SameThreads.awaiting {s t u : State} {r : SReg} (h : s.SameThreads t) (hm : t.mem = s.mem) (k : Awaiting t u r) :
    Awaiting s u r :=
  ⟨k.stands, k.cid.trans h.cid, k.slot.trans h.slot, k.res, k.who.trans h.meWho, by rw [k.pc, h.me], k.mem.trans hm, k.pending⟩

theorem Awaiting.sameThreads {s t u : State} {r : SReg} (k : Awaiting s t r) (h : t.SameThreads u) (hr : u.cur.res = t.cur.res)
    (hm : u.mem = t.mem) : Awaiting s u r :=
  ⟨h.stands k.stands, h.cid.trans k.cid, h.slot.trans k.slot, hr.trans k.res, h.meWho.trans k.who, by rw [h.me, k.pc], hm.trans k.mem,
    by rw [h.me]; exact k.pending⟩

/-! A value that arrives later (R14). -/

/-- The request that brings a value which is known. -/
def State.valueReq (s : State) (v : W64) (lat : Nat) : Req :=
  { s.fresh.2.newReq s.ctr (.value v) { va := 0, pa := 0, w1 := 0#64, own := true, extra := 0 } 0 0 with
    lat := lat, st := .performed, res := v }

theorem State.valueLater_eq (s : State) (n : BitVec 4) (v : W64) (lat : Nat) :
    s.valueLater (.s n) v lat =
      ((s.awaitS (.s n)).fresh.2.addReq { (s.awaitS (.s n)).valueReq v lat with dst := .s n }).after
        (s.awaitS (.s n)).cur.cid lat (.loadResponse (s.awaitS (.s n)).ctr) := rfl

/-- Apart from its request, a value that arrives later only makes its register await it. -/
theorem State.sameThreads_valueLater (s : State) (r : SReg) (v : W64) (lat : Nat) :
    (s.awaitS r).SameThreads (s.valueLater r v lat) := by
  cases r with
  | s n =>
    rw [State.valueLater_eq]
    exact ((State.calm_fresh _).sameThreads.trans (State.sameThreads_addReq _ _)).trans (State.calm_after _ _ _ _).sameThreads
  | _ => exact .refl s

@[simp] theorem State.valueLater_cur (s : State) (r : SReg) (v : W64) (lat : Nat) : (s.valueLater r v lat).cur = s.cur := by
  cases r with
  | s n =>
    rw [State.valueLater_eq, State.after_cur, State.addReq_cur]
    exact State.awaitS_cur s (.s n)
  | _ => rfl

@[simp] theorem State.valueLater_mem (s : State) (r : SReg) (v : W64) (lat : Nat) : (s.valueLater r v lat).mem = s.mem := by
  cases r with
  | s n =>
    rw [State.valueLater_eq, State.after_mem, State.addReq_mem]
    exact State.awaitS_mem s (.s n)
  | _ => rfl

@[simp] theorem State.valueLater_fams (s : State) (r : SReg) (v : W64) (lat : Nat) : (s.valueLater r v lat).fams = s.fams := by
  cases r with
  | s n =>
    rw [State.valueLater_eq, State.after_fams, State.addReq_fams]
    exact State.awaitS_fams s (.s n)
  | _ => rfl

@[simp] theorem State.valueLater_now (s : State) (r : SReg) (v : W64) (lat : Nat) : (s.valueLater r v lat).now = s.now := by
  cases r with
  | s n =>
    rw [State.valueLater_eq, State.after_now, State.addReq_now]
    exact State.awaitS_now s (.s n)
  | _ => rfl

theorem State.Stands.valueLater_req {s : State} (hs : s.Stands) (n : BitVec 4) (v : W64) (lat : Nat) :
    ∃ q ∈ (s.valueLater (.s n) v lat).reqs, q.kind = .value v ∧ q.res = v ∧ q.dst = .s n ∧ q.who = s.meWho := by
  rw [State.valueLater_eq, State.after_reqs]
  exact ⟨_, State.mem_addReq _ _, rfl, rfl, rfl, hs.awaitS_meWho _⟩

/-- A bundle that commits with a value on its way to r. -/
theorem State.Stands.commitNext_valueLater {s : State} (hs : s.Stands) (h : Hdr) (ext : ExtUse) (w : Bool) (r : SReg) (v : W64)
    (lat : Nat) :
    let t := (commitNext s h ext w).valueLater r v lat
    Awaiting s t r ∧ ∀ k, r = .s k → ∃ q ∈ t.reqs, q.kind = .value v ∧ q.res = v ∧ q.dst = .s k ∧ q.who = s.meWho := by
  refine ⟨(hs.awaiting h ext w r).sameThreads (State.sameThreads_valueLater _ _ _ _) (by simp) (by simp), ?_⟩
  rintro k rfl
  rw [← hs.meWho_commit h ext w (s.me.pc + 8#64)]
  exact (hs.after_commit h ext w _).valueLater_req k v lat

theorem Answers.of_valueLater {i : Instr} {r : SReg} {s s1 : State} {p : W64 → Prop} {h : Hdr} {ext : ExtUse} {w : Bool} {v : W64}
    {lat : Nat} (hs : s.Stands) (h1 : s.SameThreads s1) (hm : s1.mem = s.mem) (hv : p v)
    (hx : exec i s = .next ((commitNext s1 h ext w).valueLater r v lat)) : Answers i r s p := by
  obtain ⟨ha, hq⟩ := (h1.stands hs).commitNext_valueLater h ext w r v lat
  have ha := h1.awaiting hm ha
  refine ⟨_, v, hv, hx, ha.res, ha.pc, ha.mem, fun k hk => ⟨?_, ha.pending k hk⟩⟩
  rw [← h1.meWho]
  exact hq k hk

/-! A held bundle (R14). -/

theorem run_holdOn {s : State} (hs : s.Stands) (tok : Nat) :
    (run (holdOn s tok)).cur = { s.cur with res := .held } ∧ (run (holdOn s tok)).reqs = s.reqs ∧
      (run (holdOn s tok)).me.hold = .busy tok := by
  have hh : ({ s with cur := { s.cur with res := .held } } : State).Stands := hs.congr rfl rfl rfl
  unfold holdOn run
  dsimp only
  rw [State.updMe_cur, State.updMe_reqs, hh.me_updMe]
  exact ⟨rfl, rfl, rfl⟩

/-- A bundle held for a known value: its thread waits for the request that brings it. -/
theorem run_holdFor {s : State} (hs : s.Stands) (v : W64) (lat : Nat) :
    (run (holdFor s v lat)).cur.res = .held ∧ ∃ q ∈ (run (holdFor s v lat)).reqs, (run (holdFor s v lat)).me.hold = .busy q.tok ∧
      q.who = s.meWho ∧ q.kind = .value v := by
  have hx : run (holdFor s v lat) = run (holdOn ((s.fresh.2.addReq { s.valueReq v lat with holds := true }).after s.cur.cid lat
    (.loadResponse s.ctr)) s.ctr) := rfl
  obtain ⟨hc, hr, hh⟩ := run_holdOn ((((s.calm_fresh).sameThreads.trans (State.sameThreads_addReq _ { s.valueReq v lat with holds := true })).trans
    (State.calm_after _ s.cur.cid lat (.loadResponse s.ctr)).sameThreads).stands hs) s.ctr
  rw [hx, hc, hr]
  exact ⟨rfl, _, State.mem_addReq _ _, hh, rfl, rfl⟩

end Sys2Proof.Machine
end

section
/-! SUPPORT. Loads, stores and atomics whose addresses translate (R167, R172, R177, R179). -/

namespace Sys2Proof.Machine

theorem memGate_ok {s : State} (h : s.acqBlocked = false) : memGate s = .ok () := by
  unfold memGate
  simp [h]

theorem travFirst_ok {s : State} {x : Xl} (h : wTrav x.w1 = false) (acc : Nat) : travFirst s x acc = .ok () := by
  unfold travFirst
  simp [h]

theorem roCheck_ok {s : State} {va : Nat} (h : s.roHit va = false) (acc : Nat) : roCheck s va acc = .ok () := by
  unfold roCheck
  simp [h]

theorem State.doneVal_of_none {s : State} (h : s.me.hold = .none) : s.doneVal = none := by
  unfold State.doneVal
  rw [h]

theorem State.doneVal_of_done {s : State} {v : W64} (h : s.me.hold = .done v) : s.doneVal = some v := by
  unfold State.doneVal
  rw [h]

/-- The registers are usable, of an instruction that makes no fixed-latency result. -/
theorem gateC_usable {u : Uses} {s : State} (h : Usable u s) (hb : InBudget s) (hpw : u.pw = [] := by rfl) : gateC u s = .ok () :=
  gateC_ok h (by simp [hpw]) hb

theorem accSize_ne_zero (m : MemMod) : accSize m ≠ 0 := (Nat.two_pow_pos _).ne'

/-! Loads. -/

/-- The request of a load. -/
def State.loadReq (s : State) (x : Xl) (n : Nat) (sext acq : Bool) (sc : Scope) (rd : SReg) : Req :=
  { s.fresh.2.newReq s.ctr (.load sext) x n 0 with
    acq := acq, wide := sc != .core, pod := sc == .pod, lvl := s.myLevel x.va, dst := destOf rd, homes := [s.homeOf x.pa],
    l1 := s.usesL1 x (s.myLevel x.va) }

section

variable {h : Hdr} {rd ra : SReg} {n : Nat} {va : State → W64} {sext acq : Bool} {sc : Scope} {w : Bool} {s s1 : State} {x : Xl}

/-- What a load comes to once its address has translated. -/
theorem loadOp_eq (hg : gateC { Uses.none with sr := [ra], sw := [rd] } s = .ok ()) (hd : s.doneVal = none)
    (ha : s.acqBlocked = false) (hx : access s (va s) n n needLoad false = .ok (x, s1)) (ht : wTrav x.w1 = false)
    (hw : s1.inWindow x.pa n = false) :
    loadOp h rd ra n va sext acq sc w s =
      if s1.fresh.2.l1Answers (s1.loadReq x n sext acq sc rd) then
        .ok (((commitNext s1.fresh.2 h (extUse h) w).awaitS rd).l1Load { s1.loadReq x n sext acq sc rd with homes := [] } sext)
      else (send s1.fresh.2 (s1.loadReq x n sext acq sc rd)).bind fun s3 => .ok ((commitNext s3 h (extUse h) w).awaitS rd) := by
  unfold loadOp
  simp only [hg, hd, memGate_ok ha, hx, travFirst_ok ht, bind, Except.bind, pure, Except.pure]
  exact if_neg (Bool.eq_false_iff.1 hw)

/-- A load answered by L1 is a request and L1's use of its line, no more. -/
theorem State.l1Load_leaves (s : State) (r : Req) (sext : Bool) :
    s.SameThreads (s.l1Load r sext) ∧ (s.l1Load r sext).cur = s.cur ∧ (s.l1Load r sext).mem = s.mem ∧
      ∃ q ∈ (s.l1Load r sext).reqs, ∃ v, q.IsOf { r with res := v } := by
  unfold State.l1Load
  refine ⟨((s.calm_l1Use _ _ _).sameThreads.trans (State.sameThreads_addReq _ _)).trans (State.calm_after _ _ _ _).sameThreads, ?_, ?_,
    _, State.mem_addReq _ _, _, _, _, _, _, rfl⟩
  · rw [State.after_cur, State.addReq_cur]; rfl
  · rw [State.after_mem, State.addReq_mem]; rfl

/-- The load commits with its request under way, and its destination awaits the value. -/
theorem run_loadOp (hs : s.Stands) (hb : InBudget s) (hh : s.me.hold = .none)
    (hu : Usable { Uses.none with sr := [ra], sw := [rd] } s) (ha : s.acqBlocked = false) (hn : n ≠ 0) {s' : State}
    (hx : s.xlate s.cur.cid (va s).toNat n n needLoad (!s.me.sys) (s.cur.slot == 16) false = .ok x s') (ht : wTrav x.w1 = false)
    (hw : s.inWindow x.pa n = false) (hp : s.portFree s.cur.cid [s.homeOf x.pa] = true) :
    ∃ q, Awaiting s (run (loadOp h rd ra n va sext acq sc w s)) rd ∧ q ∈ (run (loadOp h rd ra n va sext acq sc w s)).reqs ∧
      q.kind = .load sext ∧ q.pa = x.pa ∧ q.n = n ∧ q.who = s.meWho ∧ q.dst = destOf rd ∧ q.acq = acq := by
  obtain ⟨s1, hx1, hc, hm⟩ := access_ok hx
  rw [loadOp_eq (gateC_usable hu hb) (State.doneVal_of_none hh) ha hx1 ht ((hc.inWindow _ _).trans hw)]
  have hc2 : s.Calm s1.fresh.2 := hc.trans s1.calm_fresh
  split
  · obtain ⟨hth, hcur, hmem, q, hq, v, f, via, st, e, rfl⟩ := State.l1Load_leaves
      ((commitNext s1.fresh.2 h (extUse h) w).awaitS rd) { s1.loadReq x n sext acq sc rd with homes := [] } sext
    have hcom := hc2.sameThreads.awaiting hm ((hc2.stands hs).awaiting h (extUse h) w rd)
    exact ⟨_, hcom.sameThreads hth (congrArg Cur.res hcur) hmem, hq, rfl, rfl, rfl, hc.meWho, rfl, rfl⟩
  · have hport : s1.fresh.2.portFree (s1.loadReq x n sext acq sc rd).who.cid (s1.loadReq x n sext acq sc rd).homes = true := by
      rw [hc2.portFree]
      show s.portFree s1.cur.cid [s1.homeOf x.pa] = true
      rw [hc.cid, hc.homeOf]
      exact hp
    obtain ⟨t, hsend, hth, ⟨q, hq, f, via, st, e, rfl⟩, hmem⟩ := send_ok hport hn
    rw [hsend]
    have hst := hc2.sameThreads.trans hth
    have hcom := hst.awaiting ((hmem rfl).trans hm) ((hst.stands hs).awaiting h (extUse h) w rd)
    rw [← commit_reqs t h (extUse h) w (t.me.pc + 8#64), ← State.awaitS_reqs _ rd] at hq
    exact ⟨_, hcom, hq, rfl, rfl, rfl, hc.meWho, rfl, rfl⟩

end

/-! Stores. -/

/-- What a store comes to once its address has translated. -/
theorem storeOp_eq {h : Hdr} {rd ra : SReg} {m : MemMod} {s s1 : State} {x : Xl}
    (hg : gateC { Uses.none with sr := [rd, ra] } s = .ok ()) (hd : s.doneVal = none) (ha : s.acqBlocked = false)
    (hx : access s (s.effAddr h ra m.dsp (accSize m)) (accSize m) (accSize m) needStore false = .ok (x, s1)) (ht : wTrav x.w1 = false)
    (hw : s1.inWindow x.pa (accSize m) = false) :
    storeOp h rd ra m s =
      (postStore s1 x (accSize m) (s.regVal rd) (m.ord != 0#2) (m.sc != .core) (m.sc == .pod)).bind fun s2 =>
        .ok (commitNext s2 h (extUse h) (ordFallback m (m.ord.getLsbD 0))) := by
  unfold storeOp
  simp only [hg, hd, memGate_ok ha, hx, travFirst_ok ht, bind, Except.bind, pure, Except.pure]
  exact if_neg (Bool.eq_false_iff.1 hw)

/-! Atomics. -/

/-- An atomic commits with its request under way, and its destination awaits the old value; where it is no release, no byte has
changed. -/
theorem run_atomicOp {h : Hdr} {kind : ReqKind} {rd ra : SReg} {u : Uses} {n : Nat} {od : BitVec 2} {w : Bool} {s s' : State} {x : Xl}
    (hs : s.Stands) (hg : gateC u s = .ok ()) (ha : s.acqBlocked = false) (hn : n ≠ 0)
    (hx : s.xlate s.cur.cid (s.regVal ra).toNat n n needAtomic (!s.me.sys) (s.cur.slot == 16) true = .ok x s')
    (ht : wTrav x.w1 = false) (hro : s.roHit x.va = false) (hp : s.portFree s.cur.cid [s.homeOf x.pa] = true) :
    ∃ t q, run (atomicOp h kind rd ra u n od w s) = t ∧ t.cur.res = .committed ∧ q ∈ t.reqs ∧ q.kind = kind ∧ q.pa = x.pa ∧ q.n = n ∧
      q.who = s.meWho ∧ q.dst = destOf rd ∧ q.acq = od.getLsbD 0 ∧ q.rel = od.getLsbD 1 ∧ t.me.pc = s.me.pc + 8#64 ∧
      (∀ k, rd = .s k → (t.me.regs.s.get k.toFin).pres = false ∧ (t.me.regs.s.get k.toFin).pend = true) ∧
      (od.getLsbD 1 = false → t.mem = s.mem) := by
  obtain ⟨s1, hx1, hc, hm⟩ := access_ok hx
  have hc2 : s.Calm s1.fresh.2 := hc.trans s1.calm_fresh
  obtain ⟨t, hsend, hth, ⟨q, hq, f, via, st, e, rfl⟩, hmem⟩ := send_ok (s := s1.fresh.2)
    (r := { s1.fresh.2.newReq s1.ctr kind x n 3 with
      lvl := s1.myLevel x.va, acq := od.getLsbD 0, rel := od.getLsbD 1, wide := true, pod := decide (2 ^ 48 ≤ x.pa), dst := destOf rd,
      homes := [s1.fresh.2.homeOf x.pa] })
    (by
      rw [hc2.portFree, hc2.homeOf]
      show s.portFree s1.cur.cid [s.homeOf x.pa] = true
      rw [hc.cid]
      exact hp) hn
  have hst := hc2.sameThreads.trans hth
  have hcom := (hst.stands hs).awaiting h .drops (loneW h || w) rd
  rw [← commit_reqs t h .drops (loneW h || w) (t.me.pc + 8#64), ← State.awaitS_reqs _ rd] at hq
  refine ⟨(commitNext t h .drops (loneW h || w)).awaitS rd, _, ?_, hcom.res, hq, rfl, rfl, rfl, hc.meWho, rfl, rfl, rfl,
    by rw [hcom.pc, hst.me], hcom.pending, fun hr => by rw [hcom.mem, hmem hr]; exact hm⟩
  · unfold atomicOp
    simp only [hg, memGate_ok ha, hx1, travFirst_ok ht, roCheck_ok ((hc.roHit _).trans hro), bind, Except.bind]
    rw [show State.fresh s1 = (s1.ctr, s1.fresh.2) from rfl]
    dsimp only
    rw [hsend]
    rfl

/-! The obligations. -/

/-- Settles O17: a load's request is sent, or answered by L1, and neither touches memory or the issuing thread but its destination. -/
theorem loadsComplete : Obligations.LoadsComplete := by
  unfold Obligations.LoadsComplete
  intro h rd ra m s s' x hs hb hh hu ha n va hx ht hw hp done
  have hdone : ∀ i sext w, exec i s = .next (run (loadOp h rd ra n (fun s => s.effAddr h ra m.dsp n) sext (m.ord != 0#2) m.sc w s)) →
      done i sext := by
    intro i sext w hi
    obtain ⟨q, hcom, hq⟩ := run_loadOp (h := h) (sext := sext) (acq := m.ord != 0#2) (sc := m.sc) (w := w)
      (va := fun s => s.effAddr h ra m.dsp n) hs hb hh hu ha (accSize_ne_zero m) hx ht hw hp
    obtain ⟨hmem, hkind, hpa, hqn, hwho, hdst, hacq⟩ := hq
    exact ⟨_, q, hi, hcom.res, hcom.pc, hcom.mem, hmem, hkind, hpa, hqn, hwho, hdst, hacq, hcom.pending⟩
  exact ⟨hdone _ _ _ rfl, hdone _ _ _ rfl⟩

/-- Settles O18: a posted store touches no thread, and without a release no byte of memory where L1 takes no part. -/
theorem storesComplete : Obligations.StoresComplete := by
  unfold Obligations.StoresComplete
  intro h rd ra m s s' x hs hb hh hu ha n va hx ht hw hro hp
  obtain ⟨s1, hx1, hc, hm⟩ := access_ok hx
  obtain ⟨t, hpost, hth, ⟨q, hq, hkind, hpa, hn, hwho, hrel⟩, hmem⟩ := postStore_ok (s := s1) (x := x) (accSize_ne_zero m) (s.regVal rd)
    (rel := m.ord != 0#2) (m.sc != .core) (m.sc == .pod) ((hc.roHit _).trans hro) (by rw [hc.portFree, hc.cid, hc.homeOf]; exact hp)
  have hst := hc.sameThreads.trans hth
  refine ⟨commitNext t h (extUse h) (ordFallback m (m.ord.getLsbD 0)), q, ?_, by simp [commitNext, commit_res], ?_, hkind, hpa, hn,
    hwho.trans hc.meWho, hrel, fun hord hl1 => ⟨?_, ?_⟩⟩
  · show Host.Outcome.next (run (storeOp h rd ra m s)) = _
    rw [storeOp_eq (gateC_usable hu hb) (State.doneVal_of_none hh) ha hx1 ht ((hc.inWindow _ _).trans hw), hpost]
    rfl
  · rw [commitNext, commit_reqs]
    exact hq
  · rw [commitNext, commit_mem, hmem (by simp [hord]) (by rw [hc.myLevel, hc.usesL1]; exact hl1)]
    exact hm
  · rw [commitNext, commit_me (hst.stands hs), hst.me]
    rfl

/-- Settles O20: the request of an atomic is sent, and apart from its release touches no memory, nor the issuing thread but its
destination. -/
theorem atomicsComplete : Obligations.AtomicsComplete := by
  unfold Obligations.AtomicsComplete
  intro h rd ra rb w od s s' x hs hb ha done n b
  have hn : n ≠ 0 := by
    show (if w then 4 else 8) ≠ 0
    split <;> decide
  have hdone : ∀ i kind u k w', gateC u s = .ok () → k ≠ 0 → exec i s = .next (run (atomicOp h kind rd ra u k od w' s)) → done i kind k := by
    intro i kind u k w' hg hk hi hx ht hro hp
    obtain ⟨t, q, rfl, hrest⟩ := run_atomicOp (h := h) (kind := kind) (rd := rd) (u := u) (od := od) (w := w') hs hg ha hk hx ht hro hp
    exact ⟨_, q, hi, hrest⟩
  refine ⟨fun hu => ?_, fun hu => hdone _ _ _ _ _ (gateC_usable hu hb) hn rfl⟩
  have hamo : ∀ i op, op ≠ .fadd → exec i s = .next (run (amoInstr h op rd ra rb w od s)) → done i (.amo op b) n := by
    intro i op hop hi
    refine hdone i _ { Uses.none with sr := [ra, rb], sw := [rd] } n false (gateC_usable hu hb) hn ?_
    rw [hi]
    have hne : (op == AmoOp.fadd) = false := by simpa using hop
    unfold amoInstr
    simp [hne, n, b]
  have hfadd : done (.amoFadd h rd ra rb w od) (.amo .fadd b) 4 := by
    refine hdone _ _ { Uses.none with sr := [ra, rb], sw := [rd] } 4 (!w) (gateC_usable hu hb) (by decide) ?_
    show Host.Outcome.next (run (amoInstr h .fadd rd ra rb w od s)) = _
    unfold amoInstr
    simp [b]
  exact ⟨hamo _ _ (by decide) rfl, hamo _ _ (by decide) rfl, hamo _ _ (by decide) rfl, hamo _ _ (by decide) rfl,
    hamo _ _ (by decide) rfl, hamo _ _ (by decide) rfl, hamo _ _ (by decide) rfl, hamo _ _ (by decide) rfl,
    hamo _ _ (by decide) rfl, hfadd⟩

end Sys2Proof.Machine
end

section
/-! SUPPORT. Calls, returns and the return stack (R19, R131, R132). -/

namespace Sys2Proof.Machine

/-- An address of a bundle has its three low bits clear. -/
theorem lowBits_of_aligned {a : W64} (h : a.toNat % 8 = 0) : (a.extractLsb' 0 3 != 0#3) = false := by
  rw [bne_eq_false_iff_eq]
  apply BitVec.eq_of_toNat_eq
  simpa [BitVec.extractLsb'_toNat] using h

/-! What a call comes to. -/

theorem push_short {s : State} (h : s.me.rstack.length < 8) (a : W64) :
    push s a = .ok (s.updMe fun t => { t with rstack := a :: t.rstack }) := by
  unfold push
  simp [h]

theorem push_noRoom {s : State} (h : s.me.rstack.length = 8) (hf : s.me.csr.cfp.toNat < s.me.csr.cfl.toNat + 8) (a : W64) :
    push s a = raise s 6 0x0C 0 := by
  unfold push
  simp [h, hf]

/-- The thread whose call to return to a spills its oldest entry at va. -/
def Thread.spilled (t : Thread) (a va : W64) : Thread :=
  { t with rstack := a :: t.rstack.dropLast, depth := t.depth + 1, csr := { t.csr with cfp := va } }

theorem push_spill {s s1 s2 : State} {x : Xl} (h : s.me.rstack.length = 8) (hf : s.me.csr.cfl.toNat + 8 ≤ s.me.csr.cfp.toNat)
    (ha : s.acqBlocked = false) (hx : access s (s.me.csr.cfp - 8#64) 8 8 needStore false = .ok (x, s1))
    (hp : postStore s1 x 8 (s.me.rstack.getLastD 0#64) false false false = .ok s2) (a : W64) :
    push s a = .ok (s2.updMe fun t => t.spilled a (s.me.csr.cfp - 8#64)) := by
  unfold push
  simp only [h, Nat.not_lt.2 hf, memGate_ok ha, hx, hp, bind, Except.bind, pure, Except.pure, Nat.lt_irrefl, if_false]
  rfl

/-- A call whose push succeeds commits at its target. -/
theorem callOp_pushed {s s1 : State} {target : W64} (ht : target.toNat % 8 = 0) (hp : push s (s.me.pc + 8#64) = .ok s1) (h : Hdr)
    (w : Bool) : callOp s h target w = .ok (commit s1 h .drops w target) := by
  unfold callOp
  simp only [lowBits_of_aligned ht, hp, bind, Except.bind, pure, Except.pure, Bool.false_eq_true, if_false]

theorem callOp_noRoom {s : State} {target : W64} (ht : target.toNat % 8 = 0) (h : s.me.rstack.length = 8)
    (hf : s.me.csr.cfp.toNat < s.me.csr.cfl.toNat + 8) (hd : Hdr) (w : Bool) : callOp s hd target w = raise s 6 0x0C 0 := by
  unfold callOp
  simp only [lowBits_of_aligned ht, push_noRoom h hf, bind, Except.bind, Bool.false_eq_true, if_false]
  rfl

/-! What the three instructions come to, once their registers are checked. -/

theorem exec_brx {h : Hdr} {ra : SReg} {s : State} (hg : gateC { Uses.none with sr := [ra] } s = .ok ())
    (ha : (s.regVal ra).toNat % 8 = 0) :
    exec (.brx h ra) s = .next (if (s.regVal ra).toNat ≤ s.me.pc.toNat then s.takeTrap 6 0x09 0
      else commit s h .drops h.lit.isSome (s.regVal ra)) := by
  show execBrx h ra s = _
  unfold execBrx
  simp only [hg, lowBits_of_aligned ha, bind, Except.bind, Bool.false_eq_true, if_false]
  split <;> rfl

theorem exec_callx {h : Hdr} {ra : SReg} {s : State} (hg : gateC { Uses.none with sr := [ra] } s = .ok ()) :
    exec (.callx h ra) s = .next (run (callOp s h (s.regVal ra) h.lit.isSome)) := by
  show execCallx h ra s = _
  unfold execCallx
  simp only [hg, bind, Except.bind]
  rfl

theorem exec_call_short {h : Hdr} {off : BitVec 14} {s : State} (hg : gateC Uses.none s = .ok ()) (hl : h.lit = none) :
    exec (.call h off) s = .next (run (callOp s h (s.me.pc + 8#64 + (off.setWidth 64 <<< 3)) false)) := by
  show execCall h off s = _
  unfold execCall
  simp only [hg, hl, bind, Except.bind]
  rfl

theorem exec_call_lone {h : Hdr} {off : BitVec 14} {k : BitVec 32} {s : State} (hg : gateC Uses.none s = .ok ()) (hl : h.lit = some k) :
    exec (.call h off) s = .next (run (callOp s h (s.me.pc + 8#64 + (k.signExtend 64 <<< 3)) false)) := by
  show execCall h off s = _
  unfold execCall
  simp only [hg, hl, bind, Except.bind]

/-- A return to an entry commits there, and then changes the stack. -/
theorem run_retTo {s : State} (hs : s.Stands) {a : W64} (ha : a.toNat % 8 = 0) (h : Hdr) (pop : Thread → Thread) :
    ∃ t, run (retTo s h a pop) = t ∧ t.cur.res = .committed ∧ t.mem = s.mem ∧
      t.me = pop (s.me.afterCommit s.now (s.stallEnd h) s.cur.aFlags h .drops (loneW h) a) := by
  refine ⟨(commit s h .drops (loneW h) a).updMe pop, ?_, ?_, ?_, ?_⟩
  · unfold retTo
    simp only [lowBits_of_aligned ha, Bool.false_eq_true, if_false]
    rfl
  · rw [State.updMe_cur, commit_res]
  · rw [State.updMe_mem, commit_mem]
  · rw [(hs.after_commit _ _ _ _).me_updMe, commit_me hs]

theorem exec_ret_top {h : Hdr} {s : State} {a : W64} {rest : List W64} (hg : gateC Uses.none s = .ok ()) (hr : s.me.rstack = a :: rest) :
    exec (.ret h) s = .next (run (retTo s h a fun t => { t with rstack := t.rstack.drop 1 })) := by
  show execRet h s = _
  unfold execRet
  simp only [hg, hr, bind, Except.bind]

theorem exec_ret_empty {h : Hdr} {s : State} (hg : gateC Uses.none s = .ok ()) (hr : s.me.rstack = []) (hd : s.me.depth = 0) :
    exec (.ret h) s = .next (s.takeTrap 6 0x0B 0) := by
  show execRet h s = _
  unfold execRet
  simp only [hg, hr, hd, bind, Except.bind, if_true]
  rfl

theorem exec_ret_refilled {h : Hdr} {s : State} {v : W64} (hg : gateC Uses.none s = .ok ()) (hr : s.me.rstack = [])
    (hd : s.me.depth ≠ 0) (hv : s.me.hold = .done v) :
    exec (.ret h) s = .next (run (retTo s h v fun t =>
      { t with depth := t.depth - 1, csr := { t.csr with cfp := t.csr.cfp + 8#64 } })) := by
  show execRet h s = _
  unfold execRet
  simp only [hg, hr, hd, State.doneVal_of_done hv, bind, Except.bind, if_false]

theorem exec_ret_refill {h : Hdr} {s s1 : State} {x : Xl} (hg : gateC Uses.none s = .ok ()) (hr : s.me.rstack = [])
    (hd : s.me.depth ≠ 0) (hv : s.me.hold = .none) (ha : s.acqBlocked = false)
    (hx : access s s.me.csr.cfp 8 8 needLoad false = .ok (x, s1)) (hown : s1.ownAtomic x 8 = false) (haway : s1.awayAt x.pa = none)
    (hslot : s1.slotFor x (s1.myLevel x.va) 8 = true) (hmeets : s1.meets x (s1.myLevel x.va) true 8 0 = none) :
    exec (.ret h) s = .next (run (holdFor (s1.readHere x (s1.myLevel x.va) 8).2
      (BitVec.ofNat 64 (leVal (s1.readHere x (s1.myLevel x.va) 8).1)) (s1.readLat s.cur.cid x (s1.myLevel x.va) 8))) := by
  show execRet h s = _
  unfold execRet
  simp only [hg, hr, hd, State.doneVal_of_none hv, memGate_ok ha, hx, hown, haway, hslot, hmeets, bind, Except.bind, if_false,
    Option.isSome_none, Bool.or_false, Bool.not_true, Bool.false_eq_true]

/-! The obligation. -/

/-- Settles O11: a push that finds room changes the stack alone, and one that spills posts a store beside; a return reads the top of the
stack, or is held for the value read at cfp. -/
theorem callsAndReturns : Obligations.CallsAndReturns := by
  unfold Obligations.CallsAndReturns
  intro h ra off s hs hb next a pushed
  refine ⟨fun hu ha => ?_, fun hu => ?_, ?_⟩
  · have hg := gateC_usable hu hb
    refine ⟨fun hlt => ?_, fun hle => ?_, fun hlen => ?_⟩
    · rw [exec_brx hg ha, if_neg (Nat.not_le.2 hlt)]
    · rw [exec_brx hg ha, if_pos hle]
    · rw [exec_callx hg, callOp_pushed ha (push_short hlen _)]
      rfl
  · have hg := gateC_usable hu hb
    refine ⟨?_, fun r rest hr hal => ?_, exec_ret_empty hg, fun v hr hd hv hal => ?_, fun x s' hr hd hv ha hx hown haway hslot hmeets => ?_⟩
    · cases hl : h.lit with
      | none =>
        intro target hal hlen
        rw [exec_call_short hg hl, callOp_pushed hal (push_short hlen _)]
        rfl
      | some k =>
        intro target hal hlen
        rw [exec_call_lone hg hl, callOp_pushed hal (push_short hlen _)]
        rfl
    · obtain ⟨t, rfl, hres, hmem, hme⟩ := run_retTo hs hal h fun t => { t with rstack := t.rstack.drop 1 }
      refine ⟨_, exec_ret_top hg hr, hres, ?_, ?_, ?_, hmem⟩ <;> rw [hme]
      · rfl
      · simp [Thread.afterCommit, hr]
      · rfl
    · obtain ⟨t, rfl, hres, hmem, hme⟩ := run_retTo hs hal h fun t =>
        { t with depth := t.depth - 1, csr := { t.csr with cfp := t.csr.cfp + 8#64 } }
      refine ⟨_, exec_ret_refilled hg hr hd hv, hres, ?_, ?_, ?_, ?_, ?_, hmem⟩ <;> rw [hme]
      · rfl
      · exact hr
      · rfl
      · rfl
      · rfl
    · obtain ⟨hc, -⟩ := calm_access hx
      have hread := hc.trans (State.calm_readHere s' x (s'.myLevel x.va) 8)
      obtain ⟨hres, q, hq, hhold, hwho, hkind⟩ := run_holdFor (hread.stands hs)
        (BitVec.ofNat 64 (leVal (s'.readHere x (s'.myLevel x.va) 8).1)) (s'.readLat s.cur.cid x (s'.myLevel x.va) 8)
      refine ⟨_, q, exec_ret_refill hg hr hd hv ha hx hown haway hslot hmeets, hres, hq, hhold, hwho.trans hread.meWho, ?_⟩
      rw [hkind, ← hc.cid]
      rfl
  · intro target below hu hl hal hlen
    have hg := gateC_usable hu hb
    refine ⟨fun hf => ?_, fun x s' hf ha hx hro hp => ?_⟩
    · rw [exec_call_short hg hl, callOp_noRoom hal hlen hf]
      rfl
    · obtain ⟨hc, -⟩ := calm_access hx
      obtain ⟨t, hpost, hth, ⟨q, hq, hkind, hpa, hn, hwho, -⟩, -⟩ := postStore_ok (s := s') (x := x) (n := 8) (by decide)
        (s.me.rstack.getLastD 0#64) (rel := false) false false ((hc.roHit _).trans hro) (by rw [hc.portFree, hc.cid, hc.homeOf]; exact hp)
      have hst := hc.sameThreads.trans hth
      have hme : (t.updMe fun t => t.spilled next below).me = s.me.spilled next below := hs.sameThreads_updMe hst _
      have hstands : (t.updMe fun t => t.spilled next below).Stands := (hst.stands hs).after_updMe _
      refine ⟨commit (t.updMe fun t => t.spilled next below) h .drops false target, q, ?_, by simp [commit_res], ?_, ?_, ?_, ?_, ?_, ?_,
        hkind, hpa, hn, hwho.trans hc.meWho⟩
      · rw [exec_call_short hg hl, callOp_pushed hal (push_spill hlen hf ha hx hpost next)]
        rfl
      · rw [commit_me hstands]; rfl
      · rw [commit_me hstands, hme]; rfl
      · rw [commit_me hstands, hme]; rfl
      · rw [commit_me hstands, hme]; rfl
      · rw [commit_me hstands, hme]; rfl
      · rw [commit_reqs, State.updMe_reqs]
        exact hq

end Sys2Proof.Machine
end

section
/-! SUPPORT. Faults of the register and privilege checks, and what taking a trap saves (R15, R22, R376, R377, R380). -/

namespace Sys2Proof.Machine

/-! Faults of the checks. -/

/-- The registers that lie outside the thread's window, among those an instruction names (R15). -/
def Uses.outside (u : Uses) (t : Thread) : Bool :=
  u.sr.any t.outside || u.sw.any t.outside || u.vr.any (fun n => decide (t.vn ≤ n.toNat)) || u.vw.any (fun n => decide (t.vn ≤ n.toNat))

theorem gate_outside {sl : Slot} {u : Uses} {s : State} (h : u.outside s.me = true) : gate sl u s = raise s sl.decode sl.rsvreg 0 := by
  unfold gate
  exact if_pos h

theorem gate_readOnly {sl : Slot} {u : Uses} {s : State} (h : u.outside s.me = false) (hr : u.sw.any s.me.readOnly = true) :
    gate sl u s = raise s sl.decode 0x06 0 := by
  unfold gate
  exact (if_neg (Bool.eq_false_iff.1 h)).trans (if_pos hr)

/-- A scalar A-slot instruction that fails its checks ends there. -/
theorem scalarOp_raise {u : Uses} {rd : SReg} {v : State → W64 × Flags} {lat stage cause : Nat} {s : State}
    (h : gate .a { u with sw := [rd], pw := SReg.dest rd lat } s = raise s stage cause 0) :
    scalarOp u rd v lat s = s.takeTrap stage cause 0 := by
  unfold scalarOp
  rw [h]
  rfl

theorem execLi_raise {h : Hdr} {rd : SReg} {imm : BitVec 12} {stage cause : Nat} {s : State}
    (hg : gate .c { Uses.none with sw := [rd], pw := SReg.dest rd 1 } s = raise s stage cause 0) :
    exec (.li h rd imm) s = .next (s.takeTrap stage cause 0) := by
  show execLi h rd imm s = _
  unfold execLi gateC
  rw [hg]
  rfl

/-- The system's instructions end at their privilege check. -/
theorem sysOnly_user {s : State} (h : s.me.sys = false) : sysOnly s = raise s 2 0x07 0 := by
  unfold sysOnly
  rw [h]
  rfl

/-- The instructions that only the system may execute (R22, R250 to R256); CMO inval with L2 among them (R181). -/
theorem exec_system_user {s : State} (hu : s.me.sys = false) {h : Hdr} {ra rb : SReg} :
    ∀ i ∈ [Instr.eret h, .halt h, .tlbw h ra rb, .tlbi h ra rb, .mresResume h ra, .mresDiscard h ra, .mresMatrixReset h ra,
      .cmoInval h ra rb true], exec i s = .next (s.takeTrap 2 0x07 0) := by
  have he : exec (.eret h) s = .next (s.takeTrap 2 0x07 0) := by
    show execEret h s = _
    unfold execEret eretOp
    rw [sysOnly_user hu]
    rfl
  have hh : exec (.halt h) s = .next (s.takeTrap 2 0x07 0) := by
    show execHalt h s = _
    unfold execHalt
    rw [sysOnly_user hu]
    rfl
  have hw : exec (.tlbw h ra rb) s = .next (s.takeTrap 2 0x07 0) := by
    show Host.Outcome.next (run (tlbwOp h ra rb s)) = _
    unfold tlbwOp
    rw [sysOnly_user hu]
    rfl
  have hi : exec (.tlbi h ra rb) s = .next (s.takeTrap 2 0x07 0) := by
    show Host.Outcome.next (run (tlbiOp h ra rb s)) = _
    unfold tlbiOp
    rw [sysOnly_user hu]
    rfl
  have hm : Host.Outcome.next (run (mresOp h ra s)) = (Host.Outcome.next (s.takeTrap 2 0x07 0) : Host.Outcome State Fault Refusal) := by
    unfold mresOp
    rw [sysOnly_user hu]
    rfl
  have hc : exec (.cmoInval h ra rb true) s = .next (s.takeTrap 2 0x07 0) := by
    show Host.Outcome.next (run (cmoOp h .inval ra rb true s)) = _
    unfold cmoOp
    rw [if_pos (by simp [hu])]
    rfl
  simp only [List.mem_cons, List.not_mem_nil, or_false]
  rintro i (rfl | rfl | rfl | rfl | rfl | rfl | rfl | rfl)
  exacts [he, hh, hw, hi, hm, hm, hm, hc]

/-! CSR instructions. -/

section

variable {h : Hdr} {rd : SReg} {ra : Option SReg} {csr : BitVec 12} {new : State → Option W64} {s : State}

theorem csrOp_user (hc : csrSystem csr.toNat = true) (hu : s.me.sys = false) : csrOp h rd ra csr new s = raise s 2 0x07 0 := by
  unfold csrOp
  simp only [hc, if_true, sysOnly_user hu]
  rfl

/-- The thread may name the CSR. -/
def State.mayName (s : State) (n : Nat) : Prop := csrSystem n = false ∨ s.me.sys = true

theorem csrOp_readOnly (hc : s.mayName csr.toNat) (hro : csrReadOnly csr.toNat = true) (hn : (new s).isSome = true)
    (hra : ra.toList.any s.me.outside = false) (hrd : s.me.outside rd = false) (hw : s.me.readOnly rd = false) :
    csrOp h rd ra csr new s = raise s 2 0x06 0 := by
  unfold csrOp
  rcases hc with hc | hc
  · simp only [hc, hro, hn, hra, hrd, hw, bind, Except.bind, pure, Except.pure, Bool.false_eq_true, if_false, Bool.or_self, Bool.not_false,
      Bool.and_self, if_true]
    rfl
  · simp only [sysOnly, hc, hro, hn, hra, hrd, hw, bind, Except.bind, pure, Except.pure, Bool.or_self, Bool.not_false,
      Bool.and_self, if_true]
    split <;> rfl

end

/-! What a trap leaves of its thread. -/

/-- The thread t, stopped or not. -/
def Thread.MaybeStopped (t u : Thread) : Prop := u = t ∨ u = { t with hold := .wait .stopped }

/-- What stopping the threads of some families makes of a thread. -/
def Thread.stopIn (fams : List Nat) (t : Thread) : Thread :=
  match t.fam with
  | some f => if fams.contains f then { t with hold := .wait .stopped } else t
  | none => t

theorem Thread.maybeStopped_stopIn (fams : List Nat) (t : Thread) : t.MaybeStopped (t.stopIn fams) := by
  unfold Thread.stopIn Thread.MaybeStopped
  split
  · split
    · exact .inr rfl
    · exact .inl rfl
  · exact .inl rfl

theorem State.core_stopThreads (s : State) (fams : List Nat) (c : Nat) :
    (s.stopThreads fams).core c = { s.core c with
      slots := (s.core c).slots.map fun o => o.map (Thread.stopIn fams)
      runs := (s.core c).runs.map fun r => { r with creator := Thread.stopIn fams r.creator } } := by
  unfold State.core State.stopThreads
  dsimp only
  rw [List.find?_map, Function.comp_def]
  dsimp only
  cases s.cores.find? fun x => x.cid == c with
  | some x => rfl
  | none =>
    have h : (Core.fresh c 0).slots = (Core.fresh c 0).slots.map fun o => o.map (Thread.stopIn fams) := by
      apply Vector.ext
      intro i hi
      simp [Core.fresh]
    show Core.fresh c 0 = { Core.fresh c 0 with slots := (Core.fresh c 0).slots.map fun o => o.map (Thread.stopIn fams) }
    rw [← h]

theorem State.thread_stopThreads (s : State) (fams : List Nat) (c k : Nat) :
    (s.stopThreads fams).thread c k = (s.thread c k).map (Thread.stopIn fams) := by
  unfold State.thread
  rw [State.core_stopThreads]
  unfold Core.thread
  split
  · simp only [Vector.getElem_map]
  · rfl

/-- A purge changes cores by the stop alone, and not the issuing bundle. -/
theorem State.startPurge_leaves (s : State) (task : Option Family) (sl : Option Nat) (cause cid slot pc addr : Nat) :
    (s.startPurge task sl cause cid slot pc addr).cur = s.cur ∧
      ((s.startPurge task sl cause cid slot pc addr).cores = s.cores ∨
        ∃ fams, (s.startPurge task sl cause cid slot pc addr).cores = (s.stopThreads fams).cores) := by
  unfold State.startPurge
  dsimp only [State.fresh]
  split
  · split
    · exact ⟨rfl, .inr ⟨_, rfl⟩⟩
    · exact ⟨rfl, .inr ⟨_, rfl⟩⟩
  · split
    · split
      · exact ⟨rfl, .inr ⟨_, rfl⟩⟩
      · exact ⟨rfl, .inr ⟨_, rfl⟩⟩
    · exact ⟨rfl, .inl rfl⟩

theorem State.thread_congr {s t : State} (h : s.cores = t.cores) (c k : Nat) : s.thread c k = t.thread c k := by
  unfold State.thread
  rw [State.core_congr h]

theorem State.Stands.me_startPurge {s : State} (hs : s.Stands) (task : Option Family) (sl : Option Nat) (cause cid slot pc addr : Nat) :
    s.me.MaybeStopped (s.startPurge task sl cause cid slot pc addr).me := by
  obtain ⟨hcur, hc | ⟨fams, hc⟩⟩ := s.startPurge_leaves task sl cause cid slot pc addr
  · exact .inl (State.me_congr hc (by rw [hcur]) (by rw [hcur]))
  · rw [show (s.startPurge task sl cause cid slot pc addr).me = s.me.stopIn fams by
      rw [State.me, hcur, State.thread_congr hc, State.thread_stopThreads, hs.2]
      rfl]
    exact s.me.maybeStopped_stopIn fams

/-- The state in which a trap is taken: the bundle has ended with it. -/
def State.trapping (s : State) (stage cause addr : Nat) : State :=
  { s with cur := { s.cur with res := .trapped stage, trap := some { cause := cause, addr := addr } } }

theorem State.Stands.trapping {s : State} (hs : s.Stands) (stage cause addr : Nat) : (s.trapping stage cause addr).Stands :=
  hs.congr rfl rfl rfl

/-- A trap of steward code changes its thread, and no other. -/
theorem takeTrap_system {s : State} (hw : s.cur.slot ≠ 16) (hu : s.me.sys = true) (stage cause addr : Nat) :
    (s.takeTrap stage cause addr).cores =
        ((s.trapping stage cause addr).updMe fun t => t.trapSteward s.now s.myCore.tvec cause addr).cores ∧
      (s.takeTrap stage cause addr).cur = (s.trapping stage cause addr).cur := by
  unfold State.takeTrap
  simp only [hw, hu, if_false, if_true]
  repeat' split
  all_goals exact ⟨rfl, by simp [State.trapping]⟩

/-- What a trap does: the walker's, the steward's, a user thread's. -/
theorem takeTrap_leaves {s : State} (hs : s.Stands) (stage cause addr : Nat) :
    (s.takeTrap stage cause addr).cur = (s.trapping stage cause addr).cur ∧
    (s.cur.slot = 16 → (s.takeTrap stage cause addr).me = s.me.trapWalker cause addr) ∧
    (s.cur.slot ≠ 16 → s.me.sys = true → (s.takeTrap stage cause addr).me = s.me.trapSteward s.now s.myCore.tvec cause addr) ∧
    (s.cur.slot ≠ 16 → s.me.sys = false →
      (s.takeTrap stage cause addr).me = { s.me with hold := .wait .stopped, stall := none }) := by
  have ht := hs.trapping stage cause addr
  by_cases hw : s.cur.slot = 16
  · rw [takeTrap_walker hw]
    refine ⟨by simp [State.trapping], fun _ => ?_, fun h => absurd hw h, fun h => absurd hw h⟩
    exact (State.me_congr rfl rfl rfl).trans (ht.me_updMe fun t => t.trapWalker cause addr)
  · cases hu : s.me.sys with
    | false =>
      rw [takeTrap_user hw hu]
      refine ⟨?_, fun h => absurd h hw, fun _ h => absurd h (by decide), fun _ _ => ?_⟩
      · rw [(State.startPurge_leaves _ _ _ _ _ _ _ _).1, State.updMe_cur]
        rfl
      · have hstop := ht.me_updMe fun t => { t with hold := .wait .stopped, stall := none }
        obtain h | h := (ht.after_updMe fun t => { t with hold := .wait .stopped, stall := none }).me_startPurge
          (if cause = 0x47 then none
            else State.taskOf ((s.trapping stage cause addr).updMe fun t => { t with hold := .wait .stopped, stall := none }) s.me)
          s.me.slice cause s.cur.cid s.cur.slot s.me.pc.toNat addr <;> rw [hstop] at h <;> exact h
    | true =>
      obtain ⟨hcores, hcur⟩ := takeTrap_system hw hu stage cause addr
      refine ⟨hcur, fun h => absurd h hw, fun _ _ => ?_, fun _ h => absurd h (by decide)⟩
      exact (State.me_congr hcores (by rw [hcur, State.updMe_cur]) (by rw [hcur, State.updMe_cur])).trans
        (ht.me_updMe fun t => t.trapSteward s.now s.myCore.tvec cause addr)

theorem Thread.trapSteward_nested {t : Thread} (h : t.csr.estat.toNat % 256 ≠ 0) (now : Nat) (tvec : W64) (cause addr : Nat) :
    t.trapSteward now tvec cause addr = { t with hold := .wait .halted, stall := none } := by
  unfold Thread.trapSteward
  refine if_pos ?_
  rw [bne_iff_ne]
  intro he
  apply h
  simpa [BitVec.extractLsb'_toNat] using congrArg BitVec.toNat he

theorem Thread.trapSteward_first {t : Thread} (h : t.csr.estat.toNat % 256 = 0) (now : Nat) (tvec : W64) (cause addr : Nat) :
    t.trapSteward now tvec cause addr = { t with
      csr := { t.csr with estat := estatOf cause, epc := t.pc, eaddr := BitVec.ofNat 64 addr }
      kext := none, kextKept := t.kext, pc := tvec, stall := t.landsAt now, hold := .none } := by
  unfold Thread.trapSteward
  refine if_neg ?_
  rw [bne_iff_ne, not_not]
  apply BitVec.eq_of_toNat_eq
  simpa [BitVec.extractLsb'_toNat] using h

/-! The obligation. -/

/-- Settles O12: the checks end with their causes, and a trap changes of its thread what its level says. -/
theorem trapEntry : Obligations.TrapEntry := by
  unfold Obligations.TrapEntry
  intro s hs
  refine ⟨fun h imm hb hu => ?_, fun h rd ra rb imm w => ⟨fun ho => ?_, fun hrd hra hrb hro => ?_, fun ho => ?_, fun hrd hro => ?_⟩,
    fun vd va vb m ho => ?_, fun h rd ra rb csr => ⟨fun hu => ⟨exec_system_user hu, fun hc => ?_⟩, fun hc hro hra hrd hw => ⟨?_, fun hz => ?_⟩,
      fun hw => ?_⟩, fun stage cause addr => ?_⟩
  · show execTrap h imm s = _
    unfold execTrap
    rw [gateC_usable hu hb]
    rfl
  · refine congrArg Host.Outcome.next (scalarOp_raise (gate_outside ?_))
    rcases ho with ho | ho | ho <;> simp [Uses.outside, Opnd2.regs, ho]
  · refine congrArg Host.Outcome.next (scalarOp_raise (gate_readOnly ?_ ?_))
    · simp [Uses.outside, Opnd2.regs, hrd, hra, hrb, Uses.none]
    · simp [hro]
  · exact execLi_raise (gate_outside (by simp [Uses.outside, ho]))
  · exact execLi_raise (gate_readOnly (by simp [Uses.outside, hrd, Uses.none]) (by simp [hro]))
  · show Host.Outcome.next (vBin _ _ _ _ vd va (.v vb) m s) = _
    unfold vBin vecOut
    dsimp only
    rw [gate_outside (by
      rw [← decide_eq_true_iff (p := s.me.vn ≤ vd.toNat), ← decide_eq_true_iff (p := s.me.vn ≤ va.toNat),
        ← decide_eq_true_iff (p := s.me.vn ≤ vb.toNat)] at ho
      rcases ho with ho | ho | ho <;> simp [Uses.outside, VSrc.vregs, ho])]
    rfl
  · simp only [List.mem_cons, List.not_mem_nil, or_false]
    rintro i (rfl | rfl | rfl)
    · exact congrArg (fun o => Host.Outcome.next (run o)) (csrOp_user hc hu)
    · exact congrArg (fun o => Host.Outcome.next (run o)) (csrOp_user hc hu)
    · exact congrArg (fun o => Host.Outcome.next (run o)) (csrOp_user hc hu)
  · exact congrArg (fun o => Host.Outcome.next (run o)) (csrOp_readOnly hc hro rfl (by simp [hra]) hrd hw)
  · exact congrArg (fun o => Host.Outcome.next (run o)) (csrOp_readOnly hc hro (by simp [hz]) (by simp [hra]) hrd hw)
  · show Host.Outcome.next (run (mboxOp h rd ra s)) = _
    unfold mboxOp
    simp only [bne_iff_ne, ne_eq, hw, not_false_eq_true, if_true]
    rfl
  · obtain ⟨hcur, hwalker, hsystem, huser⟩ := takeTrap_leaves hs stage cause addr
    refine ⟨_, rfl, by rw [hcur]; rfl, s.takeTrap_mem _ _ _, ?_, fun hw => ?_, fun hw hu he => ?_, fun hw hu he => ?_, fun hw hu => ?_⟩
    · by_cases hw : s.cur.slot = 16
      · rw [hwalker hw]; rfl
      · cases hu : s.me.sys with
        | false => rw [huser hw hu]
        | true =>
          rw [hsystem hw hu]
          unfold Thread.trapSteward
          split <;> rfl
    · rw [hwalker hw]
      exact ⟨rfl, rfl, rfl, rfl⟩
    · rw [hsystem hw hu, Thread.trapSteward_first he]
      exact ⟨rfl, hu, rfl, rfl, rfl, rfl, rfl, rfl, rfl⟩
    · rw [hsystem hw hu, Thread.trapSteward_nested he]
      exact ⟨rfl, rfl⟩
    · rw [huser hw hu]

end Sys2Proof.Machine
end

section
/-! SUPPORT. Control and status registers (R20 to R23, R247, R249). -/

namespace Sys2Proof.Machine

/-! What of a core an update of its threads leaves. -/

/-- The two differ in their slots, their runs and the messages they have sent, no more. -/
def Core.SameButThreads (c d : Core) : Prop := ∃ sl ru n, d = { c with slots := sl, runs := ru, sentCnt := n }

theorem Core.SameButThreads.refl (c : Core) : c.SameButThreads c := ⟨_, _, _, rfl⟩

theorem Core.SameButThreads.trans {c d e : Core} (h : c.SameButThreads d) (k : d.SameButThreads e) : c.SameButThreads e := by
  obtain ⟨_, _, _, rfl⟩ := h
  obtain ⟨_, _, _, rfl⟩ := k
  exact ⟨_, _, _, rfl⟩

theorem State.sameButThreads_of_cores {s t : State} (h : s.cores = t.cores) (c : Nat) : (s.core c).SameButThreads (t.core c) := by
  rw [State.core_congr h]
  exact .refl _

theorem State.sameButThreads_updCore {s : State} {f : Core → Core} (hf : ∀ c : Core, c.SameButThreads (f c)) (k c : Nat) :
    (s.core c).SameButThreads ((s.updCore k f).core c) := by
  by_cases h : c = k
  · subst h
    rw [State.core_updCore_self]
    obtain ⟨sl, ru, n, hx⟩ := hf (s.core c)
    refine ⟨sl, ru, n, ?_⟩
    have hcid := State.core_cid s c
    rw [hx]
    generalize s.core c = x at hcid
    subst hcid
    rfl
  · rw [State.core_updCore_ne _ _ _ _ h]
    exact .refl _

theorem State.sameButThreads_updThread (s : State) (k j : Nat) (f : Thread → Thread) (c : Nat) :
    (s.core c).SameButThreads ((s.updThread k j f).core c) := by
  unfold State.updThread
  split
  · refine State.sameButThreads_updCore (fun c => ?_) k c
    unfold Core.setThread
    split
    · exact ⟨_, c.runs, c.sentCnt, rfl⟩
    · exact .refl c
  · exact .refl _

theorem State.sameButThreads_updMe (s : State) (f : Thread → Thread) (c : Nat) : (s.core c).SameButThreads ((s.updMe f).core c) :=
  s.sameButThreads_updThread _ _ f c

theorem State.sameButThreads_stopThreads (s : State) (fams : List Nat) (c : Nat) :
    (s.core c).SameButThreads ((s.stopThreads fams).core c) := by
  rw [State.core_stopThreads]
  exact ⟨_, _, _, rfl⟩

theorem State.sameButThreads_commit (s : State) (h : Hdr) (ext : ExtUse) (w : Bool) (next : W64) (c : Nat) :
    (s.core c).SameButThreads ((commit s h ext w next).core c) := by
  rw [State.core_congr (commit_cores s h ext w next)]
  exact s.sameButThreads_updMe _ c

theorem State.sameButThreads_addReq (s : State) (r : Req) (c : Nat) : (s.core c).SameButThreads ((s.addReq r).core c) := by
  have h : (s.core c).SameButThreads ((s.sentMsgs r.who.cid r.msgs).core c) := by
    unfold State.sentMsgs
    split
    · exact .refl _
    · exact State.sameButThreads_updCore (f := fun c => { c with sentCnt := c.sentCnt + r.msgs }) (fun c => ⟨c.slots, c.runs, _, rfl⟩) _ c
  exact h

theorem State.sameButThreads_awaitS (s : State) (r : SReg) (c : Nat) : (s.core c).SameButThreads ((s.awaitS r).core c) := by
  cases r with
  | s n => exact s.sameButThreads_updMe _ c
  | _ => exact .refl _

theorem State.sameButThreads_valueLater (s : State) (r : SReg) (v : W64) (lat c : Nat) :
    (s.core c).SameButThreads ((s.valueLater r v lat).core c) := by
  cases r with
  | s n =>
    rw [State.valueLater_eq]
    exact (s.sameButThreads_awaitS (.s n) c).trans (State.sameButThreads_addReq (s.awaitS (.s n)).fresh.2 _ c)
  | _ => exact .refl _

/-- Whatever traps, of a core only its threads change. -/
theorem State.sameButThreads_takeTrap (s : State) (stage cause addr c : Nat) :
    (s.core c).SameButThreads ((s.takeTrap stage cause addr).core c) := by
  by_cases hw : s.cur.slot = 16
  · rw [takeTrap_walker hw]
    exact (s.trapping stage cause addr).sameButThreads_updMe (fun t => t.trapWalker cause addr) c
  · cases hu : s.me.sys with
    | true =>
      rw [State.core_congr (takeTrap_system hw hu stage cause addr).1]
      exact (s.trapping stage cause addr).sameButThreads_updMe _ c
    | false =>
      rw [takeTrap_user hw hu]
      have h1 := (s.trapping stage cause addr).sameButThreads_updMe (fun t => { t with hold := .wait .stopped, stall := none }) c
      obtain ⟨-, hc | ⟨fams, hc⟩⟩ := State.startPurge_leaves ((s.trapping stage cause addr).updMe fun t =>
        { t with hold := .wait .stopped, stall := none }) (if cause = 0x47 then none
          else State.taskOf ((s.trapping stage cause addr).updMe fun t => { t with hold := .wait .stopped, stall := none }) s.me)
        s.me.slice cause s.cur.cid s.cur.slot s.me.pc.toNat addr
      · exact h1.trans (State.sameButThreads_of_cores hc.symm c)
      · exact (h1.trans (State.sameButThreads_stopThreads _ fams c)).trans (State.sameButThreads_of_cores hc.symm c)

theorem takeTrap_cur (s : State) (stage cause addr : Nat) : (s.takeTrap stage cause addr).cur = (s.trapping stage cause addr).cur := by
  by_cases hw : s.cur.slot = 16
  · rw [takeTrap_walker hw]
    simp [State.trapping]
  · cases hu : s.me.sys with
    | true => exact (takeTrap_system hw hu stage cause addr).2
    | false =>
      rw [takeTrap_user hw hu, (State.startPurge_leaves _ _ _ _ _ _ _ _).1, State.updMe_cur]
      rfl

/-! Partitions and containment queues. -/

theorem State.part_updPart_self (s : State) (n : Nat) (f : Part → Part) : (s.updPart n f).part n = { f (s.part n) with num := n } := by
  have h (l : List Part) (p : Part) : (putPart l p).find? (fun x => x.num == p.num) = some p := by
    induction l with
    | nil => simp [putPart]
    | cons x xs ih =>
      unfold putPart
      split
      · simp
      · split
        · simp
        · rename_i h1 h2
          rw [List.find?_cons_of_neg (by simpa using fun h => h2 h.symm)]
          exact ih
  show ((putPart s.parts { f (s.part n) with num := n }).find? fun p => p.num == n).getD (Part.fresh n) = _
  rw [h s.parts { f (s.part n) with num := n }]
  rfl

theorem State.contQ_updContQ_self (s : State) (n : Nat) (f : ContQ → ContQ) :
    (s.updContQ n f).contQ n = { f (s.contQ n) with sg := n } := by
  have h (l : List ContQ) (q : ContQ) : (putContQ l q).find? (fun x => x.sg == q.sg) = some q := by
    induction l with
    | nil => simp [putContQ]
    | cons x xs ih =>
      unfold putContQ
      split
      · simp
      · split
        · simp
        · rename_i h1 h2
          rw [List.find?_cons_of_neg (by simpa using fun h => h2 h.symm)]
          exact ih
  show ((putContQ s.contq { f (s.contQ n) with sg := n }).find? fun q => q.sg == n).getD (ContQ.fresh n) = _
  rw [h s.contq { f (s.contQ n) with sg := n }]
  rfl

/-! The agenda. -/

/-- A step that is due no earlier than the first one goes behind it. -/
theorem head_insDue {d x : Due} {l : List Due} (h : l.head? = some x) (hx : x.at_ ≤ d.at_) : (insDue d l).head? = some x := by
  cases l with
  | nil => cases h
  | cons y rest =>
    simp only [List.head?_cons, Option.some.injEq] at h
    subst h
    unfold insDue
    rw [if_neg (Nat.not_lt.2 hx)]
    rfl

/-- The stall count of a bundle that commits ends later than now. -/
theorem Thread.stall_afterCommit {t : Thread} {now due n : Nat} {fl : Flags} {h : Hdr} {ext : ExtUse} {w : Bool} {next : W64}
    (hn : (t.afterCommit now due fl h ext w next).stall = some n) : now < n := by
  unfold Thread.afterCommit at hn
  dsimp only at hn
  split at hn
  · rename_i hc
    obtain ⟨-, hd⟩ := Bool.and_eq_true_iff.1 hc
    injection hn with hn
    exact hn ▸ of_decide_eq_true hd
  · cases hn

theorem commit_agenda_head {s : State} {x : Due} (h : s.agenda.head? = some x) (hx : x.at_ ≤ s.now) (hd : Hdr) (ext : ExtUse) (w : Bool)
    (next : W64) : (commit s hd ext w next).agenda.head? = some x := by
  unfold commit
  dsimp only
  split
  · rename_i n hn
    refine head_insDue ?_ (hx.trans (Thread.stall_afterCommit hn).le)
    (repeat' split) <;> simpa using h
  · (repeat' split) <;> simpa using h

theorem valueLater_agenda_head {s : State} {x : Due} (h : s.agenda.head? = some x) (hx : x.at_ ≤ s.now) (r : SReg) (v : W64) (lat : Nat) :
    (s.valueLater r v lat).agenda.head? = some x := by
  cases r with
  | s n =>
    rw [State.valueLater_eq, State.after, State.atCycle]
    dsimp only
    rw [State.addReq_agenda]
    refine head_insDue ?_ ?_
    · show (s.awaitS (.s n)).agenda.head? = some x
      rw [show (s.awaitS (.s n)).agenda = s.agenda from State.updMe_agenda s _]
      exact h
    · rw [State.addReq_now]
      exact hx.trans ((State.awaitS_now s (.s n)).ge.trans (Nat.le_add_right _ _))
  | _ => exact h

/-! What writing a CSR does at once. -/

/-- Of the issuing thread nothing but its CSRs has changed, and neither the bundle nor memory. -/
structure State.PutsCsr (s t : State) : Prop where
  stands : t.Stands
  cur : t.cur = s.cur
  now : t.now = s.now
  mem : t.mem = s.mem
  me : t.me = { s.me with csr := t.me.csr }

namespace State.PutsCsr

variable {s : State} (hs : s.Stands)
include hs

theorem refl : s.PutsCsr s := ⟨hs, rfl, rfl, rfl, rfl⟩

theorem thread {f : Thread → Thread} (hf : ∀ t, f t = { t with csr := (f t).csr }) : s.PutsCsr (s.updMe f) :=
  ⟨hs.after_updMe _, by simp, by simp, by simp, by rw [hs.me_updMe]; exact hf _⟩

theorem core {f : Core → Core} (hf : ∀ c, (f c).slots = c.slots) : s.PutsCsr (s.updMyCore f) := by
  have h : s.SameThreads (s.updMyCore f) := State.SameThreads.updCore hf _
  exact ⟨h.stands hs, rfl, rfl, rfl, by rw [h.me]⟩

theorem of_cores {t : State} (hc : t.cores = s.cores) (hcur : t.cur = s.cur) (now : t.now = s.now) (mem : t.mem = s.mem) :
    s.PutsCsr t := by
  have h : s.SameThreads t := .of_cores hc (by rw [hcur]) (by rw [hcur])
  exact ⟨h.stands hs, hcur, now, mem, by rw [h.me]⟩

end State.PutsCsr

theorem State.Stands.putsCsr {s : State} (hs : s.Stands) (n : Nat) (v : W64) : s.PutsCsr (s.csrPut n v) := by
  unfold State.csrPut
  dsimp only
  split
  iterate 8 exact .thread hs fun _ => rfl
  · exact .core hs fun _ => rfl
  · exact .of_cores hs rfl rfl rfl rfl
  iterate 3 exact .thread hs fun _ => rfl
  iterate 3 exact .core hs fun _ => rfl
  · exact .of_cores hs rfl rfl rfl rfl
  iterate 2 exact .core hs fun _ => rfl
  iterate 3 exact .of_cores hs rfl rfl rfl rfl
  exact .refl hs

/-! CSR instructions. -/

/-- A CSR instruction that passes its checks commits, and what the CSR read goes to rd. -/
theorem csrOp_ok {h : Hdr} {rd : SReg} {ra : Option SReg} {csr : BitVec 12} {new : State → Option W64} {s : State}
    (hc : s.mayName csr.toNat) (hw : (csrReadOnly csr.toNat && (new s).isSome) = false)
    (hg : gateC { Uses.none with sr := ra.toList, sw := [rd] } s = .ok ()) :
    csrOp h rd ra csr new s = .ok ((commitNext ((new s).elim s (s.csrPut csr.toNat)) h .drops (loneW h)).valueLater rd
      (s.csrVal csr.toNat) 2) := by
  have hsys : csrSystem csr.toNat = true → sysOnly s = .ok () := by
    intro hs
    unfold sysOnly
    rw [hc.resolve_left (by simp [hs])]
    rfl
  unfold csrOp
  cases hn : csrSystem csr.toNat with
  | true =>
    simp only [hn, hsys hn, hw, hg, bind, Except.bind, pure, Except.pure, Bool.false_and, Bool.false_eq_true, if_false, if_true]
    cases new s <;> rfl
  | false =>
    simp only [hn, hw, hg, bind, Except.bind, pure, Except.pure, Bool.false_and, Bool.false_eq_true, if_false]
    cases new s <;> rfl

/-- The state after a CSR instruction whose write, if any, has led to s1. -/
def State.csrDone (s1 : State) (h : Hdr) (rd : SReg) (old : W64) : State := (commitNext s1 h .drops (loneW h)).valueLater rd old 2

section

variable {s s1 : State} (hp : s.PutsCsr s1) (h : Hdr) (rd : SReg) (old : W64)
include hp

theorem State.PutsCsr.awaiting_csrDone : Awaiting s1 (s1.csrDone h rd old) rd := (hp.stands.commitNext_valueLater h .drops (loneW h) rd old 2).1

/-- The CSRs of the thread are those written, but that the flags of the bundle and W join fst. -/
theorem State.PutsCsr.csr_csrDone :
    (s1.csrDone h rd old).me.csr = { s1.me.csr with
      fst := s1.me.csr.fst ||| BitVec.setWidth 64 (s.cur.aFlags ||| if h.lit.isSome ∨ s.me.kext.isSome then fW else fNone) } := by
  have hawait (t : State) (ht : t.Stands) : (t.awaitS rd).me.csr = t.me.csr := by
    cases rd with
    | s n => rw [ht.me_awaitS, Thread.coverS_eq]; rfl
    | _ => rfl
  have hkext : s1.me.kext = s.me.kext := by rw [hp.me]
  unfold State.csrDone commitNext
  rw [(State.sameThreads_valueLater _ _ _ _).me, hawait _ (hp.stands.after_commit _ _ _ _), commit_me hp.stands]
  unfold Thread.afterCommit Thread.fstAfter
  rw [hp.cur, hkext]
  simp [loneW]

end

theorem State.csrDone_core (s1 : State) (h : Hdr) (rd : SReg) (old : W64) (c : Nat) :
    (s1.core c).SameButThreads ((s1.csrDone h rd old).core c) :=
  (s1.sameButThreads_commit h .drops (loneW h) _ c).trans (State.sameButThreads_valueLater _ rd old 2 c)

theorem State.csrDone_agenda_head {s1 : State} {x : Due} (hx : s1.agenda.head? = some x) (hn : x.at_ ≤ s1.now) (h : Hdr) (rd : SReg)
    (old : W64) : (s1.csrDone h rd old).agenda.head? = some x :=
  valueLater_agenda_head (commit_agenda_head hx hn h _ _ _) (by rw [commit_now]; exact hn) rd old 2

theorem State.valueLater_parts (s : State) (r : SReg) (v : W64) (lat : Nat) :
    (s.valueLater r v lat).parts = s.parts ∧ (s.valueLater r v lat).contq = s.contq := by
  cases r with
  | s n =>
    rw [State.valueLater_eq, State.after_parts, State.after_contq]
    exact ⟨(State.sentMsgs_parts _ _ _).trans (State.updMe_parts s _), (State.sentMsgs_contq _ _ _).trans (State.updMe_contq s _)⟩
  | _ => exact ⟨rfl, rfl⟩

theorem State.csrDone_parts (s1 : State) (h : Hdr) (rd : SReg) (old : W64) :
    (s1.csrDone h rd old).parts = s1.parts ∧ (s1.csrDone h rd old).contq = s1.contq := by
  obtain ⟨-, -, -, -, -, -, -, hp, hq, -⟩ := commit_frame s1 h .drops (loneW h) (s1.me.pc + 8#64)
  obtain ⟨hp', hq'⟩ := State.valueLater_parts (commitNext s1 h .drops (loneW h)) rd old 2
  exact ⟨hp'.trans hp, hq'.trans hq⟩

/-- A core's own register that a CSR instruction has written. -/
theorem State.csrDone_myCore {s s1 : State} (hp : s.PutsCsr s1) (h : Hdr) (rd : SReg) (old : W64) :
    s1.myCore.SameButThreads (s1.csrDone h rd old).myCore := by
  unfold State.myCore
  rw [(hp.awaiting_csrDone h rd old).cid]
  exact s1.csrDone_core h rd old _

/-- What CSRR reads of the CSRs that a thread or its core holds. -/
theorem State.csrVal_of_mem {s : State} {n : Nat} {v : W64} (h : (n, v) ∈ [(0x001, s.me.csr.fst), (0x002, s.me.csr.fmode),
    (0x003, s.me.csr.wlim), (0x004, s.me.csr.chk), (0x010, s.me.csr.ifp), (0x011, s.me.csr.ifl), (0x012, s.me.csr.cfp),
    (0x013, s.me.csr.cfl), (0x020, s.myCore.mctl), (0x030, BitVec.ofNat 64 s.tsc), (0x040, s.myCore.finj), (0x100, s.me.csr.estat),
    (0x101, s.me.csr.epc), (0x102, s.me.csr.eaddr), (0x103, s.myCore.tvec), (0x110, s.myCore.wentry), (0x112, s.myCore.ptroot),
    (0x120, s.myCore.sfb), (0x121, s.myCore.sfs), (0x140, s.myCore.eq.d0), (0x141, s.myCore.eq.d1), (0x142, s.myCore.eq.d2),
    (0x143, s.myCore.eq.d3)]) : s.csrVal n = v := by
  simp only [List.mem_cons, List.not_mem_nil, or_false, Prod.mk.injEq] at h
  rcases h with ⟨rfl, rfl⟩ | ⟨rfl, rfl⟩ | ⟨rfl, rfl⟩ | ⟨rfl, rfl⟩ | ⟨rfl, rfl⟩ | ⟨rfl, rfl⟩ | ⟨rfl, rfl⟩ | ⟨rfl, rfl⟩ |
    ⟨rfl, rfl⟩ | ⟨rfl, rfl⟩ | ⟨rfl, rfl⟩ | ⟨rfl, rfl⟩ | ⟨rfl, rfl⟩ | ⟨rfl, rfl⟩ | ⟨rfl, rfl⟩ | ⟨rfl, rfl⟩ |
    ⟨rfl, rfl⟩ | ⟨rfl, rfl⟩ | ⟨rfl, rfl⟩ | ⟨rfl, rfl⟩ | ⟨rfl, rfl⟩ | ⟨rfl, rfl⟩ | ⟨rfl, rfl⟩ <;> rfl

section

variable {h : Hdr} {rd ra : SReg} {csr : BitVec 12} {s : State} (hc : s.mayName csr.toNat)
include hc

theorem exec_csrr (hg : gateC { Uses.none with sw := [rd] } s = .ok ()) :
    exec (.csrr h rd csr) s = .next ((commitNext s h .drops (loneW h)).valueLater rd (s.csrVal csr.toNat) 2) := by
  show Host.Outcome.next (run (csrOp h rd none csr (fun _ => none) s)) = _
  rw [csrOp_ok (rd := rd) (ra := none) hc (by simp) hg]
  rfl

theorem exec_csrw (hro : csrReadOnly csr.toNat = false) (hg : gateC { Uses.none with sr := [ra], sw := [rd] } s = .ok ()) :
    exec (.csrw h rd ra csr) s = .next ((s.csrPut csr.toNat (s.regVal ra)).csrDone h rd (s.csrVal csr.toNat)) := by
  show Host.Outcome.next (run (csrOp h rd (some ra) csr (fun s => some (s.regVal ra)) s)) = _
  rw [csrOp_ok (rd := rd) (ra := some ra) hc (by simp [hro]) hg]
  rfl

theorem exec_csrs (hro : csrReadOnly csr.toNat = false) (hz : ra ≠ .zr) (hg : gateC { Uses.none with sr := [ra], sw := [rd] } s = .ok ()) :
    exec (.csrs h rd ra csr) s =
      .next ((s.csrPut csr.toNat (s.csrVal csr.toNat ||| s.regVal ra)).csrDone h rd (s.csrVal csr.toNat)) := by
  show Host.Outcome.next (run (csrOp h rd (some ra) csr
    (fun s => if ra = .zr then none else some (s.csrVal csr.toNat ||| s.regVal ra)) s)) = _
  rw [csrOp_ok (rd := rd) (ra := some ra) hc (by simp [hro]) hg, if_neg hz]
  rfl

/-- With zr CSRS only reads (R247). -/
theorem exec_csrs_zr (hg : gateC { Uses.none with sr := [.zr], sw := [rd] } s = .ok ()) :
    exec (.csrs h rd .zr csr) s = .next ((commitNext s h .drops (loneW h)).valueLater rd (s.csrVal csr.toNat) 2) := by
  show Host.Outcome.next (run (csrOp h rd (some .zr) csr
    (fun s => if SReg.zr = .zr then none else some (s.csrVal csr.toNat ||| s.regVal .zr)) s)) = _
  rw [csrOp_ok (rd := rd) (ra := some .zr) hc (by simp) hg]
  rfl

end

/-! Fault injection (R249). -/

/-- The SLOT and the KIND of finj are among its bits that may be written. -/
theorem finj_slot_kind (v : W64) :
    ((v &&& csrMask 0x040).extractLsb' 8 5).toNat = v.toNat / 2 ^ 8 % 32 ∧
      ((v &&& csrMask 0x040).extractLsb' 1 3).toNat = v.toNat / 2 % 8 := by
  have h5 : (csrMask 0x040).extractLsb' 8 5 = BitVec.allOnes 5 := by decide
  have h3 : (csrMask 0x040).extractLsb' 1 3 = BitVec.allOnes 3 := by decide
  rw [BitVec.extractLsb'_and, BitVec.extractLsb'_and, h5, h3, BitVec.and_allOnes, BitVec.and_allOnes, BitVec.extractLsb'_toNat,
    BitVec.extractLsb'_toNat, Nat.shiftRight_eq_div_pow, Nat.shiftRight_eq_div_pow]
  exact ⟨rfl, rfl⟩

theorem Core.armFinj_finj (c : Core) (v : W64) :
    (c.armFinj (v &&& csrMask 0x040)).finj =
      if (c.thread (v.toNat / 2 ^ 8 % 32)).isSome ∧ v.toNat / 2 ^ 8 % 32 < 16 ∧ v.toNat / 2 % 8 < 3 then v &&& csrMask 0x040
      else (v &&& csrMask 0x040) &&& ~~~1#64 := by
  obtain ⟨h5, h3⟩ := finj_slot_kind v
  unfold Core.armFinj
  dsimp only
  rw [h5, h3]
  refine if_congr ?_ rfl rfl
  simp [and_assoc]

/-! The obligation. -/

/-- What a CSR that is written with v holds once its bundle has committed, or what is due of it at once. -/
theorem csrDone_writes {s : State} (hs : s.Stands) (n : Nat) (v : W64) (h : Hdr) (rd : SReg) (old : W64) :
    let t := (s.csrPut n v).csrDone h rd old
    t.cur.res = .committed ∧ t.me.pc = s.me.pc + 8#64 ∧ t.mem = s.mem ∧
      (n = 0x001 → t.me.csr.fst = (v &&& 0x3F00FF#64) ||| BitVec.setWidth 64 (s.cur.aFlags |||
        if h.lit.isSome ∨ s.me.kext.isSome then fW else fNone)) ∧
      (n = 0x002 → t.me.csr.fmode = v &&& 3#64) ∧ (n = 0x003 → t.me.csr.wlim = v &&& 0xFFFFFFFF#64) ∧
      (n = 0x004 → t.me.csr.chk = v &&& 1#64) ∧ (n = 0x010 → t.me.csr.ifp = v &&& ~~~0x3F#64) ∧
      (n = 0x011 → t.me.csr.ifl = v &&& ~~~0x3F#64) ∧ (n = 0x012 → t.me.csr.cfp = v &&& ~~~7#64) ∧
      (n = 0x013 → t.me.csr.cfl = v &&& ~~~7#64) ∧ (n = 0x020 → t.myCore.mctl = v &&& 3#64) ∧
      (n = 0x100 → t.me.csr.estat = v &&& 0x1FF#64) ∧ (n = 0x101 → t.me.csr.epc = v) ∧
      (n = 0x102 → t.me.csr.eaddr = v) ∧ (n = 0x103 → t.myCore.tvec = v &&& ~~~7#64) ∧
      (n = 0x110 → t.myCore.wentry = v &&& ~~~7#64) ∧ (n = 0x112 → t.myCore.ptroot = v &&& ~~~0xFFFF#64) ∧
      (n = 0x120 → t.myCore.sfb = v) ∧ (n = 0x121 → t.myCore.sfs = v) ∧
      (n = 0x130 → (t.contQ (sgOf s.cur.cid)).cqsb = v &&& ~~~0xFFFF#64) ∧
      (n = 0x131 → (t.contQ (sgOf s.cur.cid)).cqsn = v &&& 0x1F#64) ∧
      (n = 0x132 → (t.part (s.partNum s.cur.cid)).cqsq = v &&& 0xFFFFFFFF#64) ∧
      (n = 0x040 → t.agenda.head? = some { at_ := s.now, what := .finjWrite s.cur.cid (v &&& 0xFFFFFFFF00001F0F#64) }) ∧
      (n = 0x113 → t.agenda.head? = some { at_ := s.now, what := .migd (s.partNum s.cur.cid) (v &&& ~~~0xFFFF#64) }) := by
  intro t
  have hp := hs.putsCsr n v
  have ha := hp.awaiting_csrDone h rd old
  have hcsr : t.me.csr = _ := hp.csr_csrDone h rd old
  obtain ⟨sl, ru, k, hcore⟩ : (s.csrPut n v).myCore.SameButThreads t.myCore := State.csrDone_myCore hp h rd old
  obtain ⟨hparts, hcontq⟩ : t.parts = _ ∧ t.contq = _ := (s.csrPut n v).csrDone_parts h rd old
  have hpart (i : Nat) : t.part i = (s.csrPut n v).part i := by unfold State.part; rw [hparts]
  have hq (i : Nat) : t.contQ i = (s.csrPut n v).contQ i := by unfold State.contQ; rw [hcontq]
  have thread (f : Thread → Thread) (hf : s.csrPut n v = s.updMe f) : (s.csrPut n v).me = f s.me := by rw [hf, hs.me_updMe]
  have core (f : Core → Core) (hf : s.csrPut n v = s.updMyCore f) : (s.csrPut n v).myCore = { f s.myCore with cid := s.cur.cid } := by
    rw [hf]
    exact State.core_updCore_self s s.cur.cid f
  have due (e : Ev) (he : s.csrPut n v = s.urgent e) : t.agenda.head? = some { at_ := s.now, what := e } :=
    State.csrDone_agenda_head (by rw [he]; rfl) (by rw [hp.now]) h rd old
  refine ⟨ha.res, by rw [ha.pc, hp.me], ha.mem.trans hp.mem, ?_, ?_, ?_, ?_, ?_, ?_, ?_, ?_, ?_, ?_, ?_, ?_, ?_, ?_, ?_, ?_, ?_, ?_, ?_, ?_,
    ?_, ?_⟩ <;> rintro rfl
  iterate 8
    · rw [hcsr, thread _ rfl]
      rfl
  · rw [hcore, core _ rfl]
    rfl
  · rw [hcsr, thread _ rfl]
    rfl
  iterate 2
    · rw [hcsr, thread _ rfl]
      exact BitVec.and_allOnes
  iterate 3
    · rw [hcore, core _ rfl]
      rfl
  iterate 2
    · rw [hcore, core _ rfl]
      exact BitVec.and_allOnes
  iterate 2
    · rw [hq]
      exact congrArg _ (State.contQ_updContQ_self s _ _)
  · rw [hpart]
    exact congrArg _ (State.part_updPart_self s _ _)
  · exact due _ rfl
  · exact due _ rfl

/-- Settles O46: the write of a CSR stands in the thread, the core, the partition or the containment queue before the bundle commits,
and committing leaves it there; finj's write and its injection are steps of their own. -/
theorem controlRegistersComplete : Obligations.ControlRegistersComplete := by
  unfold Obligations.ControlRegistersComplete
  refine ⟨fun h rd ra csr s hs hb => ?_, fun s cid => ⟨fun v hv => ?_, fun slot addr atomic he hslot => ?_⟩⟩
  · intro n c k writes hsys
    have hname : s.mayName csr.toNat := by
      unfold State.mayName csrSystem
      by_cases hn : n = 0x040 ∨ 0x100 ≤ n
      · exact .inr (hsys hn)
      · left
        simpa using hn
    refine ⟨fun hu v hv => ?_, fun hu hn => ?_, fun hu => ?_⟩
    · exact .of_valueLater hs (.refl s) rfl (State.csrVal_of_mem hv) (exec_csrr hname (gateC_usable hu hb))
    · have hro : csrReadOnly csr.toNat = false := by
        unfold csrReadOnly
        simpa using hn
      exact ⟨⟨_, exec_csrw hname hro (gateC_usable hu hb), csrDone_writes hs _ _ h rd _⟩,
        fun hz => ⟨_, exec_csrs hname hro hz (gateC_usable hu hb), csrDone_writes hs _ _ h rd _⟩⟩
    · exact .of_valueLater hs (.refl s) rfl rfl (exec_csrs_zr hname (gateC_usable hu hb))
  · refine ⟨s.updCore cid fun c => c.armFinj (v &&& csrMask 0x040), ?_, rfl, ?_⟩
    · show execFinjWrite s = _
      unfold execFinjWrite
      rw [hv]
    · rw [State.core_updCore_self]
      exact Core.armFinj_finj (s.core cid) v
  · let s1 : State := { s.updCore cid fun c => { c with finj := c.finj &&& ~~~1#64 } with cur := { Cur.idle with cid := cid, slot := slot } }
    let cause := finjCause ((s.core cid).finj.extractLsb' 1 3).toNat atomic
    refine ⟨s1.takeTrap 6 cause (memAddr cause addr), ?_, ?_, ?_, ?_, ?_, ?_⟩
    · show execFinjInject s = _
      unfold execFinjInject
      rw [he]
    · exact s1.takeTrap_mem _ _ _
    · rw [takeTrap_cur]; rfl
    · rw [takeTrap_cur]; rfl
    · rw [takeTrap_cur]; rfl
    · obtain ⟨sl, ru, m, hm⟩ := s1.sameButThreads_takeTrap 6 cause (memAddr cause addr) cid
      rw [hm]
      show (s1.core cid).finj = _
      rw [show s1.core cid = _ from State.core_updCore_self s cid fun c => { c with finj := c.finj &&& ~~~1#64 }]

end Sys2Proof.Machine
end

section
/-! SUPPORT. The thread that a request or a value is for, and what a value written to its registers leaves (R14, R36). -/

namespace Sys2Proof.Machine

/-! The thread of a request. -/

/-- The thread th stands in the slot that w names, and is the one that w names. -/
structure State.HasThread (s : State) (w : Who) (th : Thread) : Prop where
  slot : w.slot < 17
  thread : s.thread w.cid w.slot = some th
  uid : th.uid = w.uid

namespace State.HasThread

variable {s t : State} {w : Who} {th : Thread}

theorem whoThread (h : s.HasThread w th) : s.whoThread w = some th := by
  unfold State.whoThread
  rw [h.thread]
  exact if_pos h.uid

theorem of_thread (h : s.HasThread w th) (ht : ∀ c k, t.thread c k = s.thread c k) : t.HasThread w th :=
  ⟨h.slot, (ht _ _).trans h.thread, h.uid⟩

theorem updWho (h : s.HasThread w th) (f : Thread → Thread) (hu : (f th).uid = th.uid := by rfl) : (s.updWho w f).HasThread w (f th) := by
  refine ⟨h.slot, ?_, hu.trans h.uid⟩
  have hc : (s.core w.cid).thread w.slot = some th := h.thread
  unfold State.updWho State.thread
  rw [State.core_updCore_self]
  simp only [hc, h.uid, if_true]
  exact Core.thread_setThread_self (s.core w.cid) w.slot _ h.slot

end State.HasThread

theorem State.Stands.hasThread {s : State} (hs : s.Stands) : s.HasThread s.meWho s.me := ⟨hs.1, hs.2, rfl⟩

/-! Families that an operation changes one by one. -/

/-- The families of t are those of s, each changed as P allows. -/
def State.FamsChange (P : Family → Family → Prop) (s t : State) : Prop := ∃ φ : Family → Family, (∀ f, P f (φ f)) ∧ t.fams = s.fams.map φ

namespace State.FamsChange

variable {P : Family → Family → Prop} {s t u : State}

theorem of_eq (hP : ∀ f, P f f) (h : t.fams = s.fams) : s.FamsChange P t := ⟨id, hP, by simpa using h⟩

theorem trans (hP : ∀ f g h, P f g → P g h → P f h) (h : s.FamsChange P t) (k : t.FamsChange P u) : s.FamsChange P u := by
  obtain ⟨φ, hφ, ht⟩ := h
  obtain ⟨ψ, hψ, hu⟩ := k
  exact ⟨ψ ∘ φ, fun f => hP _ _ _ (hφ f) (hψ _), by rw [hu, ht, List.map_map]⟩

theorem updFam (hP : ∀ f, P f f) {f : Family → Family} (hf : ∀ x, P x (f x)) (n : Nat) : s.FamsChange P (s.updFam n f) := by
  refine ⟨fun x => if x.uid == n then f x else x, fun x => ?_, rfl⟩
  dsimp only
  split
  · exact hf x
  · exact hP x

theorem mono {Q : Family → Family → Prop} (hQ : ∀ f g, P f g → Q f g) (h : s.FamsChange P t) : s.FamsChange Q t := by
  obtain ⟨φ, hφ, ht⟩ := h
  exact ⟨φ, fun f => hQ _ _ (hφ f), ht⟩

theorem mem (h : s.FamsChange P t) {f : Family} (hf : f ∈ s.fams) : ∃ g ∈ t.fams, P f g := by
  obtain ⟨φ, hφ, ht⟩ := h
  exact ⟨φ f, ht ▸ List.mem_map_of_mem hf, hφ f⟩

theorem fam (hu : ∀ f g, P f g → g.uid = f.uid) (h : s.FamsChange P t) {n : Nat} {f : Family} (hf : s.fam n = some f) :
    ∃ g, t.fam n = some g ∧ P f g := by
  obtain ⟨φ, hφ, ht⟩ := h
  refine ⟨φ f, ?_, hφ f⟩
  unfold State.fam at hf ⊢
  rw [ht, List.find?_map, show ((fun x : Family => x.uid == n) ∘ φ) = fun x => x.uid == n from
    funext fun x => by simp [hu _ _ (hφ x)], hf]
  rfl

end State.FamsChange

/-- The families differ in the shareds that their members have sent alone. -/
def Family.SameButOuts (f g : Family) : Prop := g = { f with outs := g.outs }

theorem Family.SameButOuts.refl (f : Family) : f.SameButOuts f := rfl

theorem Family.SameButOuts.trans (f g h : Family) (k : f.SameButOuts g) (l : g.SameButOuts h) : f.SameButOuts h := by
  unfold Family.SameButOuts at *
  rw [l, k]

/-! A value written to a scalar register (R36 rule 2). -/

/-- What sending a value in the name of the thread w leaves: the issuing bundle, the requests, all of the families but the shareds
sent, and of the thread all but what it has sent and the causes that wait for its next bundle. -/
structure State.SendsFor (w : Who) (s t : State) : Prop where
  cid : t.cur.cid = s.cur.cid
  slot : t.cur.slot = s.cur.slot
  res : t.cur.res = s.cur.res
  now : t.now = s.now
  reqs : t.reqs = s.reqs
  fams : s.FamsChange Family.SameButOuts t
  thread : ∀ {th}, s.HasThread w th → ∃ th', t.HasThread w th' ∧ th' = { th with sent := th'.sent, errs := th'.errs }

namespace State.SendsFor

variable {w : Who} {s t u : State}

theorem of_sameThreads (h : s.SameThreads t) (res : t.cur.res = s.cur.res) (now : t.now = s.now) (reqs : t.reqs = s.reqs)
    (fams : s.FamsChange Family.SameButOuts t) : s.SendsFor w t :=
  ⟨h.cid, h.slot, res, now, reqs, fams, fun ht => ⟨_, ht.of_thread h.thread, rfl⟩⟩

theorem refl (s : State) : s.SendsFor w s := of_sameThreads (.refl s) rfl rfl rfl (.of_eq Family.SameButOuts.refl rfl)

theorem trans (h : s.SendsFor w t) (k : t.SendsFor w u) : s.SendsFor w u where
  cid := k.cid.trans h.cid
  slot := k.slot.trans h.slot
  res := k.res.trans h.res
  now := k.now.trans h.now
  reqs := k.reqs.trans h.reqs
  fams := h.fams.trans Family.SameButOuts.trans k.fams
  thread ht := by
    obtain ⟨th1, h1, e1⟩ := h.thread ht
    obtain ⟨th2, h2, e2⟩ := k.thread h1
    exact ⟨th2, h2, by rw [e2, e1]⟩

theorem of_calm (h : s.Calm t) : s.SendsFor w t :=
  of_sameThreads h.sameThreads (by rw [h.cur]) h.now h.reqs (.of_eq Family.SameButOuts.refl h.fams)

theorem updWho {f : Thread → Thread} (hf : ∀ t, f t = { t with sent := (f t).sent, errs := (f t).errs }) :
    s.SendsFor w (s.updWho w f) :=
  ⟨rfl, rfl, rfl, rfl, rfl, .of_eq Family.SameButOuts.refl rfl, fun {th} ht => ⟨f th, ht.updWho f (by rw [hf]), hf th⟩⟩

theorem updFam {f : Family → Family} (hf : ∀ x : Family, x.SameButOuts (f x)) (n : Nat) : s.SendsFor w (s.updFam n f) :=
  of_sameThreads (.of_cores rfl rfl rfl) rfl rfl rfl (.updFam Family.SameButOuts.refl hf n)

theorem sentMsgs (c n : Nat) : s.SendsFor w (s.sentMsgs c n) :=
  of_sameThreads (s.sameThreads_sentMsgs c n) (by simp) (by simp) (by simp) (.of_eq Family.SameButOuts.refl (by simp))

theorem sendRelease (s : State) : s.SendsFor w (s.sendRelease w) := by
  unfold State.sendRelease
  split
  · exact (of_calm (s.calm_releaseLines _)).trans (.updWho fun _ => rfl)
  · exact of_calm (s.calm_releaseLines _)

theorem sendShared (s : State) (fam member j : Nat) (v : W64) (base : Nat) : s.SendsFor w (s.sendShared fam member j v w base) := by
  unfold State.sendShared
  split
  · exact .refl s
  · rename_i f _
    have h1 : s.SendsFor w (s.updFam fam fun f => { f with outs := f.outs ++ [{ member := member, j := j, val := v, far := false }] }) :=
      .updFam (by intro _; rfl) fam
    dsimp only
    split
    · exact h1
    · split
      · exact h1.trans (of_calm (State.calm_atCycle _ _ _))
      · exact ((h1.trans (.sentMsgs _ _)).trans (.sendRelease _)).trans (of_calm (State.calm_atCycle _ _ _))

end State.SendsFor

/-- What a value written to register n of the thread w leaves: the register takes it, and the rest is sending. -/
theorem State.HasThread.writeAt {s : State} {w : Who} {th : Thread} (h : s.HasThread w th) (n : BitVec 4) (v : W64) (base : Nat) :
    (s.updWho w fun t => t.coverS n (SCell.full v)).SendsFor w (s.writeAt w n v base) := by
  unfold State.writeAt
  rw [h.whoThread]
  dsimp only
  split
  · split
    · exact (State.SendsFor.updWho fun _ => rfl).trans (.sendShared _ _ _ _ _ _)
    · exact .updWho fun _ => rfl
  · exact .refl _

/-- The thread after a value has been written to its register n. -/
theorem State.HasThread.thread_writeAt {s : State} {w : Who} {th : Thread} (h : s.HasThread w th) (n : BitVec 4) (v : W64) (base : Nat) :
    ∃ th', (s.writeAt w n v base).HasThread w th' ∧ th' = { th.coverS n (SCell.full v) with sent := th'.sent, errs := th'.errs } :=
  (h.writeAt n v base).thread (h.updWho (fun t => t.coverS n (SCell.full v)) (Thread.coverS_uid _ _ _))

end Sys2Proof.Machine
end

section
/-! SUPPORT. Answers of requests (R14, R20, R169, R202, R286). -/

namespace Sys2Proof.Machine

/-! A request that closes. -/

/-- A change of a request that leaves its number changes the request found by it. -/
theorem State.req_updReq {s : State} {tok : Nat} {r : Req} (h : s.req tok = some r) {f : Req → Req} (hf : ∀ r, (f r).tok = r.tok) :
    (s.updReq tok f).req tok = some (f r) := by
  have htok : r.tok = tok := by simpa using List.find?_some h
  unfold State.req at h ⊢
  have hpred : ((fun x : Req => x.tok == tok) ∘ fun x => if x.tok == tok then f x else x) = fun x => x.tok == tok := by
    funext x
    simp only [Function.comp_def]
    split <;> simp [hf]
  show ((s.reqs.map fun x => if x.tok == tok then f x else x).find? fun x => x.tok == tok) = _
  rw [List.find?_map, hpred, h]
  simp [htok]

/-- The request is closed: answered now, as far as the thread goes nothing else. -/
theorem State.closeReq_leaves {s : State} {tok : Nat} {r : Req} (h : s.req tok = some r) :
    (s.closeReq tok).req tok = some { r with st := .answered s.now } ∧ (∀ c k, (s.closeReq tok).thread c k = s.thread c k) ∧
      (s.closeReq tok).mem = s.mem ∧ (s.closeReq tok).now = s.now := by
  unfold State.closeReq
  rw [h]
  dsimp only
  refine ⟨?_, fun c k => (s.sameThreads_gotMsgs r.who.cid r.msgs).thread c k, by simp, by simp⟩
  have hg : (s.gotMsgs r.who.cid r.msgs).req tok = some r := by
    unfold State.req
    rw [State.gotMsgs_reqs]
    exact h
  exact State.req_updReq hg fun _ => rfl

/-- An acquire changes of the thread only how long it holds back its next accesses. -/
theorem State.HasThread.acquire {s : State} {w : Who} {th : Thread} (h : s.HasThread w th) :
    ∃ n, (s.acquire w).HasThread w { th with acqUntil := n } := by
  have hth : s.SameThreads (s.acqInval w.cid) := by
    unfold State.acqInval
    exact .updCore (by intro _; rfl) _
  exact ⟨_, (h.of_thread hth.thread).updWho fun t => { t with acqUntil := max t.acqUntil (s.now + s.ticks (dieOf w.cid) 4) }⟩

/-! Vector results. -/

/-- The thread when the vector results of some registers have landed. -/
def Thread.landAll (t : Thread) (vs : List (VReg × VWord × VWord)) : Thread :=
  vs.foldl (fun t v => t.setV v.1 (VCell.full (mergeBits (t.regs.v.get v.1.toFin).val v.2.1 v.2.2))) t

theorem Thread.setV_ne {t : Thread} {n k : BitVec 4} {c : VCell} (h : k ≠ n) :
    (t.setV n c).regs.v.get k.toFin = t.regs.v.get k.toFin := by
  have hne : n.toFin.val ≠ k.toFin.val := fun e => h (BitVec.eq_of_toNat_eq e.symm)
  simp only [Thread.setV, Vector.get_eq_getElem]
  exact Vector.getElem_set_ne _ _ hne

theorem Thread.setV_self (t : Thread) (n : BitVec 4) (c : VCell) : (t.setV n c).regs.v.get n.toFin = c := by
  simp [Thread.setV, Vector.get_eq_getElem]

/-- Of the thread only vector registers change. -/
theorem Thread.landAll_eq (t : Thread) (vs : List (VReg × VWord × VWord)) :
    t.landAll vs = { t with regs := { t.regs with v := (t.landAll vs).regs.v } } := by
  induction vs generalizing t with
  | nil => rfl
  | cons v vs ih => exact ih _

theorem Thread.landAll_of_not_mem {t : Thread} {vs : List (VReg × VWord × VWord)} {k : VReg} (h : k ∉ vs.map (·.1)) :
    (t.landAll vs).regs.v.get k.toFin = t.regs.v.get k.toFin := by
  induction vs generalizing t with
  | nil => rfl
  | cons v vs ih =>
    simp only [List.map_cons, List.mem_cons, not_or] at h
    exact (ih h.2).trans (Thread.setV_ne h.1)

/-- Each of the registers holds its old bits, and the new ones of its mask. -/
theorem Thread.landAll_of_mem {t : Thread} {vs : List (VReg × VWord × VWord)} (hd : (vs.map (·.1)).Nodup) {e : VReg × VWord × VWord}
    (he : e ∈ vs) : (t.landAll vs).regs.v.get e.1.toFin = VCell.full (mergeBits (t.regs.v.get e.1.toFin).val e.2.1 e.2.2) := by
  induction vs generalizing t with
  | nil => cases he
  | cons v vs ih =>
    rw [List.map_cons, List.nodup_cons] at hd
    rcases List.mem_cons.1 he with rfl | he
    · exact (Thread.landAll_of_not_mem hd.1).trans (Thread.setV_self _ _ _)
    · have hne : e.1 ≠ v.1 := fun h => hd.1 (h ▸ List.mem_map_of_mem he)
      refine (ih hd.2 he).trans ?_
      rw [Thread.setV_ne hne]

theorem State.HasThread.landVec {s : State} {r : Req} {th : Thread} (h : s.HasThread r.who th) :
    (s.landVec r).HasThread r.who (th.landAll r.vres) := by
  unfold State.landVec Thread.landAll
  generalize r.vres = vs
  induction vs generalizing s th with
  | nil => exact h
  | cons v vs ih => exact ih (h.updWho _)

/-! A failed destination (R169). -/

/-- A vector register that holds a cause. -/
def VCell.Failed (c : VCell) (f : Fail) : Prop := c.fail = some f ∧ c.pres = false

theorem State.HasThread.failVectors {s : State} {w : Who} {th : Thread} (h : s.HasThread w th) (first : VReg) (f : Fail) (k : Nat) :
    ∃ th', ((List.range k).foldl (fun s i => s.updWho w fun t =>
      t.setV (first + BitVec.ofNat 4 i) { t.regs.v.get (first + BitVec.ofNat 4 i).toFin with pend := false, pres := false, fail := some f })
        s).HasThread w th' ∧ ∀ j < k, (th'.regs.v.get (first + BitVec.ofNat 4 j).toFin).Failed f := by
  induction k with
  | zero => exact ⟨th, h, fun j hj => absurd hj (Nat.not_lt_zero j)⟩
  | succ k ih =>
    obtain ⟨th', h', hf⟩ := ih
    rw [List.range_succ, List.foldl_append]
    refine ⟨_, h'.updWho _, fun j hj => ?_⟩
    by_cases he : first + BitVec.ofNat 4 j = first + BitVec.ofNat 4 k
    · rw [he, Thread.setV_self]
      exact ⟨rfl, rfl⟩
    · rw [Thread.setV_ne he]
      exact hf j (Nat.lt_of_le_of_ne (Nat.le_of_lt_succ hj) fun e => he (e ▸ rfl))

/-! The three answers. -/

section

variable {s : State} {tok : Nat} {r : Req} (hr : s.req tok = some r) (ha : (s.part r.part).away = false)
include hr ha

/-- The state in which a load's response finds its thread: the request closed, and its acquire made. -/
def State.answered (s : State) (tok : Nat) (r : Req) : State :=
  if r.acq && r.wide then (s.closeReq tok).acquire r.who else s.closeReq tok

theorem exec_loadResponse (he : s.evt = .loadResponse tok) :
    exec .loadResponse s = .next (
      if r.holds then ((s.answered tok r).landVec r).updWho r.who fun t => t.wake tok (.done r.res)
      else match r.dst with
        | .s n => (s.answered tok r).writeS r.who n r.res
        | .v _ _ =>
          match ((s.answered tok r).whoThread r.who).bind fun t => enabledFlag t.csr.fst r.flags with
          | some i => (s.answered tok r).failDest r { cause := 0x10 + i, addr := 0 }
          | none => ((s.answered tok r).landVec r).updWho r.who fun t => t.orFst r.flags
        | .none => s.answered tok r
        | .slot => s.answered tok r) := by
  show execLoadResponse s = _
  unfold execLoadResponse
  rw [he]
  simp only [hr, ha, Bool.false_eq_true, if_false]
  rfl

theorem exec_storeAck (he : s.evt = .storeAck tok) :
    exec .storeAck s = .next (if r.holds then (s.closeReq tok).updWho r.who fun t => t.wake tok (.done r.res) else s.closeReq tok) := by
  show execStoreAck s = _
  unfold execStoreAck
  rw [he]
  simp only [hr, ha, Bool.false_eq_true, if_false]

theorem exec_errorResponse (he : s.evt = .errorResponse tok) {f : Fail} (hf : r.err = some f) :
    exec .errorResponse s = .next (if r.holds then (s.closeReq tok).updWho r.who fun t => t.wake tok (.fail f)
      else (s.closeReq tok).failDest r f) := by
  show execErrorResponse s = _
  unfold execErrorResponse
  rw [he]
  simp only [hr, hf, ha, Bool.false_eq_true, if_false]

end

/-- Where a load's response finds its thread nothing of it has changed but how long it holds back its next accesses. -/
theorem State.answered_leaves {s : State} {tok : Nat} {r : Req} {th : Thread} (hr : s.req tok = some r) (ht : s.HasThread r.who th) :
    (s.answered tok r).req tok = some { r with st := .answered s.now } ∧ ∃ n, (s.answered tok r).HasThread r.who { th with acqUntil := n } := by
  obtain ⟨hreq, hth, -, -⟩ := State.closeReq_leaves hr
  have hc : (s.closeReq tok).HasThread r.who th := ht.of_thread hth
  unfold State.answered
  split
  · exact ⟨hreq, hc.acquire⟩
  · exact ⟨hreq, th.acqUntil, hc⟩

theorem State.req_congr {s t : State} (h : t.reqs = s.reqs) (tok : Nat) : t.req tok = s.req tok := by
  unfold State.req
  rw [h]

theorem State.landVec_reqs (s : State) (r : Req) : (s.landVec r).reqs = s.reqs := by
  unfold State.landVec
  generalize r.vres = vs
  induction vs generalizing s with
  | nil => rfl
  | cons v vs ih => exact (ih _).trans (State.updWho_reqs s _ _)

/-- A failed destination changes threads alone. -/
theorem State.failDest_leaves (s : State) (r : Req) (f : Fail) : (s.failDest r f).reqs = s.reqs ∧ (s.failDest r f).mem = s.mem := by
  unfold State.failDest
  split
  · simp
  · rename_i first k _
    generalize List.range k = l
    induction l generalizing s with
    | nil => exact ⟨rfl, rfl⟩
    | cons x l ih =>
      obtain ⟨h1, h2⟩ := ih (s.updWho r.who fun t =>
        t.setV (first + BitVec.ofNat 4 x) { t.regs.v.get (first + BitVec.ofNat 4 x).toFin with pend := false, pres := false, fail := some f })
      exact ⟨h1.trans (by simp), h2.trans (by simp)⟩
  · simp
  · split <;> simp

theorem Thread.wake_busy {t : Thread} {tok : Nat} (h : t.hold = .busy tok) (x : Hold) : (t.wake tok x).hold = x := by
  unfold Thread.wake
  rw [if_pos h]

theorem Thread.wake_uid (t : Thread) (tok : Nat) (x : Hold) : (t.wake tok x).uid = t.uid := by
  unfold Thread.wake
  split <;> rfl

theorem State.HasThread.failScalar {s : State} {r : Req} {th : Thread} (h : s.HasThread r.who th) {n : BitVec 4} (hd : r.dst = .s n) (f : Fail) :
    (s.failDest r f).HasThread r.who (th.setS n { th.regs.s.get n.toFin with pend := false, pres := false, fail := some f }) := by
  unfold State.failDest
  rw [hd]
  exact h.updWho fun t => t.setS n { t.regs.s.get n.toFin with pend := false, pres := false, fail := some f }

theorem State.HasThread.failNone {s : State} {r : Req} {th : Thread} (h : s.HasThread r.who th) (hd : r.dst = .none) (f : Fail) :
    (s.failDest r f).HasThread r.who { th with errs := th.errs ++ [f] } := by
  unfold State.failDest
  rw [hd]
  exact h.updWho _

/-- Whatever its destination is, a failed destination leaves the thread in its slot. -/
theorem State.HasThread.failDest {s : State} {r : Req} {th : Thread} (h : s.HasThread r.who th) (f : Fail) :
    ∃ th', (s.failDest r f).thread r.who.cid r.who.slot = some th' := by
  cases hd : r.dst with
  | s n => exact ⟨_, (h.failScalar hd f).thread⟩
  | none => exact ⟨_, (h.failNone hd f).thread⟩
  | v first k =>
    obtain ⟨th', h', -⟩ := h.failVectors first f k
    unfold State.failDest
    rw [hd]
    exact ⟨th', h'.thread⟩
  | slot =>
    unfold State.failDest
    rw [hd]
    simp only [h.whoThread, Option.isSome_some, if_true]
    unfold State.updThread
    rw [h.thread]
    exact ⟨_, State.thread_setThread_self _ _ _ _ h.slot⟩

theorem Thread.setS_self (t : Thread) (n : BitVec 4) (c : SCell) : (t.setS n c).regs.s.get n.toFin = c := by
  simp [Thread.setS, Vector.get_eq_getElem]

/-! The obligation. -/

section

variable {s : State} {tok : Nat} {r : Req} {th : Thread} (hr : s.req tok = some r) (ha : (s.part r.part).away = false)
  (ht : s.HasThread r.who th)
include hr ha ht

/-- The response of a load closes its request and reaches its thread. -/
theorem loadResponse_arrives (he : s.evt = .loadResponse tok) :
    ∃ t th', exec .loadResponse s = .next t ∧ (∃ q, t.req tok = some q ∧ q.st = .answered s.now) ∧
      t.thread r.who.cid r.who.slot = some th' ∧
      (r.holds = true → th.hold = .busy tok → th'.hold = .done r.res) ∧
      (r.holds = false → ∀ n, r.dst = .s n → (th'.regs.s.get n.toFin).val = r.res ∧
        (th'.regs.s.get n.toFin).pres = true ∧ (th'.regs.s.get n.toFin).pend = false) ∧
      (r.holds = false → ∀ v k, r.dst = .v v k →
        (enabledFlag th.csr.fst r.flags = none → (r.vres.map (·.1)).Nodup →
          th'.csr.fst = th.csr.fst ||| r.flags.setWidth 64 ∧
          ∀ e ∈ r.vres, th'.regs.v.get e.1.toFin = VCell.full (mergeBits (th.regs.v.get e.1.toFin).val e.2.1 e.2.2)) ∧
        (∀ i, enabledFlag th.csr.fst r.flags = some i → ∀ j < k,
          (th'.regs.v.get (v + BitVec.ofNat 4 j).toFin).fail = some { cause := 0x10 + i, addr := 0 } ∧
          (th'.regs.v.get (v + BitVec.ofNat 4 j).toFin).pres = false)) := by
  obtain ⟨hreq, n, h1⟩ := State.answered_leaves hr ht
  have closed (t : State) (h : t.reqs = (s.answered tok r).reqs) : ∃ q, t.req tok = some q ∧ q.st = .answered s.now :=
    ⟨_, (State.req_congr h tok).trans hreq, rfl⟩
  rw [exec_loadResponse hr ha he]
  cases hh : r.holds with
  | true =>
    have hl := h1.landVec.updWho (fun t => t.wake tok (.done r.res)) (Thread.wake_uid _ _ _)
    refine ⟨_, _, rfl, closed _ ((State.updWho_reqs _ _ _).trans (State.landVec_reqs _ _)), hl.thread, fun _ hb => Thread.wake_busy ?_ _,
      fun h => absurd h (by decide), fun h => absurd h (by decide)⟩
    rw [Thread.landAll_eq]
    exact hb
  | false =>
    simp only [Bool.false_eq_true, if_false, false_implies, true_implies, true_and]
    cases hd : r.dst with
    | s m =>
      obtain ⟨th', h2, e2⟩ := h1.thread_writeAt m r.res (s.answered tok r).now
      refine ⟨_, th', rfl, closed _ (h1.writeAt m r.res _).reqs, h2.thread, ?_, fun v k h => by cases h⟩
      rintro _ ⟨⟩
      rw [e2, Thread.coverS_self]
      exact ⟨rfl, rfl, rfl⟩
    | none => exact ⟨_, _, rfl, closed _ rfl, h1.thread, fun m h => (by cases h), fun v k h => (by cases h)⟩
    | slot => exact ⟨_, _, rfl, closed _ rfl, h1.thread, fun m h => (by cases h), fun v k h => (by cases h)⟩
    | v v k =>
      simp only [h1.whoThread, Option.bind_some]
      cases hf : enabledFlag th.csr.fst r.flags with
      | some i =>
        obtain ⟨th', h2, hfail⟩ := h1.failVectors v { cause := 0x10 + i, addr := 0 } k
        refine ⟨_, th', rfl, closed _ (State.failDest_leaves _ _ _).1, ?_, fun m h => (by cases h), ?_⟩
        · unfold State.failDest
          rw [hd]
          exact h2.thread
        · rintro _ _ ⟨⟩
          refine ⟨fun h => (by cases h), ?_⟩
          rintro _ ⟨⟩
          exact hfail
      | none =>
        have hl := h1.landVec.updWho fun t => t.orFst r.flags
        refine ⟨_, _, rfl, closed _ ((State.updWho_reqs _ _ _).trans (State.landVec_reqs _ _)), hl.thread, fun m h => (by cases h), ?_⟩
        rintro _ _ ⟨⟩
        refine ⟨fun _ hnd => ⟨?_, fun e he => Thread.landAll_of_mem hnd he⟩, fun i h => by cases h⟩
        rw [Thread.landAll_eq]
        rfl

/-- An error response closes its request and reaches its thread. -/
theorem errorResponse_arrives (he : s.evt = .errorResponse tok) {f : Fail} (hf : r.err = some f) :
    ∃ t th', exec .errorResponse s = .next t ∧ (∃ q, t.req tok = some q ∧ q.st = .answered s.now) ∧
      t.thread r.who.cid r.who.slot = some th' ∧ t.mem = s.mem ∧
      (r.holds = true → th.hold = .busy tok → th'.hold = .fail f) ∧
      (r.holds = false → ∀ n, r.dst = .s n → (th'.regs.s.get n.toFin).fail = some f ∧
        (th'.regs.s.get n.toFin).pres = false) ∧
      (r.holds = false → r.dst = .none → th'.errs = th.errs ++ [f]) := by
  obtain ⟨hreq, hth, hmem, -⟩ := State.closeReq_leaves hr
  have h1 : (s.closeReq tok).HasThread r.who th := ht.of_thread hth
  have closed (t : State) (h : t.reqs = (s.closeReq tok).reqs) : ∃ q, t.req tok = some q ∧ q.st = .answered s.now :=
    ⟨_, (State.req_congr h tok).trans hreq, rfl⟩
  rw [exec_errorResponse hr ha he hf]
  cases hh : r.holds with
  | true =>
    have hl := h1.updWho (fun t => t.wake tok (.fail f)) (Thread.wake_uid _ _ _)
    exact ⟨_, _, rfl, closed _ (State.updWho_reqs _ _ _), hl.thread, hmem, fun _ hb => Thread.wake_busy hb _,
      fun h => absurd h (by decide), fun h => absurd h (by decide)⟩
  | false =>
    obtain ⟨hreqs, hmem'⟩ := State.failDest_leaves (s.closeReq tok) r f
    obtain ⟨th', h2⟩ := h1.failDest f
    refine ⟨_, th', rfl, closed _ hreqs, h2, hmem'.trans hmem, fun h => absurd h (by decide), fun _ n hd => ?_, fun _ hd => ?_⟩
    · have h3 := (h1.failScalar hd f).thread
      rw [h2] at h3
      injection h3 with h3
      rw [h3, Thread.setS_self]
      exact ⟨rfl, rfl⟩
    · have h3 := (h1.failNone hd f).thread
      rw [h2] at h3
      injection h3 with h3
      rw [h3]

end

/-- Settles O14: an answer closes its request and changes its thread as its destination says. -/
theorem answersArrive : Obligations.AnswersArrive := by
  unfold Obligations.AnswersArrive
  intro s tok r th hr ha hslot hth huid closed
  have ht : s.HasThread r.who th := ⟨hslot, hth, huid⟩
  refine ⟨loadResponse_arrives hr ha ht, fun he => ?_, fun he f hf => errorResponse_arrives hr ha ht he hf⟩
  obtain ⟨hreq, -, hmem, -⟩ := State.closeReq_leaves hr
  rw [exec_storeAck hr ha he]
  refine ⟨_, rfl, ?_, ?_⟩
  · refine ⟨_, (State.req_congr ?_ tok).trans hreq, rfl⟩
    split <;> simp
  · split
    · exact (State.updWho_mem _ _ _).trans hmem
    · exact hmem

end Sys2Proof.Machine
end

section
/-! SUPPORT. What the end of families, their joins and their purges leave: the issuing bundle always, and of the families what their
kills and breaks decided (R123, R124, R136, R139, R349). -/

namespace Sys2Proof.Machine

/-! What is only kept in books: entries, queues, joins, the agenda. -/

/-- The issuing bundle, the families and the threads have not changed. -/
structure State.Books (s t : State) : Prop where
  cur : t.cur = s.cur
  fams : t.fams = s.fams
  thread : ∀ c k, t.thread c k = s.thread c k

namespace State.Books

variable {s t u : State}

theorem refl (s : State) : s.Books s := ⟨rfl, rfl, fun _ _ => rfl⟩

theorem trans (h : s.Books t) (k : t.Books u) : s.Books u :=
  ⟨k.cur.trans h.cur, k.fams.trans h.fams, fun c i => (k.thread c i).trans (h.thread c i)⟩

theorem of_cores (hc : t.cores = s.cores) (hcur : t.cur = s.cur) (hf : t.fams = s.fams) : s.Books t :=
  ⟨hcur, hf, fun c k => State.thread_congr hc c k⟩

/-- A change of every core that leaves its slots. -/
theorem mapCores {g : Core → Core} (hcid : ∀ c, (g c).cid = c.cid) (hslots : ∀ c, (g c).slots = c.slots) (hc : t.cores = s.cores.map g)
    (hcur : t.cur = s.cur) (hf : t.fams = s.fams) : s.Books t := by
  refine ⟨hcur, hf, fun c k => ?_⟩
  have hs : (t.core c).slots = (s.core c).slots := by
    unfold State.core
    rw [hc, List.find?_map, show ((fun x : Core => x.cid == c) ∘ g) = fun x => x.cid == c from funext fun x => by simp [hcid]]
    cases s.cores.find? fun x => x.cid == c with
    | some x => exact hslots x
    | none => rfl
  unfold State.thread Core.thread
  simp only [hs]

theorem foldl {α : Type} {f : State → α → State} (hf : ∀ (s : State) (x : α), s.Books (f s x)) (l : List α) (s : State) :
    s.Books (l.foldl f s) := by
  induction l generalizing s with
  | nil => exact refl s
  | cons x l ih => exact (hf s x).trans (ih _)

theorem sameThreads (h : s.Books t) : s.SameThreads t := ⟨by rw [h.cur], by rw [h.cur], h.thread⟩

theorem urgent (s : State) (e : Ev) : s.Books (s.urgent e) := of_cores rfl rfl rfl

theorem atCycle (s : State) (n : Nat) (e : Ev) : s.Books (s.atCycle n e) := of_cores rfl rfl rfl

theorem after (s : State) (c n : Nat) (e : Ev) : s.Books (s.after c n e) := of_cores rfl rfl rfl

theorem fresh (s : State) : s.Books s.fresh.2 := of_cores rfl rfl rfl

theorem updPart (s : State) (n : Nat) (f : Part → Part) : s.Books (s.updPart n f) := of_cores rfl rfl rfl

theorem updSlice (s : State) (n : Nat) (f : Slice → Slice) : s.Books (s.updSlice n f) := of_cores rfl rfl rfl

theorem sentMsgs (s : State) (c n : Nat) : s.Books (s.sentMsgs c n) :=
  ⟨s.sentMsgs_cur c n, s.sentMsgs_fams c n, (s.sameThreads_sentMsgs c n).thread⟩

theorem gotMsgs (s : State) (c n : Nat) : s.Books (s.gotMsgs c n) :=
  ⟨s.gotMsgs_cur c n, s.gotMsgs_fams c n, (s.sameThreads_gotMsgs c n).thread⟩

theorem urgentOnce (s : State) (e : Ev) : s.Books (s.urgentOnce e) := by
  unfold State.urgentOnce
  split
  · exact refl s
  · exact urgent s e

/-! Entries and slots that have become free. -/

theorem freed (s : State) (cid : Nat) : s.Books (s.freed cid) := by
  unfold State.freed
  dsimp only
  refine .trans (.trans ?_ (foldl (fun s q => ?_) _ _)) (foldl (fun s f => ?_) _ _)
  · split
    · split
      · exact urgentOnce s _
      · exact refl s
    · exact refl s
  · split
    · exact refl s
    · exact urgentOnce s _
  · split
    · exact urgent s _
    · exact refl s

theorem freeEnts (s : State) (uid : Nat) : s.Books (s.freeEnts uid) := by
  unfold State.freeEnts
  refine .trans ?_ (foldl (fun s c => freed s c) _ _)
  exact mapCores (g := fun c => { c with ents := c.ents.map fun e => if e == some uid then none else e }) (fun _ => rfl)
    (fun _ => rfl) rfl rfl rfl

/-! Joins and revisions. -/

theorem readyJoins (s : State) (part : Nat) : s.Books (s.readyJoins part) := by
  unfold State.readyJoins
  exact foldl (fun s j => (fresh s).trans (updPart _ _ _)) _ s

theorem beginJoin (s : State) (part : Nat) (j : Join) : s.Books (s.beginJoin part j) := by
  unfold State.beginJoin
  dsimp only
  split
  · exact refl s
  · exact (updPart s _ _).trans (after _ _ _ _)

theorem beginJoins (s : State) (part : Nat) : s.Books (s.beginJoins part) := by
  unfold State.beginJoins
  exact (readyJoins s part).trans (foldl (fun s j => beginJoin s part j) _ _)

theorem queueJoin (s : State) (f : Family) (id sync : Nat) (who : Who) : s.Books (s.queueJoin f id sync who) := by
  unfold State.queueJoin
  split
  · exact refl s
  · exact (fresh s).trans (updPart _ _ _)

theorem queueJoins (s : State) (part : Nat) (l : List (Family × Nat)) (who : Who) : s.Books (s.queueJoins part l who) := by
  unfold State.queueJoins
  exact (foldl (fun t x => queueJoin t x.1 x.2 s.ctr who) l s).trans (beginJoins _ _)

theorem syncReady (s : State) (f : Family) (who : Who) : s.Books (s.syncReady f who) := by
  unfold State.syncReady
  split
  · split
    · exact after s _ _ _
    · exact atCycle s _ _
  · exact queueJoins s _ _ _

theorem dropJoin (s : State) (part uid : Nat) : s.Books (s.dropJoin part uid) := (updPart s _ _).trans (beginJoins _ _)

theorem dropWrites (s : State) (part id : Nat) : s.Books (s.dropWrites part id) := by
  unfold State.dropWrites
  dsimp only
  refine mapCores (fun c => ?_) (fun c => ?_) rfl rfl rfl
  · split <;> rfl
  · split <;> rfl

theorem serveHeld (s : State) (part : Nat) : s.Books (s.serveHeld part) := foldl (fun s _ => urgent s _) _ s

theorem dropRev (s : State) (part id : Nat) : s.Books (s.dropRev part id) :=
  ((dropWrites s part id).trans (updPart _ _ _)).trans (serveHeld _ _)

/-! Slices. -/

theorem endSlice (s : State) (uid status cause : Nat) : s.Books (s.endSlice uid status cause) := by
  unfold State.endSlice
  split
  · exact refl s
  · split
    · exact refl s
    · exact (updSlice s _ _).trans (urgent _ _)

theorem sliceCheck (s : State) (uid : Nat) : s.Books (s.sliceCheck uid) := by
  unfold State.sliceCheck
  split
  · exact refl s
  · split
    · exact refl s
    · split
      · exact endSlice s _ _ _
      · exact refl s

/-! What purged families leave in queues. -/

theorem queuesOn (s : State) : s.Books s.queuesOn := by
  unfold State.queuesOn
  exact foldl (fun s g => (urgentOnce s _).trans (urgentOnce _ _)) _ s

theorem travsGone (s : State) (dead : Thread → Bool) : s.Books (s.travsGone dead) := by
  unfold State.travsGone
  exact foldl (fun s c => gotMsgs s c 1) _ s

theorem dropCommands (s : State) (p : CopyCmd → Bool) : s.Books (s.dropCommands p) := by
  unfold State.dropCommands
  dsimp only
  refine .trans (.trans ?_ (foldl (fun s c => urgent s _) _ _)) (foldl (fun s x => urgent s _) _ _)
  exact mapCores (by intro _; rfl) (by intro _; rfl) rfl rfl rfl

theorem sendKills (s : State) (uid cid : Nat) (fs : List Nat) : s.Books (s.sendKills uid cid fs) := by
  unfold State.sendKills
  exact foldl (fun s c => (sentMsgs s cid 1).trans (after _ _ _ _)) _ s

end State.Books

/-! What ends families. -/

/-- The family keeps its breaker, and an end that is decided (R123, R124). -/
def Family.KeepsEnd (f g : Family) : Prop := g.uid = f.uid ∧ g.brk = f.brk ∧ (f.ended ≠ .none → g.ended = f.ended)

theorem Family.KeepsEnd.refl (f : Family) : f.KeepsEnd f := ⟨rfl, rfl, fun _ => rfl⟩

theorem Family.KeepsEnd.trans (f g h : Family) (k : f.KeepsEnd g) (l : g.KeepsEnd h) : f.KeepsEnd h := by
  obtain ⟨ku, kb, ke⟩ := k
  obtain ⟨lu, lb, le⟩ := l
  exact ⟨lu.trans ku, lb.trans kb, fun hf => (le (by rw [ke hf]; exact hf)).trans (ke hf)⟩

/-- Families end, and their threads may go; but the issuing bundle has not changed, nor what decided the end of a family. -/
structure State.Ends (s t : State) : Prop where
  cur : t.cur = s.cur
  fams : s.FamsChange Family.KeepsEnd t

namespace State.Ends

variable {s t u : State}

theorem of_eq (hcur : t.cur = s.cur) (hf : t.fams = s.fams) : s.Ends t := ⟨hcur, .of_eq Family.KeepsEnd.refl hf⟩

theorem refl (s : State) : s.Ends s := of_eq rfl rfl

theorem trans (h : s.Ends t) (k : t.Ends u) : s.Ends u := ⟨k.cur.trans h.cur, h.fams.trans Family.KeepsEnd.trans k.fams⟩

theorem foldl {α : Type} {f : State → α → State} (hf : ∀ (s : State) (x : α), s.Ends (f s x)) (l : List α) (s : State) :
    s.Ends (l.foldl f s) := by
  induction l generalizing s with
  | nil => exact refl s
  | cons x l ih => exact (hf s x).trans (ih _)

theorem updFam {f : Family → Family} (hf : ∀ x : Family, x.KeepsEnd (f x)) (n : Nat) : s.Ends (s.updFam n f) :=
  ⟨rfl, .updFam Family.KeepsEnd.refl hf n⟩

/-- A change of families that leaves their ends. -/
theorem updFam_aside {f : Family → Family} (hu : ∀ x, (f x).uid = x.uid) (hb : ∀ x, (f x).brk = x.brk) (he : ∀ x, (f x).ended = x.ended)
    (n : Nat) : s.Ends (s.updFam n f) :=
  updFam (fun x => ⟨hu x, hb x, fun _ => he x⟩) n

end State.Ends

theorem State.Books.ends {s t : State} (h : s.Books t) : s.Ends t := .of_eq h.cur h.fams

namespace State.Ends

theorem inlineDone (s : State) (uid : Nat) : s.Ends (s.inlineDone uid) := by
  unfold State.inlineDone
  have h : s.Ends (s.updFam uid fun f => { f with st := .done, doneAt := s.now }) :=
    .updFam_aside (by intro _; rfl) (by intro _; rfl) (by intro _; rfl) uid
  dsimp only
  split
  · exact h.trans (State.Books.urgent _ _).ends
  · exact h

theorem familyDone (s : State) (uid : Nat) : s.Ends (s.familyDone uid) := by
  unfold State.familyDone
  split
  · exact .refl s
  · rename_i f _
    split
    · exact .refl s
    · extract_lets fin s1 s2 s3 s4 s5 s6 s7
      have h1 : s.Ends s1 := .updFam_aside (f := fin) (fun _ => rfl) (fun _ => rfl) (fun _ => rfl) uid
      have h2 : s1.Books s2 := .mapCores (by intro _; rfl) (by intro _; rfl) rfl rfl rfl
      have h3 : s2.Books s3 := by
        dsimp only [s3]
        split
        · exact .freeEnts s2 uid
        · exact .refl s2
      have h4 : s3.Books s4 := by
        dsimp only [s4]
        split
        · exact .after s3 _ _ _
        · exact .refl s3
      have h5 : s4.Books s5 := by
        dsimp only [s5]
        split
        · split
          · exact .syncReady s4 _ _
          · exact .refl s4
        · exact .refl s4
      have h6 : s5.Books s6 := .foldl (fun s (x : Share) => .freed s x.cid) _ s5
      have h7 : s6.Books s7 := by
        dsimp only [s7]
        split
        · exact .sliceCheck s6 _
        · exact .refl s6
      have h := h1.trans (((((h2.trans h3).trans h4).trans h5).trans h6).trans h7).ends
      split
      · exact h.trans (State.Books.urgent s7 _).ends
      · exact h

theorem dropThreads (s : State) (dead : Thread → Bool) : s.Ends (s.dropThreads dead) := by
  unfold State.dropThreads
  extract_lets gone isGone rec' left s1 s2 lost s3
  have h1 : s.Books s1 := .foldl (fun s x => .urgent s _) _ s
  have h2 : s1.Books s2 := (State.Books.dropCommands s1 _).trans (.travsGone _ _)
  have h3 : s2.Books s3 := .foldl (fun s r => .gotMsgs s _ _) _ s2
  refine ((h1.trans h2).trans h3).ends.trans (.trans ?_ (State.Books.queuesOn _).ends)
  exact .of_eq rfl rfl

theorem dropRecords (s : State) (fs : List Nat) : s.Ends (s.dropRecords fs) := by
  unfold State.dropRecords
  extract_lets q all gone s1
  have h1 : s.Ends s1 := .of_eq rfl rfl
  exact (h1.trans (.foldl (fun s f => familyDone s f) _ s1)).trans (State.Books.queuesOn _).ends

/-- What purging one family does beside its threads and records. -/
theorem purgeFam (s : State) (u : Nat) :
    s.Ends (match s.fam u with
      | none => s
      | some f =>
        let s : State := match f.rev with
          | some id => if ((s.part f.part).rev id).any fun r => r.fam == u then
              (s.dropJoin f.part u).dropRev f.part id
            else s
          | none => s
        if f.st.over then s
        else
          let s : State := s.updFam u fun f =>
            { f with ended := if f.ended = .none then .killed else f.ended
                     shares := f.shares.map fun x => { x with left := 0, live := [] } }
          if f.kind = .inlined then s.inlineDone u else s.familyDone u) := by
  split
  · exact .refl s
  · rename_i f _
    extract_lets s1
    have h1 : s.Books s1 := by
      dsimp only [s1]
      split
      · split
        · exact (State.Books.dropJoin s _ _).trans (.dropRev _ _ _)
        · exact .refl s
      · exact .refl s
    split
    · exact h1.ends
    · rename_i s2 _
      have h2 : s1.Ends s2 := .updFam (by intro x; exact ⟨rfl, rfl, fun hx => if_neg hx⟩) u
      split
      · exact (h1.ends.trans h2).trans (inlineDone _ _)
      · exact (h1.ends.trans h2).trans (familyDone _ _)

theorem purgeFams (s : State) (fs : List Nat) (top : Option Nat) : s.Ends (s.purgeFams fs top) := by
  unfold State.purgeFams
  extract_lets s1 s2 s3 runs s4 s5
  have h1 : s.Ends s1 := dropThreads s _
  have h2 : s1.Ends s2 := (State.Books.dropCommands s1 _).ends
  have h3 : s2.Ends s3 := dropRecords s2 fs
  have h4 : s3.Books s4 := .foldl (fun s r => .after s _ _ _) _ s3
  have h5 : s4.Ends s5 := .foldl (fun s u => purgeFam s u) _ s4
  refine ((((h1.trans h2).trans h3).trans h4.ends).trans h5).trans (.foldl (fun s u => ?_) _ s5)
  split
  · exact .refl s
  · exact (State.Books.freeEnts s u).ends.trans (.updFam_aside (by intro _; rfl) (by intro _; rfl) (by intro _; rfl) u)

theorem killOn (s : State) (fs : List Nat) (cid : Nat) : s.Ends (s.killOn fs cid) := by
  unfold State.killOn
  exact (dropThreads s _).trans (.foldl (fun s u => .updFam_aside (by intro _; rfl) (by intro _; rfl) (by intro _; rfl) u) _ _)

theorem vacate (s : State) (uid cid : Nat) : s.Ends (s.vacate uid cid) := by
  unfold State.vacate
  split
  · have h1 : s.Ends (s.updCore cid fun c => { c with regUse := c.regUse.filter fun u => u.fam != uid }) := .of_eq rfl rfl
    exact (h1.trans (.updFam_aside (by intro _; rfl) (by intro _; rfl) (by intro _; rfl) uid)).trans (State.Books.freed _ _).ends
  · exact .refl s

/-- The kill of the members above a breaker leaves who broke. -/
theorem killAbove (s : State) (uid b : Nat) : s.Ends (s.killAbove uid b) := by
  unfold State.killAbove
  extract_lets high uids under s1 s2 s3 due keeps s4
  have h1 : s.Ends s1 := purgeFams s under none
  have h2 : s1.Ends s2 := dropThreads s1 high
  have h3 : s2.Ends s3 := .updFam_aside (by intro _; rfl) (by intro _; rfl) (by intro _; rfl) uid
  clear_value s3
  have h4 : s3.Ends s4 := .of_eq rfl rfl
  have h := ((h1.trans h2).trans h3).trans h4
  split
  · exact h
  · exact h.trans (.foldl (fun s (x : Share) => vacate s uid x.cid) _ s4)

end State.Ends

/-! The kill of a family. -/

theorem State.mem_famsWithin {s : State} {f : Family} (hf : f ∈ s.fams) {roots : Family → Bool} (hr : roots f = true) :
    f.uid ∈ s.famsWithin roots := by
  unfold State.famsWithin
  generalize s.fams = l at hf
  suffices h : ∀ (l : List Family) (acc : List Nat), (f ∈ l ∨ f.uid ∈ acc) → f.uid ∈ l.foldl (fun acc g =>
      if roots g || (match g.parentFam with
        | some p => acc.contains p
        | none => false) then acc ++ [g.uid] else acc) acc from h l [] (.inl hf)
  intro l
  induction l with
  | nil => exact fun acc h => h.resolve_left List.not_mem_nil
  | cons g l ih =>
    intro acc h
    refine ih _ ?_
    rcases h with h | h
    · rcases List.mem_cons.1 h with rfl | h
      · right
        dsimp only
        rw [hr, Bool.true_or, if_pos rfl]
        exact List.mem_append_right _ (List.mem_singleton_self _)
      · exact .inl h
    · right
      dsimp only
      split_ifs
      · exact List.mem_append_left _ h
      · exact h

theorem State.fam_uid {s : State} {u : Nat} {f : Family} (h : s.fam u = some f) : f.uid = u := by
  unfold State.fam at h
  simpa using List.find?_some h

theorem State.fam_mem {s : State} {u : Nat} {f : Family} (h : s.fam u = some f) : f ∈ s.fams := List.mem_of_find?_eq_some h

/-- A change of one family is what is found of it. -/
theorem State.fam_updFam_self {s : State} {u : Nat} {f : Family} (h : s.fam u = some f) {g : Family → Family} (hg : ∀ x, (g x).uid = x.uid) :
    (s.updFam u g).fam u = some (g f) := by
  have hu : f.uid = u := State.fam_uid h
  have hpred : ((fun x : Family => x.uid == u) ∘ fun x => if x.uid == u then g x else x) = fun x => x.uid == u := by
    funext x
    simp only [Function.comp_def]
    split <;> simp [hg]
  unfold State.fam State.updFam at *
  rw [List.find?_map, hpred, h]
  simp [hu]

theorem State.fam_updFam_ne {s : State} {u k : Nat} {f : Family} (h : s.fam u = some f) (hk : k ≠ u) {g : Family → Family}
    (hg : ∀ x, (g x).uid = x.uid) : (s.updFam k g).fam u = some f := by
  have hu : f.uid = u := State.fam_uid h
  have hpred : ((fun x : Family => x.uid == u) ∘ fun x => if x.uid == k then g x else x) = fun x => x.uid == u := by
    funext x
    simp only [Function.comp_def]
    split <;> simp [hg]
  unfold State.fam State.updFam at *
  rw [List.find?_map, hpred, h]
  simp [hu, Ne.symm hk]

/-- The mark of a kill on a family that has not ended. -/
def Family.killMark (f : Family) : Family :=
  if f.st.over || f.ended != .none then f
  else { f with ended := .killed, st := if f.kind = .inlined then f.st else .purging,
                shares := f.shares.map fun x => { x with left := 0 } }

theorem State.markKilled_eq (s : State) (fs : List Nat) : s.markKilled fs = fs.foldl (fun s u => s.updFam u Family.killMark) s := rfl

@[simp] theorem Family.killMark_uid (f : Family) : f.killMark.uid = f.uid := by
  unfold Family.killMark
  split <;> rfl

/-- A family that has not ended, among those marked, is recorded as killed. -/
theorem State.markKilled_killed {s : State} {u : Nat} {f : Family} (hf : s.fam u = some f) (ho : f.st.over = false) (he : f.ended = .none)
    {fs : List Nat} (hu : u ∈ fs) : ∃ g, (s.markKilled fs).fam u = some g ∧ g.ended = .killed := by
  rw [State.markKilled_eq]
  have stays : ∀ (fs : List Nat) (s : State) (g : Family), s.fam u = some g → g.ended = .killed →
      ∃ g, (fs.foldl (fun s u => s.updFam u Family.killMark) s).fam u = some g ∧ g.ended = .killed := by
    intro fs
    induction fs with
    | nil => exact fun s g h k => ⟨g, h, k⟩
    | cons x fs ih =>
      intro s g h k
      by_cases hx : x = u
      · subst hx
        refine ih _ g.killMark (State.fam_updFam_self h Family.killMark_uid) ?_
        unfold Family.killMark
        simp [k]
      · exact ih _ g (State.fam_updFam_ne h hx Family.killMark_uid) k
  induction fs generalizing s with
  | nil => cases hu
  | cons x fs ih =>
    by_cases hx : x = u
    · subst hx
      refine stays fs _ f.killMark (State.fam_updFam_self hf Family.killMark_uid) ?_
      unfold Family.killMark
      simp [ho, he]
    · exact ih (State.fam_updFam_ne hf hx Family.killMark_uid) ((List.mem_cons.1 hu).resolve_left (Ne.symm hx))

theorem State.markKilled_cur (s : State) (fs : List Nat) : (s.markKilled fs).cur = s.cur := by
  rw [State.markKilled_eq]
  induction fs generalizing s with
  | nil => rfl
  | cons x fs ih => exact ih _

/-- A family that is killed and has not ended ends as killed. -/
theorem State.killFamily_killed {s : State} {u : Nat} {f : Family} (hf : s.fam u = some f) (ho : f.st.over = false) (he : f.ended = .none)
    (cid : Nat) : (s.killFamily u cid).cur = s.cur ∧ ∃ g, (s.killFamily u cid).fam u = some g ∧ g.ended = .killed := by
  have hin : u ∈ s.famsWithin fun x => x.uid == u := by
    have h := State.mem_famsWithin (roots := fun x => x.uid == u) (State.fam_mem hf) (by simp [State.fam_uid hf])
    rwa [State.fam_uid hf] at h
  unfold State.killFamily
  rw [hf]
  simp only [ho, he, Bool.false_or, bne_self_eq_false, Bool.false_eq_true, if_false]
  unfold State.killHere
  extract_lets fs s1
  obtain ⟨g, hg, hk⟩ := State.markKilled_killed hf ho he hin
  have hends (t : State) (h : (s.markKilled fs).Ends t) : t.cur = s.cur ∧ ∃ g, t.fam u = some g ∧ g.ended = .killed := by
    obtain ⟨g', hg', -, -, he'⟩ := h.fams.fam (fun _ _ k => k.1) hg
    exact ⟨h.cur.trans (s.markKilled_cur fs), g', hg', (he' (by simp [hk])).trans hk⟩
  have h1 : (s.markKilled fs).Ends s1 := (State.Ends.killOn _ _ _).trans (State.Books.sendKills _ _ _ _).ends
  split
  · exact hends _ h1
  · exact hends _ (h1.trans (.purgeFams s1 fs _))

end Sys2Proof.Machine
end

section
/-! SUPPORT. SYNC, KILL, BREAK and FSTAT (R36, R122 to R124, R136, R137, R139, R140). -/

namespace Sys2Proof.Machine

/-! Values written to registers of the issuing thread. -/

theorem Thread.coverS_ne {t : Thread} {n k : BitVec 4} {c : SCell} (h : k ≠ n) :
    (t.coverS n c).regs.s.get k.toFin = t.regs.s.get k.toFin := by
  have hne : n.toFin.val ≠ k.toFin.val := fun e => h (BitVec.eq_of_toNat_eq e.symm)
  rw [Thread.coverS_eq]
  simp only [Thread.setS, Vector.get_eq_getElem]
  exact Vector.getElem_set_ne _ _ hne

/-- Scalar registers of the thread have been written, with what that covers and sends. -/
def Thread.Written (t u : Thread) : Prop :=
  u = { t with regs := { t.regs with s := u.regs.s }, lost := u.lost, sent := u.sent, errs := u.errs }

theorem Thread.Written.refl (t : Thread) : t.Written t := rfl

theorem Thread.Written.trans {t u v : Thread} (h : t.Written u) (k : u.Written v) : t.Written v := by
  unfold Thread.Written at *
  rw [k, h]

theorem Thread.written_coverS (t : Thread) (n : BitVec 4) (c : SCell) : t.Written (t.coverS n c) := by
  unfold Thread.Written
  rw [Thread.coverS_eq]
  rfl

/-- Between s and t scalar registers of the issuing thread have been written, with what the writes send. -/
structure State.WritesMine (s t : State) : Prop where
  stands : t.Stands
  who : t.meWho = s.meWho
  res : t.cur.res = s.cur.res
  now : t.now = s.now
  reqs : t.reqs = s.reqs
  fams : s.FamsChange Family.SameButOuts t
  me : s.me.Written t.me

namespace State.WritesMine

variable {s t u : State}

theorem refl (hs : s.Stands) : s.WritesMine s := ⟨hs, rfl, rfl, rfl, rfl, .of_eq Family.SameButOuts.refl rfl, .refl _⟩

theorem trans (h : s.WritesMine t) (k : t.WritesMine u) : s.WritesMine u :=
  ⟨k.stands, k.who.trans h.who, k.res.trans h.res, k.now.trans h.now, k.reqs.trans h.reqs,
    h.fams.trans Family.SameButOuts.trans k.fams, h.me.trans k.me⟩

end State.WritesMine

/-- A value written to a register of the issuing thread: what it leaves, and the registers. -/
theorem State.Stands.writeS_mine {s : State} (hs : s.Stands) (n : BitVec 4) (v : W64) :
    s.WritesMine (s.writeS s.meWho n v) ∧ (s.writeS s.meWho n v).me.regs = (s.me.coverS n (SCell.full v)).regs := by
  have hsend := hs.hasThread.writeAt n v s.now
  obtain ⟨th, ht, he⟩ := hs.hasThread.thread_writeAt n v s.now
  have hcid : (s.writeS s.meWho n v).cur.cid = s.cur.cid := hsend.cid
  have hslot : (s.writeS s.meWho n v).cur.slot = s.cur.slot := hsend.slot
  have hthread : (s.writeS s.meWho n v).thread (s.writeS s.meWho n v).cur.cid (s.writeS s.meWho n v).cur.slot = some th := by
    rw [hcid, hslot]
    exact ht.thread
  have hme : (s.writeS s.meWho n v).me = th := by
    unfold State.me
    rw [hthread]
    rfl
  have hregs : th.regs = (s.me.coverS n (SCell.full v)).regs := by rw [he]
  refine ⟨⟨⟨hslot ▸ hs.1, by rw [hthread, hme]⟩, ?_, hsend.res, hsend.now, hsend.reqs, hsend.fams, ?_⟩, by rw [hme, hregs]⟩
  · exact State.meWho_congr hcid hslot (by rw [hme]; exact ht.uid)
  · rw [hme]
    refine (Thread.written_coverS s.me n (SCell.full v)).trans ?_
    unfold Thread.Written
    rw [he]

/-- Registers from n + i on written with the values of a list. -/
def State.writeList (s : State) (n i : Nat) (l : List W64) : State :=
  (l.zipIdx i).foldl (fun s x => s.writeS s.meWho (BitVec.ofNat 4 (n + x.2)) x.1) s

theorem State.writeList_cons (s : State) (n i : Nat) (v : W64) (l : List W64) :
    s.writeList n i (v :: l) = (s.writeS s.meWho (BitVec.ofNat 4 (n + i)) v).writeList n (i + 1) l := by
  unfold State.writeList
  rw [List.zipIdx_cons]
  rfl

theorem State.Stands.writeList {s : State} (hs : s.Stands) (n i : Nat) (l : List W64) : s.WritesMine (s.writeList n i l) := by
  induction l generalizing s i with
  | nil => exact .refl hs
  | cons v l ih =>
    rw [State.writeList_cons]
    have h1 := (hs.writeS_mine (BitVec.ofNat 4 (n + i)) v).1
    exact h1.trans (ih h1.stands (i + 1))

/-- Where the registers are distinct each holds its value, and those below are as they were. -/
theorem State.Stands.writeList_regs {s : State} (hs : s.Stands) {n i : Nat} {l : List W64} (hn : n + i + l.length ≤ 16) :
    (∀ j x, l[j]? = some x → (s.writeList n i l).me.regs.s.get (BitVec.ofNat 4 (n + i + j)).toFin = SCell.full x) ∧
      ∀ k : BitVec 4, k.toNat < n + i → (s.writeList n i l).me.regs.s.get k.toFin = s.me.regs.s.get k.toFin := by
  induction l generalizing s i with
  | nil => exact ⟨fun j x h => by simp at h, fun k _ => rfl⟩
  | cons v l ih =>
    rw [State.writeList_cons]
    obtain ⟨h1, hregs⟩ := hs.writeS_mine (BitVec.ofNat 4 (n + i)) v
    rw [List.length_cons] at hn
    obtain ⟨hl, hk⟩ := ih h1.stands (i := i + 1) (by omega)
    have hmod : (BitVec.ofNat 4 (n + i)).toNat = n + i := by
      rw [BitVec.toNat_ofNat]
      exact Nat.mod_eq_of_lt (by omega)
    refine ⟨fun j x hx => ?_, fun k hlt => ?_⟩
    · cases j with
      | zero =>
        simp only [List.getElem?_cons_zero, Option.some.injEq] at hx
        subst hx
        have h0 := hk (BitVec.ofNat 4 (n + i)) (by omega)
        rw [hregs, Thread.coverS_self] at h0
        exact h0
      | succ j =>
        rw [show n + i + (j + 1) = n + (i + 1) + j by omega]
        exact hl j x (by simpa using hx)
    · rw [hk k (by omega), hregs]
      refine Thread.coverS_ne fun e => ?_
      rw [e, hmod] at hlt
      exact Nat.lt_irrefl _ hlt

theorem State.Stands.writeMine {s : State} (hs : s.Stands) (r : SReg) (v : W64) :
    s.WritesMine (s.writeMine r v) ∧ (∀ k, r = .s k → (s.writeMine r v).me.regs.s.get k.toFin = SCell.full v) ∧
      ∀ k, r ≠ .s k → (s.writeMine r v).me.regs.s.get k.toFin = s.me.regs.s.get k.toFin := by
  cases r with
  | s n =>
    obtain ⟨h1, hregs⟩ := hs.writeS_mine n v
    refine ⟨h1, ?_, fun k hk => ?_⟩
    · rintro k ⟨⟩
      show (s.writeS s.meWho n v).me.regs.s.get n.toFin = _
      rw [hregs, Thread.coverS_self]
    · show (s.writeS s.meWho n v).me.regs.s.get k.toFin = _
      rw [hregs]
      exact Thread.coverS_ne fun e => hk (e ▸ rfl)
  | _ => exact ⟨.refl hs, fun k h => (by cases h), fun k _ => rfl⟩

/-! SYNC. -/

theorem notWalker_ok {s : State} (h : s.cur.slot ≠ 16) : notWalker s = .ok () := by
  unfold notWalker
  exact if_neg h

/-- What syncing a family leaves of the issuing thread and the families. -/
theorem State.Stands.finish {s : State} (hs : s.Stands) {f g : Family} (hg : s.fam f.uid = some g) :
    (s.finish f).Stands ∧ (s.finish f).cur = s.cur ∧ (s.finish f).me.pc = s.me.pc ∧ (s.finish f).me.regs = s.me.regs ∧
      (s.finish f).me.kids = s.me.kids.filter (· != f.uid) ∧ (s.finish f).fam f.uid = some { g with synced := true } := by
  unfold State.finish
  extract_lets s1
  have h1 : s1.Stands ∧ s1.cur = s.cur ∧ s1.fams = s.fams ∧ s1.me = { s.me with csr := s1.me.csr } := by
    dsimp only [s1]
    split
    · exact ⟨hs.after_updMe _, by simp, by simp, by rw [hs.me_updMe]; rfl⟩
    · exact ⟨hs, rfl, rfl, rfl⟩
  obtain ⟨hs1, hcur, hfams, hme⟩ := h1
  clear_value s1
  have hb : s1.Books (s1.freeEnts f.uid) := .freeEnts _ _
  have hfam : (s1.freeEnts f.uid).fam f.uid = some g := by
    unfold State.fam
    rw [hb.fams, hfams]
    exact hg
  have hth : s1.SameThreads ((s1.freeEnts f.uid).updFam f.uid fun f => { f with synced := true }) :=
    hb.sameThreads.trans (.of_cores rfl rfl rfl)
  have hst := hth.stands hs1
  refine ⟨hst.after_updMe _, ?_, ?_, ?_, ?_, ?_⟩
  · rw [State.updMe_cur, State.updFam_cur, hb.cur, hcur]
  · rw [hst.me_updMe, hth.me, hme]
  · rw [hst.me_updMe, hth.me, hme]
  · rw [hst.me_updMe, hth.me, hme]
  · unfold State.fam
    rw [State.updMe_fams]
    exact State.fam_updFam_self hfam (g := fun f => { f with synced := true }) fun _ => rfl

/-- An acquire of the issuing thread leaves its bundle, its registers and the families. -/
theorem State.Stands.acquire {s : State} (hs : s.Stands) :
    (s.acquire s.meWho).cur = s.cur ∧ (s.acquire s.meWho).fams = s.fams ∧ ∃ n, (s.acquire s.meWho).me = { s.me with acqUntil := n } := by
  obtain ⟨n, hn⟩ := hs.hasThread.acquire
  refine ⟨rfl, rfl, n, ?_⟩
  have h : (s.acquire s.meWho).thread s.cur.cid s.cur.slot = some { s.me with acqUntil := n } := hn.thread
  show ((s.acquire s.meWho).thread s.cur.cid s.cur.slot).getD _ = _
  rw [h]
  rfl

section

variable {h : Hdr} {rd ra : SReg} {s : State} (hw : s.cur.slot ≠ 16)
include hw

theorem exec_sync_waits (hg : gateC { Uses.none with sr := [ra], sw := [rd] } s = .ok ()) (hd : s.doneVal = none) {f : Family}
    (hf : famOf s (s.regVal ra) false = .ok f) :
    exec (.sync h rd ra) s = .next (run (holdOn (if f.st.over then s.syncReady f s.meWho else s) f.uid)) := by
  show execSync h rd ra s = _
  unfold execSync
  simp only [notWalker_ok hw, hg, hd, hf, bind, Except.bind]

/-- The state in which SYNC's bundle has committed and the family's finals stand in their registers. -/
def State.merged (s : State) (h : Hdr) (f : Family) : State :=
  if f.kind = .alloc then (commitNext s h .drops (loneW h)).writeList f.desc.hsrc 0 f.finals else commitNext s h .drops (loneW h)

theorem exec_sync_done (hg : gateC { Uses.none with sr := [ra], sw := [rd] } s = .ok ()) {v : W64} (hv : s.me.hold = .done v) {f : Family}
    (hf : s.fam v.toNat = some f) :
    exec (.sync h rd ra) s = .next (
      let s3 := ((s.merged h f).finish f).writeMine rd f.statusWord
      if s.joinAcquires f then s3.acquire s3.meWho else s3) := by
  show execSync h rd ra s = _
  unfold execSync
  simp only [notWalker_ok hw, hg, State.doneVal_of_done hv, hf, bind, Except.bind]
  rfl

theorem fstatOp_ok (hg : gateC { Uses.none with sr := [ra], sw := [rd] } s = .ok ()) {f : Family}
    (hf : famOf s (s.regVal ra) true = .ok f) (g : Family → W64) :
    fstatOp h rd ra g s = .ok ((commitNext s h .drops (loneW h)).valueLater rd (g f)
      (if f.cid = s.cur.cid then 2 else handoff s.cur.cid f.cid)) := by
  unfold fstatOp
  simp only [notWalker_ok hw, hg, hf, bind, Except.bind, pure, Except.pure]

theorem exec_kill (hg : gateC { Uses.none with sr := [ra] } s = .ok ()) {f : Family} (hf : famOf s (s.regVal ra) false = .ok f) :
    exec (.kill h ra) s = .next ((commitNext s h .drops (loneW h)).killFamily f.uid s.cur.cid) := by
  show execKill h ra s = _
  unfold execKill
  simp only [notWalker_ok hw, hg, hf, bind, Except.bind]
  rfl

/-- The breaker of a family is the lowest that has broken (R123). -/
def Family.yields (f : Family) (b : Nat) : Bool :=
  match f.brk with
  | some (k, _) => decide (b < k)
  | none => true

theorem exec_breakFam (hg : gateC { Uses.none with sr := [ra] } s = .ok ()) {f : Family} (hf : s.me.fam.bind s.fam = some f) :
    exec (.breakFam h ra) s = .next (
      if f.yields s.me.member then
        ((commitNext s h .drops (loneW h)).updFam f.uid fun f => { f with brk := some (s.me.member, s.regVal ra) }).killAbove f.uid
          s.me.member
      else commitNext s h .drops (loneW h)) := by
  show execBreakFam h ra s = _
  unfold execBreakFam
  simp only [notWalker_ok hw, hg, hf, bind, Except.bind]
  rfl

end

/-- SYNC's bundle waits for the family. -/
theorem sync_waits {h : Hdr} {rd ra : SReg} {s : State} {f : Family} (hs : s.Stands) (hw : s.cur.slot ≠ 16)
    (hg : gateC { Uses.none with sr := [ra], sw := [rd] } s = .ok ()) (hd : s.me.hold = .none) (hf : famOf s (s.regVal ra) false = .ok f) :
    ∃ t, exec (.sync h rd ra) s = .next t ∧ t.cur.res = .held ∧ t.me.hold = .busy f.uid := by
  have hb : s.Books (if f.st.over then s.syncReady f s.meWho else s) := by
    split
    · exact .syncReady s _ _
    · exact .refl s
  obtain ⟨hcur, -, hhold⟩ := run_holdOn (hb.sameThreads.stands hs) f.uid
  exact ⟨_, exec_sync_waits hw hg (State.doneVal_of_none hd) hf, by rw [hcur], hhold⟩

/-- SYNC's bundle commits: the finals and the status are in their registers, and the family is synced. -/
theorem sync_done {h : Hdr} {rd ra : SReg} {s : State} {f : Family} (hs : s.Stands) (hw : s.cur.slot ≠ 16)
    (hg : gateC { Uses.none with sr := [ra], sw := [rd] } s = .ok ()) {v : W64} (hv : s.me.hold = .done v) (hf : s.fam v.toNat = some f) :
    ∃ t g, exec (.sync h rd ra) s = .next t ∧ t.cur.res = .committed ∧ t.me.pc = s.me.pc + 8#64 ∧ t.fam f.uid = some g ∧
      g.synced = true ∧ f.uid ∉ t.me.kids ∧
      (f.kind = .alloc → f.desc.hsrc + f.desc.s ≤ 16 → ∀ j < f.desc.s, ∀ x, f.finals[j]? = some x →
        let k := BitVec.ofNat 4 (f.desc.hsrc + j)
        rd ≠ .s k → (t.me.regs.s.get k.toFin).val = x ∧ (t.me.regs.s.get k.toFin).pres = true) ∧
      ∀ k, rd = .s k → (t.me.regs.s.get k.toFin).val = f.statusWord ∧ (t.me.regs.s.get k.toFin).pres = true := by
  have huid : f.uid = v.toNat := State.fam_uid hf
  have hc : (commitNext s h .drops (loneW h)).Stands := hs.after_commit _ _ _ _
  have hm : (commitNext s h .drops (loneW h)).WritesMine (s.merged h f) := by
    unfold State.merged
    split
    · exact hc.writeList _ _ _
    · exact .refl hc
  have hfc : (commitNext s h .drops (loneW h)).fam f.uid = some f := by
    unfold State.fam commitNext
    rw [commit_fams, huid]
    exact hf
  obtain ⟨f', hf', -⟩ := hm.fams.fam (fun _ g k => by rw [show g = _ from k]) hfc
  obtain ⟨hst, hcur, hpc, hregs, hkids, hfam⟩ := hm.stands.finish hf'
  obtain ⟨hwm, hrd, hother⟩ := hst.writeMine rd f.statusWord
  obtain ⟨g, hgf, hgs⟩ := hwm.fams.fam (fun _ g k => by rw [show g = _ from k]) hfam
  -- the acquire of a join, if any, leaves what is claimed
  have hacq : ∃ t, exec (.sync h rd ra) s = .next t ∧ t.cur.res = (((s.merged h f).finish f).writeMine rd f.statusWord).cur.res ∧
      t.fams = (((s.merged h f).finish f).writeMine rd f.statusWord).fams ∧
      ∃ n, t.me = { (((s.merged h f).finish f).writeMine rd f.statusWord).me with acqUntil := n } := by
    rw [exec_sync_done hw hg hv hf]
    dsimp only
    split
    · obtain ⟨hcur, hfams, hme⟩ := hwm.stands.acquire
      exact ⟨_, rfl, by rw [hcur], hfams, hme⟩
    · exact ⟨_, rfl, rfl, rfl, _, rfl⟩
  obtain ⟨t, ht, hres, hfams, n, hme⟩ := hacq
  have hcommit : (commitNext s h .drops (loneW h)).cur.res = .committed := by rw [commitNext, commit_res]
  refine ⟨t, g, ht, ?_, ?_, ?_, ?_, ?_, ?_, fun k hk => ?_⟩
  · rw [hres, hwm.res, hcur, hm.res, hcommit]
  · rw [hme, hwm.me, hpc, hm.me, commitNext, commit_me hs]
    rfl
  · unfold State.fam
    rw [hfams]
    exact hgf
  · rw [hgs]
  · rw [hme, hwm.me]
    show f.uid ∉ ((s.merged h f).finish f).me.kids
    rw [hkids]
    simp
  · intro hkind hlen j hj x hx k hk
    have hmerged : s.merged h f = (commitNext s h .drops (loneW h)).writeList f.desc.hsrc 0 f.finals := if_pos hkind
    have hflen : f.finals.length = f.desc.s := by simp [Family.finals]
    obtain ⟨hl, -⟩ := hc.writeList_regs (n := f.desc.hsrc) (i := 0) (l := f.finals) (by omega)
    have hreg : t.me.regs.s.get k.toFin = SCell.full x := by
      rw [hme]
      show (((s.merged h f).finish f).writeMine rd f.statusWord).me.regs.s.get k.toFin = _
      rw [hother k hk, hregs, hmerged]
      exact hl j x hx
    rw [hreg]
    exact ⟨rfl, rfl⟩
  · have hreg : t.me.regs.s.get k.toFin = SCell.full f.statusWord := by
      rw [hme]
      exact hrd k hk
    rw [hreg]
    exact ⟨rfl, rfl⟩

/-! The obligation. -/

/-- Settles O32: SYNC's merge and status are writes of its own registers; a kill marks the family before it purges, and neither a
purge nor the members that a break kills change a breaker that is recorded. -/
theorem familyInstructionsComplete : Obligations.FamilyInstructionsComplete := by
  unfold Obligations.FamilyInstructionsComplete
  intro h rd ra s f hs hb hw next
  refine ⟨fun hu => ?_, fun hu => ?_⟩
  · have hg := gateC_usable hu hb
    refine ⟨sync_waits hs hw hg, fun v hv hf => sync_done hs hw hg hv hf, fun hf => ?_⟩
    intro reads
    have hreads (i : Instr) (g : Family → W64) (hi : exec i s = .next (run (fstatOp h rd ra g s))) : reads i (g f) := by
      rw [fstatOp_ok hw hg hf] at hi
      obtain ⟨ha, hq⟩ := hs.commitNext_valueLater h .drops (loneW h) rd (g f) (if f.cid = s.cur.cid then 2 else handoff s.cur.cid f.cid)
      exact ⟨_, hi, ha.res, ha.pc, ha.mem, (State.valueLater_fams _ _ _ _).trans (commit_fams _ _ _ _ _),
        fun k hk => ⟨hq k hk, (ha.pending k hk).2⟩⟩
    exact ⟨hreads _ _ rfl, hreads _ (fun f => (f.winner.map (·.2)).getD 0#64) rfl,
      hreads _ (fun f => (f.winner.map fun b => f.desc.index b.1).getD 0#64) rfl, hreads _ (fun f => BitVec.ofNat 64 f.replay) rfl⟩
  · have hg := gateC_usable hu hb
    have hcommit : (commitNext s h .drops (loneW h)).cur.res = .committed := by rw [commitNext, commit_res]
    have hfc (hf : s.fam f.uid = some f) : (commitNext s h .drops (loneW h)).fam f.uid = some f := by
      unfold State.fam commitNext
      rw [commit_fams]
      exact hf
    refine ⟨fun hf hfam ho he => ?_, fun hmine hfam => ⟨fun k v hk hle => ?_, fun hwins => ?_⟩⟩
    · obtain ⟨hcur, g, hgf, hge⟩ := State.killFamily_killed (hfc hfam) ho he s.cur.cid
      exact ⟨_, g, exec_kill hw hg hf, by rw [hcur, hcommit], hgf, hge⟩
    · rw [exec_breakFam hw hg (by rw [hmine]; exact hfam), if_neg (by simp [Family.yields, hk, hle])]
      rfl
    · have hy : f.yields s.me.member = true := by
        unfold Family.yields
        rcases hwins with hn | ⟨k, v, hk, hlt⟩
        · rw [hn]
        · rw [hk]
          exact decide_eq_true hlt
      have hends := State.Ends.killAbove ((commitNext s h .drops (loneW h)).updFam f.uid fun f =>
        { f with brk := some (s.me.member, s.regVal ra) }) f.uid s.me.member
      obtain ⟨g, hgf, -, hgb, -⟩ := hends.fams.fam (fun _ _ k => k.1)
        (State.fam_updFam_self (hfc hfam) (g := fun f => { f with brk := some (s.me.member, s.regVal ra) }) fun _ => rfl)
      refine ⟨_, g, ?_, ?_, hgf, hgb⟩
      · rw [exec_breakFam hw hg (by rw [hmine]; exact hfam), if_pos hy]
      · rw [hends.cur, State.updFam_cur, hcommit]

end Sys2Proof.Machine
end

section
/-! SUPPORT. CREATE (R114 to R119, R133). -/

namespace Sys2Proof.Machine

/-! The descriptor's reads. -/

theorem calm_readNow {s t : State} {va : W64} {n al : Nat} {bs : List Byte} (h : readNow s va n al = .ok (bs, t)) : s.Calm t := by
  unfold readNow at h
  cases ha : access s va n al needLoad true with
  | error e =>
    rw [ha] at h
    cases h
  | ok p =>
    obtain ⟨x, s1⟩ := p
    rw [ha] at h
    simp only [bind, Except.bind] at h
    have hc := (calm_access ha).1
    split at h
    · cases h
    · split at h
      · cases h
      · simp only [pure, Except.pure, Except.ok.injEq] at h
        have hr := State.calm_readHere s1 x (s1.myLevel va.toNat) n
        rw [h] at hr
        exact hc.trans hr

/-! The family that a CREATE records. -/

/-- The family of a CREATE, with its join counter. -/
def State.creates (s : State) (d : Desc) (p : Place) (det : Bool) (rid : Option Nat) (ctr : Option (Nat × Nat)) : Family :=
  { s.fresh.2.newFamily s.ctr d p d.count det rid with ctr := ctr }

/-- The state in which the family and its revision are recorded. -/
def State.recorded (s : State) (d : Desc) (p : Place) (det : Bool) (rid : Option Nat) (ctr : Option (Nat × Nat)) : State :=
  let s3 : State := s.fresh.2
  let f := s.creates d p det rid ctr
  let s3 : State := if det then s3.markSide f.part (s3.inRev s3.me) none else s3
  let s4 : State := { s3 with fams := s3.fams ++ [f] }
  match rid with
  | some id => s4.updPart f.part fun q => { q with revs := q.revs ++
      [{ id := id, fam := s.ctr, parent := s3.inRev s3.me, snap := q.regions, mem0 := s3.mem, vers0 := q.versions }] }
  | none => s4

/-- What a CREATE of a family without members makes of the state in which f is recorded. -/
def State.createEmpty (s4 : State) (h : Hdr) (rd : SReg) (f : Family) (rid : Option Nat) (det : Bool) (cid now : Nat) : State :=
  let gen := s4.myCore.inlCount + 1#32
  let id := inlineId gen cid
  let s5 : State := commitNext s4 h .drops (loneW h)
  let s5 : State := (s5.updMyCore fun c => { c with inlCount := gen }).updFam f.uid fun f =>
    { f with kind := .empty, st := .done, doneAt := now, id := id }
  let s5 : State := match rid with
    | some r => s5.dropRev f.part r
    | none => s5
  if det then s5.urgent (.detJoinDecrement f.uid)
  else
    let s6 : State := s5.writeList f.desc.hsrc 0 f.init
    (s6.updMe fun t => { t with lastInline := some f.uid }).writeMine rd id

/-- What a CREATE whose members fit makes of the state in which f is recorded. -/
def State.createRunning (s4 : State) (h : Hdr) (rd : SReg) (f : Family) (ds : List (Nat × Nat × Nat × Nat)) (det : Bool) : State :=
  let s5 : State := (commitNext (s4.allocate f.uid f.desc ds) h .drops (loneW h)).created f
  let id := ((s5.fam f.uid).map (·.id)).getD 0#64
  if det then s5 else s5.valueLater rd id 8

theorem bind_ok {ε α β : Type} {x : Except ε α} {a : α} (h : x = .ok a) (f : α → Except ε β) : x.bind f = f a := by
  rw [h]
  rfl

theorem createOp_eq {h : Hdr} {rd ra rb : SReg} {rev det : Bool} {s s1 s2 : State} {bs bl : List Byte} {lim : Int} (hw : s.cur.slot ≠ 16)
    (hg : gateC { Uses.none with sr := [ra, rb] ++ (if det then [rd] else []), sw := if det then [] else [rd] } s = .ok ())
    (hh : s.me.hold = .none) (ha : s.acqBlocked = false) (hbs : readNow s (s.regVal ra) 32 32 = .ok (bs, s1)) :
    let w (i : Nat) : W64 := BitVec.ofNat 64 (leVal ((bs.drop (8 * i)).take 8))
    let d0 := Desc.parse (w 0) (w 1) (w 2) (w 3)
    let d := { d0 with limit := lim }
    let p := Place.parse (s.regVal rb) s.cur.cid
    (d0.ind = false ∧ lim = d0.limit ∧ s2 = s1) ∨
      (d0.ind = true ∧ readNow s1 (w 1) 8 8 = .ok (bl, s2) ∧ lim = (BitVec.ofNat 64 (leVal bl)).toInt) →
    Desc.reserved (w 2) (w 3) = false →
    (∀ j < d.s, (s.me.regs.s.get (BitVec.ofNat 4 (d.hsrc + j)).toFin).pend = false ∧
      s.cur.aDest ≠ some (.s (BitVec.ofNat 4 (d.hsrc + j)))) →
    (∀ wide, s.unperformed s.meWho wide s.ctr = false) → s2.spoiltLine s.cur.cid (fun _ => true) = none →
    d0.bad rev det p.fallback = false → s.badPlace (s.regVal rb) p (s.partNum s.cur.cid) det = false →
    (rev = true → (s.part (s.partNum s.cur.cid)).freeRev.isSome = true) →
    ∀ ctr : Option (Nat × Nat), (det = false → ctr = none) →
    (det = true → ∃ x s3, access s2 (s.regVal rd) 8 8 { needAtomic with tag := true } true = .ok (x, s3) ∧ ctr = some (x.va, x.pa)) →
    d.count = 0 ∨ s2.fits d (deals p.cores p.cyclic d.count) = true →
    ∃ s2' rid, s2.Calm s2' ∧ createOp h rd ra rb rev det s = .ok (
      let f := s2'.creates d p det rid ctr
      let s4 := s2'.recorded d p det rid ctr
      if d.count = 0 then s4.createEmpty h rd f rid det s.cur.cid s.now else s4.createRunning h rd f (deals p.cores p.cyclic d.count) det) := by
  intro w d0 d p hlim hres hsh hun hsp hbad hplace hrev ctr hc0 hc1 hfit
  have hsx : ((List.range d0.s).map fun j => BitVec.ofNat 4 (d0.hsrc + j)).any (fun n => s.cur.aDest == some (.s n)) = false := by
    rw [List.any_eq_false]
    intro n hn
    obtain ⟨j, hj, rfl⟩ := List.mem_map.1 hn
    simpa using (hsh j (List.mem_range.1 hj)).2
  have hpx : ((List.range d0.s).map fun j => BitVec.ofNat 4 (d0.hsrc + j)).any (fun n => (s.me.regs.s.get n.toFin).pend) = false := by
    rw [List.any_eq_false]
    intro n hn
    obtain ⟨j, hj, rfl⟩ := List.mem_map.1 hn
    simpa using (hsh j (List.mem_range.1 hj)).1
  have hrid : (rev && (if rev then (s.part (s.partNum s.cur.cid)).freeRev else none).isNone) = false := by
    cases rev with
    | false => rfl
    | true => simpa using hrev rfl
  have hlim' : (if d0.ind then
      match readNow s1 (w 1) 8 8 with
      | .ok (b, s2) => (.ok ((BitVec.ofNat 64 (leVal b)).toInt, s2) : Except State (Int × State))
      | .error e => .error e
    else .ok (d0.limit, s1)) = .ok (lim, s2) := by
    rcases hlim with ⟨hi, rfl, rfl⟩ | ⟨hi, hr, rfl⟩
    · rw [hi]; rfl
    · rw [hi, hr]; rfl
  have hctr : (if det then
      match access s2 (s.regVal rd) 8 8 { needAtomic with tag := true } true with
      | .ok (x, _) => (.ok (some (x.va, x.pa)) : Except State (Option (Nat × Nat)))
      | .error e => .error e
    else .ok none) = .ok ctr := by
    cases det with
    | false => rw [hc0 rfl]; rfl
    | true =>
      obtain ⟨x, s3, hx, rfl⟩ := hc1 rfl
      rw [hx]; rfl
  unfold createOp
  rw [if_neg hw]
  simp only [hg, hh, memGate_ok ha, hbs, bind, Except.bind]
  rw [if_neg (by rw [hres, hbad]; decide), if_neg (Bool.eq_false_iff.1 hsx), if_neg (Bool.eq_false_iff.1 hpx),
    if_neg (Bool.eq_false_iff.1 hplace), if_neg (Bool.eq_false_iff.1 hrid)]
  let fits := d.count != 0 && s2.fits d (deals p.cores p.cyclic d.count)
  let away := d.count != 0 && !fits && (p.fallback == 0#2 || p.fallback == 2#2) && !p.dcores.isEmpty
  let wide := (p.cores ++ if away then p.dcores else []).any (· != s.cur.cid) || rev || det
  have hwide : (if wide then
      match s2.spoiltLine s.cur.cid fun _ => true with
      | some a => raise (s2.releaseLines s.cur.cid) 6 0x31 a
      | none => .ok (s2.releaseLines s.cur.cid)
    else .ok s2) = (.ok (if wide then s2.releaseLines s.cur.cid else s2) : Except State State) := by
    rw [hsp]
    cases wide <;> rfl
  refine ⟨if wide then s2.releaseLines s.cur.cid else s2, if rev then (s.part (s.partNum s.cur.cid)).freeRev else none, ?_, ?_⟩
  · split
    · exact s2.calm_releaseLines _
    · exact .refl s2
  · refine (bind_ok hlim' _).trans ((bind_ok hctr _).trans ((if_neg (Bool.eq_false_iff.1 (hun wide))).trans ((bind_ok hwide _).trans ?_)))
    generalize (if wide then s2.releaseLines s.cur.cid else s2) = s2'
    generalize (if rev then (s.part (s.partNum s.cur.cid)).freeRev else none) = rid
    by_cases hn : d.count = 0
    · refine (if_pos hn).trans (Eq.trans ?_ (congrArg Except.ok (if_pos hn).symm))
      cases det <;> rfl
    · refine (if_neg hn).trans (Eq.trans ?_ (congrArg Except.ok (if_neg hn).symm))
      refine (if_pos ?_).trans ?_
      · show (d.count != 0 && s2.fits d (deals p.cores p.cyclic d.count)) = true
        rw [hfit.resolve_left hn, Bool.and_true]
        exact bne_iff_ne.2 hn
      · cases det <;> rfl

/-! The state in which the family is recorded. -/

theorem State.markSide_eq (s : State) (part : Nat) (inRev lvl : Option Nat) :
    s.markSide part inRev lvl = { s with fams := (s.markSide part inRev lvl).fams } := State.markFrom_eq s _ _ _ _

/-- Recording a family leaves the cores and the issuing bundle. -/
theorem State.recorded_leaves (s : State) (d : Desc) (p : Place) (det : Bool) (rid : Option Nat) (ctr : Option (Nat × Nat)) :
    (s.recorded d p det rid ctr).cores = s.cores ∧ (s.recorded d p det rid ctr).cur = s.cur ∧
      s.creates d p det rid ctr ∈ (s.recorded d p det rid ctr).fams := by
  unfold State.recorded
  extract_lets s3 f s3' s4
  have h3 : s3'.cores = s.cores ∧ s3'.cur = s.cur := by
    dsimp only [s3']
    split
    · rw [State.markSide_eq]
      exact ⟨rfl, rfl⟩
    · exact ⟨rfl, rfl⟩
  have h4 : f ∈ s4.fams := List.mem_append_right _ (List.mem_singleton_self _)
  split
  · exact ⟨h3.1, h3.2, h4⟩
  · exact ⟨h3.1, h3.2, h4⟩

/-- The family of a CREATE is made of its creator's registers. -/
theorem State.SameThreads.creates {s t : State} (h : s.SameThreads t) (d : Desc) (p : Place) (det : Bool) (rid : Option Nat)
    (ctr : Option (Nat × Nat)) :
    (t.creates d p det rid ctr).parentUid = s.me.uid ∧
      (t.creates d p det rid ctr).globals =
        (List.range d.g).map (fun i => (s.me.regs.s.get (BitVec.ofNat 4 (d.gsrc + i)).toFin).val) ∧
      (t.creates d p det rid ctr).init =
        (List.range d.s).map (fun j => (s.me.regs.s.get (BitVec.ofNat 4 (d.hsrc + j)).toFin).val) := by
  rw [← h.me]
  exact ⟨rfl, rfl, rfl⟩

theorem State.mem_updFam {s : State} {f : Family} (hf : f ∈ s.fams) (g : Family → Family) : g f ∈ (s.updFam f.uid g).fams :=
  List.mem_map.2 ⟨f, hf, by simp⟩

/-- What is found of a family that a change of all families of its number has met. -/
theorem State.fam_updFam_of_mem {s : State} {f : Family} (hf : f ∈ s.fams) {g : Family → Family} (hg : ∀ x, (g x).uid = x.uid) :
    ∃ x, (s.updFam f.uid g).fam f.uid = some (g x) := by
  have hsome : (s.fam f.uid).isSome := by
    unfold State.fam
    rw [List.find?_isSome]
    exact ⟨f, hf, by simp⟩
  obtain ⟨x, hx⟩ := Option.isSome_iff_exists.1 hsome
  exact ⟨x, State.fam_updFam_self hx hg⟩

/-! A family without members. -/

/-- The CREATE of a family without members commits, with the family done; without DET its identifier stands in rd. -/
theorem State.Stands.createEmpty {s : State} (hs : s.Stands) (h : Hdr) (rd : SReg) {f : Family} (hf : f ∈ s.fams) (rid : Option Nat)
    (det : Bool) (cid now : Nat) :
    let t := s.createEmpty h rd f rid det cid now
    let id := inlineId (s.myCore.inlCount + 1#32) cid
    t.cur.res = .committed ∧ t.me.pc = s.me.pc + 8#64 ∧
      (∃ g ∈ t.fams, g = { f with kind := .empty, st := .done, doneAt := now, id := id, outs := g.outs }) ∧
      (det = false → ∀ k, rd = .s k → t.me.regs.s.get k.toFin = SCell.full id) := by
  intro t id
  have hc : (commitNext s h .drops (loneW h)).Stands := hs.after_commit _ _ _ _
  have hpc : (commitNext s h .drops (loneW h)).me.pc = s.me.pc + 8#64 := by rw [commitNext, commit_me hs]; rfl
  have hres : (commitNext s h .drops (loneW h)).cur.res = .committed := by rw [commitNext, commit_res]
  -- the family is done
  let fin (f : Family) : Family := { f with kind := .empty, st := .done, doneAt := now, id := id }
  let s5 : State := ((commitNext s h .drops (loneW h)).updMyCore fun c => { c with inlCount := s.myCore.inlCount + 1#32 }).updFam f.uid fin
  have h5 : (commitNext s h .drops (loneW h)).SameThreads s5 :=
    (State.SameThreads.updCore (f := fun c => { c with inlCount := s.myCore.inlCount + 1#32 }) (fun _ => rfl) _).trans (.of_cores rfl rfl rfl)
  have hf5 : fin f ∈ s5.fams := by
    refine State.mem_updFam (s := (commitNext s h .drops (loneW h)).updMyCore fun c => { c with inlCount := s.myCore.inlCount + 1#32 }) ?_ fin
    show f ∈ (commitNext s h .drops (loneW h)).fams
    rw [commitNext, commit_fams]
    exact hf
  let s6 : State := match rid with
    | some r => s5.dropRev f.part r
    | none => s5
  have h6 : s5.Books s6 := by
    dsimp only [s6]
    split
    · exact .dropRev _ _ _
    · exact .refl s5
  have hst6 : s6.Stands := h6.sameThreads.stands (h5.stands hc)
  have hpc6 : s6.me.pc = s.me.pc + 8#64 := by rw [h6.sameThreads.me, h5.me, hpc]
  have hres6 : s6.cur.res = .committed := by rw [h6.cur]; exact hres
  have hf6 : fin f ∈ s6.fams := h6.fams ▸ hf5
  cases det with
  | true => exact ⟨hres6, hpc6, ⟨_, hf6, rfl⟩, fun h => absurd h (by decide)⟩
  | false =>
    -- the initial values stand in their registers again, and the identifier in rd
    have hl := hst6.writeList f.desc.hsrc 0 f.init
    obtain ⟨hw, hrd, -⟩ := (hl.stands.after_updMe fun t => { t with lastInline := some f.uid }).writeMine rd id
    have hme := hl.stands.me_updMe fun t => { t with lastInline := some f.uid }
    obtain ⟨g1, hg1, e1⟩ := hl.fams.mem hf6
    obtain ⟨g2, hg2, e2⟩ := hw.fams.mem (f := g1) (by rw [State.updMe_fams]; exact hg1)
    refine ⟨?_, ?_, ⟨g2, hg2, Family.SameButOuts.trans _ _ _ e1 e2⟩, fun _ k hk => hrd k hk⟩
    · exact hw.res.trans ((congrArg Cur.res (State.updMe_cur _ _)).trans (hl.res.trans hres6))
    · have h1 := hw.me
      have h2 := hl.me
      show ((((s6.writeList f.desc.hsrc 0 f.init).updMe fun t => { t with lastInline := some f.uid }).writeMine rd id)).me.pc = _
      rw [h1, hme, h2]
      exact hpc6

end Sys2Proof.Machine
end

section
/-! SUPPORT. CREATE of a family whose members fit (R117 to R119, R133). -/

namespace Sys2Proof.Machine

/-! A core's part of an allocation. -/

/-- The core of a share and the members it has been dealt: those that live and those still to start. -/
def Share.dealt (x : Share) : Nat × Nat := (x.cid, x.live.length + x.left)

/-- Putting steps on the agenda leaves the cores, the families and the issuing bundle. -/
theorem State.foldl_atCycle_leaves {α : Type} (l : List α) (n : Nat) (e : α → Ev) (s : State) :
    (l.foldl (fun s y => s.atCycle n (e y)) s).cores = s.cores ∧ (l.foldl (fun s y => s.atCycle n (e y)) s).cur = s.cur ∧
      (l.foldl (fun s y => s.atCycle n (e y)) s).fams = s.fams := by
  induction l generalizing s with
  | nil => exact ⟨rfl, rfl, rfl⟩
  | cons y l ih => exact ih (s.atCycle n (e y))

/-- A core's part of an allocation takes the core's lowest free entry, whose generation rises, and deals a share. -/
theorem State.takeCore_leaves (s : State) (uid : Nat) (d : Desc) (x : Nat × Nat × Nat × Nat) (n : Nat) :
    let t := s.takeCore uid d x false n
    let ent := (s.core x.1).freeEnt.getD 0
    s.SameThreads t ∧ t.cur = s.cur ∧ (∀ c ≠ x.1, t.core c = s.core c) ∧
      (t.core x.1).gens = (s.core x.1).gens.set! ent ((s.core x.1).gens.toList.getD ent 0#32 + 1#32) ∧
      ∀ f ∈ s.fams, f.uid = uid →
        ∃ g ∈ t.fams, g = { f with shares := g.shares } ∧ g.shares.map Share.dealt = f.shares.map Share.dealt ++ [(x.1, x.2.2.2)] := by
  obtain ⟨cid, first, stride, count⟩ := x
  intro t ent
  let slots := (s.usable cid d).take (min (if d.block = 0 then 16 else d.block) count)
  let take (c : Core) : Core := { c with
    ents := c.ents.set! ent (some uid), gens := c.gens.set! ent (c.gens.toList.getD ent 0#32 + 1#32)
    regUse := c.regUse ++ [({ fam := uid, uid := 0, sc := d.g, vec := 0 } : RegUse)] ++
      slots.map fun k => ({ fam := uid, uid := k + 1, sc := 2 * d.s + d.l, vec := d.v } : RegUse) }
  let live := (List.range slots.length).map fun i => first + i * stride
  let share : Share :=
    { cid := cid, slots := slots, next := first + slots.length * stride, stride := stride, left := count - slots.length,
      live := live, started := 0, ended := 0 }
  let deal (f : Family) : Family := { f with shares := f.shares ++ [share] }
  obtain ⟨hcores, hcur, hfams⟩ := State.foldl_atCycle_leaves (slots.zip live) n (fun y => .memberStart cid y.1 uid y.2)
    ((s.updCore cid take).updFam uid deal)
  have hcores : t.cores = (s.updCore cid take).cores := hcores
  have hcount : share.dealt = (cid, count) := by
    have hle : slots.length ≤ count := (List.length_take_le _ _).trans (min_le_right _ _)
    simp only [Share.dealt, share, live, List.length_map, List.length_range]
    rw [Nat.add_sub_of_le hle]
  refine ⟨(State.SameThreads.updCore (f := take) (fun _ => rfl) cid).trans (.of_cores hcores (congrArg Cur.cid hcur) (congrArg Cur.slot hcur)), hcur,
    fun c hc => ?_, ?_, ?_⟩
  · rw [State.core_congr hcores]
    exact State.core_updCore_ne s cid c take hc
  · show (t.core cid).gens = _
    rw [State.core_congr hcores, State.core_updCore_self]
  · rintro f hf rfl
    refine ⟨deal f, ?_, rfl, ?_⟩
    · show deal f ∈ t.fams
      exact hfams ▸ State.mem_updFam (s := s.updCore cid take) hf deal
    · rw [List.map_append, ← hcount]
      rfl

/-- The cores' parts of an allocation: each core deals its share. -/
theorem State.takeCores_leaves (uid : Nat) (d : Desc) (at_ : Nat → Nat) (ds : List (Nat × Nat × Nat × Nat)) (s : State) :
    let t := ds.foldl (fun s x => s.takeCore uid d x false (at_ x.1)) s
    s.SameThreads t ∧ t.cur = s.cur ∧ (∀ c ∉ ds.map (·.1), t.core c = s.core c) ∧
      ∀ f ∈ s.fams, f.uid = uid → ∃ g ∈ t.fams, g = { f with shares := g.shares } ∧
        g.shares.map Share.dealt = f.shares.map Share.dealt ++ ds.map fun x => (x.1, x.2.2.2) := by
  induction ds generalizing s with
  | nil => exact ⟨.refl s, rfl, fun _ _ => rfl, fun f hf _ => ⟨f, hf, rfl, by simp⟩⟩
  | cons x ds ih =>
    obtain ⟨hth, hcur, hcore, -, hf⟩ := State.takeCore_leaves s uid d x (at_ x.1)
    obtain ⟨ith, icur, icore, ifam⟩ := ih (s.takeCore uid d x false (at_ x.1))
    refine ⟨hth.trans ith, icur.trans hcur, fun c hc => ?_, fun f hfm hu => ?_⟩
    · rw [List.map_cons, List.mem_cons, not_or] at hc
      exact (icore c hc.2).trans (hcore c hc.1)
    · obtain ⟨g, hg, eg, hgs⟩ := hf f hfm hu
      obtain ⟨k, hk, ek, hks⟩ := ifam g hg (by rw [eg]; exact hu)
      refine ⟨k, hk, by rw [ek, eg], ?_⟩
      rw [hks, hgs, List.append_assoc]
      rfl

/-- The lowest free entry is one of the table's. -/
theorem Core.freeEnt_lt {c : Core} {n : Nat} (h : c.freeEnt = some n) : n < 8 := List.mem_range.1 (List.mem_of_find?_eq_some h)

/-- An allocation on distinct cores: the family runs, with a share on each core, and its identifier is of its first core's lowest free
entry. -/
theorem State.allocate_leaves {s : State} {f : Family} (hf : f ∈ s.fams) (d : Desc) {x : Nat × Nat × Nat × Nat}
    {ds : List (Nat × Nat × Nat × Nat)} (hd : ((x :: ds).map (·.1)).Nodup) {ent : Nat} (he : (s.core x.1).freeEnt = some ent) :
    let t := s.allocate f.uid d (x :: ds)
    let id := famId ((s.core x.1).gens.toList.getD ent 0#32 + 1#32) ent x.1
    s.SameThreads t ∧ t.cur = s.cur ∧ (t.fam f.uid).map (·.id) = some id ∧
      ∃ g ∈ t.fams, g = { f with st := .running, cid := x.1, ent := ent, id := id, shares := g.shares } ∧
        g.shares.map Share.dealt = f.shares.map Share.dealt ++ (x :: ds).map fun x => (x.1, x.2.2.2) := by
  intro t id
  rw [List.map_cons, List.nodup_cons] at hd
  let at_ (cid : Nat) : Nat := ((s.fam f.uid).map fun f => s.startAt f cid).getD s.now
  let s1 : State := s.takeCore f.uid d x false (at_ x.1)
  let s2 : State := ds.foldl (fun s x => s.takeCore f.uid d x false (at_ x.1)) s1
  obtain ⟨-, -, -, hgens, -⟩ := State.takeCore_leaves s f.uid d x (at_ x.1)
  obtain ⟨-, -, hcore, -⟩ := State.takeCores_leaves f.uid d at_ ds s1
  obtain ⟨hth, hcur, -, hfam⟩ := State.takeCores_leaves f.uid d at_ (x :: ds) s
  -- the generation of the entry
  have hgen : (s2.core x.1).gens.toList.getD ent 0#32 = (s.core x.1).gens.toList.getD ent 0#32 + 1#32 := by
    have hlt := Core.freeEnt_lt he
    rw [hcore x.1 hd.1, hgens, he]
    simp [Vector.toList_set!, hlt]
  let run (g : Family) : Family := { g with st := .running, cid := x.1, ent := ent, id := id }
  have ht : t = s2.updFam f.uid run := by
    show s2.updFam f.uid (fun g => { g with
      st := .running, cid := x.1, ent := (s.core x.1).freeEnt.getD 0,
      id := famId ((s2.core x.1).gens.toList.getD ((s.core x.1).freeEnt.getD 0) 0#32) ((s.core x.1).freeEnt.getD 0) x.1 }) = _
    rw [he, Option.getD_some, hgen]
  obtain ⟨g, hg, eg, hgs⟩ := hfam f hf rfl
  have hu : g.uid = f.uid := by rw [eg]
  have hg : g ∈ s2.fams := hg
  rw [ht, ← hu]
  refine ⟨hth.trans (.of_cores rfl rfl rfl), hcur, ?_, run g, State.mem_updFam hg run, ?_, hgs⟩
  · obtain ⟨y, hy⟩ := State.fam_updFam_of_mem hg (g := run) fun _ => rfl
    rw [hy]
    rfl
  · rw [eg]

end Sys2Proof.Machine
end

section
/-! CREATE of a family whose members fit, and of every form (R117 to R119, R133, R134). -/

namespace Sys2Proof.Machine

/-! The creator's side. -/

/-- The registers of the issuing thread from n on, one for each number of l, await their values. -/
def State.awaitList (s : State) (n : Nat) (l : List Nat) : State := l.foldl (fun s j => s.awaitS (.s (BitVec.ofNat 4 (n + j)))) s

theorem State.Stands.awaitList {s : State} (hs : s.Stands) (n : Nat) (l : List Nat) :
    (s.awaitList n l).Stands ∧ (s.awaitList n l).cur = s.cur ∧ (s.awaitList n l).fams = s.fams ∧
      (s.awaitList n l).meWho = s.meWho ∧ (s.awaitList n l).me.pc = s.me.pc := by
  induction l generalizing s with
  | nil => exact ⟨hs, rfl, rfl, rfl, rfl⟩
  | cons j l ih =>
    let r : SReg := .s (BitVec.ofNat 4 (n + j))
    obtain ⟨hst, hcur, hfams, hwho, hpc⟩ := ih (hs.after_awaitS r)
    exact ⟨hst, hcur.trans (s.awaitS_cur r), hfams.trans (s.awaitS_fams r), hwho.trans (hs.awaitS_meWho r), hpc.trans (hs.awaitS_pc r)⟩

/-- The creator of a family goes on as it was, with the registers of the finals awaiting their values, and without DET the family is
among those that it has to synchronise with. -/
theorem State.Stands.created {s : State} (hs : s.Stands) (f : Family) :
    let t := s.created f
    t.Stands ∧ t.cur = s.cur ∧ t.fams = s.fams ∧ t.meWho = s.meWho ∧ t.me.pc = s.me.pc ∧ (f.det = false → f.uid ∈ t.me.kids) := by
  obtain ⟨hst, hcur, hfams, hwho, hpc⟩ := hs.awaitList f.desc.hsrc (List.range f.desc.s)
  intro t
  have ht : t = if f.det then s.awaitList f.desc.hsrc (List.range f.desc.s) else
      (s.awaitList f.desc.hsrc (List.range f.desc.s)).updMe fun t => { t with kids := t.kids ++ [f.uid] } := rfl
  by_cases hdet : f.det = true
  · rw [if_pos hdet] at ht
    rw [ht]
    exact ⟨hst, hcur, hfams, hwho, hpc, fun h => absurd (hdet.symm.trans h) (by decide)⟩
  · rw [if_neg hdet] at ht
    rw [ht]
    have hme := hst.me_updMe fun t => { t with kids := t.kids ++ [f.uid] }
    exact ⟨hst.after_updMe _, (State.updMe_cur _ _).trans hcur, (State.updMe_fams _ _).trans hfams,
      (State.meWho_congr (by rw [State.updMe_cur]) (by rw [State.updMe_cur]) (by rw [hme])).trans hwho, by rw [hme]; exact hpc,
      fun _ => by rw [hme]; exact List.mem_append_right _ (List.mem_singleton_self _)⟩

/-- The CREATE of a family whose members fit commits, with the family running on the cores that it was dealt to; without DET its
identifier is on its way to rd. -/
theorem State.Stands.createRunning {s : State} (hs : s.Stands) (h : Hdr) (rd : SReg) {f : Family} (hf : f ∈ s.fams)
    {x : Nat × Nat × Nat × Nat} {ds : List (Nat × Nat × Nat × Nat)} (hd : ((x :: ds).map (·.1)).Nodup) {ent : Nat}
    (he : (s.core x.1).freeEnt = some ent) :
    let t := s.createRunning h rd f (x :: ds) f.det
    let id := famId ((s.core x.1).gens.toList.getD ent 0#32 + 1#32) ent x.1
    t.cur.res = .committed ∧ t.me.pc = s.me.pc + 8#64 ∧ (f.det = false → f.uid ∈ t.me.kids) ∧
      (∃ g ∈ t.fams, g = { f with st := .running, cid := x.1, ent := ent, id := id, shares := g.shares } ∧
        g.shares.map Share.dealt = f.shares.map Share.dealt ++ (x :: ds).map fun x => (x.1, x.2.2.2)) ∧
      (f.det = false → ∀ k, rd = .s k → (∃ q ∈ t.reqs, q.kind = .value id ∧ q.res = id ∧ q.dst = .s k ∧ q.who = s.meWho) ∧
        (t.me.regs.s.get k.toFin).pres = false ∧ (t.me.regs.s.get k.toFin).pend = true) := by
  intro t id
  obtain ⟨hth, hcur, hid, hfam⟩ := State.allocate_leaves hf f.desc hd he
  have hst := hth.stands hs
  let c : State := commitNext (s.allocate f.uid f.desc (x :: ds)) h .drops (loneW h)
  have hc : c.Stands := hst.after_commit _ _ _ _
  obtain ⟨h5, hcur5, hfams5, hwho5, hpc5, hkids5⟩ := hc.created f
  have hfams : (c.created f).fams = (s.allocate f.uid f.desc (x :: ds)).fams := hfams5.trans (commit_fams _ _ _ _ _)
  have hres : (c.created f).cur.res = .committed := by
    rw [hcur5]
    show (commit _ _ _ _ _).cur.res = _
    rw [commit_res]
  have hpc : (c.created f).me.pc = s.me.pc + 8#64 := by
    rw [hpc5]
    show (commit _ _ _ _ _).me.pc = _
    rw [commit_me hst, hth.me]
    rfl
  have hwho : (c.created f).meWho = s.meWho := hwho5.trans ((hst.meWho_commit _ _ _ _).trans hth.meWho)
  have hid5 : (((c.created f).fam f.uid).map (·.id)).getD 0#64 = id := by
    unfold State.fam
    rw [hfams]
    exact congrArg (Option.getD · 0#64) hid
  have ht : t = if f.det then c.created f else (c.created f).valueLater rd id 8 := by
    rw [← hid5]
    rfl
  clear_value t
  by_cases hdet : f.det = true
  · rw [if_pos hdet] at ht
    subst ht
    exact ⟨hres, hpc, hkids5, by rw [hfams]; exact hfam, fun h => absurd (hdet.symm.trans h) (by decide)⟩
  · rw [if_neg hdet] at ht
    subst ht
    have hv := State.sameThreads_valueLater (c.created f) rd id 8
    refine ⟨by rw [State.valueLater_cur]; exact hres, by rw [hv.me, h5.awaitS_pc, hpc], fun hd => ?_,
      by rw [State.valueLater_fams, hfams]; exact hfam, fun _ k hk => ⟨?_, ?_⟩⟩
    · rw [hv.me]
      cases rd with
      | s n =>
        rw [h5.me_awaitS, Thread.coverS_eq]
        exact hkids5 hd
      | _ => exact hkids5 hd
    · subst hk
      rw [← hwho]
      exact h5.valueLater_req k id 8
    · rw [hv.me]
      exact h5.awaitS_pending hk

/-! The cores that a family is dealt to (R115, R117). -/

theorem placeCores_nodup (first count ci : Nat) : (placeCores first count ci).Nodup :=
  List.nodup_range.map (fun _ _ h => Nat.add_left_cancel h)

theorem placeCores_ne_nil (first count ci : Nat) : placeCores first count ci ≠ [] := by
  have hlen : (placeCores first count ci).length = if count = 0 then 1 else count := by simp [placeCores]
  refine List.ne_nil_of_length_pos (hlen ▸ ?_)
  split
  · exact Nat.one_pos
  · next h => exact Nat.pos_of_ne_zero h

/-- Of n members the first of c cores is dealt one at least. -/
theorem dealt_zero_ne_zero {n c : Nat} (cyclic : Bool) (hn : 0 < n) (hc : 0 < c) : (dealt cyclic n c 0).2.2 ≠ 0 := by
  unfold dealt
  cases cyclic with
  | true => exact (Nat.div_pos (by omega) hc).ne'
  | false =>
    show (if 0 < n % c then n / c + 1 else n / c) ≠ 0
    split
    · exact Nat.succ_ne_zero _
    · exact (Nat.div_pos (Nat.le_of_dvd hn (Nat.dvd_of_mod_eq_zero (by omega))) hc).ne'

/-- A core has one share at most. -/
theorem deals_nodup {cores : List Nat} (h : cores.Nodup) (cyclic : Bool) (n : Nat) : ((deals cores cyclic n).map (·.1)).Nodup := by
  have hall : ((cores.zipIdx.map fun c => (c.1, dealt cyclic n cores.length c.2)).map (·.1)).Nodup := by
    rw [List.map_map, show ((·.1) ∘ fun c : Nat × Nat => (c.1, dealt cyclic n cores.length c.2)) = Prod.fst from rfl,
      List.zipIdx_map_fst]
    exact h
  exact hall.sublist (List.filter_sublist.map _)

/-- A family with members is dealt to a core. -/
theorem deals_ne_nil {cores : List Nat} (h : cores ≠ []) (cyclic : Bool) {n : Nat} (hn : 0 < n) : deals cores cyclic n ≠ [] := by
  cases cores with
  | nil => exact absurd rfl h
  | cons c rest =>
    refine List.ne_nil_of_mem (a := (c, dealt cyclic n (c :: rest).length 0)) (List.mem_filter.2 ⟨?_, ?_⟩)
    · exact List.mem_map.2 ⟨(c, 0), by simp [List.zipIdx_cons], rfl⟩
    · exact bne_iff_ne.2 (dealt_zero_ne_zero cyclic hn (by simp))

/-- What fits in s fits in a state that only L1, the L1 TLBs and memory have changed in. -/
theorem State.Calm.fits {s t : State} (h : s.Calm t) (d : Desc) (ds : List (Nat × Nat × Nat × Nat)) : t.fits d ds = s.fits d ds := by
  have hfree (c : Nat) : t.freeSlots c = s.freeSlots c := by
    unfold State.freeSlots
    rw [h.core c, h.fams]
    simp only [h.part]
    rfl
  have huse (c : Nat) : t.usable c d = s.usable c d := by
    unfold State.usable
    rw [hfree, h.core c]
    rfl
  unfold State.fits
  refine congrArg ds.all (funext fun x => ?_)
  rw [huse, h.core x.1]
  rfl

end Sys2Proof.Machine
end

section
/-! SUPPORT. CREATE in every form (R114 to R119, R133, R134). -/

namespace Sys2Proof.Machine

/-- Settles O31: the family that CREATE records runs on the cores that it is dealt to, or is done where it has no member. -/
theorem createCompletes : Obligations.CreateCompletes := by
  unfold Obligations.CreateCompletes
  intro h rd ra rb s s1 s2 bs bl lim hs hb hw hh ha hbs w d0 d p reads hlim hres hsh hun hsp ok
  have hc2 : s.Calm s2 := by
    rcases hlim with ⟨-, -, rfl⟩ | ⟨-, hr, -⟩
    · exact calm_readNow hbs
    · exact (calm_readNow hbs).trans (calm_readNow hr)
  have hok : ∀ rev det ctr i,
      gateC { Uses.none with sr := [ra, rb] ++ (if det then [rd] else []), sw := if det then [] else [rd] } s = .ok () →
      (det = false → ctr = none) →
      (det = true → ∃ x s3, access s2 (s.regVal rd) 8 8 { needAtomic with tag := true } true = .ok (x, s3) ∧ ctr = some (x.va, x.pa)) →
      exec i s = .next (run (createOp h rd ra rb rev det s)) → ok rev det ctr i := by
    intro rev det ctr i hg hc0 hc1 hi hbad hplace hrev hfit
    obtain ⟨s2', rid, hc, heq⟩ := createOp_eq hw hg hh ha hbs hlim hres hsh hun hsp hbad hplace hrev ctr hc0 hc1
      (by rw [hc2.fits]; exact hfit)
    have hcalm := hc2.trans hc
    obtain ⟨hcores, hcur, hf⟩ := s2'.recorded_leaves d p det rid ctr
    obtain ⟨hpu, hgl, hin⟩ := hcalm.sameThreads.creates d p det rid ctr
    have hth : s.SameThreads (s2'.recorded d p det rid ctr) :=
      hcalm.sameThreads.trans (.of_cores hcores (congrArg Cur.cid hcur) (congrArg Cur.slot hcur))
    have hcore (c : Nat) : (s2'.recorded d p det rid ctr).core c = { s.core c with l1 := (s2'.core c).l1, tlb1 := (s2'.core c).tlb1 } :=
      (State.core_congr hcores c).trans (hcalm.core c)
    rw [hi, heq]
    by_cases hn : d.count = 0
    · obtain ⟨hcom, hpc, ⟨g, hgm, eg⟩, hrd⟩ := (hth.stands hs).createEmpty h rd hf rid det s.cur.cid s.now
      have hid : (s2'.recorded d p det rid ctr).myCore.inlCount = s.myCore.inlCount := by
        unfold State.myCore
        rw [hth.cid, hcore]
      rw [hid] at eg hrd
      refine ⟨_, g, congrArg (Host.Outcome.next ∘ run ∘ Except.ok) (if_pos hn), hcom, by rw [← hth.me]; exact hpc, hgm, ?_⟩
      refine ⟨by rw [eg]; rfl, by rw [eg]; rfl, by rw [eg]; rfl, by rw [eg]; exact hpu, by rw [eg]; rfl, by rw [eg]; exact hgl,
        by rw [eg]; exact hin, fun _ => ⟨by rw [eg], by rw [eg], fun hdet k hk => ?_⟩, fun h0 => absurd hn h0.ne'⟩
      exact ⟨(congrArg SCell.val (hrd hdet k hk)).trans (by rw [eg]; rfl), congrArg SCell.pres (hrd hdet k hk)⟩
    · have hpos := Nat.pos_of_ne_zero hn
      obtain ⟨x, ds, hds⟩ : ∃ x ds, deals p.cores p.cyclic d.count = x :: ds :=
        List.exists_cons_of_ne_nil (deals_ne_nil (placeCores_ne_nil _ _ _) p.cyclic hpos)
      have hnodup : ((x :: ds).map (·.1)).Nodup := hds ▸ deals_nodup (placeCores_nodup _ _ _) p.cyclic d.count
      have hent : (s.core x.1).freeEnt.isSome := by
        have hall := List.all_eq_true.1 (hfit.resolve_left hn) x (by rw [hds]; exact List.mem_cons_self)
        exact (Bool.and_eq_true_iff.1 hall).1
      obtain ⟨ent, hent⟩ := Option.isSome_iff_exists.1 hent
      obtain ⟨hcom, hpc, hkids, ⟨g, hgm, eg, hsh⟩, hrd⟩ := (hth.stands hs).createRunning h rd hf hnodup (ent := ent)
        (by rw [hcore]; exact hent)
      rw [hcore] at eg hrd
      rw [hth.meWho] at hrd
      refine ⟨_, g, congrArg (Host.Outcome.next ∘ run ∘ Except.ok) (if_neg hn), ?_⟩
      rw [hds]
      refine ⟨hcom, by rw [← hth.me]; exact hpc, hgm, by rw [eg]; rfl, by rw [eg]; rfl, by rw [eg]; rfl, by rw [eg]; exact hpu,
        by rw [eg]; rfl, by rw [eg]; exact hgl, by rw [eg]; exact hin, fun h0 => absurd h0 hn, fun _ => ?_⟩
      have hcid : g.cid = x.1 := by rw [eg]
      have hge : g.ent = ent := by rw [eg]
      rw [hcid, hge]
      exact ⟨by rw [eg], fun hdet => by rw [eg]; exact hkids hdet, rfl, hent, by rw [eg], fun hdet k hk => by rw [eg]; exact hrd hdet k hk,
        hsh⟩
  exact ⟨fun hu => ⟨hok false false none _ (gateC_usable hu hb) (fun _ => rfl) (fun h => absurd h (by decide)) rfl,
      hok true false none _ (gateC_usable hu hb) (fun _ => rfl) (fun h => absurd h (by decide)) rfl⟩,
    fun x s3 hu hx => hok false true _ _ (gateC_usable hu hb) (fun h => absurd h (by decide)) (fun _ => ⟨x, s3, hx, rfl⟩) rfl⟩

end Sys2Proof.Machine
end

section
/-! SUPPORT. The fields of a word, and what each field reader of the decoder accepts (R13, R41, R42, R50 to R60). -/

namespace Sys2Proof

/-! Refusals and results. -/

@[simp] theorem except_ok_bind {ε α β : Type} (a : α) (f : α → Except ε β) : (Except.ok a >>= f) = f a := rfl

@[simp] theorem namedC_some {α : Type} (a : α) : namedC (some a) = .ok a := rfl

@[simp] theorem except_bind_eq_ok_iff {ε α β : Type} {x : Except ε α} {f : α → Except ε β} {b : β} :
    (x >>= f) = .ok b ↔ ∃ a, x = .ok a ∧ f a = .ok b := by
  cases x <;> simp [bind, Except.bind]

@[simp] theorem except_pure_eq_ok_iff {ε α : Type} {a b : α} : (pure a : Except ε α) = .ok b ↔ b = a := by
  simp [pure, Except.pure, eq_comm]

@[simp] theorem except_map_eq_ok_iff {ε α β : Type} {x : Except ε α} {f : α → β} {b : β} :
    f <$> x = .ok b ↔ ∃ a, x = .ok a ∧ b = f a := by
  cases x <;> simp [Functor.map, Except.map, eq_comm]

@[simp] theorem zeroC_eq_ok_iff {w : Nat} {b : Bool} {u : Unit} : zeroC w b = .ok u ↔ b = false := by
  cases b <;> simp [zeroC]

@[simp] theorem zeroA_eq_ok_iff {b : Bool} {u : Unit} : zeroA b = .ok u ↔ b = false := by
  cases b <;> simp [zeroA]

@[simp] theorem namedC_eq_ok_iff {α : Type} {o : Option α} {a : α} : namedC o = .ok a ↔ o = some a := by
  cases o <;> simp [namedC]

/-! Codes of fields: each names at most one value. -/

theorem bitVec_ofNat_eq_iff {n m : Nat} (h : m < 2 ^ n) {x : BitVec n} : BitVec.ofNat n m = x ↔ m = x.toNat := by
  rw [← BitVec.toNat_inj, BitVec.toNat_ofNat, Nat.mod_eq_of_lt h]

@[simp] theorem SReg.ofCode_eq_some_iff {n : Nat} {r : SReg} : SReg.ofCode n = some r ↔ n = r.code := by
  constructor
  · intro h
    unfold SReg.ofCode at h
    repeat' split at h
    all_goals cases h
    all_goals simp only [SReg.code, BitVec.toNat_ofNat]
    all_goals omega
  · rintro rfl
    cases r with
    | s n => simp only [SReg.code, SReg.ofCode, if_pos (show n.toNat < 16 from n.isLt), BitVec.ofNat_toNat, BitVec.setWidth_eq]
    | d n =>
      simp only [SReg.code, SReg.ofCode, if_neg (show ¬16 + n.toNat < 16 by omega), if_pos (show 16 + n.toNat < 24 by omega),
        Nat.add_sub_cancel_left, BitVec.ofNat_toNat, BitVec.setWidth_eq]
    | zr | ix | ci | fd | ck => rfl

@[simp] theorem Scope.ofCode_eq_some_iff {n : Nat} {x : Scope} : Scope.ofCode n = some x ↔ n = x.code := by
  refine ⟨fun h => ?_, by rintro rfl; cases x <;> rfl⟩
  unfold Scope.ofCode at h
  repeat' split at h
  all_goals cases h
  all_goals assumption

@[simp] theorem CvtCode.ofCode_eq_some_iff {n : Nat} {x : CvtCode} : CvtCode.ofCode n = some x ↔ n = x.code := by
  refine ⟨fun h => ?_, by rintro rfl; cases x <;> rfl⟩
  obtain hn | hn := Nat.lt_or_ge n 15
  · interval_cases n <;> cases h <;> rfl
  · unfold CvtCode.ofCode at h
    iterate 15 rw [if_neg (by omega)] at h
    cases h

@[simp] theorem GSize.ofCode_eq_some_iff {n : Nat} {x : GSize} : GSize.ofCode n = some x ↔ n = x.code := by
  refine ⟨fun h => ?_, by rintro rfl; cases x <;> rfl⟩
  unfold GSize.ofCode at h
  repeat' split at h
  all_goals cases h
  all_goals assumption

@[simp] theorem MxDest.ofCode_eq_some_iff {n : Nat} {x : MxDest} : MxDest.ofCode n = some x ↔ n = x.code := by
  refine ⟨fun h => ?_, by rintro rfl; cases x <;> rfl⟩
  unfold MxDest.ofCode at h
  repeat' split at h
  all_goals cases h
  all_goals assumption

@[simp] theorem MxElem.ofCode_eq_some_iff {n : Nat} {x : MxElem} : MxElem.ofCode n = some x ↔ n = x.code := by
  refine ⟨fun h => ?_, by rintro rfl; cases x <;> rfl⟩
  unfold MxElem.ofCode at h
  repeat' split at h
  all_goals cases h
  all_goals assumption

@[simp] theorem VTy.ofCode_code (t : VTy) : VTy.ofCode t.code = t := by cases t <;> rfl

theorem VTy.code_ofCode {n : Nat} (h : n < 8) : (VTy.ofCode n).code = n := by
  interval_cases n <;> rfl

/-! Readers of fields. -/

@[simp] theorem regC_eq_ok_iff {w n : Nat} {r : SReg} : regC w n = .ok r ↔ n = r.code := by
  rw [← SReg.ofCode_eq_some_iff]
  unfold regC
  cases SReg.ofCode n <;> simp

@[simp] theorem regA_eq_ok_iff {n : Nat} {r : SReg} : regA n = .ok r ↔ n = r.code := by
  rw [← SReg.ofCode_eq_some_iff]
  unfold regA
  cases SReg.ofCode n <;> simp

@[simp] theorem scopeC_eq_ok_iff {w n : Nat} {x : Scope} : scopeC w n = .ok x ↔ n = x.code := by
  rw [← Scope.ofCode_eq_some_iff]
  unfold scopeC
  cases Scope.ofCode n <;> simp

@[simp] theorem vecC_eq_ok_iff {w n : Nat} {v : VReg} : vecC w n = .ok v ↔ n = v.toNat := by
  unfold vecC
  split
  · rw [Except.ok.injEq, bitVec_ofNat_eq_iff ‹_›]
  · have := v.isLt; simp; omega

@[simp] theorem vecA_eq_ok_iff {n : Nat} {v : VReg} : vecA n = .ok v ↔ n = v.toNat := by
  unfold vecA
  split
  · rw [Except.ok.injEq, bitVec_ofNat_eq_iff ‹_›]
  · have := v.isLt; simp; omega

@[simp] theorem maskA_eq_ok_iff {n : Nat} {m : MReg} : maskA n = .ok m ↔ n = 16 + m.toNat := by
  have := m.isLt
  unfold maskA
  split
  · rw [Except.ok.injEq, bitVec_ofNat_eq_iff (by omega)]; omega
  · simp; omega

/-! Fields of a word. -/

theorem fld_lt (w lo n : Nat) : fld w lo n < 2 ^ n := Nat.mod_lt _ (Nat.two_pow_pos n)

@[simp] theorem toNat_ofNat_fld (w lo n : Nat) : (BitVec.ofNat n (fld w lo n)).toNat = fld w lo n := by
  rw [BitVec.toNat_ofNat, Nat.mod_eq_of_lt (fld_lt w lo n)]

theorem ofNat_fld_eq {w lo n : Nat} {x : BitVec n} (h : fld w lo n = x.toNat) : BitVec.ofNat n (fld w lo n) = x := by
  rw [h, BitVec.ofNat_toNat, BitVec.setWidth_eq]

@[simp] theorem bit_fld (w lo : Nat) : bit (fld w lo 1 == 1) = fld w lo 1 := by
  have := fld_lt w lo 1
  unfold bit
  split <;> (simp_all; try omega)

theorem fld_eq_bit_iff {w lo : Nat} {b : Bool} : fld w lo 1 = bit b ↔ (fld w lo 1 == 1) = b := by
  have := fld_lt w lo 1
  cases b <;> simp [bit]; omega

/-- Two adjacent fields are one. -/
theorem fld_append (w lo n m : Nat) : fld w lo (n + m) = fld w (lo + n) m * 2 ^ n + fld w lo n := by
  unfold fld
  rw [pow_add, pow_add, Nat.mod_mul, Nat.div_div_eq_div_mul]
  ring

end Sys2Proof
end

section
/-! SUPPORT. The A-slot: what each form of the decoder accepts, and that it is the encoder's form (R51 to R54, R59). -/

namespace Sys2Proof

/-- The six fields of an A-slot word (R51). -/
structure AFields (w aop rd ra rb rc md : Nat) : Prop where
  aop : fld w 26 6 = aop
  rd : fld w 21 5 = rd
  ra : fld w 16 5 = ra
  rb : fld w 11 5 = rb
  rc : fld w 6 5 = rc
  md : fld w 0 6 = md

theorem AFields.aWord_eq {w aop rd ra rb rc md : Nat} (h : AFields w aop rd ra rb rc md) (hw : w < 2 ^ 32) :
    aWord aop rd ra rb rc md = w := by
  obtain ⟨rfl, rfl, rfl, rfl, rfl, rfl⟩ := h
  unfold aWord fld
  omega

theorem aFields_aWord {aop rd ra rb rc md : Nat} (h0 : aop < 64) (h1 : rd < 32) (h2 : ra < 32) (h3 : rb < 32) (h4 : rc < 32)
    (h5 : md < 64) : AFields (aWord aop rd ra rb rc md) aop rd ra rb rc md := by
  constructor <;> (unfold aWord fld; omega)

/-! Operands and modifiers. -/

theorem opnd2_eq_ok_iff {w : Nat} {o : Opnd2} : opnd2 w = .ok o ↔ fld w 11 5 = o.rb ∧ fld w 0 6 = o.md := by
  have hm : fld w 0 6 = fld w 5 1 * 32 + fld w 0 5 := fld_append w 0 5 1
  have hm' : fld w 0 5 = fld w 1 4 * 2 + fld w 0 1 := fld_append w 0 1 4
  have hrb := fld_lt w 11 5
  have hlo := fld_lt w 0 5
  have h5 := fld_lt w 5 1
  have h1 := fld_lt w 1 4
  have h0 := fld_lt w 0 1
  unfold opnd2
  split
  · cases o with
    | reg rb b => have := bit_lt b; simp only [Opnd2.md]; simp; omega
    | imm k =>
      rw [Except.ok.injEq, Opnd2.imm.injEq, bitVec_ofNat_eq_iff (by omega)]
      simp only [Opnd2.rb, Opnd2.md]
      omega
  · simp only [except_bind_eq_ok_iff, zeroA_eq_ok_iff, regA_eq_ok_iff, except_pure_eq_ok_iff, bne_eq_false_iff_eq, exists_const]
    cases o with
    | reg rb b =>
      simp only [Opnd2.reg.injEq, Opnd2.rb, Opnd2.md, eq_comm (b := (fld w 0 1 == 1)), ← fld_eq_bit_iff]
      have := bit_lt b
      constructor
      · rintro ⟨hz, r, hr, rfl, hb⟩; exact ⟨hr, by omega⟩
      · rintro ⟨hr, hb⟩; exact ⟨by omega, rb, hr, rfl, by omega⟩
    | imm k => simp only [Opnd2.md]; simp; omega

theorem frnd_eq_iff {w : Nat} {r : FRnd} : frnd w = r ↔ fld w 0 3 = r.md := by
  obtain ⟨n, rm⟩ := r
  have h1 : fld w 0 3 = fld w 2 1 * 4 + fld w 0 2 := fld_append w 0 2 1
  have h2 := fld_lt w 0 2
  have := bit_lt n
  simp only [frnd, FRnd.md, FRnd.mk.injEq, ← fld_eq_bit_iff, bitVec_ofNat_eq_iff h2]
  omega

theorem vmod_eq_iff {w : Nat} {m : VMod} : vmod w = m ↔ fld w 0 5 = m.md := by
  obtain ⟨msk, ty⟩ := m
  have h1 : fld w 0 5 = fld w 3 2 * 8 + fld w 0 3 := fld_append w 0 3 2
  have h2 := fld_lt w 3 2
  have h3 := fld_lt w 0 3
  have h4 := ty.code_lt
  have ht : VTy.ofCode (fld w 0 3) = ty ↔ fld w 0 3 = ty.code :=
    ⟨fun h => by rw [← h, VTy.code_ofCode h3], fun h => by rw [h, VTy.ofCode_code]⟩
  simp only [vmod, VMod.md, VMod.mk.injEq, ht, bitVec_ofNat_eq_iff h2]
  omega

theorem vsrc_eq_ok_iff {w : Nat} {b : VSrc} : vsrc w = .ok b ↔ fld w 11 5 = b.rb ∧ fld w 5 1 * 32 = b.s := by
  have h5 := fld_lt w 5 1
  unfold vsrc
  split
  · simp only [except_bind_eq_ok_iff, regA_eq_ok_iff, except_pure_eq_ok_iff]
    cases b <;> simp [VSrc.rb, VSrc.s] <;> omega
  · simp only [except_bind_eq_ok_iff, vecA_eq_ok_iff, except_pure_eq_ok_iff]
    cases b <;> simp [VSrc.rb, VSrc.s] <;> omega

end Sys2Proof
end

section
/-! SUPPORT. The forms of the A-slot: each accepts just the words that the encoder writes for it (R51 to R54, R59). -/

namespace Sys2Proof

/-! The modifier field md. -/

theorem opnd2_reserved {w : Nat} {o : Opnd2} (h : opnd2 w = .ok o) : (fld w 5 1 = 0 && fld w 1 4 != 0) = false := by
  unfold opnd2 at h
  split at h
  · simp_all
  · simp only [except_bind_eq_ok_iff, zeroA_eq_ok_iff] at h
    obtain ⟨-, hz, -⟩ := h
    simp [hz]

/-- The reserved bits of a unary form are zero where the word is that of an operand (R62, R158). -/
theorem unary_reserved {w : Nat} {u : UOpnd} (hb : fld w 11 5 = u.rb) (hm : fld w 0 6 = u.md) :
    (fld w 5 1 = 0 && (fld w 1 4 != 0 || fld w 11 5 != 0)) = false := by
  have h1 : fld w 0 6 = fld w 5 1 * 32 + fld w 0 5 := fld_append w 0 5 1
  have h2 : fld w 0 5 = fld w 1 4 * 2 + fld w 0 1 := fld_append w 0 1 4
  have h3 := fld_lt w 0 5
  cases u with
  | std b =>
    have := bit_lt b
    simp only [UOpnd.rb, UOpnd.md] at hb hm
    simp
    omega
  | imm k => simp only [UOpnd.md] at hm; simp; omega

theorem unaryOperand_iff {w : Nat} (hz : (fld w 5 1 = 0 && (fld w 1 4 != 0 || fld w 11 5 != 0)) = false) {i : Instr}
    {mk : UOpnd → Instr} :
    (if fld w 5 1 = 1 then pure (mk (.imm (BitVec.ofNat 10 (fld w 11 5 * 32 + fld w 0 5))))
      else pure (mk (.std (fld w 0 1 == 1))) : Except DecErr Instr) = .ok i ↔
      ∃ u, i = mk u ∧ fld w 11 5 = u.rb ∧ fld w 0 6 = u.md := by
  have h1 : fld w 0 6 = fld w 5 1 * 32 + fld w 0 5 := fld_append w 0 5 1
  have h2 : fld w 0 5 = fld w 1 4 * 2 + fld w 0 1 := fld_append w 0 1 4
  have h3 := fld_lt w 0 5
  have h4 := fld_lt w 11 5
  have h5 := fld_lt w 5 1
  split
  · rw [except_pure_eq_ok_iff]
    constructor
    · rintro rfl
      refine ⟨_, rfl, ?_⟩
      simp only [UOpnd.rb, UOpnd.md, BitVec.toNat_ofNat]
      omega
    · rintro ⟨u, rfl, hb, hm⟩
      cases u with
      | std b => have := bit_lt b; simp only [UOpnd.md] at hm; omega
      | imm k =>
        simp only [UOpnd.rb, UOpnd.md] at hb hm
        rw [(bitVec_ofNat_eq_iff (x := k) (by omega)).2 (by omega)]
  · have hz' : fld w 1 4 = 0 ∧ fld w 11 5 = 0 := by simp at hz; omega
    rw [except_pure_eq_ok_iff]
    constructor
    · rintro rfl
      refine ⟨_, rfl, hz'.2, ?_⟩
      simp only [UOpnd.md, bit_fld]
      omega
    · rintro ⟨u, rfl, hb, hm⟩
      cases u with
      | std b => rw [fld_eq_bit_iff.1 (show fld w 0 1 = bit b by simp only [UOpnd.md] at hm; omega)]
      | imm k => simp only [UOpnd.md] at hm; omega

theorem md_frnd_iff {w : Nat} {r : FRnd} : fld w 0 6 = r.md ↔ fld w 3 3 = 0 ∧ frnd w = r := by
  have h : fld w 0 6 = fld w 3 3 * 8 + fld w 0 3 := fld_append w 0 3 3
  have := fld_lt w 0 3
  have := r.md_lt
  rw [frnd_eq_iff]
  omega

theorem md_wide_frnd_iff {w : Nat} {b : Bool} {r : FRnd} :
    fld w 0 6 = bit b * 8 + r.md ↔ fld w 4 2 = 0 ∧ (fld w 3 1 == 1) = b ∧ frnd w = r := by
  have h : fld w 0 6 = fld w 3 3 * 8 + fld w 0 3 := fld_append w 0 3 3
  have h' : fld w 3 3 = fld w 4 2 * 2 + fld w 3 1 := fld_append w 3 1 2
  have := fld_lt w 0 3
  have := fld_lt w 3 1
  have := r.md_lt
  have := bit_lt b
  rw [frnd_eq_iff, ← fld_eq_bit_iff]
  omega

theorem md_vmod_iff {w s : Nat} {m : VMod} (hs : s = 0 ∨ s = 32) :
    fld w 0 6 = s + m.md ↔ fld w 5 1 * 32 = s ∧ vmod w = m := by
  have h : fld w 0 6 = fld w 5 1 * 32 + fld w 0 5 := fld_append w 0 5 1
  have := fld_lt w 0 5
  have := m.md_lt
  rw [vmod_eq_iff]
  omega

theorem md_vsrc_iff {w : Nat} {b : VSrc} {m : VMod} : fld w 0 6 = b.s + m.md ↔ fld w 5 1 * 32 = b.s ∧ vmod w = m :=
  md_vmod_iff (by cases b <;> simp [VSrc.s])

theorem md_scalar_iff {w : Nat} {b : Bool} {m : VMod} :
    fld w 0 6 = bit b * 32 + m.md ↔ (fld w 5 1 == 1) = b ∧ vmod w = m := by
  have := bit_lt b
  rw [md_vmod_iff (by omega), ← fld_eq_bit_iff]
  exact and_congr_left' (by omega)

theorem md_plain_vmod_iff {w : Nat} {m : VMod} : fld w 0 6 = m.md ↔ fld w 5 1 = 0 ∧ vmod w = m := by
  have h := md_vmod_iff (w := w) (m := m) (.inl rfl)
  rw [Nat.zero_add] at h
  rw [h]
  exact and_congr_left' (by omega)

theorem aFields_iff {w aop rd ra rb rc md : Nat} : AFields w aop rd ra rb rc md ↔
    fld w 26 6 = aop ∧ fld w 6 5 = rc ∧ fld w 21 5 = rd ∧ fld w 16 5 = ra ∧ fld w 11 5 = rb ∧ fld w 0 6 = md :=
  ⟨fun ⟨a, b, c, d, e, f⟩ => ⟨a, e, b, c, d, f⟩, fun ⟨a, e, b, c, d, f⟩ => ⟨a, b, c, d, e, f⟩⟩

section
variable {w aop rc : Nat} {i : Instr} (hop : fld w 26 6 = aop) (hrc : fld w 6 5 = rc)
include hop hrc

theorem decInt_eq_ok_iff {mk : SReg → SReg → Opnd2 → Instr} :
    decInt w mk = .ok i ↔ ∃ rd ra o, i = mk rd ra o ∧ AFields w aop rd.code ra.code o.rb rc o.md := by
  simp only [decInt, except_bind_eq_ok_iff, zeroA_eq_ok_iff, regA_eq_ok_iff, except_pure_eq_ok_iff]
  constructor
  · rintro ⟨-, -, rd, hd, ra, ha, o, ho, rfl⟩
    obtain ⟨hb, hm⟩ := opnd2_eq_ok_iff.1 ho
    exact ⟨rd, ra, o, rfl, hop, hd, ha, hb, hrc, hm⟩
  · rintro ⟨rd, ra, o, rfl, -, hd, ha, hb, -, hm⟩
    have ho := opnd2_eq_ok_iff.2 ⟨hb, hm⟩
    exact ⟨(), opnd2_reserved ho, rd, hd, ra, ha, o, ho, rfl⟩

theorem decIun_eq_ok_iff {mk : SReg → SReg → UOpnd → Instr} :
    decIun w mk = .ok i ↔ ∃ rd ra u, i = mk rd ra u ∧ AFields w aop rd.code ra.code u.rb rc u.md := by
  simp only [decIun, except_bind_eq_ok_iff, zeroA_eq_ok_iff, regA_eq_ok_iff]
  constructor
  · rintro ⟨-, hz, rd, hd, ra, ha, h⟩
    obtain ⟨u, rfl, hb, hm⟩ := (unaryOperand_iff hz).1 h
    exact ⟨rd, ra, u, rfl, hop, hd, ha, hb, hrc, hm⟩
  · rintro ⟨rd, ra, u, rfl, -, hd, ha, hb, -, hm⟩
    have hz := unary_reserved hb hm
    exact ⟨(), hz, rd, hd, ra, ha, (unaryOperand_iff hz).2 ⟨u, rfl, hb, hm⟩⟩

theorem decF2_eq_ok_iff {mk : SReg → SReg → SReg → FRnd → Instr} :
    decF2 w mk = .ok i ↔ ∃ rd ra rb r, i = mk rd ra rb r ∧ AFields w aop rd.code ra.code rb.code rc r.md := by
  simp only [decF2, except_bind_eq_ok_iff, except_pure_eq_ok_iff, aFields_iff, hop, hrc, zeroA_eq_ok_iff, bne_eq_false_iff_eq,
    regA_eq_ok_iff, md_frnd_iff]
  grind

theorem decF1_eq_ok_iff {mk : SReg → SReg → FRnd → Instr} :
    decF1 w mk = .ok i ↔ ∃ rd ra r, i = mk rd ra r ∧ AFields w aop rd.code ra.code 0 rc r.md := by
  simp only [decF1, except_bind_eq_ok_iff, except_pure_eq_ok_iff, aFields_iff, hop, hrc, zeroA_eq_ok_iff, Bool.or_eq_false_iff,
    bne_eq_false_iff_eq, regA_eq_ok_iff, md_frnd_iff]
  grind

theorem decFw_eq_ok_iff {mk : SReg → SReg → Bool → FRnd → Instr} :
    decFw w mk = .ok i ↔ ∃ rd ra b r, i = mk rd ra b r ∧ AFields w aop rd.code ra.code 0 rc (bit b * 8 + r.md) := by
  simp only [decFw, except_bind_eq_ok_iff, except_pure_eq_ok_iff, aFields_iff, hop, hrc, zeroA_eq_ok_iff, Bool.or_eq_false_iff,
    bne_eq_false_iff_eq, regA_eq_ok_iff, md_wide_frnd_iff]
  grind

omit hrc in
theorem decF3_eq_ok_iff {mk : SReg → SReg → SReg → SReg → FRnd → Instr} :
    decF3 w mk = .ok i ↔ ∃ rd ra rb rc r, i = mk rd ra rb rc r ∧ AFields w aop rd.code ra.code rb.code rc.code r.md := by
  simp only [decF3, except_bind_eq_ok_iff, except_pure_eq_ok_iff, aFields_iff, hop, zeroA_eq_ok_iff, bne_eq_false_iff_eq,
    regA_eq_ok_iff, md_frnd_iff]
  grind

theorem decFcmp_eq_ok_iff {mk : SReg → SReg → SReg → Instr} :
    decFcmp w mk = .ok i ↔ ∃ rd ra rb, i = mk rd ra rb ∧ AFields w aop rd.code ra.code rb.code rc 0 := by
  simp only [decFcmp, except_bind_eq_ok_iff, except_pure_eq_ok_iff, aFields_iff, hop, hrc, zeroA_eq_ok_iff, bne_eq_false_iff_eq,
    regA_eq_ok_iff]
  grind

theorem decV2_eq_ok_iff {mk : VReg → VReg → VSrc → VMod → Instr} :
    decV2 w mk = .ok i ↔ ∃ vd va b m, i = mk vd va b m ∧ AFields w aop vd.toNat va.toNat b.rb rc (b.s + m.md) := by
  simp only [decV2, except_bind_eq_ok_iff, except_pure_eq_ok_iff, aFields_iff, hop, hrc, vecA_eq_ok_iff, vsrc_eq_ok_iff, md_vsrc_iff]
  grind

omit hrc in
theorem decV3_eq_ok_iff {mk : VReg → VReg → VSrc → VReg → VMod → Instr} :
    decV3 w mk = .ok i ↔ ∃ vd va b vc m, i = mk vd va b vc m ∧ AFields w aop vd.toNat va.toNat b.rb vc.toNat (b.s + m.md) := by
  simp only [decV3, except_bind_eq_ok_iff, except_pure_eq_ok_iff, aFields_iff, hop, vecA_eq_ok_iff, vsrc_eq_ok_iff, md_vsrc_iff]
  grind

theorem decV1_eq_ok_iff {mk : VReg → VReg → Bool → VMod → Instr} :
    decV1 w mk = .ok i ↔ ∃ vd va sb m, i = mk vd va sb m ∧ AFields w aop vd.toNat va.toNat 0 rc (bit sb * 32 + m.md) := by
  simp only [decV1, except_bind_eq_ok_iff, except_pure_eq_ok_iff, aFields_iff, hop, hrc, zeroA_eq_ok_iff, bne_eq_false_iff_eq,
    vecA_eq_ok_iff, md_scalar_iff]
  grind

theorem decVred_eq_ok_iff {mk : SReg → VReg → Bool → VMod → Instr} :
    decVred w mk = .ok i ↔ ∃ rd va sb m, i = mk rd va sb m ∧ AFields w aop rd.code va.toNat 0 rc (bit sb * 32 + m.md) := by
  simp only [decVred, except_bind_eq_ok_iff, except_pure_eq_ok_iff, aFields_iff, hop, hrc, zeroA_eq_ok_iff, bne_eq_false_iff_eq,
    regA_eq_ok_iff, vecA_eq_ok_iff, md_scalar_iff]
  grind

theorem decVcmp_eq_ok_iff {mk : MReg → VReg → VSrc → VMod → Instr} :
    decVcmp w mk = .ok i ↔ ∃ md va b m, i = mk md va b m ∧ AFields w aop (16 + md.toNat) va.toNat b.rb rc (b.s + m.md) := by
  simp only [decVcmp, except_bind_eq_ok_iff, except_pure_eq_ok_iff, aFields_iff, hop, hrc, maskA_eq_ok_iff, vecA_eq_ok_iff,
    vsrc_eq_ok_iff, md_vsrc_iff]
  grind

theorem decMalu3_eq_ok_iff {mk : MReg → MReg → MReg → Instr} :
    decMalu3 w mk = .ok i ↔ ∃ md ma mb, i = mk md ma mb ∧ AFields w aop (16 + md.toNat) (16 + ma.toNat) (16 + mb.toNat) rc 0 := by
  simp only [decMalu3, except_bind_eq_ok_iff, except_pure_eq_ok_iff, aFields_iff, hop, hrc, zeroA_eq_ok_iff, bne_eq_false_iff_eq,
    maskA_eq_ok_iff]
  grind

theorem decMpop_eq_ok_iff {mk : SReg → MReg → Instr} :
    decMpop w mk = .ok i ↔ ∃ rd ma, i = mk rd ma ∧ AFields w aop rd.code (16 + ma.toNat) 0 rc 0 := by
  simp only [decMpop, except_bind_eq_ok_iff, except_pure_eq_ok_iff, aFields_iff, hop, hrc, zeroA_eq_ok_iff, Bool.or_eq_false_iff,
    bne_eq_false_iff_eq, regA_eq_ok_iff, maskA_eq_ok_iff]
  grind

end

end Sys2Proof
end

section
/-! SUPPORT. The A-slot map (R59): a word decodes to an instruction just where the encoder writes it for that instruction. -/

namespace Sys2Proof

/-! The rows with a form of their own. -/

section
variable {w : Nat} {i : Instr}

theorem decodeA_nop_iff (hop : fld w 26 6 = 0) : decodeA w = .ok i ↔ i = .nop ∧ fld w 0 26 = 0 := by
  simp only [decodeA, hop, except_bind_eq_ok_iff, except_pure_eq_ok_iff, zeroA_eq_ok_iff, bne_eq_false_iff_eq, exists_const]
  exact and_comm

theorem decodeA_bfx_iff (hop : fld w 26 6 = 6) :
    decodeA w = .ok i ↔ ∃ rd ra sgn len1 pos, i = .bfx rd ra sgn len1 pos ∧
      AFields w 6 rd.code ra.code (len1.toNat % 32) (bit sgn * 2 + len1.toNat / 32) pos.toNat := by
  have h1 : fld w 6 5 = fld w 7 4 * 2 + fld w 6 1 := fld_append w 6 1 4
  have h2 : fld w 7 4 = fld w 8 3 * 2 + fld w 7 1 := fld_append w 7 1 3
  have h3 := fld_lt w 6 1
  have h4 := fld_lt w 11 5
  have h5 := fld_lt w 7 1
  simp only [decodeA, hop, except_bind_eq_ok_iff, except_pure_eq_ok_iff, zeroA_eq_ok_iff, bne_eq_false_iff_eq, regA_eq_ok_iff]
  constructor
  · rintro ⟨-, hz, rd, hd, ra, ha, rfl⟩
    refine ⟨rd, ra, _, _, _, rfl, hop, hd, ha, ?_, ?_, (toNat_ofNat_fld w 0 6).symm⟩
    all_goals simp only [bit_fld, BitVec.toNat_ofNat]; omega
  · rintro ⟨rd, ra, sgn, len1, pos, rfl, -, hd, ha, hb, hc, hm⟩
    have h6 := bit_lt sgn
    have h7 := len1.isLt
    have hl : BitVec.ofNat 6 (fld w 6 1 * 32 + fld w 11 5) = len1 := (bitVec_ofNat_eq_iff (by omega)).2 (by omega)
    refine ⟨(), by omega, rd, hd, ra, ha, ?_⟩
    rw [fld_eq_bit_iff.1 (show fld w 7 1 = bit sgn by omega), ofNat_fld_eq hm, hl]

theorem decodeA_bfi_iff (hop : fld w 26 6 = 7) :
    decodeA w = .ok i ↔ ∃ rd ra len1 pos, i = .bfi rd ra len1 pos ∧
      AFields w 7 rd.code ra.code (len1.toNat % 32) (len1.toNat / 32) pos.toNat := by
  have h1 : fld w 6 5 = fld w 7 4 * 2 + fld w 6 1 := fld_append w 6 1 4
  have h3 := fld_lt w 6 1
  have h4 := fld_lt w 11 5
  simp only [decodeA, hop, except_bind_eq_ok_iff, except_pure_eq_ok_iff, zeroA_eq_ok_iff, bne_eq_false_iff_eq, regA_eq_ok_iff]
  constructor
  · rintro ⟨-, hz, rd, hd, ra, ha, rfl⟩
    refine ⟨rd, ra, _, _, rfl, hop, hd, ha, ?_, ?_, (toNat_ofNat_fld w 0 6).symm⟩
    all_goals simp only [BitVec.toNat_ofNat]; omega
  · rintro ⟨rd, ra, len1, pos, rfl, -, hd, ha, hb, hc, hm⟩
    have h7 := len1.isLt
    have hl : BitVec.ofNat 6 (fld w 6 1 * 32 + fld w 11 5) = len1 := (bitVec_ofNat_eq_iff (by omega)).2 (by omega)
    refine ⟨(), by omega, rd, hd, ra, ha, ?_⟩
    rw [ofNat_fld_eq hm, hl]

theorem decodeA_sel_iff (hop : fld w 26 6 = 8) :
    decodeA w = .ok i ↔ ∃ rd ra rb rc, i = .sel rd ra rb rc ∧ AFields w 8 rd.code ra.code rb.code rc.code 0 := by
  simp only [decodeA, hop, except_bind_eq_ok_iff, except_pure_eq_ok_iff, zeroA_eq_ok_iff, bne_eq_false_iff_eq, regA_eq_ok_iff,
    aFields_iff]
  grind

theorem decodeA_vsel_iff (hop : fld w 26 6 = 0x15) :
    decodeA w = .ok i ↔ ∃ vd va b mk m, i = .vsel vd va b mk m ∧
      AFields w 21 vd.toNat va.toNat b.rb (16 + mk.toNat) (b.s + m.md) := by
  simp only [decodeA, hop, except_bind_eq_ok_iff, except_pure_eq_ok_iff, vecA_eq_ok_iff, vsrc_eq_ok_iff, maskA_eq_ok_iff, aFields_iff,
    md_vsrc_iff]
  grind

theorem decodeA_vcvt_iff (hop : fld w 26 6 = 0x16) :
    decodeA w = .ok i ↔ ∃ vd va tc sb m, i = .vcvt vd va tc sb m ∧
      AFields w 22 vd.toNat va.toNat 0 tc.code (bit sb * 32 + m.md) := by
  simp only [decodeA, hop, aFields_iff, md_scalar_iff]
  cases ht : CvtCode.ofCode (fld w 6 5) with
  | none =>
    refine iff_of_false (by simp) ?_
    rintro ⟨vd, va, tc, sb, m, -, -, hc, -⟩
    rw [CvtCode.ofCode_eq_some_iff.2 hc] at ht
    cases ht
  | some tc =>
    have hc := CvtCode.ofCode_eq_some_iff.1 ht
    have hu : ∀ tc' : CvtCode, fld w 6 5 = tc'.code ↔ tc' = tc := fun tc' => by
      rw [← CvtCode.ofCode_eq_some_iff, ht, Option.some.injEq, eq_comm]
    simp only [except_bind_eq_ok_iff, except_pure_eq_ok_iff, zeroA_eq_ok_iff, bne_eq_false_iff_eq, vecA_eq_ok_iff, hu]
    grind

theorem decodeA_vperm_iff (hop : fld w 26 6 = 0x19) :
    decodeA w = .ok i ↔ ∃ vd va b m, i = .vperm vd va b m ∧ AFields w 25 vd.toNat va.toNat b.rb 0 (b.s + m.md) := by
  simp only [decodeA, hop, except_bind_eq_ok_iff, zeroA_eq_ok_iff, bne_eq_false_iff_eq, exists_const]
  constructor
  · rintro ⟨hc, h⟩
    exact (decV2_eq_ok_iff hop hc).1 h
  · rintro ⟨vd, va, b, m, rfl, h⟩
    exact ⟨h.rc, (decV2_eq_ok_iff hop h.rc).2 ⟨vd, va, b, m, rfl, h⟩⟩

theorem decodeA_vbcst_iff (hop : fld w 26 6 = 0x1A) :
    decodeA w = .ok i ↔ ∃ vd rs m, i = .vbcst vd rs m ∧ AFields w 26 vd.toNat rs.code 0 0 m.md := by
  simp only [decodeA, hop, except_bind_eq_ok_iff, except_pure_eq_ok_iff, zeroA_eq_ok_iff, Bool.or_eq_false_iff, bne_eq_false_iff_eq,
    vecA_eq_ok_iff, regA_eq_ok_iff, aFields_iff, md_plain_vmod_iff]
  grind

theorem decodeA_viota_iff (hop : fld w 26 6 = 0x1B) :
    decodeA w = .ok i ↔ ∃ vd m, i = .viota vd m ∧ AFields w 27 vd.toNat 0 0 0 m.md := by
  simp only [decodeA, hop, except_bind_eq_ok_iff, except_pure_eq_ok_iff, zeroA_eq_ok_iff, Bool.or_eq_false_iff, bne_eq_false_iff_eq,
    vecA_eq_ok_iff, aFields_iff, md_plain_vmod_iff]
  grind

/-- md is an element type (R54, R200). -/
theorem md_vty_iff {t : VTy} : fld w 0 6 = t.code ↔ fld w 3 3 = 0 ∧ VTy.ofCode (fld w 0 3) = t := by
  have h : fld w 0 6 = fld w 3 3 * 8 + fld w 0 3 := fld_append w 0 3 3
  have hlt := fld_lt w 0 3
  have ht := t.code_lt
  have hc := VTy.code_ofCode hlt
  constructor
  · intro hm
    have : fld w 0 3 = t.code := by omega
    exact ⟨by omega, by rw [this, VTy.ofCode_code]⟩
  · rintro ⟨hz, rfl⟩
    omega

theorem decodeA_vext_iff (hop : fld w 26 6 = 0x1C) :
    decodeA w = .ok i ↔ ∃ rd va rl ty, i = .vext rd va rl ty ∧ AFields w 28 rd.code va.toNat rl.code 0 ty.code := by
  simp only [decodeA, hop, except_bind_eq_ok_iff, except_pure_eq_ok_iff, zeroA_eq_ok_iff, Bool.or_eq_false_iff, bne_eq_false_iff_eq,
    vecA_eq_ok_iff, regA_eq_ok_iff, aFields_iff, md_vty_iff]
  grind

theorem decodeA_vins_iff (hop : fld w 26 6 = 0x1D) :
    decodeA w = .ok i ↔ ∃ vd rs rl ty, i = .vins vd rs rl ty ∧ AFields w 29 vd.toNat rs.code rl.code 0 ty.code := by
  simp only [decodeA, hop, except_bind_eq_ok_iff, except_pure_eq_ok_iff, zeroA_eq_ok_iff, Bool.or_eq_false_iff, bne_eq_false_iff_eq,
    vecA_eq_ok_iff, regA_eq_ok_iff, aFields_iff, md_vty_iff]
  grind

end

end Sys2Proof
end

section
/-! SUPPORT. A word decodes in the A-slot to just the instruction whose word it is (R59). -/

namespace Sys2Proof

/-- The word w stands for the A-slot instruction i. -/
def SpellsA (w : Nat) (i : Instr) : Prop := i.wf = true ∧ encode i = some w ∧ hdr? i = none

theorem decMov_eq_ok_iff {w : Nat} {i : Instr} (hop : fld w 26 6 = 1) (hrc : fld w 6 5 = 17) :
    decMov w = .ok i ↔ ∃ rd o, i = .mov rd o ∧ AFields w 1 rd.code 0 o.rb 17 o.md := by
  simp only [decMov, except_bind_eq_ok_iff, zeroA_eq_ok_iff, regA_eq_ok_iff, except_pure_eq_ok_iff, Bool.or_eq_false_iff,
    bne_eq_false_iff_eq]
  constructor
  · rintro ⟨-, ⟨ha, -⟩, rd, hd, o, ho, rfl⟩
    obtain ⟨hb, hm⟩ := opnd2_eq_ok_iff.1 ho
    exact ⟨rd, o, rfl, hop, hd, ha, hb, hrc, hm⟩
  · rintro ⟨rd, o, rfl, -, hd, ha, hb, -, hm⟩
    have ho := opnd2_eq_ok_iff.2 ⟨hb, hm⟩
    exact ⟨(), ⟨ha, opnd2_reserved ho⟩, rd, hd, o, ho, rfl⟩

/-! A word that decodes is the word of its instruction. -/

section
variable {w : Nat} {i : Instr} (hw : w < 2 ^ 32)
include hw

theorem AFields.spellsA {aop rd ra rb rc md : Nat} (h : AFields w aop rd ra rb rc md) (hf : i.wf = true)
    (he : encode i = some (aWord aop rd ra rb rc md)) (hh : hdr? i = none) : SpellsA w i :=
  ⟨hf, by rw [he, h.aWord_eq hw], hh⟩

theorem decIalu_spellsA (hop : fld w 26 6 = 1) (h : decIalu w = .ok i) : SpellsA w i := by
  unfold decIalu at h
  split at h
  case h_19 => cases h
  case h_18 hc =>
    obtain ⟨rd, o, rfl, hf⟩ := (decMov_eq_ok_iff hop hc).1 h
    exact hf.spellsA hw rfl rfl rfl
  all_goals
    obtain ⟨rd, ra, o, rfl, hf⟩ := (decInt_eq_ok_iff hop ‹_›).1 h
    exact hf.spellsA hw rfl rfl rfl

theorem decIcmp_spellsA (hop : fld w 26 6 = 2) (h : decIcmp w = .ok i) : SpellsA w i := by
  unfold decIcmp at h
  split at h
  case h_9 => cases h
  all_goals
    obtain ⟨rd, ra, o, rfl, hf⟩ := (decInt_eq_ok_iff hop ‹_›).1 h
    exact hf.spellsA hw rfl rfl rfl

theorem decImul_spellsA (hop : fld w 26 6 = 3) (h : decImul w = .ok i) : SpellsA w i := by
  unfold decImul at h
  split at h
  case h_5 => cases h
  all_goals
    obtain ⟨rd, ra, o, rfl, hf⟩ := (decInt_eq_ok_iff hop ‹_›).1 h
    exact hf.spellsA hw rfl rfl rfl

theorem decIdiv_spellsA (hop : fld w 26 6 = 4) (h : decIdiv w = .ok i) : SpellsA w i := by
  unfold decIdiv at h
  split at h
  case h_5 => cases h
  all_goals
    obtain ⟨rd, ra, o, rfl, hf⟩ := (decInt_eq_ok_iff hop ‹_›).1 h
    exact hf.spellsA hw rfl rfl rfl

theorem decIunOp_spellsA (hop : fld w 26 6 = 5) (h : decIunOp w = .ok i) : SpellsA w i := by
  unfold decIunOp at h
  split at h
  case h_13 => cases h
  all_goals
    obtain ⟨rd, ra, u, rfl, hf⟩ := (decIun_eq_ok_iff hop ‹_›).1 h
    exact hf.spellsA hw rfl rfl rfl

theorem decFalu_spellsA (hop : fld w 26 6 = 9) (h : decFalu w = .ok i) : SpellsA w i := by
  unfold decFalu at h
  split at h
  case h_11 => cases h
  case h_7 | h_8 | h_9 =>
    obtain ⟨rd, ra, r, rfl, hf⟩ := (decF1_eq_ok_iff hop ‹_›).1 h
    exact hf.spellsA hw rfl rfl rfl
  all_goals
    obtain ⟨rd, ra, rb, r, rfl, hf⟩ := (decF2_eq_ok_iff hop ‹_›).1 h
    exact hf.spellsA hw rfl rfl rfl

theorem decFcmpOp_spellsA (hop : fld w 26 6 = 12) (h : decFcmpOp w = .ok i) : SpellsA w i := by
  unfold decFcmpOp at h
  split at h
  case h_5 => cases h
  all_goals
    obtain ⟨rd, ra, rb, rfl, hf⟩ := (decFcmp_eq_ok_iff hop ‹_›).1 h
    exact hf.spellsA hw rfl rfl rfl

theorem decFcvt_spellsA (hop : fld w 26 6 = 13) (h : decFcvt w = .ok i) : SpellsA w i := by
  unfold decFcvt at h
  split at h
  case h_10 => cases h
  case h_1 | h_2 | h_3 | h_4 =>
    obtain ⟨rd, ra, b, r, rfl, hf⟩ := (decFw_eq_ok_iff hop ‹_›).1 h
    exact hf.spellsA hw rfl rfl rfl
  all_goals
    obtain ⟨rd, ra, r, rfl, hf⟩ := (decF1_eq_ok_iff hop ‹_›).1 h
    exact hf.spellsA hw rfl rfl rfl

theorem decValu_spellsA (hop : fld w 26 6 = 16) (h : decValu w = .ok i) : SpellsA w i := by
  unfold decValu at h
  split at h
  case h_16 => cases h
  all_goals
    obtain ⟨vd, va, b, m, rfl, hf⟩ := (decV2_eq_ok_iff hop ‹_›).1 h
    exact hf.spellsA hw rfl rfl rfl

theorem decVun_spellsA (hop : fld w 26 6 = 19) (h : decVun w = .ok i) : SpellsA w i := by
  unfold decVun at h
  split at h
  case h_13 => cases h
  all_goals
    obtain ⟨vd, va, sb, m, rfl, hf⟩ := (decV1_eq_ok_iff hop ‹_›).1 h
    exact hf.spellsA hw rfl rfl rfl

theorem decVcmpOp_spellsA (hop : fld w 26 6 = 20) (h : decVcmpOp w = .ok i) : SpellsA w i := by
  unfold decVcmpOp at h
  split at h
  case h_9 => cases h
  all_goals
    obtain ⟨md, va, b, m, rfl, hf⟩ := (decVcmp_eq_ok_iff hop ‹_›).1 h
    exact hf.spellsA hw rfl rfl rfl

theorem decVredOp_spellsA (hop : fld w 26 6 = 23) (h : decVredOp w = .ok i) : SpellsA w i := by
  unfold decVredOp at h
  split at h
  case h_7 => cases h
  all_goals
    obtain ⟨rd, va, sb, m, rfl, hf⟩ := (decVred_eq_ok_iff hop ‹_›).1 h
    exact hf.spellsA hw rfl rfl rfl

theorem decVscan_spellsA (hop : fld w 26 6 = 24) (h : decVscan w = .ok i) : SpellsA w i := by
  unfold decVscan at h
  split at h
  case h_3 => cases h
  all_goals
    obtain ⟨vd, va, sb, m, rfl, hf⟩ := (decV1_eq_ok_iff hop ‹_›).1 h
    exact hf.spellsA hw rfl rfl rfl

theorem decMalu_spellsA (hop : fld w 26 6 = 31) (h : decMalu w = .ok i) : SpellsA w i := by
  simp only [decMalu] at h
  split at h
  case h_8 => cases h
  case h_1 | h_2 | h_3 | h_4 =>
    obtain ⟨md, ma, mb, rfl, hf⟩ := (decMalu3_eq_ok_iff hop ‹_›).1 h
    exact hf.spellsA hw rfl rfl rfl
  all_goals
    simp only [except_bind_eq_ok_iff, except_pure_eq_ok_iff, zeroA_eq_ok_iff, Bool.or_eq_false_iff, bne_eq_false_iff_eq,
      maskA_eq_ok_iff] at h
  case h_5 hc =>
    obtain ⟨-, ⟨hm, hb⟩, md, hd, ma, ha, rfl⟩ := h
    exact AFields.spellsA hw ⟨hop, hd, ha, hb, hc, hm⟩ rfl rfl rfl
  case h_6 hc | h_7 hc =>
    obtain ⟨-, ⟨⟨hm, hb⟩, ha⟩, md, hd, rfl⟩ := h
    exact AFields.spellsA hw ⟨hop, hd, ha, hb, hc, hm⟩ rfl rfl rfl

theorem decMpopOp_spellsA (hop : fld w 26 6 = 32) (h : decMpopOp w = .ok i) : SpellsA w i := by
  unfold decMpopOp at h
  split at h
  case h_3 => cases h
  all_goals
    obtain ⟨rd, ma, rfl, hf⟩ := (decMpop_eq_ok_iff hop ‹_›).1 h
    exact hf.spellsA hw rfl rfl rfl

/-- A word that the A-slot decodes is the word of its instruction, which is well-formed. -/
theorem decodeA_spellsA (h : decodeA w = .ok i) : SpellsA w i := by
  have hm := h
  unfold decodeA at hm
  split at hm
  case h_1 hop =>
    obtain ⟨rfl, hz⟩ := (decodeA_nop_iff hop).1 h
    refine ⟨rfl, congrArg some ?_, rfl⟩
    unfold fld at hop hz
    omega
  case h_2 hop => exact decIalu_spellsA hw hop hm
  case h_3 hop => exact decIcmp_spellsA hw hop hm
  case h_4 hop => exact decImul_spellsA hw hop hm
  case h_5 hop => exact decIdiv_spellsA hw hop hm
  case h_6 hop => exact decIunOp_spellsA hw hop hm
  case h_10 hop => exact decFalu_spellsA hw hop hm
  case h_13 hop => exact decFcmpOp_spellsA hw hop hm
  case h_14 hop => exact decFcvt_spellsA hw hop hm
  case h_15 hop => exact decValu_spellsA hw hop hm
  case h_18 hop => exact decVun_spellsA hw hop hm
  case h_19 hop => exact decVcmpOp_spellsA hw hop hm
  case h_22 hop => exact decVredOp_spellsA hw hop hm
  case h_23 hop => exact decVscan_spellsA hw hop hm
  case h_30 hop => exact decMalu_spellsA hw hop hm
  case h_31 hop => exact decMpopOp_spellsA hw hop hm
  case h_11 hop | h_12 hop =>
    obtain ⟨rd, ra, rb, rc, r, rfl, hf⟩ := (decF3_eq_ok_iff hop).1 hm
    exact hf.spellsA hw rfl rfl rfl
  case h_16 hop | h_17 hop | h_29 hop =>
    obtain ⟨vd, va, b, vc, m, rfl, hf⟩ := (decV3_eq_ok_iff hop).1 hm
    exact hf.spellsA hw rfl rfl rfl
  case h_7 hop =>
    obtain ⟨rd, ra, sgn, len1, pos, rfl, hf⟩ := (decodeA_bfx_iff hop).1 h
    exact hf.spellsA hw rfl rfl rfl
  case h_8 hop =>
    obtain ⟨rd, ra, len1, pos, rfl, hf⟩ := (decodeA_bfi_iff hop).1 h
    exact hf.spellsA hw rfl rfl rfl
  case h_9 hop =>
    obtain ⟨rd, ra, rb, rc, rfl, hf⟩ := (decodeA_sel_iff hop).1 h
    exact hf.spellsA hw rfl rfl rfl
  case h_20 hop =>
    obtain ⟨vd, va, b, mk, m, rfl, hf⟩ := (decodeA_vsel_iff hop).1 h
    exact hf.spellsA hw rfl rfl rfl
  case h_21 hop =>
    obtain ⟨vd, va, tc, sb, m, rfl, hf⟩ := (decodeA_vcvt_iff hop).1 h
    exact hf.spellsA hw rfl rfl rfl
  case h_24 hop =>
    obtain ⟨vd, va, b, m, rfl, hf⟩ := (decodeA_vperm_iff hop).1 h
    exact hf.spellsA hw rfl rfl rfl
  case h_25 hop =>
    obtain ⟨vd, rs, m, rfl, hf⟩ := (decodeA_vbcst_iff hop).1 h
    exact hf.spellsA hw rfl rfl rfl
  case h_26 hop =>
    obtain ⟨vd, m, rfl, hf⟩ := (decodeA_viota_iff hop).1 h
    exact hf.spellsA hw rfl rfl rfl
  case h_27 hop =>
    obtain ⟨rd, va, rl, ty, rfl, hf⟩ := (decodeA_vext_iff hop).1 h
    exact hf.spellsA hw rfl rfl rfl
  case h_28 hop =>
    obtain ⟨vd, rs, rl, ty, rfl, hf⟩ := (decodeA_vins_iff hop).1 h
    exact hf.spellsA hw rfl rfl rfl
  case h_32 => cases hm

end

end Sys2Proof
end

section
/-! SUPPORT. The word of an A-slot instruction decodes to it (R51 to R54, R59). -/

namespace Sys2Proof

theorem AFields.of_encode {w aop rd ra rb rc md : Nat} (he : some (aWord aop rd ra rb rc md) = some w) (h0 : aop < 64) (h1 : rd < 32)
    (h2 : ra < 32) (h3 : rb < 32) (h4 : rc < 32) (h5 : md < 64) : AFields w aop rd ra rb rc md := by
  obtain rfl := Option.some.inj he
  exact aFields_aWord h0 h1 h2 h3 h4 h5

theorem md_vector_lt {s : Nat} (m : VMod) (hs : s ≤ 32) : s + m.md < 64 := by
  have := m.md_lt
  omega

theorem md_scalar_lt (b : Bool) (m : VMod) : bit b * 32 + m.md < 64 :=
  md_vector_lt m (by have := bit_lt b; omega)

theorem decodeA_of_encode {w : Nat} {i : Instr} (he : encode i = some w) (hh : hdr? i = none) : decodeA w = .ok i := by
  cases i
  case add rd ra o | sub rd ra o | and rd ra o | or rd ra o | xor rd ra o | andn rd ra o | shl rd ra o | shr rd ra o |
    sar rd ra o | rol rd ra o | min rd ra o | max rd ra o | minn rd ra o | maxn rd ra o | shadd1 rd ra o | shadd2 rd ra o |
    shadd3 rd ra o | cmpEq rd ra o | cmpNe rd ra o | cmpLt rd ra o | cmpLtn rd ra o | cmpLe rd ra o | cmpLen rd ra o |
    cmpGt rd ra o | cmpGtn rd ra o | mul rd ra o | mulhs rd ra o | mulhn rd ra o | mulhsn rd ra o | divs rd ra o |
    divn rd ra o | rems rd ra o | remn rd ra o =>
    have hf := AFields.of_encode he (by decide) rd.code_lt ra.code_lt o.rb_lt (by decide) o.md_lt
    simp only [decodeA, hf.aop, decIalu, decIcmp, decImul, decIdiv, hf.rc]
    exact (decInt_eq_ok_iff hf.aop hf.rc).2 ⟨rd, ra, o, rfl, hf⟩
  case mov rd o =>
    have hf := AFields.of_encode he (by decide) rd.code_lt (by decide) o.rb_lt (by decide) o.md_lt
    simp only [decodeA, hf.aop, decIalu, hf.rc]
    exact (decMov_eq_ok_iff hf.aop hf.rc).2 ⟨rd, o, rfl, hf⟩
  case clz rd ra u | ctz rd ra u | popc rd ra u | not rd ra u | neg rd ra u | bswap rd ra u | sexb rd ra u | sexh rd ra u |
    sexw rd ra u | zexb rd ra u | zexh rd ra u | zexw rd ra u =>
    have hf := AFields.of_encode he (by decide) rd.code_lt ra.code_lt u.rb_lt (by decide) u.md_lt
    simp only [decodeA, hf.aop, decIunOp, hf.rc]
    exact (decIun_eq_ok_iff hf.aop hf.rc).2 ⟨rd, ra, u, rfl, hf⟩
  case bfx rd ra sgn len1 pos =>
    have hf := AFields.of_encode he (by decide) rd.code_lt ra.code_lt (by omega) (by have := bit_lt sgn; omega) (by omega)
    exact (decodeA_bfx_iff hf.aop).2 ⟨rd, ra, sgn, len1, pos, rfl, hf⟩
  case bfi rd ra len1 pos =>
    have hf := AFields.of_encode he (by decide) rd.code_lt ra.code_lt (by omega) (by omega) (by omega)
    exact (decodeA_bfi_iff hf.aop).2 ⟨rd, ra, len1, pos, rfl, hf⟩
  case sel rd ra rb rc =>
    have hf := AFields.of_encode he (by decide) rd.code_lt ra.code_lt rb.code_lt rc.code_lt (by decide)
    exact (decodeA_sel_iff hf.aop).2 ⟨rd, ra, rb, rc, rfl, hf⟩
  case fadd rd ra rb rm | fsub rd ra rb rm | fmul rd ra rb rm | fdiv rd ra rb rm | fmin rd ra rb rm | fmax rd ra rb rm |
    fcpsgn rd ra rb rm =>
    have hf := AFields.of_encode he (by decide) rd.code_lt ra.code_lt rb.code_lt (by decide) (by have := rm.md_lt; omega)
    simp only [decodeA, hf.aop, decFalu, hf.rc]
    exact (decF2_eq_ok_iff hf.aop hf.rc).2 ⟨rd, ra, rb, rm, rfl, hf⟩
  case fsqrt rd ra rm | fabs rd ra rm | fneg rd ra rm | f2bf rd ra rm | bf2f rd ra rm | f2h rd ra rm | h2f rd ra rm |
    fcls rd ra rm =>
    have hf := AFields.of_encode he (by decide) rd.code_lt ra.code_lt (by decide) (by decide) (by have := rm.md_lt; omega)
    simp only [decodeA, hf.aop, decFalu, decFcvt, hf.rc]
    exact (decF1_eq_ok_iff hf.aop hf.rc).2 ⟨rd, ra, rm, rfl, hf⟩
  case ffma rd ra rb rc rm | fnma rd ra rb rc rm =>
    have hf := AFields.of_encode he (by decide) rd.code_lt ra.code_lt rb.code_lt rc.code_lt (by have := rm.md_lt; omega)
    simp only [decodeA, hf.aop]
    exact (decF3_eq_ok_iff hf.aop).2 ⟨rd, ra, rb, rc, rm, rfl, hf⟩
  case fcmpEq rd ra rb | fcmpLt rd ra rb | fcmpLe rd ra rb | fcmpUn rd ra rb =>
    have hf := AFields.of_encode he (by decide) rd.code_lt ra.code_lt rb.code_lt (by decide) (by decide)
    simp only [decodeA, hf.aop, decFcmpOp, hf.rc]
    exact (decFcmp_eq_ok_iff hf.aop hf.rc).2 ⟨rd, ra, rb, rfl, hf⟩
  case i2f rd ra wide rm | n2f rd ra wide rm | f2i rd ra wide rm | f2n rd ra wide rm =>
    have hf := AFields.of_encode he (by decide) rd.code_lt ra.code_lt (by decide) (by decide)
      (by have := bit_lt wide; have := rm.md_lt; omega)
    simp only [decodeA, hf.aop, decFcvt, hf.rc]
    exact (decFw_eq_ok_iff hf.aop hf.rc).2 ⟨rd, ra, wide, rm, rfl, hf⟩
  case vadd vd va b m | vsub vd va b m | vmul vd va b m | vdiv vd va b m | vmin vd va b m | vmax vd va b m | vand vd va b m |
    vor vd va b m | vxor vd va b m | vshl vd va b m | vshr vd va b m | vsar vd va b m | vadds vd va b m | vsubs vd va b m |
    vabsd vd va b m =>
    have hf := AFields.of_encode he (by decide) (by omega) (by omega) b.rb_lt (by decide) (md_vector_lt m b.s_lt)
    simp only [decodeA, hf.aop, decValu, hf.rc]
    exact (decV2_eq_ok_iff hf.aop hf.rc).2 ⟨vd, va, b, m, rfl, hf⟩
  case vperm vd va b m =>
    have hf := AFields.of_encode he (by decide) (by omega) (by omega) b.rb_lt (by decide) (md_vector_lt m b.s_lt)
    exact (decodeA_vperm_iff hf.aop).2 ⟨vd, va, b, m, rfl, hf⟩
  case vfma vd va b vc m | vfnma vd va b vc m | vdot4 vd va b vc m =>
    have hf := AFields.of_encode he (by decide) (by omega) (by omega) b.rb_lt (by omega) (md_vector_lt m b.s_lt)
    simp only [decodeA, hf.aop]
    exact (decV3_eq_ok_iff hf.aop).2 ⟨vd, va, b, vc, m, rfl, hf⟩
  case vabs vd va sb m | vneg vd va sb m | vsqrt vd va sb m | vrcp vd va sb m | vrsq vd va sb m | vex2 vd va sb m |
    vlg2 vd va sb m | vmov vd va sb m | vnot vd va sb m | vclz vd va sb m | vpopc vd va sb m | vrelu vd va sb m |
    vscanSum vd va sb m | vscanMax vd va sb m =>
    have hf := AFields.of_encode he (by decide) (by omega) (by omega) (by decide) (by decide) (md_scalar_lt sb m)
    simp only [decodeA, hf.aop, decVun, decVscan, hf.rc]
    exact (decV1_eq_ok_iff hf.aop hf.rc).2 ⟨vd, va, sb, m, rfl, hf⟩
  case vcmpEq md va b m | vcmpNe md va b m | vcmpLt md va b m | vcmpLe md va b m | vcmpGt md va b m | vcmpGe md va b m |
    vcmpUn md va b m | vcmpOrd md va b m =>
    have hf := AFields.of_encode he (by decide) (by omega) (by omega) b.rb_lt (by decide) (md_vector_lt m b.s_lt)
    simp only [decodeA, hf.aop, decVcmpOp, hf.rc]
    exact (decVcmp_eq_ok_iff hf.aop hf.rc).2 ⟨md, va, b, m, rfl, hf⟩
  case vsel vd va b mk m =>
    have hf := AFields.of_encode he (by decide) (by omega) (by omega) b.rb_lt (by omega) (md_vector_lt m b.s_lt)
    exact (decodeA_vsel_iff hf.aop).2 ⟨vd, va, b, mk, m, rfl, hf⟩
  case vcvt vd va tc sb m =>
    have hf := AFields.of_encode he (by decide) (by omega) (by omega) (by decide) (by have := tc.code_lt; omega) (md_scalar_lt sb m)
    exact (decodeA_vcvt_iff hf.aop).2 ⟨vd, va, tc, sb, m, rfl, hf⟩
  case vredSum rd va sb m | vredMin rd va sb m | vredMax rd va sb m | vredAnd rd va sb m | vredOr rd va sb m |
    vredXor rd va sb m =>
    have hf := AFields.of_encode he (by decide) rd.code_lt (by omega) (by decide) (by decide) (md_scalar_lt sb m)
    simp only [decodeA, hf.aop, decVredOp, hf.rc]
    exact (decVred_eq_ok_iff hf.aop hf.rc).2 ⟨rd, va, sb, m, rfl, hf⟩
  case vbcst vd rs m =>
    have hf := AFields.of_encode he (by decide) (by omega) rs.code_lt (by decide) (by decide) (by have := m.md_lt; omega)
    exact (decodeA_vbcst_iff hf.aop).2 ⟨vd, rs, m, rfl, hf⟩
  case viota vd m =>
    have hf := AFields.of_encode he (by decide) (by omega) (by decide) (by decide) (by decide) (by have := m.md_lt; omega)
    exact (decodeA_viota_iff hf.aop).2 ⟨vd, m, rfl, hf⟩
  case vext rd va rl ty =>
    have hf := AFields.of_encode he (by decide) rd.code_lt (by omega) rl.code_lt (by decide) (by have := ty.code_lt; omega)
    exact (decodeA_vext_iff hf.aop).2 ⟨rd, va, rl, ty, rfl, hf⟩
  case vins vd rs rl ty =>
    have hf := AFields.of_encode he (by decide) (by omega) rs.code_lt rl.code_lt (by decide) (by have := ty.code_lt; omega)
    exact (decodeA_vins_iff hf.aop).2 ⟨vd, rs, rl, ty, rfl, hf⟩
  case maluAnd md ma mb | maluOr md ma mb | maluXor md ma mb | maluAndn md ma mb =>
    have hf := AFields.of_encode he (by decide) (by omega) (by omega) (by omega) (by decide) (by decide)
    simp only [decodeA, hf.aop, decMalu, hf.rc]
    exact (decMalu3_eq_ok_iff hf.aop hf.rc).2 ⟨md, ma, mb, rfl, hf⟩
  case maluNot md ma =>
    have hf := AFields.of_encode he (by decide) (by omega) (by omega) (by decide) (by decide) (by decide)
    simp [decodeA, hf.aop, decMalu, hf.rc, hf.md, maskA_eq_ok_iff.2 hf.rd, maskA_eq_ok_iff.2 hf.ra, hf.rb, zeroA, bind, Except.bind,
      pure, Except.pure]
  case maluSet md | maluClr md =>
    have hf := AFields.of_encode he (by decide) (by omega) (by decide) (by decide) (by decide) (by decide)
    simp [decodeA, hf.aop, decMalu, hf.rc, hf.md, maskA_eq_ok_iff.2 hf.rd, hf.ra, hf.rb, zeroA, bind, Except.bind, pure, Except.pure]
  case mpopCount rd ma | mpopFirst rd ma =>
    have hf := AFields.of_encode he (by decide) rd.code_lt (by omega) (by decide) (by decide) (by decide)
    simp only [decodeA, hf.aop, decMpopOp, hf.rc]
    exact (decMpop_eq_ok_iff hf.aop hf.rc).2 ⟨rd, ma, rfl, hf⟩
  case nop =>
    obtain rfl := Option.some.inj he
    rfl
  all_goals (cases he <;> cases hh)

end Sys2Proof
end

section
/-! SUPPORT. The C-slot: the header, the six formats of R49, and the operand forms that the map of R55 shares. -/

namespace Sys2Proof

/-! The header and the 22 bits below the opcode (R42). -/

/-- Word 0 with the literal k beside it has the header h, the opcode cop and the fields f (R42, R43). -/
structure CFields (w k cop : Nat) (h : Hdr) (f : Nat) : Prop where
  hdr : hdrOf w k = h
  cop : fld w 22 6 = cop
  body : fld w 0 22 = f

theorem CFields.cWord_eq {w k cop f : Nat} {h : Hdr} (hf : CFields w k cop h f) (hw : w < 2 ^ 32) : cWord cop h f = w := by
  obtain ⟨rfl, rfl, rfl⟩ := hf
  simp only [cWord, hdrOf, toNat_ofNat_fld]
  unfold fld
  split <;> simp_all <;> omega

theorem CFields.of_encode {w cop f : Nat} {h : Hdr} (he : some (cWord cop h f) = some w) (hc : cop < 64) (hf : f < 2 ^ 22) :
    CFields w ((h.lit.map (·.toNat)).getD 0) cop h f := by
  obtain rfl := Option.some.inj he
  obtain ⟨st, lit⟩ := h
  have hst := st.isLt
  refine ⟨?_, ?_, ?_⟩
  · rw [hdrOf, Hdr.mk.injEq, bitVec_ofNat_eq_iff (fld_lt _ _ _)]
    cases lit <;> simp [cWord, fld] <;> omega
  · cases lit <;> simp [cWord, fld] <;> omega
  · cases lit <;> simp [cWord, fld] <;> omega

theorem hdrOf_lit {w k : Nat} (hk : k < 2 ^ 32) {l : BitVec 32} (h : (hdrOf w k).lit = some l) : l.toNat = k := by
  simp only [hdrOf] at h
  split at h <;> cases h
  rw [BitVec.toNat_ofNat, Nat.mod_eq_of_lt hk]

/-! The six formats (R49). -/

theorem crBody_iff {w rd ra rb fn : Nat} (h1 : rd < 32) (h2 : ra < 32) (h3 : rb < 32) (h4 : fn < 128) :
    fld w 0 22 = rd * 2 ^ 17 + ra * 2 ^ 12 + rb * 2 ^ 7 + fn ↔
      fld w 17 5 = rd ∧ fld w 12 5 = ra ∧ fld w 7 5 = rb ∧ fld w 0 7 = fn := by
  unfold fld
  omega

theorem ciBody_iff {w rd ra imm : Nat} (h1 : rd < 32) (h2 : ra < 32) (h3 : imm < 4096) :
    fld w 0 22 = rd * 2 ^ 17 + ra * 2 ^ 12 + imm ↔ fld w 17 5 = rd ∧ fld w 12 5 = ra ∧ fld w 0 12 = imm := by
  unfold fld
  omega

theorem cbBody_iff {w ra cc off : Nat} (h1 : ra < 32) (h2 : cc < 8) (h3 : off < 2 ^ 14) :
    fld w 0 22 = ra * 2 ^ 17 + cc * 2 ^ 14 + off ↔ fld w 17 5 = ra ∧ fld w 14 3 = cc ∧ fld w 0 14 = off := by
  unfold fld
  omega

theorem cmBody_iff {w rd ra sz ord sc dsp : Nat} (h1 : rd < 32) (h2 : ra < 32) (h3 : sz < 4) (h4 : ord < 4) (h5 : sc < 8)
    (h6 : dsp < 32) : fld w 0 22 = rd * 2 ^ 17 + ra * 2 ^ 12 + sz * 2 ^ 10 + ord * 2 ^ 8 + sc * 2 ^ 5 + dsp ↔
      fld w 17 5 = rd ∧ fld w 12 5 = ra ∧ fld w 10 2 = sz ∧ fld w 8 2 = ord ∧ fld w 5 3 = sc ∧ fld w 0 5 = dsp := by
  unfold fld
  omega

theorem cvBody_iff {w vd ra rb msk fn : Nat} (h1 : vd < 32) (h2 : ra < 32) (h3 : rb < 32) (h4 : msk < 4) (h5 : fn < 32) :
    fld w 0 22 = vd * 2 ^ 17 + ra * 2 ^ 12 + rb * 2 ^ 7 + msk * 2 ^ 5 + fn ↔
      fld w 17 5 = vd ∧ fld w 12 5 = ra ∧ fld w 7 5 = rb ∧ fld w 5 2 = msk ∧ fld w 0 5 = fn := by
  unfold fld
  omega

theorem cxBody_iff {w t ra rb fn : Nat} (h1 : t < 64) (h2 : ra < 32) (h3 : rb < 32) (h4 : fn < 64) :
    fld w 0 22 = t * 2 ^ 16 + ra * 2 ^ 11 + rb * 2 ^ 6 + fn ↔
      fld w 16 6 = t ∧ fld w 11 5 = ra ∧ fld w 6 5 = rb ∧ fld w 0 6 = fn := by
  unfold fld
  omega

end Sys2Proof
end

section
/-! SUPPORT. A word that the C-slot decodes is the word of its instruction (R49, R50, R55 to R58). -/

namespace Sys2Proof

/-- The word w, with k beside it, stands for the C-slot instruction i. -/
def SpellsC (w k : Nat) (i : Instr) : Prop :=
  i.wf = true ∧ encode i = some w ∧ ∃ h, hdr? i = some h ∧ ∀ l, h.lit = some l → l.toNat = k

section
variable {w k : Nat} {i : Instr} (hw : w < 2 ^ 32) (hk : k < 2 ^ 32)
include hw hk

theorem spellsC_of_body {cop f : Nat} (hc : fld w 22 6 = cop) (hb : fld w 0 22 = f) (hf : i.wf = true)
    (he : encode i = some (cWord cop (hdrOf w k) f)) (hh : hdr? i = some (hdrOf w k)) : SpellsC w k i :=
  ⟨hf, by rw [he, CFields.cWord_eq ⟨rfl, hc, hb⟩ hw], _, hh, fun _ => hdrOf_lit hk⟩

/-! One rule for each format (R49): the fields of the word are those that the encoder writes for i. -/

theorem spellsC_cr {cop rd ra rb fn : Nat} (hc : fld w 22 6 = cop) (hd : fld w 17 5 = rd) (ha : fld w 12 5 = ra) (hb : fld w 7 5 = rb)
    (hn : fld w 0 7 = fn) (hf : i.wf = true) (he : encode i = some (crWord cop (hdrOf w k) rd ra rb fn))
    (hh : hdr? i = some (hdrOf w k)) : SpellsC w k i := by
  subst hd ha hb hn
  exact spellsC_of_body hw hk hc ((crBody_iff (fld_lt ..) (fld_lt ..) (fld_lt ..) (fld_lt ..)).2 ⟨rfl, rfl, rfl, rfl⟩) hf he hh

theorem spellsC_ci {cop rd ra imm : Nat} (hc : fld w 22 6 = cop) (hd : fld w 17 5 = rd) (ha : fld w 12 5 = ra)
    (hm : fld w 0 12 = imm) (hf : i.wf = true) (he : encode i = some (ciWord cop (hdrOf w k) rd ra imm))
    (hh : hdr? i = some (hdrOf w k)) : SpellsC w k i := by
  subst hd ha hm
  exact spellsC_of_body hw hk hc ((ciBody_iff (fld_lt ..) (fld_lt ..) (fld_lt ..)).2 ⟨rfl, rfl, rfl⟩) hf he hh

theorem spellsC_cb {cop ra cc off : Nat} (hc : fld w 22 6 = cop) (ha : fld w 17 5 = ra) (hcc : fld w 14 3 = cc)
    (ho : fld w 0 14 = off) (hf : i.wf = true) (he : encode i = some (cbWord cop (hdrOf w k) ra cc off))
    (hh : hdr? i = some (hdrOf w k)) : SpellsC w k i := by
  subst ha hcc ho
  exact spellsC_of_body hw hk hc ((cbBody_iff (fld_lt ..) (fld_lt ..) (fld_lt ..)).2 ⟨rfl, rfl, rfl⟩) hf he hh

theorem spellsC_cm {cop rd ra sz ord sc dsp : Nat} (hc : fld w 22 6 = cop) (hd : fld w 17 5 = rd) (ha : fld w 12 5 = ra)
    (hz : fld w 10 2 = sz) (ho : fld w 8 2 = ord) (hs : fld w 5 3 = sc) (hp : fld w 0 5 = dsp) (hf : i.wf = true)
    (he : encode i = some (cmWord cop (hdrOf w k) rd ra sz ord sc dsp)) (hh : hdr? i = some (hdrOf w k)) : SpellsC w k i := by
  subst hd ha hz ho hs hp
  exact spellsC_of_body hw hk hc ((cmBody_iff (fld_lt ..) (fld_lt ..) (fld_lt ..) (fld_lt ..) (fld_lt ..) (fld_lt ..)).2
    ⟨rfl, rfl, rfl, rfl, rfl, rfl⟩) hf he hh

theorem spellsC_cv {cop vd ra rb msk fn : Nat} (hc : fld w 22 6 = cop) (hd : fld w 17 5 = vd) (ha : fld w 12 5 = ra)
    (hb : fld w 7 5 = rb) (hm : fld w 5 2 = msk) (hn : fld w 0 5 = fn) (hf : i.wf = true)
    (he : encode i = some (cvWord cop (hdrOf w k) vd ra rb msk fn)) (hh : hdr? i = some (hdrOf w k)) : SpellsC w k i := by
  subst hd ha hb hm hn
  exact spellsC_of_body hw hk hc ((cvBody_iff (fld_lt ..) (fld_lt ..) (fld_lt ..) (fld_lt ..) (fld_lt ..)).2 ⟨rfl, rfl, rfl, rfl, rfl⟩)
    hf he hh

theorem spellsC_cx {cop t ra rb fn : Nat} (hc : fld w 22 6 = cop) (ht : fld w 16 6 = t) (ha : fld w 11 5 = ra) (hb : fld w 6 5 = rb)
    (hn : fld w 0 6 = fn) (hf : i.wf = true) (he : encode i = some (cxWord cop (hdrOf w k) t ra rb fn))
    (hh : hdr? i = some (hdrOf w k)) : SpellsC w k i := by
  subst ht ha hb hn
  exact spellsC_of_body hw hk hc ((cxBody_iff (fld_lt ..) (fld_lt ..) (fld_lt ..) (fld_lt ..)).2 ⟨rfl, rfl, rfl, rfl⟩) hf he hh

end

end Sys2Proof
end

section
/-! SUPPORT. The C-slot forms with a decoder of their own (R50, R55 to R58). -/

namespace Sys2Proof

/-- Where a lone bundle's literal replaces a field, the decoder's check of the field is that of well-formedness (R43). -/
theorem loneZero_ofNat_fld_iff {h : Hdr} {w lo n : Nat} :
    loneZero h (BitVec.ofNat n (fld w lo n)) = true ↔ (h.lit.isSome && fld w lo n != 0) = false := by
  have hz : BitVec.ofNat n (fld w lo n) = 0#n ↔ fld w lo n = 0 := by
    rw [bitVec_ofNat_eq_iff (fld_lt w lo n), BitVec.toNat_ofNat, Nat.zero_mod]
  unfold loneZero
  cases h.lit <;> simp [hz]

/-! The fn fields that are made of fields of their own (R49, R50, R56). -/

section
variable {w : Nat}

theorem fn_low_two_iff {n : Nat} (hn : n < 4) : fld w 0 7 = n ↔ fld w 2 5 = 0 ∧ fld w 0 2 = n := by
  unfold fld
  omega

theorem fn_low_five_iff {n : Nat} (hn : n < 32) : fld w 0 7 = n ↔ fld w 5 2 = 0 ∧ fld w 0 5 = n := by
  unfold fld
  omega

theorem fn_scope_id_iff {sc id : Nat} (hs : sc < 8) (hi : id < 8) :
    fld w 0 7 = sc * 8 + id ↔ fld w 6 1 = 0 ∧ fld w 3 3 = sc ∧ fld w 0 3 = id := by
  unfold fld
  omega

theorem fn_op_width_od_iff {op b od : Nat} (ho : op < 16) (hb : b < 2) (hd : od < 4) :
    fld w 0 7 = op * 8 + b * 4 + od ↔ fld w 3 4 = op ∧ fld w 2 1 = b ∧ fld w 0 2 = od := by
  unfold fld
  omega

theorem fn_width_od_iff {b od : Nat} (hb : b < 2) (hd : od < 4) :
    fld w 0 7 = b * 4 + od ↔ fld w 3 4 = 0 ∧ fld w 2 1 = b ∧ fld w 0 2 = od := by
  unfold fld
  omega

theorem fn_lb_scope_od_iff {lb sc od : Nat} (hl : lb < 2) (hs : sc < 8) (hd : od < 4) :
    fld w 0 7 = lb * 32 + sc * 4 + od ↔ fld w 6 1 = 0 ∧ fld w 5 1 = lb ∧ fld w 2 3 = sc ∧ fld w 0 2 = od := by
  unfold fld
  omega

theorem cvFn_low_two_iff {n : Nat} (hn : n < 4) : fld w 0 5 = n ↔ fld w 2 3 = 0 ∧ fld w 0 2 = n := by
  unfold fld
  omega

theorem cvFn_low_three_iff {n : Nat} (hn : n < 8) : fld w 0 5 = n ↔ fld w 3 2 = 0 ∧ fld w 0 3 = n := by
  unfold fld
  omega

theorem cvFn_dest_elem_iff {d e : Nat} (hd : d < 4) (he : e < 8) : fld w 0 5 = d * 8 + e ↔ fld w 3 2 = d ∧ fld w 0 3 = e := by
  unfold fld
  omega

theorem cxFn_acc_iff {c : Nat} (hc : c < 4) : fld w 0 6 = c ↔ fld w 2 4 = 0 ∧ fld w 0 2 = c := by
  unfold fld
  omega

theorem cxFn_sw_acc_iff {sw c : Nat} (hs : sw < 2) (hc : c < 4) :
    fld w 0 6 = sw * 4 + c ↔ fld w 3 3 = 0 ∧ fld w 2 1 = sw ∧ fld w 0 2 = c := by
  unfold fld
  omega

theorem cxFn_scope_form_iff {sc n : Nat} (hs : sc < 8) (hn : n < 8) : fld w 0 6 = sc * 8 + n ↔ fld w 3 3 = sc ∧ fld w 0 3 = n := by
  unfold fld
  omega

theorem cxFn_form_iff {n : Nat} (hn : n < 8) : fld w 0 6 = n ↔ fld w 3 3 = 0 ∧ fld w 0 3 = n := by
  unfold fld
  omega

theorem cxFn_code_acc_iff {code c : Nat} (hd : code < 16) (hc : c < 4) : fld w 0 6 = code * 4 + c ↔ fld w 2 4 = code ∧ fld w 0 2 = c := by
  unfold fld
  omega

theorem cxRb_bit_iff {b : Nat} (hb : b < 2) : fld w 6 5 = b ↔ fld w 7 4 = 0 ∧ fld w 6 1 = b := by
  unfold fld
  omega

end

theorem thirdReg_of_cpyThird {w : Nat} {rb : SReg} (hb : fld w 6 5 = rb.code) (h : fld w 6 5 ≤ 14) : thirdReg rb = true := by
  cases rb with
  | s n => simp only [SReg.code] at hb; simp only [thirdReg, bne_iff_ne, ne_eq]; rintro rfl; simp at hb; omega
  | _ => simp only [SReg.code] at hb; omega

section
variable {w k : Nat} {i : Instr} (hw : w < 2 ^ 32) (hk : k < 2 ^ 32)
include hw hk

theorem decBc_spellsC (hc : fld w 22 6 = 5) (h : decBc w (hdrOf w k) = .ok i) : SpellsC w k i := by
  have ho := (toNat_ofNat_fld w 0 14).symm
  simp only [decBc, except_bind_eq_ok_iff, regC_eq_ok_iff] at h
  obtain ⟨ra, ha, h⟩ := h
  split at h
  case h_8 =>
    have h7 : fld w 14 3 = 7 := by have := fld_lt w 14 3; grind
    obtain rfl := except_pure_eq_ok_iff.1 h
    exact spellsC_cb hw hk hc ha h7 ho rfl rfl rfl
  all_goals
    obtain rfl := except_pure_eq_ok_iff.1 h
    exact spellsC_cb hw hk hc ha ‹_› ho rfl rfl rfl

theorem decMem_spellsC {cop : Nat} {mk : Hdr → SReg → SReg → MemMod → Instr} (hc : fld w 22 6 = cop)
    (he : ∀ h rd ra m, encode (mk h rd ra m) = some (cmWord cop h rd.code ra.code m.sz.toNat m.ord.toNat m.sc.code m.dsp.toNat))
    (hf : ∀ h rd ra m, (mk h rd ra m).wf = loneZero h m.dsp) (hh : ∀ h rd ra m, hdr? (mk h rd ra m) = some h)
    (h : decMem w (hdrOf w k) mk = .ok i) : SpellsC w k i := by
  simp only [decMem, except_bind_eq_ok_iff, scopeC_eq_ok_iff, zeroC_eq_ok_iff, ← loneZero_ofNat_fld_iff, regC_eq_ok_iff,
    except_pure_eq_ok_iff] at h
  obtain ⟨sc, hs, -, hz, rd, hd, ra, ha, rfl⟩ := h
  exact spellsC_cm hw hk hc hd ha (toNat_ofNat_fld ..).symm (toNat_ofNat_fld ..).symm hs (toNat_ofNat_fld ..).symm
    ((hf ..).trans hz) (he ..) (hh ..)

theorem decFe_spellsC (hc : fld w 22 6 = 0x17) (h : decFe w (hdrOf w k) = .ok i) : SpellsC w k i := by
  simp only [decFe, except_bind_eq_ok_iff, scopeC_eq_ok_iff, zeroC_eq_ok_iff, ← loneZero_ofNat_fld_iff, regC_eq_ok_iff] at h
  obtain ⟨sc, hs, -, hz, rd, hd, ra, ha, h⟩ := h
  split at h
  case h_4 =>
    have h3 : fld w 10 2 = 3 := by have := fld_lt w 10 2; grind
    obtain rfl := except_pure_eq_ok_iff.1 h
    exact spellsC_cm hw hk hc hd ha h3 (toNat_ofNat_fld ..).symm hs (toNat_ofNat_fld ..).symm hz rfl rfl
  all_goals
    obtain rfl := except_pure_eq_ok_iff.1 h
    exact spellsC_cm hw hk hc hd ha ‹_› (toNat_ofNat_fld ..).symm hs (toNat_ofNat_fld ..).symm hz rfl rfl

theorem decAmo_spellsC (hc : fld w 22 6 = 0x19) (h : decAmo w (hdrOf w k) = .ok i) : SpellsC w k i := by
  simp only [decAmo, decRdRaRb, except_bind_eq_ok_iff, namedC_eq_ok_iff, regC_eq_ok_iff, except_pure_eq_ok_iff] at h
  obtain ⟨mk, hmk, rd, hd, ra, ha, rb, hb, rfl⟩ := h
  split at hmk
  case h_11 => cases hmk
  all_goals
    rename_i hop
    obtain rfl := Option.some.inj hmk
    exact spellsC_cr hw hk hc hd ha hb
      ((fn_op_width_od_iff (by decide) (bit_lt _) (BitVec.isLt _)).2 ⟨hop, (bit_fld w 2).symm, (toNat_ofNat_fld w 0 2).symm⟩) rfl rfl rfl

theorem decVls_spellsC {cop : Nat} {one tr : Hdr → VReg → SReg → MReg → Instr} {str : Hdr → VReg → SReg → SReg → MReg → Instr}
    (hc : fld w 22 6 = cop)
    (h1 : ∀ h vd ra msk, (one h vd ra msk).wf = true ∧ encode (one h vd ra msk) = some (cvWord cop h vd.toNat ra.code 0 msk.toNat 0) ∧
      hdr? (one h vd ra msk) = some h)
    (h2 : ∀ h vd ra rb msk, (str h vd ra rb msk).wf = true ∧
      encode (str h vd ra rb msk) = some (cvWord cop h vd.toNat ra.code rb.code msk.toNat 1) ∧ hdr? (str h vd ra rb msk) = some h)
    (h3 : ∀ h vd ra msk, (tr h vd ra msk).wf = true ∧ encode (tr h vd ra msk) = some (cvWord cop h vd.toNat ra.code 0 msk.toNat 2) ∧
      hdr? (tr h vd ra msk) = some h)
    (h : decVls w (hdrOf w k) one str tr = .ok i) : SpellsC w k i := by
  have hm := (toNat_ofNat_fld w 5 2).symm
  simp only [decVls] at h
  split at h
  next hn =>
    simp only [except_bind_eq_ok_iff, vecC_eq_ok_iff, regC_eq_ok_iff, except_pure_eq_ok_iff] at h
    obtain ⟨vd, hd, ra, ha, rb, hb, rfl⟩ := h
    obtain ⟨hf, he, hh⟩ := h2 (hdrOf w k) vd ra rb (BitVec.ofNat 2 (fld w 5 2))
    exact spellsC_cv hw hk hc hd ha hb hm hn hf he hh
  next hn =>
    split at h
    next hle =>
      simp only [except_bind_eq_ok_iff, zeroC_eq_ok_iff, bne_eq_false_iff_eq, vecC_eq_ok_iff, regC_eq_ok_iff, except_pure_eq_ok_iff] at h
      obtain ⟨-, hb, vd, hd, ra, ha, rfl⟩ := h
      split
      next h0 =>
        obtain ⟨hf, he, hh⟩ := h1 (hdrOf w k) vd ra (BitVec.ofNat 2 (fld w 5 2))
        exact spellsC_cv hw hk hc hd ha hb hm h0 hf he hh
      next h0 =>
        obtain ⟨hf, he, hh⟩ := h3 (hdrOf w k) vd ra (BitVec.ofNat 2 (fld w 5 2))
        exact spellsC_cv hw hk hc hd ha hb hm (by omega) hf he hh
    next => cases h

theorem decGs_spellsC {cop : Nat} {mk : Hdr → VReg → SReg → VReg → MReg → GSize → Instr} (hc : fld w 22 6 = cop)
    (he : ∀ h vd ra vi msk sz, encode (mk h vd ra vi msk sz) = some (cvWord cop h vd.toNat ra.code vi.toNat msk.toNat sz.code))
    (hf : ∀ h vd ra vi msk sz, (mk h vd ra vi msk sz).wf = true) (hh : ∀ h vd ra vi msk sz, hdr? (mk h vd ra vi msk sz) = some h)
    (h : decGs w (hdrOf w k) mk = .ok i) : SpellsC w k i := by
  simp only [decGs, except_bind_eq_ok_iff, namedC_eq_ok_iff, GSize.ofCode_eq_some_iff, zeroC_eq_ok_iff, bne_eq_false_iff_eq, vecC_eq_ok_iff,
    regC_eq_ok_iff, except_pure_eq_ok_iff] at h
  obtain ⟨sz, hs, -, hz, vd, hd, ra, ha, vi, hi, rfl⟩ := h
  exact spellsC_cv hw hk hc hd ha hi (toNat_ofNat_fld ..).symm ((cvFn_low_two_iff sz.code_lt).2 ⟨hz, hs⟩) (hf ..) (he ..) (hh ..)

theorem decCpy_spellsC (hc : fld w 22 6 = 0x2D) (h : decCpy w (hdrOf w k) = .ok i) : SpellsC w k i := by
  have ht := (toNat_ofNat_fld w 16 6).symm
  simp only [decCpy] at h
  split at h
  case h_6 => cases h
  all_goals
    rename_i hop
    simp only [cpyThird, cxA, cxB, except_bind_eq_ok_iff, zeroC_eq_ok_iff, bne_eq_false_iff_eq, regC_eq_ok_iff, scopeC_eq_ok_iff,
      except_pure_eq_ok_iff] at h
  case h_1 =>
    obtain ⟨-, hz, ra, ha, rb, hb, rfl⟩ := h
    exact spellsC_cx hw hk hc ht ha hb ((cxFn_form_iff (by decide)).2 ⟨hz, hop⟩) rfl rfl rfl
  case h_2 =>
    obtain ⟨sc, hs, ra, ha, rb, hb, rfl⟩ := h
    exact spellsC_cx hw hk hc ht ha hb ((cxFn_scope_form_iff sc.code_lt (by decide)).2 ⟨hs, hop⟩) rfl rfl rfl
  case h_3 | h_4 | h_5 =>
    obtain ⟨-, hz, ra, ha, rb, hb, _, h14, rfl⟩ := h
    split at h14
    · exact spellsC_cx hw hk hc ht ha hb ((cxFn_form_iff (by decide)).2 ⟨hz, hop⟩) (thirdReg_of_cpyThird hb ‹_›) rfl rfl
    · cases h14

theorem decMdrn_spellsC (hc : fld w 22 6 = 0x34) (h : decMdrn w (hdrOf w k) = .ok i) : SpellsC w k i := by
  have ht := (toNat_ofNat_fld w 16 6).symm
  unfold decMdrn at h
  split at h
  · cases h
  · simp only [cxA, except_bind_eq_ok_iff, zeroC_eq_ok_iff, Bool.or_eq_false_iff, bne_eq_false_iff_eq, regC_eq_ok_iff,
      except_pure_eq_ok_iff] at h
    obtain ⟨-, ⟨hz, hra⟩, ra, ha, rfl⟩ := h
    have hcode : (BitVec.ofNat 3 (fld w 2 4)).toNat = fld w 2 4 := by rw [BitVec.toNat_ofNat]; omega
    refine spellsC_cx hw hk hc ht ha ((cxRb_bit_iff (bit_lt _)).2 ⟨hz, (bit_fld w 6).symm⟩)
      ((cxFn_code_acc_iff (by omega) (BitVec.isLt _)).2 ⟨hcode.symm, (toNat_ofNat_fld w 0 2).symm⟩) ?_ rfl rfl
    have hra' : fld w 2 4 = 6 ∨ fld w 11 5 = 0 := by simpa [Bool.and_eq_false_iff, ← or_iff_not_imp_left] using hra
    simp only [Instr.wf, Bool.or_eq_true, beq_iff_eq]
    refine hra'.imp (fun h6 => by rw [h6]) fun h0 => ?_
    exact Option.some.inj ((SReg.ofCode_eq_some_iff.2 (ha.symm.trans h0).symm).symm)

theorem decCsr_spellsC {cop : Nat} (hc : fld w 22 6 = cop) (hcop : cop = 0x39 ∨ cop = 0x3A ∨ cop = 0x3B)
    (h : decCsr w (hdrOf w k) = .ok i) : SpellsC w k i := by
  have hm := (toNat_ofNat_fld w 0 12).symm
  simp only [decCsr] at h
  split at h
  · cases h
  · next hassigned =>
    have hf : csrAssigned (BitVec.ofNat 12 (fld w 0 12)).toNat = true := by rw [toNat_ofNat_fld]; simpa using hassigned
    split at h
    all_goals
      simp only [decRdRa, except_bind_eq_ok_iff, zeroC_eq_ok_iff, bne_eq_false_iff_eq, regC_eq_ok_iff, except_pure_eq_ok_iff] at h
    case h_1 hop =>
      obtain ⟨-, hz, rd, hd, rfl⟩ := h
      exact spellsC_ci hw hk hop hd hz hm hf rfl rfl
    case h_2 hop =>
      obtain ⟨rd, hd, ra, ha, rfl⟩ := h
      exact spellsC_ci hw hk hop hd ha hm hf rfl rfl
    case h_3 h39 h3a =>
      obtain ⟨rd, hd, ra, ha, rfl⟩ := h
      exact spellsC_ci (cop := 0x3B) hw hk (by grind) hd ha hm hf rfl rfl

theorem decSys_spellsC (hc : fld w 22 6 = 0x3C) (h : decSys w (hdrOf w k) = .ok i) : SpellsC w k i := by
  simp only [decSys] at h
  split at h
  case h_8 => cases h
  all_goals
    rename_i hn
    simp only [crRda, decRa, decRdRa, decRaRb, except_bind_eq_ok_iff, zeroC_eq_ok_iff, Bool.not_true, Bool.not_false, Bool.true_and,
      Bool.false_and, Bool.or_false, Bool.false_or, Bool.or_eq_false_iff, bne_eq_false_iff_eq, regC_eq_ok_iff, except_pure_eq_ok_iff] at h
  case h_1 | h_2 =>
    obtain ⟨-, ⟨⟨hd, ha⟩, hb⟩, rfl⟩ := h
    exact spellsC_cr hw hk hc hd ha hb hn rfl rfl rfl
  case h_3 | h_4 | h_5 =>
    obtain ⟨-, hd, ra, ha, rb, hb, rfl⟩ := h
    exact spellsC_cr hw hk hc hd ha hb hn rfl rfl rfl
  case h_6 =>
    obtain ⟨-, hb, rd, hd, ra, ha, rfl⟩ := h
    exact spellsC_cr hw hk hc hd ha hb hn rfl rfl rfl
  case h_7 =>
    obtain ⟨-, ⟨hd, hb⟩, ra, ha, rfl⟩ := h
    exact spellsC_cr hw hk hc hd ha hb hn rfl rfl rfl

end

end Sys2Proof
end

section
/-! SUPPORT. The C-slot map (R55): a word that decodes is the word of its instruction. -/

namespace Sys2Proof

section
variable {w k : Nat} {i : Instr} (hw : w < 2 ^ 32) (hk : k < 2 ^ 32)
include hw hk

/-- CREATE in its four forms (R133, R134). -/
theorem decCreate_spellsC (hc : fld w 22 6 = 0x0A) (hz : fld w 2 5 = 0)
    (h : ∃ rd ra rb, fld w 17 5 = rd.code ∧ fld w 12 5 = ra.code ∧ fld w 7 5 = rb.code ∧
      ((fld w 0 2 = 0 ∧ i = .create (hdrOf w k) rd ra rb) ∨ (fld w 0 2 = 1 ∧ i = .createRev (hdrOf w k) rd ra rb) ∨
        ∃ rev, fld w 0 2 = 2 + bit rev ∧ i = .createDet (hdrOf w k) rd ra rb rev)) : SpellsC w k i := by
  obtain ⟨rd, ra, rb, hd, ha, hb, ⟨h0, rfl⟩ | ⟨h0, rfl⟩ | ⟨rev, h0, rfl⟩⟩ := h
  · exact spellsC_cr hw hk hc hd ha hb ((fn_low_two_iff (by decide)).2 ⟨hz, h0⟩) rfl rfl rfl
  · exact spellsC_cr hw hk hc hd ha hb ((fn_low_two_iff (by decide)).2 ⟨hz, h0⟩) rfl rfl rfl
  · exact spellsC_cr hw hk hc hd ha hb ((fn_low_two_iff (by have := bit_lt rev; omega)).2 ⟨hz, h0⟩) rfl rfl rfl

theorem decodeC_spellsC (h : decodeC w k = .ok i) : SpellsC w k i := by
  have ht := (toNat_ofNat_fld w 16 6).symm
  have hb2 := (bit_fld w 2).symm
  have hlow := (toNat_ofNat_fld w 0 2).symm
  simp only [decodeC] at h
  split at h
  case h_6 hc => exact decBc_spellsC hw hk hc h
  case h_21 hc | h_22 hc | h_23 hc =>
    exact decMem_spellsC hw hk hc (fun _ _ _ _ => rfl) (fun _ _ _ _ => rfl) (fun _ _ _ _ => rfl) h
  case h_24 hc => exact decFe_spellsC hw hk hc h
  case h_26 hc => exact decAmo_spellsC hw hk hc h
  case h_33 hc | h_34 hc =>
    exact decVls_spellsC hw hk hc (fun _ _ _ _ => ⟨rfl, rfl, rfl⟩) (fun _ _ _ _ _ => ⟨rfl, rfl, rfl⟩) (fun _ _ _ _ => ⟨rfl, rfl, rfl⟩) h
  case h_35 hc | h_36 hc =>
    exact decGs_spellsC hw hk hc (fun _ _ _ _ _ _ => rfl) (fun _ _ _ _ _ _ => rfl) (fun _ _ _ _ _ _ => rfl) h
  case h_44 hc => exact decCpy_spellsC hw hk hc h
  case h_51 hc => exact decMdrn_spellsC hw hk hc h
  case h_56 hc | h_57 hc | h_58 hc => exact decCsr_spellsC hw hk hc (by decide) h
  case h_59 hc => exact decSys_spellsC hw hk hc h
  case h_60 hc =>
    split at h
    next hl =>
      simp only [except_bind_eq_ok_iff, zeroC_eq_ok_iff, bne_eq_false_iff_eq, except_pure_eq_ok_iff] at h
      obtain ⟨-, hz, rfl⟩ := h
      exact spellsC_of_body hw hk hc hz hl rfl rfl
    next => cases h
  case h_61 => cases h
  all_goals
    simp only [fn0, crRda, decRa, decRdRa, decRaRb, decRdRaRb, cxA, cxB, except_bind_eq_ok_iff, zeroC_eq_ok_iff, namedC_eq_ok_iff,
      Bool.not_true, Bool.not_false, Bool.true_and, Bool.false_and, Bool.or_false, Bool.false_or, ← loneZero_ofNat_fld_iff,
      Bool.or_eq_false_iff, bne_eq_false_iff_eq, regC_eq_ok_iff, vecC_eq_ok_iff, scopeC_eq_ok_iff, MxElem.ofCode_eq_some_iff,
      MxDest.ofCode_eq_some_iff, except_pure_eq_ok_iff] at h
  case h_1 hc | h_9 hc | h_14 hc =>
    obtain ⟨-, hn, -, ⟨⟨hd, ha⟩, hb⟩, rfl⟩ := h
    exact spellsC_cr hw hk hc hd ha hb hn rfl rfl rfl
  case h_8 hc | h_10 hc | h_13 hc | h_15 hc | h_17 hc | h_18 hc =>
    obtain ⟨-, hn, -, ⟨hd, hb⟩, ra, ha, rfl⟩ := h
    exact spellsC_cr hw hk hc hd ha hb hn rfl rfl rfl
  case h_12 hc =>
    obtain ⟨-, hn, -, hb, rd, hd, ra, ha, rfl⟩ := h
    exact spellsC_cr hw hk hc hd ha hb hn rfl rfl rfl
  case h_31 hc =>
    obtain ⟨-, hn, -, hd, ra, ha, rb, hb, rfl⟩ := h
    exact spellsC_cr hw hk hc hd ha hb hn rfl rfl rfl
  case h_2 hc =>
    obtain ⟨-, ⟨ha, hz⟩, rd, hd, rfl⟩ := h
    exact spellsC_ci hw hk hc hd ha (toNat_ofNat_fld ..).symm hz rfl rfl
  case h_3 hc | h_4 hc =>
    obtain ⟨-, hz, rd, hd, ra, ha, rfl⟩ := h
    exact spellsC_ci hw hk hc hd ha (toNat_ofNat_fld ..).symm hz rfl rfl
  case h_5 hc =>
    obtain ⟨-, ⟨ha, hcc⟩, rfl⟩ := h
    exact spellsC_cb hw hk hc ha hcc (toNat_ofNat_fld ..).symm rfl rfl rfl
  case h_7 hc =>
    obtain ⟨-, ⟨⟨ha, hcc⟩, hz⟩, rfl⟩ := h
    exact spellsC_cb hw hk hc ha hcc (toNat_ofNat_fld ..).symm hz rfl rfl
  case h_11 hc =>
    obtain ⟨-, hz, h⟩ := h
    refine decCreate_spellsC hw hk hc hz ?_
    have h2 := fld_lt w 0 2
    split at h
    all_goals
      simp only [except_bind_eq_ok_iff, regC_eq_ok_iff, except_pure_eq_ok_iff] at h
      obtain ⟨rd, hd, ra, ha, rb, hb, rfl⟩ := h
      refine ⟨rd, ra, rb, hd, ha, hb, ?_⟩
    case h_1 h0 => exact .inl ⟨h0, rfl⟩
    case h_2 h0 => exact .inr (.inl ⟨h0, rfl⟩)
    case h_3 h0 => exact .inr (.inr ⟨false, h0, rfl⟩)
    case h_4 => exact .inr (.inr ⟨true, by simp only [bit]; grind, rfl⟩)
  case h_16 hc =>
    obtain ⟨mk, hmk, -, hb, rd, hd, ra, ha, rfl⟩ := h
    split at hmk
    case h_5 => cases hmk
    all_goals
      obtain rfl := Option.some.inj hmk
      exact spellsC_cr hw hk hc hd ha hb ‹_› rfl rfl rfl
  case h_19 hc =>
    obtain ⟨-, ⟨⟨hd, ha⟩, hb⟩, -, hz, sc, hs, rfl⟩ := h
    exact spellsC_cr hw hk hc hd ha hb
      ((fn_scope_id_iff sc.code_lt (BitVec.isLt _)).2 ⟨hz, hs, (toNat_ofNat_fld w 0 3).symm⟩) rfl rfl rfl
  case h_20 hc =>
    obtain ⟨-, ⟨hd, hb⟩, -, hz, sc, hs, ra, ha, rfl⟩ := h
    exact spellsC_cr hw hk hc hd ha hb
      ((fn_scope_id_iff sc.code_lt (BitVec.isLt _)).2 ⟨hz, hs, (toNat_ofNat_fld w 0 3).symm⟩) rfl rfl rfl
  case h_25 hc =>
    split at h
    case h_4 => cases h
    all_goals
      simp only [except_bind_eq_ok_iff, zeroC_eq_ok_iff, Bool.or_eq_false_iff, bne_eq_false_iff_eq, regC_eq_ok_iff,
        except_pure_eq_ok_iff] at h
    case h_2 hn =>
      obtain ⟨-, hb, rd, hd, ra, ha, rfl⟩ := h
      exact spellsC_cr hw hk hc hd ha hb hn rfl rfl rfl
    all_goals
      obtain ⟨-, ⟨hd, hb⟩, ra, ha, rfl⟩ := h
      exact spellsC_cr hw hk hc hd ha hb ‹_› rfl rfl rfl
  case h_27 hc =>
    obtain ⟨-, hz, rd, hd, ra, ha, rb, hb, rfl⟩ := h
    exact spellsC_cr hw hk hc hd ha hb ((fn_width_od_iff (bit_lt _) (BitVec.isLt _)).2 ⟨hz, hb2, hlow⟩)
      rfl rfl rfl
  case h_28 hc =>
    obtain ⟨-, ⟨⟨hd, ha⟩, hb⟩, -, hz, sc, hs, rfl⟩ := h
    exact spellsC_cr hw hk hc hd ha hb
      ((fn_lb_scope_od_iff (bit_lt _) sc.code_lt (BitVec.isLt _)).2 ⟨hz, (bit_fld w 5).symm, hs, hlow⟩) rfl rfl rfl
  case h_29 hc =>
    obtain ⟨mk, hmk, -, hz, -, hd, ra, ha, rb, hb, rfl⟩ := h
    split at hmk
    case h_4 => cases hmk
    all_goals
      obtain rfl := Option.some.inj hmk
      exact spellsC_cr hw hk hc hd ha hb ((fn_width_od_iff (bit_lt _) (by decide)).2 ⟨hz, hb2, ‹_›⟩) rfl rfl rfl
  case h_30 hc =>
    split at h
    case h_3 => cases h
    all_goals
      simp only [except_bind_eq_ok_iff, regC_eq_ok_iff, except_pure_eq_ok_iff] at h
      obtain ⟨rd, hd, ra, ha, rb, hb, rfl⟩ := h
      exact spellsC_cr hw hk hc hd ha hb ‹_› rfl rfl rfl
  case h_32 hc =>
    obtain ⟨-, ⟨⟨hd, ha⟩, hb⟩, -, hz, rfl⟩ := h
    exact spellsC_cr hw hk hc hd ha hb ((fn_low_five_iff (BitVec.isLt _)).2 ⟨hz, (toNat_ofNat_fld w 0 5).symm⟩) rfl rfl rfl
  case h_37 hc =>
    obtain ⟨-, hz, vd, hd, ra, ha, rb, hb, rfl⟩ := h
    exact spellsC_cv hw hk hc hd ha hb (toNat_ofNat_fld ..).symm
      ((cvFn_low_three_iff (VTy.code_lt _)).2 ⟨hz, (VTy.code_ofCode (fld_lt w 0 3)).symm⟩) rfl rfl rfl
  case h_38 hc =>
    obtain ⟨el, hel, dest, hdest, vd, hd, ra, ha, rb, hb, rfl⟩ := h
    exact spellsC_cv hw hk hc hd ha hb (toNat_ofNat_fld ..).symm ((cvFn_dest_elem_iff dest.code_lt el.code_lt).2 ⟨hdest, hel⟩) rfl rfl rfl
  case h_39 hc =>
    obtain ⟨-, hn, ra, ha, rb, hb, rfl⟩ := h
    exact spellsC_cx hw hk hc ht ha hb hn rfl rfl rfl
  case h_40 hc | h_45 hc =>
    obtain ⟨-, ⟨hb, hn⟩, ra, ha, rfl⟩ := h
    exact spellsC_cx hw hk hc ht ha hb hn rfl rfl rfl
  case h_41 hc | h_42 hc | h_46 hc | h_54 hc =>
    obtain ⟨-, ⟨⟨ha, hb⟩, hn⟩, rfl⟩ := h
    exact spellsC_cx hw hk hc ht ha hb hn rfl rfl rfl
  case h_43 hc =>
    obtain ⟨-, ⟨ha, hn⟩, rb, hb, rfl⟩ := h
    exact spellsC_cx hw hk hc ht ha hb hn rfl rfl rfl
  case h_47 hc =>
    obtain ⟨-, ⟨⟨⟨ht0, ha⟩, hb⟩, hn⟩, rfl⟩ := h
    exact spellsC_cx hw hk hc ht0 ha hb hn rfl rfl rfl
  case h_48 hc | h_49 hc =>
    obtain ⟨-, ⟨⟨ha, hb⟩, hz⟩, rfl⟩ := h
    exact spellsC_cx hw hk hc ht ha hb ((cxFn_sw_acc_iff (bit_lt _) (BitVec.isLt _)).2 ⟨hz, hb2, hlow⟩) rfl rfl rfl
  case h_50 hc =>
    obtain ⟨-, ⟨hb, hz⟩, ra, ha, rfl⟩ := h
    exact spellsC_cx hw hk hc ht ha hb ((cxFn_sw_acc_iff (bit_lt _) (BitVec.isLt _)).2 ⟨hz, hb2, hlow⟩) rfl rfl rfl
  case h_52 hc =>
    obtain ⟨-, ⟨⟨⟨ht0, ha⟩, hb⟩, hz⟩, h⟩ := h
    split at h
    next h1 =>
      obtain rfl := except_pure_eq_ok_iff.1 h
      exact spellsC_cx hw hk hc ht0 ha hb ((cxFn_sw_acc_iff (by decide) (BitVec.isLt _)).2 ⟨hz, h1, hlow⟩) rfl rfl rfl
    next h1 =>
      have h24 : fld w 2 4 = fld w 3 3 * 2 + fld w 2 1 := fld_append w 2 1 3
      have h0 := fld_lt w 2 1
      obtain rfl := except_pure_eq_ok_iff.1 h
      exact spellsC_cx hw hk hc ht0 ha hb ((cxFn_acc_iff (BitVec.isLt _)).2 ⟨by omega, hlow⟩) rfl rfl rfl
  case h_53 hc =>
    obtain ⟨-, ⟨⟨ht0, ha⟩, hz⟩, rb, hb, rfl⟩ := h
    exact spellsC_cx hw hk hc ht0 ha hb ((cxFn_acc_iff (BitVec.isLt _)).2 ⟨hz, hlow⟩) rfl rfl rfl
  case h_55 hc =>
    split at h
    case h_3 => cases h
    all_goals
      simp only [except_bind_eq_ok_iff, zeroC_eq_ok_iff, Bool.or_eq_false_iff, bne_eq_false_iff_eq, regC_eq_ok_iff,
        except_pure_eq_ok_iff] at h
    case h_1 hn =>
      obtain ⟨-, hb, rd, hd, ra, ha, rfl⟩ := h
      exact spellsC_cr hw hk hc hd ha hb hn rfl rfl rfl
    case h_2 hn =>
      obtain ⟨-, ⟨hd, hb⟩, ra, ha, rfl⟩ := h
      exact spellsC_cr hw hk hc hd ha hb hn rfl rfl rfl

end

end Sys2Proof
end

section
/-! SUPPORT. The word of a C-slot instruction, with its literal, decodes to it (R42, R43, R49 to R58). -/

namespace Sys2Proof

/-- What stands beside word 0: the literal of a lone bundle (R43). -/
def Hdr.word1 (h : Hdr) : Nat := (h.lit.map (·.toNat)).getD 0

@[simp] theorem SReg.code_inj {x y : SReg} : x.code = y.code ↔ x = y :=
  ⟨fun h => Option.some.inj ((SReg.ofCode_eq_some_iff.2 rfl).symm.trans (SReg.ofCode_eq_some_iff.2 h)), congrArg _⟩

@[simp] theorem Scope.code_inj {x y : Scope} : x.code = y.code ↔ x = y :=
  ⟨fun h => Option.some.inj ((Scope.ofCode_eq_some_iff.2 rfl).symm.trans (Scope.ofCode_eq_some_iff.2 h)), congrArg _⟩

@[simp] theorem GSize.code_inj {x y : GSize} : x.code = y.code ↔ x = y :=
  ⟨fun h => Option.some.inj ((GSize.ofCode_eq_some_iff.2 rfl).symm.trans (GSize.ofCode_eq_some_iff.2 h)), congrArg _⟩

@[simp] theorem MxDest.code_inj {x y : MxDest} : x.code = y.code ↔ x = y :=
  ⟨fun h => Option.some.inj ((MxDest.ofCode_eq_some_iff.2 rfl).symm.trans (MxDest.ofCode_eq_some_iff.2 h)), congrArg _⟩

@[simp] theorem MxElem.code_inj {x y : MxElem} : x.code = y.code ↔ x = y :=
  ⟨fun h => Option.some.inj ((MxElem.ofCode_eq_some_iff.2 rfl).symm.trans (MxElem.ofCode_eq_some_iff.2 h)), congrArg _⟩

@[simp] theorem bit_beq_one (b : Bool) : (bit b == 1) = b := by cases b <;> rfl

theorem loneZero_iff {n : Nat} {h : Hdr} {f : BitVec n} : loneZero h f = true ↔ (h.lit.isSome && f.toNat != 0) = false := by
  unfold loneZero
  cases h.lit <;> simp [BitVec.toNat_eq]

theorem thirdReg_code_le {r : SReg} (h : thirdReg r = true) : r.code ≤ 14 := by
  cases r with
  | s n =>
    have := n.isLt
    simp only [thirdReg, bne_iff_ne, ne_eq, BitVec.toNat_eq] at h
    simp only [SReg.code]
    simp at h
    omega
  | _ => cases h

/-! The fields of a word that the encoder writes, by format (R49). -/

section
variable {w cop : Nat} {h : Hdr}

theorem cr_of_encode {rd ra rb fn : Nat} (he : some (crWord cop h rd ra rb fn) = some w) (hc : cop < 64) (h1 : rd < 32) (h2 : ra < 32)
    (h3 : rb < 32) (h4 : fn < 128) :
    hdrOf w h.word1 = h ∧ fld w 22 6 = cop ∧ fld w 17 5 = rd ∧ fld w 12 5 = ra ∧ fld w 7 5 = rb ∧ fld w 0 7 = fn := by
  obtain ⟨hh, hc, hb⟩ := CFields.of_encode he hc (by omega)
  exact ⟨hh, hc, (crBody_iff h1 h2 h3 h4).1 hb⟩

theorem ci_of_encode {rd ra imm : Nat} (he : some (ciWord cop h rd ra imm) = some w) (hc : cop < 64) (h1 : rd < 32) (h2 : ra < 32)
    (h3 : imm < 4096) : hdrOf w h.word1 = h ∧ fld w 22 6 = cop ∧ fld w 17 5 = rd ∧ fld w 12 5 = ra ∧ fld w 0 12 = imm := by
  obtain ⟨hh, hc, hb⟩ := CFields.of_encode he hc (by omega)
  exact ⟨hh, hc, (ciBody_iff h1 h2 h3).1 hb⟩

theorem cb_of_encode {ra cc off : Nat} (he : some (cbWord cop h ra cc off) = some w) (hc : cop < 64) (h1 : ra < 32) (h2 : cc < 8)
    (h3 : off < 2 ^ 14) : hdrOf w h.word1 = h ∧ fld w 22 6 = cop ∧ fld w 17 5 = ra ∧ fld w 14 3 = cc ∧ fld w 0 14 = off := by
  obtain ⟨hh, hc, hb⟩ := CFields.of_encode he hc (by omega)
  exact ⟨hh, hc, (cbBody_iff h1 h2 h3).1 hb⟩

theorem cm_of_encode {rd ra sz ord sc dsp : Nat} (he : some (cmWord cop h rd ra sz ord sc dsp) = some w) (hc : cop < 64) (h1 : rd < 32)
    (h2 : ra < 32) (h3 : sz < 4) (h4 : ord < 4) (h5 : sc < 8) (h6 : dsp < 32) :
    hdrOf w h.word1 = h ∧ fld w 22 6 = cop ∧ fld w 17 5 = rd ∧ fld w 12 5 = ra ∧ fld w 10 2 = sz ∧ fld w 8 2 = ord ∧
      fld w 5 3 = sc ∧ fld w 0 5 = dsp := by
  obtain ⟨hh, hc, hb⟩ := CFields.of_encode he hc (by omega)
  exact ⟨hh, hc, (cmBody_iff h1 h2 h3 h4 h5 h6).1 hb⟩

theorem cv_of_encode {vd ra rb msk fn : Nat} (he : some (cvWord cop h vd ra rb msk fn) = some w) (hc : cop < 64) (h1 : vd < 32)
    (h2 : ra < 32) (h3 : rb < 32) (h4 : msk < 4) (h5 : fn < 32) :
    hdrOf w h.word1 = h ∧ fld w 22 6 = cop ∧ fld w 17 5 = vd ∧ fld w 12 5 = ra ∧ fld w 7 5 = rb ∧ fld w 5 2 = msk ∧ fld w 0 5 = fn := by
  obtain ⟨hh, hc, hb⟩ := CFields.of_encode he hc (by omega)
  exact ⟨hh, hc, (cvBody_iff h1 h2 h3 h4 h5).1 hb⟩

theorem cx_of_encode {t ra rb fn : Nat} (he : some (cxWord cop h t ra rb fn) = some w) (hc : cop < 64) (h1 : t < 64) (h2 : ra < 32)
    (h3 : rb < 32) (h4 : fn < 64) :
    hdrOf w h.word1 = h ∧ fld w 22 6 = cop ∧ fld w 16 6 = t ∧ fld w 11 5 = ra ∧ fld w 6 5 = rb ∧ fld w 0 6 = fn := by
  obtain ⟨hh, hc, hb⟩ := CFields.of_encode he hc (by omega)
  exact ⟨hh, hc, (cxBody_iff h1 h2 h3 h4).1 hb⟩

end

/-! The rows of the map that have a decoder of their own and stand for many instructions (R55). -/

section
variable {w k : Nat}

theorem decodeC_bc (hc : fld w 22 6 = 0x05) : decodeC w k = decBc w (hdrOf w k) := by simp [decodeC, hc]

theorem decodeC_fe (hc : fld w 22 6 = 0x17) : decodeC w k = decFe w (hdrOf w k) := by simp [decodeC, hc]

theorem decodeC_amo (hc : fld w 22 6 = 0x19) : decodeC w k = decAmo w (hdrOf w k) := by simp [decodeC, hc]

theorem decodeC_cpy (hc : fld w 22 6 = 0x2D) : decodeC w k = decCpy w (hdrOf w k) := by simp [decodeC, hc]

theorem decodeC_sys (hc : fld w 22 6 = 0x3C) : decodeC w k = decSys w (hdrOf w k) := by simp [decodeC, hc]

end

/-! The instructions of each format. -/

/-- The formats of word 0 (R49); CR twice, by whether the fn field is one number or has fields of its own (R56). -/
inductive Format where
  | cr
  | crFn
  | ci
  | cb
  | cm
  | cv
  | cx
  | bare
  deriving DecidableEq

/-- The format of a C-slot instruction that decodes to itself; none for MRES's other operations (R256) and outside the C-slot. -/
def Instr.format : Instr → Option Format
  | .li .. | .lih .. | .addi .. | .csrr .. | .csrw .. | .csrs .. => some .ci
  | .br .. | .bcEqz .. | .bcNez .. | .bcLtz .. | .bcGez .. | .bcGtz .. | .bcLez .. | .bcFull .. | .bcEmpty .. | .call .. => some .cb
  | .ld .. | .lds .. | .st .. | .ldf .. | .ldfe .. | .stef .. | .stf .. => some .cm
  | .vld .. | .vldStr .. | .vldt .. | .vst .. | .vstStr .. | .vstt .. | .vgth .. | .vsct .. | .vldx .. | .vldm .. => some .cv
  | .tdef .. | .tarm .. | .trel .. | .twait .. | .tstat .. | .cpyG2t .. | .cpyT2g .. | .cpyMc .. | .cpyGx .. | .cpyX .. | .cpyc .. | .mls ..
  | .mswp .. | .mma .. | .mmasp .. | .mmag .. | .mdrn .. | .mzeroInt .. | .mzeroFp .. | .mstat .. | .mxsw .. => some .cx
  | .ext .. => some .bare
  | .cnop .. | .callx .. | .ret .. | .brx .. | .create .. | .createRev .. | .sync .. | .breakFam .. | .endThread .. | .kill ..
  | .fstatStatus .. | .fstatBval .. | .fstatBidx .. | .fstatReplay .. | .yieldSlice .. | .travel .. | .feclr .. | .feget .. | .feset ..
  | .movb .. | .setb .. | .bcfg .. | .rgnDef .. | .rgnRel .. | .eret .. | .halt .. | .ici .. | .tlbw .. | .tlbi .. | .mbox ..
  | .mresResume .. => some .cr
  | .createDet .. | .bar .. | .barcfg .. | .amoAdd .. | .amoAnd .. | .amoOr .. | .amoXor .. | .amoSmin .. | .amoSmax .. | .amoNmin ..
  | .amoNmax .. | .amoSwap .. | .amoFadd .. | .cas .. | .fence .. | .cmoClean .. | .cmoInval .. | .cmoFlush .. | .trap .. => some .crFn
  | _ => none

section
variable {i : Instr} {w : Nat} {h : Hdr} (hf : i.wf = true) (he : encode i = some w) (hh : hdr? i = some h)
include hf he hh

theorem decodeC_of_encode_cr (hm : i.format = some .cr) : decodeC w h.word1 = .ok i := by
  cases i
  case eret h | halt h =>
    cases hh
    obtain ⟨hh, hc, hd, ha, hb, hn⟩ := cr_of_encode he (by decide) (by decide) (by decide) (by decide) (by decide)
    simp [decodeC_sys hc, hh, decSys, crRda, hd, ha, hb, hn]
  case mresResume h ra =>
    cases hh
    obtain ⟨hh, hc, hd, ha, hb, hn⟩ := cr_of_encode he (by decide) (by decide) ra.code_lt (by decide) (by decide)
    simp [decodeC_sys hc, hh, decSys, crRda, decRa, hd, ha, hb, hn]
  case mbox h rd ra =>
    cases hh
    obtain ⟨hh, hc, hd, ha, hb, hn⟩ := cr_of_encode he (by decide) rd.code_lt ra.code_lt (by decide) (by decide)
    simp [decodeC_sys hc, hh, decSys, crRda, decRdRa, hd, ha, hb, hn]
  case ici h ra rb | tlbw h ra rb | tlbi h ra rb =>
    cases hh
    obtain ⟨hh, hc, hd, ha, hb, hn⟩ := cr_of_encode he (by decide) (by decide) ra.code_lt rb.code_lt (by decide)
    simp [decodeC_sys hc, hh, decSys, crRda, decRaRb, hd, ha, hb, hn]
  case cnop h | ret h | endThread h =>
    cases hh
    obtain ⟨hh, hc, hd, ha, hb, hn⟩ := cr_of_encode he (by decide) (by decide) (by decide) (by decide) (by decide)
    simp [decodeC, hh, hc, fn0, crRda, hd, ha, hb, hn]
  case callx h ra | brx h ra | breakFam h ra | kill h ra | yieldSlice h ra | travel h ra | feclr h ra | feset h ra | rgnRel h ra =>
    cases hh
    obtain ⟨hh, hc, hd, ha, hb, hn⟩ := cr_of_encode he (by decide) (by decide) ra.code_lt (by decide) (by decide)
    simp [decodeC, hh, hc, fn0, crRda, decRa, hd, ha, hb, hn]
  case sync h rd ra | fstatStatus h rd ra | fstatBval h rd ra | fstatBidx h rd ra | fstatReplay h rd ra | feget h rd ra | rgnDef h rd ra =>
    cases hh
    obtain ⟨hh, hc, hd, ha, hb, hn⟩ := cr_of_encode he (by decide) rd.code_lt ra.code_lt (by decide) (by decide)
    simp [decodeC, hh, hc, fn0, crRda, decRdRa, hd, ha, hb, hn]
  case bcfg h ra rb =>
    cases hh
    obtain ⟨hh, hc, hd, ha, hb, hn⟩ := cr_of_encode he (by decide) (by decide) ra.code_lt rb.code_lt (by decide)
    simp [decodeC, hh, hc, fn0, crRda, decRaRb, hd, ha, hb, hn]
  case movb h rd ra rb | setb h rd ra rb =>
    cases hh
    obtain ⟨hh, hc, hd, ha, hb, hn⟩ := cr_of_encode he (by decide) rd.code_lt ra.code_lt rb.code_lt (by decide)
    simp [decodeC, hh, hc, decRdRaRb, hd, ha, hb, hn]
  case create h rd ra rb | createRev h rd ra rb =>
    cases hh
    obtain ⟨hh, hc, hd, ha, hb, hn⟩ := cr_of_encode he (by decide) rd.code_lt ra.code_lt rb.code_lt (by decide)
    obtain ⟨hz, hop⟩ := (fn_low_two_iff (by decide)).1 hn
    simp [decodeC, hh, hc, hz, hop, decRdRaRb, hd, ha, hb]
  all_goals cases hm

theorem decodeC_of_encode_crFn (hm : i.format = some .crFn) : decodeC w h.word1 = .ok i := by
  cases i
  case createDet h rd ra rb rev =>
    cases hh
    have hr := bit_lt rev
    obtain ⟨hh, hc, hd, ha, hb, hn⟩ := cr_of_encode he (by decide) rd.code_lt ra.code_lt rb.code_lt (by omega)
    obtain ⟨hz, hop⟩ := (fn_low_two_iff (by omega)).1 hn
    cases rev <;> simp [decodeC, hh, hc, hz, hop, bit, decRdRaRb, hd, ha, hb]
  case bar h sc id =>
    cases hh
    have hs := sc.code_lt
    obtain ⟨hh, hc, hd, ha, hb, hn⟩ := cr_of_encode he (by decide) (by decide) (by decide) (by decide) (by omega)
    obtain ⟨hz, hs, hi⟩ := (fn_scope_id_iff hs id.isLt).1 hn
    simp [decodeC, hh, hc, crRda, hd, ha, hb, hz, hs, hi]
  case barcfg h ra sc id =>
    cases hh
    have hs := sc.code_lt
    obtain ⟨hh, hc, hd, ha, hb, hn⟩ := cr_of_encode he (by decide) (by decide) ra.code_lt (by decide) (by omega)
    obtain ⟨hz, hs, hi⟩ := (fn_scope_id_iff hs id.isLt).1 hn
    simp [decodeC, hh, hc, crRda, decRa, hd, ha, hb, hz, hs, hi]
  case amoAdd h rd ra rb b od | amoAnd h rd ra rb b od | amoOr h rd ra rb b od | amoXor h rd ra rb b od | amoSmin h rd ra rb b od |
    amoSmax h rd ra rb b od | amoNmin h rd ra rb b od | amoNmax h rd ra rb b od | amoSwap h rd ra rb b od | amoFadd h rd ra rb b od =>
    cases hh
    have hw := bit_lt b
    obtain ⟨hh, hc, hd, ha, hb, hn⟩ := cr_of_encode he (by decide) rd.code_lt ra.code_lt rb.code_lt (by omega)
    obtain ⟨hop, hw, ho⟩ := (fn_op_width_od_iff (by decide) hw od.isLt).1 hn
    simp [decodeC_amo hc, hh, decAmo, decRdRaRb, hd, ha, hb, hop, hw, ho]
  case cas h rd ra rb b od =>
    cases hh
    have hw := bit_lt b
    obtain ⟨hh, hc, hd, ha, hb, hn⟩ := cr_of_encode he (by decide) rd.code_lt ra.code_lt rb.code_lt (by omega)
    obtain ⟨hz, hw, ho⟩ := (fn_width_od_iff hw od.isLt).1 hn
    simp [decodeC, hh, hc, decRdRaRb, hd, ha, hb, hz, hw, ho]
  case fence h lb sc od =>
    cases hh
    have hl := bit_lt lb
    have hs := sc.code_lt
    obtain ⟨hh, hc, hd, ha, hb, hn⟩ := cr_of_encode he (by decide) (by decide) (by decide) (by decide) (by omega)
    obtain ⟨hz, hl, hs, ho⟩ := (fn_lb_scope_od_iff hl hs od.isLt).1 hn
    simp [decodeC, hh, hc, crRda, hd, ha, hb, hz, hl, hs, ho]
  case cmoClean h ra rb l2 | cmoInval h ra rb l2 | cmoFlush h ra rb l2 =>
    cases hh
    have hl := bit_lt l2
    obtain ⟨hh, hc, hd, ha, hb, hn⟩ := cr_of_encode he (by decide) (by decide) ra.code_lt rb.code_lt (by omega)
    obtain ⟨hz, hl, hop⟩ := (fn_width_od_iff hl (by decide)).1 hn
    simp [decodeC, hh, hc, crRda, decRaRb, hd, ha, hb, hz, hl, hop]
  case trap h imm =>
    cases hh
    have hi := imm.isLt
    obtain ⟨hh, hc, hd, ha, hb, hn⟩ := cr_of_encode he (by decide) (by decide) (by decide) (by decide) (by omega)
    obtain ⟨hz, hi⟩ := (fn_low_five_iff hi).1 hn
    simp [decodeC, hh, hc, crRda, hd, ha, hb, hz, hi]
  all_goals cases hm

theorem decodeC_of_encode_ci (hm : i.format = some .ci) : decodeC w h.word1 = .ok i := by
  cases i
  case li h rd imm =>
    cases hh
    obtain ⟨hh, hc, hd, ha, hi⟩ := ci_of_encode he (by decide) rd.code_lt (by decide) imm.isLt
    simp [decodeC, hh, hc, hd, ha, hi, loneZero_iff.1 hf]
  case lih h rd ra imm | addi h rd ra imm =>
    cases hh
    obtain ⟨hh, hc, hd, ha, hi⟩ := ci_of_encode he (by decide) rd.code_lt ra.code_lt imm.isLt
    simp [decodeC, hh, hc, decRdRa, hd, ha, hi, loneZero_iff.1 hf]
  case csrr h rd n =>
    cases hh
    have hf : csrAssigned n.toNat = true := hf
    obtain ⟨hh, hc, hd, ha, hi⟩ := ci_of_encode he (by decide) rd.code_lt (by decide) n.isLt
    simp [decodeC, hh, hc, decCsr, hf, hd, ha, hi]
  case csrw h rd ra n | csrs h rd ra n =>
    cases hh
    have hf : csrAssigned n.toNat = true := hf
    obtain ⟨hh, hc, hd, ha, hi⟩ := ci_of_encode he (by decide) rd.code_lt ra.code_lt n.isLt
    simp [decodeC, hh, hc, decCsr, hf, decRdRa, hd, ha, hi]
  all_goals cases hm

theorem decodeC_of_encode_cb (hm : i.format = some .cb) : decodeC w h.word1 = .ok i := by
  cases i
  case br h off =>
    cases hh
    obtain ⟨hh, hc, ha, hcc, ho⟩ := cb_of_encode he (by decide) (by decide) (by decide) off.isLt
    simp [decodeC, hh, hc, ha, hcc, ho]
  case call h off =>
    cases hh
    obtain ⟨hh, hc, ha, hcc, ho⟩ := cb_of_encode he (by decide) (by decide) (by decide) off.isLt
    simp [decodeC, hh, hc, ha, hcc, ho, loneZero_iff.1 hf]
  case bcEqz h ra off | bcNez h ra off | bcLtz h ra off | bcGez h ra off | bcGtz h ra off | bcLez h ra off | bcFull h ra off |
    bcEmpty h ra off =>
    cases hh
    obtain ⟨hh, hc, ha, hcc, ho⟩ := cb_of_encode he (by decide) ra.code_lt (by decide) off.isLt
    simp [decodeC_bc hc, hh, decBc, ha, hcc, ho]
  all_goals cases hm

theorem decodeC_of_encode_cm (hm : i.format = some .cm) : decodeC w h.word1 = .ok i := by
  cases i
  case ld h rd ra m | lds h rd ra m | st h rd ra m =>
    cases hh
    obtain ⟨hh, hc, hd, ha, hz, ho, hs, hp⟩ :=
      cm_of_encode he (by decide) rd.code_lt ra.code_lt m.sz.isLt m.ord.isLt m.sc.code_lt m.dsp.isLt
    simp [decodeC, hh, hc, decMem, hd, ha, hz, ho, hs, hp, loneZero_iff.1 hf]
  case ldf h rd ra m | ldfe h rd ra m | stef h rd ra m | stf h rd ra m =>
    cases hh
    obtain ⟨hh, hc, hd, ha, hz, ho, hs, hp⟩ :=
      cm_of_encode he (by decide) rd.code_lt ra.code_lt (by decide) m.ord.isLt m.sc.code_lt m.dsp.isLt
    simp [decodeC_fe hc, hh, decFe, hd, ha, hz, ho, hs, hp, loneZero_iff.1 hf]
  all_goals cases hm

theorem decodeC_of_encode_cv (hm : i.format = some .cv) : decodeC w h.word1 = .ok i := by
  cases i
  case vld h vd ra msk | vldt h vd ra msk | vst h vd ra msk | vstt h vd ra msk =>
    cases hh
    obtain ⟨hh, hc, hd, ha, hb, hm, hn⟩ := cv_of_encode he (by decide) (by omega) ra.code_lt (by decide) msk.isLt (by decide)
    simp [decodeC, hh, hc, decVls, hd, ha, hb, hm, hn]
  case vldStr h vd ra rb msk | vstStr h vd ra rb msk =>
    cases hh
    obtain ⟨hh, hc, hd, ha, hb, hm, hn⟩ := cv_of_encode he (by decide) (by omega) ra.code_lt rb.code_lt msk.isLt (by decide)
    simp [decodeC, hh, hc, decVls, hd, ha, hb, hm, hn]
  case vgth h vd ra vi msk sz | vsct h vd ra vi msk sz =>
    cases hh
    have hs := sz.code_lt
    obtain ⟨hh, hc, hd, ha, hb, hm, hn⟩ := cv_of_encode he (by decide) (by omega) ra.code_lt (by omega) msk.isLt (by omega)
    obtain ⟨hz, hs⟩ := (cvFn_low_two_iff hs).1 hn
    simp [decodeC, hh, hc, decGs, hd, ha, hb, hm, hz, hs, GSize.ofCode_eq_some_iff.2 rfl]
  case vldx h vd ra rb msk ty =>
    cases hh
    have ht := ty.code_lt
    obtain ⟨hh, hc, hd, ha, hb, hm, hn⟩ := cv_of_encode he (by decide) (by omega) ra.code_lt rb.code_lt msk.isLt (by omega)
    obtain ⟨hz, ht⟩ := (cvFn_low_three_iff ht).1 hn
    simp [decodeC, hh, hc, hd, ha, hb, hm, hz, ht]
  case vldm h vd ra rb msk dest el =>
    cases hh
    have hds := dest.code_lt
    have hel := el.code_lt
    obtain ⟨hh, hc, hd, ha, hb, hm, hn⟩ := cv_of_encode he (by decide) (by omega) ra.code_lt rb.code_lt msk.isLt (by omega)
    obtain ⟨hds, hel⟩ := (cvFn_dest_elem_iff hds hel).1 hn
    simp [decodeC, hh, hc, hd, ha, hb, hm, hds, hel]
  all_goals cases hm

theorem decodeC_of_encode_cx (hm : i.format = some .cx) : decodeC w h.word1 = .ok i := by
  cases i
  case tdef h t ra rb =>
    cases hh
    obtain ⟨hh, hc, ht, ha, hb, hn⟩ := cx_of_encode he (by decide) t.isLt ra.code_lt rb.code_lt (by decide)
    simp [decodeC, hh, hc, cxT, cxA, cxB, ht, ha, hb, hn]
  case tarm h t ra | cpyc h t ra =>
    cases hh
    obtain ⟨hh, hc, ht, ha, hb, hn⟩ := cx_of_encode he (by decide) t.isLt ra.code_lt (by decide) (by decide)
    simp [decodeC, hh, hc, cxT, cxA, ht, ha, hb, hn]
  case trel h t | twait h t | mls h t | mxsw h t =>
    cases hh
    obtain ⟨hh, hc, ht, ha, hb, hn⟩ := cx_of_encode he (by decide) t.isLt (by decide) (by decide) (by decide)
    simp [decodeC, hh, hc, cxT, ht, ha, hb, hn]
  case tstat h t rb =>
    cases hh
    obtain ⟨hh, hc, ht, ha, hb, hn⟩ := cx_of_encode he (by decide) t.isLt (by decide) rb.code_lt (by decide)
    simp [decodeC, hh, hc, cxT, cxB, ht, ha, hb, hn]
  case cpyG2t h t ra rb =>
    cases hh
    obtain ⟨hh, hc, ht, ha, hb, hn⟩ := cx_of_encode he (by decide) t.isLt ra.code_lt rb.code_lt (by decide)
    obtain ⟨hz, hop⟩ := (cxFn_form_iff (by decide)).1 hn
    simp [decodeC_cpy hc, hh, decCpy, cxT, cxA, cxB, ht, ha, hb, hz, hop]
  case cpyT2g h t ra rb sc =>
    cases hh
    have hs := sc.code_lt
    obtain ⟨hh, hc, ht, ha, hb, hn⟩ := cx_of_encode he (by decide) t.isLt ra.code_lt rb.code_lt (by omega)
    obtain ⟨hs, hop⟩ := (cxFn_scope_form_iff hs (by decide)).1 hn
    simp [decodeC_cpy hc, hh, decCpy, cxT, cxA, cxB, ht, ha, hb, hs, hop]
  case cpyMc h t ra rb | cpyGx h t ra rb | cpyX h t ra rb =>
    cases hh
    obtain ⟨hh, hc, ht, ha, hb, hn⟩ := cx_of_encode he (by decide) t.isLt ra.code_lt rb.code_lt (by decide)
    obtain ⟨hz, hop⟩ := (cxFn_form_iff (by decide)).1 hn
    simp [decodeC_cpy hc, hh, decCpy, cxT, cxA, cxB, cpyThird, ht, ha, hb, hz, hop, thirdReg_code_le hf]
  case mswp h =>
    cases hh
    obtain ⟨hh, hc, ht, ha, hb, hn⟩ := cx_of_encode he (by decide) (by decide) (by decide) (by decide) (by decide)
    simp [decodeC, hh, hc, ht, ha, hb, hn]
  case mma h t sw c | mmasp h t sw c =>
    cases hh
    have hs := bit_lt sw
    obtain ⟨hh, hc, ht, ha, hb, hn⟩ := cx_of_encode he (by decide) t.isLt (by decide) (by decide) (by omega)
    obtain ⟨hz, hs, hk⟩ := (cxFn_sw_acc_iff hs c.isLt).1 hn
    simp [decodeC, hh, hc, cxT, ht, ha, hb, hz, hs, hk]
  case mmag h t ra sw c =>
    cases hh
    have hs := bit_lt sw
    obtain ⟨hh, hc, ht, ha, hb, hn⟩ := cx_of_encode he (by decide) t.isLt ra.code_lt (by decide) (by omega)
    obtain ⟨hz, hs, hk⟩ := (cxFn_sw_acc_iff hs c.isLt).1 hn
    simp [decodeC, hh, hc, cxT, cxA, ht, ha, hb, hz, hs, hk]
  case mdrn h t ra sat code c =>
    cases hh
    have hs := bit_lt sat
    have hcode := code.isLt
    obtain ⟨hh, hc, ht, ha, hb, hn⟩ := cx_of_encode he (by decide) t.isLt ra.code_lt (by omega) (by omega)
    obtain ⟨hz, hs⟩ := (cxRb_bit_iff hs).1 hb
    obtain ⟨hd, hk⟩ := (cxFn_code_acc_iff (by omega) c.isLt).1 hn
    have hra : code.toNat = 6 ∨ ra.code = 0 := by
      simp only [Instr.wf, Bool.or_eq_true, beq_iff_eq] at hf
      exact hf.imp (fun h => by rw [h]; rfl) fun h => by rw [h]; rfl
    have h8 : ¬8 ≤ code.toNat := by omega
    simp [decodeC, hh, hc, decMdrn, cxT, cxA, ht, ha, hz, hs, hd, hk, h8]
    tauto
  case mzeroInt h c =>
    cases hh
    have hlt := c.isLt
    obtain ⟨hh, hc, ht, ha, hb, hn⟩ := cx_of_encode he (by decide) (by decide) (by decide) (by decide) (by omega)
    obtain ⟨hz, hs, hk⟩ := (cxFn_sw_acc_iff (by decide) hlt).1 (show fld w 0 6 = 0 * 4 + c.toNat by omega)
    simp [decodeC, hh, hc, ht, ha, hb, hz, hs, hk]
  case mzeroFp h c =>
    cases hh
    obtain ⟨hh, hc, ht, ha, hb, hn⟩ := cx_of_encode he (by decide) (by decide) (by decide) (by decide) (by omega)
    obtain ⟨hz, hs, hk⟩ := (cxFn_sw_acc_iff (sw := 1) (by decide) c.isLt).1 (by omega)
    simp [decodeC, hh, hc, ht, ha, hb, hz, hs, hk]
  case mstat h rb c =>
    cases hh
    have hlt := c.isLt
    obtain ⟨hh, hc, ht, ha, hb, hn⟩ := cx_of_encode he (by decide) (by decide) (by decide) rb.code_lt (by omega)
    obtain ⟨hz, hk⟩ := (cxFn_acc_iff hlt).1 hn
    simp [decodeC, hh, hc, cxB, ht, ha, hb, hz, hk]
  all_goals cases hm

theorem decodeC_of_encode_ext (hm : i.format = some .bare) : decodeC w h.word1 = .ok i := by
  cases i
  case ext h =>
    cases hh
    obtain ⟨hh, hc, hb⟩ := CFields.of_encode he (by decide) (by decide)
    change hdrOf w h.word1 = h at hh
    have hl : h.lit.isSome = true := hf
    simp [decodeC, hh, hc, hb, hl]
  all_goals cases hm

/-- A well-formed instruction's word decodes to it, but for the two operations of MRES that share RESUME's word (R256). -/
theorem decodeC_of_encode (hm : ∀ h ra, i ≠ .mresDiscard h ra ∧ i ≠ .mresMatrixReset h ra) : decodeC w h.word1 = .ok i := by
  cases hfm : i.format with
  | some f =>
    cases f with
    | cr => exact decodeC_of_encode_cr hf he hh hfm
    | crFn => exact decodeC_of_encode_crFn hf he hh hfm
    | ci => exact decodeC_of_encode_ci hf he hh hfm
    | cb => exact decodeC_of_encode_cb hf he hh hfm
    | cm => exact decodeC_of_encode_cm hf he hh hfm
    | cv => exact decodeC_of_encode_cv hf he hh hfm
    | cx => exact decodeC_of_encode_cx hf he hh hfm
    | bare => exact decodeC_of_encode_ext hf he hh hfm
  | none =>
    cases i
    case mresDiscard h ra => exact absurd rfl (hm h ra).1
    case mresMatrixReset h ra => exact absurd rfl (hm h ra).2
    all_goals (cases hfm <;> cases hh)

end

end Sys2Proof
end

section
/-! The round trip between words and instructions, both ways (R42, R49 to R62). -/

namespace Sys2Proof

/-- Settles O58: each form's fields are read back from the word that the encoder makes of them, format by format. -/
theorem encodedInstructionsDecode : Obligations.EncodedInstructionsDecode :=
  ⟨fun _ _ hf he hm => ⟨fun _ hh => decodeC_of_encode hf he hh hm, fun hh => decodeA_of_encode he hh⟩, fun _ _ => ⟨rfl, rfl⟩⟩

/-- Settles O59: what each form of the decoder accepts has just the fields that the encoder writes. -/
theorem decodedWordsEncode : Obligations.DecodedWordsEncode :=
  ⟨fun _ _ _ hw hk h => decodeC_spellsC hw hk h, fun _ _ hw h => decodeA_spellsA hw h⟩

end Sys2Proof
end


-- The f32 instructions: arithmetic, comparisons and conversions.
section

namespace Sys2Proof.Machine

/-- The scalar floating operation leaves its result by the rule, where its function agrees with the rule's value. -/
theorem floatRule_fOp {i : Instr} {rs : List SReg} {rd : SReg} {r : FRnd} {s : State} {f : State → Nat × Flags}
    {x : Nat × Flags} {lat : Nat} (hi : exec i s = .next (fOp rs rd r f lat s)) (hx : f s = x) :
    FloatRule i rs rd r s x lat := by
  subst hx
  intro hs hu hf ho
  exact hi.trans (congrArg Host.Outcome.next (scalarOp_ok hs hu hf ho))

/-- The rounding mode of an instruction: that of RM, or where RM is 0, the nearest for N = 1 and fst's for N = 0 (R53). -/
theorem rmode_eq (s : State) (r : FRnd) :
    s.rmode r = if r.rm = 0#2 then (if r.n then .rne else s.fmode) else .ofBits r.rm := by
  by_cases h : r.rm = 0#2 <;> simp [State.rmode, h]

theorem f32_absCode (a : Nat) : FF.f32.absCode a = a % 2 ^ 31 := rfl

/-- Inverting bit 31 of a code is adding 2^31 modulo 2^32. -/
theorem f32_negate {a : Nat} (ha : a < 2 ^ 32) : FF.f32.negate a = (a + 2 ^ 31) % 2 ^ 32 := by
  have e : FF.f32.negate a = if a / 2 ^ 31 % 2 = 1 then a - 2 ^ 31 else a + 2 ^ 31 := rfl
  rw [e]
  split <;> omega

/-- The sign of a code, placed, is its bit 31 in its place. -/
theorem f32_sign_bit31 (v : W64) : FF.f32.sign (v.getLsbD 31) = f32Of v / 2 ^ 31 * 2 ^ 31 := by
  have e : FF.f32.sign (v.getLsbD 31) = if v.getLsbD 31 then 2 ^ 31 else 0 := rfl
  rw [e, BitVec.getLsbD, Nat.testBit_eq_decide_div_mod_eq, f32Of]
  by_cases h : v.toNat / 2 ^ 31 % 2 = 1
  · simp only [h, decide_true, if_true]; omega
  · simp only [h, decide_false, Bool.false_eq_true, if_false]; omega

theorem f32Of_lt (v : W64) : f32Of v < 2 ^ 32 := Nat.mod_lt _ (by decide)

end Sys2Proof.Machine

open Sys2Proof Sys2Proof.Machine

/-- Settles O6: each instruction is the scalar floating operation on the f32 codes of its operands. -/
theorem Sys2Proof.floatingArithmeticResults : Obligations.FloatingArithmeticResults := by
  unfold Obligations.FloatingArithmeticResults
  intro rd ra rb rc r s m a b c
  have hm : s.rmode r = m := rmode_eq s r
  refine ⟨floatRule_fOp rfl ?_, floatRule_fOp rfl ?_, floatRule_fOp rfl ?_, floatRule_fOp rfl ?_, floatRule_fOp rfl rfl,
    floatRule_fOp rfl rfl, floatRule_fOp rfl ?_, floatRule_fOp rfl ?_, floatRule_fOp rfl ?_, floatRule_fOp rfl rfl,
    floatRule_fOp rfl ?_, floatRule_fOp rfl ?_⟩
  case refine_8 => exact congrArg (·, fNone) (f32_negate (f32Of_lt _))
  case refine_9 => exact congrArg (f32Of (s.regVal ra) % 2 ^ 31 + ·, fNone) (f32_sign_bit31 (s.regVal rb))
  all_goals rw [hm]; rfl

namespace Sys2Proof.Machine

/-- A comparison writes 1 or 0 by its relation, with the relation's flags (R164). -/
theorem fcmpOp_ok (k : Rel) (rd ra rb : SReg) {s : State} {i : Instr} (hi : exec i s = .next (fcmpOp k rd ra rb s)) :
    ScalarResult i { Uses.none with sr := [ra, rb] } rd s
      (if (fCmp .f32 k (f32Of (s.regVal ra)) (f32Of (s.regVal rb))).1 then 1#64 else 0#64)
      (fCmp .f32 k (f32Of (s.regVal ra)) (f32Of (s.regVal rb))).2 4 := by
  intro hs hu hf ho
  exact hi.trans (congrArg Host.Outcome.next (scalarOp_ok hs hu hf ho))

/-- The integer source of a conversion, by its width and sign (R165). -/
theorem intSrc_signed (w : Bool) (v : W64) : intSrc true w v = if w then (v.setWidth 32).toInt else v.toInt := by
  cases w
  · rfl
  · simp only [intSrc, if_true, ← BitVec.setWidth_eq_extractLsb' (show 32 ≤ 64 by decide)]

theorem intSrc_unsigned (w : Bool) (v : W64) :
    intSrc false w v = if w then ((v.setWidth 32).toNat : Int) else (v.toNat : Int) := by
  cases w
  · rfl
  · simp only [intSrc, if_true, ← BitVec.setWidth_eq_extractLsb' (show 32 ≤ 64 by decide)]

/-- A conversion to an integer saturates at the ends of its range. -/
theorem convInt_range (f : FF) (m : RMode) {lo hi : Int} (hlo : lo ≤ 0) (hhi : 0 ≤ hi) (c : Nat) :
    lo ≤ (convInt f m lo hi c).1 ∧ (convInt f m lo hi c).1 ≤ hi := by
  unfold convInt roundInt
  split
  · exact ⟨hlo, hhi⟩
  · split <;> constructor <;> simp <;> omega
  · grind

/-- An integer of 32 bits has the same code at either width. -/
theorem signExtend_ofInt_32 {x : Int} (hlo : -2 ^ 31 ≤ x) (hhi : x ≤ 2 ^ 31 - 1) :
    (BitVec.ofInt 32 x).signExtend 64 = BitVec.ofInt 64 x := by
  rw [BitVec.signExtend, BitVec.toInt_ofInt, Int.bmod_eq_of_le (by omega) (by omega)]

/-- The signed conversion's value, at either width, is the code of the saturated integer (R165). -/
theorem f32ToInt_signed (w : Bool) (m : RMode) (c : Nat) :
    f32ToInt true w m c =
      (BitVec.ofInt 64 (convInt .f32 m (if w then -2 ^ 31 else -2 ^ 63) (if w then 2 ^ 31 - 1 else 2 ^ 63 - 1) c).1,
       (convInt .f32 m (if w then -2 ^ 31 else -2 ^ 63) (if w then 2 ^ 31 - 1 else 2 ^ 63 - 1) c).2) := by
  cases w
  · rfl
  · obtain ⟨h1, h2⟩ := convInt_range .f32 m (lo := -2 ^ 31) (hi := 2 ^ 31 - 1) (by decide) (by decide) c
    exact congrArg (·, _) (signExtend_ofInt_32 h1 h2)

theorem f32ToInt_unsigned (w : Bool) (m : RMode) (c : Nat) :
    f32ToInt false w m c =
      (BitVec.ofInt 64 (convInt .f32 m 0 (if w then 2 ^ 32 - 1 else 2 ^ 64 - 1) c).1,
       (convInt .f32 m 0 (if w then 2 ^ 32 - 1 else 2 ^ 64 - 1) c).2) := by
  cases w <;> rfl

/-- A conversion to an integer writes its value, with its flags and W where N = 1 is combined with a mode (R62, R165). -/
theorem toIntOp_ok {i : Instr} {ra rd : SReg} {r : FRnd} {s : State} {f : State → W64 × Flags} {v : W64}
    {fl : Flags} (hi : exec i s = .next (scalarOp { Uses.none with sr := [ra] } rd
      (fun s => ((f s).1, (f s).2 ||| wIf r.fallback)) 4 s)) (hx : f s = (v, fl)) :
    ScalarResult i { Uses.none with sr := [ra] } rd s v (fl ||| (if r.n && r.rm != 0#2 then fW else fNone)) 4 := by
  obtain ⟨rfl, rfl⟩ := Prod.mk.inj hx
  intro hs hu hf ho
  exact hi.trans (congrArg Host.Outcome.next (scalarOp_ok hs hu hf ho))

end Sys2Proof.Machine

/-- Settles O7: each instruction is the scalar floating operation; the sources and the saturated results of the integer
conversions agree at either width. -/
theorem Sys2Proof.floatingComparisonAndConversionResults : Obligations.FloatingComparisonAndConversionResults := by
  unfold Obligations.FloatingComparisonAndConversionResults
  intro rd ra rb w r s m a b h i n cmp
  have hm : s.rmode r = m := rmode_eq s r
  refine ⟨fcmpOp_ok .eq rd ra rb rfl, fcmpOp_ok .lt rd ra rb rfl, fcmpOp_ok .le rd ra rb rfl, fcmpOp_ok .un rd ra rb rfl,
    floatRule_fOp rfl ?_, floatRule_fOp rfl ?_, toIntOp_ok rfl ?_, toIntOp_ok rfl ?_, floatRule_fOp rfl ?_,
    floatRule_fOp rfl rfl, floatRule_fOp rfl ?_, floatRule_fOp rfl rfl, floatRule_fOp rfl rfl⟩
  · rw [hm, intSrc_signed]; rfl
  · rw [hm, intSrc_unsigned]; rfl
  · rw [hm, f32ToInt_signed]; rfl
  · rw [hm, f32ToInt_unsigned]; rfl
  · rw [hm]; rfl
  · rw [hm]; rfl

end


-- The commitment of a bundle.
section

namespace Sys2Proof.Machine

/-- Commitment changes the issuing thread only. -/
theorem commit_thread_ne (s : State) (h : Hdr) (ext : ExtUse) (w : Bool) (next : W64) {cid slot : Nat}
    (hne : cid ≠ s.cur.cid ∨ slot ≠ s.cur.slot) : (commit s h ext w next).thread cid slot = s.thread cid slot := by
  rw [State.thread_congr (commit_cores s h ext w next)]
  unfold State.updMe State.updThread
  split
  · exact State.thread_setThread_ne _ _ _ _ _ _ hne
  · rfl

/-- fst gains the bundle's flags, and W where the instruction sets it or a pending extension is not taken (R43, R58). -/
theorem fstAfter_eq (t : Thread) (fl : Flags) (ext : ExtUse) (w : Bool) :
    t.fstAfter fl ext w = t.csr.fst ||| BitVec.setWidth 64 (fl |||
      if w = true ∨ (t.kext.isSome = true ∧ ext ≠ .takes) then fW else fNone) := by
  unfold Thread.fstAfter
  congr 3
  cases ext <;> simp

/-- No stall is left by a stall count of 0, nor where its cycles have passed (R46). -/
theorem afterCommit_stall_eq_none (t : Thread) (now due : Nat) (fl : Flags) (h : Hdr) (ext : ExtUse) (w : Bool) (next : W64) :
    (t.afterCommit now due fl h ext w next).stall = none ↔ h.st = 0#3 ∨ due ≤ now := by
  simp only [Thread.afterCommit, ite_eq_right_iff, reduceCtorEq, imp_false, Bool.and_eq_true, bne_iff_ne, ne_eq,
    decide_eq_true_eq, not_and_or, not_not, Nat.not_lt]

end Sys2Proof.Machine

open Sys2Proof.Machine

/-- Settles O9, by what commitment leaves of its thread and by its frame. -/
theorem Sys2Proof.commitmentEffect : Obligations.CommitmentEffect := by
  unfold Obligations.CommitmentEffect
  intro s h ext w next hs
  obtain ⟨hnow, hmem, htags, -, hfams, hreqs, -, hparts, -, -, hdev, -⟩ := commit_frame s h ext w next
  refine ⟨_, rfl, commit_res s h ext w next, ?_⟩
  rw [commit_me hs]
  exact ⟨rfl, rfl, rfl, rfl, by rw [← fstAfter_eq]; rfl, afterCommit_stall_eq_none .., rfl, rfl, rfl,
    fun _ _ => commit_thread_ne s h ext w next, hmem, htags, hreqs, hfams, hparts, hdev, hnow⟩

end


-- The manual's worked bundles.
section

/-- Settles O57: each bundle's two words are decoded. -/
theorem Sys2Proof.decodingExamples : Obligations.DecodingExamples := by
  unfold Obligations.DecodingExamples
  intro h lone st is
  refine ⟨?_, ?_, ?_, ?_, ?_, ?_, ?_⟩
  all_goals rfl

end


-- Results in flight, stall counts and shared values land.
section

namespace Sys2Proof.Machine

/-! A fixed-latency result. -/

/-- The thread whose result f has landed: the flight of its number is gone. -/
def Thread.dropFlight (t : Thread) (n : Nat) : Thread := { t with flights := t.flights.filter fun f => f.n != n }

theorem Thread.dropFlight_ne (t : Thread) (n : Nat) : ∀ g ∈ (t.dropFlight n).flights, g.n ≠ n := by
  intro g hg
  simpa using (List.mem_filter.1 hg).2

section

variable {s : State} {cid slot n : Nat} {th : Thread} {f : Flight} (he : s.evt = .fixedLatencyWriteback cid slot n)
  (hth : s.thread cid slot = some th) (hf : th.flights.find? (fun f => f.n == n) = some f)
include hth hf

/-- The writeback finds the thread in its slot, and its flight. -/
theorem writeback_finds :
    ((((s.core cid).thread slot).toList ++ ((s.core cid).runs.filter fun r => r.slot == slot).map (·.creator)).find?
      fun t => t.flights.any fun f => f.n == n) = some th := by
  have hany : (th.flights.any fun f => f.n == n) = true :=
    List.any_eq_true.2 ⟨f, List.mem_of_find?_eq_some hf, by simpa using List.find?_some hf⟩
  have hc : (s.core cid).thread slot = some th := hth
  rw [hc]
  simp [hany]

include he

theorem writeback_scalar {k : BitVec 4} (hd : f.dst = .s k) :
    exec .fixedLatencyWriteback s = .next
      (let w : Who := { cid := cid, slot := slot, uid := th.uid }
       let s1 := (s.updWho w fun t => t.dropFlight n).writeAt w k (f.val.setWidth 64) (min f.land s.now)
       if (th.regs.s.get k.toFin).pend then s1.updWho w fun t => t.setS k { t.regs.s.get k.toFin with pend := true } else s1) := by
  show execFixedLatencyWriteback s = _
  unfold execFixedLatencyWriteback
  simp only [he, writeback_finds hth hf, hf, hd]
  rfl

theorem writeback_vector {k : VReg} (hd : f.dst = .v k) :
    exec .fixedLatencyWriteback s = .next
      (let w : Who := { cid := cid, slot := slot, uid := th.uid }
       (s.updWho w fun t => t.dropFlight n).updWho w fun t => t.coverV k
         { t.regs.v.get k.toFin with val := mergeBits (t.regs.v.get k.toFin).val f.val f.mask, pres := true, fail := none }) := by
  show execFixedLatencyWriteback s = _
  unfold execFixedLatencyWriteback
  simp only [he, writeback_finds hth hf, hf, hd]
  rfl

theorem writeback_mask {k : MReg} (hd : f.dst = .m k) :
    exec .fixedLatencyWriteback s = .next
      (let w : Who := { cid := cid, slot := slot, uid := th.uid }
       (s.updWho w fun t => t.dropFlight n).updWho w fun t => t.setM k ((t.regs.m.get k.toFin &&& ~~~(f.mask.setWidth 128)) |||
         (f.val.setWidth 128 &&& f.mask.setWidth 128))) := by
  show execFixedLatencyWriteback s = _
  unfold execFixedLatencyWriteback
  simp only [he, writeback_finds hth hf, hf, hd]
  rfl

end

/-- A value that a thread without shareds writes changes no memory. -/
theorem State.HasThread.writeAt_mem {s : State} {w : Who} {th : Thread} (h : s.HasThread w th) (hsh : th.sh = 0) (n : BitVec 4)
    (v : W64) (base : Nat) : (s.writeAt w n v base).mem = s.mem := by
  unfold State.writeAt
  rw [h.whoThread]
  have hno : ¬(th.g ≤ n.toNat ∧ n.toNat < th.g + th.sh) := by omega
  simp only [← Bool.decide_and, hno, decide_false, Bool.false_and, Bool.false_eq_true, if_false, State.updWho_mem]

/-- A bit of merged contents is the new one where the mask has it (R46). -/
theorem getLsbD_mergeBits (old val mask : VWord) {i : Nat} (hi : i < 4096) :
    (mergeBits old val mask).getLsbD i = if mask.getLsbD i then val.getLsbD i else old.getLsbD i := by
  unfold mergeBits
  cases h : mask.getLsbD i <;>
    simp only [BitVec.getLsbD_or, BitVec.getLsbD_and, BitVec.getLsbD_not, h, hi, decide_true, Bool.not_false, Bool.not_true,
      Bool.and_true, Bool.and_false, Bool.or_false, Bool.false_or, if_true, Bool.false_eq_true, if_false]

theorem Thread.coverV_eq (t : Thread) (n : VReg) (c : VCell) : t.coverV n c = { t.setV n c with lost := (t.coverV n c).lost } := by
  unfold Thread.coverV
  split <;> rfl

/-- A mask written: m0 keeps its contents (R18). -/
theorem Thread.setM_get_self (t : Thread) (k : MReg) (v : MWord) :
    (t.setM k v).regs.m.get k.toFin = if k = 0#2 then t.regs.m.get k.toFin else v := by
  unfold Thread.setM
  split
  · rfl
  · simp [Vector.get_eq_getElem]

theorem Thread.setM_get_ne (t : Thread) {k j : MReg} (h : j ≠ k) (v : MWord) :
    (t.setM k v).regs.m.get j.toFin = t.regs.m.get j.toFin := by
  have hne : k.toFin.val ≠ j.toFin.val := fun e => h (BitVec.eq_of_toNat_eq e.symm)
  unfold Thread.setM
  split
  · rfl
  · simp only [Vector.get_eq_getElem]
    exact Vector.getElem_set_ne _ _ hne

theorem Thread.setM_frame (t : Thread) (k : MReg) (v : MWord) :
    (t.setM k v).uid = t.uid ∧ (t.setM k v).flights = t.flights ∧ (t.setM k v).regs.s = t.regs.s ∧ (t.setM k v).regs.v = t.regs.v := by
  unfold Thread.setM
  split <;> exact ⟨rfl, rfl, rfl, rfl⟩

/-! Releases keep the tags and leave no line dirty. -/

theorem State.l2Wrote_tags (s : State) (pa cache n : Nat) : (s.l2Wrote pa cache n).tags = s.tags := by
  have hAlloc (a b c) : (s.l2Alloc a b c).tags = s.tags := by
    unfold State.l2Alloc
    dsimp only [State.fresh]
    split <;> rfl
  unfold State.l2Wrote
  (repeat' split) <;> first | rfl | exact hAlloc _ _ _

/-- An operation repeated along a list keeps the tags where each turn does. -/
theorem State.tags_foldl {α : Type} {f : State → α → State} (hf : ∀ s x, (f s x).tags = s.tags) (l : List α) (s : State) :
    (l.foldl f s).tags = s.tags := by
  induction l generalizing s with
  | nil => rfl
  | cons x l ih => exact (ih _).trans (hf s x)

theorem State.wakeWaiters_tags (s : State) (pa n at_ : Nat) : (s.wakeWaiters pa n at_).tags = s.tags := by
  unfold State.wakeWaiters
  exact State.tags_foldl (fun s _ => by dsimp only; split <;> rfl) _ _

theorem State.tailReport_tags (s : State) (lvl : Option Nat) (pa n : Nat) : (s.tailReport lvl pa n).tags = s.tags := by
  unfold State.tailReport
  split
  · rfl
  · exact State.tags_foldl (fun _ _ => by rfl) _ _

theorem State.pendReport_tags (s : State) (lvl : Option Nat) (pa n : Nat) : (s.pendReport lvl pa n).tags = s.tags := by
  unfold State.pendReport
  split
  · rfl
  · exact State.tags_foldl (fun s _ => by split <;> rfl) _ _

theorem State.putBytesGo_tags (s : State) (part va pa : Nat) (bs : List Byte) : (s.putBytesGo part none va pa bs).tags = s.tags := by
  induction bs generalizing s va pa with
  | nil => rfl
  | cons b bs ih => exact ih _ _ _

theorem State.putBytes_tags (s : State) (part va pa : Nat) (bs : List Byte) : (s.putBytes part none va pa bs).tags = s.tags := by
  unfold State.putBytes State.putBytesAt
  rw [State.pendReport_tags, State.tailReport_tags, State.wakeWaiters_tags, State.putBytesGo_tags]

theorem State.cleanLine_tags (s : State) (l : L1Line) : (s.cleanLine l).tags = s.tags := by
  unfold State.cleanLine
  split
  · rfl
  · refine State.tags_foldl (fun s k => ?_) _ _
    split
    · rw [State.putBytes_tags, State.l2Wrote_tags]
    · rfl

theorem State.l1Clean_tags (s : State) (cid : Nat) (p : L1Line → Bool) : (s.l1Clean cid p).2.tags = s.tags :=
  State.tags_foldl (fun s l => s.cleanLine_tags l) _ _

theorem State.sendRelease_tags (s : State) (w : Who) : (s.sendRelease w).tags = s.tags := by
  unfold State.sendRelease
  split <;> exact s.l1Clean_tags _ _

/-- After a release of all its lines no line of the core is dirty (R171). -/
theorem State.releaseLines_clean (s : State) (cid : Nat) : ∀ l ∈ ((s.releaseLines cid).core cid).l1, l.dirty = 0#32 := by
  intro l hl
  unfold State.releaseLines State.l1Clean at hl
  simp only [State.core_updCore_self, List.mem_map, if_true] at hl
  obtain ⟨_, _, rfl⟩ := hl
  rfl

/-- A change of a thread keeps the L1 of its core. -/
theorem State.updWho_l1 (s : State) (w : Who) (f : Thread → Thread) (cid : Nat) :
    ((s.updWho w f).core cid).l1 = (s.core cid).l1 := by
  unfold State.updWho
  by_cases h : cid = w.cid
  · subst h
    rw [State.core_updCore_self]
    dsimp only
    split
    · split
      · rw [Core.setThread]; split <;> rfl
      · rfl
    · rfl
  · rw [State.core_updCore_ne _ _ _ _ h]

theorem State.sendRelease_clean (s : State) (w : Who) : ∀ l ∈ ((s.sendRelease w).core w.cid).l1, l.dirty = 0#32 := by
  unfold State.sendRelease
  split
  · rw [State.updWho_l1]
    exact s.releaseLines_clean w.cid
  · exact s.releaseLines_clean w.cid

theorem State.sendRelease_fams (s : State) (w : Who) : (s.sendRelease w).fams = s.fams := by
  unfold State.sendRelease
  split
  · exact (s.calm_releaseLines w.cid).fams
  · exact (s.calm_releaseLines w.cid).fams

/-! A shared value that arrives (R36). -/

section

variable {s : State} {fam member j : Nat} {v : W64} {cid uid tok c : Nat}

/-- Messages counted on one core leave the other cores. -/
theorem State.core_gotMsgs_ne (s : State) {c cid : Nat} (n : Nat) (h : cid ≠ c) : (s.gotMsgs c n).core cid = s.core cid := by
  unfold State.gotMsgs
  split
  · rfl
  · exact State.core_updCore_ne _ _ _ _ h

/-- What the release of a shared's send leaves: the link buffers, the tags, and of the L1 of a far writer no dirty line. -/
theorem arriveRelease_leaves (s : State) (w : Who) (far : Bool) :
    let t := if far then s.sendRelease w else s
    t.fams = s.fams ∧ t.tags = s.tags ∧ (far = false → t.mem = s.mem) ∧
      (far = true → ∀ l ∈ (t.core w.cid).l1, l.dirty = 0#32) := by
  cases far
  · exact ⟨rfl, rfl, fun _ => rfl, fun h => Bool.noConfusion h⟩
  · exact ⟨s.sendRelease_fams w, s.sendRelease_tags w, fun h => Bool.noConfusion h, fun _ => s.sendRelease_clean w⟩

/-- The arrival: the link buffer takes the value, and the core of the successor may take it too. -/
theorem registerWriteMessage_arrives (he : s.evt = .registerWriteMessage fam member j v cid uid tok c)
    (hp : s.unperformed { cid := cid, slot := 0, uid := uid } (c != cid) tok = false) :
    ∃ φ : Core → Core, exec .registerWriteMessage s = .next
      (let s1 := (if c != cid then s.sendRelease (s.whoOn cid uid) else s).updFam fam fun f =>
         { f with links := f.links ++ [{ member := member, j := j, val := v, far := c != cid }] }
       (if c != cid then s1.gotMsgs c 1 else s1).updCore c φ) := by
  show ∃ φ : Core → Core, execRegisterWriteMessage s = _
  unfold execRegisterWriteMessage
  rw [he]
  dsimp only
  rw [hp, if_neg Bool.false_ne_true]
  exact ⟨_, rfl⟩

theorem sharedValueLands {f : Family} (he : s.evt = .registerWriteMessage fam member j v cid uid tok c) (hf : s.fam fam = some f)
    (hp : s.unperformed { cid := cid, slot := 0, uid := uid } (c != cid) tok = false) :
    ∃ t f', exec .registerWriteMessage s = .next t ∧ t.fam fam = some f' ∧
      f'.links = f.links ++ [{ member := member, j := j, val := v, far := c != cid }] ∧ t.tags = s.tags ∧
      (c = cid → t.mem = s.mem) ∧ (c ≠ cid → ∀ l ∈ (t.core cid).l1, l.dirty = 0#32) := by
  obtain ⟨φ, hexec⟩ := registerWriteMessage_arrives he hp
  have hrel := arriveRelease_leaves s (s.whoOn cid uid) (c != cid)
  revert hexec hrel
  generalize hu : (if (c != cid) = true then s.sendRelease (s.whoOn cid uid) else s) = u
  intro hexec ⟨hfams, htags, hmem, hclean⟩
  have hfam : u.fam fam = some f := by unfold State.fam; rw [hfams]; exact hf
  have hfam' := State.fam_updFam_self hfam (g := fun f =>
    { f with links := f.links ++ [{ member := member, j := j, val := v, far := c != cid }] }) fun _ => rfl
  refine ⟨_, _, hexec, Eq.trans ?_ hfam', rfl, ?_, fun hc => ?_, fun hc l hl => ?_⟩
  · cases c != cid <;> simp [State.fam]
  · cases c != cid <;> simp [htags]
  · subst hc
    simpa using hmem (by simp)
  · have hfar : (c != cid) = true := by simpa using hc
    refine hclean hfar l ?_
    dsimp only at hl
    rw [hfar, if_pos rfl, State.core_updCore_ne _ _ _ _ (Ne.symm hc)] at hl
    rwa [State.core_gotMsgs_ne _ 1 (Ne.symm hc)] at hl

end

/-! The obligation, part by part. -/

section

variable {s : State} {cid slot n : Nat} {th : Thread} {f : Flight} (he : s.evt = .fixedLatencyWriteback cid slot n)
  (hslot : slot < 17) (hth : s.thread cid slot = some th) (hf : th.flights.find? (fun f => f.n == n) = some f)
include hslot hth

/-- The thread, its flight gone. -/
theorem hasThread_dropFlight : (s.updWho { cid := cid, slot := slot, uid := th.uid } fun t => t.dropFlight n).HasThread
    { cid := cid, slot := slot, uid := th.uid } (th.dropFlight n) :=
  State.HasThread.updWho ⟨hslot, hth, rfl⟩ fun t => t.dropFlight n

include he hf

theorem scalarResult_lands {k : BitVec 4} (hd : f.dst = .s k) :
    ∃ t th', exec .fixedLatencyWriteback s = .next t ∧ t.thread cid slot = some th' ∧ (th.sh = 0 → t.mem = s.mem) ∧
      (∀ g ∈ th'.flights, g.n ≠ n) ∧ (th'.regs.s.get k.toFin).val = f.val.setWidth 64 ∧ (th'.regs.s.get k.toFin).pres = true ∧
      (∀ j, j ≠ k → th'.regs.s.get j.toFin = th.regs.s.get j.toFin) ∧ th'.regs.v = th.regs.v ∧ th'.regs.m = th.regs.m := by
  have h1 := hasThread_dropFlight (n := n) hslot hth
  obtain ⟨th2, h2, e2⟩ := h1.thread_writeAt k (f.val.setWidth 64) (min f.land s.now)
  have hmem (hsh : th.sh = 0) := h1.writeAt_mem hsh k (f.val.setWidth 64) (min f.land s.now)
  have hregs : th2.regs = ((th.dropFlight n).coverS k (SCell.full (f.val.setWidth 64))).regs := by rw [e2]
  have hfl : th2.flights = (th.dropFlight n).flights := by rw [e2, Thread.coverS_eq]; rfl
  have hv : th2.regs.v = th.regs.v ∧ th2.regs.m = th.regs.m := by rw [hregs, Thread.coverS_eq]; exact ⟨rfl, rfl⟩
  have hself : th2.regs.s.get k.toFin = SCell.full (f.val.setWidth 64) := by rw [hregs, Thread.coverS_self]
  have hne (j) (hj : j ≠ k) : th2.regs.s.get j.toFin = th.regs.s.get j.toFin := by
    rw [hregs, Thread.coverS_ne hj]; rfl
  rw [writeback_scalar he hth hf hd]
  dsimp only
  split
  · refine ⟨_, _, rfl, (h2.updWho _).thread, hmem, fun g hg => th.dropFlight_ne n g (hfl ▸ hg), ?_, ?_, fun j hj => ?_, hv⟩
    · rw [Thread.setS_self, hself]; rfl
    · rw [Thread.setS_self, hself]; rfl
    · rw [← hne j hj]
      simp only [Thread.setS, Vector.get_eq_getElem]
      exact Vector.getElem_set_ne _ _ fun e => hj (BitVec.eq_of_toNat_eq e.symm)
  · exact ⟨_, _, rfl, h2.thread, hmem, fun g hg => th.dropFlight_ne n g (hfl ▸ hg), by rw [hself]; rfl, by rw [hself]; rfl, hne, hv⟩

theorem vectorResult_lands {k : VReg} (hd : f.dst = .v k) :
    ∃ t th', exec .fixedLatencyWriteback s = .next t ∧ t.thread cid slot = some th' ∧ t.mem = s.mem ∧
      (∀ g ∈ th'.flights, g.n ≠ n) ∧ (th'.regs.v.get k.toFin).pres = true ∧
      (∀ i < 4096, (th'.regs.v.get k.toFin).val.getLsbD i =
        if f.mask.getLsbD i then f.val.getLsbD i else (th.regs.v.get k.toFin).val.getLsbD i) ∧
      (∀ j, j ≠ k → th'.regs.v.get j.toFin = th.regs.v.get j.toFin) ∧ th'.regs.s = th.regs.s ∧ th'.regs.m = th.regs.m := by
  have h1 := hasThread_dropFlight (n := n) hslot hth
  refine ⟨_, _, writeback_vector he hth hf hd, (h1.updWho _ ?_).thread, rfl, ?_, ?_, fun i hi => ?_, fun j hj => ?_, ?_, ?_⟩
  all_goals rw [Thread.coverV_eq]
  · rfl
  · exact th.dropFlight_ne n
  · simp only [Thread.setV_self]
  · simp only [Thread.setV_self]
    exact getLsbD_mergeBits _ _ _ hi
  · exact Thread.setV_ne hj
  · rfl
  · rfl

theorem maskResult_lands {k : MReg} (hd : f.dst = .m k) :
    ∃ t th', exec .fixedLatencyWriteback s = .next t ∧ t.thread cid slot = some th' ∧ t.mem = s.mem ∧
      (∀ g ∈ th'.flights, g.n ≠ n) ∧
      (∀ i < 128, (th'.regs.m.get k.toFin).getLsbD i =
        if k ≠ 0#2 ∧ f.mask.getLsbD i = true then f.val.getLsbD i else (th.regs.m.get k.toFin).getLsbD i) ∧
      (∀ j, j ≠ k → th'.regs.m.get j.toFin = th.regs.m.get j.toFin) ∧ th'.regs.s = th.regs.s ∧ th'.regs.v = th.regs.v := by
  have h1 := hasThread_dropFlight (n := n) hslot hth
  obtain ⟨huid, hfl, hs, hv⟩ := (th.dropFlight n).setM_frame k ((th.regs.m.get k.toFin &&& ~~~(f.mask.setWidth 128)) |||
    (f.val.setWidth 128 &&& f.mask.setWidth 128))
  refine ⟨_, _, writeback_mask he hth hf hd, (h1.updWho _ huid).thread, rfl, fun g hg => th.dropFlight_ne n g (hfl ▸ hg),
    fun i hi => ?_, fun j hj => Thread.setM_get_ne _ hj _, hs, hv⟩
  rw [Thread.setM_get_self]
  by_cases hk : k = 0#2
  · simp [hk, Thread.dropFlight]
  · cases hm : f.mask.getLsbD i <;> simp [hk, hm, hi, Thread.dropFlight]

end

/-- The end of a stall count clears it and touches no other thread (R46). -/
theorem stallCount_ends {s : State} {cid slot n : Nat} {th : Thread} (he : s.evt = .stallCountExpiry cid slot n) (hslot : slot < 17)
    (hth : s.thread cid slot = some th) (hst : th.stall = some n) :
    ∃ t, exec .stallCountExpiry s = .next t ∧ t.thread cid slot = some { th with stall := none } ∧ t.mem = s.mem ∧
      ∀ c k, (c ≠ cid ∨ k ≠ slot) → t.thread c k = s.thread c k := by
  have heq : exec .stallCountExpiry s = .next (s.setThread cid slot (some { th with stall := none })) := by
    show execStallCountExpiry s = _
    unfold execStallCountExpiry State.updThread
    simp only [he, hth, hst, if_true]
  exact ⟨_, heq, State.thread_setThread_self _ _ _ _ hslot, rfl, fun c k h => State.thread_setThread_ne _ _ _ _ _ _ h⟩

/-- Settles O13, by where the result goes, and by the arrival of the shared value. -/
theorem timedResultsLand : Obligations.TimedResultsLand := by
  unfold Obligations.TimedResultsLand
  refine ⟨fun s cid slot n th f he hslot hth hf => ?_, fun s cid slot n th he hslot hth hst => stallCount_ends he hslot hth hst,
    fun s fam member j v cid uid tok c f he hf hp => sharedValueLands he hf hp⟩
  cases hd : f.dst with
  | s k =>
    obtain ⟨t, th', ht, hth', hmem, hfl, hrest⟩ := scalarResult_lands he hslot hth hf hd
    exact ⟨t, th', ht, hth', hmem, hfl, by rintro _ ⟨⟩; exact hrest, by rintro _ ⟨⟩, by rintro _ ⟨⟩⟩
  | v k =>
    obtain ⟨t, th', ht, hth', hmem, hfl, hrest⟩ := vectorResult_lands he hslot hth hf hd
    exact ⟨t, th', ht, hth', fun _ => hmem, hfl, by rintro _ ⟨⟩, by rintro _ ⟨⟩; exact hrest, by rintro _ ⟨⟩⟩
  | m k =>
    obtain ⟨t, th', ht, hth', hmem, hfl, hrest⟩ := maskResult_lands he hslot hth hf hd
    exact ⟨t, th', ht, hth', fun _ => hmem, hfl, by rintro _ ⟨⟩, by rintro _ ⟨⟩, by rintro _ ⟨⟩; exact hrest⟩

end Sys2Proof.Machine

end


-- ERET, HALT, ICI, TLBW, TLBI and MRES.
section

namespace Sys2Proof.Machine

theorem sysOnly_ok {s : State} (h : s.me.sys = true) : sysOnly s = .ok () := if_pos h

/-- A bundle that holds its thread changes nothing but the thread. -/
theorem holdOn_leaves (s : State) (tok : Nat) :
    ∃ t, (holdOn s tok : Except State State) = .error t ∧ t.cur = { s.cur with res := .held } ∧ t.mem = s.mem ∧
      ∀ c, (s.core c).SameButThreads (t.core c) := by
  let s0 : State := { s with cur := { s.cur with res := .held } }
  exact ⟨_, rfl, State.updMe_cur s0 _, State.updMe_mem s0 _, fun c => State.sameButThreads_updMe s0 _ c⟩

/-- A bundle that holds its thread for some cycles: the request that ends the hold is counted, and the core's own state and the
memory stand as they were. -/
theorem holdFor_leaves (s : State) (v : W64) (lat : Nat) :
    ∃ t, (holdFor s v lat : Except State State) = .error t ∧ t.cur = { s.cur with res := .held } ∧ t.mem = s.mem ∧
      ∀ c, (s.core c).SameButThreads (t.core c) := by
  let r : Req := { s.fresh.2.newReq s.fresh.1 (.value v) { va := 0, pa := 0, w1 := 0#64, own := true, extra := 0 } 0 0 with
    holds := true, lat := lat, st := .performed, res := v }
  let s1 : State := (s.fresh.2.addReq r).after s.cur.cid lat (.loadResponse s.fresh.1)
  obtain ⟨t, ht, hcur, hmem, hcore⟩ := holdOn_leaves s1 s.fresh.1
  have hcur1 : s1.cur = s.cur := State.addReq_cur s.fresh.2 r
  have hcore1 (c) : (s.core c).SameButThreads (s1.core c) := State.sameButThreads_addReq s.fresh.2 r c
  exact ⟨t, ht, by rw [hcur, hcur1], hmem.trans (State.addReq_mem s.fresh.2 r), fun c => (hcore1 c).trans (hcore c)⟩

/-- The core of the issuing bundle, when it holds its thread from s1. -/
theorem holdFor_myCore (s : State) (v : W64) (lat : Nat) :
    ∃ t, (holdFor s v lat : Except State State) = .error t ∧ t.cur.res = .held ∧ t.mem = s.mem ∧
      s.myCore.SameButThreads t.myCore := by
  obtain ⟨t, ht, hcur, hmem, hcore⟩ := holdFor_leaves s v lat
  refine ⟨t, ht, by rw [hcur], hmem, ?_⟩
  unfold State.myCore
  rw [hcur]
  exact hcore _

theorem State.myCore_updMyCore (s : State) (f : Core → Core) : (s.updMyCore f).myCore = { f s.myCore with cid := s.cur.cid } := by
  unfold State.myCore State.updMyCore
  exact State.core_updCore_self s s.cur.cid f

/-! ERET and HALT (R250, R251). -/

section

variable {h : Hdr} {s : State} (hs : s.Stands) (hsys : s.me.sys = true) (hg : gateC Uses.none s = .ok ())
include hsys hg

theorem exec_halt :
    exec (.halt h) s = .next ((commitNext s h .drops (loneW h)).updMe fun t => { t with hold := .wait .halted }) := by
  show execHalt h s = _
  unfold execHalt
  rw [sysOnly_ok hsys, hg]
  rfl

theorem exec_eret (hw : s.cur.slot ≠ 16) (hepc : s.me.csr.epc.extractLsb' 0 3 = 0#3) :
    exec (.eret h) s = .next ((commit s { h with st := 0#3 } .drops (loneW h) s.me.csr.epc).updMe fun t =>
      { t with sys := s.me.csr.estat.getLsbD 8, csr := { t.csr with estat := t.csr.estat &&& ~~~0xFF#64 }
               kext := t.kextKept, kextKept := none }) := by
  show Host.Outcome.next (run (eretOp h s)) = _
  unfold eretOp
  rw [sysOnly_ok hsys, hg]
  simp [bind, Except.bind, hw, hepc, run, pure, Except.pure]

theorem exec_eret_walker (hw : s.cur.slot = 16) {e : Miss} (he : oldestMiss s.myCore.mbox = some e) :
    exec (.eret h) s = .next (commit s { h with st := 0#3 } .drops (loneW h) s.myCore.wentry) := by
  show Host.Outcome.next (run (eretOp h s)) = _
  unfold eretOp
  rw [sysOnly_ok hsys, hg]
  simp [bind, Except.bind, hw, he, run, pure, Except.pure]

include hs

theorem eret_returns (hw : s.cur.slot ≠ 16) (hepc : s.me.csr.epc.toNat % 8 = 0) :
    ∃ t, exec (.eret h) s = .next t ∧ t.cur.res = .committed ∧ t.me.pc = s.me.csr.epc ∧
      t.me.sys = s.me.csr.estat.getLsbD 8 ∧ t.me.csr.estat = s.me.csr.estat &&& ~~~0xFF#64 ∧ t.me.kext = s.me.kextKept ∧
      t.me.kextKept = none ∧ t.me.stall = none ∧ t.me.regs = s.me.regs ∧ t.mem = s.mem := by
  have hlow : s.me.csr.epc.extractLsb' 0 3 = 0#3 := by
    apply BitVec.eq_of_toNat_eq
    simpa using hepc
  refine ⟨_, exec_eret hsys hg hw hlow, by simp [commit_res], ?_⟩
  rw [(hs.after_commit _ _ _ _).me_updMe, commit_me hs]
  exact ⟨rfl, rfl, rfl, rfl, rfl, rfl, rfl, by simp⟩

theorem eret_walker (hw : s.cur.slot = 16) {e : Miss} (he : oldestMiss s.myCore.mbox = some e) :
    ∃ t, exec (.eret h) s = .next t ∧ t.cur.res = .committed ∧ t.me.pc = s.myCore.wentry ∧ t.me.sys = true ∧
      t.me.regs = s.me.regs ∧ t.mem = s.mem := by
  refine ⟨_, exec_eret_walker hsys hg hw he, by rw [commit_res], ?_⟩
  rw [commit_me hs]
  exact ⟨rfl, hsys, rfl, by simp⟩

end

/-! ICI (R252). -/

section

variable {h : Hdr} {ra rb : SReg} {s : State} (hg : gateC { Uses.none with sr := [ra, rb] } s = .ok ())
include hg

theorem exec_ici_done {v : W64} (hd : s.me.hold = .done v) (hv : v ≠ partVal) :
    exec (.ici h ra rb) s = .next (commitNext s h .drops (loneW h)) := by
  have hp : s.progress = none := by
    unfold State.progress
    rw [hd, if_neg fun e => hv (Hold.done.inj e)]
  show Host.Outcome.next (run (iciOp h ra rb s)) = _
  unfold iciOp
  rw [hg, State.doneVal_of_done hd, hp]
  rfl

variable (hh : s.me.hold = .none) (ha : s.acqBlocked = false)
include hh ha

theorem exec_ici_empty (hb : s.regVal rb = 0#64) : exec (.ici h ra rb) s = .next (commitNext s h .drops (loneW h)) := by
  show Host.Outcome.next (run (iciOp h ra rb s)) = _
  unfold iciOp
  rw [hg, State.doneVal_of_none hh, memGate_ok ha]
  simp [bind, Except.bind, hb, run, pure, Except.pure]

/-- ICI over a range whose parts in L1 are dealt with, from the state s1 that this leaves: no line of the range stays in the
instruction buffer, and L1 stands as s1 has it. -/
theorem ici_drops (hb : s.regVal rb ≠ 0#64) {r : Range} {s1 : State}
    (ho : overRange false needLoad iciL1 (s.regVal ra).toNat (s.regVal rb).toNat 0 ((s.regVal rb).toNat / 0x10000 + 2) s
      { done := 0, lines := 0, ack := 0 } = .ok (r, s1)) :
    ∃ t, exec (.ici h ra rb) s = .next t ∧ t.cur.res = .held ∧
      (∀ l ∈ t.myCore.ibuf, l.line * 64 + 64 ≤ (s.regVal ra).toNat ∨ (s.regVal ra).toNat + (s.regVal rb).toNat ≤ l.line * 64) ∧
      t.myCore.l1 = s1.myCore.l1 := by
  have hn : (s.regVal rb).toNat ≠ 0 := fun e => hb (BitVec.eq_of_toNat_eq e)
  have hr0 : s.rangeFrom = { done := 0, lines := 0, ack := 0 } := by
    unfold State.rangeFrom State.progress
    rw [hh]
    rfl
  have hexec : iciOp h ra rb s = holdFor (s1.updMyCore fun c => { c with ibuf := c.ibuf.filter fun l =>
      !(decide ((s.regVal ra).toNat < (l.line + 1) * 64) && decide (l.line * 64 < (s.regVal ra).toNat + (s.regVal rb).toNat)) })
      0#64 (4 + r.lines) := by
    unfold iciOp
    rw [hg, State.doneVal_of_none hh, memGate_ok ha, hr0]
    simp only [bind, Except.bind, if_neg hn, ho]
  obtain ⟨t, ht, hres, -, sl, ru, k, hcore⟩ := holdFor_myCore (s1.updMyCore fun c => { c with ibuf := c.ibuf.filter fun l =>
      !(decide ((s.regVal ra).toNat < (l.line + 1) * 64) && decide (l.line * 64 < (s.regVal ra).toNat + (s.regVal rb).toNat)) })
      0#64 (4 + r.lines)
  refine ⟨t, congrArg Host.Outcome.next (by rw [hexec, ht]; rfl), hres, fun l hl => ?_, ?_⟩
  · rw [hcore, State.myCore_updMyCore] at hl
    have hl' := (List.mem_filter.1 hl).2
    simp only [Bool.not_eq_true', Bool.and_eq_false_iff, decide_eq_false_iff_not] at hl'
    omega
  · rw [hcore, State.myCore_updMyCore]

end

/-- The cleaning of the lines that a test selects leaves none of them dirty. -/
theorem State.l1Clean_dirty (s : State) (cid : Nat) (p : L1Line → Bool) :
    ∀ l ∈ ((s.l1Clean cid p).2.core cid).l1, p l = true → l.dirty = 0#32 := by
  intro l hl hpl
  unfold State.l1Clean at hl
  simp only [State.core_updCore_self, List.mem_map] at hl
  obtain ⟨x, -, rfl⟩ := hl
  split at hpl
  · rename_i hx; rw [if_pos hx]
  · contradiction

/-- ICI's part of one page, whose lines have no error and whose homes refuse none: they are cleaned. -/
theorem overRange_ici {a b : W64} {s s' : State} {x : Xl} (hb : b ≠ 0#64) (hab : a.toNat % 65536 + b.toNat ≤ 65536)
    (hx : access s a 1 1 needLoad true = .ok (x, s'))
    (hr : s'.refusedLine x b.toNat 32 0 (((s'.core s'.cur.cid).l1.filter fun l => l.over x.pa b.toNat && l.dirty != 0#32).map
      (·.line)) = none)
    (hp : s'.spoiltLine s'.cur.cid (·.over x.pa b.toNat) = none) :
    ∃ r, overRange false needLoad iciL1 a.toNat b.toNat 0 (b.toNat / 0x10000 + 2) s { done := 0, lines := 0, ack := 0 } =
      .ok (r, (s'.l1Clean s'.cur.cid (·.over x.pa b.toNat)).2) := by
  have hn : ¬b.toNat ≤ 0 := fun e => hb (BitVec.eq_of_toNat_eq (Nat.le_zero.1 e))
  have hk : min (b.toNat - 0) (0x10000 - (a.toNat + 0) % 2 ^ 64 % 0x10000) = b.toNat := by omega
  have ha : BitVec.ofNat 64 ((a.toNat + 0) % 2 ^ 64) = a := by
    rw [Nat.add_zero, Nat.mod_eq_of_lt a.isLt, BitVec.ofNat_toNat, BitVec.setWidth_eq]
  have hl1 : iciL1 s' x b.toNat = .ok ((s'.l1Clean s'.cur.cid (·.over x.pa b.toNat)).1, none,
      (s'.l1Clean s'.cur.cid (·.over x.pa b.toNat)).2) := by
    unfold iciL1 spoiltStop
    dsimp only
    rw [hr]
    dsimp only
    rw [hp]
    rfl
  have hf : b.toNat / 0x10000 + 2 = (b.toNat / 0x10000 + 1) + 1 := rfl
  rw [hf]
  unfold overRange
  rw [if_neg hn]
  dsimp only
  rw [Bool.false_and, if_neg Bool.false_ne_true, ha, hx]
  dsimp only
  rw [hk, hl1]
  dsimp only
  unfold overRange
  rw [if_pos (by simp)]
  exact ⟨_, rfl⟩

/-! TLBW and TLBI (R253, R254). -/

theorem mem_tlbPut (tlb : List TlbEntry) (n k : Nat) (e : TlbEntry) : e ∈ tlbPut tlb n k e := by
  unfold tlbPut
  dsimp only
  split <;> simp

theorem mem_tlb2Put (tlb : List TlbEntry) (k : Nat) (e : TlbEntry) : e ∈ tlb2Put tlb k e := by
  unfold tlb2Put
  dsimp only
  split
  · simp
  · split <;> simp

/-- The entry that TLBW installs (R253). -/
def tlbwEntry (a b : W64) : TlbEntry := { vpn := a.toNat / 2 ^ 23, sz := a.toNat / 2 ^ 21 % 4, w1 := b }

theorem tlbwEntry_eq (a b : W64) : ({ vpn := bits a.toNat 23 41, sz := bits a.toNat 21 2, w1 := b } : TlbEntry) = tlbwEntry a b := by
  have h : a.toNat / 2 ^ 23 < 2 ^ 41 := by have := a.isLt; omega
  unfold bits tlbwEntry
  rw [Nat.mod_eq_of_lt h]
  rfl

/-- The walker's miss that TLBW's entry would serve, and whose page TLBI has named since it was claimed (R317). -/
def State.tlbwHit (s : State) (e : TlbEntry) (m : Miss) : Bool :=
  s.cur.slot == 16 && e.covers (m.vpn * 2 ^ 16) && (m.stale || m.inval.any e.covers)

/-- The state from which TLBW holds its thread. -/
def State.tlbwPut (s : State) (a b : W64) : State :=
  if s.myCore.mbox.any (s.tlbwHit (tlbwEntry a b)) then
    s.updMyCore fun c => { c with mbox := c.mbox.map fun m => if s.tlbwHit (tlbwEntry a b) m then { m with stale := true } else m }
  else
    { s with freeCtr := s.freeCtr + 2 }.updMyCore fun c =>
      { c with tlb2 := tlb2Put c.tlb2 s.freeCtr (tlbwEntry a b)
               tlb1 := if bits a.toNat 20 1 = 1 then c.tlb1 else tlbPut c.tlb1 64 (s.freeCtr + 1) (tlbwEntry a b) }

section

variable {h : Hdr} {ra rb : SReg} {s : State} (hg : gateC { Uses.none with sr := [ra, rb] } s = .ok ()) (hsys : s.me.sys = true)
include hg hsys

theorem exec_tlbw_done {v : W64} (hd : s.me.hold = .done v) :
    exec (.tlbw h ra rb) s = .next (commitNext s h .drops (loneW h)) := by
  show Host.Outcome.next (run (tlbwOp h ra rb s)) = _
  unfold tlbwOp
  rw [sysOnly_ok hsys, hg, State.doneVal_of_done hd]
  rfl

theorem exec_tlbi_done {v : W64} (hd : s.me.hold = .done v) :
    exec (.tlbi h ra rb) s = .next (commitNext s h .drops (loneW h)) := by
  show Host.Outcome.next (run (tlbiOp h ra rb s)) = _
  unfold tlbiOp
  rw [sysOnly_ok hsys, hg, State.doneVal_of_done hd]
  rfl

variable (hh : s.me.hold = .none)
include hh

theorem tlbwOp_eq (hbad : tlbwBad (s.regVal ra).toNat (s.regVal rb).toNat = false) :
    tlbwOp h ra rb s = holdFor (s.tlbwPut (s.regVal ra) (s.regVal rb)) 0#64 2 := by
  unfold tlbwOp
  rw [sysOnly_ok hsys, hg, State.doneVal_of_none hh]
  simp only [bind, Except.bind, hbad, Bool.false_eq_true, if_false]
  rw [tlbwEntry_eq]
  rfl

/-- TLBW installs its entry where none of the walker's misses stands in its way; else these go stale, and the TLBs stay. -/
theorem tlbw_installs (hbad : tlbwBad (s.regVal ra).toNat (s.regVal rb).toNat = false) :
    let e := tlbwEntry (s.regVal ra) (s.regVal rb)
    let stale (m : Miss) : Prop := s.cur.slot = 16 ∧ e.covers (m.vpn * 2 ^ 16) = true ∧ (m.stale = true ∨ m.inval.any e.covers = true)
    ∃ t, exec (.tlbw h ra rb) s = .next t ∧ t.cur.res = .held ∧ t.mem = s.mem ∧
      ((∀ m ∈ s.myCore.mbox, ¬stale m) → e ∈ t.myCore.tlb2 ∧ ((s.regVal ra).getLsbD 20 = false → e ∈ t.myCore.tlb1)) ∧
      ∀ m ∈ s.myCore.mbox, stale m → t.myCore.tlb1 = s.myCore.tlb1 ∧ t.myCore.tlb2 = s.myCore.tlb2 ∧
        { m with stale := true } ∈ t.myCore.mbox := by
  intro e stale
  have hhit (m) : s.tlbwHit e m = true ↔ stale m := by simp [State.tlbwHit, stale, and_assoc]
  obtain ⟨t, ht, hres, hmem, sl, ru, k, hcore⟩ := holdFor_myCore (s.tlbwPut (s.regVal ra) (s.regVal rb)) 0#64 2
  have hexec : exec (.tlbw h ra rb) s = .next t := congrArg Host.Outcome.next (by rw [tlbwOp_eq hg hsys hh hbad, ht]; rfl)
  refine ⟨t, hexec, hres, ?_⟩
  rw [hcore, hmem]
  by_cases hany : s.myCore.mbox.any (s.tlbwHit e) = true
  · have hput : s.tlbwPut (s.regVal ra) (s.regVal rb) = s.updMyCore fun c =>
        { c with mbox := c.mbox.map fun m => if s.tlbwHit e m then { m with stale := true } else m } := if_pos hany
    rw [hput, State.myCore_updMyCore]
    obtain ⟨m0, hm0, hs0⟩ := List.any_eq_true.1 hany
    refine ⟨rfl, fun hno => absurd ((hhit m0).1 hs0) (hno m0 hm0), fun m hm hst => ⟨rfl, rfl, ?_⟩⟩
    exact List.mem_map.2 ⟨m, hm, if_pos ((hhit m).2 hst)⟩
  · have hput : s.tlbwPut (s.regVal ra) (s.regVal rb) = { s with freeCtr := s.freeCtr + 2 }.updMyCore fun c =>
        { c with tlb2 := tlb2Put c.tlb2 s.freeCtr e
                 tlb1 := if bits (s.regVal ra).toNat 20 1 = 1 then c.tlb1 else tlbPut c.tlb1 64 (s.freeCtr + 1) e } := if_neg hany
    rw [hput, State.myCore_updMyCore]
    refine ⟨rfl, fun _ => ⟨mem_tlb2Put _ _ _, fun h20 => ?_⟩, fun m hm hst => absurd (List.any_eq_true.2 ⟨m, hm, (hhit m).2 hst⟩) hany⟩
    have hbit : bits (s.regVal ra).toNat 20 1 ≠ 1 := by
      rw [BitVec.getLsbD, Nat.testBit_eq_decide_div_mod_eq] at h20
      exact of_decide_eq_false h20
    show e ∈ if bits (s.regVal ra).toNat 20 1 = 1 then _ else _
    rw [if_neg hbit]
    exact mem_tlbPut _ _ _ _

end

/-- Of the TLBs of a core TLBI leaves the entries that do not cover its address, and none where it names all. -/
theorem Core.mem_tlbInval {c : Core} {va : Nat} {all : Bool} {e : TlbEntry}
    (h : e ∈ (c.tlbInval va all).tlb1 ∨ e ∈ (c.tlbInval va all).tlb2) : all = false ∧ e.covers va = false := by
  have hkeep : (!(all || e.covers va)) = true := by
    rcases h with h | h <;> exact (List.mem_filter.1 h).2
  simpa using hkeep

/-- Where a thread stands, the list of cores has its core. -/
theorem State.core_mem_of_thread {s : State} {cid slot : Nat} {th : Thread} (h : s.thread cid slot = some th) :
    ∃ c ∈ s.cores, c.cid = cid := by
  unfold State.thread State.core at h
  cases hfind : s.cores.find? fun c => c.cid == cid with
  | some c => exact ⟨c, List.mem_of_find?_eq_some hfind, by simpa using List.find?_some hfind⟩
  | none =>
    rw [hfind] at h
    cases ((Core.fresh_values cid 0 []).1 slot).symm.trans h

/-- A change of every core that keeps their numbers reaches each core of the list. -/
theorem State.core_map {s : State} {f : Core → Core} (hf : ∀ c, (f c).cid = c.cid) {cid : Nat}
    (hc : ∃ c ∈ s.cores, c.cid = cid) : ({ s with cores := s.cores.map f } : State).core cid = f (s.core cid) := by
  unfold State.core
  have hpred : ((fun c : Core => c.cid == cid) ∘ f) = fun c => c.cid == cid := funext fun c => by simp [hf]
  show ((s.cores.map f).find? _).getD _ = _
  rw [List.find?_map, hpred]
  cases hfind : s.cores.find? fun c => c.cid == cid with
  | some c => rfl
  | none =>
    obtain ⟨c, hm, he⟩ := hc
    exact absurd (List.find?_eq_none.1 hfind c hm) (by simp [he])

/-- The state from which TLBI holds its thread: the entries are gone from this core's TLBs, or from those of the partition's. -/
def State.tlbiFrom (s : State) (va v : Nat) : State :=
  if v / 4 = 1 then
    { s with cores := s.cores.map fun c =>
      if c.cid == s.cur.cid || (s.partOf s.cur.cid).any fun p => p.hasSg (sgOf c.cid) then c.tlbInval va (v % 4 = 1) else c }
  else s.updMyCore fun c => c.tlbInval va (v % 4 = 1)

theorem State.tlbiFrom_leaves {s : State} (hs : s.Stands) (va v : Nat) :
    (s.tlbiFrom va v).mem = s.mem ∧ (s.tlbiFrom va v).cur = s.cur ∧ (s.tlbiFrom va v).myCore = s.myCore.tlbInval va (v % 4 = 1) := by
  unfold State.tlbiFrom
  split
  · refine ⟨rfl, rfl, ?_⟩
    unfold State.myCore
    rw [State.core_map (fun c => by split <;> rfl) (State.core_mem_of_thread hs.2)]
    simp [State.core_cid]
  · refine ⟨rfl, rfl, ?_⟩
    rw [State.myCore_updMyCore]
    show { s.myCore.tlbInval va (v % 4 = 1) with cid := s.cur.cid } = _
    rw [← State.core_cid s s.cur.cid]
    rfl

theorem tlbi_removes {h : Hdr} {ra rb : SReg} {s : State} (hs : s.Stands) (hg : gateC { Uses.none with sr := [ra, rb] } s = .ok ())
    (hsys : s.me.sys = true) (hh : s.me.hold = .none) (hb : (s.regVal rb).toNat < 8) (hb4 : (s.regVal rb).toNat % 4 < 2) :
    ∃ t, exec (.tlbi h ra rb) s = .next t ∧ t.cur.res = .held ∧ t.mem = s.mem ∧
      ∀ e, e ∈ t.myCore.tlb1 ∨ e ∈ t.myCore.tlb2 → (s.regVal rb).toNat % 4 = 0 ∧ e.covers (s.regVal ra).toNat = false := by
  have hop : ∃ lat, tlbiOp h ra rb s = holdFor (s.tlbiFrom (s.regVal ra).toNat (s.regVal rb).toNat) 0#64 lat := by
    unfold tlbiOp State.tlbiFrom
    rw [sysOnly_ok hsys, hg, State.doneVal_of_none hh]
    have hok : ¬((8 : Nat) ≤ (s.regVal rb).toNat || 2 ≤ (s.regVal rb).toNat % 4) = true := by simp; omega
    simp only [bind, Except.bind, if_neg hok]
    split <;> exact ⟨_, rfl⟩
  obtain ⟨lat, hop⟩ := hop
  obtain ⟨hmem0, hcur0, hcore0⟩ := State.tlbiFrom_leaves hs (s.regVal ra).toNat (s.regVal rb).toNat
  obtain ⟨t, ht, hres, hmem, sl, ru, k, hcore⟩ := holdFor_myCore (s.tlbiFrom (s.regVal ra).toNat (s.regVal rb).toNat) 0#64 lat
  refine ⟨t, congrArg Host.Outcome.next (by rw [hop, ht]; rfl), hres, hmem.trans hmem0, fun e he => ?_⟩
  rw [hcore, hcore0] at he
  obtain ⟨hall, hcov⟩ := Core.mem_tlbInval he
  exact ⟨by have := of_decide_eq_false hall; omega, hcov⟩

/-! MRES (R256).  Much of it only makes steps due. -/

/-- What t changes of s is what is due and which core has its turn. -/
structure State.Schedules (s t : State) : Prop where
  now : t.now = s.now
  cores : t.cores = s.cores
  cur : t.cur = s.cur
  mem : t.mem = s.mem
  tags : t.tags = s.tags

namespace State.Schedules

theorem refl (s : State) : s.Schedules s := ⟨rfl, rfl, rfl, rfl, rfl⟩

theorem trans {s t u : State} (h : s.Schedules t) (k : t.Schedules u) : s.Schedules u :=
  ⟨k.now.trans h.now, k.cores.trans h.cores, k.cur.trans h.cur, k.mem.trans h.mem, k.tags.trans h.tags⟩

theorem foldl {α : Type} {f : State → α → State} (hf : ∀ (s : State) x, s.Schedules (f s x)) (l : List α) (s : State) :
    s.Schedules (l.foldl f s) := by
  induction l generalizing s with
  | nil => exact refl s
  | cons x l ih => exact (hf s x).trans (ih _)

theorem urgent (s : State) (e : Ev) : s.Schedules (s.urgent e) := ⟨rfl, rfl, rfl, rfl, rfl⟩

theorem dropDue (s : State) (p : Ev → Bool) : s.Schedules (s.dropDue p) := ⟨rfl, rfl, rfl, rfl, rfl⟩

theorem again (s : State) (cid : Nat) : s.Schedules (s.again cid) := ⟨by simp, by simp, by simp, by simp, by simp⟩

theorem mxKick (s : State) (cid : Nat) : s.Schedules (s.mxKick cid) := by
  have h : s.Schedules (match (s.core cid).headStep s.now with | some e => s.urgent e | none => s) := by
    split
    · exact urgent s _
    · exact refl s
  unfold State.mxKick
  dsimp only
  split
  · exact h.trans (urgent _ _)
  · exact h

theorem tileChanged (s : State) (cid : Nat) : s.Schedules (s.tileChanged cid) := by
  have h : s.Schedules ((s.mxKick cid).again cid) := (mxKick s cid).trans (again _ cid)
  unfold State.tileChanged
  dsimp only
  split
  · exact h
  · exact h.trans (urgent _ _)

theorem releaseCheck (s : State) (cid t : Nat) : s.Schedules (s.releaseCheck cid t) := by
  unfold State.releaseCheck
  dsimp only
  split
  · exact urgent s _
  · exact refl s

theorem core {s t : State} (h : s.Schedules t) (c : Nat) : t.core c = s.core c := State.core_congr h.cores c

theorem myCore {s t : State} (h : s.Schedules t) : t.myCore = s.myCore := by
  unfold State.myCore
  rw [h.cur, h.core]

theorem sameThreads {s t : State} (h : s.Schedules t) : s.SameThreads t := .of_cores h.cores (by rw [h.cur]) (by rw [h.cur])

end State.Schedules

/-- The matrix engine of a core, reset; toks are the operations whose tiles it was reading. -/
def Core.mxReset (c : Core) (toks : List Nat) : Core :=
  { c with
    mq := [], groups := none, pass := none, active := none, shadow := .empty, spall := [], loads := 0, swaps := 0, late := []
    stallAt := none
    acc := c.acc.map fun a => { a with inv := true }
    tiles := c.tiles.map fun t => { t with readers := t.readers.filter fun r => !toks.contains r } }

/-- What was reading a tile for the matrix engine. -/
def Core.mxTokens (c : Core) : List Nat :=
  c.mq.map (·.tok) ++ c.groups.toList.map (·.tok) ++ c.pass.toList.map (·.tok) ++
    match c.shadow with
    | .loading _ _ tok => [tok]
    | _ => []

/-- The reset changes the core's matrix engine and makes steps due. -/
theorem State.matrixReset_leaves (s : State) (cid : Nat) :
    (s.matrixReset cid).cur = s.cur ∧ (s.matrixReset cid).mem = s.mem ∧ s.SameThreads (s.matrixReset cid) ∧
      (s.matrixReset cid).core cid = { (s.core cid).mxReset (s.core cid).mxTokens with cid := cid } := by
  let s1 : State := (s.dropDue fun e => Ev.isMatrix e cid).updCore cid fun c => c.mxReset (s.core cid).mxTokens
  have hdue (u : State) (xs : List Xfer) (ts : List Nat) : u.Schedules (ts.foldl (fun s t => s.releaseCheck cid t)
      (xs.foldl (fun s x => s.urgent (.tileBytesArrive cid x.tok)) (u.tileChanged cid))) :=
    ((State.Schedules.tileChanged u cid).trans (.foldl (fun s x => .urgent s _) xs _)).trans (.foldl (fun s t => .releaseCheck s cid t) ts _)
  have h : s1.Schedules (s.matrixReset cid) := hdue s1 ((s.core cid).xfers.filter (·.ended)) (List.range 64)
  have h1 : s.SameThreads s1 := (State.Schedules.dropDue s _).sameThreads.trans
    (State.SameThreads.updCore (f := fun c => c.mxReset (s.core cid).mxTokens) (fun _ => rfl) cid)
  exact ⟨h.cur, h.mem, h1.trans h.sameThreads, (h.core cid).trans (State.core_updCore_self _ cid _)⟩

/-- The core whose copy queue goes on; with discard the commands left are those of q, and no tile waits to be copied out. -/
def Core.cqResume (c : Core) (discard : Bool) (q : List CopyCmd) : Core :=
  if discard then { c with cqHalted := false, cq := q, tiles := c.tiles.map fun t => { t with out := none } }
  else { c with cqHalted := false }

/-- A change of a core, where other things have only been made due before. -/
theorem State.Schedules.core_updCore {s t : State} (h : s.Schedules t) (cid : Nat) (f : Core → Core) :
    (t.updCore cid f).core cid = { f (s.core cid) with cid := cid } := by
  rw [State.core_updCore_self, h.core]

/-- The resumption changes the core's copy queue and makes steps due, last the start of the queue's head. -/
theorem State.queueResume_leaves (s : State) (cid : Nat) (discard : Bool) :
    ∃ u : State, s.queueResume cid discard = u.urgent (.copyCommandStart cid) ∧ u.now = s.now ∧ u.cur = s.cur ∧ u.mem = s.mem ∧
      s.SameThreads u ∧ u.core cid =
        { (s.core cid).cqResume discard ((s.core cid).cq.filter fun q => decide (s.now < q.from_)) with cid := cid } := by
  have h0 : s.Schedules (((s.core cid).xfers.filter (s.core cid).halts).foldl (fun s x =>
      x.recvs.foldl (fun s r => s.urgent (.tileBytesArrive r.cid x.tok)) s) s) :=
    .foldl (fun s x => .foldl (fun s r => .urgent s _) _ _) _ _
  unfold State.queueResume
  revert h0
  generalize ((s.core cid).xfers.filter (s.core cid).halts).foldl (fun s x =>
      x.recvs.foldl (fun s r => s.urgent (.tileBytesArrive r.cid x.tok)) s) s = s0
  intro h0
  have h1 : s.SameThreads (s0.updCore cid fun c => { c with cqHalted := false }) :=
    h0.sameThreads.trans (State.SameThreads.updCore (f := fun c => { c with cqHalted := false }) (fun _ => rfl) cid)
  cases discard
  · exact ⟨_, rfl, h0.now, h0.cur, h0.mem, h1, h0.core_updCore cid _⟩
  · have h3 (u : State) : u.Schedules (((List.range 64).filter fun t => ((s.core cid).tile t).out.isSome).foldl
      (fun s t => s.releaseCheck cid t) u) := .foldl (fun s t => .releaseCheck s cid t) _ _
    refine ⟨_, rfl, (h3 _).now.trans h0.now, (h3 _).cur.trans h0.cur, (h3 _).mem.trans h0.mem,
      (h1.trans (State.SameThreads.updCore (f := fun c => { c with
        cq := (s.core cid).cq.filter fun q => decide (s.now < q.from_), tiles := c.tiles.map fun t => { t with out := none } })
        (fun _ => rfl) cid)).trans (h3 _).sameThreads, ?_⟩
    rw [(h3 _).core, State.core_updCore_self, h0.core_updCore]
    rfl

section

variable {h : Hdr} {ra : SReg} {s : State} (hs : s.Stands) (hsys : s.me.sys = true)
  (hg : gateC { Uses.none with sr := [ra] } s = .ok ())
include hsys hg

theorem mresOp_eq (ha : (s.regVal ra).toNat < 3) :
    mresOp h ra s = .ok (if (s.regVal ra).toNat = 2 then (commitNext s h .drops (loneW h)).matrixReset s.cur.cid
      else (commitNext s h .drops (loneW h)).queueResume s.cur.cid ((s.regVal ra).toNat == 1)) := by
  unfold mresOp
  rw [sysOnly_ok hsys, hg]
  simp only [bind, Except.bind, if_neg (show ¬(3 ≤ (s.regVal ra).toNat) by omega)]
  split <;> rfl

include hs

/-- The operations 0 and 1: the copy queue goes on, with 1 without its commands. -/
theorem mres_resumes {i : Instr} (hi : exec i s = .next (run (mresOp h ra s))) {discard : Bool}
    (ha : s.regVal ra = if discard then 1#64 else 0#64) :
    ∃ t, exec i s = .next t ∧ t.cur.res = .committed ∧ t.me.pc = s.me.pc + 8#64 ∧ t.mem = s.mem ∧ t.myCore.cqHalted = false ∧
      t.myCore.cq = (if discard then s.myCore.cq.filter fun q => decide (s.now < q.from_) else s.myCore.cq) ∧
      (discard = true → ∀ x ∈ t.myCore.tiles.toList, x.out = none) ∧
      t.agenda.head? = some { at_ := s.now, what := .copyCommandStart s.cur.cid } := by
  have hop : mresOp h ra s = .ok ((commitNext s h .drops (loneW h)).queueResume s.cur.cid discard) := by
    cases discard <;> simp [mresOp_eq hsys hg, ha]
  obtain ⟨u, hu, hnow, hcur, hmem, hth, hcore⟩ := (commitNext s h .drops (loneW h)).queueResume_leaves s.cur.cid discard
  have hc : (commitNext s h .drops (loneW h)).cur = { s.cur with res := .committed } := commit_res s h .drops _ _
  have hpc : (commitNext s h .drops (loneW h)).me.pc = s.me.pc + 8#64 := congrArg Thread.pc (commit_me hs h .drops _ _)
  have hm : (commitNext s h .drops (loneW h)).mem = s.mem := commit_mem s h .drops _ _
  have hn : (commitNext s h .drops (loneW h)).now = s.now := commit_now s h .drops _ _
  obtain ⟨sl, ru, k, hgo⟩ : s.myCore.SameButThreads ((commitNext s h .drops (loneW h)).core s.cur.cid) :=
    s.sameButThreads_commit h .drops _ _ _
  rw [hu] at hop
  revert hnow hcur hmem hth hcore hc hpc hm hn hgo
  generalize commitNext s h .drops (loneW h) = go
  intro hnow hcur hmem hth hcore hc hpc hm hn hgo
  have hmy : (u.urgent (.copyCommandStart s.cur.cid)).myCore = u.core s.cur.cid := by
    show u.core u.cur.cid = _
    rw [hcur, hc]
  have hme : u.me = go.me := by unfold State.me; rw [hth.thread, hth.cid, hth.slot]
  refine ⟨u.urgent (.copyCommandStart s.cur.cid), by rw [hi, hop]; rfl, ?_, ?_, hmem.trans hm, ?_⟩
  · show u.cur.res = _; rw [hcur, hc]
  · show u.me.pc = _; rw [hme, hpc]
  rw [hmy, hcore, hgo, hn]
  refine ⟨by cases discard <;> rfl, by cases discard <;> rfl, fun hd x hx => ?_, ?_⟩
  · subst hd
    simp only [Core.cqResume, if_true, Vector.toList_map, List.mem_map] at hx
    obtain ⟨y, -, rfl⟩ := hx
    rfl
  · show some _ = _; rw [hnow, hn]

/-- The operation 2: the matrix engine is reset. -/
theorem mres_resets {i : Instr} (hi : exec i s = .next (run (mresOp h ra s))) (ha : s.regVal ra = 2#64) :
    ∃ t, exec i s = .next t ∧ t.cur.res = .committed ∧ t.me.pc = s.me.pc + 8#64 ∧ t.mem = s.mem ∧
      t.myCore.mq = [] ∧ t.myCore.pass = none ∧ t.myCore.active = none ∧ t.myCore.shadow = .empty ∧
      t.myCore.spall = [] ∧ ∀ i < 4, (t.myCore.accAt i).inv = true := by
  have hop : mresOp h ra s = .ok ((commitNext s h .drops (loneW h)).matrixReset s.cur.cid) := by
    simp [mresOp_eq hsys hg, ha]
  obtain ⟨hcur, hmem, hth, hcore⟩ := (commitNext s h .drops (loneW h)).matrixReset_leaves s.cur.cid
  have hc : (commitNext s h .drops (loneW h)).cur = { s.cur with res := .committed } := commit_res s h .drops _ _
  have hpc : (commitNext s h .drops (loneW h)).me.pc = s.me.pc + 8#64 := congrArg Thread.pc (commit_me hs h .drops _ _)
  have hm : (commitNext s h .drops (loneW h)).mem = s.mem := commit_mem s h .drops _ _
  revert hop hcur hmem hth hcore hc hpc hm
  generalize commitNext s h .drops (loneW h) = go
  generalize go.matrixReset s.cur.cid = t
  intro hop hcur hmem hth hcore hc hpc hm
  have hmy : t.myCore = t.core s.cur.cid := by unfold State.myCore; rw [hcur, hc]
  have hme : t.me = go.me := by unfold State.me; rw [hth.thread, hth.cid, hth.slot]
  refine ⟨t, by rw [hi, hop]; rfl, by rw [hcur, hc], by rw [hme, hpc], hmem.trans hm, ?_⟩
  rw [hmy, hcore]
  refine ⟨rfl, rfl, rfl, rfl, rfl, fun i hi => ?_⟩
  simp [Core.accAt, Core.mxReset, hi]

end

/-- Settles O47, each instruction by what it does once its checks are passed. -/
theorem systemInstructionsComplete : Obligations.SystemInstructionsComplete := by
  unfold Obligations.SystemInstructionsComplete
  intro h ra rb s hs hb next a b go
  refine ⟨fun hsys hu => ?_, fun hu => ?_, fun hsys hu => ?_⟩
  · have hg := gateC_usable hu hb
    exact ⟨exec_halt hsys hg, fun hw hepc => eret_returns hs hsys hg hw hepc, fun e hw he => eret_walker hs hsys hg hw he⟩
  · have hg := gateC_usable hu hb
    refine ⟨fun v hd => ⟨exec_ici_done hg hd, fun hsys => ⟨exec_tlbw_done hg hsys hd, exec_tlbi_done hg hsys hd⟩⟩,
      fun hh ha => ⟨exec_ici_empty hg hh ha, fun r s1 hb0 ho => ?_, fun x s' hb0 hab hx hr hp => ?_⟩,
      fun hh hsys => ⟨tlbw_installs hg hsys hh, tlbi_removes hs hg hsys hh⟩⟩
    · obtain ⟨t, ht, hres, hibuf, -⟩ := ici_drops hg hh ha hb0 ho
      exact ⟨t, ht, hres, hibuf⟩
    · obtain ⟨r, ho⟩ := overRange_ici hb0 hab hx hr hp
      obtain ⟨t, ht, hres, hibuf, hl1⟩ := ici_drops hg hh ha hb0 ho
      refine ⟨t, ht, hres, hibuf, fun l hl hover => ?_⟩
      rw [hl1, State.myCore, (s'.calm_l1Clean _ _).cid] at hl
      exact s'.l1Clean_dirty _ _ l hl hover
  · have hg := gateC_usable hu hb
    have hall (i : Instr) (hi : exec i s = .next (run (mresOp h ra s))) := And.intro
      (fun ha : a = 0#64 ∨ a = 1#64 => mres_resumes (discard := decide (a = 1#64)) hs hsys hg hi (by
        rcases ha with ha | ha <;> simp [a, ha] at *))
      (fun ha : a = 2#64 => mres_resets hs hsys hg hi ha)
    simp only [decide_eq_true_eq] at hall
    exact ⟨hall _ rfl, hall _ rfl, hall _ rfl⟩

end Sys2Proof.Machine

end


-- What the C-slot instructions leave alone: a register's pending mark that they do not.
section

namespace Sys2Proof.Machine

/-! A load at a TRAV page of another die makes its thread travel first (R143), and the travel syncs the thread's families, one
after the other (R135).  Where the first of them is done and a later one is not, the bundle is not ready; but the first family's
hsrc register, in which its shared was awaited, waits no more, though it is no destination of the load. -/

/-- A family that the thread of number 7 has created, which returns one shared to s2. -/
def travelKid (uid : Nat) (st : FamState) : Family :=
  { uid := uid, id := 0#64, cid := 0, ent := 0, kind := .alloc, st := st,
    desc := { start := 0, limit := 1, step := 1, ind := false, body := 0#64, block := 0, hsrc := 2, gsrc := 0, v := 0, l := 1, s := 1,
              g := 0 }
    place := { cores := [0], cyclic := false, fallback := 0#2, dcores := [] }, n := 1, det := false, rev := none,
    inRev := none, task := none, part := 0, slice := none, parentFam := none, parentUid := 7, parentCid := 0,
    parentSlot := 0, globals := [], init := [0#64], start := { fmode := 0#64, wlim := 0#64, chk := 0#64 }, shares := []
    links := [], outs := [], brk := none, flags := fNone, ended := .none, replay := 0, side := false, synced := false, doneAt := 0,
    away := false, ctr := none }

/-- The thread that travels: a member of family 20, whose s2 is pending and whose other registers hold an address of the page. -/
def travelThread : Thread :=
  { Thread.blank with
    uid := 7, fam := some 20, l := 16, kids := [21, 22]
    regs := { Regs.start with
      s := (Vector.replicate 16 (SCell.full 0x210000#64)).set 2 { val := 0#64, pres := false, pend := true, fail := none } } }

/-- Its partition has a supergroup on dies 0 and 1; the page at 0x210000 has TRAV = 1 and lies on die 1. -/
def travelState : State :=
  (({ State.reset with
    parts := [{ Part.fresh 0 with valid := true, sgs := 0x21#20 }]
    dev := { Device.fresh with service := .full, mhz := Vector.replicate 4 1200 }
    fams := [travelKid 21 .done, travelKid 22 .running] }).updCore 0 fun c =>
      { c with tlb1 := [{ vpn := 0x21, sz := 0, w1 := 0x2CB418005B#64 }] }).setThread 0 0 (some travelThread)

/-- LD s0, [s1]. -/
def travelLoad : Instr := .ld { st := 0#3, lit := none } (.s 0#4) (.s 1#4) { sz := 3#2, ord := 0#2, sc := .core, dsp := 0#5 }

/-- The bundle is not ready, its thread stands, and s2 is marked pending no more. -/
def unmarksS2 (o : Out) : Bool :=
  match o with
  | .next t => t.cur.res == .notReady && (t.thread 0 0).any fun th => th.uid == 7 && !(th.regs.s.get 2).pend
  | _ => false

theorem travelState_stands : travelState.Stands :=
  ⟨by decide, by decide +kernel⟩

theorem travelState_s2_pending : (travelState.me.regs.s.get 2).pend = true := by decide +kernel

theorem travelLoad_unmarksS2 : unmarksS2 (exec travelLoad travelState) = true := by decide +kernel

/-- Refutes O60: the load at the TRAV page is not ready, and yet it has changed s2, the hsrc register of a family that is done, which
is no destination of the load. -/
theorem not_registersAndMemoryElsewhere : ¬ Obligations.RegistersAndMemoryElsewhere := by
  unfold Obligations.RegistersAndMemoryElsewhere
  intro h
  obtain ⟨t, ht⟩ := exec_next travelLoad travelState
  have hout := travelLoad_unmarksS2
  rw [ht] at hout
  simp only [unmarksS2, Bool.and_eq_true, beq_iff_eq, Option.any_eq_true, Bool.not_eq_true'] at hout
  obtain ⟨hres, th, hth, huid, hpend⟩ := hout
  have huid' : th.uid = travelState.me.uid := huid.trans (by decide +kernel)
  obtain ⟨hs, -⟩ := (h travelLoad travelState t th travelState_stands ht (by rw [hres]; exact fun _ e => by cases e) hth huid').1 rfl
  have hs2 := congrArg SCell.pend (hs 2#4 (by decide))
  exact absurd (hpend.symm.trans (hs2.trans travelState_s2_pending)) (by decide)

end Sys2Proof.Machine

end


-- The reductions and the prefixes of a vector.
section

namespace Sys2Proof.Machine

/-! The integer operations and the rule's values agree on codes of the element's width; a floating operation is the rule's own. -/

/-- A code that an element of the type can have, where the type is an integer one. -/
def IsIntCode (t : VTy) (x : Nat) : Prop := t.ff = none → x < 2 ^ t.bits

/-- The operation is f on the codes of each type, and its integer results are codes again. -/
def AgreesOnCodes (op f : Elem2) : Prop :=
  ∀ t m a b, IsIntCode t a → IsIntCode t b → op t m a b = f t m a b ∧ IsIntCode t (op t m a b).1

theorem isIntCode_of_lt {t : VTy} {x : Nat} (h : x < 2 ^ t.bits) : IsIntCode t x := fun _ => h

theorem isIntCode_elems {v : VWord} {t : VTy} {n x : Nat} (h : x ∈ elems v t.bits n) : IsIntCode t x := by
  obtain ⟨i, -, rfl⟩ := List.mem_map.1 h
  exact isIntCode_of_lt (BitVec.isLt _)

/-- The signed value of a code is that of its bits. -/
theorem sElem_eq_toInt {w x : Nat} (hw : 0 < w) (hx : x < 2 ^ w) : sElem w x = (BitVec.ofNat w x).toInt := by
  have hp := Nat.two_pow_pred_add_two_pow_pred hw
  have hc : x < 2 ^ (w - 1) ↔ 2 * x < 2 ^ w := by omega
  simp only [BitVec.toInt_eq_toNat_cond, BitVec.toNat_ofNat, Nat.mod_eq_of_lt hx, sElem, hc, Nat.cast_pow, Nat.cast_ofNat]

theorem elemBits_pos (t : VTy) : 0 < t.bits := by cases t <;> decide

/-- An operation by signedness does f on the integer values, wrapped to the width, where each of its two forms does. -/
theorem arith_agrees (g : FF → RMode → Nat → Nat → Nat × Flags) {fs fu : (n : Nat) → BitVec n → BitVec n → BitVec n}
    {f : Int → Int → Int} (hs : ∀ w (x y : BitVec w), fs w x y = BitVec.ofInt w (f x.toInt y.toInt))
    (hu : ∀ w (x y : BitVec w), fu w x y = BitVec.ofInt w (f x.toNat y.toNat)) :
    AgreesOnCodes (arith g fs fu) (vNum f g) := by
  intro t m a b ha hb
  unfold arith vNum
  cases ht : t.ff with
  | some k => exact ⟨rfl, fun h => absurd (ht.symm.trans h) nofun⟩
  | none =>
    refine ⟨?_, isIntCode_of_lt (BitVec.isLt _)⟩
    have ha := ha ht
    have hb := hb ht
    simp only [onBits, wrapElem, VTy.int]
    cases t.signed
    · simp [hu, Nat.mod_eq_of_lt ha, Nat.mod_eq_of_lt hb]
    · simp [hs, sElem_eq_toInt (elemBits_pos t) ha, sElem_eq_toInt (elemBits_pos t) hb]

theorem bitwise_agrees (g : (n : Nat) → BitVec n → BitVec n → BitVec n) : AgreesOnCodes (bitwise g) (vBit g) :=
  fun _ _ _ _ _ _ => ⟨rfl, isIntCode_of_lt (BitVec.isLt _)⟩

theorem redSum_agrees : AgreesOnCodes redSum.op (vNum (· + ·) fAdd) :=
  arith_agrees fAdd (fun w x y => by simp [iAdd, BitVec.ofInt_add]) (fun w x y => by simp [iAdd, BitVec.ofInt_add])

/-- The rule's minimum is the operand that the comparison picks. -/
theorem redMin_agrees : AgreesOnCodes redMin.op (vNum min fun k _ => fMinMax k false) :=
  arith_agrees _ (fun w x y => by rw [min_def_lt']; simp only [iMin]; split <;> simp)
    (fun w x y => by rw [min_def_lt']; simp only [iMinn, Int.ofNat_lt]; split <;> simp)

theorem redMax_agrees : AgreesOnCodes redMax.op (vNum max fun k _ => fMinMax k true) :=
  arith_agrees _ (fun w x y => by rw [max_def_lt]; simp only [iMax]; split <;> simp)
    (fun w x y => by rw [max_def_lt]; simp only [iMaxn, Int.ofNat_lt]; split <;> simp)

/-! The pairwise tree and the prefixes (R81) of two operations that agree on the values met. -/

section

variable {P : Nat → Prop} {f g : Nat → Nat → Nat × Flags} (h : ∀ a b, P a → P b → f a b = g a b ∧ P (f a b).1)
include h

/-- A level of the tree, of values on which two operations agree. -/
theorem pairUp_congr : ∀ {xs : List Nat}, (∀ x ∈ xs, P x) → pairUp f xs = pairUp g xs ∧ ∀ y ∈ pairUp f xs, P y.1
  | [], _ => ⟨rfl, nofun⟩
  | [a], hx => ⟨rfl, by simpa [pairUp] using hx⟩
  | a :: b :: r, hx => by
    obtain ⟨hab, hp⟩ := h a b (hx a (by simp)) (hx b (by simp))
    obtain ⟨hr, hpr⟩ := pairUp_congr (xs := r) fun x hm => hx x (by simp [hm])
    exact ⟨by rw [pairUp, pairUp, hab, hr], by simpa [pairUp] using ⟨hp, fun x fl => hpr (x, fl)⟩⟩

theorem treeOf_congr (k : Nat) : ∀ {xs : List Nat} (fl : Flags), (∀ x ∈ xs, P x) → treeOf f k xs fl = treeOf g k xs fl := by
  induction k with
  | zero => exact fun _ _ => rfl
  | succ k ih =>
    intro xs fl hx
    obtain ⟨he, hp⟩ := pairUp_congr h hx
    rw [treeOf, treeOf, ← he]
    exact ih _ (by simpa using fun x fl => hp (x, fl))

/-- The prefixes, of values on which two operations agree. -/
theorem scanGo_congr : ∀ {xs : List (Nat × Bool)} {p : Option Nat}, (∀ x ∈ xs, P x.1) → (∀ q, p = some q → P q) →
    scanGo f xs p = scanGo g xs p
  | [], _, _, _ => rfl
  | (x, false) :: r, p, hx, hp => by
    rw [scanGo, scanGo, scanGo_congr (fun y hm => hx y (by simp [hm])) hp]
  | (x, true) :: r, none, hx, _ => by
    rw [scanGo, scanGo, scanGo_congr (fun y hm => hx y (by simp [hm])) (by simpa using hx (x, true) (by simp))]
  | (x, true) :: r, some p, hx, hp => by
    obtain ⟨hf, hq⟩ := h p x (hp p rfl) (hx (x, true) (by simp))
    rw [scanGo, scanGo, ← hf, scanGo_congr (fun y hm => hx y (by simp [hm])) (by simpa using hq)]

end

/-- A reduction whose operation and unit are those of the rule leaves the rule's tree (R199). -/
theorem vRed_ok {r : RedOp} {i : SReg → VReg → Bool → VMod → Instr} {e : VTy → Nat} {f : Elem2}
    (hi : ∀ rd va sb m s, exec (i rd va sb m) s = .next (vRed r rd va sb m s)) (hop : AgreesOnCodes r.op f)
    (he : ∀ t, r.unit t = e t ∧ r.unit t < 2 ^ t.bits) : VecRedRule i e f := by
  intro rd va sb m s mk y z
  have hy : treeOf (r.op m.ty s.fmode) 9 ((elems (s.vecVal va) m.ty.bits m.ty.count).zipIdx.map fun x =>
      if activeElem mk m.ty.bits x.2 then x.1 else r.unit m.ty) fNone = y := by
    rw [treeOf_congr (P := IsIntCode m.ty) (hop m.ty s.fmode)]
    · simp only [y, State.vA, List.mapIdx_eq_zipIdx_map, (he m.ty).1, activeElem]
    · intro x hx
      obtain ⟨y, hy, rfl⟩ := List.mem_map.1 hx
      split
      · exact isIntCode_elems (List.fst_mem_of_mem_zipIdx hy)
      · exact isIntCode_of_lt (he m.ty).2
  intro hs hu hf ho
  simp only [z, ← hy] at hf ⊢
  exact (hi ..).trans (congrArg Host.Outcome.next (scalarOp_ok hs hu hf ho))

/-! The prefixes as the rule forms them, in ascending order (R81). -/

/-- One element of R199's prefixes: what has been written before it, and the value of the active elements so far. -/
def scanStep (f : Nat → Nat → Nat × Flags) (act : Nat → Bool) (acc : List (Nat × Flags) × Option Nat) (x : Nat × Nat) :
    List (Nat × Flags) × Option Nat :=
  if act x.2 then
    match acc.2 with
    | none => (acc.1 ++ [(x.1, fNone)], some x.1)
    | some p => (acc.1 ++ [f p x.1], some (f p x.1).1)
  else (acc.1 ++ [(x.1, fNone)], acc.2)

theorem foldl_scanStep (f : Nat → Nat → Nat × Flags) (act : Nat → Bool) (xs : List (Nat × Nat)) (l : List (Nat × Flags))
    (p : Option Nat) :
    (xs.foldl (scanStep f act) (l, p)).1 = l ++ scanGo f (xs.map fun x => (x.1, act x.2)) p := by
  induction xs generalizing l p with
  | nil => simp [scanGo]
  | cons x xs ih =>
    rw [List.foldl_cons, List.map_cons]
    cases hx : act x.2 with
    | false => simp [scanStep, hx, scanGo, ih]
    | true => cases p <;> simp [scanStep, hx, scanGo, ih]

/-- A vector instruction leaves the codes of its elements by the rule, where they agree with the rule's codes. -/
theorem vecResult_vecOut {i : Instr} {u : Uses} {vd : VReg} {msk : MReg} {s : State} {w : Nat}
    {xs : State → List (Nat × Flags)} {r : List (Nat × Flags)} {fl : Flags} {lat : Nat}
    (hi : exec i s = .next (vecOut u vd msk w xs fl lat s)) (hx : xs s = r) : VecResult i u vd msk s w r fl lat := by
  subst hx
  intro hs hu hf ho
  exact hi.trans (congrArg Host.Outcome.next (vecOut_ok hs hu hf ho))

/-- A scan whose operation is that of the rule leaves the rule's prefixes (R199). -/
theorem vScan_ok {op f : Elem2} {i : VReg → VReg → Bool → VMod → Instr}
    (hi : ∀ vd va sb m s, exec (i vd va sb m) s = .next (vScan op vd va sb m s)) (hop : AgreesOnCodes op f) :
    VecScanRule i f := by
  intro vd va sb m s mk go
  have hx := hi vd va sb m s
  unfold vScan wIf at hx
  refine vecResult_vecOut hx ?_
  have hgo : go = scanStep (f m.ty s.fmode) (activeElem mk m.ty.bits) := rfl
  rw [hgo, foldl_scanStep, List.nil_append]
  refine scanGo_congr (P := IsIntCode m.ty) (hop m.ty s.fmode) (fun x hx => ?_) (by simp)
  obtain ⟨y, hy, rfl⟩ := List.mem_map.1 hx
  exact isIntCode_elems (List.fst_mem_of_mem_zipIdx hy)

end Sys2Proof.Machine

open Sys2Proof.Machine

/-- Settles O27: each operation is the rule's on the codes of its type, and each unit is the operation's identity. -/
theorem Sys2Proof.vectorReductionResults : Obligations.VectorReductionResults := by
  unfold Obligations.VectorReductionResults
  refine ⟨vRed_ok (r := redSum) (fun _ _ _ _ _ => rfl) redSum_agrees ?_,
    vRed_ok (r := redMin) (fun _ _ _ _ _ => rfl) redMin_agrees ?_,
    vRed_ok (r := redMax) (fun _ _ _ _ _ => rfl) redMax_agrees ?_,
    vRed_ok (r := redAnd) (fun _ _ _ _ _ => rfl) (bitwise_agrees iAnd) ?_,
    vRed_ok (r := redOr) (fun _ _ _ _ _ => rfl) (bitwise_agrees iOr) ?_,
    vRed_ok (r := redXor) (fun _ _ _ _ _ => rfl) (bitwise_agrees iXor) ?_,
    vScan_ok (fun _ _ _ _ _ => rfl) redSum_agrees, vScan_ok (fun _ _ _ _ _ => rfl) redMax_agrees⟩
  all_goals intro t; cases t <;> decide

end


-- Where BR and BC go.
section

namespace Sys2Proof.Machine

/-- A conditional branch on a value goes where its test says (R130). -/
theorem exec_of_bcOp {i : Instr} {h : Hdr} {ra : SReg} {off : BitVec 14} {p : Int → Bool} {s : State} {c : Bool}
    (hi : exec i s = .next (run (bcOp h ra off p s))) (hg : gateC { Uses.none with sr := [ra] } s = .ok ())
    (hp : p (s.regVal ra).toInt = c) :
    exec i s = .next (commit s h .drops (loneW h) (if c then s.target off else s.me.pc + 8#64)) := by
  rw [hi, ← hp]
  simp only [bcOp, hg, bind, Except.bind, pure, Except.pure, run]

/-- A conditional branch on presence, of a register in the window: one without a presence bit counts as present, with W (R62,
R130). -/
theorem exec_of_bcPresOp {i : Instr} {h : Hdr} {ra : SReg} {off : BitVec 14} {full : Bool} {s : State}
    (hi : exec i s = .next (run (bcPresOp h ra off full s))) (hg : gateC Uses.none s = .ok ()) (ho : s.me.outside ra = false) :
    exec i s = .next (commit s h .drops (loneW h || (s.me.cell ra).isNone)
      (if ((s.me.cell ra).elim true fun c => c.pres && !c.pend) == full then s.target off else s.me.pc + 8#64)) := by
  rw [hi]
  simp only [bcPresOp, ho, hg, Bool.false_eq_true, if_false, bind, Except.bind, pure, Except.pure, run]
  cases s.me.cell ra <;> rfl

end Sys2Proof.Machine

open Sys2Proof.Machine

/-- Settles O10: each branch, its checks passed, commits at the bundle that its condition names. -/
theorem Sys2Proof.branchTargets : Obligations.BranchTargets := by
  unfold Obligations.BranchTargets
  intro h ra off s _ hb next target go v hn
  have hgn := gateC_usable hn hb
  refine ⟨?_, fun hu => ?_, fun ho c hc => ⟨?_, ?_⟩, fun ho hc => ⟨?_, ?_⟩⟩
  · show Host.Outcome.next (run _) = _
    simp only [hgn, bind, Except.bind, pure, Except.pure, run]
    rfl
  · have hg := gateC_usable hu hb
    exact ⟨exec_of_bcOp rfl hg rfl, exec_of_bcOp rfl hg (by simp [v, bne, beq_eq_decide]), exec_of_bcOp rfl hg rfl,
      exec_of_bcOp rfl hg rfl, exec_of_bcOp rfl hg rfl, exec_of_bcOp rfl hg rfl⟩
  · rw [exec_of_bcPresOp (full := true) rfl hgn ho, hc, Option.elim_some, beq_true, Option.isNone_some, Bool.or_false]
    rfl
  · rw [exec_of_bcPresOp (full := false) rfl hgn ho, hc, Option.elim_some, beq_false, Option.isNone_some, Bool.or_false]
    rfl
  · rw [exec_of_bcPresOp (full := true) rfl hgn ho, hc, Option.elim_none, Option.isNone_none, Bool.or_true]
    rfl
  · rw [exec_of_bcPresOp (full := false) rfl hgn ho, hc, Option.elim_none, Option.isNone_none, Bool.or_true]
    rfl

end


-- Barriers.
section

namespace Sys2Proof.Machine

/-! The barrier instances. -/

/-- The instance found for a scope, a unit and an id is theirs. -/
theorem State.bar_names (s : State) (sc : Scope) (unit id : Nat) :
    (s.bar sc unit id).sc = sc.code ∧ (s.bar sc unit id).unit = unit ∧ (s.bar sc unit id).id = id := by
  unfold State.bar
  cases h : s.bars.find? fun b => b.sc == sc.code && b.unit == unit && b.id == id with
  | none => exact ⟨rfl, rfl, rfl⟩
  | some b => simpa [and_assoc] using List.find?_some h

/-- An instance that is set is the one found. -/
theorem State.bar_setBar (s : State) {b : Barrier} {sc : Scope} {unit id : Nat} (hsc : b.sc = sc.code) (hu : b.unit = unit)
    (hid : b.id = id) : (s.setBar b).bar sc unit id = b := by
  subst hu hid
  have hother : ((s.bars.filter fun x => x.key != b.key).find? fun x => x.sc == sc.code && x.unit == b.unit && x.id == b.id) = none := by
    rw [List.find?_eq_none]
    intro x hx hm
    simp only [Bool.and_eq_true, beq_iff_eq] at hm
    obtain ⟨⟨h1, h2⟩, h3⟩ := hm
    have hkey : x.key ≠ b.key := by simpa using (List.mem_filter.1 hx).2
    exact hkey (by unfold Barrier.key; rw [h1, h2, h3, hsc])
  unfold State.bar State.setBar
  rw [List.find?_append, hother]
  simp [hsc]

/-! BARCFG and BAR (R144, R145). -/

theorem spoiltGate_ok {s : State} (h : s.spoiltLine s.cur.cid (fun _ => true) = none) : spoiltGate s = .ok () := by
  unfold spoiltGate
  rw [h]

/-- BARCFG of a count below 2^32, for a barrier at which none has arrived. -/
theorem exec_barcfg {h : Hdr} {ra : SReg} {sc : Scope} {id : BitVec 3} {s : State} (hw : s.cur.slot ≠ 16)
    (hg : gateC { Uses.none with sr := [ra] } s = .ok ()) (hv : (s.regVal ra).toNat < 2 ^ 32)
    (ha : (s.bar sc (s.barUnit sc s.cur.cid) id.toNat).arrived = 0) :
    exec (.barcfg h ra sc id) s = .next ((commitNext s h .drops (loneW h)).setBar
      { s.bar sc (s.barUnit sc s.cur.cid) id.toNat with count := (s.regVal ra).toNat }) := by
  have hhigh : (s.regVal ra).extractLsb' 32 32 = 0#32 := by
    apply BitVec.eq_of_toNat_eq
    rw [BitVec.extractLsb'_toNat, Nat.shiftRight_eq_div_pow, Nat.div_eq_of_lt hv]
    rfl
  show execBarcfg h ra sc id s = _
  unfold execBarcfg
  simp only [notWalker_ok hw, hg, hhigh, ha, bind, Except.bind, pure, Except.pure, bne_self_eq_false, Bool.or_self,
    Bool.false_eq_true, if_false, run]

/-- What BAR's arrival releases before it is counted (R145, R171): nothing at core scope. -/
def State.barReleases (s : State) (sc : Scope) : State :=
  if sc = .core then s.fresh.2
  else (s.fresh.2.releaseLines s.cur.cid).markSide (s.fresh.2.partNum s.cur.cid) (s.fresh.2.inRev s.fresh.2.me) none

theorem State.barReleases_leaves (s : State) (sc : Scope) : s.SameThreads (s.barReleases sc) ∧ (s.barReleases sc).now = s.now := by
  unfold State.barReleases
  split
  · exact ⟨s.calm_fresh.sameThreads, rfl⟩
  · have hc := s.calm_fresh.trans (s.fresh.2.calm_releaseLines s.cur.cid)
    rw [State.markSide_eq]
    exact ⟨hc.sameThreads.trans (.of_cores rfl rfl rfl), hc.now⟩

section

variable {h : Hdr} {sc : Scope} {id : BitVec 3} {s : State} (hw : s.cur.slot ≠ 16) (hg : gateC Uses.none s = .ok ())
include hw hg

theorem exec_bar_waits (hd : s.me.hold = .none) (hc : (s.bar sc (s.barUnit sc s.cur.cid) id.toNat).count ≠ 0)
    (hp : s.unperformed s.meWho (sc != .core) s.ctr = false) (ha : (sc == .pod && s.unacknowledged s.meWho s.ctr) = false)
    (hl : sc = .core ∨ s.spoiltLine s.cur.cid (fun _ => true) = none) :
    exec (.bar h sc id) s = .next (run (holdOn
      ((s.barReleases sc).urgent (.barrierArrival s.cur.cid s.cur.slot s.me.uid sc id)) s.ctr)) := by
  show execBar h sc id s = _
  unfold execBar
  simp only [notWalker_ok hw, hg, State.doneVal_of_none hd, hc, hp, ha, bind, Except.bind, Bool.or_self, Bool.false_eq_true, if_false]
  rcases hl with rfl | hl
  · rfl
  · rw [spoiltGate_ok hl, ite_self]
    rfl

theorem exec_bar_done {v : W64} (hd : s.me.hold = .done v) :
    exec (.bar h sc id) s = .next (
      let t := commitNext s h .drops (loneW h)
      if sc = .core then t else t.acquire t.meWho) := by
  show execBar h sc id s = _
  unfold execBar
  simp only [notWalker_ok hw, hg, State.doneVal_of_done hd, bind, Except.bind, pure, Except.pure, run]

/-- BAR's bundle is held, and its arrival is the next step. -/
theorem bar_waits (hs : s.Stands) (hd : s.me.hold = .none) (hc : (s.bar sc (s.barUnit sc s.cur.cid) id.toNat).count ≠ 0)
    (hp : s.unperformed s.meWho (sc != .core) s.ctr = false) (ha : (sc == .pod && s.unacknowledged s.meWho s.ctr) = false)
    (hl : sc = .core ∨ s.spoiltLine s.cur.cid (fun _ => true) = none) :
    ∃ t, exec (.bar h sc id) s = .next t ∧ t.cur.res = .held ∧
      t.agenda.head? = some { at_ := s.now, what := .barrierArrival s.cur.cid s.cur.slot s.me.uid sc id } := by
  obtain ⟨hth, hnow⟩ := s.barReleases_leaves sc
  have hu := hth.trans (State.calm_urgent _ (.barrierArrival s.cur.cid s.cur.slot s.me.uid sc id)).sameThreads
  obtain ⟨hcur, -, -⟩ := run_holdOn (hu.stands hs) s.ctr
  refine ⟨_, exec_bar_waits hw hg hd hc hp ha hl, by rw [hcur], ?_⟩
  unfold holdOn run
  dsimp only
  rw [State.updMe_agenda, ← hnow]
  rfl

end

/-! Arrivals and releases (R145). -/

theorem exec_barrierArrival {s : State} {cid slot uid : Nat} {sc : Scope} {id : BitVec 3}
    (he : s.evt = .barrierArrival cid slot uid sc id) :
    exec .barrierArrival s = .next (
      let b := s.bar sc (s.barUnit sc cid) id.toNat
      let ws := b.waiters ++ [{ cid := cid, slot := slot, uid := uid }]
      let s1 := if sc = .core then s else s.sentMsgs cid 1
      if b.arrived + 1 < b.count then s1.setBar { b with arrived := b.arrived + 1, waiters := ws }
      else (s1.setBar { b with arrived := 0, waiters := [], phase := b.phase + 1, closed := b.closed ++ [(b.phase, ws)] }).after
        cid (s1.barDelay sc) (.barrierRelease b.key b.phase)) := by
  show execBarrierArrival s = _
  unfold execBarrierArrival
  rw [he]

/-- A bundle that waits goes on. -/
def Thread.goesOn (t : Thread) : Thread :=
  match t.hold with
  | .busy _ => { t with hold := .done 0#64 }
  | _ => t

theorem Thread.goesOn_of_busy {t : Thread} {tok : Nat} (h : t.hold = .busy tok) : t.goesOn = { t with hold := .done 0#64 } := by
  unfold Thread.goesOn
  rw [h]

@[simp] theorem Thread.goesOn_uid (t : Thread) : t.goesOn.uid = t.uid := by
  unfold Thread.goesOn
  split <;> rfl

/-- One that goes on already is left. -/
theorem Thread.goesOn_goesOn (t : Thread) : t.goesOn.goesOn = t.goesOn := by
  cases h : t.hold <;> simp [Thread.goesOn, h]

/-- A change of another thread leaves the one that w names. -/
theorem State.HasThread.updWho_ne {s : State} {w w' : Who} {th : Thread} (h : s.HasThread w th) (hne : w' ≠ w) (f : Thread → Thread) :
    (s.updWho w' f).HasThread w th := by
  refine ⟨h.slot, ?_, h.uid⟩
  unfold State.updWho State.thread
  by_cases hcid : w.cid = w'.cid
  · have hc : (s.core w'.cid).thread w.slot = some th := hcid ▸ h.thread
    rw [hcid, State.core_updCore_self]
    refine Eq.trans ?_ hc
    dsimp only
    split
    · rename_i t ht
      split
      · rename_i hu
        refine Core.thread_setThread_ne _ _ _ _ fun hslot => hne ?_
        have ht' : th = t := by rw [hslot] at hc; exact Option.some.inj (hc.symm.trans ht)
        have huid : w'.uid = w.uid := by rw [← hu, ← ht', h.uid]
        obtain ⟨_, _, _⟩ := w
        obtain ⟨_, _, _⟩ := w'
        simp_all
      · rfl
    · rfl
  · rw [State.core_updCore_ne _ _ _ _ hcid]
    exact h.thread

/-- The waiters of a phase go on; far says that the release comes as a message. -/
def State.letGo (s : State) (far : Bool) (ws : List Who) : State :=
  ws.foldl (fun s w => (if far then s.gotMsgs w.cid 1 else s).updWho w Thread.goesOn) s

theorem State.letGo_mem (s : State) (far : Bool) (ws : List Who) : (s.letGo far ws).mem = s.mem :=
  foldl_mem _ (fun s w => by cases far <;> simp) ws s

/-- The message of a release touches no thread. -/
theorem State.HasThread.gotRelease {s : State} {w : Who} {th : Thread} (h : s.HasThread w th) (far : Bool) (c : Nat) :
    (if far then s.gotMsgs c 1 else s).HasThread w th := by
  cases far
  · exact h
  · exact h.of_thread (s.sameThreads_gotMsgs c 1).thread

theorem State.HasThread.letGo_stays {s : State} {w : Who} {th : Thread} (h : s.HasThread w th) (hd : th.goesOn = th) (far : Bool)
    (ws : List Who) : (s.letGo far ws).HasThread w th := by
  induction ws generalizing s with
  | nil => exact h
  | cons x ws ih =>
    have h1 := h.gotRelease far x.cid
    by_cases hx : x = w
    · subst hx
      have h2 := h1.updWho Thread.goesOn (Thread.goesOn_uid th)
      rw [hd] at h2
      exact ih h2
    · exact ih (h1.updWho_ne hx _)

/-- Each of the waiters goes on. -/
theorem State.HasThread.letGo {s : State} {w : Who} {th : Thread} (h : s.HasThread w th) (far : Bool) {ws : List Who} (hw : w ∈ ws) :
    (s.letGo far ws).HasThread w th.goesOn := by
  induction ws generalizing s with
  | nil => cases hw
  | cons x ws ih =>
    have h1 := h.gotRelease far x.cid
    by_cases hx : x = w
    · subst hx
      exact (h1.updWho Thread.goesOn (Thread.goesOn_uid th)).letGo_stays th.goesOn_goesOn far ws
    · exact ih (h1.updWho_ne hx _) ((List.mem_cons.1 hw).resolve_left (Ne.symm hx))

theorem exec_barrierRelease {s : State} {key phase : Nat} {b : Barrier} (he : s.evt = .barrierRelease key phase)
    (hb : (s.bars.find? fun b => b.key == key) = some b) :
    exec .barrierRelease s = .next ((s.setBar { b with closed := b.closed.filter fun c => c.1 != phase }).letGo
      (!decide (b.sc = Scope.core.code)) (((b.closed.find? fun c => c.1 == phase).map (·.2)).getD [])) := by
  show execBarrierRelease s = _
  unfold execBarrierRelease State.letGo
  simp only [he, hb, Bool.not_eq_true', decide_eq_false_iff_not, ite_not]
  rfl

end Sys2Proof.Machine

open Sys2Proof.Machine

/-- Settles O34: BARCFG and an arrival set the instance that their scope and id name, and a release wakes each waiter of its
phase. -/
theorem Sys2Proof.barriersComplete : Obligations.BarriersComplete := by
  unfold Obligations.BarriersComplete
  intro h ra sc id s b go
  refine ⟨fun hs hb hw => ⟨fun hu hv ha => ?_, fun hu => ⟨fun hd hc hp hk hl => ?_, fun v hd => ?_⟩⟩, ?_, ?_⟩
  · exact exec_barcfg hw (gateC_usable hu hb) hv ha
  · exact bar_waits hw (gateC_usable hu hb) hs hd hc hp hk hl
  · exact exec_bar_done hw (gateC_usable hu hb) hd
  · intro cid slot uid he c ws
    obtain ⟨hsc, hunit, hid⟩ := s.bar_names sc (s.barUnit sc cid) id.toNat
    refine ⟨_, exec_barrierArrival he, ?_, fun hlt => ?_, fun hle => ?_⟩
    · dsimp only
      by_cases hcore : sc = .core
      · simp only [hcore, if_true]; split <;> rfl
      · simp only [hcore, if_false]; split <;> exact State.sentMsgs_mem s cid 1
    · dsimp only
      rw [if_pos hlt]
      exact State.bar_setBar _ hsc hunit hid
    · dsimp only
      rw [if_neg (Nat.not_lt.2 hle)]
      exact State.bar_setBar _ hsc hunit hid
  · intro key phase c he hc
    refine ⟨_, exec_barrierRelease he hc, State.letGo_mem _ _ _, fun ws w th tok hws hw hslot hth huid hhold => ?_⟩
    have hthread : s.HasThread w th := ⟨hslot, hth, huid⟩
    rw [hws, ← Thread.goesOn_of_busy hhold]
    exact ((hthread.of_thread (t := s.setBar { c with closed := c.closed.filter fun x => x.1 != phase }) fun _ _ => rfl).letGo _ hw).thread

end


-- Travellers and continuation queues.
section

namespace Sys2Proof.Machine

/-! A core's part of an allocation, with or without an entry of its own (R118, R385). -/

/-- The families differ in their shares alone. -/
def Family.SameButShares (f g : Family) : Prop := g = { f with shares := g.shares }

theorem Family.SameButShares.refl (f : Family) : f.SameButShares f := rfl

theorem Family.SameButShares.trans (f g h : Family) (k : f.SameButShares g) (l : g.SameButShares h) : f.SameButShares h := by
  unfold Family.SameButShares at *
  rw [l, k]

theorem Family.SameButShares.uid (f g : Family) (h : f.SameButShares g) : g.uid = f.uid := by
  rw [show g = _ from h]

/-- Members have been dealt to cores: of the families only shares have changed, and neither memory nor a queue. -/
structure State.DealsOut (s t : State) : Prop where
  mem : t.mem = s.mem
  contq : t.contq = s.contq
  fams : s.FamsChange Family.SameButShares t

namespace State.DealsOut

variable {s t u : State}

theorem refl (s : State) : s.DealsOut s := ⟨rfl, rfl, .of_eq Family.SameButShares.refl rfl⟩

theorem trans (h : s.DealsOut t) (k : t.DealsOut u) : s.DealsOut u :=
  ⟨k.mem.trans h.mem, k.contq.trans h.contq, h.fams.trans Family.SameButShares.trans k.fams⟩

theorem foldl {α : Type} {f : State → α → State} (hf : ∀ (s : State) (x : α), s.DealsOut (f s x)) (l : List α) (s : State) :
    s.DealsOut (l.foldl f s) := by
  induction l generalizing s with
  | nil => exact refl s
  | cons x l ih => exact (hf s x).trans (ih _)

theorem atCycle (s : State) (n : Nat) (e : Ev) : s.DealsOut (s.atCycle n e) := ⟨rfl, rfl, .of_eq Family.SameButShares.refl rfl⟩

theorem takeCore (s : State) (uid : Nat) (d : Desc) (x : Nat × Nat × Nat × Nat) (keepEnt : Bool) (n : Nat) :
    s.DealsOut (s.takeCore uid d x keepEnt n) := by
  obtain ⟨cid, first, stride, count⟩ := x
  unfold State.takeCore
  dsimp only
  refine trans ?_ (foldl (fun s y => atCycle s n _) _ _)
  exact ⟨rfl, rfl, .updFam (s := s.updCore cid _) Family.SameButShares.refl (by intro _; rfl) uid⟩

end State.DealsOut

/-- A family that is allocated runs. -/
theorem State.allocate_runs {s : State} {uid : Nat} {f : Family} (hf : s.fam uid = some f) (d : Desc)
    (ds : List (Nat × Nat × Nat × Nat)) :
    (s.allocate uid d ds).mem = s.mem ∧ (s.allocate uid d ds).contq = s.contq ∧
      ∃ g, (s.allocate uid d ds).fam uid = some g ∧ g.st = .running := by
  let at_ (cid : Nat) : Nat := ((s.fam uid).map fun f => s.startAt f cid).getD s.now
  have h : s.DealsOut (ds.foldl (fun s x => s.takeCore uid d x false (at_ x.1)) s) := .foldl (fun s x => .takeCore s uid d x _ _) ds s
  obtain ⟨g, hg, -⟩ := h.fams.fam Family.SameButShares.uid hf
  exact ⟨h.mem, h.contq, _, State.fam_updFam_self hg fun _ => rfl, rfl⟩

/-! A traveller that lands (R26, R142). -/

/-- The slot that a traveller is given is a program slot. -/
theorem State.roomiest_lt {s : State} {sg c k : Nat} (h : s.roomiest sg = some (c, k)) : k < 16 := by
  unfold State.roomiest at h
  obtain ⟨b, hb, he⟩ := Option.map_eq_some_iff.1 h
  suffices hfold : ∀ (l : List Nat) (best : Option (Nat × Nat × Nat)), (∀ b, best = some b → b.2.1 < 16) → ∀ b,
      l.foldl (fun (best : Option (Nat × Nat × Nat)) c =>
        match s.freeSlots c with
        | [] => best
        | k :: _ =>
          if (s.core c).scFree < 16 then best
          else
            match best with
            | some b => if b.2.2 < (s.freeSlots c).length then some (c, k, (s.freeSlots c).length) else best
            | none => some (c, k, (s.freeSlots c).length)) best = some b → b.2.1 < 16 by
    have hlt := hfold (sgCores sg) none (fun _ h => by cases h) b hb
    rwa [(Prod.mk.inj he).2] at hlt
  intro l
  induction l with
  | nil => exact fun best hbest b h => hbest b h
  | cons c l ih =>
    intro best hbest
    refine ih _ fun b hb => ?_
    dsimp only at hb
    split at hb
    · exact hbest b hb
    · rename_i k rest hfree
      have hk : k < 16 := State.freeSlots_lt (s := s) (cid := c) (by simp [hfree])
      split at hb
      · exact hbest b hb
      · split at hb
        · split at hb
          · cases hb; exact hk
          · exact hbest b hb
        · cases hb; exact hk

/-- The thread that lands stands in its slot, as it was but for its hold, its stall and the slot's frame. -/
theorem State.thread_land {s : State} {t : Thread} (cid : Nat) {slot : Nat} (hslot : slot < 17) (hs : s.stopped t = false) :
    ∃ th, (s.land t cid slot).thread cid slot = some th ∧ th = { t with hold := .none, stall := none, csr := th.csr } := by
  unfold State.land
  rw [hs]
  extract_lets fr csr t' s1
  have h1 : s1.thread cid slot = some t' := State.thread_setThread_self _ _ _ _ hslot
  refine ⟨t', ?_, rfl⟩
  split
  · exact h1
  · rename_i u _
    refine Eq.trans ?_ h1
    exact (State.SameThreads.updCore (f := fun c => { c with regUse := c.regUse ++ [{ fam := u, uid := slot + 1, sc := 16, vec := 0 }] })
      (fun _ => rfl) cid).thread cid slot

theorem exec_travellerArrival {s : State} {tok sg c k : Nat} {v : Traveller} (he : s.evt = .travellerArrival tok)
    (hv : (s.travs.find? fun t => t.tok == tok) = some v) (hdev : v.dev = s.dev.devid) (haway : (s.part v.part).away = false)
    (hsg : s.leastLoaded (s.part v.part) v.die = some sg) (hq : (s.contQ sg).recs = [])
    (harr : ∀ x ∈ (s.part v.part).arrivals, x.sg / 5 ≠ v.die) (hc : s.roomiest sg = some (c, k)) :
    exec .travellerArrival s = .next (({ s with travs := s.travs.filter fun t => t.tok != tok } : State).land v.thread c k) := by
  have harr' : ((s.part v.part).arrivals.any fun x => x.sg / 5 == v.die) = false := by simpa using harr
  show execTravellerArrival s = _
  unfold execTravellerArrival
  simp only [he, hv, hdev, haway, hsg, hq, harr', hc, bne_self_eq_false, Bool.false_eq_true, if_false, List.isEmpty_nil, Bool.not_false,
    Bool.and_self, if_true]

/-! The head of a queue (R331). -/

/-- The queue without its head, its next records looked at. -/
def State.popRecord (s : State) (sg : Nat) (rest : List ContRec) : State :=
  let t : State := (s.updContQ sg fun q => { q with recs := q.recs.drop 1 }).urgent (.spillOverflowMove sg)
  if rest.isEmpty then t else t.urgent (.continuationHeadPlace sg)

theorem State.popRecord_leaves {s : State} {sg : Nat} {r : ContRec} {rest : List ContRec} (h : (s.contQ sg).recs = r :: rest) :
    (s.popRecord sg rest).mem = s.mem ∧ (s.popRecord sg rest).fams = s.fams ∧ ((s.popRecord sg rest).contQ sg).recs = rest := by
  have hq : ((s.updContQ sg fun q => { q with recs := q.recs.drop 1 }).contQ sg).recs = rest := by
    rw [State.contQ_updContQ_self, h]
    rfl
  unfold State.popRecord
  dsimp only
  split <;> exact ⟨rfl, rfl, hq⟩

theorem exec_continuationHeadPlace {s : State} {sg : Nat} {r : ContRec} {rest : List ContRec} {p : Part} {f : Family}
    (he : s.evt = .continuationHeadPlace sg) (hr : (s.contQ sg).recs = r :: rest) (hp : s.partOf (sg * 64) = some p)
    (hrun : p.gsst = .running) (ht : r.traveller = none) (hf : s.fam r.fam = some f) (hst : f.st = .queued)
    (hfit : s.fits f.desc (deals f.place.cores f.place.cyclic f.n) = true) :
    exec .continuationHeadPlace s = .next ((s.popRecord sg rest).allocate r.fam f.desc (deals f.place.cores f.place.cyclic f.n)) := by
  show execContinuationHeadPlace s = _
  unfold execContinuationHeadPlace
  simp only [he, hr, hp, hrun, ht, hf, hst, hfit, bne_self_eq_false, Bool.false_eq_true, if_false, decide_true, Bool.and_self, if_true]
  rfl

/-! A spilled record (R332). -/

/-- The queue with its oldest spilled record behind the others. -/
def State.unspill (s : State) (sg : Nat) (r : ContRec) : State :=
  s.updContQ sg fun q => { q with
    recs := q.recs ++ [r], spill := q.spill.drop 1, head := (q.head + 1) % 2 ^ (q.cqsn.toNat % 32) }

theorem State.contQ_unspill (s : State) (sg : Nat) (r : ContRec) :
    ((s.unspill sg r).contQ sg).recs = (s.contQ sg).recs ++ [r] ∧ ((s.unspill sg r).contQ sg).spill = (s.contQ sg).spill.drop 1 := by
  unfold State.unspill
  rw [State.contQ_updContQ_self]
  exact ⟨rfl, rfl⟩

theorem exec_spillOverflowMove {s : State} {sg : Nat} {r : ContRec} {rest : List ContRec} {p : Part} (he : s.evt = .spillOverflowMove sg)
    (hp : s.partOf (sg * 64) = some p) (hr : (s.contQ sg).spill = r :: rest) (hlen : (s.contQ sg).recs.length < 64) :
    exec .spillOverflowMove s =
      .next (((s.unspill sg r).urgent (.continuationHeadPlace sg)).urgent (.spillOverflowMove sg)) := by
  show execSpillOverflowMove s = _
  unfold execSpillOverflowMove
  simp only [he, hp, hr, hlen, if_true]
  rfl

end Sys2Proof.Machine

open Sys2Proof.Machine

/-- Settles O38: the traveller lands in the slot found for it, the head of the queue is popped and its family allocated, and the
spilled record goes to the end of the queue. -/
theorem Sys2Proof.queuesAreServed : Obligations.QueuesAreServed := by
  unfold Obligations.QueuesAreServed
  intro s
  refine ⟨?_, ?_, ?_⟩
  · intro tok v sg c k he hv hdev haway hstop hsg hq harr hc
    have hslot : k < 17 := Nat.lt_succ_of_lt (State.roomiest_lt hc)
    obtain ⟨th, hth, heq⟩ := State.thread_land (s := { s with travs := s.travs.filter fun t => t.tok != tok }) c hslot hstop
    exact ⟨_, th, exec_travellerArrival he hv hdev haway hsg hq harr hc, hth, by rw [heq], by rw [heq], by rw [heq], by rw [heq]⟩
  · intro sg r rest p f he hr hp hrun ht hf hst hfit
    obtain ⟨hmem, hfams, hrecs⟩ := State.popRecord_leaves hr
    have hf' : (s.popRecord sg rest).fam r.fam = some f := by
      unfold State.fam
      rw [hfams]
      exact hf
    obtain ⟨hmem', hcontq, g, hg, hgst⟩ := State.allocate_runs hf' f.desc (deals f.place.cores f.place.cyclic f.n)
    refine ⟨_, g, exec_continuationHeadPlace he hr hp hrun ht hf hst hfit, hmem'.trans hmem, ?_, hg, hgst⟩
    unfold State.contQ
    rw [hcontq]
    exact hrecs
  · intro sg r rest p he hp hr hlen
    obtain ⟨hrecs, hspill⟩ := s.contQ_unspill sg r
    exact ⟨_, exec_spillOverflowMove he hp hr hlen, rfl, hrecs, hspill.trans (by rw [hr]; rfl)⟩

end


-- What the end of families and slices leaves of memory, threads and partitions.
section

namespace Sys2Proof.Machine

/-! Cores and partitions after a change. -/

/-- A change of every core, or no such core is listed. -/
theorem State.core_mapCores {s t : State} {g : Core → Core} (hcid : ∀ c, (g c).cid = c.cid) (hc : t.cores = s.cores.map g) (k : Nat) :
    t.core k = g (s.core k) ∨ (t.core k = Core.fresh k 0 ∧ s.core k = Core.fresh k 0) := by
  unfold State.core
  rw [hc, List.find?_map, show ((fun c : Core => c.cid == k) ∘ g) = fun c => c.cid == k from funext fun c => by simp [hcid]]
  cases s.cores.find? fun c => c.cid == k with
  | some c => exact .inl rfl
  | none => exact .inr ⟨rfl, rfl⟩

theorem find_putPart_ne (l : List Part) (p : Part) {k : Nat} (h : k ≠ p.num) :
    (putPart l p).find? (fun x => x.num == k) = l.find? (fun x => x.num == k) := by
  induction l with
  | nil => simp [putPart, Ne.symm h]
  | cons x xs ih =>
    unfold putPart
    split
    · rw [List.find?_cons_of_neg (by simpa using Ne.symm h)]
    · split
      · rename_i _ h2
        rw [List.find?_cons_of_neg (by simpa using Ne.symm h), List.find?_cons_of_neg (by simpa [← h2] using Ne.symm h)]
      · simp only [List.find?_cons, ih]

theorem State.part_updPart_ne (s : State) {n k : Nat} (h : k ≠ n) (f : Part → Part) : (s.updPart n f).part k = s.part k := by
  unfold State.part State.updPart
  rw [find_putPart_ne _ { f (s.part n) with num := n } h]

/-! What winds up. -/

/-- Between s and t work has ended: memory and its tags stand, threads may have gone but none has come or changed, and no death has been
logged. -/
structure State.WindsUp (s t : State) : Prop where
  mem : t.mem = s.mem
  tags : t.tags = s.tags
  thread : ∀ {c k th}, t.thread c k = some th → s.thread c k = some th
  deaths : ∀ n, (t.part n).dlcnt = (s.part n).dlcnt

namespace State.WindsUp

variable {s t u : State}

/-- Where the threads are the same. -/
theorem of_sameThreads (h : s.SameThreads t) (mem : t.mem = s.mem) (tags : t.tags = s.tags) (parts : t.parts = s.parts) : s.WindsUp t :=
  ⟨mem, tags, fun {c k _} hk => (h.thread c k).symm.trans hk, fun n => by unfold State.part; rw [parts]⟩

theorem of_cores (cores : t.cores = s.cores) (mem : t.mem = s.mem) (tags : t.tags = s.tags) (parts : t.parts = s.parts) : s.WindsUp t :=
  ⟨mem, tags, fun {c k _} hk => (State.thread_congr cores c k).symm.trans hk, fun n => by unfold State.part; rw [parts]⟩

theorem refl (s : State) : s.WindsUp s := of_cores rfl rfl rfl rfl

theorem trans (h : s.WindsUp t) (k : t.WindsUp u) : s.WindsUp u where
  mem := k.mem.trans h.mem
  tags := k.tags.trans h.tags
  thread := fun hu => h.thread (k.thread hu)
  deaths n := (k.deaths n).trans (h.deaths n)

theorem foldl {α : Type} {f : State → α → State} (hf : ∀ (s : State) (x : α), s.WindsUp (f s x)) (l : List α) (s : State) :
    s.WindsUp (l.foldl f s) := by
  induction l generalizing s with
  | nil => exact refl s
  | cons x l ih => exact (hf s x).trans (ih _)

theorem updFam (s : State) (n : Nat) (f : Family → Family) : s.WindsUp (s.updFam n f) := of_cores rfl rfl rfl rfl

theorem urgent (s : State) (e : Ev) : s.WindsUp (s.urgent e) := of_cores rfl rfl rfl rfl

theorem atCycle (s : State) (n : Nat) (e : Ev) : s.WindsUp (s.atCycle n e) := of_cores rfl rfl rfl rfl

theorem after (s : State) (c n : Nat) (e : Ev) : s.WindsUp (s.after c n e) := of_cores rfl rfl rfl rfl

theorem fresh (s : State) : s.WindsUp s.fresh.2 := of_cores rfl rfl rfl rfl

theorem dropDue (s : State) (p : Ev → Bool) : s.WindsUp (s.dropDue p) := of_cores rfl rfl rfl rfl

theorem gotMsgs (s : State) (c n : Nat) : s.WindsUp (s.gotMsgs c n) :=
  of_sameThreads (s.sameThreads_gotMsgs c n) (by simp) (by simp) (by simp)

theorem sentMsgs (s : State) (c n : Nat) : s.WindsUp (s.sentMsgs c n) :=
  of_sameThreads (s.sameThreads_sentMsgs c n) (by simp) (by simp) (by simp)

/-- A change of a core that leaves its slots. -/
theorem updCore {f : Core → Core} (hf : ∀ c, (f c).slots = c.slots) (k : Nat) : s.WindsUp (s.updCore k f) :=
  of_sameThreads (.updCore hf k) rfl rfl rfl

/-- A change of every core that leaves its slots. -/
theorem mapCores {g : Core → Core} (hcid : ∀ c, (g c).cid = c.cid) (hslots : ∀ c, (g c).slots = c.slots) (cores : t.cores = s.cores.map g)
    (cur : t.cur = s.cur) (fams : t.fams = s.fams) (mem : t.mem = s.mem) (tags : t.tags = s.tags) (parts : t.parts = s.parts) :
    s.WindsUp t :=
  of_sameThreads (State.Books.mapCores hcid hslots cores cur fams).sameThreads mem tags parts

/-- A change of a partition that logs no death. -/
theorem updPart {f : Part → Part} (hf : ∀ p, (f p).dlcnt = p.dlcnt) (n : Nat) : s.WindsUp (s.updPart n f) := by
  refine ⟨rfl, rfl, fun hk => hk, fun k => ?_⟩
  by_cases hk : k = n
  · subst hk
    rw [State.part_updPart_self]
    exact hf _
  · rw [State.part_updPart_ne _ hk]

theorem urgentOnce (s : State) (e : Ev) : s.WindsUp (s.urgentOnce e) := by
  unfold State.urgentOnce
  split
  · exact refl s
  · exact urgent s e

/-! Entries and slots that have become free. -/

theorem freed (s : State) (cid : Nat) : s.WindsUp (s.freed cid) := by
  unfold State.freed
  extract_lets s1 s2
  have h1 : s.WindsUp s1 := by
    dsimp only [s1]
    split
    · split
      · exact urgentOnce s _
      · exact refl s
    · exact refl s
  have h2 : s1.WindsUp s2 := by
    refine foldl (fun s q => ?_) _ s1
    split
    · exact refl s
    · exact urgentOnce s _
  refine (h1.trans h2).trans (foldl (fun s f => ?_) _ s2)
  split
  · exact urgent s _
  · exact refl s

theorem freeEnts (s : State) (uid : Nat) : s.WindsUp (s.freeEnts uid) := by
  unfold State.freeEnts
  refine .trans ?_ (foldl (fun s c => freed s c) _ _)
  exact mapCores (g := fun c => { c with ents := c.ents.map fun e => if e == some uid then none else e }) (fun _ => rfl)
    (fun _ => rfl) rfl rfl rfl rfl rfl rfl

/-! Joins and revisions. -/

theorem readyJoins (s : State) (part : Nat) : s.WindsUp (s.readyJoins part) := by
  unfold State.readyJoins
  exact foldl (fun s j => (fresh s).trans (updPart (by intro _; rfl) _)) _ s

theorem beginJoin (s : State) (part : Nat) (j : Join) : s.WindsUp (s.beginJoin part j) := by
  unfold State.beginJoin
  dsimp only
  split
  · exact refl s
  · exact (updPart (by intro _; rfl) _).trans (after _ _ _ _)

theorem beginJoins (s : State) (part : Nat) : s.WindsUp (s.beginJoins part) := by
  unfold State.beginJoins
  exact (readyJoins s part).trans (foldl (fun s j => beginJoin s part j) _ _)

theorem queueJoin (s : State) (f : Family) (id sync : Nat) (who : Who) : s.WindsUp (s.queueJoin f id sync who) := by
  unfold State.queueJoin
  split
  · exact refl s
  · exact (fresh s).trans (updPart (by intro _; rfl) _)

theorem syncReady (s : State) (f : Family) (who : Who) : s.WindsUp (s.syncReady f who) := by
  unfold State.syncReady
  split
  · split
    · exact after s _ _ _
    · exact atCycle s _ _
  · exact (foldl (fun t (x : Family × Nat) => queueJoin t x.1 x.2 s.ctr who) _ s).trans (beginJoins _ _)

theorem dropJoin (s : State) (part uid : Nat) : s.WindsUp (s.dropJoin part uid) :=
  (updPart (by intro _; rfl) _).trans (beginJoins _ _)

theorem dropWrites (s : State) (part id : Nat) : s.WindsUp (s.dropWrites part id) := by
  unfold State.dropWrites
  extract_lets p out own cmd
  refine mapCores (fun c => ?_) (fun c => ?_) rfl rfl rfl rfl rfl rfl
  · split <;> rfl
  · split <;> rfl

theorem serveHeld (s : State) (part : Nat) : s.WindsUp (s.serveHeld part) := foldl (fun s _ => urgent s _) _ s

theorem dropRev (s : State) (part id : Nat) : s.WindsUp (s.dropRev part id) :=
  ((dropWrites s part id).trans (updPart (by intro _; rfl) _)).trans (serveHeld _ _)

theorem endJoin (s : State) (part : Nat) (j : Join) : s.WindsUp (s.endJoin part j) := by
  unfold State.endJoin
  extract_lets s1 s2 s3 s4 lag
  have h1 : s.WindsUp s1 := dropRev s _ _
  have h2 : s1.WindsUp s2 := updPart (by intro _; rfl) _
  have h3 : s2.WindsUp s3 := beginJoins s2 _
  have h4 : s3.WindsUp s4 := serveHeld s3 _
  have h := ((h1.trans h2).trans h3).trans h4
  split
  · split
    · exact h.trans (after s4 _ _ _)
    · exact h
  · exact h

/-! Slices. -/

theorem endSlice (s : State) (uid status cause : Nat) : s.WindsUp (s.endSlice uid status cause) := by
  unfold State.endSlice
  split
  · exact refl s
  · split
    · exact refl s
    · exact of_cores rfl rfl rfl rfl

theorem sliceCheck (s : State) (uid : Nat) : s.WindsUp (s.sliceCheck uid) := by
  unfold State.sliceCheck
  split
  · exact refl s
  · split
    · exact refl s
    · split
      · exact endSlice s _ _ _
      · exact refl s

/-! Families that are done. -/

theorem inlineDone (s : State) (uid : Nat) : s.WindsUp (s.inlineDone uid) := by
  unfold State.inlineDone
  extract_lets s1
  have h1 : s.WindsUp s1 := updFam s _ _
  split
  · exact h1.trans (urgent s1 _)
  · exact h1

theorem familyDone (s : State) (uid : Nat) : s.WindsUp (s.familyDone uid) := by
  unfold State.familyDone
  split
  · exact refl s
  · rename_i f _
    split
    · exact refl s
    · extract_lets fin s1 s2 s3 s4 s5 s6 s7
      have h1 : s.WindsUp s1 := updFam s _ _
      have h2 : s1.WindsUp s2 := mapCores (by intro _; rfl) (by intro _; rfl) rfl rfl rfl rfl rfl rfl
      have h3 : s2.WindsUp s3 := by
        dsimp only [s3]
        split
        · exact freeEnts s2 uid
        · exact refl s2
      have h4 : s3.WindsUp s4 := by
        dsimp only [s4]
        split
        · exact after s3 _ _ _
        · exact refl s3
      have h5 : s4.WindsUp s5 := by
        dsimp only [s5]
        split
        · split
          · exact syncReady s4 _ _
          · exact refl s4
        · exact refl s4
      have h6 : s5.WindsUp s6 := foldl (fun s (x : Share) => freed s x.cid) _ s5
      have h7 : s6.WindsUp s7 := by
        dsimp only [s7]
        split
        · exact sliceCheck s6 _
        · exact refl s6
      have h := (((((h1.trans h2).trans h3).trans h4).trans h5).trans h6).trans h7
      split
      · exact h.trans (urgent s7 _)
      · exact h

/-! Threads and records that go. -/

theorem queuesOn (s : State) : s.WindsUp s.queuesOn := by
  unfold State.queuesOn
  exact foldl (fun s g => (urgentOnce s _).trans (urgentOnce _ _)) _ s

theorem travsGone (s : State) (dead : Thread → Bool) : s.WindsUp (s.travsGone dead) := by
  unfold State.travsGone
  exact foldl (fun s c => gotMsgs s c 1) _ s

theorem dropCommands (s : State) (p : CopyCmd → Bool) : s.WindsUp (s.dropCommands p) := by
  unfold State.dropCommands
  extract_lets moved held keep
  refine .trans (.trans ?_ (foldl (fun s c => urgent s _) _ _)) (foldl (fun s x => urgent s _) _ _)
  exact mapCores (by intro _; rfl) (by intro _; rfl) rfl rfl rfl rfl rfl rfl

/-- A change of every partition that logs no death. -/
theorem deaths_mapParts {g : Part → Part} (hn : ∀ p, (g p).num = p.num) (hd : ∀ p, (g p).dlcnt = p.dlcnt) (hp : t.parts = s.parts.map g)
    (n : Nat) : (t.part n).dlcnt = (s.part n).dlcnt := by
  unfold State.part
  rw [hp, List.find?_map, show ((fun p : Part => p.num == n) ∘ g) = fun p => p.num == n from funext fun p => by simp [hn]]
  cases s.parts.find? fun p => p.num == n with
  | some p => exact hd p
  | none => rfl

/-- A change of every core that empties the slots of some threads. -/
theorem dropSlots {g : Core → Core} {dead : Thread → Bool} (cores : t.cores = s.cores.map g) (hcid : ∀ c, (g c).cid = c.cid)
    (hslots : ∀ c, (g c).slots = c.slots.map fun o => match o with
      | some th => if dead th then none else some th
      | none => none)
    (mem : t.mem = s.mem) (tags : t.tags = s.tags) (deaths : ∀ n, (t.part n).dlcnt = (s.part n).dlcnt) :
    s.WindsUp t ∧ ∀ {c k th}, t.thread c k = some th → dead th = false := by
  have hthread {c k : Nat} {th : Thread} (hk : t.thread c k = some th) : s.thread c k = some th ∧ dead th = false := by
    unfold State.thread Core.thread at *
    rcases State.core_mapCores hcid cores c with hc | ⟨hc, -⟩
    · rw [hc] at hk
      split at hk
      · rename_i hlt
        simp only [hslots, Vector.getElem_map] at hk
        split at hk
        · rename_i t ht
          split at hk
          · cases hk
          · rename_i hdead
            cases hk
            exact ⟨by rw [dif_pos hlt]; exact ht, by simpa using hdead⟩
        · cases hk
      · cases hk
    · rw [hc] at hk
      simp [Core.fresh] at hk
  exact ⟨⟨mem, tags, fun hk => (hthread hk).1, deaths⟩, fun hk => (hthread hk).2⟩

/-- The queues are looked at again after threads have gone. -/
theorem thenQueuesOn {dead : Thread → Bool} (h : s.WindsUp t)
    (k : t.WindsUp u ∧ ∀ {c k th}, u.thread c k = some th → dead th = false) :
    s.WindsUp u.queuesOn ∧ ∀ {c k th}, u.queuesOn.thread c k = some th → dead th = false :=
  ⟨(h.trans k.1).trans (queuesOn u), fun hk => k.2 ((queuesOn u).thread hk)⟩

end State.WindsUp

/-- Threads that are dropped: none of them is left in a slot, and every other is as it was. -/
theorem State.dropThreads_leaves (s : State) (dead : Thread → Bool) :
    s.WindsUp (s.dropThreads dead) ∧ ∀ {c k th}, (s.dropThreads dead).thread c k = some th → dead th = false := by
  unfold State.dropThreads
  extract_lets gone isGone rec' left s1 s2 lost s3
  have h1 : s.WindsUp s1 := .foldl (fun s x => .urgent s _) _ s
  have h2 : s1.WindsUp s2 := (State.WindsUp.dropCommands s1 _).trans (.travsGone _ _)
  have h3 : s2.WindsUp s3 := .foldl (fun s r => .gotMsgs s _ _) _ s2
  have h := (h1.trans h2).trans h3
  clear_value s3
  refine State.WindsUp.thenQueuesOn h (State.WindsUp.dropSlots rfl (fun _ => rfl) (fun _ => rfl) rfl rfl ?_)
  exact State.WindsUp.deaths_mapParts (g := fun p => { p with arrivals := p.arrivals.filter rec' }) (fun _ => rfl) (fun _ => rfl) rfl

namespace State.WindsUp

theorem dropThreads (s : State) (dead : Thread → Bool) : s.WindsUp (s.dropThreads dead) := (s.dropThreads_leaves dead).1

theorem dropRecords (s : State) (fs : List Nat) : s.WindsUp (s.dropRecords fs) := by
  unfold State.dropRecords
  extract_lets q all gone s1
  have h1 : s.WindsUp s1 := ⟨rfl, rfl, fun hk => hk,
    deaths_mapParts (g := fun p => { p with arrivals := p.arrivals.filter fun r => !q r }) (fun _ => rfl) (fun _ => rfl) rfl⟩
  exact (h1.trans (foldl (fun s f => familyDone s f) _ s1)).trans (queuesOn _)

end State.WindsUp

/-- Families that are purged: none of their threads is left in a slot. -/
theorem State.purgeFams_leaves (s : State) (fs : List Nat) (top : Option Nat) :
    s.WindsUp (s.purgeFams fs top) ∧ ∀ {c k th}, (s.purgeFams fs top).thread c k = some th → th.ofFams fs = false := by
  unfold State.purgeFams
  extract_lets s1 s2 s3 runs s4 s5
  obtain ⟨h1, hgone⟩ := s.dropThreads_leaves fun t => t.ofFams fs
  have h2 : s1.WindsUp s2 := .dropCommands s1 _
  have h3 : s2.WindsUp s3 := .dropRecords s2 fs
  have h4 : s3.WindsUp s4 := .foldl (fun s r => .after s _ _ _) _ s3
  have h5 : s4.WindsUp s5 := by
    refine .foldl (fun s u => ?_) _ s4
    split
    · exact .refl s
    · rename_i f _
      extract_lets t1 t2
      have k1 : s.WindsUp t1 := by
        dsimp only [t1]
        split
        · split
          · exact (State.WindsUp.dropJoin s _ _).trans (.dropRev _ _ _)
          · exact .refl s
        · exact .refl s
      split
      · exact k1
      · have k2 : t1.WindsUp t2 := .updFam t1 _ _
        split
        · exact (k1.trans k2).trans (.inlineDone t2 _)
        · exact (k1.trans k2).trans (.familyDone t2 _)
  have h6 : s5.WindsUp (fs.foldl (fun s u =>
      if some u = top then s else (s.freeEnts u).updFam u fun f => { f with synced := true }) s5) := by
    refine .foldl (fun s u => ?_) _ s5
    split
    · exact .refl s
    · exact (State.WindsUp.freeEnts s u).trans (.updFam _ _ _)
  have h := (((h2.trans h3).trans h4).trans h5).trans h6
  exact ⟨h1.trans h, fun hk => hgone (h.thread hk)⟩

end Sys2Proof.Machine

end


-- Kills, detached ends, merges, purges and replays.
section

namespace Sys2Proof.Machine

/-! A kill that reaches a core (R124, R139). -/

theorem Core.mem_of_thread {c : Core} {k : Nat} {th : Thread} (h : c.thread k = some th) : th ∈ c.slots.toList.filterMap id := by
  unfold Core.thread at h
  split at h
  · rename_i hk
    exact List.mem_filterMap.2 ⟨some th, h ▸ Vector.mem_toList_iff.2 (Vector.getElem_mem hk), rfl⟩
  · cases h

/-- Families that are killed on a core have no thread left there. -/
theorem State.killOn_leaves (s : State) (fs : List Nat) (cid : Nat) :
    s.WindsUp (s.killOn fs cid) ∧ ∀ {k th}, (s.killOn fs cid).thread cid k = some th → th.ofFams fs = false := by
  unfold State.killOn
  extract_lets c mine s1
  obtain ⟨h1, hgone⟩ := s.dropThreads_leaves fun t => mine.any fun m => m.uid == t.uid
  have h2 : s1.WindsUp (fs.foldl (fun s u => s.updFam u fun f => { f with shares := f.shares.map fun x =>
      if x.cid == cid then { x with left := 0, live := [] } else x }) s1) := .foldl (fun s u => .updFam s u _) _ s1
  refine ⟨h1.trans h2, fun {k th} hk => ?_⟩
  have hk1 := h2.thread hk
  have hdead := hgone hk1
  have hin := Core.mem_of_thread (h1.thread hk1 : (s.core cid).thread k = some th)
  cases hf : th.ofFams fs with
  | false => rfl
  | true =>
    have hmine : th ∈ mine := List.mem_filter.2 ⟨List.mem_append_left _ hin, hf⟩
    rw [List.any_eq_false] at hdead
    exact absurd (beq_self_eq_true th.uid) (hdead th hmine)

theorem State.WindsUp.markKilled (s : State) (fs : List Nat) : s.WindsUp (s.markKilled fs) := .foldl (fun s u => .updFam s u _) _ s

theorem State.WindsUp.sendKills (s : State) (uid cid : Nat) (fs : List Nat) : s.WindsUp (s.sendKills uid cid fs) := by
  unfold State.sendKills
  exact .foldl (fun s c => (sentMsgs s cid 1).trans (after _ _ _ _)) _ s

theorem State.killHere_leaves (s : State) (uid cid : Nat) {k : Nat} {th : Thread} (h : (s.killHere uid cid).thread cid k = some th) :
    th.ofFams (s.famsWithin fun x => x.uid == uid) = false := by
  unfold State.killHere at h
  extract_lets fs s1 at h
  obtain ⟨-, hgone⟩ := (s.markKilled fs).killOn_leaves fs cid
  have hs1 {th : Thread} (hk : s1.thread cid k = some th) : th.ofFams fs = false :=
    hgone ((State.WindsUp.sendKills _ uid cid fs).thread hk)
  split at h
  · exact hs1 h
  · exact hs1 ((s1.purgeFams_leaves fs _).1.thread h)

theorem exec_killMessage {s : State} {cid uid : Nat} (he : s.evt = .killMessage cid uid) :
    exec .killMessage s = .next ((s.gotMsgs cid 1).killHere uid cid) := by
  show execKillMessage s = _
  unfold execKillMessage
  rw [he]

theorem killMessage_leaves {s : State} {cid uid : Nat} (he : s.evt = .killMessage cid uid) :
    ∃ t, exec .killMessage s = .next t ∧
      ∀ slot th fam, t.thread cid slot = some th → th.fam = some fam → fam ∉ s.famsWithin fun x => x.uid == uid := by
  refine ⟨_, exec_killMessage he, fun slot th fam hth hfam hin => ?_⟩
  have h := State.killHere_leaves _ uid cid hth
  rw [show (s.gotMsgs cid 1).famsWithin (fun x => x.uid == uid) = s.famsWithin fun x => x.uid == uid by
    unfold State.famsWithin; rw [State.gotMsgs_fams]] at h
  simp [Thread.ofFams, hfam, hin] at h

/-! The counter of a detached family (R134). -/

theorem State.bytesAt_none (s : State) (part va pa n : Nat) : s.bytesAt part none va pa n = Memory.bytes s.mem pa n := by
  induction n generalizing va pa with
  | zero => rfl
  | succ n ih =>
    rw [State.bytesAt, Memory.bytes, ih]
    rfl

theorem Tags.mem_set (l : List Nat) (w : Nat) : w ∈ Tags.set l w := by
  induction l with
  | nil => exact List.mem_singleton_self w
  | cons k l ih =>
    unfold Tags.set
    split
    · exact List.mem_cons_self
    · split
      · rename_i h
        exact h ▸ List.mem_cons_self
      · exact List.mem_cons_of_mem _ ih

theorem State.l2Alloc_tags (s : State) (pa : Nat) (sectors : BitVec 4) (wmask : BitVec 256) :
    (s.l2Alloc pa sectors wmask).tags = s.tags := by
  unfold State.l2Alloc
  dsimp only [State.fresh]
  split <;> rfl

theorem State.l2Touch_tags (s : State) (pa cache n : Nat) : (s.l2Touch pa cache n).tags = s.tags := by
  unfold State.l2Touch
  split
  · split_ifs
    · exact s.l2Alloc_tags _ _ _
    · rfl
    · exact s.l2Alloc_tags _ _ _
    · rfl
  · rfl

/-- The counter loses 1, and at 0 its tag is full. -/
theorem State.decCounter_leaves (s : State) (part va pa : Nat) :
    let v : W64 := BitVec.ofNat 64 (leVal (Memory.bytes s.mem pa 8)) - 1#64
    let t := s.decCounter part (va, pa)
    t.mem = Memory.putAll s.mem pa (toLe 8 v.toNat) ∧ t.tags = if v = 0#64 then Tags.set s.tags (pa / 8) else s.tags := by
  intro v t
  have ht : t = (if v = 0#64 then { s.l2Touch pa 0 8 with tags := Tags.set (s.l2Touch pa 0 8).tags (pa / 8) }
      else s.l2Touch pa 0 8).putBytes part none va pa (toLe 8 v.toNat) := by
    show State.putBytes _ part none va pa _ = _
    rw [State.bytesAt_none]
  rw [ht, State.putBytes_none_mem, State.putBytes_tags]
  split
  · exact ⟨by rw [State.l2Touch_mem], by rw [State.l2Touch_tags]⟩
  · exact ⟨by rw [State.l2Touch_mem], State.l2Touch_tags s pa 0 8⟩

/-- The family has updated its counter; its slice may be complete. -/
def State.counterDone (s : State) (uid : Nat) (f : Family) : State :=
  let t : State := s.updFam uid fun f => { f with ctr := none, synced := true }
  match f.slice with
  | some sl => t.sliceCheck sl
  | none => t

theorem State.WindsUp.counterDone (s : State) (uid : Nat) (f : Family) : s.WindsUp (s.counterDone uid f) := by
  unfold State.counterDone
  extract_lets t
  have h : s.WindsUp t := .updFam s uid _
  split
  · exact h.trans (.sliceCheck t _)
  · exact h

theorem exec_detJoinDecrement {s : State} {uid va pa : Nat} {f : Family} (he : s.evt = .detJoinDecrement uid) (hf : s.fam uid = some f)
    (hc : f.ctr = some (va, pa)) (hw : f.ran.any s.writesOut = false) :
    exec .detJoinDecrement s =
      .next (((f.ran.foldl (fun s c => s.releaseLines c) s).decCounter f.part (va, pa)).counterDone uid f) := by
  show execDetJoinDecrement s = _
  unfold execDetJoinDecrement
  simp only [he, hf, hc, hw, Bool.false_eq_true, if_false]
  rfl

theorem detJoin_leaves {s : State} (hs : s.Sound) {uid va pa : Nat} {f : Family} (he : s.evt = .detJoinDecrement uid)
    (hf : s.fam uid = some f) (hc : f.ctr = some (va, pa)) (hw : f.ran.any s.writesOut = false) :
    let s0 := f.ran.foldl (fun s c => s.releaseLines c) s
    let v : W64 := BitVec.ofNat 64 (leVal (Memory.bytes s0.mem pa 8)) - 1#64
    ∃ t, exec .detJoinDecrement s = .next t ∧ Memory.bytes t.mem pa 8 = toLe 8 v.toNat ∧
      (v = 0#64 → pa / 8 ∈ t.tags) ∧ (v ≠ 0#64 → t.tags = s0.tags) ∧
      ∀ a, (a < pa ∨ pa + 8 ≤ a) → Memory.get t.mem a = Memory.get s0.mem a := by
  intro s0 v
  have hs0 : s0.Sound := foldl_sound _ (fun s c h => h.releaseLines c) f.ran hs
  let t : State := (s0.decCounter f.part (va, pa)).counterDone uid f
  have hwind : (s0.decCounter f.part (va, pa)).WindsUp t := .counterDone _ uid f
  obtain ⟨hmem, htags⟩ := s0.decCounter_leaves f.part va pa
  have hmem' : t.mem = Memory.putAll s0.mem pa (toLe 8 v.toNat) := hwind.mem.trans hmem
  have htags' : t.tags = if v = 0#64 then Tags.set s0.tags (pa / 8) else s0.tags := hwind.tags.trans htags
  refine ⟨t, exec_detJoinDecrement he hf hc hw, ?_, fun hv => ?_, fun hv => ?_, fun a ha => ?_⟩
  · have hb := Memory.bytes_putAll hs0 pa (toLe 8 v.toNat)
    rwa [length_toLe, ← hmem'] at hb
  · rw [htags', if_pos hv]
    exact Tags.mem_set _ _
  · rw [htags', if_neg hv]
  · rw [hmem', Memory.get_putAll hs0, length_toLe, if_neg (by omega)]

/-! Merges (R348). -/

theorem State.markSide_mem (s : State) (part : Nat) (inRev lvl : Option Nat) : (s.markSide part inRev lvl).mem = s.mem := by
  rw [State.markSide_eq]

/-- A version that is not its ancestor's block merges into memory where no parent revision holds the block. -/
theorem State.mergeVersion_mem {s : State} {part : Nat} {r : Rev} {v : Version} {g : Region} (hg : r.region v.va = some g)
    (hm : g.merge ≠ 12) (hl : (s.part part).level r.parent v.va = none) (tag : Nat) :
    let a := bytesBlock ((List.range 64).map fun k => (s.part part).anc r.id (v.va + k) (v.blk * 64 + k))
    a ≠ v.data → (s.mergeVersion part r v tag).mem = Memory.putAll s.mem (v.blk * 64)
      (toLe 64 (mergeBlockData g.merge g.elem a v.data (bytesBlock (Memory.bytes s.mem (v.blk * 64) 64))).toNat) := by
  intro a ha
  unfold State.mergeVersion
  simp only [hg, hm, hl, if_false]
  rw [if_neg ha, State.putBytes_none_mem, State.l2Wrote_mem, State.l2Touch_mem, State.bytesAt_none]
  congr 1
  split
  · split
    · rfl
    · rw [State.markSide_mem]
      rfl
  · rfl

/-- The join goes on after a block: the next one follows, or it ends (R349). -/
def State.blockDone (s : State) (part tok : Nat) (j : Join) (rest : List Version) : State :=
  let t : State := s.updPart part fun p => { p with joins := p.joins.map fun x => if x.tok == tok then { x with blocks := rest } else x }
  let u : State := if (t.part part).heldWrites.isEmpty then t else t.urgent (.revstoreHoldRelease part)
  if rest.isEmpty then u.endJoin part j else u.urgent (.mergeBlock tok)

theorem State.WindsUp.blockDone (s : State) (part tok : Nat) (j : Join) (rest : List Version) :
    s.WindsUp (s.blockDone part tok j rest) := by
  unfold State.blockDone
  extract_lets t u
  have h1 : s.WindsUp t := .updPart (by intro _; rfl) part
  have h2 : t.WindsUp u := by
    dsimp only [u]
    split
    · exact .refl t
    · exact .urgent t _
  split
  · exact (h1.trans h2).trans (.endJoin u part j)
  · exact (h1.trans h2).trans (.urgent u _)

theorem exec_mergeBlock {s : State} {tok part : Nat} {j : Join} {r : Rev} {v : Version} {rest : List Version}
    (he : s.evt = .mergeBlock tok) (hj : s.join tok = some (part, j)) (hb : j.blocks = v :: rest)
    (hr : (s.part part).rev j.rev = some r) (hs : s.spoilt (v.blk * 64) 64 = false) :
    exec .mergeBlock s = .next ((s.mergeVersion part r v (part * 2 ^ 8 + j.rev)).blockDone part tok j rest) := by
  have hspoilt : s.mergeSpoilt part r v = false := by
    unfold State.mergeSpoilt
    rw [hs, Bool.and_false, Bool.false_and]
  show execMergeBlock s = _
  unfold execMergeBlock
  simp only [he, hj, hb, hr, hspoilt, Bool.false_eq_true, if_false]
  rfl

theorem mergeBlock_leaves {s : State} (hs : s.Sound) {tok part : Nat} {j : Join} {r : Rev} {g : Region} {v : Version} {rest : List Version}
    (he : s.evt = .mergeBlock tok) (hj : s.join tok = some (part, j)) (hb : j.blocks = v :: rest) (hr : (s.part part).rev j.rev = some r)
    (hg : r.region v.va = some g) (hm : g.merge ≠ 12) (hl : (s.part part).level r.parent v.va = none)
    (hspoilt : s.spoilt (v.blk * 64) 64 = false) :
    let a := bytesBlock ((List.range 64).map fun k => (s.part part).anc r.id (v.va + k) (v.blk * 64 + k))
    a ≠ v.data → ∃ t, exec .mergeBlock s = .next t ∧ Memory.bytes t.mem (v.blk * 64) 64 =
      toLe 64 (mergeBlockData g.merge g.elem a v.data (bytesBlock (Memory.bytes s.mem (v.blk * 64) 64))).toNat := by
  intro a ha
  refine ⟨_, exec_mergeBlock he hj hb hr hspoilt, ?_⟩
  rw [(State.WindsUp.blockDone _ part tok j rest).mem, State.mergeVersion_mem hg hm hl _ ha]
  have h := Memory.bytes_putAll hs (v.blk * 64)
    (toLe 64 (mergeBlockData g.merge g.elem a v.data (bytesBlock (Memory.bytes s.mem (v.blk * 64) 64))).toNat)
  rwa [length_toLe] at h

/-! A purge that completes (R380, R382, R385). -/

theorem State.calm_putDwords (s : State) (pa : Nat) (ws : List W64) : s.Calm (s.putDwords pa ws) := by
  induction ws generalizing s pa with
  | nil => exact .refl s
  | cons w ws ih => exact ((s.calm_l2Wrote pa 0 8).trans (State.calm_putBytes _ _ _ _ _)).trans (ih _ _)

/-- A death notice is counted; it touches no thread and no family. -/
theorem State.deathLog_leaves (s : State) (part : Nat) (ws : List W64) :
    ((s.deathLog part ws).part part).dlcnt = (s.part part).dlcnt + 1#64 ∧ (s.deathLog part ws).fams = s.fams ∧
      ∀ c k, (s.deathLog part ws).thread c k = s.thread c k := by
  unfold State.deathLog
  extract_lets p s1
  have hc : s.Calm s1 := s.calm_putDwords _ ws
  refine ⟨?_, hc.fams, hc.thread⟩
  rw [State.part_updPart_self, hc.part]

theorem State.dropSteps_leaves (s : State) (uid : Nat) : s.WindsUp (s.dropSteps uid) ∧ s.Books (s.dropSteps uid) := by
  unfold State.dropSteps
  extract_lets mine far
  exact ⟨.trans (.foldl (fun s c => .gotMsgs s c 1) far s) (.dropDue _ _),
    .trans (.foldl (fun s c => .gotMsgs s c 1) far s) (.of_cores rfl rfl rfl)⟩

/-- A task purged for its replay waits for it, and has no thread left. -/
theorem State.replayPurge_leaves {s : State} {f : Family} (hf : s.fam f.uid = some f) :
    (∃ g, (s.replayPurge f).fam f.uid = some g ∧ g.st = .replayWait) ∧
      ∀ {c k th}, (s.replayPurge f).thread c k = some th → th.fam ≠ some f.uid := by
  unfold State.replayPurge
  extract_lets inner s1 s2 s3 s4
  obtain ⟨-, hgone⟩ := s1.dropThreads_leaves fun t => t.fam == some f.uid
  obtain ⟨hw2, hb2⟩ : (s1.dropThreads fun t => t.fam == some f.uid).WindsUp s2 ∧ (s1.dropThreads fun t => t.fam == some f.uid).Books s2 :=
    State.dropSteps_leaves _ f.uid
  have e2 : s.Ends s2 := ((State.Ends.purgeFams s inner none).trans (.dropThreads s1 _)).trans hb2.ends
  clear_value s2
  have hb3 : s2.Books s3 :=
    .mapCores (g := fun c => { c with regUse := c.regUse.filter fun u => u.fam != f.uid || f.kind == .inlined })
      (fun _ => rfl) (fun _ => rfl) rfl rfl rfl
  clear_value s3
  have hb4 : s3.Books s4 := by
    dsimp only [s4]
    split
    · next id _ => exact ((State.Books.dropWrites s3 f.part id).trans (.updPart _ f.part _)).trans (.serveHeld _ f.part)
    · exact .refl s3
  obtain ⟨g, hg, -⟩ := (e2.trans (hb3.trans hb4).ends).fams.fam (fun _ _ k => k.1) hf
  clear_value s4
  refine ⟨⟨_, State.fam_updFam_self hg (g := fun f =>
    { f with st := .replayWait, shares := [], links := [], outs := [], brk := none, flags := fNone }) fun _ => rfl, rfl⟩,
    fun {c k th} hk => ?_⟩
  have hk4 : s4.thread c k = some th := hk
  rw [(hb3.trans hb4).thread] at hk4
  simpa using hgone (hw2.thread hk4)

/-- A family that no purge covers is covered by none when one fewer is under way. -/
theorem State.covered_without {s : State} {f : Family} (h : s.covered f = false) (tok : Nat) :
    ({ s with purges := s.purges.filter fun x => x.tok != tok } : State).covered f = false := by
  unfold State.covered at *
  rw [Bool.or_eq_false_iff] at *
  refine ⟨h.1, ?_⟩
  have h2 := h.2
  cases hsl : f.slice with
  | none => rfl
  | some u =>
    rw [hsl] at h2
    simp only [Option.any_some] at h2 ⊢
    change (match s.slice u with | some sl => sl.st == .ended || State.dying _ u | none => true) = false
    cases hs : s.slice u with
    | none => simp [hs] at h2
    | some sl =>
      simp only [hs, Bool.or_eq_false_iff] at h2 ⊢
      refine ⟨h2.1, ?_⟩
      have hd := h2.2
      unfold State.dying at hd ⊢
      rw [List.any_eq_false] at hd ⊢
      exact fun x hx => hd x (List.mem_of_mem_filter hx)

theorem exec_purgeComplete {s : State} {tok u : Nat} {p : Purge} {f : Family} (he : s.evt = .purgeComplete tok)
    (hp : (s.purges.find? fun p => p.tok == tok) = some p) (hu : p.fam = some u) (hf : s.fam u = some f) :
    let s1 : State := { s with purges := s.purges.filter fun x => x.tok != tok }
    exec .purgeComplete s = .next (if p.replay && f.st == .purging && f.ended == .none && !s1.covered f then s1.replayPurge f
      else
        let t : State := s1.purgeFams (s1.famsWithin fun x => x.uid == u) (some u)
        if p.replay || s1.covered f then t
        else t.deathLog f.part (p.notice (f.part * 2 ^ 8 + f.rev.getD 0) f.replay true)) := by
  have hf1 : ({ s with purges := s.purges.filter fun x => x.tok != tok } : State).fam u = some f := hf
  intro s1
  show execPurgeComplete s = _
  unfold execPurgeComplete
  nth_rewrite 1 [he]
  dsimp only
  rw [hp]
  dsimp only
  rw [hu]
  dsimp only
  rw [hf1]

/-- A purge that no replay follows: the task is dead, and its death counted where no wider purge covers it. -/
theorem State.purgeDead_leaves {s : State} {u : Nat} {f : Family} (hf : s.fam u = some f) (quiet : Bool) (ws : List W64) :
    let t : State := s.purgeFams (s.famsWithin fun x => x.uid == u) (some u)
    let t' : State := if quiet then t else t.deathLog f.part ws
    (∃ g, t'.fam u = some g) ∧ (∀ {c k th}, t'.thread c k = some th → th.fam ≠ some u) ∧
      (quiet = false → (t'.part f.part).dlcnt = (s.part f.part).dlcnt + 1#64) := by
  intro t t'
  obtain ⟨hwind, hgone⟩ := s.purgeFams_leaves (s.famsWithin fun x => x.uid == u) (some u)
  obtain ⟨g, hg, -⟩ := (State.Ends.purgeFams s (s.famsWithin fun x => x.uid == u) (some u)).fams.fam (fun _ _ k => k.1) hf
  obtain ⟨hcount, hfams, hthread⟩ := t.deathLog_leaves f.part ws
  have hin : u ∈ s.famsWithin fun x => x.uid == u := by
    have h := State.mem_famsWithin (roots := fun x => x.uid == u) (State.fam_mem hf) (by simp [State.fam_uid hf])
    rwa [State.fam_uid hf] at h
  have hth {c k th} (hk : t.thread c k = some th) : th.fam ≠ some u := by
    intro hfam
    have h := hgone hk
    simp [Thread.ofFams, hfam, hin] at h
  cases quiet with
  | true => exact ⟨⟨g, hg⟩, hth, fun h => nomatch h⟩
  | false =>
    refine ⟨⟨g, ?_⟩, fun hk => hth ((hthread _ _).symm.trans hk), fun _ => ?_⟩
    · exact (congrArg (List.find? _) hfams).trans hg
    · rw [← hwind.deaths f.part]
      exact hcount

theorem purgeComplete_leaves {s : State} {tok u : Nat} {p : Purge} {f : Family} (he : s.evt = .purgeComplete tok)
    (hp : (s.purges.find? fun p => p.tok == tok) = some p) (hu : p.fam = some u) (hf : s.fam u = some f) :
    ∃ t g, exec .purgeComplete s = .next t ∧ t.fam u = some g ∧
      (p.replay = true → f.st = .purging → f.ended = .none → s.covered f = false → g.st = .replayWait) ∧
      (∀ cid slot th, t.thread cid slot = some th → th.fam ≠ some u) ∧
      (p.replay = false → s.covered f = false → (t.part f.part).dlcnt = (s.part f.part).dlcnt + 1#64) := by
  let s1 : State := { s with purges := s.purges.filter fun x => x.tok != tok }
  have hf1 : s1.fam u = some f := hf
  have hcov : s.covered f = false → s1.covered f = false := fun h => State.covered_without h tok
  by_cases hreplay : (p.replay && f.st == .purging && f.ended == .none && !s1.covered f) = true
  · obtain rfl : f.uid = u := State.fam_uid hf
    obtain ⟨⟨g, hg, hst⟩, hgone⟩ := State.replayPurge_leaves hf1
    refine ⟨_, g, (exec_purgeComplete he hp hu hf).trans (by rw [if_pos hreplay]), hg, fun _ _ _ _ => hst, fun _ _ _ hk => hgone hk,
      fun hr => ?_⟩
    simp [hr] at hreplay
  · obtain ⟨⟨g, hg⟩, hgone, hcount⟩ := State.purgeDead_leaves hf1 (p.replay || s1.covered f)
      (p.notice (f.part * 2 ^ 8 + f.rev.getD 0) f.replay true)
    refine ⟨_, g, (exec_purgeComplete he hp hu hf).trans (by rw [if_neg hreplay]), hg, fun hr hst hend hc => ?_,
      fun _ _ _ hk => hgone hk, fun hr hc => hcount (by rw [hr, hcov hc]; rfl)⟩
    exact absurd (by rw [hr, hst, hend, hcov hc]; rfl) hreplay

/-! A replay that starts (R385). -/

theorem exec_taskReplay {s : State} {uid : Nat} {f : Family} (he : s.evt = .taskReplay uid) (hf : s.fam uid = some f)
    (hst : f.st = .replayWait) (hk : f.kind ≠ .inlined)
    (hfit : ∀ x ∈ deals f.ranOn f.place.cyclic f.n, s.usable x.1 f.desc ≠ []) :
    exec .taskReplay s = .next ((deals f.ranOn f.place.cyclic f.n).foldl (fun s x => s.takeCore uid f.desc x true (s.startAt f x.1))
      (s.updFam uid fun f => { f with st := .running, replay := f.replay + 1 })) := by
  have hall : ((deals f.ranOn f.place.cyclic f.n).all fun x => !(s.usable x.1 f.desc).isEmpty) = true :=
    List.all_eq_true.2 fun x hx => by
      rw [Bool.not_eq_true', List.isEmpty_eq_false_iff]
      exact hfit x hx
  show execTaskReplay s = _
  unfold execTaskReplay
  simp only [he, hf, hst, bne_self_eq_false, Bool.false_eq_true, if_false, if_neg hk]
  rw [if_pos hall]

theorem taskReplay_starts {s : State} {uid : Nat} {f : Family} (he : s.evt = .taskReplay uid) (hf : s.fam uid = some f)
    (hst : f.st = .replayWait) (hk : f.kind ≠ .inlined)
    (hfit : ∀ x ∈ deals f.ranOn f.place.cyclic f.n, s.usable x.1 f.desc ≠ []) :
    ∃ t g, exec .taskReplay s = .next t ∧ t.mem = s.mem ∧ t.fam uid = some g ∧ g.st = .running ∧ g.replay = f.replay + 1 := by
  let s1 : State := s.updFam uid fun f => { f with st := .running, replay := f.replay + 1 }
  have hf1 : s1.fam uid = some { f with st := .running, replay := f.replay + 1 } := State.fam_updFam_self hf fun _ => rfl
  have h : s1.DealsOut ((deals f.ranOn f.place.cyclic f.n).foldl (fun s x => s.takeCore uid f.desc x true (s.startAt f x.1)) s1) :=
    .foldl (fun s x => .takeCore s uid f.desc x true _) _ s1
  obtain ⟨g, hg, hsame⟩ := h.fams.fam Family.SameButShares.uid hf1
  refine ⟨_, g, exec_taskReplay he hf hst hk hfit, h.mem, hg, ?_, ?_⟩ <;> rw [show g = _ from hsame]

end Sys2Proof.Machine

open Sys2Proof.Machine

/-- Settles O36, by one lemma per event: what the events of an end leave aside is said once, of all that they do on the way. -/
theorem Sys2Proof.familiesEnd : Obligations.FamiliesEnd := by
  intro s hs
  refine ⟨fun cid uid he => killMessage_leaves he, fun uid f va pa he hf hc _ _ hw => detJoin_leaves hs he hf hc hw, ?_,
    fun tok p u f he hp hu hf => purgeComplete_leaves he hp hu hf, fun uid f he hf hst hk hfit => taskReplay_starts he hf hst hk hfit⟩
  intro tok part j r g v rest he hj hb hr _ hg hm hl _ a hspoilt ha
  exact mergeBlock_leaves hs he hj hb hr hg hm hl hspoilt ha

end


-- END in a state whose list of cores is not in rising order.
section

namespace Sys2Proof.Machine

/-! A core is kept by putting it in its place in a list in rising order.  In a list that is not, where core 1 stands before core 0,
the write that delivers the issuing thread's held flags puts a second entry of core 0 in front; the slots of core 0 are then counted
twice, and with them the bundle that the other slot holds, which has room in the slice's budget once but not twice (R125). -/

/-- A slice with a budget of 7 bundles, of which 5 have issued. -/
def tightSlice : Slice :=
  { Tests.slice0 with root := none, issued := 5, words := [0#64, 0#64, 0#64, 7#64, 0#64, 0#64, 0#64, 0#64] }

/-- The thread that ends: it has no children, no result in flight and nothing else to wait for. -/
def endingThread : Thread := { Tests.thr [] with slice := some 30 }

/-- The thread beside it, which holds a bundle. -/
def holdingThread : Thread := { Tests.thr [] with uid := 8, slice := some 30, hold := .busy 3 }

/-- Both threads are on core 0, of which the list of cores has one entry, behind that of core 1. -/
def coresOutOfOrder : State :=
  let s : State := ((Tests.base []).setThread 0 0 (some endingThread)).setThread 0 1 (some holdingThread)
  { s with slices := [tightSlice], cores := Core.fresh 1 0 :: s.cores }

/-- A header with no literal. -/
def plainHdr : Hdr := { st := 0#3, lit := none }

/-- The bundle has committed. -/
def commitsBundle (o : Out) : Bool :=
  match o with
  | .next t => t.cur.res == .committed
  | _ => false

theorem coresOutOfOrder_stands : coresOutOfOrder.Stands := ⟨by decide, by decide +kernel⟩

theorem coresOutOfOrder_inBudget : InBudget coresOutOfOrder := .inl (by decide +kernel)

/-- Once the flags are delivered, the bundle held beside it is counted twice. -/
theorem coresOutOfOrder_delivered : coresOutOfOrder.delivered.overBudget = true := by decide +kernel

theorem coresOutOfOrder_usable : Usable Uses.none coresOutOfOrder where
  window := fun _ h => nomatch h
  vectors := fun _ h => nomatch h
  writable := fun _ h => nomatch h
  present := fun _ h => nomatch h
  vpresent := fun _ h => nomatch h
  idle := fun _ h => nomatch h
  vidle := fun _ h => nomatch h
  landed := fun _ _ _ => ⟨(fun _ h => nomatch h), (fun _ h => nomatch h), (fun _ h => nomatch h)⟩
  acquired := fun _ h => nomatch h

theorem end_coresOutOfOrder_not_committed : commitsBundle (exec (.endThread plainHdr) coresOutOfOrder) = false := by decide +kernel

/-- Refutes O33: END traps with the budget's cause, though its bundle was within the budget when it issued. -/
theorem not_threadEndsComplete : ¬ Obligations.ThreadEndsComplete := by
  unfold Obligations.ThreadEndsComplete
  intro h
  obtain ⟨hend, -⟩ := h plainHdr .zr coresOutOfOrder coresOutOfOrder_stands coresOutOfOrder_inBudget (by decide) (by decide +kernel)
    (by decide +kernel) (by decide +kernel) (by decide +kernel) (by decide +kernel)
  obtain ⟨t, ht, hres, -⟩ := hend coresOutOfOrder_usable (by decide +kernel) (by decide +kernel) (by decide +kernel) (by decide +kernel)
  have hnot := end_coresOutOfOrder_not_committed
  rw [ht] at hnot
  simp [commitsBundle, hres] at hnot

end Sys2Proof.Machine

end


-- The two-operand integer instructions: arithmetic and comparisons.
section

namespace Sys2Proof.Machine

/-- A scalar operation leaves the value and the flags that its function gives. -/
theorem scalarResult_of_eq {i : Instr} {u : Uses} {rd : SReg} {s : State} {f : State → W64 × Flags} {lat : Nat} {v : W64}
    {fl : Flags} (hi : exec i s = .next (scalarOp u rd f lat s)) (hf : f s = (v, fl)) : ScalarResult i u rd s v fl lat := by
  obtain ⟨rfl, rfl⟩ := Prod.mk.inj hf
  intro hs hu hn ho
  exact hi.trans (congrArg Host.Outcome.next (scalarOp_ok hs hu hn ho))

/-- The low part of a word, read from bit 0 on. -/
theorem extractLsb'_zero_eq_setWidth {n : Nat} (k : Nat) (a : BitVec n) : a.extractLsb' 0 k = a.setWidth k := by
  ext i hi
  simp

theorem intVal_eq_atWidth (f : (n : Nat) → BitVec n → BitVec n → BitVec n) (narrow : Bool) (a b : W64) :
    intVal f narrow a b = atWidth f narrow a b := by
  simp only [intVal, atWidth, extractLsb'_zero_eq_setWidth]

/-- An operation without flags follows the rule of a function that it agrees with (R150). -/
theorem intRule_intOp {i : SReg → SReg → Opnd2 → Instr} {f g : (n : Nat) → BitVec n → BitVec n → BitVec n} {lat : Nat}
    (hf : ∀ n a b, f n a b = g n a b)
    (hi : ∀ rd ra o s, exec (i rd ra o) s = .next (intOp f lat rd ra o s) := by intros; rfl) : IntRule i lat g := by
  obtain rfl : f = g := by funext n a b; exact hf n a b
  intro rd ra o s b narrow rs
  cases o with
  | reg rb w => exact scalarResult_of_eq (hi rd ra _ s) (by rw [ite_self, intVal_eq_atWidth]; rfl)
  | imm k => exact scalarResult_of_eq (hi rd ra _ s) (by rw [ite_self, intVal_eq_atWidth]; rfl)

/-- A relation's truth value is 1 where it holds and 0 elsewhere (R155). -/
theorem truth_of_iff (n : Nat) {p : Bool} {q : Prop} [Decidable q] (h : p = true ↔ q) :
    truth n p = if q then 1#n else 0#n := by
  by_cases hq : q
  · rw [h.2 hq, if_pos hq]; rfl
  · rw [Bool.eq_false_iff.2 (mt h.1 hq), if_neg hq]; rfl

/-! The smaller and the larger of two, which the model picks by the strict comparison. -/

theorem iMin_eq_ite_le (n : Nat) (a b : BitVec n) : iMin n a b = if a.toInt ≤ b.toInt then a else b := by
  simp only [iMin, ← Int.not_lt, ite_not]

theorem iMax_eq_ite_le (n : Nat) (a b : BitVec n) : iMax n a b = if b.toInt ≤ a.toInt then a else b := by
  simp only [iMax, ← Int.not_lt, ite_not]

theorem iMinn_eq_ite_le (n : Nat) (a b : BitVec n) : iMinn n a b = if a.toNat ≤ b.toNat then a else b := by
  simp only [iMinn, ← Nat.not_lt, ite_not]

theorem iMaxn_eq_ite_le (n : Nat) (a b : BitVec n) : iMaxn n a b = if b.toNat ≤ a.toNat then a else b := by
  simp only [iMaxn, ← Nat.not_lt, ite_not]

end Sys2Proof.Machine

open Sys2Proof Sys2Proof.Machine

/-- Settles O1: each function is the model's, at the width of its operand. -/
theorem Sys2Proof.integerArithmeticResults : Obligations.IntegerArithmeticResults := by
  unfold Obligations.IntegerArithmeticResults
  refine ⟨intRule_intOp (f := iAdd) fun _ _ _ => rfl, intRule_intOp (f := iSub) fun _ _ _ => rfl,
    intRule_intOp (f := iAnd) fun _ _ _ => rfl, intRule_intOp (f := iOr) fun _ _ _ => rfl,
    intRule_intOp (f := iXor) fun _ _ _ => rfl, intRule_intOp (f := iAndn) fun _ _ _ => rfl,
    intRule_intOp (f := iShl) fun _ _ _ => rfl, intRule_intOp (f := iShr) fun _ _ _ => rfl,
    intRule_intOp (f := iSar) fun _ _ _ => rfl, intRule_intOp (f := iRol) fun _ _ _ => rfl,
    intRule_intOp iMin_eq_ite_le, intRule_intOp iMax_eq_ite_le, intRule_intOp iMinn_eq_ite_le, intRule_intOp iMaxn_eq_ite_le,
    intRule_intOp (f := iShadd 1) fun _ _ _ => rfl, intRule_intOp (f := iShadd 2) fun _ _ _ => rfl,
    intRule_intOp (f := iShadd 3) fun _ _ _ => rfl, fun rd rb w s => scalarResult_of_eq rfl ?_,
    fun rd k s => scalarResult_of_eq rfl rfl⟩
  rw [intVal_eq_atWidth]
  rfl

/-- Settles O2: each comparison writes the truth value of its relation. -/
theorem Sys2Proof.integerComparisonResults : Obligations.IntegerComparisonResults := by
  unfold Obligations.IntegerComparisonResults
  exact ⟨intRule_intOp (f := iEq) fun n _ _ => truth_of_iff n beq_iff_eq,
    intRule_intOp (f := iNe) fun n _ _ => (truth_of_iff n bne_iff_ne).trans (ite_not ..),
    intRule_intOp (f := iLt) fun n _ _ => truth_of_iff n decide_eq_true_iff,
    intRule_intOp (f := iLtn) fun n _ _ => truth_of_iff n decide_eq_true_iff,
    intRule_intOp (f := iLe) fun n _ _ => truth_of_iff n decide_eq_true_iff,
    intRule_intOp (f := iLen) fun n _ _ => truth_of_iff n decide_eq_true_iff,
    intRule_intOp (f := iGt) fun n _ _ => truth_of_iff n decide_eq_true_iff,
    intRule_intOp (f := iGtn) fun n _ _ => truth_of_iff n decide_eq_true_iff⟩

end


-- The one-operand integer instructions.
section

namespace Sys2Proof.Machine

/-! The zeros and ones of a word, counted by a search of its bits. -/

/-- The least index below n that p holds of, or n where it holds of none, is k: p fails below k, and holds at k if k is below n. -/
theorem find?_range_getD {p : Nat → Bool} {n k : Nat} (hk : k ≤ n) (hlt : ∀ j < k, p j = false) (h : k < n → p k = true) :
    ((List.range n).find? p).getD n = k := by
  rcases hk.lt_or_eq with hkn | rfl
  · rw [List.find?_range_eq_some.2 ⟨h hkn, List.mem_range.2 hkn, fun j hj => by simp [hlt j hj]⟩, Option.getD_some]
  · rw [List.find?_range_eq_none.2 fun j hj => by simp [hlt j hj], Option.getD_none]

theorem lt_two_pow_bitLen (m : Nat) : m < 2 ^ bitLen m := by
  unfold bitLen
  split
  · simp_all
  · exact Nat.lt_log2_self

theorem bitLen_le {m n : Nat} (h : m < 2 ^ n) : bitLen m ≤ n := by
  unfold bitLen
  split
  · exact n.zero_le
  · exact (Nat.log2_lt ‹_›).2 h

theorem testBit_bitLen_sub_one {m : Nat} (h : bitLen m ≠ 0) : m.testBit (bitLen m - 1) = true := by
  unfold bitLen at h ⊢
  split at h
  · exact absurd rfl h
  · rw [if_neg ‹_›, Nat.add_sub_cancel, Nat.testBit_log2 ‹_›]

/-- The leading zeros are those above the highest one bit. -/
theorem iClz_eq_find? (n : Nat) (a : BitVec n) :
    iClz n a = BitVec.ofNat n (((List.range n).find? a.getMsbD).getD n) := by
  have hle : bitLen a.toNat ≤ n := bitLen_le a.isLt
  rw [iClz, find?_range_getD (Nat.sub_le _ _) (fun j hj => ?_) fun hk => ?_]
  · have hhigh : a.toNat < 2 ^ (n - 1 - j) :=
      (lt_two_pow_bitLen _).trans_le (Nat.pow_le_pow_right (by decide) (by omega))
    rw [BitVec.getMsbD_eq_getLsbD, BitVec.getLsbD, Nat.testBit_lt_two_pow hhigh, Bool.and_false]
  · have htop : n - 1 - (n - bitLen a.toNat) = bitLen a.toNat - 1 := by omega
    rw [BitVec.getMsbD_eq_getLsbD, htop, BitVec.getLsbD, testBit_bitLen_sub_one (by omega), decide_eq_true hk, Bool.and_self]

theorem ctzFrom_eq_find? {n : Nat} (a : BitVec n) (k i : Nat) :
    ctzFrom a k i = ((List.range' i k).find? a.getLsbD).getD (i + k) := by
  induction k generalizing i with
  | zero => rfl
  | succ k ih =>
    rw [ctzFrom, List.range'_succ, List.find?_cons, ih, Nat.add_assoc, Nat.add_comm 1 k]
    cases a.getLsbD i <;> rfl

theorem iCtz_eq_find? (n : Nat) (a : BitVec n) :
    iCtz n a = BitVec.ofNat n (((List.range n).find? a.getLsbD).getD n) := by
  rw [iCtz, ctzFrom_eq_find?, Nat.zero_add, List.range_eq_range']

theorem popLow_eq_countP {n : Nat} (a : BitVec n) (k : Nat) : popLow a k = (List.range k).countP a.getLsbD := by
  induction k with
  | zero => rfl
  | succ k ih => rw [popLow, ih, List.range_succ, List.countP_append, List.countP_singleton, Nat.add_comm]

theorem iPopc_eq_countP (n : Nat) (a : BitVec n) :
    iPopc n a = BitVec.ofNat n ((List.range n).countP a.getLsbD) := by
  rw [iPopc, popLow_eq_countP]

/-- Byte i of a number, counted from the lowest, stands at bit 8·i. -/
theorem getElem_toLe (n v i : Nat) (h : i < (toLe n v).length) : (toLe n v)[i] = BitVec.ofNat 8 (v >>> (8 * i)) := by
  induction n generalizing v i with
  | zero => exact absurd h (Nat.not_lt_zero i)
  | succ n ih =>
    cases i with
    | zero => rfl
    | succ i =>
      simp only [toLe, List.getElem_cons_succ, ih]
      rw [Nat.mul_succ, Nat.add_comm, Nat.shiftRight_add, Nat.shiftRight_eq_div_pow v 8]

/-- Where the width is a number of bytes, the reversed bytes are those of the word from the highest down. -/
theorem iBswap_eq_bytes {n : Nat} (hn : 8 ∣ n) (a : BitVec n) :
    iBswap n a = BitVec.ofNat n (leVal ((List.range (n / 8)).map fun i => a.extractLsb' (n - 8 - 8 * i) 8)) := by
  unfold iBswap
  congr 2
  refine List.ext_getElem (by simp) fun i h1 h2 => ?_
  have hpos : 8 * (n / 8 - 1 - i) = n - 8 - 8 * i := by omega
  rw [List.getElem_reverse, getElem_toLe, length_toLe, hpos, List.getElem_map, List.getElem_range]
  rfl

theorem iSex_eq_signExtend (k n : Nat) (a : BitVec n) : iSex k n a = (a.setWidth k).signExtend n := by
  rw [iSex, extractLsb'_zero_eq_setWidth]

theorem iZex_eq_setWidth (k n : Nat) (a : BitVec n) : iZex k n a = (a.setWidth k).setWidth n := by
  rw [iZex, extractLsb'_zero_eq_setWidth]

/-! The rule. -/

theorem unVal_eq_atWidth (f : (n : Nat) → BitVec n → BitVec n) (narrow : Bool) (a b : W64) :
    unVal f narrow a = atWidth (fun n a _ => f n a) narrow a b := by
  simp only [unVal, atWidth, extractLsb'_zero_eq_setWidth]

/-- A one-operand operation follows the rule of a function that it agrees with at both widths (R158). -/
theorem unaryRule_iunOp {i : SReg → SReg → UOpnd → Instr} {f g : (n : Nat) → BitVec n → BitVec n}
    (hf : ∀ n a, 8 ∣ n → f n a = g n a)
    (hi : ∀ rd ra u s, exec (i rd ra u) s = .next (iunOp f rd ra u s) := by intros; rfl) : UnaryRule i g := by
  have hval (w : Bool) (a : W64) : unVal f w a = unVal g w a := by
    cases w
    · exact hf 64 a (by decide)
    · exact congrArg (BitVec.signExtend 64) (hf 32 _ (by decide))
  intro rd ra s
  refine ⟨fun w => scalarResult_of_eq (hi rd ra _ s) ?_, fun k => scalarResult_of_eq (hi rd ra _ s) ?_⟩
  · rw [hval, unVal_eq_atWidth]
    rfl
  · rw [hval]
    rfl

end Sys2Proof.Machine

open Sys2Proof Sys2Proof.Machine

/-- Settles O4: the searches, counts and byte orders of the model are those of the rule at both widths. -/
theorem Sys2Proof.integerUnaryResults : Obligations.IntegerUnaryResults := by
  unfold Obligations.IntegerUnaryResults
  exact ⟨unaryRule_iunOp fun n a _ => iClz_eq_find? n a, unaryRule_iunOp fun n a _ => iCtz_eq_find? n a,
    unaryRule_iunOp fun n a _ => iPopc_eq_countP n a, unaryRule_iunOp (f := iNot) fun _ _ _ => rfl,
    unaryRule_iunOp (f := iNeg) fun _ _ _ => rfl, unaryRule_iunOp fun n a hn => iBswap_eq_bytes hn a,
    unaryRule_iunOp fun n a _ => iSex_eq_signExtend 8 n a, unaryRule_iunOp fun n a _ => iSex_eq_signExtend 16 n a,
    unaryRule_iunOp fun n a _ => iSex_eq_signExtend 32 n a, unaryRule_iunOp fun n a _ => iZex_eq_setWidth 8 n a,
    unaryRule_iunOp fun n a _ => iZex_eq_setWidth 16 n a, unaryRule_iunOp fun n a _ => iZex_eq_setWidth 32 n a⟩

end


-- Bit fields and the selection.
section

namespace Sys2Proof.Machine

/-- A word with a field inserted has the inserted bits in the field and its own elsewhere (R159). -/
theorem getLsbD_bfiVal (pos w : Nat) (old a : W64) {i : Nat} (hi : i < 64) :
    (bfiVal pos w old a).getLsbD i =
      if pos ≤ i ∧ i < pos + w then a.getLsbD (i - pos) else old.getLsbD i := by
  have hmask : (BitVec.ofNat 64 ((2 ^ w - 1) * 2 ^ pos)).getLsbD i = decide (pos ≤ i ∧ i < pos + w) := by
    rw [BitVec.getLsbD_ofNat, Nat.testBit_mul_two_pow, Nat.testBit_two_pow_sub_one, decide_eq_true hi, Bool.true_and,
      ← Bool.decide_and]
    congr 1
    apply propext
    omega
  simp only [bfiVal, BitVec.getLsbD_or, BitVec.getLsbD_and, BitVec.getLsbD_not, BitVec.getLsbD_shiftLeft, hmask, hi]
  by_cases h : pos ≤ i ∧ i < pos + w
  · simp [h]
  · simp [h]

/-- The width of a field: what is left of the word above pos where it is cut, else its length (R159). -/
theorem fieldWidth_eq (len1 pos : BitVec 6) :
    fieldWidth len1 pos = if fieldCut len1 pos then 64 - pos.toNat else len1.toNat + 1 := by
  simp only [fieldWidth, fieldCut, decide_eq_true_eq]

end Sys2Proof.Machine

open Sys2Proof Sys2Proof.Machine

/-- Settles O5: the field of BFX is cut where the rule cuts it, and BFI's word has the bits of the rule. -/
theorem Sys2Proof.bitFieldAndSelectResults : Obligations.BitFieldAndSelectResults := by
  unfold Obligations.BitFieldAndSelectResults
  refine ⟨?_, ?_, ?_⟩
  · intro rd ra sgn len1 pos s cut w f
    refine scalarResult_of_eq rfl ?_
    rw [fieldWidth_eq]
    rfl
  · intro rd ra len1 pos s cut w
    refine ⟨bfiVal pos.toNat w (s.regVal rd) (s.regVal ra), fun i hi => getLsbD_bfiVal _ _ _ _ hi, scalarResult_of_eq rfl ?_⟩
    rw [fieldWidth_eq]
    rfl
  · intro rd ra rb rc s
    refine scalarResult_of_eq rfl ?_
    simp only [bne_iff_ne, ite_not]

end


-- The constants, CNOP and EXT.
section

namespace Sys2Proof.Machine

/-! The words that are formed of two halves. -/

theorem extend_eq_append (e k : BitVec 32) : (e.zeroExtend 64) <<< 32 ||| k.zeroExtend 64 = e ++ k :=
  BitVec.setWidth_append_eq_shiftLeft_setWidth_or.symm.trans (BitVec.setWidth_eq _)

theorem lihVal_eq_append (x a : W64) : x <<< 32 ||| (a &&& 0xFFFFFFFF#64) = x.setWidth 32 ++ a.setWidth 32 := by
  have hhigh : x <<< 32 = ((x.setWidth 32).setWidth 64) <<< 32 := by
    refine BitVec.eq_of_toNat_eq ?_
    simp only [BitVec.toNat_shiftLeft, BitVec.toNat_setWidth, Nat.shiftLeft_eq]
    omega
  have hlow : a &&& 0xFFFFFFFF#64 = (a.setWidth 32).setWidth 64 := by
    refine BitVec.eq_of_toNat_eq ?_
    have hmod : a.toNat &&& 0xFFFFFFFF = a.toNat % 2 ^ 32 := Nat.and_two_pow_sub_one_eq_mod _ 32
    simp only [BitVec.toNat_and, BitVec.toNat_setWidth, BitVec.toNat_ofNat, Nat.reducePow, Nat.reduceMod, hmod]
    omega
  rw [hhigh, hlow]
  exact extend_eq_append _ _

/-- The literal of a lone bundle stands below a pending extension; without one the operand is that of an instruction that
takes no extension (R58, R153). -/
theorem literal_eq (s : State) {n : Nat} (h : Hdr) (imm : BitVec n) :
    s.literal h imm = match h.lit, s.me.kext with
      | some k, some e => e ++ k
      | _, _ => plainLiteral h imm := by
  unfold State.literal plainLiteral
  cases h.lit with
  | none => rfl
  | some k =>
    cases s.me.kext with
    | none => rfl
    | some e => exact extend_eq_append e k

/-- A C-slot instruction whose checks pass commits with its scalar result in flight. -/
theorem exec_of_constOp {i : Instr} {u : Uses} {rd : SReg} {v x : W64} {h : Hdr} {ext : ExtUse} {s : State}
    (hi : exec i s = .next (run (do
      gateC { u with sw := [rd], pw := SReg.dest rd 1 } s
      let s1 ← produceS s rd v 1
      return commitNext s1 h ext false)))
    (hs : s.Stands) (hb : InBudget s) (ho : SInOrder s rd 1) (hu : Usable { u with sw := [rd] } s) (hv : v = x) :
    exec i s = .next (commit (s.withScalar rd x 1) h ext false (s.me.pc + 8#64)) := by
  have hg := gateC_ok (hu.withPw (SReg.dest rd 1)) ho.dest hb
  rw [hi, ← hv]
  simp only [hg, produceS_ok hs ho, bind, Except.bind, pure, Except.pure, run, commitNext, hs.me_withScalar_pc]

/-- An instruction that names no register finds all of its registers usable. -/
theorem usable_none (s : State) : Usable Uses.none s := by
  constructor <;> simp [Uses.none]

theorem exec_cnop {h : Hdr} {s : State} (hg : gateC Uses.none s = .ok ()) :
    exec (.cnop h) s = .next (commitNext s h .drops (loneW h)) := by
  show Host.Outcome.next (run _) = _
  simp only [hg, bind, Except.bind, pure, Except.pure, run]

theorem exec_ext {h : Hdr} {s : State} (hg : gateC Uses.none s = .ok ()) :
    exec (.ext h) s = .next ((commitNext s h .replaces false).updMe fun t => { t with kext := h.lit }) := by
  show Host.Outcome.next (run _) = _
  simp only [hg, bind, Except.bind, pure, Except.pure, run]

end Sys2Proof.Machine

open Sys2Proof Sys2Proof.Machine

/-- Settles O8: each constant is the rule's word, and EXT's literal joins the thread that its commitment leaves. -/
theorem Sys2Proof.constantsAndExtension : Obligations.ConstantsAndExtension := by
  unfold Obligations.ConstantsAndExtension
  constructor
  · intro h rd ra imm s hs hb ho x y ext next
    have hy : s.literal h imm = y := literal_eq s h imm
    refine ⟨fun hu => exec_of_constOp rfl hs hb ho hu hy, fun hu => ⟨?_, ?_⟩⟩
    · exact exec_of_constOp (u := { Uses.none with sr := [ra] }) rfl hs hb ho hu (lihVal_eq_append x (s.regVal ra))
    · exact exec_of_constOp (u := { Uses.none with sr := [ra] }) rfl hs hb ho hu (congrArg (s.regVal ra + ·) hy)
  · intro h s hs hb
    have hg : gateC Uses.none s = .ok () := gateC_usable (usable_none s) hb
    refine ⟨rfl, exec_cnop hg, fun k hk => ⟨_, exec_ext hg, ?_⟩⟩
    have hc : (commitNext s h .replaces false).Stands := hs.after_commit ..
    rw [hc.me_updMe, commitNext, commit_me hs]
    exact ⟨by simp [commit_res], hk, rfl, rfl, by simp⟩

end


section
/-! SUPPORT. Full/empty accesses and tag operations (R173, R176). -/

namespace Sys2Proof.Machine

/-- Whether a full/empty operation answers with a value for its register. -/
def FeOp.loads (op : FeOp) : Bool := op == .ldf || op == .ldfe || op == .get

/-- The registers that a full/empty operation names. -/
def FeOp.uses (op : FeOp) (rd ra : SReg) : Uses :=
  { Uses.none with sr := if op.writes then [rd, ra] else [ra], sw := if op.loads then [rd] else [] }

/-- A request that holds its thread, once it has found its slots. -/
theorem sendHold_ok {s : State} {r : Req} (hp : s.portFree r.who.cid r.homes = true) (hn : r.n ≠ 0) (hs : s.Stands) :
    (run (sendHold s r)).cur.res = .held ∧ ∃ q ∈ (run (sendHold s r)).reqs, q.IsOf { r with holds := true } := by
  obtain ⟨t, ht, hth, hq, -⟩ := send_ok (s := s) (r := { r with holds := true }) hp hn
  have hrun : run (sendHold s r) = run (holdOn t r.tok) := by
    unfold sendHold
    simp only [ht, bind, Except.bind]
  obtain ⟨hcur, hreqs, -⟩ := run_holdOn (hth.stands hs) r.tok
  rw [hrun, hcur, hreqs]
  exact ⟨rfl, hq⟩

section

variable {h : Hdr} {op : FeOp} {rd ra : SReg} {va : State → W64} {ext : ExtUse} {w : Bool} {s : State}

/-- A full/empty operation whose answer has come commits, and a loading one writes the answer. -/
theorem feOp_done {v : W64} (hg : gateC (op.uses rd ra) s = .ok ()) (hv : s.me.hold = .done v) :
    run (feOp h op rd ra va ext w s) = if op.loads then (commitNext s h ext w).writeMine rd v else commitNext s h ext w := by
  have hg' : gateC { Uses.none with
      sr := if op.writes then [rd, ra] else [ra]
      sw := if op == .ldf || op == .ldfe || op == .get then [rd] else [] } s = .ok () := hg
  unfold feOp FeOp.loads
  simp only [hg', State.doneVal_of_done hv, bind, Except.bind, pure, Except.pure, run]

/-- The request of a full/empty operation. -/
def State.feReq (s : State) (op : FeOp) (v : W64) (x : Xl) (cid : Nat) (lvl limit : Option Nat) : Req :=
  { s.fresh.2.newReq s.ctr (.fe op v) x 8 3 with
    lvl := lvl, acq := op.acquires, rel := op.releases, wide := s.fresh.2.feWide cid x.pa, pod := decide (2 ^ 48 ≤ x.pa),
    homes := [s.fresh.2.homeOf x.pa], limit := limit }

/-- One whose address has translated sends its request and holds its thread, with the core's own dirty bytes of the word at their
home first. -/
theorem feOp_sends {s1 : State} {x : Xl} (hg : gateC (op.uses rd ra) s = .ok ()) (hd : s.me.hold = .none)
    (ha : s.acqBlocked = false) (hx : access s (va s) 8 8 op.need true = .ok (x, s1)) (ht : wTrav x.w1 = false)
    (hro : s1.roHit x.va = false) :
    ∃ s2, s1.Calm s2 ∧ feOp h op rd ra va ext w s =
      sendHold s2.fresh.2 (s2.feReq op (if op.writes then s.regVal rd else 0#64) x s.cur.cid (s1.myLevel x.va) s.waitLimit) := by
  have hg' : gateC { Uses.none with
      sr := if op.writes then [rd, ra] else [ra]
      sw := if op == .ldf || op == .ldfe || op == .get then [rd] else [] } s = .ok () := hg
  refine ⟨if s1.usesL1 x (s1.myLevel x.va) then (s1.l1Clean s.cur.cid fun l => l.line == x.pa / 32 && !l.spoilt).2 else s1, ?_, ?_⟩
  · split
    · exact s1.calm_l1Clean _ _
    · exact .refl _
  · unfold feOp
    simp only [hg', State.doneVal_of_none hd, memGate_ok ha, hx, travFirst_ok ht, roCheck_ok hro, ite_self, bind, Except.bind]
    rfl

theorem run_feOp_sends {s' : State} {x : Xl} (hs : s.Stands) (hg : gateC (op.uses rd ra) s = .ok ()) (hd : s.me.hold = .none)
    (ha : s.acqBlocked = false)
    (hx : s.xlate s.cur.cid (va s).toNat 8 8 op.need (!s.me.sys) (s.cur.slot == 16) true = .ok x s') (ht : wTrav x.w1 = false)
    (hro : s.roHit x.va = false) (hp : s.portFree s.cur.cid [s.homeOf x.pa] = true) :
    (run (feOp h op rd ra va ext w s)).cur.res = .held ∧ ∃ q ∈ (run (feOp h op rd ra va ext w s)).reqs,
      q.kind = .fe op (if op.writes then s.regVal rd else 0#64) ∧ q.pa = x.pa ∧ q.holds = true ∧ q.who = s.meWho := by
  obtain ⟨s1, hx1, hc, -⟩ := access_ok hx
  obtain ⟨s2, hc2, he⟩ := feOp_sends (h := h) (ext := ext) (w := w) hg hd ha hx1 ht ((hc.roHit _).trans hro)
  have hcalm : s.Calm s2.fresh.2 := (hc.trans hc2).trans s2.calm_fresh
  have hport : s2.fresh.2.portFree s2.cur.cid [s2.fresh.2.homeOf x.pa] = true := by
    rw [hcalm.portFree, hcalm.homeOf, (hc.trans hc2).cid]
    exact hp
  obtain ⟨hres, q, hq, f, via, st, e, rfl⟩ := sendHold_ok (s := s2.fresh.2)
    (r := s2.feReq op (if op.writes then s.regVal rd else 0#64) x s.cur.cid (s1.myLevel x.va) s.waitLimit) hport
    (Nat.succ_ne_zero 7) (hcalm.stands hs)
  rw [he]
  exact ⟨hres, _, hq, rfl, rfl, rfl, (hc.trans hc2).meWho⟩

end

/-- A value written to a register of the issuing thread sends nothing where the thread has no shareds (R36). -/
theorem State.Stands.writeMine_mem {s : State} (hs : s.Stands) (hsh : s.me.sh = 0) (r : SReg) (v : W64) :
    (s.writeMine r v).mem = s.mem := by
  cases r with
  | s n =>
    show (s.writeAt s.meWho n v s.now).mem = s.mem
    have hno : (decide (s.me.g ≤ n.toNat) && decide (n.toNat < s.me.g + s.me.sh) && !s.me.sent.getLsbD (n.toNat - s.me.g)) = false := by
      rw [hsh, Bool.and_eq_false_iff, Bool.and_eq_false_iff, decide_eq_false_iff_not, decide_eq_false_iff_not]
      omega
    unfold State.writeAt
    rw [hs.hasThread.whoThread]
    simp only [hno, Bool.false_eq_true, if_false]
    rfl
  | _ => rfl

/-- Settles O19: the request of a full/empty operation is sent and holds its thread; its answer lets the bundle commit, and a loading
form writes it. -/
theorem fullEmptyAccessesComplete : Obligations.FullEmptyAccessesComplete := by
  unfold Obligations.FullEmptyAccessesComplete
  intro h rd ra m s s' x hs hb ha issues ends loads a
  have hissues : ∀ i op va v ext w rd', exec i s = .next (run (feOp h op rd' ra va ext w s)) → gateC (op.uses rd' ra) s = .ok () →
      (if op.writes then s.regVal rd' else 0#64) = v → issues i op (va s) v := by
    intro i op va v ext w rd' hi hg hv hd hx ht hro hp
    obtain ⟨hres, q, hq, hkind, hpa, hholds, hwho⟩ := run_feOp_sends (h := h) (ext := ext) (w := w) hs hg hd ha hx ht hro hp
    exact ⟨_, q, hi, hres, hq, hv ▸ hkind, hpa, hholds, hwho⟩
  have hends : ∀ i op va ext w rd', exec i s = .next (run (feOp h op rd' ra va ext w s)) → gateC (op.uses rd' ra) s = .ok () →
      op.loads = false → ends i := by
    intro i op va ext w rd' hi hg hl v hv
    rw [feOp_done hg hv, hl] at hi
    exact ⟨_, hi, by simp [commitNext, commit_res], by simp [commitNext, commit_me hs, Thread.afterCommit], by simp [commitNext]⟩
  have hloads : ∀ i op va ext w, exec i s = .next (run (feOp h op rd ra va ext w s)) → gateC (op.uses rd ra) s = .ok () →
      op.loads = true → loads i := by
    intro i op va ext w hi hg hl v k hv hk
    rw [feOp_done hg hv, hl, if_pos rfl] at hi
    have hc : (commitNext s h ext w).Stands := hs.after_commit ..
    have hme : (commitNext s h ext w).me = s.me.afterCommit s.now (s.stallEnd h) s.cur.aFlags h ext w (s.me.pc + 8#64) :=
      commit_me hs ..
    obtain ⟨hw, hreg, -⟩ := hc.writeMine rd v
    refine ⟨_, hi, ?_, by rw [hreg k hk]; rfl, by rw [hreg k hk]; rfl, ?_, fun hsh => ?_⟩
    · rw [hw.res]
      simp [commitNext, commit_res]
    · rw [hw.me, hme]
      rfl
    · rw [hc.writeMine_mem (by rw [hme]; exact hsh)]
      simp [commitNext]
  refine ⟨fun hu => ?_, fun hu => ?_, fun hu => ?_⟩
  · have hg := gateC_usable hu hb
    exact ⟨hissues _ .ldf (feAddr h ra m) _ _ _ _ rfl hg rfl, hloads _ .ldf _ _ _ rfl hg rfl,
      hissues _ .ldfe (feAddr h ra m) _ _ _ _ rfl hg rfl, hloads _ .ldfe _ _ _ rfl hg rfl,
      hissues _ .get (fun s => s.regVal ra) _ _ _ _ rfl hg rfl, hloads _ .get _ _ _ rfl hg rfl⟩
  · have hg := gateC_usable hu hb
    exact ⟨hissues _ .stef (feAddr h ra m) _ _ _ _ rfl hg rfl, hends _ .stef _ _ _ _ rfl hg rfl,
      hissues _ .stf (feAddr h ra m) _ _ _ _ rfl hg rfl, hends _ .stf _ _ _ _ rfl hg rfl⟩
  · have hg := gateC_usable hu hb
    exact ⟨hissues _ .clr (fun s => s.regVal ra) _ _ _ .zr rfl hg rfl, hends _ .clr _ _ _ .zr rfl hg rfl,
      hissues _ .set (fun s => s.regVal ra) _ _ _ .zr rfl hg rfl, hends _ .set _ _ _ .zr rfl hg rfl⟩

end Sys2Proof.Machine
end



-- A held write in a state whose list of partitions is not in rising order.
section

namespace Sys2Proof.Machine

/-! A partition is kept by putting it in its place in a list in rising order.  In a list that is not, where partition 5 stands before
partition 3 and both name supergroup 0, the write that takes a held write off the queue of partition 3 puts a second entry of
partition 3 in front.  Partition 3 then governs the supergroup's cores, where partition 5 did, and its permitted ranges refuse the store
that partition 5's permit (R297): the store fails and the version never takes its bytes. -/

/-- A store of one byte, held for a version of revision 0 of partition 5. -/
def heldStore : Req :=
  { State.reset.newReq 50 (.store 1#64) { va := 64, pa := 64, w1 := 0#64, own := false, extra := 0 } 1 1 with
    part := 5, lvl := some 0, st := .waiting }

/-- Partition 5, which permits every address, ahead of partition 3, which permits one byte and whose oldest held write is the store. -/
def partsOutOfOrder : State :=
  { State.reset with
    parts := [{ Part.fresh 5 with valid := true, sgs := 1#20, revCap := 1 },
      { Part.fresh 3 with valid := true, sgs := 1#20, ranges := [(1, 1)], heldWrites := [50] }]
    reqs := [heldStore]
    evt := .revstoreHoldRelease 3 }

/-- The version of the stored byte's block reads as it did before the store. -/
def storeMissing (o : Out) : Bool :=
  match o with
  | .next t => t.bytesAt 5 (some 0) 64 64 1 == [0#8]
  | _ => false

theorem partsOutOfOrder_permits : partsOutOfOrder.homeCause 0 false true 64 1 1 = none := by decide +kernel

theorem revstoreHoldRelease_partsOutOfOrder : storeMissing (exec .revstoreHoldRelease partsOutOfOrder) = true := by decide +kernel

/-- Refutes O15: the store whose partition permits it, and for which the revision store has room, leaves the queue and is refused. -/
theorem not_fullEmptyOperationsAndWaiters : ¬ Obligations.FullEmptyOperationsAndWaiters := by
  unfold Obligations.FullEmptyOperationsAndWaiters
  rintro ⟨-, h⟩
  obtain ⟨-, -, -, -, hheld⟩ := h partsOutOfOrder
  obtain ⟨-, hstore⟩ := hheld 3 50 [] rfl (by decide +kernel) (by decide +kernel)
  obtain ⟨t, ht, -, -, hbytes⟩ := hstore heldStore 1#64 0 (by decide +kernel) rfl (by decide) rfl rfl rfl (by decide) (by decide)
    partsOutOfOrder_permits (by decide +kernel)
  have hmiss := revstoreHoldRelease_partsOutOfOrder
  rw [ht] at hmiss
  have hzero : t.bytesAt 5 (some 0) 64 64 1 = [0#8] := by simpa [storeMissing] using hmiss
  exact absurd (hzero.symm.trans hbytes) (by decide)

end Sys2Proof.Machine

end



-- A request comes to its home, and nothing holds it back.
section
/-! SUPPORT. What a request finds that nothing keeps from being performed (R171, R180, R184, R354, R392). -/

namespace Sys2Proof.Machine

/-! Lines that a release without dirty lines leaves. -/

/-- Line m is line l, whose mark of an uncorrectable error may be gone where nothing in it is dirty. -/
def L1Line.Same (l m : L1Line) : Prop := m = { l with bad := m.bad } ∧ (l.dirty ≠ 0#32 → m = l)

namespace L1Line.Same

variable {l m n : L1Line}

theorem refl (l : L1Line) : l.Same l := ⟨rfl, fun _ => rfl⟩

theorem dirty (h : l.Same m) : m.dirty = l.dirty := by rw [h.1]

theorem trans (h : l.Same m) (k : m.Same n) : l.Same n := by
  refine ⟨by rw [k.1, h.1], fun hd => ?_⟩
  rw [k.2 (by rwa [h.dirty]), h.2 hd]

theorem line (h : l.Same m) : m.line = l.line := by rw [h.1]

theorem valid (h : l.Same m) : m.valid = l.valid := by rw [h.1]

theorem way (h : l.Same m) : m.way = l.way := by rw [h.1]

theorem age (h : l.Same m) : m.age = l.age := by rw [h.1]

theorem lineByte (h : l.Same m) (k : Nat) : Machine.lineByte m k = Machine.lineByte l k := by
  unfold Machine.lineByte
  rw [h.1]

theorem spoilt (h : l.Same m) : m.spoilt = l.spoilt := by
  by_cases hd : l.dirty = 0#32
  · unfold L1Line.spoilt
    rw [h.dirty, hd]
    simp
  · rw [h.2 hd]

theorem meets (h : l.Same m) (pa n : Nat) : m.meets pa n = l.meets pa n := by
  unfold L1Line.meets
  rw [h.line]

end L1Line.Same

theorem oldestL1_map {φ : L1Line → L1Line} (hφ : ∀ l, (φ l).age = l.age) (ls : List L1Line) :
    oldestL1 (ls.map φ) = (oldestL1 ls).map φ := by
  induction ls with
  | nil => rfl
  | cons l ls ih =>
    simp only [List.map_cons, oldestL1, ih]
    cases oldestL1 ls with
    | none => rfl
    | some m =>
      simp only [Option.map_some, hφ]
      split <;> rfl

/-! What the request finds. -/

/-- A request finds in t what it would in s: of the cores only the counts of messages, and the error marks of clean lines of L1, may
differ, and the requests stand aside. -/
structure State.Finds (s t : State) : Prop where
  now : t.now = s.now
  mem : t.mem = s.mem
  tags : t.tags = s.tags
  bad : t.bad = s.bad
  l2 : t.l2 = s.l2
  fams : t.fams = s.fams
  parts : t.parts = s.parts
  dev : t.dev = s.dev
  cur : t.cur = s.cur
  core : ∀ c, t.core c = { s.core c with
    l1 := (t.core c).l1, sentCnt := (t.core c).sentCnt, recvCnt := (t.core c).recvCnt }
  l1 : ∀ c, ∃ φ : L1Line → L1Line, (∀ l : L1Line, l.Same (φ l)) ∧ (t.core c).l1 = (s.core c).l1.map φ

namespace State.Finds

variable {s t u : State}

theorem of_cores (hc : t.cores = s.cores) (now : t.now = s.now) (mem : t.mem = s.mem) (tags : t.tags = s.tags)
    (bad : t.bad = s.bad) (l2 : t.l2 = s.l2) (fams : t.fams = s.fams) (parts : t.parts = s.parts) (dev : t.dev = s.dev)
    (cur : t.cur = s.cur) : s.Finds t :=
  ⟨now, mem, tags, bad, l2, fams, parts, dev, cur, fun c => by rw [State.core_congr hc],
    fun c => ⟨id, L1Line.Same.refl, by rw [State.core_congr hc, List.map_id]⟩⟩

theorem refl (s : State) : s.Finds s := of_cores rfl rfl rfl rfl rfl rfl rfl rfl rfl rfl

theorem updReq (s : State) (tok : Nat) (f : Req → Req) : s.Finds (s.updReq tok f) := of_cores rfl rfl rfl rfl rfl rfl rfl rfl rfl rfl

theorem trans (h : s.Finds t) (k : t.Finds u) : s.Finds u where
  now := k.now.trans h.now
  mem := k.mem.trans h.mem
  tags := k.tags.trans h.tags
  bad := k.bad.trans h.bad
  l2 := k.l2.trans h.l2
  fams := k.fams.trans h.fams
  parts := k.parts.trans h.parts
  dev := k.dev.trans h.dev
  cur := k.cur.trans h.cur
  core c := by rw [k.core c, h.core c]
  l1 c := by
    obtain ⟨φ, hφ, ht⟩ := h.l1 c
    obtain ⟨ψ, hψ, hu⟩ := k.l1 c
    exact ⟨ψ ∘ φ, fun l => (hφ l).trans (hψ _), by rw [hu, ht, List.map_map]⟩

theorem updCore {f : Core → Core} {k : Nat}
    (hf : ∀ c, f c = { c with l1 := (f c).l1, sentCnt := (f c).sentCnt, recvCnt := (f c).recvCnt })
    (hl : ∃ φ : L1Line → L1Line, (∀ l : L1Line, l.Same (φ l)) ∧ (f (s.core k)).l1 = (s.core k).l1.map φ) :
    s.Finds (s.updCore k f) := by
  refine ⟨rfl, rfl, rfl, rfl, rfl, rfl, rfl, rfl, rfl, fun c => ?_, fun c => ?_⟩
  · by_cases hc : c = k
    · subst hc
      rw [State.core_updCore_self, hf (s.core c)]
      have hcid := State.core_cid s c
      generalize s.core c = x at hcid
      subst hcid
      rfl
    · rw [State.core_updCore_ne _ _ _ _ hc]
  · by_cases hc : c = k
    · subst hc
      rw [State.core_updCore_self]
      exact hl
    · rw [State.core_updCore_ne _ _ _ _ hc]
      exact ⟨id, L1Line.Same.refl, by simp⟩

theorem sentMsgs (s : State) (c n : Nat) : s.Finds (s.sentMsgs c n) := by
  unfold State.sentMsgs
  split
  · exact refl s
  · exact updCore (fun _ => rfl) ⟨id, L1Line.Same.refl, by simp⟩

theorem gotMsgs (s : State) (c n : Nat) : s.Finds (s.gotMsgs c n) := by
  unfold State.gotMsgs
  split
  · exact refl s
  · exact updCore (fun _ => rfl) ⟨id, L1Line.Same.refl, by simp⟩

/-- The messages of the bank that a request comes to, and the requests on their way. -/
theorem bankMsgs (s : State) (r : Req) : s.Finds (s.bankMsgs r) ∧ (s.bankMsgs r).reqs = s.reqs := by
  unfold State.bankMsgs
  split
  · split
    · exact ⟨refl s, rfl⟩
    · exact ⟨(gotMsgs s _ _).trans (sentMsgs _ _ _), by simp⟩
  · exact ⟨refl s, rfl⟩

theorem partMsgs (s : State) (r : Req) : s.Finds (s.partMsgs r) ∧ (s.partMsgs r).reqs = s.reqs := by
  unfold State.partMsgs
  split
  · exact bankMsgs s r
  · refine List.foldlRecOn _ _ (motive := fun u => s.Finds u ∧ u.reqs = s.reqs) ⟨refl s, rfl⟩ fun u hu h _ => ?_
    obtain ⟨hf, hr⟩ := hu
    split
    · obtain ⟨hf', hr'⟩ := bankMsgs u { r with pa := _, own := _ }
      exact ⟨hf.trans hf', hr'.trans hr⟩
    · exact ⟨hf, hr⟩

/-- Cleaning lines of which none is dirty. -/
theorem l1Clean {s : State} {cid : Nat} (h : ((s.core cid).l1.any fun l => l.dirty != 0#32) = false) :
    s.Finds (s.l1Clean cid fun _ => true).2 := by
  have hnone : ((s.core cid).l1.filter fun l => true && l.dirty != 0#32) = [] := by
    simpa [List.filter_eq_nil_iff] using h
  have hclean : ∀ l ∈ (s.core cid).l1, l.dirty = 0#32 := by simpa using h
  unfold State.l1Clean
  rw [hnone]
  dsimp only [List.foldl_nil]
  refine updCore (fun _ => rfl) ⟨fun l => if l.dirty = 0#32 then { l with bad := false } else l, fun l => ?_, ?_⟩
  · dsimp only
    split
    · exact ⟨rfl, fun hd => absurd ‹_› hd⟩
    · exact .refl l
  · have hkeep : ((s.core cid).l1.filter fun l => !(true && l.spoilt)) = (s.core cid).l1 := by
      refine List.filter_eq_self.2 fun l hl => ?_
      simp [L1Line.spoilt, hclean l hl]
    show ((s.core cid).l1.filter fun l => !(true && l.spoilt)).map _ = _
    rw [hkeep]
    refine List.map_congr_left fun l hl => ?_
    simp [hclean l hl]

/-! What of the state a request goes by. -/

theorem loc (h : s.Finds t) (pa : Nat) : t.loc pa = s.loc pa := by
  unfold State.loc
  rw [h.dev]

theorem homeOf (h : s.Finds t) (pa : Nat) : t.homeOf pa = s.homeOf pa := by
  unfold State.homeOf State.sliceOf
  rw [h.loc, h.dev]

theorem part (h : s.Finds t) (n : Nat) : t.part n = s.part n := by
  unfold State.part
  rw [h.parts]

theorem partOf (h : s.Finds t) (cid : Nat) : t.partOf cid = s.partOf cid := by
  unfold State.partOf
  rw [h.parts]

theorem ways (h : s.Finds t) (c : Nat) : (t.core c).ways = (s.core c).ways := by
  rw [h.core c]
  rfl

theorem bank (h : s.Finds t) (c b : Nat) : (t.core c).bank b = (s.core c).bank b := by
  rw [h.core c]
  rfl

theorem waking (h : s.Finds t) (pa : Nat) : t.waking pa = s.waking pa := by
  have hw (c : Nat) : (t.core c).waking = (s.core c).waking := by rw [h.core c]
  unfold State.waking
  simp only [h.loc, hw]

theorem awayAt (h : s.Finds t) (pa : Nat) : t.awayAt pa = s.awayAt pa := by
  unfold State.awayAt
  simp only [h.loc, h.partOf, h.parts]

theorem l2Hit (h : s.Finds t) (pa n : Nat) : t.l2Hit pa n = s.l2Hit pa n := by
  unfold State.l2Hit State.l2Line
  rw [h.dev, h.l2]

theorem any_l1 (h : s.Finds t) (c : Nat) {p : L1Line → Bool} (hp : ∀ l m, l.Same m → p m = p l) :
    (t.core c).l1.any p = (s.core c).l1.any p := by
  obtain ⟨φ, hφ, hl⟩ := h.l1 c
  rw [hl, List.any_map]
  exact congrArg (List.any _) (funext fun l => hp l _ (hφ l))

theorem l1Line (h : s.Finds t) (c pa : Nat) :
    ∃ φ : L1Line → L1Line, (∀ l : L1Line, l.Same (φ l)) ∧ (t.core c).l1Line pa = ((s.core c).l1Line pa).map φ := by
  obtain ⟨φ, hφ, hl⟩ := h.l1 c
  refine ⟨φ, hφ, ?_⟩
  unfold Core.l1Line
  rw [hl, List.find?_map]
  simp only [Function.comp_def, (hφ _).line]

theorem l1Hit (h : s.Finds t) (c pa n : Nat) : (t.core c).l1Hit pa n = (s.core c).l1Hit pa n := by
  obtain ⟨φ, hφ, hl⟩ := h.l1Line c pa
  unfold Core.l1Hit
  rw [hl]
  cases (s.core c).l1Line pa with
  | none => rfl
  | some l => simp [(hφ l).valid]

theorem l1Holds (h : s.Finds t) (c pa n : Nat) : (t.core c).l1Holds pa n = (s.core c).l1Holds pa n := by
  unfold Core.l1Holds
  simp only [h.l1Hit]

theorem uncorr (h : s.Finds t) (cid pa n acc : Nat) : t.uncorr cid pa n acc = s.uncorr cid pa n acc := by
  unfold State.uncorr State.spoilt
  rw [h.any_l1 cid fun l m hm => by rw [hm.meets, hm.spoilt], h.bad, h.loc, h.l2Hit, h.l1Holds]

theorem refusal (h : s.Finds t) (cid : Nat) (own scalar : Bool) (pa n acc : Nat) :
    t.refusal cid own scalar pa n acc = s.refusal cid own scalar pa n acc := by
  have hn : t.partNum cid = s.partNum cid := by
    unfold State.partNum
    rw [h.partOf]
  unfold State.refusal State.refusalOf State.routeCause State.dieLost
  simp only [hn, h.part, h.loc, h.dev, h.bank]

theorem homeCause (h : s.Finds t) (cid : Nat) (own scalar : Bool) (pa n acc : Nat) :
    t.homeCause cid own scalar pa n acc = s.homeCause cid own scalar pa n acc := by
  unfold State.homeCause
  rw [h.refusal, h.uncorr]

theorem victim (h : s.Finds t) (c pa : Nat) :
    ∃ φ : L1Line → L1Line, (∀ l : L1Line, l.Same (φ l)) ∧ (t.core c).victim pa = ((s.core c).victim pa).map φ := by
  obtain ⟨φ, hφ, hl⟩ := h.l1 c
  have hpeers : ((t.core c).l1.filter fun l => l.line % 1024 == pa / 32 % 1024) =
      ((s.core c).l1.filter fun l => l.line % 1024 == pa / 32 % 1024).map φ := by
    rw [hl, List.filter_map]
    simp only [Function.comp_def, (hφ _).line]
  have hline : ((t.core c).l1Line pa).isSome = ((s.core c).l1Line pa).isSome := by
    obtain ⟨ψ, -, hψ⟩ := h.l1Line c pa
    rw [hψ, Option.isSome_map]
  refine ⟨φ, hφ, ?_⟩
  unfold Core.victim
  simp only [hpeers, hline, h.ways, List.any_map, Function.comp_def, (hφ _).way]
  split
  · rfl
  · exact oldestL1_map (fun l => (hφ l).age) _

theorem evictsSpoilt (h : s.Finds t) (cid pa n : Nat) : t.evictsSpoilt cid pa n = s.evictsSpoilt cid pa n := by
  unfold State.evictsSpoilt
  rw [h.ways]
  congr 2
  funext b
  obtain ⟨φ, hφ, hv⟩ := h.victim cid b
  rw [hv]
  cases (s.core cid).victim b with
  | none => rfl
  | some l => exact (hφ l).spoilt

end State.Finds

/-! Requests under way. -/

/-- Whether some request under way that is older than token tok has a property does not go by request tok itself. -/
theorem State.any_older_updReq (s : State) {q : Req} {tok : Nat} (hq : q.tok = tok) (p : Req → Bool) :
    ((s.updReq tok fun _ => q).reqs.any fun x => decide (x.tok < tok) && p x) = s.reqs.any fun x => decide (x.tok < tok) && p x := by
  show ((s.reqs.map fun x => if x.tok == tok then q else x).any _) = _
  rw [List.any_map]
  refine congrArg (List.any _) (funext fun x => ?_)
  by_cases hx : x.tok = tok <;> simp [hx, hq]

/-- A request with the free slots that it has found. -/
def Req.WithSlots (r q : Req) : Prop := ∃ hs : List Nat, q = { r with parts := r.parts ++ hs.map fun h => (h, none) }

theorem State.takeSlots_withSlots (s : State) (r : Req) : r.WithSlots (s.takeSlots r) := ⟨_, rfl⟩

theorem Req.WithSlots.ahead {r q : Req} (h : r.WithSlots q) : q.ahead = r.ahead := by
  obtain ⟨hs, rfl⟩ := h
  unfold Req.ahead
  refine List.filter_congr fun k _ => ?_
  simp only [List.any_append, List.any_map, Function.comp_def, Option.isSome_none, Bool.and_false]
  simp

theorem Req.WithSlots.sameHome {r q : Req} (h : r.WithSlots q) (x : Req) : x.sameHome q = x.sameHome r := by
  have ha := h.ahead
  obtain ⟨hs, rfl⟩ := h
  unfold Req.sameHome
  rw [ha]

/-- What keeps a request from being performed is older than it, and does not go by the slots that it has found. -/
theorem State.blocks_updReq {s : State} {r q : Req} (h : r.WithSlots q) : (s.updReq r.tok fun _ => q).blocks q = s.blocks r := by
  have hsame := h.sameHome
  obtain ⟨hs, rfl⟩ := h
  have hold := State.any_older_updReq s (q := { r with parts := r.parts ++ hs.map fun h => (h, none) }) (tok := r.tok) rfl
  unfold State.blocks State.unacknowledged
  simp only [Bool.and_assoc, hsame, hold]
  rfl

theorem State.fenceWaits_updReq {s : State} {r q : Req} (h : r.WithSlots q) :
    (s.updReq r.tok fun _ => q).fenceWaits q = s.fenceWaits r := by
  obtain ⟨hs, rfl⟩ := h
  have hold := State.any_older_updReq s (q := { r with parts := r.parts ++ hs.map fun h => (h, none) }) (tok := r.tok) rfl
  unfold State.fenceWaits
  simp only [Bool.and_assoc, hold]
  rfl

theorem State.req_updReq_self {s : State} {tok : Nat} {r q : Req} (h : s.req tok = some r) (hq : q.tok = tok) :
    (s.updReq tok fun _ => q).req tok = some q := by
  have hr : r.tok = tok := by simpa using List.find?_some h
  unfold State.req at h ⊢
  show ((s.reqs.map fun x => if x.tok == tok then q else x).find? fun x => x.tok == tok) = _
  have hp : ((fun x : Req => x.tok == tok) ∘ fun x => if x.tok == tok then q else x) = fun x => x.tok == tok := by
    funext x
    by_cases hx : x.tok = tok <;> simp [hx, hq]
  rw [List.find?_map, hp, h]
  simp [hr]

/-! The last cleaning of a release. -/

/-- A release that finds nothing dirty is performed at once. -/
theorem State.lastClean_eq {s : State} {r : Req}
    (h : (r.rel && r.wide && (s.core r.who.cid).l1.any fun l => l.dirty != 0#32) = false) :
    ∃ t, s.Finds t ∧ t.reqs = s.reqs ∧ ∀ go, s.lastClean r go = go t := by
  by_cases hs : r.swept = true
  · exact ⟨s, .refl s, rfl, fun go => by unfold State.lastClean; rw [if_pos hs]⟩
  · by_cases hrw : (r.rel && r.wide) = true
    · have hclean : ((s.core r.who.cid).l1.any fun l => l.dirty != 0#32) = false := by simpa [hrw] using h
      have hlen : (s.l1Clean r.who.cid fun _ => true).1 = 0 := by
        unfold State.l1Clean
        simpa [List.filter_eq_nil_iff] using hclean
      have hsp : s.spoiltLine r.who.cid (fun _ => true) = none := by
        have hc : ∀ l ∈ (s.core r.who.cid).l1, l.dirty = 0#32 := by simpa using hclean
        unfold State.spoiltLine
        rw [Option.map_eq_none_iff, List.find?_eq_none]
        intro l hl
        simp [L1Line.spoilt, hc l hl]
      refine ⟨(s.l1Clean r.who.cid fun _ => true).2, .l1Clean hclean, (s.calm_l1Clean _ _).reqs, fun go => ?_⟩
      unfold State.lastClean State.cleansFor
      rw [if_neg hs, if_pos hrw]
      simp only [hlen, hsp]
    · refine ⟨s, .refl s, rfl, fun go => ?_⟩
      unfold State.lastClean State.cleansFor
      rw [if_neg hs, if_neg hrw]
      rfl

/-- A request that nothing holds back is performed, with the free slots that it has found. -/
theorem exec_homeRequest {s : State} {tok : Nat} {r : Req} (he : s.evt = .homeRequest tok) (hr : s.req tok = some r)
    (hk : s.keptFor r = none) (hu : s.Unhindered r) :
    ∃ t, exec .homeRequest s = .next (t.perform (s.takeSlots r)) ∧ s.Finds t ∧ t.req tok = some (s.takeSlots r) := by
  obtain ⟨hst, hblocks, hfence, -, hwake, -, hrel⟩ := hu
  have htok : r.tok = tok := by simpa using List.find?_some hr
  subst htok
  have hw := s.takeSlots_withSlots r
  obtain ⟨t, hft, hreqs, hlast⟩ := State.lastClean_eq (s := s.updReq r.tok fun _ => s.takeSlots r) (r := s.takeSlots r) hrel
  refine ⟨t.partMsgs (s.takeSlots r), ?_, ((State.Finds.updReq s _ _).trans hft).trans (State.Finds.partMsgs t _).1, ?_⟩
  · have hbank : (s.updReq r.tok fun _ => s.takeSlots r).bankWakes (s.takeSlots r) = false := by
      unfold State.bankWakes
      rw [Bool.and_eq_false_iff]
      exact .inr hwake
    show execHomeRequest s = _
    unfold execHomeRequest
    rw [he]
    simp only [hr, hk, hst, bne_self_eq_false, Bool.false_eq_true, if_false, State.blocks_updReq hw, State.fenceWaits_updReq hw, hblocks,
      hfence, hbank, Bool.or_self, hlast]
  · rw [State.req_congr (State.Finds.partMsgs t _).2, State.req_congr hreqs]
    exact State.req_updReq_self hr rfl

/-- A request that is no vector access takes no slots at its home: it has them since it issued. -/
theorem State.takeSlots_of_units_nil {s : State} {r : Req} (h : r.units = []) : s.takeSlots r = r := by
  have hslot : s.slotless r = [] := by
    unfold State.slotless
    rw [h]
    split <;> rfl
  unfold State.takeSlots State.freeHomes
  rw [hslot]
  simp

end Sys2Proof.Machine

end



-- Bytes of L1 lines, and the lines that go home.
section
/-! SUPPORT. What the operations on L1 leave in its lines and in memory (R302). -/

namespace Sys2Proof.Machine

/-! The bytes of a line. -/

theorem lineByte_setLineByte {l : L1Line} {k j : Nat} (b : Byte) (d : Bool) (hk : k < 32) (hj : j < 32) :
    lineByte (setLineByte l k b d) j = if j = k then b else lineByte l j := by
  have hff (n : Nat) : (0xFF#256).getLsbD n = decide (n < 8) := by
    rw [show (0xFF#256) = (BitVec.allOnes 8).setWidth 256 by decide]
    simp only [BitVec.getLsbD_setWidth, BitVec.getLsbD_allOnes]
    by_cases h : n < 8
    · simp [h, show n < 256 by omega]
    · simp [h]
  unfold lineByte setLineByte
  ext i hi
  have hlt : 8 * j + i < 256 := by omega
  rw [BitVec.getElem_extractLsb', BitVec.getLsbD_or, BitVec.getLsbD_and, BitVec.getLsbD_not, BitVec.getLsbD_shiftLeft,
    BitVec.getLsbD_shiftLeft, hff, BitVec.zeroExtend_eq_setWidth, BitVec.getLsbD_setWidth]
  by_cases hjk : j = k
  · subst hjk
    rw [if_pos rfl]
    have e : 8 * j + i - 8 * j = i := by omega
    simp [e, hi, hlt, BitVec.getLsbD_eq_getElem]
    omega
  · rw [if_neg hjk, BitVec.getElem_extractLsb']
    by_cases hlo : 8 * j + i < 8 * k
    · simp [hlo, hlt]
    · have e : ¬ 8 * j + i - 8 * k < 8 := by omega
      have hb : b.getLsbD (8 * j + i - 8 * k) = false := BitVec.getLsbD_of_ge _ _ (by omega)
      simp [hlt, e, hb]

theorem lineWrite_line (l : L1Line) (k : Nat) (d : Bool) (bs : List Byte) : (lineWrite l k d bs).line = l.line := by
  induction bs generalizing l k with
  | nil => rfl
  | cons b bs ih => exact ih _ _

/-- Bytes written into a line stand there, and the others stay. -/
theorem lineByte_lineWrite {l : L1Line} {k : Nat} (d : Bool) {bs : List Byte} (hk : k + bs.length ≤ 32) {j : Nat} (hj : j < 32) :
    lineByte (lineWrite l k d bs) j = if k ≤ j ∧ j < k + bs.length then bs.getD (j - k) 0#8 else lineByte l j := by
  induction bs generalizing l k with
  | nil =>
    rw [if_neg (by simp only [List.length_nil]; omega)]
    rfl
  | cons b bs ih =>
    rw [List.length_cons] at hk
    show lineByte (lineWrite (setLineByte l k b d) (k + 1) d bs) j = _
    rw [ih (by omega), lineByte_setLineByte b d (by omega) hj, List.length_cons]
    by_cases hjk : j = k
    · subst hjk
      rw [if_neg (by omega), if_pos rfl, if_pos (by omega)]
      simp
    · by_cases hin : k + 1 ≤ j ∧ j < k + 1 + bs.length
      · rw [if_pos hin, if_pos (by omega)]
        obtain ⟨i, rfl⟩ : ∃ i, j = k + 1 + i := ⟨j - (k + 1), by omega⟩
        simp [show k + 1 + i - k = i + 1 by omega]
      · rw [if_neg hin, if_neg hjk, if_neg (by omega)]

/-- A line of which each byte that is not valid is filled from the home. -/
def L1Line.filled (l : L1Line) (home : Nat → Byte) (n : Nat) : L1Line :=
  (List.range n).foldl (fun l k => if l.valid.getLsbD k then l else setLineByte l k (home k) false) l

theorem L1Line.filled_succ (l : L1Line) (home : Nat → Byte) (n : Nat) :
    l.filled home (n + 1) =
      if (l.filled home n).valid.getLsbD n then l.filled home n else setLineByte (l.filled home n) n (home n) false := by
  unfold L1Line.filled
  rw [List.range_succ, List.foldl_append]
  rfl

/-- Of the first n bytes those that were not valid are the home's; the others, and which of them are valid, stay. -/
theorem L1Line.filled_leaves {l : L1Line} (home : Nat → Byte) {n : Nat} (hn : n ≤ 32) :
    (l.filled home n).line = l.line ∧ (∀ j, n ≤ j → j < 32 → (l.filled home n).valid.getLsbD j = l.valid.getLsbD j) ∧
      ∀ j < 32, lineByte (l.filled home n) j = if j < n ∧ l.valid.getLsbD j = false then home j else lineByte l j := by
  induction n with
  | zero => exact ⟨rfl, fun _ _ _ => rfl, fun j _ => by rw [if_neg (by omega)]; rfl⟩
  | succ n ih =>
    obtain ⟨hline, hvalid, hbyte⟩ := ih (by omega)
    have hvn : (l.filled home n).valid.getLsbD n = l.valid.getLsbD n := hvalid n (Nat.le_refl n) (by omega)
    rw [L1Line.filled_succ, hvn]
    cases hv : l.valid.getLsbD n with
    | true =>
      refine ⟨hline, fun j hj hj' => hvalid j (by omega) hj', fun j hj => ?_⟩
      rw [if_pos rfl, hbyte j hj]
      by_cases hjn : j = n
      · subst hjn
        simp [hv]
      · simp only [show j < n + 1 ↔ j < n by omega]
    | false =>
      refine ⟨hline, fun j hj hj' => ?_, fun j hj => ?_⟩
      · show ((l.filled home n).valid ||| 1#32 <<< n).getLsbD j = _
        rw [BitVec.getLsbD_or, hvalid j (by omega) hj', BitVec.getLsbD_shiftLeft, BitVec.getLsbD_one]
        simp
        omega
      · rw [if_neg (by simp), lineByte_setLineByte _ _ (by omega) hj, hbyte j hj]
        by_cases hjn : j = n
        · subst hjn
          simp [hv]
        · simp only [if_neg hjn, show j < n + 1 ↔ j < n by omega]

/-! Bytes that go home one by one. -/

/-- Those of n bytes at b that p marks go to memory with the values of f. -/
def State.putMarked (s : State) (b n : Nat) (p : Nat → Bool) (f : Nat → Byte) : State :=
  (List.range n).foldl (fun s k => if p k then (s.l2Wrote (b + k) 0 1).putBytes 0 none 0 (b + k) [f k] else s) s

theorem State.l2Wrote_cores (s : State) (pa cache n : Nat) : (s.l2Wrote pa cache n).cores = s.cores := by
  unfold State.l2Wrote State.l2Alloc
  dsimp only [State.fresh]
  repeat' split
  all_goals rfl

theorem foldl_cores {α : Type} {f : State → α → State} (hf : ∀ s x, (f s x).cores = s.cores) (l : List α) (s : State) :
    (l.foldl f s).cores = s.cores := by
  induction l generalizing s with
  | nil => rfl
  | cons x l ih => exact (ih _).trans (hf s x)

theorem State.putBytesGo_cores (s : State) (part : Nat) (lvl : Option Nat) (va pa : Nat) (bs : List Byte) :
    (s.putBytesGo part lvl va pa bs).cores = s.cores := by
  induction bs generalizing s va pa with
  | nil => rfl
  | cons b bs ih =>
    refine (ih _ _ _).trans ?_
    unfold State.putByte
    split <;> rfl

theorem State.putBytesAt_cores (s : State) (part : Nat) (lvl : Option Nat) (va pa at_ : Nat) (bs : List Byte) :
    (s.putBytesAt part lvl va pa at_ bs).cores = s.cores := by
  have hp : ∀ (u : State) n, (u.pendReport lvl pa n).cores = u.cores := fun u n => by
    unfold State.pendReport
    split
    · rfl
    · exact foldl_cores (fun s p => by split <;> rfl) _ _
  have ht : ∀ (u : State) n, (u.tailReport lvl pa n).cores = u.cores := fun u n => by
    unfold State.tailReport
    split
    · rfl
    · exact foldl_cores (fun s p => by rfl) _ _
  have hw : ∀ (u : State) n, (u.wakeWaiters pa n at_).cores = u.cores := fun u n => by
    unfold State.wakeWaiters
    exact foldl_cores (fun s p => by dsimp only; split <;> rfl) _ _
  unfold State.putBytesAt
  rw [hp, ht, hw, State.putBytesGo_cores]

theorem State.putBytes_cores (s : State) (part : Nat) (lvl : Option Nat) (va pa : Nat) (bs : List Byte) :
    (s.putBytes part lvl va pa bs).cores = s.cores := s.putBytesAt_cores part lvl va pa s.now bs

theorem State.putMarked_cores (s : State) (b n : Nat) (p : Nat → Bool) (f : Nat → Byte) : (s.putMarked b n p f).cores = s.cores := by
  refine foldl_cores (fun s k => ?_) _ s
  split
  · rw [State.putBytes_cores, State.l2Wrote_cores]
  · rfl

theorem State.calm_putMarked (s : State) (b n : Nat) (p : Nat → Bool) (f : Nat → Byte) : s.Calm (s.putMarked b n p f) := by
  refine .foldl (fun s k => ?_) _ s
  split
  · exact (s.calm_l2Wrote _ _ _).trans (State.calm_putBytes _ _ _ _ _)
  · exact .refl s

theorem State.Sound.putMarked {s : State} (h : s.Sound) (b n : Nat) (p : Nat → Bool) (f : Nat → Byte) :
    (s.putMarked b n p f).Sound := by
  refine foldl_sound _ (fun s k hs => ?_) _ h
  split
  · exact (hs.congr (State.l2Wrote_mem s _ _ _)).putBytes _ _ _ _ _
  · exact hs

theorem State.get_putMarked {s : State} (h : s.Sound) (b n : Nat) (p : Nat → Bool) (f : Nat → Byte) (a : Nat) :
    Memory.get (s.putMarked b n p f).mem a = if b ≤ a ∧ a < b + n ∧ p (a - b) = true then f (a - b) else Memory.get s.mem a := by
  induction n with
  | zero =>
    rw [if_neg (by omega)]
    rfl
  | succ n ih =>
    have hstep : s.putMarked b (n + 1) p f =
        if p n then ((s.putMarked b n p f).l2Wrote (b + n) 0 1).putBytes 0 none 0 (b + n) [f n] else s.putMarked b n p f := by
      unfold State.putMarked
      rw [List.range_succ, List.foldl_append]
      rfl
    rw [hstep]
    by_cases ha : a = b + n
    · subst ha
      have e : b + n - b = n := by omega
      rw [e]
      cases hp : p n with
      | true =>
        have hput : Memory.wf (s.putMarked b n p f).mem = true := h.putMarked b n p f
        rw [if_pos rfl, State.putBytes_none_mem, State.l2Wrote_mem, if_pos ⟨by omega, by omega, rfl⟩]
        simpa using Memory.get_putAll hput (b + n) [f n] (b + n)
      | false =>
        rw [if_neg (by simp), ih, if_neg (by omega), if_neg (by simp)]
    · have hsame : Memory.get (if p n then ((s.putMarked b n p f).l2Wrote (b + n) 0 1).putBytes 0 none 0 (b + n) [f n]
          else s.putMarked b n p f).mem a = Memory.get (s.putMarked b n p f).mem a := by
        split
        · rw [State.putBytes_none_mem, State.l2Wrote_mem, Memory.get_putAll (h.putMarked b n p f), if_neg (by simp; omega)]
        · rfl
      rw [hsame, ih]
      simp only [show a < b + (n + 1) ↔ a < b + n by omega]

/-! A line that is cleaned. -/

theorem State.cleanLine_eq (s : State) (l : L1Line) :
    s.cleanLine l = if l.bad then s else s.putMarked (l.line * 32) 32 l.dirty.getLsbD (lineByte l) := rfl

theorem State.cleanLine_cores (s : State) (l : L1Line) : (s.cleanLine l).cores = s.cores := by
  rw [State.cleanLine_eq]
  split
  · rfl
  · exact s.putMarked_cores _ _ _ _

/-- The dirty bytes of a line without an uncorrectable error are at their home, and no other byte has changed. -/
theorem State.get_cleanLine {s : State} (h : s.Sound) (l : L1Line) (a : Nat) :
    Memory.get (s.cleanLine l).mem a =
      if l.bad = false ∧ a / 32 = l.line ∧ l.dirty.getLsbD (a % 32) = true then lineByte l (a % 32) else Memory.get s.mem a := by
  rw [State.cleanLine_eq]
  cases l.bad with
  | true => simp
  | false =>
    rw [if_neg (by simp), State.get_putMarked h]
    by_cases hin : a / 32 = l.line
    · have e : a - l.line * 32 = a % 32 := by omega
      have h1 : l.line * 32 ≤ a := by omega
      have h2 : a < l.line * 32 + 32 := by omega
      simp [e, h1, h2, hin]
    · rw [if_neg (by omega), if_neg (by simp [hin])]

/-! A line that is allocated, used, stored to or filled. -/

theorem find_map_of_line {ls : List L1Line} {k : Nat} {g : L1Line → L1Line} (hg : ∀ l, (g l).line = l.line) :
    (ls.map g).find? (fun l => l.line == k) = (ls.find? fun l => l.line == k).map g := by
  rw [List.find?_map]
  simp only [Function.comp_def, hg]

theorem oldestL1_mem {ls : List L1Line} {v : L1Line} (h : oldestL1 ls = some v) : v ∈ ls := by
  induction ls generalizing v with
  | nil => cases h
  | cons l ls ih =>
    unfold oldestL1 at h
    split at h
    · rename_i m hm
      split at h
      · cases h
        exact List.mem_cons_of_mem _ (ih hm)
      · cases h
        exact List.mem_cons_self
    · cases h
      exact List.mem_cons_self

/-- A new line stands behind lines of which none is the address's. -/
theorem l1Line_append {c : Core} {pa : Nat} {m : L1Line} {p : L1Line → Bool} (hn : c.l1Line pa = none) (hm : m.line = pa / 32) :
    (c.l1.filter p ++ [m]).find? (fun l => l.line == pa / 32) = some m := by
  have hnone : (c.l1.filter p).find? (fun l => l.line == pa / 32) = none := by
    have hn' : c.l1.find? (fun l => l.line == pa / 32) = none := hn
    rw [List.find?_eq_none] at hn' ⊢
    exact fun l hl => hn' l (List.mem_of_mem_filter hl)
  rw [List.find?_append, hnone]
  simp [hm]

/-- The line of an address is in L1 once it is allocated: the one that was there, or a new one with nothing valid. -/
theorem State.l1Alloc_line (s : State) (cid : Nat) {pa : Nat} (hw : (s.core cid).ways ≠ []) :
    (∃ l, (s.core cid).l1Line pa = some l ∧ s.l1Alloc cid pa = s) ∨
      (s.core cid).l1Line pa = none ∧ ∃ l, ((s.l1Alloc cid pa).core cid).l1Line pa = some l ∧ l.valid = 0#32 := by
  cases hl : (s.core cid).l1Line pa with
  | some l =>
    refine .inl ⟨l, rfl, ?_⟩
    unfold State.l1Alloc
    simp [hl]
  | none =>
    refine .inr ⟨rfl, ?_⟩
    have hne : (s.core cid).ways.isEmpty = false := by simpa using hw
    unfold State.l1Alloc
    dsimp only [State.fresh]
    rw [hl, hne]
    simp only [Option.isSome_none, Bool.or_self, Bool.false_eq_true, if_false]
    split
    · rename_i w hw'
      refine ⟨{ line := pa / 32, data := 0#256, valid := 0#32, dirty := 0#32, way := w, age := s.ctr, bad := false }, ?_, rfl⟩
      rw [State.core_updCore_self]
      have := l1Line_append (m := { line := pa / 32, data := 0#256, valid := 0#32, dirty := 0#32, way := w, age := s.ctr, bad := false })
        (p := fun _ => true) hl rfl
      rw [List.filter_true] at this
      exact this
    · rename_i hnoway
      split
      · rename_i hold
        exfalso
        have hpeers : ((s.core cid).l1.filter fun l => l.line % 1024 == pa / 32 % 1024) = [] := by
          generalize ((s.core cid).l1.filter fun l => l.line % 1024 == pa / 32 % 1024) = ps at hold
          cases ps with
          | nil => rfl
          | cons p ps =>
            unfold oldestL1 at hold
            split at hold
            · split at hold <;> cases hold
            · cases hold
        rw [hpeers, List.find?_eq_none] at hnoway
        obtain ⟨w, hw'⟩ := List.exists_mem_of_ne_nil _ hw
        simpa using hnoway w hw'
      · rename_i v hv
        refine ⟨{ line := pa / 32, data := 0#256, valid := 0#32, dirty := 0#32, way := v.way, age := s.ctr, bad := false }, ?_, rfl⟩
        rw [State.core_updCore_self, State.core_congr (State.cleanLine_cores _ v)]
        exact l1Line_append (c := s.core cid) hl rfl

/-- What L1 evicts for a line lies in other lines: the line's own bytes stay at their home. -/
theorem State.get_l1Alloc {s : State} (h : s.Sound) (cid : Nat) {pa a : Nat} (ha : a / 32 = pa / 32) :
    Memory.get (s.l1Alloc cid pa).mem a = Memory.get s.mem a := by
  unfold State.l1Alloc
  dsimp only [State.fresh]
  split
  · rfl
  · rename_i hc
    have hnone : (s.core cid).l1Line pa = none := by
      cases hl : (s.core cid).l1Line pa with
      | none => rfl
      | some l => simp [hl] at hc
    split
    · rfl
    · split
      · rfl
      · rename_i v hv
        have hmem : v ∈ (s.core cid).l1 := List.mem_of_mem_filter (oldestL1_mem hv)
        have hline : v.line ≠ pa / 32 := by
          have := List.find?_eq_none.1 hnone v hmem
          simpa using this
        rw [State.updCore_mem, State.get_cleanLine (s := { s with ctr := s.ctr + 1 }) h, if_neg (fun hh => hline (by omega))]

/-- The line of an address once it has been used. -/
theorem State.l1Use_line {s : State} {cid pa : Nat} {l : L1Line} (h : (s.core cid).l1Line pa = some l) {f : L1Line → L1Line}
    (hf : ∀ l, (f l).line = l.line) : ((s.l1Use cid pa f).core cid).l1Line pa = some { f l with age := s.ctr } := by
  have hl : l.line = pa / 32 := by simpa using List.find?_some h
  unfold State.l1Use
  dsimp only [State.fresh]
  rw [State.core_updCore_self]
  show (((s.core cid).l1.map _).find? _) = _
  rw [find_map_of_line (fun l => by split <;> simp [hf])]
  have h' : ((s.core cid).l1.find? fun l => l.line == pa / 32) = some l := h
  rw [h']
  simp [hl]

theorem State.l1Bytes_of_line {c : Core} {pa n : Nat} {l : L1Line} (h : c.l1Line pa = some l) :
    c.l1Bytes pa n = (List.range n).map fun k => lineByte l (pa % 32 + k) := by
  unfold Core.l1Bytes
  rw [h]

/-- A store into L1 leaves its bytes in the line, and at the homes of the line's bytes nothing changes. -/
theorem State.l1Store_leaves {s : State} (h : s.Sound) {cid pa : Nat} {bs : List Byte} (hw : (s.core cid).ways ≠ [])
    (hb : pa % 32 + bs.length ≤ 32) :
    ((s.l1Store cid pa bs).core cid).l1Bytes pa bs.length = bs ∧
      ∀ a, a / 32 = pa / 32 → Memory.get (s.l1Store cid pa bs).mem a = Memory.get s.mem a := by
  refine ⟨?_, fun a ha => s.get_l1Alloc h cid ha⟩
  obtain ⟨l, hl⟩ : ∃ l, ((s.l1Alloc cid pa).core cid).l1Line pa = some l := by
    rcases s.l1Alloc_line cid (pa := pa) hw with ⟨l, hl, he⟩ | ⟨-, l, hl, -⟩
    · exact ⟨l, by rw [he]; exact hl⟩
    · exact ⟨l, hl⟩
  unfold State.l1Store
  rw [State.l1Bytes_of_line (State.l1Use_line hl fun l => lineWrite_line l _ _ _)]
  refine List.ext_getElem (by simp) fun i h1 h2 => ?_
  rw [List.getElem_map, List.getElem_range]
  show lineByte (lineWrite l (pa % 32) true bs) (pa % 32 + i) = bs[i]
  rw [lineByte_lineWrite true hb (by omega), if_pos (by omega)]
  simp [h2]

/-- The byte that a core's load through L1 sees: its line's where it is valid there, and else the home's. -/
def State.seen (s : State) (line : Option L1Line) (a : Nat) : Byte :=
  match line with
  | some l => if l.valid.getLsbD (a % 32) then lineByte l (a % 32) else Memory.get s.mem a
  | none => Memory.get s.mem a

theorem State.l1Fill_eq (s : State) (cid pa : Nat) :
    s.l1Fill cid pa = (s.l1Alloc cid pa).l1Use cid pa
      fun l => l.filled (fun k => Memory.get (s.l1Alloc cid pa).mem (pa / 32 * 32 + k)) 32 := rfl

theorem lineByte_age (l : L1Line) (a k : Nat) : lineByte { l with age := a } k = lineByte l k := rfl

/-- A line filled from memory holds its own valid bytes, and else memory's. -/
theorem L1Line.lineByte_filled_seen {s u : State} {l : L1Line} {pa k : Nat} (hk : pa % 32 + k < 32)
    (hm : ∀ a, a / 32 = pa / 32 → Memory.get u.mem a = Memory.get s.mem a) :
    lineByte (l.filled (fun k => Memory.get u.mem (pa / 32 * 32 + k)) 32) (pa % 32 + k) = s.seen (some l) (pa + k) := by
  have e : (pa + k) % 32 = pa % 32 + k := by omega
  have e' : pa / 32 * 32 + (pa % 32 + k) = pa + k := by omega
  obtain ⟨-, -, hbyte⟩ := L1Line.filled_leaves (l := l) (fun k => Memory.get u.mem (pa / 32 * 32 + k)) (Nat.le_refl 32)
  rw [hbyte _ hk, e', hm (pa + k) (by omega)]
  show _ = if l.valid.getLsbD ((pa + k) % 32) then lineByte l ((pa + k) % 32) else Memory.get s.mem (pa + k)
  rw [e]
  cases l.valid.getLsbD (pa % 32 + k) <;> simp [hk]

/-- A load into L1 finds in the line what the core has seen at each address. -/
theorem State.l1Fill_leaves {s : State} (h : s.Sound) {cid pa n : Nat} (hw : (s.core cid).ways ≠ []) (hn : pa % 32 + n ≤ 32) :
    ((s.l1Fill cid pa).core cid).l1Bytes pa n = (List.range n).map fun k => s.seen ((s.core cid).l1Line pa) (pa + k) := by
  have hmem : ∀ a, a / 32 = pa / 32 → Memory.get (s.l1Alloc cid pa).mem a = Memory.get s.mem a := fun a ha => s.get_l1Alloc h cid ha
  have halloc := s.l1Alloc_line cid (pa := pa) hw
  rw [State.l1Fill_eq]
  obtain ⟨l, hl, hseen⟩ : ∃ l, ((s.l1Alloc cid pa).core cid).l1Line pa = some l ∧
      ∀ a, s.seen (some l) a = s.seen ((s.core cid).l1Line pa) a := by
    rcases halloc with ⟨l, hl, he⟩ | ⟨hnone, l, hl, hv⟩
    · exact ⟨l, by rw [he]; exact hl, fun a => by rw [hl]⟩
    · exact ⟨l, hl, fun a => by rw [hnone]; simp [State.seen, hv]⟩
  generalize s.l1Alloc cid pa = u at hmem hl ⊢
  rw [State.l1Bytes_of_line (State.l1Use_line hl fun l => (L1Line.filled_leaves _ (Nat.le_refl 32)).1)]
  refine List.map_congr_left fun k hk => ?_
  rw [List.mem_range] at hk
  rw [lineByte_age, L1Line.lineByte_filled_seen (by omega) hmem, hseen]

/-! An atomic's own dirty bytes. -/

/-- The byte at an address as an atomic of a core finds it, with the core's own dirty bytes of its word at their home (log entry 14). -/
def State.mineAt (s : State) (line : Option L1Line) (pa a : Nat) : Byte :=
  match line with
  | some l => if l.bad = false ∧ a / 32 = pa / 32 ∧ l.dirty.getLsbD (a % 32) = true then lineByte l (a % 32) else Memory.get s.mem a
  | none => Memory.get s.mem a

theorem State.Sound.l1Flush {s : State} (h : s.Sound) (cid pa n : Nat) : (s.l1Flush cid pa n).Sound := by
  unfold State.l1Flush
  split
  · exact h
  · split
    · exact h
    · exact (h.putMarked pa n (fun k => _) fun k => _).congr rfl

theorem State.get_l1Flush {s : State} (h : s.Sound) (cid pa n a : Nat) :
    Memory.get (s.l1Flush cid pa n).mem a =
      if pa ≤ a ∧ a < pa + n then s.mineAt ((s.core cid).l1Line pa) pa a else Memory.get s.mem a := by
  unfold State.l1Flush
  cases hl : (s.core cid).l1Line pa with
  | none => simp [State.mineAt]
  | some l =>
    cases hb : l.bad with
    | true => simp [State.mineAt, hb]
    | false =>
      dsimp only
      rw [if_neg (by simp [hb]), State.updCore_mem]
      refine (State.get_putMarked h pa n (fun k => l.dirty.getLsbD (pa % 32 + k)) (fun k => lineByte l (pa % 32 + k)) a).trans ?_
      by_cases hin : pa ≤ a ∧ a < pa + n
      · obtain ⟨h1, h2⟩ := hin
        by_cases hline : a / 32 = pa / 32
        · have e : pa % 32 + (a - pa) = a % 32 := by omega
          simp [State.mineAt, hb, h1, h2, hline, e]
        · have hd : l.dirty.getLsbD (pa % 32 + (a - pa)) = false := BitVec.getLsbD_of_ge _ _ (by omega)
          simp [State.mineAt, hb, h1, h2, hline, hd]
      · rw [if_neg (by omega), if_neg hin]

theorem State.calm_l1Flush (s : State) (cid pa n : Nat) : s.Calm (s.l1Flush cid pa n) := by
  unfold State.l1Flush
  split
  · exact .refl s
  · split
    · exact .refl s
    · exact (s.calm_putMarked pa n (fun k => _) fun k => _).trans (.updCore (fun _ => rfl) cid)

theorem State.calm_l1Forget (s : State) (cid pa n : Nat) : s.Calm (s.l1Forget cid pa n) := .updCore (fun _ => rfl) cid

theorem State.calm_l1Echo (s : State) (cid pa : Nat) (bs : List Byte) : s.Calm (s.l1Echo cid pa bs) := .updCore (fun _ => rfl) cid

end Sys2Proof.Machine

end



-- A store and a load at their home.
section
/-! SUPPORT. What a store and a load leave (R172, R302). -/

namespace Sys2Proof.Machine

/-! Numbers as bytes. -/

theorem leVal_toLe (n v : Nat) : leVal (toLe n v) = v % 2 ^ (8 * n) := by
  induction n generalizing v with
  | zero => simp [toLe, leVal, Nat.mod_one]
  | succ n ih =>
    have hp : 2 ^ (8 * (n + 1)) = 256 * 2 ^ (8 * n) := by rw [Nat.mul_succ, Nat.pow_add, Nat.mul_comm]
    rw [toLe, leVal, ih, hp, Nat.mod_mul, BitVec.toNat_ofNat]

theorem leVal_lt (bs : List Byte) : leVal bs < 2 ^ (8 * bs.length) := by
  induction bs with
  | nil => simp [leVal]
  | cons b bs ih =>
    have hb := b.isLt
    have hp : 2 ^ (8 * (b :: bs).length) = 256 * 2 ^ (8 * bs.length) := by
      rw [List.length_cons, Nat.mul_succ, Nat.pow_add, Nat.mul_comm]
    rw [leVal, hp]
    omega

/-! Answers. -/

theorem State.answer_req {u : State} {tok : Nat} {r q : Req} (h : u.req tok = some r) (hq : q.tok = tok) (at_ : Nat) (ev : Ev) :
    (u.answer q at_ ev).req tok = some { q with st := .performed } := by
  subst hq
  exact State.req_updReq_self h rfl

theorem State.calm_req {s t : State} (h : s.Calm t) (tok : Nat) : t.req tok = s.req tok := State.req_congr h.reqs tok

/-! A request of one home that no cause holds back. -/

section Goes

variable {s t : State} {r : Req} (hf : s.Finds t) (hn : r.n ≠ 512) (he : (r.l1 && s.evictsSpoilt r.who.cid r.pa) = false)
include hf hn he

theorem State.perform_load {sext : Bool} (hk : r.kind = .load sext) (hc : s.homeCause r.who.cid r.own true r.pa r.n r.acc = none) :
    t.perform r = t.loadHome r sext := by
  have hone : (if ((ReqKind.load sext).scalar && decide (r.n = 512)) = true then 1 else r.n) = r.n := if_neg (by simp [hn])
  have hc' : t.homeCause r.who.cid r.own (ReqKind.load sext).scalar r.pa r.n r.acc = none := (hf.homeCause ..).trans hc
  have he' : ¬(r.l1 && t.evictsSpoilt r.who.cid r.pa) = true := by rw [hf.evictsSpoilt, he]; simp
  unfold State.perform
  rw [hk]
  dsimp only
  rw [hone, hc']
  dsimp only
  rw [if_neg he']

theorem State.perform_store {v : W64} (hk : r.kind = .store v) (hc : s.homeCause r.who.cid r.own true r.pa r.n r.acc = none) :
    t.perform r = t.storeHome r v := by
  have hone : (if ((ReqKind.store v).scalar && decide (r.n = 512)) = true then 1 else r.n) = r.n := if_neg (by simp [hn])
  have hc' : t.homeCause r.who.cid r.own (ReqKind.store v).scalar r.pa r.n r.acc = none := (hf.homeCause ..).trans hc
  have he' : ¬(r.l1 && t.evictsSpoilt r.who.cid r.pa) = true := by rw [hf.evictsSpoilt, he]; simp
  unfold State.perform
  rw [hk]
  dsimp only
  rw [hone, hc']
  dsimp only
  rw [if_neg he']

theorem State.perform_amo {op : AmoOp} {b : W64} (hk : r.kind = .amo op b)
    (hc : s.homeCause r.who.cid r.own false r.pa r.n r.acc = none) :
    t.perform r = t.atomicHome r (fun old => some (amoResult op r.n old (b.toNat % 2 ^ (8 * r.n)))) (op != .fadd && r.n == 4) := by
  have hone : (if ((ReqKind.amo op b).scalar && decide (r.n = 512)) = true then 1 else r.n) = r.n := if_neg (by simp [hn])
  have hc' : t.homeCause r.who.cid r.own (ReqKind.amo op b).scalar r.pa r.n r.acc = none := (hf.homeCause ..).trans hc
  have he' : ¬(r.l1 && t.evictsSpoilt r.who.cid r.pa) = true := by rw [hf.evictsSpoilt, he]; simp
  unfold State.perform
  rw [hk]
  dsimp only
  rw [hone, hc']
  dsimp only
  rw [if_neg he']

theorem State.perform_cas {e b : W64} (hk : r.kind = .cas e b)
    (hc : s.homeCause r.who.cid r.own false r.pa r.n r.acc = none) :
    t.perform r = t.atomicHome r
      (fun old => if old = e.toNat % 2 ^ (8 * r.n) then some (b.toNat % 2 ^ (8 * r.n)) else none) (r.n == 4) := by
  have hone : (if ((ReqKind.cas e b).scalar && decide (r.n = 512)) = true then 1 else r.n) = r.n := if_neg (by simp [hn])
  have hc' : t.homeCause r.who.cid r.own (ReqKind.cas e b).scalar r.pa r.n r.acc = none := (hf.homeCause ..).trans hc
  have he' : ¬(r.l1 && t.evictsSpoilt r.who.cid r.pa) = true := by rw [hf.evictsSpoilt, he]; simp
  unfold State.perform
  rw [hk]
  dsimp only
  rw [hone, hc']
  dsimp only
  rw [if_neg he']

end Goes

/-- A request of one home that nothing holds back is performed as it stands. -/
theorem exec_homeRequest_one {s : State} {tok : Nat} {r : Req} (he : s.evt = .homeRequest tok) (hr : s.req tok = some r)
    (hk : s.keptFor r = none) (hu : s.Unhindered r) (hone : r.units = []) :
    ∃ t, exec .homeRequest s = .next (t.perform r) ∧ s.Finds t ∧ t.req tok = some r := by
  have h := exec_homeRequest he hr hk hu
  rwa [State.takeSlots_of_units_nil hone] at h

/-! Stores. -/

theorem State.storeHome_mem {t : State} {r : Req} {v : W64} (hl : (r.l1 && !(t.core r.who.cid).ways.isEmpty) = false)
    (hlvl : r.lvl = none) : (t.storeHome r v).mem = Memory.putAll t.mem r.pa (toLe r.n v.toNat) := by
  unfold State.storeHome
  dsimp only
  rw [hl, if_neg (by simp), if_neg (by simp [State.storeFull, hlvl]), hlvl]
  have hput : (((t.l2Wrote r.pa r.cache r.n).putBytesAt r.part none r.va r.pa (t.answerAt r) (toLe r.n v.toNat))).mem =
      Memory.putAll t.mem r.pa (toLe r.n v.toNat) := by
    rw [State.putBytesAt_none_mem, State.l2Wrote_mem]
  split
  · exact hput
  · exact hput

theorem State.storeHome_l1 {t : State} {r : Req} {v : W64} (hl : (r.l1 && !(t.core r.who.cid).ways.isEmpty) = true) :
    ∃ at_, t.storeHome r v = (t.l1Store r.who.cid r.pa (toLe r.n v.toNat)).answer r at_ (.storeAck r.tok) := by
  unfold State.storeHome
  dsimp only
  rw [if_pos hl]
  exact ⟨_, rfl⟩

theorem bytes_putAll_get {m : List Host.Cell} (h : Memory.wf m = true) (a n v : Nat) :
    Memory.bytes (Memory.putAll m a (toLe n v)) a n = toLe n v ∧
      ∀ x, (x < a ∨ a + n ≤ x) → Memory.get (Memory.putAll m a (toLe n v)) x = Memory.get m x := by
  refine ⟨?_, fun x hx => ?_⟩
  · have := Memory.bytes_putAll h a (toLe n v)
    rwa [length_toLe] at this
  · rw [Memory.get_putAll h, if_neg (by rw [length_toLe]; omega)]

/-- An aligned access of up to eight bytes lies in one line. -/
theorem aligned_in_line {pa n : Nat} (hn : n ∈ [1, 2, 4, 8]) (ha : pa % n = 0) : pa % 32 + n ≤ 32 := by
  simp only [List.mem_cons, List.not_mem_nil, or_false] at hn
  rcases hn with rfl | rfl | rfl | rfl <;> omega

/-! Loads. -/

theorem State.loadHome_home {t : State} {r : Req} {sext : Bool} (hl : (r.l1 && !(t.core r.who.cid).ways.isEmpty) = false)
    (hlvl : r.lvl = none) : ∃ u at_, t.Calm u ∧ u.mem = t.mem ∧ t.loadHome r sext =
      u.answer { r with res := oldValue sext r.n (leVal (Memory.bytes t.mem r.pa r.n)) } at_ (.loadResponse r.tok) := by
  unfold State.loadHome
  dsimp only
  simp only [hl, Bool.false_eq_true, if_false]
  rw [hlvl, State.bytesAt_none, State.l2Touch_mem]
  exact ⟨_, _, t.calm_l2Touch _ _ _, State.l2Touch_mem _ _ _ _, rfl⟩

theorem State.loadHome_l1 {t : State} {r : Req} {sext : Bool} (hl : (r.l1 && !(t.core r.who.cid).ways.isEmpty) = true) :
    ∃ u at_, t.Calm u ∧ u.mem = t.mem ∧ u.cores = t.cores ∧ t.loadHome r sext = (u.l1Fill r.who.cid r.pa).answer
      { r with res := oldValue sext r.n (leVal (((u.l1Fill r.who.cid r.pa).core r.who.cid).l1Bytes r.pa r.n)) } at_
      (.loadResponse r.tok) := by
  unfold State.loadHome
  dsimp only
  simp only [hl, if_true]
  refine ⟨_, _, t.calm_l2Touch _ _ _, State.l2Touch_mem _ _ _ _, ?_, rfl⟩
  unfold State.l2Touch State.l2Alloc
  dsimp only [State.fresh]
  repeat' split
  all_goals rfl

end Sys2Proof.Machine

end



-- An atomic at its home.
section
/-! SUPPORT. What an atomic finds, leaves and is answered with (R177 to R179, log entry 14). -/

namespace Sys2Proof.Machine

/-- The state in which an atomic finds its bytes: what its core's L1 holds dirty of them has gone home (log entry 14). -/
def State.gathered (t : State) (r : Req) : State := if r.own then t else t.l1Flush r.who.cid r.pa r.n

/-- The line whose dirty bytes an atomic finds. -/
def State.ownLine (s : State) (r : Req) : Option L1Line := if r.own then none else (s.core r.who.cid).l1Line r.pa

/-- The value that an atomic finds. -/
def State.foundBy (s : State) (r : Req) : Nat := leVal ((List.range r.n).map fun k => s.mineAt (s.ownLine r) r.pa (r.pa + k))

theorem State.foundBy_lt (s : State) (r : Req) : s.foundBy r < 2 ^ (8 * r.n) := by
  have h := leVal_lt ((List.range r.n).map fun k => s.mineAt (s.ownLine r) r.pa (r.pa + k))
  rwa [List.length_map, List.length_range] at h

theorem State.Sound.gathered {t : State} (h : t.Sound) (r : Req) : (t.gathered r).Sound := by
  unfold State.gathered
  split
  · exact h
  · exact h.l1Flush _ _ _

theorem State.calm_gathered (t : State) (r : Req) : t.Calm (t.gathered r) := by
  unfold State.gathered
  split
  · exact .refl t
  · exact t.calm_l1Flush _ _ _

theorem State.get_gathered {t : State} (h : t.Sound) (r : Req) (a : Nat) :
    Memory.get (t.gathered r).mem a =
      if r.pa ≤ a ∧ a < r.pa + r.n then t.mineAt (t.ownLine r) r.pa a else Memory.get t.mem a := by
  unfold State.gathered State.ownLine
  by_cases ho : r.own = true
  · rw [if_pos ho, if_pos ho]
    simp [State.mineAt]
  · rw [if_neg ho, if_neg ho, State.get_l1Flush h]

theorem State.bytes_gathered {t : State} (h : t.Sound) (r : Req) : leVal (Memory.bytes (t.gathered r).mem r.pa r.n) = t.foundBy r := by
  unfold State.foundBy
  rw [Memory.bytes_eq_map]
  refine congrArg leVal (List.map_congr_left fun k hk => ?_)
  rw [List.mem_range] at hk
  rw [State.get_gathered h, if_pos (by omega)]

/-- What a request finds of its core's line is the same in both states. -/
theorem State.Finds.foundBy {s t : State} (h : s.Finds t) (r : Req) : t.foundBy r = s.foundBy r := by
  unfold State.foundBy
  refine congrArg leVal (List.map_congr_left fun k _ => ?_)
  generalize r.pa + k = a
  unfold State.ownLine
  by_cases ho : r.own = true
  · rw [if_pos ho, if_pos ho]
    simp only [State.mineAt, h.mem]
  · rw [if_neg ho, if_neg ho]
    obtain ⟨φ, hφ, hl⟩ := h.l1Line r.who.cid r.pa
    rw [hl]
    cases (s.core r.who.cid).l1Line r.pa with
    | none => simp only [Option.map_none, State.mineAt, h.mem]
    | some l =>
      simp only [Option.map_some, State.mineAt, h.mem]
      by_cases hd : l.dirty = 0#32
      · simp [(hφ l).dirty, hd]
      · rw [(hφ l).2 hd]

/-- An atomic leaves its new value, or the old one, is answered with the old one, and changes no other byte. -/
theorem State.atomicHome_leaves {t : State} (h : t.Sound) {tok : Nat} {r : Req} (hr : t.req tok = some r) (hlvl : r.lvl = none)
    (f : Nat → Option Nat) (sext : Bool) :
    leVal (Memory.bytes (t.atomicHome r f sext).mem r.pa r.n) = (f (t.foundBy r)).getD (t.foundBy r) % 2 ^ (8 * r.n) ∧
      (∀ a, (a < r.pa ∨ r.pa + r.n ≤ a) → Memory.get (t.atomicHome r f sext).mem a = Memory.get t.mem a) ∧
      ∃ q, (t.atomicHome r f sext).req tok = some q ∧ q.st = .performed ∧ q.res = oldValue sext r.n (t.foundBy r) := by
  have htok : r.tok = tok := by simpa using List.find?_some hr
  have hu : (t.gathered r).Sound := h.gathered r
  have hreq : (t.gathered r).req tok = some r := (State.calm_req (t.calm_gathered r) tok).trans hr
  have hold : leVal ((t.gathered r).bytesAt r.part none r.va r.pa r.n) = t.foundBy r := by
    rw [State.bytesAt_none, State.bytes_gathered h]
  have hframe : ∀ a, (a < r.pa ∨ r.pa + r.n ≤ a) → Memory.get (t.gathered r).mem a = Memory.get t.mem a := fun a ha => by
    rw [State.get_gathered h, if_neg (by omega)]
  have heq : (if (r.lvl.isNone && !r.own) = true then t.l1Flush r.who.cid r.pa r.n else t) = t.gathered r := by
    unfold State.gathered
    cases r.own <;> simp [hlvl]
  unfold State.atomicHome
  dsimp only
  rw [heq, hlvl, hold]
  cases hf : f (t.foundBy r) with
  | none =>
    dsimp only
    rw [Option.getD_none, Nat.mod_eq_of_lt (t.foundBy_lt r)]
    have hmem : (((t.gathered r).l2Touch r.pa r.cache r.n).l1Forget r.who.cid r.pa r.n).mem = (t.gathered r).mem :=
      State.l2Touch_mem _ _ _ _
    refine ⟨?_, fun a ha => ?_, ?_⟩
    · show leVal (Memory.bytes (((t.gathered r).l2Touch r.pa r.cache r.n).l1Forget r.who.cid r.pa r.n).mem r.pa r.n) = _
      rw [hmem, State.bytes_gathered h]
    · show Memory.get (((t.gathered r).l2Touch r.pa r.cache r.n).l1Forget r.who.cid r.pa r.n).mem a = _
      rw [hmem, hframe a ha]
    · refine ⟨_, State.answer_req (r := r) ?_ (by exact htok) _ _, rfl, rfl⟩
      exact (State.calm_req (((t.gathered r).calm_l2Touch _ _ _).trans (State.calm_l1Forget _ _ _ _)) tok).trans hreq
  | some new =>
    dsimp only
    rw [if_neg (by simp [State.storeFull]), Option.getD_some]
    have hmark : ((t.gathered r).markReq r).mem = (t.gathered r).mem ∧ ((t.gathered r).markReq r).reqs = (t.gathered r).reqs := by
      unfold State.markReq
      split
      · exact ⟨rfl, rfl⟩
      · rw [State.markSide_eq]
        exact ⟨rfl, rfl⟩
    obtain ⟨hmm, hmr⟩ := hmark
    generalize (t.gathered r).markReq r = m at hmm hmr
    generalize (t.gathered r).answerAt r = at_
    have hmem : (((m.l2Touch r.pa r.cache r.n).putBytesAt r.part none r.va r.pa at_ (toLe r.n new)).l1Forget r.who.cid r.pa r.n).mem =
        Memory.putAll (t.gathered r).mem r.pa (toLe r.n new) := by
      show ((m.l2Touch r.pa r.cache r.n).putBytesAt r.part none r.va r.pa at_ (toLe r.n new)).mem = _
      rw [State.putBytesAt_none_mem, State.l2Touch_mem, hmm]
    obtain ⟨hbytes, hother⟩ := bytes_putAll_get hu r.pa r.n new
    refine ⟨?_, fun a ha => ?_, ?_⟩
    · show leVal (Memory.bytes (((m.l2Touch r.pa r.cache r.n).putBytesAt r.part none r.va r.pa at_ (toLe r.n new)).l1Forget
        r.who.cid r.pa r.n).mem r.pa r.n) = _
      rw [hmem, hbytes, leVal_toLe]
    · show Memory.get (((m.l2Touch r.pa r.cache r.n).putBytesAt r.part none r.va r.pa at_ (toLe r.n new)).l1Forget
        r.who.cid r.pa r.n).mem a = _
      rw [hmem, hother a ha, hframe a ha]
    · refine ⟨_, State.answer_req (r := r) ?_ (by exact htok) _ _, rfl, rfl⟩
      exact (State.calm_req (((m.calm_l2Touch _ _ _).trans (State.calm_putBytesAt _ _ _ _ _ _)).trans
        (State.calm_l1Forget _ _ _ _)) tok).trans ((State.req_congr hmr tok).trans hreq)

/-- The signed value of n bytes (R177). -/
theorem signed_ofNat {n x : Nat} (hn : 0 < n) :
    (if x % 2 ^ (8 * n) < 2 ^ (8 * n) / 2 then ((x % 2 ^ (8 * n) : Nat) : Int) else ((x % 2 ^ (8 * n) : Nat) : Int) - (2 ^ (8 * n) : Nat)) =
      (BitVec.ofNat (8 * n) x).toInt := by
  rw [BitVec.toInt_eq_toNat_cond, BitVec.toNat_ofNat]
  have he : 2 ^ (8 * n) = 2 * 2 ^ (8 * n - 1) := by
    rw [← Nat.pow_succ']
    congr 1
    omega
  generalize 2 ^ (8 * n) = m at he ⊢
  by_cases h : x % m < m / 2
  · rw [if_pos h, if_pos (by omega)]
  · rw [if_neg h, if_neg (by omega)]

end Sys2Proof.Machine

end



-- A vector access at its homes.
section
/-! SUPPORT. What a vector load reads, and a vector store writes, where each home takes its part at once (R202, R207, R208, R356). -/

namespace Sys2Proof.Machine

/-! Vector accesses: every home takes its part at once. -/

theorem State.freeHomes_of_portFree {s : State} {cid : Nat} {homes : List Nat} (h : s.portFree cid homes = true) :
    s.freeHomes cid homes = homes := by
  unfold State.portFree at h
  rw [Bool.and_eq_true, List.all_eq_true, decide_eq_true_eq] at h
  obtain ⟨hcount, hlen⟩ := h
  unfold State.freeHomes
  rw [List.filter_eq_self.2 hcount, List.take_of_length_le (by omega)]

/-- A vector request that is not short of slots has them at the home of every unit. -/
theorem State.takeSlots_parts {s : State} {r : Req} (h : s.slotsShort r = false) (hl : r.lanes ≠ []) {u : VUnit} (hu : u ∈ r.units) :
    ((s.takeSlots r).parts.any fun p => p.1 == s.homeOf u.pa) = true := by
  have hfree : s.freeHomes r.who.cid (s.slotless r) = s.slotless r :=
    State.freeHomes_of_portFree (by unfold State.slotsShort at h; simpa using h)
  show ((r.parts ++ (s.freeHomes r.who.cid (s.slotless r)).map fun h => (h, none)).any fun p => p.1 == s.homeOf u.pa) = true
  rw [hfree, List.any_append, Bool.or_eq_true]
  by_cases hp : (r.parts.any fun p => p.1 == s.homeOf u.pa) = true
  · exact .inl hp
  · refine .inr ?_
    have hmem : s.homeOf u.pa ∈ s.slotless r := by
      unfold State.slotless
      rw [if_neg (by simpa using hl), List.mem_filter, List.mem_eraseDups]
      exact ⟨List.mem_map_of_mem hu, by rw [Bool.not_eq_true] at hp; rw [hp]; rfl⟩
    rw [List.any_eq_true]
    exact ⟨(s.homeOf u.pa, none), List.mem_map_of_mem hmem, by simp⟩

/-- Where nothing holds a vector request back, each home takes its units. -/
theorem State.unitGoes_of_unhindered {s t : State} {r : Req} (hf : s.Finds t) (hs : s.slotsShort r = false) {u : VUnit}
    (hu : u ∈ r.units) (hw : s.waking u.pa = false) (ha : s.awayAt u.pa = none) : t.unitGoes (s.takeSlots r) u = true := by
  unfold State.unitGoes
  rw [hf.homeOf, hf.waking, hf.awayAt, hw, ha]
  by_cases hl : r.lanes = []
  · show (r.lanes.isEmpty || _) = true
    rw [hl]
    rfl
  · rw [State.takeSlots_parts hs hl hu]
    simp

/-! No part fails. -/

theorem State.unitsCause_eq_none {s : State} {r : Req} {us : List VUnit} : s.unitsCause r us = none ↔
    ∀ u ∈ us, s.homeCause r.who.cid u.own false u.pa u.n r.acc = none ∧ (u.l1 && s.evictsSpoilt r.who.cid u.pa u.n) = false := by
  induction us with
  | nil => simp [State.unitsCause]
  | cons u us ih =>
    unfold State.unitsCause
    rw [List.forall_mem_cons, ← ih]
    cases s.homeCause r.who.cid u.own false u.pa u.n r.acc with
    | some c => simp
    | none =>
      cases u.l1 && s.evictsSpoilt r.who.cid u.pa u.n <;> simp

theorem State.Finds.unitsCause {s t : State} (hf : s.Finds t) {r : Req} {us : List VUnit} (h : s.unitsCause r us = none) :
    t.unitsCause r us = none := by
  rw [State.unitsCause_eq_none] at h ⊢
  intro u hu
  rw [hf.homeCause, hf.evictsSpoilt]
  exact h u hu

/-- The slots that a request takes change no cause. -/
theorem State.unitsCause_takeSlots {s : State} {r : Req} {us : List VUnit} (h : s.unitsCause r us = none) :
    s.unitsCause (s.takeSlots r) us = none := by
  rw [State.unitsCause_eq_none] at h ⊢
  exact h

theorem State.partsFail_none {t : State} {q : Req} {us : List VUnit} (h : t.unitsCause q us = none) (hs : List Nat) :
    t.partsFail q us hs = ([], q, t) := by
  induction hs with
  | nil => rfl
  | cons h' hs ih =>
    have hsub : t.unitsCause q (us.filter fun u => t.homeOf u.pa == h') = none := by
      rw [State.unitsCause_eq_none] at h ⊢
      exact fun u hu => h u (List.mem_of_mem_filter hu)
    unfold State.partsFail
    rw [hsub]
    exact ih

/-- The homes that answer change of a request its parts and the cycle from which it is answered. -/
theorem Req.foldl_lands {α : Type} (q : Req) (xs : List α) (h c : α → Nat) :
    ∃ m ps, xs.foldl (fun q x => q.lands (h x) (c x)) q = { q with from_ := m, parts := ps } := by
  induction xs generalizing q with
  | nil => exact ⟨_, _, rfl⟩
  | cons x xs ih =>
    obtain ⟨m, ps, he⟩ := ih (q.lands (h x) (c x))
    exact ⟨m, ps, he⟩

theorem State.vecDone_answer {t : State} {q : Req} (hb : q.bad = none) (at_ : Nat) (ev : Ev) : t.vecDone q at_ ev = t.answer q at_ ev := by
  unfold State.vecDone
  rw [hb]

/-! A vector load. -/

theorem State.unitRead_home {t : State} {q : Req} {u : VUnit} (hlvl : q.lvl = none) (hl : u.l1 = false) :
    ∃ l, t.unitRead q u = (Memory.bytes t.mem u.pa u.n, l, t.l2Touch u.pa u.cache u.n) := by
  unfold State.unitRead
  dsimp only
  rw [hlvl, hl]
  have hlev : (t.part q.part).level none u.va = none := rfl
  rw [hlev, State.bytesAt_none]
  exact ⟨_, rfl⟩

/-- Units that do not go through L1 read their bytes of memory, which stays as it is. -/
theorem State.unitsRead_leaves (t : State) {q : Req} (hlvl : q.lvl = none) {us : List VUnit} (hl : ∀ u ∈ us, u.l1 = false) :
    ((t.unitsRead q us).1.map fun x => (x.1, x.2.1)) = (us.map fun u => (u, Memory.bytes t.mem u.pa u.n)) ∧
      t.Calm (t.unitsRead q us).2 ∧ (t.unitsRead q us).2.mem = t.mem := by
  induction us generalizing t with
  | nil => exact ⟨rfl, .refl t, rfl⟩
  | cons u us ih =>
    rw [List.forall_mem_cons] at hl
    obtain ⟨hu, hus⟩ := hl
    obtain ⟨l, he⟩ := State.unitRead_home (t := t) (q := q) hlvl hu
    obtain ⟨hread, hcalm, hmem⟩ := ih (t.l2Touch u.pa u.cache u.n) hus
    unfold State.unitsRead
    rw [he]
    dsimp only
    rw [State.l2Touch_mem] at hread hmem
    refine ⟨?_, (t.calm_l2Touch _ _ _).trans hcalm, hmem⟩
    rw [List.map_cons, List.map_cons, hread]

/-- A lane has the bytes that its unit has read. -/
theorem laneBytes_map {q : Req} {us : List VUnit} {f : VUnit → List Byte} (hg : q.got = us.map fun u => (u, f u)) {u : VUnit}
    (hu : u ∈ us) : q.laneBytes u = f u := by
  unfold Req.laneBytes
  rw [hg, List.find?_map]
  have hfind : us.find? ((fun g : VUnit × List Byte => g.1 == u) ∘ fun u => (u, f u)) = some u := by
    have hsome : (us.find? ((fun g : VUnit × List Byte => g.1 == u) ∘ fun u => (u, f u))).isSome = true := by
      rw [List.find?_isSome]
      exact ⟨u, hu, by simp⟩
    obtain ⟨w, hw⟩ := Option.isSome_iff_exists.1 hsome
    have hwu : w = u := by simpa using List.find?_some hw
    rw [hw, hwu]
  rw [hfind]
  rfl

theorem State.vloadHome_leaves {t : State} {tok : Nat} {q : Req} {us : List VUnit} (form : VForm) (m : MWord) {v : BitVec 4}
    {count : Nat} (hr : t.req tok = some q) (hgo : ∀ u ∈ us, t.unitGoes q u = true) (hc : t.unitsCause q us = none)
    (hl : ∀ u ∈ us, u.l1 = false) (hlvl : q.lvl = none) (hdst : q.dst = .v v count) (hlanes : q.lanes = us) (hgot : q.got = [])
    (hbad : q.bad = none) :
    ∃ p, (t.vloadHome q us form m).req tok = some p ∧ p.st = .performed ∧ (t.vloadHome q us form m).mem = t.mem ∧
      (p.vres, p.flags) = vresult form m v count (us.map fun u => (u, Memory.bytes t.mem u.pa u.n)) := by
  have htok : q.tok = tok := by simpa using List.find?_some hr
  have hgoes : us.filter (t.unitGoes q) = us := List.filter_eq_self.2 hgo
  have hlate : (us.filter fun u => !t.unitGoes q u) = [] := by
    rw [List.filter_eq_nil_iff]
    intro u hu
    simp [hgo u hu]
  obtain ⟨hread, hcalm, hmem⟩ := t.unitsRead_leaves hlvl hl
  have hall : (us.filter fun u => !([] : List Nat).contains (t.homeOf u.pa)) = us := List.filter_eq_self.2 fun u _ => by simp
  have hlane : (us.map fun u => (u, Req.laneBytes { q with got := us.map fun u => (u, Memory.bytes t.mem u.pa u.n) } u)) =
      us.map fun u => (u, Memory.bytes t.mem u.pa u.n) :=
    List.map_congr_left fun u hu => congrArg (Prod.mk u) (laneBytes_map (f := fun u => Memory.bytes t.mem u.pa u.n) rfl hu)
  obtain ⟨c, ps, hland⟩ := Req.foldl_lands q (t.unitsRead q us).1 (fun x => t.homeOf x.1.pa)
    (fun x => t.now + t.ticks (dieOf q.who.cid) (x.2.2 + q.lat))
  obtain ⟨at_, p, he, hp, hres⟩ : ∃ at_ p, t.vloadHome q us form m = (t.unitsRead q us).2.answer p at_ (.loadResponse q.tok) ∧
      p.tok = q.tok ∧ (p.vres, p.flags) = vresult form m v count (us.map fun u => (u, Memory.bytes t.mem u.pa u.n)) := by
    unfold State.vloadHome
    rw [hgoes, hlate]
    dsimp only
    rw [State.partsFail_none hc]
    dsimp only
    rw [hall, hland, if_pos (by rfl), hdst, hread, hgot, hlanes, List.nil_append, State.vecDone_answer (by exact hbad)]
    exact ⟨_, _, rfl, rfl, congrArg (vresult form m v count) hlane⟩
  rw [he]
  exact ⟨_, State.answer_req ((State.calm_req hcalm tok).trans hr) (hp.trans htok) _ _, rfl, hmem, hres⟩

/-! A vector store. -/

theorem State.unitWrite_home {t : State} {q : Req} {u : VUnit} (v : Nat) (hlvl : q.lvl = none) (hl : u.l1 = false) :
    ∃ l t', t.unitWrite q u v = (false, l, t') ∧ t.Calm t' ∧ t'.mem = Memory.putAll t.mem u.pa (toLe u.n v) := by
  have hlev : (t.part q.part).level none u.va = none := rfl
  have hput : ((t.l2Wrote u.pa u.cache u.n).putBytes q.part none u.va u.pa (toLe u.n v)).mem =
      Memory.putAll t.mem u.pa (toLe u.n v) := by
    rw [State.putBytes_none_mem, State.l2Wrote_mem]
  have hcalm : t.Calm ((t.l2Wrote u.pa u.cache u.n).putBytes q.part none u.va u.pa (toLe u.n v)) :=
    (t.calm_l2Wrote _ _ _).trans (State.calm_putBytes _ _ _ _ _)
  unfold State.unitWrite
  dsimp only
  rw [hlvl, hl, hlev, if_neg (by simp), if_neg (by simp [State.storeFull])]
  refine ⟨_, _, rfl, ?_, ?_⟩
  · split
    · exact hcalm.trans (State.calm_l1Echo _ _ _ _)
    · exact hcalm
  · split
    · exact hput
    · exact hput

/-- Units that do not go through L1, and do not overlap, write their bytes and no others. -/
theorem State.unitsWrite_leaves {t : State} (h : t.Sound) {q : Req} (hlvl : q.lvl = none) {us : List (VUnit × Nat)}
    (hl : ∀ u ∈ us, u.1.l1 = false) (hd : us.Pairwise fun a b => a.1.pa + a.1.n ≤ b.1.pa ∨ b.1.pa + b.1.n ≤ a.1.pa) :
    ∃ ls t', t.unitsWrite q [] us = ([], ls, t') ∧ t.Calm t' ∧
      (∀ u ∈ us, Memory.bytes t'.mem u.1.pa u.1.n = toLe u.1.n u.2) ∧
      ∀ a, (∀ u ∈ us, a < u.1.pa ∨ u.1.pa + u.1.n ≤ a) → Memory.get t'.mem a = Memory.get t.mem a := by
  induction us generalizing t with
  | nil => exact ⟨_, _, rfl, .refl t, by simp, fun _ _ => rfl⟩
  | cons x us ih =>
    obtain ⟨u, v⟩ := x
    rw [List.forall_mem_cons] at hl
    rw [List.pairwise_cons] at hd
    obtain ⟨hu, hus⟩ := hl
    obtain ⟨hapart, hd⟩ := hd
    obtain ⟨l, t1, hw, hcalm, hmem⟩ := State.unitWrite_home (t := t) v hlvl hu
    obtain ⟨hhead, hframe⟩ := bytes_putAll_get h u.pa u.n v
    rw [← hmem] at hhead hframe
    have h1 : t1.Sound := by
      show Memory.wf t1.mem = true
      rw [hmem]
      exact Memory.wf_putAll h _ _
    obtain ⟨ls, t', he, hcalm', htail, hrest⟩ := ih h1 hus hd
    refine ⟨(t.homeOf u.pa, l) :: ls, t', ?_, hcalm.trans hcalm', ?_, fun a ha => ?_⟩
    · unfold State.unitsWrite
      simp only [List.contains_nil, Bool.false_eq_true, if_false, hw, he]
    · rw [List.forall_mem_cons]
      refine ⟨?_, htail⟩
      dsimp only
      rw [← hhead, Memory.bytes_eq_map, Memory.bytes_eq_map]
      refine List.map_congr_left fun k hk => hrest _ fun w hw => ?_
      rw [List.mem_range] at hk
      have := hapart w hw
      dsimp only at this
      omega
    · rw [List.forall_mem_cons] at ha
      rw [hrest a ha.2, hframe a ha.1]

theorem State.vstoreHome_leaves {t : State} (h : t.Sound) {tok : Nat} {q : Req} {us : List (VUnit × Nat)} (hr : t.req tok = some q)
    (hgo : ∀ u ∈ us, t.unitGoes q u.1 = true) (hc : t.unitsCause q (us.map (·.1)) = none) (hl : ∀ u ∈ us, u.1.l1 = false)
    (hlvl : q.lvl = none) (hbad : q.bad = none)
    (hd : us.Pairwise fun a b => a.1.pa + a.1.n ≤ b.1.pa ∨ b.1.pa + b.1.n ≤ a.1.pa) :
    ∃ p, (t.vstoreHome q us).req tok = some p ∧ p.st = .performed ∧
      (∀ u ∈ us, Memory.bytes (t.vstoreHome q us).mem u.1.pa u.1.n = toLe u.1.n u.2) ∧
      ∀ a, (∀ u ∈ us, a < u.1.pa ∨ u.1.pa + u.1.n ≤ a) → Memory.get (t.vstoreHome q us).mem a = Memory.get t.mem a := by
  have htok : q.tok = tok := by simpa using List.find?_some hr
  have hgoes : (us.filter fun u => t.unitGoes q u.1) = us := List.filter_eq_self.2 hgo
  have hlate : (us.filter fun u => !t.unitGoes q u.1) = [] := by
    rw [List.filter_eq_nil_iff]
    intro u hu
    simp [hgo u hu]
  obtain ⟨ls, t', hwrite, hcalm, hbytes, hrest⟩ := State.unitsWrite_leaves h hlvl hl hd
  have hall : (us.filter fun u => !([] : List Nat).contains (t.homeOf u.1.pa)) = us := List.filter_eq_self.2 fun u _ => by simp
  obtain ⟨c, ps, hland⟩ := Req.foldl_lands q ls (fun x => x.1) (fun x => t.now + t.ticks (dieOf q.who.cid) (x.2 + q.lat))
  obtain ⟨at_, he⟩ : ∃ at_, t.vstoreHome q us = t'.answer { q with from_ := c, parts := ps } at_ (.storeAck q.tok) := by
    have hdone : ∀ at_, t'.vecDone { q with from_ := c, parts := ps } at_ (.storeAck q.tok) =
        t'.answer { q with from_ := c, parts := ps } at_ (.storeAck q.tok) := fun _ => State.vecDone_answer (by exact hbad) _ _
    unfold State.vstoreHome
    rw [hgoes, hlate]
    dsimp only
    rw [State.partsFail_none hc]
    dsimp only
    rw [hall, hwrite]
    dsimp only
    rw [hland]
    exact ⟨_, hdone _⟩
  rw [he]
  exact ⟨_, State.answer_req (r := q) ((State.calm_req hcalm tok).trans hr) (by exact htok) _ _, rfl, hbytes, hrest⟩

end Sys2Proof.Machine

end



-- Accesses that reach their home unhindered.
section
/-! SUPPORT. O16: stores, loads, atomics and vector accesses that nothing holds back. -/

namespace Sys2Proof.Machine

/-- The atomic r, of token tok, leaves value new at its home and changes no other byte; it is answered with the value that it found,
sign-extended where sext says so. -/
def State.AtomicLeaves (s : State) (tok : Nat) (r : Req) (new : Nat) (sext : Bool) : Prop :=
  ∃ t q, exec .homeRequest s = .next t ∧ leVal (Memory.bytes t.mem r.pa r.n) = new % 2 ^ (8 * r.n) ∧
    (∀ a, (a < r.pa ∨ r.pa + r.n ≤ a) → Memory.get t.mem a = Memory.get s.mem a) ∧
    q ∈ t.reqs ∧ q.tok = tok ∧ q.st = .performed ∧ q.res = oldValue sext r.n (s.foundBy r)

theorem State.AtomicLeaves.of_mod {s : State} {tok : Nat} {r : Req} {new new' : Nat} {sext : Bool}
    (h : s.AtomicLeaves tok r new sext) (he : new % 2 ^ (8 * r.n) = new' % 2 ^ (8 * r.n)) : s.AtomicLeaves tok r new' sext := by
  unfold State.AtomicLeaves at h ⊢
  rwa [he] at h

/-! The values of the read-modify-write functions, by their low n bytes (R177). -/

section Results

variable {n old : Nat} (b : W64)

theorem amoResult_add : amoResult .add n old (b.toNat % 2 ^ (8 * n)) % 2 ^ (8 * n) = (old + b.toNat) % 2 ^ (8 * n) := by
  show (old + b.toNat % 2 ^ (8 * n)) % 2 ^ (8 * n) % 2 ^ (8 * n) = _
  rw [Nat.mod_mod, Nat.add_mod_mod]

theorem amoResult_swap : amoResult .swap n old (b.toNat % 2 ^ (8 * n)) % 2 ^ (8 * n) = b.toNat % 2 ^ (8 * n) := Nat.mod_mod _ _

theorem amoResult_and : amoResult .and n old (b.toNat % 2 ^ (8 * n)) % 2 ^ (8 * n) = (old &&& b.toNat) % 2 ^ (8 * n) := by
  show (old &&& b.toNat % 2 ^ (8 * n)) % 2 ^ (8 * n) = _
  rw [Nat.and_mod_two_pow, Nat.mod_mod, ← Nat.and_mod_two_pow]

theorem amoResult_or : amoResult .or n old (b.toNat % 2 ^ (8 * n)) % 2 ^ (8 * n) = (old ||| b.toNat) % 2 ^ (8 * n) := by
  show (old ||| b.toNat % 2 ^ (8 * n)) % 2 ^ (8 * n) = _
  rw [Nat.or_mod_two_pow, Nat.mod_mod, ← Nat.or_mod_two_pow]

theorem amoResult_xor : amoResult .xor n old (b.toNat % 2 ^ (8 * n)) % 2 ^ (8 * n) = (old ^^^ b.toNat) % 2 ^ (8 * n) := by
  show (old ^^^ b.toNat % 2 ^ (8 * n)) % 2 ^ (8 * n) = _
  rw [Nat.xor_mod_two_pow, Nat.mod_mod, ← Nat.xor_mod_two_pow]

theorem ite_mod_mod {c : Prop} [Decidable c] (x m : Nat) : (if c then x % m else old) % m = (if c then x else old) % m := by
  split
  · exact Nat.mod_mod _ _
  · rfl

theorem amoResult_nmin : amoResult .nmin n old (b.toNat % 2 ^ (8 * n)) % 2 ^ (8 * n) =
    (if b.toNat % 2 ^ (8 * n) < old then b.toNat else old) % 2 ^ (8 * n) := ite_mod_mod _ _

theorem amoResult_nmax : amoResult .nmax n old (b.toNat % 2 ^ (8 * n)) % 2 ^ (8 * n) =
    (if old < b.toNat % 2 ^ (8 * n) then b.toNat else old) % 2 ^ (8 * n) := ite_mod_mod _ _

variable (hn : 0 < n) (hold : old < 2 ^ (8 * n))
include hn hold

theorem signed_of_lt : (if old < 2 ^ (8 * n) / 2 then (old : Int) else (old : Int) - (2 ^ (8 * n) : Nat)) =
    (BitVec.ofNat (8 * n) old).toInt := by
  rw [← signed_ofNat hn, Nat.mod_eq_of_lt hold]

theorem amoResult_smin : amoResult .smin n old (b.toNat % 2 ^ (8 * n)) % 2 ^ (8 * n) =
    (if (BitVec.ofNat (8 * n) b.toNat).toInt < (BitVec.ofNat (8 * n) old).toInt then b.toNat else old) % 2 ^ (8 * n) := by
  rw [← signed_of_lt hn hold, ← signed_ofNat hn]
  exact ite_mod_mod _ _

theorem amoResult_smax : amoResult .smax n old (b.toNat % 2 ^ (8 * n)) % 2 ^ (8 * n) =
    (if (BitVec.ofNat (8 * n) old).toInt < (BitVec.ofNat (8 * n) b.toNat).toInt then b.toNat else old) % 2 ^ (8 * n) := by
  rw [← signed_of_lt hn hold, ← signed_ofNat hn]
  exact ite_mod_mod _ _

end Results

section Arrives

variable {s : State} {tok : Nat} {r : Req} (he : s.evt = .homeRequest tok) (hr : s.req tok = some r) (hlvl : r.lvl = none)
  (hk : s.keptFor r = none) (hu : s.Unhindered r)
include he hr hlvl hk hu

theorem storeArrives {v : W64} (hkind : r.kind = .store v) (hn : r.n ∈ [1, 2, 4, 8])
    (hc : s.homeCause r.who.cid r.own true r.pa r.n r.acc = none) (h : s.Sound) :
    (r.l1 = false ∨ (s.core r.who.cid).ways = [] →
       ∃ t, exec .homeRequest s = .next t ∧ Memory.bytes t.mem r.pa r.n = toLe r.n v.toNat ∧
         ∀ a, (a < r.pa ∨ r.pa + r.n ≤ a) → Memory.get t.mem a = Memory.get s.mem a) ∧
     (r.l1 = true → (s.core r.who.cid).ways ≠ [] → r.pa % r.n = 0 →
       ∃ t, exec .homeRequest s = .next t ∧ (t.core r.who.cid).l1Bytes r.pa r.n = toLe r.n v.toNat ∧
         ∀ a, a / 32 = r.pa / 32 → Memory.get t.mem a = Memory.get s.mem a) := by
  obtain ⟨t, hex, hf, hreq⟩ := exec_homeRequest_one he hr hk hu (by unfold Req.units; rw [hkind])
  obtain ⟨-, -, -, -, -, hev, -⟩ := hu
  have hn512 : r.n ≠ 512 := by rintro e; simp [e] at hn
  rw [hex, State.perform_store hf hn512 hev hkind hc]
  have ht : t.Sound := h.congr hf.mem
  refine ⟨fun hl => ⟨_, rfl, ?_⟩, fun hl hw ha => ⟨_, rfl, ?_⟩⟩
  · have hl1 : (r.l1 && !(t.core r.who.cid).ways.isEmpty) = false := by
      rw [hf.ways]
      rcases hl with hl | hl <;> simp [hl]
    rw [State.storeHome_mem hl1 hlvl, hf.mem]
    exact bytes_putAll_get h r.pa r.n v.toNat
  · have hw' : (t.core r.who.cid).ways ≠ [] := by rwa [hf.ways]
    obtain ⟨at_, hst⟩ := State.storeHome_l1 (t := t) (r := r) (v := v) (by simp [hl, hw'])
    have hleaves := State.l1Store_leaves ht (cid := r.who.cid) (pa := r.pa) (bs := toLe r.n v.toNat) hw'
      (by rw [length_toLe]; exact aligned_in_line hn ha)
    rw [length_toLe, hf.mem] at hleaves
    rw [hst]
    exact hleaves

/-- The line of L1 that a load goes through. -/
def State.loadLine (s : State) (r : Req) : Option L1Line :=
  if r.l1 = true ∧ (s.core r.who.cid).ways ≠ [] then (s.core r.who.cid).l1Line r.pa else none

theorem loadArrives {sext : Bool} (hkind : r.kind = .load sext) (hn : r.n ∈ [1, 2, 4, 8]) (ha : r.pa % r.n = 0)
    (hc : s.homeCause r.who.cid r.own true r.pa r.n r.acc = none) (h : s.Sound) :
    ∃ t q, exec .homeRequest s = .next t ∧ t.req tok = some q ∧ q.st = .performed ∧
      q.res = oldValue sext r.n (leVal ((List.range r.n).map fun k => s.seen (s.loadLine r) (r.pa + k))) ∧
      (r.l1 = false → t.mem = s.mem) := by
  obtain ⟨t, hex, hf, hreq⟩ := exec_homeRequest_one he hr hk hu (by unfold Req.units; rw [hkind])
  obtain ⟨-, -, -, -, -, hev, -⟩ := hu
  have htok : r.tok = tok := by simpa using List.find?_some hr
  have hn512 : r.n ≠ 512 := by rintro e; simp [e] at hn
  have ht : t.Sound := h.congr hf.mem
  rw [hex, State.perform_load hf hn512 hev hkind hc]
  unfold State.loadLine
  by_cases hl : r.l1 = true ∧ (s.core r.who.cid).ways ≠ []
  · obtain ⟨hl1, hw⟩ := hl
    rw [if_pos ⟨hl1, hw⟩]
    have hw' : (t.core r.who.cid).ways ≠ [] := by rwa [hf.ways]
    obtain ⟨u, at_, hcalm, hmem, hcores, hload⟩ := State.loadHome_l1 (t := t) (r := r) (sext := sext) (by simp [hl1, hw'])
    have hus : u.Sound := ht.congr hmem
    have hcore : u.core r.who.cid = t.core r.who.cid := State.core_congr hcores _
    have hfill := State.l1Fill_leaves hus (cid := r.who.cid) (pa := r.pa) (n := r.n) (by rwa [hcore]) (aligned_in_line hn ha)
    have hseen : ∀ a, u.seen ((u.core r.who.cid).l1Line r.pa) a = s.seen ((s.core r.who.cid).l1Line r.pa) a := by
      intro a
      obtain ⟨φ, hφ, hline⟩ := hf.l1Line r.who.cid r.pa
      rw [hcore, hline]
      cases (s.core r.who.cid).l1Line r.pa with
      | none => simp only [State.seen, Option.map_none, hmem, hf.mem]
      | some l => simp only [State.seen, Option.map_some, hmem, hf.mem, (hφ l).valid, (hφ l).lineByte]
    simp only [hseen] at hfill
    rw [hload, hfill]
    refine ⟨_, _, rfl, State.answer_req (r := r) ?_ (by exact htok) _ _, rfl, rfl, fun h => by simp [hl1] at h⟩
    exact (State.calm_req (hcalm.trans (State.calm_l1Fill _ _ _)) tok).trans hreq
  · rw [if_neg hl]
    have hl1 : (r.l1 && !(t.core r.who.cid).ways.isEmpty) = false := by
      rw [hf.ways]
      cases hr1 : r.l1 with
      | false => rfl
      | true =>
        have : (s.core r.who.cid).ways = [] := by
          by_contra hw
          exact hl ⟨hr1, hw⟩
        simp [this]
    obtain ⟨u, at_, hcalm, hmem, hload⟩ := State.loadHome_home (t := t) (r := r) (sext := sext) hl1 hlvl
    rw [hload, Memory.bytes_eq_map, hf.mem]
    refine ⟨_, _, rfl, State.answer_req (r := r) ((State.calm_req hcalm tok).trans hreq) (by exact htok) _ _, rfl, rfl, fun _ => ?_⟩
    exact hmem.trans hf.mem

theorem atomicArrives {f : Nat → Option Nat} {sext : Bool} (h : s.Sound) (hone : r.units = [])
    (hp : ∀ t, s.Finds t → t.perform r = t.atomicHome r f sext) :
    s.AtomicLeaves tok r ((f (s.foundBy r)).getD (s.foundBy r)) sext := by
  obtain ⟨t, hex, hf, hreq⟩ := exec_homeRequest_one he hr hk hu hone
  have ht : t.Sound := h.congr hf.mem
  obtain ⟨hval, hframe, q, hq, hst, hres⟩ := State.atomicHome_leaves ht hreq hlvl f sext
  rw [hf.foundBy] at hval hres
  refine ⟨_, q, by rw [hex, hp t hf], hval, fun a ha => ?_, List.mem_of_find?_eq_some hq, by simpa using List.find?_some hq, hst, hres⟩
  rw [hframe a ha, hf.mem]

theorem amoArrives {op : AmoOp} {b : W64} (h : s.Sound) (hn : r.n = 4 ∨ r.n = 8) (hkind : r.kind = .amo op b)
    (hc : s.homeCause r.who.cid r.own false r.pa r.n r.acc = none) :
    s.AtomicLeaves tok r (amoResult op r.n (s.foundBy r) (b.toNat % 2 ^ (8 * r.n))) (op != .fadd && r.n == 4) := by
  have ⟨_, _, _, _, _, hev, _⟩ := hu
  exact atomicArrives he hr hlvl hk hu h (by unfold Req.units; rw [hkind])
    fun t hf => State.perform_amo hf (by omega) hev hkind hc

theorem casArrives {e b : W64} (h : s.Sound) (hn : r.n = 4 ∨ r.n = 8) (hkind : r.kind = .cas e b)
    (hc : s.homeCause r.who.cid r.own false r.pa r.n r.acc = none) :
    s.AtomicLeaves tok r (if s.foundBy r = e.toNat % 2 ^ (8 * r.n) then b.toNat else s.foundBy r) (r.n == 4) := by
  have ⟨_, _, _, _, _, hev, _⟩ := hu
  refine (atomicArrives he hr hlvl hk hu h (by unfold Req.units; rw [hkind])
    fun t hf => State.perform_cas hf (by omega) hev hkind hc).of_mod ?_
  split
  · exact Nat.mod_mod _ _
  · rfl

theorem vloadArrives {us : List VUnit} {form : VForm} {m : MWord} {v : BitVec 4} {count : Nat} (hkind : r.kind = .vload us form m)
    (hdst : r.dst = .v v count) (hlanes : r.lanes = us) (hgot : r.got = []) (hbad : r.bad = none)
    (hus : ∀ u ∈ us, u.l1 = false ∧ s.awayAt u.pa = none) (hc : s.unitsCause r us = none) :
    ∃ t q, exec .homeRequest s = .next t ∧ t.req tok = some q ∧ q.st = .performed ∧ t.mem = s.mem ∧
      (q.vres, q.flags) = vresult form m v count (us.map fun u => (u, Memory.bytes s.mem u.pa u.n)) := by
  obtain ⟨t, hex, hf, hreq⟩ := exec_homeRequest he hr hk hu
  obtain ⟨-, -, -, hslots, hwake, -, -⟩ := hu
  have hunits : r.units = us := by unfold Req.units; rw [hkind]
  have hwake' : ∀ u ∈ us, s.waking u.pa = false := by
    unfold Req.spans at hwake
    rw [hkind] at hwake
    simpa using hwake
  have hgo : ∀ u ∈ us, t.unitGoes (s.takeSlots r) u = true := fun u hu =>
    State.unitGoes_of_unhindered hf hslots (by rwa [hunits]) (hwake' u hu) (hus u hu).2
  have hp : t.perform (s.takeSlots r) = t.vloadHome (s.takeSlots r) us form m := by
    unfold State.perform
    rw [show (s.takeSlots r).kind = .vload us form m from hkind]
  obtain ⟨q, hq, hst, hmem, hres⟩ := State.vloadHome_leaves form m hreq hgo (hf.unitsCause (State.unitsCause_takeSlots hc))
    (fun u hu => (hus u hu).1) hlvl hdst hlanes hgot hbad
  rw [hf.mem] at hmem hres
  exact ⟨_, q, by rw [hex, hp], hq, hst, hmem, hres⟩

theorem vstoreArrives {us : List (VUnit × Nat)} (hkind : r.kind = .vstore us) (hbad : r.bad = none)
    (hus : ∀ u ∈ us, u.1.l1 = false ∧ s.awayAt u.1.pa = none) (hc : s.unitsCause r (us.map (·.1)) = none) (h : s.Sound)
    (hd : us.Pairwise fun a b => a.1.pa + a.1.n ≤ b.1.pa ∨ b.1.pa + b.1.n ≤ a.1.pa) :
    ∃ t q, exec .homeRequest s = .next t ∧ t.req tok = some q ∧ q.st = .performed ∧
      (∀ u ∈ us, Memory.bytes t.mem u.1.pa u.1.n = toLe u.1.n u.2) ∧
      ∀ a, (∀ u ∈ us, a < u.1.pa ∨ u.1.pa + u.1.n ≤ a) → Memory.get t.mem a = Memory.get s.mem a := by
  obtain ⟨t, hex, hf, hreq⟩ := exec_homeRequest he hr hk hu
  obtain ⟨-, -, -, hslots, hwake, -, -⟩ := hu
  have hunits : r.units = us.map (·.1) := by unfold Req.units; rw [hkind]
  have hwake' : ∀ u ∈ us, s.waking u.1.pa = false := by
    unfold Req.spans at hwake
    rw [hkind] at hwake
    simpa using hwake
  have hgo : ∀ u ∈ us, t.unitGoes (s.takeSlots r) u.1 = true := fun u hu =>
    State.unitGoes_of_unhindered hf hslots (by rw [hunits]; exact List.mem_map_of_mem hu) (hwake' u hu) (hus u hu).2
  have hp : t.perform (s.takeSlots r) = t.vstoreHome (s.takeSlots r) us := by
    unfold State.perform
    rw [show (s.takeSlots r).kind = .vstore us from hkind]
  obtain ⟨q, hq, hst, hbytes, hframe⟩ := State.vstoreHome_leaves (h.congr hf.mem) hreq hgo
    (hf.unitsCause (State.unitsCause_takeSlots hc)) (fun u hu => (hus u hu).1) hlvl hbad hd
  rw [hf.mem] at hframe
  exact ⟨_, q, by rw [hex, hp], hq, hst, hbytes, hframe⟩

end Arrives

/-- Settles O16, clause by clause: a store, a load, an atomic, a vector load and a vector store that reach their homes. -/
theorem storesAndAtomicsArePerformed : Obligations.StoresAndAtomicsArePerformed := by
  refine ⟨?store, ?load, ?atomic, ?vload, ?vstore⟩
  case store =>
    intro s tok r v he hr hkind hlvl hk hu hn hc _ hs
    exact storeArrives he hr hlvl hk hu hkind hn hc hs
  case load =>
    intro s tok r sext he hr hkind hlvl hk hu hn ha hc hs
    exact loadArrives he hr hlvl hk hu hkind hn ha hc hs
  case atomic =>
    intro s tok r he hr hlvl hk hu hn hc _ hs
    have hlt := s.foundBy_lt r
    have hpos : 0 < r.n := by omega
    have amo {op : AmoOp} {b : W64} (hkind : r.kind = .amo op b) := amoArrives he hr hlvl hk hu hs hn hkind hc
    exact ⟨fun b hb => (amo hb).of_mod (amoResult_add b), fun b hb => (amo hb).of_mod (amoResult_swap b),
      fun b hb => (amo hb).of_mod (amoResult_and b), fun b hb => (amo hb).of_mod (amoResult_or b),
      fun b hb => (amo hb).of_mod (amoResult_xor b), fun b hb => (amo hb).of_mod (amoResult_smin b hpos hlt),
      fun b hb => (amo hb).of_mod (amoResult_smax b hpos hlt), fun b hb => (amo hb).of_mod (amoResult_nmin b),
      fun b hb => (amo hb).of_mod (amoResult_nmax b), fun b hb _ => amo hb,
      fun e b hb => casArrives he hr hlvl hk hu hs hn hb hc⟩
  case vload =>
    intro s tok r us form k v count he hr hkind hdst hlvl hk hu hlanes _ hgot hbad hus hc
    exact vloadArrives he hr hlvl hk hu hkind hdst hlanes hgot hbad hus hc
  case vstore =>
    intro s tok r us he hr hkind hlvl hk hu _ _ hbad hus hc hs hd
    exact vstoreArrives he hr hlvl hk hu hkind hbad hus hc hs hd

end Sys2Proof.Machine

end



-- MOVB and SETB.
section
/-! SUPPORT. Block moves and fills: what their bytes leave of the threads, and what their registers come to (R182, R183). -/

namespace Sys2Proof.Machine

/-! The bytes of a block move change no thread. -/

theorem State.sameThreads_putBytes (s : State) (part : Nat) (lvl : Option Nat) (va pa : Nat) (bs : List Byte) :
    s.SameThreads (s.putBytes part lvl va pa bs) := by
  have hgo : s.SameThreads (s.putBytesGo part lvl va pa bs) := by
    induction bs generalizing s va pa with
    | nil => exact .refl s
    | cons b bs ih =>
      have hput : s.SameThreads (s.putByte part lvl va pa b) := by
        cases lvl <;> exact .of_cores rfl rfl rfl
      exact hput.trans (ih _ _ _)
  unfold State.putBytes State.putBytesAt
  exact ((hgo.trans (State.calm_wakeWaiters _ _ _ _).sameThreads).trans (State.calm_tailReport _ _ _ _).sameThreads).trans
    (State.calm_pendReport _ _ _ _).sameThreads

theorem State.sameThreads_storeAt (s : State) (cid : Nat) (inRev : Option Nat) (x : Xl) (bs : List Byte) :
    s.SameThreads (s.storeAt cid inRev x bs) := by
  unfold State.storeAt
  extract_lets pn lvl s1 s2
  have h1 : s.SameThreads s1 := by
    dsimp only [s1]
    split
    · exact .refl s
    · rw [State.markSide_eq]
      exact .of_cores rfl rfl rfl
  split
  · exact h1.trans (s1.calm_l1Store _ _ _).sameThreads
  · have h2 : s.SameThreads s2 := (h1.trans (s1.calm_l2Wrote _ _ _).sameThreads).trans (State.sameThreads_putBytes _ _ _ _ _ _)
    split
    · exact h2.trans (State.calm_l1Echo _ _ _ _).sameThreads
    · exact h2

theorem State.sameThreads_mvXl (s : State) (va : Nat) (nd : Need) : s.SameThreads (s.mvXl va nd).2.1 := by
  unfold State.mvXl
  dsimp only
  split
  · exact .refl s
  · exact .refl s
  · exact .refl s
  · rename_i x s1 hx
    have h1 : s.SameThreads { s1 with cur := { s1.cur with remote := s1.cur.remote || decide (2 ^ 48 ≤ x.pa) } } :=
      (calm_xlate hx).sameThreads.trans (.of_cores rfl rfl rfl)
    split
    · exact .refl s
    · split <;> exact h1

theorem Mv.sameThreads_put (m : Mv) (dst : Nat) (b : Byte) (lr : Nat) : m.s.SameThreads (m.put dst b lr).s := by
  have hx := m.s.sameThreads_mvXl dst needStore
  unfold Mv.put
  split
  · rename_i x s hmv
    rw [hmv] at hx
    have hstore := hx.trans (s.sameThreads_storeAt s.cur.cid (s.inRev s.me) x [b])
    dsimp only
    split
    · exact .refl _
    · split
      · exact .refl _
      · split
        · split <;> exact .refl _
        · dsimp only
          split
          · exact hstore
          · exact hstore.trans (State.calm_noteMet _ _ _ _).sameThreads
  · exact .refl _

theorem sameThreads_moveGo (fill : Option (Byte × Byte)) (dst src : W64) (n : Nat) (m : Mv) :
    m.s.SameThreads (moveGo fill dst src n m).s := by
  induction n generalizing m with
  | zero => exact .refl _
  | succ n ih =>
    have hbyte : m.s.SameThreads (match fill with
        | some (b, c) => m.put (dst + BitVec.ofNat 64 m.k).toNat (b + c * BitVec.ofNat 8 m.k) 0
        | none =>
          match m.s.mvXl (src + BitVec.ofNat 64 m.k).toNat needLoad with
          | (x, s, .none) =>
            if s.ownAtomic x 1 || !s.slotFor x (s.myLevel (src + BitVec.ofNat 64 m.k).toNat) 1 then { m with stop := .wait }
            else
              { m with s := (s.readHere x (s.myLevel (src + BitVec.ofNat 64 m.k).toNat) 1).2 }.put (dst + BitVec.ofNat 64 m.k).toNat
                ((s.readHere x (s.myLevel (src + BitVec.ofNat 64 m.k).toNat) 1).1.headD 0#8)
                (s.readLat s.cur.cid x (s.myLevel (src + BitVec.ofNat 64 m.k).toNat) 1)
          | (_, _, e) => { m with stop := e }).s := by
      split
      · exact m.sameThreads_put _ _ _
      · split
        · rename_i x s hmv
          have hx := m.s.sameThreads_mvXl (src + BitVec.ofNat 64 m.k).toNat needLoad
          rw [hmv] at hx
          split
          · exact .refl _
          · exact (hx.trans (s.calm_readHere _ _ _).sameThreads).trans (Mv.sameThreads_put { m with s := _ } _ _ _)
        · exact .refl _
    unfold moveGo
    extract_lets d a m1
    have h1 : m.s.SameThreads m1.s := hbyte
    split
    · exact h1.trans (ih m1)
    · exact h1

/-! The registers at the end. -/

theorem State.Stands.regVal_writeMine {s : State} (hs : s.Stands) {n : BitVec 4} {r : SReg} (v : W64) (hr : ∃ k, r = .s k) :
    (s.writeMine (.s n) v).regVal r = if r = .s n then v else s.regVal r := by
  obtain ⟨k, rfl⟩ := hr
  obtain ⟨-, hself, hne⟩ := hs.writeMine (.s n) v
  show ((s.writeMine (.s n) v).me.regs.s.get k.toFin).val = _
  split
  · rename_i he
    rw [hself k he.symm]
    rfl
  · rename_i he
    rw [hne k fun e => he e.symm]
    rfl

/-- A register that an instruction may write, other than zr, is one of s. -/
theorem Usable.isS {u : Uses} {s : State} (h : Usable u s) {r : SReg} (hr : r ∈ u.sw) (hz : r ≠ .zr) : ∃ k, r = .s k := by
  have hw := h.writable r hr
  cases r with
  | s k => exact ⟨k, rfl⟩
  | zr => exact absurd rfl hz
  | _ => exact absurd hw (by simp [Thread.readOnly])

/-- The registers of a block move that has ended: each that it writes has gone on by the bytes moved, or back. -/
theorem State.Stands.moved_whole {s : State} (hs : s.Stands) {rd ra rb : SReg} {fill : Bool} (k : Nat) (hd : ∃ n, rd = .s n)
    (hb : ∃ n, rb = .s n) (hdb : rd ≠ rb) (ha : fill = false → (∃ n, ra = .s n) ∧ rd ≠ ra ∧ ra ≠ rb) :
    (s.moved rd ra rb fill true k).Stands ∧ (s.moved rd ra rb fill true k).regVal rd = s.regVal rd + BitVec.ofNat 64 k ∧
      (s.moved rd ra rb fill true k).regVal rb = s.regVal rb - BitVec.ofNat 64 k ∧
      (fill = false → (s.moved rd ra rb fill true k).regVal ra = s.regVal ra + BitVec.ofNat 64 k) ∧
      (s.me.sh = 0 → (s.moved rd ra rb fill true k).mem = s.mem) := by
  obtain ⟨d, rfl⟩ := hd
  obtain ⟨b, rfl⟩ := hb
  have h1 := (hs.writeMine (.s d) (s.regVal (.s d) + BitVec.ofNat 64 k)).1
  have hmem1 := fun hsh => hs.writeMine_mem hsh (.s d) (s.regVal (.s d) + BitVec.ofNat 64 k)
  have hreg1 : ∀ r, (∃ k, r = .s k) → (s.writeMine (.s d) (s.regVal (.s d) + BitVec.ofNat 64 k)).regVal r =
      if r = .s d then s.regVal (.s d) + BitVec.ofNat 64 k else s.regVal r := fun r hr => hs.regVal_writeMine _ hr
  have hsh1 : s.me.sh = 0 → (s.writeMine (.s d) (s.regVal (.s d) + BitVec.ofNat 64 k)).me.sh = 0 := fun h => by rw [h1.me]; exact h
  generalize hs1 : s.writeMine (.s d) (s.regVal (.s d) + BitVec.ofNat 64 k) = s1 at h1 hmem1 hreg1 hsh1
  have h2 := (h1.stands.writeMine (.s b) (s.regVal (.s b) - BitVec.ofNat 64 k)).1
  have hmem2 := fun hsh => h1.stands.writeMine_mem hsh (.s b) (s.regVal (.s b) - BitVec.ofNat 64 k)
  have hreg2 : ∀ r, (∃ k, r = .s k) → (s1.writeMine (.s b) (s.regVal (.s b) - BitVec.ofNat 64 k)).regVal r =
      if r = .s b then s.regVal (.s b) - BitVec.ofNat 64 k else s1.regVal r := fun r hr => h1.stands.regVal_writeMine _ hr
  have hsh2 : s1.me.sh = 0 → (s1.writeMine (.s b) (s.regVal (.s b) - BitVec.ofNat 64 k)).me.sh = 0 := fun h => by rw [h2.me]; exact h
  generalize hs2 : s1.writeMine (.s b) (s.regVal (.s b) - BitVec.ofNat 64 k) = s2 at h2 hmem2 hreg2 hsh2
  have hrd : s2.regVal (.s d) = s.regVal (.s d) + BitVec.ofNat 64 k := by
    rw [hreg2 _ ⟨d, rfl⟩, if_neg hdb, hreg1 _ ⟨d, rfl⟩, if_pos rfl]
  have hrb : s2.regVal (.s b) = s.regVal (.s b) - BitVec.ofNat 64 k := by
    rw [hreg2 _ ⟨b, rfl⟩, if_pos rfl]
  have hm2 : s.me.sh = 0 → s2.mem = s.mem := fun h => (hmem2 (hsh1 h)).trans (hmem1 h)
  cases fill with
  | true =>
    have he : s.moved (.s d) ra (.s b) true true k = s2 := by
      rw [← hs2, ← hs1]
      rfl
    rw [he]
    exact ⟨h2.stands, hrd, hrb, fun h => absurd h (by simp), hm2⟩
  | false =>
    obtain ⟨⟨a, rfl⟩, hda, hab⟩ := ha rfl
    have he : s.moved (.s d) (.s a) (.s b) false true k = s2.writeMine (.s a) (s.regVal (.s a) + BitVec.ofNat 64 k) := by
      rw [← hs2, ← hs1]
      rfl
    rw [he, h2.stands.regVal_writeMine _ ⟨d, rfl⟩, h2.stands.regVal_writeMine _ ⟨b, rfl⟩, h2.stands.regVal_writeMine _ ⟨a, rfl⟩,
      if_neg hda, if_neg (Ne.symm hab), if_pos rfl]
    exact ⟨(h2.stands.writeMine _ _).1.stands, hrd, hrb, fun _ => rfl,
      fun h => (h2.stands.writeMine_mem (hsh2 (hsh1 h)) _ _).trans (hm2 h)⟩

/-- A bundle held for some cycles keeps its registers and memory. -/
theorem run_holdFor_regVal {s : State} (hs : s.Stands) (v : W64) (lat : Nat) {r : SReg} (hr : ∃ k, r = .s k) :
    (run (holdFor s v lat)).regVal r = s.regVal r := by
  obtain ⟨k, rfl⟩ := hr
  have hth : s.SameThreads ((s.fresh.2.addReq { s.valueReq v lat with holds := true }).after s.cur.cid lat (.loadResponse s.ctr)) :=
    (s.calm_fresh.sameThreads.trans (State.sameThreads_addReq _ _)).trans (State.calm_after _ _ _ _).sameThreads
  have hx : run (holdFor s v lat) = run (holdOn ((s.fresh.2.addReq { s.valueReq v lat with holds := true }).after s.cur.cid lat
    (.loadResponse s.ctr)) s.ctr) := rfl
  have hregs : (run (holdFor s v lat)).me.regs = s.me.regs := by
    rw [hx]
    generalize ((s.fresh.2.addReq { s.valueReq v lat with holds := true }).after s.cur.cid lat (.loadResponse s.ctr)) = t at hth
    have hh : ({ t with cur := { t.cur with res := .held } } : State).Stands := (hth.stands hs).congr rfl rfl rfl
    unfold holdOn run
    dsimp only
    rw [hh.me_updMe]
    show t.me.regs = _
    rw [hth.me]
  show ((run (holdFor s v lat)).me.regs.s.get k.toFin).val = _
  rw [hregs]
  rfl

theorem run_holdFor_mem (s : State) (v : W64) (lat : Nat) : (run (holdFor s v lat)).mem = s.mem := by
  obtain ⟨t, ht, -, hm, -⟩ := holdFor_leaves s v lat
  rw [ht]
  exact hm

/-! The instructions. -/

/-- A bundle whose hold has ended, with a value that is not partVal, has no progress. -/
theorem State.progress_of_done {s : State} {v : W64} (h : s.me.hold = .done v) (hv : v ≠ partVal) : s.progress = none := by
  unfold State.progress
  rw [h]
  exact if_neg fun e => hv (Hold.done.inj e)

theorem State.progress_of_none {s : State} (h : s.me.hold = .none) : s.progress = none := by
  unfold State.progress
  rw [h]
  rfl

section

variable {h : Hdr} {rd ra rb : SReg} {fill : Bool} {s : State}
  (hz : ((if fill then [rd, rb] else [rd, ra, rb]).any (· == SReg.zr)) = false)
  (hg : gateC { Uses.none with sr := [rd, ra, rb], sw := if fill then [rd, rb] else [rd, ra, rb] } s = .ok ())
include hz hg

theorem moveOp_done {v : W64} (hd : s.me.hold = .done v) (hv : v ≠ partVal) :
    moveOp h rd ra rb fill s = .ok (commitNext s h .drops (loneW h)) := by
  unfold moveOp
  dsimp only
  rw [if_neg (by rw [hz]; exact Bool.false_ne_true), hg, State.doneVal_of_done hd, State.progress_of_done hd hv]
  rfl

variable (hn : s.me.hold = .none) (ha : s.acqBlocked = false)
include hn ha

theorem moveOp_empty (h0 : (s.regVal rb).toNat = 0) : moveOp h rd ra rb fill s = .ok (commitNext s h .drops (loneW h)) := by
  unfold moveOp
  dsimp only
  rw [if_neg (by rw [hz]; exact Bool.false_ne_true), hg, State.doneVal_of_none hn, State.progress_of_none hn, memGate_ok ha]
  simp only [bind, Except.bind, h0]
  rfl

/-- The bytes of a block move's first cycle. -/
def State.firstBytes (s : State) (rd ra rb : SReg) (fill : Bool) : Mv :=
  moveGo (if fill then some (s.fillOf rd ra rb) else none) (s.regVal rd) (s.regVal ra)
    (min (moveRate fill (s.regVal rd).toNat (s.regVal ra).toNat (s.regVal rb).toNat) (s.regVal rb).toNat)
    { s := s, k := 0, lr := 0, lw := 0, stop := .none }

theorem moveOp_whole (h0 : 0 < (s.regVal rb).toNat) (hstop : (s.firstBytes rd ra rb fill).stop = .none)
    (hk : (s.firstBytes rd ra rb fill).k = (s.regVal rb).toNat) :
    moveOp h rd ra rb fill s = holdFor ((s.firstBytes rd ra rb fill).s.moved rd ra rb fill true (s.regVal rb).toNat) 0#64
      ((s.firstBytes rd ra rb fill).lr + (s.firstBytes rd ra rb fill).lw + 1) := by
  have h0' : ((s.regVal rb).toNat = 0) = False := by simp; omega
  unfold moveOp
  dsimp only
  rw [if_neg (by rw [hz]; exact Bool.false_ne_true), hg, State.doneVal_of_none hn, State.progress_of_none hn, memGate_ok ha]
  simp only [bind, Except.bind, h0', decide_false, Bool.false_and, Bool.false_eq_true, if_false]
  show (match (s.firstBytes rd ra rb fill).stop with
    | .cause c va => _
    | .home x acc c => _
    | .page va acc => _
    | .wait => _
    | .held x b => _
    | .none => _) = _
  rw [hstop]
  dsimp only
  show (if (s.firstBytes rd ra rb fill).k < (s.regVal rb).toNat then _ else holdFor ((s.firstBytes rd ra rb fill).s.moved rd ra rb fill
    true (s.firstBytes rd ra rb fill).k) 0#64 _) = _
  rw [hk, if_neg (Nat.lt_irrefl _)]
  rfl

end

/-- A block move whose bytes are all moved in its first cycle holds its thread, its registers advanced. -/
theorem moveOp_leaves {h : Hdr} {rd ra rb : SReg} {fill : Bool} {s : State} (hs : s.Stands)
    (hz : ((if fill then [rd, rb] else [rd, ra, rb]).any (· == SReg.zr)) = false)
    (hg : gateC { Uses.none with sr := [rd, ra, rb], sw := if fill then [rd, rb] else [rd, ra, rb] } s = .ok ())
    (hn : s.me.hold = .none) (hacq : s.acqBlocked = false) (hd : ∃ n, rd = .s n)
    (hb : ∃ n, rb = .s n) (hdb : rd ≠ rb) (ha : fill = false → (∃ n, ra = .s n) ∧ rd ≠ ra ∧ ra ≠ rb)
    (h0 : 0 < (s.regVal rb).toNat) (hstop : (s.firstBytes rd ra rb fill).stop = .none)
    (hk : (s.firstBytes rd ra rb fill).k = (s.regVal rb).toNat) :
    (run (moveOp h rd ra rb fill s)).cur.res = .held ∧ (run (moveOp h rd ra rb fill s)).regVal rd = s.regVal rd + s.regVal rb ∧
      (run (moveOp h rd ra rb fill s)).regVal rb = 0#64 ∧
      (fill = false → (run (moveOp h rd ra rb fill s)).regVal ra = s.regVal ra + s.regVal rb) ∧
      (s.me.sh = 0 → (run (moveOp h rd ra rb fill s)).mem = (s.firstBytes rd ra rb fill).s.mem) := by
  have hth : s.SameThreads (s.firstBytes rd ra rb fill).s :=
    sameThreads_moveGo _ _ _ _ { s := s, k := 0, lr := 0, lw := 0, stop := .none }
  have hreg : ∀ r, (∃ k, r = .s k) → (s.firstBytes rd ra rb fill).s.regVal r = s.regVal r := by
    rintro r ⟨k, rfl⟩
    show ((s.firstBytes rd ra rb fill).s.me.regs.s.get k.toFin).val = _
    rw [hth.me]
    rfl
  obtain ⟨hst, hrd, hrb, hra, hmem⟩ := (hth.stands hs).moved_whole (s.regVal rb).toNat hd hb hdb ha
  rw [moveOp_whole hz hg hn hacq h0 hstop hk]
  rw [hreg rd hd, BitVec.ofNat_toNat, BitVec.setWidth_eq] at hrd
  rw [hreg rb hb, BitVec.ofNat_toNat, BitVec.setWidth_eq, BitVec.sub_self] at hrb
  rw [hth.me] at hmem
  refine ⟨(run_holdFor hst _ _).1, by rw [run_holdFor_regVal hst _ _ hd, hrd], by rw [run_holdFor_regVal hst _ _ hb, hrb], fun hf => ?_,
    fun hsh => (run_holdFor_mem _ _ _).trans (hmem hsh)⟩
  obtain ⟨has, -, -⟩ := ha hf
  have hra' := hra hf
  rw [hreg ra has, BitVec.ofNat_toNat, BitVec.setWidth_eq] at hra'
  rw [run_holdFor_regVal hst _ _ has, hra']

end Sys2Proof.Machine

end



-- CMO.
section
/-! SUPPORT. The cache operations: a page's part of a range, in L1 and at the home slices (R181, R354). -/

namespace Sys2Proof.Machine

/-! Lines that are cleaned go home. -/

/-- Lines cleaned one after the other leave the bytes of another line. -/
theorem State.get_foldl_cleanLine_ne {s : State} (h : s.Sound) (ls : List L1Line) {a : Nat} (ha : ∀ l ∈ ls, l.line ≠ a / 32) :
    Memory.get (ls.foldl (fun s l => s.cleanLine l) s).mem a = Memory.get s.mem a := by
  induction ls generalizing s with
  | nil => rfl
  | cons l ls ih =>
    rw [List.forall_mem_cons] at ha
    obtain ⟨hl, hls⟩ := ha
    exact (ih (h.cleanLine l) hls).trans ((State.get_cleanLine h l a).trans (if_neg fun hh => hl hh.2.1.symm))

/-- Each dirty byte of some distinct lines without an error is at its home once they are cleaned. -/
theorem State.get_foldl_cleanLine {s : State} (h : s.Sound) {ls : List L1Line} (hd : (ls.map (·.line)).Nodup) {l : L1Line}
    (hl : l ∈ ls) (hb : l.bad = false) {k : Nat} (hk : k < 32) (hdirty : l.dirty.getLsbD k = true) :
    Memory.get (ls.foldl (fun s l => s.cleanLine l) s).mem (l.line * 32 + k) = lineByte l k := by
  have hdiv : (l.line * 32 + k) / 32 = l.line := by omega
  have hmod : (l.line * 32 + k) % 32 = k := by omega
  induction ls generalizing s with
  | nil => cases hl
  | cons m ls ih =>
    rw [List.map_cons, List.nodup_cons] at hd
    obtain ⟨hm, hd⟩ := hd
    rcases List.mem_cons.1 hl with rfl | hl
    · have hne : ∀ x ∈ ls, x.line ≠ (l.line * 32 + k) / 32 := fun x hx e =>
        hm (List.mem_map.2 ⟨x, hx, e.trans hdiv⟩)
      refine (State.get_foldl_cleanLine_ne (h.cleanLine l) ls hne).trans ?_
      rw [State.get_cleanLine h, hdiv, hmod, if_pos ⟨hb, rfl, hdirty⟩]
    · exact ih (h.cleanLine m) hd hl

theorem State.get_l1Clean {s : State} (h : s.Sound) {cid : Nat} {p : L1Line → Bool} (hd : ((s.core cid).l1.map (·.line)).Nodup)
    (hsp : s.spoiltLine cid p = none) {l : L1Line} (hl : l ∈ (s.core cid).l1) (hp : p l = true) {k : Nat} (hk : k < 32)
    (hdirty : l.dirty.getLsbD k = true) : Memory.get (s.l1Clean cid p).2.mem (l.line * 32 + k) = lineByte l k := by
  have hne : l.dirty ≠ 0#32 := by
    intro e
    rw [e] at hdirty
    simp at hdirty
  have hb : l.bad = false := by
    unfold State.spoiltLine at hsp
    rw [Option.map_eq_none_iff, List.find?_eq_none] at hsp
    have := hsp l hl
    simpa [hp, L1Line.spoilt, hne] using this
  refine State.get_foldl_cleanLine h (ls := (s.core cid).l1.filter fun l => p l && l.dirty != 0#32) ?_ ?_ hb hk hdirty
  · exact hd.sublist (List.filter_sublist.map _)
  · rw [List.mem_filter]
    exact ⟨hl, by simp [hp, hne]⟩

theorem State.l1Drop_none (s : State) (cid : Nat) (p : L1Line → Bool) : ∀ l ∈ ((s.l1Drop cid p).core cid).l1, p l = false := by
  intro l hl
  unfold State.l1Drop at hl
  rw [State.core_updCore_self] at hl
  simpa using (List.mem_filter.1 hl).2

/-! The slots of a part's lines. -/

/-- Only what the issuing bundle remembers of its accesses has changed. -/
def State.Noted (s t : State) : Prop := ∃ m, t = { s with cur := { s.cur with met := m } }

theorem State.Noted.spoiltLine {s t : State} (h : s.Noted t) (p : L1Line → Bool) :
    t.spoiltLine t.cur.cid p = s.spoiltLine s.cur.cid p := by
  obtain ⟨m, rfl⟩ := h
  rfl

theorem State.lineSlots_ok {s : State} {size : Nat} {ls : List Nat} (cycles : Nat)
    (hp : s.portFree s.cur.cid ((ls.map fun l => s.homeOf (l * size)).eraseDups) = true) :
    ∃ t, s.lineSlots size ls cycles = .ok t ∧ s.Noted t := by
  unfold State.lineSlots
  dsimp only
  rw [hp]
  refine ⟨_, rfl, ?_⟩
  clear hp
  induction ls generalizing s with
  | nil => exact ⟨s.cur.met, rfl⟩
  | cons l ls ih =>
    obtain ⟨m, hm⟩ := ih (s := s.noteMet (l * size) true cycles)
    exact ⟨m, hm⟩

/-! A range on one page. -/

theorem overRange_page {nd : Need} {f : State → Xl → Nat → Except State (Nat × Option (Nat × Nat) × State)} {a b : W64}
    {s s' s2 : State} {x : Xl} {l : Nat} {w : Option (Nat × Nat)} (hb : 0 < b.toNat) (hab : a.toNat % 65536 + b.toNat ≤ 65536)
    (hlo : 0x100000 ≤ a.toNat) (hmesh : inMesh a.toNat = false) (hx : access s a 1 1 nd true = .ok (x, s'))
    (hf : f s' x b.toNat = .ok (l, w, s2)) :
    ∃ r, overRange true nd f a.toNat b.toNat 0 (b.toNat / 0x10000 + 2) s { done := 0, lines := 0, ack := 0 } = .ok (r, s2) := by
  have hk : min (b.toNat - 0) (0x10000 - (a.toNat + 0) % 2 ^ 64 % 0x10000) = b.toNat := by omega
  have hmod : (a.toNat + 0) % 2 ^ 64 = a.toNat := Nat.mod_eq_of_lt a.isLt
  have ha : BitVec.ofNat 64 a.toNat = a := by rw [BitVec.ofNat_toNat, BitVec.setWidth_eq]
  have hskip : (true && (decide (a.toNat < 0x100000) || inMesh a.toNat)) = false := by
    rw [hmesh, decide_eq_false (Nat.not_lt.2 hlo)]
    rfl
  rw [show b.toNat / 0x10000 + 2 = (b.toNat / 0x10000 + 1) + 1 from rfl]
  unfold overRange
  rw [if_neg (Nat.not_le.2 hb)]
  dsimp only
  rw [hk, hmod, hskip, if_neg Bool.false_ne_true, ha, hx]
  dsimp only
  rw [hf]
  dsimp only
  unfold overRange
  rw [if_pos (by simp)]
  exact ⟨_, rfl⟩

/-! The operations on a page's part. -/

/-- The numbers of the lines of L1 that an operation writes home: the dirty ones that k bytes at x's address meet. -/
def State.cmoDirty (s : State) (op : CmoOp) (x : Xl) (k : Nat) : List Nat :=
  if op = .inval then [] else ((s.core s.cur.cid).l1.filter fun l => l.over x.pa k && l.dirty != 0#32).map (·.line)

/-- What an operation leaves of the lines of L1 that meet its part. -/
def State.cmoPart (t : State) (op : CmoOp) (cid : Nat) (p : L1Line → Bool) : State :=
  match op with
  | .clean => (t.l1Clean cid p).2
  | .inval => t.l1Drop cid p
  | .flush => (t.l1Clean cid p).2.l1Drop cid p

/-- A part of a range in L1, where no line is refused or spoilt and the homes have their slots. -/
theorem cmoL1_ok {op : CmoOp} {s : State} {x : Xl} {k : Nat} (hr : s.refusedLine x k 32 op.acc (s.cmoDirty op x k) = none)
    (hp : s.portFree s.cur.cid (((s.cmoDirty op x k).map fun l => s.homeOf (l * 32)).eraseDups) = true)
    (hsp : op ≠ .inval → s.spoiltLine s.cur.cid (·.over x.pa k) = none) :
    ∃ w t, s.Noted t ∧ cmoL1 op s x k = .ok (linesOf 32 x.pa k, w, t.cmoPart op s.cur.cid (·.over x.pa k)) := by
  unfold cmoL1
  extract_lets cid meets dirty last
  have hr' : s.refusedLine x k 32 op.acc dirty = none := hr
  obtain ⟨t, ht, hnote⟩ := State.lineSlots_ok (size := 32) (ls := dirty) ((last.map fun w => w.1 + w.2).getD 0) hp
  refine ⟨last, t, hnote, ?_⟩
  rw [hr']
  simp only [bind, Except.bind, ht, pure, Except.pure]
  cases op with
  | inval => rfl
  | clean =>
    have hst : spoiltStop t (t.l1Clean cid meets).2 CmoOp.clean.acc meets x.lineVa = .ok () := by
      unfold spoiltStop
      rw [hnote.spoiltLine, hsp (by simp)]
    simp [hst, State.cmoPart, cid, meets]
  | flush =>
    have hst : spoiltStop t (t.l1Clean cid meets).2 CmoOp.flush.acc meets x.lineVa = .ok () := by
      unfold spoiltStop
      rw [hnote.spoiltLine, hsp (by simp)]
    simp [hst, State.cmoPart, cid, meets]

/-- What an operation at the home slices leaves of memory. -/
def State.cmoMem (s : State) (op : CmoOp) (x : Xl) (k : Nat) : List Host.Cell :=
  if op = .inval then (s.l2.filter fun l => l.over x.pa k).foldl (fun m l => l.under.foldl (fun m c => Memory.put m c.1 c.2) m) s.mem
  else s.mem

/-- What an operation at the home slices leaves of L2. -/
def State.cmoL2Lines (s : State) (op : CmoOp) (x : Xl) (k : Nat) : List L2Line :=
  if op = .clean then s.l2.map fun l => if l.over x.pa k then { l with under := [] } else l
  else s.l2.filter fun l => !l.over x.pa k

/-- The numbers of the lines of the home slices that k bytes at x's address meet. -/
def slicesOver (x : Xl) (k : Nat) : List Nat := (List.range (linesOf 256 x.pa k)).map (x.pa / 256 + ·)

theorem cmoL2_ok {op : CmoOp} {s : State} {x : Xl} {k d : Nat} (hd : s.loc x.pa = .dram d)
    (hr : s.refusedLine x k 256 op.acc (slicesOver x k) = none)
    (hp : s.portFree s.cur.cid (((slicesOver x k).map fun l => s.homeOf (l * 256)).eraseDups) = true) :
    ∃ w t, s.Noted t ∧ cmoL2 op s x k = .ok (linesOf 256 x.pa k, w, { t with mem := s.cmoMem op x k, l2 := s.cmoL2Lines op x k }) := by
  unfold cmoL2
  rw [hd]
  extract_lets ls
  have hr' : s.refusedLine x k 256 op.acc ls = none := hr
  obtain ⟨t, ht, hnote⟩ := State.lineSlots_ok (size := 256) (ls := ls)
    (((s.lastWrite x.pa 256 false ls).map fun w => w.1 + w.2).getD 0) hp
  rw [hr']
  simp only [bind, Except.bind, ht, pure, Except.pure]
  obtain ⟨m, rfl⟩ := hnote
  exact ⟨_, _, ⟨m, rfl⟩, rfl⟩

/-! The instruction. -/

section

variable {h : Hdr} {op : CmoOp} {ra rb : SReg} {l2 : Bool} {s : State} (hsys : op = .inval → l2 = true → s.me.sys = true)
include hsys

theorem cmoOp_allowed : (op = .inval && l2 && !s.me.sys) = false := by
  by_cases ho : op = .inval
  · cases l2 with
    | true => simp [hsys ho rfl]
    | false => simp
  · simp [ho]

variable (hg : gateC { Uses.none with sr := [ra, rb] } s = .ok ())
include hg

theorem cmoOp_done {v : W64} (hd : s.me.hold = .done v) (hv : v ≠ partVal) :
    cmoOp h op ra rb l2 s = .ok (commitNext s h .drops (loneW h)) := by
  unfold cmoOp
  rw [cmoOp_allowed hsys, if_neg Bool.false_ne_true, hg, State.doneVal_of_done hd, State.progress_of_done hd hv]
  rfl

variable (hn : s.me.hold = .none) (ha : s.acqBlocked = false)
include hn ha

theorem cmoOp_empty (h0 : (s.regVal rb).toNat = 0) : cmoOp h op ra rb l2 s = .ok (commitNext s h .drops (loneW h)) := by
  unfold cmoOp
  rw [cmoOp_allowed hsys, if_neg Bool.false_ne_true, hg, State.doneVal_of_none hn, memGate_ok ha]
  simp only [bind, Except.bind, h0]
  rfl

/-- A range on one page, whose part is dealt with and leaves s2: the bundle holds its thread from there. -/
theorem cmoOp_page {x : Xl} {s' s2 : State} {l : Nat} {w : Option (Nat × Nat)} (hb : 0 < (s.regVal rb).toNat)
    (hab : (s.regVal ra).toNat % 65536 + (s.regVal rb).toNat ≤ 65536) (hlo : 0x100000 ≤ (s.regVal ra).toNat)
    (hmesh : inMesh (s.regVal ra).toNat = false)
    (hx : access s (s.regVal ra) 1 1 (if op = .clean then needLoad else needStore) true = .ok (x, s'))
    (hf : (if l2 then cmoL2 op else cmoL1 op) s' x (s.regVal rb).toNat = .ok (l, w, s2)) :
    ∃ n, cmoOp h op ra rb l2 s = holdFor s2 0#64 n := by
  obtain ⟨r, ho⟩ := overRange_page (f := if l2 then cmoL2 op else cmoL1 op) hb hab hlo hmesh hx hf
  have hr0 : s.rangeFrom = { done := 0, lines := 0, ack := 0 } := by
    unfold State.rangeFrom
    rw [State.progress_of_none hn]
  refine ⟨r.hold, ?_⟩
  unfold cmoOp
  rw [cmoOp_allowed hsys, if_neg Bool.false_ne_true, hg, State.doneVal_of_none hn, memGate_ok ha, hr0]
  simp only [bind, Except.bind, if_neg (Nat.pos_iff_ne_zero.1 hb), ho]

end

theorem run_holdFor_res (s : State) (v : W64) (lat : Nat) : (run (holdFor s v lat)).cur.res = .held := by
  obtain ⟨t, ht, hres, -⟩ := holdFor_myCore s v lat
  rw [ht]
  exact hres

/-- A bundle that holds its thread keeps L2, and L1 of its core. -/
theorem run_holdFor_caches (s : State) (v : W64) (lat : Nat) :
    (run (holdFor s v lat)).l2 = s.l2 ∧ (run (holdFor s v lat)).myCore.l1 = s.myCore.l1 := by
  refine ⟨?_, ?_⟩
  · have hl2 : (run (holdFor s v lat)).l2 = (s.fresh.2.sentMsgs s.cur.cid ({ s.valueReq v lat with holds := true } : Req).msgs).l2 := by
      unfold holdFor holdOn run
      dsimp only
      rw [State.updMe_l2]
      rfl
    rw [hl2, State.sentMsgs_l2]
    rfl
  · obtain ⟨t, ht, -, -, sl, ru, n, hcore⟩ := holdFor_myCore s v lat
    rw [ht]
    show t.myCore.l1 = _
    rw [hcore]

theorem State.cmoPart_cid (t : State) (op : CmoOp) (cid : Nat) (p : L1Line → Bool) : (t.cmoPart op cid p).cur.cid = t.cur.cid := by
  cases op with
  | clean => exact (t.calm_l1Clean cid p).cid
  | inval => rfl
  | flush => exact (t.calm_l1Clean cid p).cid

section

variable {h : Hdr} {op : CmoOp} {ra rb : SReg} {s s' : State} {x : Xl} (hg : gateC { Uses.none with sr := [ra, rb] } s = .ok ())
  (hn : s.me.hold = .none) (ha : s.acqBlocked = false) (hb : 0 < (s.regVal rb).toNat)
  (hab : (s.regVal ra).toNat % 65536 + (s.regVal rb).toNat ≤ 65536) (hlo : 0x100000 ≤ (s.regVal ra).toNat)
  (hmesh : inMesh (s.regVal ra).toNat = false)
  (hx : access s (s.regVal ra) 1 1 (if op = .clean then needLoad else needStore) true = .ok (x, s'))
include hg hn ha hb hab hlo hmesh hx

theorem cmo_l1_holds (hr : s'.refusedLine x (s.regVal rb).toNat 32 op.acc (s'.cmoDirty op x (s.regVal rb).toNat) = none)
    (hp : s'.portFree s'.cur.cid (((s'.cmoDirty op x (s.regVal rb).toNat).map fun l => s'.homeOf (l * 32)).eraseDups) = true)
    (hsp : op ≠ .inval → s'.spoiltLine s'.cur.cid (·.over x.pa (s.regVal rb).toNat) = none) :
    ∃ u, s'.Noted u ∧ (run (cmoOp h op ra rb false s)).cur.res = .held ∧
      (run (cmoOp h op ra rb false s)).mem = (u.cmoPart op s'.cur.cid (·.over x.pa (s.regVal rb).toNat)).mem ∧
      (run (cmoOp h op ra rb false s)).myCore.l1 =
        ((u.cmoPart op s'.cur.cid (·.over x.pa (s.regVal rb).toNat)).core s'.cur.cid).l1 := by
  obtain ⟨w, u, hu, hf⟩ := cmoL1_ok hr hp hsp
  obtain ⟨n, he⟩ := cmoOp_page (h := h) (l2 := false) (fun _ h => by cases h) hg hn ha hb hab hlo hmesh hx hf
  have hcid : (u.cmoPart op s'.cur.cid (·.over x.pa (s.regVal rb).toNat)).cur.cid = s'.cur.cid := by
    rw [State.cmoPart_cid]
    obtain ⟨m, rfl⟩ := hu
    rfl
  refine ⟨u, hu, ?_⟩
  rw [he]
  generalize u.cmoPart op s'.cur.cid (·.over x.pa (s.regVal rb).toNat) = v at hcid ⊢
  refine ⟨run_holdFor_res _ _ _, run_holdFor_mem _ _ _, ?_⟩
  rw [(run_holdFor_caches v 0#64 n).2]
  unfold State.myCore
  rw [hcid]

theorem cmo_l2_holds (hsys : op = .inval → s.me.sys = true) {d : Nat} (hd : s'.loc x.pa = .dram d)
    (hr : s'.refusedLine x (s.regVal rb).toNat 256 op.acc (slicesOver x (s.regVal rb).toNat) = none)
    (hp : s'.portFree s'.cur.cid (((slicesOver x (s.regVal rb).toNat).map fun l => s'.homeOf (l * 256)).eraseDups) = true) :
    (run (cmoOp h op ra rb true s)).cur.res = .held ∧
      (run (cmoOp h op ra rb true s)).mem = s'.cmoMem op x (s.regVal rb).toNat ∧
      (run (cmoOp h op ra rb true s)).l2 = s'.cmoL2Lines op x (s.regVal rb).toNat := by
  obtain ⟨w, u, hu, hf⟩ := cmoL2_ok hd hr hp
  obtain ⟨n, he⟩ := cmoOp_page (h := h) (l2 := true) (fun ho _ => hsys ho) hg hn ha hb hab hlo hmesh hx hf
  rw [he]
  exact ⟨run_holdFor_res _ _ _, run_holdFor_mem _ _ _, (run_holdFor_caches _ _ _).1⟩

end

/-! What the parts leave. -/

section

variable {s u : State} {x : Xl} {k : Nat} (hu : s.Noted u)
include hu

theorem State.Noted.core (c : Nat) : u.core c = s.core c := by
  obtain ⟨m, rfl⟩ := hu
  rfl

theorem State.Noted.mem : u.mem = s.mem := by
  obtain ⟨m, rfl⟩ := hu
  rfl

/-- The dirty bytes of the lines that are cleaned, whether they stay or not, are at their home. -/
theorem State.Noted.cleans {op : CmoOp} (ho : op ≠ .inval) (h : s.Sound) {cid : Nat} {p : L1Line → Bool}
    (hd : ((s.core cid).l1.map (·.line)).Nodup) (hsp : s.spoiltLine cid p = none) {l : L1Line} (hl : l ∈ (s.core cid).l1)
    (hp : p l = true) {k : Nat} (hk : k < 32) (hdirty : l.dirty.getLsbD k = true) :
    Memory.get (u.cmoPart op cid p).mem (l.line * 32 + k) = lineByte l k := by
  have hclean : Memory.get (u.l1Clean cid p).2.mem (l.line * 32 + k) = lineByte l k := by
    have hsp' : u.spoiltLine cid p = none := by
      unfold State.spoiltLine at hsp ⊢
      rwa [hu.core]
    rw [← hu.core cid] at hd hl
    exact State.get_l1Clean (h.congr hu.mem) hd hsp' hl hp hk hdirty
  cases op with
  | clean => exact hclean
  | inval => exact absurd rfl ho
  | flush => exact hclean

end

/-- No line of L2 that an operation other than a clean has dealt with stays, and a clean leaves none with bytes for HBM. -/
theorem State.cmoL2Lines_over {s : State} {op : CmoOp} {x : Xl} {k : Nat} :
    ∀ l ∈ s.cmoL2Lines op x k, l.over x.pa k = true → op = .clean ∧ l.under = [] := by
  intro l hl ho
  unfold State.cmoL2Lines at hl
  split at hl
  · rename_i hop
    obtain ⟨m, -, rfl⟩ := List.mem_map.1 hl
    refine ⟨hop, ?_⟩
    split
    · rfl
    · rename_i hm
      exfalso
      rw [if_neg hm] at ho
      exact hm ho
  · have := (List.mem_filter.1 hl).2
    rw [ho] at this
    cases this

/-- An inval of one line of L2 with one byte that HBM held gives that byte back. -/
theorem State.cmoMem_inval {s : State} (h : s.Sound) {x : Xl} {k : Nat} {l : L2Line} {c : Host.Cell}
    (hl : s.l2.filter (·.over x.pa k) = [l]) (hc : l.under = [c]) : Memory.get (s.cmoMem .inval x k) c.1 = c.2 := by
  unfold State.cmoMem
  rw [if_pos rfl, hl]
  simp only [List.foldl_cons, List.foldl_nil, hc]
  rw [Memory.get_put h, if_pos rfl]

end Sys2Proof.Machine

end



-- BCFG.
section
/-! SUPPORT. The change of the banks' modes (R184, R186). -/

namespace Sys2Proof.Machine

/-! What a change of modes leaves alone. -/

/-- The same core issues, and every bank has the mode that it had. -/
structure State.SameBanks (s t : State) : Prop where
  cid : t.cur.cid = s.cur.cid
  bank : ∀ c b, (t.core c).bank b = (s.core c).bank b

namespace State.SameBanks

variable {s t u : State}

theorem refl (s : State) : s.SameBanks s := ⟨rfl, fun _ _ => rfl⟩

theorem trans (h : s.SameBanks t) (k : t.SameBanks u) : s.SameBanks u :=
  ⟨k.cid.trans h.cid, fun c b => (k.bank c b).trans (h.bank c b)⟩

theorem of_calm (h : s.Calm t) : s.SameBanks t := ⟨h.cid, fun c b => by rw [h.core c]; rfl⟩

theorem of_cores (hc : t.cores = s.cores) (cid : t.cur.cid = s.cur.cid) : s.SameBanks t :=
  ⟨cid, fun c _ => by rw [State.core_congr hc]⟩

end State.SameBanks

theorem State.failReq_leaves (s : State) (r : Req) (cause lat : Nat) :
    s.SameBanks (s.failReq r cause lat) ∧ (s.failReq r cause lat).mem = s.mem := by
  have hlog : s.SameBanks (s.logRefusal r.who r.part r.pa r.acc cause) ∧ (s.logRefusal r.who r.part r.pa r.acc cause).mem = s.mem := by
    unfold State.logRefusal
    split
    · exact ⟨.of_cores rfl rfl, rfl⟩
    · exact ⟨.refl s, rfl⟩
  have hlose : ∀ u : State, (u.lose r.who.cid r.pa r.n cause).mem = u.mem := fun u => by
    unfold State.lose
    split <;> rfl
  obtain ⟨hb, hm⟩ := hlog
  exact ⟨(hb.trans (.of_calm (State.calm_lose _ _ _ _ _))).trans (.of_cores rfl rfl), (hlose _).trans hm⟩

theorem State.failWaiters_leaves (s : State) (cid b : Nat) : s.SameBanks (s.failWaiters cid b) ∧ (s.failWaiters cid b).mem = s.mem := by
  unfold State.failWaiters
  refine List.foldlRecOn _ _ (motive := fun u : State => s.SameBanks u ∧ u.mem = s.mem) ⟨.refl s, rfl⟩ fun u hu r _ => ?_
  obtain ⟨hb, hm⟩ := u.failReq_leaves r (memCause 0 r.acc) (u.accLat r)
  exact ⟨hu.1.trans hb, hm.trans hu.2⟩

/-! One bank. -/

/-- No byte of a bank stands in memory: it reads as zeros. -/
def State.Emptied (s : State) (cid b : Nat) : Prop :=
  ∀ c ∈ s.mem, ¬(scratchPa cid (b * 0x8000) ≤ c.1 ∧ c.1 < scratchPa cid (b * 0x8000) + 0x8000)

theorem State.Emptied.get {s : State} {cid b k : Nat} (h : s.Emptied cid b) (hk : k < 0x8000) :
    Memory.get s.mem (scratchPa cid (b * 0x8000) + k) = 0#8 :=
  Memory.get_eq_zero_of_not_mem fun c hc e => h c hc ⟨by omega, by omega⟩

theorem State.zeroBank_emptied (s : State) (cid b : Nat) : (s.zeroBank cid b).Emptied cid b := by
  intro c hc
  have hout := (List.mem_filter.1 hc).2
  rw [Bool.not_eq_true', Bool.and_eq_false_iff, decide_eq_false_iff_not, decide_eq_false_iff_not] at hout
  omega

theorem Core.bank_set (c : Core) {b k : Nat} (mode : BitVec 2) (hk : k < 32) :
    (if h : k < 32 then (c.bankMode.set! b mode)[k] else 0#2) = if k = b then mode else c.bank k := by
  unfold Core.bank
  rw [dif_pos hk, dif_pos hk]
  by_cases h : k = b
  · subst h
    simp
  · rw [if_neg h]
    simp [Ne.symm h]

/-- The banks when one has changed its mode, and its bytes where it was no cache. -/
theorem State.bankChange_leaves (s : State) (cid b : Nat) (mode : BitVec 2) :
    (s.bankChange cid b mode).2.cur.cid = s.cur.cid ∧
      (∀ k < 32, ((s.bankChange cid b mode).2.core cid).bank k = if k = b then mode else (s.core cid).bank k) ∧
      ((s.core cid).bank b ≠ bankCache → (s.bankChange cid b mode).2.Emptied cid b ∧
        ∀ c ∈ (s.bankChange cid b mode).2.mem, c ∈ s.mem) := by
  unfold State.bankChange
  extract_lets old c s1 s2 s3
  have h1 : s.SameBanks s1 := by
    dsimp only [s1, c]
    split
    · exact (State.SameBanks.of_calm (s.calm_l1Clean _ _)).trans (.of_calm (State.calm_l1Drop _ _ _))
    · exact .refl s
  have h2 : s.SameBanks s2 := (h1.trans (s1.failWaiters_leaves cid b).1).trans (.of_cores rfl rfl)
  refine ⟨h2.cid, fun k hk => ?_, fun hb => ?_⟩
  · have h3 : (s3.core cid).bank k = if k = b then mode else (s2.core cid).bank k := by
      dsimp only [s3]
      rw [State.core_updCore_self]
      exact Core.bank_set (s2.core cid) mode hk
    rw [h3, h2.bank]
  · have hs1 : s1 = s := by
      dsimp only [s1, c]
      rw [if_neg hb, if_neg hb]
    refine ⟨(s1.failWaiters cid b).zeroBank_emptied cid b, fun x hx => ?_⟩
    have hx' : x ∈ (s1.failWaiters cid b).mem := List.mem_of_mem_filter hx
    rwa [(s1.failWaiters_leaves cid b).2, hs1] at hx'

/-! The banks of the mask. -/

/-- The state when some banks have changed their modes, and the lines cleaned. -/
def State.banksChange (a : Nat × State) (cid : Nat) (mode : BitVec 2) (bs : List Nat) : Nat × State :=
  bs.foldl (fun a b => (a.1 + (a.2.bankChange cid b mode).1, (a.2.bankChange cid b mode).2)) a

theorem State.banksChange_leaves (a : Nat × State) {cid : Nat} {mode : BitVec 2} {bs : List Nat} (hd : bs.Nodup)
    (hlt : ∀ b ∈ bs, b < 32) :
    (State.banksChange a cid mode bs).2.cur.cid = a.2.cur.cid ∧
      (∀ k < 32, ((State.banksChange a cid mode bs).2.core cid).bank k = if k ∈ bs then mode else (a.2.core cid).bank k) ∧
      ((∀ b ∈ bs, (a.2.core cid).bank b ≠ bankCache) → (∀ b ∈ bs, (State.banksChange a cid mode bs).2.Emptied cid b) ∧
        ∀ c ∈ (State.banksChange a cid mode bs).2.mem, c ∈ a.2.mem) := by
  induction bs generalizing a with
  | nil => exact ⟨rfl, fun k _ => by simp [State.banksChange], fun _ => ⟨by simp, fun _ hc => hc⟩⟩
  | cons b bs ih =>
    rw [List.nodup_cons] at hd
    rw [List.forall_mem_cons] at hlt
    obtain ⟨hb, hd⟩ := hd
    obtain ⟨hblt, hlt⟩ := hlt
    obtain ⟨hcid, hbank, hzero⟩ := a.2.bankChange_leaves cid b mode
    obtain ⟨hcid', hbank', hzero'⟩ := ih (a.1 + (a.2.bankChange cid b mode).1, (a.2.bankChange cid b mode).2) hd hlt
    have hstep : State.banksChange a cid mode (b :: bs) =
      State.banksChange (a.1 + (a.2.bankChange cid b mode).1, (a.2.bankChange cid b mode).2) cid mode bs := rfl
    rw [hstep]
    refine ⟨hcid'.trans hcid, fun k hk => ?_, fun hno => ?_⟩
    · rw [hbank' k hk, hbank k hk]
      by_cases hkb : k = b
      · subst hkb
        simp [hb]
      · simp [hkb]
    · rw [List.forall_mem_cons] at hno
      obtain ⟨hnb, hno⟩ := hno
      obtain ⟨hempty, hsub⟩ := hzero hnb
      have hno' : ∀ x ∈ bs, ((a.2.bankChange cid b mode).2.core cid).bank x ≠ bankCache := fun x hx => by
        have hxb : x ≠ b := fun e => hb (e ▸ hx)
        rw [hbank x (hlt x hx), if_neg hxb]
        exact hno x hx
      obtain ⟨hempty', hsub'⟩ := hzero' hno'
      refine ⟨?_, fun c hc => hsub c (hsub' c hc)⟩
      rw [List.forall_mem_cons]
      exact ⟨fun c hc => hempty c (hsub' c hc), hempty'⟩

/-- The wakes of banks are steps on the agenda. -/
theorem State.banksWake_leaves (s : State) (cid n : Nat) (old : Nat → BitVec 2) (mode : BitVec 2) (bs : List Nat) :
    (bs.foldl (fun s b => s.bankWake cid b n (old b) mode) s).cur = s.cur ∧
      (bs.foldl (fun s b => s.bankWake cid b n (old b) mode) s).cores = s.cores ∧
      (bs.foldl (fun s b => s.bankWake cid b n (old b) mode) s).mem = s.mem :=
  List.foldlRecOn bs _ (motive := fun u : State => u.cur = s.cur ∧ u.cores = s.cores ∧ u.mem = s.mem) ⟨rfl, rfl, rfl⟩
    fun _ hu _ _ => hu

/-! The instruction. -/

/-- The banks of the mask in ra that are not in the mode that rb gives. -/
def State.banksOf (s : State) (ra rb : SReg) : List Nat :=
  (List.range 32).filter fun b => (s.regVal ra).getLsbD b && s.myCore.bank b != (s.regVal rb).setWidth 2

theorem State.mem_banksOf {s : State} {ra rb : SReg} {b : Nat} : b ∈ s.banksOf ra rb ↔
    b < 32 ∧ ((s.regVal ra).getLsbD b && s.myCore.bank b != (s.regVal rb).setWidth 2) = true := by
  unfold State.banksOf
  rw [List.mem_filter, List.mem_range]

theorem extract_high {v : W64} {k n : Nat} (h : v.toNat < 2 ^ k) : v.extractLsb' k n = 0#n := by
  apply BitVec.eq_of_toNat_eq
  rw [BitVec.extractLsb'_toNat, Nat.shiftRight_eq_div_pow, Nat.div_eq_of_lt h]
  simp

/-- The state when BCFG has changed the modes of its banks. -/
def State.banksSet (s : State) (ra rb : SReg) : State :=
  (State.banksChange (0, s) s.cur.cid ((s.regVal rb).setWidth 2) (s.banksOf ra rb)).2

/-- Nothing keeps some banks from changing their mode: no tile, no access under way, no copy-out, and no line with an uncorrectable
error lies in one. -/
structure State.MayTurn (s : State) (bs : List Nat) : Prop where
  tiles : ∀ b ∈ bs, ∀ t ∈ s.myCore.tiles.toList, t.blocks b = false
  reqs : ∀ r ∈ s.reqs, r.st = .sent → ∀ b ∈ bs, s.reqInBank s.cur.cid b r = false
  outs : ∀ b ∈ bs, s.outInBank s.cur.cid b = false
  lines : ∀ l ∈ s.myCore.l1, l.way ∈ bs → l.spoilt = false

section

variable {h : Hdr} {ra rb : SReg} {s : State} (hg : gateC { Uses.none with sr := [ra, rb] } s = .ok ())
include hg

theorem bcfgOp_done {v : W64} (hd : s.me.hold = .done v) : bcfgOp h ra rb s = .ok (commitNext s h .drops (loneW h)) := by
  unfold bcfgOp
  rw [hg, State.doneVal_of_done hd]
  rfl

variable (hn : s.me.hold = .none) (ha : s.acqBlocked = false) (hm : (s.regVal ra).toNat < 2 ^ 32) (hv : (s.regVal rb).toNat < 4)
include hn ha hm hv

theorem bcfgOp_changes (hmay : s.MayTurn (s.banksOf ra rb)) :
    ∃ t n, bcfgOp h ra rb s = holdFor t 0#64 n ∧ t.cur = (s.banksSet ra rb).cur ∧ t.cores = (s.banksSet ra rb).cores ∧
      t.mem = (s.banksSet ra rb).mem := by
  have hmode : (s.regVal rb).extractLsb' 0 2 = (s.regVal rb).setWidth 2 := by
    ext i hi
    simp
  have hbad : ((s.regVal ra).extractLsb' 32 32 != 0#32 || (s.regVal rb).extractLsb' 2 62 != 0#62) = false := by
    rw [extract_high (by exact hm), extract_high (by exact hv)]
    rfl
  unfold bcfgOp
  rw [hg, State.doneVal_of_none hn, memGate_ok ha]
  simp only [bind, Except.bind, hbad, Bool.false_eq_true, if_false, hmode]
  have hbs : (List.range 32).filter (fun b => (s.regVal ra).getLsbD b && s.myCore.bank b != (s.regVal rb).setWidth 2) =
    s.banksOf ra rb := rfl
  unfold State.banksSet
  simp only [hbs]
  generalize s.banksOf ra rb = bs at hmay
  have h1 : (bs.any fun b => s.myCore.bank b == bankScratch && s.myCore.tiles.toList.any fun t => t.blocks b) = false := by
    rw [List.any_eq_false]
    intro b hb
    have hnone : (s.myCore.tiles.toList.any fun t => t.blocks b) = false := by
      rw [List.any_eq_false]
      exact fun t ht => by rw [hmay.tiles b hb t ht]; exact Bool.false_ne_true
    rw [hnone, Bool.and_false]
    exact Bool.false_ne_true
  have h2 : ((s.reqs.any fun r => r.st == .sent && bs.any fun b => s.reqInBank s.cur.cid b r) ||
      bs.any (s.outInBank s.cur.cid)) = false := by
    rw [Bool.or_eq_false_iff]
    refine ⟨?_, by rw [List.any_eq_false]; exact fun b hb => by rw [hmay.outs b hb]; exact Bool.false_ne_true⟩
    rw [List.any_eq_false]
    intro r hr hsent
    rw [Bool.and_eq_true, beq_iff_eq, List.any_eq_true] at hsent
    obtain ⟨hst, b, hb, hin⟩ := hsent
    rw [hmay.reqs r hr hst b hb] at hin
    cases hin
  have h3 : ∀ t, spoiltStop s t 1 (fun l => bs.contains l.way) id = .ok () := by
    intro t
    have hnone : s.spoiltLine s.cur.cid (fun l => bs.contains l.way) = none := by
      unfold State.spoiltLine
      rw [Option.map_eq_none_iff, List.find?_eq_none]
      intro l hl hboth
      rw [Bool.and_eq_true, List.contains_iff_mem] at hboth
      rw [hmay.lines l hl hboth.1] at hboth
      cases hboth.2
    unfold spoiltStop
    rw [hnone]
  rw [h1, h2, if_neg Bool.false_ne_true, if_neg Bool.false_ne_true, h3]
  exact ⟨_, _, rfl, State.banksWake_leaves _ _ _ _ _ _⟩

end

end Sys2Proof.Machine

end



-- FENCE.
section
/-! SUPPORT. The request of a FENCE: how it leaves, and how it ends the hold of its thread (R171, R180). -/

namespace Sys2Proof.Machine

/-! How it leaves. -/

/-- q is the request r of no bytes, as far as its thread can tell: when its lines are cleaned, its ports, what it has met and where may
differ. -/
def Req.Sent (q r : Req) : Prop := ∃ f v a st e, q = { r with from_ := f, via := v, va := a, st := st, err := e }

theorem State.arriveIn_core (s : State) (r : Req) (n c : Nat) : (s.arriveIn r n).core c = s.core c := by
  unfold State.arriveIn
  repeat' split
  all_goals rfl

/-- A request of no bytes that finds its slots is on its way, and no thread has changed; a release at quad scope or wider has cleaned its
core's lines, where none is spoilt. -/
theorem send_nothing {s : State} {r : Req} (hp : s.portFree r.who.cid r.homes = true) (hn : r.n = 0) :
    ∃ t, send s r = .ok t ∧ s.SameThreads t ∧ (∃ q ∈ t.reqs, q.Sent r) ∧
      (r.rel = true → r.wide = true → s.spoiltLine r.who.cid (fun _ => true) = none →
        ∀ l ∈ (t.core r.who.cid).l1, l.dirty = 0#32) := by
  have hcalm : s.Calm (s.cleansFor r).2.1 := by
    unfold State.cleansFor
    split
    · exact s.calm_l1Clean _ _
    · exact .refl s
  have hrel : r.rel = true → r.wide = true → (s.cleansFor r).2 = (s.releaseLines r.who.cid, s.spoiltLine r.who.cid fun _ => true) := by
    intro h1 h2
    unfold State.cleansFor
    rw [h1, h2]
    rfl
  unfold send
  simp only [hp, Bool.not_true, Bool.false_eq_true, if_false]
  rcases hc : s.cleansFor r with ⟨k, t, a⟩
  rw [hc] at hcalm hrel
  cases a with
  | some a =>
    refine ⟨_, rfl, ?_, ?_, fun h1 h2 hsp => ?_⟩
    · unfold State.cleanFails
      rw [if_pos hn]
      exact (hcalm.sameThreads.trans (t.sameThreads_addReq r)).trans (State.sameThreads_failReq _ _ _ _)
    · unfold State.cleanFails
      rw [if_pos hn]
      obtain ⟨q, hq, f, v, st, e, rfl⟩ := State.failReq_isOf (s := t.addReq r) (r := { r with va := a }) (t.mem_addReq r) rfl
        (memCause 4 1) ((t.addReq r).accLat r + r.lat)
      exact ⟨_, hq, f, v, a, st, e, rfl⟩
    · have := hrel h1 h2
      rw [hsp] at this
      cases this
  | none =>
    refine ⟨_, rfl, (hcalm.sameThreads.trans (t.sameThreads_addReq _)).trans (State.calm_arriveIn _ _ _).sameThreads, ?_,
      fun h1 h2 _ => ?_⟩
    · rw [(State.calm_arriveIn _ _ _).reqs]
      exact ⟨_, t.mem_addReq _, _, _, r.va, r.st, r.err, rfl⟩
    · obtain ⟨sl, ru, n, hcore⟩ := t.sameButThreads_addReq { r with from_ := t.now + t.ticks (dieOf r.who.cid) k } r.who.cid
      rw [State.arriveIn_core, hcore]
      have ht : t = s.releaseLines r.who.cid := (Prod.ext_iff.1 (hrel h1 h2)).1
      rw [ht]
      exact s.releaseLines_clean _

/-- The request of no bytes that holds its thread. -/
theorem sendHold_nothing {s : State} {r : Req} (hs : s.Stands) (hp : s.portFree r.who.cid r.homes = true) (hn : r.n = 0) :
    (run (sendHold s r)).cur.res = .held ∧ (run (sendHold s r)).Stands ∧ (run (sendHold s r)).meWho = s.meWho ∧
      (run (sendHold s r)).me.hold = .busy r.tok ∧ (∃ q ∈ (run (sendHold s r)).reqs, q.Sent { r with holds := true }) ∧
      (r.rel = true → r.wide = true → s.spoiltLine r.who.cid (fun _ => true) = none →
        ∀ l ∈ ((run (sendHold s r)).core r.who.cid).l1, l.dirty = 0#32) := by
  obtain ⟨t, ht, hth, hq, hclean⟩ := send_nothing (s := s) (r := { r with holds := true }) hp hn
  have hrun : run (sendHold s r) = run (holdOn t r.tok) := by
    unfold sendHold
    simp only [ht, bind, Except.bind]
  have hst := hth.stands hs
  obtain ⟨hcur, hreqs, hhold⟩ := run_holdOn hst r.tok
  have hh : ({ t with cur := { t.cur with res := .held } } : State).Stands := hst.congr rfl rfl rfl
  obtain ⟨u, hu, -, -, hcore⟩ := holdOn_leaves t r.tok
  rw [hrun]
  have hrunst : (run (holdOn t r.tok)).Stands := hh.after_updMe _
  refine ⟨by rw [hcur], hrunst, ?_, hhold, by rw [hreqs]; exact hq, fun h1 h2 hsp l hl => ?_⟩
  · refine (State.meWho_congr ?_ ?_ ?_).trans hth.meWho
    · rw [hcur]
    · rw [hcur]
    · show (State.updMe _ _).me.uid = _
      rw [hh.me_updMe]
      rfl
  · refine hclean h1 h2 hsp l ?_
    obtain ⟨sl, ru, n, hc⟩ := hcore r.who.cid
    rw [hu] at hl
    change l ∈ (u.core r.who.cid).l1 at hl
    rw [hc] at hl
    exact hl

/-! How it ends the hold. -/

theorem State.Finds.thread {s t : State} (h : s.Finds t) (c k : Nat) : t.thread c k = s.thread c k := by
  unfold State.thread
  rw [h.core c]
  rfl

/-- An acquire leaves only dirty bytes valid. -/
theorem State.acquire_valid (s : State) (w : Who) : ∀ l ∈ ((s.acquire w).core w.cid).l1, l.valid = l.dirty := by
  intro l hl
  unfold State.acquire State.acqInval at hl
  rw [State.updWho_l1, State.core_updCore_self] at hl
  obtain ⟨m, -, rfl⟩ := List.mem_map.1 hl
  rfl

theorem State.landVec_none {s : State} {r : Req} (h : r.vres = []) : s.landVec r = s := by
  unfold State.landVec
  rw [h]
  rfl

theorem State.answered_cur (s : State) (tok : Nat) (r : Req) : (s.answered tok r).cur = s.cur := by
  have hclose : (s.closeReq tok).cur = s.cur := by
    unfold State.closeReq
    split
    · rfl
    · exact State.gotMsgs_cur s _ _
  unfold State.answered
  split
  · exact hclose
  · exact hclose

/-- The answer of the request that holds the issuing thread ends the hold, with the acquire made. -/
theorem response_ends {s : State} {tok : Nat} {r : Req} {th : Thread} (hr : s.req tok = some r) (ht : s.HasThread r.who th)
    (ha : (s.part r.part).away = false) (hbusy : th.hold = .busy tok) (hholds : r.holds = true) (hvres : r.vres = [])
    (hcid : r.who.cid = s.cur.cid) (hslot : r.who.slot = s.cur.slot) :
    Follows (.loadResponse tok) s fun w => w.me.hold = .done r.res ∧
      (r.acq = true → r.wide = true → ∀ l ∈ w.myCore.l1, l.valid = l.dirty) := by
  let t : State := { s with evt := .loadResponse tok }
  have hexec := exec_loadResponse (s := t) hr ha rfl
  rw [if_pos hholds, State.landVec_none hvres] at hexec
  obtain ⟨-, n, hn⟩ := State.answered_leaves (s := t) hr (ht.of_thread fun _ _ => rfl)
  have hw := hn.updWho (fun u => u.wake tok (.done r.res)) (Thread.wake_uid _ _ _)
  have hcur : ((t.answered tok r).updWho r.who fun u => u.wake tok (.done r.res)).cur = s.cur := t.answered_cur tok r
  refine ⟨_, hexec, ?_, fun hacq hwide l hl => ?_⟩
  · unfold State.me
    rw [hcur, ← hcid, ← hslot, hw.thread]
    exact Thread.wake_busy (t := { th with acqUntil := n }) hbusy _
  · unfold State.myCore at hl
    rw [hcur, ← hcid, State.updWho_l1] at hl
    unfold State.answered at hl
    rw [hacq, hwide] at hl
    exact (t.closeReq tok).acquire_valid r.who l hl

/-- The request that holds the issuing thread is performed once nothing keeps it, and its answer ends the hold. -/
theorem value_ends {t : State} {q : Req} {v : W64} (hs : t.Stands) (hreq : t.req q.tok = some q) (hwho : q.who = t.meWho)
    (hbusy : t.me.hold = .busy q.tok) (hkind : q.kind = .value v) (hholds : q.holds = true) (hvres : q.vres = [])
    (hk : t.keptFor q = none) (hu : t.Unhindered q) :
    Follows (.homeRequest q.tok) t fun u => Follows (.loadResponse q.tok) u fun w => w.me.hold = .done v ∧
      (q.acq = true → q.wide = true → ∀ l ∈ w.myCore.l1, l.valid = l.dirty) := by
  obtain ⟨u, hex, hf, hu⟩ := exec_homeRequest_one (s := { t with evt := .homeRequest q.tok }) rfl hreq hk hu
    (by unfold Req.units; rw [hkind])
  obtain ⟨at_, hp⟩ : ∃ at_, u.perform q = u.answer { q with res := v } at_ (.loadResponse q.tok) := by
    unfold State.perform
    rw [hkind]
    exact ⟨_, rfl⟩
  rw [hp] at hex
  have haway : (u.part q.part).away = false := by
    have hpart : u.part q.part = t.part q.part := hf.part q.part
    rw [hpart]
    unfold State.keptFor at hk
    split at hk
    · cases hk
    · rename_i h
      simpa using h
  have hcur : u.cur = t.cur := hf.cur
  have hans := State.answer_req (q := { q with res := v }) hu rfl at_ (.loadResponse q.tok)
  refine ⟨_, hex, response_ends (r := { q with res := v, st := .performed }) (th := t.me) hans ?_ haway hbusy hholds hvres ?_ ?_⟩
  · show (u.answer { q with res := v } at_ (.loadResponse q.tok)).HasThread q.who t.me
    rw [hwho]
    exact hs.hasThread.of_thread hf.thread
  · show q.who.cid = u.cur.cid
    rw [hwho, hcur]
    rfl
  · show q.who.slot = u.cur.slot
    rw [hwho, hcur]
    rfl

/-! The instruction. -/

section

variable {h : Hdr} {lb : Bool} {sc : Scope} {od : BitVec 2} {s : State} (hg : gateC Uses.none s = .ok ())
include hg

theorem fenceOp_done {v : W64} (hd : s.me.hold = .done v) :
    fenceOp h lb sc od s = .ok (commitNext s h .drops (loneW h || od == 0#2)) := by
  unfold fenceOp
  rw [hg, State.doneVal_of_done hd]
  rfl

/-- The request of a FENCE. -/
def State.fenceReq (s : State) (lb : Bool) (sc : Scope) (od : BitVec 2) : Req :=
  { s.fresh.2.newReq s.ctr (.value 0#64) { va := 0, pa := 0, w1 := 0#64, own := true, extra := 0 } 0 0 with
    acq := od != 2#2, rel := od != 1#2, wide := sc != .core, pod := sc == .pod, all := lb }

theorem fenceOp_sends (hn : s.me.hold = .none) (ha : s.acqBlocked = false) :
    fenceOp h lb sc od s = sendHold s.fresh.2 (s.fenceReq lb sc od) := by
  unfold fenceOp
  rw [hg, State.doneVal_of_none hn, memGate_ok ha]
  rfl

end

end Sys2Proof.Machine

end



-- Ordering and block operations.
section
/-! SUPPORT. O21: what each operation leaves while it holds its thread. -/

namespace Sys2Proof.Machine

/-! CMO of one page. -/

section

variable {h : Hdr} {op : CmoOp} {ra rb : SReg} {s s' : State} {x : Xl} {cid : Nat} (hsound : s.Sound)
  (hg : gateC { Uses.none with sr := [ra, rb] } s = .ok ()) (hn : s.me.hold = .none) (ha : s.acqBlocked = false)
  (hb : 0 < (s.regVal rb).toNat) (hab : (s.regVal ra).toNat % 65536 + (s.regVal rb).toNat ≤ 65536)
  (hlo : 0x100000 ≤ (s.regVal ra).toNat) (hmesh : inMesh (s.regVal ra).toNat = false)
  (hx : access s (s.regVal ra) 1 1 (if op = .clean then needLoad else needStore) true = .ok (x, s'))
include hsound hg hn ha hb hab hlo hmesh hx

/-- A clean or flush in L1: the dirty bytes of the lines of the range are at their homes, and the lines clean, or gone. -/
theorem cmo_l1_writes (ho : op ≠ .inval) (hcid : s'.cur.cid = cid)
    (hr : s'.refusedLine x (s.regVal rb).toNat 32 op.acc
      (((s'.core cid).l1.filter fun l => l.over x.pa (s.regVal rb).toNat && l.dirty != 0#32).map (·.line)) = none)
    (hp : s'.portFree s'.cur.cid (((((s'.core cid).l1.filter fun l => l.over x.pa (s.regVal rb).toNat && l.dirty != 0#32).map
      (·.line)).map fun l => s'.homeOf (l * 32)).eraseDups) = true)
    (hsp : s'.spoiltLine s'.cur.cid (·.over x.pa (s.regVal rb).toNat) = none) (hd : ((s'.core cid).l1.map (·.line)).Nodup) :
    (run (cmoOp h op ra rb false s)).cur.res = .held ∧
      (∀ l ∈ (run (cmoOp h op ra rb false s)).myCore.l1, l.over x.pa (s.regVal rb).toNat = true → op = .clean ∧ l.dirty = 0#32) ∧
      ∀ l ∈ (s'.core cid).l1, l.over x.pa (s.regVal rb).toNat = true → ∀ k < 32, l.dirty.getLsbD k = true →
        Memory.get (run (cmoOp h op ra rb false s)).mem (l.line * 32 + k) = lineByte l k := by
  subst hcid
  have hdirty : s'.cmoDirty op x (s.regVal rb).toNat =
      ((s'.core s'.cur.cid).l1.filter fun l => l.over x.pa (s.regVal rb).toNat && l.dirty != 0#32).map (·.line) := if_neg ho
  obtain ⟨u, hu, hres, hmem, hl1⟩ := cmo_l1_holds (h := h) hg hn ha hb hab hlo hmesh hx (by rw [hdirty]; exact hr)
    (by rw [hdirty]; exact hp) fun _ => hsp
  have hs' : s'.Sound := hsound.congr (calm_access hx).2
  rw [hmem, hl1]
  refine ⟨hres, fun l hl hover => ?_, fun l hl hover k hk hbit => hu.cleans ho hs' hd hsp hl hover hk hbit⟩
  cases op with
  | clean => exact ⟨rfl, u.l1Clean_dirty _ _ l hl hover⟩
  | inval => exact absurd rfl ho
  | flush =>
    have hgone := State.l1Drop_none _ _ _ l hl
    rw [hover] at hgone
    cases hgone

end

section

variable {h : Hdr} {ra rb : SReg} {s s' : State} {x : Xl}
  (hg : gateC { Uses.none with sr := [ra, rb] } s = .ok ()) (hn : s.me.hold = .none) (ha : s.acqBlocked = false)
  (hb : 0 < (s.regVal rb).toNat) (hab : (s.regVal ra).toNat % 65536 + (s.regVal rb).toNat ≤ 65536)
  (hlo : 0x100000 ≤ (s.regVal ra).toNat) (hmesh : inMesh (s.regVal ra).toNat = false)
  (hx : access s (s.regVal ra) 1 1 needStore true = .ok (x, s'))
include hg hn ha hb hab hlo hmesh hx

/-- An inval in L1 discards the lines of the range, and writes nothing. -/
theorem cmo_l1_inval (hp : s'.portFree s'.cur.cid [] = true) :
    (run (cmoOp h .inval ra rb false s)).cur.res = .held ∧ (run (cmoOp h .inval ra rb false s)).mem = s'.mem ∧
      ∀ l ∈ (run (cmoOp h .inval ra rb false s)).myCore.l1, l.over x.pa (s.regVal rb).toNat = false := by
  obtain ⟨u, hu, hres, hmem, hl1⟩ := cmo_l1_holds (h := h) (op := .inval) hg hn ha hb hab hlo hmesh hx rfl hp fun h => absurd rfl h
  rw [hmem, hl1]
  exact ⟨hres, hu.mem, State.l1Drop_none _ _ _⟩

end

/-! BCFG. -/

/-- BCFG holds its thread with the banks of its mask in the mode; those that have changed read as zeros, where none was a cache. -/
theorem bcfg_leaves {h : Hdr} {ra rb : SReg} {s : State} (hg : gateC { Uses.none with sr := [ra, rb] } s = .ok ())
    (hn : s.me.hold = .none) (ha : s.acqBlocked = false) (hm : (s.regVal ra).toNat < 2 ^ 32) (hv : (s.regVal rb).toNat < 4)
    (hmay : s.MayTurn (s.banksOf ra rb)) :
    (run (bcfgOp h ra rb s)).cur.res = .held ∧
      (∀ b < 32, (run (bcfgOp h ra rb s)).myCore.bank b =
        if b ∈ s.banksOf ra rb then (s.regVal rb).setWidth 2 else s.myCore.bank b) ∧
      ((∀ b ∈ s.banksOf ra rb, s.myCore.bank b ≠ bankCache) →
        ∀ b ∈ s.banksOf ra rb, (run (bcfgOp h ra rb s)).Emptied s.cur.cid b) := by
  have hd : (s.banksOf ra rb).Nodup := List.nodup_range.filter _
  have hlt : ∀ b ∈ s.banksOf ra rb, b < 32 := fun b hb => (State.mem_banksOf.1 hb).1
  obtain ⟨t, k, he, hcur, hcores, hmem⟩ := bcfgOp_changes (h := h) hg hn ha hm hv hmay
  obtain ⟨hcid, hbank, hzero⟩ := State.banksChange_leaves (0, s) (cid := s.cur.cid) (mode := (s.regVal rb).setWidth 2) hd hlt
  obtain ⟨w, hw, hres, hwmem, sl, ru, m, hcore⟩ := holdFor_myCore t 0#64 k
  have htcid : t.cur.cid = s.cur.cid := by rw [hcur]; exact hcid
  rw [he, hw]
  refine ⟨hres, fun b hb => ?_, fun hno b hb => ?_⟩
  · show w.myCore.bank b = _
    rw [hcore]
    show (t.core t.cur.cid).bank b = _
    rw [htcid, State.core_congr hcores]
    exact hbank b hb
  · obtain ⟨hempty, -⟩ := hzero hno
    show ∀ c ∈ w.mem, _
    rw [hwmem, hmem]
    exact hempty b hb

/-! The obligation. -/

/-- Settles O21, instruction by instruction: how each holds its thread, with what it leaves, and how its bundle commits. -/
theorem orderingAndBlockOperationsComplete : Obligations.OrderingAndBlockOperationsComplete := by
  unfold Obligations.OrderingAndBlockOperationsComplete
  intro h rd ra rb lb l2 sc od s hs hb hsound ha cid a n next ends none_ holds onPage slots inL1 home atHome
  refine ⟨fun hu => ?fence, fun hu => ?cmo, fun hu => ?bcfg, ?move⟩
  case fence =>
    have hg := gateC_usable hu hb
    refine ⟨fun v hd => congrArg (Host.Outcome.next ∘ run) (fenceOp_done (h := h) (lb := lb) (sc := sc) (od := od) hg hd),
      fun hn hp => ?_⟩
    have hport : s.fresh.2.portFree s.cur.cid [] = true := (s.calm_fresh.portFree _ _).trans hp
    obtain ⟨hres, hst, hwho, hbusy, ⟨q, hq, f, v, va, st, e, rfl⟩, hclean⟩ := sendHold_nothing (r := s.fenceReq lb sc od)
      (s.calm_fresh.stands hs) hport rfl
    have hex : exec (.fence h lb sc od) s = .next (run (sendHold s.fresh.2 (s.fenceReq lb sc od))) :=
      congrArg (Host.Outcome.next ∘ run) (fenceOp_sends hg hn ha)
    generalize run (sendHold s.fresh.2 (s.fenceReq lb sc od)) = t at hres hst hwho hbusy hq hclean hex
    have hcid : t.cur.cid = s.cur.cid := congrArg Who.cid hwho
    refine ⟨t, hex, hres, _, hq, rfl, rfl, rfl, rfl, rfl, rfl, rfl, fun h1 h2 hsp l hl => ?_, fun hreq hk hun => ?_⟩
    · unfold State.myCore at hl
      rw [hcid] at hl
      exact hclean h1 h2 hsp l hl
    · exact value_ends hst hreq hwho.symm hbusy rfl rfl rfl hk hun
  case cmo =>
    have hg := gateC_usable hu hb
    have hends : ∀ op i, exec i s = .next (run (cmoOp h op ra rb l2 s)) → (op = .inval → l2 = true → s.me.sys = true) →
        ends i := by
      intro op i hi hsys v hv hd
      rw [hi, cmoOp_done hsys hg hd hv]
      rfl
    have hnone : ∀ op i, exec i s = .next (run (cmoOp h op ra rb l2 s)) → (op = .inval → l2 = true → s.me.sys = true) →
        none_ i := by
      intro op i hi hsys hn h0
      rw [hi, cmoOp_empty hsys hg hn ha h0]
      rfl
    refine ⟨hends .clean _ rfl (by simp), hnone .clean _ rfl (by simp), ?_, hends .flush _ rfl (by simp), hnone .flush _ rfl (by simp),
      ?_, fun hsys => ⟨hends .inval _ rfl fun _ => hsys, hnone .inval _ rfl fun _ => hsys, ?_⟩⟩
    · intro hn hpos hab hlo hmesh x s' hx
      have hcid : s'.cur.cid = cid := (calm_access hx).1.cid
      constructor
      · rintro rfl ⟨hr, hp, hsp, hd⟩
        obtain ⟨hres, hl1, hhome⟩ := cmo_l1_writes (h := h) (op := .clean) hsound hg hn ha hpos hab hlo hmesh hx (by simp) hcid
          hr hp hsp hd
        exact ⟨_, rfl, hres, fun l hl ho => (hl1 l hl ho).2, hhome⟩
      · rintro rfl ⟨⟨d, hd⟩, hr, hp⟩
        obtain ⟨hres, hmem, hl2⟩ := cmo_l2_holds (h := h) (op := .clean) hg hn ha hpos hab hlo hmesh hx (by simp) hd hr hp
        refine ⟨_, rfl, hres, hmem, fun l hl ho => ?_⟩
        rw [hl2] at hl
        exact (State.cmoL2Lines_over l hl ho).2
    · intro hn hpos hab hlo hmesh x s' hx
      have hcid : s'.cur.cid = cid := (calm_access hx).1.cid
      constructor
      · rintro rfl ⟨hr, hp, hsp, hd⟩
        obtain ⟨hres, hl1, hhome⟩ := cmo_l1_writes (h := h) (op := .flush) hsound hg hn ha hpos hab hlo hmesh hx (by simp) hcid
          hr hp hsp hd
        refine ⟨_, rfl, hres, fun l hl => ?_, hhome⟩
        rw [← Bool.not_eq_true]
        exact fun ho => absurd (hl1 l hl ho).1 (by simp)
      · rintro rfl ⟨⟨d, hd⟩, hr, hp⟩
        obtain ⟨hres, hmem, hl2⟩ := cmo_l2_holds (h := h) (op := .flush) hg hn ha hpos hab hlo hmesh hx (by simp) hd hr hp
        refine ⟨_, rfl, hres, hmem, fun l hl => ?_⟩
        rw [hl2] at hl
        rw [← Bool.not_eq_true]
        exact fun ho => absurd (State.cmoL2Lines_over l hl ho).1 (by simp)
    · intro hn hpos hab hlo hmesh x s' hx
      constructor
      · rintro rfl hp
        exact ⟨_, rfl, cmo_l1_inval hg hn ha hpos hab hlo hmesh hx hp⟩
      · rintro rfl ⟨⟨d, hd⟩, hr, hp⟩
        obtain ⟨hres, hmem, hl2⟩ := cmo_l2_holds (h := h) (op := .inval) hg hn ha hpos hab hlo hmesh hx (fun _ => hsys rfl) hd hr hp
        refine ⟨_, rfl, hres, fun l hl => ?_, fun l c hl hc => ?_⟩
        · rw [hl2] at hl
          rw [← Bool.not_eq_true]
          exact fun ho => absurd (State.cmoL2Lines_over l hl ho).1 (by simp)
        · rw [hmem]
          exact State.cmoMem_inval (hsound.congr (calm_access hx).2) hl hc
  case bcfg =>
    have hg := gateC_usable hu hb
    refine ⟨fun v hd => congrArg (Host.Outcome.next ∘ run) (bcfgOp_done (h := h) hg hd), ?_⟩
    intro c mode turned hn hm hv htiles hreqs hout hsp
    have hin : ∀ b, b ∈ s.banksOf ra rb ↔ b < 32 ∧ turned b = true := fun b => State.mem_banksOf
    have hmay : s.MayTurn (s.banksOf ra rb) :=
      { tiles := fun b hb => htiles b ((hin b).1 hb).1 ((hin b).1 hb).2
        reqs := fun r hr hst b hb => hreqs r hr hst b ((hin b).1 hb).1 ((hin b).1 hb).2
        outs := fun b hb => hout b ((hin b).1 hb).1 ((hin b).1 hb).2
        lines := fun l hl hw => hsp l hl ((hin _).1 hw).1 ((hin _).1 hw).2 }
    obtain ⟨hres, hbank, hzero⟩ := bcfg_leaves (h := h) hg hn ha hm hv hmay
    refine ⟨_, rfl, hres, fun b hb => ⟨?_, fun hno hturn k hk => ?_⟩⟩
    · rw [hbank b hb]
      by_cases hbit : (s.regVal ra).getLsbD b = true
      · by_cases hmode : c.bank b = mode
        · rw [if_pos hbit]
          split
          · rfl
          · exact hmode
        · rw [if_pos hbit, if_pos ((hin b).2 ⟨hb, by simp [turned, hbit, hmode]⟩)]
      · rw [if_neg hbit, if_neg fun hmem => hbit (Bool.and_eq_true_iff.1 ((hin b).1 hmem).2).1]
    · exact (hzero (fun b' hb' => hno b' ((hin b').1 hb').1 ((hin b').1 hb').2) b ((hin b).2 ⟨hb, hturn⟩)).get hk
  case move =>
    intro goes hdz hbz hdb
    refine ⟨fun haz hda hab hu => ?_, fun hu => ?_⟩
    · have hg := gateC_usable hu hb
      have hz : ((if false = true then [rd, rb] else [rd, ra, rb]).any (· == SReg.zr)) = false := by simp [hdz, haz, hbz]
      have hra := hu.isS (r := ra) (by simp) haz
      refine ⟨fun v hv hd => congrArg (Host.Outcome.next ∘ run) (moveOp_done (h := h) (fill := false) hz hg hd hv),
        fun hn h0 => congrArg (Host.Outcome.next ∘ run) (moveOp_empty (h := h) (fill := false) hz hg hn ha h0),
        fun hn h0 hstop hk => ?_⟩
      obtain ⟨hres, hd, hb0, hsrc, hmem⟩ := moveOp_leaves (h := h) (fill := false) hs hz hg hn ha (hu.isS (by simp) hdz)
        (hu.isS (by simp) hbz) hdb (fun _ => ⟨hra, hda, hab⟩) h0 hstop hk
      exact ⟨_, rfl, hres, hd, hb0, fun _ => hsrc rfl, hmem⟩
    · have hg := gateC_usable hu hb
      have hz : ((if true = true then [rd, rb] else [rd, ra, rb]).any (· == SReg.zr)) = false := by simp [hdz, hbz]
      refine ⟨fun v hv hd => congrArg (Host.Outcome.next ∘ run) (moveOp_done (h := h) (fill := true) hz hg hd hv),
        fun hn h0 => congrArg (Host.Outcome.next ∘ run) (moveOp_empty (h := h) (fill := true) hz hg hn ha h0),
        fun hn h0 hstop hk => ?_⟩
      obtain ⟨hres, hd, hb0, -, hmem⟩ := moveOp_leaves (h := h) (fill := true) hs hz hg hn ha (hu.isS (by simp) hdz)
        (hu.isS (by simp) hbz) hdb nofun h0 hstop hk
      exact ⟨_, rfl, hres, hd, hb0, nofun, hmem⟩

end Sys2Proof.Machine

end


-- The two-operand vector instructions: element arithmetic and logic.
section

namespace Sys2Proof.Machine

/-! The elements of an operand are codes of the element's width. -/

theorem lt_of_mem_elems {v : VWord} {w n x : Nat} (h : x ∈ elems v w n) : x < 2 ^ w := by
  obtain ⟨i, -, rfl⟩ := List.mem_map.1 h
  exact BitVec.isLt _

theorem State.lt_of_mem_vA {s : State} {va : VReg} {t : VTy} {x : Nat} (h : x ∈ s.vA va t) : x < 2 ^ t.bits :=
  lt_of_mem_elems h

theorem State.lt_of_mem_vB {s : State} {b : VSrc} {t : VTy} {x : Nat} (h : x ∈ s.vB b t) : x < 2 ^ t.bits := by
  cases b with
  | v n => exact State.lt_of_mem_vA h
  | sc r => exact (List.mem_replicate.1 h).2 ▸ Nat.mod_lt _ (Nat.two_pow_pos _)

/-- Two functions that agree on the members of two lists pair them alike. -/
theorem zipWith_congr_mem {α β γ : Type} {f g : α → β → γ} {xs : List α} {ys : List β}
    (h : ∀ x ∈ xs, ∀ y ∈ ys, f x y = g x y) : List.zipWith f xs ys = List.zipWith g xs ys := by
  simp only [← List.map_uncurry_zip_eq_zipWith]
  exact List.map_congr_left fun p hp => h _ (List.of_mem_zip hp).1 _ (List.of_mem_zip hp).2

/-! The operands of a two-operand instruction, as the rules name them. -/

theorem binUses_eq (va : VReg) (b : VSrc) : { Uses.none with vr := va :: b.vregs, sr := b.sregs } = binUses va b := by
  cases b <;> rfl

theorem State.vsrc_eq_vB (s : State) (b : VSrc) (t : VTy) : s.vsrc b t.bits t.count = s.vB b t := by
  cases b <;> rfl

theorem aluLat_eq_vLat (t : VTy) : aluLat t = vLat t := by cases t <;> rfl

/-- A two-operand instruction follows the rule of an operation that it agrees with on codes (R191). -/
theorem vecRule_vBin {i : VReg → VReg → VSrc → VMod → Instr} {op f : Elem2} {eff : VTy → VTy} {fb : VTy → Bool}
    {lat lat' : VTy → Nat} (hf : ∀ t mode a b, a < 2 ^ t.bits → b < 2 ^ t.bits → op t mode a b = f t mode a b)
    (hlat : ∀ t, lat t = lat' t)
    (hi : ∀ vd va b m s, exec (i vd va b m) s = .next (vBin op eff fb lat vd va b m s) := by intros; rfl) :
    VecRule i eff fb lat' f := by
  intro vd va b m s t
  rw [← hlat]
  refine vecResult_vecOut (xs := fun s => List.zipWith (op t s.fmode) (s.vA va t) (s.vB b t)) ?_ ?_
  · rw [hi, vBin, binUses_eq]
    simp only [State.vsrc_eq_vB, wIf]
    rfl
  · exact zipWith_congr_mem fun x hx y hy => hf t _ x y (State.lt_of_mem_vA hx) (State.lt_of_mem_vB hy)

/-- An operation that agrees with the rule's on codes of integer types agrees with it on codes. -/
theorem AgreesOnCodes.eq {op f : Elem2} (h : AgreesOnCodes op f) (t : VTy) (mode : RMode) (a b : Nat) (ha : a < 2 ^ t.bits)
    (hb : b < 2 ^ t.bits) : op t mode a b = f t mode a b :=
  (h t mode a b (isIntCode_of_lt ha) (isIntCode_of_lt hb)).1

/-! The integer value of a code is that of its bits, by the type's signedness. -/

theorem VTy.int_eq_toInt {t : VTy} {x : Nat} (ht : t.signed = true) (hx : x < 2 ^ t.bits) :
    VTy.int t x = (BitVec.ofNat t.bits x).toInt := by
  rw [VTy.int, if_pos ht, sElem_eq_toInt (elemBits_pos t) hx]

theorem VTy.int_eq_natCast {t : VTy} (x : Nat) (ht : t.signed = false) : VTy.int t x = x := by
  rw [VTy.int, if_neg (by simp [ht])]

/-- The bits of an integer, read by their signedness as an element. -/
theorem wrapElem_eq_toNat (w : Nat) (v : Int) : wrapElem w v = (BitVec.ofInt w v).toNat := (BitVec.toNat_ofInt v).symm

theorem ofInt_sub (w : Nat) (x y : Int) : BitVec.ofInt w (x - y) = BitVec.ofInt w x - BitVec.ofInt w y := by
  rw [Int.sub_eq_add_neg, BitVec.ofInt_add, BitVec.ofInt_neg, BitVec.sub_eq_add_neg]

theorem ofNat_eq_zero_iff {w x : Nat} (hx : x < 2 ^ w) : BitVec.ofNat w x = 0#w ↔ x = 0 := by
  rw [← BitVec.toNat_inj, BitVec.toNat_ofNat, BitVec.toNat_ofNat, Nat.mod_eq_of_lt hx, Nat.zero_mod]

/-! The operations. -/

theorem vsub_agrees : AgreesOnCodes (arith fSub iSub iSub) (vNum (· - ·) fSub) :=
  arith_agrees fSub (fun w x y => by simp [iSub, ofInt_sub]) (fun w x y => by simp [iSub, ofInt_sub])

theorem vmul_agrees : AgreesOnCodes (arith fMul iMul iMul) (vNum (· * ·) fMul) :=
  arith_agrees fMul (fun w x y => by simp [iMul, BitVec.ofInt_mul]) (fun w x y => by simp [iMul, BitVec.ofInt_mul])

/-- The quotient of a zero divisor is all ones with IDZ, and any other the truncated one, wrapped (R157, R191). -/
theorem divElem_eq {t : VTy} {a b : Nat} (mode : RMode) (ht : t.ff = none) (ha : a < 2 ^ t.bits) (hb : b < 2 ^ t.bits) :
    divElem t mode a b =
      if b = 0 then (2 ^ t.bits - 1, fIDZ) else (wrapElem t.bits ((VTy.int t a).tdiv (VTy.int t b)), fNone) := by
  have hz := ofNat_eq_zero_iff hb
  simp only [divElem, ht, onBits, wrapElem_eq_toNat]
  by_cases h0 : b = 0
  · subst h0
    cases t.signed <;> simp [iDivs, iDivn]
  · cases hs : t.signed with
    | true => simp [iDivs, hz, h0, VTy.int_eq_toInt hs ha, VTy.int_eq_toInt hs hb]
    | false =>
      have hq : (a : Int).tdiv b = ((a / b : Nat) : Int) := (Int.ofNat_tdiv a b).symm
      simp only [iDivn, hz, h0, VTy.int_eq_natCast _ hs, hq, BitVec.ofInt_natCast, BitVec.toNat_ofNat, Nat.mod_eq_of_lt ha,
        Nat.mod_eq_of_lt hb, if_false, Bool.false_eq_true]

theorem VTy.lo_le_hi (t : VTy) : VTy.lo t ≤ VTy.hi t := by cases t <;> decide

/-- A saturated value is the one nearest to it in the type's range, with SAT where it lies outside (R191). -/
theorem satElem_eq_clamp (t : VTy) (v : Int) :
    satElem t v =
      (wrapElem t.bits (max (VTy.lo t) (min (VTy.hi t) v)), if v < VTy.lo t ∨ VTy.hi t < v then fSAT else fNone) := by
  have hr := VTy.lo_le_hi t
  unfold satElem
  split
  · rename_i h
    rw [min_eq_right (by omega), max_eq_left h.le, if_pos (.inl h)]
  · split
    · rename_i h
      rw [min_eq_left h.le, max_eq_right hr, if_pos (.inr h)]
    · rename_i h h'
      rw [min_eq_right (by omega), max_eq_right (by omega), if_neg (by simp [h, h'])]

end Sys2Proof.Machine

open Sys2Proof Sys2Proof.Machine

/-- Settles O22: on the codes that elements have, each operation of the model is the rule's. -/
theorem Sys2Proof.vectorArithmeticResults : Obligations.VectorArithmeticResults := by
  unfold Obligations.VectorArithmeticResults
  intro never bits flt clamp
  have hbits : bits = VTy.asBits := by funext t; cases t <;> rfl
  rw [hbits]
  have hsat : ∀ (f : Int → Int → Int) g t m a b,
      clamp f g t m a b = (match t.ff with
        | some k => g k m a b
        | none => satElem t (f (VTy.int t a) (VTy.int t b))) := fun f g t m a b => by
    cases ht : t.ff <;> simp only [clamp, ht, satElem_eq_clamp]
  have htwo : ∀ t, two t = 2 := fun _ => rfl
  refine ⟨vecRule_vBin redSum_agrees.eq aluLat_eq_vLat, vecRule_vBin vsub_agrees.eq aluLat_eq_vLat,
    vecRule_vBin vmul_agrees.eq aluLat_eq_vLat, vecRule_vBin (op := divElem) ?_ aluLat_eq_vLat,
    vecRule_vBin redMin_agrees.eq aluLat_eq_vLat, vecRule_vBin redMax_agrees.eq aluLat_eq_vLat,
    vecRule_vBin (bitwise_agrees iAnd).eq htwo, vecRule_vBin (bitwise_agrees iOr).eq htwo,
    vecRule_vBin (bitwise_agrees iXor).eq htwo, vecRule_vBin (bitwise_agrees iShl).eq htwo,
    vecRule_vBin (bitwise_agrees iShr).eq htwo, vecRule_vBin (bitwise_agrees iSar).eq htwo,
    vecRule_vBin (op := addsElem) (fun t m a b _ _ => (hsat ..).symm) aluLat_eq_vLat,
    vecRule_vBin (op := subsElem) (fun t m a b _ _ => (hsat ..).symm) aluLat_eq_vLat,
    vecRule_vBin (op := absdElem) ?_ aluLat_eq_vLat⟩
  case refine_1 =>
    intro t m a b ha hb
    cases ht : t.ff with
    | some k => simp only [divElem, ht]
    | none => exact divElem_eq m ht ha hb
  case refine_2 =>
    intro t m a b _ _
    cases ht : t.ff with
    | some k => rfl
    | none => simp only [absdElem, ht, Int.natCast_natAbs]

end


-- The multiply-accumulates of vectors.
section

namespace Sys2Proof.Machine

/-! Integer elements modulo their width. -/

theorem wrapElem_congr {w : Nat} {u v : Int} (h : u ≡ v [ZMOD (2 ^ w : Nat)]) : wrapElem w u = wrapElem w v :=
  congrArg Int.toNat h

/-- An element's integer value and its code are congruent, for either signedness. -/
theorem VTy.int_modEq (t : VTy) (x : Nat) : VTy.int t x ≡ x [ZMOD (2 ^ t.bits : Nat)] := by
  unfold VTy.int sElem
  split
  · split
    · rfl
    · push_cast
      exact Int.sub_modulus_modEq_iff.2 rfl
  · rfl

/-- An integer multiply-accumulate of codes is the one of their values (R192). -/
theorem wrapElem_fma (t : VTy) (neg : Bool) (a b c : Nat) :
    wrapElem t.bits ((if neg then -(a * b : Nat) else (a * b : Nat) : Int) + c) =
      wrapElem t.bits ((if neg then -1 else 1) * (VTy.int t a * VTy.int t b) + VTy.int t c) := by
  have hprod := (VTy.int_modEq t a).mul (VTy.int_modEq t b)
  refine wrapElem_congr (Int.ModEq.add ?_ (VTy.int_modEq t c).symm)
  cases neg with
  | false => simpa using hprod.symm
  | true => simpa using hprod.symm.neg

/-- The four products of a lane, byte by byte (R193). -/
theorem dot4_eq_bytes (sgn : Bool) (a b : Nat) :
    let byte (x k : Nat) : Int := VTy.int (if sgn then .i8 else .n8) (x / 256 ^ k % 256)
    dot4 sgn a b = byte a 0 * byte b 0 + byte a 1 * byte b 1 + byte a 2 * byte b 2 + byte a 3 * byte b 3 := by
  cases sgn <;> simp [dot4, List.range_succ, VTy.int, VTy.signed, VTy.bits, add_assoc]

/-- The registers of a multiply-accumulate. -/
theorem fmaUses_eq (va : VReg) (b : VSrc) (vc : VReg) :
    ({ Uses.none with vr := va :: vc :: b.vregs, sr := b.sregs } : Uses) =
      { binUses va b with vr := va :: vc :: (binUses va b).vr.tail } := by
  cases b <;> rfl

/-- A multiply-accumulate leaves the rule's values, for either sign of the product (R192). -/
theorem vFma_ok {i : VReg → VReg → VSrc → VReg → VMod → Instr} {neg : Bool}
    (hi : ∀ vd va b vc m s, exec (i vd va b vc m) s = .next (vFma neg vd va b vc m s)) (vd va : VReg) (b : VSrc) (vc : VReg)
    (m : VMod) (s : State) :
    VecResult (i vd va b vc m) { binUses va b with vr := va :: vc :: (binUses va b).vr.tail } vd m.msk s m.ty.bits
      (List.zipWith (fun x c => match m.ty.ff with
          | some k => fMa k s.fmode neg x.1 x.2 c
          | none => (wrapElem m.ty.bits ((if neg then -1 else 1) * (VTy.int m.ty x.1 * VTy.int m.ty x.2) + VTy.int m.ty c), fNone))
        (List.zip (s.vA va m.ty) (s.vB b m.ty)) (s.vA vc m.ty)) fNone 5 := by
  have hx := hi vd va b vc m s
  rw [vFma, fmaUses_eq] at hx
  refine vecResult_vecOut hx ?_
  rw [State.vsrc_eq_vB]
  refine zipWith_congr_mem fun x _ c _ => ?_
  cases ht : m.ty.ff with
  | some k => rfl
  | none => exact congrArg (·, fNone) (wrapElem_fma m.ty neg x.1 x.2 c)

end Sys2Proof.Machine

open Sys2Proof Sys2Proof.Machine

/-- Settles O23: codes multiply and add as their values do, modulo the width. -/
theorem Sys2Proof.vectorMultiplyAddResults : Obligations.VectorMultiplyAddResults := by
  unfold Obligations.VectorMultiplyAddResults
  intro vd va b vc m s us ab fma byte ys dot
  refine ⟨vFma_ok (i := .vfma) (fun _ _ _ _ _ _ => rfl) vd va b vc m s,
    vFma_ok (i := .vfnma) (fun _ _ _ _ _ _ => rfl) vd va b vc m s, ?_⟩
  have hx : exec (.vdot4 vd va b vc m) s = .next (vDot4 vd va b vc m s) := rfl
  rw [vDot4, fmaUses_eq] at hx
  have hw : wIf (m.ty != .i8 && m.ty != .n8) = if m.ty = .i8 ∨ m.ty = .n8 then fNone else fW := by
    cases m.ty <;> rfl
  have hty : (if m.ty = .n8 then VTy.n8 else .i8) = if (m.ty != .n8) then .i8 else .n8 := by
    cases m.ty <;> rfl
  rw [hw] at hx
  refine vecResult_vecOut hx ?_
  -- the rule reads the accumulator as a list of integers
  have hc : (do let c ← s.vA vc .n32; pure (c : Int)) = (s.vA vc .n32).map fun c : Nat => (c : Int) :=
    List.map_eq_flatMap.symm
  simp only [dot, hc, List.zipWith_map_right]
  change List.zipWith _ (List.zip (s.vA va .n32) ys) (s.vA vc .n32) = List.zipWith _ _ _
  refine zipWith_congr_mem fun x _ c _ => ?_
  rw [dot4_eq_bytes]
  simp only [byte, hty]
  congr 2
  ring

end

-- The one-operand vector instructions.
section

namespace Sys2Proof.Machine

/-- A one-operand instruction follows the rule of a function that it agrees with on codes (R194). -/
theorem vecUnRule_vUn {i : VReg → VReg → Bool → VMod → Instr} {op f : Elem1} {eff : VTy → VTy}
    (hf : ∀ t mode a, a < 2 ^ t.bits → op t mode a = f t mode a)
    (hi : ∀ vd va sb m s, exec (i vd va sb m) s = .next (vUn op eff vd va sb m s) := by intros; rfl) :
    VecUnRule i eff f := by
  intro vd va sb m s t
  have hx := hi vd va sb m s
  have hw : wIf (sb || t != m.ty) = if sb = true ∨ t ≠ m.ty then fW else fNone := by simp [wIf]
  rw [vUn, hw] at hx
  exact vecResult_vecOut hx (List.map_congr_left fun a ha => hf t _ a (State.lt_of_mem_vA ha))

/-! The sign bit of a code. -/

/-- The sign bit of a floating code is the top bit of its element. -/
theorem VTy.ff_sign {t : VTy} {k : FF} (h : t.ff = some k) : k.eb + k.mb = t.bits - 1 := by
  cases t <;> cases h <;> rfl

/-- The top bit of a code is set from half the range on. -/
theorem topBit_iff {w a : Nat} (hw : 0 < w) (ha : a < 2 ^ w) : a / 2 ^ (w - 1) % 2 = 1 ↔ 2 ^ (w - 1) ≤ a := by
  have hp := Nat.two_pow_pred_add_two_pow_pred hw
  have hlt : a / 2 ^ (w - 1) < 2 := Nat.div_lt_of_lt_mul (by omega)
  rw [Nat.mod_eq_of_lt hlt, ← Nat.one_le_div_iff (Nat.two_pow_pos _)]
  omega

/-- Inverting the top bit adds half the range, modulo the range. -/
theorem invertTop_eq {w a : Nat} (hw : 0 < w) (ha : a < 2 ^ w) :
    (if a / 2 ^ (w - 1) % 2 = 1 then a - 2 ^ (w - 1) else a + 2 ^ (w - 1)) = (a + 2 ^ (w - 1)) % 2 ^ w := by
  have hp := Nat.two_pow_pred_add_two_pow_pred hw
  simp only [topBit_iff hw ha]
  split
  · rw [Nat.mod_eq_sub_mod (by omega), Nat.mod_eq_of_lt (by omega)]
    omega
  · rw [Nat.mod_eq_of_lt (by omega)]

/-- An integer in the range of the unsigned codes is its own code. -/
theorem wrapElem_natCast {w x : Nat} (hx : x < 2 ^ w) : wrapElem w x = x := by
  rw [wrapElem_eq_toNat, BitVec.ofInt_natCast, BitVec.toNat_ofNat, Nat.mod_eq_of_lt hx]

/-! The functions. -/

theorem absElem_eq {t : VTy} (mode : RMode) {a : Nat} (ha : a < 2 ^ t.bits) :
    absElem t mode a = match t.ff with
      | some _ => (a % 2 ^ (t.bits - 1), fNone)
      | none => (wrapElem t.bits |VTy.int t a|, fNone) := by
  unfold absElem
  cases ht : t.ff with
  | some k => simp only [FF.absCode, VTy.ff_sign ht]
  | none =>
    cases hs : t.signed with
    | true => simp only [VTy.int, hs, if_true, Int.natCast_natAbs]
    | false => simp only [VTy.int_eq_natCast _ hs, Nat.abs_cast, wrapElem_natCast ha, Bool.false_eq_true, if_false]

theorem negElem_eq {t : VTy} (mode : RMode) {a : Nat} (ha : a < 2 ^ t.bits) :
    negElem t mode a = match t.ff with
      | some _ => ((a + 2 ^ (t.bits - 1)) % 2 ^ t.bits, fNone)
      | none => (wrapElem t.bits (0 - (a : Int)), fNone) := by
  unfold negElem
  cases ht : t.ff with
  | some k => simp only [FF.negate, VTy.ff_sign ht, invertTop_eq (elemBits_pos t) ha]
  | none => simp only [zero_sub]

/-- The NaN result of a function of one operand (R66). -/
theorem nanOf_singleton (k : FF) (a : Nat) :
    nanOf k [a] = if k.isNan a then some (k.quiet a, if k.isSnan a then fNV else fNone) else none := by
  unfold nanOf
  cases h : k.isNan a <;> simp [h]

theorem reluElem_eq {t : VTy} (mode : RMode) {a : Nat} (ha : a < 2 ^ t.bits) :
    reluElem t mode a = match t.ff with
      | some k => if k.isNan a then (k.quiet a, if k.isSnan a then fNV else fNone)
        else (if 2 ^ (t.bits - 1) ≤ a then 0 else a, fNone)
      | none => (wrapElem t.bits (max 0 (VTy.int t a)), fNone) := by
  unfold reluElem
  cases ht : t.ff with
  | some k => cases hn : k.isNan a <;> simp [nanOf_singleton, hn, topBit_iff (elemBits_pos t) ha]
  | none =>
    cases hs : t.signed with
    | false => simp [VTy.int_eq_natCast _ hs, wrapElem_natCast ha]
    | true =>
      have hv : VTy.int t a = sElem t.bits a := by rw [VTy.int, if_pos hs]
      by_cases hneg : sElem t.bits a < 0
      · simp [hv, hneg, max_eq_left hneg.le, wrapElem]
      · have hcode : wrapElem t.bits (sElem t.bits a) = a := by
          rw [← hv, wrapElem_congr (VTy.int_modEq t a), wrapElem_natCast ha]
        simp [hv, hneg, max_eq_right (not_lt.1 hneg), hcode]

/-- A code's complement within its width. -/
theorem sub_eq_toNat_not {w a : Nat} (ha : a < 2 ^ w) : 2 ^ w - 1 - a = (~~~(BitVec.ofNat w a)).toNat := by
  rw [BitVec.toNat_not, BitVec.toNat_ofNat, Nat.mod_eq_of_lt ha]

/-- The leading zeros of a code are those above its highest one bit. -/
theorem sub_bitLen_eq_find? {w a : Nat} (ha : a < 2 ^ w) :
    w - bitLen a = ((List.range w).find? fun i => a.testBit (w - 1 - i)).getD w := by
  have hle : bitLen a ≤ w := bitLen_le ha
  refine (find?_range_getD (Nat.sub_le _ _) (fun j hj => ?_) fun hk => ?_).symm
  · exact Nat.testBit_lt_two_pow ((lt_two_pow_bitLen a).trans_le (Nat.pow_le_pow_right (by decide) (by omega)))
  · have htop : w - 1 - (w - bitLen a) = bitLen a - 1 := by omega
    rw [htop]
    exact testBit_bitLen_sub_one (by omega)

theorem VTy.bits_le (t : VTy) : t.bits ≤ 32 := by cases t <;> decide

/-- The one bits of a code, counted in a word that holds it. -/
theorem popLow_ofNat_eq_countP {n w a : Nat} (hw : w ≤ n) :
    popLow (BitVec.ofNat n a) w = (List.range w).countP a.testBit := by
  rw [popLow_eq_countP]
  refine List.countP_congr fun i hi => ?_
  have hin : i < n := (List.mem_range.1 hi).trans_le hw
  rw [BitVec.getLsbD_ofNat, decide_eq_true hin, Bool.true_and]

end Sys2Proof.Machine

open Sys2Proof Sys2Proof.Machine

/-- Settles O24: on the codes that elements have, each function of the model is the rule's. -/
theorem Sys2Proof.vectorUnaryResults : Obligations.VectorUnaryResults := by
  unfold Obligations.VectorUnaryResults
  intro bits flt flts
  have hbits : bits = VTy.asBits := by funext t; cases t <;> rfl
  have hflt : flt = VTy.asF32 := rfl
  have hflts : ∀ g t mode a, a < 2 ^ t.bits → fltElem g t mode a = flts g t mode a := by
    intro g t mode a _
    cases t <;> rfl
  rw [hbits, hflt]
  exact ⟨vecUnRule_vUn fun _ m _ => absElem_eq m, vecUnRule_vUn fun _ m _ => negElem_eq m, vecUnRule_vUn (hflts _),
    vecUnRule_vUn (hflts _), vecUnRule_vUn (hflts _), vecUnRule_vUn (hflts _), vecUnRule_vUn (hflts _),
    vecUnRule_vUn fun _ _ _ _ => rfl, vecUnRule_vUn fun _ _ _ ha => congrArg (·, fNone) (sub_eq_toNat_not ha),
    vecUnRule_vUn fun _ _ _ ha => congrArg (·, fNone) (sub_bitLen_eq_find? ha),
    vecUnRule_vUn fun t _ _ _ => congrArg (·, fNone) (popLow_ofNat_eq_countP (VTy.bits_le t)),
    vecUnRule_vUn fun _ m _ => reluElem_eq m⟩

end


-- The comparisons of vectors and the selection.
section

namespace Sys2Proof.Machine

/-! A mask built from the truth values of its lanes. -/

/-- A sum of powers of two below n has the bits of the powers that it counts. -/
theorem foldl_addPow_lt (p : Nat → Bool) (n : Nat) :
    (List.range n).foldl (fun acc i => if p i then acc + 2 ^ i else acc) 0 < 2 ^ n := by
  induction n with
  | zero => exact Nat.one_pos
  | succ n ih =>
    rw [List.range_succ, List.foldl_append, List.foldl_cons, List.foldl_nil]
    split <;> omega

theorem testBit_foldl_addPow (p : Nat → Bool) (n l : Nat) :
    ((List.range n).foldl (fun acc i => if p i then acc + 2 ^ i else acc) 0).testBit l = (decide (l < n) && p l) := by
  induction n with
  | zero => simp
  | succ n ih =>
    have hlt := foldl_addPow_lt p n
    rw [List.range_succ, List.foldl_append, List.foldl_cons, List.foldl_nil]
    rcases Nat.lt_trichotomy l n with h | rfl | h
    · rw [decide_eq_true h] at ih
      rw [decide_eq_true (h.trans n.lt_succ_self), ← ih]
      split
      · rw [Nat.add_comm, Nat.testBit_two_pow_add_gt h]
      · rfl
    · rw [decide_eq_true (Nat.lt_succ_self l), Bool.true_and]
      cases hp : p l with
      | true => rw [if_pos rfl, Nat.add_comm, Nat.testBit_two_pow_add_eq, Nat.testBit_lt_two_pow hlt, Bool.not_false]
      | false => rw [if_neg (by simp), Nat.testBit_lt_two_pow hlt]
    · have hle : 2 ^ (n + 1) ≤ 2 ^ l := Nat.pow_le_pow_right (by decide) h
      rw [decide_eq_false (by omega), Bool.false_and]
      refine Nat.testBit_lt_two_pow (lt_of_lt_of_le ?_ hle)
      split <;> omega

/-- A property of k elements from the o-th on, by their numbers. -/
theorem all_take_drop {α : Type} (p : α → Bool) (d : α) {xs : List α} {o k : Nat} (h : o + k ≤ xs.length) :
    ((xs.drop o).take k).all p = (List.range k).all fun e => p (xs.getD (o + e) d) := by
  have hx : (xs.drop o).take k = (List.range k).map fun e => xs.getD (o + e) d := by
    refine List.ext_getElem (by simp; omega) fun i h1 h2 => ?_
    have hi : o + i < xs.length := by simp at h1; omega
    simp [List.getElem?_eq_getElem hi]
  rw [hx, List.all_map]
  rfl

/-- Lane l of the mask holds where every element of the lane does (R196). -/
theorem getLsbD_laneAll {w l : Nat} {xs : List (Bool × Flags)} (hl : l < 128) (hlen : 32 / w * 128 ≤ xs.length) :
    (laneAll w (xs.map (·.1))).getLsbD l =
      (List.range (32 / w)).all fun e => (xs.getD (32 / w * l + e) (false, fNone)).1 := by
  have hin : 32 / w * l + 32 / w ≤ xs.length :=
    le_trans (by rw [← Nat.mul_succ]; exact Nat.mul_le_mul_left _ hl) hlen
  rw [laneAll, BitVec.getLsbD_ofNat, testBit_foldl_addPow, decide_eq_true hl, Bool.true_and, Bool.true_and, Nat.mul_comm l,
    ← List.map_drop, ← List.map_take, List.all_map, all_take_drop _ (false, fNone) hin]
  rfl

theorem State.length_vA (s : State) (va : VReg) (t : VTy) : (s.vA va t).length = t.count := by
  simp [State.vA, elems]

theorem State.length_vB (s : State) (b : VSrc) (t : VTy) : (s.vB b t).length = t.count := by
  cases b with
  | v n => exact s.length_vA n t
  | sc r => exact List.length_replicate

/-- Every lane holds its elements of the type. -/
theorem VTy.lane_count (t : VTy) : 32 / t.bits * 128 = t.count := by cases t <;> rfl

/-! The comparisons. -/

/-- A mask result, and flags, of the issuing bundle. -/
theorem produceM_flags_ok {s : State} {md : MReg} {fl : Flags} {lat : Nat} (hs : s.Stands)
    (ho : md = 0#2 ∨ InOrder s (.m md) lat) (v m : MWord) :
    produceM { s with cur := { s.cur with aFlags := s.cur.aFlags ||| fl } } md v m lat =
      .ok { s.withMask md v m lat with cur := { s.cur with aFlags := s.cur.aFlags ||| fl } } := by
  unfold produceM State.withMask
  split
  · rfl
  · exact produce_flags_ok hs (ho.resolve_left ‹_›) _ _

/-- A mask result leaves the issuing bundle. -/
@[simp] theorem State.withMask_cur (s : State) (md : MReg) (v m : MWord) (lat : Nat) : (s.withMask md v m lat).cur = s.cur := by
  unfold State.withMask State.withFlight
  split
  · rfl
  · exact State.updMe_cur _ _

/-- A mask destination that is written overtakes none, as the checks look for it. -/
theorem maskDest_inOrder {s : State} {md : MReg} {lat : Nat} (ho : md = 0#2 ∨ InOrder s (.m md) lat) :
    ∀ p ∈ maskDest md lat, InOrder s p.1 p.2 := by
  unfold maskDest
  split
  · exact nofun
  · simpa using ho.resolve_left ‹_›

/-- Which masks an instruction writes, and which writes it makes, does not tell whether its registers are usable. -/
theorem Usable.withMw {u : Uses} {s : State} (h : Usable u s) (mw : List MReg) (pw : List (FDest × Nat)) :
    Usable { u with mw := mw, pw := pw } s :=
  ⟨h.window, h.vectors, h.writable, h.present, h.vpresent, h.idle, h.vidle, h.landed, h.acquired⟩

theorem cmpElem_eq_vRel {r : Rel} {p : Int → Int → Bool} (hp : ∀ a b, intRel r a b = p a b) (t : VTy) (a b : Nat) :
    cmpElem r t a b = vRel p r t a b := by
  unfold cmpElem vRel
  cases t.ff with
  | some k => rfl
  | none => simp only [hp]

/-- The registers of a comparison. -/
theorem cmpUses_eq (va : VReg) (b : VSrc) (mk : MReg) :
    ({ Uses.none with vr := va :: b.vregs, sr := b.sregs, mr := [mk] } : Uses) = { binUses va b with mr := [mk] } := by
  cases b <;> rfl

/-- A comparison whose registers are usable and whose active flags do not trap leaves its mask in flight (R196). -/
theorem vCmp_ok {r : Rel} {md : MReg} {va : VReg} {b : VSrc} {m : VMod} {s : State} {xs : List (Bool × Flags)}
    (hxs : List.zipWith (cmpElem r m.ty) (s.vA va m.ty) (s.vB b m.ty) = xs) (hs : s.Stands)
    (hu : Usable { binUses va b with mr := [m.msk] } s)
    (hf : NoTrap s (activeFlags (s.maskVal m.msk) m.ty.bits (xs.map fun x => (0, x.2)))) (ho : md = 0#2 ∨ InOrder s (.m md) 2) :
    vCmp r md va b m s = (s.withMask md (laneAll m.ty.bits (xs.map (·.1))) (s.maskVal m.msk) 2).aDone
      (activeFlags (s.maskVal m.msk) m.ty.bits (xs.map fun x => (0, x.2))) := by
  rw [← cmpUses_eq] at hu
  have hg : gate .a { Uses.none with vr := va :: b.vregs, sr := b.sregs, mr := [m.msk], mw := [md], pw := maskDest md 2 } s = .ok () :=
    gate_ok .a (hu.withMw [md] (maskDest md 2)) (maskDest_inOrder ho)
  unfold State.vA at hxs
  unfold vCmp
  simp only [hg, State.vsrc_eq_vB, hxs, setFlags_ok hf, produceM_flags_ok hs ho, except_ok_bind]
  unfold State.aDone
  rw [State.withMask_cur]
  rfl

/-- A comparison follows the rule of its relation (R196). -/
theorem vecCmpRule_vCmp {r : Rel} {p : Int → Int → Bool} {i : MReg → VReg → VSrc → VMod → Instr}
    (hp : ∀ a b, intRel r a b = p a b)
    (hi : ∀ md va b m s, exec (i md va b m) s = .next (vCmp r md va b m s) := by intros; rfl) :
    VecCmpRule i (vRel p r) := by
  intro md va b m s xs fl hs hu hf ho
  have hxs : List.zipWith (cmpElem r m.ty) (s.vA va m.ty) (s.vB b m.ty) = xs :=
    zipWith_congr_mem fun x _ y _ => cmpElem_eq_vRel hp m.ty x y
  refine ⟨laneAll m.ty.bits (xs.map (·.1)), ?_, ?_⟩
  · intro l hl
    refine getLsbD_laneAll hl ?_
    rw [VTy.lane_count, List.length_zipWith, State.length_vA, State.length_vB, min_self]
  · exact (hi ..).trans (congrArg Host.Outcome.next (vCmp_ok hxs hs hu hf ho))

end Sys2Proof.Machine

open Sys2Proof Sys2Proof.Machine

/-- Settles O25: the relations of the model are the rule's, and a lane's bit is that of all its elements. -/
theorem Sys2Proof.vectorComparisonAndSelectResults : Obligations.VectorComparisonAndSelectResults := by
  unfold Obligations.VectorComparisonAndSelectResults
  refine ⟨vecCmpRule_vCmp fun _ _ => rfl, vecCmpRule_vCmp fun _ _ => (decide_not ..).symm, vecCmpRule_vCmp fun _ _ => rfl,
    vecCmpRule_vCmp fun _ _ => rfl, vecCmpRule_vCmp fun _ _ => rfl, vecCmpRule_vCmp fun _ _ => rfl,
    vecCmpRule_vCmp fun _ _ => rfl, vecCmpRule_vCmp fun _ _ => rfl, fun vd va b mk m s => ?_⟩
  rw [← cmpUses_eq]
  refine vecResult_vecOut rfl ?_
  rw [List.mapIdx_eq_zipIdx_map, State.vsrc_eq_vB]
  rfl

end

-- The conversions of vectors.
section

namespace Sys2Proof.Machine

/-- The targets that are the source type itself (R198). -/
theorem cvtSame_of_mem : ∀ p ∈ [(CvtCode.f32, VTy.f32), (.bf16, .bf16), (.f16, .f16), (.i32, .i32), (.n32, .n32), (.i16, .i16),
    (.i8, .i8), (.n8, .n8)], cvtSame p.1 p.2 = true := by
  decide

theorem length_cvtElems (c : CvtCode) (t : VTy) (mode : RMode) (v : VWord) : (cvtElems c t mode v).length = 4096 / cvtBits c := by
  simp only [cvtElems, elems, List.length_append, List.length_map, List.length_range, List.length_replicate]
  omega

/-- The converted elements of a register (R198). -/
theorem getElem?_cvtElems_of_lt {c : CvtCode} {t : VTy} {j : Nat} (mode : RMode) (v : VWord)
    (h : j < min t.count (4096 / cvtBits c)) :
    (cvtElems c t mode v)[j]? = some (cvtElem c t mode (elemAt v t.bits j)) := by
  rw [cvtElems, List.getElem?_append_left (by simpa [elems] using h)]
  simp [elems, List.getElem?_range h]

/-- The zero codes above them. -/
theorem getElem?_cvtElems_of_le {c : CvtCode} {t : VTy} {j : Nat} (mode : RMode) (v : VWord)
    (h : min t.count (4096 / cvtBits c) ≤ j) (hj : j < 4096 / cvtBits c) :
    (cvtElems c t mode v)[j]? = some (if c = .ds8 then 0x77 else 0, fNone) := by
  rw [cvtElems, List.getElem?_append_right (by simpa [elems] using h)]
  simp only [elems, List.length_map, List.length_range]
  exact List.getElem?_replicate_of_lt (by omega)

end Sys2Proof.Machine

open Sys2Proof Sys2Proof.Machine

/-- Settles O26: the converted elements stand first, and the zero codes above them. -/
theorem Sys2Proof.vectorConversionResults : Obligations.VectorConversionResults := by
  unfold Obligations.VectorConversionResults
  intro vd va tc sb m s nt k
  refine ⟨⟨cvtElems tc m.ty s.fmode (s.vecVal va), length_cvtElems .., fun j hj => getElem?_cvtElems_of_lt _ _ hj,
    fun j hk hj => getElem?_cvtElems_of_le _ _ hk hj, vecResult_vecOut rfl rfl⟩, ?_⟩
  rintro c mode a hmem rfl
  rw [cvtElem, if_pos (cvtSame_of_mem _ hmem)]

end

-- Moving elements, and the mask instructions.
section

namespace Sys2Proof.Machine

/-! One element inserted (R200). -/

/-- A run of w ones from bit o on. -/
theorem getLsbD_onesAt {w o i : Nat} (hi : i < 4096) :
    (BitVec.ofNat 4096 (2 ^ w - 1) <<< o).getLsbD i = decide (o ≤ i ∧ i < o + w) := by
  rw [BitVec.getLsbD_shiftLeft, BitVec.getLsbD_ofNat, Nat.testBit_two_pow_sub_one, decide_eq_true hi, Bool.true_and,
    decide_eq_true (show i - o < 4096 by omega), Bool.true_and, ← decide_not, ← Bool.decide_and]
  congr 1
  apply propext
  omega

/-- The low w bits of a word, placed at bit o. -/
theorem getLsbD_placedAt {x : W64} {w o i : Nat} (hi : i < 4096) (ho : o ≤ i) (hw : i < o + w) :
    (BitVec.ofNat 4096 (x.toNat % 2 ^ w) <<< o).getLsbD i = x.getLsbD (i - o) := by
  rw [BitVec.getLsbD_shiftLeft, BitVec.getLsbD_ofNat, Nat.testBit_mod_two_pow, decide_eq_true hi,
    decide_eq_true (show i - o < 4096 by omega), decide_eq_false (show ¬i < o by omega),
    decide_eq_true (show i - o < w by omega)]
  simp [BitVec.getLsbD]

/-- A bundle without flags is done once it has its result. -/
theorem State.aDone_fNone (s : State) : s.aDone fNone = { s with cur := { s.cur with res := .committed } } := by
  simp [State.aDone, fNone]

/-! The mask instructions (R201). -/

/-- A mask instruction follows the rule of its value. -/
theorem maskRule_maluOp {i : Instr} {ms : List MReg} {md : MReg} {f : State → MWord} {v : MWord} {s : State}
    (hi : exec i s = .next (maluOp ms md f s)) (hf : f s = v) : MaskRule i ms md s v := by
  subst hf
  intro hs hu ho
  have hg : gate .a { Uses.none with mr := ms, mw := [md], pw := maskDest md 1 } s = .ok () :=
    gate_ok .a (hu.withMw [md] (maskDest md 1)) (maskDest_inOrder ho)
  rw [hi, maluOp]
  simp only [hg, produceM_ok hs ho, bind, Except.bind, pure, Except.pure, run, State.aDone_fNone]

end Sys2Proof.Machine

open Sys2Proof Sys2Proof.Machine

/-- Settles O28: each of the instructions leaves the rule's elements, or the rule's mask or count. -/
theorem Sys2Proof.elementAndMaskResults : Obligations.ElementAndMaskResults := by
  unfold Obligations.ElementAndMaskResults
  refine ⟨?_, ?_⟩
  · intro vd va b rd rs rl m ty s n xs e x
    refine ⟨?_, vecResult_vecOut rfl rfl, vecResult_vecOut rfl rfl, scalarResult_of_eq rfl rfl, fun hs hu ho => ?_⟩
    · rw [← binUses_eq]
      refine vecResult_vecOut rfl ?_
      rw [List.mapIdx_eq_zipIdx_map, State.vsrc_eq_vB]
      rfl
    · have hg := gate_ok .a (hu.withPw [(.v vd, 2)]) (by simpa using ho)
      refine ⟨BitVec.ofNat 4096 ((s.regVal rs).toNat % 2 ^ ty.bits) <<< (ty.bits * e),
        BitVec.ofNat 4096 (2 ^ ty.bits - 1) <<< (ty.bits * e), ?_, fun i hi => ⟨getLsbD_onesAt hi, fun hk => ?_⟩⟩
      · change Host.Outcome.next (run (Except.bind _ _)) = _
        rw [hg]
        change Host.Outcome.next (run (Except.bind (produce s (.v vd) _ _ 2) _)) = _
        rw [produce_ok hs ho, State.aDone_fNone]
        rfl
      · rw [getLsbD_onesAt hi, decide_eq_true_iff] at hk
        exact getLsbD_placedAt hi hk.1 hk.2
  · intro md ma mb rd s a b
    refine ⟨maskRule_maluOp rfl rfl, maskRule_maluOp rfl rfl, maskRule_maluOp rfl rfl, maskRule_maluOp rfl rfl, maskRule_maluOp rfl rfl,
      maskRule_maluOp rfl rfl, maskRule_maluOp rfl rfl, scalarResult_of_eq rfl ?_, scalarResult_of_eq rfl ?_⟩
    · rw [popLow_eq_countP]
    · rw [ctzFrom_eq_find?, Nat.zero_add, ← List.range_eq_range']

end


-- The vector loads and stores on their way.
section

namespace Sys2Proof.Machine

/-! The checks of the accesses (R203). -/

/-- Where every check of the pieces passes, no byte and nothing of the threads has changed. -/
theorem calm_vecAccess {nd : Need} {ps : List Piece} {s t : State} {us : List VUnit} {e : Nat}
    (h : vecAccess nd ps s = .ok (us, e, t)) : s.Calm t ∧ t.mem = s.mem := by
  induction ps generalizing s us e with
  | nil =>
    cases h
    exact ⟨.refl _, rfl⟩
  | cons p ps ih =>
    obtain ⟨⟨x, s1⟩, hx, h⟩ := except_bind_eq_ok_iff.1 h
    obtain ⟨hc, hm⟩ := calm_access hx
    dsimp only at h
    split at h
    · cases h
    · obtain ⟨us', e', hr⟩ : ∃ us' e', vecAccess nd ps s1 = .ok (us', e', t) := by
        split at h
        · obtain ⟨-, -, h⟩ := except_bind_eq_ok_iff.1 h
          obtain ⟨r, hr, h⟩ := except_bind_eq_ok_iff.1 h
          cases h
          exact ⟨_, _, hr⟩
        · obtain ⟨r, hr, h⟩ := except_bind_eq_ok_iff.1 h
          cases h
          exact ⟨_, _, hr⟩
      obtain ⟨hc', hm'⟩ := ih hr
      exact ⟨hc.trans hc', hm'.trans hm⟩

/-- Where every check of the blocks of a row passes, no byte and nothing of the threads has changed. -/
theorem calm_rowBlocks {fuel va n : Nat} {s t : State} {bs : List (Piece × List Byte × Bool)} {e : Nat}
    (h : rowBlocks fuel va n s = .ok (bs, e, t)) : s.Calm t ∧ t.mem = s.mem := by
  induction fuel generalizing va n s bs e with
  | zero =>
    cases h
    exact ⟨.refl _, rfl⟩
  | succ fuel ih =>
    unfold rowBlocks at h
    split at h
    · cases h
      exact ⟨.refl _, rfl⟩
    · obtain ⟨⟨x, s1⟩, hx, h⟩ := except_bind_eq_ok_iff.1 h
      obtain ⟨hc, hm⟩ := calm_access hx
      dsimp only at h
      split at h
      · cases h
      · obtain ⟨⟨bs', e', t'⟩, hr, h⟩ := except_bind_eq_ok_iff.1 h
        cases h
        obtain ⟨hc', hm'⟩ := ih hr
        exact ⟨hc.trans hc', hm'.trans hm⟩

theorem wordAligned_ok {base stride : W64} (hb : base.toNat % 4 = 0) (hs : stride.toNat % 4 = 0) (s : State) (ps : List Piece)
    (acc : Nat) : wordAligned s ps base stride acc = .ok () := by
  unfold wordAligned
  simp [hb, hs]

theorem eightFit_ok {s : State} {vd : VReg} (h : vd.toNat + 7 < s.me.vn) : eightFit s vd = .ok () :=
  if_neg (not_le.2 h)

/-! The registers that await a vector load (R14). -/

/-- A vector register of a thread is absent and pending. -/
def Thread.awaitsV (t : Thread) (n : VReg) : Prop :=
  (t.regs.v.get n.toFin).pres = false ∧ (t.regs.v.get n.toFin).pend = true

/-- A register made to await awaits, and so does one that did. -/
theorem Thread.awaitsV_coverV {t : Thread} {n m : VReg} (h : m = n ∨ t.awaitsV m) :
    (t.coverV n (t.regs.v.get n.toFin).await).awaitsV m := by
  rw [Thread.coverV_eq]
  unfold Thread.awaitsV Thread.setV
  by_cases hmn : m = n
  · subst hmn
    simp [Vector.get_eq_getElem, VCell.await]
  · have hne : n.toFin.val ≠ m.toFin.val := fun e => hmn (BitVec.eq_of_toNat_eq e.symm)
    simp only [Vector.get_eq_getElem, Vector.getElem_set_ne _ _ hne]
    exact h.resolve_left hmn

theorem State.Stands.me_awaitV {s : State} (hs : s.Stands) (n : VReg) :
    (s.awaitV n).me = s.me.coverV n (s.me.regs.v.get n.toFin).await := hs.me_updMe _

/-- A committed bundle whose vector register awaits is committed still. -/
theorem Awaiting.awaitV {s t : State} (h : Awaiting s t .zr) (n : VReg) : Awaiting s (t.awaitV n) .zr := by
  have hme := h.stands.me_awaitV n
  rw [Thread.coverV_eq] at hme
  have hcur : (t.awaitV n).cur = t.cur := State.updMe_cur _ _
  exact ⟨h.stands.after_updMe _, hcur ▸ h.cid, hcur ▸ h.slot, hcur ▸ h.res,
    (State.meWho_congr (congrArg Cur.cid hcur) (congrArg Cur.slot hcur) (by rw [hme]; rfl)).trans h.who,
    (congrArg Thread.pc hme).trans h.pc, (State.updMe_mem _ _).trans h.mem, nofun⟩

/-- The registers from vd on that a load writes await it. -/
theorem Awaiting.awaitVs {s t : State} (h : Awaiting s t .zr) (vd : VReg) (count : Nat) :
    let u := (List.range count).foldl (fun s k => s.awaitV (vd + BitVec.ofNat 4 k)) t
    Awaiting s u .zr ∧ ∀ k < count, u.me.awaitsV (vd + BitVec.ofNat 4 k) := by
  induction count with
  | zero => exact ⟨h, nofun⟩
  | succ n ih =>
    obtain ⟨hu, hk⟩ := ih
    rw [List.range_succ, List.foldl_append, List.foldl_cons, List.foldl_nil]
    refine ⟨hu.awaitV _, fun k hlt => ?_⟩
    rw [hu.stands.me_awaitV]
    refine Thread.awaitsV_coverV ((Nat.lt_succ_iff_lt_or_eq.1 hlt).symm.imp (fun e => ?_) (hk k))
    rw [e]

/-! A vector request on its way. -/

theorem State.sameThreads_sendVec (s : State) (us : List VUnit) (kind : ReqKind) (dst : RDest) (acc lat : Nat) :
    s.SameThreads (sendVec s us kind dst acc lat) :=
  (s.calm_fresh.sameThreads.trans (State.sameThreads_addReq _ _)).trans (State.calm_urgent _ _).sameThreads

/-- What stands once a committed bundle's vector request is on its way: the bundle, and the request. -/
theorem Awaiting.sendVec {s t : State} (h : Awaiting s t .zr) (us : List VUnit) (kind : ReqKind) (dst : RDest) (acc lat : Nat) :
    Awaiting s (sendVec t us kind dst acc lat) .zr ∧
      ∃ q ∈ (sendVec t us kind dst acc lat).reqs, q.kind = kind ∧ q.dst = dst ∧ q.who = s.meWho :=
  ⟨h.sameThreads (t.sameThreads_sendVec us kind dst acc lat) (congrArg Cur.res (State.addReq_cur _ _)) (State.addReq_mem _ _),
    _, State.mem_addReq _ _, rfl, rfl, h.who⟩

/-- A vector load whose pieces pass their checks is on its way, and its registers await it (R203). -/
theorem vecLoad_ok {h : Hdr} {vd : VReg} {count : Nat} {ps : List Piece} {form : VForm} {msk : MReg} {lat : Nat} {s s' : State}
    {us : List VUnit} {e : Nat} (hs : s.Stands) (hx : vecAccess needLoad ps s = .ok (us, e, s')) :
    ∃ t, vecLoad h vd count ps form msk lat s = .ok t ∧ Awaiting s t .zr ∧
      (∃ q ∈ t.reqs, q.kind = .vload us form (s.maskVal msk) ∧ q.dst = .v vd count ∧ q.who = s.meWho) ∧
      ∀ k < count, t.me.awaitsV (vd + BitVec.ofNat 4 k) := by
  obtain ⟨hc, hm⟩ := calm_vecAccess hx
  have hcom : Awaiting s (commitNext s' h .drops (loneW h)) .zr :=
    hc.sameThreads.awaiting hm ((hc.stands hs).awaiting h .drops (loneW h) .zr)
  obtain ⟨hu, hk⟩ := hcom.awaitVs vd count
  obtain ⟨ht, hq⟩ := hu.sendVec us (.vload us form (s.maskVal msk)) (.v vd count) 0 (lat + e)
  refine ⟨_, ?_, ht, hq, fun k hlt => ?_⟩
  · unfold vecLoad
    rw [hx]
    rfl
  · rw [(State.sameThreads_sendVec _ us _ _ 0 (lat + e)).me]
    exact hk k hlt

/-- The side effects of a vector store's units, but those in the core's own banks (R384). -/
def State.markUnits (s : State) (us : List VUnit) : State :=
  us.foldl (fun s u => if u.own then s else s.markSide (s.partNum s.cur.cid) (s.inRev s.me) (s.myLevel u.va)) s

theorem State.markUnits_eq (s : State) (us : List VUnit) : s.markUnits us = { s with fams := (s.markUnits us).fams } := by
  induction us generalizing s with
  | nil => rfl
  | cons u us ih =>
    unfold State.markUnits at ih ⊢
    rw [List.foldl_cons, ih]
    split
    · rfl
    · rw [State.markSide_eq]

/-- A committed bundle is committed still when the side effects of its stores are marked. -/
theorem Awaiting.markUnits {s t : State} (h : Awaiting s t .zr) (us : List VUnit) :
    Awaiting s (t.markUnits us) .zr ∧ (t.markUnits us).me = t.me := by
  rw [State.markUnits_eq]
  have hsame : t.SameThreads { t with fams := (t.markUnits us).fams } := .of_cores rfl rfl rfl
  exact ⟨h.sameThreads hsame rfl rfl, hsame.me⟩

/-- A vector store whose pieces pass their checks is on its way, and no register has changed (R203). -/
theorem vecStore_ok {h : Hdr} {ps : List (Piece × Nat)} {s s' : State} {us : List VUnit} {e : Nat} (hs : s.Stands)
    (hx : vecAccess needStore (ps.map (·.1)) s = .ok (us, e, s')) :
    ∃ t, vecStore h ps s = .ok t ∧ Awaiting s t .zr ∧
      (∃ q ∈ t.reqs, q.kind = .vstore (us.zip (ps.map (·.2))) ∧ q.who = s.meWho) ∧ t.me.regs = s.me.regs := by
  obtain ⟨hc, hm⟩ := calm_vecAccess hx
  have hcom : Awaiting s (commitNext s' h .drops (loneW h)) .zr :=
    hc.sameThreads.awaiting hm ((hc.stands hs).awaiting h .drops (loneW h) .zr)
  obtain ⟨hu, hme⟩ := hcom.markUnits us
  obtain ⟨ht, q, hq, hkind, -, hwho⟩ := hu.sendVec us (.vstore (us.zip (ps.map (·.2)))) .none 1 e
  refine ⟨_, ?_, ht, ⟨q, hq, hkind, hwho⟩, ?_⟩
  · unfold vecStore
    rw [hx]
    rfl
  · rw [(State.sameThreads_sendVec _ us _ _ 1 e).me, hme, commitNext, commit_me (hc.stands hs), hc.me]
    rfl

/-! The forms of the instructions. -/

/-- A vector load, once its registers and its base have passed their checks. -/
theorem vecLoads_of_vecLoad {i : Instr} {u : Uses} {h : Hdr} {vd : VReg} {count : Nat} {ps : List Piece} {form : VForm} {msk : MReg}
    {lat : Nat} {s : State}
    (hi : s.me.hold = .none → gateC u s = .ok () → memGate s = .ok () →
      exec i s = .next (run (vecLoad h vd count ps form msk lat s))) (hpw : u.pw = [] := by rfl) :
    VecLoads i u vd count ps form msk s := by
  intro hs hb hh hu ha us e s' hx
  obtain ⟨t, ht, hcom, ⟨q, hq, hkind, hdst, hwho⟩, hk⟩ := vecLoad_ok (h := h) (vd := vd) (count := count) (form := form) (msk := msk)
    (lat := lat) hs hx
  exact ⟨t, q, by rw [hi hh (gateC_usable hu hb hpw) (memGate_ok ha), ht]; rfl, hcom.res, hcom.pc, hcom.mem, hq, hkind, hdst, hwho, hk⟩

/-- A vector store, once its registers and its base have passed their checks. -/
theorem vecStores_of_vecStore {i : Instr} {u : Uses} {h : Hdr} {ps : List (Piece × Nat)} {s : State}
    (hi : s.me.hold = .none → gateC u s = .ok () → memGate s = .ok () → exec i s = .next (run (vecStore h ps s)))
    (hpw : u.pw = [] := by rfl) : VecStores i u ps s := by
  intro hs hb hh hu ha us e s' hx
  obtain ⟨t, ht, hcom, ⟨q, hq, hkind, hwho⟩, hregs⟩ := vecStore_ok (h := h) hs hx
  exact ⟨t, q, by rw [hi hh (gateC_usable hu hb hpw) (memGate_ok ha), ht]; rfl, hcom.res, hcom.pc, hcom.mem, hq, hkind, hwho, hregs⟩

theorem lanePieces_eq_laneUnits (s : State) (msk : MReg) (vd : VReg) (base stride : W64) :
    lanePieces (s.activeLanes msk) vd base stride = laneUnits s msk vd base stride := by
  simp only [lanePieces, laneUnits, State.activeLanes, BitVec.mul_comm stride]

/-- The number of elements that a VLDM destination holds (R210). -/
theorem mxCount_eq (dest : MxDest) : 4096 / (MxDest.ff dest).width = if dest = .f32 then 128 else 256 := by
  cases dest <;> rfl

theorem laneOf_eq (v : VWord) (i : Nat) : laneOf v i = (v.extractLsb' (32 * i) 32).toNat := rfl

/-- The pieces of a gather or scatter, at the base plus the signed index of their lane (R208). -/
theorem indexPieces_eq (lanes : List Nat) (vd : VReg) (base : W64) (vi : VWord) (n : Nat) :
    indexPieces lanes vd base vi n = lanes.map fun i =>
      { va := base + (vi.extractLsb' (32 * i) 32).signExtend 64, n := n, align := n, reg := vd, lo := 32 * i } := by
  simp only [indexPieces, laneOf_eq, BitVec.ofNat_toNat, BitVec.setWidth_eq]

/-- The value that a piece of a vector store drains: its lane of its register. -/
def State.pieceVal (s : State) (p : Piece) : Nat := ((s.vecVal p.reg).extractLsb' p.lo 32).toNat

/-- The pieces of one register, each with its lane. -/
theorem lanePieces_zip (s : State) (lanes : List Nat) (vd : VReg) (base stride : W64) :
    (lanePieces lanes vd base stride).zip (lanes.map (laneOf (s.vecVal vd))) =
      (lanePieces lanes vd base stride).map fun p => (p, s.pieceVal p) := by
  rw [lanePieces, List.zip_map', List.map_map]
  rfl

/-- Every piece of a block lies at the start of its lane. -/
theorem blockPieces_zip (s : State) (lanes : List Nat) (vd : VReg) (base : W64) :
    (blockPieces lanes vd base).zip ((blockPieces lanes vd base).map fun p => laneOf (s.vecVal p.reg) (p.lo / 32)) =
      (blockPieces lanes vd base).map fun p => (p, s.pieceVal p) := by
  rw [← List.map_prod_left_eq_zip]
  refine List.map_congr_left fun p hp => ?_
  obtain ⟨i, -, hp⟩ := List.mem_flatMap.1 hp
  obtain ⟨j, -, rfl⟩ := List.mem_map.1 hp
  rw [State.pieceVal, laneOf_eq, Nat.mul_div_cancel_left _ (by decide)]

theorem indexPieces_zip (lanes : List Nat) (vd : VReg) (base : W64) (vi v : VWord) (n : Nat) :
    (indexPieces lanes vd base vi n).zip (lanes.map (laneOf v)) = lanes.map fun i =>
      ({ va := base + (vi.extractLsb' (32 * i) 32).signExtend 64, n := n, align := n, reg := vd, lo := 32 * i },
        (v.extractLsb' (32 * i) 32).toNat) := by
  rw [indexPieces_eq, List.zip_map']
  rfl

end Sys2Proof.Machine

open Sys2Proof Sys2Proof.Machine

/-- Settles O29: once its checks have passed, a vector load commits, its registers await it, and its request is sent. -/
theorem Sys2Proof.vectorLoadsComplete : Obligations.VectorLoadsComplete := by
  unfold Obligations.VectorLoadsComplete
  intro h vd ra rb vi msk sz ty dest el s
  dsimp only
  refine ⟨fun hal hw => ?_, fun hal hbl => ?_, fun hal hv => ?_, ?_, ?_, ?_⟩
  · rw [← lanePieces_eq_laneUnits]
    refine vecLoads_of_vecLoad (h := h) (lat := 3) fun hh hg hm => congrArg (Host.Outcome.next ∘ run) ?_
    simp only [hg, State.doneVal_of_none hh, hm, hw, wordAligned_ok (stride := 0#64) hal rfl, except_ok_bind]
  · rw [← lanePieces_eq_laneUnits]
    refine vecLoads_of_vecLoad (h := h) (lat := ((s.activeLanes msk).length + 15) / 16) fun _ hg hm =>
      congrArg (Host.Outcome.next ∘ run) ?_
    simp only [hg, hm, wordAligned_ok hal hbl, except_ok_bind]
  · refine vecLoads_of_vecLoad (h := h) (lat := 31) fun _ hg hm => congrArg (Host.Outcome.next ∘ run) ?_
    simp only [eightFit_ok hv, hg, hm, wordAligned_ok (stride := 0#64) hal rfl, except_ok_bind]
    rfl
  · refine vecLoads_of_vecLoad (h := h) (lat := ((s.activeLanes msk).length + 15) / 16) fun _ hg hm =>
      congrArg (Host.Outcome.next ∘ run) ?_
    simp only [hg, hm, except_ok_bind]
    rw [indexPieces_eq]
    rfl
  · refine vecLoads_of_vecLoad (h := h) (lat := 4) fun _ hg hm => congrArg (Host.Outcome.next ∘ run) ?_
    simp only [hg, hm, mxCount_eq, except_ok_bind]
  · intro hs hb hu ha hout hal hva hoff bs e0 s' us e s'' hrow hx
    obtain ⟨hc, hm⟩ := calm_rowBlocks hrow
    obtain ⟨t, ht, hcom, ⟨q, hq, hkind, hdst, hwho⟩, -⟩ := vecLoad_ok (h := h) (vd := vd) (count := 1)
      (form := .tagged ty s.fmode (s.regVal rb).toNat (bs.map (·.2))) (msk := msk) (lat := bs.length + 3 + e0) (hc.stands hs) hx
    have hcom := hc.sameThreads.awaiting hm hcom
    refine ⟨t, q, congrArg (Host.Outcome.next ∘ run) (Eq.trans ?_ ht), hcom.res, hcom.pc, hcom.mem, hq, ?_, hdst,
      hwho.trans hc.meWho⟩
    · have hbad : ((s.regVal ra).toNat % 64 != 0 || decide (2 ^ 20 ≤ (s.regVal rb).toNat)) = false := by
        rw [hal, decide_eq_false (not_le.2 hoff)]
        rfl
      simp only [gateC_usable hu hb, memGate_ok ha, if_neg (not_le.2 hva), hbad, hout, hrow, except_ok_bind, Bool.false_eq_true,
        if_false]
    · rw [hkind, State.maskVal, State.maskVal, hc.me]

/-- Settles O30: once its checks have passed, a vector store commits and its request is sent, each unit with its value. -/
theorem Sys2Proof.vectorStoresComplete : Obligations.VectorStoresComplete := by
  unfold Obligations.VectorStoresComplete
  intro h vd ra rb vi msk sz s
  dsimp only
  refine ⟨fun hal hw => ?_, fun hal hbl => ?_, fun hal hv => ?_, ?_⟩
  · refine vecStores_of_vecStore (h := h) fun hh hg hm => congrArg (Host.Outcome.next ∘ run) ?_
    simp only [hg, State.doneVal_of_none hh, hm, hw, wordAligned_ok (stride := 0#64) hal rfl, except_ok_bind]
    rw [lanePieces_zip, lanePieces_eq_laneUnits]
    rfl
  · refine vecStores_of_vecStore (h := h) fun _ hg hm => congrArg (Host.Outcome.next ∘ run) ?_
    simp only [hg, hm, wordAligned_ok hal hbl, except_ok_bind]
    rw [lanePieces_zip, lanePieces_eq_laneUnits]
    rfl
  · refine vecStores_of_vecStore (h := h) fun _ hg hm => congrArg (Host.Outcome.next ∘ run) ?_
    simp only [eightFit_ok hv, hg, hm, wordAligned_ok (stride := 0#64) hal rfl, except_ok_bind]
    rw [blockPieces_zip]
    rfl
  · refine vecStores_of_vecStore (h := h) fun _ hg hm => congrArg (Host.Outcome.next ∘ run) ?_
    simp only [hg, hm, except_ok_bind]
    rw [indexPieces_zip]
    rfl

end


-- TWAIT and MSWP in a state whose list of cores is not in rising order.
section

namespace Sys2Proof.Machine

/-! A delivery point writes the issuing thread before the checks are made.  In coresOutOfOrder, whose list of cores is not in rising
order, that write makes the slice's budget count the bundle held beside it twice (R125), and the bundle traps. -/

theorem commitsBundle_commit (s : State) (h : Hdr) (ext : ExtUse) (w : Bool) (next : W64) :
    commitsBundle (.next (commit s h ext w next)) = true := by
  show ((commit s h ext w next).cur.res == .committed) = true
  rw [commit_res]
  rfl

/-- coresOutOfOrder with tile 5 of each core READY. -/
def tileOutOfOrder : State :=
  { coresOutOfOrder with cores := coresOutOfOrder.cores.map fun c => c.updTile 5 fun y => { y with st := .ready } }

theorem tileOutOfOrder_stands : tileOutOfOrder.Stands := ⟨by decide, by decide +kernel⟩

theorem twait_tileOutOfOrder_not_committed : commitsBundle (exec (.twait plainHdr 5#6) tileOutOfOrder) = false := by decide +kernel

/-- Refutes O39: TWAIT at a READY tile traps with the budget's cause, though its bundle was within the budget when it issued. -/
theorem not_tileInstructionsComplete : ¬ Obligations.TileInstructionsComplete := by
  unfold Obligations.TileInstructionsComplete
  intro h
  obtain ⟨-, -, hnone, -⟩ := h plainHdr 5#6 .zr .zr tileOutOfOrder tileOutOfOrder_stands (.inl (by decide +kernel))
  obtain ⟨-, -, -, hwait⟩ := hnone (usable_none _)
  have hnot := twait_tileOutOfOrder_not_committed
  rw [hwait (by decide +kernel) (by decide +kernel) (by decide +kernel), commitsBundle_commit] at hnot
  cases hnot

theorem mswp_coresOutOfOrder_not_committed : commitsBundle (exec (.mswp plainHdr) coresOutOfOrder) = false := by decide +kernel

/-- Refutes O40: MSWP with no load unconsumed traps with the budget's cause, though its bundle was within the budget when it issued. -/
theorem not_matrixInstructionsComplete : ¬ Obligations.MatrixInstructionsComplete := by
  unfold Obligations.MatrixInstructionsComplete
  intro h
  obtain ⟨hnone, -⟩ := h plainHdr 5#6 .zr .zr false 0#2 coresOutOfOrder coresOutOfOrder_stands coresOutOfOrder_inBudget
    (by decide +kernel) (by unfold State.Sound; decide +kernel)
  obtain ⟨-, -, hmswp, -⟩ := hnone (usable_none _) (by decide +kernel)
  have hnot := mswp_coresOutOfOrder_not_committed
  rw [hmswp (by decide +kernel), commitsBundle_commit] at hnot
  cases hnot

end Sys2Proof.Machine

end

-- Operations that leave the engines of the cores as they were.
section
/-! SUPPORT. What an operation leaves of the engines of the cores: their matrix engines, their copy engines and their tile tables. -/

namespace Sys2Proof.Machine

/-! Cores whose engines are the same. -/

/-- d is c but for its threads, what its L1 and its L1 TLB hold, and its counts of messages. -/
def Core.SameEngines (c d : Core) : Prop :=
  ∃ sl ru l1 tl se re, d = { c with slots := sl, runs := ru, l1 := l1, tlb1 := tl, sentCnt := se, recvCnt := re }

namespace Core.SameEngines

variable {c d e : Core}

theorem refl (c : Core) : c.SameEngines c := ⟨_, _, _, _, _, _, rfl⟩

theorem trans (h : c.SameEngines d) (k : d.SameEngines e) : c.SameEngines e := by
  obtain ⟨_, _, _, _, _, _, rfl⟩ := h
  obtain ⟨_, _, _, _, _, _, rfl⟩ := k
  exact ⟨_, _, _, _, _, _, rfl⟩

/-- What a function reads of the engines alone is the same. -/
theorem eq {α : Type} {f : Core → α} (hf : ∀ c sl ru l1 tl se re,
    f { c with slots := sl, runs := ru, l1 := l1, tlb1 := tl, sentCnt := se, recvCnt := re } = f c := by intros; rfl)
    (h : c.SameEngines d) : f d = f c := by
  obtain ⟨_, _, _, _, _, _, rfl⟩ := h
  exact hf ..

theorem tile (h : c.SameEngines d) (t : Nat) : d.tile t = c.tile t := h.eq (f := fun c => c.tile t)

theorem accAt (h : c.SameEngines d) (k : Nat) : d.accAt k = c.accAt k := h.eq (f := fun c => c.accAt k)

end Core.SameEngines

/-- The change f of a core goes by its engines, and changes nothing else. -/
def Core.OfEngines (f : Core → Core) : Prop := ∀ c d : Core, c.SameEngines d → (f c).SameEngines (f d)

theorem Core.ofEngines_of_eq {f : Core → Core} (hf : ∀ c sl ru l1 tl se re,
    f { c with slots := sl, runs := ru, l1 := l1, tlb1 := tl, sentCnt := se, recvCnt := re } =
      { f c with slots := sl, runs := ru, l1 := l1, tlb1 := tl, sentCnt := se, recvCnt := re } := by intros; rfl) : Core.OfEngines f := by
  rintro c _ ⟨_, _, _, _, _, _, rfl⟩
  exact ⟨_, _, _, _, _, _, hf ..⟩

theorem Core.OfEngines.comp {f g : Core → Core} (hg : Core.OfEngines g) (hf : Core.OfEngines f) : Core.OfEngines fun c => g (f c) :=
  fun c d h => hg _ _ (hf c d h)

theorem Core.ofEngines_updTile (t : Nat) (f : Tile → Tile) : Core.OfEngines fun c => c.updTile t f := by
  refine Core.ofEngines_of_eq fun c _ _ _ _ _ _ => ?_
  unfold Core.updTile
  split <;> rfl

theorem Core.ofEngines_updAcc (k : Nat) (f : Acc → Acc) : Core.OfEngines fun c => c.updAcc k f := by
  refine Core.ofEngines_of_eq fun c _ _ _ _ _ _ => ?_
  unfold Core.updAcc
  split <;> rfl

/-! Tiles and accumulators after a change. -/

theorem Core.tile_updTile_self (c : Core) {t : Nat} (h : t < 64) (f : Tile → Tile) : (c.updTile t f).tile t = f (c.tile t) := by
  simp [Core.tile, Core.updTile, h]

theorem Core.tile_updTile_ne (c : Core) {t j : Nat} (h : j ≠ t) (f : Tile → Tile) : (c.updTile t f).tile j = c.tile j := by
  unfold Core.updTile Core.tile
  split
  · split
    · simp [Ne.symm h]
    · rfl
  · rfl

theorem Core.accAt_updAcc_self (c : Core) {k : Nat} (h : k < 4) (f : Acc → Acc) : (c.updAcc k f).accAt k = f (c.accAt k) := by
  simp [Core.accAt, Core.updAcc, h]

/-- A change of a tile leaves what is read beside the tile table. -/
theorem Core.updTile_keeps {α : Type} (g : Core → α) (c : Core) (t : Nat) (f : Tile → Tile)
    (hg : ∀ c ts, g { c with tiles := ts } = g c := by intros; rfl) : g (c.updTile t f) = g c := by
  unfold Core.updTile
  split
  · exact hg ..
  · rfl

/-- A change of an accumulator leaves what is read beside the accumulators. -/
theorem Core.updAcc_keeps {α : Type} (g : Core → α) (c : Core) (k : Nat) (f : Acc → Acc)
    (hg : ∀ c a, g { c with acc := a } = g c := by intros; rfl) : g (c.updAcc k f) = g c := by
  unfold Core.updAcc
  split
  · exact hg ..
  · rfl

/-! States whose engines are the same. -/

/-- Between s and t the engines, memory and the time have stayed, and what was due still is. -/
structure State.EnginesStay (s t : State) : Prop where
  now : t.now = s.now
  dieCyc : t.dieCyc = s.dieCyc
  mem : t.mem = s.mem
  mhz : t.dev.mhz = s.dev.mhz
  due : ∀ d ∈ s.agenda, d ∈ t.agenda
  core : ∀ c, (s.core c).SameEngines (t.core c)

namespace State.EnginesStay

variable {s t u : State}

theorem refl (s : State) : s.EnginesStay s := ⟨rfl, rfl, rfl, rfl, fun _ h => h, fun _ => .refl _⟩

theorem trans (h : s.EnginesStay t) (k : t.EnginesStay u) : s.EnginesStay u :=
  ⟨k.now.trans h.now, k.dieCyc.trans h.dieCyc, k.mem.trans h.mem, k.mhz.trans h.mhz, fun d hd => k.due d (h.due d hd),
    fun c => (h.core c).trans (k.core c)⟩

theorem of_cores (hc : t.cores = s.cores) (now : t.now = s.now) (dieCyc : t.dieCyc = s.dieCyc) (mem : t.mem = s.mem)
    (mhz : t.dev.mhz = s.dev.mhz) (due : ∀ d ∈ s.agenda, d ∈ t.agenda) : s.EnginesStay t :=
  ⟨now, dieCyc, mem, mhz, due, fun c => State.core_congr hc c ▸ .refl _⟩

theorem of_calm (h : s.Calm t) (mem : t.mem = s.mem) (due : ∀ d ∈ s.agenda, d ∈ t.agenda) : s.EnginesStay t :=
  ⟨h.now, h.dieCyc, mem, by rw [h.dev], due, fun c => h.core c ▸ ⟨_, _, _, _, _, _, rfl⟩⟩

theorem foldl {α : Type} {f : State → α → State} (hf : ∀ (s : State) (x : α), s.EnginesStay (f s x)) (l : List α) (s : State) :
    s.EnginesStay (l.foldl f s) := by
  induction l generalizing s with
  | nil => exact refl s
  | cons x l ih => exact (hf s x).trans (ih _)

/-- Two changes of one core that differ in its threads alone. -/
theorem updCore_updCore (h : s.EnginesStay t) (k : Nat) {f g : Core → Core} (hfg : ∀ c d, c.SameEngines d → (f c).SameEngines (g d)) :
    (s.updCore k f).EnginesStay (t.updCore k g) := by
  refine ⟨h.now, h.dieCyc, h.mem, h.mhz, h.due, fun c => ?_⟩
  by_cases hc : c = k
  · subst hc
    rw [State.core_updCore_self, State.core_updCore_self]
    obtain ⟨sl, ru, l1, tl, se, re, e⟩ := hfg _ _ (h.core c)
    rw [e]
    exact ⟨sl, ru, l1, tl, se, re, rfl⟩
  · rw [State.core_updCore_ne _ _ _ _ hc, State.core_updCore_ne _ _ _ _ hc]
    exact h.core c

/-- The same change of the engines on both sides. -/
theorem updCore (h : s.EnginesStay t) (k : Nat) {f : Core → Core} (hf : Core.OfEngines f) :
    (s.updCore k f).EnginesStay (t.updCore k f) := h.updCore_updCore k hf

/-- A change that leaves the engines. -/
theorem of_updCore {f : Core → Core} (hf : ∀ c : Core, c.SameEngines (f c)) (k : Nat) : s.EnginesStay (s.updCore k f) := by
  refine ⟨rfl, rfl, rfl, rfl, fun _ h => h, fun c => ?_⟩
  by_cases hc : c = k
  · subst hc
    rw [State.core_updCore_self]
    obtain ⟨sl, ru, l1, tl, se, re, e⟩ := hf (s.core c)
    rw [e]
    have hcid := State.core_cid s c
    generalize s.core c = x at hcid
    subst hcid
    exact ⟨sl, ru, l1, tl, se, re, rfl⟩
  · rw [State.core_updCore_ne _ _ _ _ hc]
    exact .refl _

/-! What is due. -/

theorem urgent (s : State) (e : Ev) : s.EnginesStay (s.urgent e) := of_cores rfl rfl rfl rfl rfl fun _ h => List.mem_cons_of_mem _ h

theorem mem_insDue {d x : Due} : ∀ {l : List Due}, x ∈ insDue d l ↔ x = d ∨ x ∈ l
  | [] => by simp [insDue]
  | y :: l => by
    unfold insDue
    split
    · simp
    · rw [List.mem_cons, mem_insDue, List.mem_cons]
      tauto

theorem atCycle (s : State) (n : Nat) (e : Ev) : s.EnginesStay (s.atCycle n e) :=
  of_cores rfl rfl rfl rfl rfl fun _ h => mem_insDue.2 (.inr h)

theorem after (s : State) (c n : Nat) (e : Ev) : s.EnginesStay (s.after c n e) := atCycle s _ e

theorem again (s : State) (cid : Nat) : s.EnginesStay (s.again cid) :=
  of_cores (by simp) (by simp) (by simp) (by simp) (by simp) (by simp)

theorem mxKick (s : State) (cid : Nat) : s.EnginesStay (s.mxKick cid) := by
  have h : s.EnginesStay (match (s.core cid).headStep s.now with | some e => s.urgent e | none => s) := by
    split
    · exact urgent s _
    · exact refl s
  unfold State.mxKick
  dsimp only
  split
  · exact h.trans (urgent _ _)
  · exact h

theorem tileChanged (s : State) (cid : Nat) : s.EnginesStay (s.tileChanged cid) := by
  have h : s.EnginesStay ((s.mxKick cid).again cid) := (mxKick s cid).trans (again _ cid)
  unfold State.tileChanged
  dsimp only
  split
  · exact h
  · exact h.trans (urgent _ _)

theorem releaseCheck (s : State) (cid t : Nat) : s.EnginesStay (s.releaseCheck cid t) := by
  unfold State.releaseCheck
  dsimp only
  split
  · exact urgent s _
  · exact refl s

theorem carryDue (s : State) (cid : Nat) : s.EnginesStay (s.carryDue cid) := by
  unfold State.carryDue
  split
  · exact atCycle s _ _
  · exact refl s

/-! Threads. -/

theorem updWho (s : State) (w : Who) (f : Thread → Thread) : s.EnginesStay (s.updWho w f) := by
  unfold State.updWho
  refine of_updCore (fun c => ?_) w.cid
  split
  · split
    · unfold Core.setThread
      split
      · exact ⟨_, _, _, _, _, _, rfl⟩
      · exact .refl c
    · exact ⟨_, _, _, _, _, _, rfl⟩
  · exact ⟨_, _, _, _, _, _, rfl⟩

theorem updUid (s : State) (uid : Nat) (f : Thread → Thread) : s.EnginesStay (s.updUid uid f) := by
  refine ⟨rfl, rfl, rfl, rfl, fun _ h => h, fun c => ?_⟩
  unfold State.core State.updUid
  dsimp only
  rw [List.find?_map]
  show Core.SameEngines _ ((Option.map _ (s.cores.find? fun x => x.cid == c)).getD _)
  cases s.cores.find? fun x => x.cid == c with
  | none => exact .refl _
  | some x => exact ⟨_, _, _, _, _, _, rfl⟩

theorem updThere (s : State) (w : Who) (f : Thread → Thread) : s.EnginesStay (s.updThere w f) := by
  unfold State.updThere
  split
  · exact updWho s w f
  · exact updUid s _ f

theorem holdFault (s : State) (w : Who) (cause addr : Nat) : s.EnginesStay (s.holdFault w cause addr) := updThere s w _

theorem readsTile (s : State) (cid t : Nat) (w : Who) : s.EnginesStay (s.readsTile cid t w) := by
  unfold State.readsTile
  split
  · exact holdFault s _ _ _
  · exact refl s

/-! Messages, and side effects of tasks. -/

theorem sentMsgs (s : State) (c n : Nat) : s.EnginesStay (s.sentMsgs c n) := by
  unfold State.sentMsgs
  split
  · exact refl s
  · exact of_updCore (fun _ => ⟨_, _, _, _, _, _, rfl⟩) c

theorem gotMsgs (s : State) (c n : Nat) : s.EnginesStay (s.gotMsgs c n) := by
  unfold State.gotMsgs
  split
  · exact refl s
  · exact of_updCore (fun _ => ⟨_, _, _, _, _, _, rfl⟩) c

theorem markSide (s : State) (part : Nat) (inRev lvl : Option Nat) : s.EnginesStay (s.markSide part inRev lvl) := by
  rw [State.markSide_eq]
  exact of_cores rfl rfl rfl rfl rfl fun _ h => h

theorem markOf (s : State) (w : Who) : s.EnginesStay (s.markOf w) := markSide s _ _ _

/-! What goes on by the engines' time. -/

theorem dieNow (h : s.EnginesStay t) (cid : Nat) : t.dieNow cid = s.dieNow cid := by
  unfold State.dieNow
  rw [h.dieCyc]

theorem dieAfter (h : s.EnginesStay t) (die at_ n : Nat) : t.dieAfter die at_ n = s.dieAfter die at_ n := by
  unfold State.dieAfter
  rw [h.mhz]

theorem ticks (h : s.EnginesStay t) (die n : Nat) : t.ticks die n = s.ticks die n := by
  unfold State.ticks
  rw [h.now, h.dieAfter]

end State.EnginesStay

/-! Readers of a tile. -/

/-- A reader of tile t is through with it. -/
def Core.unread (t tok : Nat) (c : Core) : Core := c.updTile t fun x => { x with readers := x.readers.filter (· != tok) }

theorem Core.ofEngines_unread (t tok : Nat) : Core.OfEngines (Core.unread t tok) := Core.ofEngines_updTile t _

theorem State.EnginesStay.readDone (s : State) (cid t tok : Nat) :
    (s.updCore cid (Core.unread t tok)).EnginesStay (s.readDone cid t tok) := .releaseCheck _ cid t

/-- The head of a matrix queue has left it. -/
def Core.popMq (c : Core) : Core := { c with mq := c.mq.drop 1 }

theorem State.EnginesStay.popHead (s : State) (cid : Nat) : (s.updCore cid Core.popMq).EnginesStay (s.popHead cid) := by
  unfold State.popHead
  refine (State.EnginesStay.again _ cid).trans (.foldl (fun s x => ?_) _ _)
  split
  · exact .urgent s _
  · exact .refl s

end Sys2Proof.Machine

end

-- The head of a matrix queue as it starts.
section
/-! SUPPORT. The head of a matrix queue, and a later group of an MMAG under way (R219, R223 to R225, R230, R231). -/

namespace Sys2Proof.Machine

section

variable {s : State} {cid : Nat} {m : MCmd} {rest : List MCmd}

/-! Weight planes and MZERO. -/

/-- The head MLS of a queue starts. -/
theorem exec_mlsStart {t : Nat} {ops : List MOp} (he : s.evt = .mlsStart cid) (hq : (s.core cid).mq = m :: rest)
    (hf : m.follow = false) (hh : (s.core cid).headStep s.now = some (.mlsStart cid)) (ho : m.ops = .mls t :: ops) :
    exec .mlsStart s = .next (((((s.popHead cid).readsTile cid t m.who).updCore cid fun c =>
      { c with shadow := .loading (planeOf (s.regions cid t)) t m.tok }).after cid 40 (.planeFull cid)).mxKick cid) := by
  show execMlsStart s = _
  unfold execMlsStart
  simp [he, hq, hh, ho, hf, Core.followFault, State.followIll]

/-- The head MSWP of a queue is performed. -/
theorem exec_planeSwap (he : s.evt = .planeSwap cid) (hh : (s.core cid).headStep s.now = some (.planeSwap cid)) :
    exec .planeSwap s = .next (((s.popHead cid).updCore cid Core.swap).mxKick cid) := by
  show execPlaneSwap s = _
  unfold execPlaneSwap
  simp [he, hh]

/-- Accumulator k is zeroed, with its spall entries and the carries for it that have still to be posted. -/
def Core.zeroAcc (fp : Bool) (k : Nat) (c : Core) : Core :=
  { c.updAcc k (fun _ => { Acc.zero with fp := fp }) with
    spall := c.spall.filter fun e => e.acc != k, late := c.late.filter fun l => l.acc != k }

/-- The head MZERO of a queue is performed. -/
theorem exec_mzeroStart {fp : Bool} {k : Nat} {ops : List MOp} (he : s.evt = .mzeroStart cid) (hq : (s.core cid).mq = m :: rest)
    (hh : (s.core cid).headStep s.now = some (.mzeroStart cid)) (ho : m.ops = .zero fp k :: ops) :
    exec .mzeroStart s = .next (((s.popHead cid).updCore cid (Core.zeroAcc fp k)).mxKick cid) := by
  show execMzeroStart s = _
  unfold execMzeroStart
  simp only [he, hq, hh, ho, bne_self_eq_false, Bool.false_eq_true, if_false]
  rfl

theorem Core.swap_full {c : Core} {p : Plane} (h : c.shadow = .full p) : c.swap = { c with active := some p, shadow := .empty } := by
  unfold Core.swap
  rw [h]

theorem Core.swap_not_full {c : Core} (h : ∀ p, c.shadow ≠ .full p) : c.swap = c := by
  unfold Core.swap
  split
  · exact absurd ‹_› (h _)
  · rfl

theorem Core.ofEngines_swap : Core.OfEngines Core.swap := by
  refine Core.ofEngines_of_eq fun c _ _ _ _ _ _ => ?_
  by_cases h : ∃ p, c.shadow = .full p
  · obtain ⟨p, hp⟩ := h
    rw [Core.swap_full hp, Core.swap_full (p := p)]
    exact hp
  · have hno : ∀ p, c.shadow ≠ .full p := fun p hp => h ⟨p, hp⟩
    rw [Core.swap_not_full hno, Core.swap_not_full]
    exact hno

theorem Core.ofEngines_zeroAcc (fp : Bool) (k : Nat) : Core.OfEngines (Core.zeroAcc fp k) := by
  refine Core.ofEngines_of_eq fun c _ _ _ _ _ _ => ?_
  unfold Core.zeroAcc Core.updAcc
  split <;> rfl

/-! Passes. -/

/-- The groups of an entry that are still to run behind its first pass. -/
def MCmd.laterGroups (m : MCmd) (ops : List MOp) : Option MCmd := if ops = [] then none else some { m with ops := ops }

/-- The core on which the first pass of a list starts, the rest being groups still to run. -/
def Core.takesGroup (sw : Bool) (groups : Option MCmd) (c : Core) : Core := { (if sw then c.swap else c) with groups := groups }

theorem Core.ofEngines_takesGroup (sw : Bool) (groups : Option MCmd) : Core.OfEngines (Core.takesGroup sw groups) := by
  have hput : Core.OfEngines fun c => { c with groups := groups } := Core.ofEngines_of_eq
  cases sw with
  | false => exact hput
  | true => exact hput.comp Core.ofEngines_swap

/-- Its active plane is the one that the pass runs against, and nothing but planes and groups has changed. -/
theorem Core.takesGroup_eq {sw : Bool} {c : Core} {pl : Plane} (hsh : sw = true → c.shadow = .full pl)
    (hact : sw = false → c.active = some pl) (groups : Option MCmd) :
    ∃ sh, c.takesGroup sw groups = { c with active := some pl, shadow := sh, groups := groups } := by
  unfold Core.takesGroup
  cases sw with
  | false => exact ⟨_, by rw [← hact rfl]; rfl⟩
  | true => exact ⟨_, by rw [if_pos rfl, Core.swap_full (hsh rfl)]⟩

theorem State.passRun_leaves (s : State) (cid : Nat) (m : MCmd) (pl : Plane) (sparse : Bool) (k t r0 nr : Nat) (last : Bool) :
    ∃ p : Pass, p.c = k ∧ p.t = t ∧ p.last = last ∧ p.start = s.dieNow cid ∧ p.who = m.who ∧
      (s.updCore cid fun c => { c with pass := some p }).EnginesStay (s.passRun cid m pl sparse k t r0 nr last) :=
  ⟨_, rfl, rfl, rfl, rfl, rfl, (((State.EnginesStay.readsTile s cid t m.who).updCore cid (Core.ofEngines_of_eq)).trans
    (.carryDue _ _)).trans (.atCycle _ _ _)⟩

/-- The first pass of a list finds its plane: it runs, for its accumulator and issuer. -/
theorem State.passBegin_leaves {sparse sw : Bool} {k t r0 nr : Nat} {last : Bool} {ops : List MOp} {pl : Plane}
    (ho : m.ops = .pass sparse sw k t r0 nr last :: ops) (hsh : sw = true → (s.core cid).shadow = .full pl)
    (hact : sw = false → (s.core cid).active = some pl) (hinv : ((s.core cid).accAt k).inv = false) :
    ∃ p : Pass, p.c = k ∧ p.t = t ∧ p.last = last ∧ p.start = s.dieNow cid ∧ p.who = m.who ∧
      ((s.updCore cid (Core.takesGroup sw (m.laterGroups ops))).updCore cid fun c =>
        { c with pass := some p }).EnginesStay (s.passBegin cid m) := by
  have hfull : (sw && !(s.core cid).shadow.isFull) = false := by
    cases sw with
    | false => rfl
    | true => rw [hsh rfl]; rfl
  obtain ⟨sh, hstart⟩ := Core.takesGroup_eq hsh hact (m.laterGroups ops)
  obtain ⟨p, hc, ht, hlast, hst, hwho, hp⟩ := State.passRun_leaves
    (s.updCore cid (Core.takesGroup sw (m.laterGroups ops))) cid m pl sparse k t r0 nr last
  refine ⟨p, hc, ht, hlast, hst, hwho, hp.trans ?_⟩
  have hx : s.passBegin cid m = ((s.updCore cid (Core.takesGroup sw (m.laterGroups ops))).passRun
      cid m pl sparse k t r0 nr last).mxKick cid := by
    have hact1 : ((s.updCore cid (Core.takesGroup sw (m.laterGroups ops))).core cid).active =
        some pl := by rw [State.core_updCore_self, hstart]
    have hinv1 : (((s.updCore cid (Core.takesGroup sw (m.laterGroups ops))).core cid).accAt k).inv =
        false := by rw [State.core_updCore_self, hstart]; exact hinv
    unfold State.passBegin
    simp only [ho, hfull, Bool.false_eq_true, if_false, List.isEmpty_iff]
    unfold Core.takesGroup MCmd.laterGroups at hact1 hinv1 ⊢
    simp only [hact1, hinv1, Bool.false_eq_true, if_false]
  exact hx ▸ .mxKick _ cid

/-- The head pass of a queue starts. -/
theorem exec_passStart {sparse sw : Bool} {k t r0 nr : Nat} {last : Bool} {ops : List MOp} (he : s.evt = .passStart cid)
    (hq : (s.core cid).mq = m :: rest) (hf : m.follow = false) (hh : (s.core cid).headStep s.now = some (.passStart cid))
    (ho : m.ops = .pass sparse sw k t r0 nr last :: ops) :
    exec .passStart s = .next ((s.popHead cid).passBegin cid m) := by
  have hgroups : (s.core cid).groups = none := by
    have h := hh
    unfold Core.headStep at h
    simp only [hq, ho] at h
    by_contra hne
    simp [hne] at h
  show execPassStart s = _
  unfold execPassStart
  simp [he, hgroups, Core.groupReady, hq, hh, ho, Core.followFault, hf]

/-- The next group of an MMAG under way starts. -/
theorem exec_passStart_group {g : MCmd} (he : s.evt = .passStart cid) (hg : (s.core cid).groups = some g)
    (hp : (s.core cid).pass = none) {pl : Plane} (hsh : (s.core cid).shadow = .full pl) :
    exec .passStart s = .next (s.passBegin cid g) := by
  have hready : (s.core cid).groupReady = true := by simp [Core.groupReady, hg, hp, hsh]
  show execPassStart s = _
  unfold execPassStart
  simp [he, hready, hg]

end

end Sys2Proof.Machine

end

-- What the head of a matrix queue does when it starts.
section

namespace Sys2Proof.Machine

/-- Settles O41: each start pops the head, or takes the next group, and changes of the engine the plane, the accumulator or the pass. -/
theorem matrixQueueStarts : Obligations.MatrixQueueStarts := by
  unfold Obligations.MatrixQueueStarts
  intro s cid m rest hq hf c
  have hpop := State.EnginesStay.popHead s cid
  have hrest : c.popMq.mq = rest := by rw [Core.popMq, hq]; rfl
  refine ⟨fun t ops he hh ho => ?_, fun p ops he hh ho hsh => ?_, fun fp k ops he hh ho hk => ?_,
    fun sparse sw k t r0 nr last ops pl he hh ho hsh hact hinv => ?_, fun g sparse k t r0 nr last ops pl he hg hp ho hsh hinv => ?_⟩
  · have hload := ((hpop.trans (.readsTile _ cid t m.who)).updCore cid
      (f := fun c => { c with shadow := .loading (planeOf (s.regions cid t)) t m.tok }) Core.ofEngines_of_eq)
    have hu := (hload.trans (.after _ cid 40 (.planeFull cid))).trans (.mxKick _ cid)
    have h := hu.core cid
    rw [State.core_updCore_self, State.core_updCore_self] at h
    refine ⟨_, exec_mlsStart he hq hf hh ho, hu.mem, (h.eq (f := Core.mq)).trans hrest, h.eq (f := Core.shadow),
      (State.EnginesStay.mxKick _ cid).due _ (State.EnginesStay.mem_insDue.2 (.inl ?_))⟩
    rw [hload.ticks, hload.now]
    rfl
  · have hu := (hpop.updCore cid Core.ofEngines_swap).trans (.mxKick _ cid)
    have h := hu.core cid
    rw [State.core_updCore_self, State.core_updCore_self, Core.swap_full (p := p) (by exact hsh)] at h
    exact ⟨_, exec_planeSwap he hh, hu.mem, (h.eq (f := Core.mq)).trans hrest, h.eq (f := Core.active), h.eq (f := Core.shadow)⟩
  · have hu := (hpop.updCore cid (Core.ofEngines_zeroAcc fp k)).trans (.mxKick _ cid)
    have h := hu.core cid
    rw [State.core_updCore_self, State.core_updCore_self] at h
    exact ⟨_, exec_mzeroStart he hq hh ho, hu.mem, ((h.eq (f := Core.mq)).trans (Core.updAcc_keeps Core.mq _ k _)).trans hrest,
      (h.accAt k).trans (Core.accAt_updAcc_self _ hk _), h.eq (f := Core.spall)⟩
  · have hp := hpop.core cid
    rw [State.core_updCore_self] at hp
    obtain ⟨p, hc, ht, hlast, hst, hwho, hbegin⟩ := State.passBegin_leaves (s := s.popHead cid) ho
      (fun h => (hp.eq (f := Core.shadow)).trans (hsh h)) (fun h => (hp.eq (f := Core.active)).trans (hact h))
      ((congrArg Acc.inv (hp.accAt k)).trans hinv)
    have hu := ((hpop.updCore cid (Core.ofEngines_takesGroup sw (m.laterGroups ops))).updCore cid
      (f := fun c => { c with pass := some p }) Core.ofEngines_of_eq).trans hbegin
    have h := hu.core cid
    obtain ⟨sh, hstart⟩ := Core.takesGroup_eq (c := { c.popMq with cid := cid }) hsh hact (m.laterGroups ops)
    rw [State.core_updCore_self, State.core_updCore_self, State.core_updCore_self, hstart] at h
    exact ⟨_, p, exec_passStart he hq hf hh ho, hu.mem, (h.eq (f := Core.mq)).trans hrest, h.eq (f := Core.pass), hc, ht, hlast,
      hst.trans (hpop.dieNow cid), hwho, h.eq (f := Core.active), h.eq (f := Core.groups)⟩
  · have hno : true = false → (s.core cid).active = some pl := fun h => by cases h
    obtain ⟨p, hc, ht, hlast, hst, hwho, hu⟩ := State.passBegin_leaves (s := s) (m := g) ho (fun _ => hsh) hno hinv
    have h := hu.core cid
    obtain ⟨sh, hstart⟩ := Core.takesGroup_eq (fun _ => hsh) hno (g.laterGroups ops)
    rw [State.core_updCore_self, State.core_updCore_self, hstart] at h
    exact ⟨_, p, exec_passStart_group he hg hp hsh, hu.mem, h.eq (f := Core.mq), h.eq (f := Core.pass), hc, ht, hlast, hst, hwho,
      h.eq (f := Core.active), h.eq (f := Core.groups)⟩

end Sys2Proof.Machine

end

-- The ends of what the matrix engine does.
section
/-! SUPPORT. The ends of what the matrix engine does: planes, carries, passes, drains, exchanges and releases (R213, R223, R227, R232,
R234, R294, R342). -/

namespace Sys2Proof.Machine

section

variable {s : State} {cid : Nat}

/-! Planes. -/

theorem exec_planeFull {p : Plane} {t tok : Nat} (he : s.evt = .planeFull cid) (hsh : (s.core cid).shadow = .loading p t tok) :
    exec .planeFull s = .next (((s.updCore cid fun c => { c with shadow := .full p }).readDone cid t tok).mxKick cid) := by
  show execPlaneFull s = _
  unfold execPlaneFull
  simp only [he, hsh]

/-! Carries. -/

/-- Of 64 entries of which not all are taken, the lowest-numbered free one. -/
theorem exists_freeEntry {l : List Spall} (h : l.length < 64) :
    ∃ i, ((List.range 64).find? fun i => !(l.any fun e => e.ent == i)) = some i ∧ i < 64 ∧ (∀ e ∈ l, e.ent ≠ i) ∧
      ∀ j < i, ∃ e ∈ l, e.ent = j := by
  cases hf : (List.range 64).find? fun i => !(l.any fun e => e.ent == i) with
  | none =>
    have hall : List.range 64 ⊆ l.map (·.ent) := fun i hi => by
      simpa using List.find?_eq_none.1 hf i hi
    have := (List.subperm_of_subset List.nodup_range hall).length_le
    simp only [List.length_range, List.length_map] at this
    omega
  | some i =>
    obtain ⟨hi, hlt, hbelow⟩ := List.find?_range_eq_some.1 hf
    refine ⟨i, rfl, by simpa using hlt, by simpa using hi, fun j hj => ?_⟩
    simpa using hbelow j hj

/-- The carry x of the pass p, as a core owes it. -/
def Pass.late (p : Pass) (x : Carry) : Late := { acc := p.c, who := p.who, carry := { x with at_ := p.start + x.at_ + p.slip } }

/-- A carry whose cell has no entry takes the lowest-numbered free one. -/
theorem postCarry_new {l : List Spall} {k : Nat} {x : Carry} (hno : ∀ e ∈ l, ¬(e.acc = k ∧ e.row = x.row ∧ e.col = x.col))
    {i : Nat} (hi : ((List.range 64).find? fun i => !(l.any fun e => e.ent == i)) = some i) :
    postCarry l k x = .ok (l ++ [{ ent := i, acc := k, row := x.row, col := x.col, cnt := if x.up then 1 else -1 }]) := by
  have hnone : (l.find? fun e => e.acc == k && e.row == x.row && e.col == x.col) = none := by
    refine List.find?_eq_none.2 fun e he => ?_
    simpa [and_assoc] using hno e he
  unfold postCarry
  simp only [hnone, hi]

/-- The only carry that a core owes is posted, and paid. -/
theorem exec_spallCarryResume {p : Pass} {x : Carry} {i : Nat} (he : s.evt = .spallCarryResume cid) (hp : (s.core cid).pass = some p)
    (hx : p.carries = [x]) (hl : (s.core cid).late = []) (hdue : p.start + x.at_ + p.slip ≤ s.dieNow cid)
    (hrun : s.dieNow cid < p.start + p.len + p.slip)
    (hno : ∀ e ∈ (s.core cid).spall, ¬(e.acc = p.c ∧ e.row = x.row ∧ e.col = x.col))
    (hi : ((List.range 64).find? fun i => !((s.core cid).spall.any fun e => e.ent == i)) = some i) :
    exec .spallCarryResume s = .next ((s.setCore { s.core cid with
      spall := (s.core cid).spall ++ [{ ent := i, acc := p.c, row := x.row, col := x.col, cnt := if x.up then 1 else -1 }]
      pass := some { p with carries := [] } }).carryDue cid) := by
  have howed : (s.core cid).owed = [p.late x] := by
    simp [Core.owed, hl, hp, Pass.owed, hx, Pass.late]
  have hpaid : (s.core cid).paid (p.late x) = { s.core cid with pass := some { p with carries := [] } } := by
    simp [Core.paid, hl, hp, hx, Pass.late]
  have hpost (n : Nat) (hn : 1 ≤ n) : postCarries (s.core cid) (s.dieNow cid) [] n [p.late x] =
      { c := { s.core cid with
          spall := (s.core cid).spall ++ [{ ent := i, acc := p.c, row := x.row, col := x.col, cnt := if x.up then 1 else -1 }]
          pass := some { p with carries := [] } }
        faults := [], stalls := false, quota := n - 1 } := by
    obtain ⟨m, rfl⟩ : ∃ m, n = m + 1 := ⟨n - 1, by omega⟩
    have hc : postCarry (s.core cid).spall (p.late x).acc (p.late x).carry = _ := postCarry_new hno hi
    simp [postCarries, howed, hc, hpaid]
  show execSpallCarryResume s = _
  unfold execSpallCarryResume
  have hover : ((s.core cid).pass.any fun p => decide (p.start + p.len + p.slip ≤ s.dieNow cid)) = false := by
    simpa [hp] using hrun
  have hfilter : ([p.late x].filter fun l => decide (l.carry.at_ ≤ s.dieNow cid)) = [p.late x] := by
    simpa [Pass.late] using hdue
  simp only [he, hover, howed, hfilter, Bool.false_eq_true, if_false, List.foldl_cons, List.foldl_nil, insCol,
    hpost _ (le_max_right _ 1)]

/-! Passes. -/

/-- The pass p has added its cells, and its carries that come after its end are still to be posted. -/
def Core.endPass (p : Pass) (c : Core) : Core := { c.updAcc p.c (·.after p) with pass := none, late := c.late ++ p.owed }

theorem Core.ofEngines_endPass (p : Pass) : Core.OfEngines (Core.endPass p) := by
  refine Core.ofEngines_of_eq fun c _ _ _ _ _ _ => ?_
  unfold Core.endPass Core.updAcc
  split <;> rfl

/-- A pass at its end adds its cells; with its last rows it has read its tile. -/
theorem exec_passComplete {p : Pass} (he : s.evt = .passComplete cid) (hp : (s.core cid).pass = some p) (hend : s.passEnd cid p ≤ s.now) :
    ∃ v, (s.updCore cid (Core.endPass p)).EnginesStay v ∧
      exec .passComplete s = .next ((if p.last then v.readDone cid p.t p.tok else v).mxKick cid) := by
  refine ⟨match p.stop with
    | some z => (s.updCore cid (Core.endPass p)).holdFault p.who z.2 0
    | none => s.updCore cid (Core.endPass p), ?_, ?_⟩
  · split
    · exact .holdFault _ _ _ _
    · exact .refl _
  · show execPassComplete s = _
    unfold execPassComplete
    simp only [he, hp, if_neg (not_lt.2 hend)]
    rfl

/-! Drains. -/

/-- The drain d has ended: its accumulator is zero, with its spall entries and carries, and its tile READY. -/
def Core.endDrain (d : Drain) (c : Core) : Core :=
  { (c.updAcc d.c fun a => { Acc.zero with fp := a.fp, inv := a.inv }).updTile d.t fun x => { x with st := .ready, arrived := x.expected } with
    drain := none, spall := c.spall.filter fun e => e.acc != d.c, late := c.late.filter fun l => l.acc != d.c }

theorem Core.endDrain_slots (d : Drain) (c : Core) : (c.endDrain d).slots = c.slots :=
  (Core.updTile_keeps Core.slots _ d.t _).trans (Core.updAcc_keeps Core.slots c d.c _)

/-- What the drain d writes, and its flags. -/
def Core.drainOut (c : Core) (d : Drain) : List Byte × Flags :=
  drainAll (c.accAt d.c) (c.drained d.c) d.c d.code d.sat d.scale d.mode

theorem exec_drainComplete {d : Drain} (he : s.evt = .drainComplete cid) (hd : (s.core cid).drain = some d)
    (hw : (s.core cid).tileWaking d.t = false) (hbad : s.tileBad cid d.t 0 (drainBytes d.code) = none) :
    exec .drainComplete s = .next (((((s.putTile cid d.t 0 ((s.core cid).drainOut d).1).updCore cid (Core.endDrain d)).updWho d.who
      fun t => (t.orFst (((s.core cid).accAt d.c).flags ||| ((s.core cid).drainOut d).2)).wake d.tok (.done 0#64)).tileChanged cid)) := by
  show execDrainComplete s = _
  unfold execDrainComplete
  simp only [he, hd, hw, hbad, Bool.false_eq_true, if_false]
  rfl

/-- Bytes of a tile are bytes of memory. -/
theorem State.putTile_mem (s : State) (cid t off : Nat) (bs : List Byte) :
    (s.putTile cid t off bs).mem = Memory.putAll s.mem (scratchPa cid ((s.core cid).tile t).base + off) bs :=
  State.putBytes_none_mem s 0 0 _ bs

theorem State.core_putTile (s : State) (cid t off : Nat) (bs : List Byte) (k : Nat) : (s.putTile cid t off bs).core k = s.core k :=
  State.core_congr (s.putBytes_cores 0 none 0 _ bs) k

/-! Exchanges. -/

/-- The mirror of a core is another core. -/
theorem mirrorOf_ne (cid : Nat) : mirrorOf cid ≠ cid := by
  unfold mirrorOf
  omega

/-- The exchange of m's tile t begins on its core. -/
def Core.beginMxsw (t : Nat) (m : Mxsw) (c : Core) : Core :=
  { c.updTile t (fun x => { x with st := .draining }) with
    mxsw := c.mxsw.map fun x => if x.tok == m.tok then { x with begun := true } else x }

theorem exec_mxswPair {t : Nat} {a b : Mxsw} (he : s.evt = .mxswPair cid t) (ha : (s.core cid).mxswOf t false = some a)
    (hb : (s.core (mirrorOf cid)).mxswOf t false = some b) (hn : ((s.core cid).tile t).size = ((s.core (mirrorOf cid)).tile t).size) :
    exec .mxswPair s = .next (((s.updCore cid (Core.beginMxsw t a)).updCore (mirrorOf cid) (Core.beginMxsw t b)).after cid
      (6 + ((s.core cid).tile t).size / 64) (.mxswComplete cid t)) := by
  show execMxswPair s = _
  unfold execMxswPair
  simp only [he, ha, hb, ← hn, bne_self_eq_false, Bool.false_eq_true, if_false]
  rfl

/-- The bytes of the two tiles have changed places. -/
def State.bytesExchanged (s : State) (cid t : Nat) (a b : Mxsw) : State :=
  let o := mirrorOf cid
  (((s.putTile cid t 0 (s.tileBytes o t 0 ((s.core o).tile t).size)).putTile o t 0
    (s.tileBytes cid t 0 ((s.core cid).tile t).size)).markOf a.who).markOf b.who

/-- Each of the two tiles holds what the other did. -/
def State.exchanged (s : State) (cid t : Nat) (a b : Mxsw) : State :=
  let o := mirrorOf cid
  ((s.bytesExchanged cid t a b).updTile cid t fun z => { z with st := .ready, pois := ((s.core o).tile t).pois }).updTile o t
    fun z => { z with st := .ready, pois := ((s.core cid).tile t).pois }

theorem State.mem_bytesExchanged (s : State) (cid t : Nat) (a b : Mxsw) :
    (s.bytesExchanged cid t a b).mem = Memory.putAll
      (Memory.putAll s.mem (scratchPa cid ((s.core cid).tile t).base)
        (s.tileBytes (mirrorOf cid) t 0 ((s.core (mirrorOf cid)).tile t).size))
      (scratchPa (mirrorOf cid) ((s.core (mirrorOf cid)).tile t).base) (s.tileBytes cid t 0 ((s.core cid).tile t).size) := by
  refine ((State.EnginesStay.markOf _ a.who).trans (.markOf _ b.who)).mem.trans ?_
  rw [State.putTile_mem, State.core_putTile, State.putTile_mem]
  rfl

theorem State.core_bytesExchanged (s : State) (cid t : Nat) (a b : Mxsw) (k : Nat) :
    (s.core k).SameEngines ((s.bytesExchanged cid t a b).core k) := by
  refine Eq.subst (motive := fun c => Core.SameEngines c _) ?_ (((State.EnginesStay.markOf _ a.who).trans (.markOf _ b.who)).core k)
  rw [State.core_putTile, State.core_putTile]

theorem State.tile_exchanged (s : State) (cid : Nat) {t : Nat} (ht : t < 64) (a b : Mxsw) :
    ((s.exchanged cid t a b).core cid).tile t =
        { (s.core cid).tile t with st := .ready, pois := ((s.core (mirrorOf cid)).tile t).pois } ∧
      ((s.exchanged cid t a b).core (mirrorOf cid)).tile t =
        { (s.core (mirrorOf cid)).tile t with st := .ready, pois := ((s.core cid).tile t).pois } := by
  have hne := mirrorOf_ne cid
  unfold State.exchanged State.updTile
  rw [State.core_updCore_ne _ _ _ _ hne.symm, State.core_updCore_self, State.core_updCore_self, State.core_updCore_ne _ _ _ _ hne]
  refine ⟨(Core.tile_updTile_self _ ht _).trans ?_, (Core.tile_updTile_self _ ht _).trans ?_⟩
  · rw [(s.core_bytesExchanged cid t a b cid).tile]
  · rw [(s.core_bytesExchanged cid t a b (mirrorOf cid)).tile]

/-- A tile whose readers have changed, and nothing else. -/
def Tile.ButReaders (x y : Tile) : Prop := ∃ rs, y = { x with readers := rs }

theorem Tile.ButReaders.trans {x y z : Tile} (h : x.ButReaders y) (k : y.ButReaders z) : x.ButReaders z := by
  obtain ⟨_, rfl⟩ := h
  obtain ⟨rs, rfl⟩ := k
  exact ⟨rs, rfl⟩

/-- A reader that is through with a tile changes its readers alone. -/
theorem Core.tile_unread (c : Core) (t tok j : Nat) : (c.tile j).ButReaders ((c.unread t tok).tile j) := by
  unfold Core.unread
  by_cases hj : j = t
  · subst hj
    by_cases ht : j < 64
    · exact ⟨_, Core.tile_updTile_self c ht _⟩
    · exact ⟨_, by rw [Core.updTile, dif_neg ht]⟩
  · exact ⟨_, Core.tile_updTile_ne c hj _⟩

/-- The end of an MXSW changes of the tiles their readers alone. -/
theorem State.tile_mxswEnd (s : State) (cid t : Nat) (m : Mxsw) (hold : Hold) (k j : Nat) :
    ((s.core k).tile j).ButReaders (((s.mxswEnd cid t m hold).core k).tile j) := by
  have h := (((State.EnginesStay.updWho (s.updCore cid fun c => { c with mxsw := c.mxsw.filter fun x => x.tok != m.tok }) m.who
    fun th => th.wake m.tok hold).updCore cid (Core.ofEngines_unread t m.tok)).trans (.readDone _ cid t m.tok)).core k
  by_cases hk : k = cid
  · subst hk
    rw [State.core_updCore_self, State.core_updCore_self] at h
    obtain ⟨rs, hrs⟩ := Core.tile_unread { s.core k with cid := k, mxsw := (s.core k).mxsw.filter fun x => x.tok != m.tok } t m.tok j
    exact ⟨rs, (h.tile j).trans hrs⟩
  · rw [State.core_updCore_ne _ _ _ _ hk, State.core_updCore_ne _ _ _ _ hk] at h
    exact ⟨_, h.tile j⟩

theorem State.mem_mxswEnd (s : State) (cid t : Nat) (m : Mxsw) (hold : Hold) : (s.mxswEnd cid t m hold).mem = s.mem :=
  (State.EnginesStay.readDone _ cid t m.tok).mem

/-- The exchange is over, and each thread goes on. -/
def State.afterMxsw (s : State) (cid t : Nat) (a b : Mxsw) : State :=
  ((((s.exchanged cid t a b).mxswEnd cid t a (.done 0#64)).mxswEnd (mirrorOf cid) t b (.done 0#64)).tileChanged cid).tileChanged
    (mirrorOf cid)

theorem State.mem_exchanged (s : State) (cid t : Nat) (a b : Mxsw) : (s.exchanged cid t a b).mem = (s.bytesExchanged cid t a b).mem :=
  (State.updCore_mem _ _ _).trans (State.updCore_mem _ _ _)

theorem State.mem_afterMxsw (s : State) (cid t : Nat) (a b : Mxsw) : (s.afterMxsw cid t a b).mem = (s.bytesExchanged cid t a b).mem := by
  unfold State.afterMxsw
  rw [(State.EnginesStay.tileChanged _ _).mem, (State.EnginesStay.tileChanged _ _).mem, State.mem_mxswEnd, State.mem_mxswEnd,
    State.mem_exchanged]

/-- Its end changes of the tiles their readers alone. -/
theorem State.tile_afterMxsw (s : State) (cid t : Nat) (a b : Mxsw) (k : Nat) :
    (((s.exchanged cid t a b).core k).tile t).ButReaders (((s.afterMxsw cid t a b).core k).tile t) := by
  generalize hx : s.exchanged cid t a b = x
  have hsteps := (x.tile_mxswEnd cid t a (.done 0#64) k t).trans
    ((x.mxswEnd cid t a (.done 0#64)).tile_mxswEnd (mirrorOf cid) t b (.done 0#64) k t)
  unfold State.afterMxsw
  rw [hx, ((State.EnginesStay.tileChanged _ _).core k).tile, ((State.EnginesStay.tileChanged _ _).core k).tile]
  exact hsteps

theorem exec_mxswComplete {t : Nat} {a b : Mxsw} (he : s.evt = .mxswComplete cid t) (ha : (s.core cid).mxswOf t true = some a)
    (hb : (s.core (mirrorOf cid)).mxswOf t true = some b) (hbad : s.tileBad cid t 0 ((s.core cid).tile t).size = none)
    (hbad' : s.tileBad (mirrorOf cid) t 0 ((s.core (mirrorOf cid)).tile t).size = none) :
    exec .mxswComplete s = .next (s.afterMxsw cid t a b) := by
  show execMxswComplete s = _
  unfold execMxswComplete
  simp only [he, ha, hb, hbad, hbad', Option.or]
  rfl

/-! Releases. -/

theorem exec_tileReleaseEffect {t n : Nat} (he : s.evt = .tileReleaseEffect cid t) (hrel : ((s.core cid).tile t).rel = some n)
    (hout : ((s.core cid).tile t).out = none) (hfree : ∀ q ∈ ((s.core cid).tile t).readers, n ≤ q) :
    exec .tileReleaseEffect s = .next ((s.updTile cid t fun x =>
      { x with rel := none, st := if x.st = .ready then .empty else x.st }).tileChanged cid) := by
  have hgo : ((s.core cid).tile t).rel.any ((s.core cid).tile t).freeFor = true := by
    simpa [hrel, Tile.freeFor] using hfree
  show execTileReleaseEffect s = _
  unfold execTileReleaseEffect
  simp [he, hout, hgo]

theorem exec_tileReleaseEffect_out {t n : Nat} (he : s.evt = .tileReleaseEffect cid t) (hout : ((s.core cid).tile t).out = some n)
    (hfree : ∀ q ∈ ((s.core cid).tile t).readers, n ≤ q) : exec .tileReleaseEffect s = .next (s.tileChanged cid) := by
  have hgo : ((s.core cid).tile t).out.any ((s.core cid).tile t).freeFor = true := by
    simpa [hout, Tile.freeFor] using hfree
  show execTileReleaseEffect s = _
  unfold execTileReleaseEffect
  simp only [he, hgo, if_true]
  simp [hout]

/-- A tile has changed, and the copy queue has a command: it looks at once. -/
theorem State.tileChanged_head (s : State) (cid : Nat) (h : (s.core cid).cq ≠ []) :
    (s.tileChanged cid).agenda.head? = some { at_ := s.now, what := .copyCommandStart cid } := by
  have hst := (State.EnginesStay.mxKick s cid).trans (.again _ cid)
  have hcq : (((s.mxKick cid).again cid).core cid).cq.isEmpty = false := by
    rw [(hst.core cid).eq (f := Core.cq)]
    simpa using h
  unfold State.tileChanged
  simp only [hcq, Bool.false_eq_true, if_false, State.urgent, List.head?_cons, hst.now]

end

end Sys2Proof.Machine

end

-- What the matrix engine leaves when its operations end.
section

namespace Sys2Proof.Machine

/-- Bytes read beside those that have been written. -/
theorem Memory.bytes_putAll_apart {m : List Host.Cell} (h : Memory.wf m = true) {a b n : Nat} {bs : List Byte}
    (hab : b + n ≤ a ∨ a + bs.length ≤ b) : Memory.bytes (Memory.putAll m a bs) b n = Memory.bytes m b n := by
  rw [Memory.bytes_eq_map, Memory.bytes_eq_map]
  refine List.map_congr_left fun i hi => ?_
  rw [Memory.get_putAll h, if_neg]
  rw [List.mem_range] at hi
  omega

theorem Memory.bytes_putAll_of_length {m : List Host.Cell} (h : Memory.wf m = true) (a : Nat) {n : Nat} {bs : List Byte}
    (hn : bs.length = n) : Memory.bytes (Memory.putAll m a bs) a n = bs := hn ▸ Memory.bytes_putAll h a bs

/-- A drain that ends leaves its bytes in its tile, its accumulator zero, and its MDRN may commit. -/
theorem drainComplete_leaves {s : State} {cid : Nat} (hs : s.Sound) {d : Drain} (he : s.evt = .drainComplete cid)
    (hd : (s.core cid).drain = some d) (hc : d.c < 4) (ht : d.t < 64) (hw : (s.core cid).tileWaking d.t = false)
    (hbad : s.tileBad cid d.t 0 (drainBytes d.code) = none) :
    let out := (s.core cid).drainOut d
    ∃ u, exec .drainComplete s = .next u ∧
      Memory.bytes u.mem (scratchPa cid ((s.core cid).tile d.t).base) out.1.length = out.1 ∧ (u.core cid).drain = none ∧
      ((u.core cid).tile d.t).st = .ready ∧
      (u.core cid).accAt d.c = { Acc.zero with fp := ((s.core cid).accAt d.c).fp, inv := ((s.core cid).accAt d.c).inv } ∧
      ∀ th, s.thread d.who.cid d.who.slot = some th → th.uid = d.who.uid → th.hold = .busy d.tok → d.who.slot < 17 →
        ∃ th', u.thread d.who.cid d.who.slot = some th' ∧ th'.hold = .done 0#64 := by
  intro out
  have hwake := State.EnginesStay.updWho ((s.putTile cid d.t 0 out.1).updCore cid (Core.endDrain d)) d.who
    fun t => (t.orFst (((s.core cid).accAt d.c).flags ||| out.2)).wake d.tok (.done 0#64)
  have hu := hwake.trans (.tileChanged _ cid)
  have h := hu.core cid
  rw [State.core_updCore_self, State.core_putTile] at h
  refine ⟨_, exec_drainComplete he hd hw hbad, ?_, ?_, ?_, ?_, fun th hth huid hbusy hslot => ?_⟩
  · rw [hu.mem, State.updCore_mem, State.putTile_mem]
    exact Memory.bytes_putAll hs _ _
  · exact h.eq (f := Core.drain)
  · rw [h.tile]
    exact congrArg Tile.st (Core.tile_updTile_self _ ht _)
  · rw [h.accAt]
    exact (Core.updTile_keeps (fun c => c.accAt d.c) _ d.t _).trans (Core.accAt_updAcc_self _ hc _)
  · have hsame : s.SameThreads ((s.putTile cid d.t 0 out.1).updCore cid (Core.endDrain d)) :=
      (State.sameThreads_putBytes s _ _ _ _ _).trans (.updCore (Core.endDrain_slots d) cid)
    have hhas := (State.HasThread.of_thread ⟨hslot, hth, huid⟩ hsame.thread).updWho (w := d.who)
      (fun t => (t.orFst (((s.core cid).accAt d.c).flags ||| out.2)).wake d.tok (.done 0#64))
      (by unfold Thread.wake; split <;> rfl)
    have hafter := (hhas.of_thread (State.Schedules.tileChanged _ cid).sameThreads.thread).thread
    exact ⟨_, hafter, congrArg Thread.hold (if_pos hbusy)⟩

/-- An exchange that ends has swapped the tiles. -/
theorem mxswComplete_leaves {s : State} {cid : Nat} (hs : s.Sound) {t : Nat} {a b : Mxsw} (he : s.evt = .mxswComplete cid t) (ht : t < 64)
    (ha : (s.core cid).mxswOf t true = some a) (hb : (s.core (mirrorOf cid)).mxswOf t true = some b) {n : Nat}
    (hx : ((s.core cid).tile t).size = n) (hy : ((s.core (mirrorOf cid)).tile t).size = n)
    (happ : scratchPa cid ((s.core cid).tile t).base + n ≤ scratchPa (mirrorOf cid) ((s.core (mirrorOf cid)).tile t).base ∨
      scratchPa (mirrorOf cid) ((s.core (mirrorOf cid)).tile t).base + n ≤ scratchPa cid ((s.core cid).tile t).base)
    (hbad : s.tileBad cid t 0 n = none) (hbad' : s.tileBad (mirrorOf cid) t 0 n = none) :
    ∃ u, exec .mxswComplete s = .next u ∧
      Memory.bytes u.mem (scratchPa cid ((s.core cid).tile t).base) n =
        Memory.bytes s.mem (scratchPa (mirrorOf cid) ((s.core (mirrorOf cid)).tile t).base) n ∧
      Memory.bytes u.mem (scratchPa (mirrorOf cid) ((s.core (mirrorOf cid)).tile t).base) n =
        Memory.bytes s.mem (scratchPa cid ((s.core cid).tile t).base) n ∧
      ((u.core cid).tile t).st = .ready ∧ ((u.core (mirrorOf cid)).tile t).st = .ready ∧
      ((u.core cid).tile t).pois = ((s.core (mirrorOf cid)).tile t).pois ∧
      ((u.core (mirrorOf cid)).tile t).pois = ((s.core cid).tile t).pois := by
  subst hx
  obtain ⟨hmine, hits⟩ := s.tile_exchanged cid ht a b
  obtain ⟨r1, h1⟩ := s.tile_afterMxsw cid t a b cid
  obtain ⟨r2, h2⟩ := s.tile_afterMxsw cid t a b (mirrorOf cid)
  rw [hmine] at h1
  rw [hits] at h2
  have hmem := (s.mem_afterMxsw cid t a b).trans (s.mem_bytesExchanged cid t a b)
  have hlen (k : Nat) : (s.tileBytes k t 0 ((s.core cid).tile t).size).length = ((s.core cid).tile t).size := Memory.length_bytes _ _ _
  rw [hy] at hmem
  refine ⟨_, exec_mxswComplete he ha hb hbad (hy ▸ hbad'), ?_, ?_, congrArg Tile.st h1, congrArg Tile.st h2, by rw [h1], by rw [h2]⟩
  · rw [hmem, Memory.bytes_putAll_apart (Memory.wf_putAll hs _ _) (by rw [hlen]; exact happ)]
    exact Memory.bytes_putAll_of_length hs _ (hlen (mirrorOf cid))
  · rw [hmem]
    exact Memory.bytes_putAll_of_length (Memory.wf_putAll hs _ _) _ (hlen cid)

/-- Settles O42, operation by operation. -/
theorem matrixOperationsEnd : Obligations.MatrixOperationsEnd := by
  unfold Obligations.MatrixOperationsEnd
  intro s cid hs c o pa
  refine ⟨fun p t tok he hsh => ?_, fun p x he hp hx hl hdue hrun hno hfree => ?_, fun p he hp hend hk => ?_,
    fun d he hd hc ht hw hbad => drainComplete_leaves hs he hd hc ht hw hbad,
    fun t a b he ht ha hb hn => ?_, fun t a b he ht ha hb hn happ hbad hbad' => mxswComplete_leaves hs he ht ha hb rfl hn happ hbad hbad',
    fun t n he ht hrel hout hfree => ?_, fun t n he ht hout hfree => ?_⟩
  · have hu := (State.EnginesStay.readDone (s.updCore cid fun c => { c with shadow := .full p }) cid t tok).trans (.mxKick _ cid)
    have h := hu.core cid
    rw [State.core_updCore_self, State.core_updCore_self] at h
    exact ⟨_, exec_planeFull he hsh, hu.mem, (h.eq (f := Core.shadow)).trans (Core.updTile_keeps Core.shadow _ t _)⟩
  · obtain ⟨i, hi, hlt, hnew, hbelow⟩ := exists_freeEntry hfree
    have hu := State.EnginesStay.carryDue (s.setCore { s.core cid with
      spall := (s.core cid).spall ++ [{ ent := i, acc := p.c, row := x.row, col := x.col, cnt := if x.up then 1 else -1 }]
      pass := some { p with carries := [] } }) cid
    have h := hu.core (s.core cid).cid
    rw [State.core_setCore_self, s.core_cid cid] at h
    exact ⟨_, i, exec_spallCarryResume he hp hx hl hdue hrun hno hi, hu.mem, hlt, hnew, hbelow, h.eq (f := Core.spall),
      h.eq (f := Core.pass)⟩
  · obtain ⟨v, hv, hx⟩ := exec_passComplete he hp hend
    have h := hv.core cid
    rw [State.core_updCore_self] at h
    have hacc := (h.accAt p.c).trans (Core.accAt_updAcc_self _ hk _)
    refine ⟨_, hx, ?_⟩
    cases p.last with
    | false =>
      have hkick := State.EnginesStay.mxKick v cid
      have h' := hkick.core cid
      exact ⟨hkick.mem.trans hv.mem, (h'.eq (f := Core.pass)).trans (h.eq (f := Core.pass)), (h'.accAt p.c).trans hacc,
        (h'.eq (f := Core.late)).trans (h.eq (f := Core.late))⟩
    | true =>
      have hread := (State.EnginesStay.readDone v cid p.t p.tok).trans (.mxKick _ cid)
      have h' := hread.core cid
      rw [State.core_updCore_self] at h'
      exact ⟨hread.mem.trans hv.mem,
        ((h'.eq (f := Core.pass)).trans (Core.updTile_keeps Core.pass _ p.t _)).trans (h.eq (f := Core.pass)),
        ((h'.accAt p.c).trans (Core.updTile_keeps (fun c => c.accAt p.c) _ p.t _)).trans hacc,
        ((h'.eq (f := Core.late)).trans (Core.updTile_keeps Core.late _ p.t _)).trans (h.eq (f := Core.late))⟩
  · have hu := State.EnginesStay.after ((s.updCore cid (Core.beginMxsw t a)).updCore o (Core.beginMxsw t b)) cid
      (6 + (c.tile t).size / 64) (.mxswComplete cid t)
    have hmine := hu.core cid
    have hits := hu.core o
    rw [State.core_updCore_ne _ _ _ _ (mirrorOf_ne cid).symm, State.core_updCore_self] at hmine
    rw [State.core_updCore_self] at hits
    exact ⟨_, exec_mxswPair he ha hb hn, hu.mem, congrArg Tile.st ((hmine.tile t).trans (Core.tile_updTile_self _ ht _)),
      congrArg Tile.st ((hits.tile t).trans (Core.tile_updTile_self _ ht _)), State.EnginesStay.mem_insDue.2 (.inl rfl)⟩
  · have hu := State.EnginesStay.tileChanged (s.updTile cid t fun x => { x with rel := none, st := if x.st = .ready then .empty else x.st }) cid
    have h := hu.core cid
    rw [State.updTile, State.core_updCore_self] at h
    have htile := (h.tile t).trans (Core.tile_updTile_self _ ht _)
    exact ⟨_, exec_tileReleaseEffect he hrel hout hfree, hu.mem, congrArg Tile.rel htile, congrArg Tile.st htile⟩
  · have hu := State.EnginesStay.tileChanged s cid
    exact ⟨_, exec_tileReleaseEffect_out he hout hfree, hu.mem, (hu.core cid).tile t, fun hcq => s.tileChanged_head cid hcq⟩

end Sys2Proof.Machine

end

-- The copy engine: what it reads, and what the head of its queue starts.
section
/-! SUPPORT. The copy engine as it takes its head command and puts together a transfer (R212, R235, R238 to R241, R243). -/

namespace Sys2Proof.Machine

/-! States whose cores have the same engines. -/

/-- Between s and t the engines of the cores have stayed. -/
def State.KeepsEngines (s t : State) : Prop := ∀ c, (s.core c).SameEngines (t.core c)

namespace State.KeepsEngines

variable {s t u : State}

theorem refl (s : State) : s.KeepsEngines s := fun _ => .refl _

theorem trans (h : s.KeepsEngines t) (k : t.KeepsEngines u) : s.KeepsEngines u := fun c => (h c).trans (k c)

theorem of_cores (h : t.cores = s.cores) : s.KeepsEngines t := fun c => State.core_congr h c ▸ .refl _

theorem of_calm (h : s.Calm t) : s.KeepsEngines t := fun c => h.core c ▸ ⟨_, _, _, _, _, _, rfl⟩

/-- The same change of the engines on both sides. -/
theorem updCore (h : s.KeepsEngines t) (k : Nat) {f : Core → Core} (hf : Core.OfEngines f) :
    (s.updCore k f).KeepsEngines (t.updCore k f) := by
  intro c
  by_cases hc : c = k
  · subst hc
    rw [State.core_updCore_self, State.core_updCore_self]
    obtain ⟨sl, ru, l1, tl, se, re, e⟩ := hf _ _ (h c)
    rw [e]
    exact ⟨sl, ru, l1, tl, se, re, rfl⟩
  · rw [State.core_updCore_ne _ _ _ _ hc, State.core_updCore_ne _ _ _ _ hc]
    exact h c

theorem l2Touch (h : s.KeepsEngines t) (lvl : Option Nat) (pa cache n : Nat) :
    s.KeepsEngines (if lvl.isNone then t.l2Touch pa cache n else t) := by
  split
  · exact h.trans (of_calm (t.calm_l2Touch _ _ _))
  · exact h

end State.KeepsEngines

theorem State.EnginesStay.keepsEngines {s t : State} (h : s.EnginesStay t) : s.KeepsEngines t := h.core

/-! What the engine reads while it puts a transfer together. -/

/-- The engine's access leaves the engines, whatever it meets. -/
theorem State.engAccess_keeps {s : State} {cid : Nat} {q : CopyCmd} {va n : Nat} {nd : Need} :
    match s.engAccess cid q va n nd with
    | .ok _ _ t => s.KeepsEngines t
    | .fault _ _ t => s.KeepsEngines t
    | _ => True := by
  unfold State.engAccess
  dsimp only
  cases hx : s.xlate cid va n 1 nd (!q.sys) (q.who.slot == 16) true with
  | miss => trivial
  | waking => trivial
  | fault c => exact .refl s
  | ok x s1 =>
    have h1 : s.KeepsEngines s1 := .of_calm (calm_xlate hx)
    dsimp only
    cases s1.homeCause cid x.own false x.pa n nd.acc with
    | some c =>
      refine h1.trans ?_
      split
      · exact .of_cores rfl
      · exact .of_calm (s1.calm_lose _ _ _ _)
    | none =>
      dsimp only
      by_cases haway : (s1.awayAt x.pa).isSome = true
      · rw [if_pos haway]
        trivial
      · rw [if_neg haway]
        by_cases hro : (nd.w && (s1.part (s.partNum cid)).readOnly q.lvlFam va) = true
        · rw [if_pos hro]
          exact h1
        · rw [if_neg hro]
          exact h1

section

variable {S : State} {b : Build} {cid : Nat} {q : CopyCmd}

/-- An access leaves the engines where what follows it does. -/
theorem Build.keeps_access (hb : S.KeepsEngines b.s) {va n u : Nat} {nd : Need} {go : Xl → Option Nat → State → Build}
    (hgo : ∀ x lvl s, S.KeepsEngines s → S.KeepsEngines (go x lvl s).s) : S.KeepsEngines (b.access cid q va n u nd go).s := by
  have hacc := State.engAccess_keeps (s := b.s) (cid := cid) (q := q) (va := va) (n := n) (nd := nd)
  unfold Build.access
  by_cases hon : (!b.on) = true
  · rw [if_pos hon]
    exact hb
  · rw [if_neg hon]
    cases he : b.s.engAccess cid q va n nd with
    | miss => exact hb
    | wait a => exact hb
    | fault f lat s =>
      rw [he] at hacc
      exact hb.trans hacc
    | ok x lvl s =>
      rw [he] at hacc
      exact hgo x lvl s (hb.trans hacc)

theorem Build.keeps_read (hb : S.KeepsEngines b.s) (va off u : Nat) : S.KeepsEngines (b.read cid q va off u).s :=
  Build.keeps_access hb fun _ lvl _ hs => hs.l2Touch lvl _ _ _

theorem Build.keeps_write (hb : S.KeepsEngines b.s) (va off u : Nat) : S.KeepsEngines (b.write cid q va off u).s := by
  refine Build.keeps_access hb fun x lvl s hs => ?_
  dsimp only
  cases s.tileBad cid q.tile off 64 with
  | some a => exact hs
  | none => exact hs

theorem Build.keeps_list (va0 n fuel : Nat) : ∀ {b : Build}, S.KeepsEngines b.s → S.KeepsEngines (Build.list cid q va0 n fuel b).s := by
  induction fuel with
  | zero => exact fun h => h
  | succ fuel ih =>
    intro b hb
    unfold Build.list
    dsimp only
    split
    · exact hb
    · exact ih (Build.keeps_access hb fun _ lvl _ hs => hs.l2Touch lvl _ _ _)

theorem Build.keeps_foldl {α : Type} {f : Build → α → Build} (hf : ∀ b x, S.KeepsEngines b.s → S.KeepsEngines (f b x).s) (l : List α)
    (hb : S.KeepsEngines b.s) : S.KeepsEngines (l.foldl f b).s :=
  List.foldlRecOn l f (motive := fun b => S.KeepsEngines b.s) hb fun b h x _ => hf b x h

theorem Build.keeps_rows (hb : S.KeepsEngines b.s) (off n : Nat) (srcs : List Nat) : S.KeepsEngines (b.rows cid q off n srcs).s :=
  Build.keeps_foldl (fun _ _ h => Build.keeps_read h _ _ _) _ hb

theorem Build.keeps_source (hb : S.KeepsEngines b.s) (n : Nat) : S.KeepsEngines (b.source cid q n).s :=
  Build.keeps_foldl (fun _ _ h => Build.keeps_access h fun _ lvl _ hs => hs.l2Touch lvl _ _ _) _ hb

theorem Build.keeps_imports (hb : S.KeepsEngines b.s) (g : Geom) : S.KeepsEngines (b.imports cid q g).1.s :=
  Build.keeps_source (Build.keeps_list _ _ _ hb) _

end

/-- A transfer is put together from what the engine reads: the engines stay as they are. -/
theorem State.build_keeps (s : State) (cid : Nat) (q : CopyCmd) (g : Geom) (units : List XUnit) (prog : CopyProg) :
    s.KeepsEngines (s.build cid q g units prog).1.s := by
  have h0 : s.KeepsEngines s := .refl s
  unfold State.build
  dsimp only
  split
  · exact Build.keeps_foldl (fun _ _ h => Build.keeps_write h _ _ _) _ h0
  · split
    · have hlist := Build.keeps_list (cid := cid) (q := q) q.third.toNat (4 * g.rows) (4 * g.rows / 64 + 2)
        (b := { s := s, units := units, prog := { prog with t0 := max s.now prog.t0 }, stop := .none }) h0
      split
      · exact Build.keeps_rows hlist _ _ _
      · exact hlist
    · split
      · exact Build.keeps_imports h0 g
      · exact Build.keeps_rows h0 _ _ _

/-! The command leaves its queue. -/

/-- The head command has become a transfer. -/
def Core.startsXfer (q : CopyCmd) (x : Xfer) (c : Core) : Core :=
  { (if q.form = 1 then c.updTile q.tile fun t => { t with st := .draining, out := none } else c) with
    cq := c.cq.drop 1, xfers := c.xfers ++ [x] }

/-- A failed receiver has its tile's ERR set, and every core the queue and the transfers that it had. -/
theorem State.copyTaken_queues (s : State) (cid : Nat) (q : CopyCmd) (x : Xfer) (k : Nat) :
    ((s.copyTaken cid q x).core k).cq = ((s.updCore cid (Core.startsXfer q x)).core k).cq ∧
      ((s.copyTaken cid q x).core k).xfers = ((s.updCore cid (Core.startsXfer q x)).core k).xfers := by
  unfold State.copyTaken
  refine List.foldlRecOn _ _ (motive := fun u : State =>
    (u.core k).cq = ((s.updCore cid (Core.startsXfer q x)).core k).cq ∧
      (u.core k).xfers = ((s.updCore cid (Core.startsXfer q x)).core k).xfers) ⟨rfl, rfl⟩ fun u hu r _ => ?_
  have h := (State.EnginesStay.tileChanged (u.updTile r.cid q.tile fun t => { t with err := true }) r.cid).core k
  obtain ⟨hcq, hx⟩ := hu
  rw [← hcq, ← hx]
  by_cases hk : k = r.cid
  · subst hk
    rw [State.updTile, State.core_updCore_self] at h
    exact ⟨(h.eq (f := Core.cq)).trans (Core.updTile_keeps Core.cq _ _ _),
      (h.eq (f := Core.xfers)).trans (Core.updTile_keeps Core.xfers _ _ _)⟩
  · rw [State.updTile, State.core_updCore_ne _ _ _ _ hk] at h
    exact ⟨h.eq (f := Core.cq), h.eq (f := Core.xfers)⟩

/-- The queue and the transfers of the core whose command has been taken. -/
theorem State.copyTaken_own {s : State} {cid : Nat} {q : CopyCmd} {rest : List CopyCmd} (hq : (s.core cid).cq = q :: rest) (x : Xfer) :
    ((s.copyTaken cid q x).core cid).cq = rest ∧ x ∈ ((s.copyTaken cid q x).core cid).xfers := by
  obtain ⟨hcq, hx⟩ := s.copyTaken_queues cid q x cid
  rw [hcq, hx, State.core_updCore_self]
  exact ⟨by simp [Core.startsXfer, hq], by simp [Core.startsXfer]⟩

/-- The tile of a copy-out is DRAINING. -/
theorem State.copyTaken_draining (s : State) (cid : Nat) {q : CopyCmd} (hf : q.form = 1) (ht : q.tile < 64) (g : Geom) :
    (((s.copyTaken cid q (s.copyXfer cid q g)).core cid).tile q.tile).st = .draining := by
  have hrecv : (s.copyXfer cid q g).recvs = [] := by
    simp [State.copyXfer, CopyCmd.recvs, hf]
  unfold State.copyTaken
  rw [hrecv, List.filter_nil, List.foldl_nil, State.core_updCore_self, if_pos hf]
  exact congrArg Tile.st (Core.tile_updTile_self _ ht _)

/-! The transfer goes on. -/

/-- The transfer x stands in its core's list as it is now. -/
def Core.setXfer (x : Xfer) (c : Core) : Core := { c with xfers := c.xfers.map fun y => if y.tok == x.tok then x else y }

theorem Core.mem_setXfer {x y : Xfer} {c : Core} (hy : y ∈ c.xfers) (ht : y.tok = x.tok) : x ∈ (c.setXfer x).xfers :=
  List.mem_map.2 ⟨y, hy, by rw [ht, beq_self_eq_true, if_pos rfl]⟩

theorem State.EnginesStay.recvsLook (s : State) (x : Xfer) (at_ : Nat) : s.EnginesStay (s.recvsLook x at_) :=
  .foldl (fun s _ => .atCycle s _ _) _ s

/-- The transfer x with the parts b and flags fl. -/
def Xfer.built (x : Xfer) (b : Build) (fl : Flags) (whole : Bool) : Xfer :=
  { x with units := b.units, prog := b.prog, flags := fl, whole := whole, fail := none, failAt := 0, away := false }

/-- Its messages and its core's list, as the transfer goes on. -/
theorem State.EnginesStay.goesOn (s : State) (cid k : Nat) (x : Xfer) :
    (s.updCore cid (Core.setXfer x)).EnginesStay (((s.sentMsgs cid k).gotMsgs cid k).updCore cid (Core.setXfer x)) :=
  ((State.EnginesStay.sentMsgs s cid k).trans (.gotMsgs _ cid k)).updCore cid Core.ofEngines_of_eq

/-- What is due for its receivers, or for its end. -/
theorem State.EnginesStay.looksOn (s : State) (out whole more : Prop) [Decidable out] [Decidable whole] [Decidable more] (n : Nat) (e : Ev)
    (x : Xfer) (at_ : Nat) :
    s.EnginesStay (if out then (if whole then s.atCycle n e else s) else if more then s.recvsLook x at_ else s) := by
  split
  · split
    · exact .atCycle s n e
    · exact .refl s
  · split
    · exact .recvsLook s x at_
    · exact .refl s

/-- A transfer that is put together whole stands in its core's list, and the engine is free at cycle n for the next. -/
theorem State.copyOn_whole (s : State) {cid : Nat} {x : Xfer} {g : Geom} {b : Build} {fl : Flags}
    (hb : s.build cid x.cmd g x.units x.prog = (b, fl)) (hstop : b.stop = .none) :
    ∃ n, ((b.s.updCore cid (Core.setXfer (x.built b fl true))).updCore cid fun c => { c with cqFree := n }).EnginesStay
      (s.copyOn cid x g) := by
  unfold State.copyOn
  rw [hb]
  simp only [hstop]
  exact ⟨_, (((State.EnginesStay.goesOn _ _ _ _).trans (.looksOn _ _ _ _ _ _ _ _)).updCore cid Core.ofEngines_of_eq).trans
    (.atCycle _ _ _)⟩

/-- The page of an entry of the mailbox is waited for by the engine too. -/
def Miss.forEngine (va : Nat) (e : Miss) : Miss :=
  if e.vpn == va / 2 ^ 16 then { e with ce := true, ceVa := va } else e

/-- Where an entry stands for the page, the engine waits with it. -/
theorem State.postMiss_none {s : State} {cid va : Nat} (acc : Nat) (h : ∃ m ∈ (s.core cid).mbox, m.vpn = va / 2 ^ 16) :
    s.postMiss cid va acc none = (true, s.updCore cid fun c => { c with mbox := c.mbox.map (Miss.forEngine va) }) := by
  have hany : ((s.core cid).mbox.any fun e => e.vpn == va / 2 ^ 16) = true := by
    simpa using h
  unfold State.postMiss
  simp only [hany, if_true]
  congr 2
  funext c
  congr 2
  funext e
  simp [Miss.forEngine]

/-- A transfer that meets a missing page keeps what it has read, and the queue waits. -/
theorem State.copyOn_miss (s : State) {cid : Nat} {x : Xfer} {g : Geom} {b : Build} {fl : Flags} {va acc : Nat}
    (hb : s.build cid x.cmd g x.units x.prog = (b, fl)) (hstop : b.stop = .miss va acc)
    (hm : ∃ m ∈ (b.s.core cid).mbox, m.vpn = va / 2 ^ 16) :
    (((b.s.updCore cid (Core.setXfer (x.built b fl false))).updCore cid fun c =>
      { c with mbox := c.mbox.map (Miss.forEngine va) }).updCore cid fun c => { c with cqWait := true }).EnginesStay
        (s.copyOn cid x g) := by
  unfold State.copyOn
  rw [hb]
  simp only [hstop]
  generalize hs2 : (if x.cmd.form = 1 then _ else _ : State) = s2
  have h : (b.s.updCore cid (Core.setXfer (x.built b fl false))).EnginesStay s2 := by
    rw [← hs2]
    exact (State.EnginesStay.goesOn _ _ _ _).trans (.looksOn _ _ _ _ _ _ _ _)
  have hmb : ∃ m ∈ (s2.core cid).mbox, m.vpn = va / 2 ^ 16 := by
    rw [(h.core cid).eq (f := Core.mbox), State.core_updCore_self]
    exact hm
  rw [State.postMiss_none acc hmb]
  exact (h.updCore cid Core.ofEngines_of_eq).updCore cid Core.ofEngines_of_eq

/-! The head of the queue. -/

/-- The copy engine of a core is free for the command q at the head of its queue, which came as an instruction of its own. -/
structure State.CopyFree (s : State) (cid : Nat) (q : CopyCmd) (rest : List CopyCmd) : Prop where
  evt : s.evt = .copyCommandStart cid
  head : (s.core cid).cq = q :: rest
  halted : (s.core cid).cqHalted = false
  wait : (s.core cid).cqWait = false
  from_ : q.from_ ≤ s.now
  free : (s.core cid).cqFree ≤ s.now
  xfers : ∀ x ∈ (s.core cid).xfers, x.ended = false ∧ x.whole = true
  runs : ∃ p, s.partOf cid = some p ∧ p.gsst = .running
  block : q.block = none

/-- A copy-out registers with its tile behind the readers that the tile has, and the engine looks again. -/
def State.registersOut (s : State) (cid : Nat) (q : CopyCmd) : State :=
  (({ s with ctr := s.ctr + 1 } : State).updTile cid q.tile fun t => { t with out := some s.ctr }).urgent (.copyCommandStart cid)

namespace State.CopyFree

variable {s : State} {cid : Nat} {q : CopyCmd} {rest : List CopyCmd}

theorem find_not_whole (h : s.CopyFree cid q rest) : ((s.core cid).xfers.find? fun x => !x.whole) = none :=
  List.find?_eq_none.2 fun x hm => by simp [(h.xfers x hm).2]

theorem any_ended (h : s.CopyFree cid q rest) : (s.core cid).xfers.any (·.ended) = false :=
  List.any_eq_false.2 fun x hm => by simp [(h.xfers x hm).1]

theorem not_ill (h : s.CopyFree cid q rest) : q.ill (s.core cid) = false := by simp [CopyCmd.ill, h.block]

/-- What becomes of the command is decided by its tile, where it is a copy-out, and its geometry. -/
theorem copyTry_eq (h : s.CopyFree cid q rest)
    (hok : q.form = 1 → ((s.core cid).tile q.tile).err = false ∧ ((s.core cid).tile q.tile).st = .ready) :
    s.copyTry cid =
      if q.form = 1 ∧ ((s.core cid).tile q.tile).out = none then s.registersOut cid q
      else if q.form = 1 ∧ ((s.core cid).tile q.tile).out.any ((s.core cid).tile q.tile).freeFor = false then s
      else ((geomOf q.form q.opnd.toNat q.third.toNat).map (s.copyGo cid q)).getD s := by
  obtain ⟨p, hp, hrun⟩ := h.runs
  unfold State.copyTry
  simp only [h.halted, h.wait, hp, Option.any_some, hrun, h.find_not_whole, h.head, h.any_ended, not_lt.2 h.from_, not_lt.2 h.free,
    h.not_ill, h.block, beq_self_eq_true, Bool.true_or, Bool.not_true, Bool.or_false, Bool.and_false, Bool.false_and, decide_false,
    Bool.false_eq_true, if_false, Option.isSome_none]
  generalize geomOf q.form q.opnd.toNat q.third.toNat = geom
  by_cases hf : q.form = 1
  · obtain ⟨herr, hst⟩ := hok hf
    cases geom <;> simp [hf, herr, hst, State.registersOut, State.fresh]
  · cases geom <;> simp [hf]

/-- The engine looks at the command. -/
theorem exec_eq (h : s.CopyFree cid q rest) : exec .copyCommandStart s = .next (s.copyTry cid) := by
  show execCopyCommandStart s = _
  unfold execCopyCommandStart
  simp only [h.evt]

theorem exec_fetch (h : s.CopyFree cid q rest) (hf : q.form ≠ 1) {g : Geom} (hg : geomOf q.form q.opnd.toNat q.third.toNat = some g) :
    exec .copyCommandStart s = .next (s.copyGo cid q g) := by
  rw [h.exec_eq, h.copyTry_eq (absurd · hf)]
  simp [hf, hg]

/-- A copy-out goes once its tile's readers registered before it have finished. -/
theorem exec_out (h : s.CopyFree cid q rest) (herr : ((s.core cid).tile q.tile).err = false)
    (hst : ((s.core cid).tile q.tile).st = .ready) {n : Nat} (hout : ((s.core cid).tile q.tile).out = some n)
    (hfree : ∀ r ∈ ((s.core cid).tile q.tile).readers, n ≤ r) {g : Geom} (hg : geomOf q.form q.opnd.toNat q.third.toNat = some g) :
    exec .copyCommandStart s = .next (s.copyGo cid q g) := by
  have hgo : ((s.core cid).tile q.tile).freeFor n = true := by simpa [Tile.freeFor] using hfree
  rw [h.exec_eq, h.copyTry_eq fun _ => ⟨herr, hst⟩]
  simp [hout, hgo, hg]

/-- A copy-out that has not registered with its tile registers. -/
theorem exec_registers (h : s.CopyFree cid q rest) (hf : q.form = 1) (herr : ((s.core cid).tile q.tile).err = false)
    (hst : ((s.core cid).tile q.tile).st = .ready) (hout : ((s.core cid).tile q.tile).out = none) :
    exec .copyCommandStart s = .next (s.registersOut cid q) := by
  rw [h.exec_eq, h.copyTry_eq fun _ => ⟨herr, hst⟩, if_pos ⟨hf, hout⟩]

end State.CopyFree

end Sys2Proof.Machine

end

-- The copy engine's steps.
section

namespace Sys2Proof.Machine

/-- Behind the stores of its thread a transfer starts. -/
theorem State.copyGo_eq {s : State} {q : CopyCmd} (h : s.storesBefore q = false) (cid : Nat) (g : Geom) :
    s.copyGo cid q g = (s.copyTaken cid q (s.copyXfer cid q g)).copyOn cid (s.copyXfer cid q g) g := by
  rw [State.copyGo, h, if_neg Bool.false_ne_true]

/-- The head command starts, and the transfer stands in its core's list. -/
theorem copyGo_leaves {s : State} {cid : Nat} {q : CopyCmd} {rest : List CopyCmd} {g : Geom} (hq : (s.core cid).cq = q :: rest)
    (ht : q.tile < 64) (hstores : s.storesBefore q = false) {b : Build} {fl : Flags}
    (hb : (s.copyTaken cid q (s.copyXfer cid q g)).build cid q g [] (s.copyXfer cid q g).prog = (b, fl)) (hstop : b.stop = .none) :
    let t := s.copyGo cid q g
    t.mem = b.s.mem ∧ (t.core cid).cq = rest ∧ (s.copyXfer cid q g).built b fl true ∈ (t.core cid).xfers ∧
      (q.form = 1 → ((t.core cid).tile q.tile).st = .draining) := by
  intro t
  have hgo : t = _ := State.copyGo_eq hstores cid g
  obtain ⟨n, hu⟩ := State.copyOn_whole (x := s.copyXfer cid q g) _ hb hstop
  rw [← hgo] at hu
  have h := hu.core cid
  rw [State.core_updCore_self, State.core_updCore_self] at h
  have hkeep := State.build_keeps (s.copyTaken cid q (s.copyXfer cid q g)) cid q g [] (s.copyXfer cid q g).prog cid
  rw [hb] at hkeep
  obtain ⟨hcq, hx⟩ := State.copyTaken_own hq (s.copyXfer cid q g)
  rw [← hkeep.eq (f := Core.xfers)] at hx
  refine ⟨hu.mem, ?_, ?_, fun hf => ?_⟩
  · exact (h.eq (f := Core.cq)).trans ((hkeep.eq (f := Core.cq)).trans hcq)
  · rw [h.eq (f := Core.xfers)]
    exact Core.mem_setXfer (c := { b.s.core cid with cid := cid }) hx rfl
  · rw [h.tile]
    exact (congrArg Tile.st (hkeep.tile q.tile)).trans (s.copyTaken_draining cid hf ht g)

/-- A page is missing: the queue waits, and the transfer keeps what it has read. -/
theorem copyGo_miss_leaves {s : State} {cid : Nat} {q : CopyCmd} {rest : List CopyCmd} {g : Geom} (hq : (s.core cid).cq = q :: rest)
    (hstores : s.storesBefore q = false) {b : Build} {fl : Flags} {va acc : Nat}
    (hb : (s.copyTaken cid q (s.copyXfer cid q g)).build cid q g [] (s.copyXfer cid q g).prog = (b, fl)) (hstop : b.stop = .miss va acc)
    (hm : ∃ m ∈ (b.s.core cid).mbox, m.vpn = va / 2 ^ 16) :
    let t := s.copyGo cid q g
    (t.core cid).cqWait = true ∧ (s.copyXfer cid q g).built b fl false ∈ (t.core cid).xfers := by
  intro t
  have hgo : t = _ := State.copyGo_eq hstores cid g
  have hu := State.copyOn_miss (x := s.copyXfer cid q g) _ hb hstop hm
  rw [← hgo] at hu
  have h := hu.core cid
  rw [State.core_updCore_self, State.core_updCore_self, State.core_updCore_self] at h
  have hkeep := State.build_keeps (s.copyTaken cid q (s.copyXfer cid q g)) cid q g [] (s.copyXfer cid q g).prog cid
  rw [hb] at hkeep
  obtain ⟨-, hx⟩ := State.copyTaken_own hq (s.copyXfer cid q g)
  rw [← hkeep.eq (f := Core.xfers)] at hx
  refine ⟨h.eq (f := Core.cqWait), ?_⟩
  rw [h.eq (f := Core.xfers)]
  exact Core.mem_setXfer (c := { b.s.core cid with cid := cid }) hx rfl

/-! Bytes arrive. -/

/-- Down to the die's cycles and back up again, no cycle is passed (R374). -/
theorem State.dieAfter_zero (s : State) (die t : Nat) : s.dieAfter die t 0 = t := by
  unfold State.dieAfter
  extract_lets f
  clear_value f
  split
  · rfl
  · next hf =>
    have hle : ((t + 1) * f / 1200 + 0) * 1200 ≤ (t + 1) * f := Nat.div_mul_le_self _ _
    have hsucc : (t + 1 + 1) * f = (t + 1) * f + f := Nat.succ_mul _ _
    have hdiv : (((t + 1) * f / 1200 + 0) * 1200 + f - 1) / f < t + 1 + 1 :=
      (Nat.div_lt_iff_lt_mul (Nat.pos_of_ne_zero hf)).2 (by omega)
    omega

theorem State.ticks_zero (s : State) (die : Nat) : s.ticks die 0 = 0 := by
  unfold State.ticks
  rw [State.dieAfter_zero, Nat.sub_self]

/-- Memory and the tiles of the cores have stayed. -/
structure State.TilesStay (s t : State) : Prop where
  mem : t.mem = s.mem
  tile : ∀ k j, (t.core k).tile j = (s.core k).tile j

namespace State.TilesStay

variable {s t u : State}

theorem refl (s : State) : s.TilesStay s := ⟨rfl, fun _ _ => rfl⟩

theorem trans (h : s.TilesStay t) (k : t.TilesStay u) : s.TilesStay u :=
  ⟨k.mem.trans h.mem, fun c j => (k.tile c j).trans (h.tile c j)⟩

theorem of_enginesStay (h : s.EnginesStay t) : s.TilesStay t := ⟨h.mem, fun k j => (h.core k).tile j⟩

theorem updXfers (s : State) (cid : Nat) (f : List Xfer → List Xfer) :
    s.TilesStay (s.updCore cid fun c => { c with xfers := f c.xfers }) := by
  refine ⟨rfl, fun k j => ?_⟩
  by_cases hk : k = cid
  · subst hk
    rw [State.core_updCore_self]
    rfl
  · rw [State.core_updCore_ne _ _ _ _ hk]

theorem updXfer (s : State) (cid tok : Nat) (f : Xfer → Xfer) : s.TilesStay (s.updXfer cid tok f) := updXfers s cid _

end State.TilesStay

/-- The bytes of u have arrived in a tile. -/
def Tile.lands (u : XUnit) (x : Tile) : Tile :=
  { x with
    arrived := x.arrived + u.bytes.length, pois := x.pois || u.pois
    st := if x.arrived + u.bytes.length = x.expected then .ready else .filling }

/-- Bytes that a FILLING tile expects arrive all. -/
theorem State.arrive_leaves {s : State} {rc : Nat} {q : CopyCmd} {u : XUnit} (hst : ((s.core rc).tile q.tile).st = .filling)
    (hfit : ((s.core rc).tile q.tile).arrived + u.bytes.length ≤ ((s.core rc).tile q.tile).expected)
    (hbad : s.tileBad rc q.tile u.off u.bytes.length = none) :
    ∃ v, ((s.putTile rc q.tile u.off u.bytes).updTile rc q.tile (Tile.lands u)).EnginesStay v ∧
      s.arrive rc q u = (u.bytes.length, none, v) := by
  have hmin : min u.bytes.length (((s.core rc).tile q.tile).expected - ((s.core rc).tile q.tile).arrived) = u.bytes.length := by
    omega
  unfold State.arrive
  simp only [hst, hmin, hbad, bne_self_eq_false, Bool.false_eq_true, if_false, lt_irrefl, decide_false, Bool.or_false, List.take_length]
  refine ⟨_, ?_, rfl⟩
  split
  · exact .tileChanged _ _
  · exact .refl _

theorem CopyCmd.mop_of_block_none {q : CopyCmd} (h : q.block = none) : q.mop = 0 := by
  simp [CopyCmd.mop, CopyCmd.word, h]

/-- A transfer of a command without a follow-on has landed whole. -/
theorem State.copyDone_leaves (s : State) (cid : Nat) {x : Xfer} (hr : x.recvs.any (·.failed) = false) (hm : x.cmd.mop = 0) :
    s.TilesStay (s.copyDone cid x) := by
  unfold State.copyDone
  simp only [hr, hm, bne_self_eq_false, Bool.false_eq_true, if_false]
  exact ((State.TilesStay.of_enginesStay (.updThere _ _ _)).trans (.updXfers _ _ _)).trans (.of_enginesStay (.urgent _ _))

/-- The only unit of a transfer lands at a receiver without a lag. -/
theorem State.landUnits_leaves {s : State} {rc cid : Nat} {q : CopyCmd} {u : XUnit} (hdue : u.due ≤ s.now)
    (hst : ((s.core rc).tile q.tile).st = .filling)
    (hfit : ((s.core rc).tile q.tile).arrived + u.bytes.length ≤ ((s.core rc).tile q.tile).expected)
    (hbad : s.tileBad rc q.tile u.off u.bytes.length = none) :
    ∃ v, ((s.putTile rc q.tile u.off u.bytes).updTile rc q.tile (Tile.lands u)).EnginesStay v ∧
      s.landUnits { cid := rc, lag := 0, next := 0, failed := false } cid q [u] 0 0 = (1, u.bytes.length, none, v) := by
  obtain ⟨v, hv, harr⟩ := State.arrive_leaves hst hfit hbad
  refine ⟨if u.bytes.length = 0 || rc == cid then v else v.markSide (v.partNum cid) q.lvlFam none, hv.trans ?_, ?_⟩
  · split
    · exact .refl v
    · exact .markSide _ _ _ _
  · unfold State.landUnits
    simp only [State.ticks_zero, harr, Nat.add_zero, not_lt.2 hdue, if_false, Bool.false_eq_true, State.landUnits, Nat.zero_add]

/-- The only unit of a transfer arrives at its only receiver. -/
theorem exec_tileBytesArrive {s : State} {cid tok rc : Nat} {x : Xfer} {u : XUnit} (he : s.evt = .tileBytesArrive rc tok)
    (hx : s.xfer tok = some (cid, x)) (hend : x.ended = false) (hu : x.units = [u])
    (hr : x.recvs = [{ cid := rc, lag := 0, next := 0, failed := false }]) (hfail : x.fail = none) (hb : x.cmd.block = none)
    (hdue : u.due ≤ s.now) (hhalt : (s.core cid).halts x = false) (hst : ((s.core rc).tile x.cmd.tile).st = .filling)
    (hfit : ((s.core rc).tile x.cmd.tile).arrived + u.bytes.length ≤ ((s.core rc).tile x.cmd.tile).expected)
    (hbad : s.tileBad rc x.cmd.tile u.off u.bytes.length = none) :
    ∃ t, exec .tileBytesArrive s = .next t ∧
      ((s.putTile rc x.cmd.tile u.off u.bytes).updTile rc x.cmd.tile (Tile.lands u)).TilesStay t := by
  obtain ⟨v, hv, hland⟩ := State.landUnits_leaves (cid := cid) hdue hst hfit hbad
  have hall : ([u][1]? : Option XUnit) = none := rfl
  show ∃ t, execTileBytesArrive s = .next t ∧ _
  unfold execTileBytesArrive
  simp only [he, hx, hhalt, hend, hr, hu, List.find?_cons, beq_self_eq_true, List.drop_zero, hland, hall, hfail, Bool.false_eq_true,
    if_false]
  have hstay (f : Xfer → Xfer) := (State.TilesStay.of_enginesStay hv).trans (.updXfer v cid tok f)
  refine ⟨_, rfl, ?_⟩
  split
  · exact hstay _
  · exact (hstay _).trans (State.copyDone_leaves _ _ (by simp) (CopyCmd.mop_of_block_none hb))

/-- Bytes that arrive stand in their tile, which is READY with the last. -/
theorem tileBytesArrive_leaves {s : State} (hs : s.Sound) {rc : Nat} {q : CopyCmd} (ht : q.tile < 64) {u : XUnit} {t : State}
    (h : ((s.putTile rc q.tile u.off u.bytes).updTile rc q.tile (Tile.lands u)).TilesStay t) :
    Memory.bytes t.mem (scratchPa rc ((s.core rc).tile q.tile).base + u.off) u.bytes.length = u.bytes ∧
      (t.core rc).tile q.tile = ((s.core rc).tile q.tile).lands u := by
  constructor
  · rw [h.mem, State.updTile, State.updCore_mem, State.putTile_mem]
    exact Memory.bytes_putAll hs _ _
  · rw [h.tile, State.updTile, State.core_updCore_self, State.core_putTile]
    exact Core.tile_updTile_self _ ht _

/-! A copy-out ends. -/

theorem State.awayAt_congr {s t : State} (hd : t.dev = s.dev) (hp : t.parts = s.parts) (pa : Nat) : t.awayAt pa = s.awayAt pa := by
  unfold State.awayAt State.loc State.partOf
  rw [hd, hp]

/-- A unit of memory itself is written at its home. -/
theorem State.outUnits_cons {s : State} {u : XUnit} (hl : u.lvl = none) (ha : s.awayAt u.pa = none) (cid : Nat) (q : CopyCmd)
    (us : List XUnit) :
    ∃ v : State, s.outUnits cid q (u :: us) = v.outUnits cid q us ∧ (∀ pa, v.awayAt pa = s.awayAt pa) ∧
      v.mem = Memory.putAll s.mem u.pa u.bytes := by
  rw [State.outUnits]
  by_cases he : u.bytes = []
  · exact ⟨s, by rw [if_pos (by rw [he]; rfl)], fun _ => rfl, by rw [he]; rfl⟩
  · have hcalm := ((s.calm_l1Drop cid fun l => l.over u.pa 64).trans (State.calm_l2Wrote _ u.pa u.cache 64)).trans
      (State.calm_putBytes _ (s.partNum cid) u.va u.pa u.bytes)
    have hmem : ((((s.l1Drop cid fun l => l.over u.pa 64).l2Wrote u.pa u.cache 64).putBytes (s.partNum cid) none u.va u.pa u.bytes).mem) =
        Memory.putAll s.mem u.pa u.bytes := by
      rw [State.putBytes_none_mem, State.l2Wrote_mem]
      rfl
    simp only [List.isEmpty_iff, he, if_false, ha, hl, State.storeFull, Option.isSome_none, Bool.or_false, Bool.false_eq_true]
    refine ⟨_, rfl, fun pa => ?_, ?_⟩
    · split
      · exact State.awayAt_congr hcalm.dev hcalm.parts pa
      · rw [State.markSide_eq]
        exact State.awayAt_congr hcalm.dev hcalm.parts pa
    · split
      · exact hmem
      · rw [State.markSide_eq]
        exact hmem

/-- Units of memory itself, in banks that are not away, are all written. -/
theorem State.outUnits_nil (cid : Nat) (q : CopyCmd) (us : List XUnit) :
    ∀ s : State, (∀ u ∈ us, u.lvl = none ∧ s.awayAt u.pa = none) → (s.outUnits cid q us).1 = [] := by
  induction us with
  | nil => exact fun _ _ => rfl
  | cons u us ih =>
    intro s h
    obtain ⟨hl, ha⟩ := h u List.mem_cons_self
    obtain ⟨v, hv, haway, -⟩ := State.outUnits_cons hl ha cid q us
    rw [hv]
    exact ih v fun w hw => ⟨(h w (List.mem_cons_of_mem _ hw)).1, by rw [haway]; exact (h w (List.mem_cons_of_mem _ hw)).2⟩

theorem State.unheld_mem (s : State) (part tok : Nat) : (s.unheld part tok).mem = s.mem := by
  unfold State.unheld
  split
  · dsimp only
    split <;> rfl
  · rfl

/-- The copy-out of tile t has ended. -/
def Core.endOut (t tok : Nat) (c : Core) : Core :=
  { c.updTile t (fun x => { x with st := .empty, rel := none }) with xfers := c.xfers.filter fun y => y.tok != tok }

theorem exec_copyOutComplete {s : State} {cid tok : Nat} {x : Xfer} (he : s.evt = .copyOutComplete cid tok)
    (hx : s.xfer tok = some (cid, x)) (hfail : x.fail = none) (hu : (s.outUnits cid x.cmd x.units).1 = []) :
    exec .copyOutComplete s = .next (((((s.outUnits cid x.cmd x.units).2.unheld (s.partNum cid) tok).updCore cid
      (Core.endOut x.cmd.tile tok)).tileChanged cid).urgent (.copyCommandStart cid)) := by
  show execCopyOutComplete s = _
  unfold execCopyOutComplete
  simp only [he, hx, hu, hfail]
  rfl

theorem BuildStop.eq_none {x : BuildStop} (h : x matches .none) : x = .none := by
  cases x with
  | none => rfl
  | miss => cases h
  | wait => cases h
  | fail => cases h

/-- Settles O44: the engine's steps one by one. -/
theorem copyEngineSteps : Obligations.CopyEngineSteps := by
  unfold Obligations.CopyEngineSteps
  intro s cid hs c
  refine ⟨fun q rest g he hq hhalt hwait hfrom hfree hxs hrun hblock ht hout hg hstores hstop => ?_,
    fun q rest he hq hhalt hwait hfrom hfree hxs hrun hblock ht hf herr hst hnone => ?_,
    fun q rest g va acc he hq hhalt hwait hfrom hfree hxs hrun hblock hf hg hstores hstop hm => ?_,
    fun tok x u rc he hx _ hend hu hr hfail hblock ht hdue hhalt hst hfit hbad => ?_,
    fun tok x he hx hfail ht hus => ?_⟩
  · have hgo : exec .copyCommandStart s = .next (s.copyGo cid q g) := by
      have h : s.CopyFree cid q rest := ⟨he, hq, hhalt, hwait, hfrom, hfree, hxs, hrun, hblock⟩
      by_cases hf : q.form = 1
      · obtain ⟨herr, hst, n, hn, hreaders⟩ := hout hf
        exact h.exec_out herr hst hn hreaders hg
      · exact h.exec_fetch hf hg
    have hnone := BuildStop.eq_none hstop
    obtain ⟨hmem, hcq, hin, htile⟩ := copyGo_leaves hq ht hstores rfl hnone
    exact ⟨_, _, hgo, hmem, hcq, hin, rfl, rfl, rfl, rfl, rfl, rfl, htile⟩
  · have h : s.CopyFree cid q rest := ⟨he, hq, hhalt, hwait, hfrom, hfree, hxs, hrun, hblock⟩
    have hcore : ((({ s with ctr := s.ctr + 1 } : State).updTile cid q.tile fun t => { t with out := some s.ctr }).core cid) = _ :=
      State.core_updCore_self _ _ _
    refine ⟨_, s.ctr, h.exec_registers hf herr hst hnone, rfl, ?_, ?_, rfl⟩
    · exact (congrArg Core.cq hcore).trans (Core.updTile_keeps Core.cq _ _ _)
    · exact (congrArg (Core.tile · q.tile) hcore).trans (Core.tile_updTile_self _ ht _)
  · have h : s.CopyFree cid q rest := ⟨he, hq, hhalt, hwait, hfrom, hfree, hxs, hrun, hblock⟩
    obtain ⟨hcw, hin⟩ := copyGo_miss_leaves hq hstores rfl hstop hm
    exact ⟨_, h.exec_fetch hf hg, hcw, _, hin, rfl, rfl, rfl, rfl⟩
  · obtain ⟨t, hexec, hstay⟩ := exec_tileBytesArrive he hx hend hu hr hfail hblock hdue hhalt hst hfit hbad
    exact ⟨t, hexec, tileBytesArrive_leaves hs ht hstay⟩
  · have hend := (State.EnginesStay.tileChanged (((s.outUnits cid x.cmd x.units).2.unheld (s.partNum cid) tok).updCore cid
      (Core.endOut x.cmd.tile tok)) cid).trans (.urgent _ (.copyCommandStart cid))
    have h := hend.core cid
    rw [State.core_updCore_self] at h
    refine ⟨_, exec_copyOutComplete he hx hfail (State.outUnits_nil cid x.cmd x.units s hus), ?_, fun y hy => ?_, fun u hu => ?_⟩
    · rw [h.tile]
      exact congrArg Tile.st (Core.tile_updTile_self _ ht _)
    · rw [h.eq (f := Core.xfers)] at hy
      simpa using (List.mem_filter.1 hy).2
    · obtain ⟨hl, ha⟩ := hus u (by simp [hu])
      obtain ⟨v, hv, -, hmem⟩ := State.outUnits_cons hl ha cid x.cmd []
      rw [hend.mem, State.updCore_mem, State.unheld_mem, hu, hv]
      exact (congrArg (Memory.bytes · u.pa u.bytes.length) hmem).trans (Memory.bytes_putAll hs _ _)

end Sys2Proof.Machine

end
